-- ==== Sys2Proof/Word.lean ====
section
/-! DEFINITION. The word types of the block: bytes, 32-bit registers, sparse tables keyed by a
number, and byte memories held as lists of cells. -/

namespace Sys2Proof

/-- A byte of memory, of a descriptor or of a ring entry. -/
abbrev Byte := BitVec 8

/-- A 32-bit register of the configuration window (R7). -/
abbrev Word := BitVec 32

/-- A sparse table: entries with strictly rising keys. -/
abbrev Table (α : Type) := List (Nat × α)

/-- A byte memory: cells with strictly rising addresses, none of them zero. -/
abbrev Mem := List (Nat × BitVec 8)

/-- A row of a register table: the window offset of its first register, how many registers it
stands for in one or two strides, which bits software writes under each access code of R7, and the
reset value. Bits in none of the masks are RO or reserved. -/
structure RegRow where
  off : Nat
  n : Nat := 1
  step : Nat := 4
  n2 : Nat := 1
  step2 : Nat := 4
  rw : Nat := 0
  rwl : Nat := 0
  w1c : Nat := 0
  wo : Nat := 0
  reset : Nat := 0
  deriving DecidableEq, Repr

end Sys2Proof
end

