-- ==== Sys2Proof/Syntax.lean ====
section
/-! DEFINITION. The commands of the block: one constructor per row of the table of operations and
events. Operands are what the outside brings with the event; what the block already holds comes
from the state. An operand with a default is a mishap or a state of the surroundings (an item lost, a read error, a
queue full, a deadline reached) that the sender names where it occurs. -/

namespace Sys2Proof


/-- The commands, in the order of the table. -/
inductive Instr where
  /-- R80: PORST_N 
  Assertion of the cold reset returns the whole block to reset values and loses every table, key and lock. -/
  | porstN
  /-- R48: CELLAR_RST_N 
  Assertion of the cellar reset resets the cellar and with it every field controller and core agent. -/
  | cellarRstN
  /-- R48: CORE_RST_N_ASSERT 
  Assertion of the core-side reset kills every uncommitted command with cause CORE_RESET and treats every core as busy. -/
  | coreRstNAssert
  /-- R48: CORE_RST_N_RELEASE 
  Release of the core-side reset returns quarantined and killed frames and starts core-side BIST and field training. -/
  | coreRstNRelease
  /-- R669: CELLAR_RESET_RELEASE 
  Release of CELLAR_RST_N and PORST_N starts the cellar March C- test and the CAU known-answer tests. -/
  | cellarResetRelease
  /-- R681: TRST_N Assertion of the test reset puts every wrapper in WS_BYPASS. -/
  | trstN
  /-- R669: CELLAR_BIST_DONE 
  End of the cellar marches repairs rows, sets CELLAR_READY or CEL_BIST_FAIL, and starts background zeroing. -/
  | cellarBistDone (repairs : Nat) (bad : Option (Nat × Nat))
  /-- R178: KAT_DONE 
  The CAU known-answer tests end and set KAT_PASS or KAT_FAIL, with a KAT_FAIL error record on failure. -/
  | katDone (ok : Bool)
  /-- R671: CORE_BIST_DONE 
  End of the core-side march marks cores, REX units or fields FAILED for unrepairable memories. -/
  | coreBistDone (f : Fin 8) (bad : List (Nat × Nat))
  /-- R673: FIELD_TRAINING_START 
  Once its BIST has passed and CELLAR_READY is 1, a field begins clock lock and PRBS training of its vertical link. -/
  | fieldTrainingStart (f : Fin 8)
  /-- R673: FIELD_TRAINING_END 
  Vertical-link training ends READY, raising FIELD_READY, or FAILED with LINK_TRAIN_FAIL. -/
  | fieldTrainingEnd (f : Fin 8) (clkOk : Bool) (down : Nat) (up : Nat) (left : Nat) (wordErr : Bool := false)
  /-- R674: FIELD_LINK_TRAINING_END 
  Field-link training ends and any erring link is marked down in TST_FL_DOWN. -/
  | fieldLinkTrainingEnd (n : Fin 7) (lanes : Nat)
  /-- R106: FLD_CLK_STATE_CHANGE 
  A change of a field's clock state switches stamp counting and stamp quality and counts lost cycles. -/
  | fldClkStateChange (f : Fin 8) (st : Fin 4) (edges : Fin 3)
  /-- R61: FLD_OFF_REQ_RISE A power-down request makes RDY treat every core of the field as busy. -/
  | fldOffReqRise (f : Fin 8)
  /-- R61: FLD_OFF_ACK 
  Once the field holds no task and its queues are empty, Abalo raises FLD_OFF_ACK. -/
  | fldOffAck (f : Fin 8)
  /-- R62: FLD_OFF_REQ_FALL 
  The fall of the power-down request counts as a power-up with march and training, or resumes dispatch at once. -/
  | fldOffReqFall (f : Fin 8)
  /-- R241: GATE_IDLE_EXPIRY After GATE_IDLE cc with no running slot, the core agent raises GATE_REQ. -/
  | gateIdleExpiry (core : Fin 4096)
  /-- R240: GATE_ACK_FALL The fall of GATE_ACK lets a waiting start proceed on a woken core. -/
  | gateAckFall (core : Fin 4096)
  /-- R77: CCLK_FREQ_CHECK 
  SAF compares CCLK with GTB_REF over 10 us and raises the safe state on a departure above 1 %. -/
  | cclkFreqCheck (mhz : Nat)
  /-- R95: GTB_FRAME 
  A GTB_CODE frame is judged good or bad, and the third good frame of an acquisition loads group time. -/
  | gtbFrame (bits : BitVec 96) (spaced : Bool)
  /-- R99: REF_LOSS No GTB_REF edge within 40 ns declares a reference loss and enters HOLDOVER. -/
  | refLoss
  /-- R96: GTB_LOCKED After 16 edges with phase error below 0.25 ns, GTB sets STATE to LOCKED. -/
  | gtbLocked
  /-- R100: HOLD_EXPIRED 
  HOLDOVER lasting GTB_HOLD_LIMIT us enters UNKNOWN, sets HOLD_EXPIRED and sends an error record. -/
  | holdExpired
  /-- R101: SLEW_END A backward difference is fully absorbed and SLEWING falls to 0. -/
  | slewEnd
  /-- R107: GTB_TIME_WORD 
  Every 8 CCLK GTB sends a time word that a field stamp counter loads while its clock is not at full rate. -/
  | gtbTimeWord
  /-- R129: SQN_DB A write to a submission doorbell is accepted as the new producer count or refused. -/
  | sqnDb (c : Fin 64) (r : Fin 4) (v : Word) (mem : List (Nat × BitVec 8))
  /-- R130: CQ_DB 
  A write to the completion doorbell sets the CQ consumer count, freeing space for held entries. -/
  | cqDb (c : Fin 64) (v : Word)
  /-- R130: EQ_DB 
  A write to the event doorbell sets the EQ consumer count and lets an EVENTS_LOST entry be written. -/
  | eqDb (c : Fin 64) (v : Word)
  /-- R153: IRQ_REARM_CLEAR 
  IRQ_REARM bit 0 clears MASK and sends one pending message subject to holdoff. -/
  | irqRearmClear (c : Fin 64)
  /-- R153: IRQ_REARM_SET IRQ_REARM bit 1 sets MASK. -/
  | irqRearmSet (c : Fin 64)
  /-- R128: DOORBELL_BAD_ACCESS 
  An access to a doorbell page that is not 4 B aligned completes with zero data and sets DB_BAD_ACCESS. -/
  | doorbellBadAccess (c : Fin 64)
  /-- R133: DESCRIPTOR_FETCH HIF issues a fetch read of descriptors for a ring in round-robin order. -/
  | descriptorFetch
  /-- R135: DESCRIPTOR_RECEIVED 
  A fetched descriptor is checked in order and passed to CAU or its unit, or refused with a completion. -/
  | descriptorReceived
  /-- R142: RING_FETCH_ERROR 
  A host read error on a fetch stops the ring and writes a RING_FETCH_ERROR event. -/
  | ringFetchError
  /-- R166: CAU_CHECK 
  CAU checks slot, owner, class, tag and counter of the next critical command once the previous one is resolved. -/
  | cauCheck
  /-- R145: COMPLETION_ENTRY_WRITE 
  HIF writes a completion entry when its effects are visible and CQ has a free slot. -/
  | completionEntryWrite
  /-- R152: HOLDOFF_END 
  The interrupt holdoff interval ends and one message is sent for pending causes. -/
  | holdoffEnd (c : Fin 64)
  /-- R155: NOP The NOP command completes at acceptance with RESULT equal to operand bytes 4-11. -/
  | nop
  /-- R204: GRAPH_LOAD 
  GRAPH_LOAD checks its operands and header, reserves resources and starts streaming the image. -/
  | graphLoad (readErr : Bool)
  /-- R206: GRAPH_LOAD_INSTALL 
  The streamed body is digested, dry-passed and installed, or the load fails with IMAGE_CHECK. -/
  | graphLoadInstall (err : Option Nat) (lost : Nat := 0)
  /-- R211: GRAPH_LAUNCH 
  GRAPH_LAUNCH checks vintage and image and begins a step or holds it as the pending launch. -/
  | graphLaunch
  /-- R214: LAUNCH_BEGIN 
  A launch begins with the model, parcel and task-waiter checks and object materialisation. -/
  | launchBegin
  /-- R214: STEP_START 
  After the launch checks and materialisations complete, the step starts its sweep. -/
  | stepStart
  /-- R214: SWEEP_ROW 
  In each CCLK of the sweep, each bank resets the counters of one row, posts waits and passes INIT-0 tasks to RDY. -/
  | sweepRow
  /-- R288: GRAPH_ABORT 
  GRAPH_ABORT tears down a running step with cause ABORT and may cancel the pending launch. -/
  | graphAbort
  /-- R218: GRAPH_UNLOAD GRAPH_UNLOAD invalidates an image record and starts zeroing its blocks. -/
  | graphUnload
  /-- R218: UNLOAD_ZEROING_DONE 
  Zeroing of an unloaded image ends, the blocks return to the free lists and the command completes. -/
  | unloadZeroingDone
  /-- R408: IMAGE_LOAD 
  IMAGE_LOAD checks its operands and copies an instruction image into the alternate generation buffer. -/
  | imageLoad
  /-- R408: IMAGE_LOAD_DONE 
  The copy ends, the CRC is checked and ACTIVE switches to the written buffer. -/
  | imageLoadDone (c : Fin 64) (img : Fin 16) (err : Option Nat) (lost : Nat := 0)
  /-- R306: SYNC_SIGNAL 
  A host SIGNAL, or ARRIVE on a barrier, is applied to an object and waiters are granted. -/
  | syncSignal
  /-- R310: SYNC_SIGNAL_TO A host directed signal adds units for one tag or grants the named waiter. -/
  | syncSignalTo
  /-- R154: SYNC_WAIT A host wait is granted at once or queued until granted. -/
  | syncWait
  /-- R307: SYNC_DECREMENT A host decrement lowers VALUE or is refused with SYNC_UNDERFLOW. -/
  | syncDecrement
  /-- R658: SYNC_DUMP 
  SYNC_DUMP checks its operands and starts writing objects and waiter entries to memory. -/
  | syncDump
  /-- R660: SYNC_DUMP_DONE 
  The dump writes its header after the last block and completes with the bytes and objects written. -/
  | syncDumpDone
  /-- R661: SYNC_FORCE 
  SYNC_FORCE writes selected fields of one object in both copies and grants waiters. -/
  | syncForce
  /-- R362: CHAN_DECANT 
  CHAN_DECANT raises a channel's epoch, frees its ring records and returns its credit. -/
  | chanDecant
  /-- R496: SERVE_OPEN SERVE_OPEN checks and binds a serving context and begins the first assembly. -/
  | serveOpen (readErr : Bool := false)
  /-- R527: SERVE_CLOSE 
  SERVE_CLOSE stops admissions, or aborts the batch step, until every slot is free. -/
  | serveClose
  /-- R539: PARCEL_DEFINE 
  PARCEL_SET in mode DEFINE sets a parcel's clusters and memory options, racking bound contexts. -/
  | parcelDefine
  /-- R539: PARCEL_BIND 
  PARCEL_SET in mode BIND binds a context to a parcel, killing its commands on leaving clusters. -/
  | parcelBind
  /-- R539: PARCEL_DISSOLVE PARCEL_SET in mode DISSOLVE removes a parcel with no bound context. -/
  | parcelDissolve
  /-- R539: PARCEL_INSTALL 
  Once every killed command has ended, PSM installs the new cluster set, binding and masks. -/
  | parcelInstall
  /-- R543: SHARE_SET SHARE_SET writes a context's share weight to the PSM shadow. -/
  | shareSet
  /-- R556: CTX_SAVE 
  CTX_SAVE pre-empts the context and runs its save task on every core of the parcel. -/
  | ctxSave
  /-- R557: CTX_RESTORE 
  CTX_RESTORE runs the restore task on the parcel and returns the context to ACTIVE. -/
  | ctxRestore
  /-- R559: MODEL_SWITCH MODEL_SWITCH adopts or streams a new resident model into a STREAM region. -/
  | modelSwitch
  /-- R597: FW_LOAD FW_LOAD halts the cores, zeroes SRAM and streams a firmware image. -/
  | fwLoad
  /-- R597: FW_LOAD_DONE 
  The firmware image is checked and started with its calibration set, or the load fails. -/
  | fwLoadDone (err : Option Nat) (lost : Nat := 0)
  /-- R603: CAL_WRITE CAL_WRITE overwrites selected calibration items in place. -/
  | calWrite
  /-- R173: KEY_LOAD 
  KEY_LOAD unwraps a key into a slot with owner, classes and floor, or enrols the root key. -/
  | keyLoad
  /-- R175: KEY_RETIRE KEY_RETIRE empties a key slot. -/
  | keyRetire
  /-- R641: TRACE_START TRACE_CTL START sets the owner and region and starts every trace stream. -/
  | traceStart
  /-- R641: TRACE_FILTER TRACE_CTL FILTER sets the context mask and record types. -/
  | traceFilter
  /-- R641: TRACE_FLUSH TRACE_CTL FLUSH completes once every earlier record is written. -/
  | traceFlush
  /-- R641: TRACE_STOP TRACE_CTL STOP flushes and stops trace writing. -/
  | traceStop
  /-- R662: DBG_WRITE DBG_WRITE writes masked bits of a register bypassing RWL and MGC-only locks. -/
  | dbgWrite
  /-- R227: DISPATCH_SELECT 
  Each CCLK RDY chooses contexts, tasks and fields and sends DISPATCH records, or stages tasks. -/
  | dispatchSelect
  /-- R231: DISPATCH_RECORD 
  A DISPATCH record reaching a field controller is placed on the lowest-index free core and engine. -/
  | dispatchRecord (f : Fin 8)
  /-- R238: WITHDRAW 
  A WITHDRAW record takes the head staged task of an engine to a freed engine, or is void. -/
  | withdraw (f : Fin 8)
  /-- R242: END_VALID 
  An engine end is handled by its code: COMPLETE record, stop after kill, or engine fault marking the core FAILED. -/
  | endValid (core : Fin 4096) (engine : Fin 8) (slot : Fin 4) (code : Fin 16) (mem : List (Nat × BitVec 8)) (lost : Bool := false)
  /-- R18: EFF_VALID An effect request from an engine is counted and forwarded as an EFFECT record. -/
  | effValid (core : Fin 4096) (slot : Fin 4) (data : BitVec 128)
  /-- R258: EFFECT_RECORD 
  A unit registers an EFFECT record as a held provisional effect of its command. -/
  | effectRecord (f : Fin 8) (full : Bool := false)
  /-- R266: COMPLETE_RECORD 
  A COMPLETE record reaching CMT frees the engine count and may make the command ready to commit. -/
  | completeRecord (f : Fin 8)
  /-- R269: COMMIT 
  At its commit point a command's remaps, held effects and out-edge decrements are applied. -/
  | commit (lost : Fin 8 := 0)
  /-- R277: KILL_ORDER 
  A kill order reaching the core agent frees a staged slot or raises KILL on a running one. -/
  | killOrder (f : Fin 8)
  /-- R54: KILL_TIMEOUT 
  No END within 4,096 cc of KILL marks the core or REX FAILED and quarantines the fresh pages. -/
  | killTimeout
  /-- R286: WATCHDOG 
  At the delay-tick boundary after its watchdog time a command without commit point is killed with cause WATCHDOG. -/
  | watchdog
  /-- R287: TEARDOWN_END 
  Once every killed command has ended, TGE ends the step and HIF writes the completion. -/
  | teardownEnd
  /-- R189: DECREMENT_APPLY 
  A TGE bank compares both counter copies and lowers COUNT, making tasks ready, live, delayed or committed. -/
  | decrementApply (bank : Fin 16)
  /-- R246: TMR_INSERT A delayed task takes a free timer entry, or waits in RDY until one frees. -/
  | tmrInsert
  /-- R247: TMR_RELEASE At a due delay-tick boundary TMR releases its due entries to RDY or CMT. -/
  | tmrRelease
  /-- R568: GATE_EVALUATE 
  When its COUNT is 0 and earlier commits are applied, a gate reads its record and loss and passes or fails. -/
  | gateEvaluate (stErr : Bool) (lossErr : Bool)
  /-- R691: GATE_RECORD_WRITE 
  The gate record write is made, waiting for a frame if needed, before the pass commits or the failure completes. -/
  | gateRecordWrite (walkErr : Bool := false)
  /-- R303: SYNC_WAIT_EFFECT 
  A WAIT effect request takes effect at registration and is granted or queued. -/
  | syncWaitEffect
  /-- R296: OBJECT_MATERIALISE 
  After the declaration read, SYN creates the object and applies the operation, or refuses it. -/
  | objectMaterialise (readOk : Bool)
  /-- R319: WAKE_BEAT A grant reaching the waiting slot is delivered as a wake beat to the engine. -/
  | wakeBeat (f : Fin 8)
  /-- R321: GRANT_ACK Acknowledged delivery of a grant frees its waiter entry. -/
  | grantAck
  /-- R326: CHIP_ARRIVE 
  A chip arrival flit at the home chip is counted, kept as early, or discarded, and may fix the release instant. -/
  | chipArrive (p : Fin 16) (chip : Fin 4096) (xb : Fin 4096) (sense : Bool)
  /-- R329: XB_RELEASE A release flit schedules the barrier phase completion at its instant T. -/
  | xbRelease (p : Fin 16) (chip : Fin 4096) (xb : Fin 4096) (sense : Bool) (t : BitVec 64)
  /-- R329: BARRIER_RELEASE_INSTANT 
  At instant T each chip completes the cross-chip phase and releases its waiters. -/
  | barrierReleaseInstant
  /-- R349: SEND_CREDIT_GRANT A waiting send receives all of its credit in order and is registered. -/
  | sendCreditGrant
  /-- R359: RECORD_ASSIGN 
  A ring record whose write has returned is assigned to a live handler, starting a HANDLER run. -/
  | recordAssign
  /-- R356: MSG 
  A remote message item is checked against epoch and credit and written to the receiving ring. -/
  | msg (p : Fin 16) (chip : Fin 4096) (key : BitVec 16) (epoch : Word) (item : List (BitVec 8))
  /-- R356: EPOCH_NOTICE An epoch notice updates the SEND record's epoch copy. -/
  | epochNotice (p : Fin 16) (chip : Fin 4096) (key : BitVec 16) (epoch : Word) (isOpen : Bool)
  /-- R352: REMOTE_CREDIT A remote credit flit returns units to a SEND record or blend queue. -/
  | remoteCredit (p : Fin 16) (chip : Fin 4096) (key : BitVec 16) (units : Word) (queue : Bool)
  /-- R366: BLEND A remote contribution item is taken into its home queue slot or refused. -/
  | blend (p : Fin 16) (chip : Fin 4096) (key : BitVec 16) (slot : Fin 4096) (item : List (BitVec 8))
  /-- R366: CHAIN A chained running sum arrives as a CHAIN queue's incoming sum. -/
  | chain (p : Fin 16) (chip : Fin 4096) (key : BitVec 16) (item : List (BitVec 8))
  /-- R368: CONTRIBUTION_INTAKE 
  A blend queue takes in one committed contribution, storing it in its leaf or adding it. -/
  | contributionIntake (lost : Bool := false)
  /-- R366: TREE_ADD A blend queue performs one tree node add that has become possible. -/
  | treeAdd
  /-- R371: FLIT_SEND A flit leaves the outbound buffer for the link and returns its credit. -/
  | flitSend (p : Fin 16)
  /-- R373: LINK_UP_FALL 
  A link going down discards the port's outbound flits and sends a LINK_DOWN record. -/
  | linkUpFall (p : Fin 16)
  /-- R632: LINK_UP_RISE A link coming up carries new flits and the waiting reservations in order. -/
  | linkUpRise (p : Fin 16)
  /-- R466: TRANSLATION_REQUEST 
  PAT answers a translation request with a frame, a fresh frame or a fault. -/
  | translationRequest (f : Fin 8) (bits : BitVec 128) (walkErr : Bool) (full : Bool := false)
  /-- R478: FRAME_WAIT_GRANT A request that waited for a frame or quota takes it in order. -/
  | frameWaitGrant
  /-- R473: DEFERRED_RELEASE 
  A superseded or released frame leaves deferred release once its readers have ended. -/
  | deferredRelease
  /-- R474: FRAME_ZEROED 
  Background zeroing of a free frame ends and the frame enters the pre-zeroed pool. -/
  | frameZeroed (st : Fin 24)
  /-- R483: STREAM_FILL_DONE 
  A STREAM page fill completes, the page is mapped and waiting requests are answered. -/
  | streamFillDone (readOk : Bool)
  /-- R460: UNIT_WRITE 
  A unit's own write goes in place, mapping a filled frame or waiting when none can be taken. -/
  | unitWrite
  /-- R482: KV_OPERATION_DONE 
  A SPILL, RESTORE or other KV operation of SLS completes and SLS issues its next one. -/
  | kvOperationDone (v : Fin 4)
  /-- R513: ASSEMBLY 
  SLS retires, grows, suspends, resumes, admits and projects, then launches a batch step. -/
  | assembly (v : Fin 4)
  /-- R520: SERVE_POLL While no sequence is live, SLS assembles at every POLL-th delay-tick boundary. -/
  | servePoll (v : Fin 4)
  /-- R22: POLICY_TICK_BOUNDARY 
  At a policy-tick boundary shadow values are copied, accounts closed and the MGC tick raised. -/
  | policyTickBoundary (lat : List Nat)
  /-- R591: WDOG_EXPIRED 
  A span of WDOG_TICKS ticks without a kick halts MGC and sends an error record. -/
  | wdogExpired
  /-- R592: HALT A write of 1 to HALT halts every MGC core. -/
  | halt
  /-- R591: MGC_WDOG_KICK A firmware write kicks the MGC watchdog. -/
  | mgcWdogKick
  /-- R590: MGC_TICK_ACK Firmware acknowledges a tick and clears its interrupt. -/
  | mgcTickAck (core : Fin 8) (w : Word)
  /-- R605: NOTICE_GO Firmware posts a notice that HIF writes as a FW_NOTICE event. -/
  | noticeGo (core : Fin 8) (c : Fin 64)
  /-- R24: HOLD A write of HOLD stops or releases the shadow-to-active copy from the next boundary. -/
  | hold (b : Bool)
  /-- R23: POLICY_SHADOW_WRITE A firmware write to a shadow value is stamped for the next boundary. -/
  | policyShadowWrite (off : Nat) (w : Word)
  /-- R625: ERROR_RECORD SAF accepts an error record into its ring and notifies contexts. -/
  | errorRecord
  /-- R609: COMPARATOR_TEST 
  Once per us SAF forces a mismatch into each lockstep comparator and checks it is reported. -/
  | comparatorTest (path : Fin 32) (ok : Bool) (diff : Bool)
  /-- R610: SCRUB A scrubber reads a word, corrects single-bit errors and compares duplicated copies. -/
  | scrub (storage : Fin 23) (index : Nat) (finding : Fin 6) (found : Option Nat)
  /-- R616: RECOVERY_REBUILD 
  After the killed commands end, TGE rebuilds every counter of the context from the step ledger. -/
  | recoveryRebuild
  /-- R617: RECOVERY_REENTRY 
  Once frozen objects are cleared, ready tasks re-enter and RECOVERING is cleared. -/
  | recoveryReentry
  /-- R42: QUEUE_PTR_MISMATCH 
  Differing duplicated pointers empty a queue, set PTR_MISMATCH and trigger its loss handling. -/
  | queuePtrMismatch (off : Nat)
  /-- R38: DECANT A write of DECANT empties a queue at the end of the cycle. -/
  | decant (off : Nat) (w : Word)
  /-- R409: ICACHE_FILL An instruction-cache miss fill completes and both streams resume. -/
  | icacheFill (u : Fin 128)
  /-- R421: REX_NOP NOP occupies the stream one cc. -/
  | rexNop (u : Fin 128) (exe : Bool)
  /-- R420: REX_END END ends a stream; when both have ended and stores complete, END_VALID is raised. -/
  | rexEnd (u : Fin 128) (exe : Bool)
  /-- R447: LOOP LOOP runs its body a counted number of times. -/
  | loop (u : Fin 128) (exe : Bool)
  /-- R449: QBAR QBAR synchronises the two streams on equal IDs. -/
  | qbar (u : Fin 128) (exe : Bool)
  /-- R434: LD LD loads memory rows into a tile. -/
  | ld (u : Fin 128)
  /-- R434: ST ST stores tile rows to memory and adds digest contributions. -/
  | st (u : Fin 128)
  /-- R434: LDQ LDQ loads memory rows as items into AQ0 or AQ1. -/
  | ldq (u : Fin 128)
  /-- R434: STQ STQ pops items from AQ2 or AQ3 and stores them. -/
  | stq (u : Fin 128)
  /-- R436: DIG DIG adds digest contributions over memory blocks. -/
  | dig (u : Fin 128)
  /-- R437: ACCLD ACCLD loads ACC entries from memory. -/
  | accld (u : Fin 128)
  /-- R437: ACCST ACCST stores ACC entries at full width. -/
  | accst (u : Fin 128)
  /-- R437: ACCADD ACCADD adds memory values into ACC entries. -/
  | accadd (u : Fin 128)
  /-- R446: SEND SEND issues a message send effect request. -/
  | send (u : Fin 128)
  /-- R446: BLEND_INSTR The BLEND instruction issues a blend contribution effect request. -/
  | blendInstr (u : Fin 128)
  /-- R446: SIG SIG issues a sync effect request. -/
  | sig (u : Fin 128)
  /-- R438: ADD ADD computes A + B element-wise. -/
  | add (u : Fin 128)
  /-- R438: SUB SUB computes A - B element-wise. -/
  | sub (u : Fin 128)
  /-- R438: MUL MUL computes A x B element-wise. -/
  | mul (u : Fin 128)
  /-- R438: FMA FMA computes C + A x B rounded once. -/
  | fma (u : Fin 128)
  /-- R438: MIN MIN takes the smaller of A and B. -/
  | min (u : Fin 128)
  /-- R438: MAX MAX takes the larger of A and B. -/
  | max (u : Fin 128)
  /-- R438: ABS ABS takes the magnitude of A. -/
  | abs (u : Fin 128)
  /-- R438: NEG NEG inverts the sign of A. -/
  | neg (u : Fin 128)
  /-- R438: RCP RCP computes 1 / A. -/
  | rcp (u : Fin 128)
  /-- R438: RSQ RSQ computes 1 / sqrt(A). -/
  | rsq (u : Fin 128)
  /-- R438: SQRT SQRT computes sqrt(A). -/
  | sqrt (u : Fin 128)
  /-- R438: MOV MOV copies A bit for bit. -/
  | mov (u : Fin 128)
  /-- R441: CVT CVT converts A between formats with packing. -/
  | cvt (u : Fin 128)
  /-- R442: SWU SWU joins and updates a split weight. -/
  | swu (u : Fin 128)
  /-- R443: RED RED reduces A along an axis into ACC. -/
  | red (u : Fin 128)
  /-- R444: SCAN SCAN writes the inclusive prefix sum of each row. -/
  | scan (u : Fin 128)
  /-- R444: SSCAN SSCAN writes segmented prefix sums. -/
  | sscan (u : Fin 128)
  /-- R445: ACCW ACCW writes ACC entries into tile rows. -/
  | accw (u : Fin 128)
  /-- R445: ACCZ ACCZ clears a range of ACC entries. -/
  | accz (u : Fin 128)
  /-- R445: ACCSUM ACCSUM sums ACC entries into one entry. -/
  | accsum (u : Fin 128)
  /-- R412: EP_START 
  A write of START to REX_EP_CTL starts an element program on an OFFLINE REX, or is refused. -/
  | epStart (w : Word)
  /-- R413: EP_DONE 
  An element program finishes, writes TD, the CRC and the mismatch count, and sets DONE. -/
  | epDone
  /-- R417: OFFLINE A write of OFFLINE takes a REX out of or back into placement. -/
  | offline (u : Fin 128) (w : Word)
  /-- R416: REX_TILE_DATA An access to REX_TILE_DATA reads or writes a tile word and advances ELEM. -/
  | rexTileData (write : Option Word)
  /-- R655: TRACE_INCREMENT 
  At least every 256 cc core agents and REX units send counter increments to TRC. -/
  | traceIncrement (src : Fin 4224) (e : Fin 8) (states : List (Fin 16 × Nat)) (act : Nat) (lost : Bool)
  /-- R644: FULL_STAMP A stream writes a FULL_STAMP after 2^32 ns or at a 64 KiB block start. -/
  | fullStamp (m : Fin 9)
  /-- R643: TRACE_RECORD_WRITE 
  A trace record is written to its segment, wrapping or dropping in HALT mode. -/
  | traceRecordWrite (m : Fin 9)
  /-- R656: CLEAR A write of CLEAR zeroes every engine counter. -/
  | clear
  /-- R656: FREEZE A write of FREEZE holds or releases the engine counters. -/
  | freeze (b : Bool)
  /-- R678: PRBS_START START begins a PRBS test on the selected link direction, or is refused. -/
  | prbsStart (w : Word)
  /-- R680: PRBS_STOP STOP ends a PRBS test and sets DONE. -/
  | prbsStop (w : Word) (errs : List (Nat × Nat))
  /-- R680: PRBS_INJECT INJECT inverts one bit of the selected lane. -/
  | prbsInject (w : Word)
  /-- R680: PRBS_DUR_END A PRBS test stops by itself when BITS reaches DUR x 2^20 and sets DONE. -/
  | prbsDurEnd (sel : Fin 256) (errs : List (Nat × Nat))
  /-- R681: WRAPPER_INSTRUCTION 
  A wrapper instruction update enters a test mode and the safe state, or is refused. -/
  | wrapperInstruction (part : Fin 2) (ins : Fin 5) (code : Nat)
  /-- R682: INSTRUMENT_WRITE 
  A write through the IEEE 1687 network reaches an instrument or is refused. -/
  | instrumentWrite (inst : Fin 4) (off : Nat) (w : Word)
  /-- R158: HIF_CTX_ENABLE A write of ENABLE enables a context, or stops fetching from all its rings. -/
  | hifCtxEnable (c : Fin 64) (w : Word)
  /-- R158: RING_EN A write of RING_EN starts or stops fetching from one submission ring. -/
  | ringEn (c : Fin 64) (r : Fin 4) (w : Word)
  /-- R688: RESET_COUNTS 
  A write of RESET_COUNTS with RING_EN 0 schedules a reset of the ring's counts. -/
  | resetCounts (c : Fin 64) (r : Fin 4) (w : Word)
  /-- R688: RESET_COUNTS_EFFECT 
  When the last fetched descriptor is taken, HEAD, fetch position and DB_LAST become 0. -/
  | resetCountsEffect (c : Fin 64) (r : Fin 4)
  /-- R157: FETCH_EN A write of FETCH_EN starts or stops all descriptor fetches. -/
  | fetchEn (b : Bool)
  /-- R89: SETUP_DONE A write of 1 to SETUP_DONE locks every RWL register, or is refused. -/
  | setupDone (b : Bool)
  /-- R121: GTB_CTL_ENABLE A write of ENABLE starts GTB acquisition or returns it to UNKNOWN. -/
  | gtbCtlEnable (w : Word)
  /-- R298: SYN_RELEASE 
  A write of RELEASE in SYN_CTX_CFG frees every object and waiter of the context. -/
  | synRelease (c : Fin 64) (w : Word)
  /-- R488: PAT_RELEASE A write of RELEASE in PAT_CTX_CFG unmaps and frees every frame of the context. -/
  | patRelease (c : Fin 64)
  /-- R406: REX_IREG_WRITE 
  A write of REX_CTX_IREG sets the instruction region and invalidates all 16 images. -/
  | rexIregWrite (c : Fin 64) (hi : Bool) (w : Word)
  /-- R249: IMB_EN_WRITE A write of IMB_EN enables stage measurement or is refused beyond 8 contexts. -/
  | imbEnWrite (c : Fin 64) (w : Word)
  /-- R380: LNK_CTX_RES_WRITE A write of LNK_CTX_RES sets a context's reserved flits or is refused. -/
  | lnkCtxResWrite (c : Fin 64) (w : Word)
  /-- R339: SYN_DIAG_SEL_WRITE A write of SYN_DIAG_SEL selects an object and resets the word position. -/
  | synDiagSelWrite (w : Word)
  /-- R339: SYN_DIAG_DATA_READ A read of SYN_DIAG_DATA returns a word and advances the word position. -/
  | synDiagDataRead
  /-- R636: SAF_REC_SEL_WRITE A write of SAF_REC_SEL selects a record and resets the word position. -/
  | safRecSelWrite (w : Word)
  /-- R635: SAF_REC_DATA_READ A read of SAF_REC_DATA returns a record word and advances the position. -/
  | safRecDataRead
  /-- R119: GTB_NOW_LO_READ A read of GTB_NOW_LO captures GTB_NOW_HI and GTB_NOW_AUX. -/
  | gtbNowLoRead
  /-- R548: PSM_CTX_ENG0_LO_READ 
  A read of PSM_CTX_ENG0_LO captures every accounting word of the context. -/
  | psmCtxEng0LoRead (c : Fin 64)
  /-- R220: COUNTER_CAPTURE_READ A read of a low counter word captures its high word. -/
  | counterCaptureRead (off : Nat)
  /-- R7: REGISTER_WRITE 
  A write to any other register acts by its access code, including refusals and firmware denials. -/
  | registerWrite (off : Nat) (w : Word) (fw : Bool)
  /-- R86: BAD_ACCESS 
  A misaligned, wrongly sized or unmapped window access returns zero and sets BAD_ACCESS or UNMAPPED. -/
  | badAccess (off : Nat) (size : Nat)
  /-- R97: GTB_REF_EDGE 
  At each GTB_REF rising edge GTB trims its interpolator, applies a changed TRIM, and in REF_ONLY mode counts LOCKED or returns to LOCKED after a loss. -/
  | gtbRefEdge (incr : Nat) (phaseOk : Bool)
  /-- R56: SPAD_READY 
  The licensee's scratchpad arbitration lowers or raises SPAD_READY, stalling or resuming both streams of the REX. -/
  | spadReady (u : Fin 128) (b : Bool)
  /-- R55: GATE_ACK_RISE 
  The licensee's clock controller raises GATE_ACK, gating the core so that GATED reads 1 and no command starts on it. -/
  | gateAckRise (core : Fin 4096)
  /-- R677: PRBS_LANE_LOCK 
  A PRBS checker lane locks after 64 consecutive correct bits, and LOCKED rises when every lane is locked. -/
  | prbsLaneLock (sel : Fin 256) (lane : Fin 2048)
  /-- R586: MACHINE_TIMER_INTERRUPT 
  An MGC core's timer interrupt becomes pending when mtime, which reads group time, reaches its mtimecmp. -/
  | machineTimerInterrupt (core : Fin 8) (cmp : Nat) (reached : Bool := false)
  /-- R370: RESERVED_KIND_FLIT 
  A received flit with a reserved KIND is discarded and counted in LNK_Pp_LOST. -/
  | reservedKindFlit (p : Fin 16)
  deriving DecidableEq, Repr

end Sys2Proof
end

