-- ==== Sys2Proof/Decode.lean ====
section
/-! DEFINITION. The command that a word spells. The table of operations and events gives no row any bits, so no
word spells a command: commands come to the block as accesses, protocol events and pins. -/

namespace Sys2Proof

/-- The command of a word of `nbits` bits, by the bits of the table's rows: none, for every word. -/
def decodeTableWord (_nbits _w : Nat) : Option Instr := none

end Sys2Proof
end

