-- ==== Sys2Proof/Config.lean ====
section
/-! DEFINITION. What a build fixes (R82, R83: the default build) and the free values that the
manual leaves open. -/

namespace Sys2Proof.Config

/-- Fields of the compute die at the default build. -/
def numFields : Nat := 8
/-- Cores of one field at the default build. -/
def coresPerField : Nat := 512
/-- Engines of one core at the default build. -/
def enginesPerCore : Nat := 4
/-- Lanes of one REX at the default build. -/
def rexLanes : Nat := 128
/-- Memory stacks at the default build. -/
def memStacks : Nat := 20
/-- Capacity of one stack in GB at the default build. -/
def stackGB : Nat := 128
/-- Link-agent ports at the default build. -/
def linkPorts : Nat := 16
/-- Management cores at the default build. -/
def mgmtCores : Nat := 8

/-- Cores of the block. -/
def numCores : Nat := numFields * coresPerField
/-- REX units of the block: one per 32 cores. -/
def numRex : Nat := numCores / 32
/-- REX units of one field. -/
def rexPerField : Nat := coresPerField / 32

/-- A number that the manual leaves open, one per draw. Nothing is known of it. -/
opaque freeNat : Nat → Nat

/-- A number that the manual leaves open, one per draw and place. -/
opaque freeCell : Nat → Nat → Nat

/-- A choice among `n` things that the manual leaves open, one per draw: only its range is known. -/
def freeBelow (draw n : Nat) : Nat := if n = 0 then 0 else freeNat draw % n

/-- The port that carries a lane-0 flit toward a chip: the manual names none. -/
opaque portTo : Nat → Nat

/-- The 16-bit number by which object words name a waiter entry: the manual gives no numbering. -/
opaque waiterNumber : Nat → BitVec 16

/-- The read-only zero frame of a stack (R466), as bits [43:16] of its address: the manual gives no
address. -/
opaque zeroFrame : Nat → BitVec 28

/-- The offset, in its unit's slice, by which records name a storage (R627): the manual gives none. -/
opaque storageOffset : Nat → BitVec 19

/-- The XCREDIT granted to a chip at the queue of a key (R364): no field at the home chip gives it. -/
opaque blendGrant : Nat → Nat → Nat

/-- The 16 random bits of the add of a blend result into its target (R365, R398), by vintage, image-relative queue
and element: R398 keys those of the intake and of the adds of slots, and names none for this add. -/
opaque targetRnd : Nat → Nat → Nat → BitVec 16

/-- The hash of a context and page number that chooses a set of the translation cache (R469): the manual names
none. -/
opaque cacheHash : Nat → Nat

end Sys2Proof.Config
end

