-- ==== Sys2Proof/Machine/Tables.lean ====
section
/-! DEFINITION. Sparse tables, byte memories and bit fields: the plain operations that every unit
uses. All of them are structural, so the kernel evaluates them. -/

namespace Sys2Proof.Machine

open Sys2Proof

/-! ### Tables -/

/-- The entry of key `k`, if there is one. -/
def tget? {α : Type} : Table α → Nat → Option α
  | [], _ => none
  | (j, a) :: t, k => if j = k then some a else tget? t k

/-- The entry of key `k`, or `d`. -/
def tget {α : Type} (d : α) (t : Table α) (k : Nat) : α := (tget? t k).getD d

/-- Whether key `k` has an entry. -/
def thas {α : Type} (t : Table α) (k : Nat) : Bool := (tget? t k).isSome

/-- The table with entry `a` at key `k`. -/
def tput {α : Type} : Table α → Nat → α → Table α
  | [], k, a => [(k, a)]
  | (j, b) :: t, k, a =>
    if j < k then (j, b) :: tput t k a
    else if j = k then (k, a) :: t
    else (k, a) :: (j, b) :: t

/-- The table without key `k`. -/
def tdel {α : Type} : Table α → Nat → Table α
  | [], _ => []
  | (j, b) :: t, k => if j = k then tdel t k else (j, b) :: tdel t k

/-- The table with `f` applied at key `k` (the entry `d` where there is none). -/
def tmod {α : Type} (d : α) (t : Table α) (k : Nat) (f : α → α) : Table α :=
  tput t k (f (tget d t k))

/-- The table with `f` applied to every entry. -/
def tmap {α : Type} (f : Nat → α → α) : Table α → Table α
  | [] => []
  | (j, b) :: t => (j, f j b) :: tmap f t

/-- The table with only the entries that `p` keeps. -/
def tfilter {α : Type} (p : Nat → α → Bool) (t : Table α) : Table α := t.filter fun e => p e.1 e.2

/-- Keys rise strictly above `lo`. -/
def risingFrom {α : Type} : Nat → Table α → Bool
  | _, [] => true
  | lo, (j, _) :: t => decide (lo ≤ j) && risingFrom (j + 1) t

/-- The canonical form of a table. -/
def twf {α : Type} (t : Table α) : Bool := risingFrom 0 t

/-! ### Byte memories -/

/-- What one byte reads as: an address that the list does not hold reads as zero. -/
def mread : Mem → Nat → Byte
  | [], _ => 0
  | (j, b) :: t, a => if j = a then b else mread t a

/-- The memory after one byte is written. Writing zero removes the entry, so the form stays
canonical. -/
def mwrite : Mem → Nat → Byte → Mem
  | [], a, v => if v = 0 then [] else [(a, v)]
  | (j, b) :: t, a, v =>
    if j < a then (j, b) :: mwrite t a v
    else if j = a then (if v = 0 then t else (a, v) :: t)
    else if v = 0 then (j, b) :: t else (a, v) :: (j, b) :: t

/-- Addresses rise strictly from `lo`, and no cell holds zero. -/
def mwfFrom : Nat → Mem → Bool
  | _, [] => true
  | lo, (j, b) :: t => decide (lo ≤ j) && decide (b ≠ 0) && mwfFrom (j + 1) t

/-- The canonical form of a memory. -/
def Memory.wf (m : Mem) : Bool := mwfFrom 0 m

/-- The cells of bytes at rising addresses from `a`. -/
def mcells : Nat → List Byte → Mem
  | _, [] => []
  | a, b :: bs => if b = 0 then mcells (a + 1) bs else (a, b) :: mcells (a + 1) bs

/-- The memory with what it holds from `a` on, `n` bytes long, replaced by cells of that range. -/
def msplice (m : Mem) (a n : Nat) (cells : Mem) : Mem :=
  m.filter (fun c => decide (c.1 < a)) ++ (cells ++ m.filter fun c => decide (a + n ≤ c.1))

/-- Bytes written at rising addresses from `a`. -/
def mwriteBytes (m : Mem) (a : Nat) (bs : List Byte) : Mem := msplice m a bs.length (mcells a bs)

/-- The `n` bytes from `a` of a memory whose first cell is not below `a`. -/
def mbytes : Mem → Nat → Nat → List Byte
  | _, _, 0 => []
  | [], a, n + 1 => 0 :: mbytes [] (a + 1) n
  | (j, b) :: t, a, n + 1 => if j = a then b :: mbytes t (a + 1) n else 0 :: mbytes ((j, b) :: t) (a + 1) n

/-- `n` bytes read at rising addresses from `a`. -/
def mreadBytes (m : Mem) (a n : Nat) : List Byte := mbytes (m.filter fun c => decide (a ≤ c.1)) a n

/-- Cells written one after another. -/
def mwriteCells : Mem → List (Nat × BitVec 8) → Mem
  | m, [] => m
  | m, (a, b) :: cs => mwriteCells (mwrite m a b) cs

/-- `n` zero bytes written from `a`: every listed cell of the range is dropped. -/
def mzero (m : Mem) (a n : Nat) : Mem := msplice m a n []

/-- `n` bytes copied from `src` of memory `m` to `dst` of memory `m'`. -/
def mcopy (m' m : Mem) (dst src n : Nat) : Mem :=
  msplice m' dst n
    ((m.filter fun c => decide (src ≤ c.1) && decide (c.1 < src + n)).map fun c => (c.1 - src + dst, c.2))

/-! ### Little-endian numbers (R5) -/

/-- The number that a list of bytes spells, first byte least significant. -/
def leNat : List Byte → Nat
  | [] => 0
  | b :: bs => b.toNat + 256 * leNat bs

/-- The `n` bytes that spell `v`. -/
def leBytes : Nat → Nat → List Byte
  | 0, _ => []
  | n + 1, v => BitVec.ofNat 8 v :: leBytes n (v / 256)

/-- The number in bytes `lo` to `lo + n - 1` of a list. -/
def leAt (bs : List Byte) (lo n : Nat) : Nat := leNat ((bs.drop lo).take n)

/-- `n`-byte number read from memory. -/
def mreadLE (m : Mem) (a n : Nat) : Nat := leNat (mreadBytes m a n)

/-- `n`-byte number written to memory. -/
def mwriteLE (m : Mem) (a n v : Nat) : Mem := mwriteBytes m a (leBytes n v)

/-! ### Bit fields -/

/-- Bits [hi:lo] of a number. -/
def fld (v hi lo : Nat) : Nat := v / 2 ^ lo % 2 ^ (hi + 1 - lo)

/-- Bit `i` of a number. -/
def bitAt (v i : Nat) : Bool := v / 2 ^ i % 2 == 1

/-- A number with bits [hi:lo] replaced. -/
def setFld (v hi lo x : Nat) : Nat :=
  v - fld v hi lo * 2 ^ lo + x % 2 ^ (hi + 1 - lo) * 2 ^ lo

/-- 1 for true. -/
def b2n (b : Bool) : Nat := if b then 1 else 0

/-- A signed number from its two's complement in `w` bits. -/
def signed (w v : Nat) : Int :=
  if v % 2 ^ w < 2 ^ (w - 1) then ((v % 2 ^ w : Nat) : Int) else ((v % 2 ^ w : Nat) : Int) - (2 ^ w : Nat)

/-- Two's complement of a signed number in `w` bits. -/
def unsigned (w : Nat) (v : Int) : Nat := (v % ((2 ^ w : Nat) : Int)).toNat

/-- Addition that saturates at `2^w - 1`. -/
def satAdd (w a b : Nat) : Nat := min (a + b) (2 ^ w - 1)

/-- Difference of two free-running 32-bit counts (R123). -/
def cdiff (a b : Nat) : Nat := (a + 2 ^ 32 - b % 2 ^ 32) % 2 ^ 32

/-- Sum of a free-running 32-bit count and a number (R123). -/
def cadd (a n : Nat) : Nat := (a + n) % 2 ^ 32

/-! ### Lists -/

/-- The first element that `p` holds of, and the list without it. -/
def takeFirst {α : Type} (p : α → Bool) : List α → Option (α × List α)
  | [] => none
  | a :: l =>
    if p a then some (a, l)
    else match takeFirst p l with
      | none => none
      | some (b, r) => some (b, a :: r)

/-- The list with `f` applied to every element that `p` holds of. -/
def modWhere {α : Type} (p : α → Bool) (f : α → α) (l : List α) : List α :=
  l.map fun a => if p a then f a else a

/-- Insertion into a list kept in the order of `le`, after its equals. -/
def insertBy {α : Type} (le : α → α → Bool) (a : α) : List α → List α
  | [] => [a]
  | b :: l => if le b a then b :: insertBy le a l else a :: b :: l

/-- Insertion sort, stable. -/
def sortBy {α : Type} (le : α → α → Bool) (l : List α) : List α :=
  l.foldl (fun acc a => insertBy le a acc) []

/-- The numbers from `a`, `n` of them. -/
def rangeFrom (a : Nat) : Nat → List Nat
  | 0 => []
  | n + 1 => a :: rangeFrom (a + 1) n

/-- Ceiling of a quotient. -/
def cdivN (a b : Nat) : Nat := if b = 0 then 0 else (a + b - 1) / b

end Sys2Proof.Machine
end

