-- ==== Sys2Proof/Machine/Regs.lean ====
section
/-! DEFINITION. The register tables of the configuration window (R85), slice by slice, transcribed
from the chapters: offsets, access masks (R7) and reset values. -/

namespace Sys2Proof.Machine

open Sys2Proof

/-- The three registers of a queue set (R46): QCTL with its DECANT bit and, for a packet queue, a
CUT_THRESH of reset value `cut`; QSTAT with its sticky bits; QCNT. -/
def queueRows (off : Nat) (packet : Bool) (cut : Nat) : List RegRow :=
  [{ off := off, rwl := if packet then 0xFFFF else 0, wo := 0x80000000, reset := cut },
   { off := off + 4, w1c := 0xE0000000, reset := 0x10000000 },
   { off := off + 8 }]

/-- Queue register sets repeated `n` times at stride `step`. -/
def queueRowsN (off n step : Nat) (packet : Bool) (cut : Nat) : List RegRow :=
  (queueRows off packet cut).map fun r => { r with n := n, step := step }

/-- R88: global registers. -/
def glbRows : List RegRow :=
  [{ off := 0x0, reset := 0x00030100 },
   { off := 0x4, reset := 0x84101434 },
   { off := 0x8, reset := 0x00000080 },
   { off := 0xC, rwl := 0xFFF },
   { off := 0x10, rwl := 0x1FFF, reset := 1 },
   { off := 0x14, rwl := 1 },
   { off := 0x18, w1c := 3 },
   { off := 0x1C },
   { off := 0x20 }]

/-- R156, R157: HIF registers. -/
def hifRows : List RegRow :=
  [{ off := 0x100000, rw := 1 },
   { off := 0x100004, w1c := 3 },
   { off := 0x100008 }, { off := 0x10000C }] ++
  queueRows 0x100010 true 0 ++ queueRows 0x100020 false 0 ++
  [{ off := 0x110000, n := 64, step := 0x100, rw := 0xA00FFFFF, rwl := 0x40000000 },
   { off := 0x110004, n := 64, step := 0x100, w1c := 0x7E, reset := 0x80000000 },
   { off := 0x110008, n := 64, step := 0x100, rw := 0xFFFFF000 },
   { off := 0x11000C, n := 64, step := 0x100, rw := 0xFFFFFFFF },
   { off := 0x110010, n := 64, step := 0x100, rw := 0x1F, reset := 7 },
   { off := 0x110014, n := 64, step := 0x100 },
   { off := 0x110018, n := 64, step := 0x100 },
   { off := 0x110020, n := 64, step := 0x100, rw := 0xFFFFF000 },
   { off := 0x110024, n := 64, step := 0x100, rw := 0xFFFFFFFF },
   { off := 0x110028, n := 64, step := 0x100, rw := 0x31F, reset := 0x207 },
   { off := 0x11002C, n := 64, step := 0x100 },
   { off := 0x110030, n := 64, step := 0x100 },
   { off := 0x110034, n := 64, step := 0x100 },
   { off := 0x110038, n := 64, step := 0x100, rw := 0xFFFFFFFC },
   { off := 0x11003C, n := 64, step := 0x100, rw := 0xFFFFFFFF },
   { off := 0x110040, n := 64, step := 0x100, rw := 0xFFFFFFFF },
   { off := 0x110044, n := 64, step := 0x100, rw := 0xA000FFFF, reset := 0x80000000 },
   { off := 0x110080, n := 64, step := 0x100, n2 := 4, step2 := 0x20, rw := 0xFFFFF000 },
   { off := 0x110084, n := 64, step := 0x100, n2 := 4, step2 := 0x20, rw := 0xFFFFFFFF },
   { off := 0x110088, n := 64, step := 0x100, n2 := 4, step2 := 0x20, rw := 0x8000001F,
     wo := 0x40000000, reset := 6 },
   { off := 0x11008C, n := 64, step := 0x100, n2 := 4, step2 := 0x20 },
   { off := 0x110090, n := 64, step := 0x100, n2 := 4, step2 := 0x20 },
   { off := 0x110094, n := 64, step := 0x100, n2 := 4, step2 := 0x20, w1c := 6 }]

/-- R118, R120: GTB registers. -/
def gtbRows : List RegRow :=
  [{ off := 0x900000, rwl := 3 },
   { off := 0x900004, w1c := 0x3C, reset := 3 },
   { off := 0x900008, rwl := 0xFFFFF },
   { off := 0x90000C, rwl := 0xFFFF, reset := 0x2710 },
   { off := 0x900010, rwl := 0xFF },
   { off := 0x900014 }, { off := 0x900018 }, { off := 0x90001C },
   { off := 0x900020, reset := 0xC0 },
   { off := 0x900024 }, { off := 0x900028 }, { off := 0x90002C },
   { off := 0x900030 }, { off := 0x900034 }, { off := 0x900038 },
   { off := 0x900100, n := 8 },
   { off := 0x900120, n := 8, w1c := 4, reset := 3 }]

/-- R635, R636: SAF registers. -/
def safRows : List RegRow :=
  [{ off := 0xA00000, rwl := 3, reset := 2 },
   { off := 0xA00004, w1c := 0x78000000 },
   { off := 0xA00008 }, { off := 0xA0000C },
   { off := 0xA00010, rw := 0xFFFFFFFF },
   { off := 0xA00014 }, { off := 0xA00018 }, { off := 0xA0001C }, { off := 0xA00020 }] ++
  queueRows 0xA00030 false 0 ++
  [{ off := 0xA00040, n := 8 },
   { off := 0xA00100, n := 16, step := 0x10 },
   { off := 0xA00104, n := 16, step := 0x10 },
   { off := 0xA01000, n := 64, w1c := 0x20000000 }]

/-- R179: CAU registers. -/
def cauRows : List RegRow :=
  [{ off := 0x180000, rwl := 0xFF, reset := 0x10 },
   { off := 0x180004, w1c := 0x1C },
   { off := 0x180008 }, { off := 0x18000C }] ++
  queueRows 0x180010 false 0 ++
  [{ off := 0x180100, n := 16, step := 0x20, n2 := 4, step2 := 4 }]

/-- R606, R607: MGC registers. -/
def mgcRows : List RegRow :=
  [{ off := 0x980000, rw := 0xFFFF, wo := 0x80000000, reset := 4 },
   { off := 0x980004, w1c := 0x3E000000 },
   { off := 0x980008, rw := 1 },
   { off := 0x98000C },
   { off := 0x980010, n := 8 },
   { off := 0x980030 }, { off := 0x980034 },
   { off := 0x980038, rw := 0xFFFFFFFF },
   { off := 0x98003C },
   { off := 0x980040, wo := 0xFFFFFFFF },
   { off := 0x980044 },
   { off := 0x980048, rw := 0xFFFFFFFF },
   { off := 0x98004C, rw := 0xFFFFFFFF },
   { off := 0x980050, rw := 0x3F, wo := 0x80000000 },
   { off := 0x980054, reset := 8 },
   { off := 0x980058, rw := 0xFF, reset := 1 }] ++
  queueRows 0x980060 true 0

/-- R219: GLD registers. -/
def gldRows : List RegRow :=
  [{ off := 0x200000, w1c := 7 }, { off := 0x200004 }, { off := 0x200008 }, { off := 0x20000C }] ++
  queueRows 0x200010 true 0

/-- R220: TGE registers. TGE_KINDS reads 7: all three engine kinds are present. -/
def tgeRows : List RegRow :=
  [{ off := 0x280000, w1c := 0xC }, { off := 0x280004, reset := 0x01008080 },
   { off := 0x280008, reset := 7 }, { off := 0x28000C }, { off := 0x280010 }, { off := 0x280014 },
   { off := 0x280018, rw := 0x8F1FFFFF }, { off := 0x28001C }] ++
  queueRowsN 0x280100 16 0x10 false 0 ++
  [{ off := 0x281000, n := 256, step := 0x20, n2 := 6, step2 := 4 }]

/-- R252: RDY registers. -/
def rdyRows : List RegRow :=
  [{ off := 0x300000, rwl := 7, reset := 5 }, { off := 0x300004, w1c := 7 }, { off := 0x300008 },
   { off := 0x30000C }, { off := 0x300010 }, { off := 0x300014 }, { off := 0x300018 },
   { off := 0x300020, n := 24, rwl := 7 }] ++
  queueRowsN 0x300100 8 0x10 false 0 ++
  [{ off := 0x300200, n := 64, step := 0x10, rw := 0x8000FFFF, reset := 0x180 },
   { off := 0x300204, n := 64, step := 0x10, w1c := 0xE0000000 },
   { off := 0x300208, n := 64, step := 0x10 }, { off := 0x30020C, n := 64, step := 0x10 },
   { off := 0x301000, n := 64, step := 0x40, n2 := 16, step2 := 4, rw := 0xFFFFFFFF }]

/-- R254: TMR registers. -/
def tmrRows : List RegRow :=
  [{ off := 0x380000, w1c := 0xE0000000 }, { off := 0x380004 }, { off := 0x380008 },
   { off := 0x38000C }, { off := 0x380010 }, { off := 0x380014, reset := 0xFFFFFFFF },
   { off := 0x380018, reset := 0xFFFFFFFF }] ++
  queueRows 0x380020 false 0

/-- R255: CAG registers. CAG_ENG_MAP gives engines 0 and 1 matrix, 2 vector, 3 DMA, 4 and 5 absent. -/
def cagRows : List RegRow :=
  [{ off := 0x400000, rwl := 0xFFFF, reset := 0x100 }, { off := 0x400004, w1c := 0xF },
   { off := 0x400008, reset := 0x3F440 }, { off := 0x40000C }] ++
  queueRowsN 0x400100 8 0x10 false 0 ++
  [{ off := 0x410000, n := 4096 }]

/-- R291: CMT registers. -/
def cmtRows : List RegRow :=
  [{ off := 0x480000, w1c := 0xF8000000 }, { off := 0x480004 }, { off := 0x480008 },
   { off := 0x48000C }, { off := 0x480010 }, { off := 0x480014 }] ++
  queueRows 0x480020 false 0 ++
  [{ off := 0x480044, n := 12 },
   { off := 0x481000, n := 64, step := 0x20, rw := 0x107, reset := 3 },
   { off := 0x481004, n := 64, step := 0x20, rw := 0xFFFFF, reset := 0x7D0 },
   { off := 0x481008, n := 64, step := 0x20, w1c := 0xF0000000 },
   { off := 0x48100C, n := 64, step := 0x20 }, { off := 0x481010, n := 64, step := 0x20 }]

/-- R490, R491: PAT registers. -/
def patRows : List RegRow :=
  [{ off := 0x700000, rwl := 0x1FFF01, reset := 0x00151001 },
   { off := 0x700004, w1c := 0xFE000000, reset := 1 },
   { off := 0x700008 }, { off := 0x70000C },
   { off := 0x700010, rw := 0x7FFFFFF, reset := 0x4000 },
   { off := 0x700014, rw := 0x7FFFFFF, reset := 0x400 },
   { off := 0x700018 }, { off := 0x70001C }, { off := 0x700020 }, { off := 0x700024 },
   { off := 0x700028, rwl := 0xFFFF }] ++
  queueRows 0x700040 false 0 ++ queueRowsN 0x700100 8 0x10 false 0 ++
  [{ off := 0x700200, n := 24 },
   { off := 0x710000, n := 64, step := 0x400, wo := 0x80000000 },
   { off := 0x710004, n := 64, step := 0x400, rw := 0x7FFFFFF },
   { off := 0x710008, n := 64, step := 0x400 },
   { off := 0x71000C, n := 64, step := 0x400, w1c := 0xF0000000 },
   { off := 0x710010, n := 64, step := 0x400, rw := 0xFFFF0000 },
   { off := 0x710014, n := 64, step := 0x400, rw := 0xFFFFFFFF },
   { off := 0x710018, n := 64, step := 0x400, rw := 0xFFFFFFF },
   { off := 0x71001C, n := 64, step := 0x400 }, { off := 0x710020, n := 64, step := 0x400 },
   { off := 0x710024, n := 64, step := 0x400 }, { off := 0x710028, n := 64, step := 0x400 },
   { off := 0x710100, n := 64, step := 0x400, n2 := 16, step2 := 0x20, rw := 0xFFE00000 },
   { off := 0x710104, n := 64, step := 0x400, n2 := 16, step2 := 0x20, rw := 0xFFFF },
   { off := 0x710108, n := 64, step := 0x400, n2 := 16, step2 := 0x20, rw := 0xFFFFFFF },
   { off := 0x71010C, n := 64, step := 0x400, n2 := 16, step2 := 0x20, rw := 0xFFC00000 },
   { off := 0x710110, n := 64, step := 0x400, n2 := 16, step2 := 0x20, rw := 0xFFFF0000 },
   { off := 0x710114, n := 64, step := 0x400, n2 := 16, step2 := 0x20, rw := 0xFFFFFFFF }]

/-- R562, R563: PSM registers. -/
def psmRows : List RegRow :=
  [{ off := 0x800000, w1c := 0xF0000000 }, { off := 0x800004 },
   { off := 0x800008, n := 4, reset := 0xFFFFFFFF }, { off := 0x800018 }, { off := 0x80001C }] ++
  queueRows 0x800020 false 0 ++
  [{ off := 0x800200, n := 5 },
   { off := 0x800400, n := 16, step := 0x20, n2 := 7, step2 := 4 },
   { off := 0x801000, n := 64, step := 0x40 },
   { off := 0x801004, n := 64, step := 0x40, rw := 0xFFFF, reset := 0x04000400 },
   { off := 0x801008, n := 64, step := 0x40, rw := 0x80000000, reset := 0xC0000000 },
   { off := 0x80100C, n := 64, step := 0x40, w1c := 0xF8000000 },
   { off := 0x801010, n := 64, step := 0x40, n2 := 12, step2 := 4 }]

/-- R415, R416: REX registers. -/
def rexRows : List RegRow :=
  [{ off := 0x680000, reset := 0x00008001 }, { off := 0x680004, w1c := 0xF }, { off := 0x680008 },
   { off := 0x68000C }] ++ queueRows 0x680010 true 0 ++
  [{ off := 0x680100, rw := 0x5FFEFFFF, wo := 0x80000000 }, { off := 0x680104, w1c := 6 },
   { off := 0x680108 }, { off := 0x68010C }, { off := 0x680110 }, { off := 0x680114, rw := 0xFFE00FFF },
   { off := 0x680118, rw := 0xFFFFFFFF }, { off := 0x680180, n := 32, rw := 0xFFFCFFFF },
   { off := 0x690000, n := 128, step := 0x10, rw := 0x80000000 }] ++
  ((queueRows 0x6A0000 true 0).map fun r => { r with n := 128, step := 0x40, n2 := 4, step2 := 0x10 }) ++
  [{ off := 0x6C0000, n := 64, step := 0x40, rw := 0xFFE00000 },
   { off := 0x6C0004, n := 64, step := 0x40, rw := 0xFFFFFFFF },
   { off := 0x6C0008, n := 64, step := 0x40, rw := 0xFFFFF000 },
   { off := 0x6C000C, n := 64, step := 0x40, rw := 0xFFFFFFFF },
   { off := 0x6C0010, n := 64, step := 0x40 }, { off := 0x6C0014, n := 64, step := 0x40 },
   { off := 0x6C0018, n := 64, step := 0x40, reset := 0xFFFF },
   { off := 0x6C001C, n := 64, step := 0x40, w1c := 0xF0000000 },
   { off := 0x6C0020, n := 64, step := 0x40 },
   { off := 0x6D0000, n := 64, step := 0x40, n2 := 16, step2 := 4 }]

/-- R530: SLS registers. -/
def slsRows : List RegRow :=
  [{ off := 0x780000, w1c := 0xC0000000 }] ++ queueRows 0x780010 false 0 ++
  [{ off := 0x780100, n := 4, step := 0x40 },
   { off := 0x780104, n := 4, step := 0x40, rw := 0xFFFFFFFF, reset := 0x02000800 },
   { off := 0x780108, n := 4, step := 0x40 },
   { off := 0x78010C, n := 4, step := 0x40, w1c := 0xFE000000 },
   { off := 0x780110, n := 4, step := 0x40, n2 := 7, step2 := 4 },
   { off := 0x78012C, n := 4, step := 0x40, rw := 0x73FFF },
   { off := 0x780130, n := 4, step := 0x40 }]

/-- R532: DLM registers. -/
def dlmRows : List RegRow :=
  [{ off := 0x880000 },
   { off := 0x880100, n := 4, step := 0x40, rw := 0x800FFFFF, reset := 0x800000C8 },
   { off := 0x880104, n := 4, step := 0x40, n2 := 5, step2 := 4 },
   { off := 0x880118, n := 4, step := 0x40, w1c := 0xF8000000 },
   { off := 0x880200, n := 8 }]

/-- R338: SYN registers. -/
def synRows : List RegRow :=
  [{ off := 0x500000, rwl := 0xFFFF, reset := 0x7D0 }, { off := 0x500004, w1c := 0xFF000000 },
   { off := 0x500008 }, { off := 0x50000C }, { off := 0x500010 }, { off := 0x500014 },
   { off := 0x500018 }, { off := 0x50001C, rw := 0x27FFF }, { off := 0x500020 },
   { off := 0x500024 }] ++
  queueRows 0x500030 false 0 ++ queueRows 0x500040 false 0 ++
  [{ off := 0x501000, n := 64, step := 0x20, rw := 0xFFFFF000 },
   { off := 0x501004, n := 64, step := 0x20, rw := 0xFFFFFFFF },
   { off := 0x501008, n := 64, step := 0x20, rw := 0x4001FFFF, wo := 0x80000000 },
   { off := 0x50100C, n := 64, step := 0x20, rw := 0xFFFF, reset := 0x200 },
   { off := 0x501010, n := 64, step := 0x20, w1c := 0xF0000000 },
   { off := 0x501014, n := 64, step := 0x20 }]

/-- R375: CHN registers. -/
def chnRows : List RegRow :=
  [{ off := 0x580000, w1c := 0xF0000000 }, { off := 0x580004 }, { off := 0x580008 },
   { off := 0x58000C }, { off := 0x580010 }, { off := 0x580014 }, { off := 0x580018, rw := 0x73FFF },
   { off := 0x58001C }] ++
  queueRows 0x580020 false 0 ++ queueRows 0x580030 true 4 ++
  [{ off := 0x581000, n := 64, step := 0x10, w1c := 0xE0000000 },
   { off := 0x581004, n := 64, step := 0x10 }, { off := 0x581008, n := 64, step := 0x10 },
   { off := 0x58100C, n := 64, step := 0x10 }]

/-- R377: BLQ registers. -/
def blqRows : List RegRow :=
  [{ off := 0x600000, w1c := 0xF0000000 }, { off := 0x600004 }, { off := 0x600008 },
   { off := 0x60000C }, { off := 0x600010, rw := 0x73FF }, { off := 0x600014 }] ++
  queueRows 0x600020 false 0 ++ queueRows 0x600030 true 4 ++
  [{ off := 0x601000, n := 64, step := 0x10, w1c := 0xC0000000 },
   { off := 0x601004, n := 64, step := 0x10 }]

/-- R379: LNK registers. -/
def lnkRows : List RegRow :=
  [{ off := 0xB00000, w1c := 0xE0000000 }, { off := 0xB00004 },
   { off := 0xB00100, n := 32, step := 0x10, n2 := 4, step2 := 4 }] ++
  queueRowsN 0xB00400 32 0x10 true 0 ++
  [{ off := 0xB01000, n := 64, rw := 0x7FF }]

/-- R665, R666: TRC registers. -/
def trcRows : List RegRow :=
  [{ off := 0xA80000, w1c := 0x3D000000 }, { off := 0xA80004 }, { off := 0xA80008 }, { off := 0xA8000C },
   { off := 0xA80010, n := 2, reset := 0xFFFFFFFF }, { off := 0xA80018, reset := 0xF }, { off := 0xA8001C },
   { off := 0xA80020, rw := 0x40000000, wo := 0x80000000 }, { off := 0xA80024, rw := 0xFFFF800F },
   { off := 0xA80028 }, { off := 0xA8002C }] ++
  queueRows 0xA80030 false 0 ++
  [{ off := 0xA80100, n := 9, step := 0x10, n2 := 3, step2 := 4 }] ++ queueRowsN 0xA80200 8 0x10 false 0

/-- R686, R687: TST registers. -/
def tstRows : List RegRow :=
  [{ off := 0xB80000, w1c := 0x16000000 }, { off := 0xB80004 }, { off := 0xB80008 }, { off := 0xB8000C },
   { off := 0xB80010 }, { off := 0xB80020, n := 8 }, { off := 0xB80100, rw := 0xFF },
   { off := 0xB80104, rw := 0x1F0007FF, wo := 0xE0000000 }, { off := 0xB80108, w1c := 0x20000000 },
   { off := 0xB8010C, rw := 0xFFFFFFFF }, { off := 0xB80110, n := 6 }]

end Sys2Proof.Machine
end

