-- ==== Sys2Proof/Machine/State.lean ====
section
/-! DEFINITION. The machine's state: every register of the window, every table, queue, buffer,
counter, mode and pin that the manual gives the block, as plain data. -/

namespace Sys2Proof.Machine

open Sys2Proof

/-! ### Group time base (GTB) -/

/-- One field's clock as GTB and the stamp counters see it (R60, R106-R108). -/
structure FieldClk where
  /-- FLD_CLK_STATE as driven: 0 full rate, 1 stretched, 2 and 3 stopped. -/
  clk : Nat := 0
  /-- cc edges that the field receives in one CCLK while stretched. -/
  edges : Nat := 2
  /-- How often the clock state has left 0b00: a stamp counter whose last stamp saw a smaller
  number gives Q = 2. -/
  stretches : Nat := 0
  /-- The number of stretches at the field counter's previous stamp. -/
  stamped : Nat := 0
  /-- Group time of the last time word, in time units. -/
  word : Nat := 0
  /-- The clock was stretched at some CCLK of the current policy tick (R650). -/
  tickStr : Bool := false
  /-- The clock was stopped at some CCLK of the current policy tick (R650). -/
  tickStop : Bool := false
  /-- GTB_FLD_LOST at the start of the current policy tick. -/
  tickLost : Nat := 0
  /-- Group time has reached the next policy-tick boundary, and the field's own counter has not (R115). -/
  behind : Bool := false
  /-- The cc edge at which the field's counter reached the next policy-tick boundary, where that was later than the
  cellar's (R111). -/
  tickEdge : Option Nat := none
  /-- GTB_FLD_LOST at the edge at which the field's counter reached that boundary. -/
  edgeLost : Nat := 0
  /-- BOUNDARY of the field's last CLOCK record (R113). -/
  edge : Bool := false
  deriving DecidableEq, Repr

/-- GTB (R91-R121). Times are counted in units of 1/5120 ns: 80 units are 1/64 ns, 4096 units are
one nominal CCLK period. -/
structure Gtb where
  /-- Group time. -/
  now : Nat := 0
  /-- CCLK edges so far: the model's own count, by which durations in CCLK end. -/
  cclk : Nat := 0
  /-- Last full trimmed increment of one CCLK. -/
  incr : Nat := 4096
  /-- Last good frame's SEQ and USEC, where the acquisition has one. -/
  prev : Option (Nat × Nat) := none
  /-- Last good frame. -/
  frame : BitVec 96 := 0
  /-- An acquisition is in progress (steps 2 to 5 of R96). -/
  acq : Bool := false
  /-- Consecutive good frames of the acquisition. -/
  good : Nat := 0
  /-- Consecutive bad frames. -/
  bad : Nat := 0
  /-- The source time has been loaded in this acquisition (step 4 of R96). -/
  loaded : Bool := false
  /-- Time that R94 assigns to the edge at which the load is due. -/
  loadAt : Option Nat := none
  /-- Consecutive GTB_REF edges with a phase error below 0.25 ns. -/
  okEdges : Nat := 0
  /-- After a declared loss: GTB_REF edges have not arrived again yet (R99). -/
  needRef : Bool := false
  /-- After a declared loss: no good frame has been taken yet (R99). -/
  needCode : Bool := false
  /-- Backward difference still to be absorbed (R101). -/
  slewLeft : Nat := 0
  /-- Time spent in the current or last HOLDOVER. -/
  held : Nat := 0
  /-- Time spent in the current or last slew, from which the uncertainty of stamps grows (R112). -/
  slewed : Nat := 0
  /-- While LOCKED: the group time that the last GTB_REF edge marks; the next marks 10 ns more (R97). -/
  refAt : Option Nat := none
  /-- Change of TRIM, in 1/64 ns, that acts at the next GTB_REF edge (R601). -/
  trimDue : Int := 0
  /-- The first cc edge, two to a CCLK, at which group time was not less than the next policy-tick boundary, once it
  has come (R111). -/
  tickEdge : Option Nat := none
  /-- Forward jumps of group time, (from, to): an event inside one is LATE (R102). -/
  jumps : List (Nat × Nat) := []
  deriving DecidableEq, Repr

/-! ### Host interface (HIF) -/

/-- One submission ring (R123, R125). Counts are free-running modulo 2^32. -/
structure Ring where
  /-- HEAD: descriptors taken by their units, in ring order (R125). -/
  head : Nat := 0
  /-- Count of the next descriptor to fetch (R141). -/
  fetch : Nat := 0
  /-- DB_LAST: the producer count of the last accepted doorbell (R129). -/
  dbLast : Nat := 0
  /-- Fetching stopped at a read error (R142). -/
  stopped : Bool := false
  /-- A RESET_COUNTS waits until every fetched descriptor is taken (R688). -/
  resetWait : Bool := false
  /-- A write of 1 to RING_EN waits for the reset (R688). -/
  enWait : Bool := false
  deriving DecidableEq, Repr

/-- A descriptor in the block: context, ring, ring count and its 64 bytes (R134). -/
structure Cmd where
  /-- Issuing context. -/
  ctx : Nat
  /-- Ring of the context, which is QUEUE of R134. -/
  ring : Nat
  /-- SUB_SEQ: the ring count of the descriptor (R134). -/
  seq : Nat
  /-- The 64 bytes of the descriptor (R134). -/
  bytes : List Byte
  /-- The model's own number of the fetch, by which a command is told apart from an older one of the same ring
  count (R688). -/
  uid : Nat := 0
  deriving DecidableEq, Repr

/-- A fetch read in flight: `n` descriptors from count `seq`. -/
structure Fetch where
  /-- Context of the ring read. -/
  ctx : Nat
  /-- Ring read. -/
  ring : Nat
  /-- Ring count of the first descriptor. -/
  seq : Nat
  /-- Descriptors read. -/
  n : Nat
  /-- Numbers of its descriptors. -/
  uids : List Nat := []
  /-- Base address of the ring when the read was issued (R157: a read in flight is accepted whatever is written
  since). -/
  base : Nat := 0
  /-- Entries of the ring when the read was issued (R126). -/
  size : Nat := 64
  deriving DecidableEq, Repr

/-- An outstanding command (R138), from its fetch until its completion is written or decided. -/
structure OutCmd where
  /-- Issuing context. -/
  ctx : Nat
  /-- Ring. -/
  ring : Nat
  /-- SUB_SEQ. -/
  seq : Nat
  /-- Its completion is decided and waits to be written. -/
  done : Bool := false
  /-- The fetch that brought it, by serial number. -/
  uid : Nat := 0
  /-- Its descriptor has been lost and is to be fetched again (R159, R180). -/
  lost : Bool := false
  deriving DecidableEq, Repr

/-- A finished completion entry in its holding slot (R138, R148). -/
structure Cpl where
  /-- Context whose CQ takes the entry. -/
  ctx : Nat
  /-- QUEUE of the entry. -/
  ring : Nat
  /-- SUB_SEQ of the entry. -/
  seq : Nat
  /-- OPCODE of the entry. -/
  opcode : Nat
  /-- STATUS of the entry. -/
  status : Nat
  /-- DETAIL of the entry. -/
  detail : Nat
  /-- RESULT of the entry. -/
  result : Nat
  /-- Trace stamp of the entry. -/
  stamp : Nat
  /-- RERUNS of the entry, 0 to 7. -/
  reruns : Nat
  /-- Whether the command carried IRQ (R151). -/
  irq : Bool
  /-- The outstanding command that it ends, by serial number. -/
  uid : Nat := 0
  deriving DecidableEq, Repr

/-- An event entry on its way to an EQ (R149, R156). -/
structure EvEntry where
  /-- Context whose EQ takes the entry. -/
  ctx : Nat
  /-- TYPE of the entry. -/
  type : Nat
  /-- SEVERITY of the entry. -/
  sev : Nat
  /-- SOURCE of the entry. -/
  src : Nat
  /-- VINTAGE of the entry. -/
  vint : Nat
  /-- PAYLOAD of the entry. -/
  payload : Nat
  /-- STAMP of the entry: the trace stamp at which it was raised. -/
  stamp : Nat
  deriving DecidableEq, Repr

/-- An item of the completion and event write queue, or of a holding slot (R139, R156, R160). -/
inductive HifEntry where
  /-- A completion entry. -/
  | cpl (e : Cpl)
  /-- An event entry. -/
  | event (e : EvEntry)
  deriving DecidableEq, Repr

/-- The context of an entry. -/
def HifEntry.ctx : HifEntry → Nat
  | .cpl e => e.ctx
  | .event e => e.ctx

/-- Whether an entry is an event entry of a context. -/
def HifEntry.eventOf (c : Nat) : HifEntry → Bool
  | .cpl _ => false
  | .event e => e.ctx == c

/-- Per-context state of HIF beside its registers. -/
structure HifCtx where
  /-- The four submission rings by number (R122). -/
  rings : Table Ring := []
  /-- CQ producer count (R139). -/
  cqProd : Nat := 0
  /-- CQ consumer count, from the CQ doorbell (R130). -/
  cqCons : Nat := 0
  /-- EQ producer count (R140). -/
  eqProd : Nat := 0
  /-- EQ consumer count, from the EQ doorbell (R130). -/
  eqCons : Nat := 0
  /-- Events dropped since the last EVENTS_LOST entry (R140). -/
  evSince : Nat := 0
  /-- The CQ has filled and has not been below full since (R139). -/
  cqFullSent : Bool := false
  /-- An interrupt cause waits (R152, R153). -/
  irqPending : Bool := false
  /-- Group time of the last interrupt message. -/
  lastMsg : Option Nat := none
  deriving DecidableEq, Repr

/-- An interrupt message sent (R69): context, address, data. -/
structure IrqMsg where
  /-- Context that the message is for. -/
  ctx : Nat
  /-- Address of the message. -/
  addr : Nat
  /-- Data of the message. -/
  data : Nat
  deriving DecidableEq, Repr

/-- HIF. -/
structure Hif where
  /-- State of each context (R122). -/
  ctx : Table HifCtx := []
  /-- Fetch reads in flight, oldest first. -/
  flight : List Fetch := []
  /-- The descriptor fetch queue (R159), oldest first. -/
  fetchQ : List Cmd := []
  /-- Outstanding commands in fetch order (R138). -/
  outs : List OutCmd := []
  /-- Serial number of the next fetched descriptor. -/
  nextUid : Nat := 0
  /-- Finished completion entries and raised event entries, oldest first (R139, R147, R160). -/
  cplQ : List HifEntry := []
  /-- Context served last (R141). -/
  rrCtx : Nat := 63
  /-- Ring served last of each context (R141). -/
  rrRing : Table Nat := []
  /-- Commands accepted by their units and not yet acted on, oldest first. -/
  unitQ : List Cmd := []
  /-- Interrupt messages in the order of issue. -/
  msgs : List IrqMsg := []
  /-- Data of the last window read, as the host target port returned it. -/
  rdata : Nat := 0
  deriving DecidableEq, Repr



/-! ### Command authenticator (CAU) -/

/-- A key slot (R162). `state`: 0 EMPTY, 1 LOADED, 2 LOCKED, 3 EXHAUSTED. -/
structure KeySlot where
  /-- The 128-bit key, as 16 bytes; none while EMPTY. -/
  key : List Byte := []
  /-- OWNER context. -/
  owner : Nat := 0
  /-- CLASSES that the slot grants. -/
  classes : Nat := 0
  /-- LAST_CTR, the highest counter accepted (R168). -/
  ctr : Nat := 0
  /-- FAILS, consecutive authentication failures (R170). -/
  fails : Nat := 0
  /-- 0 EMPTY, 1 LOADED, 2 LOCKED, 3 EXHAUSTED. -/
  state : Nat := 0
  /-- Commands that the slot has authorised. -/
  accepts : Nat := 0
  deriving DecidableEq, Repr

/-- CAU. -/
structure Cau where
  /-- The 16 key slots (R162). -/
  slots : Table KeySlot := []
  /-- The critical-command input queue (R180), the command under check first. -/
  inQ : List Cmd := []
  /-- The first command has passed R166 (or is an enrolment) and waits for its unit. -/
  passed : Bool := false
  /-- The first command is an enrolment (R177). -/
  enrol : Bool := false
  /-- The unwrapped key of a KEY_LOAD that has passed. -/
  newKey : List Byte := []
  deriving DecidableEq, Repr

/-! ### Management cluster (MGC) and policy values -/

/-- The privilege modes of a management core (R585). -/
inductive MgcMode where
  | machine | user
  deriving DecidableEq, Repr

/-- A management core (R585, R586, R589). What its instructions do to its registers is the RISC-V manual's, which the
spec names and does not restate (log entry 28). -/
structure MgcCore where
  /-- Privilege mode (R585, R597). -/
  mode : MgcMode := .machine
  /-- Integer registers that do not hold zero, by number (R585). -/
  xregs : Table Nat := []
  /-- Floating-point registers that do not hold zero, by number (R585). -/
  fregs : Table Nat := []
  /-- Control and status registers that do not hold zero, by number; mhartid reads the core's number (R585). -/
  csrs : Table Nat := []
  /-- Core address of the access outside the address map that last raised an access fault (R585). -/
  fault : Option Nat := none
  /-- The core is halted (R592). -/
  halted : Bool := true
  /-- Offset at which the core last started. -/
  pc : Nat := 0
  /-- Machine timer compare value (R586). -/
  mtimecmp : Nat := 2 ^ 64 - 1
  /-- External interrupt of the policy tick pending (R589). -/
  extPend : Bool := false
  deriving DecidableEq, Repr

/-- A shadow value on offer (R22, R23): register, arrival stamp in time units, value. -/
structure Shadow where
  /-- Register offset in the window. -/
  off : Nat
  /-- Instant of the offer, in time units (R22). -/
  stamp : Nat
  /-- Value offered. -/
  v : Nat
  deriving DecidableEq, Repr

/-- MGC. FW_STATE and its flags are in the MGC registers. -/
structure Mgc where
  /-- The SRAM of the cluster (R585). -/
  sram : Mem := []
  /-- The management cores by number (R585). -/
  cores : Table MgcCore := []
  /-- FW_LOADs accepted and not yet ended, the one in progress first (R596, R597). -/
  loads : List Cmd := []
  /-- Ticks passed without a kick; none before the first span (R591). -/
  span : Option Nat := none
  /-- A kick in the tick in progress (R591). -/
  kicked : Bool := false
  /-- A kick stamped at or after the end of the tick in progress (R591). -/
  kickedNext : Bool := false
  /-- MGC_TICK_ACK as last written before the end of the tick in progress (R590). -/
  ackSeen : Nat := 0
  /-- Shadow values not yet offered at a boundary, oldest first. -/
  offers : List Shadow := []
  /-- HOLD writes not yet in force: stamp and value, oldest first (R24). -/
  holds : List (Nat × Bool) := []
  /-- HOLD as it stood at the last boundary. -/
  holdNow : Bool := false
  /-- The active copies of policy values, by the register that holds the shadow (R22). -/
  active : Table Nat := []
  /-- Number of the policy tick in progress. -/
  tick : Nat := 0
  /-- Energy coefficients not yet in use: when they were written, and all five (R547, R600). -/
  ecs : List (Nat × List Nat) := []
  deriving DecidableEq, Repr


/-! ### Task graphs (GLD, TGE) -/

/-- A launch that a step runs or that an image holds pending (R210-R212). -/
structure Launch where
  /-- The GRAPH_LAUNCH or SERVE step's command (R210). -/
  cmd : Cmd
  /-- The step's vintage (R211). -/
  vint : Nat
  /-- SEED (R210). -/
  seed : Nat
  /-- Reproducible mode (R210). -/
  repro : Bool
  /-- Replay (R212). -/
  replay : Bool
  /-- LAST_VINTAGE before the launch was accepted. -/
  prev : Nat
  /-- Started by SLS for a batch step of this serving context rather than by a descriptor. -/
  serving : Option Nat := none
  deriving DecidableEq, Repr

/-- An image record (R200, R201, R220). `state`: 0 load accepted, 1 installed, 2 unloading. -/
structure Img where
  /-- CONTEXT (R220). -/
  ctx : Nat
  /-- IMAGE_ID (R220). -/
  id : Nat
  /-- 0 load accepted, 1 installed, 2 unloading. -/
  state : Nat
  /-- TASKS: number of tasks. -/
  tasks : Nat
  /-- EDGES: number of edge words. -/
  edges : Nat
  /-- Channels that the image declares (R342). -/
  channels : Nat := 0
  /-- Blend queues that the image declares (R343). -/
  queues : Nat := 0
  /-- MIN_CLUSTERS of the header. -/
  minClusters : Nat := 0
  /-- The image brings a graph map. -/
  hasMap : Bool := false
  /-- Physical task blocks, in image order (R200). -/
  tblk : List Nat := []
  /-- Physical edge blocks, in image order (R200). -/
  eblk : List Nat := []
  /-- SHA-256 of the whole image (R584). -/
  sha : List Byte := []
  /-- The graph map, one core number per task. -/
  map : List Nat := []
  /-- Vintage of the last accepted launch (R211). -/
  last : Nat := 0
  /-- Vintage of the running or last step. -/
  vint : Nat := 0
  /-- Tasks counted complete in the running or last step. -/
  done : Nat := 0
  /-- The launch held behind the running step (R211). -/
  pending : Option Launch := none
  /-- The GRAPH_LOAD or GRAPH_UNLOAD in progress. -/
  cmd : Option Cmd := none
  /-- The CCLK in which the zeroing of its blocks ends, while it unloads (R218). -/
  zeroBy : Nat := 0
  deriving DecidableEq, Repr

/-- One condition that a step's status reports: when it first occurred, the task, the kill cause. -/
structure Note where
  /-- Trace stamp at which the condition first occurred. -/
  stamp : Nat
  /-- Its task. -/
  task : Nat
  /-- Its kill cause. -/
  cause : Nat
  deriving DecidableEq, Repr

/-- Imbalance figures of one stage (R249). -/
structure Stage where
  /-- SUM of run times in ns. -/
  sum : Nat := 0
  /-- COUNT of runs. -/
  count : Nat := 0
  /-- MAX run time in ns. -/
  max : Nat := 0
  /-- Task of the longest run. -/
  task : Nat := 0
  /-- Latest end stamp in ns. -/
  endNs : Nat := 0
  deriving DecidableEq, Repr

/-- A gate-record write (R691): of a pass, whose commit waits for it, or of a failure. -/
structure GateWrite where
  /-- The gate task. -/
  task : Nat
  /-- The gate passed, and its commit waits for the write. -/
  pass : Bool
  /-- Virtual address of the gate record. -/
  va : Nat
  /-- The record's bytes. -/
  bytes : List Byte
  /-- PAT has the write, which waits for a frame. -/
  issued : Bool := false
  deriving DecidableEq, Repr

/-- A running step (R214-R217, R287-R290), keyed by its image record. `phase`: 0 beginning,
1 sweeping, 2 running, 3 tearing down, 4 checked and waiting for its objects (R317). -/
structure Step where
  /-- The launch that it runs. -/
  launch : Launch
  /-- 0 beginning, 1 sweeping, 2 running, 3 tearing down, 4 waiting for its objects. -/
  phase : Nat := 0
  /-- Rows that the sweep has visited. -/
  row : Nat := 0
  /-- Group time of the step's start. -/
  start : Nat := 0
  /-- The CCLK in which the step starts, from which its sweep counts rows (R214). -/
  startCclk : Nat := 0
  /-- Kills of the step whose run had started (R290). -/
  reruns : Nat := 0
  /-- Notes by order of R290. -/
  notes : Table Note := []
  /-- Counted kills by task, or by message for HANDLER runs. -/
  kills : Table Nat := []
  /-- Cause of the last counted kill by the same key. -/
  lastCause : Table Nat := []
  /-- Tasks that run interlocked for the rest of the step (R283). -/
  interlocked : List Nat := []
  /-- Recorded generation of each instruction image (R217). -/
  gens : Table Nat := []
  /-- Non-finite elements loaded in the step (R402, R574). -/
  nfLoad : Nat := 0
  /-- Non-finite elements stored (R402). -/
  nfStore : Nat := 0
  /-- Stamp, task and LAYER of the first commit that added to the counts. -/
  nfFirst : Option (Nat × Nat × Nat) := none
  /-- The digest row of the step has faulted, or the context computes none (R405). -/
  noDigest : Bool := false
  /-- Stages of a measured step (R249). -/
  measured : Bool := false
  /-- Imbalance figures by stage (R249). -/
  stages : Table Stage := []
  /-- Cause of the teardown. -/
  cause : Nat := 0
  /-- Task of the teardown's cause. -/
  causeTask : Nat := 0
  /-- Cause of the last kill. -/
  lastKill : Nat := 0
  /-- GRAPH_ABORT commands that wait for the end. -/
  aborts : List Cmd := []
  /-- Tasks whose WAIT_OBJ wait has been granted and that have not committed. -/
  granted : List Nat := []
  /-- Reason of the gate's failure (R568, R572). -/
  gateReason : Nat := 0
  /-- Non-finite elements that the failed gate counted. -/
  gateNf : Nat := 0
  /-- Loss as the failed gate read it. -/
  gateLoss : Nat := 0
  /-- Gate records still to be written (R691). -/
  gateWrites : List GateWrite := []
  /-- Reads of a gate, as task and address, whose STREAM page could not be filled (R466, R568). -/
  gateFaults : List (Nat × Nat) := []
  /-- The gradient range of a failed gate has been released (R570). -/
  released : Bool := false
  deriving DecidableEq, Repr

/-- A decrement on its way to a counter (R192-R194). -/
structure Dec where
  /-- Physical task whose counter is lowered. -/
  task : Nat
  /-- Field in which the predecessor ran, where it ran on a core or REX. -/
  field : Option Nat := none
  /-- The CCLK in which it reached its bank: the committed task and the row of 16 edges read together (R192,
  R193). -/
  burst : Option (Nat × Nat) := none
  /-- A grant of the task's WAIT_OBJ wait rather than an edge. -/
  grant : Bool := false
  deriving DecidableEq, Repr

/-- TGE and GLD. -/
structure Tge where
  /-- Image records (R201). -/
  imgs : Table Img := []
  /-- Running steps by image record (R214). -/
  steps : Table Step := []
  /-- The task table: 64-byte descriptors by physical task. -/
  tasks : Table (List Byte) := []
  /-- Edge words by physical entry. -/
  edges : Table Nat := []
  /-- Counter words, copy A, by physical task. -/
  cntA : Table Nat := []
  /-- Counter words, copy B, by physical task (R608). -/
  cntB : Table Nat := []
  /-- Decrements not yet applied, in order of issue; a bank holds those of its tasks. -/
  decQ : List Dec := []
  /-- Accepted loads in acceptance order, by image record (R207). -/
  loads : List Nat := []
  deriving DecidableEq, Repr

/-! ### Ready lists, timers, core agents and commit records (RDY, TMR, CAG, CMT) -/

/-- A ready entry (R221-R226). `kind`: 0 matrix, 1 vector, 2 DMA, 3 REX. -/
structure Ready where
  /-- Context. -/
  ctx : Nat
  /-- Image record. -/
  img : Nat
  /-- Physical task. -/
  task : Nat
  /-- PRIORITY class. -/
  prio : Nat
  /-- Demand kind: 0 matrix, 1 vector, 2 DMA, 3 REX. -/
  kind : Nat
  /-- Effective rank (R225). -/
  rank : Nat
  /-- Entry order (R223, R224). -/
  order : Nat
  /-- Home field (R229). -/
  home : Nat
  /-- Reruns so far in the step. -/
  reruns : Nat := 0
  /-- A REX task that reruns in interlocked mode (R283). -/
  interlock : Bool := false
  /-- The message of a HANDLER run, by record serial. -/
  msg : Option Nat := none
  /-- Group time at which the entry entered RDY. -/
  since : Nat := 0
  /-- Marked delayed: waits for a timer entry (R246), due at this instant. -/
  due : Option Nat := none
  /-- Field of the predecessor that made the task ready (R229). -/
  pred : Option Nat := none
  /-- A delayed entry that has left TMR's insertion queue and found no timer entry free (R246). -/
  parked : Bool := false
  /-- A T1 run (R556): its core; it belongs to no step. -/
  t1 : Option Nat := none
  /-- The entry is a rerun. -/
  again : Bool := false
  deriving DecidableEq, Repr

/-- A timer entry (R245-R247). -/
structure Timer where
  /-- Context. -/
  ctx : Nat
  /-- Image record. -/
  img : Nat
  /-- Physical task. -/
  task : Nat
  /-- Instant, in time units (R245). -/
  due : Nat
  /-- Field of the predecessor that made the task ready (R229). -/
  pred : Option Nat := none
  deriving DecidableEq, Repr

/-- An effect request of a command (R258): the unit and OP that it names and the whole 128 bits.
`refused` is the reason with which it was refused as it registered, 0 for none. -/
structure Eff where
  /-- Unit that the request names. -/
  unit : Nat
  /-- OP of the request. -/
  op : Nat
  /-- The 128 bits of the request. -/
  data : Nat
  /-- Reason of a refusal as it registered, 0 for none. -/
  refused : Nat := 0
  /-- A send or contribution: its physical channel or queue, by record or key. -/
  target : Option Nat := none
  /-- Epoch recorded with a send (R348). -/
  epoch : Nat := 0
  /-- Credit that a send holds: 0 none, 1 local ring credit, 2 remote credit. -/
  credit : Nat := 0
  /-- Flit credits held of the context's reservation (R371). -/
  own : Nat := 0
  /-- Flit credits held of the pool (R371). -/
  pool : Nat := 0
  /-- Further bytes that its unit took in with it. -/
  bytes : List Byte := []
  /-- Registered: counted toward the COMPLETE record's number (R18). -/
  reg : Bool := false
  deriving DecidableEq, Repr

/-- A page that a command has written first (R470): virtual page, fresh frame. -/
structure Fresh where
  /-- Virtual page. -/
  va : Nat
  /-- A large page. -/
  large : Bool
  /-- Its fresh frame. -/
  frame : Nat
  /-- Address of the leaf entry that the commit will write (R470). -/
  leaf : Nat := 0
  deriving DecidableEq, Repr

/-- A command: one run of a task (R265). `state`: 0 in its DISPATCH queue, 1 staged, 2 waiting for
GATE_ACK, 3 running, 4 ended and its COMPLETE record on the way, 5 held by CMT. -/
structure Run where
  /-- Context. -/
  ctx : Nat
  /-- Image record. -/
  img : Nat
  /-- Physical task. -/
  task : Nat
  /-- KIND of the task descriptor. -/
  taskKind : Nat
  /-- PRIORITY class. -/
  prio : Nat
  /-- Demand kind: 0 matrix, 1 vector, 2 DMA, 3 REX. -/
  kind : Nat
  /-- Effective rank at its dispatch. -/
  rank : Nat
  /-- Entry order at its dispatch. -/
  order : Nat
  /-- Reruns of the task before this run. -/
  reruns : Nat
  /-- A REX task that reruns in interlocked mode (R283). -/
  interlock : Bool
  /-- The message of a HANDLER run, by record serial. -/
  msg : Option Nat
  /-- Vintage of the step. -/
  vint : Nat
  /-- Seed of the command. -/
  seed : Nat
  /-- 0 in DISPATCH, 1 staged, 2 waiting for GATE_ACK, 3 running, 4 ended, 5 held by CMT. -/
  state : Nat
  /-- Field to which it was sent. -/
  field : Nat := 0
  /-- Core number, or REX unit for kind 3. -/
  core : Nat := 0
  /-- Resident slot (R239). -/
  slot : Nat := 0
  /-- Engine of the core. -/
  engine : Nat := 0
  /-- Placed by the graph map or as a T1 run: a core number. -/
  mapped : Option Nat := none
  /-- A T1 run (R556). -/
  t1 : Bool := false
  /-- Home field (R229). -/
  home : Nat := 0
  /-- Group time of its entry into RDY. -/
  since : Nat := 0
  /-- Trace stamp of the scheduling decision (R251). -/
  decided : Nat := 0
  /-- REASON of the scheduling decision (R251). -/
  reason : Nat := 0
  /-- WAIT of the decision in cc (R251). -/
  wait : Nat := 0
  /-- The start waited for GATE_ACK. -/
  gated : Bool := false
  /-- A REX command that runs in interlocked mode, as fixed at its start (R283, R292). -/
  locked : Bool := false
  /-- GTB_FLD_LOST of the field at the last charge. -/
  lost : Nat := 0
  /-- The cc edge, two to a CCLK, up to which it is charged (R545). -/
  chargedTo : Nat := 0
  /-- It was staged before it started. -/
  staged : Bool := false
  /-- Group time of the start. -/
  start : Nat := 0
  /-- Quality of the begin stamp. -/
  startQ : Nat := 0
  /-- Begin stamp in whole ns. -/
  beginNs : Nat := 0
  /-- End stamp in whole ns. -/
  endNs : Nat := 0
  /-- BOUNDARY of the begin stamp (R113). -/
  beginEdge : Bool := false
  /-- BOUNDARY of the end stamp (R113). -/
  boundary : Bool := false
  /-- Watchdog instant (R285). -/
  wdog : Nat := 0
  /-- When it was staged, and the order of staging. -/
  stagedAt : Nat := 0
  /-- Effect requests and page-grant records sent. -/
  sent : Nat := 0
  /-- Effect requests that the command has made (R266). -/
  reqs : Nat := 0
  /-- The number of effects that its COMPLETE record states (R266). -/
  stated : Option Nat := none
  /-- Effects registered so far (R266). -/
  registered : Nat := 0
  /-- Its effect requests, in the order in which they arrived. -/
  effects : List Eff := []
  /-- Pages that it has written first (R470). -/
  fresh : List Fresh := []
  /-- Pages that the command has translated and the committed frame then, 0 where unmapped (R263). -/
  seen : List (Nat × Option Nat) := []
  /-- Units that waits of the command have taken: object, units, tag, directed. -/
  taken : List (Nat × Nat × Nat × Bool) := []
  /-- Cause of the kill, once killed (R277). -/
  killed : Option Nat := none
  /-- The kill has counted toward RERUN_LIMIT (R282). -/
  counted : Bool := false
  /-- A T1 run that has passed its limit (R556). -/
  t1Over : Bool := false
  /-- KILL has been raised at the engine, and when. -/
  killAt : Option Nat := none
  /-- END has been given or is no longer to come. -/
  ended : Bool := false
  /-- Commit point passed. -/
  committed : Bool := false
  /-- REX: the sum of the digest contributions (R404). -/
  digest : Nat := 0
  /-- Non-finite elements loaded (R401, R402). -/
  nfLoad : Nat := 0
  /-- Non-finite elements stored (R402). -/
  nfStore : Nat := 0
  /-- Engine cycles charged so far. -/
  charged : Nat := 0
  /-- Effects that a unit has not registered yet and that wait for it: their places in `effects`. -/
  waiting : List Nat := []
  deriving DecidableEq, Repr

/-- The withdrawal of a staged task (R238): the task as RDY knew it when it sent the record, and the freed
engine that the record keeps for it. -/
structure Withdrawal where
  /-- The run to withdraw. -/
  run : Nat
  /-- The task as RDY knew it. -/
  task : Run
  /-- Field of the freed engine. -/
  field : Nat
  /-- Core of the freed engine. -/
  core : Nat
  /-- The freed engine. -/
  engine : Nat
  deriving DecidableEq, Repr

/-- A record in a field's DISPATCH queue: a task start, or the withdrawal of a staged task to a
freed place. -/
inductive DispItem where
  | start (run : Nat)
  | withdraw (w : Withdrawal)
  deriving DecidableEq, Repr

/-- A record in a field's COMPLETE queue (R18): the run and the number of its effects.
The place that the command held is busy to RDY until the record arrives (R232). -/
structure CplItem where
  /-- The run that ended. -/
  run : Nat
  /-- The number of its effects (R18). -/
  count : Nat
  /-- Its demand kind. -/
  kind : Nat := 0
  /-- Core of the place that it held. -/
  core : Nat := 0
  /-- Engine of the place. -/
  engine : Nat := 0
  /-- The resident slot that is ending (R239). -/
  slot : Nat := 0
  deriving DecidableEq, Repr

/-- A record in a field's EFFECT queue: the run and its request. -/
structure EffItem where
  /-- The run that made the request. -/
  run : Nat
  /-- The request. -/
  eff : Eff
  deriving DecidableEq, Repr

/-- A record in a field's GRANT queue (R16): a kill order, a sync wake-up for a waiter with the instant, in time
units, before which the field controller does not act (R115), a translation response or fresh-page grant of
PAT. -/
inductive GrantItem where
  | kill (run : Nat)
  | wake (run waiter due : Nat)
  | resp (word : Nat)
  deriving DecidableEq, Repr

/-- Whether a GRANT record is a translation response. -/
def GrantItem.isResp : GrantItem → Bool
  | .resp _ => true
  | _ => false

/-- Queues of one field's vertical link, oldest first. -/
structure Field where
  /-- DISPATCH, downward (R16, R232). -/
  dispQ : List DispItem := []
  /-- COMPLETE, upward (R16). -/
  cplQ : List CplItem := []
  /-- EFFECT, upward (R16). -/
  effQ : List EffItem := []
  /-- GRANT, downward (R16). -/
  grantQ : List GrantItem := []
  /-- Vertical-link state: 0 untrained, 1 training, 2 READY, 3 FAILED. -/
  train : Nat := 0
  /-- The field's core-side march has passed (R673). -/
  bist : Bool := false
  /-- FLD_OFF_REQ (R61). -/
  offReq : Bool := false
  /-- FLD_OFF_ACK (R61). -/
  offAck : Bool := false
  /-- CLK_FAIL (R673). -/
  clkFail : Bool := false
  /-- Spare lanes assigned downward (R673). -/
  sparesDown : Nat := 0
  /-- Spare lanes assigned upward (R673). -/
  sparesUp : Nat := 0
  deriving DecidableEq, Repr

/-- A core (R239-R242). -/
structure CoreSt where
  /-- FAILED (R54, R242, R671). -/
  failed : Bool := false
  /-- GATE_REQ (R55, R240). -/
  gateReq : Bool := false
  /-- GATE_ACK (R55, R240). -/
  gateAck : Bool := false
  /-- Group time since which no slot of the core has run. -/
  idleSince : Nat := 0
  /-- Stretches seen at the core's previous stamp (R106). -/
  stamped : Nat := 0
  deriving DecidableEq, Repr

/-- What RDY and CAG know of a REX unit. -/
structure RexSt where
  /-- FAILED (R54, R671). -/
  failed : Bool := false
  /-- OFFLINE (R417). -/
  offline : Bool := false
  /-- Stretches seen at the unit's previous stamp. -/
  stamped : Nat := 0
  deriving DecidableEq, Repr

/-- A beat sent on an engine port (R51, R196, R319, R360): CMD_DATA with its core, engine and slot, and
CMD_LAST. -/
structure Beat where
  /-- Core that receives it, or REX unit. -/
  core : Nat
  /-- Engine of the core. -/
  engine : Nat
  /-- Resident slot. -/
  slot : Nat
  /-- CMD_DATA. -/
  data : Nat
  /-- CMD_LAST (R51). -/
  last : Bool := true
  deriving DecidableEq, Repr

/-- A commit whose effects are still to be applied: commands, the members of a commit group together
(R268, R272), or a HOST_SIGNAL task of an image record (R181). -/
inductive CommitItem where
  | runs (ids : List Nat)
  | signal (img task : Nat)
  deriving DecidableEq, Repr

/-- RDY, TMR, CAG and CMT. -/
structure Disp where
  /-- Entries of the ready lists, in entry order (R221). -/
  ready : List Ready := []
  /-- Next entry order. -/
  order : Nat := 0
  /-- Timer entries (R246). -/
  timers : List Timer := []
  /-- Vertical-link queues and state of each field (R16). -/
  fields : Table Field := []
  /-- State of each core (R239). -/
  cores : Table CoreSt := []
  /-- Commit records by serial number. -/
  runs : Table Run := []
  /-- Serial number of the next run. -/
  nextRun : Nat := 0
  /-- What has passed its commit point, in commit order. -/
  readyQ : List CommitItem := []
  /-- Gate tasks whose COUNT is 0, by image record and task. -/
  gates : List (Nat × Nat) := []
  /-- Fresh frames in quarantine (R278). -/
  quarantine : List Nat := []
  /-- Fresh frames of commands killed with CORE_RESET, which return at the release of CORE_RST_N (R279). -/
  resetFrames : List Nat := []
  /-- REX units by number. -/
  rex : Table RexSt := []
  /-- Beats sent on the engine ports, in order (R196, R319, R360). -/
  beats : List Beat := []
  /-- CORE_RST_N is low (R48). -/
  coreRst : Bool := false
  deriving DecidableEq, Repr


/-! ### Safety supervisor (SAF) -/

/-- An error record (R624). -/
structure Rec where
  /-- SEQ: number in the ring (R625). -/
  seq : Nat := 0
  /-- Severity: 0 info, 1 warning, 2 error, 3 fatal. -/
  sev : Nat
  /-- Unit code. -/
  unit : Nat
  /-- Record code (R627). -/
  code : Nat
  /-- Context, where the record names one. -/
  ctx : Option Nat := none
  /-- Trace stamp of the acceptance. -/
  stamp : Nat := 0
  /-- DETAIL. -/
  detail : Nat := 0
  /-- PARAM. -/
  param : Nat := 0
  deriving DecidableEq, Repr

/-- An entry of the frozen table (R620-R622). -/
structure Frozen where
  /-- Context of the object. -/
  ctx : Nat
  /-- VID of the object. -/
  vid : Nat
  /-- Its physical object. -/
  obj : Nat
  /-- DROPS: operations refused since (R620). -/
  drops : Nat := 0
  deriving DecidableEq, Repr

/-- A step-ledger word of a physical task (R614). -/
structure Led where
  /-- The task is done in the step. -/
  done : Bool := false
  /-- The task's wait has been granted. -/
  waited : Bool := false
  deriving DecidableEq, Repr

/-- SAF. -/
structure Saf where
  /-- The safe state (R628). -/
  safe : Bool := false
  /-- The error record queue (R625). -/
  recQ : List Rec := []
  /-- The error record ring by slot (R625). -/
  ring : Table Rec := []
  /-- The first fatal record. -/
  fatal : Option Rec := none
  /-- Reads of SAF_REC_DATA since the last write of SAF_REC_SEL. -/
  recPos : Nat := 0
  /-- The frozen table (R620). -/
  frozen : Table Frozen := []
  /-- Stage of each context's recovery: 3 waiting for ends, 4 sent back to step 5 (R623), 5 rebuilt and
  waiting for step 6. -/
  recov : Table Nat := []
  /-- Rerun entries that a recovery has taken out of RDY, by task (R617); `again` where step 2 of R615 killed
  the command, whose entry order stands. -/
  kept : Table Ready := []
  /-- Copy A of the step ledger by physical task (R614). -/
  ledA : Table Led := []
  /-- Copy B of the step ledger by physical task (R614). -/
  ledB : Table Led := []
  /-- RUNS tally of each HANDLER task. -/
  runs : Table Nat := []
  deriving DecidableEq, Repr



/-! ### Parcels and shares (PSM) -/

/-- A parcel (R534-R541): its clusters as a mask. -/
structure Parcel where
  /-- Mask of its clusters (R534). -/
  clusters : Nat := 0
  /-- CHAN_MASK (R536). -/
  chanMask : Nat := 0
  /-- WAY_MASK (R536). -/
  wayMask : Nat := 0
  deriving DecidableEq, Repr

/-- A PSM command in progress. `kind`: 0 PARCEL_SET, 1 CTX_SAVE, 2 CTX_RESTORE, 3 MODEL_SWITCH. -/
structure PsmOp where
  /-- The command. -/
  cmd : Cmd
  /-- 0 PARCEL_SET, 1 CTX_SAVE, 2 CTX_RESTORE, 3 MODEL_SWITCH. -/
  kind : Nat
  /-- Contexts that it touches. -/
  ctxs : List Nat := []
  /-- Parcels that it touches. -/
  parcels : List Nat := []
  /-- Commands that it killed. -/
  killed : Nat := 0
  /-- Killed commands that have not ended yet. -/
  await : List Nat := []
  /-- T1 runs not yet committed. -/
  left : Nat := 0
  /-- T1 runs committed (R556). -/
  runs : Nat := 0
  /-- A T1 run has passed its limit (R556). -/
  limit : Bool := false
  /-- Counted kills of the T1 runs by core. -/
  kills : Table Nat := []
  /-- MODEL_SWITCH: pages still to be filled (R559). -/
  pages : List Nat := []
  /-- Pages filled (R559). -/
  filled : Nat := 0
  deriving DecidableEq, Repr

/-- The charges and waits of one policy tick (R545-R549). -/
structure Tally where
  /-- Cycles charged, by context and demand kind (4c + k). -/
  use : Table Nat := []
  /-- Bytes charged, by context (R546). -/
  bytes : Table Nat := []
  /-- Energy charged in fJ, by context, with the remainder of earlier ticks (R547). -/
  energy : Table Nat := []
  /-- Sum of the placement waits, by parcel. -/
  waitSum : Table Nat := []
  /-- Number of placement waits, by parcel. -/
  waitNum : Table Nat := []
  deriving DecidableEq, Repr

/-- PSM. -/
structure Psm where
  /-- Parcels by number (R534). -/
  parcels : Table Parcel := []
  /-- Parcel of each bound context. -/
  bound : Table Nat := []
  /-- Clusters closed to a context while it is racked (R539). -/
  closed : Table Nat := []
  /-- T1 state of each context: 0 ACTIVE, 1 SAVING, 2 SAVED, 3 RESTORING. -/
  t1 : Table Nat := []
  /-- MODEL_ID of each context (R557). -/
  model : Table Nat := []
  /-- The resident model (R557, R558). -/
  resident : Nat := 0
  /-- A MODEL_SWITCH is in progress (R559). -/
  switching : Bool := false
  /-- PSM commands in progress, oldest first. -/
  ops : List PsmOp := []
  /-- What the tick whose boundary comes next has been charged (R548). -/
  tally : Tally := {}
  /-- What is stamped at or after that boundary, before it has been taken: it belongs to the tick that begins there
  (R111). -/
  next : Tally := {}
  /-- Accounting words of each context as the last read of PSM_CTX_ENG0_LO captured them. -/
  captured : Table (List Nat) := []
  deriving DecidableEq, Repr



/-! ### Page allocator and translator (PAT) -/

/-- A frame in use, keyed by its address in units of 64 KiB. `use`: 0 mapped, 1 provisional,
2 deferred release, 3 page tables, 4 quarantine, 5 filling, 6 KV reservation. -/
structure Frame where
  /-- Owning context. -/
  ctx : Nat
  /-- 0 mapped, 1 provisional, 2 deferred release, 3 page tables, 4 quarantine, 5 filling, 6 KV reservation. -/
  use : Nat
  /-- A large frame of 2 MiB. -/
  large : Bool := false
  deriving DecidableEq, Repr

/-- A table frame (R463): `small` for L3 tables of 256 B, else tables of 4 KiB; slots in use. -/
structure TFrame where
  /-- Owning context. -/
  ctx : Nat
  /-- It holds L3 tables of 256 B. -/
  small : Bool
  /-- Table slots in use. -/
  slots : List Nat := []
  deriving DecidableEq, Repr

/-- A leaf entry (R462): `res` 0 resident, 1 spilled, 2 dropped; `at` the frame or the slot. -/
structure PageMap where
  /-- A large page. -/
  large : Bool
  /-- RES: 0 resident, 1 spilled, 2 dropped. -/
  res : Nat := 0
  /-- The frame, or the backing slot. -/
  at_ : Nat
  deriving DecidableEq, Repr

/-- A frame in deferred release (R473): the commands, deliveries and intakes that must end first. -/
structure Deferred where
  /-- The frame. -/
  frame : Nat
  /-- Its context. -/
  ctx : Nat
  /-- Commands that must end first. -/
  runs : List Nat
  /-- Deliveries that must end first, by record serial. -/
  recs : List Nat := []
  /-- Blend intakes that must end first, by contribution serial. -/
  intakes : List Nat := []
  deriving DecidableEq, Repr

/-- A request that waits for a frame, for quota or for a fill (R478, R483). -/
inductive PatWait where
  /-- A translation request of a running command: field, request word. -/
  | xlt (field : Nat) (run : Nat) (req : Nat)
  /-- A unit's own write (R460). -/
  | write (ctx va : Nat) (bytes : List Byte)
  /-- A memory access of a REX command, which its instruction makes once the page can be had (R478, R483). -/
  | rex (run va : Nat) (write : Bool)
  /-- A read of a gate's evaluation, by image record, task and context, for whose STREAM page CMT waits (R466, R567). -/
  | gate (img task ctx va : Nat)
  deriving DecidableEq, Repr

/-- A STREAM page fill in progress (R483): its frame, and whether MODEL_SWITCH asked for it. -/
structure Fill where
  /-- Context. -/
  ctx : Nat
  /-- Virtual page. -/
  vpn : Nat
  /-- Frame being filled. -/
  frame : Nat
  /-- A large page. -/
  large : Bool
  /-- MODEL_SWITCH asked for it. -/
  switch : Bool := false
  /-- A prefetch (R484). -/
  ahead : Bool := false
  /-- Field of the requester (R475). -/
  field : Option Nat := none
  deriving DecidableEq, Repr

/-- A translation response (R465). -/
structure XltResp where
  /-- Field whose port carries it. -/
  field : Nat
  /-- Its bits (R465). -/
  word : Nat
  deriving DecidableEq, Repr

/-- PAT. -/
structure Pat where
  /-- Frames exist for grants: the cellar's start-up is done. -/
  up : Bool := false
  /-- Frames in use (R454). -/
  frames : Table Frame := []
  /-- Frames that hold page tables (R463). -/
  tframes : Table TFrame := []
  /-- Table addresses by context, level and prefix. -/
  tabs : Table Nat := []
  /-- Leaf entries by context and page number. -/
  maps : Table PageMap := []
  /-- Frames in deferred release, oldest first (R473). -/
  deferred : List Deferred := []
  /-- Requests that wait, in arrival order (R478). -/
  waits : List PatWait := []
  /-- STREAM fills in progress, oldest first (R483). -/
  fills : List Fill := []
  /-- Backing slots in use, by context. -/
  slots : Table (List Nat) := []
  /-- Committed mappings that the translation cache holds, oldest first. -/
  cached : List Nat := []
  /-- Stack taken last for each field (R475). -/
  turn : Table Nat := []
  /-- Context whose waiting request was served last (R478). -/
  served : Nat := 0
  /-- Zeroed small frames in each stack's pool (R474). -/
  pool : Table Nat := []
  /-- MEM_LOW has been written and FREE has not recovered at a boundary (R479). -/
  lowSent : Bool := false
  /-- Responses sent on the translation ports. -/
  resps : List XltResp := []
  deriving DecidableEq, Repr


/-! ### Synchronisation objects (SYN) -/

/-- One copy of a physical object (R301). The two queues hold waiter entries in arrival order; their
first and last entries are the HEAD and TAIL fields. -/
structure SynObj where
  /-- KIND: a barrier, else a counter. -/
  barrier : Bool
  /-- XCHIP. -/
  xchip : Bool := false
  /-- REALIGN. -/
  realign : Bool := false
  /-- SENSE. -/
  sense : Bool := false
  /-- CHIP_ARRIVED. -/
  chipArrived : Bool := false
  /-- OWNER context. -/
  owner : Nat
  /-- VID. -/
  vid : Nat
  /-- VALUE. -/
  value : Nat := 0
  /-- LIMIT: CEILING of a counter; PARTICIPANTS and CHIPS of a barrier. -/
  limit : Nat
  /-- INIT. -/
  init : Nat := 0
  /-- DTAG; on the home chip of a cross-chip barrier the chips counted. -/
  dtag : Nat := 0
  /-- DUNITS. -/
  dunits : Nat := 0
  /-- PHASE. -/
  phase : Nat := 0
  /-- The general queue. -/
  gq : List Nat := []
  /-- The directed queue. -/
  dq : List Nat := []
  deriving DecidableEq, Repr

/-- A waiter entry (R315). `kind`: 0 task, 1 command, 2 host. -/
structure Waiter where
  /-- 0 task, 1 command, 2 host. -/
  kind : Nat
  /-- Context. -/
  ctx : Nat
  /-- Physical object. -/
  obj : Nat
  /-- Units asked. -/
  units : Nat
  /-- TAG. -/
  tag : Nat := 0
  /-- SENSE awaited at a barrier. -/
  sense : Bool := false
  /-- Physical task and image record of a task waiter. -/
  task : Nat := 0
  /-- Image record of a task waiter. -/
  img : Nat := 0
  /-- Run of a command waiter. -/
  run : Nat := 0
  /-- The host command of a host waiter. -/
  cmd : Option Cmd := none
  /-- The grant is issued and not yet acknowledged (R321). -/
  granted : Bool := false
  /-- Reason of a refusal on its way back, 0 for none. -/
  refused : Nat := 0
  /-- VID as asked. -/
  vid : Nat := 0
  /-- Group time in ns of the grant. -/
  at_ : Nat := 0
  /-- Units or PHASE granted. -/
  got : Nat := 0
  deriving DecidableEq, Repr

/-- An operation that waits for its object to be materialised (R296, R297). `src`: 0 a host command,
1 an effect request of a run, 2 the start of a step. -/
structure MatReq where
  /-- 0 a host command, 1 an effect request, 2 the start of a step. -/
  src : Nat
  /-- Context. -/
  ctx : Nat
  /-- VID. -/
  vid : Nat
  /-- The host command. -/
  cmd : Option Cmd := none
  /-- The run that asked. -/
  run : Nat := 0
  /-- Place of the request in the run's effects. -/
  eff : Nat := 0
  /-- Image record of the step. -/
  img : Nat := 0
  deriving DecidableEq, Repr

/-- A cross-chip release (R328, R329): the object, its instant in ns, whether the instant had come when it reached
this chip's comparator (LATE, R116), and, once made, the Q of the release (R117). -/
structure XbRelease where
  /-- Physical object. -/
  obj : Nat
  /-- Release instant in ns. -/
  due : Nat
  /-- LATE (R116). -/
  late : Bool := false
  /-- Q of the release once made (R117). -/
  q : Nat := 0
  deriving DecidableEq, Repr

/-- SYN. -/
structure Syn where
  /-- Copy A of the objects by physical number (R301). -/
  objA : Table SynObj := []
  /-- Copy B of the objects (R608). -/
  objB : Table SynObj := []
  /-- The word that copy B of a free object has turned into, where it no longer agrees with copy A, which is zero
  (R610, R619). -/
  freeB : Table Nat := []
  /-- Waiter entries by serial number (R315). -/
  waiters : Table Waiter := []
  /-- Serial number of the next waiter entry. -/
  nextWaiter : Nat := 0
  /-- Operations that wait for an object to be materialised, oldest first (R296). -/
  mats : List MatReq := []
  /-- Early chip arrivals by XB_ID and SENSE (2 XB_ID + SENSE), with the chips that they came from (R327). -/
  early : Table (List Nat) := []
  /-- Cross-chip releases that wait for their instant (R328). -/
  releases : List XbRelease := []
  /-- The records of the releases made, in order, each with its LATE mark and its Q (R116, R117). -/
  released : List XbRelease := []
  /-- WAIT effect requests that have reached SYN and not yet taken effect: run, place of the effect. -/
  newWaits : List (Nat × Nat) := []
  /-- Task-waiter entries reserved, by image record (R317). -/
  reserved : Table Nat := []
  /-- Word of the object that the next diagnostic read shows (R339). -/
  diagPos : Nat := 0
  /-- Chips whose arrival the home object has counted in the current phase, by object (R328). -/
  arrivers : Table (List Nat) := []
  /-- The grant queue (R321): waiters whose grant awaits its acknowledgement, oldest first. -/
  grantQ : List Nat := []
  /-- The SYNC_DUMP in progress. -/
  dump : Option Cmd := none
  /-- Its trace stamp at the start. -/
  dumpStamp : Nat := 0
  deriving DecidableEq, Repr

/-! ### Trace and counters (TRC) -/

/-- A trace stream (R641-R644). -/
structure TrcStream where
  /-- WPTR: next byte of the segment. -/
  wptr : Nat := 0
  /-- WRAPS. -/
  wraps : Nat := 0
  /-- DROPPED. -/
  dropped : Nat := 0
  /-- Group time of its last FULL_STAMP. -/
  lastFull : Nat := 0
  deriving DecidableEq, Repr

/-- A scheduling-decision record of RDY that is held until those of its earlier decisions have gone, so that the
cellar stream has them in stamp order (R645, R251). -/
structure SchedHold where
  /-- The run whose place the record waits for. -/
  run : Nat
  /-- The record, once it is known. -/
  entry : Option Nat := none
  deriving DecidableEq, Repr

/-- TRC. Sources of records are core agents by core number, REX units from 8192, field controllers
from 16384. -/
structure Trc where
  /-- RUNNING (R639). -/
  on : Bool := false
  /-- Context whose stacked memory takes the trace. -/
  owner : Nat := 0
  /-- Virtual address of the region. -/
  base : Nat := 0
  /-- Segment size in MiB. -/
  segMiB : Nat := 0
  /-- HALT mode, else WRAP (R641). -/
  halt : Bool := false
  /-- The streams: one for each field, then the cellar's. -/
  streams : Table TrcStream := []
  /-- Core-agent and REX trace buffers by source. -/
  bufs : Table (List Nat) := []
  /-- Records lost by each source since its last LOSS record (R644). -/
  lost : Table Nat := []
  /-- Field trace write queues by field. -/
  fldQ : Table (List Nat) := []
  /-- The cellar trace queue. -/
  celQ : List Nat := []
  /-- Scheduling decisions of RDY in stamp order, from the oldest that still waits for its place (R251, R645). -/
  sched : List SchedHold := []
  /-- Records lost before the cellar trace queue since its last LOSS record. -/
  celLost : Nat := 0
  /-- Records written since START. -/
  written : Nat := 0
  /-- FLUSH and STOP commands in progress, with how many records of each queue they still wait for:
  buffers by source, a field's write queue at 16384 + f, the cellar queue at 16392, RDY's held decisions at 16393. -/
  flushes : List (Cmd × Table Nat) := []
  /-- Engine counters (R653) by ten times the engine number plus the counter; engine e of core n is
  8 n + e, REX k is 65536 + k. -/
  cnt : Table Nat := []
  /-- SAFE_FLUSHED is due. -/
  stopping : Bool := false
  deriving DecidableEq, Repr



/-! ### Message channels (CHN), blend queues (BLQ) and link agents (LNK) -/

/-- The command that sent a message on this chip: whom a fault on the ring is told (R353, R357). -/
structure Sender where
  /-- Its context. -/
  ctx : Nat
  /-- Its task. -/
  task : Nat
  /-- Its vintage. -/
  vint : Nat
  /-- The image whose step it belongs to; none for a task under T1. -/
  img : Option Nat
  /-- CHANNEL of the send. -/
  rel : Nat
  deriving DecidableEq, Repr

/-- A ring record (R351): its place in units, KIND, the credit that it holds (0 local, 1 remote, 2
none), and the handler run that it belongs to. -/
structure RingRec where
  /-- Its place in units. -/
  pos : Nat
  /-- Its length in units. -/
  len : Nat
  /-- KIND. -/
  kind : Nat
  /-- Credit that it holds: 0 local, 1 remote, 2 none. -/
  credit : Nat
  /-- Chip that sent a remote message. -/
  chip : Nat := 0
  /-- Key of its channel. -/
  key : Nat := 0
  /-- Its serial number. -/
  serial : Nat
  /-- Handler task to which the record is assigned. -/
  handler : Option Nat := none
  /-- Its handler has committed, and its units wait for those ahead. -/
  freed : Bool := false
  /-- The command of this chip that sent it. -/
  sender : Option Sender := none
  deriving DecidableEq, Repr

/-- A physical channel (R342). `kind`: 1 RECV, 2 SEND. -/
structure Chan where
  /-- Image record. -/
  img : Nat
  /-- Image-relative channel number. -/
  rel : Nat
  /-- Context. -/
  ctx : Nat
  /-- 1 RECV, 2 SEND. -/
  kind : Nat
  /-- KEY, or DEST_KEY of a SEND. -/
  key : Nat := 0
  /-- DEST_CHIP of a SEND, or the source chip. -/
  dest : Nat := 0
  /-- Link port of a SEND. -/
  port : Nat := 0
  /-- RING_VA. -/
  ringVa : Nat := 0
  /-- RING_UNITS. -/
  units : Nat := 0
  /-- LOCAL_UNITS. -/
  localUnits : Nat := 0
  /-- REMOTE_UNITS. -/
  remoteUnits : Nat := 0
  /-- Largest message in units. -/
  maxUnits : Nat := 0
  /-- RECV: the reader epoch; SEND: the epoch copy. -/
  epoch : Nat := 1
  /-- The channel is open, or was when last noticed (R355). -/
  isOpen : Bool := true
  /-- Local credit free of a RECV. -/
  localFree : Int := 0
  /-- Remote credit free, or XCREDIT of a SEND. -/
  remoteFree : Int := 0
  /-- Producer position in units. -/
  tail : Nat := 0
  /-- Records written. -/
  seq : Nat := 0
  /-- Records in the ring, oldest first (R351). -/
  recs : List RingRec := []
  /-- Sends that wait for credit, in arrival order: run and place of the effect. -/
  waits : List (Nat × Nat) := []
  deriving DecidableEq, Repr

/-- CHN. -/
structure Chn where
  /-- Physical channels by number (R342). -/
  chans : Table Chan := []
  /-- Serial number of the next record. -/
  nextRec : Nat := 0
  deriving DecidableEq, Repr

/-- A contribution that has committed and that its queue has not yet taken in. -/
structure Contrib where
  /-- Contributor slot. -/
  slot : Nat
  /-- Its elements in SRC_FMT. -/
  data : List Byte
  /-- Source chip of a remote contribution. -/
  chip : Option Nat := none
  /-- The context of this chip in which its source was resolved, and its serial number (R473). -/
  src : Option Nat := none
  /-- Serial number of the intake. -/
  serial : Nat := 0
  deriving DecidableEq, Repr

/-- A physical blend queue (R343): its record, its contributor entries, and its state in the step. -/
structure BlendQ where
  /-- Image record. -/
  img : Nat
  /-- Image-relative queue number. -/
  rel : Nat
  /-- Context. -/
  ctx : Nat
  /-- The queue's record of the image (R343). -/
  record : List Byte
  /-- Contributor entries of the record. -/
  entries : List Nat
  /-- Slots that hold a contribution in the step. -/
  filled : List Nat := []
  /-- Contributions not yet taken in, oldest first. -/
  inQ : List Contrib := []
  /-- Slots taken in. -/
  taken : List Nat := []
  /-- Under CHAIN, slots added in order. -/
  chainPos : Nat := 0
  /-- Leaf values that are not in a leaf area, by slot, as bit patterns of ACC_FMT. -/
  leaves : Table (List Nat) := []
  /-- Tree nodes added: first slot and level. -/
  nodes : List (Nat × Nat) := []
  /-- The running sum. -/
  sum : Option (List Nat) := none
  /-- The incoming sum of a CHAIN queue, once it has arrived. -/
  chainIn : Option (List Nat) := none
  /-- The queue is complete in the step (R365). -/
  complete : Bool := false
  /-- A slot was refused in the step: the queue cannot complete in it (R364). -/
  refused : Bool := false
  /-- The result whose done records wait for the write of the target (R365). -/
  dones : Option (List Nat) := none
  /-- Credit for the next queue (R369). -/
  xfree : Int := 0
  /-- Items that wait for credit: run and place of the effect. -/
  waits : List (Nat × Nat) := []
  /-- Completed running sums that wait for credit, oldest first (R366, R369). -/
  outSums : List (List Nat) := []
  /-- The step runs the queue in reproducible mode (R367). -/
  repro : Bool := false
  /-- Vintage of the step. -/
  vint : Nat := 0
  deriving DecidableEq, Repr

/-- BLQ. -/
structure Blq where
  /-- Physical queues by number (R343). -/
  qs : Table BlendQ := []
  /-- Next serial number of a contribution. -/
  next : Nat := 0
  deriving DecidableEq, Repr

/-- A flit (R370) in an outbound buffer. -/
structure Flit where
  /-- DEST_CHIP. -/
  dest : Nat
  /-- SRC_CHIP: the chip that sends it. -/
  src : Nat := 0
  /-- LANE. -/
  lane : Nat
  /-- KIND. -/
  kind : Nat
  /-- KEY. -/
  key : Nat
  /-- INDEX. -/
  index : Nat := 0
  /-- LAST. -/
  last : Bool := true
  /-- EPOCH. -/
  epoch : Nat := 0
  /-- SLOT. -/
  slot : Nat := 0
  /-- The body. -/
  body : List Byte := []
  /-- The context for which it is sent (R546), whose credit it holds on lanes 1 and 2. -/
  owner : Option Nat := none
  /-- The credit is the shared pool's. -/
  pool : Bool := false
  deriving DecidableEq, Repr

/-- A link-agent port (R371). -/
structure Port where
  /-- LINK_UP (R73). -/
  up : Bool := false
  /-- Outbound buffer of lane 0 (R371). -/
  out0 : List Flit := []
  /-- Lane-0 flits that wait in their unit. -/
  wait0 : List Flit := []
  /-- Outbound buffer of lanes 1 and 2. -/
  out : List Flit := []
  /-- Credits held of a context's reservation, by context. -/
  held : Table Nat := []
  /-- Credits of the shared pool held. -/
  pool : Nat := 0
  deriving DecidableEq, Repr

/-- LNK. -/
structure Lnk where
  /-- Link-agent ports by number. -/
  ports : Table Port := []
  /-- Flits sent on the licensee links, as port and flit, in order. -/
  sent : List (Nat × Flit) := []
  deriving DecidableEq, Repr

/-! ### What a command calls for within its own cycle -/

/-- An action that a unit asks of CMT or SAF in the cycle of a command (R43, R287, R615). -/
inductive Ask where
  /-- Kill every uncommitted command of a context with a cause. -/
  | killCtx (ctx cause : Nat)
  /-- Start a context recovery. -/
  | diverge (ctx : Nat)
  /-- SAF recovers a context although no divergence was found: an uncorrectable word (R611). -/
  | recover (ctx : Nat)
  /-- Tear down the step of an image record: cause, task, cause of the last kill. -/
  | teardown (img cause task last : Nat)
  /-- Kill one command. -/
  | killRun (run cause : Nat)
  deriving DecidableEq, Repr

/-- Whether an action tears down the step of an image record. -/
def Ask.tearsDown (i : Nat) : Ask → Bool
  | .teardown j _ _ _ => j == i
  | _ => false

/-- Whether an action ends a step for its rerun limit. -/
def Ask.limit : Ask → Bool
  | .teardown _ cause _ _ => cause == 10
  | _ => false



/-! ### Serving loop (SLS) and deadlines (DLM) -/

/-- A sequence (R507). `state`: 1 PREFILL, 2 DECODE, 3 SPILLED, 4 DROPPED, 5 FINISHED, 6 RESPONDING. -/
structure Seq where
  /-- 1 PREFILL, 2 DECODE, 3 SPILLED, 4 DROPPED, 5 FINISHED, 6 RESPONDING. -/
  state : Nat
  /-- MAQ: the last step ran it on the maquette path. -/
  maq : Bool := false
  /-- SUSPENDED. -/
  susp : Bool := false
  /-- RECOMPUTE. -/
  recomp : Bool := false
  /-- PAGES that it holds. -/
  pages : Nat := 0
  /-- AGE: its number in the order of admission. -/
  age : Nat
  /-- POS: tokens whose KV is written. -/
  pos : Nat := 0
  /-- PROMPT_LEN. -/
  promptLen : Nat
  /-- GENERATED. -/
  generated : Nat := 0
  /-- MAX_NEW. -/
  maxNew : Nat
  /-- Its deadline in ns. -/
  deadline : Nat
  /-- REQ_ID. -/
  reqId : Nat
  /-- NO_MAQUETTE of the request. -/
  noMaq : Bool := false
  /-- Batch steps that advanced it. -/
  steps : Nat := 0
  /-- Trace stamp and group time in ns of the finish (R511). -/
  finish : Option (Nat × Nat) := none
  /-- Status and stamp of a final response that waits for a place. -/
  final : Option (Nat × Nat) := none
  deriving DecidableEq, Repr

/-- An entry of a batch step (R518). `kind`: 0 decode, 1 prefill, 2 recompute. -/
structure BatchE where
  /-- Sequence slot. -/
  slot : Nat
  /-- 0 decode, 1 prefill, 2 recompute. -/
  kind : Nat
  /-- It generates a token. -/
  gen : Bool
  /-- First position. -/
  start : Nat
  /-- Tokens. -/
  count : Nat
  /-- PAGES of the sequence. -/
  pages : Nat
  deriving DecidableEq, Repr

/-- A PAT operation that an assembly has issued (R482): slot and page of the slot. -/
inductive KvOp where
  | map (slot page : Nat)
  | spill (slot page : Nat)
  | restore (slot page : Nat)
  deriving DecidableEq, Repr

/-- A batch step that an assembly is about to launch (R518, R519, R523). -/
structure BatchPlan where
  /-- Its entries, as the batch area has them. -/
  entries : List BatchE
  /-- DECODE entries. -/
  dec : Nat
  /-- DLM has chosen the maquette path. -/
  maq : Bool
  /-- Its deadline in 1/64 ns. -/
  dl : Nat
  deriving DecidableEq, Repr

/-- An assembly in progress (R513). `stage` is the step of R513 that runs. -/
structure Asm where
  /-- Step of R513 that runs. -/
  stage : Nat := 1
  /-- Group time in ns at which it began. -/
  start : Nat := 0
  /-- CHUNK_MAX as read at the start (R517). -/
  chunkMax : Nat := 0
  /-- Token budget left (R517). -/
  budget : Nat := 0
  /-- MARGIN as read at the start. -/
  margin : Nat := 0
  /-- MIN_WM as read at the start (R26, R528). -/
  minWm : Nat := 0
  /-- MAQ_EN as read at the start. -/
  maqEn : Bool := false
  /-- Slots that the stage has still to visit. -/
  todo : List Nat := []
  /-- Slots chosen to decode (R513). -/
  decode : List Nat := []
  /-- Chunks chosen (R517). -/
  chunks : List BatchE := []
  /-- Slots suspended in this assembly. -/
  suspended : List Nat := []
  /-- REQ_PROD as read at the start of admission. -/
  prod : Option Nat := none
  /-- Operations issued one after another; the first is in progress. -/
  ops : List KvOp := []
  /-- The step that is to be launched once the batch area and REQ_CONS are written (R502, R518). -/
  plan : Option BatchPlan := none
  deriving DecidableEq, Repr

/-- A serving context (R493). `state`: 0 CLOSED, 1 RUNNING, 2 CLOSING, 3 FAULTED. -/
structure Serve where
  /-- 0 CLOSED, 1 RUNNING, 2 CLOSING, 3 FAULTED. -/
  state : Nat := 0
  /-- Context. -/
  ctx : Nat := 0
  /-- Image record. -/
  img : Nat := 0
  /-- IMAGE_ID. -/
  imgId : Nat := 0
  /-- The serving descriptor (R495). -/
  desc : List Byte := []
  /-- Request count, which REQ_CONS shows (R499). -/
  reqCount : Nat := 0
  /-- Response count (R506). -/
  respCount : Nat := 0
  /-- RESP_CONS as last read (R506). -/
  respCons : Nat := 0
  /-- Sequences admitted. -/
  admCount : Nat := 0
  /-- Sequences by slot (R507). -/
  seqs : Table Seq := []
  /-- The assembly in progress. -/
  asm : Option Asm := none
  /-- An assembly is due: after SERVE_OPEN, at the end of a step, or for a close. -/
  due : Bool := false
  /-- Delay tick of the last assembly, from which polls count. -/
  polled : Nat := 0
  /-- A batch step runs. -/
  running : Bool := false
  /-- Entries of the batch step (R518). -/
  batch : List BatchE := []
  /-- Slots advanced in the batch step. -/
  advanced : List Nat := []
  /-- Group time in ns of the batch step's launch. -/
  launchNs : Nat := 0
  /-- Step deadline in 1/64 ns (R522). -/
  stepDl : Nat := 0
  /-- BOUNDARY of the last batch step's end stamp, assigned to its deadline window (R113, R524). -/
  edge : Bool := false
  /-- Consecutive failed batch steps (R526). -/
  fails : Nat := 0
  /-- Request count of the entry whose first deferral has had its notice. -/
  noticed : Option Nat := none
  /-- SERVE_CLOSE commands in progress (R527). -/
  closes : List Cmd := []
  /-- ABORT has been asked for. -/
  abort : Bool := false
  /-- Sequences retired during the close. -/
  retired : Nat := 0
  deriving DecidableEq, Repr

/-- SLS. -/
structure Sls where
  /-- The four serving contexts (R493). -/
  srv : Table Serve := []
  deriving DecidableEq, Repr



/-! ### Row execution units (REX) -/

/-- A loop that a stream is in (R447): level, first and last-but-one index of the body, iterations left. -/
structure RexLoop where
  /-- Level, which names its index. -/
  lv : Nat
  /-- First index of the body. -/
  first : Nat
  /-- Last-but-one index of the body. -/
  stop : Nat
  /-- Iterations left. -/
  left : Nat
  deriving DecidableEq, Repr

/-- A write of a tile word or ACC entry that is not made yet, or that a slip takes back (R431, R432, R450). -/
inductive RexWrite where
  /-- A tile's word takes a value. -/
  | tile (t w v : Nat)
  /-- An ACC entry takes a value. -/
  | acc (k v : Nat)
  /-- A value is added into an ACC entry, in binary64 or as an integer (R437). -/
  | add (k v : Nat) (float : Bool)
  deriving DecidableEq, Repr

/-- A stream of a REX (R386). `loops` has the innermost loop first; `idx` holds I[0]-I[3]; `bar` is the
ID of the QBAR at which the stream waits. -/
structure RexStream where
  /-- Index of the instruction at which it stands. -/
  pc : Nat := 0
  /-- It has ended. -/
  done : Bool := false
  /-- Loops that it is in, the innermost first (R447). -/
  loops : List RexLoop := []
  /-- I[0] to I[3]. -/
  idx : Table Nat := []
  /-- ID of the QBAR at which it waits (R449). -/
  bar : Option Nat := none
  /-- Rows of the instruction at `pc` that have passed the data queues. -/
  rows : Nat := 0
  /-- Items popped so far by an instruction that acts on all its rows together. -/
  held : List (List Nat) := []
  /-- What the rows that have passed wrote over: a slip of the instruction puts it back (R450). -/
  undo : List RexWrite := []
  deriving DecidableEq, Repr

/-- A REX unit. -/
structure RexUnit where
  /-- The running command. -/
  run : Option Nat := none
  /-- PROG at ENTRY has not been decoded yet. -/
  starting : Bool := false
  /-- Both streams have stopped at a fault or a slip. -/
  stopped : Bool := false
  /-- Image of the running program. -/
  img : Nat := 0
  /-- Buffer of the image, as noted at the step's start (R407). -/
  gen : Nat := 0
  /-- ENTRY. -/
  entry : Nat := 0
  /-- The access stream (R386). -/
  acc : RexStream := {}
  /-- The execute stream (R386). -/
  exe : RexStream := {}
  /-- Tile words that are not zero, by 4096 times the tile plus the word. -/
  tiles : Table Nat := []
  /-- ACC entries that are not zero. -/
  accf : Table Nat := []
  /-- AQ0-AQ3: items of 64 words, oldest first. -/
  aq : Table (List (List Nat)) := []
  /-- Items of an interlocked LDQ that wait for a place in their queue (R452). -/
  late : List (Nat × List Nat) := []
  /-- The instructions of the access stream in flight behind that LDQ, in issue order, each with the writes that it
  makes as it completes (R432). -/
  behind : List (List RexWrite) := []
  /-- Queues of which a cut-through reader may meet words of the newest item that have not arrived (R37). -/
  arriving : List Nat := []
  /-- Stochastic roundings that each lane has made in the command (R398). -/
  lanes : Table Nat := []
  /-- The instruction cache: lines by key, oldest first (R409). -/
  lines : List (Nat × List Byte) := []
  /-- Line of the miss that stalls both streams. -/
  miss : Option Nat := none
  /-- SPAD_READY (R56). -/
  spad : Bool := true
  deriving DecidableEq, Repr

/-- An instruction image (R406): ACTIVE, the length of each valid buffer in instructions, and the
IMAGE_LOAD in progress with its buffer. -/
structure RexImg where
  /-- ACTIVE buffer. -/
  active : Nat := 0
  /-- Length of buffer 0 in instructions, where it is valid. -/
  len0 : Option Nat := none
  /-- Length of buffer 1 in instructions, where it is valid. -/
  len1 : Option Nat := none
  /-- Loads that have ended well. -/
  loads : Nat := 0
  /-- The IMAGE_LOAD in progress and its buffer. -/
  loading : Option (Cmd × Nat) := none
  deriving DecidableEq, Repr

/-- REX. -/
structure RexAll where
  /-- REX units by number. -/
  units : Table RexUnit := []
  /-- Images by 16 times the context plus the image. -/
  imgs : Table RexImg := []
  /-- The element program that runs: REX_EP_CTL and its operations as they stood at START (R412). -/
  ep : Option (Nat × List Nat) := none
  deriving DecidableEq, Repr



/-! ### Test and bring-up (TST) -/

/-- One direction of a link's PRBS generator and checker (R676-R680). -/
structure Prbs where
  /-- POLY, INVERT, LOOPBACK, CHECK_ONLY and LANE as last written, at their register bits. -/
  ctl : Nat := 0
  /-- TST_PRBS_DUR. -/
  dur : Nat := 0
  /-- RUNNING. -/
  running : Bool := false
  /-- DONE. -/
  done : Bool := false
  /-- Lanes that have locked since START. -/
  locked : List Nat := []
  /-- BITS (R677). -/
  bits : Nat := 0
  /-- Errors by lane. -/
  errs : Table Nat := []
  /-- First lane that erred. -/
  first : Option Nat := none
  /-- BITS as the last read of TST_PRBS_BITS_LO captured them. -/
  capBits : Nat := 0
  /-- ERR as captured. -/
  capErr : Nat := 0
  deriving DecidableEq, Repr

/-- TST, the reset inputs and the marches. -/
structure Tst where
  /-- CELLAR_RST_N or PORST_N is low. -/
  celLow : Bool := false
  /-- CORE_RST_N is low. -/
  coreLow : Bool := false
  /-- The cellar's march runs (R669). -/
  celMarch : Bool := true
  /-- Fields whose core-side march runs (R671). -/
  coreMarch : List Nat := [0, 1, 2, 3, 4, 5, 6, 7]
  /-- Field links that have trained since their fields last did (R674, R675). -/
  flDone : List Nat := []
  /-- Wrapper instruction of each partition, 0 cellar and 1 core side, in the order of R681. -/
  wraps : Table Nat := []
  /-- PRBS directions by the selector's bits [7:0]. -/
  prbs : Table Prbs := []
  deriving DecidableEq, Repr


/-! ### The whole block -/

/-- Reasons for a fault. No command of this block stops with one: every error the manual describes
is an effect on the state. -/
inductive Fault where
  /-- Raised by nobody: the block has no fault that stops it. Safe. -/
  | never
  deriving DecidableEq, Repr

/-- Reasons for a refusal. -/
inductive Refusal where
  /-- A command that has no meaning yet, by its mnemonic. Safe. -/
  | notModelled (mnemonic : String)
  deriving DecidableEq, Repr

/-- The state of the block. -/
structure State where
  /-- Commands that wait, first in, first out. -/
  pending : List Instr := []
  /-- The model's own count of free-value draws. -/
  fresh : Nat := 0
  /-- The window's registers that were written since reset, by offset. -/
  regs : Table Word := []
  /-- 64-bit counting registers by the offset of their low word; the high word's register holds what
  a read of the low word captured. -/
  counts : Table Nat := []
  /-- Stacked memory, by chip-local physical address. -/
  mem : Mem := []
  /-- Host memory, by address tagged with the PASID. -/
  host : Mem := []
  /-- Group time base. -/
  gtb : Gtb := {}
  /-- Field clocks and stamp counters by field. -/
  clk : Table FieldClk := []
  /-- Host interface. -/
  hif : Hif := {}
  /-- Safety supervisor. -/
  saf : Saf := {}
  /-- Command authentication. -/
  cau : Cau := {}
  /-- Management cluster. -/
  mgc : Mgc := {}
  /-- Task graphs. -/
  tge : Tge := {}
  /-- Ready lists, timers, core agents and commits. -/
  disp : Disp := {}
  /-- Parcels, shares and accounts. -/
  psm : Psm := {}
  /-- Page allocator and translator. -/
  pat : Pat := {}
  /-- Synchronisation objects. -/
  syn : Syn := {}
  /-- Trace and counters. -/
  trc : Trc := {}
  /-- Message channels. -/
  chn : Chn := {}
  /-- Blend queues. -/
  blq : Blq := {}
  /-- Link agents. -/
  lnk : Lnk := {}
  /-- Serving loop. -/
  sls : Sls := {}
  /-- Row execution units. -/
  rex : RexAll := {}
  /-- Bring-up and link test. -/
  tst : Tst := {}
  /-- Actions called for in the cycle of a command; empty between commands. -/
  asks : List Ask := []
  deriving DecidableEq, Repr

/-- What a command answers. -/
abbrev Out := Host.Outcome State Fault Refusal

/-- The machine right after reset: every table empty, every register at its reset value. -/
def State.reset : State := {}

end Sys2Proof.Machine
end

