-- ==== Sys2Proof/Machine/Ops.lean ====
section
/-! DEFINITION. Operations that every unit shares: register access, group time and stamps, events,
completions, interrupt messages and error records. -/

namespace Sys2Proof.Machine

open Sys2Proof

/-! ### Registers (R7, R85) -/

/-- The register rows of the slice that holds an offset (R85). -/
def rowsOf (off : Nat) : List RegRow :=
  match off / 0x80000 with
  | 0 | 1 => glbRows
  | 2 => hifRows
  | 3 => cauRows
  | 4 => gldRows
  | 5 => tgeRows
  | 6 => rdyRows
  | 7 => tmrRows
  | 8 => cagRows
  | 9 => cmtRows
  | 10 => synRows
  | 11 => chnRows
  | 12 => blqRows
  | 13 => rexRows
  | 14 => patRows
  | 15 => slsRows
  | 16 => psmRows
  | 17 => dlmRows
  | 18 => gtbRows
  | 19 => mgcRows
  | 20 => safRows
  | 21 => trcRows
  | 22 => lnkRows
  | 23 => tstRows
  | _ => []

/-- Whether a row stands for the register at an offset. -/
def rowCovers (r : RegRow) (off : Nat) : Bool :=
  decide (r.off ≤ off) &&
  (let d := off - r.off
   if r.n = 1 then
     decide (d % r.step2 = 0) && decide (d / r.step2 < r.n2)
   else
     let e := d % r.step
     decide (d / r.step < r.n) && decide (e % r.step2 = 0) && decide (e / r.step2 < r.n2))

/-- The row of the register at an offset, if it is mapped. -/
def rowAt (off : Nat) : Option RegRow := (rowsOf off).find? fun r => rowCovers r off

/-- The reset value of the register at an offset; an unmapped offset reads zero (R87). -/
def resetOf (off : Nat) : Nat :=
  match rowAt off with
  | some r => r.reset
  | none => 0

/-- The value that a register holds. -/
def reg (s : State) (off : Nat) : Nat :=
  match tget? s.regs off with
  | some v => v.toNat
  | none => resetOf off

/-- The state with a register set. -/
def setReg (s : State) (off v : Nat) : State := { s with regs := tput s.regs off (BitVec.ofNat 32 v) }

/-- Bits [hi:lo] of a register. -/
def regFld (s : State) (off hi lo : Nat) : Nat := fld (reg s off) hi lo

/-- Bit `i` of a register. -/
def regBit (s : State) (off i : Nat) : Bool := bitAt (reg s off) i

/-- Bits [hi:lo] of a register replaced. -/
def setRegFld (s : State) (off hi lo x : Nat) : State := setReg s off (setFld (reg s off) hi lo x)

/-- Bit `i` of a register set to `b`. -/
def setRegBit (s : State) (off i : Nat) (b : Bool) : State := setRegFld s off i i (b2n b)

/-- A 32-bit counting register raised by `n`, saturating. -/
def addReg (s : State) (off n : Nat) : State := setReg s off (satAdd 32 (reg s off) n)

/-- A 64-bit counting register pair, low word at `off`. -/
def reg64 (s : State) (off : Nat) : Nat := reg s off + 2 ^ 32 * reg s (off + 4)

/-- A 64-bit register pair set. -/
def setReg64 (s : State) (off v : Nat) : State := setReg (setReg s off v) (off + 4) (v / 2 ^ 32)

/-- A write to a full queue is ignored and counted (R34). -/
def queueOverrun (s : State) (qctl n : Nat) : State :=
  let s := setRegBit s (qctl + 4) 30 true
  setRegFld s (qctl + 8) 15 0 (satAdd 16 (regFld s (qctl + 8) 15 0) n)

/-- A decant or a pointer reset cut an item in progress (R39). -/
def queueAbandon (s : State) (qctl : Nat) : State :=
  let s := setRegBit s (qctl + 4) 29 true
  setRegFld s (qctl + 8) 31 16 (satAdd 16 (regFld s (qctl + 8) 31 16) 1)

/-- The level of the output SAF_FAULT_N: low in the safe state and during reset, high at all other times (R50,
R76). -/
def safFaultN (s : State) : Bool := !s.saf.safe && !s.tst.celLow

/-- SETUP_DONE (R7, R88). -/
def setupDone (s : State) : Bool := regBit s 0x14 0

/-- CHIP_ID (R88). -/
def chipId (s : State) : Nat := regFld s 0xC 11 0

/-- GROUP_CHIPS (R88). -/
def groupChips (s : State) : Nat := regFld s 0x10 12 0

/-- BAD_ACCESS set and the first bad offset held (R86, R87). -/
def badAccessAt (s : State) (off : Nat) : State :=
  let s := if reg s 0x18 % 4 = 0 then setReg s 0x20 off else s
  setRegBit s 0x18 1 true

/-- UNMAPPED set and the first such offset held (R87). -/
def unmappedAt (s : State) (off : Nat) : State :=
  let s := if reg s 0x18 % 4 = 0 then setReg s 0x20 off else s
  setRegBit s 0x18 0 true

/-! ### Group time (R91, R97, R100, R101) -/

/-- STATE of GTB: 0 LOCKED, 1 HOLDOVER, 3 UNKNOWN. -/
def gtbState (s : State) : Nat := regFld s 0x900004 1 0

/-- SLEWING of GTB. -/
def gtbSlewing (s : State) : Bool := regBit s 0x900004 6

/-- Whether GTB runs on its reference alone (R103). -/
def gtbRefOnly (s : State) : Bool := regBit s 0x900000 1 && decide (groupChips s = 1)

/-- Whole nanoseconds of group time. -/
def nowNs (s : State) : Nat := s.gtb.now / 5120

/-- The instant of a whole number of nanoseconds, in time units. -/
def nsUnits (ns : Nat) : Nat := ns * 5120

/-- The quality that GTB gives (R98, R101, R105). -/
def gtbQ (s : State) : Nat :=
  if gtbState s = 3 then 3
  else if gtbState s = 1 then 1
  else if gtbSlewing s then 1
  else if !gtbRefOnly s && decide (regFld s 0x900004 19 18 = 1) then 1
  else 0

/-- The increment of one CCLK before any slew (R100, R101). -/
def gtbBase (s : State) : Nat := if gtbState s = 3 then 4096 else s.gtb.incr

/-- Cycles that a field's clock loses in one CCLK (R108). -/
def FieldClk.lostPer (f : FieldClk) : Nat :=
  if f.clk = 0 then 0 else if f.clk = 1 then 2 - f.edges else 2

/-- Every field's GTB_FLD_LOST raised for `n` CCLK. -/
def addLost (n : Nat) : List Nat → State → State
  | [], s => s
  | f :: fs, s =>
    let k := (tget {} s.clk f).lostPer
    addLost n fs (if k = 0 then s else addReg s (0x900100 + 4 * f) (k * n))

/-- Bits that each locked lane of a PRBS direction receives in one CCLK (R676). -/
def prbsRate (s : State) (sel : Nat) : Nat :=
  if sel / 64 = 2 then 1 else 2 - (tget {} s.clk (sel % 32)).lostPer

/-- `k` bits of every locked lane; a test with a DUR counts no further (R677, R680). -/
def Prbs.count (x : Prbs) (k : Nat) : Prbs :=
  let b := x.bits + k * x.locked.length
  if x.running then { x with bits := if x.dur = 0 then b else min b (x.dur * 2 ^ 20) } else x

/-- `n` CCLK of every PRBS test that runs. -/
def prbsElapse (n : Nat) (s : State) : State :=
  { s with tst := { s.tst with prbs := tmap (fun sel x => x.count (n * prbsRate s sel)) s.tst.prbs } }

/-- A policy tick, in time units (R21). -/
def policyTick : Nat := nsUnits 400000

/-- The instant of the policy-tick boundary that comes next. -/
def nextTickAt (s : State) : Nat := (s.mgc.tick + 1) * policyTick

/-- Whether the present instant belongs to a tick whose boundary has not been taken (R111). -/
def pastBoundary (s : State) : Bool := decide (nextTickAt s ≤ s.gtb.now)

/-- Time that `k` CCLK lose to a slew (R101). -/
def slewLoss (s : State) (k : Nat) : Nat :=
  if gtbSlewing s then min s.gtb.slewLeft (k * (gtbBase s / 16)) else 0

/-- CCLK until group time is not less than `t`. -/
def cclkTo (t : Nat) (s : State) : Nat :=
  if t ≤ s.gtb.now then 0
  else
    let base := max 1 (gtbBase s)
    let d := t - s.gtb.now
    if gtbSlewing s then
      let a := base / 16
      let n := cdivN d (base - a)
      if n * a ≤ s.gtb.slewLeft then n else cdivN (d + s.gtb.slewLeft) base
    else cdivN d base

/-- The cc edge, two to a CCLK, at which group time first is not less than `t`, which has not come. -/
def edgeAt (s : State) (t : Nat) : Nat :=
  let k := cclkTo t s
  let at_ := s.gtb.now + k * gtbBase s - slewLoss s k
  2 * (s.gtb.cclk + k) - if t + gtbBase s / 2 ≤ at_ then 1 else 0

/-- Group time reaches the next policy-tick boundary at cc edge `e`: so do the counters of the fields whose clocks are
at full rate; another's has yet to load a time word that late (R107, R115). -/
def crossTick (s : State) (e : Nat) : State :=
  { s with
    gtb := { s.gtb with tickEdge := some e }
    clk := tmap (fun f k => if k.clk = 0 then { k with edgeLost := reg s (0x900100 + 4 * f) }
      else { k with behind := true }) s.clk }

/-- `n` CCLK pass: group time, the slew, the HOLDOVER count and the lost cycles advance. -/
def elapse (n : Nat) (s : State) : State :=
  let slewing := gtbSlewing s
  let gone := slewLoss s n
  let dt := n * gtbBase s - gone
  let b := nextTickAt s
  let s := if decide (s.gtb.now < b) && decide (b ≤ s.gtb.now + dt) then crossTick s (edgeAt s b) else s
  let s := { s with gtb := { s.gtb with
      now := s.gtb.now + dt, cclk := s.gtb.cclk + n, slewLeft := s.gtb.slewLeft - gone
      slewed := if slewing then s.gtb.slewed + dt else s.gtb.slewed } }
  let s := if slewing && decide (s.gtb.slewLeft = 0) then setRegBit s 0x900004 6 false else s
  let s :=
    if gtbState s = 1 then
      let h := s.gtb.held + dt
      setReg { s with gtb := { s.gtb with held := h } } 0x900024 (min (h / 5120000) (2 ^ 32 - 1))
    else s
  addLost n (List.range Config.numFields) (prbsElapse n s)

/-- Time passes to the first CCLK edge at which group time is not less than `t` (R115). -/
def advanceTo (t : Nat) (s : State) : State :=
  if t ≤ s.gtb.now then s else elapse (cclkTo t s) s

/-- Time passes to the CCLK edge of number `n`. -/
def advanceCclk (n : Nat) (s : State) : State := if n ≤ s.gtb.cclk then s else elapse (n - s.gtb.cclk) s

/-- Whether an event of instant `t` lay within a forward jump and so carries LATE (R102). -/
def inJump (s : State) (t : Nat) : Bool := s.gtb.jumps.any fun j => decide (j.1 < t) && decide (t ≤ j.2)

/-- A LATE event is counted (R116). -/
def countLate (s : State) (late : Bool) : State := if late then addReg s 0x90002C 1 else s

/-- A 42-bit trace stamp (R109). -/
def stampOf (q ns : Nat) : Nat := q * 2 ^ 40 + ns % 2 ^ 40

/-- The cellar's trace stamp now. -/
def cellarStamp (s : State) : Nat := stampOf (gtbQ s) (nowNs s)

/-- Quality of a stamp counter in field `f` whose last stamp saw `seen` stretches (R105, R106). -/
def fieldQ (s : State) (f seen : Nat) : Nat :=
  let k := tget {} s.clk f
  if decide (k.clk ≠ 0) || decide (seen < k.stretches) then max (gtbQ s) 2 else gtbQ s

/-- Nanoseconds that field `f`'s stamp counters show (R107). -/
def fieldNs (s : State) (f : Nat) : Nat :=
  let k := tget {} s.clk f
  if k.clk = 0 then nowNs s else k.word / 5120

/-- The instant that field `f`'s stamp counters have reached, in time units (R107, R115). -/
def fieldTime (s : State) (f : Nat) : Nat :=
  let k := tget {} s.clk f
  if k.clk = 0 then s.gtb.now else k.word

/-- Whether field `f`'s clock is stopped: it takes no record, which waits in its queue (R20). -/
def fieldStopped (s : State) (f : Nat) : Bool := decide (2 ≤ (tget {} s.clk f).clk)

/-- Time spent in HOLDOVER or slew while GTB is in either (R112). -/
def gtbDrift (s : State) : Nat :=
  (if gtbState s = 1 then s.gtb.held else 0) + if gtbSlewing s then s.gtb.slewed else 0

/-- The bound U of the uncertainty of a stamp of quality `q`, in 1/100,000 of a time unit: a base of 1 ns for a
cellar stamp, 2 ns for a field stamp, 16 ns at Q = 2, and 10 ns per ms of HOLDOVER or slew; none where it is
unbounded (R112). -/
def stampU (s : State) (field : Bool) (q : Nat) : Option Nat :=
  if q = 3 then none
  else some ((if q = 2 then 16 else if field then 2 else 1) * 5120 * 100000 + if q = 0 then 0 else gtbDrift s)

/-- The BOUNDARY flag of a stamp at `t` that is assigned to the window from `lo` to `hi` (R113): an end of the
window lies strictly within U of the stamp, or the stamp has Q = 3. -/
def boundaryFlag (s : State) (field : Bool) (q t lo hi : Nat) : Bool :=
  match stampU s field q with
  | none => true
  | some u =>
    let near := fun w : Nat => decide ((max w t - min w t) * 100000 < u)
    near lo || near hi

/-- The trace stamp of the field controller of field `f`. -/
def fieldStamp (s : State) (f : Nat) : Nat :=
  stampOf (fieldQ s f (tget {} s.clk f).stamped) (fieldNs s f)

/-- The field controller's counter has given a stamp. -/
def markFieldStamp (s : State) (f : Nat) : State :=
  { s with clk := tmod {} s.clk f fun k => { k with stamped := k.stretches } }

/-- The field of a core. -/
def fieldOfCore (n : Nat) : Nat := n / Config.coresPerField

/-- The field of a REX unit. -/
def fieldOfRex (n : Nat) : Nat := n / Config.rexPerField

/-- The active copy of a policy value, by the register that holds its shadow (R22). -/
def policy (s : State) (off : Nat) : Nat := (tget? s.mgc.active off).getD (resetOf off)

/-- The state with an action asked for. -/
def ask (s : State) (a : Ask) : State := { s with asks := s.asks ++ [a] }

/-! ### Free values -/

/-- A fresh draw of the model's own counter. -/
def draw (s : State) : Nat × State := (s.fresh, { s with fresh := s.fresh + 1 })

/-! ### Host memory (R70, R123) -/

/-- Base of context `c`'s HIF block. -/
def hifBase (c : Nat) : Nat := 0x110000 + c * 0x100

/-- The host-memory key of an address of a context: its PASID is part of it (R70). -/
def hostKey (s : State) (c addr : Nat) : Nat :=
  let cfg := reg s (hifBase c)
  (if bitAt cfg 29 then (fld cfg 19 0 + 1) * 2 ^ 64 else 0) + addr % 2 ^ 64

/-- Bytes written to host memory for a context. -/
def hostWrite (s : State) (c addr : Nat) (bs : List Byte) : State :=
  { s with host := mwriteBytes s.host (hostKey s c addr) bs }

/-- Bytes read from host memory for a context. -/
def hostRead (s : State) (c addr n : Nat) : List Byte := mreadBytes s.host (hostKey s c addr) n

/-- Per-context HIF state. -/
def hctx (s : State) (c : Nat) : HifCtx := tget {} s.hif.ctx c

/-- Per-context HIF state replaced. -/
def setHctx (s : State) (c : Nat) (h : HifCtx) : State :=
  { s with hif := { s.hif with ctx := tput s.hif.ctx c h } }

/-- ENABLE of a context (R157). -/
def ctxEnabled (s : State) (c : Nat) : Bool := regBit s (hifBase c) 31

/-- PRIV of a context. -/
def ctxPriv (s : State) (c : Nat) : Bool := regBit s (hifBase c) 30

/-- Outstanding commands of a context (R138). -/
def outstanding (s : State) (c : Nat) : Nat := (s.hif.outs.filter fun o => o.ctx == c).length

/-- IDLE of a context: no outstanding command and no held entry (R157); an event entry that waits to be written is
a held one too (DESIGN CHOICE, log entry 40). -/
def ctxIdle (s : State) (c : Nat) : Bool :=
  decide (outstanding s c = 0) && (s.hif.cplQ.all fun e => e.ctx != c)

/-- Size in entries of the CQ. -/
def cqSize (s : State) (c : Nat) : Nat := 2 ^ regFld s (hifBase c + 0x10) 4 0

/-- Size in entries of the EQ. -/
def eqSize (s : State) (c : Nat) : Nat := 2 ^ regFld s (hifBase c + 0x28) 4 0

/-- CQ base address. -/
def cqBase (s : State) (c : Nat) : Nat := reg s (hifBase c + 8) / 4096 * 4096 + 2 ^ 32 * reg s (hifBase c + 0xC)

/-- EQ base address. -/
def eqBase (s : State) (c : Nat) : Nat :=
  reg s (hifBase c + 0x20) / 4096 * 4096 + 2 ^ 32 * reg s (hifBase c + 0x24)

/-- PHASE of the entry with count `n` (R124). -/
def phaseOf (n size : Nat) : Nat := (n / size + 1) % 2

/-! ### Interrupt messages (R151-R153) -/

/-- The holdoff interval of a context, in time units. -/
def holdoff (s : State) (c : Nat) : Nat := nsUnits (regFld s (hifBase c + 0x44) 15 0 * 256)

/-- One message is sent and PENDING cleared. -/
def sendMsg (s : State) (c : Nat) : State :=
  let b := hifBase c
  let a := reg s (b + 0x38) / 4 * 4 + 2 ^ 32 * reg s (b + 0x3C)
  let d := reg s (b + 0x40)
  let s := setHctx s c { hctx s c with irqPending := false, lastMsg := some s.gtb.now }
  { s with hif := { s.hif with msgs := s.hif.msgs ++ [{ ctx := c, addr := a, data := d }] } }

/-- Whether the holdoff of the last message still runs (R152). -/
def inHoldoff (s : State) (c : Nat) : Bool :=
  match (hctx s c).lastMsg with
  | some t => decide (s.gtb.now < t + holdoff s c)
  | none => false

/-- An interrupt cause of a context (R152, R153). -/
def raiseIrq (s : State) (c : Nat) : State :=
  if regBit s (hifBase c + 0x44) 31 || inHoldoff s c then
    setHctx s c { hctx s c with irqPending := true }
  else sendMsg s c

/-! ### Events (R140, R149) -/

/-- The 32 bytes of an event entry (R149). -/
def eventBytes (type sev src vint payload stamp phase : Nat) : List Byte :=
  leBytes 2 type ++ leBytes 1 sev ++ leBytes 1 0 ++ leBytes 4 src ++ leBytes 8 vint ++
  leBytes 8 payload ++ leBytes 6 stamp ++ leBytes 1 phase ++ leBytes 1 0

/-- Event entries of a context that wait to be written: each has its EQ slot. -/
def eqHeld (s : State) (c : Nat) : Nat := (s.hif.cplQ.filter (HifEntry.eventOf c)).length

/-- Whether the EQ of a context has a free slot. -/
def eqFree (s : State) (c : Nat) : Bool :=
  decide (cdiff (hctx s c).eqProd (hctx s c).eqCons + eqHeld s c < eqSize s c)

/-- Whether the CQ of a context has a free slot. -/
def cqFree (s : State) (c : Nat) : Bool :=
  decide (cdiff (hctx s c).cqProd (hctx s c).cqCons < cqSize s c)

/-- Whether HIF may write an entry now: a completion entry needs a free slot of its CQ (R139); an event entry has
its slot since it was raised. -/
def writable (s : State) : HifEntry → Bool
  | .cpl e => cqFree s e.ctx
  | .event _ => true

/-- Items in the completion and event write queue. Which entries stand in the queue and which still in their holding
slots is a DESIGN CHOICE (log entry 40: the spec does not say when HIF moves one): every entry that could be written
stands in it, and a CQ doorbell that frees held entries moves them without an overrun. -/
def cplLoad (s : State) : Nat := (s.hif.cplQ.filter (writable s)).length

/-- An entry goes to the write queue at the moment it is finished or raised: one that finds all 32 items taken is lost
there, an overrun, and is issued again from where it is held (R34, R160). -/
def sendEntry (s : State) (e : HifEntry) : State :=
  let full := writable s e && decide (32 ≤ cplLoad s)
  let s := if full then setRegBit (queueOverrun s 0x100020 1) 0x100004 1 true else s
  { s with hif := { s.hif with cplQ := s.hif.cplQ ++ [e] } }

/-- One event entry written at the EQ's producer count, and its interrupt cause (R149, R152). -/
def writeEvent (s : State) (e : EvEntry) : State :=
  let h := hctx s e.ctx
  let n := eqSize s e.ctx
  let s := hostWrite s e.ctx (eqBase s e.ctx + h.eqProd % n * 32)
    (eventBytes e.type e.sev e.src e.vint e.payload e.stamp (phaseOf h.eqProd n))
  let s := setHctx s e.ctx { h with eqProd := cadd h.eqProd 1 }
  if regFld s (hifBase e.ctx + 0x28) 9 8 ≤ e.sev then raiseIrq s e.ctx else s

/-- An event entry enters the write queue (R156). -/
def queueEvent (s : State) (c type sev src vint payload : Nat) : State :=
  sendEntry s (.event
    { ctx := c, type := type, sev := sev, src := src, vint := vint, payload := payload, stamp := cellarStamp s })

/-- An event dropped and counted (R140). -/
def dropEvent (s : State) (c : Nat) : State :=
  let s := setHctx s c { hctx s c with evSince := (hctx s c).evSince + 1 }
  setRegBit (addReg s (hifBase c + 0x34) 1) (hifBase c + 4) 2 true

/-- The EVENTS_LOST entry that is due once the EQ has a free slot (R140). -/
def flushLost (s : State) (c : Nat) : State :=
  let k := (hctx s c).evSince
  if decide (0 < k) && eqFree s c then
    queueEvent (setHctx s c { hctx s c with evSince := 0 }) c 0x0005 1 5 0 k
  else s

/-- An event raised for a context: on its way to the EQ, or dropped and counted (R140). -/
def raiseEvent (s : State) (c type sev src vint payload : Nat) : State :=
  if !ctxEnabled s c && ctxIdle s c then dropEvent s c
  else
    let s := flushLost s c
    if eqFree s c then queueEvent s c type sev src vint payload else dropEvent s c

/-! ### Completions (R137, R145, R148) -/

/-- OPCODE of a descriptor. -/
def Cmd.opcode (m : Cmd) : Nat := leAt m.bytes 0 2
/-- FLAGS of a descriptor. -/
def Cmd.flags (m : Cmd) : Nat := leAt m.bytes 2 1
/-- A little-endian field of a descriptor. -/
def Cmd.at (m : Cmd) (lo n : Nat) : Nat := leAt m.bytes lo n

/-- Whether an outstanding command is the one of a descriptor. -/
def OutCmd.of (o : OutCmd) (c r seq uid : Nat) : Bool := o.ctx == c && o.ring == r && o.seq == seq && o.uid == uid

/-- The status of a GRAPH_LOAD that completes is shown in GLD_STATUS (R219). -/
def showLoad (s : State) (m : Cmd) (status : Nat) : State :=
  if m.opcode = 0x0100 then setRegFld s 0x200000 15 8 status else s

/-- A command's completion is decided: its entry takes a holding slot, or under QUIET with status OK
it stops being outstanding. In the safe state a command that has completed with SAFE_STATE completes
no second time (R629). -/
def complete (s : State) (m : Cmd) (status detail result reruns : Nat) : State :=
  let mine : OutCmd → Bool := fun o => o.of m.ctx m.ring m.seq m.uid
  if s.saf.safe && !(s.hif.outs.any fun o => mine o && !o.done) then s
  else
  let s := showLoad s m status
  if bitAt m.flags 1 && decide (status = 0) then
    { s with hif := { s.hif with outs := s.hif.outs.filter fun o => !mine o } }
  else
    let e : Cpl :=
      { ctx := m.ctx, ring := m.ring, seq := m.seq, opcode := m.opcode, status := status,
        detail := detail, result := result, stamp := cellarStamp s, reruns := min reruns 7,
        irq := bitAt m.flags 2, uid := m.uid }
    let outs := modWhere mine (fun o => { o with done := true }) s.hif.outs
    sendEntry { s with hif := { s.hif with outs := outs } } (.cpl e)

/-- Completion with a status and no result. -/
def completeWith (s : State) (m : Cmd) (status detail : Nat) : State := complete s m status detail 0 0

/-- Completion OK with a result. -/
def completeOk (s : State) (m : Cmd) (result : Nat) : State := complete s m 0 0 result 0

/-- BAD_DESCRIPTOR at the first offending byte (R135, R136). -/
def badOperand (s : State) (m : Cmd) (byte : Nat) : State := completeWith s m 0x10 byte

/-- The first reserved operand byte that is not zero among `n` bytes from `lo`. -/
def firstNonzero (bs : List Byte) (lo n : Nat) : Option Nat :=
  (rangeFrom lo n).find? fun i => decide (leAt bs i 1 ≠ 0)

/-- The first accepted command that `p` holds of and that waits behind no command of its ring for the same unit
(R143): commands of a unit share the high byte of their opcodes. `seen` holds the commands ahead. -/
def takeUnit (p : Cmd → Bool) (seen : List Cmd) : List Cmd → Option (Cmd × List Cmd)
  | [] => none
  | m :: q =>
    let behind := seen.any fun k => k.ctx == m.ctx && k.ring == m.ring && k.opcode / 256 == m.opcode / 256
    if p m && !behind then some (m, seen.reverse ++ q) else takeUnit p (m :: seen) q

/-- A command's unit takes the first accepted command of an opcode, if any. -/
def popUnit (s : State) (p : Cmd → Bool) : Option (Cmd × State) :=
  match takeUnit p [] s.hif.unitQ with
  | none => none
  | some (m, rest) => some (m, { s with hif := { s.hif with unitQ := rest } })

/-! ### Charges (R111, R545-R547) -/

/-- The tally of the tick in progress changed, or, where `late`, that of the tick which begins at the boundary that
has yet to be taken. -/
def modTally (s : State) (late : Bool) (f : Tally → Tally) : State :=
  if late then { s with psm := { s.psm with next := f s.psm.next } }
  else { s with psm := { s.psm with tally := f s.psm.tally } }

/-- An entry of a table of counts raised by `n`. -/
def tadd (t : Table Nat) (k n : Nat) : Table Nat := if n = 0 then t else tput t k (tget 0 t k + n)

/-- Energy coefficient `k` of PSM_ECOEF (R547): in the tick after a boundary that has yet to be taken, as written
before it (R600). -/
def energyCoef (s : State) (late : Bool) (k : Nat) : Nat :=
  match (if late then (s.mgc.ecs.filter fun e => e.1 < nextTickAt s).getLast? else none) with
  | some e => e.2.getD k 0
  | none => regFld s (0x800200 + 4 * k) 15 0

/-- Bytes moved for a context, of which `n`, and energy in fJ. -/
def Tally.move (t : Tally) (c n e : Nat) : Tally :=
  { t with bytes := tadd t.bytes c n, energy := tadd t.energy c e }

/-- Bytes that a unit of Abalo moves for a context, and their energy by EC_BYTE (R546, R547). -/
def chargeBytes (s : State) (c n : Nat) : State :=
  let late := pastBoundary s
  modTally s late fun t => t.move c n (n * energyCoef s late 4)

/-- A placement's wait in cc enters the figures of a parcel (R549). -/
def chargeWait (s : State) (p w : Nat) : State :=
  modTally s (pastBoundary s) fun t =>
    { t with waitSum := tput t.waitSum p (tget 0 t.waitSum p + min w 262143), waitNum := tadd t.waitNum p 1 }

/-! ### Readiness of the cellar (R669) -/

/-- CELLAR_READY: every memory test has passed, and KAT_PASS or KAT_FAIL is set. -/
def cellarReady (s : State) : Bool :=
  regBit s 0xB80000 31 && !regBit s 0xB80000 30 && decide (regFld s 0x180004 1 0 ≠ 0)

/-- Once CELLAR_READY rises, PAT has frames and its background zeroing starts. -/
def cellarUp (s : State) : State :=
  if cellarReady s then { s with pat := { s.pat with up := true } } else s

/-! ### Error records (R624, R625) -/

/-- A unit passes an error record to SAF: it waits in the record queue, or is lost when the queue
is full. -/
def record (s : State) (sev unit code : Nat) (ctx : Option Nat) (detail param : Nat) : State :=
  if s.saf.recQ.length < 32 then
    let e : Rec :=
      { sev := sev, unit := unit, code := code, ctx := ctx, stamp := cellarStamp s,
        detail := detail % 2 ^ 32, param := param % 2 ^ 64 }
    { s with saf := { s.saf with recQ := s.saf.recQ ++ [e] } }
  else
    setRegBit (addReg (queueOverrun s 0xA00030 1) 0xA0000C 1) 0xA00004 27 true

/-! ### Losses of queues that carry command records (R34, R43) -/

/-- QUEUE_LOSS kills of contexts (R43). -/
def lossKills (s : State) (ctxs : List Nat) : State :=
  ctxs.foldl (fun s c => ask s (.killCtx c 5)) s

/-- A queue that carries command records lost items (R43): QUEUE_OVERRUN record, and QUEUE_LOSS kills of
every context that it serves. -/
def queueLoss (s : State) (unit qctl : Nat) (ctxs : List Nat) : State :=
  lossKills (record s 1 unit 0x04 none (qctl % 0x80000) (regFld s (qctl + 8) 15 0)) ctxs

/-- A command record that finds its queue full is lost (R34): OVERRUN, and what R43 has follow. -/
def fullLoss (s : State) (unit qctl : Nat) (ctxs : List Nat) : State :=
  queueLoss (queueOverrun s qctl 1) unit qctl ctxs

/-- Contexts with a command in a field in one of the given states (R253, R256). -/
def ctxsInField (s : State) (f : Nat) (p : Nat → Bool) : List Nat :=
  ((s.disp.runs.filter fun e => e.2.field == f && p e.2.state).map fun e => e.2.ctx).dedup

/-- Every context. -/
def allCtxs : List Nat := List.range 64

/-- A queue through which a unit streams data that it keeps elsewhere has lost items (R34): OVERRUN, and the flag by
which the unit tells that it sends them again. -/
def streamLoss (s : State) (qctl n off i : Nat) : State :=
  if n = 0 then s else setRegBit (queueOverrun s qctl n) off i true

end Sys2Proof.Machine
end

