-- ==== Sys2Proof/Machine/Pat.lean ====
section
/-! DEFINITION. The page allocator and translator (R454-R492): frames, quotas and watermarks, page
tables in stacked memory, virtual reads and the units' own writes. -/

namespace Sys2Proof.Machine

open Sys2Proof

/-! ### Frames (R454, R457) -/

/-- Small frames of one stack. -/
def stackSmall : Nat := Config.stackGB * 10 ^ 9 / 65536

/-- Whole large frames of one stack. -/
def stackLarge : Nat := Config.stackGB * 10 ^ 9 / 2097152

/-- Large blocks of one stack that may be granted: all but the reserved area (R457). -/
def grantBlocks : Nat := stackLarge - 8

/-- Small frames of one stack that may be granted. -/
def grantSmall : Nat := stackSmall - 256

/-- The stack of a frame. -/
def stackOf (frame : Nat) : Nat := frame / 2 ^ 22

/-- Small frames that an entry holds. -/
def frameSize (large : Bool) : Nat := if large then 32 else 1

/-- Bytes of a page. -/
def pageBytes (large : Bool) : Nat := frameSize large * 65536

/-- Whether a small frame is in use, on its own or in a large frame. -/
def frameUsed (s : State) (k : Nat) : Bool :=
  thas s.pat.frames k ||
  (match tget? s.pat.frames (k / 32 * 32) with
   | some f => f.large
   | none => false)

/-- Small frames in use in a stack. -/
def stackUsed (s : State) (st : Nat) : Nat :=
  s.pat.frames.foldl (fun n e => if stackOf e.1 = st then n + frameSize e.2.large else n) 0

/-- Free small frames of a stack. -/
def stackFree (s : State) (st : Nat) : Nat :=
  if s.pat.up && decide (st < Config.memStacks) then grantSmall - stackUsed s st else 0

/-- FREE (R477). -/
def freeFrames (s : State) : Nat :=
  (List.range Config.memStacks).foldl (fun n st => n + stackFree s st) 0

/-- USED of a context (R476). -/
def usedFrames (s : State) (c : Nat) : Nat :=
  s.pat.frames.foldl (fun n e => if e.2.ctx = c && e.2.use != 4 then n + frameSize e.2.large else n) 0

/-- Block of the context's PAT registers. -/
def patBase (c : Nat) : Nat := 0x710000 + c * 0x400

/-- QUOTA of a context. -/
def quota (s : State) (c : Nat) : Nat := regFld s (patBase c + 4) 26 0

/-- Active MIN_WM and LOW_WM (R477). -/
def minWm (s : State) : Nat := fld (policy s 0x700014) 26 0
def lowWm (s : State) : Nat := fld (policy s 0x700010) 26 0

/-- Small frames of a block that are free. -/
def freeInBlock (s : State) (b : Nat) : List Nat :=
  (rangeFrom (b * 32) 32).filter fun k => !frameUsed s k

/-- The element of a list that a free draw chooses. -/
def freePick (draw : Nat) (l : List Nat) : Option Nat := l[Config.freeBelow draw l.length]?

/-- The first block from index `i` (of `n` blocks of a stack, cyclically) with no frame in use. -/
def findBlock (s : State) (st n : Nat) : Nat → Nat → Option Nat
  | 0, _ => none
  | fuel + 1, i =>
    let b := st * 2 ^ 17 + i % n
    if (freeInBlock s b).length = 32 then some b else findBlock s st n fuel (i + 1)

/-- Blocks of a stack that hold small frames in use and have a free one. -/
def splitBlocks (s : State) (st : Nat) : List Nat :=
  (((s.pat.frames.filter fun e => stackOf e.1 == st && !e.2.large).map fun e => e.1 / 32).dedup).filter
    fun b => decide (b % 2 ^ 17 < grantBlocks) && decide (0 < (freeInBlock s b).length)

/-- A small frame of a stack: of a split large frame first (R475); which one is left open. -/
def pickSmall (s : State) (draw st : Nat) : Option Nat :=
  match freePick draw (splitBlocks s st) with
  | some b => freePick draw (freeInBlock s b)
  | none =>
    match findBlock s st grantBlocks (s.pat.frames.length + 1) (Config.freeBelow draw grantBlocks) with
    | some b => freePick draw (freeInBlock s b)
    | none =>
      freePick draw
        ((rangeFrom (st * 2 ^ 22 + stackLarge * 32) (stackSmall - stackLarge * 32)).filter
          fun k => !frameUsed s k)

/-- A whole large frame of a stack; which one is left open. -/
def pickLarge (s : State) (draw st : Nat) : Option Nat :=
  (findBlock s st grantBlocks (s.pat.frames.length + 1) (Config.freeBelow draw grantBlocks)).map (· * 32)

/-- The home field of a stack (R229). -/
def stackField (s : State) (st : Nat) : Nat := regFld s (0x300020 + st * 4) 2 0

/-- Distance of two fields, and the order of R230: nearest first, the lower field on a tie. -/
def fieldDist (a b : Nat) : Nat := if a < b then b - a else a - b

/-- Fields in ascending distance from `home`. -/
def fieldOrder (home : Nat) : List Nat :=
  sortBy (fun a b => decide (fieldDist a home < fieldDist b home) ||
      (fieldDist a home == fieldDist b home && decide (a ≤ b))) (List.range Config.numFields)

/-- Stacks in the order of R475: those of nearer fields first, in turn within a field; in ascending
index for a requester without a core. -/
def stackOrder (s : State) (field : Option Nat) : List Nat :=
  match field with
  | none => List.range Config.memStacks
  | some f =>
    ((fieldOrder f).map fun g =>
      let l := (List.range Config.memStacks).filter fun st => stackField s st == g
      let last := tget 0 s.pat.turn g
      (l.filter fun st => decide (last < st)) ++ l.filter fun st => decide (st ≤ last)).flatten

/-- Whether FREE is below LOW_WM. -/
def isLow (s : State) : Bool := decide (freeFrames s < lowWm s)

/-- FREE falls below LOW_WM, where it was not (`low`) before: LOW_SEEN, and one MEM_LOW event to every enabled context
with pages until FREE has been enough at a boundary (R479). -/
def checkLow (low : Bool) (s : State) : State :=
  if low || !isLow s then s
  else if s.pat.lowSent then setRegBit s 0x700004 29 true
  else
    let s := setRegBit { s with pat := { s.pat with lowSent := true } } 0x700004 29 true
    let free := freeFrames s
    (List.range 64).foldl
      (fun s c => if ctxEnabled s c && decide (usedFrames s c ≠ 0) then
        raiseEvent s c 0x0141 1 0 0 free else s) s

/-- A frame for a context under its quota, leaving at least `floor` free; none when it must wait
(R475-R477). The frame reads zero (R474). -/
def takeFrame (s : State) (c : Nat) (large : Bool) (use floor : Nat) (field : Option Nat) :
    Option (Nat × State) :=
  let size := frameSize large
  if quota s c < usedFrames s c + size || freeFrames s < size + floor then none
  else
    let (d, s) := draw s
    let pick := fun st => if large then pickLarge s d st else pickSmall s d st
    match (stackOrder s field).findSome? pick with
    | none => none
    | some k =>
      let p := s.pat
      let st := stackOf k
      let p := { p with
        frames := tput p.frames k { ctx := c, use := use, large := large }
        turn := tput p.turn (stackField s st) st
        pool := tput p.pool st (tget 0 p.pool st - size) }
      some (k, checkLow (isLow s) { s with pat := p, mem := mzero s.mem (k * 65536) (size * 65536) })

/-- A frame returns to the free list and is zeroed before it can be granted again (R473, R474). -/
def freeFrame (s : State) (k : Nat) : State :=
  match tget? s.pat.frames k with
  | none => s
  | some f =>
    { s with
      pat := { s.pat with frames := tdel s.pat.frames k }
      mem := mzero s.mem (k * 65536) (pageBytes f.large) }

/-- The use of a frame changed. -/
def setUse (s : State) (k use : Nat) : State :=
  match tget? s.pat.frames k with
  | none => s
  | some f => { s with pat := { s.pat with frames := tput s.pat.frames k { f with use := use } } }

/-- The commands of a context that have started and not ended. -/
def liveRuns (s : State) (c : Nat) : List Nat :=
  (s.disp.runs.filter fun e => e.2.ctx == c && e.2.state == 3 && !e.2.ended).map fun e => e.1

/-! ### Regions (R458) -/

/-- A region as its registers give it. -/
structure Region where
  base : Nat
  size : Nat
  kind : Nat
  large : Bool
  fill : Nat
  stacked : Bool
  depth : Nat
  src : Nat
  deriving DecidableEq, Repr

/-- Region `r` of context `c`, if valid. -/
def regionOf (s : State) (c r : Nat) : Option Region :=
  let b := patBase c + 0x100 + r * 0x20
  let a := reg s (b + 0xC)
  if bitAt a 31 then
    some {
      base := reg s b / 2 ^ 21 * 2 ^ 21 + 2 ^ 32 * regFld s (b + 4) 15 0
      size := regFld s (b + 8) 27 0 * 2 ^ 21
      kind := fld a 30 29
      large := bitAt a 28
      fill := fld a 27 27
      stacked := bitAt a 26
      depth := fld a 25 22
      src := reg s (b + 0x10) / 2 ^ 16 * 2 ^ 16 + 2 ^ 32 * reg s (b + 0x14) }
  else none

/-- The region that holds a virtual address. -/
def regionAt (s : State) (c va : Nat) : Option Region :=
  (List.range 16).findSome? fun r =>
    match regionOf s c r with
    | some g => if g.base ≤ va && va < g.base + g.size then some g else none
    | none => none

/-- Whether `n` bytes lie wholly in PLAIN regions of a context. -/
def allPlain (s : State) (c va n : Nat) : Bool :=
  (va :: (va + (n - 1)) :: (List.range (n / 65536)).map fun i => va + i * 65536).all fun a =>
    match regionAt s c a with
    | some g => g.kind == 0
    | none => false

/-- Page number (in 64 KiB units) of the page that holds an address of a region. -/
def pageOf (g : Region) (va : Nat) : Nat :=
  if g.large then va / 2 ^ 21 * 32 else va / 2 ^ 16

/-! ### Page tables (R461-R463) -/

/-- Key of a leaf entry. -/
def pageKey (c vpn : Nat) : Nat := c * 2 ^ 32 + vpn

/-- The leaf entry of a page. -/
def mapOf (s : State) (c vpn : Nat) : Option PageMap := tget? s.pat.maps (pageKey c vpn)

/-- Prefix of the table of a level that a page's walk passes through. -/
def tabPrefix (level vpn : Nat) : Nat :=
  match level with
  | 0 => 0
  | 1 => vpn / 2 ^ 23
  | 2 => vpn / 2 ^ 14
  | _ => vpn / 2 ^ 5

/-- Index of a page's entry in its table of a level. -/
def tabIndex (level vpn : Nat) : Nat :=
  match level with
  | 0 => vpn / 2 ^ 23 % 512
  | 1 => vpn / 2 ^ 14 % 512
  | 2 => vpn / 2 ^ 5 % 512
  | _ => vpn % 32

/-- Key of a table. -/
def tabKey (c level pre : Nat) : Nat := (c * 4 + level) * 2 ^ 28 + pre

/-- Address of a page's table of a level. -/
def tabAddr (s : State) (c level vpn : Nat) : Option Nat :=
  tget? s.pat.tabs (tabKey c level (tabPrefix level vpn))

/-- Levels that the walk of a page passes through. -/
def walkLevels (large : Bool) : List Nat := if large then [0, 1, 2] else [0, 1, 2, 3]

/-- Tables in one table frame, and bytes of one table. -/
def tabsPerFrame (small : Bool) : Nat := if small then 256 else 16
def tabBytes (small : Bool) : Nat := if small then 256 else 4096

/-- A partly filled table frame of the context and kind, with its lowest free slot. -/
def tabPlace (s : State) (c : Nat) (small : Bool) : Option (Nat × Nat) :=
  s.pat.tframes.findSome? fun e =>
    if e.2.ctx = c && e.2.small = small then
      ((List.range (tabsPerFrame small)).find? fun i => !e.2.slots.contains i).map fun i => (e.1, i)
    else none

/-- A slot for a new table, taking a new table frame where none is partly filled (R463). Table
frames may take FREE to 0 (R477), and come from the stacks nearest to the requester's field (R475). -/
def newTable (s : State) (c : Nat) (small : Bool) (field : Option Nat) : Option (Nat × State) :=
  let got : Option ((Nat × Nat) × State) :=
    match tabPlace s c small with
    | some p => some (p, s)
    | none =>
      match takeFrame s c false 3 0 field with
      | some (k, s) =>
        some ((k, 0), { s with pat := { s.pat with
          tframes := tput s.pat.tframes k { ctx := c, small := small } } })
      | none => none
  match got with
  | none => none
  | some ((k, i), s) =>
    let f := tget { ctx := c, small := small } s.pat.tframes k
    some (k * 65536 + i * tabBytes small,
      { s with pat := { s.pat with tframes := tput s.pat.tframes k { f with slots := i :: f.slots } } })

/-- The bits of a table-pointer entry (R462): ADDR holds bits [43:12] of the table's address, and the bits
below are reserved. -/
def pointerEntry (addr : Nat) : Nat := 2 ^ 63 + fld addr 43 12 * 2 ^ 12

/-- The bits of a leaf entry (R462). -/
def leafEntry (m : PageMap) : Nat :=
  2 ^ 63 + (if m.large then 2 else 1) * 2 ^ 61 + m.res * 2 ^ 59 +
  (if m.res = 1 then m.at_ * 2 ^ 12 else if m.res = 0 then m.at_ * 65536 else 0)

/-- The tables of a page's walk at the given levels exist; none when a table frame must wait. -/
def ensureTables (s : State) (c vpn : Nat) (field : Option Nat) : List Nat → Option State
  | [] => some s
  | l :: ls =>
    match tabAddr s c l vpn with
    | some _ => ensureTables s c vpn field ls
    | none =>
      match newTable s c (l == 3) field with
      | none => none
      | some (a, s) =>
        let s := { s with pat := { s.pat with tabs := tput s.pat.tabs (tabKey c l (tabPrefix l vpn)) a } }
        let s := match l with
          | 0 => s
          | n + 1 => match tabAddr s c n vpn with
            | some up => { s with mem := mwriteLE s.mem (up + tabIndex n vpn * 8) 8 (pointerEntry a) }
            | none => s
        ensureTables s c vpn field ls

/-- Table frames that the walk of a page still needs. -/
def tablesNeeded (s : State) (c vpn : Nat) (large : Bool) : Nat :=
  let missing := (walkLevels large).filter fun l => (tabAddr s c l vpn).isNone
  let big := (missing.filter fun l => l != 3).length
  let room := fun small : Bool =>
    s.pat.tframes.foldl (fun n e =>
      if e.2.ctx = c && e.2.small = small then n + (tabsPerFrame small - e.2.slots.length) else n) 0
  (if room false < big then 1 else 0) + (if missing.contains 3 && decide (room true = 0) then 1 else 0)

/-- Address of a page's leaf entry. -/
def leafAddr (s : State) (c vpn : Nat) (large : Bool) : Option Nat :=
  let l := if large then 2 else 3
  (tabAddr s c l vpn).map fun a => a + tabIndex l vpn * 8

/-- A leaf entry written: in the table in memory and for translation. -/
def writeLeaf (s : State) (c vpn : Nat) (m : PageMap) : State :=
  let s := { s with pat := { s.pat with maps := tput s.pat.maps (pageKey c vpn) m } }
  match leafAddr s c vpn m.large with
  | some a => { s with mem := mwriteLE s.mem a 8 (leafEntry m) }
  | none => s

/-- Whether a table holds no entry: no byte of it is other than zero, and no commit will write a leaf entry at
an address in it that PAT has recorded (R470). -/
def tabEmpty (s : State) (a n : Nat) : Bool :=
  (s.mem.all fun cell => decide (cell.1 < a) || decide (a + n ≤ cell.1)) &&
  (s.disp.runs.all fun e => e.2.fresh.all fun f => decide (f.leaf < a) || decide (a + n ≤ f.leaf))

/-- Tables of a page's walk that hold no entry are freed, from the leaf level up, but not L0 (R463). -/
def pruneTables (s : State) (c vpn : Nat) : List Nat → State
  | [] => s
  | l :: ls =>
    match tabAddr s c l vpn with
    | none => pruneTables s c vpn ls
    | some a =>
      let small := l == 3
      if l ≠ 0 && tabEmpty s a (tabBytes small) then
        let k := a / 65536
        let f := tget { ctx := c, small := small } s.pat.tframes k
        let slots := f.slots.filter fun i => i != a % 65536 / tabBytes small
        let s := { s with pat := { s.pat with
          tabs := tdel s.pat.tabs (tabKey c l (tabPrefix l vpn))
          tframes := if slots.isEmpty then tdel s.pat.tframes k
            else tput s.pat.tframes k { f with slots := slots } } }
        let s := if slots.isEmpty then freeFrame s k else s
        let s := match tabAddr s c (l - 1) vpn with
          | some up => { s with mem := mwriteLE s.mem (up + tabIndex (l - 1) vpn * 8) 8 0 }
          | none => s
        pruneTables s c vpn ls
      else s

/-- A page unmapped: its leaf entry cleared and empty tables freed. -/
def clearLeaf (s : State) (c vpn : Nat) : State :=
  match mapOf s c vpn with
  | none => s
  | some m =>
    let s := match leafAddr s c vpn m.large with
      | some a => { s with mem := mwriteLE s.mem a 8 0 }
      | none => s
    let key := pageKey c vpn
    let s := { s with pat := { s.pat with
      maps := tdel s.pat.maps key, cached := s.pat.cached.filter fun k => k != key } }
    pruneTables s c vpn (walkLevels m.large).reverse

/-- The set of the translation cache that a mapping lies in, by the hash of its context and page (R469). -/
def cacheSet (key : Nat) : Nat := Config.cacheHash key % 4096

/-- Committed mappings that a set holds, and the provisional ones, which are pinned (R469). -/
def setWays (s : State) (n : Nat) : List Nat := s.pat.cached.filter fun k => cacheSet k == n
def setPinned (s : State) (n : Nat) : Nat :=
  s.disp.runs.foldl (fun a e => a + (e.2.fresh.filter fun f => cacheSet (pageKey e.2.ctx f.va) == n).length) 0

/-- A way of a mapping's set is free: when all 16 are taken, a committed mapping of the set goes; which one is
a free value, and a set whose ways are all pinned stays as it is (R469, log entry 39). -/
def freeWay (s : State) (key : Nat) : State :=
  let n := cacheSet key
  if (setWays s n).length + setPinned s n < 16 then s
  else
    let (d, s) := draw s
    match freePick d (setWays s n) with
    | some k => { s with pat := { s.pat with cached := s.pat.cached.filter fun j => j != k } }
    | none => s

/-- The translation cache takes in a committed mapping (R469, R472). -/
def enterCache (s : State) (key : Nat) : State :=
  if s.pat.cached.contains key then s
  else
    let s := freeWay s key
    if (setWays s (cacheSet key)).length + setPinned s (cacheSet key) < 16 then
      { s with pat := { s.pat with cached := s.pat.cached ++ [key] } }
    else s

/-- A request's translation is found in the cache, or misses and enters it (R469). -/
def cacheIn (s : State) (key : Nat) : State :=
  if s.pat.cached.contains key then s else enterCache (addReg s 0x700024 1) key

/-- The stack of a data page that the translation cache holds for a context (R229). -/
def cachedStack (s : State) (c page : Nat) : Option Nat :=
  let hit := fun vpn => match mapOf s c vpn with
    | some m => if s.pat.cached.contains (pageKey c vpn) && decide (m.res = 0) then some (stackOf m.at_) else none
    | none => none
  match regionAt s c (page * 65536) with
  | some g => hit (pageOf g (page * 65536))
  | none => none

/-! ### Reading a context's memory -/

/-- What the committed version of a page holds at an address: bytes up to the page's end; none for a
fault of R466. -/
def readPage (s : State) (c va n : Nat) : Option (List Byte) :=
  match regionAt s c va with
  | none => none
  | some g =>
    let vpn := pageOf g va
    let off := va - vpn * 65536
    match mapOf s c vpn with
    | some m =>
      if m.res = 0 then some (mreadBytes s.mem (m.at_ * 65536 + off) n) else none
    | none =>
      if g.kind = 0 then some (List.replicate n 0)
      else none

/-- `n` bytes from a context's virtual address, page by page. -/
def readVirtGo (s : State) (c : Nat) : Nat → Nat → Nat → Option (List Byte)
  | 0, _, n => if n = 0 then some [] else none
  | fuel + 1, va, n =>
    if n = 0 then some []
    else
      let k := min n (65536 - va % 65536)
      match readPage s c va k with
      | none => none
      | some b =>
        match readVirtGo s c fuel (va + k) (n - k) with
        | none => none
        | some r => some (b ++ r)

/-- `n` committed bytes from a context's virtual address; none where a translation faults. -/
def readVirt (s : State) (c va n : Nat) : Option (List Byte) :=
  if ctxEnabled s c then readVirtGo s c (n / 65536 + 2) va n else none

/-- Bytes from host memory or from a context's stacked memory, as an operand's SRC bit says. -/
def readSrc (s : State) (c : Nat) (stacked : Bool) (addr n : Nat) : Option (List Byte) :=
  if stacked then readVirt s c addr n else some (hostRead s c addr n)

/-! ### The units' own writes (R460) -/

/-- What a unit's write met. -/
inductive WriteRes where
  | done (s : State)
  | wait
  | fault
  deriving DecidableEq, Repr

/-- The fill of a frame (R458, R470): zeros, or a copy of a version's frame. -/
def fillFrame (s : State) (k : Nat) (large : Bool) (fill : Nat) (src : Option Nat) : State :=
  match src with
  | some f => if fill = 1 then { s with mem := mcopy s.mem s.mem (k * 65536) (f * 65536) (pageBytes large) } else s
  | none => s

/-- A page mapped to a frame for a unit's write, where none is mapped: none when it must wait. -/
def mapForWrite (s : State) (c vpn : Nat) (g : Region) (field : Option Nat) : Option State :=
  match takeFrame s c g.large 0 0 field with
  | none => none
  | some (k, s) =>
    match ensureTables s c vpn field (walkLevels g.large) with
    | none => none
    | some s => some (writeLeaf s c vpn { large := g.large, at_ := k })

/-- A unit's write within one page. -/
def writePage (s : State) (c va : Nat) (bs : List Byte) : WriteRes :=
  match regionAt s c va with
  | none => .fault
  | some g =>
    if g.kind ≠ 0 || !ctxEnabled s c then .fault
    else
      let vpn := pageOf g va
      let put := fun (s : State) => match mapOf s c vpn with
        | some m =>
          WriteRes.done { s with mem := mwriteBytes s.mem (m.at_ * 65536 + (va - vpn * 65536)) bs }
        | none => .fault
      match mapOf s c vpn with
      | some _ => put s
      | none =>
        match mapForWrite s c vpn g none with
        | none => .wait
        | some s => put s

/-- GRANT_WAIT_SEEN, and QUOTA_WAIT_SEEN when the quota stops the request (R478). -/
def noteWait (s : State) (c size : Nat) : State :=
  let s := setRegBit s 0x700004 31 true
  if quota s c < usedFrames s c + size then
    setRegBit (setRegBit s 0x700004 30 true) (patBase c + 0xC) 31 true
  else s

/-- Whether a unit's write to an address meets a translation fault. -/
def writeFaults (s : State) (c va : Nat) : Bool :=
  match regionAt s c va with
  | none => true
  | some g => g.kind != 0 || !ctxEnabled s c

/-- The first address of a unit's write of `n` bytes whose translation faults, page by page. -/
def writeFaultAt (s : State) (c va n : Nat) : Option Nat :=
  (va :: (List.range (n / 65536 + 1)).map fun i => (va / 65536 + 1 + i) * 65536).find? fun a =>
    decide (a < va + n) && writeFaults s c a

/-- Page number of the page that holds an address, in its region's page size. -/
def pageNumber (s : State) (c va : Nat) : Nat :=
  match regionAt s c va with
  | some g => pageOf g va
  | none => va / 65536

/-- Whether an earlier write of the context to the same page waits (R460). -/
def writeBlocked (s : State) (c va : Nat) : Bool :=
  s.pat.waits.any fun w => match w with
    | .write c' va' _ => c' == c && pageNumber s c va' == pageNumber s c va
    | _ => false

/-- A commit record. -/
def runOf (s : State) (r : Nat) : Option Run := tget? s.disp.runs r

/-- A STREAM fill of a page under way. -/
def filling (s : State) (c vpn : Nat) : Bool := s.pat.fills.any fun f => f.ctx == c && f.vpn == vpn

/-- The context of a waiting request. -/
def waitCtx (s : State) : PatWait → Nat
  | .xlt _ r _ | .rex r _ _ => match runOf s r with | some x => x.ctx | none => 0
  | .write c _ _ | .gate _ _ c _ => c

/-- The run and page of a waiting request of a command. -/
def PatWait.ofRun : PatWait → Option (Nat × Nat)
  | .xlt _ r req => some (r, fld req 53 22)
  | .rex r va _ => some (r, va / 65536)
  | _ => none

/-- The waiting requests without those of a run. -/
def PatWait.dropRun (id : Nat) (l : List PatWait) : List PatWait :=
  l.filter fun w => w.ofRun.all fun e => e.1 != id

/-- Whether a waiting request asks for a page of a context. -/
def asksPage (s : State) (c vpn : Nat) (w : PatWait) : Bool :=
  waitCtx s w == c && (match w with
    | .gate _ _ _ va => pageNumber s c va == vpn
    | w => w.ofRun.any fun e => (runOf s e.1).isSome && pageNumber s c (e.2 * 65536) == vpn)

/-- Whether a waiting request waits for a STREAM fill rather than for a frame. -/
def waitsFill (s : State) (w : PatWait) : Bool := s.pat.fills.any fun f => asksPage s f.ctx f.vpn w

/-- Whether a request of the context waits for a frame: its head holds back every later one (R478). -/
def heldBack (s : State) (c : Nat) : Bool :=
  s.pat.waits.any fun w => waitCtx s w == c && !waitsFill s w

/-- Whether a write needs a frame while a request of the context waits for one (R460, R478). -/
def writeBehind (s : State) (c va : Nat) : Bool :=
  (match regionAt s c va with
   | some g => g.kind == 0 && (mapOf s c (pageOf g va)).isNone
   | none => false) && heldBack s c

/-- Whether a write to any page of `n` bytes at an address waits. -/
def rangeBlocked (s : State) (c va n : Nat) : Bool :=
  (List.range (n / 65536 + 2)).any fun i => writeBlocked s c (va + min (i * 65536) (n - 1))

/-! ### Deferred release (R473) -/

/-- Whether the write of a ring record still waits for a frame: its delivery has not ended. -/
def recWriting (s : State) (ch : Chan) (x : RingRec) : Bool :=
  rangeBlocked s ch.ctx (ch.ringVa + x.pos * 64) (x.len * 64)

/-- Ring records that a context sent and whose delivery has not ended, by serial number. -/
def liveRecs (s : State) (c : Nat) : List Nat :=
  s.chn.chans.flatMap fun e => (e.2.recs.filter fun x => (x.sender.any fun w => w.ctx == c) && recWriting s e.2 x).map fun x => x.serial

/-- Contributions of a context whose intake has not ended, by serial number. -/
def liveIntakes (s : State) (c : Nat) : List Nat :=
  s.blq.qs.flatMap fun e => (e.2.inQ.filter fun m => m.src == some c).map fun m => m.serial

/-- Whether anything of a context may still read a frame that it no longer maps. -/
def stillReads (s : State) (c : Nat) : Bool :=
  !(liveRuns s c).isEmpty || !(liveRecs s c).isEmpty || !(liveIntakes s c).isEmpty

/-- A frame goes to deferred release, with the commands, deliveries and intakes that must end first (R473). -/
def deferFrame (s : State) (c k : Nat) : State :=
  let s := setUse s k 2
  { s with pat := { s.pat with
      deferred := s.pat.deferred ++
        [{ frame := k, ctx := c, runs := liveRuns s c, recs := liveRecs s c, intakes := liveIntakes s c }] } }

/-- A faulted translation noted: FAULT_SEEN, the VPN and the PAGE_FAULT event (R468). A KV page that is not resident
was not in the translation cache either (R490). -/
def notePageFault (s : State) (c code vpn source : Nat) (write : Bool) (vint : Nat) : State :=
  let s := if code = 3 then addReg s 0x700024 1 else s
  let s := setRegBit s 0x700004 25 true
  let s := setRegBit s (patBase c + 0xC) 30 true
  let s := setRegFld s (patBase c + 0xC) 3 0 code
  let s := setReg s (patBase c + 0x20) vpn
  raiseEvent s c 0x0140 2 source vint (vpn % 2 ^ 32 + code * 2 ^ 32 + b2n write * 2 ^ 36)

/-- The small frames that a write to an unmapped page takes: the page's and its tables'. -/
def writeNeed (s : State) (c va : Nat) : Nat :=
  match regionAt s c va with
  | some g => frameSize g.large + tablesNeeded s c (pageOf g va) g.large
  | none => 0

/-- A unit's write of at most one page that takes its turn: made, left waiting, or a fault. -/
def unitWritePage (s : State) (c va : Nat) (bs : List Byte) : State × Bool :=
  if writeBlocked s c va || writeBehind s c va then
    (setRegBit { s with pat := { s.pat with waits := s.pat.waits ++ [.write c va bs] } } 0x700004 31 true, true)
  else match writePage s c va bs with
    | .done s => (s, true)
    | .wait =>
      (noteWait { s with pat := { s.pat with waits := s.pat.waits ++ [.write c va bs] } } c (writeNeed s c va), true)
    | .fault => (s, false)

/-- A unit's write, page by page: false when a page faults; the pages before it stand. -/
def unitWriteGo (c : Nat) : Nat → State → Nat → List Byte → State × Bool
  | 0, s, _, _ => (s, true)
  | fuel + 1, s, va, bs =>
    match bs with
    | [] => (s, true)
    | _ =>
      let k := 65536 - va % 65536
      let (s, ok) := unitWritePage s c va (bs.take k)
      if ok then unitWriteGo c fuel s (va + k) (bs.drop k) else (s, false)

/-- A unit's own write to a context's virtual address (R460). -/
def unitWrite (s : State) (c va : Nat) (bs : List Byte) : State × Bool :=
  unitWriteGo c (bs.length / 65536 + 2) s va bs

/-- A unit's write for which the unit's chapter lays down no handling of faults (R460). -/
def unitWritePlain (s : State) (c va : Nat) (bs : List Byte) : State :=
  let (s, ok) := unitWrite s c va bs
  if ok then s else notePageFault s c 1 (va / 65536) 0 true 0

end Sys2Proof.Machine
end

