-- ==== Sys2Proof/Machine/Crypto.lean ====
section
/-! DEFINITION. The ciphers and digests that the manual names: AES-128 and AES-CMAC (R163), AES key
unwrap (R173), SHA-256 (R595) and CRC-64 (R403). Written from FIPS 197, SP 800-38B, SP 800-38F and
FIPS 180-4, which the manual cites. -/

namespace Sys2Proof.Machine

open Sys2Proof

/-! ### GF(2^8) and AES-128 -/

/-- Multiplication by x in GF(2^8). -/
def xtime (a : Nat) : Nat := if a < 128 then a * 2 else (a * 2) % 256 ^^^ 0x1B

/-- Product in GF(2^8), over `n` bits of `b`. -/
def gmul : Nat → Nat → Nat → Nat
  | 0, _, _ => 0
  | n + 1, a, b => (if b % 2 = 1 then a else 0) ^^^ gmul n (xtime a) (b / 2)

/-- Square-and-multiply inverse in GF(2^8): a^254. -/
def ginv (a : Nat) : Nat :=
  let sq := fun x => gmul 8 x x
  let a2 := sq a
  let a4 := sq a2
  let a8 := sq a4
  let a16 := sq a8
  let a32 := sq a16
  let a64 := sq a32
  let a128 := sq a64
  gmul 8 a128 (gmul 8 a64 (gmul 8 a32 (gmul 8 a16 (gmul 8 a8 (gmul 8 a4 a2)))))

/-- Rotation of a byte to the left. -/
def rotl8 (a n : Nat) : Nat := (a * 2 ^ n) % 256 + a / 2 ^ (8 - n)

/-- SubBytes of one byte (FIPS 197). -/
def sbox (a : Nat) : Nat :=
  let b := ginv a
  b ^^^ rotl8 b 1 ^^^ rotl8 b 2 ^^^ rotl8 b 3 ^^^ rotl8 b 4 ^^^ 0x63

/-- InvSubBytes of one byte. -/
def invSbox (a : Nat) : Nat := ginv (rotl8 a 1 ^^^ rotl8 a 3 ^^^ rotl8 a 6 ^^^ 0x05)

/-- Byte `i` of a list of byte values. -/
def nth (l : List Nat) (i : Nat) : Nat := l.getD i 0

/-- Byte-wise exclusive or. -/
def xorBytes (a b : List Nat) : List Nat := List.zipWith (fun x y => x ^^^ y) a b

/-- The next round key of AES-128. -/
def nextKey (k : List Nat) (rcon : Nat) : List Nat :=
  let w0 := xorBytes (k.take 4)
    [sbox (nth k 13) ^^^ rcon, sbox (nth k 14), sbox (nth k 15), sbox (nth k 12)]
  let w1 := xorBytes ((k.drop 4).take 4) w0
  let w2 := xorBytes ((k.drop 8).take 4) w1
  let w3 := xorBytes ((k.drop 12).take 4) w2
  w0 ++ w1 ++ w2 ++ w3

/-- The round keys after `k`, one per round constant. -/
def expandKey : List Nat → List Nat → List (List Nat)
  | k, [] => [k]
  | k, r :: rs => k :: expandKey (nextKey k r) rs

/-- The eleven round keys of AES-128. -/
def roundKeys (k : List Nat) : List (List Nat) :=
  expandKey k [0x01, 0x02, 0x04, 0x08, 0x10, 0x20, 0x40, 0x80, 0x1B, 0x36]

/-- ShiftRows on a column-major block. -/
def shiftRows (b : List Nat) : List Nat :=
  [0, 5, 10, 15, 4, 9, 14, 3, 8, 13, 2, 7, 12, 1, 6, 11].map (nth b)

/-- InvShiftRows on a column-major block. -/
def invShiftRows (b : List Nat) : List Nat :=
  [0, 13, 10, 7, 4, 1, 14, 11, 8, 5, 2, 15, 12, 9, 6, 3].map (nth b)

/-- One column times a circulant matrix row `m0 m1 m2 m3`. -/
def mixColumn (m0 m1 m2 m3 : Nat) (c : List Nat) : List Nat :=
  let g := fun m i => gmul 8 (nth c i) m
  [g m0 0 ^^^ g m1 1 ^^^ g m2 2 ^^^ g m3 3,
   g m3 0 ^^^ g m0 1 ^^^ g m1 2 ^^^ g m2 3,
   g m2 0 ^^^ g m3 1 ^^^ g m0 2 ^^^ g m1 3,
   g m1 0 ^^^ g m2 1 ^^^ g m3 2 ^^^ g m0 3]

/-- MixColumns with a circulant matrix. -/
def mixColumns (m0 m1 m2 m3 : Nat) (b : List Nat) : List Nat :=
  mixColumn m0 m1 m2 m3 (b.take 4) ++ mixColumn m0 m1 m2 m3 ((b.drop 4).take 4) ++
  mixColumn m0 m1 m2 m3 ((b.drop 8).take 4) ++ mixColumn m0 m1 m2 m3 ((b.drop 12).take 4)

/-- The rounds of encryption over the remaining round keys. -/
def encRounds : List Nat → List (List Nat) → List Nat
  | b, [] => b
  | b, [k] => xorBytes (shiftRows (b.map sbox)) k
  | b, k :: ks => encRounds (xorBytes (mixColumns 2 3 1 1 (shiftRows (b.map sbox))) k) ks

/-- AES-128 encryption of one block. -/
def aesEnc (key block : List Nat) : List Nat :=
  match roundKeys key with
  | [] => block
  | k :: ks => encRounds (xorBytes block k) ks

/-- The rounds of decryption over the remaining round keys, last key first. -/
def decRounds : List Nat → List (List Nat) → List Nat
  | b, [] => b
  | b, [k] => xorBytes ((invShiftRows b).map invSbox) k
  | b, k :: ks => decRounds (mixColumns 14 11 13 9 (xorBytes ((invShiftRows b).map invSbox) k)) ks

/-- AES-128 decryption of one block. -/
def aesDec (key block : List Nat) : List Nat :=
  match (roundKeys key).reverse with
  | [] => block
  | k :: ks => decRounds (xorBytes block k) ks

/-! ### AES-CMAC (R163) -/

/-- The number that bytes spell, first byte most significant. -/
def beNat (l : List Nat) : Nat := l.foldl (fun acc b => acc * 256 + b) 0

/-- The `n` bytes that spell `v`, most significant first. -/
def beBytes : Nat → Nat → List Nat
  | 0, _ => []
  | n + 1, v => v / 256 ^ n % 256 :: beBytes n v

/-- Doubling of a CMAC subkey (SP 800-38B). -/
def cmacDouble (l : List Nat) : List Nat :=
  let v := beNat l
  let d := v * 2 % 2 ^ 128
  beBytes 16 (if v < 2 ^ 127 then d else d ^^^ 0x87)

/-- CBC over whole blocks. -/
def cbcMac (key : List Nat) : List Nat → List (List Nat) → List Nat
  | x, [] => x
  | x, b :: bs => cbcMac key (aesEnc key (xorBytes x b)) bs

/-- The first eight bytes of the AES-CMAC of the 56 bytes of a descriptor (R163, R164): three whole
blocks and a last one of eight bytes, padded with 0x80 and masked with the second subkey. -/
def cmacTag (key msg : List Nat) : List Nat :=
  let zero := List.replicate 16 0
  let k1 := cmacDouble (aesEnc key zero)
  let k2 := cmacDouble k1
  let last := xorBytes ((msg.drop 48).take 8 ++ 0x80 :: List.replicate 7 0) k2
  (cbcMac key zero [msg.take 16, (msg.drop 16).take 16, (msg.drop 32).take 16, last]).take 8

/-! ### AES key unwrap (SP 800-38F) of 24 bytes -/

/-- One unwrap step with step number `t` on (A, R1, R2): the block that holds R is decrypted with
A less `t`. -/
def unwrapStep (key : List Nat) (t : Nat) (a r : List Nat) : List Nat × List Nat :=
  let x := beBytes 8 (beNat a ^^^ t)
  let b := aesDec key (x ++ r)
  (b.take 8, b.drop 8)

/-- The unwrap rounds j = n - 1 down to 0, two semiblocks each. -/
def unwrapRounds (key : List Nat) : Nat → List Nat → List Nat → List Nat → List Nat × List Nat × List Nat
  | 0, a, r1, r2 => (a, r1, r2)
  | j + 1, a, r1, r2 =>
    let (a, r2) := unwrapStep key (2 * j + 2) a r2
    let (a, r1) := unwrapStep key (2 * j + 1) a r1
    unwrapRounds key j a r1 r2

/-- The unwrapped 16-byte key, where the integrity check holds. -/
def keyUnwrap (key wrapped : List Nat) : Option (List Nat) :=
  let (a, r1, r2) := unwrapRounds key 6 (wrapped.take 8) ((wrapped.drop 8).take 8) (wrapped.drop 16)
  if a = List.replicate 8 0xA6 then some (r1 ++ r2) else none

/-! ### SHA-256 (FIPS 180-4) -/

/-- Rotation of a 32-bit word to the right. -/
def rotr32 (x n : Nat) : Nat := x / 2 ^ n + x % 2 ^ n * 2 ^ (32 - n)

/-- Sum of 32-bit words. -/
def add32 (a b : Nat) : Nat := (a + b) % 2 ^ 32

/-- The primes below 312: the first 64 primes. -/
def shaPrimes : List Nat :=
  (List.range 312).filter fun n => decide (2 ≤ n) && (rangeFrom 2 16).all fun d => decide (n % d ≠ 0) || n == d

/-- The greatest `r` plus a multiple of a power of two, below `2 ^ b` above `r`, whose `k`-th power is at most
`n`: the integer `k`-th root, bit by bit. -/
def rootFrom (k n : Nat) : Nat → Nat → Nat
  | 0, r => r
  | b + 1, r => rootFrom k n b (if (r + 2 ^ b) ^ k ≤ n then r + 2 ^ b else r)

/-- The first 32 fraction bits of the `k`-th root of a number below 2 ^ 12 (FIPS 180-4). -/
def rootFraction (k p : Nat) : Nat := rootFrom k (p * 2 ^ (32 * k)) 38 0 % 2 ^ 32

/-- The round constants: the cube roots of the first 64 primes. -/
def shaConsts : List Nat := shaPrimes.map (rootFraction 3)

/-- The message schedule, newest word first: `n` more words. -/
def shaExtend : Nat → List Nat → List Nat
  | 0, w => w
  | n + 1, w =>
    let x := nth w 14
    let y := nth w 1
    let s0 := rotr32 x 7 ^^^ rotr32 x 18 ^^^ (x / 8)
    let s1 := rotr32 y 17 ^^^ rotr32 y 19 ^^^ (y / 1024)
    shaExtend n (add32 (add32 (nth w 15) s0) (add32 (nth w 6) s1) :: w)

/-- The working variables of SHA-256. -/
structure ShaVars where
  a : Nat
  b : Nat
  c : Nat
  d : Nat
  e : Nat
  f : Nat
  g : Nat
  h : Nat
  deriving DecidableEq, Repr

/-- The exclusive or of a word rotated right by three amounts. -/
def rot3 (x i j k : Nat) : Nat := rotr32 x i ^^^ rotr32 x j ^^^ rotr32 x k

/-- One round of SHA-256 with a constant and a word of the schedule: each bit of `e` chooses between `f` and
`g`, and `a`, `b` and `c` vote on each bit. -/
def shaRound (v : ShaVars) (kw : Nat × Nat) : ShaVars :=
  let pick := v.g ^^^ (v.e &&& (v.f ^^^ v.g))
  let vote := (v.a &&& v.b) ||| (v.c &&& (v.a ||| v.b))
  let t := add32 (add32 v.h (rot3 v.e 6 11 25)) (add32 pick (add32 kw.1 kw.2))
  { a := add32 t (add32 (rot3 v.a 2 13 22) vote), b := v.a, c := v.b, d := v.c
    e := add32 v.d t, f := v.e, g := v.f, h := v.g }

/-- The big-endian words of `n` groups of four bytes. -/
def beWords : Nat → List Nat → List Nat
  | 0, _ => []
  | n + 1, l => beNat (l.take 4) :: beWords n (l.drop 4)

/-- One block of SHA-256. -/
def shaBlock (h block : List Nat) : List Nat :=
  let w := (shaExtend 48 (beWords 16 block).reverse).reverse
  let start : ShaVars :=
    { a := nth h 0, b := nth h 1, c := nth h 2, d := nth h 3, e := nth h 4, f := nth h 5, g := nth h 6, h := nth h 7 }
  let v := (shaConsts.zip w).foldl shaRound start
  List.zipWith add32 h [v.a, v.b, v.c, v.d, v.e, v.f, v.g, v.h]

/-- SHA-256 over `n` whole blocks. -/
def shaBlocks : Nat → List Nat → List Nat → List Nat
  | 0, h, _ => h
  | n + 1, h, m => shaBlocks n (shaBlock h (m.take 64)) (m.drop 64)

/-- The initial hash value of SHA-256: the square roots of the first eight primes. -/
def shaInit : List Nat := (shaPrimes.take 8).map (rootFraction 2)

/-- SHA-256 of a message: its 32 bytes. -/
def sha256 (msg : List Nat) : List Nat :=
  let n := msg.length
  let pad := (119 - n % 64) % 64
  let m := msg ++ 0x80 :: (List.replicate pad 0 ++ beBytes 8 (n * 8))
  ((shaBlocks (m.length / 64) shaInit m).map (beBytes 4)).flatten

/-! ### Byte lists -/

/-- Values of a byte list. -/
def toNats (l : List Byte) : List Nat := l.map (·.toNat)

/-- Bytes of a value list. -/
def toBytes (l : List Nat) : List Byte := l.map (BitVec.ofNat 8 ·)

end Sys2Proof.Machine
end

