-- ==== Sys2Proof/Machine/Tge.lean ====
section
/-! DEFINITION. Graph images and the task and edge tables (R181-R206): descriptor fields, counter
words, relocation, and the checks of an image. -/

namespace Sys2Proof.Machine

open Sys2Proof

/-! ### Task descriptors (R195) -/

/-- KIND: 0 ENGINE, 1 REX, 2 HANDLER, 3 RECOMPUTE, 4 HOST_SIGNAL, 5 GATE. -/
def tdKind (d : List Byte) : Nat := fld (leAt d 0 1) 3 0
def tdPrio (d : List Byte) : Nat := fld (leAt d 0 1) 6 4
def tdEngKind (d : List Byte) : Nat := fld (leAt d 1 1) 2 0
def tdWaitValid (d : List Byte) : Bool := bitAt (leAt d 1 1) 3
def tdWdog (d : List Byte) : Nat := fld (leAt d 1 1) 7 4
def tdRank (d : List Byte) : Nat := leAt d 2 2
def tdInCount (d : List Byte) : Nat := fld (leAt d 4 2) 14 0
def tdOutCount (d : List Byte) : Nat := leAt d 6 2
def tdEdgeBase (d : List Byte) : Nat := fld (leAt d 8 4) 19 0
def tdWaitObj (d : List Byte) : Nat := leAt d 12 2
def tdGroup (d : List Byte) : Nat := leAt d 14 2
def tdDelay (d : List Byte) : Nat := leAt d 16 2
def tdLayer (d : List Byte) : Nat := leAt d 18 2
def tdChannel (d : List Byte) : Nat := fld (leAt d 20 2) 13 0
def tdExpect (d : List Byte) : Nat := fld (leAt d 22 2) 14 0
def tdDataPage (d : List Byte) : Nat := leAt d 24 4
def tdTag (d : List Byte) : Nat := leAt d 28 4

/-- The demand kind of a task: 0 matrix, 1 vector, 2 DMA, 3 REX. -/
def tdDemand (d : List Byte) : Nat := if tdKind d = 1 then 3 else tdEngKind d

/-- Whether DELAY applies to a task's kind (R245). -/
def tdDelayed (d : List Byte) : Bool :=
  decide (tdDelay d ≠ 0) && (tdKind d == 0 || tdKind d == 1 || tdKind d == 3 || tdKind d == 4)

/-- The descriptor of a physical task. -/
def descOf (s : State) (t : Nat) : List Byte := tget [] s.tge.tasks t

/-! ### Counter words (R188) -/

/-- LIVE, INIT and COUNT of a counter word. -/
def cwLive (w : Nat) : Bool := bitAt w 31
def cwInit (w : Nat) : Nat := fld w 30 16
def cwCount (w : Nat) : Nat := fld w 14 0

/-- A counter word. -/
def counterWord (live : Bool) (init count : Nat) : Nat :=
  b2n live * 2 ^ 31 + init % 2 ^ 15 * 2 ^ 16 + count % 2 ^ 15

/-- Copy A of a task's counter. -/
def cntA (s : State) (t : Nat) : Nat := tget 0 s.tge.cntA t

/-- Copy B of a task's counter. -/
def cntB (s : State) (t : Nat) : Nat := tget 0 s.tge.cntB t

/-- Both copies of a task's counter written. -/
def setCounter (s : State) (t w : Nat) : State :=
  { s with tge := { s.tge with cntA := tput s.tge.cntA t w, cntB := tput s.tge.cntB t w } }

/-! ### Images and relocation (R200) -/

/-- Image record `i`. -/
def imgOf (s : State) (i : Nat) : Option Img := tget? s.tge.imgs i

/-- Image record `i` replaced. -/
def setImg (s : State) (i : Nat) (x : Img) : State :=
  { s with tge := { s.tge with imgs := tput s.tge.imgs i x } }

/-- The step of image record `i`. -/
def stepOf (s : State) (i : Nat) : Option Step := tget? s.tge.steps i

/-- The step of image record `i` replaced. -/
def setStep (s : State) (i : Nat) (x : Step) : State :=
  { s with tge := { s.tge with steps := tput s.tge.steps i x } }

/-- The image record of a context's image ID, installed or loading or unloading. -/
def findImg (s : State) (c id : Nat) : Option (Nat × Img) :=
  s.tge.imgs.find? fun e => e.2.ctx == c && e.2.id == id

/-- Physical task of image-relative task `r`. -/
def physTask (x : Img) (r : Nat) : Nat := x.tblk.getD (r / 1024) 0 * 1024 + r % 1024

/-- Physical entry of image-relative edge `e`. -/
def physEdge (x : Img) (e : Nat) : Nat := x.eblk.getD (e / 8192) 0 * 8192 + e % 8192

/-- The image record that owns a physical task. -/
def imgOfTask (s : State) (t : Nat) : Option (Nat × Img) :=
  s.tge.imgs.find? fun e => e.2.tblk.contains (t / 1024)

/-- Image-relative ID of a physical task. -/
def relTask (x : Img) (t : Nat) : Nat := x.tblk.findIdx (· == t / 1024) * 1024 + t % 1024

/-- Free blocks among 128, given the blocks in use, lowest first. -/
def freeBlocks (used : List Nat) : List Nat := (List.range 128).filter fun b => !used.contains b

/-- Task blocks in use. -/
def usedTask (s : State) : List Nat := (s.tge.imgs.map fun e => e.2.tblk).flatten

/-- Edge blocks in use. -/
def usedEdge (s : State) : List Nat := (s.tge.imgs.map fun e => e.2.eblk).flatten

/-- Channels that loaded images hold. -/
def usedChannels (s : State) : Nat := s.tge.imgs.foldl (fun n e => n + e.2.channels) 0

/-- Blend queues that loaded images hold. -/
def usedQueues (s : State) : Nat := s.tge.imgs.foldl (fun n e => n + e.2.queues) 0

/-! ### The image header (R198, R204) -/

/-- Rounding up to a multiple of 64. -/
def up64 (n : Nat) : Nat := (n + 63) / 64 * 64

def ihTasks (b : List Byte) : Nat := leAt b 8 4
def ihEdges (b : List Byte) : Nat := leAt b 12 4
def ihArmBytes (b : List Byte) : Nat := leAt b 16 4
def ihEdgeOff (b : List Byte) : Nat := leAt b 20 4
def ihArmOff (b : List Byte) : Nat := leAt b 24 4
def ihMapOff (b : List Byte) : Nat := leAt b 28 4
def ihMap (b : List Byte) : Bool := bitAt (leAt b 6 2) 0
def ihChannels (b : List Byte) : Nat := leAt b 32 2
def ihQueues (b : List Byte) : Nat := leAt b 34 2
def ihMinClusters (b : List Byte) : Nat := leAt b 36 2

/-- The end of the image that R199 gives. -/
def ihEnd (b : List Byte) : Nat :=
  if ihMap b then up64 (ihMapOff b + 4 * ihTasks b) else ihArmOff b + ihArmBytes b

/-- Byte offset of the first header field that breaks R198, or 16 when only the end differs. -/
def headerFault (b : List Byte) (imageBytes : Nat) : Option Nat :=
  if leAt b 0 4 ≠ 0x4F4C4241 then some 0
  else if leAt b 4 2 ≠ 3 then some 4
  else if leAt b 6 2 / 2 ≠ 0 then some 6
  else if ihTasks b = 0 || 131072 < ihTasks b then some 8
  else if 1048576 < ihEdges b then some 12
  else if ihArmBytes b % 64 ≠ 0 then some 16
  else if ihEdgeOff b ≠ 256 + 64 * ihTasks b then some 20
  else if ihArmOff b ≠ up64 (ihEdgeOff b + 4 * ihEdges b) then some 24
  else if ihMapOff b ≠ (if ihMap b then ihArmOff b + ihArmBytes b else 0) then some 28
  else if 16384 < ihChannels b then some 32
  else if 1024 < ihQueues b then some 34
  else if ihMinClusters b = 0 || 128 < ihMinClusters b then some 36
  else if leAt b 38 2 ≠ 0 then some 38
  else if (firstNonzero b 48 208).isSome then some 48
  else if ihEnd b ≠ imageBytes then some 16
  else none

/-! ### The body (R205, R206, R274) -/

/-- Descriptor of image-relative task `r` in an image. -/
def imTask (b : List Byte) (r : Nat) : List Byte := (b.drop (256 + 64 * r)).take 64

/-- Edge word `e` of an image. -/
def imEdge (b : List Byte) (e : Nat) : Nat := leAt b (ihEdgeOff b + 4 * e) 4

/-- SUCC of edge `e`. -/
def imSucc (b : List Byte) (e : Nat) : Nat := fld (imEdge b e) 31 15

/-- Out-edge range of a descriptor holds edge `e`. -/
def ownsEdge (d : List Byte) (e : Nat) : Bool :=
  decide (tdEdgeBase d ≤ e) && decide (e < tdEdgeBase d + tdOutCount d)

/-- Two out-edge ranges share an edge. -/
def rangesMeet (d d' : List Byte) : Bool :=
  decide (0 < tdOutCount d) && decide (0 < tdOutCount d') &&
  decide (tdEdgeBase d < tdEdgeBase d' + tdOutCount d') &&
  decide (tdEdgeBase d' < tdEdgeBase d + tdOutCount d)

/-! ### Gate commands (R565) -/

def gdNf (d : List Byte) : Bool := bitAt (leAt d 32 1) 0
def gdSpike (d : List Byte) : Bool := bitAt (leAt d 32 1) 1
def gdProv (d : List Byte) : Bool := bitAt (leAt d 32 1) 2
def gdShift (d : List Byte) : Nat := leAt d 33 1
def gdWarmup (d : List Byte) : Nat := leAt d 34 2
def gdRatio (d : List Byte) : Nat := leAt d 36 4
def gdLoss (d : List Byte) : Nat := leAt d 40 6
def gdState (d : List Byte) : Nat := leAt d 46 6
def gdGradVpn (d : List Byte) : Nat := leAt d 52 4
def gdGradPages (d : List Byte) : Nat := leAt d 56 4
def gdWLayer (d : List Byte) : Nat := fld (leAt d 60 4) 9 0
def gdILayer (d : List Byte) : Nat := fld (leAt d 60 4) 19 10

/-- Whether a GATE's COMMAND breaks R565 (R566). -/
def gateFault (d : List Byte) : Bool :=
  let spike := gdSpike d
  decide (leAt d 32 1 / 8 ≠ 0) ||
  (if spike then decide (gdShift d = 0) || decide (15 < gdShift d) else decide (gdShift d ≠ 0)) ||
  (if spike then decide (gdRatio d < 0x3F800000) || decide (0x7F800000 ≤ gdRatio d)
   else decide (gdRatio d ≠ 0)) ||
  (if spike then decide (gdLoss d % 4 ≠ 0) else decide (gdLoss d ≠ 0)) ||
  (if leAt d 32 1 % 8 = 0 then decide (gdState d ≠ 0) else decide (gdState d % 128 ≠ 0)) ||
  decide (leAt d 60 4 / 2 ^ 20 ≠ 0)

/-- A descriptor breaks R195 on its own (check 3 of R205). REX, HOST_SIGNAL and GATE ignore
ENG_KIND; the reserved bits of a REX task's COMMAND are those of R390. -/
def descFault (d : List Byte) (edges : Nat) : Bool :=
  let k := tdKind d
  decide (5 < k) || bitAt (leAt d 0 1) 7 || bitAt (leAt d 4 2) 15 || decide (leAt d 8 4 / 2 ^ 20 ≠ 0) ||
  (!tdWaitValid d && decide (tdWaitObj d ≠ 0)) ||
  decide (leAt d 20 2 / 2 ^ 14 ≠ 0) || bitAt (leAt d 22 2) 15 ||
  (k != 2 && (decide (leAt d 20 2 ≠ 0) || decide (leAt d 22 2 ≠ 0))) ||
  (k == 2 && decide (tdExpect d = 0)) ||
  ((k == 0 || k == 2 || k == 3) && decide (2 < tdEngKind d)) ||
  (k == 1 && (decide (leAt d 32 1 / 16 ≠ 0) || decide (leAt d 33 3 ≠ 0) || decide (leAt d 36 4 / 2 ^ 17 ≠ 0))) ||
  (k == 4 && (firstNonzero d 40 24).isSome) || (k == 5 && gateFault d) ||
  decide (edges < tdEdgeBase d + tdOutCount d)

/-- Check 3 of R205: the lowest task that fails. -/
def checkTasks (b : List Byte) : Option Nat :=
  (List.range (ihTasks b)).find? fun r =>
    let d := imTask b r
    descFault d (ihEdges b) || (List.range r).any fun q => rangesMeet (imTask b q) d

/-- Check 4 of R205: the lowest edge that fails, or the padding's index. -/
def checkEdges (b : List Byte) : Option Nat :=
  let bad := (List.range (ihEdges b)).find? fun e =>
    decide (imEdge b e % 2 ^ 15 ≠ 0) || decide (ihTasks b ≤ imSucc b e) ||
    !((List.range (ihTasks b)).any fun r => ownsEdge (imTask b r) e)
  match bad with
  | some e => some e
  | none =>
    let lo := ihEdgeOff b + 4 * ihEdges b
    (firstNonzero b lo (ihArmOff b - lo)).map fun k => (k - ihEdgeOff b) / 4

/-- Check 5 of R205: a graph-map entry with a reserved bit, or padding after the map. -/
def checkMap (b : List Byte) : Option Nat :=
  if ihMap b then
    (List.range (ihTasks b)).find? fun r => decide (leAt b (ihMapOff b + 4 * r) 4 / 2 ^ 16 ≠ 0)
  else none

/-- Edges whose SUCC is `t`. -/
def inEdges (b : List Byte) (t : Nat) : Nat :=
  ((List.range (ihEdges b)).filter fun e => imSucc b e == t).length

/-- Check 7 of R205: the lowest task whose IN_COUNT differs (R182). -/
def checkCounts (b : List Byte) : Option Nat :=
  (List.range (ihTasks b)).find? fun r =>
    let d := imTask b r
    decide (tdInCount d ≠ inEdges b r + b2n (tdWaitValid d))

/-- The task whose out-edge range holds edge `e`. -/
def predOf (b : List Byte) (e : Nat) : Nat :=
  ((List.range (ihTasks b)).find? fun r => ownsEdge (imTask b r) e).getD 0

/-- One round of the dry pass: the tasks all of whose predecessors are reached. -/
def reachRound (b : List Byte) (reached : List Nat) : List Nat :=
  (List.range (ihTasks b)).filter fun r =>
    (List.range (ihEdges b)).all fun e => imSucc b e != r || reached.contains (predOf b e)

/-- `n` rounds of the dry pass. -/
def reachRounds (b : List Byte) : Nat → List Nat → List Nat
  | 0, l => l
  | n + 1, l => reachRounds b n (reachRound b l)

/-- Check 8 of R205: the lowest task never reached. -/
def checkCycle (b : List Byte) : Option Nat :=
  let l := reachRounds b (ihTasks b) []
  (List.range (ihTasks b)).find? fun r => !l.contains r

/-- First check of R274: CGROUP on a task that cannot carry it, or a group of more than 4,096. -/
def checkGroups (b : List Byte) : Option Nat :=
  (List.range (ihTasks b)).find? fun r =>
    let d := imTask b r
    let g := tdGroup d
    decide (g ≠ 0) && (tdKind d == 2 || tdKind d == 4 || tdKind d == 5 ||
      decide (4096 ≤ ((List.range r).filter fun q => tdGroup (imTask b q) == g).length))

/-- Second check of R274: an edge that joins two members of one group. -/
def checkGroupEdges (b : List Byte) : Option Nat :=
  (List.range (ihEdges b)).find? fun e =>
    let g := tdGroup (imTask b (predOf b e))
    decide (g ≠ 0) && tdGroup (imTask b (imSucc b e)) == g

/-- Whether the digest of an image is the one that the command names (check 2 of R205). -/
def digestOk (b : List Byte) (digest : List Byte) : Bool :=
  (sha256 (toNats b)).take 24 == toNats digest

/-- Installs the tasks, edges and counters of an image in its blocks (R206). -/
def installTables (s : State) (x : Img) (b : List Byte) : State :=
  let tasks := (List.range (ihTasks b)).foldl
    (fun t r => tput t (physTask x r) (imTask b r)) s.tge.tasks
  let edges := (List.range (ihEdges b)).foldl
    (fun t e => tput t (physEdge x e) (imEdge b e)) s.tge.edges
  let word := fun r => counterWord false (tdInCount (imTask b r)) 0
  let put := fun t => (List.range (ihTasks b)).foldl (fun t r => tput t (physTask x r) (word r)) t
  { s with tge := { s.tge with
      tasks := tasks, edges := edges, cntA := put s.tge.cntA, cntB := put s.tge.cntB } }

/-- The first `n` bytes of an image are streamed into its blocks (step 1 of R206): descriptors and edge words,
and COUNT = INIT − WAIT_VALID in both counter copies. With `dry` the dry pass has begun: how far a pass that
fails has lowered the counts the spec leaves open. -/
def streamTables (s : State) (x : Img) (b : List Byte) (n : Nat) (dry : Bool) : State :=
  let rs := (List.range x.tasks).filter fun r => decide (256 + 64 * (r + 1) ≤ n)
  let off := 256 + 64 * x.tasks
  let es := (List.range x.edges).filter fun e => decide (off + 4 * (e + 1) ≤ n)
  let (d, s) := draw s
  let word := fun r =>
    let k := imTask b r
    counterWord false (tdInCount k)
      (if dry then Config.freeCell d r else tdInCount k - b2n (tdWaitValid k))
  let put := fun t => rs.foldl (fun t r => tput t (physTask x r) (word r)) t
  { s with tge := { s.tge with
      tasks := rs.foldl (fun t r => tput t (physTask x r) (imTask b r)) s.tge.tasks
      edges := es.foldl (fun t e => tput t (physEdge x e) (leAt b (off + 4 * e) 4)) s.tge.edges
      cntA := put s.tge.cntA, cntB := put s.tge.cntB } }

/-- Clears the tasks, edges and counters of an image (R218). -/
def clearTables (s : State) (x : Img) : State :=
  let inT := fun t : Nat => x.tblk.contains (t / 1024)
  { s with tge := { s.tge with
      tasks := tfilter (fun k _ => !inT k) s.tge.tasks
      edges := tfilter (fun k _ => !x.eblk.contains (k / 8192)) s.tge.edges
      cntA := tfilter (fun k _ => !inT k) s.tge.cntA
      cntB := tfilter (fun k _ => !inT k) s.tge.cntB } }

/-- Successors of a task, as physical IDs in ascending edge index (R192). -/
def successors (s : State) (x : Img) (t : Nat) : List Nat :=
  let d := descOf s t
  (rangeFrom (tdEdgeBase d) (tdOutCount d)).map fun e =>
    physTask x (fld (tget 0 s.tge.edges (physEdge x e)) 31 15)

/-- Decrements appended to the banks' queues. -/
def pushDecs (s : State) (l : List Dec) : State :=
  { s with tge := { s.tge with decQ := s.tge.decQ ++ l } }

/-! ### Step notes (R290) -/

/-- A condition of order `k` noted for a step: the earliest stamp stands, and among equal stamps the
lowest task. -/
def noteStep (s : State) (i k task cause : Nat) : State :=
  match stepOf s i with
  | none => s
  | some x =>
    let n : Note := { stamp := s.gtb.now, task := task, cause := cause }
    let keep := match tget? x.notes k with
      | none => n
      | some o => if o.stamp = n.stamp && task < o.task then n else o
    setStep s i { x with notes := tput x.notes k keep }

end Sys2Proof.Machine
end

