-- ==== Sys2Proof/Machine/Trace.lean ====
section
/-! DEFINITION. Trace records and the queues that carry them (R642-R651). -/

namespace Sys2Proof.Machine

open Sys2Proof

/-- A 64-bit counting register raised by `n`. -/
def addCount (s : State) (off n : Nat) : State :=
  { s with counts := tput s.counts off ((tget 0 s.counts off + n) % 2 ^ 64) }

/-- TYPE of the records, under R646. -/
def recBegin : Nat := 1
def recSched : Nat := 2
def recEnd : Nat := 3
def recLoss : Nat := 4
def recFull : Nat := 5
def recClock : Nat := 6
def recKilled : Nat := 7
def recDebug : Nat := 8

/-- Whether TYPES admits a record type: LOSS, FULL_STAMP and DEBUG always (R642). -/
def typeWanted (s : State) (type : Nat) : Bool :=
  let t := reg s 0xA80018
  if type = recBegin || type = recEnd then bitAt t 0
  else if type = recSched then bitAt t 1
  else if type = recClock then bitAt t 2
  else if type = recKilled then bitAt t 3
  else true

/-- Whether CTX_MASK admits a context. -/
def ctxWanted (s : State) (c : Nat) : Bool :=
  bitAt (reg s 0xA80010 + 2 ^ 32 * reg s 0xA80014) c

/-- Whether a record of a type that names a context is generated (R642). -/
def traceWants (s : State) (type c : Nat) : Bool := s.trc.on && typeWanted s type && ctxWanted s c

/-- A LOSS record (R649). -/
def lossRec (stamp count field source : Nat) : Nat :=
  stamp + recLoss * 2 ^ 42 + min count (2 ^ 32 - 1) * 2 ^ 46 + field * 2 ^ 78 + source * 2 ^ 81

/-- The LOSS record that is due goes into the cellar trace queue, where there is room (R651). -/
def dueCel (s : State) : State :=
  if decide (0 < s.trc.celLost) && decide (s.trc.celQ.length < 1024) then
    let r := lossRec (cellarStamp s) s.trc.celLost 0 0x1FF
    { s with trc := { s.trc with celQ := s.trc.celQ ++ [r], celLost := 0 } }
  else s

/-- A record into the cellar trace queue (R651): the LOSS record that is due goes first. -/
def traceCel (s : State) (rec : Nat) : State :=
  let s := dueCel s
  if s.trc.celQ.length < 1024 then { s with trc := { s.trc with celQ := s.trc.celQ ++ [rec] } }
  else
    let s := queueOverrun s 0xA80030 1
    { s with trc := { s.trc with celLost := s.trc.celLost + 1 } }

/-- Field and SOURCE of a source of field records: a core agent, a REX from 8192 on (by the lowest
core of its cluster), a field controller from 16384 on. -/
def srcPlace (src : Nat) : Nat × Nat :=
  if src < 8192 then (fieldOfCore src, src % Config.coresPerField)
  else if src < 16384 then (fieldOfRex (src - 8192), (src - 8192) * 32 % Config.coresPerField)
  else (src - 16384, 0x1FF)

/-- Stretches of the field clock at the previous stamp of a source's own counter (R106). -/
def srcSeen (s : State) (src : Nat) : Nat :=
  if src < 8192 then (tget {} s.disp.cores src).stamped
  else if src < 16384 then (tget {} s.disp.rex (src - 8192)).stamped
  else (tget {} s.clk (src - 16384)).stamped

/-- The quality of the next stamp of a source's own counter (R105, R106). -/
def srcQ (s : State) (src : Nat) : Nat := fieldQ s (srcPlace src).1 (srcSeen s src)

/-- The trace stamp that a source's own counter gives (R106, R107, R109). -/
def srcStamp (s : State) (src : Nat) : Nat := stampOf (srcQ s src) (fieldNs s (srcPlace src).1)

/-- A source's own counter has given a stamp. -/
def markSrcStamp (s : State) (src : Nat) : State :=
  let n := (tget {} s.clk (srcPlace src).1).stretches
  if src < 8192 then
    { s with disp := { s.disp with cores := tmod {} s.disp.cores src fun c => { c with stamped := n } } }
  else if src < 16384 then
    { s with disp := { s.disp with rex := tmod {} s.disp.rex (src - 8192) fun r => { r with stamped := n } } }
  else markFieldStamp s (src - 16384)

/-- The LOSS record that is due goes into the trace buffer of a core agent or REX, stamped by its own
counter. -/
def dueSrc (s : State) (src : Nat) : State :=
  let q := tget [] s.trc.bufs src
  let lost := tget 0 s.trc.lost src
  if decide (0 < lost) && decide (q.length < 256) then
    let p := srcPlace src
    let r := lossRec (srcStamp s src) lost p.1 p.2
    markSrcStamp { s with trc := { s.trc with
        bufs := tput s.trc.bufs src (q ++ [r])
        lost := tdel s.trc.lost src } } src
  else s

/-- A record of a core agent or REX, stamped by its own counter, into its trace buffer (R651); `body` is the
record without its stamp. -/
def traceSrc (s : State) (src body : Nat) : State :=
  let s := dueSrc s src
  let q := tget [] s.trc.bufs src
  let r := srcStamp s src + body
  let s := markSrcStamp s src
  if q.length < 256 then { s with trc := { s.trc with bufs := tput s.trc.bufs src (q ++ [r]) } }
  else
    let s := addReg s 0xA8001C 1
    { s with trc := { s.trc with lost := tput s.trc.lost src (tget 0 s.trc.lost src + 1) } }

/-- The LOSS record that is due goes into the trace write queue of a field with a stamp of the field
controller. -/
def dueFieldAt (s : State) (f stamp : Nat) : State :=
  let src := 16384 + f
  let q := tget [] s.trc.fldQ f
  let lost := tget 0 s.trc.lost src
  if decide (0 < lost) && decide (q.length < 256) then
    markFieldStamp { s with trc := { s.trc with
        fldQ := tput s.trc.fldQ f (q ++ [lossRec stamp lost f 0x1FF])
        lost := tdel s.trc.lost src } } f
  else s

/-- The LOSS record of a field controller that is due, stamped now. -/
def dueField (s : State) (f : Nat) : State := dueFieldAt s f (fieldStamp s f)

/-- Every LOSS record that is due in a field and finds room goes into its queue (R44). -/
def duesOf (s : State) (f : Nat) : State :=
  (s.trc.lost.map fun e => e.1).foldl (fun s src =>
    if (srcPlace src).1 = f then (if src < 16384 then dueSrc s src else dueField s f) else s) s

/-- A record of a field controller, made with its stamp, into its trace write queue of 256 records (R651); a
LOSS record that is due takes the same stamp. -/
def traceField (s : State) (f stamp body : Nat) : State :=
  let src := 16384 + f
  let s := dueFieldAt s f stamp
  let r := stamp + body
  let q := tget [] s.trc.fldQ f
  if q.length < 256 then { s with trc := { s.trc with fldQ := tput s.trc.fldQ f (q ++ [r]) } }
  else
    let s := queueOverrun s (0xA80200 + f * 0x10) 1
    { s with trc := { s.trc with lost := tput s.trc.lost src (tget 0 s.trc.lost src + 1) } }

/-- The flushes in progress no longer wait for one record at the head of queue `k`. -/
def flushTake (s : State) (k : Nat) : State :=
  { s with trc := { s.trc with flushes := s.trc.flushes.map fun e =>
      (e.1, match tget 0 e.2 k with
        | 0 | 1 => tdel e.2 k
        | n => tput e.2 k (n - 1)) } }

/-- TRC's RUNNING bit (R666): from START to the end of a STOP. -/
def trcRuns (s : State) : Bool := regBit s 0xA80000 31

/-! ### RDY's decisions in stamp order (R251, R645) -/

/-- Records of RDY whose place is known and that stand behind an earlier decision. -/
def heldRecs (s : State) : Nat := (s.trc.sched.filter fun h => h.entry.isSome).length

/-- One held record enters the cellar trace queue; a flush that waits for it goes on waiting for it there. -/
def passHeld (s : State) (rec : Nat) : State :=
  let s := traceCel s rec
  let n := s.trc.celQ.length
  flushTake { s with trc := { s.trc with
      flushes := s.trc.flushes.map fun e => if thas e.2 16393 then (e.1, tput e.2 16392 n) else e } } 16393

/-- The decisions go out in their order up to the first that still waits for its place; one whose run was never placed
leaves no record. -/
def passSched (s : State) : List SchedHold → State
  | [] => { s with trc := { s.trc with sched := [] } }
  | h :: l => match h.entry with
    | some r => passSched (passHeld s r) l
    | none => match tget? s.disp.runs h.run with
      | some x => if x.state = 0 then { s with trc := { s.trc with sched := h :: l } } else passSched s l
      | none => passSched s l

/-- A decision of RDY whose record waits for the place of its run (R642). -/
def holdSched (s : State) (c run : Nat) : State :=
  if traceWants s recSched c then
    { s with trc := { s.trc with sched := s.trc.sched ++ [{ run := run }] } }
  else s

/-- A decision record of RDY that waits for nothing itself. -/
def traceSched (s : State) (c rec : Nat) : State :=
  if traceWants s recSched c then passSched s (s.trc.sched ++ [{ run := 0, entry := some rec }]) else s

/-- The record of a decision whose run has taken its place. -/
def fillSched (s : State) (run rec : Nat) : State :=
  let mine : SchedHold → Bool := fun h => h.run == run && h.entry.isNone
  passSched s (if s.trc.on then modWhere mine (fun h => { h with entry := some rec }) s.trc.sched
    else s.trc.sched.filter fun h => !mine h)

/-- A DEBUG record (R649, R663). -/
def traceDebug (s : State) (c kind what value : Nat) : State :=
  if s.trc.on then
    traceCel s (cellarStamp s + recDebug * 2 ^ 42 + c * 2 ^ 46 + kind * 2 ^ 52 + what * 2 ^ 56 +
      value % 2 ^ 32 * 2 ^ 96)
  else s

/-- The fields that BEGIN, END and KILLED records share (R647): context, task, place and rerun
count. -/
def placeBits (ctx task field core engine slot rerun : Nat) : Nat :=
  ctx * 2 ^ 46 + task * 2 ^ 52 + field * 2 ^ 69 + core * 2 ^ 72 + engine * 2 ^ 81 + slot * 2 ^ 84 +
  min rerun 7 * 2 ^ 86

end Sys2Proof.Machine
end

