-- ==== Sys2Proof/Machine/Rdy.lean ====
section
/-! DEFINITION. Ready lists, parcels as RDY sees them, the choice of engines, and scheduling
decisions (R221-R251, R534-R535). -/

namespace Sys2Proof.Machine

open Sys2Proof

/-! ### Runs and fields -/

/-- A commit record replaced. -/
def setRun (s : State) (r : Nat) (x : Run) : State :=
  { s with disp := { s.disp with runs := tput s.disp.runs r x } }

/-- A commit record changed. -/
def modRun (s : State) (r : Nat) (f : Run → Run) : State :=
  match runOf s r with
  | some x => setRun s r (f x)
  | none => s

/-- A commit record freed. -/
def dropRun (s : State) (r : Nat) : State :=
  { s with disp := { s.disp with runs := tdel s.disp.runs r } }

/-- The queues of a field's vertical link. -/
def fieldOf (s : State) (f : Nat) : Field := tget {} s.disp.fields f

/-- A field's queues replaced. -/
def setField (s : State) (f : Nat) (x : Field) : State :=
  { s with disp := { s.disp with fields := tput s.disp.fields f x } }

/-- The translation responses at the head of a field's GRANT queue reach its translation port: records of one class
and field keep their order, and a field whose clock is stopped takes none (R17, R20). -/
def deliverDown (s : State) (f : Nat) : State :=
  let q := (fieldOf s f).grantQ
  let words := (q.takeWhile GrantItem.isResp).filterMap fun i => match i with
    | .resp w => some ({ field := f, word := w } : XltResp)
    | _ => none
  if words.isEmpty || fieldStopped s f then s
  else
    let s := setField s f { fieldOf s f with grantQ := q.dropWhile GrantItem.isResp }
    { s with pat := { s.pat with resps := s.pat.resps ++ words } }

/-- A record enters a field's GRANT queue. -/
def grantDown (s : State) (f : Nat) (i : GrantItem) : State :=
  let q := fieldOf s f
  deliverDown (setField s f { q with grantQ := q.grantQ ++ [i] }) f

/-- A core. -/
def coreOf (s : State) (n : Nat) : CoreSt := tget {} s.disp.cores n

/-- A core replaced. -/
def setCore (s : State) (n : Nat) (x : CoreSt) : State :=
  { s with disp := { s.disp with cores := tput s.disp.cores n x } }

/-- FIELD_READY of a field. -/
def fieldReady (s : State) (f : Nat) : Bool :=
  decide (f < Config.numFields) && (fieldOf s f).train == 2

/-- Whether RDY may use a field's cores (R48, R49, R61). -/
def fieldOpen (s : State) (f : Nat) : Bool :=
  fieldReady s f && !(fieldOf s f).offReq && !s.disp.coreRst

/-! ### Parcels (R534, R535) -/

/-- The parcel to which a context is bound. -/
def parcelOf (s : State) (c : Nat) : Nat := tget 0 s.psm.bound c

/-- A parcel's clusters as a mask. -/
def parcelMask (s : State) (p : Nat) : Nat := (tget {} s.psm.parcels p).clusters

/-- The clusters of a mask. -/
def clustersOf (mask : Nat) : List Nat := (List.range Config.numRex).filter fun k => bitAt mask k

/-- Whether a context may use a cluster: it is in the parcel and not closed to it (R539). -/
def ctxHas (s : State) (c k : Nat) : Bool :=
  bitAt (parcelMask s (parcelOf s c)) k && !bitAt (tget 0 s.psm.closed c) k

/-- The n-th core of a context's parcel (R234). -/
def parcelCore (s : State) (c n : Nat) : Option Nat :=
  (clustersOf (parcelMask s (parcelOf s c)))[n / 32]?.map fun k => k * 32 + n % 32

/-- T1 state of a context (R563). -/
def t1State (s : State) (c : Nat) : Nat := tget 0 s.psm.t1 c

/-- Base of a context's PSM block. -/
def psmCtx (c : Nat) : Nat := 0x801000 + c * 0x40

/-- Active RUN of a context (R551). -/
def ctxRun (s : State) (c : Nat) : Bool := bitAt (policy s (psmCtx c + 8)) 31

/-- Active weight of a context. -/
def ctxWeight (s : State) (c : Nat) : Nat := fld (policy s (psmCtx c + 4)) 15 0

/-- Whether a context's model is resident (R535, R558). -/
def modelHere (s : State) (c : Nat) : Bool :=
  let m := tget 0 s.psm.model c
  decide (m = 0) || (decide (m = s.psm.resident) && !s.psm.switching)

/-- Whether RDY may place tasks of a context (R535, R615, R629). -/
def placeableCtx (s : State) (c : Nat) : Bool :=
  decide (parcelOf s c ≠ 0) && decide (t1State s c = 0) && ctxRun s c && modelHere s c &&
  !s.saf.safe && !thas s.saf.recov c

/-! ### Engines (R228, R231, R239) -/

/-- A place that a task takes: an engine of a core (`kind` below 3) or a REX; a staged task takes a
slot only. -/
structure Place where
  kind : Nat
  core : Nat
  engine : Nat
  staged : Bool
  deriving DecidableEq, Repr

/-- Engines of a kind in every core, lowest index first. -/
def enginesOf (s : State) (kind : Nat) : List Nat :=
  (List.range 6).filter fun e => regFld s 0x400008 (3 * e + 2) (3 * e) == kind

/-- The places taken at the core agents and REX units: staged, waiting for their clock, running. -/
def livePlaces (s : State) : List Place :=
  (s.disp.runs.filter fun e => 1 ≤ e.2.state && e.2.state ≤ 3).map fun e =>
    { kind := e.2.kind, core := e.2.core, engine := e.2.engine, staged := e.2.state == 1 }

/-- The ending slots of the core agents (R239): END has been seen, and the COMPLETE record still waits. The
engine, which place 8 stands for none of, is free. -/
def endingPlaces (s : State) : List Place :=
  (s.disp.fields.flatMap fun f => f.2.cplQ).filterMap fun i =>
    if i.kind = 3 then none else some { kind := i.kind, core := i.core, engine := 8, staged := false }

/-- The places taken as the field controllers see them. -/
def fieldPlaces (s : State) : List Place := livePlaces s ++ endingPlaces s

/-- The places that RDY still counts busy because their COMPLETE record has not arrived (R232). -/
def cplPlaces (s : State) (f : Nat) : List Place :=
  (fieldOf s f).cplQ.map fun i => { kind := i.kind, core := i.core, engine := i.engine, staged := false }

/-- Whether an engine is busy. -/
def engineBusy (ps : List Place) (n e : Nat) : Bool :=
  ps.any fun p => p.kind != 3 && p.core == n && p.engine == e && !p.staged

/-- Slots in use on a core. -/
def slotsUsed (ps : List Place) (n : Nat) : Nat :=
  (ps.filter fun p => p.kind != 3 && p.core == n).length

/-- Tasks staged on a core. -/
def stagedOn (ps : List Place) (n : Nat) : Nat :=
  (ps.filter fun p => p.kind != 3 && p.core == n && p.staged).length

/-- The lowest free engine of a kind on a core that a context may use. -/
def freeEngine (s : State) (ps : List Place) (c kind n : Nat) : Option Nat :=
  if ctxHas s c (n / 32) && !(coreOf s n).failed && decide (slotsUsed ps n < 4) then
    (enginesOf s kind).find? fun e => !engineBusy ps n e
  else none

/-- Whether a REX is free for a context. -/
def freeRex (s : State) (ps : List Place) (c k : Nat) : Bool :=
  let x := tget {} s.disp.rex k
  ctxHas s c k && !x.failed && !x.offline &&
  !(ps.any fun p => p.kind == 3 && p.core == k && !p.staged)

/-- The place that R231 gives in a field: the lowest-index core and engine, or REX. -/
def firstFree (s : State) (ps : List Place) (c kind f : Nat) : Option (Nat × Nat) :=
  if kind = 3 then
    ((rangeFrom (f * Config.rexPerField) Config.rexPerField).find? fun k => freeRex s ps c k).map
      fun k => (k, 7)
  else
    (rangeFrom (f * Config.coresPerField) Config.coresPerField).findSome? fun n =>
      (freeEngine s ps c kind n).map fun e => (n, e)

/-- The place for a task that the graph map or PSM ties to a core (R234, R556). -/
def mappedFree (s : State) (ps : List Place) (c kind n : Nat) : Option (Nat × Nat) :=
  if kind = 3 then (if freeRex s ps c (n / 32) then some (n / 32, 7) else none)
  else (freeEngine s ps c kind n).map fun e => (n, e)

/-- The places of a field once every record of its DISPATCH queue has been placed. -/
def placeAhead (s : State) (f : Nat) : List DispItem → List Place → List Place
  | [], ps => ps
  | .withdraw _ :: q, ps => placeAhead s f q ps
  | .start r :: q, ps =>
    match runOf s r with
    | none => placeAhead s f q ps
    | some x =>
      let at_ : Option (Nat × Nat) :=
        if x.staged || x.mapped.isSome then some (x.core, x.engine) else firstFree s ps x.ctx x.kind f
      match at_ with
      | none => placeAhead s f q ps
      | some (n, e) =>
        placeAhead s f q (ps ++ [{ kind := x.kind, core := n, engine := e, staged := x.staged }])

/-- Every WITHDRAW record on its way. -/
def withdrawals (s : State) : List Withdrawal :=
  (s.disp.fields.flatMap fun f => f.2.dispQ).filterMap fun i => match i with
    | .withdraw w => some w
    | .start _ => none

/-- The engines of a field that withdrawals on their way keep for their tasks (R238). -/
def keptPlaces (s : State) (f : Nat) : List Place :=
  ((withdrawals s).filter fun w => w.field == f).map fun w =>
    { kind := w.task.kind, core := w.core, engine := w.engine, staged := false }

/-- The places of a field as RDY counts them (R232). -/
def rdyPlaces (s : State) (f : Nat) : List Place :=
  placeAhead s f (fieldOf s f).dispQ (livePlaces s ++ cplPlaces s f ++ keptPlaces s f)

/-! ### Ready entries (R221-R226, R229) -/

/-- RAISE that an active raise entry gives a layer (R225). -/
def raiseOf (s : State) (c layer k : Nat) : Nat :=
  let e := policy s (0x301000 + c * 0x40 + k * 4)
  if fld e 31 22 ≤ layer && layer ≤ fld e 21 12 then fld e 11 0 else 0

/-- Effective rank of a task (R225). -/
def effRank (s : State) (c : Nat) (d : List Byte) : Nat :=
  let most := if tdLayer d < 1024 then
      (List.range 16).foldl (fun m k => max m (raiseOf s c (tdLayer d) k)) 0
    else 0
  min (tdRank d + most) 65535

/-- Home field of a task that is made ready (R229). -/
def homeField (s : State) (c t : Nat) (pred : Option Nat) : Nat :=
  let d := descOf s t
  let hit := if tdDataPage d = 0 then none else cachedStack s c (tdDataPage d)
  match hit with
  | some st => stackField s st
  | none =>
    match pred with
    | some f => f
    | none => t % Config.numFields

/-- A ready entry for a task of image record `i` (R222, R223). -/
def readyEntry (s : State) (i c t : Nat) (pred msg : Option Nat) : Ready :=
  let d := descOf s t
  { ctx := c, img := i, task := t, prio := tdPrio d, kind := tdDemand d, rank := effRank s c d,
    order := s.disp.order, home := homeField s c t pred, msg := msg, since := s.gtb.now }

/-- An entry into RDY with a new entry order. -/
def pushReady (s : State) (r : Ready) : State :=
  { s with disp := { s.disp with
      ready := s.disp.ready ++ [{ r with order := s.disp.order }]
      order := s.disp.order + 1 } }

/-- An entry into RDY that keeps its entry order (R224); it takes the effective rank that holds as it enters
(R226). -/
def backReady (s : State) (r : Ready) : State :=
  { s with disp := { s.disp with ready := s.disp.ready ++ [{ r with rank := effRank s r.ctx (descOf s r.task) }] } }

/-- The rerun entry of a run (R281): `again` raises its rerun count. Its home field is that in which the run ran or was
staged (R229); of a run that neither ran nor was staged, its DISPATCH record being still in its queue, the field to
which it was sent (DESIGN CHOICE, log entry 39). -/
def rerunEntry (s : State) (x : Run) (again interlock : Bool) : Ready :=
  { ctx := x.ctx, img := x.img, task := x.task, prio := x.prio, kind := x.kind, rank := x.rank,
    order := x.order, home := x.field, reruns := if again then x.reruns + 1 else x.reruns,
    interlock := interlock, msg := x.msg, since := s.gtb.now,
    t1 := if x.t1 then x.mapped else none, again := true }

/-! ### Scheduling decisions (R251) -/

/-- Bits of a scheduling-decision record. -/
def decisionRec (stamp : Nat) (late : Bool) (ctx task prio rank field core slot engine reason wait : Nat) :
    Nat :=
  stamp + recSched * 2 ^ 42 + b2n late * 2 ^ 46 + ctx * 2 ^ 47 + task * 2 ^ 53 + prio * 2 ^ 70 +
  rank * 2 ^ 73 + field * 2 ^ 89 + core * 2 ^ 92 + slot * 2 ^ 101 + engine * 2 ^ 103 +
  reason * 2 ^ 106 + min wait 262143 * 2 ^ 109

/-- WAIT of a decision: cc from the entry into RDY, at 2,048 time units each. -/
def waitCc (s : State) (since : Nat) : Nat := (s.gtb.now - since) / 2048

/-- Core index within the field, for a core or the lowest core of a REX's cluster. -/
def coreIndex (kind n : Nat) : Nat :=
  if kind = 3 then n * 32 % Config.coresPerField else n % Config.coresPerField

/-- The decision record of a run in the place that it has. -/
def runRec (x : Run) (reason : Nat) : Nat :=
  decisionRec x.decided false x.ctx x.task x.prio x.rank x.field (coreIndex x.kind x.core) x.slot x.engine reason x.wait

/-- The decision record of a run as it is placed or staged; RDY's records keep the order of their stamps (R645). -/
def traceRun (s : State) (id : Nat) (x : Run) : State := fillSched s id (runRec x x.reason)

/-- The bits of a record of an entry's entry into TMR, release from it or removal: no place. -/
def entryRec (s : State) (ctx task prio rank since : Nat) (late : Bool) (reason : Nat) : Nat :=
  decisionRec (cellarStamp s) late ctx task prio rank 0 0 0 0 reason (waitCc s since)

/-- A record that TMR writes. -/
def traceTimer (s : State) (ctx task prio rank since : Nat) (late : Bool) (reason : Nat) : State :=
  if traceWants s recSched ctx then traceCel s (entryRec s ctx task prio rank since late reason) else s

/-- The record of an entry's removal from RDY. -/
def traceEntry (s : State) (ctx task prio rank since : Nat) (late : Bool) (reason : Nat) : State :=
  traceSched s ctx (entryRec s ctx task prio rank since late reason)

/-! ### Choice (R227, R230, R234-R236) -/

/-- The image core number of a task in a REPRO step (R234). -/
def mapEntry (s : State) (r : Ready) : Option Nat :=
  match stepOf s r.img, imgOf s r.img with
  | some st, some x => if st.launch.repro then some (x.map.getD (relTask x r.task) 0) else none
  | _, _ => none

/-- The core that an entry is tied to: none when it may go anywhere. -/
def tiedCore (s : State) (r : Ready) : Option (Option Nat) :=
  match r.t1 with
  | some n => some (some n)
  | none => (mapEntry s r).map fun n => parcelCore s r.ctx n

/-- The core, with its step, that an entry of a REPRO step waits for (R234, R235). -/
def mapGroup (s : State) (r : Ready) : Option (Nat × Option Nat) :=
  if r.t1.isSome then none else (mapEntry s r).map fun n => (r.img, parcelCore s r.ctx n)

/-- Whether entry `a` goes before `b` where both wait for one mapped core (R235). -/
def mapBefore (a b : Ready) : Bool :=
  decide (a.prio < b.prio) || (a.prio == b.prio &&
    (decide (b.rank < a.rank) || (a.rank == b.rank && decide (a.task < b.task))))

/-- Entries that RDY may look at: no delay, and the context placeable or the entry a T1 run. -/
def eligible (s : State) (kind : Nat) : List Ready :=
  s.disp.ready.filter fun r => r.kind == kind && r.due.isNone &&
    (if r.t1.isSome then !s.saf.safe && !thas s.saf.recov r.ctx else placeableCtx s r.ctx)

/-- How a task is sent: the field, its place where RDY decides it, whether it is staged, and the
REASON of R251. -/
structure Choice where
  field : Nat
  place : Option (Nat × Nat)
  staged : Bool
  reason : Nat
  deriving DecidableEq, Repr

/-- The engine of a kind on a core whose running command began earliest (R236); where none of them runs a command yet,
each being on its way or waiting for its clock, the lowest index (DESIGN CHOICE, log entry 39). -/
def busiestLongest (s : State) (kind n : Nat) : Option Nat :=
  let startOf := fun e : Nat => (s.disp.runs.findSome? fun q =>
    if q.2.kind == kind && q.2.core == n && q.2.engine == e && q.2.state == 3 then some q.2.start else none)
  (enginesOf s kind).foldl (fun best e => match best with
    | none => some e
    | some b => match startOf b, startOf e with
      | some x, some y => if y < x then some e else some b
      | none, some _ => some e
      | _, none => some b) none

/-- A staging place in a field (R236). -/
def stagePlace (s : State) (ps : List Place) (c kind f : Nat) : Option (Nat × Nat) :=
  let n := regFld s 0x300000 1 0
  if n = 0 then none
  else if kind = 3 then
    ((rangeFrom (f * Config.rexPerField) Config.rexPerField).find? fun k =>
      ctxHas s c k && !(tget {} s.disp.rex k).failed && !(tget {} s.disp.rex k).offline &&
      !(ps.any fun p => p.kind == 3 && p.core == k && p.staged)).map fun k => (k, 7)
  else
    (rangeFrom (f * Config.coresPerField) Config.coresPerField).findSome? fun m =>
      if ctxHas s c (m / 32) && !(coreOf s m).failed && decide (slotsUsed ps m < 4) &&
          decide (stagedOn ps m < n) then
        (busiestLongest s kind m).map fun e => (m, e)
      else none

/-- The field, and the place where it is tied or staged, that RDY chooses for an entry now. -/
def choose (s : State) (r : Ready) : Option Choice :=
  match tiedCore s r with
  | some none => none
  | some (some n) =>
    let f := fieldOfCore n
    if !fieldOpen s f then none
    else (mappedFree s (rdyPlaces s f) r.ctx r.kind n).map fun p =>
      { field := f, place := some p, staged := false, reason := 1 }
  | none =>
    let order := (fieldOrder r.home).filter fun f => fieldOpen s f
    match order.find? fun f => (firstFree s (rdyPlaces s f) r.ctx r.kind f).isSome with
    | some f => some { field := f, place := none, staged := false, reason := 0 }
    | none =>
      order.findSome? fun f => (stagePlace s (rdyPlaces s f) r.ctx r.kind f).map fun p =>
        { field := f, place := some p, staged := true, reason := 2 }

/-- Before in a ready list: higher rank, then lower entry order (R223). -/
def listBefore (a b : Ready) : Bool :=
  decide (b.rank < a.rank) || (a.rank == b.rank && decide (a.order ≤ b.order))

/-- Among the entries of one class and kind, those of a REPRO step that wait for one mapped core take their
places in the order of R235. -/
def byMap (s : State) (l : List Ready) : List Ready :=
  l.foldl (fun acc r => match mapGroup s r with
    | none => acc ++ [r]
    | some g =>
      let mine := sortBy (fun a b : Ready => !mapBefore b a) (l.filter fun q => mapGroup s q == some g)
      acc ++ [(mine.find? fun q => !acc.contains q).getD r]) []

/-- A context's entries of a kind in its lowest non-empty class, in list order. -/
def frontList (s : State) (c kind : Nat) : List Ready :=
  let l := (eligible s kind).filter fun r => r.ctx == c
  match l.map fun r => r.prio with
  | [] => []
  | p :: ps =>
    let least := ps.foldl min p
    byMap s (sortBy listBefore (l.filter fun r => r.prio == least))

/-- Whether a context holds a placeable task of a kind. -/
def hasPlaceable (s : State) (c kind : Nat) : Bool :=
  (eligible s kind).any fun r => r.ctx == c && (choose s r).isSome

/-- GTB_FLD_LOST of a field. -/
def fldLost (s : State) (f : Nat) : Nat := reg s (0x900100 + 4 * f)

/-- The cc edge at which the counter of a field reached the policy-tick boundary that has yet to be taken. -/
def fieldEdge (s : State) (f : Nat) : Option Nat :=
  let k := tget {} s.clk f
  if k.behind then none else if k.tickEdge.isSome then k.tickEdge else s.gtb.tickEdge

/-- The cc edges of a command since its last charge (R545): those stamped before the policy-tick boundary that comes
next, those stamped at or after it (R111), and those that its field's clock lost (R108). -/
def dueEdges (s : State) (x : Run) : Nat × Nat × Nat :=
  let total := 2 * s.gtb.cclk - x.chargedTo
  let lost := fldLost s x.field - x.lost
  match fieldEdge s x.field with
  | none => (total - min total lost, 0, min total lost)
  | some e =>
    let late := min total (2 * s.gtb.cclk - e)
    let early := total - late
    let gone := min early (min lost ((tget {} s.clk x.field).edgeLost - x.lost))
    let goneLate := min late (lost - gone)
    (early - gone, late - goneLate, gone + goneLate)

/-- USE of a context in a demand kind: what the current tick has charged so far, the running commands up to
now included (R227, R545). -/
def useOf (s : State) (c kind : Nat) : Nat :=
  let late := pastBoundary s
  s.disp.runs.foldl (fun n e =>
    if e.2.ctx = c && e.2.kind = kind && e.2.state = 3 then
      n + (if late then (dueEdges s e.2).2.1 else (dueEdges s e.2).1)
    else n)
    (tget 0 (if late then s.psm.next else s.psm.tally).use (4 * c + kind))

/-- The context of a parcel that RDY serves first (R227). -/
def bestCtx (s : State) (p kind : Nat) : Option Nat :=
  ((List.range 64).filter fun c => parcelOf s c == p && hasPlaceable s c kind).foldl (fun best c => match best with
    | none => some c
    | some b =>
      if useOf s c kind * ctxWeight s b < useOf s b kind * ctxWeight s c then some c else some b) none

/-- The next dispatch of a kind in a parcel, among fields with dispatches left. -/
def nextDispatch (s : State) (left : List Nat) (p kind : Nat) : Option (Ready × Choice) :=
  match bestCtx s p kind with
  | none => none
  | some c =>
    ((frontList s c kind).take 16).findSome? fun r =>
      match choose s r with
      | some ch => if 0 < left.getD ch.field 0 then some (r, ch) else none
      | none => none

/-- Whether two ready entries are the same. -/
def sameEntry (a b : Ready) : Bool := a.img == b.img && a.task == b.task && a.msg == b.msg && a.t1 == b.t1

/-- The run that an entry becomes as it is sent. -/
def newRun (s : State) (r : Ready) (ch : Choice) : Run :=
  let d := descOf s r.task
  let st := stepOf s r.img
  let img := imgOf s r.img
  let vint := if r.t1.isSome then (match img with | some x => x.last | none => 0)
    else match st with | some x => x.launch.vint | none => 0
  let seed := if r.t1.isSome then 0 else match st with | some x => x.launch.seed | none => 0
  let place := ch.place.getD (0, 0)
  { ctx := r.ctx, img := r.img, task := r.task, taskKind := tdKind d, prio := r.prio, kind := r.kind,
    rank := r.rank, order := r.order, reruns := r.reruns, interlock := r.interlock, msg := r.msg,
    vint := vint, seed := seed, state := 0, field := ch.field, core := place.1, engine := place.2,
    mapped := if ch.staged then none else ch.place.map fun _ =>
      (match tiedCore s r with | some (some n) => n | _ => place.1)
    t1 := r.t1.isSome, home := r.home, since := r.since, decided := cellarStamp s,
    reason := ch.reason, wait := waitCc s r.since, staged := ch.staged, stagedAt := s.gtb.now }

/-- An entry leaves its list and its DISPATCH record goes to the field; false when the queue is full
and the record is lost (R34, R253). -/
def sendDispatch (s : State) (r : Ready) (ch : Choice) : State × Bool :=
  let id := s.disp.nextRun
  let x := newRun s r ch
  let p := parcelOf s r.ctx
  let s := { s with
    disp := { s.disp with
      ready := s.disp.ready.filter fun q => !sameEntry q r
      runs := tput s.disp.runs id x
      nextRun := id + 1 } }
  let s := if ch.staged then s else chargeWait s p x.wait
  let s := holdSched (addCount s 0x300008 1) r.ctx id
  let s := setReg s 0x480004 (max (reg s 0x480004) s.disp.runs.length)
  let f := fieldOf s ch.field
  if f.dispQ.length < 16 then (setField s ch.field { f with dispQ := f.dispQ ++ [.start id] }, true)
  else (queueOverrun s (0x300100 + ch.field * 0x10) 1, false)

/-- Dispatches of one kind in one parcel in one CCLK; the fields whose queue lost a record are collected. -/
def dispatchKind (p kind : Nat) : Nat → List Nat → List Nat → State → State × List Nat × List Nat
  | 0, left, lost, s => (s, left, lost)
  | fuel + 1, left, lost, s =>
    match nextDispatch s left p kind with
    | none => (s, left, lost)
    | some (r, ch) =>
      if 32768 ≤ s.disp.runs.length then (setRegBit s 0x480000 30 true, left, lost)
      else
        let (s, ok) := sendDispatch s r ch
        let left := left.set ch.field (left.getD ch.field 0 - 1)
        dispatchKind p kind fuel left (if ok then lost else ch.field :: lost) s

/-- NO_KIND (R233) for a context and kind, when every core or REX of its parcel is FAILED. Of several waiting tasks the
record names the first entry of the list (DESIGN CHOICE, log entry 39). -/
def checkKind (s : State) (c kind : Nat) : State :=
  let waiting := s.disp.ready.any fun r => r.ctx == c && r.kind == kind && r.due.isNone
  let ks := clustersOf (parcelMask s (parcelOf s c))
  let none_ := ks.all fun k =>
    if kind = 3 then (tget {} s.disp.rex k).failed
    else (rangeFrom (k * 32) 32).all fun n => (coreOf s n).failed
  if waiting && !ks.isEmpty && none_ && !regBit s (0x300204 + c * 0x10) 31 then
    let s := setRegBit (setRegBit s (0x300204 + c * 0x10) 31 true) 0x300004 1 true
    let t := (s.disp.ready.find? fun r => r.ctx == c && r.kind == kind && r.due.isNone).map fun r => r.task
    record s 1 0x05 0x44 (some c) kind (c + t.getD 0 * 2 ^ 32)
  else s

/-- A free engine of a kind that a context may use: the first by the field order of R230. -/
def freePlace (s : State) (home c kind : Nat) : Option (Nat × Nat × Nat) :=
  ((fieldOrder home).filter fun f => fieldOpen s f).findSome? fun f =>
    (firstFree s (rdyPlaces s f) c kind f).map fun p => (f, p.1, p.2)

/-- The longest-waiting staged task of a kind that may be withdrawn (R238): the head of its engine's
staged tasks, not of a REPRO step, in a parcel with a free engine and no ready task of the kind. -/
def withdrawable (s : State) : Option (Nat × Run) :=
  let cand := s.disp.runs.filter fun e =>
    let x := e.2
    x.state == 1 && x.killed.isNone && !x.t1 && x.mapped.isNone && placeableCtx s x.ctx &&
    !(s.disp.runs.any fun q => q.2.state == 1 && q.2.core == x.core && q.2.engine == x.engine &&
      q.2.kind == x.kind && decide (q.2.stagedAt < x.stagedAt || (q.2.stagedAt = x.stagedAt && q.1 < e.1))) &&
    !((withdrawals s).any fun w => w.run == e.1) &&
    !(s.disp.ready.any fun r => r.kind == x.kind && r.due.isNone &&
      parcelOf s r.ctx == parcelOf s x.ctx) &&
    (freePlace s x.home x.ctx x.kind).isSome
  cand.foldl (fun best e => match best with
    | none => some e
    | some b => if e.2.stagedAt < b.2.stagedAt then some e else some b) none

/-- A WITHDRAW record is sent where R238 asks for one, and keeps the free engine for its task; a full DISPATCH
queue loses it (R34, R253), and its field is answered. One task of the whole chip is withdrawn per CCLK, and neither
its WITHDRAW record nor its new DISPATCH record counts among the two DISPATCH records of R230 (DESIGN CHOICE, log
entry 39: the spec gives no rate). -/
def sendWithdraw (s : State) : State × List Nat :=
  if regBit s 0x300000 2 then
    match withdrawable s with
    | none => (s, [])
    | some (id, x) =>
      match freePlace s x.home x.ctx x.kind with
      | none => (s, [])
      | some (g, n, e) =>
        let f := fieldOf s x.field
        let w : Withdrawal := { run := id, task := x, field := g, core := n, engine := e }
        if f.dispQ.length < 16 then (setField s x.field { f with dispQ := f.dispQ ++ [.withdraw w] }, [])
        else (queueOverrun s (0x300100 + x.field * 0x10) 1, [x.field])
  else (s, [])

/-- One CCLK of selection (R227): every demand kind in turn and within it every parcel, lowest first (the order
of the parcels is the model's, log entry 39), then the withdrawals; the fields whose DISPATCH queue lost a record
are answered. -/
def selectAll (s : State) : State × List Nat :=
  let s := (List.range 64).foldl (fun s c =>
    if (s.disp.ready.any fun r => r.ctx == c) then
      (List.range 4).foldl (fun s k => checkKind s c k) s
    else s) s
  let parcels := (s.disp.ready.map fun r => parcelOf s r.ctx).dedup
  let go := fun (a : State × List Nat × List Nat) (k : Nat) =>
    (sortBy (fun a b : Nat => decide (a ≤ b)) parcels).foldl
      (fun a p => dispatchKind p k 16 a.2.1 a.2.2 a.1) a
  let (s, _, lost) := (List.range 4).foldl go (s, List.replicate Config.numFields 2, [])
  let (s, more) := sendWithdraw s
  (s, more ++ lost)

end Sys2Proof.Machine
end

