-- ==== Sys2Proof/Machine/Point.lean ====
section
/-! DEFINITION. Commit points (R266-R268, R272): when a command, or a commit group, is ready to commit. -/

namespace Sys2Proof.Machine

open Sys2Proof

/-- Whether a command is ready to commit (R266): its COMPLETE record has reached CMT and as many effects
are registered as it states. -/
def Run.ready (x : Run) : Bool := x.stated == some x.registered && x.killed.isNone && !x.committed

/-- The commit group of a command, 0 for none; a T1 run belongs to none. -/
def groupOf (s : State) (x : Run) : Nat := if x.t1 then 0 else tdGroup (descOf s x.task)

/-- Tasks of an image with a commit group. -/
def groupSize (s : State) (img : Img) (g : Nat) : Nat :=
  ((List.range img.tasks).filter fun r => tdGroup (descOf s (physTask img r)) == g).length

/-- The ready members of a commit group of an image, in ascending physical task. -/
def groupReady (s : State) (i g : Nat) : List Nat :=
  (sortBy (fun a b : Nat × Run => decide (a.2.task ≤ b.2.task))
    (s.disp.runs.filter fun e => e.2.img == i && e.2.ready && groupOf s e.2 == g)).map fun e => e.1

/-- Commands pass their commit point together (R267, R272). -/
def passPoint (s : State) (ids : List Nat) : State :=
  let s := ids.foldl (fun s r => modRun s r fun x => { x with committed := true }) s
  { s with disp := { s.disp with readyQ := s.disp.readyQ ++ [.runs ids] } }

/-- A command that has become ready passes its commit point, alone or as the last of its group; in the
safe state none does (R629). -/
def commitPoint (s : State) (r : Nat) : State :=
  match runOf s r with
  | none => s
  | some x =>
    if !x.ready || s.saf.safe then s
    else
      let g := groupOf s x
      if g = 0 then passPoint s [r]
      else match imgOf s x.img with
        | none => s
        | some img =>
          let ids := groupReady s x.img g
          if ids.length = groupSize s img g then passPoint s ids else s

end Sys2Proof.Machine
end

