-- ==== Sys2Proof/Machine/Lnk.lean ====
section
/-! DEFINITION. Link agents (R370-R373, R379-R380): ports, flit credits and outbound buffers. -/

namespace Sys2Proof.Machine

open Sys2Proof

/-- A port. -/
def portOf (s : State) (p : Nat) : Port := tget {} s.lnk.ports p

/-- A port replaced. -/
def setPort (s : State) (p : Nat) (x : Port) : State :=
  { s with lnk := { s.lnk with ports := tput s.lnk.ports p x } }

/-- LNK_CTX_RES of a context. -/
def ctxRes (s : State) (c : Nat) : Nat := regFld s (0xB01000 + 4 * c) 10 0

/-- RES_SUM: the sum of the reservations. -/
def resSum (s : State) : Nat := (List.range 64).foldl (fun n c => n + ctxRes s c) 0

/-- Credit for `n` flits on a port, first from the context's reservation, then from the shared pool:
how many the reservation gave. None when they do not fit (R371). -/
def takeFlits (s : State) (p c n : Nat) : Option (Nat × State) :=
  let x := portOf s p
  let own := min n (ctxRes s c - tget 0 x.held c)
  if x.pool + (n - own) ≤ 2048 - resSum s || n = own then
    some (own, setPort s p { x with held := tput x.held c (tget 0 x.held c + own), pool := x.pool + (n - own) })
  else none

/-- Flit credits returned to a port (R371). -/
def giveFlits (s : State) (p c own pool : Nat) : State :=
  let x := portOf s p
  setPort s p { x with held := tput x.held c (tget 0 x.held c - own), pool := x.pool - pool }

/-- A lane-0 flit of this chip (SRC_CHIP, R370) enters its buffer, or waits in its unit when the buffer is
full (R371). -/
def sendLane0 (s : State) (f : Flit) : State :=
  let f := { f with src := chipId s }
  let p := Config.portTo f.dest % Config.linkPorts
  let x := portOf s p
  if x.out0.length < 256 && x.wait0.isEmpty then setPort s p { x with out0 := x.out0 ++ [f] }
  else setRegBit (setPort s p { x with wait0 := x.wait0 ++ [f] }) 0xB00000 29 true

/-- The flits of an item (R370): 112 B of body each; the first `own` hold credit of the reservation. -/
def itemFlits (f : Flit) (own : Nat) : Nat → Nat → List Byte → List Flit
  | 0, _, _ => []
  | fuel + 1, i, bs =>
    let rest := bs.drop 112
    { f with index := i, last := rest.isEmpty, body := bs.take 112, pool := decide (own ≤ i) } ::
      (if rest.isEmpty then [] else itemFlits f own fuel (i + 1) rest)

/-- Flits of an item of `n` bytes. -/
def flitCount (n : Nat) : Nat := max 1 (cdivN n 112)

/-- An item with its credits enters the outbound buffer of lanes 1 and 2. -/
def sendItem (s : State) (p own : Nat) (f : Flit) (bs : List Byte) : State :=
  let x := portOf s p
  setPort s p { x with out := x.out ++ itemFlits { f with src := chipId s } own (flitCount bs.length) 0 bs }

/-- A flit leaves its buffer and its credit returns; lane 0 takes none (R371). -/
def flitGone (s : State) (p : Nat) (f : Flit) : State :=
  match f.owner with
  | some c => if f.lane = 0 then s else giveFlits s p c (b2n (!f.pool)) (b2n f.pool)
  | none => s

/-- The lane-0 flits that wait in their units enter the buffer in order while it has places (R371). -/
def refill0 (x : Port) : Port :=
  let n := 256 - x.out0.length
  { x with out0 := x.out0 ++ x.wait0.take n, wait0 := x.wait0.drop n }

/-- Whether a PRBS test runs on a port, which then carries no flit (R679). -/
def portTested (s : State) (p : Nat) : Bool := (tget {} s.tst.prbs (128 + p)).running

/-- FLIT_SEND: while LINK_UP is 1, the next flit of a port leaves, lane 0 before the others (R371). -/
def execFlitSend (p : Fin 16) (s : State) : Out :=
  let x := portOf s p
  if !x.up || portTested s p then .next s
  else
    let sent := fun (s : State) (f : Flit) =>
      let s := addReg s (0xB00104 + p * 0x10) 1
      let s := { s with lnk := { s.lnk with sent := s.lnk.sent ++ [(p.val, f)] } }
      match f.owner with
      | some c => chargeBytes (flitGone s p f) c 128
      | none => s
    match x.out0, x.out with
    | f :: rest, _ => .next (sent (setPort s p (refill0 { x with out0 := rest })) f)
    | [], f :: rest => .next (sent (setPort s p { x with out := rest }) f)
    | [], [] => .next s

/-- The port's outbound flits are discarded (R373); lane-0 flits that wait in their units find places. -/
def dropPort (s : State) (p : Nat) : State :=
  let x := portOf s p
  let n := x.out0.length + x.out.length
  let s := x.out.foldl (fun s f => flitGone s p f) s
  let s := setPort s p (refill0 { portOf s p with out0 := [], out := [] })
  let s := addReg s (0xB0010C + p * 0x10) n
  record (setRegBit s 0xB00000 31 true) 2 0x15 0x50 none p n

/-- LINK_UP_FALL: a port's link goes down (R373). -/
def execLinkUpFall (p : Fin 16) (s : State) : Out :=
  let x := portOf s p
  if x.up then .next (dropPort (setPort s p { x with up := false }) p) else .next s

/-- LINK_UP_RISE: a port's link is up and carries new flits (R632). -/
def execLinkUpRise (p : Fin 16) (s : State) : Out :=
  .next (setPort s p { portOf s p with up := true })

/-- LNK_CTX_RES_WRITE (R380): ignored when RES_SUM would pass 1,024. -/
def execLnkCtxResWrite (c : Fin 64) (w : Word) (s : State) : Out :=
  let v := fld w.toNat 10 0
  if 1024 < resSum s - ctxRes s c + v then .next (setRegBit s 0xB00000 30 true)
  else .next (setReg s (0xB01000 + 4 * c) v)

/-- RESERVED_KIND_FLIT: a received flit of a reserved KIND is discarded and counted (R370). -/
def execReservedKindFlit (p : Fin 16) (s : State) : Out :=
  .next (addReg (addReg s (0xB00108 + p * 0x10) 1) (0xB0010C + p * 0x10) 1)

/-- Flits of a received item are counted. -/
def countRx (s : State) (p n : Nat) : State := addReg s (0xB00108 + p * 0x10) n

end Sys2Proof.Machine
end

