-- ==== Sys2Proof/Machine/Syn.lean ====
section
/-! DEFINITION. Synchronisation objects (R293-R339): declarations, materialisation, operations, grants,
waiters, barriers and refusals. -/

namespace Sys2Proof.Machine

open Sys2Proof

/-! ### Objects -/

/-- Base of a context's SYN block. -/
def synCtx (c : Nat) : Nat := 0x501000 + c * 0x20

/-- Copy A of physical object `k`. -/
def objOf (s : State) (k : Nat) : Option SynObj := tget? s.syn.objA k

/-- Both copies of an object written (R302). -/
def setObj (s : State) (k : Nat) (o : SynObj) : State :=
  { s with syn := { s.syn with objA := tput s.syn.objA k o, objB := tput s.syn.objB k o } }

/-- Each copy of an object changed on its own. -/
def modObj (s : State) (k : Nat) (f : SynObj → SynObj) : State :=
  let go := fun t : Table SynObj => match tget? t k with | some o => tput t k (f o) | none => t
  { s with syn := { s.syn with objA := go s.syn.objA, objB := go s.syn.objB } }

/-- The physical object of a virtual ID (R299). -/
def findObj (s : State) (c vid : Nat) : Option Nat :=
  (s.syn.objA.find? fun e => e.2.owner == c && e.2.vid == vid).map fun e => e.1

/-- Objects that a context holds. -/
def objectsOf (s : State) (c : Nat) : Nat := (s.syn.objA.filter fun e => e.2.owner == c).length

/-- The frozen-table entry of an object (R620). -/
def frozenAt (s : State) (k : Nat) : Option Nat :=
  (s.saf.frozen.find? fun e => e.2.obj == k).map fun e => e.1

/-- An operation discarded at a frozen object (R620). -/
def countDrop (s : State) (f : Nat) : State :=
  { s with saf := { s.saf with
      frozen := tmod { ctx := 0, vid := 0, obj := 0 } s.saf.frozen f fun x =>
        { x with drops := satAdd 32 x.drops 1 } } }

/-- The lowest free entry of the frozen table. -/
def freeFrozen (s : State) : Option Nat := (List.range 16).find? fun f => !thas s.saf.frozen f

/-- DIV_SEEN of a context (R636). -/
def divSeen (s : State) (c : Nat) : State := setRegBit s (0xA01000 + 4 * c) 29 true

/-- The copies of a materialised object differ (R302, R620, R622). -/
def freezeObj (s : State) (k : Nat) (o : SynObj) : State :=
  let s := divSeen (setRegBit s 0x500004 25 true) o.owner
  let s := record s 2 0x09 0x11 (some o.owner) o.vid k
  match freeFrozen s with
  | none => record s 3 0x09 0x24 (some o.owner) o.vid k
  | some f =>
    let e : Frozen := { ctx := o.owner, vid := o.vid, obj := k }
    ask { s with saf := { s.saf with frozen := tput s.saf.frozen f e } } (.diverge o.owner)

/-- Whether an operation may be applied to an object: both copies agree and it is not frozen. A
difference found here freezes it. -/
def checkObj (s : State) (k : Nat) : State × Bool :=
  match frozenAt s k, tget? s.syn.objA k, tget? s.syn.objB k with
  | some _, _, _ => (s, false)
  | none, some a, some b => if a = b then (s, true) else (freezeObj s k a, false)
  | none, _, _ => (s, false)

/-! ### Waiters (R315, R321) -/

/-- A waiter entry. -/
def waiterOf (s : State) (w : Nat) : Option Waiter := tget? s.syn.waiters w

/-- A waiter entry replaced. -/
def setWaiter (s : State) (w : Nat) (x : Waiter) : State :=
  { s with syn := { s.syn with waiters := tput s.syn.waiters w x } }

/-- A waiter entry freed. -/
def dropWaiter (s : State) (w : Nat) : State :=
  { s with syn := { s.syn with waiters := tdel s.syn.waiters w } }

/-- A new waiter entry. -/
def newWaiter (s : State) (x : Waiter) : Nat × State :=
  let w := s.syn.nextWaiter
  (w, setWaiter { s with syn := { s.syn with nextWaiter := w + 1 } } w x)

/-- A grant enters the grant queue of 32 items; what it cannot hold is issued again (R321). -/
def queueGrant (s : State) (w : Nat) : State :=
  let s := if s.syn.grantQ.length < 32 then s else setRegBit (queueOverrun s 0x500040 1) 0x500004 24 true
  { s with syn := { s.syn with grantQ := s.syn.grantQ ++ [w] } }

/-- The two ledger words of a task are compared at each access (R613, R614). -/
def checkLedger (s : State) (c t : Nat) : State :=
  if tget {} s.saf.ledA t = tget {} s.saf.ledB t then s else record (divSeen s c) 3 0x13 0x21 (some c) 0 t

/-- The step ledger's WAITED bit of a task (R614). -/
def setWaited (s : State) (c t : Nat) : State :=
  let s := checkLedger s c t
  { s with saf := { s.saf with
      ledA := tmod {} s.saf.ledA t fun l => { l with waited := true }
      ledB := tmod {} s.saf.ledB t fun l => { l with waited := true } } }

/-- A waiter is granted: `got` is the units, or PHASE after the grant (R318, R319, R154). The wake-up of a command
waiter is for the instant `due` in its field (R115, R329). -/
def grantWaiterAt (s : State) (w got due : Nat) : State :=
  match waiterOf s w with
  | none => s
  | some x =>
    if x.kind = 0 then
      let s := dropWaiter s w
      let s := match stepOf s x.img with
        | some st => setStep s x.img { st with granted := st.granted ++ [x.task] }
        | none => s
      pushDecs (setWaited s x.ctx x.task) [{ task := x.task, grant := true }]
    else
      let s := setWaiter s w { x with granted := true, at_ := nowNs s, got := got }
      match x.kind, x.cmd with
      | 1, _ =>
        let barrier := match objOf s x.obj with | some o => o.barrier | none => false
        let s := modRun s x.run fun r =>
          if barrier then r else { r with taken := r.taken ++ [(x.obj, x.units, x.tag, x.tag != 0)] }
        match runOf s x.run with
        | none => s
        | some r => queueGrant (grantDown s r.field (.wake x.run w due)) w
      | _, some m => queueGrant (completeOk s m got) w
      | _, none => s

/-- A waiter is granted at once. -/
def grantWaiter (s : State) (w got : Nat) : State := grantWaiterAt s w got 0

/-! ### Grants (R308, R312) -/

/-- One grant of a counter, if one is due. -/
def grantOne (s : State) (k : Nat) : Option State :=
  match objOf s k with
  | none => none
  | some o =>
    let units := fun w => match waiterOf s w with | some x => x.units | none => 0
    let tag := fun w => match waiterOf s w with | some x => x.tag | none => 0
    let directed := fun _ : Unit =>
      (o.dq.find? fun w => tag w == o.dtag && decide (units w ≤ o.dunits)).map fun w =>
        let left := o.dunits - units w
        grantWaiter (setObj s k { o with
          dq := o.dq.filter fun v => v != w
          dunits := left
          dtag := if left = 0 then 0 else o.dtag }) w (units w)
    match o.gq with
    | w :: rest =>
      if units w ≤ o.value then
        some (grantWaiter (setObj s k { o with gq := rest, value := o.value - units w }) w (units w))
      else directed ()
    | [] => directed ()

/-- Every grant of a counter that is due. -/
def grantAll (k : Nat) : Nat → State → State
  | 0, s => s
  | fuel + 1, s => match grantOne s k with
    | some s => grantAll k fuel s
    | none => s

/-- Whether both copies of an object agree and it is not frozen. -/
def objLive (s : State) (k : Nat) : Bool := (frozenAt s k).isNone && tget? s.syn.objA k == tget? s.syn.objB k

/-- The grants after an operation on a counter (R308); an object that is frozen or whose copies differ grants nothing
(R302, R620). -/
def grantCounter (s : State) (k : Nat) : State :=
  match objOf s k with
  | some o => if o.barrier || !objLive s k then s else grantAll k (o.gq.length + o.dq.length) s
  | none => s

/-! ### Declarations (R293-R297) -/

/-- The declaration entry of a virtual ID; none for a read error or translation fault. -/
def declOf (s : State) (c vid : Nat) : Option (List Byte) :=
  let b := synCtx c
  let base := reg s b / 4096 * 4096 + 2 ^ 32 * reg s (b + 4)
  readSrc s c (regBit s (b + 8) 30) (base + 16 * vid) 16

/-- SDT_COUNT of a context. -/
def sdtCount (s : State) (c : Nat) : Nat := regFld s (synCtx c + 8) 16 0

/-- Whether a virtual ID is declared as a COUNTER. -/
def declCounter (s : State) (c vid : Nat) : Bool :=
  decide (vid < sdtCount s c) &&
  (match declOf s c vid with | some b => leAt b 0 1 % 4 == 1 | none => false)

/-- Whether a declaration breaks R294 (R295). -/
def declBad (s : State) (c : Nat) (b : List Byte) : Bool :=
  let b0 := leAt b 0 1
  let type := b0 % 4
  let xchip := bitAt b0 2
  let realign := bitAt b0 3
  let limit := leAt b 4 4
  let init := leAt b 8 4
  let home := fld init 11 0
  decide (b0 / 16 ≠ 0) || decide (leAt b 1 3 ≠ 0) || decide (leAt b 12 4 ≠ 0) || type == 3 ||
  (xchip && realign) || (type == 1 && (xchip || realign)) ||
  (if type = 1 then decide (limit = 0) || decide (2 ^ 31 ≤ limit) || decide (limit < init)
   else
     decide (fld limit 15 0 = 0) || decide (limit / 2 ^ 29 ≠ 0) ||
     (if xchip then
        decide (init / 2 ^ 24 ≠ 0) || decide (groupChips s ≤ home) ||
        (if home = chipId s then decide (fld limit 28 16 < 2) || decide (4096 < fld limit 28 16)
         else decide (fld limit 28 16 ≠ 0)) ||
        (s.syn.objA.any fun e => e.2.xchip && fld e.2.init 23 12 == fld init 23 12)
      else
        decide (fld limit 28 16 ≠ 0) ||
        (if realign then
           decide (init / 2 ^ 24 ≠ 0) || decide (65535 < fld init 15 0 + fld init 23 16) ||
           !((rangeFrom (fld init 15 0) (fld init 23 16 + 1)).all fun v => declCounter s c v)
         else decide (init ≠ 0))))

/-- What a materialisation comes to. -/
inductive MatRes where
  | made (k : Nat) (s : State)
  | refused (reason : Nat)
  | capacity (quota : Bool)
  deriving DecidableEq, Repr

/-- A free physical object; which one is left open. -/
def freeObj (s : State) (d : Nat) : Nat :=
  let start := Config.freeBelow d 32768
  ((List.range (s.syn.objA.length + 1)).find? fun i => !thas s.syn.objA ((start + i) % 32768)).map
    (fun i => (start + i) % 32768) |>.getD start

/-- The object that a declaration entry makes (R296). -/
def declObj (c vid : Nat) (b : List Byte) : SynObj :=
  let b0 := leAt b 0 1
  let barrier := b0 % 4 == 2
  { barrier := barrier, xchip := bitAt b0 2, realign := bitAt b0 3, owner := c, vid := vid,
    value := if barrier then 0 else leAt b 8 4, limit := leAt b 4 4, init := leAt b 8 4 }

/-- CHIPS and this chip's home role of an XCHIP barrier. -/
def isHome (s : State) (o : SynObj) : Bool := o.xchip && decide (fld o.init 11 0 = chipId s)

/-- XLEAD in ns. -/
def xlead (s : State) : Nat := regFld s 0x500000 15 0

/-- Chip arrivals have reached CHIPS: the release instant is fixed and releases are sent (R328). -/
def homeRelease (s : State) (k : Nat) (o : SynObj) : State :=
  let t := nowNs s + xlead s
  let xb := fld o.init 23 12
  let others := (tget [] s.syn.arrivers k).filter fun c => c != chipId s
  let s := others.foldl (fun s c =>
    let f : Flit :=
      { dest := c, lane := 0, kind := 2, key := xb, owner := some o.owner
        body := leBytes 8 (b2n o.sense) ++ leBytes 8 t ++ List.replicate 96 0 }
    sendLane0 s f) s
  let r : XbRelease := { obj := k, due := t, late := decide (nsUnits t ≤ s.gtb.now) }
  { s with syn := { s.syn with
      releases := s.syn.releases ++ [r], arrivers := tdel s.syn.arrivers k } }

/-- A chip arrival counted at the home object (R325, R326, R328). -/
def homeArrive (s : State) (k : Nat) (o : SynObj) (chip : Nat) : State :=
  let n := o.dtag + 1
  let o := { o with dtag := n }
  let s := setObj s k o
  let s := { s with syn := { s.syn with
    arrivers := tput s.syn.arrivers k (tget [] s.syn.arrivers k ++ [chip]) } }
  if n = fld o.limit 28 16 then homeRelease s k o else s

/-- A chip arrival discarded for its SENSE or because it would pass CHIPS (R326). -/
def misuseArrival (s : State) (c xb chip : Nat) : State :=
  record (setRegBit s 0x500004 29 true) 1 0x09 0x51 (some c) xb chip

/-- A chip arrival at the home object: counted, or discarded (R326). -/
def takeArrival (k xb : Nat) (sense : Bool) (s : State) (chip : Nat) : State :=
  match objOf s k with
  | none => s
  | some o =>
    if sense != o.sense || decide (fld o.limit 28 16 ≤ o.dtag) then misuseArrival s o.owner xb chip
    else homeArrive s k o chip

/-- Early arrivals kept for the XB_ID of a home object are applied at its materialisation (R326, R327). -/
def applyEarly (s : State) (k : Nat) (o : SynObj) : State :=
  if isHome s o then
    let xb := fld o.init 23 12
    let go := fun (s : State) (sense : Bool) =>
      let key := 2 * xb + b2n sense
      let chips := tget [] s.syn.early key
      chips.foldl (takeArrival k xb sense) { s with syn := { s.syn with early := tdel s.syn.early key } }
    go (go s false) true
  else s

/-- A virtual ID materialised: both copies written from its declaration (R295-R297). -/
def materialise (s : State) (c vid : Nat) : MatRes :=
  if sdtCount s c ≤ vid then .refused 1
  else match declOf s c vid with
    | none => .refused 9
    | some b =>
      if leAt b 0 1 % 4 = 0 then .refused 1
      else if declBad s c b then .refused 8
      else if min (regFld s (synCtx c + 0xC) 15 0) 32768 ≤ objectsOf s c then .capacity true
      else if 32768 ≤ s.syn.objA.length then .capacity false
      else
        let (d, s) := draw s
        let k := freeObj s d
        let o := declObj c vid b
        .made k (applyEarly (setObj { s with syn := { s.syn with freeB := tdel s.syn.freeB k } } k o) k o)

/-- CAPACITY_SEEN (R297). -/
def noteCapacity (s : State) (c : Nat) : State :=
  setRegBit (setRegBit s 0x500004 28 true) (synCtx c + 0x10) 29 true

/-! ### Refusals (R333-R336) -/

/-- A refusal counted, with its flags and SYN_CTX_LAST. -/
def countRefusal (s : State) (c vid reason op : Nat) : State :=
  let s := addReg s 0x500010 1
  let s := setRegBit s 0x500004 (if reason = 0xA then 31 else if reason = 0xB then 30 else 29) true
  let s := setRegBit s (synCtx c + 0x10) 31 true
  setReg s (synCtx c + 0x14) (vid * 2 ^ 16 + reason * 2 ^ 12 + op * 2 ^ 8)

/-- A refused host command completes (R334). -/
def refuseHost (s : State) (m : Cmd) (vid reason op : Nat) : State :=
  let s := countRefusal s m.ctx vid reason op
  completeWith s m (if reason = 0xA then 0x0B else if reason = 0xB then 0x0A else 0x18) reason

/-- A refused effect of a command: the SYNC_REFUSED event (R335, R336). -/
def refuseEffect (s : State) (c task vid reason op vint : Nat) : State :=
  let s := countRefusal s c vid reason op
  raiseEvent s c 0x0111 1 task vint (vid + reason * 2 ^ 16 + op * 2 ^ 20)

/-! ### Barriers (R311-R313, R325-R331) -/

/-- One counter of a realign run visited (R331). Whether the read of a declaration that this needs meets a read error
is a free value (DESIGN CHOICE, log entry 39). -/
def realignOne (s : State) (c barrier vid vint : Nat) : State :=
  match findObj s c vid with
  | none =>
    let refused := fun s : State =>
      let s := setRegBit (setRegBit s 0x500004 29 true) (synCtx c + 0x10) 31 true
      setReg s (synCtx c + 0x14) (vid * 2 ^ 16 + 9 * 2 ^ 12 + 5 * 2 ^ 8)
    let (d, s) := draw s
    if Config.freeNat d % 2 = 1 then refused s
    else match materialise s c vid with
      | .made _ s => s
      | .refused _ => refused s
      | .capacity _ => noteCapacity s c
  | some k =>
    let (s, ok) := checkObj s k
    match ok, objOf s k with
    | true, some o =>
      let s :=
        if o.value ≠ o.init || o.dunits ≠ 0 then
          let s := setRegBit (setRegBit (addReg s 0x500014 1) 0x500004 27 true) (synCtx c + 0x10) 30 true
          raiseEvent s c 0x0110 1 (vid + barrier * 2 ^ 16) vint (o.value + o.dunits * 2 ^ 32)
        else s
      grantCounter (setObj s k { o with value := o.init, dunits := 0, dtag := 0 }) k
    | _, _ => s

/-- A phase completes (R312): realign actions, VALUE 0, SENSE inverted, PHASE raised, then every queued
waiter in arrival order; the fields act on the wake-ups at the instant `due` (R329). -/
def completePhaseAt (s : State) (k vint due : Nat) : State :=
  match objOf s k with
  | none => s
  | some o =>
    let s := if o.realign then
        (rangeFrom (fld o.init 15 0) (fld o.init 23 16 + 1)).foldl
          (fun s v => realignOne s o.owner o.vid v vint) s
      else s
    let phase := (o.phase + 1) % 2 ^ 32
    let s := setObj s k { o with
      value := 0
      sense := !o.sense
      chipArrived := false
      dtag := 0
      phase := phase
      gq := [] }
    o.gq.foldl (fun s w => grantWaiterAt s w phase due) s

/-- A phase completes at once. -/
def completePhase (s : State) (k vint : Nat) : State := completePhaseAt s k vint 0

/-- VALUE has reached PARTICIPANTS: the phase completes, or the chip arrives (R312, R325). -/
def fullBarrier (s : State) (k : Nat) (o : SynObj) (vint : Nat) : State :=
  if !o.xchip then completePhase s k vint
  else if isHome s o then takeArrival k (fld o.init 23 12) o.sense s (chipId s)
  else
    let f : Flit :=
      { dest := fld o.init 11 0, lane := 0, kind := 1, key := fld o.init 23 12, owner := some o.owner
        body := leBytes 112 (b2n o.sense) }
    sendLane0 (setObj s k { o with chipArrived := true }) f

/-! ### Operations (R303-R313) -/

/-- An operation as SYN applies it. -/
structure SynOp where
  op : Nat
  vid : Nat
  tag : Nat := 0
  n : Nat := 0
  sense : Bool := false
  vint : Nat := 0
  deriving DecidableEq, Repr

/-- What an operation comes to: RESULT, or a reason of R333. -/
inductive SynRes where
  | ok (result : Nat) (s : State)
  | refused (reason : Nat)
  deriving DecidableEq, Repr

/-- The result of a counter operation after its grants. -/
def afterGrants (s : State) (k : Nat) (f : SynObj → Nat) : SynRes :=
  let s := addCount (grantCounter s k) 0x500008 1
  match objOf s k with
  | some o => .ok (f o) s
  | none => .ok 0 s

/-- SIGNAL (R306). -/
def opSignal (s : State) (k : Nat) (o : SynObj) (n : Nat) : SynRes :=
  if o.value + o.dunits + n ≤ o.limit then
    afterGrants (setObj s k { o with value := o.value + n }) k fun o => o.value
  else .refused 0xA

/-- SIGNAL_TO (R310). -/
def opSignalTo (s : State) (k : Nat) (o : SynObj) (tag n : Nat) : SynRes :=
  if o.limit < o.value + o.dunits + n then .refused 0xA
  else if tag = 0 then .refused 7
  else if o.dunits = 0 || o.dtag = tag then
    if 65535 < o.dunits + n then .refused 0xA
    else afterGrants (setObj s k { o with dtag := tag, dunits := o.dunits + n }) k fun o => o.dunits
  else
    let first := o.dq.find? fun w => match waiterOf s w with | some x => x.tag == tag | none => false
    match first with
    | none => .refused 6
    | some w =>
      match waiterOf s w with
      | some x =>
        if x.units = n then
          afterGrants (grantWaiter (setObj s k { o with dq := o.dq.filter fun v => v != w }) w n) k
            fun o => o.dunits
        else .refused 6
      | none => .refused 6

/-- DECREMENT (R307). -/
def opDecrement (s : State) (k : Nat) (o : SynObj) (n : Nat) : SynRes :=
  if n ≤ o.value then afterGrants (setObj s k { o with value := o.value - n }) k fun o => o.value
  else .refused 0xB

/-- ARRIVE (R311, R312). -/
def opArrive (s : State) (k : Nat) (o : SynObj) (sense : Bool) (vint : Nat) : SynRes :=
  let parts := fld o.limit 15 0
  if sense != o.sense then .refused 4
  else if parts ≤ o.value then .refused 5
  else
    let o := { o with value := o.value + 1 }
    let s := setObj s k o
    let s := if o.value = parts then fullBarrier s k o vint else s
    let s := addCount s 0x500008 1
    match objOf s k with
    | some o => .ok o.value s
    | none => .ok 0 s

/-- A non-waiting operation on object `k` whose type and units are in order. -/
def applyOp (s : State) (k : Nat) (p : SynOp) : SynRes :=
  match objOf s k with
  | none => .refused 1
  | some o =>
    if p.op = 0 || 6 < p.op || o.barrier != (p.op == 5 || p.op == 6) then .refused 2
    else if p.op = 1 then
      if p.n = 0 || p.tag ≠ 0 || p.sense then .refused 3 else opSignal s k o p.n
    else if p.op = 2 then
      if p.n = 0 || p.sense then .refused 3 else opSignalTo s k o p.tag p.n
    else if p.op = 3 then
      if p.n = 0 || p.tag ≠ 0 || p.sense then .refused 3 else opDecrement s k o p.n
    else if p.op = 5 then
      if p.n ≠ 0 || p.tag ≠ 0 then .refused 3 else opArrive s k o p.sense p.vint
    else .refused 2

/-- A wait that is in order is granted or queued (R309, R313); its reason when it is not. -/
def applyWait (s : State) (k : Nat) (o : SynObj) (x : Waiter) : State :=
  let (w, s) := newWaiter s { x with obj := k, vid := o.vid }
  let s := addCount s 0x500008 1
  if o.barrier then
    if x.sense != o.sense then grantWaiter s w o.phase
    else setObj s k { o with gq := o.gq ++ [w] }
  else if x.tag = 0 then
    if o.gq.isEmpty && decide (x.units ≤ o.value) then
      grantWaiter (setObj s k { o with value := o.value - x.units }) w x.units
    else setObj s k { o with gq := o.gq ++ [w] }
  else grantCounter (setObj s k { o with dq := o.dq ++ [w] }) k

/-- Why a WAIT operation is refused: type first, then its units. -/
def waitFault (o : SynObj) (p : SynOp) : Option Nat :=
  if o.barrier != (p.op == 6) then some 2
  else if o.barrier then (if p.n ≠ 0 || p.tag ≠ 0 then some 3 else none)
  else if p.n = 0 || p.sense then some 3 else none

/-- A sync effect request decoded (R304). -/
def synEff (data : Nat) : SynOp :=
  { op := fld data 123 120, vid := fld data 119 104, tag := fld data 103 88, n := fld data 87 72,
    sense := bitAt data 71 }

/-! ### Host commands (R305) -/

/-- The operation that a host sync command asks for on an object of a type. TAG and SENSE are taken from every
command, so that one that is not 0 where it must be is refused (R333); N is ignored for an ARRIVE. -/
def hostOp (m : Cmd) (barrier : Bool) : SynOp :=
  let p : SynOp :=
    { op := 0, vid := m.at 4 2, n := m.at 8 4, tag := m.at 12 2, sense := bitAt (m.at 14 1) 0 }
  if m.opcode = 0x0200 then (if barrier then { p with op := 5, n := 0 } else { p with op := 1 })
  else if m.opcode = 0x0201 then { p with op := 2 }
  else if m.opcode = 0x0203 then { p with op := 3 }
  else { p with op := if barrier then 6 else 4 }

/-- Most units that a host command may name. -/
def hostMax (op : Nat) : Nat := if op = 1 || op = 3 then 0x7FFFFFFF else 65535

/-- A host sync command applied to object `k` (R305, R334, R620). -/
def applyHost (s : State) (m : Cmd) (k : Nat) : State :=
  let (s, ok) := checkObj s k
  match ok, objOf s k with
  | true, some o =>
    let p := hostOp m o.barrier
    if hostMax p.op < p.n then refuseHost s m p.vid 3 p.op
    else if p.op = 4 || p.op = 6 then
      match waitFault o p with
      | some reason => refuseHost s m p.vid reason p.op
      | none =>
        let w : Waiter :=
          { kind := 2, ctx := m.ctx, obj := k, units := p.n, tag := p.tag, sense := p.sense, cmd := some m }
        applyWait s k o w
    else match applyOp s k p with
      | .refused reason => refuseHost s m p.vid reason p.op
      | .ok result s => completeOk s m result
  | _, _ => completeWith s m 0x06 0

/-- Whether an earlier operation on the same virtual ID waits to be materialised. -/
def matWaiting (s : State) (c vid : Nat) : Bool := s.syn.mats.any fun q => q.ctx == c && q.vid == vid

/-- A request waits for its object to be materialised (R296). -/
def pushMat (s : State) (q : MatReq) : State := { s with syn := { s.syn with mats := s.syn.mats ++ [q] } }

/-- A host sync command as HIF passes it: applied, or waiting for its object. Its reserved bytes are ignored
(R6, R305). -/
def hostSync (op : Nat) (s : State) : State :=
  match popUnit s fun m => m.opcode == op with
  | none => s
  | some (m, s) =>
    let vid := m.at 4 2
    match matWaiting s m.ctx vid, findObj s m.ctx vid with
    | false, some k => applyHost s m k
    | _, _ => pushMat s { src := 0, ctx := m.ctx, vid := vid, cmd := some m }

/-! ### Kill and teardown (R259, R287, R322) -/

/-- Units returned to an object (R259). -/
def returnUnits (s : State) (k units tag : Nat) (directed : Bool) : State :=
  let (s, ok) := checkObj s k
  match ok, objOf s k with
  | true, some o =>
    if o.barrier then s
    else if directed && (o.dunits = 0 || o.dtag = tag) then
      grantCounter (setObj s k { o with dtag := tag, dunits := (o.dunits + units) % 65536 }) k
    else grantCounter (setObj s k { o with value := (o.value + units) % 2 ^ 32 }) k
  | _, _ => s

/-- A waiter taken out of its object's queues and its entry freed. The copies are compared as at every operation
(R302); an object whose copies differ grants nothing, and both copies lose the entry all the same. -/
def withdraw (s : State) (w : Nat) : State :=
  match waiterOf s w with
  | none => s
  | some x =>
    let s := if (objOf s x.obj).isSome then (checkObj s x.obj).1 else s
    let s := match objOf s x.obj with
      | some o =>
        if o.gq.contains w || o.dq.contains w then
          modObj s x.obj fun o =>
            { o with gq := o.gq.filter fun v => v != w, dq := o.dq.filter fun v => v != w }
        else s
      | none => s
    let s := { s with syn := { s.syn with grantQ := s.syn.grantQ.filter fun v => v != w } }
    match objOf s x.obj with
    | some o => if o.barrier || x.granted then dropWaiter s w else grantCounter (dropWaiter s w) x.obj
    | none => dropWaiter s w

/-- What SYN does at the kill of a command (R322): its waits are withdrawn and taken units returned. -/
def synKill (s : State) (id : Nat) (x : Run) : State :=
  let s := { s with syn := { s.syn with
    newWaits := s.syn.newWaits.filter fun q => q.1 != id
    mats := s.syn.mats.filter fun q => !(q.src == 1 && q.run == id) } }
  let mine := (s.syn.waiters.filter fun e => e.2.kind == 1 && e.2.run == id).map fun e => e.1
  let s := mine.foldl (fun s w => withdraw s w) s
  let s := modRun s id fun r => { r with taken := [] }
  x.taken.foldl (fun s q => returnUnits s q.1 q.2.1 q.2.2.1 q.2.2.2) s

/-- Whether a task has passed its commit point and its commit runs to its end (R267, step 3 of R287). -/
def taskCommits (s : State) (i t : Nat) : Bool :=
  (s.disp.runs.any fun e => e.2.img == i && e.2.task == t && e.2.committed && !e.2.t1) ||
  s.disp.readyQ.contains (.signal i t)

/-- What SYN does at the teardown of a step (step 4 of R287): granted waits of tasks that have not
committed go back, and posted waits are withdrawn. -/
def synTeardown (s : State) (i : Nat) : State :=
  match stepOf s i with
  | none => s
  | some st =>
    let s := { s with syn := { s.syn with mats := s.syn.mats.filter fun q => !(q.src == 2 && q.img == i) } }
    let mine := (s.syn.waiters.filter fun e => e.2.kind == 0 && e.2.img == i).map fun e => e.1
    let s := mine.foldl (fun s w => withdraw s w) s
    let s := setStep s i { st with granted := st.granted.filter fun t => taskCommits s i t }
    (st.granted.filter fun t => !taskCommits s i t).foldl (fun s t =>
      match findObj s (match imgOf s i with | some x => x.ctx | none => 0) (tdWaitObj (descOf s t)) with
      | some k => returnUnits s k 1 0 false
      | none => s) s

/-- A task's WAIT_OBJ wait posted by the sweep (R185, R315). -/
def postTaskWait (s : State) (i c t : Nat) : State :=
  match findObj s c (tdWaitObj (descOf s t)) with
  | none => s
  | some k =>
    let (s, ok) := checkObj s k
    match objOf s k with
    | none => s
    | some o =>
      let x : Waiter := { kind := 0, ctx := c, obj := k, units := if o.barrier then 0 else 1, task := t, img := i }
      if ok then applyWait s k o x
      else
        let (w, s) := newWaiter s { x with vid := o.vid }
        modObj s k fun o => { o with gq := o.gq ++ [w] }

end Sys2Proof.Machine
end

