-- ==== Sys2Proof/Machine/Chn.lean ====
section
/-! DEFINITION. Message channels (R342-R362): sends and their credit, ring records, delivery, refusals,
and the records that handler runs consume. -/

namespace Sys2Proof.Machine

open Sys2Proof

/-! ### Channels -/

/-- A physical channel. -/
def chanOf (s : State) (k : Nat) : Option Chan := tget? s.chn.chans k

/-- A physical channel replaced. -/
def setChan (s : State) (k : Nat) (x : Chan) : State :=
  { s with chn := { s.chn with chans := tput s.chn.chans k x } }

/-- The physical channel of an image's channel. -/
def imgChan (s : State) (i rel : Nat) : Option Nat :=
  (s.chn.chans.find? fun e => e.2.img == i && e.2.rel == rel).map fun e => e.1

/-- The RECV channel on this chip that a key names (R346, R355). -/
def keyChan (s : State) (key : Nat) : Option Nat :=
  if key = 0 then none
  else (s.chn.chans.find? fun e => e.2.kind == 1 && e.2.key == key).map fun e => e.1

/-- Base of a context's CHN block. -/
def chnCtx (c : Nat) : Nat := 0x581000 + c * 0x10

/-! ### Refusals (R356-R358) -/

/-- A refused or discarded send (R357): `c` is the context that it is counted for, `task` the sending
task or 0x1FFFF. -/
def refuseSend (s : State) (c task rel reason len chip vint : Nat) : State :=
  let s :=
    if reason = 3 then
      setRegBit (setRegBit (addReg s 0x580008 1) 0x580000 30 true) (chnCtx c) 30 true
    else
      let s := addReg (addReg s 0x580004 1) (chnCtx c + 8) 1
      setRegBit (setRegBit s 0x580000 31 true) (chnCtx c) 31 true
  let s := setReg s (chnCtx c + 4) (rel * 2 ^ 18 + reason * 2 ^ 14 + chip)
  let status := if reason = 3 then 0x0E else 0x02
  raiseEvent s c 0x0120 1 task vint
    (rel + reason * 2 ^ 16 + status * 2 ^ 24 + len * 2 ^ 32 + chip * 2 ^ 48)

/-! ### Sends (R347-R349) -/

/-- Fields of a send effect request (R347). -/
def sendChannel (d : Nat) : Nat := fld d 119 106
def sendLen (d : Nat) : Nat := fld d 105 92 + 1
def sendTag (d : Nat) : Nat := fld d 91 76
def sendSrc (d : Nat) : Nat := fld d 75 34 * 64

/-- A SEND record leads to another chip. -/
def isRemote (s : State) (x : Chan) : Bool := x.kind == 2 && decide (x.dest ≠ chipId s)

/-- The channel whose credit and epoch a send uses: the receiver on this chip, or the SEND record of
a remote receiver. None where a key names no channel (R348). -/
def sendTarget (s : State) (k : Nat) : Option Nat :=
  match chanOf s k with
  | none => none
  | some x => if x.kind = 1 || isRemote s x then some k else keyChan s x.key

/-- The checks of R348: a reason, or the channel and epoch recorded. A key that no loaded image holds
counts as a closed channel (R355). -/
def checkSend (s : State) (i : Nat) (op data : Nat) : Nat × Option Nat × Nat :=
  if op ≠ 1 then (6, none, 0)
  else match (imgChan s i (sendChannel data)).filter fun k => (chanOf s k).any fun x => x.kind != 0 with
    | none => (4, none, 0)
    | some k =>
      match sendTarget s k with
      | none => (1, none, 0)
      | some t =>
        match chanOf s t with
        | none => (1, none, 0)
        | some x => if x.maxUnits < sendLen data then (3, some t, x.epoch) else (0, some t, x.epoch)

/-- A registered effect is counted (R18, R266); its command may become ready to commit. -/
def registerEff (s : State) (r n : Nat) : State :=
  commitPoint (modRun s r fun x => { x with
    registered := x.registered + 1
    waiting := x.waiting.filter fun k => k != n
    effects := x.effects.modify n fun e => { e with reg := true } }) r

/-- A held effect changed. -/
def modEff (s : State) (r n : Nat) (f : Eff → Eff) : State :=
  modRun s r fun x => { x with effects := x.effects.modify n f }

/-- Credit for a send on its channel (R349), with flit credits when it is remote: none when it does
not fit now. -/
def takeSend (s : State) (r n : Nat) (e : Eff) (c : Nat) : Option State :=
  match e.target with
  | none => none
  | some t =>
    match chanOf s t with
    | none => none
    | some x =>
      let len := sendLen e.data
      if isRemote s x then
        let flits := flitCount (len * 64)
        if x.remoteFree < len then none
        else match takeFlits s x.port c flits with
          | none => none
          | some (own, s) =>
            let s := setChan s t { x with remoteFree := x.remoteFree - len }
            some (registerEff (modEff s r n fun e =>
              { e with credit := 2, own := own, pool := flits - own }) r n)
      else if x.localFree < len then none
      else
        let s := setChan s t { x with localFree := x.localFree - len }
        some (registerEff (modEff s r n fun e => { e with credit := 1 }) r n)

/-- A send waits for credit at its channel (R349). -/
def waitSend (s : State) (t r n c : Nat) : State :=
  match chanOf s t with
  | none => s
  | some x =>
    let s := setChan s t { x with waits := x.waits ++ [(r, n)] }
    let s := modRun s r fun y => { y with waiting := y.waiting ++ [n] }
    setRegBit (setRegBit (addReg s 0x580014 1) 0x580000 29 true) (chnCtx c) 29 true

/-- A send registers, or waits for its credit behind those already waiting (R348, R349). -/
def registerSend (s : State) (r n : Nat) : State :=
  match runOf s r with
  | none => s
  | some x =>
    match x.effects[n]? with
    | none => s
    | some e =>
      let (reason, t, epoch) := checkSend s x.img e.op e.data
      let s := modEff s r n fun e => { e with refused := reason, target := t, epoch := epoch }
      match reason, t with
      | 0, some t =>
        let clear := match chanOf s t with | some c => c.waits.isEmpty | none => true
        let e := { e with target := some t, epoch := epoch }
        match (if clear then takeSend s r n e x.ctx else none) with
        | some s => s
        | none => waitSend s t r n x.ctx
      | _, _ => registerEff s r n

/-- The credit that a send holds goes back (R258, R349, R357). -/
def freeSend (s : State) (c : Nat) (e : Eff) : State :=
  match e.target with
  | none => s
  | some t =>
    match chanOf s t with
    | none => s
    | some x =>
      let len := sendLen e.data
      if e.credit = 1 then setChan s t { x with localFree := x.localFree + len }
      else if e.credit = 2 then
        giveFlits (setChan s t { x with remoteFree := x.remoteFree + len }) x.port c e.own e.pool
      else s

/-- The first send that waits at a channel takes its credit, if it fits now. -/
def grantSend (s : State) (t : Nat) : Option State :=
  match chanOf s t with
  | none => none
  | some x =>
    match x.waits with
    | [] => none
    | (r, n) :: rest =>
      match runOf s r with
      | none => some (setChan s t { x with waits := rest })
      | some y =>
        match y.effects[n]? with
        | none => some (setChan s t { x with waits := rest })
        | some e => takeSend (setChan s t { x with waits := rest }) r n e y.ctx

/-- A killed command's sends lose their places and return their credit (R349). -/
def chnKill (s : State) (id : Nat) (x : Run) : State :=
  let s := { s with chn := { s.chn with
    chans := tmap (fun _ k => { k with waits := k.waits.filter fun q => q.1 != id }) s.chn.chans } }
  (x.effects.filter fun e => e.unit == 2).foldl (fun s e => freeSend s x.ctx e) s

/-! ### Ring records (R350-R352) -/

/-- The 16 B header of a record (R351). -/
def recHeader (len kind source tag seq : Nat) : List Byte :=
  leBytes 2 len ++ leBytes 1 kind ++ leBytes 1 0 ++ leBytes 4 source ++ leBytes 2 tag ++ leBytes 2 0 ++
  leBytes 4 seq

/-- Units returned to the credit from which a record was taken; those of a message from another chip, and not those of
its pad, go back to that chip (R352). -/
def giveUnits (s : State) (k : Nat) (x : RingRec) : State :=
  match chanOf s k with
  | none => s
  | some ch =>
    if x.credit = 0 then setChan s k { ch with localFree := ch.localFree + x.len }
    else if x.credit = 1 then
      let f : Flit :=
        { dest := x.chip, lane := 0, kind := 3, key := ch.key, owner := some ch.ctx
          body := leBytes 4 x.len ++ leBytes 108 0 }
      let s := setChan s k { ch with remoteFree := ch.remoteFree + x.len }
      if x.kind = 2 then s else sendLane0 s f
    else s

/-- The ring's head passes freed records and pads in ring order (R351, R352). -/
def advanceHead (k : Nat) : Nat → State → State
  | 0, s => s
  | fuel + 1, s =>
    match chanOf s k with
    | none => s
    | some ch =>
      match ch.recs with
      | [] => s
      | x :: rest =>
        if x.freed || x.kind == 2 then advanceHead k fuel (giveUnits (setChan s k { ch with recs := rest }) k x)
        else s

/-- One record written at the producer position; false when the ring's page faults. Its pad goes
first when the ring's end is too near (R350); the copy of a message's payload is charged (R546). -/
def writeRec (s : State) (k len kind source tag credit chip : Nat) (payload : List Byte)
    (sender : Option Sender := none) : State × Bool :=
  match chanOf s k with
  | none => (s, false)
  | some ch =>
    let room := ch.units - ch.tail
    let pad := decide (room < len)
    let (s, ok) :=
      if pad then unitWrite s ch.ctx (ch.ringVa + ch.tail * 64) (recHeader room 2 source 0 ch.seq) else (s, true)
    if !ok then (s, false)
    else
      let seq := if pad then cadd ch.seq 1 else ch.seq
      let pos := if pad then 0 else ch.tail
      let (s, ok) := unitWrite s ch.ctx (ch.ringVa + pos * 64) (recHeader len kind source tag seq ++ payload)
      if !ok then (s, false)
      else
        let id := s.chn.nextRec
        let padRec : List RingRec :=
          if pad then [{ pos := ch.tail, len := room, kind := 2, credit := credit, chip := chip, serial := id }]
          else []
        let me : RingRec :=
          { pos := pos, len := len, kind := kind, credit := credit, chip := chip, serial := id + 1, sender := sender }
        let charge : Int := if pad then room else 0
        let ch := { ch with
          tail := (pos + len) % ch.units
          seq := cadd seq 1
          recs := ch.recs ++ padRec ++ [me]
          localFree := if credit = 0 then ch.localFree - charge else ch.localFree
          remoteFree := if credit = 1 then ch.remoteFree - charge else ch.remoteFree }
        let s := setChan s k ch
        let s := { s with chn := { s.chn with nextRec := id + 2 } }
        let s := addCount s 0x58000C 1
        let s := if kind = 1 then chargeBytes s ch.ctx (len * 64 - 16) else s
        (advanceHead k (ch.recs.length) s, true)

/-- SOURCE of a record: the sending task and its chip (R351). -/
def recSource (s : State) (rel : Nat) : Nat := rel + chipId s * 2 ^ 17

/-- DELIVERY_FAULT (R353, R627). -/
def deliveryFault (s : State) (c reason va : Nat) : State :=
  record s 1 0x0A 0x52 (some c) reason (va % 2 ^ 48)

/-- The first address at which the write of a record of `len` units to a ring faults: its pad, where it needs one, then
the record. -/
def ringFault (s : State) (ch : Chan) (len : Nat) : Nat :=
  let pad := decide (ch.units - ch.tail < len)
  let pos := if pad then 0 else ch.tail
  let body := (writeFaultAt s ch.ctx (ch.ringVa + pos * 64) (len * 64)).getD (ch.ringVa + pos * 64)
  if pad then (writeFaultAt s ch.ctx (ch.ringVa + ch.tail * 64) 16).getD body else body

/-- Bytes of a context's source by the translation in force at the commit point, in `src` (R353). -/
def readSource (s : State) (src : Pat) (c va n : Nat) : Option (List Byte) := readVirt { s with pat := src } c va n

/-- The first byte of a source whose translation faults, page by page. -/
def faultAt (s : State) (c va n : Nat) : Nat :=
  let starts := va :: ((List.range (n / 65536 + 1)).map fun i => (va / 65536 + 1 + i) * 65536)
  (starts.find? fun a => (readVirt s c a 1).isNone).getD va

/-- A committed send delivered or refused (R350, R353, R356), its payload read by the translation `src` of the commit
point: the state, and whether it was refused. -/
def deliverSend (src : Pat) (s : State) (x : Run) (e : Eff) : State × Bool :=
  let len := sendLen e.data
  let rel := sendChannel e.data
  let refuse := fun (s : State) (reason : Nat) =>
    (refuseSend (freeSend s x.ctx e) x.ctx x.task rel reason len (chipId s) x.vint, true)
  if e.refused ≠ 0 then refuse s e.refused
  else match e.target with
    | none => refuse s 1
    | some t =>
      match chanOf s t with
      | none => refuse s 1
      | some ch =>
        if !ch.isOpen then refuse s 1
        else if ch.epoch ≠ e.epoch then refuse s 2
        else
          let n := len * 64 - 16
          match readSource s src x.ctx (sendSrc e.data) n with
          | none =>
            refuse (deliveryFault s x.ctx 8 (faultAt { s with pat := src } x.ctx (sendSrc e.data) n)) 8
          | some payload =>
            let source := recSource s (match imgOf s x.img with | some i => relTask i x.task | none => 0)
            if isRemote s ch then
              let f : Flit :=
                { dest := ch.dest, lane := 1, kind := 5, key := ch.key, epoch := e.epoch
                  owner := some x.ctx }
              (sendItem (chargeBytes s x.ctx n) ch.port e.own f (recHeader len 1 source (sendTag e.data) 0 ++ payload),
                false)
            else
              let me : Sender :=
                { ctx := x.ctx, task := x.task, vint := x.vint, rel := rel, img := if x.t1 then none else some x.img }
              match writeRec s t len 1 source (sendTag e.data) 0 0 payload (some me) with
              | (s, true) => (s, false)
              | (s, false) => refuse (deliveryFault s x.ctx 7 (ringFault s ch len)) 7

/-- The record that a handler run consumed is freed by its commit (R352). -/
def freeRecord (s : State) (serial : Nat) : State :=
  match s.chn.chans.find? fun e => e.2.recs.any fun x => x.serial == serial with
  | none => s
  | some (k, ch) =>
    let recs := modWhere (fun x : RingRec => x.serial == serial) (fun x => { x with freed := true }) ch.recs
    advanceHead k recs.length (setChan s k { ch with recs := recs })

/-! ### Handler runs (R184, R359) -/

/-- The channel and record of a serial number. -/
def recordOf (s : State) (serial : Nat) : Option (Chan × RingRec) :=
  s.chn.chans.findSome? fun e => (e.2.recs.find? fun x => x.serial == serial).map fun x => (e.2, x)

/-- Runs of a handler that have been started and have not committed. -/
def startedRuns (s : State) (i t : Nat) : Nat :=
  (s.chn.chans.foldl (fun n e => if e.2.img = i then
    n + (e.2.recs.filter fun x => x.handler == some t && !x.freed).length else n) 0)

/-- The live handler that takes the next record of a channel (R359). -/
def handlerFor (s : State) (i : Nat) (img : Img) (rel : Nat) : Option Nat :=
  ((List.range img.tasks).map fun r => physTask img r).find? fun t =>
    let d := descOf s t
    tdKind d == 2 && tdChannel d == rel && cwLive (cntA s t) &&
    decide (startedRuns s i t < cwCount (cntA s t))

/-- The first record of a channel that is assigned to nobody. -/
def firstUnassigned (ch : Chan) : Option RingRec :=
  ch.recs.find? fun x => x.kind != 2 && x.handler.isNone && !x.freed

/-- Whether CHN may start handler runs of an image now: a running step that is not torn down, and no
recovery of the context in progress (R287, R615). -/
def handlersOpen (s : State) (i : Nat) (img : Img) : Bool :=
  (match stepOf s i with | some st => st.phase == 1 || st.phase == 2 | none => false) &&
  !thas s.saf.recov img.ctx

/-- Records of channels that a test selects go back to nobody, where no run in `kept` consumes them (R287, R615). -/
def unassign (s : State) (p : Chan → Bool) (kept : List Nat) : State :=
  let free : RingRec → RingRec := fun x =>
    if x.handler.isSome && !x.freed && !kept.contains x.serial then { x with handler := none } else x
  { s with chn := { s.chn with chans := tmap (fun _ ch =>
      if p ch then { ch with recs := ch.recs.map free } else ch) s.chn.chans } }

/-- The next record that can be assigned, once its write has returned: channel, record, image and handler. -/
def nextAssign (s : State) : Option (Nat × RingRec × Nat × Nat) :=
  s.chn.chans.findSome? fun e =>
    match imgOf s e.2.img with
    | none => none
    | some img =>
      if e.2.kind == 1 && handlersOpen s e.2.img img then
        match (firstUnassigned e.2).filter fun x => !recWriting s e.2 x with
        | none => none
        | some x => (handlerFor s e.2.img img e.2.rel).map fun t => (e.1, x, e.2.img, t)
      else none

/-- RECORD_ASSIGN: a ring record is assigned to a live handler, and its run enters RDY (R359). -/
def execRecordAssign (s : State) : Out :=
  match nextAssign s with
  | none => .next s
  | some (k, x, i, t) =>
    match chanOf s k with
    | none => .next s
    | some ch =>
      let recs := modWhere (fun y : RingRec => y.serial == x.serial)
        (fun y => { y with handler := some t }) ch.recs
      let s := setChan s k { ch with recs := recs }
      .next (pushReady s (readyEntry s i ch.ctx t none (some x.serial)))

/-! ### Remote arrivals (R352, R356) -/

/-- A remote message's answer where it is discarded: CHAN_REFUSED to the receiver's context, and an
EPOCH_NOTICE for a closed or newer channel. -/
def refuseArrival (s : State) (k : Option Nat) (key reason len chip : Nat) : State :=
  let notice := fun (s : State) (epoch : Nat) (isOpen : Bool) =>
    let f : Flit :=
      { dest := chip, lane := 0, kind := 4, key := key, epoch := epoch, body := leBytes 112 (b2n isOpen)
        owner := (k.bind fun k => chanOf s k).map fun ch => ch.ctx }
    sendLane0 s f
  match k.bind fun k => chanOf s k with
  | none => notice (setRegBit (addReg s 0x580004 1) 0x580000 31 true) 0 false
  | some ch =>
    let s := refuseSend s ch.ctx 0x1FFFF ch.rel reason len chip 0
    if reason = 1 || reason = 2 then notice s ch.epoch ch.isOpen else s

/-- MSG: a message item from another chip is checked and written to the ring (R352, R356, R357). -/
def execMsg (p : Fin 16) (chip : Fin 4096) (key : BitVec 16) (epoch : Word) (item : List Byte) (s : State) : Out :=
  let s := countRx s p (flitCount item.length)
  let len := leAt item 0 2
  let k := keyChan s key.toNat
  let credit := fun (s : State) =>
    let f : Flit :=
      { dest := chip, lane := 0, kind := 3, key := key.toNat, body := leBytes 4 len ++ leBytes 108 0
        owner := (k.bind fun k => chanOf s k).map fun ch => ch.ctx }
    sendLane0 s f
  match k, k.bind fun k => chanOf s k with
  | some k, some ch =>
    if !ch.isOpen then .next (credit (refuseArrival s (some k) key.toNat 1 len chip))
    else if ch.epoch ≠ epoch.toNat then .next (credit (refuseArrival s (some k) key.toNat 2 len chip))
    else if ch.maxUnits < len then .next (credit (refuseArrival s (some k) key.toNat 3 len chip))
    else if ch.remoteFree < len then .next (credit (refuseArrival s (some k) key.toNat 5 len chip))
    else
      let s := setChan s k { ch with remoteFree := ch.remoteFree - len }
      match writeRec s k len 1 (leAt item 4 4) (leAt item 8 2) 1 chip ((item.drop 16).take (len * 64 - 16)) with
      | (s, true) => .next s
      | (s, false) =>
        let s := deliveryFault s ch.ctx 7 (ringFault s ch len)
        .next (credit (refuseArrival (setChan s k ch) (some k) key.toNat 7 len chip))
  | _, _ => .next (credit (refuseArrival s none key.toNat 1 len chip))

/-- A record of a ring whose write waited for a frame and then faulted is discarded like one that faults at once: a
message is refused with reason RING_FAULT, and the record is passed over (R353, R357). A pad that faults takes the
record behind it along. -/
def lateRingFault (s : State) (k : Nat) (x : RingRec) (va : Nat) : State :=
  match chanOf s k with
  | none => s
  | some ch =>
    let x := if x.kind = 2 then (ch.recs.find? fun y => y.serial == x.serial + 1).getD x else x
    let s := deliveryFault s (match x.sender with | some w => w.ctx | none => ch.ctx) 7 va
    let s :=
      if x.kind ≠ 1 then s
      else match x.sender with
        | some w =>
          let s := refuseSend s w.ctx w.task w.rel 7 x.len (chipId s) w.vint
          match w.img with
          | some i => noteStep s i 8 w.task 0
          | none => s
        | none => refuseArrival s (some k) ch.key 7 x.len x.chip
    let there : Nat → Bool := fun a =>
      decide (ch.ringVa + x.pos * 64 ≤ a) && decide (a < ch.ringVa + (x.pos + x.len) * 64)
    let s := { s with pat := { s.pat with waits := s.pat.waits.filter fun w => match w with
      | .write c a _ => !(c == ch.ctx && there a)
      | _ => true } }
    freeRecord s x.serial

/-- The ring record of a context in whose place an address lies. -/
def recordAt (s : State) (c va : Nat) : Option (Nat × RingRec) :=
  s.chn.chans.findSome? fun e =>
    if e.2.ctx = c then
      (e.2.recs.find? fun x => decide (e.2.ringVa + x.pos * 64 ≤ va) &&
        decide (va < e.2.ringVa + (x.pos + if x.kind = 2 then 1 else x.len) * 64) && !x.freed).map fun x => (e.1, x)
    else none

/-- EPOCH_NOTICE: the SEND records of a key and chip take the notice's epoch and state (R356). -/
def execEpochNotice (p : Fin 16) (chip : Fin 4096) (key : BitVec 16) (epoch : Word) (isOpen : Bool) (s : State) : Out :=
  let s := countRx s p 1
  .next { s with chn := { s.chn with
    chans := tmap (fun _ x =>
      if x.kind == 2 && x.dest == chip.val && x.key == key.toNat then
        { x with epoch := epoch.toNat, isOpen := isOpen }
      else x) s.chn.chans } }

/-! ### Decant (R361, R362) -/

/-- The epoch after `e` (R355). -/
def nextEpoch (e : Nat) : Nat := if e = 2 ^ 32 - 1 then 1 else e + 1

/-- A decanted channel: every record freed, the head at the producer position, all credit back; and how many messages
were discarded. -/
def decantChan (s : State) (k : Nat) (close : Bool) : State × Nat :=
  match chanOf s k with
  | none => (s, 0)
  | some ch =>
    let n := (ch.recs.filter fun x => x.kind == 1 && !x.freed).length
    let s := ch.recs.foldl (fun s x => giveUnits s k x) s
    match chanOf s k with
    | none => (s, 0)
    | some ch => (setChan s k { ch with recs := [], epoch := nextEpoch ch.epoch, isOpen := !close }, n)

end Sys2Proof.Machine
end

