-- ==== Sys2Proof/Machine/Blq.lean ====
section
/-! DEFINITION. Blend queues (R343, R363-R369): records, contributions as they register, commit and are
refused. Intake and adds are in BlqAdd. -/

namespace Sys2Proof.Machine

open Sys2Proof

/-- Fields of a blend record (R343). ORDER: 0 ARRIVAL, 1 TREE, 2 CHAIN, 3 REMOTE. -/
def brOrder (b : List Byte) : Nat := fld (leAt b 0 1) 1 0
def brAccum (b : List Byte) : Bool := bitAt (leAt b 0 1) 2
def brRnd (b : List Byte) : Bool := bitAt (leAt b 0 1) 3
def brChainIn (b : List Byte) : Bool := bitAt (leAt b 0 1) 4
def brAcc (b : List Byte) : Nat := fld (leAt b 1 1) 3 0
def brSrc (b : List Byte) : Nat := fld (leAt b 1 1) 7 4
def brKey (b : List Byte) : Nat := leAt b 2 2
def brDest (b : List Byte) : Nat := fld (leAt b 4 2) 11 0
def brDestKey (b : List Byte) : Nat := leAt b 6 2
def brPort (b : List Byte) : Nat := fld (leAt b 8 1) 4 0
def brDone (b : List Byte) : Nat := leAt b 9 1
def brDoneChan (b : List Byte) : Nat := leAt b 10 2
def brElems (b : List Byte) : Nat := leAt b 12 4
def brContrib (b : List Byte) : Nat := fld (leAt b 16 2) 12 0
def brFirst (b : List Byte) : Nat := leAt b 20 4
def brTarget (b : List Byte) : Nat := leAt b 24 8
def brLeaf (b : List Byte) : Nat := leAt b 32 8
def brXcredit (b : List Byte) : Nat := leAt b 40 4

/-- Bytes of an element of a blend format. -/
def blendSize (fmt : Nat) : Nat :=
  if fmt = 0 || fmt = 3 then 4 else if fmt = 1 || fmt = 2 then 2 else 1

/-- Whether a CHAIN queue has a next link. -/
def brNext (b : List Byte) : Bool := brOrder b == 2 && brDestKey b != 0

/-- A physical queue. -/
def bqOf (s : State) (k : Nat) : Option BlendQ := tget? s.blq.qs k

/-- A physical queue replaced. -/
def setBq (s : State) (k : Nat) (x : BlendQ) : State :=
  { s with blq := { s.blq with qs := tput s.blq.qs k x } }

/-- The physical queue of an image's queue. -/
def imgBq (s : State) (i rel : Nat) : Option Nat :=
  (s.blq.qs.find? fun e => e.2.img == i && e.2.rel == rel).map fun e => e.1

/-- The queue on this chip that a key names. -/
def keyBq (s : State) (key : Nat) : Option Nat :=
  if key = 0 then none else (s.blq.qs.find? fun e => brKey e.2.record == key).map fun e => e.1

/-- Base of a context's BLQ block. -/
def blqCtx (c : Nat) : Nat := 0x601000 + c * 0x10

/-- Fields of a contribution effect request (R363). -/
def contribQueue (d : Nat) : Nat := fld d 119 110
def contribSlot (d : Nat) : Nat := fld d 109 98
def contribSrc (d : Nat) : Nat := fld d 97 56 * 64

/-- 64 B units and flits of an item that a queue sends. -/
def itemUnits (n : Nat) : Nat := cdivN n 64

/-- Bytes of a contribution to a queue. -/
def contribBytes (b : List Byte) : Nat := brElems b * blendSize (brSrc b)

/-- A refused contribution (R364). -/
def refuseContrib (s : State) (c task queue slot reason vint : Nat) : State :=
  let s := setRegBit (setRegBit (addReg s 0x60000C 1) 0x600000 31 true) (blqCtx c) 31 true
  let s := setReg s (blqCtx c + 4) (queue * 2 ^ 22 + slot * 2 ^ 10 + reason * 2 ^ 6)
  raiseEvent s c 0x0121 1 task vint (queue + slot * 2 ^ 10 + reason * 2 ^ 22)

/-- Credit for a remote contribution (R369): none when it does not fit now. -/
def takeContrib (s : State) (r n k c : Nat) : Option State :=
  match bqOf s k with
  | none => none
  | some q =>
    let bytes := contribBytes q.record
    if q.xfree < itemUnits bytes then none
    else match takeFlits s (brPort q.record) c (flitCount bytes) with
      | none => none
      | some (own, s) =>
        let s := setBq s k { q with xfree := q.xfree - itemUnits bytes }
        some (registerEff (modEff s r n fun e =>
          { e with credit := 2, own := own, pool := flitCount bytes - own }) r n)

/-- A contribution registers; a remote one waits for its credit (R369). -/
def registerContrib (s : State) (r n : Nat) : State :=
  match runOf s r with
  | none => s
  | some x =>
    match x.effects[n]? with
    | none => s
    | some e =>
      match (if e.op = 1 then imgBq s x.img (contribQueue e.data) else none) with
      | none => registerEff (modEff s r n fun e => { e with refused := 4 }) r n
      | some k =>
        let s := modEff s r n fun e => { e with target := some k }
        match bqOf s k with
        | none => registerEff s r n
        | some q =>
          if brOrder q.record ≠ 3 then registerEff s r n
          else match (if q.waits.isEmpty then takeContrib s r n k x.ctx else none) with
            | some s => s
            | none =>
              modRun (setBq s k { q with waits := q.waits ++ [(r, n)] }) r fun y =>
                { y with waiting := y.waiting ++ [n] }

/-- The first contribution that waits at a queue takes its credit, if it fits now. -/
def grantContrib (s : State) (k : Nat) : Option State :=
  match bqOf s k with
  | none => none
  | some q =>
    match q.waits with
    | [] => none
    | (r, n) :: rest =>
      match runOf s r with
      | none => some (setBq s k { q with waits := rest })
      | some y => takeContrib (setBq s k { q with waits := rest }) r n k y.ctx

/-- The credit that a remote contribution holds goes back. -/
def freeContrib (s : State) (c : Nat) (e : Eff) : State :=
  match e.target with
  | none => s
  | some k =>
    match bqOf s k with
    | none => s
    | some q =>
      if e.credit = 2 then
        giveFlits (setBq s k { q with xfree := q.xfree + itemUnits (contribBytes q.record) })
          (brPort q.record) c e.own e.pool
      else s

/-- A killed command's contributions are dropped and their credit returns (R258). -/
def blqKill (s : State) (id : Nat) (x : Run) : State :=
  let s := { s with blq := { s.blq with
    qs := tmap (fun _ q => { q with waits := q.waits.filter fun w => w.1 != id }) s.blq.qs } }
  (x.effects.filter fun e => e.unit == 3).foldl (fun s e => freeContrib s x.ctx e) s

/-- The contributor entry of a slot: task, chip, remote (R344). -/
def slotEntry (q : BlendQ) (slot : Nat) : Nat := q.entries.getD slot 0

/-- Why a queue that adds a slot refuses it (R364): `task` and `chip` say who sent it. -/
def slotFault (s : State) (q : BlendQ) (slot task chip : Nat) : Option Nat :=
  let e := slotEntry q slot
  let chipOf := if bitAt e 29 then fld e 28 17 else chipId s
  if brContrib q.record ≤ slot then some 1
  else if fld e 16 0 ≠ task || chipOf ≠ chip then some 2
  else if q.filled.contains slot then some 3
  else none

/-- A contribution committed (R258, R364, R366): refused, or its source read by the translation `src` of the commit
point and taken to its queue's intake or forwarded. -/
def commitContrib (src : Pat) (s : State) (x : Run) (e : Eff) : State :=
  let slot := contribSlot e.data
  let rel := contribQueue e.data
  let refuse := fun (s : State) (reason : Nat) =>
    refuseContrib (freeContrib s x.ctx e) x.ctx x.task rel slot reason x.vint
  if e.refused ≠ 0 then refuse s e.refused
  else match e.target with
    | none => refuse s 4
    | some k =>
      match bqOf s k with
      | none => refuse s 4
      | some q =>
        let task := match imgOf s x.img with | some i => relTask i x.task | none => 0
        let there := brOrder q.record == 3
        match (if there then none else slotFault s q slot task (chipId s)) with
        | some reason => refuse (setBq s k { q with refused := true }) reason
        | none =>
          match readSource s src x.ctx (contribSrc e.data) (contribBytes q.record) with
          | none => notePageFault (freeContrib s x.ctx e) x.ctx 1 (contribSrc e.data / 65536) 0 false x.vint
          | some data =>
            if there then
              let f : Flit :=
                { dest := brDest q.record, lane := 2, kind := 6, key := brDestKey q.record, slot := slot
                  owner := some x.ctx }
              sendItem s (brPort q.record) e.own f data
            else
              let item : Contrib := { slot := slot, data := data, src := some x.ctx, serial := s.blq.next }
              let s := setBq s k { q with filled := q.filled ++ [slot], inQ := q.inQ ++ [item] }
              { s with blq := { s.blq with next := s.blq.next + 1 } }

/-- Units of a chip that a queue holds: items that it has not taken in (R369). -/
def unitsHeld (q : BlendQ) (chip : Nat) : Nat :=
  (q.inQ.filter fun c => c.chip == some chip).foldl (fun n c => n + itemUnits c.data.length) 0

/-- Whether an arrival lies beyond the XCREDIT granted to its chip (R364). The grant is a free value: XCREDIT stands
in the sender's record, and none of the home queue's gives it (DESIGN CHOICE, log entry 40). -/
def beyondGrant (q : BlendQ) (key chip bytes : Nat) : Bool :=
  decide (Config.blendGrant key chip < unitsHeld q chip + itemUnits bytes)

/-- An arrival that no queue takes for reason 4 or 5 (R364, R377). -/
def dropArrival (s : State) : State := setRegBit s 0x600000 29 true

/-- BLEND: a remote contribution is taken to its home queue's intake, or refused (R364, R366, R370). An unused key
belongs to no context, so no event and no BLQ_CTX_LAST tell of it (DESIGN CHOICE, log entry 40). -/
def execBlend (p : Fin 16) (chip : Fin 4096) (key : BitVec 16) (slot : Fin 4096) (item : List Byte) (s : State) : Out :=
  let s := countRx s p (flitCount item.length)
  let credit := fun (s : State) =>
    let f : Flit :=
      { dest := chip, lane := 0, kind := 3, key := key.toNat
        body := leBytes 4 (itemUnits item.length) ++ leBytes 108 1
        owner := ((keyBq s key.toNat).bind fun k => bqOf s k).map fun q => q.ctx }
    sendLane0 s f
  match keyBq s key.toNat with
  | none => .next (credit (dropArrival (setRegBit (addReg s 0x60000C 1) 0x600000 31 true)))
  | some k =>
    match bqOf s k with
    | none => .next s
    | some q =>
      let e := slotEntry q slot
      match slotFault s q slot (fld e 16 0) chip with
      | some reason =>
        .next (credit (refuseContrib (setBq s k { q with refused := true }) q.ctx 0x1FFFF q.rel slot reason q.vint))
      | none =>
        if beyondGrant q key.toNat chip item.length then
          .next (credit (dropArrival
            (refuseContrib (setBq s k { q with refused := true }) q.ctx 0x1FFFF q.rel slot 5 q.vint)))
        else
        let n := contribBytes q.record
        let data := (item ++ List.replicate n 0).take n
        .next (setBq s k { q with
          filled := q.filled ++ [slot.val]
          inQ := q.inQ ++ [{ slot := slot, data := data, chip := some chip }] })

/-- Which of the records that lead to a key and chip takes units back: one that has so many out, a free choice among
several, for the flit names no record (DESIGN CHOICE, log entry 40). -/
def payee {α : Type} (s : State) (t : Table α) (leads owes : α → Bool) : Option (Nat × α) × State :=
  let all := t.filter fun e => leads e.2
  let due := all.filter fun e => owes e.2
  let l := if due.isEmpty then all else due
  match l with
  | [] => (none, s)
  | [e] => (some e, s)
  | _ =>
    let (d, s) := draw s
    (l[Config.freeBelow d l.length]?, s)

/-- REMOTE_CREDIT: units return to the SEND record, or to the queue, that leads to a key and chip
(R352, R369). -/
def execRemoteCredit (p : Fin 16) (chip : Fin 4096) (key : BitVec 16) (units : Word) (queue : Bool) (s : State) : Out :=
  let s := countRx s p 1
  let n := units.toNat
  if queue then
    let leads : BlendQ → Bool := fun q => (brOrder q.record == 3 || brNext q.record) &&
      brDest q.record == chip.val && brDestKey q.record == key.toNat
    match payee s s.blq.qs leads fun q => decide (q.xfree + n ≤ brXcredit q.record) with
    | (some (k, q), s) => .next (setBq s k { q with xfree := q.xfree + n })
    | (none, s) => .next s
  else
    let leads : Chan → Bool := fun x => x.kind == 2 && x.dest == chip.val && x.key == key.toNat
    match payee s s.chn.chans leads fun x => decide (x.remoteFree + n ≤ x.remoteUnits) with
    | (some (k, x), s) => .next (setChan s k { x with remoteFree := x.remoteFree + n })
    | (none, s) => .next s

/-- The first place where a waiting send or contribution can take its credit. -/
def grantAny (s : State) : Option State :=
  match s.chn.chans.findSome? fun e => grantSend s e.1 with
  | some s => some s
  | none => s.blq.qs.findSome? fun e => grantContrib s e.1

end Sys2Proof.Machine
end

