-- ==== Sys2Proof/Machine/Float.lean ====
section
/-! DEFINITION. The number formats and arithmetic of REX, BLQ and the step gate (R391-R398): values held
exactly as signed dyadic numbers, and one rounding into the destination. -/

namespace Sys2Proof.Machine

open Sys2Proof

/-! ### Formats (R391) -/

/-- A floating format: exponent bits, fraction bits, bias, and whether it has infinities. -/
structure Fmt where
  eb : Nat
  fb : Nat
  bias : Nat
  inf : Bool
  deriving DecidableEq, Repr

/-- IEEE 754 binary64, the format of ACC (R394). -/
def f64 : Fmt := { eb := 11, fb := 52, bias := 1023, inf := true }

/-- IEEE 754 binary32. -/
def f32 : Fmt := { eb := 8, fb := 23, bias := 127, inf := true }

/-- The floating format of a code of R391; none for integers and reserved codes. -/
def fmtOf (code : Nat) : Option Fmt :=
  if code = 0 then some f32
  else if code = 1 then some { eb := 8, fb := 7, bias := 127, inf := true }
  else if code = 2 then some { eb := 5, fb := 10, bias := 15, inf := true }
  else if code = 4 then some { eb := 4, fb := 3, bias := 7, inf := false }
  else if code = 5 then some { eb := 5, fb := 2, bias := 15, inf := true }
  else none

/-- Bits of an element of a format code. -/
def fmtBits (code : Nat) : Nat :=
  if code = 0 || code = 3 then 32 else if code = 1 || code = 2 then 16 else 8

/-- Bits of a floating format. -/
def Fmt.bits (f : Fmt) : Nat := 1 + f.eb + f.fb

/-- A value: NaN, an infinity, or (-1)^neg x m x 2^e. -/
inductive FV where
  | nan
  | inf (neg : Bool)
  | fin (neg : Bool) (m : Nat) (e : Int)
  deriving DecidableEq, Repr

/-- The value that a bit pattern spells. -/
def decodeF (f : Fmt) (bits : Nat) : FV :=
  let neg := bitAt bits (f.eb + f.fb)
  let x := fld bits (f.eb + f.fb - 1) f.fb
  let m := bits % 2 ^ f.fb
  let top := 2 ^ f.eb - 1
  if x = top && f.inf then (if m = 0 then .inf neg else .nan)
  else if x = top && decide (m = 2 ^ f.fb - 1) then .nan
  else if x = 0 then .fin neg m (1 - (f.bias : Int) - (f.fb : Int))
  else .fin neg (2 ^ f.fb + m) ((x : Int) - (f.bias : Int) - (f.fb : Int))

/-- The canonical quiet NaN (R395). -/
def nanBits (f : Fmt) : Nat :=
  if f.inf then (2 ^ f.eb - 1) * 2 ^ f.fb + 2 ^ (f.fb - 1) else 2 ^ (f.eb + f.fb) - 1

/-- The sign bit. -/
def signBits (f : Fmt) (neg : Bool) : Nat := b2n neg * 2 ^ (f.eb + f.fb)

/-- The pattern of the largest finite magnitude. -/
def maxBits (f : Fmt) : Nat := if f.inf then (2 ^ f.eb - 1) * 2 ^ f.fb - 1 else 2 ^ (f.eb + f.fb) - 2

/-- A rounding mode: nearest even, or stochastic with its 16 random bits (R397). -/
abbrev Mode := Option Nat

/-- The integer part of m / 2^shift after one rounding, and whether it was raised. -/
def roundShift (mode : Mode) (m shift : Nat) : Nat × Bool :=
  let q := m / 2 ^ shift
  let r := m % 2 ^ shift
  let up := match mode with
    | none => decide (2 ^ shift < 2 * r) || (decide (2 * r = 2 ^ shift) && decide (q % 2 = 1))
    | some bits => decide (65536 ≤ r * 65536 / 2 ^ shift + bits)
  let up := up && decide (r ≠ 0)
  (if up then q + 1 else q, up)

/-- A finite non-zero magnitude rounded once to a format (R393, R396, R397), without its sign. -/
def encodeMag (f : Fmt) (mode : Mode) (m : Nat) (e : Int) : Nat :=
  let top := e + (m.log2 : Int)
  let low : Int := max top (1 - (f.bias : Int)) - (f.fb : Int)
  let (q, up) := if low ≤ e then (m * 2 ^ (e - low).toNat, false) else roundShift mode m (low - e).toNat
  let (q, low) := if 2 ^ (f.fb + 1) ≤ q then (q / 2, low + 1) else (q, low)
  let bits := if q < 2 ^ f.fb then q
    else (low + (f.fb : Int) + (f.bias : Int)).toNat * 2 ^ f.fb + (q - 2 ^ f.fb)
  if bits ≤ maxBits f then bits
  else if !f.inf then maxBits f
  else if mode.isSome && !up then maxBits f
  else (2 ^ f.eb - 1) * 2 ^ f.fb

/-- A value rounded once to a format. An infinity has no place in E4M3 (R396). -/
def encodeF (f : Fmt) (mode : Mode) : FV → Nat
  | .nan => nanBits f
  | .inf neg => if f.inf then signBits f neg + (2 ^ f.eb - 1) * 2 ^ f.fb else nanBits f
  | .fin neg m e => signBits f neg + (if m = 0 then 0 else encodeMag f mode m e)

/-- The value of an integer. -/
def intFV (i : Int) : FV := .fin (decide (i < 0)) i.natAbs 0

/-- An integer held within two's-complement limits of `w` bits. -/
def satInt (w : Nat) (i : Int) : Int := max (-(2 ^ (w - 1) : Nat)) (min i ((2 ^ (w - 1) : Nat) - 1))

/-- A value converted to an integer of `w` bits (R396). -/
def toInt (w : Nat) (mode : Mode) : FV → Int
  | .nan => 0
  | .inf neg => if neg then -(2 ^ (w - 1) : Nat) else (2 ^ (w - 1) : Nat) - 1
  | .fin neg m e =>
    let q := if 0 ≤ e then m * 2 ^ (min e 70).toNat else (roundShift mode m (-e).toNat).1
    satInt w (if neg then -(q : Int) else q)

/-! ### Exact operations (R393) -/

/-- The sign inverted. -/
def FV.neg : FV → FV
  | .nan => .nan
  | .inf s => .inf (!s)
  | .fin s m e => .fin (!s) m e

/-- The magnitude. -/
def FV.abs : FV → FV
  | .nan => .nan
  | .inf _ => .inf false
  | .fin _ m e => .fin false m e

/-- A signed mantissa. -/
def smant (s : Bool) (m : Nat) : Int := if s then -(m : Int) else m

/-- Exact sum. An exact zero sum of unlike signs is +0. -/
def FV.add : FV → FV → FV
  | .nan, _ => .nan
  | _, .nan => .nan
  | .inf s, .inf t => if s = t then .inf s else .nan
  | .inf s, _ => .inf s
  | _, .inf t => .inf t
  | .fin s m e, .fin t n k =>
    let lo := min e k
    let v := smant s (m * 2 ^ (e - lo).toNat) + smant t (n * 2 ^ (k - lo).toNat)
    if v = 0 then .fin (s && t) 0 0 else .fin (decide (v < 0)) v.natAbs lo

/-- Exact product. -/
def FV.mul : FV → FV → FV
  | .nan, _ => .nan
  | _, .nan => .nan
  | .inf s, .inf t => .inf (s != t)
  | .inf s, .fin t n _ => if n = 0 then .nan else .inf (s != t)
  | .fin s m _, .inf t => if m = 0 then .nan else .inf (s != t)
  | .fin s m e, .fin t n k => .fin (s != t) (m * n) (e + k)

/-- A quotient or root with a sticky last bit, far below every destination's last place. -/
def sticky (q : Nat) (exact : Bool) : Nat := 2 * q + b2n (!exact)

/-- Reciprocal (R439). -/
def FV.rcp : FV → FV
  | .nan => .nan
  | .inf s => .fin s 0 0
  | .fin s m e =>
    if m = 0 then .inf s
    else
      let k := m.log2 + 100
      .fin s (sticky (2 ^ k / m) (decide (2 ^ k % m = 0))) (-(k : Int) - e - 1)

/-- The integer square root by `n` binary digits. -/
def isqrtGo (x : Nat) : Nat → Nat → Nat
  | 0, acc => acc
  | n + 1, acc =>
    let t := acc + 2 ^ n
    isqrtGo x n (if t * t ≤ x then t else acc)

/-- The integer square root. -/
def isqrt (x : Nat) : Nat := isqrtGo x (x.log2 / 2 + 1) 0

/-- Square root (R439). -/
def FV.sqrt : FV → FV
  | .nan => .nan
  | .inf s => if s then .nan else .inf false
  | .fin s m e =>
    if m = 0 then .fin s 0 0
    else if s then .nan
    else
      let e' := if e % 2 = 0 then e - 200 else e - 201
      let x := m * 2 ^ (e - e').toNat
      let r := isqrt x
      .fin false (sticky r (decide (r * r = x))) (e' / 2 - 1)

/-- Reciprocal square root (R439). -/
def FV.rsq : FV → FV
  | .nan => .nan
  | .inf s => if s then .nan else .fin false 0 0
  | .fin s m e =>
    if m = 0 then .inf s
    else if s then .nan
    else
      let m' := if e % 2 = 0 then m else 2 * m
      let e' := if e % 2 = 0 then e else e - 1
      let k := m'.log2 + 100
      let x := 2 ^ (2 * k) / m'
      let r := isqrt x
      .fin false (sticky r (decide (r * r * m' = 2 ^ (2 * k)))) (-(k : Int) - e' / 2 - 1)

/-- Whether a value is finite. -/
def FV.finite : FV → Bool
  | .fin _ _ _ => true
  | _ => false

/-- At most, for finite values and infinities, with -0 below +0 (R438); false for a NaN. -/
def FV.le : FV → FV → Bool
  | .nan, _ => false
  | _, .nan => false
  | .inf s, .inf t => s || !t
  | .inf s, _ => s
  | _, .inf t => !t
  | .fin s m e, .fin t n k =>
    let lo := min e k
    let a := smant s (m * 2 ^ (e - lo).toNat)
    let b := smant t (n * 2 ^ (k - lo).toNat)
    if a = 0 && b = 0 then s || !t else decide (a ≤ b)

/-- The numeric order, in which the two zeros are equal (R568). -/
def FV.leNum (a b : FV) : Bool :=
  match a, b with
  | .fin _ 0 _, .fin _ 0 _ => true
  | _, _ => a.le b

/-- MIN and MAX (R438). -/
def FV.min (a b : FV) : FV :=
  match a, b with
  | .nan, _ => .nan
  | _, .nan => .nan
  | _, _ => if a.le b then a else b
def FV.max (a b : FV) : FV :=
  match a, b with
  | .nan, _ => .nan
  | _, .nan => .nan
  | _, _ => if a.le b then b else a

/-! ### binary64 (R394) -/

/-- One add in binary64, on patterns. -/
def add64 (a b : Nat) : Nat := encodeF f64 none ((decodeF f64 a).add (decodeF f64 b))

/-- One subtract and one multiply in binary64, on patterns. -/
def sub64 (a b : Nat) : Nat := encodeF f64 none ((decodeF f64 a).add (decodeF f64 b).neg)
def mul64 (a b : Nat) : Nat := encodeF f64 none ((decodeF f64 a).mul (decodeF f64 b))

/-- A saturating 64-bit integer add, on patterns. -/
def addI64 (a b : Nat) : Nat := unsigned 64 (satInt 64 (signed 64 a + signed 64 b))

/-- One level of the pairwise tree, left to right. -/
def pairUp {α : Type} (f : α → α → α) : List α → List α
  | a :: b :: l => f a b :: pairUp f l
  | l => l

/-- The pairwise tree of R394, by levels. -/
def treeGo {α : Type} (f : α → α → α) : Nat → List α → List α
  | 0, l => l
  | n + 1, l => treeGo f n (pairUp f l)

/-- A list reduced in the pairwise tree. -/
def treeSum {α : Type} (f : α → α → α) (zero : α) (l : List α) : α :=
  (treeGo f (l.length.log2 + 1) l).headD zero

/-! ### Random bits (R398) -/

/-- mix64 (R398). -/
def mix64 (z : BitVec 64) : BitVec 64 :=
  let z := (z ^^^ (z >>> 30)) * 0xbf58476d1ce4e5b9#64
  let z := (z ^^^ (z >>> 27)) * 0x94d049bb133111eb#64
  z ^^^ (z >>> 31)

/-- rnd(v, t, p, n) (R398). -/
def rnd (v t p n : Nat) : Nat :=
  let c : BitVec 64 := 0x9E3779B97F4A7C15#64
  let k := mix64 (BitVec.ofNat 64 v ^^^ mix64 (BitVec.ofNat 64 t + c))
  let w := mix64 (k + BitVec.ofNat 64 (p * 2 ^ 32 + n / 4))
  fld w.toNat (16 * (n % 4) + 15) (16 * (n % 4))

/-! ### CRC-64 (R403) -/

/-- One bit into the CRC-64 of ECMA-182. -/
def crc64Bit (crc : Nat) (b : Bool) : Nat :=
  let sh := crc * 2 % 2 ^ 64
  if bitAt crc 63 != b then sh ^^^ 0x42F0E1EBA9EA3693 else sh

/-- One byte, most significant bit first. -/
def crc64Byte (crc : Nat) (b : Byte) : Nat :=
  (List.range 8).foldl (fun c i => crc64Bit c (bitAt b.toNat (7 - i))) crc

/-- The CRC-64 of a message. -/
def crc64 (bs : List Byte) : Nat := bs.foldl crc64Byte 0

/-! ### Elements of words -/

/-- Elements of a format in a word, low bits first. -/
def wordElems (code w : Nat) : List Nat :=
  let n := fmtBits code
  (List.range (32 / n)).map fun j => fld w (n * j + n - 1) (n * j)

/-- The word of a list of elements. -/
def elemsWord (code : Nat) (l : List Nat) : Nat :=
  let n := fmtBits code
  (l.zipIdx).foldl (fun w e => w + e.1 % 2 ^ n * 2 ^ (n * e.2)) 0

/-- Whether an element of a floating format is a NaN or an infinity; integers never are (R401). -/
def nonFinite (code v : Nat) : Bool :=
  match fmtOf code with
  | some f => !(decodeF f v).finite
  | none => false

end Sys2Proof.Machine
end

