-- ==== Sys2Proof/Machine/Kill.lean ====
section
/-! DEFINITION. Kills, reruns, teardown and the start of a context recovery (R258-R260, R275-R287, R615):
what CMT does with what the units ask of it. -/

namespace Sys2Proof.Machine

open Sys2Proof

/-- Base of a context's CMT block. -/
def cmtCtx (c : Nat) : Nat := 0x481000 + c * 0x20

/-- Whether kills of a cause are followed by a rerun (R275); 13 marks a stop at safe-state entry (R629). -/
def causeReruns (cause : Nat) : Bool := !(8 ≤ cause && cause ≤ 11) && cause != 13

/-- Whether kills of a cause count toward the rerun limit (R275). -/
def causeCounts (cause : Nat) : Bool := (2 ≤ cause && cause ≤ 7) || cause == 12

/-- Order of R290 that a kill of a cause is noted under. -/
def causeOrder (cause : Nat) : Nat :=
  if cause = 7 then 5 else if cause = 3 then 6 else if cause = 2 then 7 else 11

/-- A kill counted in CMT's registers (R291). -/
def countKill (s : State) (c task cause : Nat) : State :=
  let s := addReg (addReg s 0x480010 1) (0x480040 + 4 * cause) 1
  let s := addReg s (cmtCtx c + 0xC) 1
  let s := setReg s (cmtCtx c + 0x10) (cause * 2 ^ 28 + task)
  if cause = 2 then setRegBit (setRegBit s 0x480000 27 true) (cmtCtx c + 8) 31 true
  else if cause = 3 then setRegBit (setRegBit s 0x480000 28 true) (cmtCtx c + 8) 30 true
  else s

/-- A KILLED record (R648). -/
def traceKilled (s : State) (x : Run) (cause : Nat) (staged : Bool) : State :=
  if traceWants s recKilled x.ctx then
    traceCel s (cellarStamp s + recKilled * 2 ^ 42 +
      placeBits x.ctx x.task x.field (coreIndex x.kind x.core) x.engine 0 x.reruns +
      cause * 2 ^ 89 + b2n staged * 2 ^ 93)
  else s

/-- The fresh frames of a command return to the free lists (R53, R277). -/
def freeFresh (s : State) (x : Run) : State := x.fresh.foldl (fun s f => freeFrame s f.frame) s

/-- The fresh frames of a command are held in quarantine (R278). -/
def holdFresh (s : State) (x : Run) : State :=
  x.fresh.foldl (fun s f =>
    let s := setUse s f.frame 4
    { s with disp := { s.disp with quarantine := s.disp.quarantine ++ [f.frame] } }) s

/-- The key under which kills of a task, or of a handler run's message, are counted (R282). -/
def killKey (x : Run) : Nat := match x.msg with
  | some k => 2 ^ 20 + k
  | none => x.task

/-- The T1 run of a context counted as killed; whether its limit is passed (R556). -/
def countT1 (s : State) (x : Run) : State × Bool :=
  let limit := regFld s (cmtCtx x.ctx) 2 0
  let mine : PsmOp → Bool := fun o => (o.kind == 1 || o.kind == 2) && o.ctxs.contains x.ctx
  let n := match s.psm.ops.find? mine with
    | some o => tget 0 o.kills x.core + 1
    | none => 1
  let past := decide (limit < n)
  let ops := modWhere mine (fun o => { o with kills := tput o.kills x.core n, limit := o.limit || past }) s.psm.ops
  ({ s with psm := { s.psm with ops := ops } }, past)

/-- One T1 run of a context less to wait for. -/
def lessT1 (s : State) (c : Nat) : State :=
  { s with psm := { s.psm with
      ops := modWhere (fun o : PsmOp => (o.kind == 1 || o.kind == 2) && o.ctxs.contains c)
        (fun o => { o with left := o.left - 1 }) s.psm.ops } }

/-- A kill that counts, of a command that has started, counted for its task or HANDLER run in the step (R282), or
for its T1 run; a limit passed by it asks for the teardown of the step. -/
def countLimit (s : State) (id : Nat) (x : Run) (cause : Nat) : State :=
  if x.counted || !causeCounts cause || x.state < 3 then s
  else
    let s := modRun s id fun y => { y with counted := true }
    if x.t1 then
      let (s, past) := countT1 s x
      if past then modRun s id fun y => { y with t1Over := true } else s
    else match stepOf s x.img with
      | none => s
      | some st =>
        if st.phase = 3 then s
        else
          let n := tget 0 st.kills (killKey x) + 1
          let s := setStep s x.img { st with
            kills := tput st.kills (killKey x) n, lastCause := tput st.lastCause (killKey x) cause }
          if regFld s (cmtCtx x.ctx) 2 0 < n then ask s (.teardown x.img 10 x.task cause) else s

/-- A rerun enters RDY with its count raised, whether its killed run ran or was staged (R148, R281, R290; log entry
18), unless its step is torn down or a T1 run has passed its limit (R282, R556). -/
def rerunRun (s : State) (x : Run) (cause : Nat) : State :=
  if x.t1 then (if x.t1Over then lessT1 s x.ctx else backReady s (rerunEntry s x true false))
  else
    match stepOf s x.img with
    | none => s
    | some st =>
      if st.phase = 3 || s.asks.any (fun a => a.tearsDown x.img) then s
      else
        let slip := cause == 3
        let st := { st with
          interlocked := if slip then x.task :: st.interlocked else st.interlocked
          reruns := st.reruns + 1 }
        let s := setStep s x.img st
        let r := rerunEntry s x true (x.interlock || slip)
        let s := if cause = 7 && thas s.saf.recov x.ctx && x.taskKind ≠ 2 then
            { s with saf := { s.saf with kept := tput s.saf.kept x.task r } }
          else s
        backReady s r

/-- The end of a kill (step 5 of R277): a run that had started by then, though CMT killed it while it was staged, is
counted now (R282); fresh frames go back, or to quarantine when no END came; the record is freed, and the task reruns
unless its cause ends the step. -/
def finishKill (s : State) (id : Nat) (quarantine : Bool) : State :=
  match runOf s id with
  | none => s
  | some x =>
    let cause := x.killed.getD 0
    let s := countLimit s id x cause
    let x := (runOf s id).getD x
    let s := if quarantine then holdFresh s x else freeFresh s x
    let s := dropRun s id
    if causeReruns cause then rerunRun s x cause else s

/-- A command is marked killed and every unit discards what it holds of it (step 1 of R277, R258). -/
def discardRun (s : State) (id : Nat) (x : Run) : State :=
  let s := modRun s id fun y => { y with effects := [], waiting := [] }
  let s := synKill s id x
  let s := blqKill (chnKill s id x) id x
  { s with pat := { s.pat with waits := PatWait.dropRun id s.pat.waits } }

/-- A kill of a cause counted, noted for the step's status, marked in the commit record, and counted toward the
rerun limit (step 1 of R277, R282). -/
def markKilled (s : State) (id : Nat) (x : Run) (cause : Nat) : State :=
  let s := countKill s x.ctx x.task cause
  let s := if x.t1 || !causeReruns cause then s else noteStep s x.img (causeOrder cause) x.task cause
  countLimit (discardRun (modRun s id fun y => { y with killed := some cause }) id x) id x cause

/-- The WITHDRAW record of a staged task that is killed is discarded (R243). -/
def dropWithdraw (s : State) (id : Nat) : State :=
  let staged := match runOf s id with | some x => x.state == 1 | none => false
  let keep : DispItem → Bool := fun i => match i with
    | .withdraw w => w.run != id || !staged
    | .start _ => true
  { s with disp := { s.disp with
      fields := tmap (fun _ f => { f with dispQ := f.dispQ.filter keep }) s.disp.fields } }

/-- CMT kills a command (R275-R277, R280): nothing past its commit point, and once only. -/
def killRun (s : State) (id cause : Nat) : State :=
  match runOf s id with
  | none => s
  | some x =>
    if x.committed || x.killed.isSome then s
    else
      let s := markKilled s id x cause
      if x.state = 0 then
        let f := fieldOf s x.field
        let s := setField s x.field { f with dispQ := f.dispQ.filter fun i => i != .start id }
        finishKill (traceKilled s x cause true) id false
      else if x.state ≤ 3 then
        let s := dropWithdraw s id
        grantDown s x.field (.kill id)
      else finishKill (traceKilled s x cause false) id false

/-- Uncommitted commands that a test selects, in ascending physical task. -/
def victims (s : State) (p : Run → Bool) : List Nat :=
  (sortBy (fun a b : Nat × Run => decide (a.2.task ≤ b.2.task))
    (s.disp.runs.filter fun e => p e.2 && !e.2.committed)).map fun e => e.1

/-- Every uncommitted command that a test selects is killed with a cause. -/
def killWhere (s : State) (p : Run → Bool) (cause : Nat) : State :=
  (victims s p).foldl (fun s id => killRun s id cause) s

/-- RDY and TMR remove the entries of an image's tasks (R243, step 1 of R287). -/
def removeEntries (s : State) (i : Nat) : State :=
  let gone := s.disp.ready.filter fun r => r.img == i && r.t1.isNone
  let s := gone.foldl (fun s r => traceEntry s r.ctx r.task r.prio r.rank r.since false 7) s
  let late := s.disp.timers.filter fun t => t.img == i
  let s := late.foldl (fun s t =>
    let d := descOf s t.task
    traceTimer s t.ctx t.task (tdPrio d) (effRank s t.ctx d) s.gtb.now false 7) s
  let staged := s.disp.runs.filter fun e =>
    e.2.img == i && !e.2.t1 && decide (e.2.state = 1) && e.2.killed.isNone
  let s := staged.foldl (fun s e =>
    traceEntry s e.2.ctx e.2.task e.2.prio e.2.rank e.2.since false 7) s
  { s with
    disp := { s.disp with
      ready := s.disp.ready.filter fun r => !(r.img == i && r.t1.isNone)
      timers := s.disp.timers.filter fun t => t.img != i
      gates := s.disp.gates.filter fun g => g.1 != i }
    pat := { s.pat with waits := s.pat.waits.filter fun w => match w with
      | .gate j _ _ _ => j != i
      | _ => true } }

/-- The decrements to an image's tasks that TGE has not yet applied are discarded (step 1 of R287). -/
def dropDecs (s : State) (img : Img) : State :=
  { s with tge := { s.tge with decQ := s.tge.decQ.filter fun d => !img.tblk.contains (d.task / 1024) } }

/-- A step is torn down (R287); a message that no committed run consumes goes to a handler of a later step (R362). -/
def tearDown (s : State) (i cause task last : Nat) : State :=
  match stepOf s i, imgOf s i with
  | some st, some img =>
    if st.phase = 3 then s
    else
      let s := dropDecs (removeEntries s i) img
      let s := setStep s i { st with phase := 3, cause := cause, causeTask := task, lastKill := last }
      let s := killWhere s (fun x => x.img == i && !x.t1) cause
      let kept := (s.disp.runs.filter fun e => e.2.committed).filterMap fun e => e.2.msg
      synTeardown (unassign s (fun ch => ch.img == i) kept) i
  | _, _ => s

/-- A step that a kill of this cycle has taken past its rerun limit is torn down in the same cycle, so that its
commands are killed with RERUN_LIMIT where another cause of lower order would reach them too (R276). -/
def tearLimit (s : State) : State :=
  match takeFirst (fun a : Ask => a.limit) s.asks with
  | some (.teardown i cause task last, rest) => tearDown { s with asks := rest } i cause task last
  | _ => s

/-- Whether the kill of a command with a cause would take its task past the rerun limit. -/
def killsLimit (s : State) (cause id : Nat) : Bool :=
  match runOf s id with
  | none => false
  | some x =>
    causeCounts cause && !x.t1 && !x.committed && x.killed.isNone && decide (3 ≤ x.state) &&
    (match stepOf s x.img with
      | some st => st.phase != 3 && decide (regFld s (cmtCtx x.ctx) 2 0 < tget 0 st.kills (killKey x) + 1)
      | none => false)

/-- Every uncommitted command that a test selects is killed with a cause; the kills that end a step go first, and
the step is torn down with them (R276, R282). -/
def killAll (s : State) (p : Run → Bool) (cause : Nat) : State :=
  let s := ((victims s p).filter fun id => killsLimit s cause id).foldl
    (fun s id => tearLimit (killRun s id cause)) s
  killWhere s p cause

/-- A context recovery starts; a second cause that meets it after step 5 has it go back to step 5 (R615, R623). -/
def startRecovery (s : State) (c : Nat) : State :=
  match tget? s.saf.recov c with
  | some 5 => { s with saf := { s.saf with recov := tput s.saf.recov c 4 } }
  | some _ => s
  | none =>
    killAll { s with saf := { s.saf with recov := tput s.saf.recov c 3 } } (fun x => x.ctx == c) 7

/-- One action that a unit asked for. -/
def answer (s : State) : Ask → State
  | .killCtx c cause => killAll s (fun x => x.ctx == c) cause
  | .killRun r cause => killRun s r cause
  | .diverge c => startRecovery (divSeen s c) c
  | .recover c => startRecovery s c
  | .teardown i cause task last => tearDown s i cause task last

/-- The place of a kill cause in the order of R276. -/
def causePlace (cause : Nat) : Nat := [8, 9, 10, 11, 7, 6, 5, 4, 12, 3, 2, 1].findIdx (· == cause)

/-- The cause of the kills that an action makes. -/
def Ask.cause : Ask → Nat
  | .killCtx _ cause => cause
  | .killRun _ cause => cause
  | .diverge _ | .recover _ => 7
  | .teardown _ cause _ _ => cause

/-- Of a cause and those of the actions asked for in the cycle that reach a run, the first in the order of R276. -/
def firstCause (s : State) (id : Nat) (x : Run) (cause : Nat) : Nat :=
  s.asks.foldl (fun m a =>
    let mine := match a with
      | .killCtx c _ => c == x.ctx
      | .killRun r _ => r == id
      | .diverge c | .recover c => c == x.ctx && !thas s.saf.recov c
      | .teardown i _ _ _ => i == x.img && !x.t1
    if mine && decide (causePlace a.cause < causePlace m) then a.cause else m) cause

/-- The actions asked for, those whose cause stands first in R276 first, else in the order of the asking. -/
def firstAsk (l : List Ask) : Option (Ask × List Ask) :=
  let least := l.foldl (fun m a => min m (causePlace a.cause)) 12
  takeFirst (fun a => decide (causePlace a.cause = least)) l

/-- Every action asked for is carried out, with what it asks for in turn. Of the causes that reach one command in
one cycle the first in the order of R276 is its kill's. -/
def settleGo : Nat → State → State
  | 0, s => s
  | fuel + 1, s =>
    match firstAsk s.asks with
    | none => s
    | some (a, rest) => settleGo fuel (answer { s with asks := rest } a)

/-- T1 runs tied to a core that has FAILED are not run again. -/
def dropFailedT1 (s : State) : State :=
  let gone := s.disp.ready.filter fun r => match r.t1 with | some n => (coreOf s n).failed | none => false
  gone.foldl (fun s r =>
    { s with
      disp := { s.disp with ready := s.disp.ready.filter fun q => !sameEntry q r }
      psm := { s.psm with
        ops := modWhere (fun o : PsmOp => (o.kind == 1 || o.kind == 2) && o.ctxs.contains r.ctx)
          (fun o => { o with left := o.left - 1 }) s.psm.ops } }) s

/-- Whether a save or restore is over: its runs have all ended, and of a save no context is in recovery (R556, R557,
R623). -/
def t1Over (s : State) (o : PsmOp) : Bool :=
  (o.kind == 2 || (o.kind == 1 && o.ctxs.all fun c => !thas s.saf.recov c)) && o.left == 0

/-- A save or restore that is over completes; one past the limit with RESULT 0 (R148). -/
def finishT1 (s : State) : State :=
  let s := dropFailedT1 s
  (s.psm.ops.filter (t1Over s)).foldl (fun s o =>
    let c := o.cmd.ctx
    let s := { s with psm := { s.psm with
      ops := s.psm.ops.erase o
      t1 := if o.kind = 1 then tput s.psm.t1 c 2 else tdel s.psm.t1 c } }
    if o.limit then completeWith (setRegBit s (psmCtx c + 0xC) 27 true) o.cmd 0x16 0
    else completeOk s o.cmd o.runs) s

/-- The end of a command's cycle: nothing that was asked for is left, and PSM's saves and restores that
are done complete. -/
def settle (s : State) : State := finishT1 (settleGo 4096 s)

/-- DISPATCH_SELECT: one CCLK of selection; a full DISPATCH queue loses its record (R227, R253). -/
def execDispatchSelect (s : State) : Out :=
  let (s, lost) := selectAll s
  .next (settle (lost.dedup.foldl (fun s f =>
    queueLoss s 0x05 (0x300100 + f * 0x10) (ctxsInField s f fun k => k ≤ 3)) s))

end Sys2Proof.Machine
end

