-- ==== Sys2Proof/Machine/BlqAdd.lean ====
section
/-! DEFINITION. What a blend queue adds (R365-R369): intakes, tree nodes, chains, and the completion
with its target and its done records. -/

namespace Sys2Proof.Machine

open Sys2Proof

/-- The elements of `size` bytes that a byte list spells. -/
def elemsOf (size : Nat) : Nat → List Byte → List Nat
  | 0, _ => []
  | n + 1, b => leNat (b.take size) :: elemsOf size n (b.drop size)

/-- The bytes of elements. -/
def elemBytes (size : Nat) (l : List Nat) : List Byte := (l.map fun v => leBytes size v).flatten

/-- An exact value in an accumulation format, rounded once. -/
def accRound (fmt : Nat) (mode : Mode) (v : FV) : Nat :=
  match fmtOf fmt with
  | some f => encodeF f mode v
  | none => unsigned (fmtBits fmt) (toInt (fmtBits fmt) mode v)

/-- The value of an element. -/
def accElem (fmt v : Nat) : FV :=
  match fmtOf fmt with
  | some f => decodeF f v
  | none => intFV (signed (fmtBits fmt) v)

/-- The rounding mode of element `p` of a queue's add or intake: `slot` keys the random bits and `n` is
1 for an intake (R398). -/
def blendMode (q : BlendQ) (slot p n : Nat) : Mode :=
  if brRnd q.record then some (rnd q.vint (2 ^ 63 + fld (slotEntry q slot) 16 0) p n) else none

/-- A contribution converted to ACC_FMT. -/
def convertIn (q : BlendQ) (slot : Nat) (data : List Byte) : List Nat :=
  let b := q.record
  (elemsOf (blendSize (brSrc b)) (brElems b) data).zipIdx.map fun e =>
    accRound (brAcc b) (blendMode q slot e.2 1) (accElem (brSrc b) e.1)

/-- The element-wise sum of two lists in ACC_FMT, keyed by `slot`. -/
def addLists (q : BlendQ) (slot : Nat) (x y : List Nat) : List Nat :=
  let f := brAcc q.record
  (x.zip y).zipIdx.map fun e =>
    accRound f (blendMode q slot e.2 0) ((accElem f e.1.1).add (accElem f e.1.2))

/-- Whether a queue adds in tree order in this step (R366, R367). -/
def inTree (q : BlendQ) : Bool := brOrder q.record == 1 || (brOrder q.record == 0 && q.repro)

/-- Address of leaf `a` in the leaf area. -/
def leafVa (b : List Byte) (a : Nat) : Nat := brLeaf b + a * brElems b * blendSize (brAcc b)

/-- Whether a write to a leaf still waits for a frame. -/
def leafBlocked (s : State) (q : BlendQ) (a : Nat) : Bool :=
  brLeaf q.record != 0 && rangeBlocked s q.ctx (leafVa q.record a) (brElems q.record * blendSize (brAcc q.record))

/-- A leaf read. What a leaf area that faults reads as is left open. -/
def readLeaf (s : State) (q : BlendQ) (a : Nat) : State × List Nat :=
  let b := q.record
  if brLeaf b = 0 then (s, tget [] q.leaves a)
  else
    let size := blendSize (brAcc b)
    match readVirt s q.ctx (leafVa b a) (brElems b * size) with
    | some bs => (s, elemsOf size (brElems b) bs)
    | none =>
      let (d, s) := draw (notePageFault s q.ctx 1 (leafVa b a / 65536) 0 false q.vint)
      (s, (List.range (brElems b)).map fun i => Config.freeCell d i % 2 ^ (8 * size))

/-- A leaf written, in the leaf area or in the queue's buffer. -/
def writeLeafVal (s : State) (k : Nat) (q : BlendQ) (a : Nat) (l : List Nat) : State :=
  let b := q.record
  if brLeaf b = 0 then setBq s k { q with leaves := tput q.leaves a l }
  else unitWritePlain s q.ctx (leafVa b a) (elemBytes (blendSize (brAcc b)) l)

/-- Elements added are counted (BLQ_ELEM), and the bytes of one operand of the add charged (R546). -/
def countElems (s : State) (q : BlendQ) : State :=
  chargeBytes (addCount s 0x600004 (brElems q.record)) q.ctx (brElems q.record * blendSize (brAcc q.record))

/-! ### Completion (R365, R574) -/

/-- Non-finite result elements counted for the step and flagged. -/
def noteBlendNf (s : State) (q : BlendQ) (n : Nat) : State :=
  if n = 0 then s
  else
    let s := setRegBit (setRegBit s 0x600000 30 true) (blqCtx q.ctx) 30 true
    match stepOf s q.img with
    | some st => setStep s q.img { st with nfStore := satAdd 64 st.nfStore n }
    | none => s

/-- One done record (R365); its SOURCE is left open. -/
def doneRecord (s : State) (q : BlendQ) (k i : Nat) (l : List Nat) : State :=
  let b := q.record
  let n := brElems b / brDone b
  let part := (l.drop (i * n)).take n
  let nf := part.any fun v => nonFinite (brAcc b) v
  let va := brTarget b + i * n * blendSize (brAcc b)
  let body := leBytes 8 va ++ leBytes 4 n ++ leBytes 2 q.rel ++ leBytes 1 i ++ leBytes 1 (b2n nf) ++
    leBytes 8 q.vint ++ List.replicate 24 0
  let (d, s) := draw s
  match chanOf s k with
  | none => s
  | some ch =>
    match writeRec s k 1 3 (Config.freeNat d % 2 ^ 29) 0 2 0 body with
    | (s, true) => s
    | (s, false) => deliveryFault s q.ctx 7 (ringFault s ch 1)

/-- Whether the step of an image runs and is not torn down. -/
def stepLive (s : State) (i : Nat) : Bool :=
  match stepOf s i with | some st => st.phase != 3 | none => false

/-- The done records of a completed queue, once its target's write has been made; none where the step runs no more
(R365, R374). -/
def writeDones (s : State) (k : Nat) : State :=
  match bqOf s k with
  | none => s
  | some q =>
    let b := q.record
    match q.dones with
    | none => s
    | some out =>
      if rangeBlocked s q.ctx (brTarget b) (brElems b * blendSize (brAcc b)) then s
      else
        let s := setBq s k { q with dones := none }
        match imgChan s q.img (brDoneChan b) with
        | some ch =>
          if stepLive s q.img then (List.range (brDone b)).foldl (fun s i => doneRecord s q ch i out) s else s
        | none => s

/-- The done records of every queue whose target has been written. -/
def writeAllDones (s : State) : State := s.blq.qs.foldl (fun s e => writeDones s e.1) s

/-- A queue completes with its result: the target, the done records, and the sum for a next link. One with a refused
slot does not complete in the step (R364). -/
def completeQueue (s : State) (k : Nat) (q : BlendQ) (l : List Nat) : State :=
  if q.refused then s
  else
  let b := q.record
  let size := blendSize (brAcc b)
  let s := setBq s k { q with complete := true, outSums := q.outSums ++ if brNext b then [l] else [] }
  let (s, out) :=
    if brAccum b then
      match readVirt s q.ctx (brTarget b) (brElems b * size) with
      | some bs =>
        let f := brAcc b
        let sum := (l.zip (elemsOf size (brElems b) bs)).zipIdx.map fun e =>
          let mode : Mode := if brRnd b then some (Config.targetRnd q.vint q.rel e.2).toNat else none
          accRound f mode ((accElem f e.1.1).add (accElem f e.1.2))
        (countElems s q, sum)
      | none => (notePageFault s q.ctx 1 (brTarget b / 65536) 0 false q.vint, l)
    else (s, l)
  let s := unitWritePlain s q.ctx (brTarget b) (elemBytes size out)
  let s := noteBlendNf s q (out.filter fun v => nonFinite (brAcc b) v).length
  match bqOf s k with
  | some q => writeDones (setBq s k { q with dones := some out }) k
  | none => s

/-! ### Tree order (R366) -/

/-- Whether node [a, a + 2^k) has its value. -/
def nodeReady (q : BlendQ) (a : Nat) : Nat → Bool
  | 0 => q.taken.contains a
  | k + 1 => if brContrib q.record ≤ a + 2 ^ k then nodeReady q a k else q.nodes.contains (a, k + 1)

/-- Levels of the tree over the slots. -/
def treeLevels (q : BlendQ) : Nat := (brContrib q.record - 1).log2 + 1

/-- The next node add that has become possible: lowest level, then lowest slot. -/
def nextNode (q : BlendQ) : Option (Nat × Nat) :=
  (rangeFrom 1 (treeLevels q)).findSome? fun k =>
    ((List.range (cdivN (brContrib q.record) (2 ^ k))).map fun j => j * 2 ^ k).findSome? fun a =>
      if a + 2 ^ (k - 1) < brContrib q.record && !q.nodes.contains (a, k) &&
          nodeReady q a (k - 1) && nodeReady q (a + 2 ^ (k - 1)) (k - 1) then some (a, k) else none

/-- Whether the root of the tree has its value. -/
def rootReady (q : BlendQ) : Bool := if brContrib q.record ≤ 1 then nodeReady q 0 0 else nodeReady q 0 (treeLevels q)

/-- A queue in tree order completes once its root has its value. -/
def finishTree (s : State) (k : Nat) : State :=
  match bqOf s k with
  | none => s
  | some q =>
    if rootReady q && !q.complete && !leafBlocked s q 0 then
      let (s, l) := readLeaf s q 0
      completeQueue s k ((bqOf s k).getD q) l
    else s

/-- TREE_ADD: one node add that has become possible (R366); with none, a root whose write waited for its
frame is taken. -/
def execTreeAdd (s : State) : Out :=
  let work := s.blq.qs.findSome? fun e =>
    if inTree e.2 && !e.2.complete then
      match nextNode e.2 with
      | some (a, k) =>
        if leafBlocked s e.2 a || leafBlocked s e.2 (a + 2 ^ (k - 1)) then none else some (e.1, e.2, a, k)
      | none => none
    else none
  match work with
  | none => .next (s.blq.qs.foldl (fun s e => if inTree e.2 then finishTree s e.1 else s) s)
  | some (k, q, a, lv) =>
    let r := a + 2 ^ (lv - 1)
    let (s, x) := readLeaf s q a
    let (s, y) := readLeaf s q r
    let s := countElems s q
    let q := { q with nodes := q.nodes ++ [(a, lv)] }
    let s := writeLeafVal (setBq s k q) k q a (addLists q r x y)
    .next (finishTree s k)

/-! ### Chains and running sums (R366) -/

/-- A CHAIN queue adds its incoming sum and then its slots in slot order, as far as they are here. -/
def chainGo (k : Nat) : Nat → State → State
  | 0, s => s
  | fuel + 1, s =>
    match bqOf s k with
    | none => s
    | some q =>
      let b := q.record
      if q.complete || (brChainIn b && q.chainIn.isNone) then s
      else if q.chainPos < brContrib b then
        if !q.taken.contains q.chainPos || leafBlocked s q q.chainPos then s
        else
          let (s, x) := readLeaf s q q.chainPos
          let before := match q.sum with | some v => some v | none => q.chainIn
          let (s, v) := match before with
            | some v => (countElems s q, addLists q q.chainPos v x)
            | none => (s, x)
          chainGo k fuel (setBq s k { q with sum := some v, chainPos := q.chainPos + 1 })
      else
        match (match q.sum with | some v => some v | none => q.chainIn) with
        | some v => completeQueue s k q v
        | none => s

/-- A CHAIN queue goes on. -/
def chainOn (s : State) (k : Nat) : State :=
  match bqOf s k with
  | some q => if brOrder q.record = 2 then chainGo k (brContrib q.record + 2) s else s
  | none => s

/-- Units of an item that a queue has taken in return to the chip that sent it (R369). -/
def returnBlend (s : State) (key chip bytes : Nat) : State :=
  let f : Flit :=
    { dest := chip, lane := 0, kind := 3, key := key, body := leBytes 4 (itemUnits bytes) ++ leBytes 108 1
      owner := ((keyBq s key).bind fun k => bqOf s k).map fun q => q.ctx }
  sendLane0 s f

/-- The next contribution that a queue may take in: not one whose leaf still waits for a frame. -/
def nextIntake (s : State) : Option (Nat × BlendQ × Contrib) :=
  s.blq.qs.findSome? fun e =>
    match e.2.inQ with
    | c :: _ => if leafBlocked s e.2 c.slot then none else some (e.1, e.2, c)
    | [] => none

/-- CONTRIBUTION_INTAKE: a queue takes in its next contribution (R365-R368); with none, a chain whose leaf
waited for its frame goes on. A loss in the data queue (`lost`, log entry 38) has the intake start again from its
source (R378). -/
def execContributionIntake (s : State) (lost : Bool := false) : Out :=
  match nextIntake s with
  | none => .next (s.blq.qs.foldl (fun s e => chainOn s e.1) s)
  | some (k, q, c) =>
    let s := streamLoss s 0x600030 (b2n lost) 0x600000 28
    let b := q.record
    let q := { q with inQ := q.inQ.drop 1, taken := q.taken ++ [c.slot] }
    let v := convertIn q c.slot c.data
    let s := chargeBytes (setBq s k q) q.ctx c.data.length
    let s := match c.chip with | some ch => returnBlend s (brKey b) ch c.data.length | none => s
    if inTree q then .next (finishTree (writeLeafVal s k q c.slot v) k)
    else if brOrder b = 2 then .next (chainOn (writeLeafVal s k q c.slot v) k)
    else
      let (s, sum) := match q.sum with
        | some x => (countElems s q, addLists q c.slot x v)
        | none => (s, v)
      let q := { q with sum := some sum }
      let s := setBq s k q
      .next (if q.taken.length = brContrib b then completeQueue s k q sum else s)

/-- CHAIN: a running sum arrives as the incoming sum of a CHAIN queue (R366). An item that no queue
waits for is refused as one that names no queue. -/
def execChain (p : Fin 16) (chip : Fin 4096) (key : BitVec 16) (item : List Byte) (s : State) : Out :=
  let s := returnBlend (countRx s p (flitCount item.length)) key.toNat chip item.length
  let drop := setRegBit (addReg s 0x60000C 1) 0x600000 29 true
  match keyBq s key.toNat with
  | none => .next drop
  | some k =>
    match bqOf s k with
    | none => .next drop
    | some q =>
      let b := q.record
      if brOrder b = 2 && brChainIn b && q.chainIn.isNone then
        let n := brElems b * blendSize (brAcc b)
        let v := elemsOf (blendSize (brAcc b)) (brElems b) ((item ++ List.replicate n 0).take n)
        .next (chainOn (chargeBytes (setBq s k { q with chainIn := some v }) q.ctx n) k)
      else .next drop

/-- The first completed running sum that can take its credit now is sent on lane 2 (R366, R369). -/
def sendSum (s : State) : Option State :=
  s.blq.qs.findSome? fun e =>
    let q := e.2
    let b := q.record
    match q.outSums with
    | [] => none
    | l :: rest =>
      let bytes := elemBytes (blendSize (brAcc b)) l
      if q.xfree < itemUnits bytes.length then none
      else match takeFlits s (brPort b) q.ctx (flitCount bytes.length) with
        | none => none
        | some (own, s) =>
          let f : Flit := { dest := brDest b, lane := 2, kind := 7, key := brDestKey b, owner := some q.ctx }
          let s := setBq s e.1 { q with outSums := rest, xfree := q.xfree - itemUnits bytes.length }
          some (sendItem s (brPort b) own f bytes)

/-- SEND_CREDIT_GRANT: the first place where something waits for credit takes it (R349, R369). -/
def execSendCreditGrant (s : State) : Out :=
  match grantAny s with
  | some s => .next (settle s)
  | none => .next ((sendSum s).getD s)

/-- The queues of an image return to their initial state at a sweep (R365). Items from other chips
that are dropped give their units back. -/
def resetQueues (s : State) (i : Nat) (repro : Bool) (vint : Nat) : State :=
  let mine := s.blq.qs.filter fun e => e.2.img == i
  mine.foldl (fun s e =>
    let q := e.2
    let s := q.inQ.foldl (fun s c => match c.chip with
      | some ch => returnBlend s (brKey q.record) ch c.data.length
      | none => s) s
    setBq s e.1 { q with
      filled := [], inQ := [], taken := [], chainPos := 0, leaves := [], nodes := [], sum := none,
      chainIn := none, complete := false, refused := false, dones := none, repro := repro, vint := vint }) s

end Sys2Proof.Machine
end

