-- ==== Sys2Proof/Machine/RexCore.lean ====
section
/-! DEFINITION. What other units know of a REX unit: its units, images and registers, the program faults that a
translation raises (R410), and the digest rows and image copies that a late write fault ends (R405, R408). -/

namespace Sys2Proof.Machine

open Sys2Proof

/-! ### Units, images and registers -/

/-- A unit. -/
def unitOf (s : State) (u : Nat) : RexUnit := tget {} s.rex.units u

/-- A unit replaced. -/
def setUnit (s : State) (u : Nat) (x : RexUnit) : State :=
  { s with rex := { s.rex with units := tput s.rex.units u x } }

/-- A unit changed. -/
def modUnit (s : State) (u : Nat) (f : RexUnit → RexUnit) : State := setUnit s u (f (unitOf s u))

/-- An instruction image of a context. -/
def rimgOf (s : State) (c i : Nat) : RexImg := tget {} s.rex.imgs (16 * c + i)

/-- An instruction image replaced. -/
def setRimg (s : State) (c i : Nat) (x : RexImg) : State :=
  { s with rex := { s.rex with imgs := tput s.rex.imgs (16 * c + i) x } }

/-- Length of a generation buffer in instructions; none where it holds no loaded image. -/
def RexImg.len (x : RexImg) (g : Nat) : Option Nat := if g = 0 then x.len0 else x.len1

/-- Block of a context's REX registers. -/
def rexCtx (c : Nat) : Nat := 0x6C0000 + c * 0x40

/-- The instruction region and the digest area of a context. -/
def iregOf (s : State) (c : Nat) : Nat := reg s (rexCtx c) / 2 ^ 21 * 2 ^ 21 + 2 ^ 32 * reg s (rexCtx c + 4)
def digArea (s : State) (c : Nat) : Nat := reg s (rexCtx c + 8) / 4096 * 4096 + 2 ^ 32 * reg s (rexCtx c + 12)

/-- Context virtual address of a generation buffer (R406). -/
def genVa (s : State) (c i g : Nat) : Nat := iregOf s c + (2 * i + g) * 2 ^ 20

/-! ### Program faults (R410) -/

/-- A program fault: both streams stop, and the command is killed with ENGINE_FAULT. -/
def progFault (s : State) (u r : Nat) (x : Run) (code pc addr : Nat) : State :=
  let c := x.ctx
  let s := setRegBit (addReg s 0x680008 1) 0x680004 0 true
  let s := setRegBit s (rexCtx c + 0x1C) 30 true
  let s := setReg s (rexCtx c + 0x20) (code * 2 ^ 28 + (unitOf s u).img * 2 ^ 24 + pc % 2 ^ 17)
  let s := modUnit s u fun y => { y with stopped := true, miss := none }
  let s := raiseEvent s c 0x0130 2 (x.task + u * 2 ^ 17) x.vint
    (code + pc % 2 ^ 17 * 2 ^ 4 + fld addr 47 5 * 2 ^ 21)
  ask s (.killRun r 4)

/-- A data access of a command faults in translation (R410, R468): PAT notes it, and the program stops. -/
def dataFault (s : State) (u r : Nat) (x : Run) (pc addr code : Nat) (write : Bool) : State :=
  progFault (notePageFault s x.ctx code (addr / 65536 % 2 ^ 32) (x.task + u * 2 ^ 17) write x.vint) u r x 4 pc addr

/-! ### Digest rows (R405) -/

/-- Address of the digest row of an image (R405). -/
def digestRow (s : State) (img : Img) : Nat := digArea s img.ctx + img.id * 0x4000

/-- A digest row faults: DIG_FAULT and an error record; the step goes on without digests (R405). The
record's address of a row that no frame holds is left open. -/
def digestFault (s : State) (i : Nat) (img : Img) : State :=
  let (d, s) := draw (setRegBit s 0x680004 2 true)
  let s := record s 1 0x0C 0x53 (some img.ctx) 0 (Config.freeNat d)
  match stepOf s i with
  | some st => setStep s i { st with noDigest := true }
  | none => s

/-! ### Image copies (R407, R408) -/

/-- IMG, BYTES and the target buffer of an IMAGE_LOAD (R407, R408). -/
def ilImg (m : Cmd) : Nat := m.at 4 1 % 16
def ilBytes (m : Cmd) : Nat := m.at 16 4
def ilTarget (s : State) (m : Cmd) : Nat := 1 - (rimgOf s m.ctx (ilImg m)).active % 2

/-- An IMAGE_LOAD fails: the buffer is invalid, and ACTIVE is unchanged. -/
def failImage (s : State) (m : Cmd) (detail : Nat) : State :=
  let x := rimgOf s m.ctx (ilImg m)
  completeWith (setRimg s m.ctx (ilImg m) { x with loading := none }) m 0x13 detail

end Sys2Proof.Machine
end

