-- ==== Sys2Proof/Machine/Kv.lean ====
section
/-! DEFINITION. Release of frames, and the operations that PAT carries out for SLS on KV pages (R473,
R476, R477, R480-R482). -/

namespace Sys2Proof.Machine

open Sys2Proof

/-- A frame that a context no longer maps: free at once when nothing of the context may still read it, else
in deferred release (R473). -/
def releaseFrame (s : State) (c k : Nat) : State :=
  if stillReads s c then deferFrame s c k else freeFrame s k

/-- Base address of a context's backing slots, and their number. -/
def backBase (s : State) (c : Nat) : Nat :=
  reg s (patBase c + 0x10) / 65536 * 65536 + 2 ^ 32 * reg s (patBase c + 0x14)
def backSlots (s : State) (c : Nat) : Nat := regFld s (patBase c + 0x18) 27 0

/-- A backing slot taken or given back. -/
def takeSlot (s : State) (c k : Nat) : State :=
  { s with pat := { s.pat with slots := tput s.pat.slots c (k :: tget [] s.pat.slots c) } }
def dropSlot (s : State) (c k : Nat) : State :=
  { s with pat := { s.pat with
      slots := tput s.pat.slots c ((tget [] s.pat.slots c).filter fun j => j != k) } }

/-- The lowest free backing slot of a context. -/
def freeSlot (s : State) (c : Nat) : Option Nat :=
  let used := tget [] s.pat.slots c
  ((List.range (used.length + 1)).find? fun k => !used.contains k).bind fun k =>
    if k < backSlots s c then some k else none

/-- RESERVE: `n` frames set aside for a context, whole or not at all, that leave `floor` free: MIN_WM for an admission,
0 for growth (R477, R482). -/
def kvReserve (s : State) (c : Nat) (large : Bool) (floor : Nat) : Nat → Option State
  | 0 => some s
  | n + 1 =>
    match kvReserve s c large floor n with
    | none => none
    | some s => (takeFrame s c large 6 floor none).map fun p => p.2

/-- A reserved frame of a context. -/
def reservedFrame (s : State) (c : Nat) (large : Bool) : Option Nat :=
  (s.pat.frames.find? fun e => e.2.ctx == c && e.2.use == 6 && e.2.large == large).map fun e => e.1

/-- MAP: a reserved frame mapped resident; none while it cannot be done (R482). -/
def kvMap (s : State) (c vpn : Nat) (large : Bool) : Option State :=
  match reservedFrame s c large, mapOf s c vpn with
  | some k, none =>
    (ensureTables s c vpn none (walkLevels large)).map fun s =>
      writeLeaf (setUse s k 0) c vpn { large := large, at_ := k }
  | _, _ => none

/-- SPILL: the frame copied to the lowest free backing slot (R482). -/
def kvSpill (s : State) (c vpn : Nat) : Option State :=
  match mapOf s c vpn, freeSlot s c with
  | some m, some k =>
    if m.res = 0 then
      let n := pageBytes m.large
      let host := mcopy s.host s.mem (hostKey s c (backBase s c + k * n)) (m.at_ * 65536) n
      let s := writeLeaf (takeSlot { s with host := host } c k) c vpn { m with res := 1, at_ := k }
      some (releaseFrame (chargeBytes s c n) c m.at_)
    else none
  | _, _ => none

/-- RESTORE: the slot copied back to a reserved frame (R482). -/
def kvRestore (s : State) (c vpn : Nat) : Option State :=
  match mapOf s c vpn with
  | none => none
  | some m =>
    match (if m.res = 1 then reservedFrame s c m.large else none) with
    | none => none
    | some k =>
      let n := pageBytes m.large
      let mem := mcopy s.mem s.host (k * 65536) (hostKey s c (backBase s c + m.at_ * n)) n
      let s := writeLeaf (setUse { s with mem := mem } k 0) c vpn { m with res := 0, at_ := k }
      some (dropSlot (chargeBytes s c n) c m.at_)

/-- DROP: the entry marked dropped and its frame freed (R482). -/
def kvDrop (s : State) (c vpn : Nat) : State :=
  match mapOf s c vpn with
  | none => s
  | some m =>
    if m.res = 0 then releaseFrame (writeLeaf s c vpn { m with res := 2, at_ := 0 }) c m.at_ else s

/-- UNMAP: the entry cleared; its frame or its slot goes back (R482). -/
def kvUnmap (s : State) (c vpn : Nat) : State :=
  match mapOf s c vpn with
  | none => s
  | some m =>
    let s := clearLeaf s c vpn
    if m.res = 0 then releaseFrame s c m.at_ else if m.res = 1 then dropSlot s c m.at_ else s

/-- The unused reservations of a context. -/
def kvHeld (s : State) (c : Nat) : List Nat :=
  (s.pat.frames.filter fun e => e.2.ctx == c && e.2.use == 6).map fun e => e.1

/-- RETURN: `n` unused reservations given back; none where that is more than the context holds (R482). -/
def kvReturn (s : State) (c n : Nat) : Option State :=
  let held := kvHeld s c
  if held.length < n then none else some ((held.take n).foldl freeFrame s)

/-- SLS returns every unused reservation of a context. -/
def returnAll (s : State) (c : Nat) : State := (kvReturn s c (kvHeld s c).length).getD s

/-! ### Releases at commit (R480) -/

/-- Whether a release of `n` pages from page `vpn` is in order: the range lies in one region that is not
a KV region. -/
def releaseOk (s : State) (c vpn n : Nat) : Bool :=
  decide (0 < n) &&
  (match regionAt s c (vpn * 65536) with
   | none => false
   | some g => decide (g.kind ≠ 1) &&
      decide ((pageOf g (vpn * 65536) + n * frameSize g.large) * 65536 ≤ g.base + g.size))

/-- A page unmapped by a release: its frame goes to deferred release. -/
def releasePage (s : State) (c vpn : Nat) : State :=
  match mapOf s c vpn with
  | none => s
  | some m => deferFrame (clearLeaf s c vpn) c m.at_

/-- A release of a task applied or refused (R480): PAGE_REFUSED names the range. -/
def releaseRange (s : State) (c task vint vpn n : Nat) (opOk : Bool) : State :=
  match opOk && releaseOk s c vpn n, regionAt s c (vpn * 65536) with
  | true, some g =>
    let first := pageOf g (vpn * 65536)
    let lo := pageKey c first
    let pages := (s.pat.maps.filter fun e =>
      decide (lo ≤ e.1) && decide (e.1 < lo + n * frameSize g.large)).map fun e => e.1 - pageKey c 0
    pages.foldl (fun s p => releasePage s c p) s
  | _, _ =>
    let s := setRegBit s (patBase c + 0xC) 29 true
    raiseEvent s c 0x0142 1 task vint (vpn + n % 65536 * 2 ^ 32)

/-- A committed release effect request (R480). -/
def commitRelease (s : State) (x : Run) (data : Nat) : State :=
  releaseRange s x.ctx x.task x.vint (fld data 119 88) (fld data 87 72) (fld data 123 120 == 1)

/-- Step 1 of a commit (R269, R472): each fresh frame becomes the committed mapping, with its leaf entry written
at the recorded address and the mapping in the translation cache, and the frame that it supersedes goes to
deferred release. -/
def remapRun (s : State) (x : Run) : State :=
  x.fresh.foldl (fun s f =>
    let old := mapOf s x.ctx f.va
    let s := setUse s f.frame 0
    let m : PageMap := { large := f.large, at_ := f.frame }
    let key := pageKey x.ctx f.va
    let s := { s with
      pat := { s.pat with maps := tput s.pat.maps key m }
      mem := mwriteLE s.mem f.leaf 8 (leafEntry m) }
    let s := enterCache s key
    match old with
    | some m => deferFrame s x.ctx m.at_
    | none => s) s

end Sys2Proof.Machine
end

