-- ==== Sys2Proof/Machine/Trc.lean ====
section
/-! DEFINITION. Trace and counters (R638-R656, R664): TRACE_CTL, the trace streams and their region, and
the engine counters. -/

namespace Sys2Proof.Machine

open Sys2Proof

/-! ### Streams (R641-R645) -/

/-- A stream. -/
def streamOf (s : State) (m : Nat) : TrcStream := tget {} s.trc.streams m

/-- A stream replaced. -/
def setStream (s : State) (m : Nat) (x : TrcStream) : State :=
  { s with trc := { s.trc with streams := tput s.trc.streams m x } }

/-- Bytes of a segment. -/
def segBytes (s : State) : Nat := s.trc.segMiB * 2 ^ 20

/-- A record written at an offset of a stream's segment; false where its translation faults. -/
def writeSlot (s : State) (m off rec : Nat) : State × Bool :=
  let (s, ok) := unitWrite s s.trc.owner (s.trc.base + m * segBytes s + off) (leBytes 16 rec)
  if ok then
    let s := { s with trc := { s.trc with written := s.trc.written + 1 } }
    (if fld rec 45 42 = recLoss then setRegBit s 0xA80000 26 true else s, true)
  else (s, false)

/-- What a FULL_STAMP of a stream says (R649): quality, and group time in time units. -/
def streamTime (s : State) (m : Nat) : Nat × Nat :=
  if m < 8 then
    let k := tget {} s.clk m
    (fieldQ s m k.stamped, if k.clk = 0 then s.gtb.now else k.word)
  else (gtbQ s, s.gtb.now)

/-- A FULL_STAMP record (R649). -/
def fullRec (q t : Nat) : Nat :=
  stampOf q (t / 5120) + recFull * 2 ^ 42 + t / 5120 % 2 ^ 64 * 2 ^ 46 + t % 5120 / 80 * 2 ^ 110 + q * 2 ^ 116

/-- Whether a HALT stream has filled everything before its reserved slot (R643). -/
def streamFull (s : State) (m : Nat) : Bool :=
  s.trc.halt && decide (segBytes s - 16 ≤ (streamOf s m).wptr)

/-- A record at WPTR: in WRAP mode the stream goes on at offset 0 past its end, in HALT mode a full stream
drops the record (R643). -/
def putSlot (s : State) (m rec : Nat) : State × Bool :=
  let x := streamOf s m
  if streamFull s m then
    (setRegBit (setStream s m { x with dropped := satAdd 32 x.dropped 1 }) 0xA80000 28 true, true)
  else
    let (s, ok) := writeSlot s m x.wptr rec
    if ok then
      let next := x.wptr + 16
      let x := if next = segBytes s && !s.trc.halt then { x with wptr := 0, wraps := satAdd 32 x.wraps 1 }
        else { x with wptr := next }
      (setStream s m x, true)
    else (s, false)

/-- A FULL_STAMP written into a stream now (R644). -/
def putFull (s : State) (m : Nat) : State × Bool :=
  let (q, t) := streamTime s m
  let s := setStream s m { streamOf s m with lastFull := s.gtb.now }
  putSlot (if m < 8 then markFieldStamp s m else s) m (fullRec q t)

/-- Whether a FULL_STAMP is due: at the start of a 64 KiB block, and 2^32 ns after the last (R644). -/
def fullDue (s : State) (m : Nat) : Bool :=
  let x := streamOf s m
  decide (x.wptr % 65536 = 0) || decide (x.lastFull + nsUnits (2 ^ 32) ≤ s.gtb.now)

/-- A FULL_STAMP that is due goes in. -/
def putDue (s : State) (m : Nat) : State × Bool := if fullDue s m then putFull s m else (s, true)

/-- A record written to a stream, after the FULL_STAMPs that are due: one that takes the last slot of a block leaves
the first record of the next to be another (R644). -/
def putRecord (s : State) (m rec : Nat) : State × Bool :=
  let (s, ok) := putDue s m
  let (s, ok) := if ok then putDue s m else (s, false)
  if ok then putSlot s m rec else (s, false)

/-- Whether a write of the region still waits (R59, R460). -/
def regionWaits (s : State) : Bool :=
  s.pat.waits.any fun w => match w with
    | .write c va _ => c == s.trc.owner && decide (s.trc.base ≤ va) && decide (va < s.trc.base + 9 * segBytes s)
    | _ => false

/-! ### FLUSH and STOP in progress (R641) -/

/-- Records that every queue holds now, by queue. -/
def queueCounts (s : State) : Table Nat :=
  let b : Table Nat := (s.trc.bufs.filter fun e => !e.2.isEmpty).map fun e => (e.1, e.2.length)
  let b := s.trc.fldQ.foldl (fun (t : Table Nat) e =>
    if e.2.isEmpty then t else tput t (16384 + e.1) e.2.length) b
  let b := if heldRecs s = 0 then b else tput b 16393 (heldRecs s)
  if s.trc.celQ.isEmpty then b else tput b 16392 s.trc.celQ.length

/-- The LOSS record that carries DROPPED, in the reserved slot of each stream of `l` in HALT mode; the stream whose
translation faults, if any (R643, R645). -/
def lossSlots (s : State) : List Nat → State × Option Nat
  | [] => (s, none)
  | m :: l =>
    if s.trc.halt then
      let st := if m < 8 then fieldStamp s m else cellarStamp s
      let r := writeSlot (if m < 8 then markFieldStamp s m else s) m (segBytes s - 16)
        (lossRec st (streamOf s m).dropped (if m < 8 then m else 0) 0x1FF)
      if r.2 then lossSlots r.1 l else (r.1, some m)
    else (s, none)

/-- ACTION of a TRACE_CTL (R639). -/
def tcAction (m : Cmd) : Nat := m.at 4 1 % 4

/-- Writing stops. -/
def stopTrace (s : State) : State :=
  let t := { s.trc with
    on := false, stopping := false, bufs := [], fldQ := [], celQ := [], sched := [], lost := [], celLost := 0 }
  setRegBit { s with trc := t } 0xA80000 31 false

/-- A fault on the trace region (R645): every stream stops, and the owner is told. -/
def faultStop (s : State) (m : Nat) : State :=
  let s := setRegBit (stopTrace s) 0xA80000 29 true
  raiseEvent s s.trc.owner 0x0180 1 m 0 ((streamOf s m).wptr)

/-- Tracing starts (R641): owner, region, segments, and a FULL_STAMP as the first record of each. -/
def startTrace (s : State) (m : Cmd) : State :=
  let va := m.at 8 8
  let mib := m.at 16 4
  let halt := bitAt (m.at 5 1) 0
  let s := { s with trc := { s.trc with
      on := true, owner := m.ctx, base := va, segMiB := mib / 9, halt := halt, streams := [], bufs := []
      lost := [], fldQ := [], celQ := [], sched := [], celLost := 0, written := 0 } }
  let s := setReg (setReg (setReg s 0xA80004 (m.ctx * 2 ^ 24 + mib)) 0xA80008 va) 0xA8000C (va / 2 ^ 32)
  let s := setRegBit (setRegBit s 0xA80000 31 true) 0xA80000 30 halt
  let s := (List.range 9).foldl (fun s k =>
    if s.trc.on then
      let r := putFull s k
      if r.2 then r.1 else faultStop r.1 k
    else s) s
  completeOk s m (mib / 9)

/-- A FLUSH, STOP, or START over a running trace takes effect. A START whose trace a STOP or START that has been
accepted after it is to stop generates no record past its first ones. -/
def finishFlush (s : State) (m : Cmd) : State :=
  if tcAction m = 2 then completeOk s m 0
  else
    let n := s.trc.written
    let s := if trcRuns s then stopTrace s else s
    if tcAction m = 0 then
      let s := startTrace s m
      let stops := s.trc.flushes.any fun e => tcAction e.1 != 2
      { s with trc := { s.trc with on := s.trc.on && !stops } }
    else completeOk s m n

/-- A fault on the trace region ends the commands in progress: a STOP with its count, a START by starting. -/
def regionFault (s : State) (m : Nat) : State :=
  let s := faultStop s m
  let cmds := s.trc.flushes.map fun e => e.1
  cmds.foldl finishFlush { s with trc := { s.trc with flushes := [] } }

/-- A FLUSH, STOP, or START over a running trace whose records are all written writes the LOSS records of HALT mode
and takes effect. -/
def endFlush (s : State) (m : Cmd) : State :=
  let (s, bad) := if trcRuns s then lossSlots s (List.range 9) else (s, none)
  match bad with
  | none => finishFlush s m
  | some k => regionFault { s with trc := { s.trc with flushes := (m, []) :: s.trc.flushes } } k

/-- No LOSS record is due and nothing that TRC holds is left to be written. -/
def trcEmpty (s : State) : Bool :=
  (queueCounts s).isEmpty && s.trc.lost.isEmpty && decide (s.trc.celLost = 0) && !regionWaits s

/-- Whether nothing that a command in progress covers is left: the records it waits for, and for a STOP, or a
START over a running trace, every record and every LOSS record that is due (R44, R641). -/
def flushOver (s : State) (m : Cmd) (t : Table Nat) : Bool :=
  t.isEmpty && !regionWaits s && (tcAction m == 2 || s.trc.on || trcEmpty s)

/-- The commands in progress end in their order, each once nothing that it covers is left. -/
def endFlushes : Nat → State → State
  | 0, s => s
  | fuel + 1, s =>
    match s.trc.flushes with
    | [] => s
    | (m, t) :: rest =>
      if flushOver s m t then
        endFlushes fuel (endFlush { s with trc := { s.trc with flushes := rest } } m)
      else s

/-- The outcome of a write to a stream. -/
def streamWrote (m : Nat) (r : State × Bool) : State := if r.2 then r.1 else regionFault r.1 m

/-! ### TRACE_CTL (R639-R642) -/

/-- The byte of the first reserved bit that is 1, or of a REGION_MIB out of range (R640). -/
def traceFault (m : Cmd) : Option Nat :=
  let a := tcAction m
  if m.at 4 1 / 4 ≠ 0 then some 4
  else if 2 ≤ m.at 5 1 || (a ≠ 0 && m.at 5 1 ≠ 0) then some 5
  else if m.at 6 1 ≠ 0 then some 6
  else if m.at 7 1 ≠ 0 then some 7
  else if a = 0 && (m.at 16 4 < 9 || 4096 < m.at 16 4) then some 16
  else if a = 1 && 16 ≤ m.at 16 1 then some 16
  else if a = 1 && m.at 17 1 ≠ 0 then some 17
  else if a = 1 && m.at 18 1 ≠ 0 then some 18
  else if a = 1 && m.at 19 1 ≠ 0 then some 19
  else firstNonzero m.bytes 20 28

/-- Whether the region of a START lies aligned and wholly in one valid PLAIN region of the context. -/
def regionOk (s : State) (m : Cmd) : Bool :=
  let va := m.at 8 8
  decide (va % 2 ^ 21 = 0) &&
  (match regionAt s m.ctx va with
    | some g => decide (g.kind = 0) && decide (va + m.at 16 4 * 2 ^ 20 ≤ g.base + g.size)
    | none => false)

/-- The checks of R640: DETAIL of a refusal. -/
def traceCheck (s : State) (m : Cmd) : Option Nat :=
  match traceFault m with
  | some d => some d
  | none => if tcAction m = 0 && !regionOk s m then some 8 else none

/-- The next TRACE_CTL, if its ACTION is `a`. -/
def nextTrace (a : Nat) (s : State) : Option (Cmd × State) :=
  match popUnit s fun m => m.opcode == 0x0800 with
  | none => none
  | some (m, t) => if tcAction m = a then some (m, t) else none

/-- A TRACE_CTL of one ACTION is checked, and acts where it passes. -/
def traceCtl (a : Nat) (act : State → Cmd → State) (s : State) : Out :=
  match nextTrace a s with
  | none => .next s
  | some (m, s) =>
    match traceCheck s m with
    | some d => .next (badOperand s m d)
    | none => .next (act s m)

/-- A command waits for every record that the queues hold now; `stop` ends the generation of records. -/
def joinFlush (stop : Bool) (s : State) (m : Cmd) : State :=
  let s := passSched s s.trc.sched
  let s := { s with trc := { s.trc with
      flushes := s.trc.flushes ++ [(m, queueCounts s)], on := s.trc.on && !stop } }
  endFlushes (s.trc.flushes.length) s

/-- TRACE_START (R641): tracing starts, after acting as for STOP where it runs. -/
def execTraceStart (s : State) : Out :=
  traceCtl 0 (fun s m => if trcRuns s then joinFlush true s m else startTrace s m) s

/-- TRACE_FILTER (R641): CTX_MASK and TYPES. -/
def execTraceFilter (s : State) : Out :=
  traceCtl 1 (fun s m =>
    let s := setReg (setReg s 0xA80010 (m.at 8 4)) 0xA80014 (m.at 12 4)
    completeOk (setReg s 0xA80018 (m.at 16 1)) m 0) s

/-- TRACE_FLUSH (R641): completes once every record generated before it has been written. -/
def execTraceFlush (s : State) : Out :=
  traceCtl 2 (fun s m => if trcRuns s then joinFlush false s m else completeOk s m 0) s

/-- TRACE_STOP (R641): as FLUSH, then writing stops; RESULT is the number of records written. -/
def execTraceStop (s : State) : Out :=
  traceCtl 3 (fun s m => if trcRuns s then joinFlush true s m else completeOk s m 0) s

/-! ### Records on their way (R643, R651, R652) -/

/-- A buffer of field `f` that holds records, picked freely (R645). -/
def fullBuf (s : State) (f : Nat) : Option Nat × State :=
  let l := (s.trc.bufs.filter fun e => !e.2.isEmpty && (srcPlace e.1).1 == f).map fun e => e.1
  if l.isEmpty then (none, s)
  else
    let (d, s) := draw s
    (l[Config.freeBelow d l.length]?, s)

/-- A buffer drains one record into the field's write queue (R651). -/
def drainBuf (s : State) (f : Nat) : State :=
  let q := tget [] s.trc.fldQ f
  if 256 ≤ q.length then s
  else match fullBuf s f with
    | (none, s) => s
    | (some src, s) =>
      match tget [] s.trc.bufs src with
      | [] => s
      | r :: rest =>
        let s := { s with trc := { s.trc with
            bufs := if rest.isEmpty then tdel s.trc.bufs src else tput s.trc.bufs src rest
            fldQ := tput s.trc.fldQ f (q ++ [r])
            flushes := s.trc.flushes.map fun e =>
              if thas e.2 src then (e.1, tput e.2 (16384 + f) (q.length + 1)) else e } }
        dueSrc (flushTake s src) src

/-- The oldest record of a field's write queue, or of the cellar trace queue, is written; the LOSS records that
are due go in as soon as there is room (R44, R651). -/
def writeOldest (s : State) (m : Nat) : State :=
  let s := if m < 8 then duesOf s m else dueCel s
  if m < 8 then
    match tget [] s.trc.fldQ m with
    | [] => s
    | r :: rest =>
      let s := flushTake { s with trc := { s.trc with
        fldQ := if rest.isEmpty then tdel s.trc.fldQ m else tput s.trc.fldQ m rest } } (16384 + m)
      streamWrote m (putRecord (duesOf s m) m r)
  else
    match s.trc.celQ with
    | [] => s
    | r :: rest =>
      let s := flushTake { s with trc := { s.trc with celQ := rest } } 16392
      streamWrote m (putRecord (dueCel s) m r)

/-- TRACE_RECORD_WRITE: one record of a stream moves on from its buffer, and the oldest of its queue is
written to the segment; commands whose records are all written end, and so does the last flush of the safe
state (R652). -/
def execTraceRecordWrite (m : Fin 9) (s : State) : Out :=
  if !trcRuns s then .next s
  else
    let s := if m.val < 8 then drainBuf s m else passSched s s.trc.sched
    let s := writeOldest s m
    let s := endFlushes s.trc.flushes.length s
    if s.trc.stopping && trcEmpty s then .next (stopTrace (setRegBit s 0xA80000 25 true))
    else .next s

/-- FULL_STAMP: a stream's next FULL_STAMP falls due, at a block start at once, else 2^32 ns after its last
(R644). -/
def execFullStamp (m : Fin 9) (s : State) : Out :=
  if !s.trc.on then .next s
  else
    let x := streamOf s m
    let s := if x.wptr % 65536 = 0 then s else advanceTo (x.lastFull + nsUnits (2 ^ 32)) s
    .next (streamWrote m (putFull s m))

/-! ### Engine counters (R653-R656) -/

/-- Counter key of an engine: `src` is a core number, or 4096 and a REX number. -/
def engineKey (src e : Nat) : Nat := 10 * (if src < 4096 then 8 * src + e else 65536 + (src - 4096))

/-- Increments added to the ten counters from a key on. -/
def addCounters (t : Table Nat) (k : Nat) : List Nat → Table Nat
  | [] => t
  | n :: l => addCounters (if n = 0 then t else tput t k ((tget 0 t k + n) % 2 ^ 64)) (k + 1) l

/-- Demand kind of engine `e` of a core (R83). -/
def engineKind (s : State) (e : Nat) : Option Nat := (List.range 3).find? fun k => (enginesOf s k).contains e

/-- ACT of the command that runs on an engine charged to its context (R546, R547). -/
def chargeAct (s : State) (core e act : Nat) : State :=
  match engineKind s e, s.disp.runs.find? fun x =>
      x.2.state == 3 && x.2.kind != 3 && x.2.core == core && x.2.engine == e with
  | some k, some (_, x) =>
    let late := pastBoundary s
    modTally s late fun t => t.move x.ctx (if k = 2 then 64 * act else 0) (act * energyCoef s late k)
  | _, _ => s

/-- The counter that a value of ENG_STATE selects: BUSY 0, IDLE 1, STALLr 2 + r (R653). -/
def stateCounter (code : Nat) : Nat :=
  if code = 0 then 1 else if code = 1 then 0 else if 8 ≤ code then code - 6 else 9

/-- Whether a value of ENG_STATE is none of the encoding (R653, R654). -/
def badState (code : Nat) : Bool := decide (2 ≤ code) && decide (code ≤ 7)

/-- Each counter's rise over edges at which ENG_STATE, or the state of a REX in the same encoding, had these values:
one counter by 1 for each edge (R653). -/
def stateCounts (states : List (Fin 16 × Nat)) : List Nat :=
  (List.range 10).map fun k => states.foldl (fun n e => if stateCounter e.1 = k then n + e.2 else n) 0

/-- TRACE_INCREMENT: the increments of an engine, or of REX `src` - 4096, arrive with the engine's summed ACT: how many
cc edges each value of ENG_STATE had (R653). A value outside the encoding sets BAD_STATE_SEEN. An increment that a
TRACE-class queue has `lost` leaves the counters low and sets CNT_LOSS (R655); while FREEZE is 1 it is discarded
(R656). -/
def execTraceIncrement (src : Fin 4224) (e : Fin 8) (states : List (Fin 16 × Nat)) (act : Nat) (lost : Bool)
    (s : State) : Out :=
  if src.val < 4096 && (engineKind s e).isNone then .next s
  else if lost then .next (setRegBit s 0xA80000 24 true)
  else
    let bad := states.any fun p => badState p.1 && decide (0 < p.2)
    let s := if bad && decide (src.val < 4096) then setRegBit s 0xA80000 27 true else s
    let s := if regBit s 0xA80020 30 then s
      else { s with trc := { s.trc with cnt := addCounters s.trc.cnt (engineKey src e) (stateCounts states) } }
    .next (if src.val < 4096 then chargeAct s src e act else s)

/-- A write of TRC_CNT_CTL (R656). -/
def writeCntCtl (s : State) (w : Nat) : State :=
  let s := setReg s 0xA80020 (fld w 30 30 * 2 ^ 30)
  if bitAt w 31 then { s with trc := { s.trc with cnt := [] } } else s

/-- CLEAR: every engine counter becomes 0. -/
def execClear (s : State) : Out := .next { s with trc := { s.trc with cnt := [] } }

/-- FREEZE: the engine counters hold their values, or count again. -/
def execFreeze (b : Bool) (s : State) : Out := .next (setRegBit s 0xA80020 30 b)

/-- The counter that TRC_CNT_SEL selects (R666). -/
def selectedCounter (s : State) : Nat :=
  let w := reg s 0xA80024
  let n := fld w 30 18
  let k := w % 16
  if 10 ≤ k then 0
  else if bitAt w 31 then (if n < Config.numRex then tget 0 s.trc.cnt (engineKey (4096 + n) 0 + k) else 0)
  else if n < Config.numCores && (engineKind s (fld w 17 15)).isSome then
    tget 0 s.trc.cnt (engineKey n (fld w 17 15) + k)
  else 0

end Sys2Proof.Machine
end

