-- ==== Sys2Proof/Machine/Xlt.lean ====
section
/-! DEFINITION. Translation (R464-R472), fresh frames, STREAM fills (R483), and the requests that wait
for frames (R478). -/

namespace Sys2Proof.Machine

open Sys2Proof

/-! ### What a translation comes to -/

/-- The answer to a translation (R466): a frame, a fault, or a wait for a frame or a fill. -/
inductive XRes where
  | frame (pfn : Nat) (large writable prov : Bool) (s : State)
  | fault (code : Nat)
  | wait (s : State)
  deriving DecidableEq, Repr

/-- The fresh frame that a command holds for a page. -/
def freshOf (x : Run) (vpn : Nat) : Option Fresh := x.fresh.find? fun f => f.va == vpn

/-- What a command saw for a page when it first translated it: its frame, or that it was unmapped (R263). -/
def seenOf (x : Run) (vpn : Nat) : Option (Option Nat) := (x.seen.find? fun e => e.1 == vpn).map fun e => e.2

/-- The committed frame of a page; none where it is unmapped. -/
def committedFrame (s : State) (c vpn : Nat) : Option Nat :=
  match mapOf s c vpn with
  | some m => if m.res = 0 then some m.at_ else none
  | none => none

/-- A command's first translation of a page is noted (R263). -/
def markSeen (s : State) (r vpn : Nat) (frame : Option Nat) : State :=
  modRun s r fun x => if (seenOf x vpn).isSome then x else { x with seen := x.seen ++ [(vpn, frame)] }

/-- The stack's zero frame that serves a field (R466). -/
def zeroFrameOf (s : State) (field : Nat) : Nat :=
  (Config.zeroFrame ((stackOrder s (some field)).headD 0)).toNat

/-- Provisional entries (R469). -/
def provisional (s : State) : Nat := s.disp.runs.foldl (fun n e => n + e.2.fresh.length) 0

/-- A page-grant record on its way to CMT (R470): unit 16 marks it. -/
def pageGrant : Eff := { unit := 16, op := 0, data := 0 }

/-- A fresh frame granted to a command (R470, R476, R477): none when it must wait. -/
def grantFresh (s : State) (r : Nat) (x : Run) (g : Region) (vpn : Nat) : Option (Nat × State) :=
  let c := x.ctx
  let size := frameSize g.large
  let tabs := tablesNeeded s c vpn g.large
  if quota s c < usedFrames s c + size + tabs || 57344 ≤ provisional s then none
  else match takeFrame s c g.large 1 (minWm s) (some x.field) with
    | none => none
    | some (k, s) =>
      match ensureTables s c vpn (some x.field) (walkLevels g.large) with
      | none => none
      | some s =>
        let s := if s.pat.cached.contains (pageKey c vpn) then s else addReg s 0x700024 1
        let s := freeWay s (pageKey c vpn)
        let src := (seenOf x vpn).getD (committedFrame s c vpn)
        let s := if g.fill == 1 && src.isSome then chargeBytes s c (pageBytes g.large) else s
        let s := markSeen (fillFrame s k g.large g.fill src) r vpn src
        let s := addReg s 0x700020 1
        let f : Fresh := { va := vpn, large := g.large, frame := k, leaf := (leafAddr s c vpn g.large).getD 0 }
        let s := modRun s r fun x => { x with fresh := x.fresh ++ [f], sent := x.sent + 1 }
        let q := fieldOf s x.field
        let e : EffItem := { run := r, eff := pageGrant }
        some (k, setField s x.field { q with effQ := q.effQ ++ [e] })

/-- A STREAM fill begins with its frame (R477, R483); none when it must wait for one. -/
def startFill (s : State) (c vpn : Nat) (g : Region) (field : Option Nat) (switch ahead : Bool) : Option State :=
  if filling s c vpn then some s
  else match takeFrame s c g.large 5 (minWm s) field with
    | none => none
    | some (k, s) =>
      let f : Fill :=
        { ctx := c, vpn := vpn, frame := k, large := g.large, switch := switch, ahead := ahead, field := field }
      some { s with pat := { s.pat with fills := s.pat.fills ++ [f] } }

/-- An unmapped PLAIN page read with FILL COPY: a frame is filled at once if it can be (R466). -/
def readCopy (s : State) (c vpn : Nat) (g : Region) (field : Nat) : State :=
  (mapForWrite s c vpn g (some field)).getD s

/-- A page of a STREAM region filled ahead, unless it is mapped or filling, no frame can be taken at once, or 64
prefetches are outstanding (R484). -/
def fillAhead (c : Nat) (g : Region) (s : State) (vpn : Nat) : State :=
  if (mapOf s c vpn).isSome || filling s c vpn || vpn * 65536 ≥ g.base + g.size ||
      64 ≤ (s.pat.fills.filter fun f => f.ahead).length then s
  else (startFill s c vpn g none false true).getD s

/-- A task's DATA_PAGE that TGE passes to PAT (R484): a mapped page enters the translation cache, and in a STREAM
region the page and the next PF_DEPTH pages are filled where they are unmapped. Nothing faults or waits. -/
def prefetch (s : State) (c page : Nat) : State :=
  match regionAt s c (page * 65536) with
  | none => s
  | some g =>
    if page = 0 || !ctxEnabled s c then s
    else
      let v := pageOf g (page * 65536)
      let s := match mapOf s c v with
        | some m => if m.res = 0 then enterCache s (pageKey c v) else s
        | none => s
      if g.kind = 2 then
        ((List.range (g.depth + 1)).map fun k => v + k * frameSize g.large).foldl (fillAhead c g) s
      else s

/-- A translation of a running command, in the order of R466. -/
def translate (s : State) (r : Nat) (x : Run) (page : Nat) (write : Bool) : XRes :=
  let c := x.ctx
  match regionAt s c (page * 65536) with
  | none => .fault 1
  | some g =>
    if !ctxEnabled s c then .fault 1
    else
      let vpn := pageOf g (page * 65536)
      if g.kind = 2 then
        if write then .fault 2
        else match mapOf s c vpn with
          | some m => .frame m.at_ m.large false false (markSeen (cacheIn s (pageKey c vpn)) r vpn (some m.at_))
          | none =>
            match startFill s c vpn g (some x.field) false false with
            | some s => .wait s
            | none => .wait (noteWait s c (frameSize g.large))
      else if g.kind = 1 then
        match mapOf s c vpn with
        | some m => if m.res = 0 then .frame m.at_ m.large true false (cacheIn s (pageKey c vpn)) else .fault 3
        | none => .fault 3
      else match freshOf x vpn with
        | some f => .frame f.frame f.large true true s
        | none =>
          if write then
            match grantFresh s r x g vpn with
            | some (k, s) => .frame k g.large true true s
            | none => .wait (noteWait s c (frameSize g.large + tablesNeeded s c vpn g.large))
          else
            let s := if (seenOf x vpn).isNone && (mapOf s c vpn).isNone && g.fill == 1 then readCopy s c vpn g x.field else s
            let k := (seenOf x vpn).getD (committedFrame s c vpn)
            let s := markSeen s r vpn k
            match k with
            | none => .frame (zeroFrameOf s x.field) g.large false false (addReg s 0x700024 1)
            | some k => .frame k g.large false false (cacheIn s (pageKey c vpn))

/-! ### Requests on the translation ports -/

/-- The bits of a response (R465). -/
def respBits (rtag pfn : Nat) (large writable prov : Bool) (fault part : Nat) : Nat :=
  rtag + pfn * 2 ^ 8 + b2n large * 2 ^ 36 + b2n writable * 2 ^ 37 + b2n prov * 2 ^ 38 + fault * 2 ^ 39 +
  part * 2 ^ 43

/-- PART of a context's parcel (R485): no build of more than 8 stacks has one. -/
def partOf (s : State) (c : Nat) : Nat :=
  let p := tget {} s.psm.parcels (parcelOf s c)
  if Config.memStacks ≤ 8 && p.chanMask ≠ 0 then parcelOf s c else 0

/-- A response sent to a field's translation port in the GRANT class (R16, R17). -/
def respond (s : State) (field word : Nat) : State := grantDown s field (.resp word)

/-- A table read of a page's walk fails for good (WALK_ERROR): the error record, and the context diverges (R468). -/
def walkError (s : State) (c va : Nat) : State :=
  let s := setRegBit s 0x700004 27 true
  let g := match regionAt s c va with | some g => g.large | none => false
  let leaf := (leafAddr s c (pageNumber s c va) g).getD 0
  ask (record s 2 0x0D 0x14 (some c) 0 (chipId s * 2 ^ 44 + leaf)) (.diverge c)

/-- A faulted response and what follows (R468). -/
def faultXlt (s : State) (field r : Nat) (x : Run) (req code : Nat) : State :=
  let rex := bitAt req 20
  let source := x.task + (if rex then fld req 12 6 else 0x7F) * 2 ^ 17
  let vpn := fld req 53 22
  let s := notePageFault s x.ctx code vpn source (bitAt req 21) x.vint
  let s := respond s field (respBits (fld req 61 54) 0 false false false code 0)
  if code = 5 then walkError s x.ctx (vpn * 65536)
  else if rex then progFault s x.core r x 4 (unitOf s x.core).acc.pc (vpn * 65536)
  else if x.t1 then ask s (.killRun r 11)
  else ask s (.teardown x.img 11 x.task 11)

/-- A request answered, left waiting, or faulted. -/
def answerXlt (s : State) (field r req : Nat) : State :=
  match runOf s r with
  | none => s
  | some x =>
    match translate s r x (fld req 53 22) (bitAt req 21) with
    | .fault code => faultXlt s field r x req code
    | .wait s => { s with pat := { s.pat with waits := s.pat.waits ++ [.xlt field r req] } }
    | .frame pfn large writable prov s =>
      respond s field (respBits (fld req 61 54) pfn large writable prov 0 (partOf s x.ctx))

/-- The running command that a request names (R464). -/
def reqRun (s : State) (f req : Nat) : Option Nat :=
  (s.disp.runs.find? fun e =>
    e.2.state == 3 && e.2.field == f && e.2.ctx == fld req 5 0 &&
    (if bitAt req 20 then e.2.kind == 3 && e.2.core == fld req 12 6
     else e.2.kind != 3 && e.2.core == fld req 17 6 && e.2.slot == fld req 19 18)).map fun e => e.1

/-- Whether the answer to a request would take a frame: for a write that receives a fresh one, or for a fill (R470,
R483). -/
def needsFrame (s : State) (x : Run) (page : Nat) (write : Bool) : Bool :=
  match regionAt s x.ctx (page * 65536) with
  | none => false
  | some g =>
    let vpn := pageOf g (page * 65536)
    ctxEnabled s x.ctx &&
    ((g.kind == 0 && write && (freshOf x vpn).isNone) ||
     (g.kind == 2 && !write && (mapOf s x.ctx vpn).isNone && !filling s x.ctx vpn))

/-- TRANSLATION_REQUEST: PAT answers a request of a running command; `walkErr` is an uncorrectable
error in a table read after one retry (R466, R468). A request that meets a full request queue (`full`, log entry 38)
is lost (R34, R492). -/
def execTranslationRequest (f : Fin 8) (bits : BitVec 128) (walkErr : Bool) (s : State) (full : Bool := false) : Out :=
  let req := bits.toNat
  match reqRun s f req with
  | none => .next s
  | some r =>
    match runOf s r with
    | none => .next s
    | some x =>
      if full then
        .next (settle (fullLoss s 0x0D (0x700100 + f * 0x10) (ctxsInField s f fun k => 1 ≤ k && k ≤ 3)))
      else if walkErr then .next (settle (faultXlt s f r x req 5))
      else if heldBack s x.ctx && needsFrame s x (fld req 53 22) (bitAt req 21) then
        .next (setRegBit { s with pat := { s.pat with waits := s.pat.waits ++ [.xlt f r req] } } 0x700004 31 true)
      else .next (settle (answerXlt s f r req))

/-- The image copy in progress of a context into which an address falls, with the offset. -/
def copyAt (s : State) (c va : Nat) : Option (Cmd × Nat) :=
  (List.range 16).findSome? fun i => match (rimgOf s c i).loading with
    | some (m, k) =>
      let base := genVa s c i (k % 2)
      if base ≤ va && va < base + ilBytes m then some (m, va - base) else none
    | none => none

/-- The image of a context into whose digest row an address falls (R405). -/
def digestAt (s : State) (c va : Nat) : Option (Nat × Img) :=
  if digArea s c = 0 then none
  else s.tge.imgs.find? fun e => e.2.ctx == c && decide (digestRow s e.2 ≤ va) && decide (va < digestRow s e.2 + 8256)

/-- A unit's write that waited for a frame faults when it is tried again: it is handled as its unit's chapter lays down
(R353, R405, R408, R645), else as R460 does. -/
def lateWriteFault (s : State) (c va : Nat) : State :=
  if trcRuns s && c == s.trc.owner && decide (s.trc.base ≤ va) && decide (va < s.trc.base + 9 * segBytes s) then
    regionFault s ((va - s.trc.base) / segBytes s)
  else match recordAt s c va, copyAt s c va, digestAt s c va with
    | some (k, x), _, _ => lateRingFault s k x va
    | none, some (m, off), _ => failImage s m (9 * 2 ^ 28 + off)
    | none, none, some (i, img) => digestFault s i img
    | none, none, none => notePageFault s c 1 (va / 65536) 0 true 0

/-- A waiting access of a REX command faults: its program stops (R410). -/
def rexWaitFault (s : State) (r : Nat) (x : Run) (va code : Nat) (write : Bool) : State :=
  dataFault s x.core r x (unitOf s x.core).acc.pc va code write

/-- One waiting request tried: its effect, if it can proceed now, or the fill that it begins to wait for; its context
has then had its turn (R478, R483). -/
def tryWait (s : State) (w : PatWait) : Option State :=
  let s := { s with pat := { s.pat with served := waitCtx s w } }
  let s' := { s with pat := { s.pat with waits := s.pat.waits.filter fun v => v != w } }
  let filled := fun t : State =>
    if s.pat.fills.length < t.pat.fills.length then some { t with pat := { t.pat with waits := s.pat.waits } } else none
  match w with
  | .write c va bs =>
    match writePage s c va bs with
    | .done t => some { t with pat := { t.pat with waits := t.pat.waits.filter fun v => v != w } }
    | .wait => none
    | .fault => some (lateWriteFault s' c va)
  | .xlt f r req =>
    match runOf s r with
    | none => some s'
    | some x =>
      match translate s' r x (fld req 53 22) (bitAt req 21) with
      | .wait t => filled t
      | _ => some (answerXlt s' f r req)
  | .rex r va write =>
    match runOf s r with
    | none => some s'
    | some x =>
      match translate s' r x (va / 65536) write with
      | .wait t => filled t
      | .fault code => some (rexWaitFault s' r x va code write)
      | .frame _ _ _ _ t => some t
  | .gate i t c va =>
    match regionAt s c va with
    | none => some s'
    | some g =>
      if !s.disp.gates.contains (i, t) || (mapOf s c (pageOf g va)).isSome then some s'
      else (startFill s' c (pageOf g va) g none false false).bind filled

/-- Whether a waiting request is a unit's own write. -/
def PatWait.isWrite : PatWait → Bool
  | .write _ _ _ => true
  | _ => false

/-- The first waiting request of each context, in order of arrival: it holds back the rest (R478). -/
def firstPerCtx (s : State) : List Nat → List PatWait → List PatWait
  | _, [] => []
  | seen, w :: l =>
    if seen.contains (waitCtx s w) then firstPerCtx s seen l
    else w :: firstPerCtx s (waitCtx s w :: seen) l

/-- The heads of the contexts' waiting requests that are unit writes or not, the contexts in turn from the one after
that served last (R478). -/
def headsOf (s : State) (write : Bool) : List PatWait :=
  sortBy (fun a b => decide ((waitCtx s a + 63 - s.pat.served) % 64 ≤ (waitCtx s b + 63 - s.pat.served) % 64))
    ((firstPerCtx s [] (s.pat.waits.filter fun w => !waitsFill s w)).filter fun w => w.isWrite == write)

/-- The heads of the waiting requests: unit writes before commands' requests (R478). -/
def waitHeads (s : State) : List PatWait := headsOf s true ++ headsOf s false

/-- The first waiting request that can have its frame takes it (R478). -/
def frameGrant (s : State) : State :=
  match (waitHeads s).findSome? fun w => tryWait s w with
  | some s => settle s
  | none => s

/-- A frame of deferred release whose readers have ended (R473). -/
def deferredDone (s : State) (d : Deferred) : Bool :=
  (d.runs.all fun r => match runOf s r with
    | some x => x.ended || x.state != 3
    | none => true) &&
  (d.recs.all fun n => !(liveRecs s d.ctx).contains n) && (d.intakes.all fun n => !(liveIntakes s d.ctx).contains n)

/-- DEFERRED_RELEASE: the first superseded or released frame whose readers have ended returns to the free
list (R473). -/
def execDeferredRelease (s : State) : Out :=
  match takeFirst (fun d => deferredDone s d) s.pat.deferred with
  | none => .next s
  | some (d, rest) => .next (freeFrame { s with pat := { s.pat with deferred := rest } } d.frame)

/-- PREZERO of a stack, in small frames (R474, R491). -/
def prezero (s : State) : Nat := regFld s 0x700000 15 8 * 16

/-- FRAME_ZEROED: a free frame of a stack enters its pre-zeroed pool, up to PREZERO (R474). -/
def execFrameZeroed (st : Fin 24) (s : State) : Out :=
  let n := tget 0 s.pat.pool st
  if n < prezero s && n < stackFree s st && regBit s 0x700000 0 then
    .next { s with pat := { s.pat with pool := tput s.pat.pool st (n + 1) } }
  else .next s

/-- The bytes that fill a STREAM page, from host memory or from the context's own PLAIN pages (R483): none for a read
error or translation fault. -/
def fillSource (s : State) (c vpn : Nat) (g : Region) : Option (List Byte) :=
  let src := g.src + (vpn * 65536 - g.base)
  if g.stacked && !allPlain s c src (pageBytes g.large) then none
  else readSrc s c g.stacked src (pageBytes g.large)

/-- The oldest fill ends (STREAM_FILL_DONE); the page is mapped and every request that waited for it is
answered, or the fill fails with FILL_ERROR (R466, R483). -/
def fillDone (readOk : Bool) (s : State) : State :=
  match s.pat.fills with
  | [] => s
  | f :: rest =>
    let s := { s with pat := { s.pat with fills := rest } }
    let mine := s.pat.waits.filter (asksPage s f.ctx f.vpn)
    let s := { s with pat := { s.pat with waits := s.pat.waits.filter fun w => !mine.contains w } }
    let src := match regionAt s f.ctx (f.vpn * 65536) with
      | some g => if readOk then fillSource s f.ctx f.vpn g else none
      | none => none
    match src with
    | some bytes =>
      match ensureTables s f.ctx f.vpn f.field (walkLevels f.large) with
      | none => { s with pat := { s.pat with fills := f :: rest, waits := mine ++ s.pat.waits } }
      | some s =>
        let s := { setUse s f.frame 0 with mem := mwriteBytes s.mem (f.frame * 65536) bytes }
        let s := writeLeaf s f.ctx f.vpn { large := f.large, at_ := f.frame }
        let s := chargeBytes s f.ctx (pageBytes f.large)
        let s := { s with psm := { s.psm with
          ops := s.psm.ops.map fun o => if f.switch && o.kind == 3 && o.cmd.ctx == f.ctx then
            { o with pages := o.pages.filter fun v => v != f.vpn, filled := o.filled + 1 } else o } }
        settle (mine.foldl (fun s w => match w with
          | .xlt fl r req => answerXlt s fl r req
          | _ => s) s)
    | none =>
      let s := freeFrame s f.frame
      let s := { s with psm := { s.psm with
        ops := s.psm.ops.map fun o => if f.switch && o.kind == 3 && o.cmd.ctx == f.ctx then
          { o with limit := true, pages := [] } else o } }
      settle (mine.foldl (fun s w => match w with
        | .xlt fl r req => match runOf s r with
          | some x => faultXlt s fl r x req 4
          | none => s
        | .rex r va write => match runOf s r with
          | some x => rexWaitFault s r x va 4 write
          | none => s
        | .gate i t _ va => match stepOf s i with
          | some st => setStep s i { st with gateFaults := st.gateFaults ++ [(t, va)] }
          | none => s
        | .write _ _ _ => s) s)

/-- Every frame, table, slot and mapping of a context goes (R488). -/
def releaseCtx (s : State) (c : Nat) : State :=
  let mine := (s.pat.frames.filter fun e => e.2.ctx == c && e.2.use != 4).map fun e => e.1
  let s := mine.foldl freeFrame s
  let lo := c * 2 ^ 32
  { s with pat := { s.pat with
      tframes := tfilter (fun _ f => f.ctx != c) s.pat.tframes
      tabs := tfilter (fun k _ => k / 2 ^ 30 != c) s.pat.tabs
      maps := tfilter (fun k _ => k < lo || lo + 2 ^ 32 ≤ k) s.pat.maps
      deferred := s.pat.deferred.filter fun d => d.ctx != c
      waits := s.pat.waits.filter fun w => waitCtx s w != c
      fills := s.pat.fills.filter fun f => f.ctx != c
      slots := tdel s.pat.slots c
      cached := s.pat.cached.filter fun k => decide (k < lo) || decide (lo + 2 ^ 32 ≤ k) } }

/-- PAT_RELEASE: a write of PAT_CTX_CFG with RELEASE set (R488). -/
def execPatRelease (c : Fin 64) (s : State) : Out :=
  if !ctxEnabled s c && ctxIdle s c then .next (releaseCtx s c)
  else .next (setRegBit s (patBase c + 0xC) 28 true)

end Sys2Proof.Machine
end

