-- ==== Sys2Proof/Machine/RexBase.lean ====
section
/-! DEFINITION. REX units (R381-R433): streams, tiles, queues, the instruction cache, program faults,
slips, and the memory accesses and effect requests of a command. -/

namespace Sys2Proof.Machine

open Sys2Proof

/-! ### Streams and tiles -/

/-- A stream, access or execute. -/
def strOf (x : RexUnit) (exe : Bool) : RexStream := if exe then x.exe else x.acc

/-- A stream replaced. -/
def setStr (x : RexUnit) (exe : Bool) (t : RexStream) : RexUnit :=
  if exe then { x with exe := t } else { x with acc := t }

/-- A tile word. -/
def tileWord (x : RexUnit) (t w : Nat) : Nat := tget 0 x.tiles (t * 4096 + w)

/-- A tile word written; zero words are not listed. -/
def setTile (x : RexUnit) (t w v : Nat) : RexUnit :=
  { x with tiles := if v = 0 then tdel x.tiles (t * 4096 + w) else tput x.tiles (t * 4096 + w) v }

/-- An ACC entry, as a 64-bit pattern. -/
def accOf (x : RexUnit) (k : Nat) : Nat := tget 0 x.accf k

/-- An ACC entry written. -/
def setAcc (x : RexUnit) (k v : Nat) : RexUnit :=
  { x with accf := if v = 0 then tdel x.accf k else tput x.accf k v }

/-- A data queue. -/
def aqOf (x : RexUnit) (q : Nat) : List (List Nat) := tget [] x.aq q

/-- A data queue replaced. -/
def setAq (x : RexUnit) (q : Nat) (l : List (List Nat)) : RexUnit := { x with aq := tput x.aq q l }

/-! ### Slips (R411, R450, R451) -/

/-- The cc since a command started, less those that its field's clock lost (R108, R451). -/
def runCc (s : State) (x : Run) : Nat := x.charged + (dueEdges s x).1 + (dueEdges s x).2.1

/-- A pending write is made. -/
def landWrite (y : RexUnit) : RexWrite → RexUnit
  | .tile t w v => setTile y t w v
  | .acc k v => setAcc y k v
  | .add k v float => setAcc y k ((if float then add64 else addI64) (accOf y k) v)

/-- No result of the slipping instruction of a stream stands: what its rows wrote over is back, and what they pushed to
the queues `qs` and nobody has popped is gone (R450). -/
def undoRows (y : RexUnit) (exe : Bool) (qs : List Nat) : RexUnit :=
  let t := strOf y exe
  let y := t.undo.reverse.foldl landWrite y
  let y := qs.foldl (fun y q => setAq y q ((aqOf y q).take ((aqOf y q).length - t.rows))) y
  setStr y exe { t with rows := 0, held := [], undo := [] }

/-- A slip of a command on its static schedule: `kind` is 1 for a push to a full queue, and `qs` are the queues to which
the instruction pushes. -/
def rexSlip (s : State) (u r : Nat) (x : Run) (pc q kind : Nat) (qs : List Nat) (exe : Bool) : State :=
  let s := modUnit s u fun y => { undoRows y exe qs with stopped := true }
  let cc := min (runCc s x) (2 ^ 32 - 1)
  let s := raiseEvent s x.ctx 0x0131 0 (x.task + u * 2 ^ 17) x.vint
    (pc % 2 ^ 17 + b2n exe * 2 ^ 17 + q * 2 ^ 18 + kind * 2 ^ 20 + cc * 2 ^ 32)
  ask s (.killRun r 3)

/-! ### Fetch (R409) -/

/-- Key of an instruction-cache line. -/
def lineKey (c i g line : Nat) : Nat := ((c * 16 + i) * 2 + g) * 4096 + line

/-- What a fetch finds: the word, a miss, or an index beyond the image. -/
inductive Fetched where
  | word (w : Nat)
  | miss (key : Nat)
  | beyond
  deriving DecidableEq, Repr

/-- The instruction at an index of the command's recorded generation. -/
def fetchAt (s : State) (x : RexUnit) (c pc : Nat) : Fetched :=
  match (rimgOf s c x.img).len x.gen with
  | none => .beyond
  | some n =>
    if n ≤ pc then .beyond
    else
      let key := lineKey c x.img x.gen (pc / 32)
      match x.lines.find? fun e => e.1 == key with
      | some (_, b) => .word (leAt b (pc % 32 * 8) 8)
      | none => .miss key

/-- A miss stalls both streams. -/
def noteMiss (s : State) (u key : Nat) : State :=
  if (unitOf s u).miss = some key then s
  else modUnit (addReg s 0x68000C 1) u fun y => { y with miss := some key }

/-- PROG at ENTRY decoded (R418). -/
def decodeProg (s : State) (u r : Nat) (x : Run) : State :=
  let y := unitOf s u
  match fetchAt s y x.ctx y.entry with
  | .beyond => progFault s u r x 2 y.entry 0
  | .miss key => noteMiss s u key
  | .word w =>
    let xe := fld w 16 0
    if fld w 63 58 ≠ 0x3F || xe = y.entry then progFault s u r x 3 y.entry 0
    else if ((rimgOf s x.ctx y.img).len y.gen).getD 0 ≤ xe then progFault s u r x 2 y.entry 0
    else modUnit s u fun y => { y with
      starting := false
      acc := { pc := y.entry + 1 }
      exe := { pc := xe } }

/-- A REX command starts (R417-R419): its state is cleared, ACC takes the vintage and the seed. -/
def rexStart (s : State) (u r : Nat) (x : Run) : State :=
  let d := descOf s x.task
  let i := leAt d 32 1 % 16
  let g := match stepOf s x.img with
    | some st => if x.t1 then (rimgOf s x.ctx i).active else tget (rimgOf s x.ctx i).active st.gens i
    | none => (rimgOf s x.ctx i).active
  let y : RexUnit :=
    { unitOf s u with
      run := some r, starting := true, stopped := false, img := i, gen := g, entry := fld (leAt d 36 4) 16 0
      acc := {}, exe := {}, tiles := [], accf := [], aq := [], late := [], behind := [], arriving := [], lanes := [], miss := none }
  let s := setUnit s u (setAcc (setAcc y 62 x.vint) 63 x.seed)
  match (rimgOf s x.ctx i).len g with
  | none => progFault s u r x 1 (fld (leAt d 36 4) 16 0) 0
  | some _ => decodeProg s u r x

/-- ICACHE_FILL: the miss of a unit is filled and both streams resume (R409); the cache holds 256
lines. -/
def execIcacheFill (u : Fin 128) (s : State) : Out :=
  let y := unitOf s u
  match y.miss, y.run.bind fun r => (runOf s r).map fun x => (r, x) with
  | some key, some (r, x) =>
    let va := genVa s x.ctx (key / 8192 % 16) (key / 4096 % 2) + key % 4096 * 256
    match readVirt s x.ctx va 256 with
    | none =>
      let code := if (regionAt s x.ctx va).isNone || !ctxEnabled s x.ctx then 1 else 3
      .next (settle (dataFault s u r x (key % 4096 * 32) va code false))
    | some b =>
      let old := if y.lines.length < 256 then y.lines else y.lines.drop 1
      let s := setUnit s u { y with lines := old ++ [(key, b)], miss := none }
      .next (settle (if y.starting then decodeProg s u r x else s))
  | _, _ => .next s

/-- SPAD_READY: the licensee lowers or raises SPAD_READY of a REX (R56, R389). -/
def execSpadReady (u : Fin 128) (b : Bool) (s : State) : Out :=
  .next (modUnit s u fun y => { y with spad := b })

/-! ### Issue -/

/-- The next instruction of a stream, when it may issue: unit running, no stall, no barrier. -/
inductive Issue where
  | none
  | stop (s : State)
  | go (r : Nat) (x : Run) (pc w : Nat)
  deriving DecidableEq, Repr

/-- The opcode that a row of the command table names, met by its stream. -/
def issueAt (s : State) (u : Nat) (exe : Bool) (op : Nat) : Issue :=
  let y := unitOf s u
  match y.run.bind fun r => (runOf s r).map fun x => (r, x) with
  | none => .none
  | some (r, x) =>
    let t := strOf y exe
    if y.starting || y.stopped || y.miss.isSome || !y.spad || t.done || t.bar.isSome || x.killed.isSome then .none
    else match fetchAt s y x.ctx t.pc with
      | .beyond => .stop (progFault s u r x 2 t.pc 0)
      | .miss key => .stop (noteMiss s u key)
      | .word w =>
        let o := fld w 63 58
        let accOp := (0x08 ≤ o && o ≤ 0x0F) || (0x10 ≤ o && o ≤ 0x12)
        let exeOp := (0x20 ≤ o && o ≤ 0x2D) || (0x30 ≤ o && o ≤ 0x35)
        if !(o ≤ 3 || (if exe then exeOp else accOp)) then .stop (progFault s u r x 3 t.pc 0)
        else if o = op then .go r x t.pc w
        else .none

/-- The index after an instruction, through the ends of loop bodies (R447). -/
def advancePc (t : RexStream) : Nat → RexStream
  | 0 => t
  | fuel + 1 =>
    match t.loops with
    | [] => t
    | l :: ls =>
      if t.pc ≠ l.stop then t
      else if 0 < l.left then
        { t with
          pc := l.first
          loops := { l with left := l.left - 1 } :: ls
          idx := tput t.idx l.lv (tget 0 t.idx l.lv + 1) }
      else advancePc { t with loops := ls, idx := tput t.idx l.lv 0 } fuel

/-- An instruction of a stream has issued: the stream passes to the next. -/
def stepPc (s : State) (u : Nat) (exe : Bool) : State :=
  modUnit s u fun y =>
    let t := strOf y exe
    setStr y exe (advancePc { t with pc := t.pc + 1, rows := 0, held := [], undo := [] } 5)

/-! ### Memory of a command (R263, R426) -/

/-- A memory access of a command: done, a fault at an address with its code of R466, or a wait. -/
inductive MemRes (α : Type) where
  | ok (a : α) (s : State)
  | fault (addr code : Nat)
  | wait (s : State)
  deriving DecidableEq, Repr

/-- The translation of an access of a command to a page: one that must wait joins the waiting requests, of which each
access has one at most (R478, R483). -/
def cmdXlt (s : State) (r : Nat) (x : Run) (va : Nat) (write : Bool) : XRes :=
  let me : PatWait := .rex r va write
  let join := fun s : State => { s with pat := { s.pat with waits := s.pat.waits ++ [me] } }
  if s.pat.waits.contains me then .wait s
  else if heldBack s x.ctx && needsFrame s x (va / 65536) write then .wait (join (setRegBit s 0x700004 31 true))
  else match translate s r x (va / 65536) write with
    | .wait s => .wait (join s)
    | a => a

/-- Bytes that a command reads from one page (R263). -/
def cmdReadPage (s : State) (r va n : Nat) : MemRes (List Byte) :=
  match runOf s r with
  | none => .fault va 1
  | some x =>
    match cmdXlt s r x va false with
    | .fault code => .fault va code
    | .wait s => .wait s
    | .frame pfn large _ _ s =>
      let base := if large then va / 2 ^ 21 * 2 ^ 21 else va / 65536 * 65536
      match runOf s r with
      | none => .fault va 1
      | some x =>
        let vpn := base / 65536
        let zero := (freshOf x vpn).isNone && seenOf x vpn == some none
        .ok (if zero then List.replicate n 0 else mreadBytes s.mem (pfn * 65536 + (va - base)) n) s

/-- Bytes that a command reads, page by page. -/
def cmdReadGo (r : Nat) : Nat → State → Nat → Nat → MemRes (List Byte)
  | 0, s, _, _ => .ok [] s
  | fuel + 1, s, va, n =>
    if n = 0 then .ok [] s
    else if 2 ^ 48 ≤ va then .fault va 1
    else
      let k := min n (65536 - va % 65536)
      match cmdReadPage s r va k with
      | .fault a code => .fault a code
      | .wait s => .wait s
      | .ok b s =>
        match cmdReadGo r fuel s (va + k) (n - k) with
        | .ok b' s => .ok (b ++ b') s
        | .fault a code => .fault a code
        | .wait s => .wait s

/-- Bytes that a command reads, charged to its context (R546). -/
def cmdRead (r fuel : Nat) (s : State) (va n : Nat) : MemRes (List Byte) :=
  match cmdReadGo r fuel s va n with
  | .ok b s => .ok b (match runOf s r with | some x => chargeBytes s x.ctx n | none => s)
  | .fault a code => .fault a code
  | .wait s => .wait s

/-- Fresh frames for every page of a write, or KV pages in place: the frames' addresses are then in the
command's record. -/
def cmdPages (r : Nat) : Nat → State → Nat → Nat → MemRes (List (Nat × Nat × Nat))
  | 0, s, _, _ => .ok [] s
  | fuel + 1, s, va, n =>
    if n = 0 then .ok [] s
    else if 2 ^ 48 ≤ va then .fault va 1
    else
      let k := min n (65536 - va % 65536)
      match runOf s r with
      | none => .fault va 1
      | some x =>
        match cmdXlt s r x va true with
        | .fault code => .fault va code
        | .wait s => .wait s
        | .frame pfn large _ _ s =>
          let base := if large then va / 2 ^ 21 * 2 ^ 21 else va / 65536 * 65536
          match cmdPages r fuel s (va + k) (n - k) with
          | .ok l s => .ok ((pfn * 65536 + (va - base), va, k) :: l) s
          | .fault a code => .fault a code
          | .wait s => .wait s

/-- Bytes that a command writes. -/
def cmdWrite (s : State) (r va : Nat) (bs : List Byte) : MemRes Unit :=
  match cmdPages r (bs.length / 65536 + 2) s va bs.length with
  | .fault a code => .fault a code
  | .wait s => .wait s
  | .ok l s =>
    let s := match runOf s r with | some x => chargeBytes s x.ctx bs.length | none => s
    .ok () { s with mem := l.foldl (fun m p => mwriteBytes m p.1 ((bs.drop (p.2.1 - va)).take p.2.2)) s.mem }

/-! ### Rows through the data queues (R388, R450, R452) -/

/-- The QCTL of a unit's data queue. -/
def aqCtl (u q : Nat) : Nat := 0x6A0000 + u * 0x40 + q * 0x10

/-- An instruction of a stream has passed `n` more rows of its `all`; the last moves the stream on. -/
def passRows (s : State) (u : Nat) (exe : Bool) (n all : Nat) : State :=
  let t := strOf (unitOf s u) exe
  if all ≤ t.rows + n then stepPc s u exe
  else modUnit s u fun y => setStr y exe { strOf y exe with rows := t.rows + n }

/-- Items of an interlocked LDQ that find a place enter their queue, in order (R452); with the last of them the
instructions behind it complete in their order (R432). -/
def takeLate : List (Nat × List Nat) → RexUnit → RexUnit
  | [], y => { y.behind.flatten.foldl landWrite y with late := [], behind := [] }
  | e :: l, y =>
    if (aqOf y e.1).length < 64 then takeLate l (setAq y e.1 (aqOf y e.1 ++ [e.2])) else { y with late := e :: l }

/-- A queue with a CUT_THRESH of less than an item's four beats: a reader may begin an item that has not arrived
whole (R33). -/
def cutsThrough (s : State) (u q : Nat) : Bool :=
  let k := regFld s (aqCtl u q) 15 0
  decide (0 < k) && decide (k < 4)

/-- An instruction of the access stream has issued with its writes: they are made at once, or, behind an LDQ that is
not complete, as it completes in its turn (R432). -/
def landed (s : State) (u : Nat) (l : List RexWrite) : State :=
  modUnit s u fun y => if y.late.isEmpty then l.foldl landWrite y else { y with behind := y.behind ++ [l] }

/-- Eight instructions of the access stream are in flight: a ninth waits to issue (R432). -/
def flightFull (y : RexUnit) : Bool := decide (7 ≤ y.behind.length)

/-- Pushes to the full queues `full` among the queues `qs` to which an instruction pushes, each an overrun (R34), and the
slip (R388, R450). -/
def pushSlip (s : State) (u r : Nat) (x : Run) (pc : Nat) (full qs : List Nat) (exe : Bool) : State :=
  rexSlip (full.foldl (fun s q => queueOverrun s (aqCtl u q) 1) s) u r x pc (full.headD 0) 1 qs exe

/-- Both streams hold a QBAR of one ID and every earlier instruction has completed: they pass it (R449). -/
def passBars (s : State) (u : Nat) : State :=
  let y := unitOf s u
  match y.acc.bar, y.exe.bar with
  | some a, some b =>
    if a = b && y.late.isEmpty then
      let s := modUnit s u fun y => { y with acc := { y.acc with bar := none }, exe := { y.exe with bar := none } }
      stepPc (stepPc s u false) u true
    else s
  | _, _ => s

/-! ### Effect requests (R18, R266) -/

/-- An effect request of a command is counted and sent on as an EFFECT record; the 65,536th stops the
command with EFFECT_LIMIT (R18, R266, R384). -/
def sendEffect (s : State) (r : Nat) (x : Run) (data : Nat) : State :=
  if 65536 ≤ x.reqs + 1 then ask s (.killRun r 12)
  else
    let unit := fld data 127 124
    let e : Eff := { unit := unit, op := fld data 123 120, data := data }
    let s := modRun s r fun x => { x with sent := x.sent + 1, reqs := x.reqs + 1 }
    let s := if unit = 0 || 6 ≤ unit then
        let core := if x.kind = 3 then 0x8000 + x.core else x.core
        record (setRegBit s 0x400004 3 true) 1 0x07 0x45 (some x.ctx) core (unit + x.task * 2 ^ 32)
      else s
    let q := fieldOf s x.field
    let i : EffItem := { run := r, eff := e }
    setField s x.field { q with effQ := q.effQ ++ [i] }

end Sys2Proof.Machine
end

