-- ==== Sys2Proof/Machine/Launch.lean ====
section
/-! DEFINITION. Launches (R210-R213, R498): operand checks, vintages, and the step record with which a
launch begins. -/

namespace Sys2Proof.Machine

open Sys2Proof

/-- The open serving context that is bound to a HIF context (R493). -/
def servingOf (s : State) (c : Nat) : Option (Nat × Serve) :=
  s.sls.srv.find? fun e => e.2.state != 0 && e.2.ctx == c

/-- Whether a launch without REPLAY meets the vintage rules (R211). -/
def vintageOk (replay : Bool) (v last : Nat) : Bool :=
  if replay then decide (1 ≤ v) && decide (v ≤ last)
  else if v = 0 then decide (last < 2 ^ 64 - 1) else decide (last < v)

/-- The vintage that an accepted launch stamps (R210). -/
def vintageOf (v last : Nat) : Nat := if v = 0 then last + 1 else v

/-- A launch accepted: LAST_VINTAGE takes its vintage, and it begins at once or is held (R211, R212). TGE_IMG_VINT and
TGE_IMG_DONE take a launch's vintage and 0 as it begins, and keep them where it then fails under R213, R317 or R560
(DESIGN CHOICE, log entry 39: R220 does not say whether such a launch is a step). -/
def acceptLaunch (s : State) (i : Nat) (img : Img) (l : Launch) : State :=
  let img := { img with last := if l.replay then img.last else l.vint }
  if (stepOf s i).isSome || img.state = 0 then setImg s i { img with pending := some l }
  else setStep (setImg s i { img with vint := l.vint, done := 0 }) i { launch := l, start := s.gtb.now }

/-- A held launch begins (R212). -/
def releasePending (s : State) (i : Nat) : State :=
  match imgOf s i with
  | none => s
  | some img =>
    match img.pending with
    | some l =>
      if img.state = 1 && (stepOf s i).isNone then
        setStep (setImg s i { img with pending := none, vint := l.vint, done := 0 }) i
          { launch := l, start := s.gtb.now }
      else s
    | none => s

/-- GRAPH_LAUNCH (R210, R211, R498). -/
def execGraphLaunch (s : State) : Out :=
  match popUnit s fun m => m.opcode == 0x0101 with
  | none => .next s
  | some (m, s) =>
    let bad := if 16 ≤ m.at 4 1 then some 4 else if 4 ≤ m.at 5 1 then some 5 else
      match firstNonzero m.bytes 6 2 with
      | some i => some i
      | none => firstNonzero m.bytes 24 24
    match bad, findImg s m.ctx (m.at 4 1 % 16) with
    | some b, _ => .next (badOperand s m b)
    | none, none => .next (badOperand s m 4)
    | none, some (i, img) =>
      let replay := bitAt (m.at 5 1) 0
      let repro := bitAt (m.at 5 1) 1
      if img.state = 2 then .next (badOperand s m 4)
      else if repro && !img.hasMap then .next (badOperand s m 5)
      else if !vintageOk replay (m.at 8 8) img.last then .next (completeWith s m 0x15 (img.last % 2 ^ 32))
      else if img.pending.isSome || (servingOf s m.ctx).isSome then
        .next (completeWith s m 0x14 img.id)
      else
        let l : Launch :=
          { cmd := m, vint := vintageOf (m.at 8 8) img.last, seed := m.at 16 8, repro := repro
            replay := replay, prev := img.last }
        .next (acceptLaunch s i img l)

end Sys2Proof.Machine
end

