-- ==== Sys2Proof/Machine/Sls.lean ====
section
/-! DEFINITION. The serving loop and deadlines (R493-R533): serving contexts, requests and responses,
assembly of batch steps, projection, and ADVANCE. -/

namespace Sys2Proof.Machine

open Sys2Proof

/-! ### Serving contexts -/

/-- Register blocks of a serving context. -/
def slsB (v : Nat) : Nat := 0x780100 + v * 0x40
def dlmB (v : Nat) : Nat := 0x880100 + v * 0x40

/-- A serving context. -/
def srvOf (s : State) (v : Nat) : Serve := tget {} s.sls.srv v

/-- A serving context replaced. -/
def setSrv (s : State) (v : Nat) (x : Serve) : State := { s with sls := { s.sls with srv := tput s.sls.srv v x } }

/-- A serving context changed. -/
def modSrv (s : State) (v : Nat) (f : Serve → Serve) : State := setSrv s v (f (srvOf s v))

/-- The assembly in progress changed. -/
def modAsm (s : State) (v : Nat) (f : Asm → Asm) : State :=
  modSrv s v fun x => { x with asm := x.asm.map f }

/-- A sequence changed. -/
def modSeq (s : State) (v k : Nat) (f : Seq → Seq) : State :=
  modSrv s v fun x => match tget? x.seqs k with
    | some q => { x with seqs := tput x.seqs k (f q) }
    | none => x

/-- Fields of the serving descriptor (R495). -/
def sdReqBase (b : List Byte) : Nat := leAt b 0 8
def sdReqSize (b : List Byte) : Nat := 2 ^ leAt b 8 1
def sdRespSize (b : List Byte) : Nat := 2 ^ leAt b 9 1
def sdReqSrc (b : List Byte) : Bool := bitAt (leAt b 10 1) 0
def sdRespSrc (b : List Byte) : Bool := bitAt (leAt b 10 1) 1
def sdCtrlSrc (b : List Byte) : Bool := bitAt (leAt b 10 1) 2
def sdDrop (b : List Byte) : Bool := bitAt (leAt b 10 1) 3
def sdMiss (b : List Byte) : Bool := bitAt (leAt b 10 1) 4
def sdRgn (b : List Byte) : Nat := leAt b 11 1 % 16
def sdMaxSeqs (b : List Byte) : Nat := leAt b 12 4
def sdRespBase (b : List Byte) : Nat := leAt b 16 8
def sdCtrl (b : List Byte) : Nat := leAt b 24 8
def sdBatch (b : List Byte) : Nat := leAt b 32 8
def sdSide (b : List Byte) : Nat := leAt b 40 8
def sdTpp (b : List Byte) : Nat := leAt b 48 4
def sdSeqPages (b : List Byte) : Nat := leAt b 52 2
def sdPoll (b : List Byte) : Nat := leAt b 54 2
def sdMaxPrompt (b : List Byte) : Nat := leAt b 56 4
def sdDeadline (b : List Byte) : Nat := leAt b 60 4
def sdSeed (b : List Byte) : Nat := leAt b 64 8
def sdFailLimit (b : List Byte) : Nat := leAt b 72 1

/-- Whether bytes lie wholly in one PLAIN region of a context. -/
def inPlain (s : State) (c va n : Nat) : Bool :=
  match regionAt s c va with
  | some g => decide (g.kind = 0) && decide (va + n ≤ g.base + g.size)
  | none => false

/-- The KV region of a serving descriptor. -/
def kvRegion (s : State) (c : Nat) (b : List Byte) : Option Region :=
  match regionOf s c (sdRgn b) with
  | some g => if g.kind = 1 then some g else none
  | none => none

/-- Whether a ring or block that a SRC bit places in stacked memory lies in a PLAIN region. -/
def srcOk (s : State) (c : Nat) (stacked : Bool) (a n : Nat) : Bool := !stacked || inPlain s c a n

/-- Check 6 of R496: the byte offset of the first wrong field. -/
def sdFault (s : State) (c : Nat) (b : List Byte) : Option Nat :=
  let rk := leAt b 8 1
  let pk := leAt b 9 1
  let kvOk := match kvRegion s c b with
    | some g => decide (sdMaxSeqs b * sdSeqPages b * pageBytes g.large ≤ g.size)
    | none => false
  if sdReqBase b % 4096 ≠ 0 || !srcOk s c (sdReqSrc b) (sdReqBase b) (64 * 2 ^ min rk 16) then some 0
  else if rk < 6 || 16 < rk then some 8
  else if pk < 7 || 16 < pk then some 9
  else if !kvOk then some 11
  else if sdMaxSeqs b = 0 || 16384 < sdMaxSeqs b then some 12
  else if sdRespBase b % 4096 ≠ 0 || !srcOk s c (sdRespSrc b) (sdRespBase b) (32 * sdRespSize b) then some 16
  else if sdCtrl b % 64 ≠ 0 || !srcOk s c (sdCtrlSrc b) (sdCtrl b) 64 then some 24
  else if sdBatch b % 4096 ≠ 0 || !allPlain s c (sdBatch b) (64 + 32 * sdMaxSeqs b) then some 32
  else if sdSide b % 4096 ≠ 0 || !allPlain s c (sdSide b) (64 * sdMaxSeqs b) then some 40
  else if sdTpp b = 0 || 65536 < sdTpp b then some 48
  else if sdSeqPages b = 0 then some 52
  else if sdPoll b = 0 then some 54
  else if sdMaxPrompt b = 0 || sdSeqPages b * sdTpp b - 1 < sdMaxPrompt b then some 56
  else if sdDeadline b = 0 then some 60
  else if sdFailLimit b = 0 then some 72
  else none

/-- SERVE_OPEN (R494-R497); `readErr` says that the read of the descriptor from host memory fails. -/
def execServeOpen (s : State) (readErr : Bool := false) : Out :=
  match popUnit s fun m => m.opcode == 0x0400 with
  | none => .next s
  | some (m, s) =>
    let c := m.ctx
    let v := m.at 4 1 % 4
    let bad := if 4 ≤ m.at 4 1 then some 4 else if 16 ≤ m.at 5 1 then some 5
      else if 2 ≤ m.at 6 1 then some 6 else if m.at 7 1 ≠ 0 then some 7
      else if m.at 8 8 % 128 ≠ 0 then some 8 else firstNonzero m.bytes 16 32
    match bad with
    | some i => .next (badOperand s m i)
    | none =>
      if (srvOf s v).state ≠ 0 || (servingOf s c).isSome then .next (completeWith s m 0x1C 0)
      else match findImg s c (m.at 5 1) with
        | none => .next (badOperand s m 4)
        | some (i, img) =>
          if img.state ≠ 1 then .next (badOperand s m 4)
          else if s.tge.imgs.any fun e => e.2.ctx == c &&
              (e.2.state == 0 || e.2.pending.isSome || (stepOf s e.1).isSome) then
            .next (completeWith s m 0x14 img.id)
          else match (if readErr then none else readSrc s c (bitAt (m.at 6 1) 0) (m.at 8 8) 128) with
            | none => .next (badOperand s m 0x1FF)
            | some b =>
              match sdFault s c b with
              | some o => .next (badOperand s m (0x100 + o))
              | none =>
                let x : Serve :=
                  { state := 1, ctx := c, img := i, imgId := img.id, desc := b, due := true
                    polled := nowNs s / 256 }
                .next (completeOk (setSrv s v x) m v)

/-! ### Requests and responses (R499-R506) -/

/-- A count in the control block; none when the block cannot be read. -/
def ctrlCount (s : State) (x : Serve) (o : Nat) : Option Nat :=
  (readSrc s x.ctx (sdCtrlSrc x.desc) (sdCtrl x.desc + o) 4).map leNat

/-- Bytes written to host memory or to a context's stacked memory. -/
def writeSrc (s : State) (c : Nat) (stacked : Bool) (a : Nat) (bs : List Byte) : State :=
  if stacked then unitWritePlain s c a bs else hostWrite s c a bs

/-- Whether the response ring has a free place. -/
def respFree (x : Serve) : Bool := decide (cdiff x.respCount x.respCons < sdRespSize x.desc)

/-- A response entry written (R505). -/
def writeResp (s : State) (v reqId status flags steps tokens detail stamp : Nat) : State :=
  let x := srvOf s v
  let n := sdRespSize x.desc
  let bytes := leBytes 8 reqId ++ leBytes 1 status ++ leBytes 1 (phaseOf x.respCount n + flags) ++
    leBytes 2 (min steps 65535) ++ leBytes 4 tokens ++ leBytes 4 detail ++ leBytes 4 0 ++
    leBytes 6 stamp ++ leBytes 2 0
  let s := writeSrc s x.ctx (sdRespSrc x.desc) (sdRespBase x.desc + x.respCount % n * 32) bytes
  modSrv s v fun x => { x with respCount := cadd x.respCount 1 }

/-! ### Sequences (R507-R512) -/

/-- Whether age `a` is older than age `b`. -/
def olderAge (a b : Nat) : Bool := decide (2 ^ 31 ≤ cdiff a b)

/-- Slots of the sequences that a test selects, in ascending age. -/
def slotsBy (x : Serve) (p : Seq → Bool) : List Nat :=
  (sortBy (fun a b : Nat × Seq => a.2.age == b.2.age || olderAge a.2.age b.2.age)
    (x.seqs.filter fun e => p e.2)).map fun e => e.1

/-- Whether a sequence is continuing, suspended, or either. -/
def Seq.continuing (q : Seq) : Bool := q.state == 1 || q.state == 2
def Seq.suspended (q : Seq) : Bool := q.state == 3 || q.state == 4
def Seq.live (q : Seq) : Bool := q.continuing || q.suspended

/-- pages(n) (R509). -/
def pagesFor (x : Serve) (n : Nat) : Nat := cdivN n (sdTpp x.desc)

/-- The prefill target of a sequence (R509). -/
def Seq.target (q : Seq) : Nat :=
  if q.generated = 0 then q.promptLen else q.promptLen + q.generated - 1

/-- The KV region's page size, and the page number of page `j` of a slot. -/
def kvLarge (s : State) (x : Serve) : Bool := match kvRegion s x.ctx x.desc with | some g => g.large | none => false
def kvVa (s : State) (x : Serve) (k : Nat) : Nat :=
  match kvRegion s x.ctx x.desc with
  | some g => g.base + k * sdSeqPages x.desc * pageBytes g.large
  | none => 0
def kvPage (s : State) (x : Serve) (k j : Nat) : Nat := kvVa s x k / 65536 + j * frameSize (kvLarge s x)

/-- ADVANCE refused (R512). -/
def refuseAdvance (s : State) (x : Run) (slot reason : Nat) : State :=
  raiseEvent (setRegBit s 0x780000 30 true) x.ctx 0x0151 1 x.task x.vint (slot + reason * 2 ^ 14)

/-- A sequence after an ADVANCE that is in order (R511). -/
def advanceSeq (q : Seq) (tokens : Nat) (gen finish : Bool) (stamp ns : Nat) : Seq :=
  let t := q.target
  let pos := q.pos + tokens
  let n := q.generated + b2n gen
  let q := { q with pos := pos, generated := n, steps := q.steps + 1 }
  let q := if q.state = 1 && decide (t ≤ pos) then { q with state := 2, recomp := false } else q
  if (gen && finish) || n = q.maxNew then { q with state := 5, finish := some (stamp, ns) } else q

/-- A miss is counted (R525). -/
def countMiss (s : State) (v : Nat) : State := setRegBit (addReg s (dlmB v + 0x14) 1) (dlmB v + 0x18) 27 true

/-- A committed ADVANCE applied or refused (R510-R512). -/
def slsAdvance (s : State) (x : Run) (data : Nat) : State :=
  let slot := fld data 117 104
  let tokens := fld data 103 72
  let gen := bitAt data 71
  let finish := bitAt data 70
  if fld data 123 120 ≠ 1 then refuseAdvance s x slot 5
  else match servingOf s x.ctx with
    | none => refuseAdvance s x slot 6
    | some (v, sv) =>
      if finish && !gen then refuseAdvance s x slot 4
      else match (if sv.img = x.img && sv.running then sv.batch.find? fun e => e.slot == slot else none) with
        | none => refuseAdvance s x slot 1
        | some e =>
          if e.count ≠ tokens || e.gen != gen then refuseAdvance s x slot 2
          else if sv.advanced.contains slot then refuseAdvance s x slot 3
          else
            let s := setSrv s v { sv with advanced := slot :: sv.advanced }
            let s := modSeq s v slot fun q => advanceSeq q tokens gen finish (cellarStamp s) (nowNs s)
            match tget? (srvOf s v).seqs slot with
            | some q => match q.finish with
              | some (_, ns) => if q.deadline ≤ ns then countMiss s v else s
              | none => s
            | none => s

/-! ### Assembly (R513-R518) -/

/-- Every page of a slot unmapped. -/
def unmapSlot (s : State) (x : Serve) (k : Nat) : State :=
  let lo := kvPage s x k 0
  let hi := kvPage s x (k + 1) 0
  let mine := (s.pat.maps.filter fun e => decide (pageKey x.ctx lo ≤ e.1) && decide (e.1 < pageKey x.ctx hi)).map
    fun e => e.1 - pageKey x.ctx 0
  mine.foldl (fun s vpn => kvUnmap s x.ctx vpn) s

/-- The status of a final response (R506). -/
def finalStatus (x : Serve) (q : Seq) : Nat :=
  let missed := match q.finish with
    | some (_, ns) => decide (q.deadline ≤ ns)
    | none => true
  if x.abort then 0x17 else if missed then 0x1A else if q.maq then 0x09 else 0

/-- A sequence retired (step 1 of R513, R506, R527). -/
def retireSeq (s : State) (v k : Nat) : State :=
  let x := srvOf s v
  match tget? x.seqs k with
  | none => s
  | some q =>
    let early := q.live
    let s := unmapSlot s x k
    let start := match x.asm with | some a => a.start | none => 0
    let s := if early && sdMiss x.desc && decide (q.deadline ≤ start) then countMiss s v else s
    let closing := !x.closes.isEmpty
    let (status, stamp) := match q.final with
      | some (a, b) => (if x.abort then 0x17 else a, b)
      | none => (finalStatus x q, match q.finish with | some (st, _) => st | none => cellarStamp s)
    let gone := fun (s : State) => modSrv s v fun x =>
      { x with seqs := tdel x.seqs k, retired := if closing then x.retired + 1 else x.retired }
    if respFree x then
      gone (writeResp s v q.reqId status (4 * b2n q.maq + 8 * b2n q.susp) q.steps q.generated 0 stamp)
    else if closing then gone (addReg s (slsB v + 0x1C) 1)
    else
      let s := setRegBit s (slsB v + 0xC) 29 true
      modSeq s v k fun q => { q with state := 6, pages := 0, final := some (status, stamp) }

/-- A sequence suspended (R515): spills follow as operations, drops are made at once. -/
def suspendSeq (s : State) (v k : Nat) : State :=
  let x := srvOf s v
  match tget? x.seqs k with
  | none => s
  | some q =>
    let s := setRegBit (addReg s (slsB v + 0x20) 1) (slsB v + 0xC) 30 true
    let s := modAsm s v fun a => { a with
      decode := a.decode.filter fun j => j != k
      suspended := k :: a.suspended }
    if sdDrop x.desc then
      let s := (List.range q.pages).foldl (fun s j => kvDrop s x.ctx (kvPage s x k j)) s
      modSeq s v k fun q => { q with state := 4, pos := 0, recomp := true, susp := true }
    else
      let s := modAsm s v fun a => { a with ops := a.ops ++ (List.range q.pages).map fun j => .spill k j }
      modSeq s v k fun q => { q with state := 3, susp := true }

/-- A SPILL found no backing slot: the pages already spilled are unmapped and the rest dropped (R515). -/
def spillFailed (s : State) (v k j : Nat) : State :=
  let x := srvOf s v
  let pages := match tget? x.seqs k with | some q => q.pages | none => 0
  let s := (List.range j).foldl (fun s i => kvUnmap s x.ctx (kvPage s x k i)) s
  let s := (rangeFrom j (pages - j)).foldl (fun s i => kvDrop s x.ctx (kvPage s x k i)) s
  let s := modAsm s v fun a => { a with ops := a.ops.filter fun o => match o with
    | .spill k' _ => k' != k
    | _ => true }
  modSeq s v k fun q => { q with state := 4, pos := 0, recomp := true, pages := q.pages - j }

/-- An operation tried: done, refused for lack of a slot, or waiting. -/
def runOp (s : State) (v : Nat) (o : KvOp) : Option State :=
  let x := srvOf s v
  match o with
  | .map k j => kvMap s x.ctx (kvPage s x k j) (kvLarge s x)
  | .restore k j => kvRestore s x.ctx (kvPage s x k j)
  | .spill k j =>
    match kvSpill s x.ctx (kvPage s x k j) with
    | some s => some s
    | none => some (spillFailed s v k j)

/-- The stage's next slot visited and gone. -/
def nextTodo (s : State) (v : Nat) : State := modAsm s v fun a => { a with todo := a.todo.drop 1 }

/-- The assembly passes to a stage with its slots to visit. -/
def toStage (s : State) (v stage : Nat) (todo : List Nat) : State :=
  modAsm s v fun a => { a with stage := stage, todo := todo }

/-- Stages 4 to 6 end. -/
def endTaking (s : State) (v : Nat) : State := toStage s v 7 []

/-- MAPs of pages `from` to `to - 1` of a slot. -/
def mapOps (k lo hi : Nat) : List KvOp := (rangeFrom lo (hi - lo)).map fun j => .map k j

/-- A chunk of a sequence in the batch. -/
def chunkOf (k : Nat) (q : Seq) (c pages : Nat) : BatchE :=
  { slot := k, kind := if q.recomp then 2 else 1, gen := q.pos + c == q.target && q.generated == 0
    start := q.pos, count := c, pages := pages }

/-- Insertion of a slot into the decode set, by age. -/
def insertAge (x : Serve) (k : Nat) (l : List Nat) : List Nat :=
  let age := fun k => match tget? x.seqs k with | some q => q.age | none => 0
  insertBy (fun a b => age a == age b || olderAge (age a) (age b)) k l

/-- Stage 3: growth of one sequence of the decode set (R514). -/
def growStep (s : State) (v k : Nat) : State :=
  let x := srvOf s v
  match tget? x.seqs k with
  | none => nextTodo s v
  | some q =>
    if q.state ≠ 2 || pagesFor x (q.pos + 1) ≤ q.pages then nextTodo s v
    else match kvReserve s x.ctx (kvLarge s x) 0 1 with
      | some s =>
        let s := modAsm s v fun a => { a with ops := a.ops ++ [.map k q.pages] }
        nextTodo (modSeq s v k fun q => { q with pages := q.pages + 1 }) v
      | none =>
        match (slotsBy x Seq.continuing).getLast? with
        | some y => suspendSeq s v y
        | none => nextTodo s v

/-- Stage 4: one suspended sequence resumed (R516). -/
def resumeStep (s : State) (v k : Nat) (a : Asm) : State :=
  let x := srvOf s v
  match tget? x.seqs k with
  | none => nextTodo s v
  | some q =>
    let large := kvLarge s x
    let c := min a.chunkMax (min (q.target - q.pos) a.budget)
    if q.state = 3 then
      let decode := decide (q.target ≤ q.pos)
      let n := max q.pages (pagesFor x (q.pos + if decode then 1 else c))
      match kvReserve s x.ctx large a.minWm n with
      | none => endTaking s v
      | some s =>
        let s := modAsm s v fun a => { a with
          ops := a.ops ++ (List.range q.pages).map (fun j => .restore k j) ++ mapOps k q.pages n
          budget := a.budget - if decode then 1 else c
          decode := if decode then insertAge x k a.decode else a.decode
          chunks := if decode then a.chunks else a.chunks ++ [chunkOf k q c n] }
        nextTodo (modSeq s v k fun q => { q with state := if decode then 2 else 1, pages := n }) v
    else
      let n := pagesFor x c
      match kvReserve s x.ctx large a.minWm n with
      | none => endTaking s v
      | some s =>
        let s := unmapSlot s x k
        let s := modAsm s v fun a => { a with
          ops := a.ops ++ mapOps k 0 n
          budget := a.budget - c
          chunks := a.chunks ++ [chunkOf k q c n] }
        nextTodo (modSeq s v k fun q => { q with state := 1, pages := n }) v

/-- Stage 5: one chunk of a PREFILL sequence (R517). -/
def prefillStep (s : State) (v k : Nat) (a : Asm) : State :=
  let x := srvOf s v
  match tget? x.seqs k with
  | none => nextTodo s v
  | some q =>
    let c := min a.chunkMax (min (q.target - q.pos) a.budget)
    let n := max q.pages (pagesFor x (q.pos + c))
    match kvReserve s x.ctx (kvLarge s x) a.minWm (n - q.pages) with
    | none => endTaking s v
    | some s =>
      let s := modAsm s v fun a => { a with
        ops := a.ops ++ mapOps k q.pages n
        budget := a.budget - c
        chunks := a.chunks ++ [chunkOf k q c n] }
      nextTodo (modSeq s v k fun q => { q with pages := n }) v

/-- The offset of the first wrong field of a request entry (R503). -/
def requestFault (x : Serve) (b : List Byte) : Option Nat :=
  let len := leAt b 24 4
  let new := leAt b 28 4
  if len = 0 || sdMaxPrompt x.desc < len then some 24
  else if new = 0 || sdSeqPages x.desc * sdTpp x.desc < len + new then some 28
  else if 2 ≤ leAt b 36 1 then some 36
  else (firstNonzero b 37 27).map fun _ => 37

/-- A request entry deferred (R517). -/
def deferRequest (s : State) (v reqId why : Nat) : State :=
  let x := srvOf s v
  let s := setRegBit (addReg s (slsB v + 0x1C) 1) (slsB v + 0xC) 31 true
  let s :=
    if x.noticed = some x.reqCount then s
    else
      let s := if respFree x then writeResp s v reqId 0x08 2 0 0 why (cellarStamp s)
        else setRegBit s (slsB v + 0xC) 28 true
      modSrv s v fun x => { x with noticed := some x.reqCount }
  endTaking s v

/-- A valid request admitted to a free slot (R509, R517). -/
def admitRequest (s : State) (v k : Nat) (b : List Byte) (c n : Nat) : State :=
  let x := srvOf s v
  let taken := nowNs s
  let us := if leAt b 32 4 = 0 then sdDeadline x.desc else leAt b 32 4
  let q : Seq :=
    { state := 1, pages := n, age := x.admCount, promptLen := leAt b 24 4, maxNew := leAt b 28 4
      deadline := taken + us * 1000, reqId := leAt b 0 8, noMaq := bitAt (leAt b 36 1) 0 }
  let side := b.take 40 ++ leBytes 8 taken ++ b.drop 48
  let s := unitWritePlain s x.ctx (sdSide x.desc + 64 * k) side
  let s := addReg s (slsB v + 0x18) 1
  let s := modSrv s v fun x => { x with
    seqs := tput x.seqs k q
    admCount := cadd x.admCount 1
    reqCount := cadd x.reqCount 1 }
  modAsm s v fun a => { a with
    ops := a.ops ++ mapOps k 0 n
    budget := a.budget - c
    chunks := a.chunks ++ [chunkOf k q c n] }

/-- Stage 6: the next request entry (R502, R503, R517). -/
def admitStep (s : State) (v : Nat) (a : Asm) (prod : Nat) : State :=
  let x := srvOf s v
  if prod = x.reqCount || a.budget = 0 then endTaking s v
  else match readSrc s x.ctx (sdReqSrc x.desc) (sdReqBase x.desc + x.reqCount % sdReqSize x.desc * 64) 64 with
    | none => endTaking s v
    | some b =>
      match requestFault x b with
      | some o =>
        if respFree x then
          let s := setRegBit (writeResp s v (leAt b 0 8) 0x1B 0 0 0 o (cellarStamp s)) (slsB v + 0xC) 27 true
          modSrv s v fun x => { x with reqCount := cadd x.reqCount 1 }
        else endTaking (setRegBit s (slsB v + 0xC) 29 true) v
      | none =>
        match (List.range (sdMaxSeqs x.desc)).find? fun k => !thas x.seqs k with
        | none => deferRequest s v (leAt b 0 8) 2
        | some k =>
          let c := min a.chunkMax (min (leAt b 24 4) a.budget)
          let n := pagesFor x c
          match kvReserve s x.ctx (kvLarge s x) a.minWm n with
          | none => deferRequest s v (leAt b 0 8) 1
          | some s => admitRequest s v k b c n

/-- REQ_PROD read at the start of admission (R502). -/
def readProd (s : State) (v : Nat) : State :=
  let x := srvOf s v
  match ctrlCount s x 0 with
  | none => endTaking s v
  | some p =>
    if sdReqSize x.desc < cdiff p x.reqCount then endTaking (setRegBit s (slsB v + 0xC) 26 true) v
    else modAsm s v fun a => { a with prod := some p }

/-! ### Projection and launch (R518, R519, R522, R523) -/

/-- A coefficient of DLM (R532). -/
def dlmCoef (s : State) (k : Nat) : Nat := reg s (0x880200 + 4 * k)

/-- The projected time of a path in 1/64 ns, from coefficient `k` on (R522). -/
def project (s : State) (k : Nat) (l : List BatchE) : Nat :=
  let dec := (l.filter fun e => e.kind == 0).length
  let pre := l.foldl (fun n e => if e.kind = 0 then n else n + e.count) 0
  let pages := l.foldl (fun n e => n + e.pages) 0
  dlmCoef s k + dlmCoef s (k + 1) * dec + dlmCoef s (k + 2) * pre + dlmCoef s (k + 3) * pages

/-- The step deadline in 1/64 ns: the least sequence step deadline (R522). -/
def stepDeadline (x : Serve) (chunkMax p : Nat) (l : List BatchE) : Nat :=
  let one := fun e : BatchE => match tget? x.seqs e.slot with
    | none => 2 ^ 80
    | some q =>
      let r := if e.kind = 0 then q.maxNew - q.generated
        else cdivN (q.target - q.pos) chunkMax + (q.maxNew - q.generated) - b2n (q.generated == 0)
      q.deadline * 64 - (r - 1) * p
  match l with
  | [] => 0
  | e :: es => es.foldl (fun m e => min m (one e)) (one e)

/-- The batch entries of an assembly: the decode set, then the chunks. -/
def batchOf (x : Serve) (a : Asm) : List BatchE :=
  (a.decode.map fun k => match tget? x.seqs k with
    | some q => { slot := k, kind := 0, gen := true, start := q.pos, count := 1, pages := q.pages }
    | none => { slot := k, kind := 0, gen := true, start := 0, count := 1, pages := 0 }) ++ a.chunks

/-- The bytes of a batch entry (R518). -/
def entryBytes (s : State) (x : Serve) (e : BatchE) : List Byte :=
  leBytes 2 (e.slot + e.kind * 2 ^ 14) ++ leBytes 1 (b2n e.gen) ++ leBytes 1 0 ++ leBytes 4 e.start ++
  leBytes 4 e.count ++ leBytes 4 e.pages ++ leBytes 8 (kvVa s x e.slot) ++
  leBytes 8 (sdSide x.desc + 64 * e.slot)

/-- The path of a step that DLM chooses (R523), with its flags set: MAQ, and the projection in 1/64 ns. -/
def judge (s : State) (v : Nat) (x : Serve) (a : Asm) (l : List BatchE) (p pm dl : Nat) : State × Bool × Nat :=
  let late := fun p => decide (dl * 80 < s.gtb.now + (p + a.margin * 64000) * 80)
  let zero := (List.range 8).all fun k => dlmCoef s k == 0
  let blocked := !a.maqEn || l.any fun e => match tget? x.seqs e.slot with
    | some q => q.noMaq
    | none => false
  if zero || !late p then (s, false, p)
  else if blocked then (setRegBit s (dlmB v + 0x18) 30 true, false, p)
  else
    let s := setRegBit (addReg s (dlmB v + 0xC) 1) (dlmB v + 0x18) 31 true
    let s := if late pm then setRegBit s (dlmB v + 0x18) 29 true else s
    (s, true, pm)

/-- REQ_CONS written to the control block (R502). -/
def writeCons (s : State) (v : Nat) : State :=
  let x := srvOf s v
  writeSrc s x.ctx (sdCtrlSrc x.desc) (sdCtrl x.desc + 8) (leBytes 4 x.reqCount)

/-- The assembly ends. -/
def endAsm (s : State) (v : Nat) : State := modSrv s v fun x => { x with asm := none }

/-- Step 7 of R513 and the writes of step 8: the batch area and REQ_CONS. An assembly with no entry ends with them. -/
def planBatch (s : State) (v : Nat) (a : Asm) : State :=
  let x := srvOf s v
  let l := batchOf x a
  if l.isEmpty then writeCons (endAsm s v) v
  else match imgOf s x.img with
    | none => writeCons (endAsm s v) v
    | some img =>
      let p := project s 0 l
      let pm := project s 4 l
      let dl := stepDeadline x a.chunkMax p l
      let (s, maq, chosen) := judge s v x a l p pm dl
      let s := setRegBit s 0x880000 v maq
      let s := setReg s (dlmB v + 4) (min (chosen / 64) (2 ^ 32 - 1))
      let dec := a.decode.length
      let pre := a.chunks.foldl (fun n e => n + e.count) 0
      let vint := vintageOf 0 img.last
      let head := leBytes 8 vint ++ leBytes 4 l.length ++ leBytes 4 dec ++ leBytes 4 pre ++
        leBytes 1 (b2n maq) ++ leBytes 3 0 ++ leBytes 8 (dl / 64) ++ leBytes 8 (chosen / 64) ++ leBytes 24 0
      let s := unitWritePlain s x.ctx (sdBatch x.desc) (head ++ (l.map (entryBytes s x)).flatten)
      let plan : BatchPlan := { entries := l, dec := dec, maq := maq, dl := dl }
      toStage (modAsm (writeCons s v) v fun a => { a with plan := some plan }) v 8 []

/-- Whether a planned step may be launched: the batch area and REQ_CONS are written (R502, R518), the context's model is
here (R560), and no save of the context holds its steps back (R528). -/
def launchDue (s : State) (x : Serve) (p : BatchPlan) : Bool :=
  !rangeBlocked s x.ctx (sdBatch x.desc) (64 + 32 * p.entries.length) &&
  !(sdCtrlSrc x.desc && rangeBlocked s x.ctx (sdCtrl x.desc + 8) 4) &&
  modelHere s x.ctx && decide (t1State s x.ctx = 0)

/-- The launch of step 8 (R519). One that R211 refuses launches nothing, and no step fails (DESIGN CHOICE, log entry 39:
R526 counts only the failures of R213 and R317). -/
def launchBatch (s : State) (v : Nat) (p : BatchPlan) : State :=
  let x := srvOf s v
  let s := endAsm s v
  match imgOf s x.img with
  | none => s
  | some img =>
    if !vintageOk false 0 img.last then s
    else
      let s := setReg s (slsB v + 0x24) (p.entries.length % 65536 * 65536 + p.dec % 65536)
      let s := addCount s (slsB v + 0x10) 1
      let s := modSrv s v fun x => { x with
        seqs := if p.maq then
            tmap (fun k q => if p.entries.any fun e => e.slot == k then { q with maq := true } else q) x.seqs
          else x.seqs
        running := true
        batch := p.entries
        advanced := []
        launchNs := nowNs s
        stepDl := p.dl }
      let cmd : Cmd := { ctx := x.ctx, ring := 4, seq := 0, bytes := [] }
      let go : Launch :=
        { cmd := cmd, vint := vintageOf 0 img.last, seed := sdSeed x.desc, repro := false, replay := false
          prev := img.last, serving := some v }
      acceptLaunch s x.img img go

/-! ### The run of an assembly -/

/-- Retirement's slots, oldest first (step 1 of R513). -/
def retireList (x : Serve) (start : Nat) : List Nat :=
  slotsBy x fun q => x.abort || q.state == 5 || q.state == 6 ||
    (sdMiss x.desc && q.live && decide (q.deadline ≤ start))

/-- Every slot is free during a close: SERVE_CLOSE completes and the context is CLOSED (R527). -/
def finishClose (s : State) (v : Nat) : State :=
  let x := srvOf s v
  let s := returnAll s x.ctx
  let s := x.closes.foldl (fun s m => completeOk s m x.retired) s
  setSrv (setReg s (slsB v + 0x28) 0) v {}

/-- Retirement is over: a close may end, an abort takes nothing more, and decodes are chosen. -/
def afterRetire (s : State) (v : Nat) (a : Asm) : State :=
  let x := srvOf s v
  if !x.closes.isEmpty && x.seqs.isEmpty then finishClose s v
  else if x.abort then endAsm s v
  else
    let dec := (slotsBy x fun q => q.state == 2).take a.budget
    toStage (modAsm s v fun a => { a with decode := dec }) v 3 dec

/-- One move of an assembly; none when it waits for an operation or has ended. -/
def asmMove (s : State) (v : Nat) : Option State :=
  let x := srvOf s v
  match x.asm with
  | none => none
  | some a =>
    match a.ops with
    | .map k j :: rest =>
      (kvMap s x.ctx (kvPage s x k j) (kvLarge s x)).map fun s => modAsm s v fun a => { a with ops := rest }
    | _ :: _ => none
    | [] =>
      match a.stage, a.todo with
      | 1, k :: _ => some (nextTodo (retireSeq s v k) v)
      | 1, [] => some (afterRetire s v a)
      | 3, k :: _ => some (growStep s v k)
      | 3, [] =>
        let s := modAsm s v fun a => { a with budget := a.budget - a.decode.length }
        some (toStage s v 4 (slotsBy x fun q => q.suspended))
      | 4, k :: _ =>
        if a.budget = 0 then some (endTaking s v)
        else if a.suspended.contains k then some (nextTodo s v)
        else some (resumeStep s v k a)
      | 4, [] =>
        some (toStage s v 5 ((slotsBy x fun q => q.state == 1).filter fun k =>
          !(a.chunks.any fun e => e.slot == k)))
      | 5, k :: _ => if a.budget = 0 then some (endTaking s v) else some (prefillStep s v k a)
      | 5, [] => some (toStage s v 6 [])
      | 6, _ =>
        if !x.closes.isEmpty then some (endTaking s v)
        else match a.prod with
        | none => some (readProd s v)
        | some p => some (admitStep s v a p)
      | _, _ =>
        match a.plan with
        | none => some (planBatch s v a)
        | some p => if launchDue s x p then some (launchBatch s v p) else none

/-- An assembly runs until it ends or waits for a SPILL, a RESTORE, a frame, or what its launch waits for. -/
def asmRun (v : Nat) : Nat → State → State
  | 0, s => s
  | fuel + 1, s => match asmMove s v with
    | some s => asmRun v fuel s
    | none => s

/-- An assembly begins (R513, R26). -/
def asmStart (s : State) (v : Nat) : State :=
  let x := srvOf s v
  let cons := (ctrlCount s x 16).getD x.respCons
  let bud := policy s (slsB v + 4)
  let mar := policy s (dlmB v)
  let s := returnAll s x.ctx
  let a : Asm :=
    { start := nowNs s, chunkMax := fld bud 31 16, budget := fld bud 15 0, margin := fld mar 19 0, minWm := minWm s
      maqEn := bitAt mar 31, todo := retireList x (nowNs s) }
  asmRun v 1048576 (setSrv s v { x with
    asm := some a
    respCons := cons
    due := false
    polled := nowNs s / 256 })

/-- The assemblies whose launch waits go on. -/
def launchesOn (s : State) : State :=
  (List.range 4).foldl (fun s v => if ((srvOf s v).asm.any fun a => a.plan.isSome) then asmRun v 2 s else s) s

/-- Whether SLS may assemble now (R513, R526, R529, R560). -/
def asmAllowed (s : State) (x : Serve) : Bool :=
  x.asm.isNone && !x.running && decide (t1State s x.ctx = 0) && modelHere s x.ctx &&
  (x.state == 1 || x.state == 2)

/-- ASSEMBLY: the assembly that is due begins, or one whose launch waits goes on (R513). -/
def execAssembly (v : Fin 4) (s : State) : Out :=
  let x := srvOf s v
  .next (if x.due && asmAllowed s x then asmStart s v else launchesOn s)

/-- SERVE_POLL: while no sequence is live, the next poll instant comes and SLS assembles (R520). -/
def execServePoll (v : Fin 4) (s : State) : Out :=
  let x := srvOf s v
  if asmAllowed s x && !x.due && !(x.seqs.any fun e => e.2.live) then
    let t := nsUnits ((x.polled + sdPoll x.desc) * 256)
    let s := advanceTo t (countLate s (inJump s t))
    .next (asmStart s v)
  else .next s

/-- KV_OPERATION_DONE: the operation in progress ends, and SLS issues its next one (R482, R515). -/
def execKvOperationDone (v : Fin 4) (s : State) : Out :=
  let x := srvOf s v
  match x.asm with
  | none => .next s
  | some a =>
    match a.ops with
    | [] => .next s
    | o :: _ =>
      match runOp s v o with
      | none => .next s
      | some s =>
        let s := modAsm s v fun a => { a with ops := match a.ops with | p :: r => if p = o then r else p :: r | [] => [] }
        if x.abort then .next (modSrv s v fun x => { x with asm := none, due := true })
        else .next (asmRun v 1048576 s)

/-! ### Ends of batch steps and closing (R524, R526, R527) -/

/-- A batch step has ended or its launch has failed. `counts`: 0 it completed, 1 it counts as failed,
2 it leaves the count of failures as it is. The step is late when its end stamp, fraction included, is not earlier
than its deadline (R111, R524). During a close with ABORT the context stays CLOSING, for the close proceeds (R527). -/
def slsStepEnd (s : State) (v status vint : Nat) (counts : Nat) : State :=
  let x := srvOf s v
  let now := nowNs s
  let s := setReg s (dlmB v + 8) (min (now - x.launchNs) (2 ^ 32 - 1))
  let late := decide (x.stepDl * 80 ≤ s.gtb.now)
  let edge := boundaryFlag s false (gtbQ s) s.gtb.now (nsUnits x.launchNs) (x.stepDl * 80)
  let s := if late then setRegBit (addReg s (dlmB v + 0x10) 1) (dlmB v + 0x18) 28 true else s
  let fails := if counts = 1 then x.fails + 1 else if counts = 0 then 0 else x.fails
  let s := setReg s (slsB v + 0x28) (min fails 255)
  let s := setSrv s v { x with
    running := false, batch := [], advanced := [], fails := fails, due := true, edge := edge }
  if counts = 1 && decide (fails = sdFailLimit x.desc) then
    let s := modSrv s v fun x => { x with state := if x.abort then x.state else 3 }
    let s := setRegBit s (slsB v + 0xC) 25 true
    raiseEvent s x.ctx 0x0150 2 v vint (min fails 255 + status * 256)
  else s

/-- SERVE_CLOSE (R527). -/
def execServeClose (s : State) : Out :=
  match popUnit s fun m => m.opcode == 0x0401 with
  | none => .next s
  | some (m, s) =>
    let bad := if 4 ≤ m.at 4 1 then some 4 else if 2 ≤ m.at 5 1 then some 5 else firstNonzero m.bytes 6 42
    match bad with
    | some i => .next (badOperand s m i)
    | none =>
      let v := m.at 4 1
      let x := srvOf s v
      if x.state = 0 || x.ctx ≠ m.ctx then .next (badOperand s m 4)
      else
        let abort := x.abort || bitAt (m.at 5 1) 0
        let x := { x with closes := x.closes ++ [m], abort := abort, state := 2, due := true }
        let x := { x with asm := if abort then (match x.asm with
          | some a => if a.ops.isEmpty then none else some a
          | none => none) else x.asm }
        let s := setSrv s v x
        if abort && x.running then .next (settle (ask s (.teardown x.img 8 0 8))) else .next s

end Sys2Proof.Machine
end

