-- ==== Sys2Proof/Machine/StepEnd.lean ====
section
/-! DEFINITION. The end of a step: its ledger, its status, and what its completion waits for (R213, R216,
R249, R250, R287-R290, R402, R571, R572, R614). -/

namespace Sys2Proof.Machine

open Sys2Proof

/-! ### The step ledger (R614) -/

/-- DONE of a task set in both copies. -/
def setDone (s : State) (c t : Nat) : State :=
  let s := checkLedger s c t
  { s with saf := { s.saf with
      ledA := tmod {} s.saf.ledA t fun l => { l with done := true }
      ledB := tmod {} s.saf.ledB t fun l => { l with done := true } } }

/-- DONE of a task. -/
def isDone (s : State) (t : Nat) : Bool := (tget {} s.saf.ledA t).done

/-- The sweep clears DONE, WAITED and RUNS of a task. -/
def clearLedger (s : State) (c t : Nat) : State :=
  let s := checkLedger s c t
  { s with saf := { s.saf with
      ledA := tdel s.saf.ledA t, ledB := tdel s.saf.ledB t, runs := tdel s.saf.runs t } }

/-! ### Status (R290) -/

/-- The status and DETAIL that a noted condition gives, by its order in R290. -/
def noteStatus (order : Nat) (n : Note) : Nat × Nat :=
  if order = 5 then (0x06, 7 * 2 ^ 28 + n.task)
  else if order = 6 then (0x07, 3 * 2 ^ 28 + n.task)
  else if order = 7 then (0x0C, 2 * 2 ^ 28 + n.task)
  else if order = 8 then (0x02, n.task)
  else if order = 9 then (0x0B, n.task)
  else if order = 10 then (0x0A, n.task)
  else (0x01, n.cause * 2 ^ 28 + n.task)

/-- The status and DETAIL of a step (R290, R572): a teardown by its cause, else the first noted
condition. -/
def stepStatus (st : Step) : Nat × Nat :=
  if st.phase = 3 then
    if st.cause = 9 then (0x05, 9 * 2 ^ 28 + st.causeTask)
    else if st.cause = 8 then (0x17, 8 * 2 ^ 28)
    else if st.cause = 11 then (0x0F, 11 * 2 ^ 28 + st.causeTask)
    else (0x16, st.lastKill * 2 ^ 28 + st.causeTask)
  else match st.notes with
    | (k, n) :: _ => noteStatus k n
    | [] => (0, 0)

/-! ### Imbalance (R249, R250) -/

/-- Block of a context's RDY registers. -/
def rdyCtx (c : Nat) : Nat := 0x300200 + c * 0x10

/-- RATIO of a stage. -/
def stageRatio (g : Stage) : Nat :=
  let mean := g.sum / max 1 g.count
  if mean = 0 then (if g.max = 0 then 0 else 0xFFFF) else min (256 * g.max / mean) 0xFFFF

/-- The stage with the largest RATIO, the lowest LAYER first on a tie. -/
def worstStage (l : Table Stage) : Option (Nat × Stage) :=
  l.foldl (fun best e => match best with
    | none => some e
    | some b => if stageRatio b.2 < stageRatio e.2 then some e else some b) none

/-- RDY's figures of a measured step and its STAGE_IMBALANCE event (R250). -/
def endMeasure (s : State) (c : Nat) (st : Step) : State :=
  if st.measured then
    match worstStage st.stages with
    | none => s
    | some (layer, g) =>
      let r := stageRatio g
      let mx := min g.max (2 ^ 32 - 1)
      let s := setReg (setReg s (rdyCtx c + 8) (r * 2 ^ 16 + layer)) (rdyCtx c + 12) mx
      if regFld s (rdyCtx c) 15 0 ≤ r then
        raiseEvent s c 0x0100 0 g.task st.launch.vint (layer + r * 2 ^ 16 + mx * 2 ^ 32)
      else s
  else s

/-! ### The end (R216, R287) -/

/-- The step's non-finite counters are copied to the context's registers (R402). -/
def endCounts (s : State) (c : Nat) (st : Step) : State :=
  let s := setReg s (rexCtx c + 0x10) (min st.nfLoad (2 ^ 32 - 1))
  let s := setReg s (rexCtx c + 0x14) (min st.nfStore (2 ^ 32 - 1))
  setReg s (rexCtx c + 0x18) (match st.nfFirst with | some f => f.2.2 | none => 0xFFFF)

/-- The step record goes, its task-waiter entries return (R317), and every GRAPH_ABORT that waited
completes with the tasks counted complete (R288). -/
def dropStep (s : State) (i : Nat) (st : Step) (done : Nat) : State :=
  let s := { s with
    tge := { s.tge with steps := tdel s.tge.steps i }
    syn := { s.syn with reserved := tdel s.syn.reserved i } }
  releasePending (st.aborts.foldl (fun s m => completeOk s m done) s) i

/-- The completion of a step or of a launch that failed: HIF's entry, or the serving loop's (R528).
`counts` is as for `slsStepEnd`. -/
def answerLaunch (s : State) (l : Launch) (status detail result reruns counts : Nat) : State :=
  match l.serving with
  | some v => slsStepEnd s v status l.vint counts
  | none => complete s l.cmd status detail result reruns

/-- Whether a status is one of the first four of R290. -/
def statusFails (status : Nat) : Bool := status == 0x05 || status == 0x17 || status == 0x0F || status == 0x16

/-- A step ends (R216, R290): its counters and figures, then its completion. -/
def endStep (s : State) (i : Nat) (st : Step) (img : Img) : State :=
  let s := endMeasure (endCounts s img.ctx st) img.ctx st
  let (status, detail) := stepStatus st
  let s := if st.phase = 3 && st.cause == 10 then
      setRegBit (setRegBit s 0x480000 29 true) (cmtCtx img.ctx + 8) 29 true
    else s
  let s := answerLaunch s st.launch status detail st.launch.vint (min st.reruns 7)
    (if statusFails status then 1 else 0)
  dropStep s i st img.done

/-- A launch fails as it begins (R213, R317, R560): RESULT 0, and LAST_VINTAGE returns. -/
def failLaunch (s : State) (i : Nat) (st : Step) (img : Img) (status detail counts : Nat) : State :=
  let s := setImg s i { img with last := st.launch.prev }
  let s := { s with syn := { s.syn with mats := s.syn.mats.filter fun q => !(q.src == 2 && q.img == i) } }
  dropStep (answerLaunch s st.launch status detail 0 0 counts) i st 0

/-- A task is counted complete; the last one ends the step (R216). -/
def countTask (s : State) (i t : Nat) : State :=
  match imgOf s i, stepOf s i with
  | some img, some st =>
    let img := { img with done := img.done + 1 }
    let s := setStep (setImg s i img) i { st with granted := st.granted.filter fun u => u != t }
    if st.phase ≠ 3 && decide (img.done = img.tasks) then
      endStep s i { st with granted := st.granted.filter fun u => u != t } img
    else s
  | _, _ => s

/-- The decrements of a committed task's out-edges go to TGE; a torn-down step discards them (R192,
R287). -/
def fireEdges (s : State) (i t : Nat) (field : Option Nat) : State :=
  match imgOf s i, stepOf s i with
  | some img, some st =>
    if st.phase = 3 then s
    else pushDecs s ((successors s img t).mapIdx fun k u => { task := u, field := field, burst := some (t, k / 16) })
  | _, _ => s

/-- A task other than a HANDLER is committed: step 3 of R269, with DONE and the count (R614, R216). -/
def commitTask (s : State) (i c t : Nat) (field : Option Nat) : State :=
  countTask (fireEdges (setDone s c t) i t field) i t

/-! ### Teardown's end (R287, R570) -/

/-- Whether nothing of a torn-down step is left: its commands and its commits, those of gates among them. -/
def tornDown (s : State) (i : Nat) (st : Step) : Bool :=
  decide (st.phase = 3) && (s.disp.runs.all fun e => e.2.img != i || e.2.t1) &&
  (s.disp.readyQ.all fun q => match q with
    | .runs ids => ids.all fun r => match runOf s r with | some x => x.img != i | none => true
    | .signal j _ => j != i) &&
  st.gateWrites.all fun w => !w.pass

/-- The gradient range of a failed gate is released, once (step 3 of R570). -/
def releaseGrads (s : State) (i : Nat) (st : Step) (img : Img) : State :=
  let d := descOf s st.causeTask
  let s := setStep s i { st with released := true }
  if gdGradPages d = 0 then s
  else releaseRange s img.ctx st.causeTask st.launch.vint (gdGradVpn d) (gdGradPages d) true

/-- The event of a failed gate, before the completion (R570, R572). -/
def endGate (s : State) (st : Step) (img : Img) : State :=
  raiseEvent s img.ctx 0x0160 2 st.causeTask st.launch.vint
    (st.gateReason + min st.gateNf 0x0FFFFFFF * 16 + st.gateLoss * 2 ^ 32)

/-- TEARDOWN_END: once every killed command has ended, a failed gate's gradients are released, and the step ends and its
completion follows, for which a failed gate's record must have been written (R287, R570, R691). -/
def execTeardownEnd (s : State) : Out :=
  let fresh : Step → Bool := fun st => st.cause == 9 && !st.released
  match s.tge.steps.find? fun e => tornDown s e.1 e.2 && (e.2.gateWrites.isEmpty || fresh e.2) with
  | none => .next s
  | some (i, st) =>
    match imgOf s i with
    | none => .next s
    | some img =>
      let s := if fresh st then releaseGrads s i st img else s
      if !st.gateWrites.isEmpty then .next s
      else
        let s := if st.cause = 9 then endGate s st img else s
        let s := dropDecs s img
        .next (endStep s i ((stepOf s i).getD st) ((imgOf s i).getD img))

/-! ### GRAPH_ABORT (R288) -/

/-- A pending launch cancelled: ABORTED with its vintage, and LAST_VINTAGE returns. -/
def cancelPending (s : State) (i : Nat) (img : Img) (l : Launch) : State :=
  complete (setImg s i { img with pending := none, last := l.prev }) l.cmd 0x17 (8 * 2 ^ 28) l.vint 0

/-- GRAPH_ABORT. -/
def execGraphAbort (s : State) : Out :=
  match popUnit s fun m => m.opcode == 0x0102 with
  | none => .next s
  | some (m, s) =>
    let bad := if 16 ≤ m.at 4 1 then some 4 else if 2 ≤ m.at 5 1 then some 5 else firstNonzero m.bytes 6 42
    match bad, findImg s m.ctx (m.at 4 1 % 16) with
    | some b, _ => .next (badOperand s m b)
    | none, none => .next (badOperand s m 4)
    | none, some (i, img) =>
      if img.state = 2 then .next (badOperand s m 4)
      else
        let s := match bitAt (m.at 5 1) 0, img.pending with
          | true, some l => cancelPending s i img l
          | _, _ => s
        match stepOf s i with
        | none => .next (completeOk s m 0)
        | some st =>
          let s := setStep s i { st with aborts := st.aborts ++ [m] }
          .next (settle (ask s (.teardown i 8 0 8)))

end Sys2Proof.Machine
end

