-- ==== Sys2Proof/Machine/Cag.lean ====
section
/-! DEFINITION. Core agents and field controllers (R52-R58, R196, R231-R243, R249, R277-R281, R319, R360,
R545, R647): placement, starts, ends, kill orders and clock gating. -/

namespace Sys2Proof.Machine

open Sys2Proof

/-! ### Stamps, charges and trace records of a run -/

/-- Source of a run's trace records: its core agent, or its REX. -/
def runSrc (x : Run) : Nat := if x.kind = 3 then 8192 + x.core else x.core

/-- Engine cycles of a context in a demand kind, and a REX's energy for them (R545, R547). -/
def chargeUse (s : State) (late : Bool) (x : Run) (cc : Nat) : State :=
  modTally s late fun t =>
    { t with
      use := tadd t.use (4 * x.ctx + x.kind) cc
      energy := if x.kind = 3 then tadd t.energy x.ctx (cc * energyCoef s late 3) else t.energy }

/-- A running command is charged the cc edges since its last charge up to now, each in the policy tick that holds its
stamp (R111, R545). -/
def chargeRun (s : State) (id : Nat) : State :=
  match runOf s id with
  | none => s
  | some x =>
    if x.state ≠ 3 then s
    else
      let d := dueEdges s x
      let s := setRun s id { x with
        charged := x.charged + d.1 + d.2.1, lost := x.lost + d.2.2, chargedTo := 2 * s.gtb.cclk }
      chargeUse (chargeUse s false x d.1) true x d.2.1

/-- Whether a tick has charged a context anything. -/
def Tally.charged (t : Tally) (c : Nat) : Bool :=
  (List.range 4).any (fun k => decide (tget 0 t.use (4 * c + k) ≠ 0)) || decide (tget 0 t.bytes c ≠ 0) ||
  decide (1000000000 ≤ tget 0 t.energy c)

/-- The contexts whose accounts a loss in the accounting queue may touch (R564). -/
def chargedCtxs (s : State) : List Nat :=
  (List.range 64).filter fun c =>
    (s.disp.runs.any fun e => e.2.ctx == c && e.2.state == 3) ||
    (if pastBoundary s then s.psm.next else s.psm.tally).charged c

/-- PSM's accounting queue has lost charges: ACC_LOSS, and INEXACT of every context that they may have been for
(R564). -/
def accLoss (s : State) : State :=
  (chargedCtxs s).foldl (fun s c => setRegBit s (psmCtx c + 0xC) 28 true) (setRegBit s 0x800000 30 true)

/-- The charge of a run since its last one meets a full accounting queue: it is lost and never recovered (R34,
R564). -/
def loseCharge (s : State) (id : Nat) : State :=
  match runOf s id with
  | none => s
  | some x =>
    let d := dueEdges s x
    let s := accLoss (queueOverrun s 0x800020 1)
    setRun s id { x with
      charged := x.charged + d.1 + d.2.1, lost := x.lost + d.2.2, chargedTo := 2 * s.gtb.cclk }

/-- The fields that the BEGIN and END records of a run share. -/
def runBits (x : Run) : Nat :=
  placeBits x.ctx x.task x.field (coreIndex x.kind x.core) x.engine (if x.kind = 3 then 0 else x.slot) x.reruns

/-- The begin stamp of a run, and its BEGIN record (R647). -/
def traceBegin (s : State) (x : Run) : State :=
  if traceWants s recBegin x.ctx then
    traceSrc s (runSrc x) (recBegin * 2 ^ 42 + runBits x + b2n x.staged * 2 ^ 89 +
      b2n x.locked * 2 ^ 90 + b2n x.gated * 2 ^ 91 + tdTag (descOf s x.task) * 2 ^ 96)
  else markSrcStamp s (runSrc x)

/-- The end stamp of a run, and its END record (R647). -/
def traceEnd (s : State) (x : Run) (outcome : Nat) (noEnd : Bool) : State :=
  if traceWants s recEnd x.ctx then
    traceSrc s (runSrc x) (recEnd * 2 ^ 42 + runBits x + outcome * 2 ^ 89 + b2n noEnd * 2 ^ 93 +
      min x.charged (2 ^ 32 - 1) * 2 ^ 96)
  else markSrcStamp s (runSrc x)

/-! ### The start of a command (R196, R240, R285, R360) -/

/-- The context, task and rerun count that every beat carries (R196). -/
def beatHead (x : Run) : Nat := x.ctx * 2 ^ 256 + x.task * 2 ^ 262 + min x.reruns 7 * 2 ^ 279

/-- A beat sent on an engine port; every beat is its command's last (R196, R319, R360). -/
def sendBeat (s : State) (x : Run) (beat : Nat) : State :=
  { s with disp := { s.disp with beats := s.disp.beats ++ [{ core := x.core, engine := x.engine, slot := x.slot, data := beat }] } }

/-- The start beat (R196). -/
def startBeat (s : State) (x : Run) : Nat :=
  leNat ((descOf s x.task).drop 32) + beatHead x + x.vint * 2 ^ 320 + x.seed * 2 ^ 384

/-- The message beat of a HANDLER run (R360). What it shows of a record that cannot be read is left
open. -/
def messageBeat (s : State) (x : Run) : State :=
  match x.msg.bind fun k => recordOf s k with
  | none => s
  | some (ch, rec) =>
    let va := ch.ringVa + rec.pos * 64
    let (s, bytes) := match readVirt s x.ctx va 32 with
      | some b => (s, leNat b)
      | none => let (d, s) := draw s; (s, Config.freeNat d % 2 ^ 256)
    sendBeat s x (bytes + beatHead x + 2 ^ 283 + va * 2 ^ 320 + rec.len * 2 ^ 384)

/-- The watchdog time of a command in ns (R284, R285). -/
def wdogNs (s : State) (x : Run) : Nat :=
  let w := tdWdog (descOf s x.task)
  let t := if w = 0 then regFld s (cmtCtx x.ctx + 4) 19 0 * 1000 else 62500 * 2 ^ (w - 1)
  if x.locked then 2 * t else t

/-- First delay-tick boundary not earlier than an instant (R114, R286), in time units. -/
def tickUp (t : Nat) : Nat := cdivN t (nsUnits 256) * nsUnits 256

/-- BOUNDARY of a stamp that a run's own counter gives now, assigned to the policy tick that contains it (R111,
R113). -/
def tickFlag (s : State) (x : Run) : Bool :=
  let t := fieldTime s x.field
  let lo := t / policyTick * policyTick
  boundaryFlag s true (srcQ s (runSrc x)) t lo (lo + policyTick)

/-- A command starts on its engine or REX (R240, R285, R417). -/
def beginRun (s : State) (id : Nat) : State :=
  match runOf s id with
  | none => s
  | some x =>
    let locked := x.kind == 3 && (x.interlock || regBit s (cmtCtx x.ctx) 8)
    let x := { x with locked := locked }
    let x := { x with
      state := 3, start := s.gtb.now, startQ := srcQ s (runSrc x), beginNs := fieldNs s x.field
      wdog := tickUp (s.gtb.now + nsUnits (wdogNs s x)), chargedTo := 2 * s.gtb.cclk
      beginEdge := tickFlag s x, lost := fldLost s x.field }
    let s := traceBegin (setRun s id x) x
    if x.kind = 3 then rexStart s x.core id x
    else messageBeat (sendBeat s x (startBeat s x)) x

/-- A placed command starts, or waits for its core's clock (R55, R240). -/
def startRun (s : State) (id : Nat) : State :=
  match runOf s id with
  | none => s
  | some x =>
    if x.kind = 3 then beginRun s id
    else
      let c := coreOf s x.core
      let s := if c.gateReq then setCore s x.core { c with gateReq := false } else s
      if c.gateAck then setRun s id { x with state := 2, gated := true } else beginRun s id

/-- Whether an engine or REX has a command that runs or waits for its clock. -/
def placeBusy (s : State) (x : Run) : Bool :=
  s.disp.runs.any fun e => e.2.kind == x.kind && e.2.core == x.core && e.2.engine == x.engine &&
    (e.2.state == 2 || e.2.state == 3)

/-- The first staged task of an engine or REX, in the order of staging (R237). -/
def firstStaged (s : State) (kind core engine : Nat) : Option Nat :=
  ((s.disp.runs.filter fun e => e.2.state == 1 && e.2.kind == kind && e.2.core == core &&
    e.2.engine == engine).foldl (fun best e => match best with
      | none => some e
      | some b => if e.2.stagedAt < b.2.stagedAt then some e else some b) none).map fun e => e.1

/-- An engine that is free starts its first staged task (R237); none starts on a core or REX that has FAILED (R242,
R243), nor in the safe state, which has left no staged task a commit point to reach (R629). -/
def startNext (s : State) (kind core engine : Nat) : State :=
  let busy := s.disp.runs.any fun e => e.2.kind == kind && e.2.core == core && e.2.engine == engine &&
    (e.2.state == 2 || e.2.state == 3)
  let failed := if kind = 3 then (tget {} s.disp.rex core).failed else (coreOf s core).failed
  if busy || failed || s.saf.safe then s
  else match firstStaged s kind core engine with
    | none => s
    | some id => startRun s id

/-! ### Placement (R231, R236, R238) -/

/-- Whether a resident slot is ending: END has been seen, and its COMPLETE record still waits (R239). -/
def slotEnding (s : State) (n k : Nat) : Bool :=
  (fieldOf s (fieldOfCore n)).cplQ.any fun i => i.kind != 3 && i.core == n && i.slot == k

/-- The lowest free resident slot of a core. -/
def freeSlotOf (s : State) (n : Nat) : Nat :=
  ((List.range 4).find? fun k => !(s.disp.runs.any fun e => e.2.kind != 3 && e.2.core == n && e.2.slot == k &&
    decide (1 ≤ e.2.state) && decide (e.2.state ≤ 3)) && !slotEnding s n k).getD 0

/-- A command that never started goes back to RDY with its entry order (R224, R242). -/
def giveBack (s : State) (id : Nat) : State :=
  match runOf s id with
  | none => s
  | some x => backReady (dropRun s id) { rerunEntry s x false x.interlock with home := x.home }

/-- Whether the core or REX that a staged or mapped record names has FAILED. -/
def placeFailed (s : State) (x : Run) : Bool :=
  if x.kind = 3 then (tget {} s.disp.rex x.core).failed else (coreOf s x.core).failed

/-- The place of a DISPATCH record: as RDY decided it, or the field's lowest free one. -/
def placeOf (s : State) (x : Run) : Option (Nat × Nat) :=
  if x.staged then some (x.core, x.engine)
  else if x.mapped.isSome then
    match (if x.kind = 3 then none else freeEngine s (fieldPlaces s) x.ctx x.kind x.core) with
    | some e => some (x.core, e)
    | none => some (x.core, x.engine)
  else firstFree s (fieldPlaces s) x.ctx x.kind x.field

/-- A DISPATCH record placed: traced, and started or staged. -/
def placeRun (s : State) (id : Nat) (x : Run) (core engine : Nat) : State :=
  let x := { x with
    core := core, engine := engine, slot := if x.kind = 3 then 0 else freeSlotOf s core, state := 1
    stagedAt := s.disp.order }
  let s := traceRun (setRun s id x) id x
  let s := { s with disp := { s.disp with order := s.disp.order + 1 } }
  startNext s x.kind core engine

/-- Whether a field has nothing left that a command could ever be placed on: its context holds no core or
REX there that has not FAILED. -/
def fieldHopeless (s : State) (x : Run) : Bool :=
  if x.kind = 3 then
    (rangeFrom (x.field * Config.rexPerField) Config.rexPerField).all fun k =>
      !ctxHas s x.ctx k || (tget {} s.disp.rex k).failed
  else
    (rangeFrom (x.field * Config.coresPerField) Config.coresPerField).all fun n =>
      !ctxHas s x.ctx (n / 32) || (coreOf s n).failed

/-- DISPATCH_RECORD: the oldest task start of a field is placed (R231, R236, R240); what no place of the
field can take any more goes back to RDY. A field whose clock is stopped leaves it in the queue (R20). -/
def execDispatchRecord (f : Fin 8) (s : State) : Out :=
  let q := fieldOf s f
  if fieldStopped s f then .next s else
  match q.dispQ with
  | .start id :: rest =>
    let gone := setField s f { q with dispQ := rest }
    match runOf s id with
    | none => .next gone
    | some x =>
      if (x.staged || x.mapped.isSome) && placeFailed s x then .next (giveBack gone id)
      else match placeOf s x with
        | none => .next (if fieldHopeless s x then giveBack gone id else s)
        | some (n, e) => .next (settle (placeRun gone id x n e))
  | _ => .next s

/-- The field to which a withdrawn task goes: that of the engine that was kept for it, else the first with a free
one; none where none is left. -/
def withdrawField (s : State) (x : Run) (w : Withdrawal) : Option Nat :=
  if fieldOpen s w.field && (firstFree s (rdyPlaces s w.field) x.ctx x.kind w.field).isSome then some w.field
  else (freePlace s x.home x.ctx x.kind).map fun p => p.1

/-- The record of a withdrawal that places nothing (R251). -/
def traceVoid (s : State) (x : Run) : State :=
  traceSched s x.ctx (runRec { x with decided := cellarStamp s, wait := waitCc s x.since } 4)

/-- A withdrawn task on its way to the free engine: a new DISPATCH record, or back to RDY where no engine is left
(R238). Such a return is recorded as a void withdrawal, for which R251 has no REASON of its own (log entry 39). -/
def withdrawTo (s : State) (id : Nat) (x : Run) (w : Withdrawal) : State × Option Nat :=
  match withdrawField (setRun s id { x with state := 0 }) x w with
  | none => (giveBack (traceVoid s x) id, none)
  | some f =>
    let p := parcelOf s x.ctx
    let w := waitCc s x.since
    let x := { x with
      state := 0, staged := false, reason := 3, field := f, wait := w, decided := cellarStamp s
      core := 0, engine := 0, slot := 0 }
    let s := holdSched (chargeWait (setRun s id x) p w) x.ctx id
    let q := fieldOf s f
    if q.dispQ.length < 16 then 
      (addReg (setField s f { q with dispQ := q.dispQ ++ [.start id] }) 0x300010 1, none)
    else (queueOverrun s (0x300100 + f * 0x10) 1, some f)

/-- WITHDRAW: the oldest WITHDRAW record of a field takes the staged task, or is void where the task has started,
whether or not its command is still there (R238). -/
def execWithdraw (f : Fin 8) (s : State) : Out :=
  let q := fieldOf s f
  if fieldStopped s f then .next s else
  match q.dispQ with
  | .withdraw w :: rest =>
    let s := setField s f { q with dispQ := rest }
    match runOf s w.run with
    | none => .next (traceVoid (setRegBit s 0x400004 0 true) w.task)
    | some x =>
      if x.state = 1 && x.killed.isNone then
        match withdrawTo s w.run x w with
        | (s, none) => .next s
        | (s, some g) =>
          .next (settle (queueLoss s 0x05 (0x300100 + g * 0x10) (ctxsInField s g fun k => k ≤ 3)))
      else .next (traceVoid (setRegBit s 0x400004 0 true) x)
  | _ => .next s

/-! ### Failed cores and REX units (R54, R242) -/

/-- Staged tasks of a core or REX go back to RDY; one that CMT has killed is left to its kill order (R243). -/
def returnStaged (s : State) (p : Run → Bool) : State :=
  ((s.disp.runs.filter fun e => e.2.state == 1 && e.2.killed.isNone && p e.2).map fun e => e.1).foldl giveBack s

/-- A core becomes FAILED until CORE_RST_N. -/
def failCore (s : State) (n : Nat) : State :=
  let s := setRegBit (setCore s n { coreOf s n with failed := true }) 0x300004 0 true
  returnStaged s fun x => x.kind != 3 && x.core == n

/-- A REX becomes FAILED until CORE_RST_N. -/
def failRex (s : State) (u : Nat) : State :=
  let s := { s with disp := { s.disp with rex := tmod {} s.disp.rex u fun r => { r with failed := true } } }
  returnStaged (setRegBit s 0x300004 0 true) fun x => x.kind == 3 && x.core == u

/-! ### The end of a command (R242, R249, R277) -/

/-- A run time enters the figures of its stage (R249). -/
def measureRun (s : State) (x : Run) (endNs : Nat) : State :=
  let layer := tdLayer (descOf s x.task)
  match (if x.t1 then none else stepOf s x.img) with
  | none => s
  | some st =>
    if st.measured && decide (layer < 1024) then
      let g := tget {} st.stages layer
      let t := endNs - x.beginNs
      let first := decide (g.max < t) || decide (g.count = 0) ||
        (g.max == t && decide (endNs < g.endNs))
      let g := { g with
        sum := g.sum + t, count := g.count + 1
        max := if first then t else g.max
        task := if first then x.task else g.task
        endNs := if first then endNs else g.endNs }
      setStep s x.img { st with stages := tput st.stages layer g }
    else s

/-- What every END does, and the 4,096th cc after a KILL with none: the last charge, the END record, and
the stage figures. -/
def closeRun (s : State) (id : Nat) (outcome : Nat) (noEnd : Bool) : State :=
  let s := chargeRun s id
  match runOf s id with
  | none => s
  | some x =>
    let ns := fieldNs s x.field
    let edge := tickFlag s x
    let s := traceEnd s x outcome noEnd
    let s := measureRun (setRun s id { x with state := 4, endNs := ns, ended := true, boundary := edge }) x ns
    if x.kind = 3 then modUnit s x.core fun y => { y with run := none, miss := none }
    else setCore s x.core { coreOf s x.core with idleSince := s.gtb.now }

/-- The end of a command on its way to RDY and CMT in the COMPLETE class; a full queue loses it (R34,
R232, R256). -/
def sendComplete (s : State) (id : Nat) (x : Run) : State :=
  let f := fieldOf s x.field
  let i : CplItem :=
    { run := id, count := x.sent, kind := x.kind, core := x.core, engine := x.engine, slot := x.slot }
  if f.cplQ.length < 32 then setField s x.field { f with cplQ := f.cplQ ++ [i] }
  else
    let off := 0x400100 + x.field * 0x10
    fullLoss s 0x07 off (ctxsInField s x.field fun k => k == 3 || k == 4)

/-- A kill order that has not reached its core agent is void once END has been seen (R280). -/
def dropOrder (s : State) (id : Nat) (x : Run) : State :=
  let f := fieldOf s x.field
  deliverDown (setField s x.field { f with grantQ := f.grantQ.filter fun i => i != .kill id }) x.field

/-- END of a running command with a code (R242, R277, R280): a COMPLETE record, the stop of a kill, or an
engine fault. -/
def endRun (s : State) (id : Nat) (code : Nat) : State :=
  match runOf s id with
  | none => s
  | some x =>
    let raised := x.killAt.isSome
    let good := decide (code = 0) || (decide (code = 1) && raised)
    let outcome := if raised then x.killed.getD 0 else if good then 0 else 4
    let s := dropOrder (closeRun s id outcome false) id x
    let s := sendComplete s id x
    let s :=
      if good then
        if x.killed.isNone then s
        else
          let s := if raised then s else traceKilled s x (x.killed.getD 0) false
          finishKill s id false
      else
        let s := record (setRegBit s 0x400004 1 true) 1 0x07 0x41 (some x.ctx) code x.task
        let s := failCore s x.core
        let s := if x.killed.isSome then s else markKilled s id x (firstCause s id x 4)
        finishKill s id false
    startNext s x.kind x.core x.engine

/-- A write of an engine, byte by byte: it lands in a page that the command may write (R257, R467). -/
def engineWrite (x : Run) (s : State) (cell : Nat × BitVec 8) : State :=
  let va := cell.1
  match regionAt s x.ctx va with
  | none => s
  | some g =>
    let vpn := pageOf g va
    let frame := match freshOf x vpn with
      | some f => some f.frame
      | none => match mapOf s x.ctx vpn with
        | some m => if g.kind = 1 && m.res = 0 then some m.at_ else none
        | none => none
    match frame with
    | some k => { s with mem := mwrite s.mem (k * 65536 + (va - vpn * 65536)) cell.2 }
    | none => s

/-- The running command of a core's slot. -/
def slotRun (s : State) (core slot : Nat) : Option (Nat × Run) :=
  s.disp.runs.find? fun e => e.2.kind != 3 && e.2.core == core && e.2.slot == slot && e.2.state == 3

/-- END_VALID: an engine reports the end of the command in a slot; `mem` is what the command has written,
by virtual address (R242, R257); `lost` says that its last charge meets a full accounting queue (log entry 38). -/
def execEndValid (core : Fin 4096) (engine : Fin 8) (slot : Fin 4) (code : Fin 16)
    (mem : List (Nat × BitVec 8)) (s : State) (lost : Bool := false) : Out :=
  match slotRun s core slot with
  | none => .next s
  | some (id, x) =>
    if x.engine ≠ engine.val then .next s
    else
      let s := if lost then loseCharge s id else s
      .next (settle (endRun (mem.foldl (engineWrite x) s) id code))

/-- The access stream of a unit has nothing in flight any more: a QBAR that both streams hold passes, and a command of
which both have ended raises END_VALID (R420, R449). -/
def rexDrained (s : State) (u : Nat) : State :=
  let s := passBars s u
  let y := unitOf s u
  match y.run with
  | some r => if y.acc.done && y.exe.done && y.late.isEmpty && !y.stopped then endRun s r 0 else s
  | none => s

/-- REX_END: END of a stream of a REX (R420); for a command under KILL, the END with which the REX answers
it (R384). -/
def execRexEnd (u : Fin 128) (exe : Bool) (s : State) : Out :=
  let y := unitOf s u
  match y.run.bind fun r => (runOf s r).map fun x => (r, x) with
  | none => .next s
  | some (r, x) =>
    if x.killAt.isSome then .next (settle (endRun s r 1))
    else match issueAt s u exe 0x01 with
      | .none => .next s
      | .stop s => .next (settle s)
      | .go r x pc _ =>
        let other := strOf y (!exe)
        if !(strOf y exe).loops.isEmpty then .next (settle (progFault s u r x 3 pc 0))
        else if other.bar.isSome then .next (settle (progFault s u r x 3 other.pc 0))
        else
          let s := modUnit s u fun y => setStr y exe { strOf y exe with done := true }
          .next (settle (rexDrained s u))

/-! ### Effect requests (R18, R689) -/

/-- EFF_VALID: an engine makes an effect request for the command in a slot (R18, R266). -/
def execEffValid (core : Fin 4096) (slot : Fin 4) (data : BitVec 128) (s : State) : Out :=
  match slotRun s core slot with
  | none => .next s
  | some (id, x) => .next (settle (sendEffect s id x data.toNat))

/-! ### Kill orders (R52-R54, R243, R277) -/

/-- KILL_ORDER: the oldest kill order of a field frees a staged slot, or raises KILL for a running command
(R243, R277, R280). -/
def execKillOrder (f : Fin 8) (s : State) : Out :=
  let q := fieldOf s f
  if fieldStopped s f then .next s else
  match q.grantQ with
  | .kill id :: rest =>
    let s := deliverDown (setField s f { q with grantQ := rest }) f
    match runOf s id with
    | none => .next s
    | some x =>
      if x.state = 3 then
        let s := countLimit (modRun s id fun x => { x with killAt := some s.gtb.now }) id x (x.killed.getD 0)
        .next (settle (if x.kind = 3 then modUnit s x.core fun y => { y with stopped := true, miss := none } else s))
      else
        let s := finishKill (traceKilled s x (x.killed.getD 0) true) id false
        .next (settle (startNext s x.kind x.core x.engine))
  | _ => .next s

/-- The killed command whose END is awaited longest. -/
def oldestKill (s : State) : Option (Nat × Run × Nat) :=
  s.disp.runs.foldl (fun best e => match e.2.killAt, best with
    | some t, none => if e.2.state = 3 then some (e.1, e.2, t) else none
    | some t, some b => if e.2.state = 3 && decide (t < b.2.2) then some (e.1, e.2, t) else best
    | none, _ => best) none

/-- KILL_TIMEOUT: 4,096 cc after KILL no END has come for the command killed first: its core or REX is
FAILED, its fresh pages go into quarantine, and it reruns (R54, R278). -/
def execKillTimeout (s : State) : Out :=
  match oldestKill s with
  | none => .next s
  | some (id, x, t) =>
    let s := advanceTo (t + 4096 * 2048) s
    let s := closeRun s id (x.killed.getD 0) true
    let s := setRegBit s 0x400004 2 true
    let s := record s 1 0x07 0x40 (some x.ctx) (if x.kind = 3 then 0x8000 + x.core else x.core) x.task
    let s := if x.kind = 3 then failRex s x.core else failCore s x.core
    .next (settle (finishKill s id true))

/-! ### Wake beats (R319) -/

/-- The wake beat of a waiter (R319). -/
def wakeBeat (x : Run) (w : Waiter) : Nat :=
  beatHead x + 2 ^ 282 + b2n (w.refused != 0) * 2 ^ 283 + w.refused * 2 ^ 284 + w.vid * 2 ^ 288 +
  w.tag * 2 ^ 304 + w.at_ * 2 ^ 320 + (if w.refused = 0 then w.got else 0) * 2 ^ 384

/-- WAKE_BEAT: the oldest wake-up of a field reaches the slot of the waiting command (R319, R322); one sent ahead
of an instant waits until the field's own counter has reached it (R115), and none passes into a field whose clock
is stopped (R20). -/
def execWakeBeat (f : Fin 8) (s : State) : Out :=
  let q := fieldOf s f
  if fieldStopped s f then .next s else
  match q.grantQ with
  | .wake id w due :: rest =>
    if fieldTime s f < due then .next s else
    let s := deliverDown (setField s f { q with grantQ := rest }) f
    match runOf s id, waiterOf s w with
    | some x, some y => .next (if x.state = 3 && x.killAt.isNone then sendBeat s x (wakeBeat x y) else s)
    | _, _ => .next s
  | _ => .next s

/-! ### Clock gating (R55, R241) -/

/-- Whether no slot of a core runs. -/
def coreIdle (s : State) (n : Nat) : Bool :=
  !(s.disp.runs.any fun e => e.2.kind != 3 && e.2.core == n && (e.2.state == 2 || e.2.state == 3))

/-- GATE_IDLE_EXPIRY: a core on which no slot has run for GATE_IDLE cc raises GATE_REQ (R241). -/
def execGateIdleExpiry (core : Fin 4096) (s : State) : Out :=
  let n := regFld s 0x400000 15 0
  let c := coreOf s core
  if n = 0 || c.gateReq || !coreIdle s core then .next s
  else
    let s := advanceTo (c.idleSince + n * 2048) s
    .next (setCore s core { coreOf s core with gateReq := true })

/-- GATE_ACK_RISE: the licensee's clock controller gates the core that asks for it (R55). -/
def execGateAckRise (core : Fin 4096) (s : State) : Out :=
  let c := coreOf s core
  .next (if c.gateReq then setCore s core { c with gateAck := true } else s)

/-- GATE_ACK_FALL: the clock is back, and the commands that waited for it start (R55, R240). -/
def execGateAckFall (core : Fin 4096) (s : State) : Out :=
  let c := coreOf s core
  if c.gateReq then .next s
  else if s.saf.safe then .next (setCore s core { c with gateAck := false })
  else
    let s := setCore s core { c with gateAck := false }
    let mine := (s.disp.runs.filter fun e => e.2.kind != 3 && e.2.core == core.val && e.2.state == 2).map
      fun e => e.1
    .next (settle (mine.foldl beginRun s))

end Sys2Proof.Machine
end

