-- ==== Sys2Proof/Machine/Hif.lean ====
section
/-! DEFINITION. The host interface (R122-R160, R688): doorbells, descriptor fetch and checks,
completion entries, interrupts and the enables of contexts and rings. -/

namespace Sys2Proof.Machine

open Sys2Proof

/-! ### Rings -/

/-- Base of the registers of ring `r` of context `c`. -/
def sqBase (c r : Nat) : Nat := hifBase c + 0x80 + r * 0x20

/-- State of a ring. -/
def ringOf (s : State) (c r : Nat) : Ring := tget {} (hctx s c).rings r

/-- State of a ring replaced. -/
def setRing (s : State) (c r : Nat) (x : Ring) : State :=
  setHctx s c { hctx s c with rings := tput (hctx s c).rings r x }

/-- Entries of a ring. -/
def sqSize (s : State) (c r : Nat) : Nat := 2 ^ regFld s (sqBase c r + 8) 4 0

/-- RING_EN of a ring. -/
def ringEn (s : State) (c r : Nat) : Bool := regBit s (sqBase c r + 8) 31

/-- Base address of a ring. -/
def sqAddr (s : State) (c r : Nat) : Nat :=
  reg s (sqBase c r) / 4096 * 4096 + 2 ^ 32 * reg s (sqBase c r + 4)

/-- HEAD passes one descriptor that is taken (R125). -/
def headPass (s : State) (c r : Nat) : State :=
  let x := ringOf s c r
  setRing s c r { x with head := cadd x.head 1 }

/-! ### Opcodes (R155) -/

/-- An opcode of the table: number, critical, privileged. -/
structure OpRow where
  op : Nat
  critical : Bool
  priv : Bool
  deriving DecidableEq, Repr

/-- The opcodes that Abalo accepts (R155). -/
def opRows : List OpRow :=
  [⟨0x0000, false, false⟩, ⟨0x0100, true, false⟩, ⟨0x0101, false, false⟩, ⟨0x0102, false, false⟩,
   ⟨0x0103, false, false⟩, ⟨0x0104, false, false⟩, ⟨0x0200, false, false⟩, ⟨0x0201, false, false⟩,
   ⟨0x0202, false, false⟩, ⟨0x0203, false, false⟩, ⟨0x0204, false, true⟩, ⟨0x0205, true, true⟩,
   ⟨0x0300, false, false⟩, ⟨0x0400, false, false⟩, ⟨0x0401, false, false⟩, ⟨0x0500, true, true⟩,
   ⟨0x0501, true, true⟩, ⟨0x0502, false, false⟩, ⟨0x0503, false, false⟩, ⟨0x0504, false, false⟩,
   ⟨0x0600, true, true⟩, ⟨0x0601, true, true⟩, ⟨0x0700, true, true⟩, ⟨0x0701, true, true⟩,
   ⟨0x0800, false, true⟩, ⟨0x0F00, true, true⟩]

/-- The row of an opcode. -/
def opRow (op : Nat) : Option OpRow := opRows.find? fun r => r.op == op

/-! ### Doorbells -/

/-- SQN_DB: host memory written before the doorbell becomes visible (R132), then the value is
accepted as the new producer count or refused (R129, R131). -/
def execSqnDb (c : Fin 64) (r : Fin 4) (v : Word) (mem : List (Nat × BitVec 8)) (s : State) : Out :=
  let s := { s with host := mwriteCells s.host (mem.map fun a => (hostKey s c a.1, a.2)) }
  let x := ringOf s c r
  if !ctxEnabled s c || !ringEn s c r then
    .next (setRegBit s (sqBase c r + 0x14) 1 true)
  else if cdiff v.toNat x.dbLast ≤ sqSize s c r && cdiff v.toNat x.head ≤ sqSize s c r then
    .next (setRing s c r { x with dbLast := v.toNat })
  else
    .next (raiseEvent (setRegBit s (sqBase c r + 0x14) 1 true) c 0x0002 1 r 0 v.toNat)

/-- CQ_DB: the CQ consumer count, or a refusal (R130, R131). -/
def execCqDb (c : Fin 64) (v : Word) (s : State) : Out :=
  let h := hctx s c
  if !ctxEnabled s c && ctxIdle s c then .next (setRegBit s (hifBase c + 4) 1 true)
  else if cdiff v.toNat h.cqCons ≤ cdiff h.cqProd h.cqCons then
    let below := decide (cdiff h.cqProd v.toNat < cqSize s c)
    .next (setHctx s c { h with cqCons := v.toNat, cqFullSent := h.cqFullSent && !below })
  else .next (raiseEvent (setRegBit s (hifBase c + 4) 1 true) c 0x0002 1 4 0 v.toNat)

/-- EQ_DB: the EQ consumer count, or a refusal without an event; a freed slot lets the EVENTS_LOST
entry be written (R130, R131, R140). -/
def execEqDb (c : Fin 64) (v : Word) (s : State) : Out :=
  let h := hctx s c
  if !ctxEnabled s c && ctxIdle s c then .next (setRegBit s (hifBase c + 4) 5 true)
  else if cdiff v.toNat h.eqCons ≤ cdiff h.eqProd h.eqCons then
    .next (flushLost (setHctx s c { h with eqCons := v.toNat }) c)
  else .next (setRegBit s (hifBase c + 4) 5 true)

/-- IRQ_REARM_CLEAR: MASK is cleared and one pending message sent, subject to the holdoff (R153). -/
def execIrqRearmClear (c : Fin 64) (s : State) : Out :=
  let s := setRegBit s (hifBase c + 0x44) 31 false
  .next (if (hctx s c).irqPending && !inHoldoff s c then sendMsg s c else s)

/-- IRQ_REARM_SET: MASK is set (R153). -/
def execIrqRearmSet (c : Fin 64) (s : State) : Out :=
  .next (setRegBit s (hifBase c + 0x44) 31 true)

/-- DOORBELL_BAD_ACCESS: zero data and DB_BAD_ACCESS (R128). -/
def execDoorbellBadAccess (c : Fin 64) (s : State) : Out :=
  .next { setRegBit s (hifBase c + 4) 6 true with
    hif := { (setRegBit s (hifBase c + 4) 6 true).hif with rdata := 0 } }

/-- HOLDOFF_END: the holdoff interval ends, and one message is sent for pending causes (R152). -/
def execHoldoffEnd (c : Fin 64) (s : State) : Out :=
  match (hctx s c).lastMsg with
  | none => .next s
  | some t =>
    let e := t + holdoff s c
    let s := advanceTo e (countLate s (inJump s e))
    .next (if (hctx s c).irqPending && !regBit s (hifBase c + 0x44) 31 then sendMsg s c else s)

/-! ### Fetch (R126, R133, R138, R141, R142) -/

/-- Descriptors in the fetch queue and in flight to it. -/
def fetchLoad (s : State) : Nat := s.hif.fetchQ.length + s.hif.flight.foldl (fun n f => n + f.n) 0

/-- The outstanding commands of a ring whose descriptors have been lost. -/
def lostOf (s : State) (c r : Nat) : List OutCmd := s.hif.outs.filter fun o => o.ctx == c && o.ring == r && o.lost

/-- How many descriptors a turn of ring `r` of context `c` fetches now. Lost descriptors come first; as commands
that are outstanding they are fetched again whatever ENABLE and RING_EN say (R159; DEDUCED, log entry 40). HIF
fetches no more than the fetch queue has places for, in it and on the way (DESIGN CHOICE, log entry 40), so that
queue is never overrun. -/
def fetchCount (s : State) (c r : Nat) : Nat :=
  let x := ringOf s c r
  let lost := (lostOf s c r).length
  if regBit s 0x100000 0 && decide (0 < lost) && !x.stopped then min 8 (min lost (64 - fetchLoad s))
  else if regBit s 0x100000 0 && ctxEnabled s c && ringEn s c r && !x.stopped then
    min 8 (min (cdiff x.dbLast x.fetch) (min (128 - outstanding s c) (64 - fetchLoad s)))
  else 0

/-- The rings of a context in round-robin order. Context 0 and ring 0 come first after reset (DESIGN CHOICE, log
entry 40: R141 names no first one; `rrCtx` resets to 63, and a ring not served yet counts as 3). -/
def ringOrder (s : State) (c : Nat) : List Nat :=
  (rangeFrom (tget 3 s.hif.rrRing c + 1) 4).map (· % 4)

/-- The next ring to serve: contexts in round-robin order, and rings within a context. -/
def fetchChoice (s : State) : Option (Nat × Nat) :=
  ((rangeFrom (s.hif.rrCtx + 1) 64).map (· % 64)).findSome? fun c =>
    ((ringOrder s c).find? fun r => decide (0 < fetchCount s c r)).map fun r => (c, r)

/-- Fetch reads of `n` descriptors from the ring's fetch position: one read, or two where the ring's
end is passed (R126). -/
def issueFetch (s : State) (c r n : Nat) : State :=
  let x := ringOf s c r
  let size := sqSize s c r
  let k := min n (size - x.fetch % size)
  let again := ((lostOf s c r).take n).map fun o => o.uid
  let uids := if again.isEmpty then rangeFrom s.hif.nextUid n else again
  let read := fun (seq m : Nat) (ids : List Nat) =>
    ({ ctx := c, ring := r, seq := seq, n := m, uids := ids, base := sqAddr s c r, size := size } : Fetch)
  let reads : List Fetch := [read x.fetch k (uids.take k)]
  let more : List Fetch := if k < n then [read (cadd x.fetch k) (n - k) (uids.drop k)] else []
  let new : List OutCmd :=
    if again.isEmpty then
      (List.range n).map fun i => { ctx := c, ring := r, seq := cadd x.fetch i, uid := s.hif.nextUid + i }
    else []
  let found := s.hif.outs.map fun o =>
    if o.ctx == c && o.ring == r && again.contains o.uid then { o with lost := false } else o
  let s := setRing s c r { x with fetch := cadd x.fetch n }
  { s with hif := { s.hif with
      flight := s.hif.flight ++ reads ++ more
      outs := found ++ new
      nextUid := if again.isEmpty then s.hif.nextUid + n else s.hif.nextUid
      rrCtx := c
      rrRing := tput s.hif.rrRing c r } }

/-- DESCRIPTOR_FETCH: a fetch read for the next ring in round-robin order. -/
def execDescriptorFetch (s : State) : Out :=
  match fetchChoice s with
  | none => .next s
  | some (c, r) => .next (issueFetch s c r (fetchCount s c r))

/-- The oldest read in flight returns: its descriptors, from the addresses that it was issued for, enter the fetch
queue (R126, R157). -/
def arrive (s : State) : State :=
  match s.hif.flight with
  | [] => s
  | f :: rest =>
    let item := fun i : Nat =>
      let n := cadd f.seq i
      ({ ctx := f.ctx, ring := f.ring, seq := n,
         bytes := hostRead s f.ctx (f.base + n % f.size * 64) 64, uid := f.uids.getD i 0 } : Cmd)
    { s with hif := { s.hif with
        flight := rest
        fetchQ := s.hif.fetchQ ++ (List.range f.n).map item } }

/-- The descriptors of a ring from its first lost one on, count `seq`, are lost from the queues: the fetch position
returns there, and they are to be fetched again (R159, R180). They stay outstanding meanwhile (DESIGN CHOICE, log
entry 40: the spec does not say whether OUTSTANDING counts them). -/
def loseFrom (s : State) (c r seq uid : Nat) : State :=
  let lost := fun (c' r' u : Nat) => c' == c && r' == r && decide (uid ≤ u)
  let s := setRing s c r { ringOf s c r with fetch := seq }
  { s with
    hif := { s.hif with
      flight := s.hif.flight.filter fun f => !lost f.ctx f.ring (f.uids.headD 0)
      fetchQ := s.hif.fetchQ.filter fun m => !lost m.ctx m.ring m.uid
      outs := s.hif.outs.map fun o => if lost o.ctx o.ring o.uid then { o with lost := true } else o }
    cau := { s.cau with inQ := s.cau.inQ.filter fun m => !lost m.ctx m.ring m.uid } }

/-- The ring's fetch position returns to the first descriptor of a read that failed, count `seq` and number `uid`,
and what the ring has fetched from there on is dropped: these commands have never been fetched, and are outstanding
no more (R138, R142). So are those that the failed read was to fetch again, and the lost ones behind them. -/
def refetchFrom (s : State) (c r seq uid : Nat) : State :=
  let dropped := fun (c' r' u : Nat) => c' == c && r' == r && decide (uid ≤ u)
  let s := setRing s c r { ringOf s c r with fetch := seq }
  { s with hif := { s.hif with
      flight := s.hif.flight.filter fun f => !dropped f.ctx f.ring (f.uids.headD 0)
      fetchQ := s.hif.fetchQ.filter fun m => !dropped m.ctx m.ring m.uid
      outs := s.hif.outs.filter fun o => !dropped o.ctx o.ring o.uid } }

/-- RING_FETCH_ERROR: a host read error stops the ring of the oldest read in flight (R142). -/
def execRingFetchError (s : State) : Out :=
  match s.hif.flight with
  | [] => .next s
  | f :: _ =>
    let s := refetchFrom s f.ctx f.ring f.seq (f.uids.headD 0)
    let s := setRing s f.ctx f.ring { ringOf s f.ctx f.ring with stopped := true }
    let s := setRegBit s (sqBase f.ctx f.ring + 0x14) 2 true
    .next (raiseEvent s f.ctx 0x0003 2 f.ring 0 f.seq)

/-! ### Checks and passing (R135, R137, R143, R144, R630) -/

/-- Every command of the same ring that was fetched earlier has completed (R144). -/
def fenceOpen (s : State) (m : Cmd) : Bool :=
  s.hif.outs.all fun o => !(o.ctx == m.ctx && o.ring == m.ring) || o.done || decide (m.uid ≤ o.uid)

/-- DETAIL of the first format check that fails (R135, steps 1 to 3). -/
def formatFault (m : Cmd) : Option Nat :=
  if m.at 3 1 ≠ m.ring then some 3
  else match opRow m.opcode with
    | none => some 0
    | some r =>
      if bitAt m.flags 3 || (!r.critical && decide (fld m.flags 7 4 ≠ 0)) then some 2 else none

/-- The status and DETAIL of the first of HIF's own checks that fails (steps 1 to 4 of R135), and SAFE_STATE in the
safe state (R630). -/
def hifFault (s : State) (m : Cmd) : Option (Nat × Nat) :=
  match formatFault m with
  | some d => some (0x10, d)
  | none =>
    match opRow m.opcode with
    | none => none
    | some r =>
      if r.priv && !ctxPriv s m.ctx then some (0x11, 0)
      else if s.saf.safe && decide (m.opcode ≠ 0x0000) && decide (m.opcode ≠ 0x0204) then some (0x20, 0)
      else none

/-- Whether an opcode is a critical command's. -/
def isCritical (op : Nat) : Bool := match opRow op with
  | some r => r.critical
  | none => false

/-- Whether HIF may pass this fetched descriptor on: one that does not go to CAU, which is taken at once, needs its
ring to have none in the critical-command queue, so that HEAD passes the descriptors in ring order (R125, R180); and
its FENCE is met. -/
def mayPass (s : State) (m : Cmd) : Bool :=
  let waiting := s.cau.inQ.any fun k => k.ctx == m.ctx && k.ring == m.ring
  ((isCritical m.opcode && (hifFault s m).isNone) || !waiting) && (!bitAt m.flags 0 || fenceOpen s m)

/-- The first fetched descriptor of each ring that may pass, in queue order: a ring that is held up
holds up its later descriptors. -/
def passable (s : State) : List (Nat × Nat) → List Cmd → Option Cmd
  | _, [] => none
  | held, m :: q =>
    if held.contains (m.ctx, m.ring) then passable s held q
    else if mayPass s m then some m
    else passable s ((m.ctx, m.ring) :: held) q

/-- A command refused by a check: HEAD passes it and its entry is written (R137). -/
def refuseDescriptor (s : State) (m : Cmd) (status detail : Nat) : State :=
  completeWith (headPass s m.ctx m.ring) m status detail

/-- A critical command enters CAU's queue of 8 items; at a full queue the write is ignored, and the ring fetches again
from this descriptor (R34, R180). -/
def passCritical (s : State) (m : Cmd) : State :=
  if s.cau.inQ.length < 8 then { s with cau := { s.cau with inQ := s.cau.inQ ++ [m] } }
  else loseFrom (setRegBit (queueOverrun s 0x180010 1) 0x100004 0 true) m.ctx m.ring m.seq m.uid

/-- A descriptor that HIF takes from the fetch queue: the checks of R135 in order, then CAU for a
critical command or its unit. -/
def passDescriptor (s : State) (m : Cmd) : State :=
  match hifFault s m with
  | some (status, detail) => refuseDescriptor s m status detail
  | none =>
    if isCritical m.opcode then passCritical s m
    else
      let s := headPass s m.ctx m.ring
      { s with hif := { s.hif with unitQ := s.hif.unitQ ++ [m] } }

/-- DESCRIPTOR_RECEIVED: the oldest read in flight returns if the queue has room, and the first
descriptor that may pass is checked and passed on or refused. -/
def execDescriptorReceived (s : State) : Out :=
  let s := arrive s
  match passable s [] s.hif.fetchQ with
  | none => .next s
  | some m =>
    let mine : Cmd → Bool := fun k => k.ctx == m.ctx && k.ring == m.ring && k.seq == m.seq && k.uid == m.uid
    let q := s.hif.fetchQ.filter fun k => !mine k
    .next (passDescriptor { s with hif := { s.hif with fetchQ := q } } m)

/-! ### Completion entries (R139, R145-R148) -/

/-- The 32 bytes of a completion entry (R148). -/
def cplBytes (e : Cpl) (head phase : Nat) : List Byte :=
  leBytes 2 e.opcode ++ leBytes 1 e.status ++ leBytes 1 e.ring ++ leBytes 4 e.seq ++ leBytes 4 head ++
  leBytes 4 e.detail ++ leBytes 8 e.result ++ leBytes 6 e.stamp ++
  leBytes 1 (phase + 2 * e.reruns) ++ leBytes 1 0

/-- One completion entry written: CQ_FULL on the write that fills the CQ, then the interrupt cause. The entry has
left the outstanding list when CQ_FULL is raised, so the last entry of a draining context raises none (R140;
DESIGN CHOICE, log entry 40). -/
def writeCpl (s : State) (e : Cpl) : State :=
  let c := e.ctx
  let h := hctx s c
  let n := cqSize s c
  let bytes := cplBytes e (ringOf s c e.ring).head (phaseOf h.cqProd n)
  let s := hostWrite s c (cqBase s c + h.cqProd % n * 32) bytes
  let s := setHctx s c { h with cqProd := cadd h.cqProd 1 }
  let mine : OutCmd → Bool := fun o => o.of c e.ring e.seq e.uid
  let s := { s with hif := { s.hif with outs := s.hif.outs.filter fun o => !mine o } }
  let s :=
    if !cqFree s c && !(hctx s c).cqFullSent then
      let s := setRegBit (setHctx s c { hctx s c with cqFullSent := true }) (hifBase c + 4) 3 true
      raiseEvent s c 0x0004 0 4 0 (hctx s c).cqProd
    else s
  if e.irq || (decide (e.status ≠ 0) && regBit s (hifBase c + 0x44) 29) then raiseIrq s c else s

/-- An entry of the write queue reaches host memory. -/
def writeEntry (s : State) : HifEntry → State
  | .cpl e => writeCpl s e
  | .event e => writeEvent s e

/-- COMPLETION_ENTRY_WRITE: the oldest item of the completion and event write queue is written: a finished entry whose
CQ has a free slot, or an event entry, which is so issued before the completion entry of the command that caused it
(R139, R147, R160). -/
def execCompletionEntryWrite (s : State) : Out :=
  match takeFirst (writable s) s.hif.cplQ with
  | none => .next s
  | some (e, rest) => .next (writeEntry { s with hif := { s.hif with cplQ := rest } } e)

/-- NOP completes with RESULT equal to operand bytes 4 to 11 (R155). -/
def execNop (s : State) : Out :=
  match popUnit s fun m => m.opcode == 0x0000 with
  | none => .next s
  | some (m, s) => .next (completeOk s m (m.at 4 8))

/-! ### Enables (R157, R158, R688) -/

/-- Whether CQ and EQ are configured so that ENABLE may be set (R158). -/
def ctxConfigOk (s : State) (c : Nat) : Bool :=
  let k := regFld s (hifBase c + 0x10) 4 0
  let e := regFld s (hifBase c + 0x28) 4 0
  decide (7 ≤ k) && decide (k ≤ 16) && decide (7 ≤ e) && decide (e ≤ 14) &&
  decide (cqBase s c ≠ 0) && decide (eqBase s c ≠ 0)

/-- A write of HIF_CTX_CFG (R158): fields other than ENABLE only while ENABLE is 0 and IDLE is 1,
PRIV only before SETUP_DONE: after it a write that would change PRIV counts as no ignored write (DESIGN CHOICE, log
entry 40: PRIV is then read only under R7). -/
def writeCtxCfg (s : State) (c w : Nat) : State :=
  let off := hifBase c
  let old := reg s off
  let rest := setupDone s
  let want := if rest then setFld w 30 30 (fld old 30 30) else w
  let fields := setFld (setFld want 31 31 0) 28 20 0
  let oldFields := setFld old 31 31 0
  let en := bitAt w 31
  let open_ := !bitAt old 31 && ctxIdle s c
  if en && !ctxConfigOk s c then setRegBit s (off + 4) 4 true
  else
    let s :=
      if open_ then setReg s off (setFld fields 31 31 (b2n en))
      else
        let s := setRegBit s off 31 en
        if fields = oldFields then s else setRegBit s (off + 4) 4 true
    if en && open_ then
      let h := { hctx s c with cqProd := 0, cqCons := 0, eqProd := 0, eqCons := 0, cqFullSent := false }
      flushLost (setHctx s c h) c
    else s

/-- HIF_CTX_ENABLE: a write of HIF_CTX_CFG. -/
def execHifCtxEnable (c : Fin 64) (w : Word) (s : State) : Out := .next (writeCtxCfg s c w.toNat)

/-- RING_EN goes from 0 to 1: STOPPED is cleared. -/
def ringStart (s : State) (c r : Nat) : State :=
  let s := setRegBit s (sqBase c r + 8) 31 true
  setRing s c r { ringOf s c r with stopped := false, enWait := false }

/-- A write of HIF_SQn_CFG (R157, R158, R688). -/
def writeSqCfg (s : State) (c r w : Nat) : State :=
  let off := sqBase c r + 8
  let on := ringEn s c r
  let k := fld w 4 0
  let refuse := fun s : State => setRegBit s (hifBase c + 4) 4 true
  if on then
    let s := if k = regFld s off 4 0 && (!bitAt w 31 || ctxEnabled s c) then s else refuse s
    if bitAt w 31 then s else setRegBit s off 31 false
  else
    let badEn := decide (k < 6) || decide (16 < k) || decide (sqAddr s c r = 0) || !ctxEnabled s c
    if bitAt w 31 && badEn then refuse s
    else
      let s := setRegFld s off 4 0 k
      let s := if bitAt w 30 then setRing s c r { ringOf s c r with resetWait := true } else s
      if !bitAt w 31 then setRing s c r { ringOf s c r with enWait := false }
      else if (ringOf s c r).resetWait then setRing s c r { ringOf s c r with enWait := true }
      else ringStart s c r

/-- RING_EN: a write of HIF_SQn_CFG. -/
def execRingEn (c : Fin 64) (r : Fin 4) (w : Word) (s : State) : Out :=
  .next (writeSqCfg s c r w.toNat)

/-- RESET_COUNTS: a write of HIF_SQn_CFG with RESET_COUNTS set. -/
def execResetCounts (c : Fin 64) (r : Fin 4) (w : Word) (s : State) : Out :=
  .next (writeSqCfg s c r (setFld w.toNat 30 30 1))

/-- RESET_COUNTS_EFFECT: once every fetched descriptor of the ring is taken, HEAD, the fetch position
and DB_LAST become 0, and a waiting RING_EN takes effect (R688). -/
def execResetCountsEffect (c : Fin 64) (r : Fin 4) (s : State) : Out :=
  let x := ringOf s c r
  if x.resetWait && decide (x.fetch = x.head) && (lostOf s c r).isEmpty then
    let s := setRing s c r { x with head := 0, fetch := 0, dbLast := 0, resetWait := false }
    .next (if x.enWait then ringStart s c r else s)
  else .next s

/-- FETCH_EN: descriptor fetches start or stop (R157). -/
def execFetchEn (b : Bool) (s : State) : Out := .next (setRegBit s 0x100000 0 b)

end Sys2Proof.Machine
end

