-- ==== Sys2Proof/Machine/Cau.lean ====
section
/-! DEFINITION. The command authenticator (R161-R180): the checks of critical commands, key slots,
KEY_LOAD and KEY_RETIRE, and the self-test. -/

namespace Sys2Proof.Machine

open Sys2Proof

/-- A key slot. -/
def slotOf (s : State) (k : Nat) : KeySlot := tget {} s.cau.slots k

/-- A key slot replaced. -/
def setSlot (s : State) (k : Nat) (x : KeySlot) : State :=
  { s with cau := { s.cau with slots := tput s.cau.slots k x } }

/-- KEY_SLOT of a descriptor. -/
def keySlot (m : Cmd) : Nat := fld m.flags 7 4

/-- The CLASSES bit that an opcode needs (R161); none for KEY_LOAD and KEY_RETIRE. -/
def classBit (op : Nat) : Option Nat :=
  if op = 0x0100 then some 0
  else if op = 0x0600 || op = 0x0601 then some 1
  else if op = 0x0500 || op = 0x0501 then some 2
  else if op = 0x0205 || op = 0x0F00 then some 3
  else none

/-- Whether the class of a command is granted to its slot (R161). -/
def classGranted (s : State) (m : Cmd) : Bool :=
  match classBit m.opcode with
  | some b => bitAt (slotOf s (keySlot m)).classes b
  | none => decide (keySlot m = 0)

/-- Whether a command is an enrolment (R177). -/
def isEnrolment (s : State) (m : Cmd) : Bool :=
  m.opcode == 0x0700 && !setupDone s && decide ((slotOf s 0).state = 0) && ctxPriv s m.ctx &&
  decide (keySlot m = 0) && decide (m.at 4 1 % 16 = 0) && decide (m.at 32 8 = 0)

/-- What the checks of R166 answer: the first failure as status, reason and DETAIL, or the key that
a KEY_LOAD brings. -/
inductive AuthResult where
  | fail (reason : Nat)
  | stale (detail : Nat)
  | pass (key : List Byte)
  deriving DecidableEq, Repr

/-- The checks of R166 in order; reason 7 while KAT_FAIL is 1 (R178). Before the known-answer tests end, commands
are checked as usual (DESIGN CHOICE, log entry 40: the spec is silent). -/
def authCheck (s : State) (m : Cmd) : AuthResult :=
  let x := slotOf s (keySlot m)
  if regBit s 0x180004 1 then .fail 7
  else if isEnrolment s m then .pass ((m.bytes.drop 16).take 16)
  else if x.state = 2 then .fail 5
  else if x.state = 0 then .fail 1
  else if x.owner ≠ m.ctx then .fail 2
  else if !classGranted s m then .fail 3
  else if cmacTag (toNats x.key) (toNats (m.bytes.take 56)) ≠ toNats ((m.bytes.drop 56).take 8) then .fail 4
  else if m.at 48 8 ≤ x.ctr then .stale (x.ctr % 2 ^ 32)
  else if m.opcode = 0x0700 then
    match keyUnwrap (toNats x.key) (toNats ((m.bytes.drop 16).take 24)) with
    | some k => .pass (toBytes k)
    | none => .fail 6
  else .pass []

/-- The command under check leaves the queue and HEAD passes it (R180). -/
def popCau (s : State) : State :=
  match s.cau.inQ with
  | [] => s
  | m :: q =>
    headPass { s with cau := { s.cau with inQ := q, passed := false, enrol := false, newKey := [] } }
      m.ctx m.ring

/-- Counts and records of an AUTH_FAIL (R170, R171). FAILS stays at 255, which it can only reach with AUTH_LIMIT 0 or
lowered, and a slot locks when its FAILS comes to equal AUTH_LIMIT, not when a lowered AUTH_LIMIT lies below it
(both DESIGN CHOICE, log entry 40). -/
def countAuthFail (s : State) (m : Cmd) (reason detail : Nat) : State :=
  let s := setRegBit (addReg s 0x180008 1) 0x180004 2 true
  if reason = 4 || reason = 6 then
    let k := keySlot m
    let x := { slotOf s k with fails := satAdd 8 (slotOf s k).fails 1 }
    let s := record (setSlot s k x) 1 0x02 0x60 (some m.ctx) detail 0
    let limit := regFld s 0x180000 7 0
    if limit ≠ 0 && x.fails = limit then
      record (setRegBit (setSlot s k { x with state := 2 }) 0x180004 4 true) 1 0x02 0x61 (some m.ctx) k 0
    else s
  else s

/-- CAU_CHECK: the next critical command is checked once the one before it is resolved (R166, R169). -/
def execCauCheck (s : State) : Out :=
  match s.cau.inQ with
  | [] => .next s
  | m :: _ =>
    if s.cau.passed then .next s
    else match authCheck s m with
      | .fail reason =>
        let detail := keySlot m * 256 + reason
        .next (completeWith (countAuthFail (popCau s) m reason detail) m 0x03 detail)
      | .stale detail =>
        let s := setRegBit (addReg (popCau s) 0x18000C 1) 0x180004 3 true
        .next (completeWith s m 0x04 detail)
      | .pass key =>
        .next { s with cau := { s.cau with passed := true, enrol := isEnrolment s m, newKey := key } }

/-- The critical command of an opcode that has passed and waits for its unit, which has no earlier command of its
ring still to take (R143). -/
def waitingCritical (s : State) (op : Nat) : Option Cmd :=
  match s.cau.inQ with
  | m :: _ =>
    let behind := s.hif.unitQ.any fun k => k.ctx == m.ctx && k.ring == m.ring && k.opcode / 256 == op / 256
    if s.cau.passed && m.opcode == op && !behind then some m else none
  | [] => none

/-- The owning unit accepts the operands: the counter is written, the slot's failures end, and the
command leaves CAU (R168, R170, R172). -/
def acceptCritical (s : State) (m : Cmd) : State :=
  let k := keySlot m
  let x := slotOf s k
  let s :=
    if s.cau.enrol then s
    else
      let n := m.at 48 8
      setSlot s k { x with
        ctr := n
        fails := 0
        accepts := satAdd 32 x.accepts 1
        state := if n = 2 ^ 64 - 1 then 3 else x.state }
  popCau s

/-- The owning unit refuses the operands: nothing moves but HEAD (R137, R168). -/
def refuseCritical (s : State) (m : Cmd) (status detail : Nat) : State :=
  completeWith (popCau s) m status detail

/-- The unit checks of KEY_LOAD (R174): DETAIL of the first case that applies. -/
def keyLoadFault (s : State) (m : Cmd) : Option Nat :=
  let x := slotOf s (m.at 4 1 % 16)
  if 16 ≤ m.at 4 1 then some 4
  else if 64 ≤ m.at 5 1 then some 5
  else if 16 ≤ m.at 6 1 then some 6
  else if m.at 7 1 ≠ 0 then some 7
  else if m.at 8 8 = 2 ^ 64 - 1 then some 8
  else if x.key = s.cau.newKey && m.at 8 8 < x.ctr then some 8
  else firstNonzero m.bytes 40 8

/-- KEY_LOAD: the unwrapped key is written to the target slot (R173, R174, R177). -/
def execKeyLoad (s : State) : Out :=
  match waitingCritical s 0x0700 with
  | none => .next s
  | some m =>
    match keyLoadFault s m with
    | some d => .next (refuseCritical s m 0x10 d)
    | none =>
      let key := s.cau.newKey
      let s := acceptCritical s m
      let t := m.at 4 1
      let x : KeySlot :=
        { key := key, owner := m.at 5 1, classes := m.at 6 1, ctr := m.at 8 8, fails := 0, state := 1,
          accepts := (slotOf s t).accepts }
      .next (completeOk (setSlot s t x) m 0)

/-- The unit checks of KEY_RETIRE (R175). -/
def keyRetireFault (m : Cmd) : Option Nat :=
  if m.at 4 1 = 0 || 16 ≤ m.at 4 1 then some 4 else firstNonzero m.bytes 5 43

/-- KEY_RETIRE: the target slot becomes EMPTY (R175). -/
def execKeyRetire (s : State) : Out :=
  match waitingCritical s 0x0701 with
  | none => .next s
  | some m =>
    match keyRetireFault m with
    | some d => .next (refuseCritical s m 0x10 d)
    | none =>
      let s := acceptCritical s m
      let t := m.at 4 1
      .next (completeOk (setSlot s t { accepts := (slotOf s t).accepts }) m 0)

/-- KAT_DONE: the known-answer tests of this release end (R178, R669). -/
def execKatDone (ok : Bool) (s : State) : Out :=
  if s.tst.celLow || decide (regFld s 0x180004 1 0 ≠ 0) then .next s
  else if ok then .next (cellarUp (setRegFld s 0x180004 1 0 1))
  else .next (cellarUp (record (setRegFld s 0x180004 1 0 2) 2 0x02 0x62 none 0 0))

end Sys2Proof.Machine
end

