-- ==== Sys2Proof/Machine/Arm.lean ====
section
/-! DEFINITION. The armature of a graph image (R340-R346): its checks, and the channels and queues that it
gives an image. -/

namespace Sys2Proof.Machine

open Sys2Proof

/-- Rounding up to a multiple of 4,096. -/
def up4k (n : Nat) : Nat := (n + 4095) / 4096 * 4096

/-- Offsets of the sections, from the counts of the image header. -/
def armBq (nc : Nat) : Nat := up4k (4096 + 64 * nc)
def armCl (nc nb : Nat) : Nat := up4k (armBq nc + 64 * nb)
def armEnd (nc nb ne : Nat) : Nat := up4k (armCl nc nb + 4 * ne)

/-- The least of two failing offsets, where there are any. -/
def least : Option Nat → Option Nat → Option Nat
  | none, b => b
  | a, none => a
  | some a, some b => some (min a b)

/-- The least failing offset of a list of tests: offset, and whether it fails. -/
def leastOf (l : List (Nat × Bool)) : Option Nat :=
  l.foldl (fun m t => least m (if t.2 then some t.1 else none)) none

/-- The lowest field with a reserved bit that is 1, by the fields, their bytes, and the bits of these that are used. -/
def reservedField (b : List Byte) (o : Nat) (masks : List (Nat × Nat × Nat)) : Option Nat :=
  leastOf (masks.map fun k => (o + k.1, decide (leAt b k.2.1 1 &&& (255 - k.2.2) ≠ 0)))

/-- The first header field that fails (R340, R341). -/
def armHeader (a : List Byte) (nc nb armBytes : Nat) : Option Nat :=
  let ne := leAt a 20 4
  let bad := least (leastOf
    [(0, decide (leAt a 0 4 ≠ 0x41524D31)), (4, decide (leAt a 4 2 ≠ nc)), (6, decide (leAt a 6 2 ≠ nb)),
     (8, decide (leAt a 8 4 ≠ 4096)), (12, decide (leAt a 12 4 ≠ armBq nc)),
     (16, decide (leAt a 16 4 ≠ armCl nc nb)), (20, decide (4194304 < ne)), (24, (firstNonzero a 24 40).isSome)])
    (firstNonzero a 64 4032)
  match bad with
  | some k => some k
  | none => if armEnd nc nb ne ≠ armBytes then some 20 else none

/-! ### Channel records (R342) -/

/-- Field, byte and used bits of the bytes of a channel record with reserved bits; bytes 30-63 are one field. -/
def chanMasks : List (Nat × Nat × Nat) :=
  [(0, 0, 3), (1, 1, 0), (4, 5, 0x0F), (6, 6, 0x1F), (7, 7, 0)] ++ (rangeFrom 30 34).map fun k => (30, k, 0)

/-- Whether a number is a power of two in a range. -/
def powIn (n lo hi : Nat) : Bool := decide (lo ≤ n) && decide (n ≤ hi) && decide (2 ^ n.log2 = n)

/-- Fields of a channel record. -/
def crKind (b : List Byte) : Nat := leAt b 0 1 % 4
def crKey (b : List Byte) : Nat := leAt b 2 2
def crDest (b : List Byte) : Nat := fld (leAt b 4 2) 11 0
def crPort (b : List Byte) : Nat := fld (leAt b 6 1) 4 0
def crRing (b : List Byte) : Nat := leAt b 8 8
def crUnits (b : List Byte) : Nat := leAt b 16 4
def crLocal (b : List Byte) : Nat := leAt b 20 4
def crRemote (b : List Byte) : Nat := leAt b 24 4
def crMax (b : List Byte) : Nat := leAt b 28 2

/-- The lowest field of a channel record at `o` that fails (R342, R345). -/
def chanFault (s : State) (b : List Byte) (o : Nat) : Option Nat :=
  let k := crKind b
  let remote := decide (crDest b ≠ chipId s)
  let kinds : List (Nat × Bool) :=
    if k = 1 then
      [(o + 4, decide (crDest b ≠ 0)), (o + 6, decide (crPort b ≠ 0)), (o + 8, decide (crRing b % 4096 ≠ 0)),
       (o + 16, !powIn (crUnits b) 64 262144), (o + 20, decide (crLocal b ≠ 0) && decide (crLocal b < crMax b)),
       (o + 28, decide (crMax b = 0) || decide (16384 < crMax b) || decide (crUnits b < crMax b)),
       (o + 16, decide (crUnits b + 1 < crLocal b + crRemote b + crMax b))]
    else if k = 2 then
      [(o + 2, decide (crKey b = 0)),
       (o + 6, if remote then decide (Config.linkPorts ≤ crPort b) else decide (crPort b ≠ 0)),
       (o + 24, if remote then decide (crRemote b < crMax b) else decide (crRemote b ≠ 0)),
       (o + 28, if remote then decide (crMax b = 0) || decide (1024 < crMax b) else decide (crMax b ≠ 0))]
    else if k = 0 then [(o + 6, decide (crPort b ≠ 0)), (o + 24, decide (crRemote b ≠ 0))]
    else [(o, true)]
  least (reservedField b o chanMasks) (leastOf kinds)

/-! ### Blend records (R343) -/

/-- Field, byte and used bits of the bytes of a blend record with reserved bits; bytes 18 and 19, and bytes 44-63, are
one field each. -/
def blendMasks : List (Nat × Nat × Nat) :=
  [(0, 0, 0x1F), (4, 5, 0x0F), (8, 8, 0x1F), (16, 17, 0x1F), (18, 18, 0), (18, 19, 0)] ++
    (rangeFrom 44 20).map fun k => (44, k, 0)

/-- Whether a source format goes with an accumulation format. -/
def fmtsOk (acc src : Nat) : Bool :=
  decide (acc ≤ 3) && decide (src ≤ 6) && ((src == 3 || src == 6) == (acc == 3))

/-- Whether a record leads to a next queue. -/
def brLeads (b : List Byte) : Bool := brOrder b == 3 || brNext b

/-- The lowest field of a blend record at `o` that fails by itself or with the image header (R343,
R345); `recv` says whether a channel of the image is a RECV channel. -/
def blendFault (s : State) (b : List Byte) (o ne : Nat) (map : Bool) (recv : Nat → Bool) : Option Nat :=
  let ord := brOrder b
  let sent := brElems b * blendSize (if ord = 3 then brSrc b else brAcc b)
  let tests : List (Nat × Bool) :=
    [(o + 1, !fmtsOk (brAcc b) (brSrc b)),
     (o + 4, if ord = 2 then decide (brDestKey b = 0) && decide (brDest b ≠ chipId s)
             else decide (ord ≠ 3) && decide (brDest b ≠ 0)),
     (o + 6, (ord == 3 && decide (brDestKey b = 0)) || (decide (ord < 2) && decide (brDestKey b ≠ 0))),
     (o + 8, brLeads b && decide (Config.linkPorts ≤ brPort b)),
     (o + 9, decide (16 < brDone b)),
     (o + 10, decide (brDone b ≠ 0) && !recv (brDoneChan b)),
     (o + 12, decide (brElems b = 0) || decide (67108864 < brElems b) ||
        (decide (brDone b ≠ 0) && decide (brElems b % brDone b ≠ 0))),
     (o + 16, if ord = 3 then decide (brContrib b ≠ 0) else decide (brContrib b = 0) || decide (4096 < brContrib b)),
     (o + 16, decide (ne < brFirst b + brContrib b)),
     (o + 24, decide (brTarget b % 64 ≠ 0)),
     (o + 32, decide (brLeaf b % 4096 ≠ 0)),
     (o + 32, decide (brLeaf b = 0) && (ord == 1 || (ord == 0 && map))),
     (o + 1, brLeads b && (decide (65536 < sent) || decide (brXcredit b < itemUnits sent)))]
  least (reservedField b o blendMasks) (leastOf tests)

/-- The lowest offset of an entry of a queue's list that names a task which a later entry of the list
names again (R345). -/
def twiceAt (cl first : Nat) : List Nat → Option Nat
  | [] => none
  | e :: l => if l.any fun f => fld f 29 0 == fld e 29 0 then some (cl + 4 * first) else twiceAt cl (first + 1) l

/-! ### The whole armature -/

/-- A part of an armature. -/
def armRec (a : List Byte) (o n : Nat) : List Byte := (a.drop o).take n

/-- The contributor entry `e`. -/
def armEntry (a : List Byte) (nc nb e : Nat) : Nat := leAt a (armCl nc nb + 4 * e) 4

/-- The first non-zero byte of a gap between sections. -/
def gapFault (a : List Byte) (lo hi : Nat) : Option Nat := firstNonzero a lo (hi - lo)

/-- The least failing offset over indices. -/
def leastFor (n : Nat) (f : Nat → Option Nat) : Option Nat :=
  (List.range n).foldl (fun m i => least m (f i)) none

/-- Keys of the RECV channels and of the queues of loaded images. -/
def loadedChanKey (s : State) (key : Nat) : Bool := s.chn.chans.any fun e => e.2.kind == 1 && e.2.key == key
def loadedBqKey (s : State) (key : Nat) : Bool := s.blq.qs.any fun e => brKey e.2.record == key

/-- The record checks of an armature whose header is in order (R345). -/
def armRecords (s : State) (a : List Byte) (nc nb tasks : Nat) (map : Bool) : Option Nat :=
  let ne := leAt a 20 4
  let bq := armBq nc
  let cl := armCl nc nb
  let ch := fun i : Nat => armRec a (4096 + 64 * i) 64
  let qr := fun j : Nat => armRec a (bq + 64 * j) 64
  let recv := fun i : Nat => decide (i < nc) && crKind (ch i) == 1
  let chans := leastFor nc fun i =>
    let b := ch i
    let o := 4096 + 64 * i
    let dup := recv i && decide (crKey b ≠ 0) && (loadedChanKey s (crKey b) ||
      (rangeFrom (i + 1) (nc - (i + 1))).any fun j => recv j && crKey (ch j) == crKey b)
    least (chanFault s b o) (if dup then some (o + 2) else none)
  let queues := leastFor nb fun j =>
    let b := qr j
    let o := bq + 64 * j
    let dup := decide (brKey b ≠ 0) && (loadedBqKey s (brKey b) ||
      (rangeFrom (j + 1) (nb - (j + 1))).any fun k => brKey (qr k) == brKey b)
    let entries := (rangeFrom (brFirst b) (brContrib b)).map fun e => armEntry a nc nb e
    let twice := if brFirst b + brContrib b ≤ ne then twiceAt cl (brFirst b) entries else none
    least (least (blendFault s b o ne map recv) twice) (if dup then some (o + 2) else none)
  let entries := leastFor ne fun e =>
    let w := armEntry a nc nb e
    if w / 2 ^ 30 ≠ 0 || (!bitAt w 29 && decide (fld w 28 17 ≠ 0)) || decide (tasks ≤ fld w 16 0) then
      some (cl + 4 * e) else none
  least (least chans (gapFault a (4096 + 64 * nc) bq))
    (least (least queues (gapFault a (bq + 64 * nb) cl))
      (least entries (gapFault a (cl + 4 * ne) (armEnd nc nb ne))))

/-- Check 6 of R205 (R345): the index of the lowest failure, if any. `b` is the whole image. -/
def armFault (s : State) (b : List Byte) : Option Nat :=
  let nc := ihChannels b
  let nb := ihQueues b
  let a := armRec b (ihArmOff b) (ihArmBytes b)
  let own :=
    if nc = 0 && nb = 0 then (if ihArmBytes b = 0 then none else some 20)
    else match armHeader a nc nb (ihArmBytes b) with
      | some k => some k
      | none => armRecords s a nc nb (ihTasks b) (ihMap b)
  match own with
  | some k => some k
  | none =>
    ((List.range (ihTasks b)).find? fun r =>
      let d := imTask b r
      tdKind d == 2 &&
        (decide (nc ≤ tdChannel d) || crKind (armRec a (4096 + 64 * tdChannel d) 64) != 1)).map
      fun r => 0x8000000 + r

/-! ### Installing and releasing (R346, R355) -/

/-- The lowest key that a table does not use. -/
def freeKey {α : Type} (t : Table α) : Nat := ((List.range (t.length + 1)).find? fun k => !thas t k).getD 0

/-- A channel as its record opens it. -/
def openChan (i c rel : Nat) (b : List Byte) : Chan :=
  { img := i, rel := rel, ctx := c, kind := crKind b, key := crKey b, dest := crDest b, port := crPort b,
    ringVa := crRing b, units := crUnits b, localUnits := crLocal b, remoteUnits := crRemote b,
    maxUnits := crMax b, localFree := crLocal b, remoteFree := crRemote b }

/-- The channels and queues of an image take the lowest free physical entries (R346). -/
def installArm (s : State) (i c : Nat) (b : List Byte) : State :=
  let nc := ihChannels b
  let nb := ihQueues b
  let a := armRec b (ihArmOff b) (ihArmBytes b)
  let chans := (List.range nc).foldl (fun t r =>
    tput t (freeKey t) (openChan i c r (armRec a (4096 + 64 * r) 64))) s.chn.chans
  let qs := (List.range nb).foldl (fun t r =>
    let q := armRec a (armBq nc + 64 * r) 64
    let x : BlendQ :=
      { img := i, rel := r, ctx := c, record := q
        entries := (rangeFrom (brFirst q) (brContrib q)).map fun e => armEntry a nc nb e
        xfree := brXcredit q }
    tput t (freeKey t) x) s.blq.qs
  { s with chn := { s.chn with chans := chans }, blq := { s.blq with qs := qs } }

/-- The channels and queues of an image are released. Sends that wait for the credit of a released
channel register without it: they are discarded at commit (R349, R355). -/
def releaseArm (s : State) (i : Nat) : State :=
  let gone := s.chn.chans.filter fun e => e.2.img == i
  let s := gone.foldl (fun s e => e.2.waits.foldl (fun s w => registerEff s w.1 w.2) s) s
  let lost := fun e : Eff => e.unit == 2 && (match e.target with
    | some k => gone.any fun g => g.1 == k
    | none => false)
  let runs := tmap (fun _ (x : Run) => { x with
    effects := modWhere lost (fun e => { e with target := none }) x.effects }) s.disp.runs
  { s with
    disp := { s.disp with runs := runs }
    chn := { s.chn with chans := tfilter (fun _ x => x.img != i) s.chn.chans }
    blq := { s.blq with qs := tfilter (fun _ x => x.img != i) s.blq.qs } }

end Sys2Proof.Machine
end

