-- ==== Sys2Proof/Machine/Gld.lean ====
section
/-! DEFINITION. Loading and unloading graph images (R202-R209, R218). -/

namespace Sys2Proof.Machine

open Sys2Proof

/-- A load that ends with GRAPH_CAPACITY or IMAGE_CHECK is shown in the GLD registers (R219). -/
def noteLoad (s : State) (status detail : Nat) : State :=
  if status = 0x12 then setReg (setRegBit (addReg s 0x200008 1) 0x200000 1 true) 0x20000C detail
  else if status = 0x13 then setReg (setRegBit (addReg s 0x200008 1) 0x200000 0 true) 0x20000C detail
  else s

/-- The operand check of GRAPH_LOAD (check 1 of R204). -/
def loadOperands (m : Cmd) : Option Nat :=
  if 16 ≤ m.at 4 1 then some 4
  else if 2 ≤ m.at 5 1 then some 5
  else match firstNonzero m.bytes 6 2 with
    | some i => some i
    | none =>
      if m.at 8 8 % 4096 ≠ 0 then some 8
      else if m.at 16 4 % 64 ≠ 0 || m.at 16 4 < 320 then some 16
      else firstNonzero m.bytes 20 4

/-- What the resource check finds short (check 5 of R204): DETAIL. -/
def capacityFault (s : State) (h : List Byte) : Option Nat :=
  let short := fun (code need free : Nat) => if free < need then some (code * 2 ^ 28 + (need - free)) else none
  [short 1 1 (256 - s.tge.imgs.length),
   short 2 (cdivN (ihTasks h) 1024) (128 - (usedTask s).length),
   short 3 (cdivN (ihEdges h) 8192) (128 - (usedEdge s).length),
   short 4 (ihChannels h) (16384 - usedChannels s),
   short 5 (ihQueues h) (1024 - usedQueues s)].findSome? id

/-- A load accepted: its record and its resources are reserved (R200, R201, R204). -/
def reserveLoad (s : State) (m : Cmd) (h : List Byte) : State :=
  let i := freeKey s.tge.imgs
  let x : Img :=
    { ctx := m.ctx, id := m.at 4 1, state := 0, tasks := ihTasks h, edges := ihEdges h
      channels := ihChannels h, queues := ihQueues h, minClusters := ihMinClusters h, hasMap := ihMap h
      tblk := (freeBlocks (usedTask s)).take (cdivN (ihTasks h) 1024)
      eblk := (freeBlocks (usedEdge s)).take (cdivN (ihEdges h) 8192), cmd := some m }
  { s with tge := { s.tge with imgs := tput s.tge.imgs i x, loads := s.tge.loads ++ [i] } }

/-- GRAPH_LOAD: the operand checks of R204; `readErr` is a read error in the header. A fifth load waits
(R207). -/
def execGraphLoad (readErr : Bool) (s : State) : Out :=
  match waitingCritical s 0x0100 with
  | none => .next s
  | some m =>
    if 4 ≤ s.tge.loads.length then .next s
    else
      let refuse := fun (status detail : Nat) => refuseCritical (noteLoad s status detail) m status detail
      match loadOperands m with
      | some i => .next (refuse 0x10 i)
      | none =>
        if (findImg s m.ctx (m.at 4 1)).isSome then .next (refuse 0x14 (m.at 4 1))
        else
          let hdr := if readErr then none else readSrc s m.ctx (bitAt (m.at 5 1) 0) (m.at 8 8) 256
          match hdr with
          | none => .next (refuse 0x13 (9 * 2 ^ 28))
          | some h =>
            match headerFault h (m.at 16 4), capacityFault s h with
            | some o, _ => .next (refuse 0x13 (2 ^ 28 + o))
            | none, some d => .next (refuse 0x12 d)
            | none, none => .next (acceptCritical (reserveLoad s m h) m)

/-- The byte offset at which the body cannot be read, if any: a read error, or the first byte of a page
that faults (check 1 of R205). -/
def bodyFault (s : State) (m : Cmd) (err : Option Nat) : Option Nat :=
  let n := m.at 16 4
  let fault :=
    if bitAt (m.at 5 1) 0 && (readVirt s m.ctx (m.at 8 8) n).isNone then
      some (faultAt s m.ctx (m.at 8 8) n - m.at 8 8)
    else none
  least (match err with | some e => if e < n then some e else none | none => none) fault

/-- The first content check that an image fails, with its index, by the priority of R205 and R274. -/
def contentFault (s : State) (b digest : List Byte) : Option (Nat × Nat) :=
  let test := fun (code : Nat) (x : Option Nat) => x.map fun i => (code, i)
  if !digestOk b digest then some (6, 0)
  else match test 2 (checkTasks b) with
    | some e => some e
    | none => match test 3 (checkEdges b) with
      | some e => some e
      | none => match test 8 (checkMap b) with
        | some e => some e
        | none => match test 7 (armFault s b) with
          | some e => some e
          | none => match test 4 (checkCounts b) with
            | some e => some e
            | none => match test 5 (checkCycle b) with
              | some e => some e
              | none => match test 10 (checkGroups b) with
                | some e => some e
                | none => test 11 (checkGroupEdges b)

/-- A load fails: the reserved resources are free and its blocks keep what was streamed into them, and a held launch completes BAD_DESCRIPTOR (R206,
R212). -/
def failLoad (s : State) (i : Nat) (img : Img) (m : Cmd) (code index : Nat) : State :=
  let detail := code * 2 ^ 28 + index % 2 ^ 28
  let s := { s with tge := { s.tge with imgs := tdel s.tge.imgs i, loads := s.tge.loads.drop 1 } }
  let s := completeWith (noteLoad s 0x13 detail) m 0x13 detail
  match img.pending with
  | some l => badOperand s l.cmd 4
  | none => s

/-- A load installs (R206): tables, channels and queues, and the image becomes visible. -/
def installLoad (s : State) (i : Nat) (img : Img) (m : Cmd) (b : List Byte) : State :=
  let map := if img.hasMap then (List.range img.tasks).map fun r => leAt b (ihMapOff b + 4 * r) 2 else []
  let img := { img with state := 1, cmd := none, sha := toBytes (sha256 (toNats b)), map := map }
  let s := { s with tge := { s.tge with loads := s.tge.loads.drop 1 } }
  let s := installArm (installTables (setImg s i img) img b) i img.ctx b
  let s := completeOk (addReg s 0x200004 1) m 0
  releasePending s i

/-- GRAPH_LOAD_INSTALL: the oldest accepted load is streamed, checked and installed (R205-R207); `err`
is the image offset of a read error, and `lost` the items that a full image-stream queue has lost, after which GLD
has streamed the body again from byte 0 (R209; log entry 38). -/
def execGraphLoadInstall (err : Option Nat) (s : State) (lost : Nat := 0) : Out :=
  match s.tge.loads with
  | [] => .next s
  | i :: _ =>
    match imgOf s i with
    | none => .next s
    | some img =>
      match img.cmd with
      | none => .next s
      | some m =>
        let s := streamLoss s 0x200010 lost 0x200000 2
        match bodyFault s m err with
        | some o =>
          let b := (readSrc s m.ctx (bitAt (m.at 5 1) 0) (m.at 8 8) o).getD []
          .next (failLoad (streamTables s img b o false) i img m 9 o)
        | none =>
          let b := (readSrc s m.ctx (bitAt (m.at 5 1) 0) (m.at 8 8) (m.at 16 4)).getD []
          match contentFault s b ((m.bytes.drop 24).take 24) with
          | some (code, k) =>
            let dry := code == 4 || code == 5 || code == 10 || code == 11
            .next (failLoad (streamTables s img b b.length dry) i img m code k)
          | none => .next (installLoad s i img m b)

/-- GRAPH_UNLOAD: the record is invalidated and the zeroing of its blocks begins (R218, R498). -/
def execGraphUnload (s : State) : Out :=
  match popUnit s fun m => m.opcode == 0x0103 with
  | none => .next s
  | some (m, s) =>
    match findImg s m.ctx (m.at 4 1 % 16) with
    | none => .next (completeOk s m 0)
    | some (i, img) =>
      let bound := match servingOf s m.ctx with | some e => e.2.img == i | none => false
      if img.state ≠ 1 || (stepOf s i).isSome || img.pending.isSome || bound then
        .next (completeWith s m 0x14 img.id)
      else
        let end_ := s.gtb.cclk + max (512 * img.eblk.length) (64 * img.tblk.length)
        .next (releaseArm (setImg s i { img with state := 2, cmd := some m, zeroBy := end_ }) i)

/-- UNLOAD_ZEROING_DONE: the zeroing that ends first ends, each by its own count of blocks: the blocks return to
the free lists and the command completes (R218). -/
def execUnloadZeroingDone (s : State) : Out :=
  match sortBy (fun a b : Nat × Img => decide (a.2.zeroBy ≤ b.2.zeroBy))
      (s.tge.imgs.filter fun e => e.2.state == 2) with
  | [] => .next s
  | (i, img) :: _ =>
    let s := clearTables (advanceCclk img.zeroBy s) img
    let s := { s with tge := { s.tge with imgs := tdel s.tge.imgs i } }
    match img.cmd with
    | some m => .next (completeOk s m 1)
    | none => .next s

end Sys2Proof.Machine
end

