-- ==== Sys2Proof/Machine/StepRun.lean ====
section
/-! DEFINITION. How a step runs (R183-R194, R213-R217, R245-R248, R317, R560): the checks of a launch, the
start, the sweep, the decrements and the timers. -/

namespace Sys2Proof.Machine

open Sys2Proof

/-! ### A launch begins -/

/-- Tasks of an image with WAIT_VALID, in ascending ID. -/
def waitTasks (s : State) (img : Img) : List Nat :=
  ((List.range img.tasks).map fun r => physTask img r).filter fun t => tdWaitValid (descOf s t)

/-- Task-waiter entries reserved (R317). -/
def reservedWaiters (s : State) : Nat := s.syn.reserved.foldl (fun n e => n + e.2) 0

/-- Whether the parcel check of R213 fails. -/
def parcelFault (s : State) (st : Step) (img : Img) : Bool :=
  let n := (clustersOf (parcelMask s (parcelOf s img.ctx))).length
  decide (n < img.minClusters) || (st.launch.repro && img.map.any fun k => decide (32 * n ≤ k))

/-- LAUNCH_BEGIN: the checks of R560, R213 and R317, in that order, and the materialisations that the
step waits for. -/
def execLaunchBegin (s : State) : Out :=
  match s.tge.steps.find? fun e => e.2.phase == 0 with
  | none => .next s
  | some (i, st) =>
    match imgOf s i with
    | none => .next s
    | some img =>
      if !modelHere s img.ctx then
        .next (failLaunch (setRegBit s (psmCtx img.ctx + 0xC) 29 true) i st img 0x1E 0 2)
      else if parcelFault s st img then .next (failLaunch s i st img 0x0F 0xB0000000 1)
      else
        let ts := waitTasks s img
        if 32768 < reservedWaiters s + ts.length then
          .next (failLaunch (noteCapacity s img.ctx) i st img 0x19 0 1)
        else
          let vids := (ts.map fun t => tdWaitObj (descOf s t)).filter fun v => (findObj s img.ctx v).isNone
          let s := { s with syn := { s.syn with reserved := tput s.syn.reserved i ts.length } }
          let s := setStep s i { st with phase := 4 }
          .next (vids.eraseDups.foldl (fun s v => pushMat s { src := 2, ctx := img.ctx, vid := v, img := i }) s)

/-! ### The step starts -/

/-- The digest row of a step is written: its vintage and zeros (R405). -/
def startDigest (s : State) (i : Nat) (st : Step) (img : Img) : State :=
  if digArea s img.ctx = 0 then setStep s i { st with noDigest := true }
  else
    match unitWrite s img.ctx (digestRow s img) (leBytes 8 st.launch.vint ++ List.replicate 8248 0) with
    | (s, true) => s
    | (s, false) => digestFault s i img

/-- STEP_START: once every materialisation of the launch is done, the generations are recorded, the
queues and the digest row are reset, and the sweep begins (R214, R217, R249, R365, R405). -/
def execStepStart (s : State) : Out :=
  match s.tge.steps.find? fun e => e.2.phase == 4 &&
      (s.syn.mats.all fun q => !(q.src == 2 && q.img == e.1)) with
  | none => .next s
  | some (i, st) =>
    match imgOf s i with
    | none => .next s
    | some img =>
      let gens : Table Nat := (List.range 16).map fun k => (k, (rimgOf s img.ctx k).active)
      let wants := regBit s (rdyCtx img.ctx) 31
      let other := s.tge.steps.any fun e =>
        e.2.measured && (match imgOf s e.1 with | some x => x.ctx == img.ctx | none => false)
      let st := { st with phase := 1, row := 0, start := s.gtb.now, startCclk := s.gtb.cclk, gens := gens, measured := wants && !other }
      let s := if wants && other then setRegBit s (rdyCtx img.ctx + 4) 30 true else s
      let s := resetQueues (setStep s i st) i st.launch.repro st.launch.vint
      .next (startDigest s i st img)

/-! ### A task whose inputs are met -/

/-- The due instant of a delayed task (R245), in time units. -/
def dueOf (s : State) (d : List Byte) : Nat := nsUnits ((cdivN s.gtb.now (nsUnits 256) + tdDelay d) * 256)

/-- Every context with a running step. -/
def stepCtxs (s : State) : List Nat :=
  (List.range 64).filter fun c => s.tge.steps.any fun e =>
    1 ≤ e.2.phase && e.2.phase ≤ 3 && (match imgOf s e.1 with | some x => x.ctx == c | none => false)

/-- Decrements lost (R194, R248): DEC_LOSS or INS_LOSS has been set; the record, and a divergence of each
context. -/
def decLoss (s : State) (unit detail : Nat) (ctxs : List Nat) : State :=
  ctxs.foldl (fun s c => ask s (.diverge c)) (record s 2 unit 0x13 none detail 0)

/-- The items of TMR's insertion queue (R248): delayed entries that have not found the timers full. -/
def insQueue (s : State) : List Ready := s.disp.ready.filter fun r => r.due.isSome && !r.parked

/-- A delayed task goes to TMR's insertion queue of 16 items; into a full queue it is lost (R34, R248). -/
def sendDelayed (s : State) (r : Ready) : State :=
  if (insQueue s).length < 16 then { s with disp := { s.disp with ready := s.disp.ready ++ [r] } }
  else decLoss (setRegBit (queueOverrun s 0x380020 1) 0x380000 29 true) 0x06 16 (stepCtxs s)

/-- A task whose COUNT is 0 (R181, R183, R184, R245, R567): to RDY, to TMR, to CMT, or live. -/
def taskReady (s : State) (i c t : Nat) (pred : Option Nat) : State :=
  let d := descOf s t
  let k := tdKind d
  if k = 2 then setCounter s t (counterWord true (tdInCount d) (tdExpect d))
  else if k = 5 then { s with disp := { s.disp with gates := s.disp.gates ++ [(i, t)] } }
  else if tdDelayed d then
    sendDelayed s { readyEntry s i c t pred none with due := some (dueOf s d), pred := pred }
  else if k = 4 then { s with disp := { s.disp with readyQ := s.disp.readyQ ++ [.signal i t] } }
  else pushReady s (readyEntry s i c t pred none)

/-! ### The sweep (R185, R214, R614) -/

/-- The sweep visits one task; one left with COUNT 1 or 0 has its DATA_PAGE passed to PAT (R484). -/
def sweepTask (i : Nat) (img : Img) (s : State) (r : Nat) : State :=
  let t := physTask img r
  let d := descOf s t
  let s := clearLedger (setCounter s t (counterWord false (tdInCount d) (tdInCount d))) img.ctx t
  let s := if tdWaitValid d then postTaskWait s i img.ctx t else s
  let s := if tdInCount d ≤ 1 then prefetch s img.ctx (tdDataPage d) else s
  if tdInCount d = 0 then taskReady s i img.ctx t none else s

/-- One row of the sweep of a step, in its CCLK (R214). -/
def sweepStep (s : State) (i : Nat) : State :=
  match stepOf s i, imgOf s i with
  | some st, some img =>
    if st.phase ≠ 1 || s.gtb.cclk < st.startCclk + st.row then s
    else
      let tasks := (rangeFrom (16 * st.row) 16).filter fun r => decide (r < img.tasks)
      let s := tasks.foldl (sweepTask i img) s
      match stepOf s i with
      | some st =>
        let row := st.row + 1
        setStep s i { st with row := row, phase := if 64 * img.tblk.length ≤ row then 2 else 1 }
      | none => s
  | _, _ => s

/-- The CCLK of the next row of any sweep: row k in the k-th CCLK from the start of its step (R214). -/
def nextSweep (s : State) : Option Nat :=
  s.tge.steps.foldl (fun a e => if e.2.phase = 1 then least a (some (e.2.startCclk + e.2.row)) else a) none

/-- SWEEP_ROW: time passes to the next row's CCLK, and every sweep in progress visits its row of that CCLK
(R214). -/
def execSweepRow (s : State) : Out :=
  match nextSweep s with
  | none => .next s
  | some n => .next (settle ((s.tge.steps.map fun e => e.1).foldl sweepStep (advanceCclk n s)))

/-! ### Decrements (R189-R194, R215) -/

/-- Whether the sweep of a step has visited a task. -/
def visited (st : Step) (img : Img) (t : Nat) : Bool :=
  st.phase == 2 || (st.phase == 1 && decide (relTask img t / 16 < st.row))

/-- The counter copies of a task differ (R189, R613). -/
def divergeCounter (s : State) (c t : Nat) : State :=
  ask (record (divSeen s c) 2 0x04 0x10 (some c) (cntA s t) (cntB s t + t * 2 ^ 32)) (.diverge c)

/-- A decrement applied to its counter (R189, R190); a task left with COUNT 1 has its DATA_PAGE passed to PAT
(R484). -/
def applyDec (s : State) (i c : Nat) (e : Dec) : State :=
  let t := e.task
  if cntA s t ≠ cntB s t then divergeCounter s c t
  else
    let w := cntA s t
    if cwCount w = 0 then
      ask (record (setRegBit s 0x280000 3 true) 2 0x04 0x12 (some c) 0 t) (.diverge c)
    else
      let s := addCount (setCounter s t (counterWord (cwLive w) (cwInit w) (cwCount w - 1))) 0x28000C 1
      let s := if cwCount w = 2 then prefetch s c (tdDataPage (descOf s t)) else s
      if cwCount w = 1 then taskReady s i c t e.field else s

/-- DECREMENT_APPLY: the oldest decrement of a bank is applied, unless the sweep has not visited its
task yet (R193, R215). A later one that reached the bank in the same CCLK waits one CCLK, a conflict. -/
def execDecrementApply (bank : Fin 16) (s : State) : Out :=
  let mine : Dec → Bool := fun e => e.task % 16 == bank
  match takeFirst mine s.tge.decQ with
  | none => .next s
  | some (e, rest) =>
    let gone := { s with tge := { s.tge with decQ := rest } }
    match imgOfTask s e.task with
    | none => .next gone
    | some (i, img) =>
      match stepOf s i with
      | none => .next gone
      | some st =>
        if st.phase = 3 then .next gone
        else if !visited st img e.task then .next s
        else
          let later := rest.any fun k => mine k && k.burst.isSome && k.burst == e.burst
          let s := if later then addReg gone 0x280014 1 else gone
          .next (settle (applyDec s i img.ctx e))

/-! ### Timers (R245-R248) -/

/-- A LATE release counted (R116, R254). -/
def noteLate (s : State) (late : Bool) : State :=
  if late then setRegBit (addReg (countLate s true) 0x380010 1) 0x380000 30 true else s

/-- A delayed task leaves TMR for RDY, or for CMT when it is a HOST_SIGNAL. Its home field, where the page does not give
one, is that of the predecessor whose decrement met its inputs (R229; DESIGN CHOICE, log entry 39: the spec names a TMR
expiry apart from a decrement). -/
def releaseDelayed (s : State) (i c t : Nat) (pred : Option Nat) (since : Nat) (late : Bool) : State :=
  let d := descOf s t
  let s := noteLate (addReg s 0x38000C 1) late
  let s := traceTimer s c t (tdPrio d) (effRank s c d) since late 6
  if tdKind d = 4 then { s with disp := { s.disp with readyQ := s.disp.readyQ ++ [.signal i t] } }
  else pushReady s (readyEntry s i c t pred none)

/-- Of two delayed entries the one that goes first: earlier due instant, then lower task. -/
def dueBefore (a b : Nat × Nat) : Bool := decide (a.1 < b.1) || (a.1 == b.1 && decide (a.2 ≤ b.2))

/-- A delayed task takes a free timer entry; a due instant that has passed releases it at once, marked LATE
(R246), but not in the safe state, in which TMR releases nothing (R629). -/
def takeTimer (s : State) (r : Ready) : State :=
  let due := r.due.getD 0
  let s := { s with disp := { s.disp with ready := s.disp.ready.filter fun q => !sameEntry q r } }
  let s := traceTimer s r.ctx r.task r.prio r.rank r.since false 5
  if due ≤ s.gtb.now && !s.saf.safe then releaseDelayed s r.img r.ctx r.task r.pred r.since true
  else
    let e : Timer := { ctx := r.ctx, img := r.img, task := r.task, due := due, pred := r.pred }
    let s := { s with disp := { s.disp with timers := s.disp.timers ++ [e] } }
    setReg s 0x380004 (max (reg s 0x380004) s.disp.timers.length)

/-- The delayed tasks that wait for a timer entry, in ascending due instant and then task (R246). -/
def parkedTasks (s : State) : List Ready :=
  sortBy (fun a b : Ready => dueBefore (a.due.getD 0, a.task) (b.due.getD 0, b.task))
    (s.disp.ready.filter fun r => r.due.isSome && r.parked)

/-- TMR_INSERT: a free timer entry goes to the first task that waits for one, else to the head of the insertion
queue; with no entry free the head waits in RDY, marked delayed, and FULL_SEEN is set (R246). -/
def execTmrInsert (s : State) : Out :=
  if s.disp.timers.length < 8192 then
    match parkedTasks s ++ insQueue s with
    | [] => .next s
    | r :: _ => .next (takeTimer s r)
  else
    match insQueue s with
    | [] => .next s
    | r :: _ =>
      let s := { s with disp := { s.disp with
        ready := modWhere (fun q => sameEntry q r) (fun q => { q with parked := true }) s.disp.ready } }
      .next (setRegBit s 0x380000 31 true)

/-- TMR_RELEASE: time passes to the earliest due boundary, and its entries are released in ascending due
instant and task (R247); none in the safe state (R629). -/
def execTmrRelease (s : State) : Out :=
  match sortBy (fun a b : Timer => dueBefore (a.due, a.task) (b.due, b.task)) s.disp.timers with
  | [] => .next s
  | first :: _ =>
    if s.saf.safe then .next s
    else
      let s := advanceTo first.due s
      let sorted := sortBy (fun a b : Timer => dueBefore (a.due, a.task) (b.due, b.task)) s.disp.timers
      let out := sorted.filter fun e => decide (e.due ≤ s.gtb.now)
      let s := { s with disp := { s.disp with
        timers := s.disp.timers.filter fun e => !decide (e.due ≤ s.gtb.now) } }
      .next (out.foldl (fun s e => releaseDelayed s e.img e.ctx e.task e.pred s.gtb.now (inJump s e.due)) s)

/-- IMB_EN_WRITE: a write of RDY_CTX_CFG; a ninth context with IMB_EN is refused (R249). -/
def execImbEnWrite (c : Fin 64) (w : Word) (s : State) : Out :=
  let off := rdyCtx c
  let on := ((List.range 64).filter fun k => k != c.val && regBit s (rdyCtx k) 31).length
  let v := w.toNat &&& 0x8000FFFF
  if bitAt v 31 && !regBit s off 31 && decide (8 ≤ on) then
    .next (setRegBit (setReg s off (setFld v 31 31 0)) (off + 4) 29 true)
  else .next (setReg s off v)

end Sys2Proof.Machine
end

