-- ==== Sys2Proof/Machine/Gate.lean ====
section
/-! DEFINITION. The step gate (R565-R576, R583, R584, R691). -/

namespace Sys2Proof.Machine

open Sys2Proof

/-- Bytes of a list replaced from `lo`. -/
def putBytes (b : List Byte) (lo : Nat) (x : List Byte) : List Byte :=
  b.take lo ++ x ++ b.drop (lo + x.length)

/-- The context of a commit that waits. -/
def commitCtx (s : State) : CommitItem → Option Nat
  | .runs ids => (ids.findSome? fun r => runOf s r).map fun x => x.ctx
  | .signal i _ => (imgOf s i).map fun x => x.ctx

/-- Whether a commit of a context is still to be applied: step 2 of R269 of a gate's pass is the write of its record
(R691). -/
def commitsWait (s : State) (c : Nat) : Bool :=
  (s.disp.readyQ.any fun q => commitCtx s q == some c) ||
  s.tge.steps.any fun e => (imgOf s e.1).any (fun img => img.ctx == c) && e.2.gateWrites.any fun w => w.pass

/-- The lowest task among the gates of an image whose inputs are met (R576). -/
def lowestGate (s : State) (i t : Nat) : Nat :=
  s.disp.gates.foldl (fun m g => if g.1 = i then min m g.2 else m) t

/-- The gate that is evaluated next: its COUNT is 0 and every earlier commit of its context has been applied (R567).
Gates of one step are evaluated one after another in ascending task (R576). -/
def nextGate (s : State) : Option (Nat × Nat × Step × Img) :=
  s.disp.gates.findSome? fun g =>
    match stepOf s g.1, imgOf s g.1 with
    | some st, some img =>
      if st.phase == 3 || commitsWait s img.ctx then none else some (g.1, lowestGate s g.1 g.2, st, img)
    | _, _ => none

/-- What an evaluation has read: the gate record and the loss, where read. -/
structure GateRead where
  rec? : Option (List Byte)
  loss? : Option Nat
  deriving DecidableEq, Repr

/-- The loss widened to binary64 (R568). -/
def widen (x : Nat) : Nat := encodeF f64 none (decodeF f32 x)

/-- Whether the loss passes the spike comparison (check 5 of R568). -/
def spikeOk (d rec : List Byte) (x : Nat) : Bool :=
  let bound := mul64 (widen (gdRatio d)) (leAt rec 0 8)
  (decodeF f64 (widen x)).leNum (decodeF f64 bound)

/-- The reason of the first check of R568 that fails; 0 for a pass. -/
def gateReason (s : State) (d : List Byte) (st : Step) (img : Img) (g : GateRead) : Nat :=
  let any := gdNf d || gdSpike d || gdProv d
  let passes := match g.rec? with | some b => leAt b 8 4 | none => 0
  if any && g.rec?.isNone then 5
  else if gdNf d && decide (st.nfLoad + st.nfStore ≠ 0) then 1
  else if gdSpike d && g.loss?.isNone then 4
  else if gdSpike d && !(decodeF f32 (g.loss?.getD 0)).finite then 2
  else if gdSpike d && !st.launch.replay && decide (max (gdWarmup d) 1 ≤ passes) &&
      !spikeOk d (g.rec?.getD []) (g.loss?.getD 0) then 3
  else if gdProv d && decide (digArea s img.ctx = 0) then 6
  else 0

/-- The fields of a gate record that every evaluation writes (R569, R570, R573). -/
def lastFields (b : List Byte) (st : Step) (loss reason : Nat) : List Byte :=
  let layer := match st.nfFirst with | some f => f.2.2 | none => 0xFFFF
  putBytes (putBytes b 16 (leBytes 8 st.launch.vint ++ leBytes 4 loss ++ leBytes 1 reason)) 32
    (leBytes 8 st.nfLoad ++ leBytes 8 st.nfStore ++ leBytes 2 layer)

/-- MEAN after a pass (R569). -/
def newMean (d b : List Byte) (x : Nat) : Nat :=
  if leAt b 8 4 = 0 then widen x
  else
    let diff := match decodeF f64 (sub64 (widen x) (leAt b 0 8)) with
      | .fin s m e => FV.fin s m (e - (gdShift d : Int))
      | v => v
    add64 (leAt b 0 8) (encodeF f64 none diff)

/-- A digest word of the step's row as it stands; what a row that cannot be read gives is left open. -/
def digestWord (s : State) (img : Img) (layer : Nat) : State × List Byte :=
  match readVirt s img.ctx (digestRow s img + 64 + 8 * layer) 8 with
  | some b => (s, b)
  | none => let (d, s) := draw s; (s, leBytes 8 (Config.freeNat d))

/-- The provenance digest of R584. -/
def provenance (s : State) (d : List Byte) (img : Img) : State × List Byte :=
  let (s, w) := digestWord s img (gdWLayer d)
  let (s, v) := digestWord s img (gdILayer d)
  (s, toBytes (sha256 (toNats (img.sha ++ w ++ v))))

/-- The gate record that a pass writes (R569). -/
def passRecord (s : State) (d b : List Byte) (st : Step) (img : Img) (loss : Nat) : State × List Byte :=
  let b := if gdSpike d then putBytes b 0 (leBytes 8 (newMean d b loss)) else b
  let b := lastFields (putBytes b 8 (leBytes 4 (satAdd 32 (leAt b 8 4) 1))) st loss 0
  if gdProv d then
    let (s, h) := provenance s d img
    (s, putBytes b 64 (h ++ leBytes 8 st.launch.vint))
  else (s, b)

/-- The gate record that a failure writes (R570). -/
def failRecord (b : List Byte) (st : Step) (loss reason : Nat) : List Byte :=
  lastFields (putBytes b 12 (leBytes 4 (satAdd 32 (leAt b 12 4) 1))) st loss reason

/-- A gate passes: its commit follows at once, or once its record has been written (R569, R583, R691). -/
def passGate (s : State) (i t : Nat) (d : List Byte) (st : Step) (img : Img) (g : GateRead) : State :=
  match st.launch.replay, g.rec? with
  | false, some b =>
    let (s, b) := passRecord s d b st img (g.loss?.getD 0)
    let w : GateWrite := { task := t, pass := true, va := gdState d, bytes := b }
    setStep s i { st with gateWrites := st.gateWrites ++ [w] }
  | _, _ => commitTask (addCount s 0x480008 1) i img.ctx t none

/-- LAST_VINTAGE after a gate's failure: that of before the step's launch, unless the step is a replay or a later launch
has been accepted (R571). -/
def returnVintage (s : State) (i : Nat) (l : Launch) : State :=
  match imgOf s i with
  | some img => if l.replay || img.pending.isSome then s else setImg s i { img with last := l.prev }
  | none => s

/-- A gate fails: its record, LAST_VINTAGE, and the teardown of the step (R570, R571, R583). -/
def failGate (s : State) (i t : Nat) (d : List Byte) (st : Step) (g : GateRead) (reason : Nat) : State :=
  let loss := g.loss?.getD 0
  let ws : List GateWrite := match st.launch.replay, g.rec? with
    | false, some b =>
      if reason = 5 then [] else [{ task := t, pass := false, va := gdState d, bytes := failRecord b st loss reason }]
    | _, _ => []
  let st := { st with
    gateReason := reason, gateNf := st.nfLoad + st.nfStore, gateLoss := loss
    gateWrites := st.gateWrites ++ ws }
  settle (ask (returnVintage (setStep s i st) i st.launch) (.teardown i 9 t 9))

/-- The first address of a gate's reads whose STREAM page has still to be filled (R466, R483). -/
def gateMissing (s : State) (st : Step) (t c : Nat) (vas : List Nat) : Option Nat :=
  vas.find? fun va => match regionAt s c va with
    | some g => g.kind == 2 && ctxEnabled s c && (mapOf s c (pageOf g va)).isNone &&
        !(st.gateFaults.any fun f => f.1 == t && pageNumber s c f.2 == pageOf g va)
    | none => false

/-- CMT's read of an unmapped STREAM page has it filled, and waits for it (R478, R483). -/
def gateFill (s : State) (i t c va : Nat) : State :=
  let me : PatWait := .gate i t c va
  let join := fun s : State => { s with pat := { s.pat with waits := s.pat.waits ++ [me] } }
  match regionAt s c va with
  | none => s
  | some g =>
    if s.pat.waits.contains me then s
    else if heldBack s c then join (setRegBit s 0x700004 31 true)
    else match startFill s c (pageOf g va) g none false false with
      | some s => join s
      | none => join (noteWait s c (frameSize g.large))

/-- GATE_EVALUATE: a gate whose inputs are met reads its record and its loss and passes or fails (R567,
R568). `stErr` and `lossErr` are read errors. No gate reaches its commit in the safe state. -/
def execGateEvaluate (stErr lossErr : Bool) (s : State) : Out :=
  if s.saf.safe then .next s
  else match nextGate s with
    | none => .next s
    | some (i, t, st, img) =>
      let d := descOf s t
      let state := (gdNf d || gdSpike d || gdProv d) && !stErr
      let loss := gdSpike d && !lossErr
      let vas := (if state then [gdState d, gdState d + 127] else []) ++ if loss then [gdLoss d, gdLoss d + 3] else []
      match gateMissing s st t img.ctx vas with
      | some va => .next (gateFill s i t img.ctx va)
      | none =>
        let g : GateRead :=
          { rec? := if state then readVirt s img.ctx (gdState d) 128 else none
            loss? := if loss then (readVirt s img.ctx (gdLoss d) 4).map leNat else none }
        let s := { s with disp := { s.disp with gates := s.disp.gates.filter fun k => k != (i, t) } }
        let reason := gateReason s d st img g
        .next (if reason = 0 then passGate s i t d st img g else failGate s i t d st g reason)

/-- Whether the front gate record of a step can go on: it is still to be issued, or its write has been made. -/
def recordGoes (s : State) (e : Nat × Step) : Bool :=
  match e.2.gateWrites, imgOf s e.1 with
  | w :: _, some img => !w.issued || !writeBlocked s img.ctx w.va
  | _, _ => false

/-- GATE_RECORD_WRITE: the next gate record is written; while it waits for a frame nothing follows, and
then a pass commits (R569, R691). An uncorrectable table error (`walkErr`) is handled as WALK_ERROR and leaves the record
unwritten; the gate's outcome stands. -/
def execGateRecordWrite (s : State) (walkErr : Bool := false) : Out :=
  match s.tge.steps.find? fun e => recordGoes s e with
  | none => .next s
  | some (i, st) =>
    match st.gateWrites, imgOf s i with
    | w :: rest, some img =>
      let s :=
        if w.issued then s
        else if walkErr then walkError (notePageFault s img.ctx 5 (w.va / 65536) 0 true st.launch.vint) img.ctx w.va
        else unitWritePlain s img.ctx w.va w.bytes
      if writeBlocked s img.ctx w.va then
        .next (setStep s i { st with gateWrites := { w with issued := true } :: rest })
      else
        let s := setStep s i { st with gateWrites := rest }
        .next (settle (if w.pass then commitTask (addCount s 0x480008 1) i img.ctx w.task none else s))
    | _, _ => .next s

end Sys2Proof.Machine
end

