-- ==== Sys2Proof/Machine/RexAcc.lean ====
section
/-! DEFINITION. The access stream of a REX (R424-R426, R434-R437, R446), and LOOP and QBAR (R447-R449). -/

namespace Sys2Proof.Machine

open Sys2Proof

/-! ### Format M (R424, R425) -/

def mT (w : Nat) : Nat := fld w 51 48
def mBase (w : Nat) : Nat := fld w 47 46
def mLevel (w : Nat) : Nat := fld w 45 44
def mHalf (w : Nat) : Nat := fld w 43 42
def mFmt (w : Nat) : Nat := fld w 41 38
def mRows (w : Nat) : Nat := fld w 37 32 + 1
def mOff (w : Nat) : Nat := fld w 31 12
def mStride (w : Nat) : Int := signed 12 (fld w 11 0)
def mAcci (w : Nat) : Nat := mT w * 4 + mHalf w

/-- ARG0-ARG2 of a command (R390). -/
def argOf (s : State) (x : Run) (b : Nat) : Nat := leAt (descOf s x.task) (40 + 8 * b) 8

/-- The effective address (R425). -/
def effAddr (s : State) (y : RexUnit) (x : Run) (w : Nat) : Nat :=
  let i := tget 0 y.acc.idx (mLevel w)
  unsigned 64 ((argOf s x (mBase w) : Int) + 64 * ((mOff w : Int) + mStride w * (i : Int)))

/-- Bytes of a row. -/
def rowBytes (half : Nat) : Nat := if half = 0 then 256 else 128

/-- Whether the words of Format M hold a reserved encoding (R422, R424). -/
def mBad (op w : Nat) : Bool :=
  let half := mHalf w
  let sixteen := mFmt w == 1 || mFmt w == 2
  let accum := op == 0x0D || op == 0x0E || op == 0x0F
  decide (mBase w = 3) || decide (6 < mFmt w) ||
  (if accum then decide (63 < mAcci w + mRows w - 1)
   else if op = 0x0C then decide (half ≠ 0)
   else decide (half = 3) || (decide (half ≠ 0) && !sixteen) ||
     (op == 0x0A && decide (1 < mT w)) || (op == 0x0B && mT w != 2 && mT w != 3))

/-- The words of one row of memory, placed as R434 lays down. -/
def rowWords (half : Nat) (b : List Byte) : List Nat :=
  (List.range 64).map fun c =>
    if half = 0 then leAt b (4 * c) 4 else if half = 1 then leAt b (2 * c) 2 else leAt b (2 * c) 2 * 65536

/-- The bytes of one row of words, as ST stores them. -/
def wordsRow (half : Nat) (l : List Nat) : List Byte :=
  (l.map fun w => if half = 0 then leBytes 4 w else leBytes 2 (if half = 1 then w else w / 65536)).flatten

/-- Non-finite elements of memory bytes in a format. -/
def countNf (code : Nat) (b : List Byte) : Nat :=
  let n := fmtBits code / 8
  ((List.range (b.length / n)).filter fun i => nonFinite code (leAt b (n * i) n)).length

/-- NF_LOAD and NF_STORE of a command raised, saturating (R401). -/
def addLoad (s : State) (r n : Nat) : State := modRun s r fun x => { x with nfLoad := satAdd 32 x.nfLoad n }
def addStore (s : State) (r n : Nat) : State := modRun s r fun x => { x with nfStore := satAdd 32 x.nfStore n }

/-- The contribution of one block (R403). -/
def contribution (va : Nat) (b : List Byte) : Nat := crc64 (leBytes 8 va ++ b)

/-- Contributions of the aligned blocks that `bs` at `va` covers whole (R403, R436); a context with no
digest area computes none (R405). -/
def addDigest (s : State) (r : Nat) (x : Run) (va : Nat) (bs : List Byte) : State :=
  if digArea s x.ctx = 0 then s
  else
    let first := (va + 255) / 256
    let stop := (va + bs.length) / 256
    let sum := (rangeFrom first (stop - first)).foldl (fun n k =>
      n + contribution (k * 256) ((bs.drop (k * 256 - va)).take 256)) 0
    modRun s r fun x => { x with digest := (x.digest + sum) % 2 ^ 64 }

/-- What an access instruction comes to before its effect: its reserved encodings and alignment checked. -/
def memCheck (s : State) (u r : Nat) (x : Run) (op pc w : Nat) : Option State :=
  let ea := effAddr s (unitOf s u) x w
  if mBad op w then some (progFault s u r x 3 pc 0)
  else if ea % (if op = 0x0C then 256 else 64) ≠ 0 then some (progFault s u r x 5 pc ea)
  else none

/-- Whether an instruction reads a tile row or ACC entry that an instruction in flight has yet to write (R431). -/
def readsPending (y : RexUnit) (op w : Nat) : Bool :=
  let acc : Nat → Bool := fun k => (op == 0x0E || op == 0x0F) && decide (mAcci w ≤ k) && decide (k < mAcci w + mRows w)
  y.behind.flatten.any fun e => match e with
    | .tile t i _ => op == 0x09 && t == mT w && decide (i < 64 * mRows w)
    | .acc k _ => acc k
    | .add k _ _ => acc k

/-- A memory instruction run with its checks: the writes of tile words and ACC entries that it comes to; a wait leaves
the stream where it is. -/
def memInstr (s : State) (u : Nat) (op : Nat)
    (go : Nat → Run → Nat → Nat → Nat → State → MemRes (List RexWrite)) : Out :=
  match issueAt s u false op with
  | .none => .next s
  | .stop s => .next (settle s)
  | .go r x pc w =>
    if flightFull (unitOf s u) || readsPending (unitOf s u) op w then .next s
    else match memCheck s u r x op pc w with
    | some s => .next (settle s)
    | none =>
      match go r x pc w (effAddr s (unitOf s u) x w) s with
      | .ok l s => .next (settle (stepPc (landed s u l) u false))
      | .fault a code =>
        .next (settle (dataFault s u r x pc a code (op == 0x09 || op == 0x0B || op == 0x0E)))
      | .wait s => .next s

/-- LD: rows of memory to a tile (R434). -/
def execLd (u : Fin 128) (s : State) : Out :=
  memInstr s u 0x08 fun r _ _ w ea s =>
    let rb := rowBytes (mHalf w)
    match cmdRead r 4 s ea (mRows w * rb) with
    | .ok b s =>
      let s := if mHalf w = 1 then s else addLoad s r (countNf (mFmt w) b)
      .ok ((List.range (mRows w)).flatMap fun row =>
        (rowWords (mHalf w) ((b.drop (row * rb)).take rb)).zipIdx.map fun e => .tile (mT w) (64 * row + e.2) e.1) s
    | .fault a code => .fault a code
    | .wait s => .wait s

/-- ST: rows of a tile to memory (R434-R436). -/
def execSt (u : Fin 128) (s : State) : Out :=
  memInstr s u 0x09 fun r x _ w ea s =>
    let y := unitOf s u
    let bs := ((List.range (mRows w)).map fun row =>
      wordsRow (mHalf w) ((List.range 64).map fun c => tileWord y (mT w) (64 * row + c))).flatten
    match cmdWrite s r ea bs with
    | .ok _ s =>
      let s := if mHalf w = 1 then s else addStore s r (countNf (mFmt w) bs)
      .ok [] (addDigest s r x ea bs)
    | .fault a code => .fault a code
    | .wait s => .wait s

/-- A memory instruction on a data queue: `go` has its rows pass, and says what becomes of the stream. -/
def queueInstr (s : State) (u : Nat) (op : Nat)
    (go : Nat → Run → Nat → Nat → Nat → State → MemRes Unit) : Out :=
  match issueAt s u false op with
  | .none => .next s
  | .stop s => .next (settle s)
  | .go r x pc w =>
    if flightFull (unitOf s u) then .next s
    else match memCheck s u r x op pc w with
    | some s => .next (settle s)
    | none =>
      match go r x pc w (effAddr s (unitOf s u) x w) s with
      | .ok _ s => .next (settle s)
      | .fault a code => .next (settle (dataFault s u r x pc a code (op == 0x0B)))
      | .wait s => .next s

/-- Items of memory rows `lo` to `lo + n - 1` of an LDQ, counted as loads (R434, R435). -/
def loadRows (s : State) (r w ea lo n : Nat) : MemRes (List (List Nat)) :=
  let rb := rowBytes (mHalf w)
  match cmdRead r 4 s (ea + lo * rb) (n * rb) with
  | .ok b s =>
    let s := if mHalf w = 1 then s else addLoad s r (countNf (mFmt w) b)
    .ok ((List.range n).map fun row => rowWords (mHalf w) ((b.drop (row * rb)).take rb)) s
  | .fault a code => .fault a code
  | .wait s => .wait s

/-- Items pushed to a queue of a unit; the newest of a cut-through queue may still be arriving (R37). -/
def pushItems (s : State) (u q : Nat) (items : List (List Nat)) : State :=
  let cut := cutsThrough s u q
  modUnit s u fun y =>
    let rest := y.arriving.filter fun k => k != q
    setAq { y with arriving := if cut then q :: rest else rest } q (aqOf y q ++ items)

/-- LDQ: rows of memory as items into AQ0 or AQ1 (R434). On a static schedule as many rows pass as the queue has
places, and a row that finds it full slips; interlocked, the rows that find it full wait in the REX, and no
further LDQ issues until they fit (R388, R450, R452). -/
def execLdq (u : Fin 128) (s : State) : Out :=
  queueInstr s u 0x0A fun r x pc w ea s =>
    let q := mT w
    let room := 64 - (aqOf (unitOf s u) q).length
    if x.locked then
      if !(unitOf s u).late.isEmpty then .wait s
      else match loadRows s r w ea 0 (mRows w) with
        | .ok items s =>
          let s := pushItems s u q (items.take room)
          .ok () (stepPc (modUnit s u fun y => { y with late := (items.drop room).map fun i => (q, i) }) u false)
        | .fault a code => .fault a code
        | .wait s => .wait s
    else
      let lo := (unitOf s u).acc.rows
      let n := min (max 1 room) (mRows w - lo)
      match loadRows s r w ea lo n with
      | .ok items s =>
        if room = 0 then .ok () (pushSlip s u r x pc [q] [q] false)
        else .ok () (passRows (pushItems s u q items) u false n (mRows w))
      | .fault a code => .fault a code
      | .wait s => .wait s

/-- An STQ that has popped all its rows stores them, and counts its non-finite elements and its digest contributions
(R435, R436). -/
def storeRows (s : State) (u r : Nat) (x : Run) (w ea : Nat) : MemRes Unit :=
  let bs := ((unitOf s u).acc.held.map fun i => wordsRow (mHalf w) i).flatten
  match cmdWrite s r ea bs with
  | .ok _ s =>
    let s := if mHalf w = 1 then s else addStore s r (countNf (mFmt w) bs)
    .ok () (stepPc (landed (addDigest s r x ea bs) u []) u false)
  | .fault a code => .fault a code
  | .wait s => .wait s

/-- STQ: items popped from AQ2 or AQ3, as many rows as are there, and stored once it has them all, for one that slips
stores nothing (R434, R450, R452). Of the newest item of a queue that it reads by cut-through, whether a word has not
arrived is left open (R37). -/
def execStq (u : Fin 128) (s : State) : Out :=
  queueInstr s u 0x0B fun r x pc w ea s =>
    let q := mT w
    let y := unitOf s u
    let need := mRows w - y.acc.held.length
    let items := (aqOf y q).take need
    let slip := fun s : State => if x.locked then MemRes.wait s else .ok () (rexSlip s u r x pc q 0 [] false)
    if need = 0 then storeRows s u r x w ea
    else if items.isEmpty then slip s
    else
      let newest := y.arriving.contains q && decide ((aqOf y q).length ≤ need)
      let (d, t) := draw s
      let s := if newest then t else s
      let s := modUnit s u fun y => { y with arriving := y.arriving.filter fun k => k != q }
      if newest && Config.freeBelow d 2 ≠ 0 then slip s
      else
        let s := modUnit s u fun y =>
          setAq { y with acc := { y.acc with held := y.acc.held ++ items } } q ((aqOf y q).drop items.length)
        if items.length < need then .ok () s else storeRows s u r x w ea

/-- DIG: contributions of aligned blocks as the command sees them (R405, R436). -/
def execDig (u : Fin 128) (s : State) : Out :=
  memInstr s u 0x0C fun r x _ w ea s =>
    if digArea s x.ctx = 0 then .ok [] s
    else match cmdRead r 4 s ea (mRows w * 256) with
      | .ok b s => .ok [] (addDigest s r x ea b)
      | .fault a code => .fault a code
      | .wait s => .wait s

/-- ACCLD: ACC entries from memory (R437). -/
def execAccld (u : Fin 128) (s : State) : Out :=
  memInstr s u 0x0D fun r _ _ w ea s =>
    match cmdRead r 4 s ea (mRows w * 8) with
    | .ok b s => .ok ((List.range (mRows w)).map fun k => .acc (mAcci w + k) (leAt b (8 * k) 8)) s
    | .fault a code => .fault a code
    | .wait s => .wait s

/-- ACCST: ACC entries to memory at full width (R435, R437); a block that it stores whole adds to the digest
(R403; DEDUCED, log entry 39: R436 names ST and STQ). -/
def execAccst (u : Fin 128) (s : State) : Out :=
  memInstr s u 0x0E fun r x _ w ea s =>
    let y := unitOf s u
    let l := (List.range (mRows w)).map fun k => accOf y (mAcci w + k)
    let nf := if (fmtOf (mFmt w)).isSome then (l.filter fun v => !(decodeF f64 v).finite).length else 0
    let bs := (l.map fun v => leBytes 8 v).flatten
    match cmdWrite s r ea bs with
    | .ok _ s => .ok [] (addDigest (addStore s r nf) r x ea bs)
    | .fault a code => .fault a code
    | .wait s => .wait s

/-- ACCADD: memory values added into ACC entries (R437). -/
def execAccadd (u : Fin 128) (s : State) : Out :=
  memInstr s u 0x0F fun r _ _ w ea s =>
    match cmdRead r 4 s ea (mRows w * 8) with
    | .ok b s =>
      .ok ((List.range (mRows w)).map fun k => .add (mAcci w + k) (leAt b (8 * k) 8) (fmtOf (mFmt w)).isSome) s
    | .fault a code => .fault a code
    | .wait s => .wait s

/-! ### Effect instructions (R446) -/

/-- An effect instruction: its reserved encodings, its source alignment, then the request. -/
def effInstr (s : State) (u op : Nat) (bad : Nat → Bool) (src : RexUnit → Run → Nat → Option Nat)
    (bits : Nat → Nat → Nat) : Out :=
  match issueAt s u false op with
  | .none => .next s
  | .stop s => .next (settle s)
  | .go r x pc w =>
    if flightFull (unitOf s u) then .next s
    else if bad w then .next (settle (progFault s u r x 3 pc 0))
    else
      let va := (src (unitOf s u) x w).getD 0
      if va % 64 ≠ 0 then .next (settle (progFault s u r x 5 pc va))
      else .next (settle (stepPc (landed (sendEffect s r x (bits w va)) u []) u false))

/-- SEND: a message send effect request (R347, R446). -/
def execSend (u : Fin 128) (s : State) : Out :=
  effInstr s u 0x10 (fun w => fld w 51 50 == 3)
    (fun y x w => some ((argOf s x (fld w 51 50) + 64 * (fld w 33 20 + 1) * tget 0 y.acc.idx (fld w 49 48)) % 2 ^ 64))
    (fun w va => 2 * 2 ^ 124 + 1 * 2 ^ 120 + fld w 47 34 * 2 ^ 106 + fld w 33 20 * 2 ^ 92 +
      fld w 19 4 * 2 ^ 76 + fld (va / 64) 41 0 * 2 ^ 34)

/-- BLEND: a blend contribution effect request (R363, R446). -/
def execBlendInstr (u : Fin 128) (s : State) : Out :=
  effInstr s u 0x11 (fun w => fld w 51 50 == 3)
    (fun _ x w => some ((argOf s x (fld w 51 50) + 64 * fld w 19 0) % 2 ^ 64))
    (fun w va => 3 * 2 ^ 124 + 1 * 2 ^ 120 + fld w 49 40 * 2 ^ 110 + fld w 39 28 * 2 ^ 98 +
      fld (va / 64) 41 0 * 2 ^ 56)

/-- SIG: a sync effect request (R304, R446). -/
def execSig (u : Fin 128) (s : State) : Out :=
  effInstr s u 0x12
    (fun w => let o := fld w 51 48; !(o == 1 || o == 2 || o == 3 || o == 5) || (o == 5 && decide (fld w 15 1 ≠ 0)))
    (fun _ _ _ => none)
    (fun w _ => 1 * 2 ^ 124 + fld w 51 48 * 2 ^ 120 + fld w 47 32 * 2 ^ 104 + fld w 31 16 * 2 ^ 88 +
      (if fld w 51 48 = 5 then fld w 0 0 * 2 ^ 71 else fld w 15 0 * 2 ^ 72))

/-! ### Control of a stream (R420, R421, R447-R449) -/

/-- REX_NOP (R421). -/
def execRexNop (u : Fin 128) (exe : Bool) (s : State) : Out :=
  match issueAt s u exe 0x00 with
  | .none => .next s
  | .stop s => .next (settle s)
  | .go _ _ _ _ => .next (stepPc s u exe)

/-- LOOP (R447, R448). -/
def execLoop (u : Fin 128) (exe : Bool) (s : State) : Out :=
  match issueAt s u exe 0x02 with
  | .none => .next s
  | .stop s => .next (settle s)
  | .go r x pc w =>
    let t := strOf (unitOf s u) exe
    let lv := fld w 51 50
    let stop := pc + 1 + fld w 16 0
    let outside := match t.loops with | l :: _ => decide (l.stop < stop) | [] => false
    let len := ((rimgOf s x.ctx (unitOf s u).img).len (unitOf s u).gen).getD 0
    if (t.loops.any fun l => l.lv == lv) || outside || fld w 16 0 = 0 then
      .next (settle (progFault s u r x 3 pc 0))
    else if len < stop then .next (settle (progFault s u r x 2 pc 0))
    else
      let l : RexLoop := { lv := lv, first := pc + 1, stop := stop, left := fld w 47 32 }
      let t := { t with pc := pc + 1, loops := l :: t.loops, idx := tput t.idx lv 0 }
      .next (modUnit s u fun y => setStr y exe t)

/-- QBAR: the stream waits until both hold a QBAR of one ID and every earlier instruction has completed, which an LDQ
whose items still wait for a place has not (R449). -/
def execQbar (u : Fin 128) (exe : Bool) (s : State) : Out :=
  match issueAt s u exe 0x03 with
  | .none => .next s
  | .stop s => .next (settle s)
  | .go r x pc w =>
    let id := fld w 51 44
    let y := unitOf s u
    let other := strOf y (!exe)
    if other.bar.any fun k => k != id then
      .next (settle (progFault s u r x 3 (if exe then pc else y.exe.pc) 0))
    else .next (passBars (modUnit s u fun y => setStr y exe { strOf y exe with bar := some id }) u)

end Sys2Proof.Machine
end

