-- ==== Sys2Proof/Machine/Commit.lean ====
section
/-! DEFINITION. CMT (R257-R274, R285, R286, R401-R405): effects registered while a command runs, its COMPLETE
record, its commit, and its watchdog. -/

namespace Sys2Proof.Machine

open Sys2Proof

/-! ### EFFECT records (R18, R258, R303) -/

/-- A sync effect leaves SYN's input queue: a wait takes effect in its turn, for which it stays in the queue; another
operation is held once its object is there (R296, R303, R339). -/
def registerSync (s : State) (r n : Nat) (x : Run) (e : Eff) : State :=
  let p := synEff e.data
  if p.op = 4 || p.op = 6 then { s with syn := { s.syn with newWaits := s.syn.newWaits ++ [(r, n)] } }
  else if (findObj s x.ctx p.vid).isSome && !matWaiting s x.ctx p.vid then registerEff s r n
  else
    let s := modRun s r fun y => { y with waiting := y.waiting ++ [n] }
    pushMat s { src := 1, ctx := x.ctx, vid := p.vid, run := r, eff := n }

/-- The registration queue of an effect's unit that the record finds full, as unit code, QCTL and the contexts that it
serves (R34, R43). SYN's holds the waits that have not taken effect; the others hand an item on in the command that
brings it, so that the command's sender says, by `full`, whether one has met a full queue (log entry 38). -/
def fullQueue (s : State) (unit : Nat) (full : Bool) : Option (Nat × Nat × List Nat) :=
  if unit = 1 then (if 32 ≤ s.syn.newWaits.length then some (0x09, 0x500030, allCtxs) else none)
  else if !full then none
  else if unit = 2 then some (0x0A, 0x580020, allCtxs)
  else if unit = 3 then some (0x0B, 0x600020, allCtxs)
  else if unit = 5 then some (0x0E, 0x780010, (s.sls.srv.filter fun e => e.2.state != 0).map fun e => e.2.ctx)
  else none

/-- EFFECT_RECORD: the oldest EFFECT record of a field reaches its unit, which holds the effect; one that meets a full
registration queue is lost (R339, R376, R378, R531), and what comes after the kill of its command is discarded (R258,
R280). -/
def execEffectRecord (f : Fin 8) (s : State) (full : Bool := false) : Out :=
  let q := fieldOf s f
  match q.effQ with
  | [] => .next s
  | i :: rest =>
    let s := setField s f { q with effQ := rest }
    match runOf s i.run with
    | none => .next s
    | some x =>
      if x.killed.isSome then .next s
      else match fullQueue s i.eff.unit full with
      | some (unit, qctl, ctxs) => .next (settle (fullLoss s unit qctl ctxs))
      | none =>
        let n := x.effects.length
        let s := setRun s i.run { x with effects := x.effects ++ [i.eff] }
        if i.eff.unit = 1 then .next (settle (registerSync s i.run n x i.eff))
        else if i.eff.unit = 2 then .next (registerSend s i.run n)
        else if i.eff.unit = 3 then .next (registerContrib s i.run n)
        else .next (registerEff s i.run n)

/-! ### COMPLETE records (R18, R266, R267) -/

/-- COMPLETE_RECORD: the oldest COMPLETE record of a field reaches the cellar: the place is free to RDY
(R232), and the command may pass its commit point. -/
def execCompleteRecord (f : Fin 8) (s : State) : Out :=
  let q := fieldOf s f
  match q.cplQ with
  | [] => .next s
  | i :: rest =>
    let s := setField s f { q with cplQ := rest }
    match runOf s i.run with
    | none => .next s
    | some x =>
      if x.killed.isSome || x.state ≠ 4 then .next s
      else .next (commitPoint (setRun s i.run { x with stated := some i.count, state := 5 }) i.run)

/-! ### Effects at commit (R258, R269, R270, R335) -/

/-- The order of R290 under which a refused sync operation is noted, if any. -/
def refusedOrder (op : Nat) : Option Nat :=
  if op = 1 || op = 2 || op = 5 then some 9 else if op = 3 then some 10 else none

/-- A condition noted for the step of a command; a T1 run has none. -/
def noteRun (s : State) (x : Run) (k : Nat) : State := if x.t1 then s else noteStep s x.img k x.task 0

/-- A held sync operation applied at commit; a wait took effect as it registered (R303, R335, R620). -/
def commitSync (s : State) (x : Run) (e : Eff) : State :=
  let p : SynOp := { synEff e.data with vint := x.vint }
  if p.op = 4 || p.op = 6 then s else
  let refuse := fun (s : State) (reason : Nat) =>
    let s := refuseEffect s x.ctx x.task p.vid reason p.op x.vint
    match refusedOrder p.op with
    | some k => noteRun s x k
    | none => s
  if e.refused ≠ 0 then refuse s e.refused
  else match findObj s x.ctx p.vid with
    | none => refuse s 1
    | some k =>
      let (s, ok) := checkObj s k
      if ok then
        match applyOp s k p with
        | .refused reason => refuse s reason
        | .ok _ s => s
      else match frozenAt s k with
        | some f => countDrop s f
        | none => s

/-- One held effect of a command applied by its unit (R258, R269); `src` translates as the commit point did (R353). -/
def commitEffect (src : Pat) (x : Run) (s : State) (e : Eff) : State :=
  if e.unit = 1 then commitSync s x e
  else if e.unit = 2 then
    match deliverSend src s x e with
    | (s, true) => noteRun s x 8
    | (s, false) => s
  else if e.unit = 3 then commitContrib src s x e
  else if e.unit = 4 then commitRelease s x e.data
  else if e.unit = 5 then slsAdvance s x e.data
  else s

/-! ### REX counts and digests at commit (R402, R404, R405) -/

/-- The digest word to which a command adds, when it adds at all. -/
def digestVa (s : State) (x : Run) : Option Nat :=
  let layer := tdLayer (descOf s x.task)
  match stepOf s x.img, imgOf s x.img with
  | some st, some img =>
    if x.kind = 3 && !x.t1 && x.digest ≠ 0 && decide (layer < 1024) && !st.noDigest &&
        decide (digArea s x.ctx ≠ 0) then
      some (digestRow s img + 64 + 8 * layer)
    else none
  | _, _ => none

/-- A command's digest sum added to its word; a fault ends the step's digests. -/
def commitDigest (s : State) (x : Run) : State :=
  match digestVa s x, imgOf s x.img with
  | some va, some img =>
    match readVirt s x.ctx va 8 with
    | none => digestFault s x.img img
    | some b =>
      match unitWrite s x.ctx va (leBytes 8 ((leNat b + x.digest) % 2 ^ 64)) with
      | (s, true) => s
      | (s, false) => digestFault s x.img img
  | _, _ => s

/-- A command's non-finite counts added to its step's; the first that adds any gives the LAYER (R402). -/
def commitCounts (s : State) (x : Run) : State :=
  match (if x.t1 then none else stepOf s x.img) with
  | none => s
  | some st =>
    if x.nfLoad = 0 && x.nfStore = 0 then s
    else
      let mine := (s.gtb.now, x.task, tdLayer (descOf s x.task))
      let first := match st.nfFirst with
        | none => mine
        | some f => if f.1 = s.gtb.now && x.task < f.2.1 then mine else f
      let s := setRegBit (setRegBit s 0x680004 1 true) (rexCtx x.ctx + 0x1C) 29 true
      setStep s x.img { st with
        nfLoad := satAdd 64 st.nfLoad x.nfLoad
        nfStore := satAdd 64 st.nfStore x.nfStore
        nfFirst := some first }

/-! ### The commit (R267-R272) -/

/-- A committed HANDLER run: the record that it consumed is freed, RUNS rises and COUNT falls; the last
expected run completes the task (R184, R352, R614). The fall of COUNT is no decrement of TGE_DEC (DESIGN CHOICE, log
entry 40: the spec does not say whether TGE counts it). -/
def commitHandler (s : State) (x : Run) : State :=
  let t := x.task
  let d := descOf s t
  let s := match x.msg with | some k => freeRecord s k | none => s
  let runs := tget 0 s.saf.runs t + 1
  let s := { s with saf := { s.saf with runs := tput s.saf.runs t runs } }
  let s := if runs = tdExpect d then setDone s x.ctx t else s
  if cntA s t ≠ cntB s t then divergeCounter s x.ctx t
  else
    let w := cntA s t
    let left := cwCount w - 1
    let s := setCounter s t (counterWord (left != 0) (cwInit w) left)
    if left = 0 then countTask (fireEdges s x.img t (some x.field)) x.img t else s

/-- Step 3 of a commit (R269): the record is freed and the out-edges fire. -/
def commitEnd (s : State) (id : Nat) (x : Run) : State :=
  let s := dropRun s id
  if x.t1 then
    { s with psm := { s.psm with
        ops := modWhere (fun o : PsmOp => (o.kind == 1 || o.kind == 2) && o.ctxs.contains x.ctx)
          (fun o => { o with left := o.left - 1, runs := o.runs + 1 }) s.psm.ops } }
  else if tdKind (descOf s x.task) = 2 then commitHandler s x
  else commitTask s x.img x.ctx x.task (some x.field)

/-- Commands that passed one commit point commit: every remap, then every held effect, then the
decrements (R269, R272). -/
def commitRuns (s : State) (ids : List Nat) : State :=
  let runs := ids.filterMap fun r => (runOf s r).map fun x => (r, x)
  let s := runs.foldl (fun s e => remapRun s e.2) s
  let src := s.pat
  let s := runs.foldl (fun s e =>
    let s := e.2.effects.foldl (commitEffect src e.2) s
    commitCounts (commitDigest s e.2) e.2) s
  let s := addCount s 0x480008 runs.length
  runs.foldl (fun s e => commitEnd s e.1 e.2) s

/-- The commit of a HOST_SIGNAL task: its event, then its edges (R150, R181). SOURCE is the physical task ID, as in
the other events (DESIGN CHOICE, log entry 40: R150 says only task ID). -/
def commitSignal (s : State) (i t : Nat) : State :=
  match imgOf s i, stepOf s i with
  | some img, some st =>
    let s := raiseEvent s img.ctx 0x0001 0 t st.launch.vint (leAt ((descOf s t).drop 32) 0 8)
    commitTask (addCount s 0x480008 1) i img.ctx t none
  | _, _ => s

/-- Whether a commit must wait: for a write to its digest row (R405), or for good, where the safe state keeps
a HOST_SIGNAL from its commit point (R629). -/
def commitHeld (s : State) : CommitItem → Bool
  | .signal _ _ => s.saf.safe
  | .runs ids => ids.any fun r => match runOf s r with
    | none => false
    | some x => match digestVa s x with
      | some va => writeBlocked s x.ctx va
      | none => false

/-- The commit that goes next: the oldest of its context that need not wait (R268). -/
def nextCommit (s : State) : List (Option Nat) → List CommitItem → Option CommitItem
  | _, [] => none
  | held, q :: rest =>
    let c := commitCtx s q
    if held.contains c then nextCommit s held rest
    else if commitHeld s q then nextCommit s (c :: held) rest
    else some q

/-- A commit whose point has passed is carried out (R269, R270). -/
def commitOne (s : State) (q : CommitItem) : State :=
  let s := { s with disp := { s.disp with readyQ := s.disp.readyQ.erase q } }
  match q with
  | .runs ids => settle (commitRuns s ids)
  | .signal i t => settle (commitSignal s i t)

/-- What the queues that a commit streams through have lost of it, by the bits of `lost` (log entry 38): releases in
bit 0, which CMT issues again by their serial numbers (R271), payloads of its sends in bit 1 (R376), table write-backs
in bit 2 (R492). Every one is delivered all the same, and once. -/
def commitLoss (s : State) (lost : Nat) : CommitItem → State
  | .signal _ _ => s
  | .runs ids =>
    let has := fun p : Run → Bool => ids.any fun r => match runOf s r with
      | some x => p x
      | none => false
    let loss := fun (s : State) (i : Nat) (p : Run → Bool) (qctl off bit : Nat) =>
      streamLoss s qctl (b2n (bitAt lost i && has p)) off bit
    let s := loss s 0 (fun x => !x.effects.isEmpty || !x.fresh.isEmpty) 0x480020 0x480000 31
    let s := loss s 1 (fun x => x.effects.any fun e => e.unit == 2) 0x580030 0x580000 28
    loss s 2 (fun x => !x.fresh.isEmpty) 0x700040 0x700004 26

/-- COMMIT: the next commit whose point has passed is carried out (R268-R270). -/
def execCommit (s : State) (lost : Fin 8 := 0) : Out :=
  match nextCommit s [] s.disp.readyQ with
  | none => .next s
  | some q => .next (commitOne (commitLoss s lost q) q)

/-! ### CHAN_DECANT (R361, R362) -/

/-- Whether a commit whose point has passed still has a send to a channel to deliver. -/
def sendsTo (s : State) (k : Nat) : CommitItem → Bool
  | .signal _ _ => false
  | .runs ids => ids.any fun r => match runOf s r with
    | some x => x.effects.any fun e => e.unit == 2 && e.target == some k
    | none => false

/-- The deliveries to a channel that have passed their commit points are finished, in the order of the commits (step 2
of R362). -/
def finishSends (k : Nat) : Nat → State → State
  | 0, s => s
  | fuel + 1, s =>
    if s.disp.readyQ.any fun q => sendsTo s k q then
      match nextCommit s [] s.disp.readyQ with
      | none => s
      | some q => finishSends k fuel (commitOne s q)
    else s

/-- CHAN_DECANT (R361, R362): a delivery whose commit point has passed goes first (R374). -/
def execChanDecant (s : State) : Out :=
  match popUnit s fun m => m.opcode == 0x0300 with
  | none => .next s
  | some (m, s) =>
    let bad := if 16 ≤ m.at 4 1 then some 4 else if 2 ≤ m.at 5 1 then some 5 else firstNonzero m.bytes 8 40
    match bad, findImg s m.ctx (m.at 4 1 % 16) with
    | some b, _ => .next (badOperand s m b)
    | none, none => .next (badOperand s m 4)
    | none, some (i, img) =>
      if img.state ≠ 1 then .next (badOperand s m 4)
      else match imgChan s i (m.at 6 2) with
        | none => .next (badOperand s m 6)
        | some k =>
          match chanOf s k with
          | none => .next (badOperand s m 6)
          | some ch =>
            if ch.kind ≠ 1 then .next (badOperand s m 6)
            else if (stepOf s i).isSome || img.pending.isSome then .next (completeWith s m 0x14 (m.at 4 1 % 16))
            else
              let s := finishSends k s.disp.readyQ.length s
              let (s, n) := decantChan s k (bitAt (m.at 5 1) 0)
              .next (completeOk (addReg s (chnCtx m.ctx + 0xC) n) m n)


/-! ### The watchdog (R285, R286) -/

/-- The command whose watchdog boundary comes first. -/
def nextWdog (s : State) : Option (Nat × Run) :=
  s.disp.runs.foldl (fun best e =>
    if 3 ≤ e.2.state && e.2.killed.isNone && !e.2.committed then
      match best with
      | none => some e
      | some b => if e.2.wdog < b.2.wdog then some e else some b
    else best) none

/-- WATCHDOG: the next watchdog boundary comes, and a command that has not passed its commit point is
killed (R286, R627). -/
def execWatchdog (s : State) : Out :=
  match nextWdog s with
  | none => .next s
  | some (id, x) =>
    let s := advanceTo x.wdog (countLate s (inJump s x.wdog))
    let s := record s 1 0x08 0x42 (some x.ctx) (if x.kind = 3 then 0x8000 + x.core else x.core) x.task
    .next (settle (killRun s id 2))

end Sys2Proof.Machine
end

