-- ==== Sys2Proof/Machine/Gtb.lean ====
section
/-! DEFINITION. The group time base (R91-R121): frames, edges, loss, holdover, slews, the field
stamp counters and the CCLK check. -/

namespace Sys2Proof.Machine

open Sys2Proof

/-- One bit into the CRC-16 of R93: polynomial 0x1021, no reflection. -/
def crc16Bit (crc : Nat) (b : Bool) : Nat :=
  let top := bitAt crc 15
  let sh := crc * 2 % 65536
  if top != b then sh ^^^ 0x1021 else sh

/-- The CRC-16 of bits [95:16] of a frame in sending order (R93). -/
def frameCrc (v : Nat) : Nat :=
  (List.range 80).foldl (fun crc i => crc16Bit crc (bitAt v (95 - i))) 0xFFFF

/-- Whether a frame is good, but for the SEQ and USEC condition (R95). -/
def frameForm (s : State) (v : Nat) (spaced : Bool) : Bool :=
  decide (fld v 95 88 = 0xE2) && spaced && decide (frameCrc v = fld v 15 0) &&
  decide (fld v 87 86 = 0) && decide (fld v 85 84 ≤ 1) &&
  (decide (regFld s 0x900010 7 0 = 0) || decide (fld v 27 20 = regFld s 0x900010 7 0))

/-- The last condition of R95: SEQ and USEC exceed those of the previous good frame by one. -/
def frameFollows (s : State) (v : Nat) : Bool :=
  match s.gtb.prev with
  | none => true
  | some (q, u) => decide (fld v 83 80 = (q + 1) % 16) && decide (fld v 79 28 = u + 1)

/-- An acquisition restarts from step 2 of R96. -/
def gtbRestart (s : State) : State :=
  { s with gtb := { s.gtb with
      acq := true, good := 0, prev := none, loaded := false, loadAt := none, okEdges := 0 } }

/-- Any slew is abandoned and SLEWING reads 0 (R100). -/
def gtbStopSlew (s : State) : State :=
  setRegBit { s with gtb := { s.gtb with slewLeft := 0, slewed := 0 } } 0x900004 6 false

/-- HOLDOVER has lasted for GTB_HOLD_LIMIT: UNKNOWN, HOLD_EXPIRED and an error record (R100). -/
def gtbExpire (s : State) : State :=
  let s := setRegFld s 0x900004 1 0 3
  let s := setRegBit s 0x900004 2 true
  record s 2 0x11 0x32 none (regFld s 0x90000C 15 0) (nowNs s)

/-- A loss is declared (R99, R100): `isRef` for a missing edge, else for bad frames. -/
def gtbLoss (isRef : Bool) (s : State) : State :=
  let s := setRegBit s 0x900004 (if isRef then 4 else 3) true
  let s :=
    if isRef then record s 1 0x11 0x30 none 0 (nowNs s)
    else record s 1 0x11 0x31 none (reg s 0x900028) (nowNs s)
  let wasLocked := decide (gtbState s = 0)
  let s := { s with gtb := { s.gtb with needRef := true, needCode := !gtbRefOnly s, refAt := none, trimDue := 0 } }
  let s := gtbStopSlew (gtbRestart s)
  if wasLocked then
    let s := setReg { s with gtb := { s.gtb with held := 0 } } 0x900024 0
    let s := setRegFld s 0x900004 1 0 1
    if regFld s 0x90000C 15 0 = 0 then gtbExpire s else s
  else s

/-- Whether the next loss may be declared (R99): the condition on good frames does not apply under R103. -/
def gtbArmed (s : State) : Bool := !s.gtb.needRef && (gtbRefOnly s || !s.gtb.needCode)

/-- A bad frame (R95, R99): the previous good frame stays the one that a later frame has to follow. -/
def gtbBadFrame (s : State) : State :=
  let s := addReg s 0x900028 1
  let s := { s with gtb := { s.gtb with bad := s.gtb.bad + 1, good := 0 } }
  if 3 ≤ s.gtb.bad && gtbArmed s then gtbLoss false s else s

/-- A good frame: its fields are shown, and the third of an acquisition arms the load at the next
edge (R94, R96). -/
def gtbGoodFrame (s : State) (bits : BitVec 96) : State :=
  let v := bits.toNat
  let good := s.gtb.good + 1
  let due := s.gtb.acq && !s.gtb.loaded && decide (good = 3)
  let t := nsUnits (fld v 79 28 * 1000 + 960) + regFld s 0x900008 19 0 * 80
  let s := { s with gtb := { s.gtb with
      bad := 0, good := good, needCode := false, frame := bits
      prev := some (fld v 83 80, fld v 79 28)
      loadAt := if due then some t else s.gtb.loadAt } }
  let s := setReg (setReg (setReg s 0x900030 v) 0x900034 (v / 2 ^ 32)) 0x900038 (v / 2 ^ 64)
  let s := setRegFld s 0x900004 31 24 (fld v 27 20)
  let s := setRegFld s 0x900004 23 20 (fld v 83 80)
  setRegFld s 0x900004 19 18 (fld v 85 84)

/-- GTB_FRAME: a frame is judged good or bad (R95). GTB ignores frames while ENABLE is 0 and in
REF_ONLY mode (R103). -/
def execGtbFrame (bits : BitVec 96) (spaced : Bool) (s : State) : Out :=
  if !regBit s 0x900000 0 || gtbRefOnly s then .next s
  else if frameForm s bits.toNat spaced && frameFollows s bits.toNat then .next (gtbGoodFrame s bits)
  else .next (gtbBadFrame s)

/-- REF_LOSS: no GTB_REF edge within 40 ns (R99). -/
def execRefLoss (s : State) : Out :=
  if regBit s 0x900000 0 && gtbArmed s then .next (gtbLoss true s)
  else .next { s with gtb := { s.gtb with okEdges := 0 } }

/-- Group time steps forward to `t`; a policy-tick boundary within the jump is taken at its end (R101, R102). -/
def gtbStep (t : Nat) (s : State) : State :=
  let j := (s.gtb.now, t)
  let b := nextTickAt s
  let s := if decide (s.gtb.now < b) && decide (b ≤ t) then crossTick s (2 * s.gtb.cclk) else s
  setRegBit { s with gtb := { s.gtb with now := t, jumps := j :: s.gtb.jumps, refAt := none } } 0x900004 5 true

/-- A backward difference is to be absorbed by a slew (R101). -/
def gtbSlew (d : Nat) (s : State) : State :=
  let t := if gtbSlewing s then s.gtb.slewed else 0
  setRegBit { s with gtb := { s.gtb with slewLeft := s.gtb.slewLeft + d, slewed := t } } 0x900004 6 true

/-- Step 4 of R96: the source time is loaded at this edge. -/
def gtbLoad (t : Nat) (s : State) : State :=
  let trim := signed 16 (regFld s 0x900014 15 0)
  let src := ((t : Int) + trim * 80).toNat
  let s := { s with gtb := { s.gtb with loaded := true, loadAt := none, trimDue := 0, okEdges := 0 } }
  if s.gtb.now < src then gtbStep src s
  else if src < s.gtb.now then gtbSlew (s.gtb.now - src) s
  else s

/-- A command writes TRIM: its change acts at the next GTB_REF edge where GTB is LOCKED; in HOLDOVER and UNKNOWN
the new value is taken up by step 4 of the next acquisition alone (R601). -/
def gtbSetTrim (s : State) (v : Nat) : State :=
  let d := signed 16 (v % 2 ^ 16) - signed 16 (regFld s 0x900014 15 0)
  let s := if gtbState s = 0 then { s with gtb := { s.gtb with trimDue := s.gtb.trimDue + d } } else s
  setRegFld s 0x900014 15 0 v

/-- A TRIM that a command has changed acts at this edge while LOCKED (R601). -/
def gtbApplyTrim (s : State) : State :=
  let d := s.gtb.trimDue
  if gtbState s = 0 then
    let s := { s with gtb := { s.gtb with trimDue := 0 } }
    if 0 < d then gtbStep (s.gtb.now + d.toNat * 80) s
    else if d < 0 then gtbSlew ((-d).toNat * 80) s
    else s
  else s

/-- The group time that a GTB_REF edge marks while LOCKED: 10 ns after the last edge, 15/16 of it in a slew
(R97, R101). -/
def refMark (s : State) (last : Nat) : Nat := last + if gtbSlewing s then 48000 else 51200

/-- At an edge in LOCKED, group time has advanced by 10 ns per GTB_REF period (R97): the interpolator makes up what
the increments of the period fell short of, and takes the new increment, from which it takes what they went beyond,
spread over the 12.5 CCLK of the next period, for group time never goes back (R92). -/
def gtbTrimEdge (incr : Nat) (s : State) : State :=
  let mark := match s.gtb.refAt with
    | some t => refMark s t
    | none => s.gtb.now
  let more := mark - s.gtb.now
  let past := s.gtb.now - mark
  let far := decide (51200 ≤ past)
  { s with gtb := { s.gtb with
      now := s.gtb.now + more, refAt := some (if far then s.gtb.now else mark)
      incr := max 1 (incr - if far then 0 else cdivN (2 * past) 25) } }

/-- A change of TRIM in REF_ONLY mode, where nothing steps and nothing slews (R103). -/
def gtbTakeTrim (s : State) : State := { s with gtb := { s.gtb with acq := false, trimDue := 0 } }

/-- GTB_REF_EDGE: the interpolator is trimmed, a load or a changed TRIM acts, and in REF_ONLY mode
the edge counts as LOCKED (R97, R101, R103). `incr` is the increment that the interpolator finds,
`phaseOk` whether its phase error is below 0.25 ns. The edge at which the source time is loaded counts as the
first of the 16 edges of step 5 of R96, where its phase error is small (DESIGN CHOICE, log entry 39: R96 does
not say). -/
def execGtbRefEdge (incr : Nat) (phaseOk : Bool) (s : State) : Out :=
  if !regBit s 0x900000 0 then .next s
  else
    let s := { s with gtb := { s.gtb with needRef := false } }
    if gtbRefOnly s then
      .next (gtbTrimEdge incr (setRegFld (gtbTakeTrim s) 0x900004 1 0 0))
    else
      let s := match s.gtb.loadAt with
        | some t => gtbLoad t s
        | none => gtbApplyTrim s
      let s := if gtbState s = 0 then gtbTrimEdge incr s else s
      if s.gtb.acq && s.gtb.loaded then
        .next { s with gtb := { s.gtb with okEdges := if phaseOk then s.gtb.okEdges + 1 else 0 } }
      else .next s

/-- GTB_LOCKED: after 16 edges below 0.25 ns, STATE becomes LOCKED (step 5 of R96). -/
def execGtbLocked (s : State) : Out :=
  if s.gtb.acq && s.gtb.loaded && decide (16 ≤ s.gtb.okEdges) then
    .next (setRegFld { s with gtb := { s.gtb with acq := false } } 0x900004 1 0 0)
  else .next s

/-- HOLD_EXPIRED: the instant at which HOLDOVER has lasted for GTB_HOLD_LIMIT (R100). -/
def execHoldExpired (s : State) : Out :=
  if gtbState s = 1 then
    let limit := regFld s 0x90000C 15 0 * 5120000
    .next (gtbExpire (advanceTo (s.gtb.now + (limit - s.gtb.held)) s))
  else .next s

/-- SLEW_END: time passes until the difference is absorbed and SLEWING reads 0 (R101). -/
def execSlewEnd (s : State) : Out :=
  if gtbSlewing s then .next (elapse (cdivN s.gtb.slewLeft (max 1 (gtbBase s / 16))) s)
  else .next s

/-- The crossing time of the vertical link (R19): 8 cc, in time units. -/
def crossing : Nat := 16384

/-- The counter of field `f` has reached the next policy-tick boundary at the present edge (R115). -/
def FieldClk.reach (k : FieldClk) (s : State) (f : Nat) : FieldClk :=
  if k.behind then
    { k with behind := false, tickEdge := some (2 * s.gtb.cclk), edgeLost := reg s (0x900100 + 4 * f) }
  else k

/-- 8 CCLK pass, and a field whose clock is not at full rate loads the time word less the crossing time, never going
back (R92, R107). -/
def gtbTimeWord (s : State) : State :=
  let s := elapse 8 s
  let t := s.gtb.now - crossing
  { s with clk := tmap (fun f k =>
      if k.clk = 0 then k
      else
        let k := { k with word := max k.word t }
        if nextTickAt s ≤ k.word then k.reach s f else k) s.clk }

/-- GTB_TIME_WORD (R107). -/
def execGtbTimeWord (s : State) : Out := .next (gtbTimeWord s)

/-- FLD_CLK_STATE_CHANGE: a field's clock state changes (R60, R106, R108). Until the first time word after the
change a stamp counter shows group time as it stood at the change (DESIGN CHOICE, log entry 39: R107 gives only
the last word loaded). -/
def execFldClkStateChange (f : Fin 8) (st : Fin 4) (edges : Fin 3) (s : State) : Out :=
  let k := tget {} s.clk f
  let leaves := decide (k.clk = 0) && decide (st.val ≠ 0)
  let turns := leaves || (decide (k.clk ≠ 0) && decide (st.val = 0))
  let k' := { k with
    clk := st
    edges := edges
    stretches := if turns then k.stretches + 1 else k.stretches
    word := if leaves then max k.word s.gtb.now else k.word
    tickStr := k.tickStr || decide (st.val = 1)
    tickStop := k.tickStop || decide (2 ≤ st.val) }
  let k' := if st.val = 0 then k'.reach s f else k'
  let s := { s with clk := tput s.clk f k' }
  .next (deliverDown (if leaves then setRegBit s (0x900120 + 4 * f) 2 true else s) f)

/-- GTB_CTL_ENABLE: a write of GTB_CTL, which is RWL (R7, R96, R120, R121). While ENABLE stays 1, a change of
REF_ONLY leaves a slew that is in progress, a load that is armed and STATE as they are: the slew runs out, the load is
made at the next edge that looks at GTB_CODE, and a LOCKED GTB stays LOCKED without an acquisition (DESIGN CHOICE, log
entry 39: R103 does not say). -/
def execGtbCtlEnable (w : Word) (s : State) : Out :=
  if setupDone s then .next s
  else
    let old := regBit s 0x900000 0
    let s := setReg s 0x900000 (w.toNat % 4)
    let on := bitAt w.toNat 0
    if on && !old then
      .next (gtbRestart { s with gtb := { s.gtb with bad := 0, needRef := false, needCode := false } })
    else if !on && old then
      let s := gtbStopSlew (setRegFld s 0x900004 1 0 3)
      .next { s with gtb := { s.gtb with acq := false, loadAt := none, loaded := false, refAt := none, trimDue := 0 } }
    else .next s

/-- GTB_NOW_LO_READ: the read captures GTB_NOW_HI and GTB_NOW_AUX (R119). -/
def execGtbNowLoRead (s : State) : Out :=
  let ns := nowNs s
  let frac := s.gtb.now % 5120 / 80
  let s := setReg (setReg s 0x90001C (ns / 2 ^ 32)) 0x900020 (gtbQ s * 64 + frac)
  .next { s with hif := { s.hif with rdata := ns % 2 ^ 32 } }

/-- The set frequency of CCLK in MHz (R83: nominal). -/
def cclkMhz : Nat := 1250

/-- CCLK_FREQ_CHECK: a departure above 1 % over 10 us raises a fatal record (R77, R627). -/
def execCclkFreqCheck (mhz : Nat) (s : State) : Out :=
  let d := if mhz < cclkMhz then cclkMhz - mhz else mhz - cclkMhz
  if cclkMhz < d * 100 then .next (record s 3 0x13 0x22 none mhz 0) else .next s

end Sys2Proof.Machine
end

