-- ==== Sys2Proof/Machine/Psm.lean ====
section
/-! DEFINITION. Parcels, shares and pre-emption (R534-R560): PARCEL_SET and its install, SHARE_SET, the T1
save and restore, MODEL_SWITCH, and the STREAM fills and frame grants that a switch waits for. -/

namespace Sys2Proof.Machine

open Sys2Proof

/-! ### Commands in progress (check 6 of R537) -/

/-- Whether a command in progress touches one of the parcels or contexts. -/
def psmBusy (s : State) (parcels ctxs : List Nat) : Bool :=
  s.psm.ops.any fun o => o.parcels.any parcels.contains || o.ctxs.any ctxs.contains

/-- Contexts bound to a parcel. -/
def boundTo (s : State) (p : Nat) : List Nat := (List.range 64).filter fun c => parcelOf s c == p

/-- PARCEL_CONFLICT with a reason in DETAIL [31:28] (R538). -/
def conflictDetail (reason : Nat) : Nat := reason * 2 ^ 28

/-! ### PARCEL_SET (R536-R541) -/

/-- Operands of PARCEL_SET. -/
def psMode (m : Cmd) : Nat := m.at 4 1 % 4
def psParcel (m : Cmd) : Nat := m.at 5 1 % 16
def psCtx (m : Cmd) : Nat := m.at 6 1 % 64
def psChan (m : Cmd) : Nat := m.at 7 1
def psWay (m : Cmd) : Nat := m.at 8 2
def psClusters (m : Cmd) : Nat := m.at 16 16

/-- Check 1 of R537: the first byte that is not in order. -/
def parcelSetFault (m : Cmd) : Option Nat :=
  let mode := psMode m
  let late := match firstNonzero m.bytes 10 6 with
    | some b => some b
    | none =>
      if mode ≠ 0 && psClusters m ≠ 0 then some 16 else firstNonzero m.bytes 32 16
  if 4 ≤ m.at 4 1 || mode = 3 then some 4
  else if 16 ≤ m.at 5 1 || (mode ≠ 1 && psParcel m = 0) then some 5
  else if 64 ≤ m.at 6 1 || (mode ≠ 1 && m.at 6 1 ≠ 0) then some 6
  else if mode ≠ 0 && psChan m ≠ 0 then some 7
  else if mode ≠ 0 && psWay m ≠ 0 then some 8
  else late

/-- CHAN_SHIFT (R485). -/
def chanShift (s : State) : Nat := regFld s 0x700000 20 16

/-- Check 2 of R537. -/
def defineFault (s : State) (m : Cmd) : Option Nat :=
  let many := decide (8 < Config.memStacks)
  let chanBad := decide (psChan m ≠ 0) && (many || decide (chanShift s < 16) || decide (30 < chanShift s))
  if psClusters m = 0 || 2 ^ Config.numRex ≤ psClusters m then some 16
  else if chanBad then some 7
  else if psWay m ≠ 0 && many then some 8
  else none

/-- The clusters that a parcel holds, or will hold once its DEFINE in progress is installed (R534). -/
def heldMask (s : State) (p : Nat) : Nat :=
  let defs := s.psm.ops.filter fun o => o.kind == 0 && psMode o.cmd == 0 && psParcel o.cmd == p
  defs.foldl (fun n o => n ||| psClusters o.cmd) (parcelMask s p)

/-- Check 4 of R537: the lowest cluster of a DEFINE that another parcel holds. -/
def heldCluster (s : State) (m : Cmd) : Option Nat :=
  (clustersOf (psClusters m)).find? fun k =>
    (rangeFrom 1 15).any fun p => p != psParcel m && bitAt (heldMask s p) k

/-- What an accepted PARCEL_SET touches: parcels and contexts. -/
def psTouches (s : State) (m : Cmd) : List Nat × List Nat :=
  let p := psParcel m
  if psMode m = 0 then ([p], boundTo s p)
  else if psMode m = 1 then ([p, parcelOf s (psCtx m)].filter fun q => q != 0, [psCtx m])
  else ([p], [])

/-- The checks of R537 in order: the status and DETAIL of the first that fails. -/
def parcelCheck (s : State) (m : Cmd) : Option (Nat × Nat) :=
  let p := psParcel m
  let defined := thas s.psm.parcels p
  match parcelSetFault m with
  | some b => some (0x10, b)
  | none =>
    match (if psMode m = 0 then defineFault s m else none) with
    | some b => some (0x10, b)
    | none =>
      if psMode m ≠ 0 && p ≠ 0 && !defined then some (0x10, 5)
      else match (if psMode m = 0 then heldCluster s m else none) with
        | some k => some (0x1D, conflictDetail 1 + k)
        | none =>
          if psMode m = 2 && !(boundTo s p).isEmpty then some (0x1D, conflictDetail 2)
          else
            let t := psTouches s m
            if psmBusy s t.1 t.2 then some (0x1D, conflictDetail 4) else none

/-- The clusters that a PARCEL_SET takes from a context (R538). -/
def leaving (s : State) (m : Cmd) (c : Nat) : Nat :=
  let old := parcelMask s (parcelOf s c)
  let new := if psMode m = 0 then psClusters m else if psMode m = 1 then parcelMask s (psParcel m) else old
  (clustersOf old).foldl (fun n k => if bitAt new k then n else n + 2 ^ k) 0

/-- The cluster of a command's place. -/
def runCluster (x : Run) : Nat := if x.kind = 3 then x.core else x.core / 32

/-- Whether a command is running or staged, or on its way to a place that RDY chose, on a leaving cluster
(step 2 of R539). -/
def onLeaving (c mask : Nat) (x : Run) : Bool :=
  x.ctx == c && x.killed.isNone && bitAt mask (runCluster x) &&
  ((1 ≤ x.state && x.state ≤ 3) || (x.state == 0 && (x.staged || x.mapped.isSome)))

/-- A context is racked (steps 1 and 2 of R539): its leaving clusters are closed, and its commands on them
are killed. -/
def rackCtx (m : Cmd) (acc : State × List Nat) (c : Nat) : State × List Nat :=
  let (s, ids) := acc
  let mask := leaving s m c
  if mask = 0 then acc
  else
    let s := { s with psm := { s.psm with closed := tput s.psm.closed c mask } }
    let s := setRegBit s (psmCtx c + 0xC) 30 true
    let mine := victims s (onLeaving c mask)
    let s := mine.foldl (fun s id => killRun s id 1) s
    let s := if mine.isEmpty then s else addReg (setRegBit s 0x800000 29 true) (psmCtx c + 0x3C) 1
    (s, ids ++ mine)

/-- Step 4 of R539: the new cluster set, binding and masks. -/
def installParcel (s : State) (o : PsmOp) : State :=
  let m := o.cmd
  let p := psParcel m
  let psm := s.psm
  let psm :=
    if psMode m = 0 then
      let x : Parcel := { clusters := psClusters m, chanMask := psChan m, wayMask := psWay m }
      { psm with parcels := tput psm.parcels p x }
    else if psMode m = 1 then
      { psm with bound := if p = 0 then tdel psm.bound (psCtx m) else tput psm.bound (psCtx m) p }
    else { psm with parcels := tdel psm.parcels p }
  { s with psm := { psm with
      closed := o.ctxs.foldl (fun t c => tdel t c) psm.closed
      ops := psm.ops.erase o } }

/-- The ledger words of an image's tasks are compared as they are read (R614). -/
def checkLedgers (s : State) (img : Img) : State :=
  (List.range img.tasks).foldl (fun s r => checkLedger s img.ctx (physTask img r)) s

/-- The lowest physical task of an image that has not committed (R540). -/
def firstLeft (s : State) (img : Img) : Nat :=
  let l := ((List.range img.tasks).map fun r => physTask img r).filter fun t => !isDone s t
  l.foldl min (l.headD 0)

/-- R540: the running steps of an affected context that no longer fit its parcel are torn down. -/
def recheckSteps (s : State) (ctxs : List Nat) : State :=
  s.tge.steps.foldl (fun s e =>
    match imgOf s e.1 with
    | none => s
    | some img =>
      if ctxs.contains img.ctx && e.2.phase ≠ 0 && e.2.phase ≠ 3 && parcelFault s e.2 img then
        ask (checkLedgers s img) (.teardown e.1 11 (firstLeft s img) 11)
      else s) s

/-- The install of a PARCEL_SET and its completion (steps 4 and 5 of R539). -/
def finishParcel (s : State) (o : PsmOp) : State :=
  completeOk (recheckSteps (installParcel s o) o.ctxs) o.cmd o.killed

/-- Whether the install of a PARCEL_SET need wait no longer: every killed command has ended, and no context
that it touches is in recovery (R539, R623). -/
def parcelDone (s : State) (o : PsmOp) : Bool :=
  o.kind == 0 && o.await.all (fun r => (runOf s r).isNone) && o.ctxs.all fun c => !thas s.saf.recov c

/-- An accepted PARCEL_SET (R539). -/
def acceptParcel (s : State) (m : Cmd) : State :=
  let t := psTouches s m
  let (s, ids) := t.2.foldl (rackCtx m) (acceptCritical s m, [])
  let running := ids.filter fun r => match runOf s r with | some x => x.state == 2 || x.state == 3 | none => false
  let o : PsmOp :=
    { cmd := m, kind := 0, ctxs := t.2, parcels := t.1, killed := ids.length, await := running }
  let s := { s with psm := { s.psm with ops := s.psm.ops ++ [o] } }
  settle (if parcelDone s o then finishParcel s o else s)

/-- A PARCEL_SET of a mode is checked, and accepted or refused. -/
def parcelSet (mode : Nat → Bool) (s : State) : Out :=
  match waitingCritical s 0x0500 with
  | none => .next s
  | some m =>
    if !mode (psMode m) then .next s
    else match parcelCheck s m with
      | some (status, detail) => .next (refuseCritical s m status detail)
      | none => .next (acceptParcel s m)

/-- PARCEL_DEFINE; the reserved MODE is refused here too. -/
def execParcelDefine (s : State) : Out := parcelSet (fun k => k == 0 || k == 3) s

/-- PARCEL_BIND. -/
def execParcelBind (s : State) : Out := parcelSet (fun k => k == 1) s

/-- PARCEL_DISSOLVE. -/
def execParcelDissolve (s : State) : Out := parcelSet (fun k => k == 2) s

/-- PARCEL_INSTALL: once every killed command has ended, the first PARCEL_SET that need wait no longer is
installed and completes (R539, R540). -/
def execParcelInstall (s : State) : Out :=
  match s.psm.ops.find? fun o => parcelDone s o with
  | none => .next s
  | some o => .next (settle (finishParcel s o))

/-! ### Shares (R543) -/

/-- A shadow value written: it is offered at the boundary that R23 gives for its arrival stamp. -/
def offerShadow (s : State) (off v : Nat) : State :=
  let x : Shadow := { off := off, stamp := s.gtb.now, v := v }
  { setReg s off v with mgc := { s.mgc with offers := s.mgc.offers ++ [x] } }

/-- The operand checks of SHARE_SET. -/
def shareFault (m : Cmd) : Option Nat :=
  if 64 ≤ m.at 4 1 then some 4
  else match firstNonzero m.bytes 5 3 with
    | some b => some b
    | none => match firstNonzero m.bytes 10 38 with
      | some b => some b
      | none => if m.at 8 2 = 0 then some 8 else none

/-- SHARE_SET: the context's weight goes to its shadow (R543). -/
def execShareSet (s : State) : Out :=
  match waitingCritical s 0x0501 with
  | none => .next s
  | some m =>
    match shareFault m with
    | some b => .next (refuseCritical s m 0x10 b)
    | none =>
      let s := offerShadow (acceptCritical s m) (psmCtx (m.at 4 1) + 4) (m.at 8 2)
      let tick := if regBit s 0x980008 0 then 2 ^ 64 - 1 else s.gtb.now / policyTick + 1
      .next (completeOk s m tick)

/-! ### Pre-emption (R552) -/

/-- A context is pre-empted: every uncommitted command is killed with cause PREEMPT. -/
def preempt (s : State) (c : Nat) : State :=
  let mine := victims s fun x => x.ctx == c && x.killed.isNone
  let s := setRegBit (setRegBit s 0x800000 28 true) (psmCtx c + 0xC) 31 true
  let s := mine.foldl (fun s id => killRun s id 1) s
  if mine.isEmpty then s else addReg s (psmCtx c + 0x3C) 1

/-! ### T1 (R555-R557) -/

/-- IMAGE_ID and TASK of CTX_SAVE and CTX_RESTORE; TASK 0x1_FFFF is none. -/
def t1Image (m : Cmd) : Nat := m.at 4 1 % 16
def t1Task (m : Cmd) : Nat := m.at 8 4 % 2 ^ 17

/-- A reserved bit of a T1 command's operands: check 1 of R555. -/
def t1Reserved (m : Cmd) : Option Nat :=
  if 16 ≤ m.at 4 1 then some 4
  else match firstNonzero m.bytes 5 3 with
    | some b => some b
    | none =>
      if 2 ≤ m.at 10 1 then some 10
      else firstNonzero m.bytes 11 37

/-- Check 2 of R555, when TASK is given. -/
def t1Operand (s : State) (m : Cmd) : Option (Nat × Nat) :=
  if t1Task m = 0x1FFFF then none
  else match findImg s m.ctx (t1Image m) with
    | none => some (0x10, 4)
    | some (_, img) =>
      if img.state ≠ 1 then some (0x10, 4)
      else
        let d := descOf s (physTask img (t1Task m))
        if img.tasks ≤ t1Task m || tdKind d ≠ 0 || tdEngKind d ≠ 2 then some (0x10, 8)
        else if parcelOf s m.ctx = 0 then some (0x0F, 0xB0000000)
        else none

/-- The checks of R555 in order. -/
def t1Check (s : State) (m : Cmd) (need : Nat) : Option (Nat × Nat) :=
  match t1Reserved m with
  | some b => some (0x10, b)
  | none => match t1Operand s m with
    | some e => some e
    | none =>
      if t1State s m.ctx ≠ need then some (0x1D, conflictDetail 3)
      else if psmBusy s ([parcelOf s m.ctx].filter fun p => p != 0) [m.ctx] then some (0x1D, conflictDetail 4)
      else none

/-- The cores of a context's parcel that have not FAILED. -/
def t1Cores (s : State) (c : Nat) : List Nat :=
  ((clustersOf (parcelMask s (parcelOf s c))).map fun k => rangeFrom (k * 32) 32).flatten.filter
    fun n => !(coreOf s n).failed

/-- Step 3 of R556: one run of TASK on the lowest-index DMA engine of each core. -/
def startT1 (s : State) (m : Cmd) (kind : Nat) : State :=
  let p := [parcelOf s m.ctx].filter fun p => p != 0
  let go := fun n : Nat =>
    let o : PsmOp := { cmd := m, kind := kind, ctxs := [m.ctx], parcels := p, left := n }
    { s with psm := { s.psm with ops := s.psm.ops ++ [o] } }
  match (if t1Task m = 0x1FFFF then none else findImg s m.ctx (t1Image m)) with
  | none => go 0
  | some (i, img) =>
    let t := physTask img (t1Task m)
    let cores := t1Cores s m.ctx
    cores.foldl (fun s n =>
      pushReady s { readyEntry s i m.ctx t none none with prio := 0, home := fieldOfCore n, t1 := some n })
      (go cores.length)

/-- The context's T1 state set. -/
def setT1 (s : State) (c v : Nat) : State := { s with psm := { s.psm with t1 := tput s.psm.t1 c v } }

/-- CTX_SAVE (R556). -/
def execCtxSave (s : State) : Out :=
  match popUnit s fun m => m.opcode == 0x0502 with
  | none => .next s
  | some (m, s) =>
    match t1Check s m 0 with
    | some (status, detail) => .next (completeWith s m status detail)
    | none => .next (settle (startT1 (preempt (setT1 s m.ctx 1) m.ctx) m 1))

/-- CTX_RESTORE (R557). -/
def execCtxRestore (s : State) : Out :=
  match popUnit s fun m => m.opcode == 0x0503 with
  | none => .next s
  | some (m, s) =>
    match t1Check s m 2 with
    | some (status, detail) => .next (completeWith s m status detail)
    | none => .next (settle (startT1 (setT1 s m.ctx 3) m 2))

/-! ### MODEL_SWITCH (R558, R559) -/

/-- MODEL_ID and ADOPT of MODEL_SWITCH. -/
def msModel (m : Cmd) : Nat := m.at 6 2
def msAdopt (m : Cmd) : Bool := bitAt (m.at 5 1) 0

/-- Whether a context has a running step, a pending launch or an open serving context. -/
def ctxInUse (s : State) (c : Nat) : Bool :=
  (s.tge.steps.any fun e => match imgOf s e.1 with | some x => x.ctx == c | none => false) ||
  (s.tge.imgs.any fun e => e.2.ctx == c && e.2.pending.isSome) ||
  (s.sls.srv.any fun e => e.2.ctx == c && e.2.state != 0)

/-- An image of a context in use (R203): of a running step, else of a pending launch, else of the serving
context; its image ID. -/
def busyImage (s : State) (c : Nat) : Nat :=
  let of := fun e : Nat × Img => e.2.ctx == c && ((stepOf s e.1).isSome || e.2.pending.isSome)
  match s.tge.imgs.find? of with
  | some e => e.2.id
  | none =>
    match s.sls.srv.find? fun e => e.2.ctx == c && e.2.state != 0 with
    | some e => match imgOf s e.2.img with | some x => x.id | none => 0
    | none => 0

/-- Check 3 of R558: the STREAM region that RGN names. -/
def msRegion (s : State) (m : Cmd) : Option Region :=
  match regionOf s m.ctx (m.at 4 1 % 16) with
  | some g => if g.kind = 2 then some g else none
  | none => none

/-- The checks of R558 in order. GRAPH_IN_USE names in DETAIL the image of the lowest context in use (DESIGN
CHOICE, log entry 39: several may be). -/
def switchCheck (s : State) (m : Cmd) : Option (Nat × Nat) :=
  let fills := !msAdopt m && decide (msModel m ≠ 0)
  let other := fun c : Nat =>
    c == m.ctx || (decide (tget 0 s.psm.model c ≠ 0) && decide (tget 0 s.psm.model c ≠ msModel m))
  if 16 ≤ m.at 4 1 then some (0x10, 4)
  else if 2 ≤ m.at 5 1 then some (0x10, 5)
  else match firstNonzero m.bytes 8 40 with
    | some b => some (0x10, b)
    | none =>
      if msAdopt m && decide (msModel m ≠ s.psm.resident) then some (0x1E, 0)
      else if fills && (msRegion s m).isNone then some (0x10, 4)
      else if fills && ((List.range 64).any fun c => other c && ctxInUse s c) then
        some (0x14, match (List.range 64).find? fun c => other c && ctxInUse s c with
          | some c => busyImage s c
          | none => 0)
      else if psmBusy s [] [m.ctx] then some (0x1D, conflictDetail 4)
      else none

/-- The unmapped pages of a region, in ascending address. -/
def unmappedPages (s : State) (c : Nat) (g : Region) : List Nat :=
  ((List.range (g.size / pageBytes g.large)).map fun k => g.base / 65536 + k * frameSize g.large).filter
    fun v => (mapOf s c v).isNone

/-- Fills of a switch that are outstanding. -/
def switchFills (s : State) (c : Nat) : List Nat :=
  (s.pat.fills.filter fun f => f.switch && f.ctx == c).map fun f => f.vpn

/-- The fills of a switch go on: in ascending address, up to 64 outstanding (R559). -/
def topUp (c : Nat) (g : Region) : List Nat → State → State
  | [], s => s
  | v :: vs, s =>
    if 64 ≤ (switchFills s c).length then s
    else if (switchFills s c).contains v then topUp c g vs s
    else if filling s c v then
      topUp c g vs { s with pat := { s.pat with
        fills := modWhere (fun f => f.ctx == c && f.vpn == v) (fun f => { f with switch := true }) s.pat.fills } }
    else match startFill s c v g none true false with
      | some s => topUp c g vs s
      | none => noteWait s c (frameSize g.large)

/-- A switch that has ended leaves PSM; SWITCHING goes with the last one. -/
def endSwitch (s : State) (o : PsmOp) : State :=
  let ops := s.psm.ops.erase o
  { s with
    psm := { s.psm with ops := ops, switching := ops.any fun o => o.kind == 3 }
    pat := { s.pat with
      fills := modWhere (fun f => f.ctx == o.cmd.ctx) (fun f => { f with switch := false }) s.pat.fills } }

/-- The context's MODEL_ID set. -/
def setModel (s : State) (c v : Nat) : State :=
  { s with psm := { s.psm with model := if v = 0 then tdel s.psm.model c else tput s.psm.model c v } }

/-- A switch completes, fails, or issues the fills that it may (R559). -/
def switchOne (s : State) (o : PsmOp) : State :=
  let m := o.cmd
  if o.limit then completeWith (endSwitch s o) m 0x1E 4
  else if o.pages.isEmpty then
    let s := setModel (endSwitch s o) m.ctx (msModel m)
    completeOk { s with psm := { s.psm with resident := msModel m } } m o.filled
  else match msRegion s m with
    | some g => topUp m.ctx g o.pages s
    | none => completeWith (endSwitch s o) m 0x1E 4

/-- Every switch in progress goes on. -/
def switchOn (s : State) : State := (s.psm.ops.filter fun o => o.kind == 3).foldl switchOne s

/-- MODEL_SWITCH. -/
def execModelSwitch (s : State) : Out :=
  match popUnit s fun m => m.opcode == 0x0504 with
  | none => .next s
  | some (m, s) =>
    match switchCheck s m with
    | some (status, detail) => .next (completeWith s m status detail)
    | none =>
      if msAdopt m || msModel m = 0 then .next (completeOk (setModel s m.ctx (msModel m)) m 0)
      else
        let pages := match msRegion s m with | some g => unmappedPages s m.ctx g | none => []
        let o : PsmOp := { cmd := m, kind := 3, ctxs := [m.ctx], pages := pages }
        .next (switchOn { s with psm := { s.psm with
          ops := s.psm.ops ++ [o], resident := 0, switching := true } })

/-- STREAM_FILL_DONE: the oldest fill ends; a MODEL_SWITCH goes on or completes (R483, R559). -/
def execStreamFillDone (readOk : Bool) (s : State) : Out := .next (switchOn (fillDone readOk s))

/-- What waits for a unit's write: done records for that of their target (R365), a launch for the batch area and REQ_CONS
(R502, R518). -/
def afterWrites (s : State) : State := launchesOn (writeAllDones s)

/-- UNIT_WRITE: the oldest write of a unit that waits for a frame, and that no earlier one of its context holds
back, is tried again (R460, R478); what waits for it
follows. -/
def execUnitWrite (s : State) : Out :=
  match (headsOf s true).findSome? fun w => tryWait s w with
  | some s => .next (afterWrites s)
  | none => .next s

/-- FRAME_WAIT_GRANT: the first waiting request that can have its frame takes it, and a MODEL_SWITCH that
waits for frames goes on (R478, R559). -/
def execFrameWaitGrant (s : State) : Out :=
  .next (switchOn (afterWrites (frameGrant s)))

end Sys2Proof.Machine
end

