-- ==== Sys2Proof/Machine/Queues.lean ====
section
/-! DEFINITION. The software-visible queues (R32-R47): what they hold, a decant, and what follows when
differing pointers empty one (R42-R44 and the loss rules of the units). -/

namespace Sys2Proof.Machine

open Sys2Proof

/-- The queues inside the block: those that have a register set (R46), and the EFFECT and GRANT queues of a field,
its MESSAGE queues up and down, its TRACE queue and its CONFIG queues up and down (`cls` 0 to 4), the queue of a field
link, the ready lists' feed, and the trace buffers of core agents and REX units, which have none (R16, R651). -/
inductive QId where
  | hifFetch | hifCpl | cauIn | gldIn | tgeDec (b : Nat) | rdyDisp (f : Nat) | tmrIns | cagCpl (f : Nat)
  | cmtRel | synIn | synGnt | chnReg | chnPay | blqReg | blqDat | lnkOut (p : Nat) | rexIld
  | rexAq (u q : Nat) | patWb | patXlt (f : Nat) | slsAdv | psmAcc | mgcFwl | safRec | trcCel
  | trcFld (f : Nat) | effect (f : Nat) | grant (f : Nat) | trcSrc (src : Nat)
  | cls (f k : Nat) | fldLink (n : Nat) | rdyFeed
  deriving DecidableEq, Repr

/-- The place of an offset in an array of `n` register sets of stride `step`. -/
def arrayAt (off base step n : Nat) : Option Nat :=
  if base ≤ off && (off - base) % step = 0 && (off - base) / step < n then some ((off - base) / step) else none

/-- The queue whose QCTL lies at an offset of the window. -/
def queueAt (off : Nat) : Option QId :=
  if off = 0x100010 then some .hifFetch else if off = 0x100020 then some .hifCpl
  else if off = 0x180010 then some .cauIn else if off = 0x200010 then some .gldIn
  else if off = 0x380020 then some .tmrIns else if off = 0x480020 then some .cmtRel
  else if off = 0x500030 then some .synIn else if off = 0x500040 then some .synGnt
  else if off = 0x580020 then some .chnReg else if off = 0x580030 then some .chnPay
  else if off = 0x600020 then some .blqReg else if off = 0x600030 then some .blqDat
  else if off = 0x680010 then some .rexIld else if off = 0x700040 then some .patWb
  else if off = 0x780010 then some .slsAdv else if off = 0x800020 then some .psmAcc
  else if off = 0x980060 then some .mgcFwl else if off = 0xA00030 then some .safRec
  else if off = 0xA80030 then some .trcCel
  else match arrayAt off 0x280100 0x10 16 with
  | some b => some (.tgeDec b)
  | none => match arrayAt off 0x300100 0x10 8 with
  | some f => some (.rdyDisp f)
  | none => match arrayAt off 0x400100 0x10 8 with
  | some f => some (.cagCpl f)
  | none => match arrayAt off 0xB00400 0x10 Config.linkPorts with
  | some p => some (.lnkOut p)
  | none => match arrayAt off 0x6A0000 0x10 (4 * Config.numRex) with
  | some k => some (.rexAq (k / 4) (k % 4))
  | none => match arrayAt off 0x700100 0x10 8 with
  | some f => some (.patXlt f)
  | none => match arrayAt off 0xA80200 0x10 8 with
  | some f => some (.trcFld f)
  | none => none

/-- The queues without a register set, by numbers that stand beyond the window in place of a QCTL's offset: the trace
buffer of source k at 0xF00000 + 4 k, the EFFECT and GRANT queues of field f at 0xF10000 and 0xF20000 + 4 f, and its MESSAGE,
TRACE and CONFIG queues at 0xF30000 + 32 f and the four places after it; that of field link n at 0xF40000 + 4 n, and the
ready lists' feed at 0xF50000. -/
def hiddenAt (off : Nat) : Option QId :=
  match arrayAt off 0xF00000 4 (8192 + Config.numRex) with
  | some k => if k < Config.numCores || 8192 ≤ k then some (.trcSrc k) else none
  | none => match arrayAt off 0xF10000 4 8 with
  | some f => some (.effect f)
  | none => match arrayAt off 0xF20000 4 8 with
  | some f => some (.grant f)
  | none => match arrayAt off 0xF30000 4 64 with
  | some k => if k % 8 < 5 then some (.cls (k / 8) (k % 8)) else none
  | none => match arrayAt off 0xF40000 4 7 with
  | some n => some (.fldLink n)
  | none => if off = 0xF50000 then some .rdyFeed else none

/-- Whether a queue is a packet queue, which has a CUT_THRESH. -/
def QId.packet : QId → Bool
  | .hifFetch | .gldIn | .chnPay | .blqDat | .lnkOut _ | .rexIld | .rexAq _ _ | .mgcFwl => true
  | _ => false

/-- The capacity of a queue in items. -/
def QId.cap : QId → Nat
  | .hifFetch | .gldIn | .chnPay | .blqDat | .rexIld | .rexAq _ _ | .mgcFwl | .trcFld _ => 64
  | .cauIn => 8
  | .rdyDisp _ | .tmrIns => 16
  | .lnkOut _ => 2048
  | .trcCel => 1024
  | .trcSrc _ => 256
  | _ => 32

/-- Whether a commit that has passed its point still hands effects of a unit on. -/
def handsOn (s : State) (unit : Nat) : Bool :=
  s.disp.readyQ.any fun c => match c with
    | .runs ids => ids.any fun r => match runOf s r with
      | some x => x.effects.any fun e => e.unit == unit
      | none => false
    | .signal _ _ => false

/-- The offset of QCTL of a queue through which an image, firmware, releases, payloads or write-backs stream, while
they do. -/
def streaming (s : State) : QId → Option Nat
  | .gldIn => if s.tge.loads.isEmpty then none else some 0x200010
  | .cmtRel => if s.disp.readyQ.isEmpty then none else some 0x480020
  | .chnPay => if handsOn s 2 then some 0x580030 else none
  | .blqDat => if handsOn s 3 || s.blq.qs.any (fun e => !e.2.inQ.isEmpty) then some 0x600030 else none
  | .rexIld => if s.rex.imgs.any fun e => e.2.loading.isSome then some 0x680010 else none
  | .patWb => if s.disp.readyQ.isEmpty then none else some 0x700040
  | .mgcFwl => if s.mgc.loads.isEmpty then none else some 0x980060
  | _ => none

/-- The items that a queue holds. Of a queue that something streams through, how many of them stand in it between two
commands is a free value: the spec gives the source's and the reader's rates no relation (DESIGN CHOICE, log entry
38). So is it for the classes that carry payloads, increments and register accesses. Registrations,
requests and charges pass within the step that makes them and leave nothing behind. -/
def queueLen (s : State) (q : QId) : Nat :=
  match q with
  | .hifFetch => s.hif.fetchQ.length
  | .hifCpl => min 32 (cplLoad s)
  | .cauIn => s.cau.inQ.length
  | .tgeDec b => min 32 (s.tge.decQ.filter fun e => e.task % 16 == b).length
  | .rdyDisp f => (fieldOf s f).dispQ.length
  | .tmrIns => (insQueue s).length
  | .cagCpl f => (fieldOf s f).cplQ.length
  | .synIn => min 32 s.syn.newWaits.length
  | .synGnt => min 32 s.syn.grantQ.length
  | .lnkOut p => (portOf s p).out.length
  | .rexAq u k => (aqOf (unitOf s u) k).length
  | .safRec => s.saf.recQ.length
  | .trcCel => s.trc.celQ.length
  | .trcFld f => cdivN (tget [] s.trc.fldQ f).length 4
  | .effect f => (fieldOf s f).effQ.length
  | .grant f => (fieldOf s f).grantQ.length
  | .trcSrc src => (tget [] s.trc.bufs src).length
  | .cls f k => Config.freeCell s.fresh (0xF30000 + 32 * f + 4 * k) % 33
  | .fldLink n => Config.freeCell s.fresh (0xF40000 + 4 * n) % 33
  | q => match streaming s q with
    | some off => Config.freeCell s.fresh off % (q.cap + 1)
    | none => 0

/-- The list without the first `n` elements that `p` holds of. -/
def dropWhere {α : Type} (p : α → Bool) : Nat → List α → List α
  | 0, l => l
  | _ + 1, [] => []
  | n + 1, a :: l => if p a then dropWhere p n l else a :: dropWhere p (n + 1) l

/-- A flush no longer waits for the records that a trace queue has lost. -/
def forgetFlush (s : State) (k : Nat) : State :=
  { s with trc := { s.trc with flushes := s.trc.flushes.map fun e => (e.1, tdel e.2 k) } }

/-- A queue empties itself (R38). -/
def emptyQueue (s : State) (q : QId) : State :=
  match q with
  | .hifFetch => { s with hif := { s.hif with fetchQ := [] } }
  | .hifCpl => { s with hif := { s.hif with cplQ := dropWhere (writable s) 32 s.hif.cplQ } }
  | .cauIn => { s with cau := { s.cau with inQ := [], passed := false, enrol := false, newKey := [] } }
  | .tgeDec b => { s with tge := { s.tge with decQ := dropWhere (fun e : Dec => e.task % 16 == b) 32 s.tge.decQ } }
  | .rdyDisp f => setField s f { fieldOf s f with dispQ := [] }
  | .tmrIns => { s with disp := { s.disp with ready := s.disp.ready.filter fun r => !r.due.isSome || r.parked } }
  | .cagCpl f => setField s f { fieldOf s f with cplQ := [] }
  | .synIn => { s with syn := { s.syn with newWaits := s.syn.newWaits.drop 32 } }
  | .synGnt => { s with syn := { s.syn with grantQ := s.syn.grantQ.drop 32 } }
  | .lnkOut p =>
    let s := (portOf s p).out.foldl (fun s f => flitGone s p f) s
    setPort s p { portOf s p with out := [] }
  | .rexAq u k => modUnit s u fun y => { setAq y k [] with arriving := y.arriving.filter fun q => q != k }
  | .safRec => { s with saf := { s.saf with recQ := [] } }
  | .trcCel => forgetFlush { s with trc := { s.trc with celQ := [] } } 16392
  | .trcFld f => forgetFlush { s with trc := { s.trc with fldQ := tdel s.trc.fldQ f } } (16384 + f)
  | .trcSrc src => forgetFlush { s with trc := { s.trc with bufs := tdel s.trc.bufs src } } src
  | .effect f => setField s f { fieldOf s f with effQ := [] }
  | .grant f => setField s f { fieldOf s f with grantQ := [] }
  | _ => { s with fresh := s.fresh + 1 }

/-- Whether a queue's consumer may have begun an item that stands in it: one of a queue that something streams through,
or an item that a REX reads by cut-through (R33). -/
def mayCut (s : State) (q : QId) : Bool :=
  match q with
  | .rexAq u k => (unitOf s u).arriving.contains k
  | q => (streaming s q).isSome

/-- Whether emptying a queue cuts an item that its consumer has begun: a critical command under check, or, by a free
choice, one that `mayCut` finds (DESIGN CHOICE, log entry 38). -/
def cutsItem (s : State) (q : QId) : Bool :=
  (q == .cauIn && s.cau.passed) ||
  (mayCut s q && decide (0 < queueLen s q) && Config.freeNat s.fresh % 2 == 1)

/-- Items of an interlocked LDQ find the places that emptying a data queue has made (R452). -/
def afterEmpty (s : State) (q : QId) : State :=
  match q with
  | .rexAq u _ =>
    if (unitOf s u).late.isEmpty then s
    else settle (rexDrained (modUnit s u fun y => takeLate y.late y) u)
  | _ => s

/-- The TRACE_CTL commands that wait for nothing any more end. -/
def endEmptied (s : State) : State := endFlushes s.trc.flushes.length s

/-- A write of QCTL (R38-R40, R46): CUT_THRESH is RWL in a packet queue; DECANT empties the queue and
counts a cut item. -/
def writeQctl (s : State) (off w : Nat) (locked : Bool) : State :=
  match queueAt off with
  | none => s
  | some q =>
    let s := if q.packet && !locked then setRegFld s off 15 0 w else s
    if bitAt w 31 then
      let cut := cutsItem s q
      let s := endEmptied (afterEmpty (emptyQueue s q) q)
      if cut then queueAbandon s off else s
    else s

/-- DECANT: a write of a queue's QCTL. -/
def execDecant (off : Nat) (w : Word) (s : State) : Out :=
  .next (writeQctl s off w.toNat (setupDone s))

/-! ### Differing pointers -/

/-- Every context with an uncommitted command. -/
def liveCtxs (s : State) : List Nat :=
  (List.range 64).filter fun c => s.disp.runs.any fun e => e.2.ctx == c && !e.2.committed

/-- The rings of lost descriptors fetch again from their first lost one (R159, R180). -/
def refetchLost (s : State) (lost : List Cmd) : State :=
  let rings := (lost.map fun m => (m.ctx, m.ring)).eraseDups
  rings.foldl (fun s e =>
    match lost.find? fun m => m.ctx == e.1 && m.ring == e.2 with
    | some m => loseFrom s e.1 e.2 m.seq m.uid
    | none => s) s

/-- The unit code of a queue's record (R624). -/
def QId.unit : QId → Nat
  | .hifFetch | .hifCpl => 0x01
  | .cauIn => 0x02
  | .gldIn => 0x03
  | .tgeDec _ => 0x04
  | .rdyDisp _ => 0x05
  | .tmrIns => 0x06
  | .cagCpl _ | .effect _ | .grant _ => 0x07
  | .cmtRel => 0x08
  | .synIn | .synGnt => 0x09
  | .chnReg | .chnPay => 0x0A
  | .blqReg | .blqDat => 0x0B
  | .rexIld | .rexAq _ _ => 0x0C
  | .patWb | .patXlt _ => 0x0D
  | .slsAdv => 0x0E
  | .psmAcc => 0x0F
  | .mgcFwl => 0x12
  | .safRec => 0x13
  | .trcCel | .trcFld _ | .trcSrc _ => 0x14
  | .cls _ k => if k ≤ 1 then 0x0A else if k = 2 then 0x14 else 0x07
  | .fldLink _ => 0x0A
  | .rdyFeed => 0x05
  | .lnkOut _ => 0x15

/-- Whether a queue carries trace records (R44). -/
def QId.trace : QId → Bool
  | .trcCel | .trcFld _ | .trcSrc _ => true
  | _ => false

/-- A sticky flag set where items were lost. -/
def flagIf (s : State) (b : Bool) (off i : Nat) : State := if b then setRegBit s off i true else s

/-- What follows when a queue has lost what it held (increments that a TRACE class loses set CNT_LOSS, R655): `s` is the state after it emptied itself, `old` the
one before. -/
def afterLoss (old s : State) (q : QId) : State :=
  let held := decide (0 < queueLen old q)
  match q with
  | .hifFetch => refetchLost (flagIf s held 0x100004 0) old.hif.fetchQ
  | .hifCpl =>
    let s := flagIf s held 0x100004 1
    { s with hif := { s.hif with cplQ := old.hif.cplQ } }
  | .cauIn => refetchLost (flagIf s held 0x100004 0) old.cau.inQ
  | .gldIn => flagIf s held 0x200000 2
  | .tgeDec b =>
    if held then decLoss (setRegBit s 0x280000 2 true) 0x04 b (liveCtxs s ++ stepCtxs s).eraseDups else s
  | .rdyDisp f => lossKills s (ctxsInField old f fun k => k ≤ 3)
  | .tmrIns => if held then decLoss (setRegBit s 0x380000 29 true) 0x06 16 (stepCtxs s) else s
  | .cagCpl f => lossKills s (ctxsInField old f fun k => k == 3 || k == 4)
  | .cmtRel => flagIf s held 0x480000 31
  | .synIn | .chnReg | .blqReg => lossKills s allCtxs
  | .synGnt =>
    let s := flagIf s held 0x500004 24
    { s with syn := { s.syn with grantQ := old.syn.grantQ } }
  | .chnPay => flagIf s held 0x580000 28
  | .blqDat => flagIf s held 0x600000 28
  | .lnkOut p =>
    let n := (portOf old p).out.length + (portOf s p).out0.length
    if !held then s
    else
    let s := setPort s p (refill0 { portOf s p with out0 := [] })
    record (setRegBit (addReg s (0xB0010C + p * 0x10) n) 0xB00000 31 true) 2 0x15 0x50 none p n
  | .rexIld => flagIf s held 0x680004 3
  | .rexAq u _ => match (unitOf s u).run.bind fun r => runOf s r with
    | some x => lossKills s [x.ctx]
    | none => s
  | .patWb => flagIf s held 0x700004 26
  | .patXlt f => lossKills s (ctxsInField old f fun k => k == 1 || k == 2 || k == 3)
  | .slsAdv => lossKills s ((s.sls.srv.filter fun e => e.2.state != 0).map fun e => e.2.ctx)
  | .psmAcc => if (chargedCtxs s).isEmpty then s else accLoss s
  | .mgcFwl => flagIf s held 0x980004 25
  | .safRec =>
    let n := old.saf.recQ.length
    if n = 0 then s else setRegBit (addReg s 0xA0000C n) 0xA00004 27 true
  | .trcCel => dueCel { s with trc := { s.trc with celLost := old.trc.celLost + old.trc.celQ.length } }
  | .trcFld f =>
    let n := (tget [] old.trc.fldQ f).length
    let k := 16384 + f
    if n = 0 then s
    else dueField { s with trc := { s.trc with lost := tput s.trc.lost k (tget 0 s.trc.lost k + n) } } f
  | .trcSrc src =>
    let n := (tget [] old.trc.bufs src).length
    if n = 0 then s
    else dueSrc (addReg { s with trc := { s.trc with
      lost := tput s.trc.lost src (tget 0 s.trc.lost src + n) } } 0xA8001C n) src
  | .effect f | .grant f => lossKills s (ctxsInField old f fun k => k ≤ 4)
  | .cls _ k => flagIf s (held && k == 2) 0xA80000 24
  | .fldLink _ => s
  | .rdyFeed => lossKills s allCtxs

/-- The QUEUE_PTR record of a queue: for information where it carries trace records. -/
def ptrRecord (s : State) (q : QId) (detail : Nat) : State :=
  record s (if q.trace then 0 else 1) q.unit 0x03 none detail 0

/-- Differing pointers of a queue (R42): it empties itself, PTR_MISMATCH is set, a record goes to SAF, and
its unit's loss handling follows. -/
def ptrMismatch (s : State) (off : Nat) (q : QId) : State :=
  let t := setRegBit (emptyQueue s q) (off + 4) 31 true
  let t := if cutsItem s q then queueAbandon t off else t
  afterLoss s (ptrRecord t q (off % 0x80000)) q

/-- Differing pointers of a queue that has no register set: it has no PTR_MISMATCH to show, and the DETAIL of its
record, which names a QCTL, is a free value (DESIGN CHOICE, log entry 38). -/
def hiddenMismatch (s : State) (q : QId) : State :=
  let (d, t) := draw (emptyQueue s q)
  afterLoss s (ptrRecord t q (Config.freeNat d % 0x80000)) q

/-- QUEUE_PTR_MISMATCH: the duplicated pointers of the queue whose QCTL is at `off`, or that `hiddenAt` numbers so,
differ (R41, R42). -/
def execQueuePtrMismatch (off : Nat) (s : State) : Out :=
  match queueAt off, hiddenAt off with
  | some q, _ => .next (endEmptied (settle (ptrMismatch s off q)))
  | none, some q => .next (endEmptied (settle (hiddenMismatch s q)))
  | none, none => .next s

end Sys2Proof.Machine
end

