-- ==== Sys2Proof/Machine/SynCmds.lean ====
section
/-! DEFINITION. The commands of SYN: host operations, waits of commands, materialisation, cross-chip barriers,
SYNC_FORCE, SYNC_DUMP, the release of a context and the diagnostic reads (R296-R298, R303-R339, R658-R661). -/

namespace Sys2Proof.Machine

open Sys2Proof

/-! ### Host operations (R305-R310) -/

/-- SYNC_SIGNAL. -/
def execSyncSignal (s : State) : Out := .next (settle (hostSync 0x0200 s))

/-- SYNC_SIGNAL_TO. -/
def execSyncSignalTo (s : State) : Out := .next (settle (hostSync 0x0201 s))

/-- SYNC_WAIT. -/
def execSyncWait (s : State) : Out := .next (settle (hostSync 0x0202 s))

/-- SYNC_DECREMENT. -/
def execSyncDecrement (s : State) : Out := .next (settle (hostSync 0x0203 s))

/-! ### Waits of commands (R303, R315, R319) -/

/-- A command's effect by its place. -/
def effAt (s : State) (r n : Nat) : Option (Run × Eff) :=
  (runOf s r).bind fun x => (x.effects[n]?).map fun e => (x, e)

/-- Whether the grant of a waiter has been delivered: no wake-up of it is on its way. -/
def delivered (s : State) (w : Nat) : Bool :=
  s.disp.fields.all fun f => f.2.grantQ.all fun i => match i with
    | .wake _ v _ => v != w
    | .kill _ | .resp _ => true

/-- Whether a command has a wait outstanding: its entry is held until its grant is delivered (R315). -/
def waitOut (s : State) (r : Nat) : Bool :=
  (s.syn.waiters.any fun e => e.2.kind == 1 && e.2.run == r && !(e.2.granted && delivered s e.1)) ||
  s.syn.mats.any fun q => q.src == 1 && q.run == r &&
    (match effAt s r q.eff with
     | some (_, e) => (synEff e.data).op == 4 || (synEff e.data).op == 6
     | none => false)

/-- A refused wait is answered with a wake beat that says so (R335). -/
def refuseWait (s : State) (r n reason : Nat) : State :=
  match effAt s r n with
  | none => s
  | some (x, e) =>
    let p := synEff e.data
    let s := refuseEffect (registerEff s r n) x.ctx x.task p.vid reason p.op x.vint
    let (w, s) := newWaiter s
      { kind := 1, ctx := x.ctx, obj := 0, units := 0, tag := p.tag, run := r, granted := true,
        refused := reason, vid := p.vid, at_ := nowNs s }
    queueGrant (grantDown s x.field (.wake r w 0)) w

/-- A wait takes effect on its object: refused, granted or queued; at a frozen object it only queues (R309,
R313, R620). -/
def waitOn (s : State) (r n k : Nat) : State :=
  match effAt s r n with
  | none => s
  | some (x, e) =>
    let p := synEff e.data
    let (s, ok) := checkObj s k
    match objOf s k with
    | none => s
    | some o =>
      match waitFault o p with
      | some reason => refuseWait s r n reason
      | none =>
        let w : Waiter :=
          { kind := 1, ctx := x.ctx, obj := k, units := p.n, tag := p.tag, sense := p.sense, run := r }
        let s := registerEff s r n
        if ok then applyWait s k o w
        else
          let (i, s) := newWaiter s { w with vid := o.vid }
          modObj s k fun o =>
            if o.barrier || p.tag == 0 then { o with gq := o.gq ++ [i] } else { o with dq := o.dq ++ [i] }

/-- SYNC_WAIT_EFFECT: the oldest registered WAIT effect request takes effect, or waits for its object. -/
def execSyncWaitEffect (s : State) : Out :=
  match s.syn.newWaits with
  | [] => .next s
  | (r, n) :: rest =>
    let s := { s with syn := { s.syn with newWaits := rest } }
    match effAt s r n with
    | none => .next s
    | some (x, e) =>
      let vid := (synEff e.data).vid
      if waitOut s r then .next (settle (refuseWait s r n 2))
      else match matWaiting s x.ctx vid, findObj s x.ctx vid with
        | false, some k => .next (settle (waitOn s r n k))
        | _, _ =>
          let s := modRun s r fun y => { y with waiting := y.waiting ++ [n] }
          .next (pushMat s { src := 1, ctx := x.ctx, vid := vid, run := r, eff := n })

/-! ### Materialisation (R295-R297, R317) -/

/-- An operation that has its object goes on. -/
def applyMat (s : State) (q : MatReq) (k : Nat) : State :=
  match q.src, q.cmd with
  | 0, some m => applyHost s m k
  | 1, _ => match effAt s q.run q.eff with
    | none => s
    | some (_, e) =>
      let op := (synEff e.data).op
      if op = 4 || op = 6 then waitOn s q.run q.eff k else registerEff s q.run q.eff
  | _, _ => s

/-- An operation whose materialisation is refused: its command completes, its wait is answered, its effect is
refused at commit, or its launch fails (R295, R296, R317, R334, R335). -/
def refuseMat (s : State) (q : MatReq) (reason : Nat) : State :=
  match q.src, q.cmd with
  | 0, some m => refuseHost s m q.vid reason (hostOp m false).op
  | 1, _ => match effAt s q.run q.eff with
    | none => s
    | some (_, e) =>
      let op := (synEff e.data).op
      if op = 4 || op = 6 then refuseWait s q.run q.eff reason
      else registerEff (modEff s q.run q.eff fun e => { e with refused := reason }) q.run q.eff
  | _, _ => match stepOf s q.img, imgOf s q.img with
    | some st, some img => failLaunch s q.img st img 0x18 (reason + q.vid * 2 ^ 16) 1
    | _, _ => s

/-- Whether an operation waits where R297 stops its materialisation: a SYNC_WAIT or an effect request. -/
def matWaits (q : MatReq) : Bool :=
  q.src == 1 || (q.src == 0 && (match q.cmd with | some m => m.opcode == 0x0202 | none => false))

/-- An operation that R297 ends with SYNC_CAPACITY. -/
def capacityMat (s : State) (q : MatReq) : State :=
  match q.src, q.cmd with
  | 0, some m => completeWith s m 0x19 0
  | _, _ => match stepOf s q.img, imgOf s q.img with
    | some st, some img => failLaunch s q.img st img 0x19 0 1
    | _, _ => s

/-- The declaration read of an operation and its outcome; a read error refuses it (R296). -/
def tryMat (readOk : Bool) (s : State) (q : MatReq) : MatRes :=
  match findObj s q.ctx q.vid with
  | some k => .made k s
  | none =>
    if readOk then materialise s q.ctx q.vid
    else if sdtCount s q.ctx ≤ q.vid then .refused 1 else .refused 9

/-- The first waiting operation that can go on does: contexts in `held` are stopped by their quota, and
`all` says that no physical object is free for a later one (R297). -/
def matGo (readOk : Bool) : List MatReq → List Nat → Bool → State → State
  | [], _, _, s => s
  | q :: rest, held, all, s =>
    let drop := fun s : State => { s with syn := { s.syn with mats := s.syn.mats.erase q } }
    match tryMat readOk s q with
    | .made k t =>
      if matWaits q && (all || held.contains q.ctx) then matGo readOk rest held all s
      else applyMat (drop t) q k
    | .refused reason => refuseMat (drop s) q reason
    | .capacity quota =>
      let s := noteCapacity s q.ctx
      if matWaits q then matGo readOk rest (if quota then q.ctx :: held else held) (all || !quota) s
      else capacityMat (drop s) q

/-- OBJECT_MATERIALISE: the first waiting operation whose declaration has been read goes on. -/
def execObjectMaterialise (readOk : Bool) (s : State) : Out :=
  .next (settle (matGo readOk s.syn.mats [] false s))

/-! ### Acknowledged grants (R321) -/

/-- GRANT_ACK: the oldest delivered grant is acknowledged, and its waiter entry is free. -/
def execGrantAck (s : State) : Out :=
  match takeFirst (delivered s) s.syn.grantQ with
  | none => .next s
  | some (w, rest) => .next (dropWaiter { s with syn := { s.syn with grantQ := rest } } w)

/-! ### Cross-chip barriers (R325-R330) -/

/-- The XCHIP object of an XB_ID on this chip. -/
def xbObj (s : State) (xb : Nat) : Option (Nat × SynObj) :=
  s.syn.objA.find? fun e => e.2.xchip && fld e.2.init 23 12 == xb

/-- An early chip arrival kept, or lost with the table full (R327). -/
def keepEarly (s : State) (xb chip : Nat) (sense : Bool) : State :=
  let key := 2 * xb + b2n sense
  match tget? s.syn.early key with
  | some l => { s with syn := { s.syn with early := tput s.syn.early key (l ++ [chip]) } }
  | none =>
    if s.syn.early.length < 256 then { s with syn := { s.syn with early := tput s.syn.early key [chip] } }
    else
      let s := setRegFld s 0x500024 31 16 (satAdd 16 (regFld s 0x500024 31 16) 1)
      record (setRegBit s 0x500004 29 true) 2 0x09 0x54 none xb chip

/-- An operation on an object that may be frozen: what is discarded there is counted (R620). -/
def onLiveObj (s : State) (k : Nat) (f : State → State) : State :=
  let (s, ok) := checkObj s k
  if ok then f s else match frozenAt s k with
    | some i => countDrop s i
    | none => s

/-- CHIP_ARRIVE: a chip arrival flit at this chip (R326, R327). -/
def execChipArrive (p : Fin 16) (chip : Fin 4096) (xb : Fin 4096) (sense : Bool) (s : State) : Out :=
  let s := countRx s p 1
  match xbObj s xb with
  | none => .next (keepEarly s xb chip sense)
  | some (k, o) =>
    if isHome s o then .next (settle (onLiveObj s k fun s => takeArrival k xb sense s chip))
    else .next (misuseArrival s o.owner xb chip)

/-- A phase completes at its release; a LATE one is counted, and the release record carries its LATE mark and the Q
that holds (R116, R117, R329). The fields act on the wake-ups at the instant. -/
def releaseXb (s : State) (r : XbRelease) (late : Bool) : State :=
  onLiveObj s r.obj fun s =>
    let s := if late then setRegBit (countLate s true) 0x500004 26 true else s
    let s := { s with syn := { s.syn with released := s.syn.released ++ [{ r with late := late, q := gtbQ s }] } }
    completePhaseAt s r.obj 0 (nsUnits r.due)

/-- XB_RELEASE: a release flit at a member chip: it acts at its instant, or at once when that has come. One
whose SENSE is not that of the phase in which this chip has arrived has nothing to release. -/
def execXbRelease (p : Fin 16) (_chip : Fin 4096) (xb : Fin 4096) (sense : Bool) (t : BitVec 64) (s : State) : Out :=
  let s := countRx s p 1
  match xbObj s xb with
  | none => .next s
  | some (k, o) =>
    .next (settle (onLiveObj s k fun s =>
      if sense != o.sense || !o.chipArrived then s
      else
        let r : XbRelease := { obj := k, due := t.toNat }
        if nsUnits t.toNat ≤ s.gtb.now then releaseXb s r true
        else { s with syn := { s.syn with releases := s.syn.releases ++ [r] } }))

/-- BARRIER_RELEASE_INSTANT: the earliest release instant comes, and each phase due completes, in the order of the
instants (R102, R329). -/
def execBarrierReleaseInstant (s : State) : Out :=
  match s.syn.releases with
  | [] => .next s
  | r :: rs =>
    let t := nsUnits (rs.foldl (fun m q => min m q.due) r.due)
    let s := advanceTo t s
    let due := sortBy (fun a b : XbRelease => decide (a.due ≤ b.due))
      (s.syn.releases.filter fun q => nsUnits q.due ≤ s.gtb.now)
    let s := { s with syn := { s.syn with
      releases := s.syn.releases.filter fun q => !decide (nsUnits q.due ≤ s.gtb.now) } }
    .next (settle (due.foldl (fun s q => releaseXb s q (q.late || inJump s (nsUnits q.due))) s))

/-! ### SYNC_FORCE (R337, R621, R661) -/

/-- Operands of SYNC_FORCE. -/
def sfCtx (m : Cmd) : Nat := m.at 4 1 % 64
def sfMask (m : Cmd) (i : Nat) : Bool := bitAt (m.at 5 1) i
def sfVid (m : Cmd) : Nat := m.at 6 2

/-- Check 1 of R661. -/
def forceFault (m : Cmd) : Option Nat :=
  if 64 ≤ m.at 4 1 then some 4
  else if 16 ≤ m.at 5 1 || m.at 5 1 = 0 then some 5
  else if 2 ≤ m.at 12 1 then some 12
  else match firstNonzero m.bytes 13 3 with
    | some b => some b
    | none => firstNonzero m.bytes 24 24

/-- Checks 3 and 4 of R661: the reason of a refusal. -/
def forceReason (m : Cmd) (o : SynObj) : Option Nat :=
  if o.barrier then
    if sfMask m 3 then some 2
    else if sfMask m 0 && decide (fld o.limit 15 0 ≤ m.at 8 4) then some 3 else none
  else if sfMask m 1 || sfMask m 2 then some 2
  else if sfMask m 3 && decide (m.at 20 2 ≠ 0) && decide (m.at 22 2 = 0) then some 3 else none

/-- The fields that MASK selects, written to one copy. -/
def forceCopy (m : Cmd) (o : SynObj) : SynObj :=
  let o := if sfMask m 0 then { o with value := m.at 8 4 } else o
  let o := if sfMask m 1 then { o with sense := bitAt (m.at 12 1) 0 } else o
  let o := if sfMask m 2 then { o with phase := m.at 16 4 } else o
  if sfMask m 3 then
    { o with dunits := m.at 20 2, dtag := if m.at 20 2 = 0 then 0 else m.at 22 2 }
  else o

/-- The frozen-table entry of an object freed (R621). -/
def unfreeze (s : State) (k : Nat) : State :=
  match frozenAt s k with
  | some f => { s with saf := { s.saf with frozen := tdel s.saf.frozen f } }
  | none => s

/-- An accepted force: the copies are compared as at every operation (R302), both are written, a frozen object is freed,
and then come the grants. An object that this comparison freezes is forced as a frozen one (R621; DESIGN CHOICE, log
entry 39). -/
def forceObj (s : State) (m : Cmd) (k : Nat) (old : SynObj) : State :=
  let s := unfreeze (modObj (checkObj s k).1 k (forceCopy m)) k
  let (s, ok) := checkObj s k
  match ok, objOf s k with
  | true, some o =>
    if !o.barrier then grantCounter s k
    else if o.sense = old.sense then s
    else o.gq.foldl (fun s w => grantWaiter s w o.phase) (setObj s k { o with gq := [] })
  | _, _ => s

/-- SYNC_FORCE. -/
def execSyncForce (s : State) : Out :=
  match waitingCritical s 0x0205 with
  | none => .next s
  | some m =>
    match forceFault m, findObj s (sfCtx m) (sfVid m) with
    | some b, _ => .next (refuseCritical s m 0x10 b)
    | none, none => .next (refuseCritical (countRefusal s (sfCtx m) (sfVid m) 1 0) m 0x18 1)
    | none, some k =>
      match objOf s k with
      | none => .next s
      | some o =>
        match forceReason m o with
        | some reason =>
          .next (refuseCritical (countRefusal s (sfCtx m) (sfVid m) reason 0) m 0x18 reason)
        | none =>
          let s := forceObj (acceptCritical s m) m k o
          let v := match objOf s k with | some o => o.value | none => 0
          let s := traceDebug s m.ctx 1 (sfVid m + sfCtx m * 2 ^ 16) (if sfMask m 0 then m.at 8 4 else o.value)
          .next (settle (completeOk s m v))

/-! ### SYNC_DUMP (R658-R660) -/

/-- The 32 bytes of an object (R301). Waiter numbers in its words are left open. -/
def objBytes (o : SynObj) : List Byte :=
  let head := fun l : List Nat => match l with | w :: _ => (Config.waiterNumber w).toNat | [] => 0xFFFF
  let last := fun l : List Nat => match l.getLast? with | some w => (Config.waiterNumber w).toNat | none => 0xFFFF
  leBytes 1 ((if o.barrier then 2 else 1) + b2n o.xchip * 4 + b2n o.realign * 8 + b2n o.sense * 16 +
    b2n o.chipArrived * 32) ++
  leBytes 1 o.owner ++ leBytes 2 o.vid ++ leBytes 4 o.value ++ leBytes 4 o.limit ++ leBytes 4 o.init ++
  leBytes 2 o.dtag ++ leBytes 2 o.dunits ++ leBytes 4 o.phase ++ leBytes 2 (head o.gq) ++
  leBytes 2 (last o.gq) ++ leBytes 2 (head o.dq) ++ leBytes 2 (last o.dq)

/-- The 16 bytes of a waiter entry in a dump (R659). -/
def waiterBytes (s : State) (o : SynObj) (directed : Bool) (x : Waiter) : List Byte :=
  let who :=
    if x.kind = 0 then x.task
    else if x.kind = 1 then match runOf s x.run with
      | some r => r.core + r.slot * 2 ^ 12
      | none => 0
    else match x.cmd with | some m => m.seq | none => 0
  let ring := match x.kind, x.cmd with | 2, some m => m.ring | _, _ => 0
  leBytes 1 (x.kind + b2n directed * 4 + b2n x.granted * 8) ++ leBytes 1 x.ctx ++ leBytes 2 x.vid ++
  leBytes 2 x.tag ++ leBytes 2 (if o.barrier then b2n x.sense else x.units) ++ leBytes 4 who ++
  leBytes 1 ring ++ leBytes 3 0

/-- The waiter entries of one queue of an object, those granted and not yet acknowledged among them, in
arrival order. -/
def dumpWaiters (s : State) (k : Nat) (o : SynObj) (directed : Bool) : List (List Byte) :=
  (s.syn.waiters.filter fun e =>
    e.2.obj == k && e.2.refused == 0 && (!o.barrier && e.2.tag != 0) == directed).map
    fun e => waiterBytes s o directed e.2

/-- The block of an object (R659), and its number of waiter entries. -/
def dumpBlock (s : State) (m : Cmd) (k : Nat) (o : SynObj) : Nat × List Byte :=
  let frozen := frozenAt s k
  let both := bitAt (m.at 5 1) 0 || frozen.isSome
  let ws := if bitAt (m.at 5 1) 1 then [] else dumpWaiters s k o false ++ dumpWaiters s k o true
  let drops := match frozen with
    | some f => (tget { ctx := 0, vid := 0, obj := 0 } s.saf.frozen f).drops
    | none => 0
  let copyB := match (if both then tget? s.syn.objB k else none) with
    | some b => objBytes b
    | none => leBytes 32 0
  (ws.length, leBytes 2 ws.length ++ leBytes 1 (b2n frozen.isSome + b2n both * 2) ++ leBytes 1 0 ++
    leBytes 4 drops ++ leBytes 8 0 ++ objBytes o ++ copyB ++ ws.flatten)

/-- Blocks as long as they fit: objects and waiter entries written, the bytes, and TRUNCATED. -/
def dumpBlocks (s : State) (m : Cmd) : List (Nat × SynObj) → Nat → Nat × Nat × List Byte × Bool
  | [], _ => (0, 0, [], false)
  | (k, o) :: rest, room =>
    let (w, b) := dumpBlock s m k o
    if room < b.length then (0, 0, [], true)
    else
      let (n, v, bs, cut) := dumpBlocks s m rest (room - b.length)
      (n + 1, v + w, b ++ bs, cut)

/-- The objects that a dump names, in ascending context and VID. -/
def dumpObjs (s : State) (m : Cmd) : List (Nat × SynObj) :=
  sortBy (fun a b : Nat × SynObj =>
      decide (a.2.owner * 65536 + a.2.vid ≤ b.2.owner * 65536 + b.2.vid))
    (s.syn.objA.filter fun e => bitAt (m.at 4 1) 6 || e.2.owner == m.at 4 1 % 64)

/-- The operand checks of R658. -/
def dumpFault (s : State) (m : Cmd) : Option Nat :=
  let size := m.at 16 4
  if 128 ≤ m.at 4 1 then some 4
  else if 8 ≤ m.at 5 1 then some 5
  else match firstNonzero m.bytes 6 2 with
    | some b => some b
    | none =>
      if m.at 8 8 % 4096 ≠ 0 then some 8
      else if size % 64 ≠ 0 || size < 64 then some 16
      else match firstNonzero m.bytes 20 28 with
        | some b => some b
        | none => if bitAt (m.at 5 1) 2 && !inPlain s m.ctx (m.at 8 8) size then some 8 else none

/-- SYNC_DUMP: its operands are checked and the dump starts; one dump runs at a time. -/
def execSyncDump (s : State) : Out :=
  if s.syn.dump.isSome then .next s
  else match popUnit s fun m => m.opcode == 0x0204 with
    | none => .next s
    | some (m, s) =>
      match dumpFault s m with
      | some b => .next (badOperand s m b)
      | none => .next { s with syn := { s.syn with dump := some m, dumpStamp := cellarStamp s } }

/-- SYNC_DUMP_DONE: blocks and header are written, and the command completes (R660). -/
def execSyncDumpDone (s : State) : Out :=
  match s.syn.dump with
  | none => .next s
  | some m =>
    let (n, v, body, cut) := dumpBlocks s m (dumpObjs s m) (m.at 16 4 - 64)
    let head := leBytes 4 0x53594E44 ++ leBytes 2 1 ++
      leBytes 1 (b2n cut + b2n (bitAt (m.at 5 1) 0) * 2 + b2n s.saf.safe * 4) ++ leBytes 1 0 ++
      leBytes 4 n ++ leBytes 4 v ++ leBytes 8 s.syn.dumpStamp ++ leBytes 8 (cellarStamp s) ++
      leBytes 2 (chipId s) ++ leBytes 30 0
    let bytes := head ++ body
    let s := { s with syn := { s.syn with dump := none } }
    let s := if bitAt (m.at 5 1) 2 then unitWritePlain s m.ctx (m.at 8 8) bytes
      else hostWrite s m.ctx (m.at 8 8) bytes
    .next (completeOk s m (bytes.length + n * 2 ^ 32))

/-! ### SYN_CTX_CFG (R298) and the diagnostic reads (R339) -/

/-- Every object, waiter entry and frozen-table entry of a context is freed (R298, R621). -/
def synRelease (s : State) (c : Nat) : State :=
  let mine := (s.syn.objA.filter fun e => e.2.owner == c).map fun e => e.1
  let gone := (s.syn.waiters.filter fun e => e.2.ctx == c).map fun e => e.1
  { s with
    syn := { s.syn with
      objA := tfilter (fun _ o => o.owner != c) s.syn.objA
      objB := tfilter (fun k _ => !mine.contains k) s.syn.objB
      waiters := tfilter (fun _ w => w.ctx != c) s.syn.waiters
      grantQ := s.syn.grantQ.filter fun w => !gone.contains w
      mats := s.syn.mats.filter fun q => q.ctx != c
      releases := s.syn.releases.filter fun r => !mine.contains r.obj
      arrivers := tfilter (fun k _ => !mine.contains k) s.syn.arrivers }
    saf := { s.saf with frozen := tfilter (fun _ f => f.ctx != c) s.saf.frozen } }

/-- A write of SYN_CTX_CFG: accepted only while the context is not enabled and idle; a SDT_COUNT above
65,536 is ignored too (R298). -/
def writeSynCfg (s : State) (c w : Nat) : State :=
  let off := synCtx c + 8
  let refuse := fun s : State => setRegBit s (synCtx c + 0x10) 28 true
  if ctxEnabled s c || !ctxIdle s c then refuse s
  else
    let s := setRegBit s off 30 (bitAt w 30)
    let s := if fld w 16 0 ≤ 65536 then setRegFld s off 16 0 (fld w 16 0) else refuse s
    if bitAt w 31 then synRelease s c else s

/-- SYN_RELEASE: a write of SYN_CTX_CFG with RELEASE set. -/
def execSynRelease (c : Fin 64) (w : Word) (s : State) : Out :=
  .next (writeSynCfg s c (setFld w.toNat 31 31 1))

/-- SYN_DIAG_SEL_WRITE: the selector is written and the word position reset. -/
def execSynDiagSelWrite (w : Word) (s : State) : Out :=
  let s := setReg s 0x50001C (w.toNat &&& 0x27FFF)
  .next { s with syn := { s.syn with diagPos := 0 } }

/-- The word of the selected copy of the selected object; a free object reads zero. -/
def synDiagWord (s : State) : Nat :=
  let k := regFld s 0x50001C 14 0
  let t := if regBit s 0x50001C 17 then s.syn.objB else s.syn.objA
  match tget? t k with
  | some o => leAt (objBytes o) (4 * (s.syn.diagPos % 8)) 4
  | none => 0

/-- SYN_DIAG_DATA_READ: a word is returned and the position advances. -/
def execSynDiagDataRead (s : State) : Out :=
  let v := synDiagWord s
  .next { s with hif := { s.hif with rdata := v }, syn := { s.syn with diagPos := (s.syn.diagPos + 1) % 8 } }

end Sys2Proof.Machine
end

