-- ==== Sys2Proof/Machine/Saf.lean ====
section
/-! DEFINITION. The safety supervisor (R608-R637): error records, the safe state, the comparators, the
scrubbers, and the rebuild and re-entry of a context recovery. -/

namespace Sys2Proof.Machine

open Sys2Proof

/-! ### The safe state (R628-R630) -/

/-- A running command is stopped and the held effects of an uncommitted one are discarded: no kill, no
rerun (step 2 of R629). Units that its waits have taken stay taken. -/
def stopRun (s : State) (id : Nat) : State :=
  match runOf s id with
  | none => s
  | some x =>
    let s := blqKill (chnKill s id x) id x
    let s := { s with
      syn := { s.syn with
        newWaits := s.syn.newWaits.filter fun q => q.1 != id
        mats := s.syn.mats.filter fun q => !(q.src == 1 && q.run == id) }
      pat := { s.pat with waits := PatWait.dropRun id s.pat.waits } }
    let running := x.state == 3
    let s := modRun s id fun y => { y with
      effects := [], waiting := []
      killed := y.killed.or (some 13)
      killAt := if running then y.killAt.or (some s.gtb.now) else y.killAt }
    if running && x.kind == 3 then modUnit s x.core fun y => { y with stopped := true, miss := none } else s

/-- Every core of the management cluster stops. -/
def stopCores (s : State) : State :=
  { s with mgc := { s.mgc with
      cores := (List.range Config.mgmtCores).map fun k => (k, { tget {} s.mgc.cores k with halted := true }) } }

/-- The ticks of the span that has passed without a kick, if the span is over (R591). -/
def spanOver (s : State) : Option Nat :=
  let n := regFld s 0x980000 15 0
  s.mgc.span.filter fun k => n ≠ 0 && n ≤ k

/-- The management cluster halts: every core stops and FW_STATE is HALTED (R592). An FW_LOAD in progress goes
on, and so does a watchdog expiry that is due. -/
def haltMgc (s : State) : State :=
  setRegFld (stopCores { s with mgc := { s.mgc with span := spanOver s } }) 0x980004 31 30 3

/-- The commands that units hold, each of which the safe state completes. -/
def heldCmds (s : State) : List Cmd :=
  s.cau.inQ ++ (s.hif.unitQ.filter fun m => m.opcode != 0x0204) ++
  ((s.tge.steps.filter fun e => e.2.launch.serving.isNone).map fun e => e.2.launch.cmd) ++
  (s.tge.steps.map fun e => e.2.aborts).flatten ++
  (s.tge.imgs.filterMap fun e => e.2.pending.map fun l => l.cmd) ++
  (s.tge.imgs.filterMap fun e => e.2.cmd) ++
  (s.syn.waiters.filterMap fun e => if e.2.kind = 2 && !e.2.granted then e.2.cmd else none) ++
  (s.syn.mats.filterMap fun q => q.cmd) ++
  (s.psm.ops.map fun o => o.cmd) ++
  (s.rex.imgs.filterMap fun e => e.2.loading.map fun l => l.1) ++
  s.mgc.loads ++ (s.trc.flushes.map fun e => e.1) ++
  (s.sls.srv.map fun e => e.2.closes).flatten

/-- Every command that has passed its format checks completes with SAFE_STATE, in fetch order; a
SYNC_DUMP runs on (step 6 of R629). -/
def completeHeld (s : State) : State :=
  let held := heldCmds s
  let s := s.cau.inQ.foldl (fun s m => headPass s m.ctx m.ring) s
  s.hif.outs.foldl (fun s o =>
    match (if o.done then none else held.find? fun m => o.of m.ctx m.ring m.seq m.uid) with
    | some m => completeWith s m 0x20 0
    | none => s) s

/-- The units let go of the commands that have completed: waits are withdrawn, and no load, save, switch
or close goes on. -/
def dropHeld (s : State) : State :=
  let waits := (s.syn.waiters.filter fun e => e.2.kind == 2 && !e.2.granted).map fun e => e.1
  let s := waits.foldl (fun s w =>
    let s := match waiterOf s w with
      | some x => modObj s x.obj fun o =>
          { o with gq := o.gq.filter fun v => v != w, dq := o.dq.filter fun v => v != w }
      | none => s
    dropWaiter s w) s
  { s with
    cau := { s.cau with inQ := [], passed := false, enrol := false, newKey := [] }
    hif := { s.hif with unitQ := s.hif.unitQ.filter fun m => m.opcode == 0x0204 }
    tge := { s.tge with
      loads := []
      imgs := (s.tge.imgs.filter fun e => e.2.state != 0).map fun e => (e.1, { e.2 with pending := none })
      steps := tmap (fun _ x => { x with aborts := [] }) s.tge.steps }
    syn := { s.syn with mats := s.syn.mats.filter fun q => q.cmd.isNone }
    psm := { s.psm with ops := [], switching := false }
    rex := { s.rex with imgs := tmap (fun _ x => { x with loading := none }) s.rex.imgs }
    trc := { s.trc with flushes := [] }
    sls := { s.sls with srv := tmap (fun _ x => { x with closes := [] }) s.sls.srv } }

/-- Steps 1 to 5 of R629, and TRC's last flush (R652). A recovery ends (R623). -/
def enterSafe (s : State) : State :=
  let s := setRegBit { s with saf := { s.saf with safe := true, recov := [], kept := [] } } 0xA00004 31 true
  let ids := (s.disp.runs.filter fun e => !e.2.committed).map fun e => e.1
  let s := ids.foldl stopRun s
  let s := { s with disp := { s.disp with fields := tmap (fun _ f => { f with dispQ := [] }) s.disp.fields } }
  if trcRuns s then { s with trc := { s.trc with stopping := true } }
  else setRegBit s 0xA80000 25 true

/-! ### Error records (R624-R626) -/

/-- The 32 bytes of an error record (R624). -/
def recBytes (r : Rec) : List Byte :=
  leBytes 4 r.seq ++ leBytes 1 r.sev ++ leBytes 1 r.unit ++ leBytes 2 r.code ++
  leBytes 1 (match r.ctx with | some c => 64 + c | none => 0) ++ leBytes 3 0 ++
  leBytes 6 r.stamp ++ leBytes 2 0 ++ leBytes 4 r.detail ++ leBytes 8 r.param

/-- Word `k` of an error record. -/
def recWord (r : Rec) (k : Nat) : Nat := leAt (recBytes r) (4 * k) 4

/-- The contexts that receive the event of a record (R626). -/
def recTargets (s : State) (r : Rec) : List Nat :=
  (List.range 64).filter fun c => r.ctx == some c || (ctxEnabled s c && ctxPriv s c)

/-- The ERROR_RECORD events of a record. -/
def notifyRec (s : State) (r : Rec) : State :=
  if regFld s 0xA00000 1 0 ≤ r.sev then
    (recTargets s r).foldl (fun s c => raiseEvent s c 0x0006 r.sev r.unit 0 r.seq) s
  else s

/-- SAF accepts a record: into the ring, the sticky flags, and for the first fatal one SAF_FATAL; a fatal
record enters the safe state (R625, R628). -/
def acceptRec (s : State) (e : Rec) : State :=
  let seq := reg s 0xA00008
  let r := { e with seq := seq }
  let s := setReg { s with saf := { s.saf with ring := tput s.saf.ring (seq % 1024) r } } 0xA00008 (seq + 1)
  let s := if r.sev = 2 then setRegBit s 0xA00004 30 true
    else if r.sev = 1 then setRegBit s 0xA00004 29 true else s
  let s := if r.sev = 3 && s.saf.fatal.isNone then
      (List.range 8).foldl (fun s k => setReg s (0xA00040 + 4 * k) (recWord r k))
        { s with saf := { s.saf with fatal := some r } }
    else s
  if r.sev = 3 && !s.saf.safe then
    let s := enterSafe s
    let s := completeHeld (notifyRec (haltMgc s) r)
    dropHeld { s with mgc := { s.mgc with loads := [] } }
  else notifyRec s r

/-- The oldest record of the queue, if any, is accepted. -/
def acceptOldest (s : State) : State :=
  match s.saf.recQ with
  | [] => s
  | e :: rest => acceptRec { s with saf := { s.saf with recQ := rest } } e

/-- ERROR_RECORD: SAF accepts the oldest record (R625). -/
def execErrorRecord (s : State) : Out := .next (settle (acceptOldest s))

/-- SAF_REC_SEL_WRITE: the word position returns to 0 (R636). -/
def execSafRecSelWrite (w : Word) (s : State) : Out :=
  .next { setReg s 0xA00010 w.toNat with saf := { s.saf with recPos := 0 } }

/-- The word that SAF_REC_DATA shows (R635). -/
def recDataWord (s : State) : Nat :=
  let sel := reg s 0xA00010
  match tget? s.saf.ring (sel % 1024) with
  | some r => if r.seq = sel then recWord r (s.saf.recPos % 8) else 0
  | none => 0

/-- SAF_REC_DATA_READ. -/
def execSafRecDataRead (s : State) : Out :=
  .next { s with
    hif := { s.hif with rdata := recDataWord s }
    saf := { s.saf with recPos := s.saf.recPos + 1 } }

/-! ### Comparators (R609) -/

/-- Whether a number names a decision path: RDY, TGE, or a field controller (R627). -/
def isPath (p : Nat) : Bool := p == 0 || p == 2 || (16 ≤ p && p < 16 + Config.numFields)

/-- COMPARATOR_TEST: the comparator of a decision path is tested; a forced mismatch that it does not report,
or a difference of the two copies, is fatal (R609). -/
def execComparatorTest (path : Fin 32) (ok diff : Bool) (s : State) : Out :=
  if !isPath path then .next s
  else
    let s := if ok then s else record s 3 0x13 0x23 none path 0
    .next (if diff then record s 3 0x13 0x20 none path 0 else s)

/-! ### Scrubbing (R610-R613, R619) -/

/-- Unit code and severity of a storage of R611, in the order of its table and of the names in each row. -/
def storageUnit (k : Nat) : Nat × Nat :=
  [(0x04, 2), (0x09, 2), (0x13, 3), (0x04, 3), (0x04, 3), (0x0A, 3), (0x0B, 3), (0x0F, 3), (0x09, 3),
   (0x04, 3), (0x05, 2), (0x06, 2), (0x08, 2), (0x0D, 2), (0x0D, 1), (0x0E, 2), (0x02, 2), (0x12, 2),
   (0x07, 1), (0x0C, 1), (0x14, 0), (0x13, 1), (0x07, 1)].getD k (0, 0)

/-- An ECC record of a storage (R627): the storage's offset is left open. -/
def eccRec (s : State) (sev code k index : Nat) (ctx : Option Nat) : State :=
  record s sev (storageUnit k).1 code ctx (Config.storageOffset k).toNat index

/-- The context that owns a physical task. -/
def taskOwner (s : State) (t : Nat) : Option Nat := (imgOfTask s t).map fun e => e.2.ctx

/-- The context that owns word `index` of a storage. -/
def storageOwner (s : State) (k index : Nat) : Option Nat :=
  if k = 0 || k = 2 || k = 3 || k = 9 || k = 10 || k = 11 then taskOwner s index
  else if k = 1 then (objOf s index).map fun o => o.owner
  else if k = 12 then (runOf s index).map fun x => x.ctx
  else if k = 13 then (if index < 64 then some index else none)
  else if k = 14 then some (index / 2 ^ 32 % 64)
  else if k = 15 then (tget? s.sls.srv (index / 16384)).bind fun v => if v.state = 0 then none else some v.ctx
  else none

/-- A copy of a duplicated word takes the value that its storage has turned into: the counter word, the
VALUE of an object, a word of a free object, or DONE and WAITED of a ledger word. -/
def corruptB (s : State) (k index v : Nat) : State :=
  if k = 0 then { s with tge := { s.tge with cntB := tput s.tge.cntB index (v % 2 ^ 32) } }
  else if k = 1 then match tget? s.syn.objB index with
    | some o => { s with syn := { s.syn with objB := tput s.syn.objB index { o with value := v % 2 ^ 32 } } }
    | none => { s with syn := { s.syn with freeB := tput s.syn.freeB index (v % 2 ^ 32) } }
  else if k = 2 then
    { s with saf := { s.saf with ledB := tput s.saf.ledB index { done := bitAt v 0, waited := bitAt v 1 } } }
  else s

/-- One copy written over the other (R612): `fromA` takes copy A as the clean one. -/
def copyOver {α : Type} (fromA : Bool) (index : Nat) (p : Table α × Table α) : Table α × Table α :=
  let put := fun (t u : Table α) => match tget? t index with | some v => tput u index v | none => tdel u index
  if fromA then (p.1, put p.1 p.2) else (put p.2 p.1, p.2)

/-- The clean copy of a duplicated word replaces the bad one. -/
def repairCopy (s : State) (k index : Nat) (fromA : Bool) : State :=
  if k = 0 then
    let p := copyOver fromA index (s.tge.cntA, s.tge.cntB)
    { s with tge := { s.tge with cntA := p.1, cntB := p.2 } }
  else if k = 1 then
    let p := copyOver fromA index (s.syn.objA, s.syn.objB)
    { s with syn := { s.syn with objA := p.1, objB := p.2, freeB := tdel s.syn.freeB index } }
  else
    let p := copyOver fromA index (s.saf.ledA, s.saf.ledB)
    { s with saf := { s.saf with ledA := p.1, ledB := p.2 } }

/-- Whether the image of a physical task has a running step. -/
def taskStepRuns (s : State) (t : Nat) : Bool :=
  match imgOfTask s t with
  | some (i, _) => match stepOf s i with
    | some st => decide (1 ≤ st.phase) && decide (st.phase ≤ 3)
    | none => false
  | none => false

/-- The copies of a counter word that no running step uses differ: both become zero (R619). -/
def zeroCounter (s : State) (t : Nat) : State :=
  let c := taskOwner s t
  let s := match c with | some c => divSeen s c | none => s
  setCounter (record s 1 0x04 0x10 c (cntA s t) (cntB s t + t * 2 ^ 32)) t 0

/-- The copies of a free sync object differ: both become zero (R619). -/
def zeroFree (s : State) (k : Nat) : State :=
  record { s with syn := { s.syn with freeB := tdel s.syn.freeB k } } 1 0x09 0x11 none 0 k

/-- The scrubber compares two copies that are free of ECC errors (R613, R619). -/
def compareCopies (s : State) (k index : Nat) : State :=
  if k = 0 then
    if cntA s index = cntB s index then s
    else if taskStepRuns s index then
      match taskOwner s index with
      | some c => divergeCounter s c index
      | none => s
    else zeroCounter s index
  else if k = 1 then
    if (objOf s index).isNone then (if tget 0 s.syn.freeB index = 0 then s else zeroFree s index)
    else (checkObj s index).1
  else if k = 2 then
    match taskOwner s index with
    | some c => checkLedger s c index
    | none =>
      if tget {} s.saf.ledA index = tget {} s.saf.ledB index then s else record s 3 0x13 0x21 none 0 index
  else s

/-- A class queue of a vertical link or the queue of a field link empties itself (R42, R611): that of field
index / 16 whose place is index % 16, in the order of the table of R16 with MESSAGE and CONFIG taken up and then down;
from index 128 on, that of field link index - 128 (log entry 38). -/
def linkWordError (s : State) (index : Nat) : State :=
  let f := index / 16
  let k := index % 16
  if 128 ≤ index then (if index < 135 then hiddenMismatch s (.fldLink (index - 128)) else s)
  else if 8 < k then s
  else if k = 0 then ptrMismatch s (0x300100 + f * 0x10) (.rdyDisp f)
  else if k = 1 then ptrMismatch s (0x400100 + f * 0x10) (.cagCpl f)
  else if k = 2 then hiddenMismatch s (.effect f)
  else if k = 3 then hiddenMismatch s (.grant f)
  else hiddenMismatch s (.cls f (k - 4))

/-- The command in a resident slot of a core, numbered 4 n + slot. -/
def slotCmd (s : State) (index : Nat) : Option Nat :=
  (s.disp.runs.find? fun e => e.2.kind != 3 && e.2.core == index / 4 && e.2.slot == index % 4 &&
    1 ≤ e.2.state && e.2.state ≤ 3).map fun e => e.1

/-- A command is killed with ENGINE_FAULT, where there is one. -/
def engineFault (s : State) (r : Option Nat) : State :=
  match r with
  | some id => ask s (.killRun id 4)
  | none => s

/-- What Abalo does about a word that no copy gives any more (R611). -/
def loseWord (s : State) (k index : Nat) : State :=
  let recover := fun s : State => match storageOwner s k index with
    | some c => ask s (.recover c)
    | none => s
  if k = 0 then recover s
  else if k = 1 then
    match objOf s index with
    | none => s
    | some o =>
      if (frozenAt s index).isSome then s
      else match freeFrozen s with
        | none => record s 3 0x09 0x24 (some o.owner) o.vid index
        | some f =>
          let e : Frozen := { ctx := o.owner, vid := o.vid, obj := index }
          ask { s with saf := { s.saf with frozen := tput s.saf.frozen f e } } (.recover o.owner)
  else if 10 ≤ k && k ≤ 13 then recover s
  else if k = 14 then { s with pat := { s.pat with cached := s.pat.cached.filter fun j => j != index } }
  else if k = 15 then
    let v := index / 16384
    let x := srvOf s v
    if 4 ≤ v || x.state = 0 then s
    else
      let s := setRegBit (modSrv s v fun x => { x with state := 3 }) (slsB v + 0xC) 25 true
      let last := match imgOf s x.img with | some i => i.last | none => 0
      let (d, s) := draw s
      raiseEvent s x.ctx 0x0150 2 v last (min x.fails 255 + Config.freeNat d % 256 * 256)
  else if k = 16 then
    if index < 16 then setSlot s index { accepts := (slotOf s index).accepts } else s
  else if k = 17 then
    haltMgc s
  else if k = 18 then failCore (engineFault s (slotCmd s index)) (index / 4)
  else if k = 19 then failRex (engineFault s (unitOf s index).run) index
  else if k = 20 then
    if index < 16384 then
      match tget [] s.trc.bufs index with
      | [] => s
      | _ :: q =>
        let s := flushTake s index
        addReg { s with trc := { s.trc with
          bufs := tput s.trc.bufs index q
          lost := tput s.trc.lost index (tget 0 s.trc.lost index + 1) } } 0xA8001C 1
    else match tget [] s.trc.fldQ (index - 16384) with
      | [] => s
      | _ :: q =>
        let s := flushTake s index
        { s with trc := { s.trc with
          fldQ := tput s.trc.fldQ (index - 16384) q
          lost := tput s.trc.lost index (tget 0 s.trc.lost index + 1) } }
  else if k = 21 then addReg { s with saf := { s.saf with ring := tdel s.saf.ring (index % 1024) } } 0xA0000C 1
  else if k = 22 then linkWordError s index
  else s

/-- SCRUB: what a scrubber, or an access, finds in word `index` of storage `storage` (R610-R613). `finding`:
0 the copies are compared, 1 a corrected error, 2 and 3 an uncorrectable error in copy A or B, 4 one in
every copy, 5 the slowest pass is complete. `found` is what copy B has turned into, if it has. -/
def execScrub (storage : Fin 23) (index : Nat) (finding : Fin 6) (found : Option Nat) (s : State) : Out :=
  let k := storage.val
  let s := match found with | some v => corruptB s k index v | none => s
  if finding.val = 0 then .next (settle (compareCopies s k index))
  else if finding.val = 1 then
    let s := setRegBit (addReg s 0xA00018 1) 0xA00004 28 true
    .next (eccRec s 0 0x01 k index (storageOwner s k index))
  else if finding.val = 5 then .next (addReg s 0xA00020 1)
  else
    let s := addReg s 0xA0001C 1
    if k ≤ 2 && finding.val ≠ 4 then
      .next (repairCopy (eccRec s 1 0x02 k index (storageOwner s k index)) k index (finding.val == 3))
    else
      let s := eccRec s (storageUnit k).2 0x02 k index (storageOwner s k index)
      .next (settle (loseWord s k index))

/-! ### Context recovery (R615-R617) -/

/-- Whether a context may go to step 4 of R615: every killed command of it has ended, no commit of it is
still to be applied, and no sweep of it runs. -/
def rebuildDue (s : State) (c : Nat) : Bool :=
  (s.disp.runs.all fun e => e.2.ctx != c || (e.2.state != 2 && e.2.state != 3) || e.2.killed.isNone) &&
  (s.disp.readyQ.all fun q => match q with
    | .runs ids => ids.all fun r => match runOf s r with | some x => x.ctx != c | none => true
    | .signal _ _ => true) &&
  (s.tge.steps.all fun e => e.2.phase != 1 || (match imgOf s e.1 with | some x => x.ctx != c | none => true))

/-- Step 4 of R615: decrements, ready, staged and timer entries and started handler runs of the context go; it is no
removal under R243, of which R251 asks for records. Reruns among them are kept in mind for R617, with a new entry order
unless step 2 killed them. -/
def clearForRebuild (s : State) (c : Nat) : State :=
  let mine : Dec → Bool := fun e => match imgOfTask s e.task with | some (_, x) => x.ctx == c | none => false
  let gone := s.disp.ready.filter fun r => r.ctx == c && r.t1.isNone
  let s := gone.foldl (fun s r =>
    if r.again && r.msg.isNone && !thas s.saf.kept r.task then
      { s with saf := { s.saf with kept := tput s.saf.kept r.task { r with again := false } } }
    else s) s
  let consumed := s.disp.runs.filterMap fun e => e.2.msg
  let s := unassign s (fun ch => ch.ctx == c) consumed
  { s with
    tge := { s.tge with decQ := s.tge.decQ.filter fun e => !mine e }
    disp := { s.disp with
      ready := s.disp.ready.filter fun r => !(r.ctx == c && r.t1.isNone)
      timers := s.disp.timers.filter fun t => t.ctx != c } }

/-- Physical tasks of an image, ascending. -/
def imgTasks (img : Img) : List Nat :=
  sortBy (fun a b => decide (a ≤ b)) ((List.range img.tasks).map fun r => physTask img r)

/-- D of R616 for every task of an image: edges from predecessors with DONE. -/
def doneEdges (s : State) (img : Img) : Table Nat :=
  (imgTasks img).foldl (fun t p =>
    if isDone s p then (successors s img p).foldl (fun t q => tmod 0 t q (· + 1)) t else t) []

/-- The counter of one task rebuilt (R616): LEDGER where the ledger itself is wrong. -/
def rebuildTask (c : Nat) (dones : Table Nat) (s : State) (t : Nat) : State :=
  let d := descOf s t
  let init := tdInCount d
  let led := tget {} s.saf.ledA t
  let less := b2n led.waited + tget 0 dones t
  let runs := tget 0 s.saf.runs t
  let bad := decide (init < less) || (tdKind d == 2 && decide (tdExpect d < runs))
  let s := checkLedger s c t
  if bad then record s 3 0x04 0x21 (some c) 0 t
  else if led.done then setCounter s t (counterWord false init 0)
  else
    let m := init - less
    if tdKind d = 2 && m = 0 then setCounter s t (counterWord true init (tdExpect d - runs))
    else setCounter s t (counterWord false init m)

/-- The steps of a context that are rebuilt and re-entered: a step being torn down is left out (R623). -/
def recoverySteps (s : State) (c : Nat) : List (Nat × Img) :=
  s.tge.steps.filterMap fun e => match imgOf s e.1 with
    | some x => if x.ctx = c && e.2.phase = 2 then some (e.1, x) else none
    | none => none

/-- Whether a rebuild that starts again may run: what has been handed over since step 4 is in the counters (R623). -/
def redoDue (s : State) (c : Nat) : Bool :=
  s.tge.decQ.all fun e => match imgOfTask s e.task with | some (_, x) => x.ctx != c | none => true

/-- RECOVERY_REBUILD: the first context whose killed commands have ended goes through steps 4 and 5 of R615; one
that a second divergence sent back to step 5 (state 4) repeats that step alone (R623). -/
def execRecoveryRebuild (s : State) : Out :=
  match s.saf.recov.find? fun e => (e.2 == 3 || (e.2 == 4 && redoDue s e.1)) && rebuildDue s e.1 with
  | none => .next s
  | some (c, n) =>
    let s := if n = 3 then clearForRebuild s c else s
    let s := (recoverySteps s c).foldl (fun s e =>
      (imgTasks e.2).foldl (rebuildTask c (doneEdges s e.2)) s) s
    .next (settle { s with saf := { s.saf with recov := tput s.saf.recov c 5 } })

/-- Whether a task is already on its way: in RDY, TMR, CMT or a gate. -/
def underWay (s : State) (i t : Nat) : Bool :=
  (s.disp.ready.any fun r => r.img == i && r.task == t && r.t1.isNone) ||
  (s.disp.timers.any fun e => e.task == t) || s.disp.gates.contains (i, t) ||
  s.disp.readyQ.contains (.signal i t) ||
  (s.disp.runs.any fun e => e.2.img == i && e.2.task == t && !e.2.t1) ||
  (match stepOf s i with | some st => st.gateWrites.any fun g => g.task == t | none => false)

/-- One task re-enters (R617), with the effective rank that holds as it does (R226). -/
def reenterTask (i c : Nat) (s : State) (t : Nat) : State :=
  let s := checkLedger s c t
  let d := descOf s t
  let k := tdKind d
  if isDone s t || cwCount (cntA s t) ≠ 0 || k = 2 || underWay s i t then s
  else if k = 5 then { s with disp := { s.disp with gates := s.disp.gates ++ [(i, t)] } }
  else if k = 4 then { s with disp := { s.disp with readyQ := s.disp.readyQ ++ [.signal i t] } }
  else match tget? s.saf.kept t with
    | some r =>
      if r.again then backReady s { r with since := s.gtb.now }
      else pushReady s { r with again := true, since := s.gtb.now, rank := effRank s c d }
    | none => pushReady s (readyEntry s i c t none none)

/-- RECOVERY_REENTRY: the first rebuilt context without a frozen object re-enters and leaves recovery
(steps 6 and 7 of R615). -/
def execRecoveryReentry (s : State) : Out :=
  match s.saf.recov.find? fun e => e.2 == 5 && s.saf.frozen.all fun f => f.2.ctx != e.1 with
  | none => .next s
  | some (c, _) =>
    let all := ((recoverySteps s c).map fun e => (imgTasks e.2).map fun t => (e.1, t)).flatten
    let all := sortBy (fun a b : Nat × Nat => decide (a.2 ≤ b.2)) all
    let s := all.foldl (fun s e => reenterTask e.1 c s e.2) s
    let tasks := all.map fun e => e.2
    let off := 0xA01000 + 4 * c
    let s := setRegFld s off 15 0 (satAdd 16 (regFld s off 15 0) 1)
    .next (settle { s with saf := { s.saf with
      recov := tdel s.saf.recov c
      kept := tfilter (fun t _ => !tasks.contains t) s.saf.kept } })

end Sys2Proof.Machine
end

