-- ==== Sys2Proof/Machine/Mgc.lean ====
section
/-! DEFINITION. The management cluster (R585-R607) and the policy-tick boundary (R21-R25, R548, R549, R552,
R650): firmware and calibration, the tick, the watchdog, notices and policy values. -/

namespace Sys2Proof.Machine

open Sys2Proof

/-- FW_STATE (R607): 0 NONE, 1 LOADING, 2 RUNNING, 3 HALTED. -/
def fwState (s : State) : Nat := regFld s 0x980004 31 30

/-- FW_STATE set. -/
def setFwState (s : State) (v : Nat) : State := setRegFld s 0x980004 31 30 v

/-- FW_DENIED set (R587, R605). -/
def fwDenied (s : State) : State := setRegBit s 0x980004 27 true

/-- FW_STATE is LOADING (R596, R602). -/
def fwBusy (s : State) : Bool := decide (fwState s = 1)

/-! ### The management cores (R585, R586) -/

/-- Whether a core address is in the map of R585. -/
def mgcMap (a : Nat) : Bool := decide (a < 2 ^ 21) || (decide (2 ^ 32 ≤ a) && decide (a < 2 ^ 32 + 2 ^ 24))

/-- Core address of an offset of the configuration window. -/
def mgcAddr (off : Nat) : Nat := 2 ^ 32 + off

/-- The core that makes a firmware access whose command names none: a free value (log entry 28). -/
def firmwareCore (s : State) : Nat × State :=
  let d := draw s
  (Config.freeBelow d.1 Config.mgmtCores, d.2)

/-- An access outside the map: an access-fault exception in the core that made it, and nothing else (R585). -/
def coreFault (s : State) (a : Nat) : State :=
  let k := firmwareCore s
  { k.2 with mgc := { k.2.mgc with cores := tmod {} k.2.mgc.cores k.1 fun c => { c with fault := some a } } }

/-- mhartid of a core (R585). -/
def mhartid (k : Nat) : Nat := k

/-- Whether a core's timer interrupt is pending: mtime is not less than its mtimecmp (R586). -/
def timerPending (s : State) (k : Nat) : Bool := decide ((tget {} s.mgc.cores k).mtimecmp ≤ nowNs s)

/-! ### FW_LOAD (R593-R599) -/

/-- Check 1 of R596: the offset of the offending field. -/
def fwLoadFault (m : Cmd) : Option Nat :=
  if 2 ≤ m.at 4 1 then some 4
  else if (firstNonzero m.bytes 5 3).isSome then some 5
  else if m.at 8 8 % 4096 ≠ 0 then some 8
  else if m.at 16 4 % 64 ≠ 0 || m.at 16 4 < 384 || 2097472 < m.at 16 4 then some 16
  else (firstNonzero m.bytes 20 4).map fun _ => 20

/-- Steps 1 and 2 of R597: FW_STATE is LOADING, every core halts and SRAM is zeroed. -/
def beginFw (s : State) : State :=
  let s := stopCores (setFwState s 1)
  { s with mgc := { s.mgc with sram := [], span := none } }

/-- FW_LOAD: checked, and accepted (R596, R597). One accepted while another goes on, which HALT has taken out of
LOADING, is loaded after it (DESIGN CHOICE, log entry 39). -/
def execFwLoad (s : State) : Out :=
  match waitingCritical s 0x0600 with
  | none => .next s
  | some m =>
    match fwLoadFault m with
    | some d => .next (refuseCritical s m 0x10 d)
    | none =>
      if fwBusy s then .next (refuseCritical s m 0x1F 0)
      else
        let s := beginFw (acceptCritical s m)
        .next { s with mgc := { s.mgc with loads := s.mgc.loads ++ [m] } }

/-- Offset of the first header field that breaks R593. -/
def fwHeaderFault (b : List Byte) (imageBytes : Nat) : Option Nat :=
  let code := leAt b 16 4
  let cal := leAt b 24 4
  if leAt b 0 4 ≠ 0x4D474346 then some 0
  else if leAt b 4 2 ≠ 1 then some 4
  else if leAt b 12 4 ≠ 256 then some 12
  else if code < 8 || 2097152 < code || code % 8 ≠ 0 then some 16
  else if leAt b 20 4 % 4 ≠ 0 || code ≤ leAt b 20 4 then some 20
  else if cal ≠ up64 (256 + code) || cal + 64 ≠ imageBytes then some 24
  else if leAt b 28 4 = 0 || 8 < leAt b 28 4 || Config.mgmtCores < leAt b 28 4 then some 28
  else none

/-- Image offset of the first field of the calibration section that breaks R594. -/
def calFault (b : List Byte) : Option Nat :=
  let cal := leAt b 24 4
  if leAt b cal 4 ≠ 0x4C414331 then some cal
  else if leAt b (cal + 4) 2 ≠ 1 then some (cal + 4)
  else none

/-- Offset at which an image cannot be read: a read error, or the first byte of a page that faults. -/
def fwReadFault (s : State) (m : Cmd) (err : Option Nat) : Option Nat :=
  let n := m.at 16 4
  let fault :=
    if bitAt (m.at 4 1) 0 && (readVirt s m.ctx (m.at 8 8) n).isNone then
      some (faultAt s m.ctx (m.at 8 8) n - m.at 8 8)
    else none
  least (match err with | some e => if e < n then some e else none | none => none) fault

/-- The first check of step 4 of R597 that an image fails: its code and index. -/
def fwImageFault (m : Cmd) (b : List Byte) : Option (Nat × Nat) :=
  if (toBytes (sha256 (toNats b))).take 24 ≠ (m.bytes.drop 24).take 24 then some (6, 0)
  else match fwHeaderFault b (m.at 16 4) with
    | some o => some (1, o)
    | none => (calFault b).map fun o => (13, o)

/-- The calibration set's energy coefficients: those written last, in use or not. -/
def calEnergy (s : State) : List Nat :=
  match s.mgc.ecs.getLast? with
  | some e => e.2
  | none => (List.range 5).map fun k => regFld s (0x800200 + 4 * k) 15 0

/-- Energy coefficients written; they act from the next policy tick that begins after now (R600). -/
def setEnergy (s : State) (l : List Nat) : State :=
  { s with mgc := { s.mgc with ecs := s.mgc.ecs ++ [(s.gtb.now, l)] } }

/-- A failed load (R598). -/
def failFw (s : State) (m : Cmd) (code index : Nat) : State :=
  let s := setRegBit (setFwState s 0) 0x980004 26 true
  completeWith s m 0x13 (code * 2 ^ 28 + index % 2 ^ 28)

/-- A firmware image and its calibration set installed, and every core started (step 5 of R597). -/
def startFw (s : State) (m : Cmd) (b : List Byte) : State :=
  let cal := leAt b 24 4
  let code := (b.drop 256).take (leAt b 16 4)
  let sram : Mem := ((List.range code.length).zip code).filter fun c => c.2 ≠ 0
  let cores := (List.range Config.mgmtCores).map fun k => (k, ({ halted := false, pc := leAt b 20 4 } : MgcCore))
  let s := { s with mgc := { s.mgc with sram := sram, cores := cores } }
  let s := (List.range 8).foldl (fun s k => setReg s (0x880200 + 4 * k) (leAt b (cal + 8 + 4 * k) 4)) s
  let s := setEnergy s ((List.range 5).map fun j => leAt b (cal + 40 + 2 * j) 2)
  let s := gtbSetTrim s (leAt b (cal + 50) 2)
  let s := setReg (setReg s 0x980044 0) 0x98000C (leAt b 8 4)
  let sha := toBytes (sha256 (toNats b))
  let s := (List.range 8).foldl (fun s k => setReg s (0x980010 + 4 * k) (leAt sha (4 * k) 4)) s
  completeOk (setFwState s 2) m (leAt b 8 4)

/-- The load of an image ends (steps 3 to 5 of R597). -/
def endFw (s : State) (m : Cmd) (err : Option Nat) : State :=
  match fwReadFault s m err with
  | some o => failFw s m 9 o
  | none =>
    let b := (readSrc s m.ctx (bitAt (m.at 4 1) 0) (m.at 8 8) (m.at 16 4)).getD []
    match fwImageFault m b with
    | some (code, index) => failFw s m code index
    | none => startFw s m b

/-- FW_LOAD_DONE: the streamed image is checked and started, or the load fails; `err` is the image offset of
a read error, and `lost` the items that a full firmware-load queue has lost, after which the load has started again
from step 2 of R597 (R599; log entry 38). -/
def execFwLoadDone (err : Option Nat) (s : State) (lost : Nat := 0) : Out :=
  match s.mgc.loads with
  | [] => .next s
  | m :: rest =>
    let s := { s with mgc := { s.mgc with loads := rest } }
    let s := endFw (streamLoss s 0x980060 lost 0x980004 25) m err
    .next (if rest.isEmpty then s else beginFw s)

/-! ### CAL_WRITE (R602, R603) -/

/-- Check 1 of R602: the offset of the offending field. -/
def calWriteFault (m : Cmd) : Option Nat :=
  let g := m.at 4 1
  if 2 ≤ g then some 4
  else if m.at 5 1 ≠ 0 then some 5
  else if m.at 6 2 = 0 || (if g = 0 then 256 else 64) ≤ m.at 6 2 then some 6
  else if g = 1 then (firstNonzero m.bytes 20 28).map fun _ => 20
  else (firstNonzero m.bytes 40 8).map fun _ => 40

/-- The selected items overwritten. -/
def writeItems (s : State) (m : Cmd) : State :=
  let mask := m.at 6 1
  if m.at 4 1 = 0 then
    (List.range 8).foldl (fun s k => if bitAt mask k then setReg s (0x880200 + 4 * k) (m.at (8 + 4 * k) 4) else s) s
  else
    let old := calEnergy s
    let s := if mask % 32 = 0 then s else
      setEnergy s ((List.range 5).map fun j => if bitAt mask j then m.at (8 + 2 * j) 2 else old.getD j 0)
    if bitAt mask 5 then gtbSetTrim s (m.at 18 2) else s

/-- CAL_WRITE: selected calibration items are overwritten in place (R603). -/
def execCalWrite (s : State) : Out :=
  match waitingCritical s 0x0601 with
  | none => .next s
  | some m =>
    match calWriteFault m with
    | some d => .next (refuseCritical s m 0x10 d)
    | none =>
      if fwBusy s then .next (refuseCritical s m 0x1F 0)
      else
        let s := writeItems (acceptCritical s m) m
        let dirty := regFld s 0x980044 13 0 ||| (m.at 6 1 * if m.at 4 1 = 0 then 1 else 256)
        let n := satAdd 16 (regFld s 0x980044 31 16) 1
        let v := dirty + n * 2 ^ 16
        .next (completeOk (setReg s 0x980044 v) m v)

/-! ### Policy values (R22-R25, R588) -/

/-- Bits of a policy value's shadow in its register; none where an offset holds no policy value. -/
def policyMask (off : Nat) : Option Nat :=
  if (arrayAt off 0x801004 0x40 64).isSome then some 0xFFFF
  else if (arrayAt off 0x801008 0x40 64).isSome then some 0x80000000
  else if (0x301000 ≤ off && off < 0x302000) && off % 4 = 0 then some 0xFFFFFFFF
  else if off = 0x700010 || off = 0x700014 then some 0x7FFFFFF
  else if (arrayAt off 0x780104 0x40 4).isSome then some 0xFFFFFFFF
  else if (arrayAt off 0x880100 0x40 4).isSome then some 0x800FFFFF
  else none

/-- A shadow value written by its register's layout. -/
def writeShadow (s : State) (off w : Nat) : State :=
  match policyMask off with
  | some k => offerShadow s off (w &&& k)
  | none => s

/-- POLICY_SHADOW_WRITE: firmware writes a shadow value (R23). -/
def execPolicyShadowWrite (off : Nat) (w : Word) (s : State) : Out := .next (writeShadow s off w.toNat)

/-- A write of HOLD (R24). -/
def writeHold (s : State) (b : Bool) : State :=
  let s := setRegBit s 0x980008 0 b
  { s with mgc := { s.mgc with holds := s.mgc.holds ++ [(s.gtb.now, b)] } }

/-- HOLD: firmware writes HOLD. -/
def execHold (b : Bool) (s : State) : Out := .next (writeHold s b)

/-- A shadow value refused (R25): POLICY_REJECT in the unit's status register, and a record. -/
def rejectShadow (s : State) (unit status bit off v : Nat) : State :=
  record (setRegBit s status bit true) 0 unit 0x80 none (off % 0x80000) v

/-- A shadow value copied. -/
def activate (s : State) (off v : Nat) : State :=
  { s with mgc := { s.mgc with active := tput s.mgc.active off v } }

/-- Frames that may be granted (R457, R477). -/
def grantable : Nat := Config.memStacks * grantSmall

/-- The watermark pair judged as a whole (R477). -/
def copyPair (s : State) (new : Table Nat) : State :=
  let lo := tget? new 0x700010
  let mi := tget? new 0x700014
  match lo.or mi with
  | none => s
  | some v =>
    let l := fld (lo.getD (policy s 0x700010)) 26 0
    let k := fld (mi.getD (policy s 0x700014)) 26 0
    if l < k || grantable < l then
      rejectShadow s 0x0D 0x700004 28 (if lo.isSome then 0x700010 else 0x700014) v
    else
      let s := match lo with | some v => activate s 0x700010 v | none => s
      match mi with | some v => activate s 0x700014 v | none => s

/-- One shadow value judged by its limit (R588) and copied or refused; a RUN that becomes 0 pre-empts. -/
def copyShadow (s : State) (e : Nat × Nat) : State :=
  let (off, v) := e
  if off = 0x700010 || off = 0x700014 then s
  else if (arrayAt off 0x801004 0x40 64).isSome then
    if v % 65536 = 0 then rejectShadow s 0x0F 0x800000 31 off v else activate s off v
  else if 0x301000 ≤ off && off < 0x302000 then
    if fld v 21 12 < fld v 31 22 then rejectShadow s 0x05 0x300004 2 off v else activate s off v
  else if (arrayAt off 0x780104 0x40 4).isSome then
    if fld v 15 0 = 0 || fld v 31 16 = 0 || fld v 15 0 < fld v 31 16 then rejectShadow s 0x0E 0x780000 31 off v
    else activate s off v
  else match arrayAt off 0x801008 0x40 64 with
    | some c =>
      let was := ctxRun s c
      let s := activate s off v
      if was && !bitAt v 31 then preempt s c else s
    | none => activate s off v

/-- The shadow-to-active copy of boundary `b` (R22-R25). -/
def copyShadows (s : State) (b : Nat) : State :=
  let due := s.mgc.holds.filter fun h => h.1 < b
  let hold := match due.getLast? with | some h => h.2 | none => s.mgc.holdNow
  let s := { s with mgc := { s.mgc with holds := s.mgc.holds.filter (fun h => b ≤ h.1), holdNow := hold } }
  if hold then s
  else
    let new : Table Nat := (s.mgc.offers.filter fun o => o.stamp < b).foldl (fun t o => tput t o.off o.v) []
    let s := { s with mgc := { s.mgc with offers := s.mgc.offers.filter fun o => b ≤ o.stamp } }
    new.foldl copyShadow (copyPair s new)

/-! ### Accounts (R487, R548, R549) -/

/-- Mapped frames of a context in a stack, in small frames. -/
def mappedIn (s : State) (c st : Nat) : Nat :=
  s.pat.frames.foldl (fun n e =>
    if e.2.ctx = c && e.2.use = 0 && stackOf e.1 = st then n + frameSize e.2.large else n) 0

/-- PAT_CTX_SLOW of a context; `lat` is the mean probe latency of each stack (R487). -/
def slowOf (s : State) (lat : List Nat) (c : Nat) : Nat :=
  let base := regFld s 0x700028 15 0
  let f : List (Nat × Nat) := (List.range Config.memStacks).map fun st => (mappedIn s c st, lat.getD st 0)
  let n : Nat := f.foldl (fun n e => n + e.1) 0
  if base = 0 || n = 0 then 0
  else min (256 * f.foldl (fun n e => n + e.1 * e.2) 0 / (n * base)) 65535

/-- The charges of the tick that ends written to a context's accounting registers; what is left of a microjoule goes
on to the next tick (R547, R548). -/
def closeAccount (s : State) (c : Nat) : State :=
  let o := psmCtx c
  let s := (List.range 4).foldl (fun s k => setReg64 s (o + 0x10 + 8 * k) (tget 0 s.psm.tally.use (4 * c + k))) s
  let e := tget 0 s.psm.tally.energy c
  let s := setReg64 s (o + 0x30) (tget 0 s.psm.tally.bytes c)
  let s := setReg s (o + 0x38) (min (e / 10 ^ 9) (2 ^ 32 - 1))
  { s with psm := { s.psm with next := { s.psm.next with energy := tadd s.psm.next.energy c (e % 10 ^ 9) } } }

/-- MEM_SLOW and DISP_WAIT of a parcel (R549). -/
def parcelFigures (s : State) (p : Nat) : State :=
  let cs := (List.range 64).filter fun c => parcelOf s c == p
  let f : List (Nat × Nat) := cs.map fun c =>
    ((List.range Config.memStacks).foldl (fun n st => n + mappedIn s c st) 0, regFld s (patBase c + 0x1C) 15 0)
  let n : Nat := f.foldl (fun n e => n + e.1) 0
  let slow := if n = 0 then 0 else f.foldl (fun m e => m + e.1 * e.2) 0 / n
  let k := tget 0 s.psm.tally.waitNum p
  let wait := if k = 0 then 0 else min (tget 0 s.psm.tally.waitSum p / k) 65535
  setReg s (0x800418 + p * 0x20) (slow + wait * 2 ^ 16)

/-- The accounts of tick `n` closed. -/
def closeAccounts (s : State) (n : Nat) (lat : List Nat) : State :=
  let s := (List.range 64).foldl (fun s c => setReg s (patBase c + 0x1C) (slowOf s lat c)) s
  let s := (List.range 64).foldl closeAccount s
  let s := (s.psm.parcels.map fun e => e.1).foldl parcelFigures s
  let s := { s with psm := { s.psm with tally := s.psm.next, next := {} } }
  { s with counts := tput s.counts 0x800018 n }

/-- The CLOCK record of a field for the tick that ends at boundary `b`, where its clock was not always at full
rate (R650), and the field's new tick (R115). -/
def clockRecord (b : Nat) (s : State) (f : Nat) : State :=
  let k := tget {} s.clk f
  let lost := fldLost s f
  let made := k.tickStr || k.tickStop
  let s :=
    if made && s.trc.on && typeWanted s recClock then
      traceField (markFieldStamp s f) f (stampOf (fieldQ s f k.stamped) (b / 5120)) (recClock * 2 ^ 42 +
        f * 2 ^ 46 + min (lost - k.tickLost) (2 ^ 32 - 1) * 2 ^ 49 + b2n k.tickStr * 2 ^ 81 +
        b2n k.tickStop * 2 ^ 82)
    else s
  { s with clk := tmod {} s.clk f fun k => { k with
      tickStr := decide (k.clk = 1), tickStop := decide (2 ≤ k.clk), tickLost := lost
      behind := false, tickEdge := none
      edge := if made then boundaryFlag s true (fieldQ s f k.stamped) b (b - policyTick) b else k.edge } }

/-! ### The management tick (R589-R591) -/

/-- The watchdog's count of ticks without a kick. -/
def countSpan (s : State) : State :=
  let m := s.mgc
  if fwState s ≠ 2 || regFld s 0x980000 15 0 = 0 then
    { s with mgc := { m with span := spanOver s, kicked := m.kickedNext, kickedNext := false } }
  else match m.span with
    | none => { s with mgc := { m with span := some 0, kicked := m.kicked || m.kickedNext, kickedNext := false } }
    | some k =>
      let n := if (spanOver s).isSome then k else if m.kicked then 0 else k + 1
      { s with mgc := { m with span := some n, kicked := m.kickedNext, kickedNext := false } }

/-- MGC's part of the boundary that begins tick `n` (R589, R590). -/
def mgcTick (s : State) (n : Nat) : State :=
  let late := decide (s.mgc.ackSeen ≠ s.mgc.tick % 2 ^ 32)
  let s := if late then addReg (setRegBit s 0x980004 28 true) 0x98003C 1 else s
  let s := setReg64 (countSpan s) 0x980030 n
  let cores := if fwState s = 2 then
      tmap (fun k c => if bitAt (reg s 0x980058) k then { c with extPend := true } else c) s.mgc.cores
    else s.mgc.cores
  { s with mgc := { s.mgc with tick := n, ackSeen := reg s 0x980038, cores := cores } }

/-- Energy coefficients written before boundary `b` come into use (R600). -/
def useEnergy (s : State) (b : Nat) : State :=
  let due := s.mgc.ecs.filter fun e => e.1 < b
  match due.getLast? with
  | none => s
  | some e =>
    let s := (List.range 5).foldl (fun s k => setReg s (0x800200 + 4 * k) (e.2.getD k 0)) s
    { s with mgc := { s.mgc with ecs := s.mgc.ecs.filter fun e => b ≤ e.1 } }

/-- Number and instant of the boundary that comes next; after a forward jump over several, the last of them
(R21, R102). -/
def nextBoundary (s : State) : Nat := max (s.mgc.tick + 1) (s.gtb.now / policyTick)

/-- A field whose clock is stretched or stopped acts on a boundary once its own counter has reached it: time passes to
the time word that it then loads (R107, R115). -/
def fieldsReach (s : State) : State := if s.clk.any fun e => e.2.behind then gtbTimeWord s else s

/-- POLICY_TICK_BOUNDARY: time passes to the next boundary. The cellar copies the shadow values; each field's counter
reaches the boundary, and the charges stamped before it are complete; the accounts are closed, and the tick raised.
`lat` is the mean probe latency of each stack in ns (R487). -/
def execPolicyTickBoundary (lat : List Nat) (s : State) : Out :=
  let n := nextBoundary s
  let b := n * policyTick
  let s := advanceTo b (countLate s (inJump s b))
  let low := isLow s
  let s := copyShadows s b
  let s := if isLow s then checkLow low s else { s with pat := { s.pat with lowSent := false } }
  let s := fieldsReach s
  let live := (s.disp.runs.filter fun e => e.2.state == 3).map fun e => e.1
  let s := live.foldl chargeRun s
  let s := useEnergy (closeAccounts s s.mgc.tick lat) b
  let s := (List.range Config.numFields).foldl (clockRecord b) s
  let s := { s with gtb := { s.gtb with tickEdge := none } }
  .next (settle (mgcTick s n))

/-- WDOG_EXPIRED: a span of WDOG_TICKS ticks without a kick halts the cluster (R591). -/
def execWdogExpired (s : State) : Out :=
  match spanOver s with
  | none => .next s
  | some _ =>
    let s := setRegBit (haltMgc s) 0x980004 29 true
    let s := { s with mgc := { s.mgc with span := none } }
    .next (record s 2 0x12 0x70 none (regFld s 0x980000 15 0) s.mgc.tick)

/-- HALT: a write of 1 to HALT (R592). -/
def execHalt (s : State) : Out := .next (haltMgc s)

/-- A kick of the watchdog, in the tick of its arrival stamp (R591). -/
def kickWdog (s : State) : State :=
  if pastBoundary s then { s with mgc := { s.mgc with kickedNext := true } }
  else { s with mgc := { s.mgc with kicked := true } }

/-- MGC_WDOG_KICK: firmware kicks the watchdog. -/
def execMgcWdogKick (s : State) : Out := .next (kickWdog s)

/-- A write of MGC_TICK_ACK by core `k`, whose tick interrupt is cleared (R589, R590). -/
def ackTick (s : State) (k w : Nat) : State :=
  let s := setReg s 0x980038 w
  let seen := if pastBoundary s then s.mgc.ackSeen else w
  { s with mgc := { s.mgc with
      ackSeen := seen, cores := tmap (fun i c => if i = k then { c with extPend := false } else c) s.mgc.cores } }

/-- MGC_TICK_ACK: firmware acknowledges a tick. -/
def execMgcTickAck (core : Fin 8) (w : Word) (s : State) : Out := .next (ackTick s core w.toNat)

/-- Whether an entry of the write queue is a FW_NOTICE. -/
def HifEntry.isNotice : HifEntry → Bool
  | .cpl _ => false
  | .event e => e.type == 0x0170

/-- BUSY of MGC_NOTICE_CTL: a notice waits for HIF (R605, R607). -/
def noticeBusy (s : State) : Bool := s.hif.cplQ.any HifEntry.isNotice

/-- A GO by core `k`: HIF is to write a notice to a context's event ring; one that comes before HIF has written the
last is ignored (R605). -/
def postNotice (s : State) (k c : Nat) : State :=
  if noticeBusy s then fwDenied s
  else
    let s := setRegFld s 0x980050 5 0 c
    raiseEvent s c 0x0170 0 k 0 (reg64 s 0x980048)

/-- NOTICE_GO: firmware posts a notice. -/
def execNoticeGo (core : Fin 8) (c : Fin 64) (s : State) : Out := .next (postNotice s core c)

/-- MACHINE_TIMER_INTERRUPT: a core sets its mtimecmp, and with `reached` group time reaches it; the core's timer
interrupt is pending from then on, until a later mtimecmp (R586). -/
def execMachineTimerInterrupt (core : Fin 8) (cmp : Nat) (s : State) (reached : Bool := false) : Out :=
  let cmp := cmp % 2 ^ 64
  let s := if reached then advanceTo (nsUnits cmp) s else s
  .next { s with mgc := { s.mgc with cores := tmod {} s.mgc.cores core fun c => { c with mtimecmp := cmp } } }

end Sys2Proof.Machine
end

