-- ==== Sys2Proof/Machine/RexCmds.lean ====
section
/-! DEFINITION. Commands of the row execution units that no program runs: instruction images (R406-R409),
element programs (R412-R414), OFFLINE and the tile window (R416, R417). -/

namespace Sys2Proof.Machine

open Sys2Proof

/-! ### Instruction images -/

/-- Check 1 of R408: the first offending byte. -/
def imageOperand (m : Cmd) : Option Nat :=
  if 16 ≤ m.at 4 1 then some 4
  else if 2 ≤ m.at 5 1 then some 5
  else match firstNonzero m.bytes 6 2 with
    | some b => some b
    | none =>
      if m.at 8 8 % 4096 ≠ 0 then some 8
      else if ilBytes m % 8 ≠ 0 || ilBytes m = 0 || 1048576 < ilBytes m then some 16
      else match firstNonzero m.bytes 20 4 with
        | some b => some b
        | none => firstNonzero m.bytes 32 16

/-- Whether a step of the context that has not ended has recorded a buffer of an image (R217). -/
def genInUse (s : State) (c i g : Nat) : Bool :=
  s.tge.steps.any fun e =>
    tget? e.2.gens i == some g && (match imgOf s e.1 with | some x => x.ctx == c | none => false)

/-- Every instruction-cache line of a buffer is invalidated (check 4 of R408). -/
def dropLines (s : State) (c i g : Nat) : State :=
  let keep : Nat × List Byte → Bool := fun l => l.1 / 4096 != lineKey c i g 0 / 4096
  { s with rex := { s.rex with units := tmap (fun _ x => { x with lines := x.lines.filter keep }) s.rex.units } }

/-- A buffer's length in instructions, or none where it holds no image. -/
def RexImg.setLen (x : RexImg) (g : Nat) (n : Option Nat) : RexImg :=
  if g = 0 then { x with len0 := n } else { x with len1 := n }

/-- IMAGE_LOAD: checked, and accepted into the buffer that ACTIVE does not point to (R408). -/
def execImageLoad (s : State) : Out :=
  match popUnit s fun m => m.opcode == 0x0104 with
  | none => .next s
  | some (m, s) =>
    let i := ilImg m
    let g := ilTarget s m
    let x := rimgOf s m.ctx i
    match imageOperand m with
    | some d => .next (badOperand s m d)
    | none =>
      if iregOf s m.ctx = 0 then .next (badOperand s m 4)
      else if genInUse s m.ctx i g || x.loading.isSome then
        .next (completeWith (setRegBit s (rexCtx m.ctx + 0x1C) 28 true) m 0x0D (g + 16 * i))
      else
        .next (dropLines (setRimg s m.ctx i { x.setLen g none with loading := some (m, g) }) m.ctx i g)

/-- Image offset of the first byte that cannot be written: its page lies in no valid PLAIN region. -/
def imageWriteFault (s : State) (c va n : Nat) : Option Nat :=
  let starts := va :: (((List.range (n / 65536 + 1)).map fun k => (va / 65536 + 1 + k) * 65536).filter
    fun a => decide (a < va + n))
  (starts.find? fun a => match regionAt s c a with
    | some r => decide (r.kind ≠ 0) || !ctxEnabled s c
    | none => true).map fun a => a - va

/-- Image offset of the first byte that cannot be read: a read error, or a translation fault. -/
def imageReadFault (s : State) (m : Cmd) (err : Option Nat) : Option Nat :=
  let n := ilBytes m
  let fault :=
    if bitAt (m.at 5 1) 0 && (readVirt s m.ctx (m.at 8 8) n).isNone then
      some (faultAt s m.ctx (m.at 8 8) n - m.at 8 8)
    else none
  least (match err with | some e => if e < n then some e else none | none => none) fault

/-- An IMAGE_LOAD succeeds: ACTIVE points to the written buffer (check 5 of R408). -/
def endImage (s : State) (m : Cmd) (g : Nat) : State :=
  let x := rimgOf s m.ctx (ilImg m)
  let n := (x.loads + 1) % 2 ^ 32
  let x := { x.setLen g (some (ilBytes m / 8)) with active := g, loads := n, loading := none }
  completeOk (setRimg s m.ctx (ilImg m) x) m (g + n * 2 ^ 32)

/-- Whether a write into a buffer still waits for a frame (R460, R478). -/
def imageWaits (s : State) (c va n : Nat) : Bool :=
  s.pat.waits.any fun w => match w with
    | .write c' a _ => c' == c && decide (va ≤ a) && decide (a < va + n)
    | _ => false

/-- A copied image is judged once all its writes are made: by its CRC. -/
def judgeImage (s : State) (m : Cmd) (g : Nat) (crcOk : Bool) : State :=
  if imageWaits s m.ctx (genVa s m.ctx (ilImg m) g) (ilBytes m) then
    setRimg s m.ctx (ilImg m)
      { rimgOf s m.ctx (ilImg m) with loading := some (m, g + if crcOk then 2 else 4) }
  else if crcOk then endImage s m g
  else failImage s m (12 * 2 ^ 28)

/-- IMAGE_LOAD_DONE: the image is copied and its CRC checked (R408); `err` is the image offset of a read
error, and `lost` the items that a full image-load queue has lost, after which the copy has started again (log entry
38). A copy whose writes wait for frames ends once they are made. -/
def execImageLoadDone (c : Fin 64) (img : Fin 16) (err : Option Nat) (s : State) (lost : Nat := 0) : Out :=
  match (rimgOf s c img).loading with
  | none => .next s
  | some (m, k) =>
    if 2 ≤ k then .next (judgeImage s m (k % 2) (decide (k < 4)))
    else
      let s := streamLoss s 0x680010 lost 0x680004 3
      let va := genVa s c img k
      let n := ilBytes m
      let src := fun (n : Nat) => (readSrc s c (bitAt (m.at 5 1) 0) (m.at 8 8) n).getD []
      match least (imageReadFault s m err) (imageWriteFault s c va n) with
      | some d => .next (failImage (unitWrite s c va (src d)).1 m (9 * 2 ^ 28 + d))
      | none => .next (judgeImage (unitWrite s c va (src n)).1 m k (crc64 (src n) == m.at 24 8))

/-- Whether a context's instruction region and digest area may be written (R406). -/
def rexCfgOpen (s : State) (c : Nat) : Bool := !ctxEnabled s c && ctxIdle s c

/-- A write of REX_CTX_IREG or REX_CTX_DIG, at block offset `o` (R406, R416). -/
def writeRexCfg (s : State) (c o w : Nat) : State :=
  if !rexCfgOpen s c then setRegBit s (rexCtx c + 0x1C) 31 true
  else
    let keep := if o = 0 then w / 2 ^ 21 * 2 ^ 21 else if o = 8 then w / 4096 * 4096 else w
    let s := setReg s (rexCtx c + o) keep
    if o < 8 then
      { s with rex := { s.rex with imgs := tmap (fun k x =>
          if k / 16 = c then { x with len0 := none, len1 := none } else x) s.rex.imgs } }
    else s

/-- REX_IREG_WRITE: a write of REX_CTX_IREG_LO or, with `hi`, of REX_CTX_IREG_HI. -/
def execRexIregWrite (c : Fin 64) (hi : Bool) (w : Word) (s : State) : Out :=
  .next (writeRexCfg s c (if hi then 4 else 0) w.toNat)

/-! ### Element programs (R412-R414) -/

/-- Whether a unit is OFFLINE, with no running or staged command. -/
def rexFree (s : State) (u : Nat) : Bool :=
  (tget {} s.disp.rex u).offline && (unitOf s u).run.isNone &&
  s.disp.runs.all fun e => !(e.2.kind == 3 && e.2.core == u && 1 ≤ e.2.state && e.2.state ≤ 3)

/-- The unit that the running element program uses. -/
def epUnit (s : State) : Option Nat := s.rex.ep.map fun e => fld e.1 28 22

/-- EP_REFUSED. -/
def epRefused (s : State) : State := setRegBit s 0x680104 2 true

/-- A write of REX_EP_CTL: fields, and with START a program that starts or is refused. -/
def writeEpCtl (s : State) (w : Nat) : State :=
  let v := setFld (setFld (setFld w 31 31 0) 29 29 0) 16 16 0
  if bitAt w 31 then
    let ops := (List.range (fld w 21 17 + 1)).map fun k => reg s (0x680180 + 4 * k)
    if rexFree s (fld w 28 22) && s.rex.ep.isNone && ops.all fun o => decide (fld o 31 27 ≤ 0x14) then
      { setReg s 0x680100 v with rex := { s.rex with ep := some (v, ops) } }
    else epRefused s
  else setReg s 0x680100 v

/-- EP_START: a write of REX_EP_CTL. -/
def execEpStart (w : Word) (s : State) : Out := .next (writeEpCtl s w.toNat)

/-- An FP32 operation on two patterns, rounded to nearest even. -/
def fp2 (f : FV → FV → FV) (a b : Nat) : Nat := encodeF f32 none (f (decodeF f32 a) (decodeF f32 b))

/-- The BF16 pattern of an FP32 pattern. -/
def toBf16 (a : Nat) : Nat :=
  match fmtOf 1 with
  | some f => encodeF f none (decodeF f32 a)
  | none => 0

/-- The result of an element operation: `d`, `a`, `b` are the values of DST, A and B (R414). -/
def epResult (op imm d a b : Nat) : Nat :=
  match op with
  | 0x01 => fp2 FV.add a b
  | 0x02 => fp2 (fun x y => x.add y.neg) a b
  | 0x03 => fp2 FV.mul a b
  | 0x04 => encodeF f32 none ((decodeF f32 d).add ((decodeF f32 a).mul (decodeF f32 b)))
  | 0x05 => fp2 FV.min a b
  | 0x06 => fp2 FV.max a b
  | 0x07 => unsigned 32 (toInt 32 none (decodeF f32 a))
  | 0x08 => encodeF f32 none (intFV (signed 32 a))
  | 0x09 => (a + b) % 2 ^ 32
  | 0x0A => (a + 2 ^ 32 - b) % 2 ^ 32
  | 0x0B => a * b % 2 ^ 32
  | 0x0C => a &&& b
  | 0x0D => a ||| b
  | 0x0E => a ^^^ b
  | 0x0F => a * 2 ^ (b % 32) % 2 ^ 32
  | 0x10 => a / 2 ^ (b % 32)
  | 0x11 => unsigned 32 (signed 16 imm)
  | 0x12 => imm * 2 ^ 16 + d % 2 ^ 16
  | 0x13 => if d ≠ 0 then a else b
  | 0x14 => toBf16 a
  | _ => d

/-- One element operation on E0-E7. -/
def epStep (e : List Nat) (o : Nat) : List Nat :=
  let dst := fld o 26 24
  e.set dst (epResult (fld o 31 27) (fld o 15 0) (e.getD dst 0) (e.getD (fld o 23 21) 0) (e.getD (fld o 20 18) 0))

/-- The program for element `e`: its result goes to TD and is compared with TE. The numbers carried are the
CRC and the count of words that differ. -/
def epElem (ctl : Nat) (ops : List Nat) (acc : RexUnit × Nat × Nat) (e : Nat) : RexUnit × Nat × Nat :=
  let (x, crc, bad) := acc
  let r := (ops.foldl epStep [tileWord x (fld ctl 15 12) e, tileWord x (fld ctl 11 8) e, e, 0, 0, 0, 0, 0]).getD 7 0
  let x := setTile x (fld ctl 7 4) e r
  (x, (leBytes 4 r).foldl crc64Byte crc, bad + b2n (tileWord x (fld ctl 3 0) e != r))

/-- What an ended element program leaves: TD, the CRC of its result, and the count of differing words. -/
def epFinish (s : State) (ctl u : Nat) (r : RexUnit × Nat × Nat) : State :=
  let s := setUnit { s with rex := { s.rex with ep := none } } u r.1
  let s := setReg64 s 0x680108 r.2.1
  let s := if bitAt ctl 30 then setReg s 0x680110 r.2.2 else s
  setRegBit s 0x680104 1 true

/-- EP_DONE: the running element program writes TD, its CRC and the count of differing words (R413). -/
def execEpDone (s : State) : Out :=
  match s.rex.ep with
  | none => .next s
  | some (ctl, ops) =>
    let u := fld ctl 28 22
    .next (epFinish s ctl u ((List.range 4096).foldl (epElem ctl ops) (unitOf s u, 0, 0)))

/-! ### OFFLINE and tiles (R416, R417) -/

/-- A write of REX_Un_STAT: OFFLINE; ignored while an element program runs (R417). -/
def writeOffline (s : State) (u w : Nat) : State :=
  if s.rex.ep.isSome then epRefused s
  else { s with disp := { s.disp with rex := tmod {} s.disp.rex u fun x => { x with offline := bitAt w 31 } } }

/-- OFFLINE: a write of REX_Un_STAT. -/
def execOffline (u : Fin 128) (w : Word) (s : State) : Out := .next (writeOffline s u w.toNat)

/-- An access to REX_TILE_DATA: the selected word read or written, and ELEM moves on. -/
def tileAccess (s : State) (write : Option Nat) : State :=
  let sel := reg s 0x680114
  let u := fld sel 31 25
  let t := fld sel 24 21
  let e := fld sel 11 0
  let ok := rexFree s u && epUnit s != some u
  let s := setRegFld s 0x680114 11 0 (e + 1)
  match ok, write with
  | true, some w => modUnit s u fun x => setTile x t e w
  | true, none => { s with hif := { s.hif with rdata := tileWord (unitOf s u) t e } }
  | false, some _ => epRefused s
  | false, none => epRefused { s with hif := { s.hif with rdata := 0 } }

/-- REX_TILE_DATA: a write of the word, or a read. -/
def execRexTileData (write : Option Word) (s : State) : Out := .next (tileAccess s (write.map fun w => w.toNat))

end Sys2Proof.Machine
end

