-- ==== Sys2Proof/Machine/RexExe.lean ====
section
/-! DEFINITION. The execute stream of a REX (R427-R429, R438-R445): operands, element-wise arithmetic,
conversions, reductions, scans and accumulator moves. -/

namespace Sys2Proof.Machine

open Sys2Proof

/-! ### Format X (R427, R428) -/

def xD (w : Nat) : Nat := fld w 51 47
def xA (w : Nat) : Nat := fld w 46 42
def xB (w : Nat) : Nat := fld w 41 37
def xC (w : Nat) : Nat := fld w 36 32
def xFmt (w : Nat) : Nat := fld w 31 28
def xRnd (w : Nat) : Bool := bitAt w 27
def xAcci (w : Nat) : Nat := fld w 26 21
def xRows (w : Nat) : Nat := fld w 20 15 + 1
def xSpec14 (w : Nat) : Bool := bitAt w 14
def xDfmt (w : Nat) : Nat := fld w 14 11
def xPack (w : Nat) : Nat := fld w 10 8

/-- Whether a code may stand for a source, and for a destination. -/
def srcOkCode (c : Nat) : Bool := c < 0x14
def dstOkCode (c : Nat) : Bool := c < 0x10 || (0x14 ≤ c && c ≤ 0x16)

/-- Queue that a source code reads, and whether it pops. -/
def srcQueue (c : Nat) : Option (Nat × Bool) :=
  if c = 0x10 then some (0, true) else if c = 0x11 then some (1, true)
  else if c = 0x12 then some (0, false) else if c = 0x13 then some (1, false) else none

/-- Queues that a destination code pushes to. -/
def dstQueues (c : Nat) : List Nat :=
  if c = 0x14 then [2] else if c = 0x15 then [3] else if c = 0x16 then [2, 3] else []

/-- One queue named both to pop and to peek. -/
def popPeek (l : List Nat) : Bool :=
  (l.contains 0x10 && l.contains 0x12) || (l.contains 0x11 && l.contains 0x13)

/-- The operands that an instruction uses: sources, whether B may be ACC, and the destination. -/
structure Uses where
  a : Bool := false
  b : Bool := false
  c : Bool := false
  d : Bool := true
  accB : Bool := true
  deriving DecidableEq, Repr

/-- Source codes that an instruction uses. -/
def usedCodes (k : Uses) (w : Nat) : List Nat :=
  (if k.a then [xA w] else []) ++ (if k.b && xB w != 0x18 then [xB w] else []) ++ (if k.c then [xC w] else [])

/-- Reserved encodings of the operand codes (R428). -/
def codesBad (k : Uses) (w : Nat) : Bool :=
  (usedCodes k w).any (fun c => !srcOkCode c) || (k.b && xB w == 0x18 && !k.accB) ||
  (k.d && !dstOkCode (xD w)) || popPeek (usedCodes k w)

/-! ### Reading operands (R429) -/

/-- The rows of an instruction that pass now: `n` rows from row `lo`. -/
structure Rows where
  lo : Nat
  n : Nat
  deriving DecidableEq, Repr

/-- Word indices of the rows. -/
def Rows.words (k : Rows) : List Nat := rangeFrom (64 * k.lo) (64 * k.n)

/-- Word `i` of a source operand, for a row of `k`: a popped queue has its head at row `k.lo`, and a peek reads
row r's item r places behind the head (R429). -/
def srcAt (y : RexUnit) (code : Nat) (k : Rows) (i : Nat) : Nat :=
  match srcQueue code with
  | some (q, pop) => ((aqOf y q).getD (i / 64 - if pop then k.lo else 0) []).getD (i % 64) 0
  | none => tileWord y code i

/-- How many rows from row `lo` on a source operand can give now. -/
def srcRows (y : RexUnit) (code lo : Nat) : Option Nat :=
  (srcQueue code).map fun e => (aqOf y e.1).length - if e.2 then 0 else lo

/-- The first source whose row `lo` is not there: its queue. -/
def lacking (y : RexUnit) (codes : List Nat) (lo : Nat) : Option Nat :=
  (codes.find? fun c => srcRows y c lo == some 0).bind fun c => (srcQueue c).map fun e => e.1

/-- Queues popped once each by their rows. -/
def popAll (y : RexUnit) (codes : List Nat) (rows : Nat) : RexUnit :=
  let qs := (codes.filterMap fun c => match srcQueue c with
    | some (q, true) => some q
    | _ => none).dedup
  qs.foldl (fun y q => setAq y q ((aqOf y q).drop rows)) y

/-- Whether a row among `n` from row `lo` is the newest item of a queue of which words may still be arriving
(R37). -/
def readsArriving (y : RexUnit) (codes : List Nat) (lo n : Nat) : Option Nat :=
  (codes.find? fun c => match srcQueue c, srcRows y c lo with
    | some (q, _), some k => y.arriving.contains q && decide (k ≤ n)
    | _, _ => false).bind fun c => (srcQueue c).map fun e => e.1

/-! ### Results -/

/-- An exact result: a value to be rounded once, or bits that stand as they are. -/
inductive Res where
  | val (v : FV)
  | bits (n : Nat)
  deriving DecidableEq, Repr

/-- A result rounded once to a format code. -/
def roundRes (code : Nat) (mode : Mode) : Res → Nat
  | .bits n => n
  | .val v =>
    match fmtOf code with
    | some f => encodeF f mode v
    | none => unsigned (fmtBits code) (toInt (fmtBits code) mode v)

/-- A result with its word index and its place in the word. -/
structure Elem where
  word : Nat
  place : Nat
  res : Res
  deriving DecidableEq, Repr

/-- Results rounded in order: with RND each takes the next random bits of its lane (R398, R440). -/
def roundAll (vint task code : Nat) (rndOn : Bool) :
    List Elem → Table Nat → List (Nat × Nat × Nat) × Table Nat
  | [], lanes => ([], lanes)
  | e :: es, lanes =>
    if rndOn then
      let p := e.word % Config.rexLanes
      let n := tget 0 lanes p
      let v := roundRes code (some (rnd vint task p n)) e.res
      let (l, lanes) := roundAll vint task code rndOn es (tput lanes p (n + 1))
      ((e.word, e.place, v) :: l, lanes)
    else
      let (l, lanes) := roundAll vint task code rndOn es lanes
      ((e.word, e.place, roundRes code none e.res) :: l, lanes)

/-- Elements of the rows `k` written to a tile, or to whole rows that are pushed. `width` is an element's bits. -/
def writeElems (y : RexUnit) (dst : Nat) (k : Rows) (width : Nat) (fill : Nat → Nat)
    (l : List (Nat × Nat × Nat)) : RexUnit :=
  if (dstQueues dst).isEmpty then
    l.foldl (fun y e =>
      setTile y dst e.1 (setFld (tileWord y dst e.1) (width * e.2.1 + width - 1) (width * e.2.1) e.2.2)) y
  else
    let blank : Table Nat := k.words.foldl
      (fun t i => if fill i = 0 then t else tput t i (fill i)) []
    let t := l.foldl (fun t e =>
      tput t e.1 (setFld (tget 0 t e.1) (width * e.2.1 + width - 1) (width * e.2.1) e.2.2)) blank
    let items := (rangeFrom k.lo k.n).map fun r => (List.range 64).map fun c => tget 0 t (64 * r + c)
    (dstQueues dst).foldl (fun y q => setAq y q (aqOf y q ++ items)) y

/-- Image-relative ID of a command's task, the `t` of R398. -/
def rndTask (s : State) (x : Run) : Nat :=
  match imgOf s x.img with
  | some i => relTask i x.task
  | none => x.task

/-- What an instruction's rows have written over in the tile and the ACC entries of a unit, from `y` to `z`. -/
def wroteOver (y z : RexUnit) (dst : Nat) (k : Rows) : List RexWrite :=
  (k.words.filterMap fun i =>
    if tileWord y dst i = tileWord z dst i then none else some (.tile dst i (tileWord y dst i))) ++
  ((List.range 64).filterMap fun j => if accOf y j = accOf z j then none else some (.acc j (accOf y j)))

/-- The rows of an execute instruction pass: their effect, their pops, and the items and instructions that found no
place before. -/
def passExe (s : State) (u : Nat) (y z : RexUnit) (codes qs : List Nat) (dst : Nat) (k : Rows) (all : Nat) : State :=
  let z := if k.lo + k.n < all then { z with exe := { z.exe with undo := z.exe.undo ++ wroteOver y z dst k } } else z
  let z := takeLate z.late (popAll z codes k.n)
  let left := z.arriving.filter fun q => 2 ≤ q && !qs.contains q
  passRows (setUnit s u { z with arriving := left ++ qs.filter fun q => cutsThrough s u q }) u true k.n all

/-- An execute instruction with its checks: reserved encodings, then its queues; `go` gives the unit after the
effect of the rows that pass, which are as many as the queues can serve. A row that finds a queue empty or full
slips the static schedule, with no result of the instruction left, and stalls in interlocked mode; of an item that a cut-through reader has begun, whether
a word has not arrived is left open (R37, R388, R450, R452). -/
def exeInstr (s : State) (u op : Nat) (k : Uses) (bad : Nat → Bool)
    (go : State → Run → RexUnit → Nat → Rows → RexUnit) : Out :=
  match issueAt s u true op with
  | .none => .next s
  | .stop s => .next (settle s)
  | .go r x pc w =>
    if codesBad k w || bad w then .next (settle (progFault s u r x 3 pc 0))
    else
      let y := unitOf s u
      let codes := usedCodes k w
      let lo := y.exe.rows
      let qs := if k.d then dstQueues (xD w) else []
      let full := qs.filter fun q => decide (64 ≤ (aqOf y q).length)
      let n := qs.foldl (fun n q => min n (64 - (aqOf y q).length))
        ((codes.filterMap fun c => srcRows y c lo).foldl min (xRows w - lo))
      let rows : Rows := { lo := lo, n := n }
      let pass : State → Out := fun s => .next (passExe s u y (go s x y w rows) codes qs (xD w) rows (xRows w))
      match lacking y codes lo, full, readsArriving y codes lo n with
      | some q, _, _ =>
        if x.locked then .next s else .next (settle (rexSlip s u r x pc q 0 qs true))
      | none, q :: l, _ =>
        if x.locked then .next s else .next (settle (pushSlip s u r x pc (q :: l) qs true))
      | none, [], none => pass s
      | none, [], some q =>
        let (d, s) := draw s
        if Config.freeBelow d 2 = 0 then pass s
        else
          let s := modUnit s u fun y => { y with arriving := y.arriving.filter fun k => k != q }
          if x.locked then .next s else .next (settle (rexSlip s u r x pc q 0 qs true))

/-! ### Element-wise instructions (R438-R440) -/

/-- The value of an element of a format code. -/
def elemVal (code v : Nat) : FV :=
  match fmtOf code with
  | some f => decodeF f v
  | none => intFV (signed (fmtBits code) v)

/-- The value of an ACC entry as an operand of a format code (R439). -/
def accVal (code v : Nat) : FV :=
  match fmtOf code with
  | some _ => decodeF f64 v
  | none => intFV (signed 64 v)

/-- Results of an element-wise function over rows of words. -/
def mapElems (y : RexUnit) (w : Nat) (k : Uses) (rows : Rows) (f : FV → FV → FV → FV) : List Elem :=
  let code := xFmt w
  let isAcc := k.b && xB w == 0x18
  let bAcc := accVal code (accOf y (xAcci w))
  rows.words.flatMap fun i =>
    let ea := wordElems code (if k.a then srcAt y (xA w) rows i else 0)
    let eb := wordElems code (if k.b && !isAcc then srcAt y (xB w) rows i else 0)
    let ec := wordElems code (if k.c then srcAt y (xC w) rows i else 0)
    (List.range (32 / fmtBits code)).map fun j =>
      { word := i, place := j
        res := .val (f (elemVal code (ea.getD j 0)) (if isAcc then bAcc else elemVal code (eb.getD j 0))
          (elemVal code (ec.getD j 0))) }

/-- Results rounded and written to D. -/
def putResults (s : State) (x : Run) (y : RexUnit) (w : Nat) (k : Rows) (code width : Nat) (fill : Nat → Nat)
    (l : List Elem) : RexUnit :=
  let (out, lanes) := roundAll x.vint (rndTask s x) code (xRnd w) l y.lanes
  writeElems { y with lanes := lanes } (xD w) k width fill out

/-- An element-wise instruction: `ints` allows INT32, `rounds` allows RND = 1 for floating formats. -/
def elemInstr (s : State) (u op : Nat) (k : Uses) (ints rounds : Bool) (f : FV → FV → FV → FV) : Out :=
  exeInstr s u op k
    (fun w => decide (3 < xFmt w) || (xFmt w == 3 && !ints) || (xRnd w && (!rounds || xFmt w == 3)))
    (fun s x y w rows => putResults s x y w rows (xFmt w) (fmtBits (xFmt w)) (fun _ => 0) (mapElems y w k rows f))

/-- ADD (R438). -/
def execAdd (u : Fin 128) (s : State) : Out :=
  elemInstr s u 0x20 { a := true, b := true } true true fun a b _ => a.add b
/-- SUB (R438). -/
def execSub (u : Fin 128) (s : State) : Out :=
  elemInstr s u 0x21 { a := true, b := true } true true fun a b _ => a.add b.neg
/-- MUL (R438). -/
def execMul (u : Fin 128) (s : State) : Out :=
  elemInstr s u 0x22 { a := true, b := true } true true fun a b _ => a.mul b
/-- FMA: C + A x B, rounded once (R438). -/
def execFma (u : Fin 128) (s : State) : Out :=
  elemInstr s u 0x23 { a := true, b := true, c := true } true true fun a b c => (a.mul b).add c
/-- MIN (R438). -/
def execMin (u : Fin 128) (s : State) : Out :=
  elemInstr s u 0x24 { a := true, b := true } true false fun a b _ => a.min b
/-- MAX (R438). -/
def execMax (u : Fin 128) (s : State) : Out :=
  elemInstr s u 0x25 { a := true, b := true } true false fun a b _ => a.max b
/-- ABS (R438). -/
def execAbs (u : Fin 128) (s : State) : Out := elemInstr s u 0x26 { a := true } true false fun a _ _ => a.abs
/-- NEG (R438). -/
def execNeg (u : Fin 128) (s : State) : Out := elemInstr s u 0x27 { a := true } true false fun a _ _ => a.neg
/-- RCP (R438, R439). -/
def execRcp (u : Fin 128) (s : State) : Out := elemInstr s u 0x28 { a := true } false true fun a _ _ => a.rcp
/-- RSQ (R438, R439). -/
def execRsq (u : Fin 128) (s : State) : Out := elemInstr s u 0x29 { a := true } false true fun a _ _ => a.rsq
/-- SQRT (R438, R439). -/
def execSqrt (u : Fin 128) (s : State) : Out := elemInstr s u 0x2A { a := true } false true fun a _ _ => a.sqrt

/-- MOV: A bit for bit (R438). -/
def execMov (u : Fin 128) (s : State) : Out :=
  exeInstr s u 0x2B { a := true } (fun w => decide (6 < xFmt w) || xRnd w) fun _ _ y w k =>
    writeElems y (xD w) k 32 (fun _ => 0) (k.words.map fun i => (i, 0, srcAt y (xA w) k i))

/-! ### Conversion and split weights (R441, R442) -/

/-- Reserved encodings of CVT (R441). -/
def cvtBad (w : Nat) : Bool :=
  let ws := fmtBits (xFmt w)
  let wd := fmtBits (xDfmt w)
  let pack := xPack w
  let queue := (srcQueue (xA w)).isSome || !(dstQueues (xD w)).isEmpty
  decide (6 < xFmt w) || decide (6 < xDfmt w) || decide (xRows w ≠ 64) || decide (4 < pack) ||
  (if pack = 4 then ws != 32 || wd == 32
   else (if wd < ws then decide (ws / wd ≤ pack) else if ws < wd then decide (wd / ws ≤ pack) else pack != 0) ||
     (queue && ws != wd))

/-- Element `i` of a tile's words in a width. -/
def tileElem (word : Nat → Nat) (width i : Nat) : Nat :=
  let per := 32 / width
  fld (word (i / per)) (width * (i % per) + width - 1) (width * (i % per))

/-- Results of CVT, each at its destination (R441). -/
def cvtElems (y : RexUnit) (w : Nat) (k : Rows) : List Elem :=
  let ws := fmtBits (xFmt w)
  let wd := fmtBits (xDfmt w)
  let a := srcAt y (xA w) k
  let src := fun i => Res.val (elemVal (xFmt w) (tileElem a ws i))
  if xPack w = 4 then
    (List.range 4096).map fun i => { word := i, place := 32 / wd - 1, res := src i }
  else
    let n := 4096 * 32 / max ws wd
    let at_ := fun d => (d / (32 / wd), d % (32 / wd))
    if wd < ws then
      (List.range n).map fun i =>
        let p := at_ (xPack w * (4096 * 32 / ws) + i)
        { word := p.1, place := p.2, res := src i }
    else
      (List.range n).map fun i =>
        let p := at_ i
        { word := p.1, place := p.2, res := src (if ws < wd then xPack w * (4096 * 32 / wd) + i else i) }

/-- CVT (R441). -/
def execCvt (u : Fin 128) (s : State) : Out :=
  exeInstr s u 0x2C { a := true } cvtBad fun s x y w k =>
    let wd := fmtBits (xDfmt w)
    let l := (cvtElems y w k).filter fun e =>
      decide (k.lo ≤ e.word / 64) && decide (e.word / 64 < k.lo + k.n)
    let y := if xPack w = 4 && (dstQueues (xD w)).isEmpty then
        k.words.foldl (fun y i => setTile y (xD w) i 0) y
      else y
    putResults s x y w k (xDfmt w) wd (fun _ => 0) l

/-- SWU: W + B x ACC[ACCI] with W joined from A and C (R442). -/
def execSwu (u : Fin 128) (s : State) : Out :=
  exeInstr s u 0x2D { a := true, b := true, c := true, accB := false } (fun w => decide (xFmt w ≠ 0))
    fun s x y w rows =>
      let k := decodeF f64 (accOf y (xAcci w))
      let l : List Elem := rows.words.map fun i =>
        let j := srcAt y (xA w) rows i / 65536 * 65536 + srcAt y (xC w) rows i % 65536
        { word := i, place := 0, res := .val ((decodeF f32 j).add ((decodeF f32 (srcAt y (xB w) rows i)).mul k)) }
      putResults s x y w rows 0 32 (fun _ => 0) l

/-! ### Reductions and scans (R443, R444) -/

/-- The ACC pattern of an element: binary64, or a 64-bit integer. -/
def toAcc (code v : Nat) : Nat :=
  match fmtOf code with
  | some f => encodeF f64 none (decodeF f v)
  | none => unsigned 64 (signed (fmtBits code) v)

/-- The combination of RED for a format and ROP. -/
def redOp (code rop : Nat) : Nat → Nat → Nat :=
  if (fmtOf code).isSome then
    if rop = 1 then fun a b => encodeF f64 none ((decodeF f64 a).max (decodeF f64 b))
    else if rop = 2 then fun a b => encodeF f64 none ((decodeF f64 a).min (decodeF f64 b))
    else add64
  else
    if rop = 1 then fun a b => if signed 64 a ≤ signed 64 b then b else a
    else if rop = 2 then fun a b => if signed 64 a ≤ signed 64 b then a else b
    else addI64

/-- An element as RED takes it in: SUMSQ squares it first. -/
def redIn (code rop v : Nat) : Nat :=
  let a := toAcc code v
  if rop = 3 then
    if (fmtOf code).isSome then mul64 a a
    else unsigned 64 (satInt 64 (signed 64 a * signed 64 a))
  else a

/-- RED (R443): along rows as they come, or along word columns once all rows are there. -/
def execRed (u : Fin 128) (s : State) : Out :=
  exeInstr s u 0x30 { a := true, d := false }
    (fun w => decide (6 < xFmt w) || xRnd w || (!xSpec14 w && bitAt w 11 && decide (xRows w - 1 < xAcci w)))
    fun _ _ y w k =>
      let code := xFmt w
      let rop := fld w 13 12
      let f := redOp code rop
      let elems := fun v => (wordElems code v).map fun v => redIn code rop v
      let put := fun (y : RexUnit) (k : Nat) (l : List Nat) =>
        let v := treeSum f 0 l
        setAcc y k (if bitAt w 11 then f (accOf y k) v else v)
      let rows := (rangeFrom k.lo k.n).map fun r => (List.range 64).map fun c => srcAt y (xA w) k (64 * r + c)
      if !xSpec14 w then
        (rows.zipIdx k.lo).foldl (fun y e => put y e.2 (e.1.flatMap elems)) y
      else if k.lo + k.n < xRows w then { y with exe := { y.exe with held := y.exe.held ++ rows } }
      else
        let all := y.exe.held ++ rows
        (List.range 64).foldl (fun y c => put y c (all.flatMap fun r => elems (r.getD c 0))) y

/-- The running values along a row: a set flag starts a segment. -/
def scanRow (add : Nat → Nat → Nat) : Nat → List (Nat × Bool) → List Nat × Nat
  | v, [] => ([], v)
  | v, (a, start) :: l =>
    let v := add (if start then 0 else v) a
    let (r, last) := scanRow add v l
    (v :: r, last)

/-- SCAN and SSCAN over rows (R444). -/
def scanRows (s : State) (x : Run) (w : Nat) (k : Rows) (seg : Bool) (y : RexUnit) : RexUnit :=
  let code := xFmt w
  let a := srcAt y (xA w) k
  let c := fun i => if seg then srcAt y (xC w) k i else 0
  let add := if (fmtOf code).isSome then add64 else addI64
  let step := fun (acc : RexUnit × List Elem) (r : Nat) =>
    let vals := (List.range 64).flatMap fun i => (wordElems code (a (64 * r + i))).map fun v => toAcc code v
    let marks := (List.range 64).flatMap fun i => (wordElems code (c (64 * r + i))).map fun v =>
      seg && decide (v ≠ 0)
    let start := if xSpec14 w then accOf acc.1 r else 0
    let (run, last) := scanRow add start (vals.zip marks)
    let per := 32 / fmtBits code
    let es : List Elem := run.zipIdx.map fun e =>
      { word := 64 * r + e.2 / per, place := e.2 % per, res := .val (accVal code e.1) }
    (if xSpec14 w then setAcc acc.1 r last else acc.1, acc.2 ++ es)
  let (y, l) := (rangeFrom k.lo k.n).foldl step (y, [])
  putResults s x y w k code (fmtBits code) (fun _ => 0) l

/-- SCAN (R444). -/
def execScan (u : Fin 128) (s : State) : Out :=
  exeInstr s u 0x31 { a := true } (fun w => decide (6 < xFmt w)) fun s x y w k => scanRows s x w k false y

/-- SSCAN (R444). -/
def execSscan (u : Fin 128) (s : State) : Out :=
  exeInstr s u 0x32 { a := true, c := true } (fun w => decide (6 < xFmt w)) fun s x y w k => scanRows s x w k true y

/-! ### Accumulators (R445) -/

/-- ACCW: ACC[r] into row r of D (R445). Other elements of a pushed row that only one element is
written of are left open. -/
def execAccw (u : Fin 128) (s : State) : Out :=
  let d := s.fresh
  exeInstr { s with fresh := d + 1 } u 0x33 {}
    (fun w =>
      let per := 64 * (32 / fmtBits (xFmt w))
      decide (6 < xFmt w) ||
      (xSpec14 w && (decide (per ≤ fld w 13 7) || (!(dstQueues (xD w)).isEmpty && decide (xRows w ≠ 64)))))
    fun s x y w k =>
      let code := xFmt w
      let per := 32 / fmtBits code
      let rows := rangeFrom k.lo k.n
      let one := fun r i => ({ word := 64 * r + i / per, place := i % per, res := .val (accVal code (accOf y r)) } : Elem)
      let l := if xSpec14 w then rows.map fun r => one r (fld w 13 7)
        else rows.flatMap fun r => (List.range (64 * per)).map fun i => one r i
      let fill := fun i => if xSpec14 w then Config.freeCell d i % 2 ^ 32 else 0
      putResults s x y w k code (fmtBits code) fill l

/-- ACCZ: ACC entries cleared (R445). -/
def execAccz (u : Fin 128) (s : State) : Out :=
  exeInstr s u 0x34 { d := false } xRnd fun _ _ y w _ =>
    (List.range (xRows w)).foldl (fun y k => if xAcci w + k < 64 then setAcc y (xAcci w + k) 0 else y) y

/-- ACCSUM: the pairwise-tree sum of ACC entries (R445). -/
def execAccsum (u : Fin 128) (s : State) : Out :=
  exeInstr s u 0x35 { d := false } (fun w => decide (6 < xFmt w) || xRnd w) fun _ _ y w _ =>
    let add := if (fmtOf (xFmt w)).isSome then add64 else addI64
    setAcc y (xAcci w) (treeSum add 0 ((List.range (xRows w)).map fun k => accOf y k))

end Sys2Proof.Machine
end

