-- ==== Sys2Proof/Machine/Tst.lean ====
section
/-! DEFINITION. Resets, bring-up and link test (R48, R61, R62, R80, R668-R687). -/

namespace Sys2Proof.Machine

open Sys2Proof

/-! ### Link states -/

/-- The PRBS direction of a selector value; none for the reserved KIND and for links that do not exist
(R687). DIR is ignored for a port. -/
def prbsKey (sel : Nat) : Option Nat :=
  let i := sel % 32
  let k := sel / 64 % 4
  if k = 0 then (if i < Config.numFields then some (sel % 256) else none)
  else if k = 1 then (if i + 1 < Config.numFields then some (sel % 256) else none)
  else if k = 2 then (if i < Config.linkPorts then some (128 + i) else none)
  else none

/-- A PRBS direction. -/
def prbsOf (s : State) (k : Nat) : Prbs := tget {} s.tst.prbs k

/-- A PRBS direction replaced. -/
def setPrbs (s : State) (k : Nat) (x : Prbs) : State :=
  { s with tst := { s.tst with prbs := tput s.tst.prbs k x } }

/-- Lanes of a direction (R676). -/
def prbsLanes (k : Nat) : Nat := if k / 64 = 0 then 1184 else if k / 64 = 1 then 576 else 1024

/-- Whether a PRBS test runs on either direction of a vertical link or field link. -/
def linkTested (s : State) (k : Nat) : Bool := (prbsOf s k).running || (prbsOf s (k + 32)).running

/-- FIELD_READY of GLB_FIELD_READY: a field asked to be powered down is out of use (R61, R88). -/
def fieldShown (s : State) (f : Nat) : Bool := fieldReady s f && !(fieldOf s f).offReq

/-- A field's vertical link is untrained again. -/
def Field.untrained (x : Field) : Field := { x with train := 0, clkFail := false, sparesDown := 0, sparesUp := 0 }

/-- A field is untrained again, and with it its field links (R675); one that has FAILED stays so until CORE_RST_N
(R671, R673). -/
def untrain (s : State) (f : Nat) : State :=
  let x := fieldOf s f
  let s := setField s f (if x.train = 3 then x else x.untrained)
  { s with tst := { s.tst with flDone := s.tst.flDone.filter fun n => n != f && n + 1 != f } }

/-- TEST_REFUSED set. -/
def testRefused (s : State) : State := setRegBit s 0xB80000 26 true

/-- A LINK_TRAIN_FAIL record (R672). -/
def trainFail (s : State) (detail lanes : Nat) : State :=
  record (setRegBit s 0xB80000 25 true) 2 0x16 0x93 none detail lanes

/-! ### CORE_RST_N (R48, R80, R279) -/

/-- The fresh frames of a command wait for the release of CORE_RST_N (R279). -/
def waitReset (s : State) (id : Nat) (x : Run) : State :=
  let frames := x.fresh.map fun f => f.frame
  let s := frames.foldl (fun s n => setUse s n 4) (modRun s id fun y => { y with fresh := [] })
  { s with disp := { s.disp with resetFrames := s.disp.resetFrames ++ frames } }

/-- One uncommitted command is killed with CORE_RESET, and a kill in progress ends: no END will come. Its fresh
frames wait for the release. -/
def coreKill (s : State) (id : Nat) : State :=
  match runOf s id with
  | none => s
  | some x =>
    let s := if x.state = 3 then chargeRun s id else s
    let s :=
      if x.killed.isSome then s
      else
        let s := markKilled s id x 6
        if x.state = 3 then s else traceKilled s x 6 (decide (x.state ≤ 2))
    finishKill (waitReset s id x) id false

/-- The core side falls back to its reset values: queues of the vertical links, training, FAILED marks, trace
buffers, REX contents and tests of its links. Pins keep their values, and a stamp counter keeps its last time
word and its memory of the stamp before (DESIGN CHOICE, log entry 39: R104 says only that the counters reload). -/
def coreClear (s : State) : State :=
  let s := (List.range Config.numFields).foldl (fun s f =>
    setField s f { (fieldOf s f).untrained with dispQ := [], cplQ := [], effQ := [], grantQ := [], bist := false }) s
  let trcKeys := (s.trc.bufs.map fun e => e.1) ++ (List.range 8).map fun f => 16384 + f
  let forget := fun (t : Table Nat) => trcKeys.foldl (fun t k => tdel t k) t
  let s := { s with
    disp := { s.disp with
      cores := tmap (fun _ c => { c with failed := false, gateReq := false, idleSince := s.gtb.now }) s.disp.cores
      rex := tmap (fun _ x => { x with failed := false }) s.disp.rex }
    trc := { s.trc with
      bufs := [], fldQ := [], lost := [], flushes := s.trc.flushes.map fun e => (e.1, forget e.2) }
    rex := { s.rex with units := tmap (fun _ x => { spad := x.spad }) s.rex.units, ep := none }
    tst := { s.tst with
      coreMarch := [], flDone := []
      prbs := tmap (fun k x => if k < 128 then { x with running := false } else x) s.tst.prbs } }
  setReg (setReg (setRegBit s 0xB80000 29 false) 0xB8000C 0) 0xB80010 0

/-- The assertion of CORE_RST_N (R48): the kills that end a step go first, and the step is torn down with them
(R276). -/
def coreAssert (s : State) : State :=
  let s := { s with disp := { s.disp with coreRst := true } }
  let s := ((victims s fun _ => true).filter fun id => killsLimit s 6 id).foldl (fun s id => tearLimit (coreKill s id)) s
  endEmptied (settle (coreClear ((victims s fun _ => true).foldl coreKill s)))

/-- CORE_RST_N_ASSERT. -/
def execCoreRstNAssert (s : State) : Out :=
  let t := { s with tst := { s.tst with coreLow := true } }
  if s.disp.coreRst then .next t else .next (coreAssert t)

/-- The core side leaves reset: frames held for it return, and its march begins (R48, R671). -/
def coreRelease (s : State) : State :=
  let s := (s.disp.quarantine ++ s.disp.resetFrames).foldl freeFrame s
  { s with
    disp := { s.disp with quarantine := [], resetFrames := [], coreRst := false }
    tst := { s.tst with coreMarch := List.range Config.numFields } }

/-- CORE_RST_N_RELEASE: without effect while another reset is low (R668). -/
def execCoreRstNRelease (s : State) : Out :=
  let low := s.tst.coreLow
  let s := { s with tst := { s.tst with coreLow := false } }
  if s.tst.celLow || !low then .next s else .next (coreRelease s)

/-! ### CELLAR_RST_N and PORST_N (R80, R669) -/

/-- Every state of the block at its reset value, with the resets low: only what stands outside the block stays,
its pins and the memories. -/
def cellarClear (s : State) (wraps : Table Nat) : State :=
  { State.reset with
    pending := s.pending
    fresh := s.fresh
    mem := s.mem
    host := s.host
    clk := tmap (fun _ k => { clk := k.clk, edges := k.edges, tickStr := decide (k.clk = 1)
                              tickStop := decide (2 ≤ k.clk) }) s.clk
    disp := { State.reset.disp with
      coreRst := true
      cores := tmap (fun _ c => { gateAck := c.gateAck }) s.disp.cores
      fields := tmap (fun _ f => { offReq := f.offReq }) s.disp.fields }
    rex := { units := tmap (fun _ x => { spad := x.spad }) s.rex.units }
    lnk := { ports := tmap (fun _ x => { up := x.up }) s.lnk.ports }
    tst := { celLow := true, coreLow := s.tst.coreLow, celMarch := false, coreMarch := [], wraps := wraps } }

/-- CELLAR_RST_N: the cellar and with it the core side are reset. -/
def execCellarRstN (s : State) : Out := .next (cellarClear s s.tst.wraps)

/-- PORST_N: the whole block is reset, the test wrappers included. -/
def execPorstN (s : State) : Out := .next (cellarClear s [])

/-- CELLAR_RESET_RELEASE: the cellar's march begins, and the core side leaves reset with it unless CORE_RST_N is
low (R668, R669). -/
def execCellarResetRelease (s : State) : Out :=
  if !s.tst.celLow then .next s
  else
    let s := { s with tst := { s.tst with celLow := false, celMarch := true } }
    .next (if s.tst.coreLow then s else coreRelease s)

/-- What the cellar's units keep in memories goes to its reset value: the tables of R80 are empty, the SRAM is zero and
every key slot EMPTY (R162, R669). -/
def cellarMemories (s : State) : State :=
  { s with
    cau := { s.cau with slots := [] }, mgc := { s.mgc with sram := [] }
    tge := {}, syn := {}, sls := {}, chn := {}, blq := {}, pat := { up := s.pat.up }
    psm := { s.psm with parcels := [], bound := [], closed := [], t1 := [], captured := [] }
    disp := { s.disp with
      ready := [], timers := [], runs := [], readyQ := [], gates := [], quarantine := [], beats := [] } }

/-- CELLAR_BIST_DONE: the marches of the cellar end with `repairs` rows repaired; `bad` is the first memory and
row that cannot be (R669, R670). Each test ends by writing every word of its memory to its reset value. -/
def execCellarBistDone (repairs : Nat) (bad : Option (Nat × Nat)) (s : State) : Out :=
  if !s.tst.celMarch then .next s
  else
    let s := cellarMemories { s with tst := { s.tst with celMarch := false } }
    let s := setReg (setRegBit s 0xB80000 31 true) 0xB80004 (repairs % 65536)
    match bad with
    | none => .next (cellarUp s)
    | some (m, row) =>
      let s := setReg (setRegBit s 0xB80000 30 true) 0xB80008 (m % 65536 * 65536 + row % 65536)
      .next (record s 3 0x16 0x90 none m row)

/-! ### Core-side march and training (R671-R675) -/

/-- The field of a unit by its number in a UNIT_BIST_FAIL record. -/
def unitField (d : Nat) : Nat :=
  if d < 0x8000 then fieldOfCore d else if d < 0xF000 then fieldOfRex (d - 0x8000) else d - 0xF000

/-- A unit with an unrepairable memory is marked (R671). -/
def markUnit (s : State) (e : Nat × Nat) : State :=
  let d := e.1
  let s :=
    if d < 0x8000 then failCore s d
    else if d < 0xF000 then failRex s (d - 0x8000)
    else setField s (d - 0xF000) { fieldOf s (d - 0xF000) with train := 3 }
  let s := setRegBit (setReg s 0xB8000C (satAdd 13 (reg s 0xB8000C) 1)) 0xB80000 28 true
  record s 1 0x16 0x91 none d e.2

/-- CORE_BIST_DONE: the march of a field's core side ends; `bad` lists units with an unrepairable memory and the
memory's instance number (R671). -/
def execCoreBistDone (f : Fin 8) (bad : List (Nat × Nat)) (s : State) : Out :=
  if !s.tst.coreMarch.contains f.val then .next s
  else
    let s := (bad.filter fun e => unitField e.1 == f.val).foldl markUnit s
    let left := s.tst.coreMarch.filter fun g => g != f.val
    let s := setField { s with tst := { s.tst with coreMarch := left } } f { fieldOf s f with bist := true }
    .next (if left.isEmpty then setRegBit s 0xB80000 29 true else s)

/-- FIELD_TRAINING_START: a field whose march has passed trains once CELLAR_READY is 1 (R673). -/
def execFieldTrainingStart (f : Fin 8) (s : State) : Out :=
  let x := fieldOf s f
  if x.bist && cellarReady s && x.train == 0 && !s.disp.coreRst && !x.offReq && !linkTested s f then
    .next (setField s f { x with train := 1 })
  else .next s

/-- FIELD_TRAINING_END: both clocks have locked or not, `down` and `up` lanes needed spares, `left` lanes failed in
the last pass, and a word of it showed a SECDED error or none did (R673). -/
def execFieldTrainingEnd (f : Fin 8) (clkOk : Bool) (down up left : Nat) (s : State) (wordErr : Bool := false) : Out :=
  let x := fieldOf s f
  if x.train ≠ 1 then .next s
  else if !clkOk then .next (trainFail (setField s f { x with train := 3, clkFail := true }) f 0)
  else
    let x := { x with sparesDown := min down 64, sparesUp := min up 64 }
    if 64 < down || 64 < up then .next (trainFail (setField s f { x with train := 3 }) f (down + up))
    else if left ≠ 0 || wordErr then .next (trainFail (setField s f { x with train := 3 }) f left)
    else .next (setField s f { x with train := 2 })

/-- FIELD_LINK_TRAINING_END: the link of fields `n` and `n` + 1, both READY, has trained; `lanes` lanes erred
(R674). -/
def execFieldLinkTrainingEnd (n : Fin 7) (lanes : Nat) (s : State) : Out :=
  if fieldReady s n && fieldReady s (n + 1) && !s.tst.flDone.contains n.val && !linkTested s (64 + n) then
    let s := { s with tst := { s.tst with flDone := n.val :: s.tst.flDone } }
    if lanes = 0 then .next (setRegBit s 0xB80010 n false)
    else .next (trainFail (setRegBit s 0xB80010 n true) (0x10 + n) lanes)
  else .next s

/-! ### Field power (R61, R62, R685) -/

/-- FLD_OFF_REQ_RISE: training in progress stops, and RDY treats the field's cores as busy. -/
def execFldOffReqRise (f : Fin 8) (s : State) : Out :=
  let s := setField s f { fieldOf s f with offReq := true, offAck := false }
  .next (if (fieldOf s f).train = 1 then untrain s f else s)

/-- Whether no slot of a field holds a task and its queues are empty (R61). -/
def fieldEmpty (s : State) (f : Nat) : Bool :=
  let x := fieldOf s f
  (s.disp.runs.all fun e => e.2.field != f || e.2.state < 1 || 3 < e.2.state) &&
  x.dispQ.isEmpty && x.cplQ.isEmpty && x.effQ.isEmpty && (tget [] s.trc.fldQ f).isEmpty

/-- FLD_OFF_ACK: the field holds no work (R61). -/
def execFldOffAck (f : Fin 8) (s : State) : Out :=
  if (fieldOf s f).offReq && fieldEmpty s f then .next (setField s f { fieldOf s f with offAck := true })
  else .next s

/-- The march of a field's core side leaves its trace buffers and its trace write queue empty; no flush waits for what
they held (R671). -/
def fieldTraceReset (s : State) (f : Nat) : Trc :=
  let keeps := fun k : Nat => decide ((srcPlace k).1 ≠ f)
  let spare := fun k : Nat => decide (16392 ≤ k) || keeps k
  { s.trc with
    bufs := s.trc.bufs.filter fun e => keeps e.1
    fldQ := tdel s.trc.fldQ f
    lost := s.trc.lost.filter fun e => keeps e.1
    flushes := s.trc.flushes.map fun e => (e.1, e.2.filter fun k => spare k.1) }

/-- A field comes back from power-down: its memories are marched and its links train again (R62). -/
def fieldPowerUp (s : State) (f : Nat) : State :=
  let s := untrain s f
  let s := setField s f { fieldOf s f with bist := false, offAck := false, grantQ := [] }
  setRegBit { s with
    rex := { s.rex with units := tmap (fun u x => if fieldOfRex u = f then { spad := x.spad } else x) s.rex.units }
    trc := fieldTraceReset s f
    tst := { s.tst with coreMarch := f :: s.tst.coreMarch.filter fun g => g != f } } 0xB80000 29 false

/-- FLD_OFF_REQ_FALL: a power-up where FLD_OFF_ACK has risen, else dispatch resumes (R62). -/
def execFldOffReqFall (f : Fin 8) (s : State) : Out :=
  let x := fieldOf s f
  if !x.offReq then .next s
  else
    let s := setField s f { x with offReq := false }
    .next (if x.offAck then endEmptied (fieldPowerUp s f) else s)

/-! ### PRBS tests (R676-R680) -/

/-- Errors of lanes added to a direction's counts. -/
def Prbs.addErrs (x : Prbs) : List (Nat × Nat) → Prbs
  | [] => x
  | (lane, n) :: l =>
    let y := if n = 0 || !x.locked.contains lane then x else { x with
      errs := tput x.errs lane (tget 0 x.errs lane + n), first := x.first.or (some lane) }
    y.addErrs l

/-- Whether a START of a direction is accepted (R678, R687); `ctl` is what the write brings. -/
def prbsStartOk (s : State) (k ctl : Nat) : Bool :=
  let i := k % 32
  !(bitAt ctl 25 && bitAt ctl 24) &&
  (if k / 64 = 0 then !fieldShown s i && (fieldOf s i).train != 1
   else if k / 64 = 1 then !fieldShown s i && !fieldShown s (i + 1)
   else !setupDone s && (portOf s i).up)

/-- A test of a vertical or field link has ended: the link trains again (R675). -/
def retrainLink (s : State) (k : Nat) : State :=
  let i := k % 32
  if k / 64 = 0 then (if (fieldOf s i).train = 3 then s else untrain s i)
  else if k / 64 = 1 then { s with tst := { s.tst with flDone := s.tst.flDone.filter fun n => n != i } }
  else s

/-- A test ends: RUNNING 0, DONE 1; BITS and ERR stay (R680). -/
def endPrbs (s : State) (k : Nat) (errs : List (Nat × Nat)) : State :=
  let x := (prbsOf s k).addErrs errs
  if x.running then retrainLink (setPrbs s k { x with running := false, done := true }) k else s

/-- Whether this chip's checker sees what its generator of the direction sends (R679). -/
def ownBits (k ctl : Nat) : Bool := decide (k < 128) || bitAt ctl 25

/-- A write of TST_PRBS_CTL; `errs` are the wrong bits of each lane that the checker has seen up to a STOP. -/
def writePrbsCtl (s : State) (w : Nat) (errs : List (Nat × Nat)) : State :=
  match prbsKey (reg s 0xB80100) with
  | none => if bitAt w 31 then testRefused s else s
  | some k =>
    let ctl := setFld (w % 2 ^ 29) 23 11 0
    if bitAt w 31 && !prbsStartOk s k ctl then testRefused s
    else
      let x := { prbsOf s k with ctl := ctl }
      let x := if bitAt w 31 then { x with
          running := true, bits := 0, errs := [], first := none
          locked := if x.running then x.locked else [] } else x
      let x := if bitAt w 29 && x.running && ownBits k ctl then x.addErrs [(fld ctl 10 0, 1)] else x
      let s := setPrbs s k x
      if bitAt w 30 then endPrbs s k errs else s

/-- PRBS_START: a write of TST_PRBS_CTL with START. -/
def execPrbsStart (w : Word) (s : State) : Out := .next (writePrbsCtl s (setFld w.toNat 31 31 1) [])

/-- PRBS_STOP: a write of TST_PRBS_CTL with STOP. -/
def execPrbsStop (w : Word) (errs : List (Nat × Nat)) (s : State) : Out :=
  .next (writePrbsCtl s (setFld w.toNat 30 30 1) errs)

/-- PRBS_INJECT: a write of TST_PRBS_CTL with INJECT. -/
def execPrbsInject (w : Word) (s : State) : Out := .next (writePrbsCtl s (setFld w.toNat 29 29 1) [])

/-- PRBS_DUR_END: time passes until BITS reaches DUR x 2^20, and the test ends (R680). -/
def execPrbsDurEnd (sel : Fin 256) (errs : List (Nat × Nat)) (s : State) : Out :=
  match prbsKey sel with
  | none => .next s
  | some k =>
    let x := prbsOf s k
    let rate := prbsRate s k * x.locked.length
    if !x.running || x.dur = 0 then .next s
    else if x.dur * 2 ^ 20 ≤ x.bits then .next (endPrbs s k errs)
    else if rate = 0 then .next s
    else .next (endPrbs (elapse (cdivN (x.dur * 2 ^ 20 - x.bits) rate) s) k errs)

/-- PRBS_LANE_LOCK: a lane's checker has seen 64 correct bits (R677). -/
def execPrbsLaneLock (sel : Fin 256) (lane : Fin 2048) (s : State) : Out :=
  match prbsKey sel with
  | none => .next s
  | some k =>
    let x := prbsOf s k
    if x.running && decide (lane.val < prbsLanes k) && !x.locked.contains lane.val then
      .next (setPrbs s k { x with locked := x.locked ++ [lane.val] })
    else .next s

/-- A write of a TST register that host software and the IEEE 1687 network may write (R686). -/
def writeTst (s : State) (off w : Nat) : State :=
  if off = 0xB80104 then writePrbsCtl s w []
  else if off = 0xB80100 then setReg s off (w % 256)
  else match prbsKey (reg s 0xB80100) with
    | none => s
    | some k =>
      let x := prbsOf s k
      if off = 0xB8010C then setPrbs s k { x with dur := w }
      else if off = 0xB80108 then setPrbs s k { x with done := x.done && !bitAt w 29 }
      else s

/-! ### Test access (R681, R682) -/

/-- Every record of the queue is accepted. -/
def acceptAll : Nat → State → State
  | 0, s => s
  | n + 1, s => acceptAll n (acceptOldest s)

/-- TRST_N: every wrapper is in WS_BYPASS. -/
def execTrstN (s : State) : Out := .next { s with tst := { s.tst with wraps := [] } }

/-- WRAPPER_INSTRUCTION: 0 WS_BYPASS, 1 WS_PRELOAD, 2 WS_EXTEST, 3 WS_INTEST, 4 WS_SAFE into a partition's
wrappers; the last three enter the safe state in the CCLK of the update, or are refused (R681). -/
def execWrapperInstruction (part : Fin 2) (ins : Fin 5) (code : Nat) (s : State) : Out :=
  let t := { s with tst := { s.tst with wraps := tput s.tst.wraps part ins } }
  if ins.val ≤ 1 then .next t
  else if setupDone s then .next (testRefused s)
  else .next (settle (acceptOldest (record (acceptAll 32 t) 3 0x16 0x92 none part code)))

/-- INSTRUMENT_WRITE: 0 BIST controllers, 1 PRBS engines, 2 fault injection, 3 training state (R682). A march of an
idle REX (`off` names it as in a UNIT_BIST_FAIL record) clears its memories; a flipped bit is corrected where it
is next read; a forced mismatch (`off` 1) raises LOCKSTEP of decision path `w`. -/
def execInstrumentWrite (inst : Fin 4) (off : Nat) (w : Word) (s : State) : Out :=
  if inst.val = 1 then .next (writeTst s off w.toNat)
  else if inst.val = 3 then .next s
  else if setupDone s then .next (testRefused s)
  else if inst.val = 0 then
    let u := off - 0x8000
    if 0x8000 ≤ off && u < Config.numRex && (unitOf s u).run.isNone then
      .next (modUnit s u fun x => { spad := x.spad })
    else .next s
  else if off = 1 && isPath w.toNat then .next (record s 3 0x13 0x20 none w.toNat 0)
  else .next s

end Sys2Proof.Machine
end

