-- ==== Sys2Proof/Machine/Read.lean ====
section
/-! DEFINITION. What each register of the window reads as (R7, R46, R85): the stored bits, and the RO fields
that show the state of the units. -/

namespace Sys2Proof.Machine

open Sys2Proof

/-- Bit `k` as a number, where `b` holds. -/
def bitOf (b : Bool) (k : Nat) : Nat := if b then 2 ^ k else 0

/-- The number whose bit `k` is `f k`, for `k` below `n`. -/
def bitsOf (n : Nat) (f : Nat → Bool) : Nat := (List.range n).foldl (fun v k => v + bitOf (f k) k) 0

/-- The 64-bit counter whose low word lies at an offset. -/
def lowWord (s : State) (off : Nat) : Nat := tget 0 s.counts off % 2 ^ 32

/-! ### Queues and global registers -/

/-- QSTAT: EMPTY, FULL and OCCUPANCY beside the sticky bits (R46). -/
def qstatWord (s : State) (q : QId) (v : Nat) : Nat :=
  let n := queueLen s q
  setFld (setFld (setFld v 28 28 (b2n (n == 0))) 27 27 (b2n (decide (q.cap ≤ n)))) 15 0 n

/-- R88. -/
def readGlb (s : State) (off v : Nat) : Nat :=
  if off = 0x18 then v % 4 + bitOf s.saf.safe 2 + bitOf (cellarReady s) 3
  else if off = 0x1C then bitsOf Config.numFields (fieldShown s)
  else v

/-! ### HIF, CAU (R157, R179, R690) -/

/-- Whether a context has an error bit set (R690). -/
def ctxErr (s : State) (c : Nat) : Bool :=
  decide (reg s (hifBase c + 4) &&& 0x76 ≠ 0) ||
  (List.range 4).any fun r => decide (reg s (sqBase c r + 0x14) &&& 6 ≠ 0)

/-- HIF_CTX_STATUS. -/
def ctxStatus (s : State) (c : Nat) : Nat :=
  setFld (setFld (reg s (hifBase c + 4)) 31 31 (b2n (ctxIdle s c))) 23 16 (outstanding s c)

/-- A register of a ring's block. -/
def readRing (s : State) (c r o v : Nat) : Nat :=
  let x := ringOf s c r
  if o = 0xC then x.head else if o = 0x10 then x.dbLast
  else if o = 0x14 then setFld v 0 0 (b2n x.stopped) else v

/-- R157. -/
def readHif (s : State) (off v : Nat) : Nat :=
  if off = 0x100008 then bitsOf 32 (ctxErr s)
  else if off = 0x10000C then bitsOf 32 fun k => ctxErr s (k + 32)
  else if off < 0x110000 then v
  else
    let c := (off - 0x110000) / 0x100
    let o := off % 0x100
    let h := hctx s c
    if 0x80 ≤ o then readRing s c ((o - 0x80) / 0x20) (o % 0x20) v
    else if o = 0x04 then ctxStatus s c
    else if o = 0x14 then h.cqProd else if o = 0x18 then h.cqCons
    else if o = 0x2C then h.eqProd else if o = 0x30 then h.eqCons
    else if o = 0x44 then setFld v 30 30 (b2n h.irqPending)
    else v

/-- R179: the block of a key slot. -/
def readCau (s : State) (off v : Nat) : Nat :=
  if off < 0x180100 then v
  else
    let x := slotOf s ((off - 0x180100) / 0x20)
    let o := off % 0x20
    if o = 0 then min x.fails 255 * 2 ^ 24 + x.classes % 16 * 2 ^ 16 + x.owner % 64 * 2 ^ 8 + x.state % 4
    else if o = 4 then x.ctr % 2 ^ 32 else if o = 8 then x.ctr / 2 ^ 32 % 2 ^ 32
    else if o = 0xC then x.accepts else 0

/-! ### TGE (R220) -/

/-- The word that TGE_DIAG_SEL selects (R220). An INDEX of the edge table above 1,048,575 reads zero (DESIGN CHOICE,
log entry 39: the spec says so of a task ID above 131,071). -/
def tgeDiag (s : State) : Nat :=
  let sel := reg s 0x280018
  let i := fld sel 20 0
  let w := fld sel 27 24
  if bitAt sel 31 then
    if 2 ^ 20 ≤ i then 0
    else if w = 0 then (if i < 131072 then cntA s i else if i < 262144 then cntB s (i - 131072) else 0)
    else if w = 1 then tget 0 s.tge.edges i else 0
  else if i < 131072 then leAt (descOf s i) (4 * w) 4 else 0

/-- A register of an image record. -/
def readImg (s : State) (i o : Nat) : Nat :=
  match imgOf s i with
  | none => 0
  | some x =>
    let st := if x.state = 2 then 3 else if (stepOf s i).isSome then (if x.pending.isSome then 2 else 1) else 0
    if x.state = 0 then 0
    else if o = 0 then bitOf (x.state == 1) 31 + st * 2 ^ 29 + x.ctx % 64 * 2 ^ 8 + x.id % 16
    else if o = 4 then x.tasks else if o = 8 then x.edges
    else if o = 0xC then x.vint % 2 ^ 32 else if o = 0x10 then x.vint / 2 ^ 32 % 2 ^ 32
    else x.done

/-- Whether a sweep or the zeroing of an unload is in progress. -/
def sweeping (s : State) : Bool :=
  (s.tge.steps.any fun e => e.2.phase == 1) || s.tge.imgs.any fun e => e.2.state == 2

/-- R220. -/
def readTge (s : State) (off v : Nat) : Nat :=
  if off = 0x280000 then setFld v 1 1 (b2n (sweeping s))
  else if off = 0x280004 then
    (256 - s.tge.imgs.length) * 2 ^ 16 + (freeBlocks (usedEdge s)).length * 2 ^ 8 +
      (freeBlocks (usedTask s)).length
  else if off = 0x28000C then lowWord s off
  else if off = 0x28001C then tgeDiag s
  else if 0x281000 ≤ off then readImg s ((off - 0x281000) / 0x20) (off % 0x20)
  else v

/-! ### RDY, TMR, CAG, CMT (R252, R254, R255, R291) -/

/-- Entries in the ready lists; those that wait for a timer entry are in none (R246). -/
def inLists (s : State) : List Ready := s.disp.ready.filter fun r => r.due.isNone

/-- R252. -/
def readRdy (s : State) (off v : Nat) : Nat :=
  if off = 0x300008 then lowWord s off
  else if off = 0x300014 then (inLists s).length
  else if off = 0x300018 then (s.disp.runs.filter fun e => e.2.state == 1).length
  else match arrayAt off 0x300204 0x10 64 with
    | some c => setFld v 17 0 ((inLists s).filter fun r => r.ctx == c).length
    | none => v

/-- The earliest due instant of TMR in ns; all ones when it is empty. -/
def tmrNext (s : State) : Nat :=
  match s.disp.timers with
  | [] => 2 ^ 64 - 1
  | t :: l => l.foldl (fun n x => min n (x.due / 5120)) (t.due / 5120)

/-- R254. -/
def readTmr (s : State) (off v : Nat) : Nat :=
  if off = 0x380000 then setFld v 13 0 s.disp.timers.length
  else if off = 0x380008 then (s.disp.ready.filter fun r => r.due.isSome && r.parked).length
  else if off = 0x380014 then tmrNext s % 2 ^ 32
  else v

/-- State of a resident slot (R239); a start that waits for GATE_ACK is not yet on its engine. -/
def slotState (s : State) (n k : Nat) : Nat :=
  match s.disp.runs.find? fun e =>
      e.2.kind != 3 && e.2.core == n && e.2.slot == k && 1 ≤ e.2.state && e.2.state ≤ 3 with
  | some (_, x) => if x.state = 3 then 2 else 1
  | none => if slotEnding s n k then 3 else 0

/-- CAG_CORE_STAT. -/
def coreStat (s : State) (n : Nat) : Nat :=
  let c := coreOf s n
  bitOf c.failed 31 + bitOf c.gateAck 30 +
  (List.range 4).foldl (fun v k => v + slotState s n k * 2 ^ (16 + 2 * k)) 0 +
  bitsOf 6 fun e => s.disp.runs.any fun x => x.2.state == 3 && x.2.kind != 3 && x.2.core == n && x.2.engine == e

/-- R255. -/
def readCag (s : State) (off v : Nat) : Nat :=
  if off = 0x40000C then (s.disp.cores.filter fun e => e.2.failed).length
  else if 0x410000 ≤ off then coreStat s ((off - 0x410000) / 4)
  else v

/-- R291. -/
def readCmt (s : State) (off v : Nat) : Nat :=
  if off = 0x480000 then setFld v 15 0 s.disp.runs.length
  else if off = 0x480008 then lowWord s off
  else if off = 0x480014 then s.disp.quarantine.length
  else match arrayAt off 0x481008 0x20 64 with
    | some c => setFld v 15 0 (s.disp.runs.filter fun e => e.2.ctx == c).length
    | none => v

/-! ### SYN, CHN, BLQ, LNK (R338, R375, R377, R379) -/

/-- R338. -/
def readSyn (s : State) (off v : Nat) : Nat :=
  if off = 0x500004 then setFld v 15 0 s.syn.objA.length
  else if off = 0x500008 then lowWord s off
  else if off = 0x500018 then s.syn.reserved.foldl (fun n e => n + e.2) 0
  else if off = 0x500020 then synDiagWord s
  else if off = 0x500024 then setFld v 8 0 s.syn.early.length
  else match arrayAt off 0x501010 0x20 64 with
    | some c => setFld v 15 0 (objectsOf s c)
    | none => v

/-- R375. The layout of the entry that CHN_DIAG_DATA shows is left open. -/
def readChn (s : State) (off v : Nat) : Nat :=
  if off = 0x580000 then setFld v 14 0 s.chn.chans.length
  else if off = 0x58000C then lowWord s off
  else if off = 0x58001C then Config.freeCell s.fresh (reg s 0x580018) % 2 ^ 32
  else match arrayAt off 0x581000 0x10 64 with
    | some c => setFld v 14 0 (s.chn.chans.filter fun e => e.2.ctx == c).length
    | none => v

/-- R377. The layout of the state that BLQ_DIAG_DATA shows is left open. -/
def readBlq (s : State) (off v : Nat) : Nat :=
  if off = 0x600000 then setFld v 10 0 s.blq.qs.length
  else if off = 0x600004 then lowWord s off
  else if off = 0x600014 then Config.freeCell s.fresh (reg s 0x600010) % 2 ^ 32
  else match arrayAt off 0x601000 0x10 64 with
    | some c => setFld v 10 0 (s.blq.qs.filter fun e => e.2.ctx == c).length
    | none => v

/-- R379: registers of absent ports read zero. -/
def readLnk (s : State) (off v : Nat) : Nat :=
  let absent := (0xB00100 + Config.linkPorts * 0x10 ≤ off && off < 0xB00300) ||
    (0xB00400 + Config.linkPorts * 0x10 ≤ off && off < 0xB00600)
  if absent then 0
  else if off = 0xB00000 then setFld v 10 0 (resSum s)
  else if off = 0xB00004 then bitsOf Config.linkPorts fun p => (portOf s p).up
  else match arrayAt off 0xB00100 0x10 32 with
    | some p =>
      let x := portOf s p
      setFld (x.pool * 2 ^ 16) 11 0 (x.held.foldl (fun n e => n + e.2) x.pool)
    | none => v

/-! ### REX (R416) -/

/-- REX_Un_STAT. -/
def rexStat (s : State) (u : Nat) : Nat :=
  let x := tget {} s.disp.rex u
  let run := match (unitOf s u).run with
    | some r => runOf s r
    | none => none
  let staged := s.disp.runs.any fun e => e.2.kind == 3 && e.2.core == u && e.2.state == 1
  bitOf x.offline 31 + bitOf x.failed 30 + bitOf (unitOf s u).run.isSome 29 + bitOf staged 28 +
  (match run with
   | some r => bitOf r.locked 27 + r.ctx % 64
   | none => 0)

/-- REX_IMG_INFO. -/
def rexImgInfo (x : RexImg) : Nat :=
  x.loads % 2 ^ 16 * 2 ^ 16 + bitOf x.loading.isSome 3 + bitOf x.len1.isSome 2 + bitOf x.len0.isSome 1 + x.active % 2

/-- The word that REX_TILE_SEL selects. -/
def tileData (s : State) : Nat :=
  let sel := reg s 0x680114
  let u := fld sel 31 25
  if rexFree s u && epUnit s != some u then tileWord (unitOf s u) (fld sel 24 21) (fld sel 11 0) else 0

/-- R416. -/
def readRex (s : State) (off v : Nat) : Nat :=
  if off = 0x680104 then setFld v 0 0 (b2n s.rex.ep.isSome)
  else if off = 0x680118 then tileData s
  else match arrayAt off 0x690000 0x10 128 with
    | some u => rexStat s u
    | none =>
      if 0x6D0000 ≤ off then rexImgInfo (tget {} s.rex.imgs ((off - 0x6D0000) / 4)) else v

/-! ### PAT (R490, R491) -/

/-- Whole free large frames of a stack. -/
def stackFreeLarge (s : State) (st : Nat) : Nat :=
  if s.pat.up then
    grantBlocks -
      (((s.pat.frames.filter fun e => stackOf e.1 == st && decide (e.1 / 32 % 2 ^ 17 < grantBlocks)).map
        fun e => e.1 / 32).dedup).length
  else 0

/-- Whether some stack's pre-zeroed pool is not full (R474, R491). -/
def zeroing (s : State) : Bool :=
  (List.range Config.memStacks).any fun st =>
    decide (tget 0 s.pat.pool st < min (regFld s 0x700000 15 8 * 16) (stackFree s st)) || !s.pat.up

/-- R490. -/
def readPat (s : State) (off v : Nat) : Nat :=
  if off = 0x700004 then setFld v 0 0 (b2n (zeroing s))
  else if off = 0x700008 then freeFrames s
  else if off = 0x70000C then (List.range Config.memStacks).foldl (fun n st => n + stackFreeLarge s st) 0
  else if off = 0x700018 then
    s.pat.frames.foldl (fun n e => if e.2.use = 2 then n + frameSize e.2.large else n) 0
  else if off = 0x70001C then s.disp.runs.foldl (fun n e => n + e.2.fresh.length) 0
  else match arrayAt off 0x700200 4 24 with
  | some st => stackFree s st
  | none =>
    if off < 0x710000 then v
    else
      let c := (off - 0x710000) / 0x400
      let o := off % 0x400
      let root := tget 0 s.pat.tabs (tabKey c 0 0)
      if o = 8 then usedFrames s c
      else if o = 0x24 then root % 2 ^ 32 / 4096 * 4096 else if o = 0x28 then root / 2 ^ 32 % 4096
      else v

/-! ### SLS, PSM (R530, R563) -/

/-- The 32 bytes of a sequence entry (R507). -/
def seqBytes (x : Seq) : List Byte :=
  leBytes 1 (x.state % 8 + bitOf x.maq 3 + bitOf x.susp 4 + bitOf x.recomp 5) ++ leBytes 1 0 ++ leBytes 2 x.pages ++
  leBytes 4 x.age ++ leBytes 4 x.pos ++ leBytes 4 x.promptLen ++ leBytes 4 x.generated ++ leBytes 4 x.maxNew ++
  leBytes 8 x.deadline

/-- A register of a serving context's block. -/
def readServe (s : State) (k o v : Nat) : Nat :=
  let x := tget {} s.sls.srv k
  if o = 0 then
    x.state % 4 * 2 ^ 30 + bitOf (decide (x.state ≠ 0) && !(x.seqs.any fun e => e.2.live)) 29 +
      (if x.state = 0 then 0 else x.ctx % 64 * 2 ^ 16 + x.imgId % 16)
  else if o = 8 then
    (x.seqs.filter fun e => e.2.state == 3 || e.2.state == 4).length * 2 ^ 16 +
      (x.seqs.filter fun e => e.2.continuing).length
  else if o = 0x10 then lowWord s (slsB k + 0x10)
  else if o = 0x30 then
    let sel := reg s (slsB k + 0x2C)
    match tget? x.seqs (fld sel 13 0) with
    | some q => leAt (seqBytes q) (4 * fld sel 18 16) 4
    | none => 0
  else v

/-- R530. -/
def readSls (s : State) (off v : Nat) : Nat :=
  if off = 0x780000 then setFld v 3 0 (bitsOf 4 fun k => (tget {} s.sls.srv k).state != 0)
  else if 0x780100 ≤ off then readServe s ((off - 0x780100) / 0x40) (off % 0x40) v
  else v

/-- A register of a parcel's block (R563). -/
def readParcel (s : State) (p o v : Nat) : Nat :=
  match tget? s.psm.parcels p with
  | none => 0
  | some x =>
    if o < 0x10 then x.clusters / 2 ^ (8 * o) % 2 ^ 32
    else if o = 0x10 then
      x.wayMask % 2 ^ 16 * 2 ^ 16 + (if x.wayMask = 0 && x.chanMask = 0 then 0 else p * 2 ^ 12) + x.chanMask % 256
    else if o = 0x14 then 2 ^ 31 + (boundTo s p).length * 2 ^ 16 + (clustersOf x.clusters).length
    else v

/-- A register of a context's block. The accounting words show what the last read of the first captured. -/
def readPsmCtx (s : State) (c o v : Nat) : Nat :=
  if o = 0 then tget 0 s.psm.model c % 2 ^ 16 * 2 ^ 16 + tget 0 s.psm.t1 c % 4 * 2 ^ 8 + parcelOf s c % 16
  else if o = 4 then setFld v 31 16 (policy s (0x801004 + c * 0x40))
  else if o = 8 then setFld v 30 30 (fld (policy s (0x801008 + c * 0x40)) 31 31)
  else if 0x14 ≤ o && o < 0x3C then (tget [] s.psm.captured c).getD ((o - 0x10) / 4) 0
  else v

/-- R562. -/
def readPsm (s : State) (off v : Nat) : Nat :=
  if off = 0x800000 then setFld v 3 0 s.psm.parcels.length
  else if off = 0x800004 then bitOf s.psm.switching 31 + s.psm.resident % 2 ^ 16
  else if off = 0x800018 then lowWord s off
  else match arrayAt off 0x800008 4 4 with
  | some k => bitsOf 32 fun j =>
      decide (32 * k + j < Config.numRex) && s.psm.parcels.all fun e => !bitAt e.2.clusters (32 * k + j)
  | none =>
    if 0x801000 ≤ off then readPsmCtx s ((off - 0x801000) / 0x40) (off % 0x40) v
    else if 0x800400 ≤ off then readParcel s ((off - 0x800400) / 0x20) (off % 0x20) v
    else v

/-! ### GTB, SAF, TRC, TST (R120, R636, R665, R687) -/

/-- R120. -/
def readGtb (s : State) (off v : Nat) : Nat :=
  if off = 0x900004 then setFld v 7 7 (b2n (regBit s 0x900000 1 && decide (1 < groupChips s)))
  else if off = 0x900018 then nowNs s % 2 ^ 32
  else match arrayAt off 0x900120 4 8 with
    | some f => setFld v 1 0 (fieldQ s f (tget {} s.clk f).stamped)
    | none => v

/-- R636. -/
def readSaf (s : State) (off v : Nat) : Nat :=
  if off = 0xA00004 then setFld v 6 0 s.saf.recov.length
  else if off = 0xA00014 then recDataWord s
  else match arrayAt off 0xA01000 4 64 with
  | some c =>
    setFld (setFld v 31 31 (b2n (thas s.saf.recov c))) 30 30 (b2n (s.saf.frozen.any fun e => e.2.ctx == c))
  | none =>
    if 0xA00100 ≤ off && off < 0xA00200 then
      match tget? s.saf.frozen ((off - 0xA00100) / 0x10) with
      | some x => if off % 0x10 = 0 then 2 ^ 31 + x.ctx % 64 * 2 ^ 16 + x.vid % 2 ^ 16 else min x.drops (2 ^ 32 - 1)
      | none => 0
    else v

/-- R665. -/
def readTrc (s : State) (off v : Nat) : Nat :=
  if off = 0xA80028 then selectedCounter s % 2 ^ 32
  else if 0xA80100 ≤ off && off < 0xA80200 then
    let x := streamOf s ((off - 0xA80100) / 0x10)
    let o := off % 0x10
    if o = 0 then x.wptr else if o = 4 then min x.wraps (2 ^ 32 - 1) else min x.dropped (2 ^ 32 - 1)
  else v

/-- A register of the selected PRBS direction. -/
def readPrbs (s : State) (k off : Nat) : Nat :=
  let x := prbsOf s k
  let all := (List.range (prbsLanes k)).all x.locked.contains
  let lane := fld x.ctl 10 0
  if off = 0xB80104 then x.ctl
  else if off = 0xB80108 then bitOf x.running 31 + bitOf all 30 + bitOf x.done 29
  else if off = 0xB8010C then x.dur
  else if off = 0xB80110 then x.bits % 2 ^ 32
  else if off = 0xB80114 then x.capBits / 2 ^ 32 % 2 ^ 32
  else if off = 0xB80118 then x.capErr % 2 ^ 32
  else if off = 0xB8011C then x.capErr / 2 ^ 32 % 2 ^ 32
  else if off = 0xB80120 then (if lane < prbsLanes k then min (tget 0 x.errs lane) (2 ^ 32 - 1) else 0)
  else match x.first with
    | some l => 2 ^ 31 + l
    | none => 0

/-- Whether a wrapper is out of WS_BYPASS, or a PRBS test runs. -/
def testActive (s : State) : Bool := (s.tst.wraps.any fun e => e.2 != 0) || s.tst.prbs.any fun e => e.2.running

/-- R687. -/
def readTst (s : State) (off v : Nat) : Nat :=
  if off = 0xB80000 then setFld v 27 27 (b2n (testActive s))
  else if 0xB80104 ≤ off then
    match prbsKey (reg s 0xB80100) with
    | some k => readPrbs s k off
    | none => 0
  else match arrayAt off 0xB80020 4 8 with
    | some f =>
      let x := fieldOf s f
      x.train % 4 * 2 ^ 30 + bitOf x.clkFail 29 + x.sparesUp % 128 * 2 ^ 8 + x.sparesDown % 128
    | none => v

/-! ### The window -/

/-- Whether an offset below the doorbell pages is mapped (R85). The whole block that parcel 0 would occupy is
(R562). -/
def mapped (off : Nat) : Bool := (rowAt off).isSome || off == 0x80041C

/-- R605, R607: BUSY of MGC_NOTICE_CTL. -/
def readMgc (s : State) (off v : Nat) : Nat :=
  if off = 0x980050 then setFld v 30 30 (b2n (noticeBusy s)) else v

/-- The value that the register at an offset reads as. -/
def readReg (s : State) (off : Nat) : Nat :=
  let v := reg s off
  match queueAt (off - 4) with
  | some q => qstatWord s q v
  | none =>
    match off / 0x80000 with
    | 0 | 1 => readGlb s off v
    | 2 => readHif s off v
    | 3 => readCau s off v
    | 4 => if off = 0x200000 then setFld v 18 16 s.tge.loads.length else v
    | 5 => readTge s off v
    | 6 => readRdy s off v
    | 7 => readTmr s off v
    | 8 => readCag s off v
    | 9 => readCmt s off v
    | 10 => readSyn s off v
    | 11 => readChn s off v
    | 12 => readBlq s off v
    | 13 => readRex s off v
    | 14 => readPat s off v
    | 15 => readSls s off v
    | 16 => readPsm s off v
    | 18 => readGtb s off v
    | 19 => readMgc s off v
    | 20 => readSaf s off v
    | 21 => readTrc s off v
    | 22 => readLnk s off v
    | 23 => readTst s off v
    | _ => v

end Sys2Proof.Machine
end

