-- ==== Sys2Proof/Machine/Window.lean ====
section
/-! DEFINITION. Reads and writes of the configuration window by host software, firmware and DBG_WRITE (R7, R45,
R86-R89, R587, R607, R662). -/

namespace Sys2Proof.Machine

open Sys2Proof

/-! ### Reads -/

/-- The high words that a read of a low word captures. -/
def captureHigh (s : State) (off : Nat) : State :=
  if [0x28000C, 0x300008, 0x480008, 0x500008, 0x58000C, 0x600004, 0x800018].contains off
      || (arrayAt off 0x780110 0x40 4).isSome then
    setReg s (off + 4) (tget 0 s.counts off / 2 ^ 32)
  else if off = 0x380014 then setReg s 0x380018 (tmrNext s / 2 ^ 32)
  else if off = 0xA80028 then setReg s 0xA8002C (selectedCounter s / 2 ^ 32)
  else if off = 0xB80110 then
    match prbsKey (reg s 0xB80100) with
    | some k =>
      let x := prbsOf s k
      setPrbs s k { x with capBits := x.bits, capErr := x.errs.foldl (fun n e => n + e.2) 0 }
    | none => s
  else s

/-- A read of PSM_CTX_ENG0_LO captures the accounting words of the context (R548). -/
def captureAccount (s : State) (c : Nat) : State :=
  let b := 0x801010 + c * 0x40
  let words := (List.range 11).map fun k => reg s (b + 4 * k)
  { s with
    psm := { s.psm with captured := tput s.psm.captured c words }
    hif := { s.hif with rdata := reg s b } }

/-- The data of the last read. -/
def setData (s : State) (v : Nat) : State := { s with hif := { s.hif with rdata := v } }

/-- The state that a meaning which always completes answers. -/
def stateOf (o : Out) (s : State) : State :=
  match o with
  | .next t => t
  | _ => s

/-- A read of a register of a doorbell page, at an offset of the page (R127). An offset of the page that is not listed
reads zero and takes no write, and sets neither UNMAPPED nor GLB_BAD_ADDR (DESIGN CHOICE, log entry 40: R87 does not
say whether it is unmapped or reserved). -/
def readDoorbell (s : State) (c o : Nat) : Nat :=
  if o < 0x10 then (ringOf s c (o / 4)).dbLast
  else if o = 0x40 then (hctx s c).cqCons
  else if o = 0x44 then (hctx s c).eqCons
  else if o = 0xC0 then ctxStatus s c / 2 ^ 16 * 2 ^ 16
  else 0

/-- The context whose doorbell page holds an offset (R85). -/
def doorbellCtx (off : Nat) : Option (Fin 64) :=
  if h : 0xC00000 ≤ off ∧ off < 0xC40000 then some ⟨(off - 0xC00000) / 0x1000, by omega⟩ else none

/-- A 4 B aligned read of the window. -/
def readWindow (s : State) (off : Nat) : State :=
  match doorbellCtx off with
  | some c => setData s (readDoorbell s c (off % 0x1000))
  | none =>
    if !mapped off then unmappedAt (setData s 0) off
    else if off = 0x900018 then stateOf (execGtbNowLoRead s) s
    else if off = 0x500020 then stateOf (execSynDiagDataRead s) s
    else if off = 0xA00014 then stateOf (execSafRecDataRead s) s
    else if off = 0x680118 then tileAccess s none
    else if off = 0x58001C || off = 0x600014 then
      let (_, t) := draw s
      setData t (readReg s off)
    else match arrayAt off 0x801010 0x40 64 with
      | some c => captureAccount s c
      | none => captureHigh (setData s (readReg s off)) off

/-- An access that is not 4 B wide or not aligned to 4 B (R86, R128). -/
def badWindow (s : State) (off : Nat) : State :=
  match doorbellCtx off with
  | some c => stateOf (execDoorbellBadAccess c s) s
  | none => badAccessAt (setData s 0) off

/-- COUNTER_CAPTURE_READ: a read of the window. -/
def execCounterCaptureRead (off : Nat) (s : State) : Out :=
  .next (if off % 4 = 0 then readWindow s off else badWindow s off)

/-- PSM_CTX_ENG0_LO_READ. -/
def execPsmCtxEng0LoRead (c : Fin 64) (s : State) : Out := .next (captureAccount s c)

/-- BAD_ACCESS: an access of `size` bytes that R86 or R87 finds wrong; a good one does nothing here. -/
def execBadAccess (off size : Nat) (s : State) : Out :=
  .next (if size != 4 || off % 4 != 0 then badWindow s off
    else if (doorbellCtx off).isSome || mapped off then s
    else unmappedAt (setData s 0) off)

/-! ### Writes by access code (R7, R45) -/

/-- What a write leaves in a register by the masks of its row. -/
def maskWrite (r : RegRow) (locked : Bool) (old w : Nat) : Nat :=
  let o := BitVec.ofNat 32 old
  let v := BitVec.ofNat 32 w
  let m := BitVec.ofNat 32 r.rw ||| (if locked then 0 else BitVec.ofNat 32 r.rwl)
  (((o &&& ~~~m) ||| (v &&& m)) &&& ~~~(v &&& BitVec.ofNat 32 r.w1c)).toNat

/-- A write of a register that has no effect beyond its own bits. -/
def plainWrite (s : State) (off w : Nat) : State :=
  match rowAt off with
  | none => s
  | some r =>
    if r.rw = 0 && r.rwl = 0 && r.w1c = 0 then s
    else setReg s off (maskWrite r (setupDone s) (reg s off) w)

/-- A write of QSTAT: clearing OVERRUN or ABANDON zeroes its count (R45). -/
def writeQstat (s : State) (off w : Nat) : State :=
  let s := if bitAt w 30 then setRegFld s (off + 4) 15 0 0 else s
  let s := if bitAt w 29 then setRegFld s (off + 4) 31 16 0 else s
  plainWrite s off w

/-! ### Global registers and HIF (R88, R89, R158) -/

/-- A write of SETUP_DONE (R8, R89). -/
def writeSetup (s : State) (off : Nat) (b : Bool) : State :=
  if setupDone s || !b then s
  else if chipId s < groupChips s then setRegBit s 0x14 0 true
  else badAccessAt s off

/-- SETUP_DONE: a write of GLB_SETUP. -/
def execSetupDone (b : Bool) (s : State) : Out := .next (writeSetup s 0x14 b)

/-- R88. -/
def writeGlb (s : State) (off w : Nat) : State :=
  if off = 0x10 then
    let n := fld w 12 0
    if setupDone s then s else if 1 ≤ n && n ≤ 4096 then setReg s off n else badAccessAt s off
  else if off = 0x14 then writeSetup s off (bitAt w 0)
  else plainWrite s off w

/-- A write of HIF_IRQ_CFG: a MASK that falls sends one pending message (R153). -/
def writeIrqCfg (s : State) (c w : Nat) : State :=
  let s := plainWrite s (hifBase c + 0x44) w
  if !bitAt w 31 && (hctx s c).irqPending && !inHoldoff s c then sendMsg s c else s

/-- A write of a register of a context's block (R157, R158). -/
def writeHifCtx (s : State) (c o off w : Nat) : State :=
  let refuse := setRegBit s (hifBase c + 4) 4 true
  if o = 0 then writeCtxCfg s c w
  else if 8 ≤ o && o < 0x34 then
    if !ctxEnabled s c && ctxIdle s c then plainWrite s off w else refuse
  else if o = 0x44 then writeIrqCfg s c w
  else if 0x80 ≤ o then
    let r := (o - 0x80) / 0x20
    let k := o % 0x20
    if k = 8 then writeSqCfg s c r w
    else if k < 8 then (if ringEn s c r then refuse else plainWrite s off w)
    else if ringEn s c r then refuse
    else plainWrite s off w
  else plainWrite s off w

/-- A write of a doorbell page (R127, R129, R153). -/
def writeDoorbell (s : State) (c : Fin 64) (o : Nat) (w : Word) : State :=
  if h : o / 4 < 4 then stateOf (execSqnDb c ⟨o / 4, h⟩ w [] s) s
  else if o = 0x40 then stateOf (execCqDb c w s) s
  else if o = 0x44 then stateOf (execEqDb c w s) s
  else if o = 0x80 then
    if bitAt w.toNat 1 then stateOf (execIrqRearmSet c s) s
    else if bitAt w.toNat 0 then stateOf (execIrqRearmClear c s) s
    else s
  else s

/-! ### Registers of the other units -/

/-- A write of a MGC register as firmware makes it (R24, R590-R592, R605). Where the write names no core, which
one it counts for is left open. -/
def writeMgc (s : State) (off w : Nat) : State :=
  let core := firmwareCore s
  let k := core.1
  if off = 0x980000 then
    let s := setRegFld s off 15 0 w
    if bitAt w 31 then haltMgc s else s
  else if off = 0x980008 then writeHold s (bitAt w 0)
  else if off = 0x980038 then ackTick core.2 k w
  else if off = 0x980040 then kickWdog s
  else if off = 0x980050 then
    if bitAt w 31 then postNotice core.2 k (w % 64) else setRegFld s off 5 0 w
  else plainWrite s off w

/-- Whether a region that is to become valid meets R459; `s` holds the registers with VALID set. -/
def rgnOk (s : State) (c r : Nat) : Bool :=
  match regionOf s c r with
  | none => true
  | some g =>
    g.kind != 3 && g.size != 0 && decide (g.base + g.size ≤ 2 ^ 48) &&
    !(g.kind == 2 && g.src % pageBytes g.large != 0) &&
    (List.range 16).all fun k =>
      k == r || match regionOf s c k with
        | some h => decide (g.base + g.size ≤ h.base) || decide (h.base + h.size ≤ g.base)
        | none => true

/-- A write of a register of a context's PAT block (R459, R488, R491). -/
def writePatCtx (s : State) (c : Fin 64) (o off w : Nat) : State :=
  let refuse := setRegBit s (patBase c + 0xC) 28 true
  let free := !ctxEnabled s c && ctxIdle s c
  if o = 0 then (if bitAt w 31 then stateOf (execPatRelease c s) s else s)
  else if 0x10 ≤ o && o < 0x1C then (if free then plainWrite s off w else refuse)
  else if 0x100 ≤ o then
    let t := plainWrite s off w
    if free && (o % 0x20 != 0xC || rgnOk t c ((o - 0x100) / 0x20)) then t else refuse
  else plainWrite s off w

/-- R490: CHAN_SHIFT outside 16-30 is refused. -/
def writePatCtl (s : State) (w : Nat) : State :=
  let k := fld w 20 16
  if setupDone s || (16 ≤ k && k ≤ 30) then plainWrite s 0x700000 w
  else plainWrite (badAccessAt s 0x700000) 0x700000 (setFld w 20 16 (regFld s 0x700000 20 16))

/-- R252: a home field that does not exist is refused. -/
def writeStackField (s : State) (off w : Nat) : State :=
  if setupDone s || fld w 2 0 < Config.numFields then plainWrite s off w else badAccessAt s off

/-- R291: a default watchdog time of 0 is refused. -/
def writeCtxWdog (s : State) (off w : Nat) : State :=
  if fld w 19 0 = 0 then setRegBit s (off + 4) 28 true else plainWrite s off w

/-- R298: the declaration table's base, while the context is neither enabled nor busy. -/
def writeSdt (s : State) (c off w : Nat) : State :=
  if !ctxEnabled s c && ctxIdle s c then plainWrite s off w else setRegBit s (synCtx c + 0x10) 28 true

/-- REX registers (R406, R412, R415-R417). -/
def writeRex (s : State) (off w : Nat) : State :=
  if off = 0x680100 then writeEpCtl s w
  else if off = 0x680118 then tileAccess s (some (w % 2 ^ 32))
  else match arrayAt off 0x690000 0x10 128 with
  | some u => writeOffline s u w
  | none =>
    let o := off % 0x40
    if 0x6C0000 ≤ off && off < 0x6C1000 && o < 0x10 then writeRexCfg s ((off - 0x6C0000) / 0x40) o w
    else plainWrite s off w

/-- A context number from the offset of its block. -/
def ctxNo (off base stride : Nat) : Fin 64 := ⟨(off - base) / stride % 64, Nat.mod_lt _ (by decide)⟩

/-- A write of a mapped register with every field writable that R7 and SETUP_DONE let be written: the effect of
the write on the machine, slice by slice. -/
def writeReg (s : State) (off w : Nat) : State :=
  if (queueAt off).isSome then writeQctl s off w (setupDone s)
  else if (queueAt (off - 4)).isSome then writeQstat s off w
  else if (policyMask off).isSome then writeShadow s off w
  else match off / 0x80000 with
  | 0 | 1 => writeGlb s off w
  | 2 => if off < 0x110000 then plainWrite s off w
         else writeHifCtx s ((off - 0x110000) / 0x100) (off % 0x100) off w
  | 6 => if 0x300020 ≤ off && off < 0x300080 then writeStackField s off w
         else if (arrayAt off 0x300200 0x10 64).isSome then
           stateOf (execImbEnWrite (ctxNo off 0x300200 0x10) (BitVec.ofNat 32 w) s) s
         else plainWrite s off w
  | 9 => if (arrayAt off 0x481004 0x20 64).isSome then writeCtxWdog s off w else plainWrite s off w
  | 10 => if off = 0x50001C then stateOf (execSynDiagSelWrite (BitVec.ofNat 32 w) s) s
          else if 0x501000 ≤ off then
            let c := (off - 0x501000) / 0x20
            if off % 0x20 < 8 then writeSdt s c off w
            else if off % 0x20 = 8 then writeSynCfg s c w
            else plainWrite s off w
          else plainWrite s off w
  | 13 => writeRex s off w
  | 14 => if off = 0x700000 then writePatCtl s w
          else if 0x710000 ≤ off then writePatCtx s (ctxNo off 0x710000 0x400) (off % 0x400) off w
          else plainWrite s off w
  | 18 => if off = 0x900000 then stateOf (execGtbCtlEnable (BitVec.ofNat 32 w) s) s else plainWrite s off w
  | 19 => writeMgc s off w
  | 20 => if off = 0xA00010 then stateOf (execSafRecSelWrite (BitVec.ofNat 32 w) s) s else plainWrite s off w
  | 21 => if off = 0xA80020 then writeCntCtl s w else plainWrite s off w
  | 22 => if 0xB01000 ≤ off then stateOf (execLnkCtxResWrite (ctxNo off 0xB01000 4) (BitVec.ofNat 32 w) s) s
          else plainWrite s off w
  | 23 => if 0xB80100 ≤ off then writeTst s off w else plainWrite s off w
  | _ => plainWrite s off w

/-! ### Who writes (R544, R587, R607) -/

/-- Bits that are written from MGC only: RW fields, and WO fields (R607). -/
def mgcRw (off : Nat) : Nat :=
  if off = 0x980000 then 0xFFFF
  else if off = 0x980008 then 1
  else if off = 0x980038 || off = 0x980048 || off = 0x98004C then 0xFFFFFFFF
  else if off = 0x980050 then 0x3F
  else if off = 0x980058 then 0xFF
  else if (arrayAt off 0x801004 0x40 64).isSome then 0xFFFF
  else if (arrayAt off 0x801008 0x40 64).isSome then 0x80000000
  else 0
def mgcWo (off : Nat) : Nat := if off = 0x980040 then 0xFFFFFFFF else if off = 0x980050 then 0x80000000 else 0

/-- Whether a host write counts as a write of a field that is written from MGC only. -/
def mgcClash (s : State) (off w : Nat) : Bool :=
  off == 0x980040 || decide ((readReg s off ^^^ w) &&& mgcRw off ≠ 0) || decide (w &&& mgcWo off ≠ 0)

/-- A write through the host target port. -/
def hostWriteReg (s : State) (off w : Nat) : State :=
  if mgcRw off = 0 && mgcWo off = 0 then writeReg s off w
  else
    let s := if mgcClash s off w then badAccessAt s off else s
    if off = 0x980000 && bitAt w 31 then haltMgc s else s

/-- Bits of a register that some access code lets be written. -/
def writableBits (off : Nat) : Nat :=
  match rowAt off with
  | some r => r.rw ||| r.rwl ||| r.w1c ||| r.wo
  | none => 0

/-- The registers that firmware may write (R587): policy values, MGC registers, what a chapter names, and the
diagnostic selectors. -/
def fwMay (off : Nat) : Bool :=
  (policyMask off).isSome || (off / 0x80000 == 19 && writableBits off != 0) ||
  [0x680100, 0x680114, 0x680118, 0xA80020, 0xA80024, 0x280018, 0x50001C, 0x580018, 0x600010, 0xA00010].contains off ||
  (arrayAt off 0x680180 4 32).isSome || (arrayAt off 0x690000 0x10 128).isSome ||
  (arrayAt off 0x78012C 0x40 4).isSome

/-- REGISTER_WRITE: a 4 B write of the window by host software or, with `fw`, by firmware. A
firmware access beyond the window is outside the cores' address map (R585). -/
def execRegisterWrite (off : Nat) (w : Word) (fw : Bool) (s : State) : Out :=
  if fw && !mgcMap (mgcAddr off) then .next (coreFault s (mgcAddr off))
  else if off % 4 ≠ 0 then .next (badWindow s off)
  else match doorbellCtx off with
  | some c => .next (if fw then fwDenied s else writeDoorbell s c (off % 0x1000) w)
  | none =>
    if !mapped off then
      let s := unmappedAt s off
      .next (if fw then fwDenied s else s)
    else if !fw then .next (hostWriteReg s off w.toNat)
    else if fwMay off then .next (writeReg s off w.toNat)
    else .next (fwDenied s)

/-! ### DBG_WRITE (R662, R663) -/

/-- Operands of DBG_WRITE. -/
def dwOff (m : Cmd) : Nat := m.at 8 4
def dwMask (m : Cmd) : Nat := m.at 16 4

/-- The checks of R662: DETAIL of the first that fails. -/
def dbgFault (m : Cmd) : Option Nat :=
  let off := dwOff m
  let mask := dwMask m
  if m.at 4 4 ≠ 0 || m.at 20 28 ≠ 0 || off % 4 ≠ 0 || 0xC00000 ≤ off then some 8
  else if !mapped off then some 8
  else if mask ≠ mask &&& writableBits off || (off = 0x14 && bitAt mask 0) then some 16
  else none

/-- The whole value that a masked write brings: RW and RWL fields outside the mask keep what they hold, RW1C and
WO fields outside it are written 0. A RING_EN that waits for a reset stays asked for. -/
def dbgValue (s : State) (off v mask : Nat) : Nat :=
  match rowAt off with
  | none => 0
  | some r =>
    let k := off - 0x110000
    let ring := decide (0x110000 ≤ off) && decide (off < 0x114000) && decide (0x80 ≤ k % 0x100) && k % 0x20 == 8
    let waits := ring && (ringOf s (k / 0x100) ((k % 0x100 - 0x80) / 0x20)).enWait
    let cur := BitVec.ofNat 32 (if waits then setFld (readReg s off) 31 31 1 else readReg s off)
    let m := BitVec.ofNat 32 mask
    let keep := BitVec.ofNat 32 r.rw ||| BitVec.ofNat 32 r.rwl
    ((cur &&& keep &&& ~~~m) ||| (BitVec.ofNat 32 v &&& m)).toNat

/-- A write as though SETUP_DONE were 0 and as though from MGC. The TST slice has no RWL field. -/
def debugWrite (s : State) (off w : Nat) : State :=
  if setupDone s && off / 0x80000 != 23 then setRegBit (writeReg (setRegBit s 0x14 0 false) off w) 0x14 0 true
  else writeReg s off w

/-- DBG_WRITE: the masked bits of a register are written, RESULT is its value after, and a DEBUG record is made. -/
def execDbgWrite (s : State) : Out :=
  match waitingCritical s 0x0F00 with
  | none => .next s
  | some m =>
    match dbgFault m with
    | some b => .next (refuseCritical s m 0x10 b)
    | none =>
      let off := dwOff m
      let s := acceptCritical s m
      let s := if dwMask m = 0 then s else debugWrite s off (dbgValue s off (m.at 12 4) (dwMask m))
      let v := readReg s off
      .next (completeOk (traceDebug s m.ctx 2 off v) m v)

end Sys2Proof.Machine
end

