-- ==== Sys2Proof/Machine/Dispatch.lean ====
section
/-! DEFINITION. One arm per command: the meaning it calls. -/

namespace Sys2Proof.Machine

def exec (i : Instr) (s : State) : Host.Outcome State Fault Refusal :=
  match i with
  | .porstN => Sys2Proof.Machine.execPorstN s
  | .cellarRstN => Sys2Proof.Machine.execCellarRstN s
  | .coreRstNAssert => Sys2Proof.Machine.execCoreRstNAssert s
  | .coreRstNRelease => Sys2Proof.Machine.execCoreRstNRelease s
  | .cellarResetRelease => Sys2Proof.Machine.execCellarResetRelease s
  | .trstN => Sys2Proof.Machine.execTrstN s
  | .cellarBistDone repairs bad => Sys2Proof.Machine.execCellarBistDone repairs bad s
  | .katDone ok => Sys2Proof.Machine.execKatDone ok s
  | .coreBistDone f bad => Sys2Proof.Machine.execCoreBistDone f bad s
  | .fieldTrainingStart f => Sys2Proof.Machine.execFieldTrainingStart f s
  | .fieldTrainingEnd f clkOk down up left wordErr => Sys2Proof.Machine.execFieldTrainingEnd f clkOk down up left s wordErr
  | .fieldLinkTrainingEnd n lanes => Sys2Proof.Machine.execFieldLinkTrainingEnd n lanes s
  | .fldClkStateChange f st edges => Sys2Proof.Machine.execFldClkStateChange f st edges s
  | .fldOffReqRise f => Sys2Proof.Machine.execFldOffReqRise f s
  | .fldOffAck f => Sys2Proof.Machine.execFldOffAck f s
  | .fldOffReqFall f => Sys2Proof.Machine.execFldOffReqFall f s
  | .gateIdleExpiry core => Sys2Proof.Machine.execGateIdleExpiry core s
  | .gateAckFall core => Sys2Proof.Machine.execGateAckFall core s
  | .cclkFreqCheck mhz => Sys2Proof.Machine.execCclkFreqCheck mhz s
  | .gtbFrame bits spaced => Sys2Proof.Machine.execGtbFrame bits spaced s
  | .refLoss => Sys2Proof.Machine.execRefLoss s
  | .gtbLocked => Sys2Proof.Machine.execGtbLocked s
  | .holdExpired => Sys2Proof.Machine.execHoldExpired s
  | .slewEnd => Sys2Proof.Machine.execSlewEnd s
  | .gtbTimeWord => Sys2Proof.Machine.execGtbTimeWord s
  | .sqnDb c r v mem => Sys2Proof.Machine.execSqnDb c r v mem s
  | .cqDb c v => Sys2Proof.Machine.execCqDb c v s
  | .eqDb c v => Sys2Proof.Machine.execEqDb c v s
  | .irqRearmClear c => Sys2Proof.Machine.execIrqRearmClear c s
  | .irqRearmSet c => Sys2Proof.Machine.execIrqRearmSet c s
  | .doorbellBadAccess c => Sys2Proof.Machine.execDoorbellBadAccess c s
  | .descriptorFetch => Sys2Proof.Machine.execDescriptorFetch s
  | .descriptorReceived => Sys2Proof.Machine.execDescriptorReceived s
  | .ringFetchError => Sys2Proof.Machine.execRingFetchError s
  | .cauCheck => Sys2Proof.Machine.execCauCheck s
  | .completionEntryWrite => Sys2Proof.Machine.execCompletionEntryWrite s
  | .holdoffEnd c => Sys2Proof.Machine.execHoldoffEnd c s
  | .nop => Sys2Proof.Machine.execNop s
  | .graphLoad readErr => Sys2Proof.Machine.execGraphLoad readErr s
  | .graphLoadInstall err lost => Sys2Proof.Machine.execGraphLoadInstall err s lost
  | .graphLaunch => Sys2Proof.Machine.execGraphLaunch s
  | .launchBegin => Sys2Proof.Machine.execLaunchBegin s
  | .stepStart => Sys2Proof.Machine.execStepStart s
  | .sweepRow => Sys2Proof.Machine.execSweepRow s
  | .graphAbort => Sys2Proof.Machine.execGraphAbort s
  | .graphUnload => Sys2Proof.Machine.execGraphUnload s
  | .unloadZeroingDone => Sys2Proof.Machine.execUnloadZeroingDone s
  | .imageLoad => Sys2Proof.Machine.execImageLoad s
  | .imageLoadDone c img err lost => Sys2Proof.Machine.execImageLoadDone c img err s lost
  | .syncSignal => Sys2Proof.Machine.execSyncSignal s
  | .syncSignalTo => Sys2Proof.Machine.execSyncSignalTo s
  | .syncWait => Sys2Proof.Machine.execSyncWait s
  | .syncDecrement => Sys2Proof.Machine.execSyncDecrement s
  | .syncDump => Sys2Proof.Machine.execSyncDump s
  | .syncDumpDone => Sys2Proof.Machine.execSyncDumpDone s
  | .syncForce => Sys2Proof.Machine.execSyncForce s
  | .chanDecant => Sys2Proof.Machine.execChanDecant s
  | .serveOpen readErr => Sys2Proof.Machine.execServeOpen s readErr
  | .serveClose => Sys2Proof.Machine.execServeClose s
  | .parcelDefine => Sys2Proof.Machine.execParcelDefine s
  | .parcelBind => Sys2Proof.Machine.execParcelBind s
  | .parcelDissolve => Sys2Proof.Machine.execParcelDissolve s
  | .parcelInstall => Sys2Proof.Machine.execParcelInstall s
  | .shareSet => Sys2Proof.Machine.execShareSet s
  | .ctxSave => Sys2Proof.Machine.execCtxSave s
  | .ctxRestore => Sys2Proof.Machine.execCtxRestore s
  | .modelSwitch => Sys2Proof.Machine.execModelSwitch s
  | .fwLoad => Sys2Proof.Machine.execFwLoad s
  | .fwLoadDone err lost => Sys2Proof.Machine.execFwLoadDone err s lost
  | .calWrite => Sys2Proof.Machine.execCalWrite s
  | .keyLoad => Sys2Proof.Machine.execKeyLoad s
  | .keyRetire => Sys2Proof.Machine.execKeyRetire s
  | .traceStart => Sys2Proof.Machine.execTraceStart s
  | .traceFilter => Sys2Proof.Machine.execTraceFilter s
  | .traceFlush => Sys2Proof.Machine.execTraceFlush s
  | .traceStop => Sys2Proof.Machine.execTraceStop s
  | .dbgWrite => Sys2Proof.Machine.execDbgWrite s
  | .dispatchSelect => Sys2Proof.Machine.execDispatchSelect s
  | .dispatchRecord f => Sys2Proof.Machine.execDispatchRecord f s
  | .withdraw f => Sys2Proof.Machine.execWithdraw f s
  | .endValid core engine slot code mem lost => Sys2Proof.Machine.execEndValid core engine slot code mem s lost
  | .effValid core slot data => Sys2Proof.Machine.execEffValid core slot data s
  | .effectRecord f full => Sys2Proof.Machine.execEffectRecord f s full
  | .completeRecord f => Sys2Proof.Machine.execCompleteRecord f s
  | .commit lost => Sys2Proof.Machine.execCommit s lost
  | .killOrder f => Sys2Proof.Machine.execKillOrder f s
  | .killTimeout => Sys2Proof.Machine.execKillTimeout s
  | .watchdog => Sys2Proof.Machine.execWatchdog s
  | .teardownEnd => Sys2Proof.Machine.execTeardownEnd s
  | .decrementApply bank => Sys2Proof.Machine.execDecrementApply bank s
  | .tmrInsert => Sys2Proof.Machine.execTmrInsert s
  | .tmrRelease => Sys2Proof.Machine.execTmrRelease s
  | .gateEvaluate stErr lossErr => Sys2Proof.Machine.execGateEvaluate stErr lossErr s
  | .gateRecordWrite walkErr => Sys2Proof.Machine.execGateRecordWrite s walkErr
  | .syncWaitEffect => Sys2Proof.Machine.execSyncWaitEffect s
  | .objectMaterialise readOk => Sys2Proof.Machine.execObjectMaterialise readOk s
  | .wakeBeat f => Sys2Proof.Machine.execWakeBeat f s
  | .grantAck => Sys2Proof.Machine.execGrantAck s
  | .chipArrive p chip xb sense => Sys2Proof.Machine.execChipArrive p chip xb sense s
  | .xbRelease p chip xb sense t => Sys2Proof.Machine.execXbRelease p chip xb sense t s
  | .barrierReleaseInstant => Sys2Proof.Machine.execBarrierReleaseInstant s
  | .sendCreditGrant => Sys2Proof.Machine.execSendCreditGrant s
  | .recordAssign => Sys2Proof.Machine.execRecordAssign s
  | .msg p chip key epoch item => Sys2Proof.Machine.execMsg p chip key epoch item s
  | .epochNotice p chip key epoch isOpen => Sys2Proof.Machine.execEpochNotice p chip key epoch isOpen s
  | .remoteCredit p chip key units queue => Sys2Proof.Machine.execRemoteCredit p chip key units queue s
  | .blend p chip key slot item => Sys2Proof.Machine.execBlend p chip key slot item s
  | .chain p chip key item => Sys2Proof.Machine.execChain p chip key item s
  | .contributionIntake lost => Sys2Proof.Machine.execContributionIntake s lost
  | .treeAdd => Sys2Proof.Machine.execTreeAdd s
  | .flitSend p => Sys2Proof.Machine.execFlitSend p s
  | .linkUpFall p => Sys2Proof.Machine.execLinkUpFall p s
  | .linkUpRise p => Sys2Proof.Machine.execLinkUpRise p s
  | .translationRequest f bits walkErr full => Sys2Proof.Machine.execTranslationRequest f bits walkErr s full
  | .frameWaitGrant => Sys2Proof.Machine.execFrameWaitGrant s
  | .deferredRelease => Sys2Proof.Machine.execDeferredRelease s
  | .frameZeroed st => Sys2Proof.Machine.execFrameZeroed st s
  | .streamFillDone readOk => Sys2Proof.Machine.execStreamFillDone readOk s
  | .unitWrite => Sys2Proof.Machine.execUnitWrite s
  | .kvOperationDone v => Sys2Proof.Machine.execKvOperationDone v s
  | .assembly v => Sys2Proof.Machine.execAssembly v s
  | .servePoll v => Sys2Proof.Machine.execServePoll v s
  | .policyTickBoundary lat => Sys2Proof.Machine.execPolicyTickBoundary lat s
  | .wdogExpired => Sys2Proof.Machine.execWdogExpired s
  | .halt => Sys2Proof.Machine.execHalt s
  | .mgcWdogKick => Sys2Proof.Machine.execMgcWdogKick s
  | .mgcTickAck core w => Sys2Proof.Machine.execMgcTickAck core w s
  | .noticeGo core c => Sys2Proof.Machine.execNoticeGo core c s
  | .hold b => Sys2Proof.Machine.execHold b s
  | .policyShadowWrite off w => Sys2Proof.Machine.execPolicyShadowWrite off w s
  | .errorRecord => Sys2Proof.Machine.execErrorRecord s
  | .comparatorTest path ok diff => Sys2Proof.Machine.execComparatorTest path ok diff s
  | .scrub storage index finding found => Sys2Proof.Machine.execScrub storage index finding found s
  | .recoveryRebuild => Sys2Proof.Machine.execRecoveryRebuild s
  | .recoveryReentry => Sys2Proof.Machine.execRecoveryReentry s
  | .queuePtrMismatch off => Sys2Proof.Machine.execQueuePtrMismatch off s
  | .decant off w => Sys2Proof.Machine.execDecant off w s
  | .icacheFill u => Sys2Proof.Machine.execIcacheFill u s
  | .rexNop u exe => Sys2Proof.Machine.execRexNop u exe s
  | .rexEnd u exe => Sys2Proof.Machine.execRexEnd u exe s
  | .loop u exe => Sys2Proof.Machine.execLoop u exe s
  | .qbar u exe => Sys2Proof.Machine.execQbar u exe s
  | .ld u => Sys2Proof.Machine.execLd u s
  | .st u => Sys2Proof.Machine.execSt u s
  | .ldq u => Sys2Proof.Machine.execLdq u s
  | .stq u => Sys2Proof.Machine.execStq u s
  | .dig u => Sys2Proof.Machine.execDig u s
  | .accld u => Sys2Proof.Machine.execAccld u s
  | .accst u => Sys2Proof.Machine.execAccst u s
  | .accadd u => Sys2Proof.Machine.execAccadd u s
  | .send u => Sys2Proof.Machine.execSend u s
  | .blendInstr u => Sys2Proof.Machine.execBlendInstr u s
  | .sig u => Sys2Proof.Machine.execSig u s
  | .add u => Sys2Proof.Machine.execAdd u s
  | .sub u => Sys2Proof.Machine.execSub u s
  | .mul u => Sys2Proof.Machine.execMul u s
  | .fma u => Sys2Proof.Machine.execFma u s
  | .min u => Sys2Proof.Machine.execMin u s
  | .max u => Sys2Proof.Machine.execMax u s
  | .abs u => Sys2Proof.Machine.execAbs u s
  | .neg u => Sys2Proof.Machine.execNeg u s
  | .rcp u => Sys2Proof.Machine.execRcp u s
  | .rsq u => Sys2Proof.Machine.execRsq u s
  | .sqrt u => Sys2Proof.Machine.execSqrt u s
  | .mov u => Sys2Proof.Machine.execMov u s
  | .cvt u => Sys2Proof.Machine.execCvt u s
  | .swu u => Sys2Proof.Machine.execSwu u s
  | .red u => Sys2Proof.Machine.execRed u s
  | .scan u => Sys2Proof.Machine.execScan u s
  | .sscan u => Sys2Proof.Machine.execSscan u s
  | .accw u => Sys2Proof.Machine.execAccw u s
  | .accz u => Sys2Proof.Machine.execAccz u s
  | .accsum u => Sys2Proof.Machine.execAccsum u s
  | .epStart w => Sys2Proof.Machine.execEpStart w s
  | .epDone => Sys2Proof.Machine.execEpDone s
  | .offline u w => Sys2Proof.Machine.execOffline u w s
  | .rexTileData write => Sys2Proof.Machine.execRexTileData write s
  | .traceIncrement src e states act lost => Sys2Proof.Machine.execTraceIncrement src e states act lost s
  | .fullStamp m => Sys2Proof.Machine.execFullStamp m s
  | .traceRecordWrite m => Sys2Proof.Machine.execTraceRecordWrite m s
  | .clear => Sys2Proof.Machine.execClear s
  | .freeze b => Sys2Proof.Machine.execFreeze b s
  | .prbsStart w => Sys2Proof.Machine.execPrbsStart w s
  | .prbsStop w errs => Sys2Proof.Machine.execPrbsStop w errs s
  | .prbsInject w => Sys2Proof.Machine.execPrbsInject w s
  | .prbsDurEnd sel errs => Sys2Proof.Machine.execPrbsDurEnd sel errs s
  | .wrapperInstruction part ins code => Sys2Proof.Machine.execWrapperInstruction part ins code s
  | .instrumentWrite inst off w => Sys2Proof.Machine.execInstrumentWrite inst off w s
  | .hifCtxEnable c w => Sys2Proof.Machine.execHifCtxEnable c w s
  | .ringEn c r w => Sys2Proof.Machine.execRingEn c r w s
  | .resetCounts c r w => Sys2Proof.Machine.execResetCounts c r w s
  | .resetCountsEffect c r => Sys2Proof.Machine.execResetCountsEffect c r s
  | .fetchEn b => Sys2Proof.Machine.execFetchEn b s
  | .setupDone b => Sys2Proof.Machine.execSetupDone b s
  | .gtbCtlEnable w => Sys2Proof.Machine.execGtbCtlEnable w s
  | .synRelease c w => Sys2Proof.Machine.execSynRelease c w s
  | .patRelease c => Sys2Proof.Machine.execPatRelease c s
  | .rexIregWrite c hi w => Sys2Proof.Machine.execRexIregWrite c hi w s
  | .imbEnWrite c w => Sys2Proof.Machine.execImbEnWrite c w s
  | .lnkCtxResWrite c w => Sys2Proof.Machine.execLnkCtxResWrite c w s
  | .synDiagSelWrite w => Sys2Proof.Machine.execSynDiagSelWrite w s
  | .synDiagDataRead => Sys2Proof.Machine.execSynDiagDataRead s
  | .safRecSelWrite w => Sys2Proof.Machine.execSafRecSelWrite w s
  | .safRecDataRead => Sys2Proof.Machine.execSafRecDataRead s
  | .gtbNowLoRead => Sys2Proof.Machine.execGtbNowLoRead s
  | .psmCtxEng0LoRead c => Sys2Proof.Machine.execPsmCtxEng0LoRead c s
  | .counterCaptureRead off => Sys2Proof.Machine.execCounterCaptureRead off s
  | .registerWrite off w fw => Sys2Proof.Machine.execRegisterWrite off w fw s
  | .badAccess off size => Sys2Proof.Machine.execBadAccess off size s
  | .gtbRefEdge incr phaseOk => Sys2Proof.Machine.execGtbRefEdge incr phaseOk s
  | .spadReady u b => Sys2Proof.Machine.execSpadReady u b s
  | .gateAckRise core => Sys2Proof.Machine.execGateAckRise core s
  | .prbsLaneLock sel lane => Sys2Proof.Machine.execPrbsLaneLock sel lane s
  | .machineTimerInterrupt core cmp reached => Sys2Proof.Machine.execMachineTimerInterrupt core cmp s reached
  | .reservedKindFlit p => Sys2Proof.Machine.execReservedKindFlit p s

end Sys2Proof.Machine
end

