-- ==== Sys2Proof/WellFormed.lean ====
section
/-! DEFINITION. Which commands are well formed: operands that no register, memory, lane or unit of the block can
bring are not. A meaning is total all the same; these are the checks that a sender of commands keeps. -/

namespace Sys2Proof

/-- An offset of the window at which a 4 B register may lie (R85, R86). -/
def wordOffset (off : Nat) : Bool := decide (off < 2 ^ 24) && decide (off % 4 = 0)

/-- Cells of host memory that a doorbell or a command's end brings: distinct 64-bit addresses in rising order. -/
def cellsOk : List (Nat × BitVec 8) → Bool
  | [] => true
  | [c] => decide (c.1 < 2 ^ 64)
  | c :: d :: l => decide (c.1 < d.1) && cellsOk (d :: l)

/-- The outcome of a stream read: the offset of a host read error in the image. -/
def errOk (err : Option Nat) : Bool :=
  match err with
  | some k => decide (k < 2 ^ 32)
  | none => true

/-- An item on the link: whole 64 B units, at most 16,384 of them (R342, R370). -/
def itemOk (item : List (BitVec 8)) : Bool := decide (item.length ≤ 2 ^ 20)

/-- Error counts of lanes (R676, R687). -/
def lanesOk (errs : List (Nat × Nat)) : Bool := errs.all fun e => decide (e.1 < 2048)

/-- A unit of field `f` by its number in a UNIT_BIST_FAIL record: a core, 0x8000 and a REX unit, or 0xF000 and a
field (R627). -/
def isUnit (f : Fin 8) (d : Nat) : Bool :=
  decide (d / 512 = f.val) || (decide (0x8000 ≤ d) && decide ((d - 0x8000) / 16 = f.val)) || d == 0xF000 + f.val

/-- Well-formed commands. -/
def Instr.wf (i : Instr) : Bool :=
  match i with
  | .porstN => true
  | .cellarRstN => true
  | .coreRstNAssert => true
  | .coreRstNRelease => true
  | .cellarResetRelease => true
  | .trstN => true
  | .cellarBistDone _ bad => (match bad with | some (m, row) => decide (m < 2 ^ 16) && decide (row < 2 ^ 16) | none => true)
  | .katDone _ => true
  | .coreBistDone f bad => bad.all fun e => isUnit f e.1
  | .fieldTrainingStart _ => true
  | .fieldTrainingEnd _ _ down up _ _ => decide (down ≤ 1184) && decide (up ≤ 1184)
  | .fieldLinkTrainingEnd _ lanes => decide (lanes ≤ 576)
  | .fldClkStateChange _ _ _ => true
  | .fldOffReqRise _ => true
  | .fldOffAck _ => true
  | .fldOffReqFall _ => true
  | .gateIdleExpiry _ => true
  | .gateAckFall _ => true
  | .cclkFreqCheck mhz => decide (mhz < 2 ^ 32)
  | .gtbFrame _ _ => true
  | .refLoss => true
  | .gtbLocked => true
  | .holdExpired => true
  | .slewEnd => true
  | .gtbTimeWord => true
  | .sqnDb _ _ _ mem => cellsOk mem
  | .cqDb _ _ => true
  | .eqDb _ _ => true
  | .irqRearmClear _ => true
  | .irqRearmSet _ => true
  | .doorbellBadAccess _ => true
  | .descriptorFetch => true
  | .descriptorReceived => true
  | .ringFetchError => true
  | .cauCheck => true
  | .completionEntryWrite => true
  | .holdoffEnd _ => true
  | .nop => true
  | .graphLoad _ => true
  | .graphLoadInstall err lost => errOk err && decide (lost < 2 ^ 16)
  | .graphLaunch => true
  | .launchBegin => true
  | .stepStart => true
  | .sweepRow => true
  | .graphAbort => true
  | .graphUnload => true
  | .unloadZeroingDone => true
  | .imageLoad => true
  | .imageLoadDone _ _ err lost => errOk err && decide (lost < 2 ^ 16)
  | .syncSignal => true
  | .syncSignalTo => true
  | .syncWait => true
  | .syncDecrement => true
  | .syncDump => true
  | .syncDumpDone => true
  | .syncForce => true
  | .chanDecant => true
  | .serveOpen _ => true
  | .serveClose => true
  | .parcelDefine => true
  | .parcelBind => true
  | .parcelDissolve => true
  | .parcelInstall => true
  | .shareSet => true
  | .ctxSave => true
  | .ctxRestore => true
  | .modelSwitch => true
  | .fwLoad => true
  | .fwLoadDone err lost => errOk err && decide (lost < 2 ^ 16)
  | .calWrite => true
  | .keyLoad => true
  | .keyRetire => true
  | .traceStart => true
  | .traceFilter => true
  | .traceFlush => true
  | .traceStop => true
  | .dbgWrite => true
  | .dispatchSelect => true
  | .dispatchRecord _ => true
  | .withdraw _ => true
  | .endValid _ engine _ _ mem _ => decide (engine.val < 6) && cellsOk mem
  | .effValid _ _ _ => true
  | .effectRecord _ _ => true
  | .completeRecord _ => true
  | .commit _ => true
  | .killOrder _ => true
  | .killTimeout => true
  | .watchdog => true
  | .teardownEnd => true
  | .decrementApply _ => true
  | .tmrInsert => true
  | .tmrRelease => true
  | .gateEvaluate _ _ => true
  | .gateRecordWrite _ => true
  | .syncWaitEffect => true
  | .objectMaterialise _ => true
  | .wakeBeat _ => true
  | .grantAck => true
  | .chipArrive _ _ _ _ => true
  | .xbRelease _ _ _ _ _ => true
  | .barrierReleaseInstant => true
  | .sendCreditGrant => true
  | .recordAssign => true
  | .msg _ _ _ _ item => itemOk item
  | .epochNotice _ _ _ _ _ => true
  | .remoteCredit _ _ _ _ _ => true
  | .blend _ _ _ _ item => itemOk item
  | .chain _ _ _ item => itemOk item
  | .contributionIntake _ => true
  | .treeAdd => true
  | .flitSend _ => true
  | .linkUpFall _ => true
  | .linkUpRise _ => true
  | .translationRequest _ _ _ _ => true
  | .frameWaitGrant => true
  | .deferredRelease => true
  | .frameZeroed _ => true
  | .streamFillDone _ => true
  | .unitWrite => true
  | .kvOperationDone _ => true
  | .assembly _ => true
  | .servePoll _ => true
  | .policyTickBoundary lat => decide (lat.length ≤ 24)
  | .wdogExpired => true
  | .halt => true
  | .mgcWdogKick => true
  | .mgcTickAck _ _ => true
  | .noticeGo _ _ => true
  | .hold _ => true
  | .policyShadowWrite off _ => wordOffset off
  | .errorRecord => true
  | .comparatorTest _ _ _ => true
  | .scrub _ index _ found => decide (index < 2 ^ 32) && (match found with | some v => decide (v < 2 ^ 256) | none => true)
  | .recoveryRebuild => true
  | .recoveryReentry => true
  | .queuePtrMismatch off => wordOffset off
  | .decant off _ => wordOffset off
  | .icacheFill _ => true
  | .rexNop _ _ => true
  | .rexEnd _ _ => true
  | .loop _ _ => true
  | .qbar _ _ => true
  | .ld _ => true
  | .st _ => true
  | .ldq _ => true
  | .stq _ => true
  | .dig _ => true
  | .accld _ => true
  | .accst _ => true
  | .accadd _ => true
  | .send _ => true
  | .blendInstr _ => true
  | .sig _ => true
  | .add _ => true
  | .sub _ => true
  | .mul _ => true
  | .fma _ => true
  | .min _ => true
  | .max _ => true
  | .abs _ => true
  | .neg _ => true
  | .rcp _ => true
  | .rsq _ => true
  | .sqrt _ => true
  | .mov _ => true
  | .cvt _ => true
  | .swu _ => true
  | .red _ => true
  | .scan _ => true
  | .sscan _ => true
  | .accw _ => true
  | .accz _ => true
  | .accsum _ => true
  | .epStart _ => true
  | .epDone => true
  | .offline _ _ => true
  | .rexTileData _ => true
  | .traceIncrement src e states act _ => decide (e.val < 6) && decide (act < 2 ^ 16) &&
    (states.all fun p => decide (p.2 < 2 ^ 16) && (decide (src.val < 4096) || p.1 == 0 || p.1 == 1 || decide (8 ≤ p.1.val)))
  | .fullStamp _ => true
  | .traceRecordWrite _ => true
  | .clear => true
  | .freeze _ => true
  | .prbsStart _ => true
  | .prbsStop _ errs => lanesOk errs
  | .prbsInject _ => true
  | .prbsDurEnd _ errs => lanesOk errs
  | .wrapperInstruction _ _ code => decide (code < 2 ^ 32)
  | .instrumentWrite _ off _ => decide (off < 2 ^ 24)
  | .hifCtxEnable _ _ => true
  | .ringEn _ _ _ => true
  | .resetCounts _ _ _ => true
  | .resetCountsEffect _ _ => true
  | .fetchEn _ => true
  | .setupDone _ => true
  | .gtbCtlEnable _ => true
  | .synRelease _ _ => true
  | .patRelease _ => true
  | .rexIregWrite _ _ _ => true
  | .imbEnWrite _ _ => true
  | .lnkCtxResWrite _ _ => true
  | .synDiagSelWrite _ => true
  | .synDiagDataRead => true
  | .safRecSelWrite _ => true
  | .safRecDataRead => true
  | .gtbNowLoRead => true
  | .psmCtxEng0LoRead _ => true
  | .counterCaptureRead off => wordOffset off
  | .registerWrite off _ fw => wordOffset off || (fw && decide (off < 2 ^ 64 - 2 ^ 32))
  | .badAccess off size => decide (off < 2 ^ 24) && decide (1 ≤ size) && decide (size ≤ 64)
  | .gtbRefEdge incr _ => decide (incr ≤ 8192)
  | .spadReady _ _ => true
  | .gateAckRise _ => true
  | .prbsLaneLock _ _ => true
  | .machineTimerInterrupt _ cmp _ => decide (cmp < 2 ^ 64)
  | .reservedKindFlit _ => true

end Sys2Proof
end

