-- ==== Sys2Proof/Safety.lean ====
section
/-! DEFINITION. What a state of the block keeps to: canonical memories, and a queue of well-formed commands. -/

namespace Sys2Proof.Machine

open Sys2Proof

/-- Stacked memory, host memory and the management cluster's SRAM are in canonical form. -/
def MemOk (s : State) : Prop :=
  Memory.wf s.mem = true ∧ Memory.wf s.host = true ∧ Memory.wf s.mgc.sram = true

/-- Every command that waits is well formed. -/
def QueueOk (s : State) : Prop := ∀ c ∈ s.pending, c.wf = true

/-- What every step keeps. -/
def Safe (s : State) : Prop := MemOk s ∧ QueueOk s

end Sys2Proof.Machine
end

