-- ==== Sys2Proof/Certificates/Slice0/Obligations.lean ====
section
/-! DEFINITION. Statements about the block, for the provers. -/

open Sys2Proof Sys2Proof.Machine

/-! ### The whole block -/

/-- A step takes the command in front of the queue and runs it with the queue's rest. -/
def Obligations.StepTakesTheFront : Prop :=
  ∀ (s : State) (c : Instr) (rest : List Instr),
    step { s with pending := c :: rest } = exec c { s with pending := rest }

/-- On an empty queue one CCLK passes, which is the model's own choice (log entry 12): the step is `elapse 1`, and the
waiting commands, both memories, the host interface, dispatch, the task graphs and what units ask stay as they
were. -/
def Obligations.IdleStepPassesOneCclk : Prop :=
  ∀ s : State, s.pending = [] → step s = .next (elapse 1 s) ∧ (elapse 1 s).pending = [] ∧
    (elapse 1 s).mem = s.mem ∧ (elapse 1 s).host = s.host ∧ (elapse 1 s).hif = s.hif ∧
    (elapse 1 s).disp = s.disp ∧ (elapse 1 s).tge = s.tge ∧ (elapse 1 s).asks = s.asks

/-- Commands act in the order in which they came: a step takes the front, and no command's effect adds to the queue,
drops from it or reorders it. -/
def Obligations.StepKeepsQueueOrder : Prop :=
  ∀ s t : State, step s = .next t → t.pending = s.pending.tail

/-- Every step keeps each memory in its canonical form and the waiting commands well formed. -/
def Obligations.StepKeepsTheInvariant : Prop :=
  ∀ s t : State, Safe s → step s = .next t → Safe t

/-- The invariant holds after reset. -/
def Obligations.ResetIsSafe : Prop := Safe State.reset

/-- No command stops the block: each answers a next state, in every state and on every operand. -/
def Obligations.NoCommandStops : Prop := ∀ (c : Instr) (s : State), ∃ t, exec c s = .next t

/-- What reset leaves. VERSION, BUILD, GROUP_CHIPS, SETUP_DONE, GTB STATE 3, MASK 1, ENABLE 0 and IDLE 1 are the values
of the register tables; that the tables, memories and the queue start empty and group time at 0 is the model's
choice (log entries 1 and 29). -/
def Obligations.ResetState : Prop :=
  reg State.reset 0x0 = 0x00030100 ∧ reg State.reset 0x4 = 0x84101434 ∧ reg State.reset 0x8 = 0x80 ∧
  groupChips State.reset = 1 ∧ chipId State.reset = 0 ∧ setupDone State.reset = false ∧
  gtbState State.reset = 3 ∧ State.reset.gtb.now = 0 ∧
  (∀ c : Fin 64, regBit State.reset (hifBase c + 0x44) 31 = true ∧ ctxEnabled State.reset c = false ∧
    ctxIdle State.reset c = true) ∧
  State.reset.pending = [] ∧ State.reset.mem = [] ∧ State.reset.host = [] ∧ State.reset.cau.slots = [] ∧
  State.reset.hif.unitQ = [] ∧ State.reset.tge.imgs = [] ∧ State.reset.tge.steps = [] ∧
  State.reset.disp.runs = [] ∧ State.reset.syn.objA = [] ∧ State.reset.chn.chans = [] ∧
  State.reset.blq.qs = [] ∧ State.reset.pat.maps = [] ∧ State.reset.psm.parcels = [] ∧
  State.reset.sls.srv = [] ∧ State.reset.saf.recQ = [] ∧ State.reset.saf.safe = false

/-! ### Resets, bring-up, clocks and power -/

/-- The cold reset and the cellar reset lose every table, key and register; the cold reset alone also puts the test
wrappers in WS_BYPASS. The model leaves what the memories hold as it was (log entry 21). CORE_RST_N kills every
uncommitted command and clears the core side; it leaves reset once no other reset is low, when the march of every
field begins. -/
def Obligations.ResetCommands : Prop :=
  (∀ (s : State) (c : Instr), c = .porstN ∨ c = .cellarRstN →
    ∃ t, exec c s = .next t ∧ (∀ o, reg t o = resetOf o) ∧ t.cau = {} ∧ t.mgc = State.reset.mgc ∧ t.hif = {} ∧
      t.tge = {} ∧ t.syn = {} ∧ t.psm = State.reset.psm ∧ t.pat = State.reset.pat ∧ t.sls = {} ∧ t.chn = {} ∧
      t.blq = {} ∧ t.trc = State.reset.trc ∧ t.saf = {} ∧ t.gtb = State.reset.gtb ∧ t.disp.runs = [] ∧
      t.disp.coreRst = true ∧ t.tst.celLow = true ∧ safFaultN t = false ∧
      t.tst.wraps = (if c = .porstN then [] else s.tst.wraps) ∧
      t.mem = s.mem ∧ t.host = s.host ∧ t.pending = s.pending) ∧
  ((∀ s : State, s.disp.coreRst = false →
    exec .coreRstNAssert s = .next (coreAssert { s with tst := { s.tst with coreLow := true } })) ∧
  (∀ s : State, s.tst.celLow = false → s.tst.coreLow = true →
    ∃ t, exec .coreRstNRelease s = .next t ∧ t.tst.coreLow = false ∧ t.disp.coreRst = false ∧
      t.disp.quarantine = [] ∧ t.tst.coreMarch = List.range Config.numFields) ∧
  (∀ s : State, s.tst.celLow = true → s.tst.coreLow = true →
    ∃ t, exec .coreRstNRelease s = .next t ∧ t = { s with tst := { s.tst with coreLow := false } }) ∧
  (∀ s : State, s.tst.celLow = true →
    ∃ t, exec .cellarResetRelease s = .next t ∧ t.tst.celLow = false ∧ t.tst.celMarch = true ∧
      (s.saf.safe = false → safFaultN t = true) ∧
      (s.tst.coreLow = false → t.disp.coreRst = false ∧ t.tst.coreMarch = List.range Config.numFields) ∧
      (s.tst.coreLow = true → t.disp = s.disp)) ∧
  (∀ s : State, exec .trstN s = .next { s with tst := { s.tst with wraps := [] } }))

/-- Bring-up: the cellar's march and the known-answer tests show their results, and a field that passes its own march
trains and becomes READY. -/
def Obligations.BringUp : Prop :=
  (∀ (s : State) (n : Nat), s.tst.celMarch = true →
    ∃ t, exec (.cellarBistDone n none) s = .next t ∧ regBit t 0xB80000 31 = true ∧ reg t 0xB80004 = n % 65536 ∧
      t.tst.celMarch = false) ∧
  (∀ (s : State) (n m row : Nat), s.tst.celMarch = true → s.saf.recQ.length < 32 →
    ∃ t, exec (.cellarBistDone n (some (m, row))) s = .next t ∧ regBit t 0xB80000 30 = true ∧
      reg t 0xB80008 = m % 65536 * 65536 + row % 65536 ∧ t.saf.recQ.length = s.saf.recQ.length + 1) ∧
  (∀ (s : State) (ok : Bool), s.tst.celLow = false → regFld s 0x180004 1 0 = 0 →
    ∃ t, exec (.katDone ok) s = .next t ∧ regFld t 0x180004 1 0 = (if ok then 1 else 2)) ∧
  (∀ (s : State) (f : Fin 8), s.tst.coreMarch = [f.val] →
    ∃ t, exec (.coreBistDone f []) s = .next t ∧ (fieldOf t f).bist = true ∧ t.tst.coreMarch = [] ∧
      regBit t 0xB80000 29 = true) ∧
  (∀ (s : State) (f : Fin 8), (fieldOf s f).bist = true → cellarReady s = true → (fieldOf s f).train = 0 →
    s.disp.coreRst = false → (fieldOf s f).offReq = false → linkTested s f = false →
    exec (.fieldTrainingStart f) s = .next (setField s f { fieldOf s f with train := 1 })) ∧
  (∀ (s : State) (f : Fin 8) (down up : Nat), (fieldOf s f).train = 1 → down ≤ 64 → up ≤ 64 →
    exec (.fieldTrainingEnd f true down up 0 false) s =
      .next (setField s f { fieldOf s f with sparesDown := down, sparesUp := up, train := 2 })) ∧
  (∀ (s : State) (f : Fin 8) (down up left : Nat) (wordErr : Bool), (fieldOf s f).train = 1 →
    64 < down ∨ 64 < up ∨ left ≠ 0 ∨ wordErr = true →
    ∃ t, exec (.fieldTrainingEnd f true down up left wordErr) s = .next t ∧ (fieldOf t f).train = 3 ∧
      regBit t 0xB80000 25 = true) ∧
  (∀ (s : State) (n : Fin 7), fieldReady s n = true → fieldReady s (n + 1) = true →
    s.tst.flDone.contains n.val = false → linkTested s (64 + n) = false →
    ∃ t, exec (.fieldLinkTrainingEnd n 0) s = .next t ∧ regBit t 0xB80010 n = false ∧
      t.tst.flDone = n.val :: s.tst.flDone)

/-- A field's clock, its power-down handshake, the gating of its cores and the pins of its REX units. A core idle for
GATE_IDLE cc asks to be gated, is gated, and starts what waits for its clock once it is back. -/
def Obligations.ClocksPowerAndGating : Prop :=
  ((∀ (s : State) (f : Fin 8) (st : Fin 4) (e : Fin 3), (tget {} s.clk f).clk = 0 → st.val ≠ 0 →
    ∃ t, exec (.fldClkStateChange f st e) s = .next t ∧ (tget {} t.clk f).clk = st.val ∧
      (tget {} t.clk f).stretches = (tget {} s.clk f).stretches + 1 ∧
      (tget {} t.clk f).word = max (tget {} s.clk f).word s.gtb.now ∧ regBit t (0x900120 + 4 * f) 2 = true) ∧
  (∀ (s : State) (f : Fin 8), ∃ t, exec (.fldOffReqRise f) s = .next t ∧ (fieldOf t f).offReq = true ∧
      (fieldOf t f).offAck = false) ∧
  (∀ (s : State) (f : Fin 8), (fieldOf s f).offReq = true → fieldEmpty s f = true →
    exec (.fldOffAck f) s = .next (setField s f { fieldOf s f with offAck := true })) ∧
  (∀ (s : State) (f : Fin 8), (fieldOf s f).offReq = true → (fieldOf s f).offAck = false →
    exec (.fldOffReqFall f) s = .next (setField s f { fieldOf s f with offReq := false })) ∧
  (∀ (s : State) (f : Fin 8), (fieldOf s f).offReq = true → (fieldOf s f).offAck = true →
    exec (.fldOffReqFall f) s = .next (endEmptied (fieldPowerUp (setField s f { fieldOf s f with offReq := false })
    f))) ∧
  (∀ (s : State) (mhz : Nat), mhz * 100 < 1250 * 99 ∨ 1250 * 101 < mhz * 100 → s.saf.recQ.length < 32 →
    ∃ t e, exec (.cclkFreqCheck mhz) s = .next t ∧ t.saf.recQ = s.saf.recQ ++ [e] ∧ e.sev = 3 ∧ e.unit = 0x13 ∧
      e.code = 0x22) ∧
  (∀ (s : State) (u : Fin 128) (b : Bool),
    ∃ t, exec (.spadReady u b) s = .next t ∧ (unitOf t u).spad = b ∧ t = { s with rex := t.rex } ∧
      (∀ v, v ≠ u.val → unitOf t v = unitOf s v))) ∧
  ((∀ (s : State) (n : Fin 4096), regFld s 0x400000 15 0 ≠ 0 → (coreOf s n).gateReq = false → coreIdle s n = true →
    ∃ t, exec (.gateIdleExpiry n) s = .next t ∧ (coreOf t n).gateReq = true ∧ t.tge = s.tge ∧ t.mem = s.mem) ∧
  (∀ (s : State) (n : Fin 4096), (coreOf s n).gateReq = true →
    exec (.gateAckRise n) s = .next (setCore s n { coreOf s n with gateAck := true })) ∧
  (∀ (s : State) (n : Fin 4096), (coreOf s n).gateReq = false → s.saf.safe = false →
    exec (.gateAckFall n) s = .next (settle
      (((s.disp.runs.filter fun e => e.2.kind != 3 && e.2.core == n.val && e.2.state == 2).map fun e => e.1).foldl
        beginRun (setCore s n { coreOf s n with gateAck := false })))))

/-! ### Group time -/

/-- A frame is good only under every condition of R95, and then it is shown; any other frame counts as bad. The load of
step 4 of R96 steps group time forward to a source time ahead of it; STATE becomes LOCKED after 16 good edges; in
REF_ONLY mode an edge alone locks. -/
def Obligations.GroupTimeAcquired : Prop :=
  (∀ (s : State) (bits : BitVec 96) (spaced : Bool), regBit s 0x900000 0 = true → gtbRefOnly s = false →
    ((frameForm s bits.toNat spaced && frameFollows s bits.toNat) = true →
      ∃ t, exec (.gtbFrame bits spaced) s = .next t ∧ t.gtb.frame = bits ∧ t.gtb.bad = 0 ∧
        t.gtb.good = s.gtb.good + 1 ∧ t.gtb.prev = some (fld bits.toNat 83 80, fld bits.toNat 79 28) ∧
        reg t 0x900028 = reg s 0x900028 ∧ t = { s with gtb := t.gtb, regs := t.regs }) ∧
    ((frameForm s bits.toNat spaced && frameFollows s bits.toNat) = false →
      ∃ t, exec (.gtbFrame bits spaced) s = .next t ∧ reg t 0x900028 = satAdd 32 (reg s 0x900028) 1)) ∧
  ((∀ (s : State) (incr : Nat) (ok : Bool) (u : Nat), regBit s 0x900000 0 = true → gtbRefOnly s = false →
    s.gtb.loadAt = some u → gtbState s ≠ 0 →
    s.gtb.now < ((u : Int) + signed 16 (regFld s 0x900014 15 0) * 80).toNat →
    ∃ t, exec (.gtbRefEdge incr ok) s = .next t ∧
      t.gtb.now = ((u : Int) + signed 16 (regFld s 0x900014 15 0) * 80).toNat ∧
      t.gtb.loaded = true ∧ t.gtb.loadAt = none ∧ regBit t 0x900004 5 = true ∧
      t = { s with gtb := t.gtb, regs := t.regs, clk := t.clk }) ∧
  (∀ (s : State) (incr : Nat) (ok : Bool), regBit s 0x900000 0 = true → gtbRefOnly s = true →
    ∃ t, exec (.gtbRefEdge incr ok) s = .next t ∧ gtbState t = 0 ∧ t.gtb.acq = false ∧
      (s.gtb.refAt = none → t.gtb.incr = max 1 incr)) ∧
  (∀ s : State, s.gtb.acq = true → s.gtb.loaded = true → 16 ≤ s.gtb.okEdges →
    ∃ t, exec .gtbLocked s = .next t ∧ gtbState t = 0 ∧ t.gtb = { s.gtb with acq := false } ∧
      t = { s with gtb := t.gtb, regs := t.regs } ∧ (∀ o, o ≠ 0x900004 → reg t o = reg s o)) ∧
  (∀ (s : State) (w : Word), setupDone s = true → exec (.gtbCtlEnable w) s = .next s) ∧
  (∀ (s : State) (w : Word), setupDone s = false → bitAt w.toNat 0 = true → regBit s 0x900000 0 = false →
    ∃ t, exec (.gtbCtlEnable w) s = .next t ∧ reg t 0x900000 = w.toNat % 4 ∧ t.gtb.acq = true ∧
      t.gtb.loaded = false ∧ t.gtb.prev = none ∧ t = { s with gtb := t.gtb, regs := t.regs }))

/-! ### Host rings, doorbells and interrupts -/

/-- A ring doorbell: host memory written before it is visible, the value becomes the producer count if the ring can
hold it, and a doorbell of a ring that is not enabled is refused with DB_BAD. The consumer doorbells of the
completion and event rings: a count within what the ring holds is taken; a doorbell of a disabled context without
work is refused; a lost events entry is written when a slot is free. MASK, the pending cause behind it, the holdoff
and the bad accesses of a doorbell page. -/
def Obligations.Doorbells : Prop :=
  ((∀ (s : State) (c : Fin 64) (r : Fin 4) (v : Word), ctxEnabled s c = true → ringEn s c r = true →
    cdiff v.toNat (ringOf s c r).dbLast ≤ sqSize s c r → cdiff v.toNat (ringOf s c r).head ≤ sqSize s c r →
    exec (.sqnDb c r v []) s = .next (setRing s c r { ringOf s c r with dbLast := v.toNat })) ∧
  (∀ (s : State) (c : Fin 64) (r : Fin 4) (v : Word) (a : Nat) (b : BitVec 8), Memory.wf s.host = true →
    ∃ t, exec (.sqnDb c r v [(a, b)]) s = .next t ∧
      (ctxEnabled s c = true → ringEn s c r = true →
        cdiff v.toNat (ringOf s c r).dbLast ≤ sqSize s c r → cdiff v.toNat (ringOf s c r).head ≤ sqSize s c r →
        mread t.host (hostKey s c a) = b ∧ (ringOf t c r).dbLast = v.toNat ∧
        ∀ k, k ≠ hostKey s c a → mread t.host k = mread s.host k)) ∧
  (∀ (s : State) (c : Fin 64) (r : Fin 4) (v : Word), (ctxEnabled s c && ringEn s c r) = false →
    ∃ t, exec (.sqnDb c r v []) s = .next t ∧ regBit t (sqBase c r + 0x14) 1 = true ∧
      t = { s with regs := t.regs } ∧ ∀ o, o ≠ sqBase c r + 0x14 → reg t o = reg s o)) ∧
  ((∀ (s : State) (c : Fin 64) (v : Word), (ctxEnabled s c = true ∨ ctxIdle s c = false) →
    cdiff v.toNat (hctx s c).cqCons ≤ cdiff (hctx s c).cqProd (hctx s c).cqCons →
    ∃ t, exec (.cqDb c v) s = .next t ∧ (hctx t c).cqCons = v.toNat ∧ (hctx t c).cqProd = (hctx s c).cqProd ∧
      t = { s with hif := t.hif } ∧ (∀ d, d ≠ c.val → hctx t d = hctx s d)) ∧
  (∀ (s : State) (c : Fin 64) (v : Word), ctxEnabled s c = false → ctxIdle s c = true →
    exec (.cqDb c v) s = .next (setRegBit s (hifBase c + 4) 1 true) ∧
    exec (.eqDb c v) s = .next (setRegBit s (hifBase c + 4) 5 true)) ∧
  (∀ (s : State) (c : Fin 64) (v : Word), (ctxEnabled s c = true ∨ ctxIdle s c = false) →
    cdiff v.toNat (hctx s c).eqCons ≤ cdiff (hctx s c).eqProd (hctx s c).eqCons → (hctx s c).evSince = 0 →
    ∃ t, exec (.eqDb c v) s = .next t ∧ (hctx t c).eqCons = v.toNat ∧ t = { s with hif := t.hif })) ∧
  ((∀ (s : State) (c : Fin 64), ∃ t, exec (.irqRearmSet c) s = .next t ∧ regBit t (hifBase c + 0x44) 31 = true ∧
    t = { s with regs := t.regs } ∧ ∀ o, o ≠ hifBase c + 0x44 → reg t o = reg s o) ∧
  (∀ (s : State) (c : Fin 64), (hctx s c).irqPending = true → (hctx s c).lastMsg = none →
    ∃ t m, exec (.irqRearmClear c) s = .next t ∧ regBit t (hifBase c + 0x44) 31 = false ∧
      t.hif.msgs = s.hif.msgs ++ [m] ∧ m.ctx = c.val ∧ m.data = reg s (hifBase c + 0x40) ∧
      (hctx t c).irqPending = false) ∧
  (∀ (s : State) (c : Fin 64), (hctx s c).irqPending = false →
    ∃ t, exec (.irqRearmClear c) s = .next t ∧ regBit t (hifBase c + 0x44) 31 = false ∧ t.hif = s.hif) ∧
  (∀ (s : State) (c : Fin 64), ∃ t, exec (.doorbellBadAccess c) s = .next t ∧ t.hif = { s.hif with rdata := 0 } ∧
    regBit t (hifBase c + 4) 6 = true ∧ t = { s with hif := t.hif, regs := t.regs }) ∧
  (∀ (s : State) (c : Fin 64) (u : Nat), (hctx s c).lastMsg = some u → u + holdoff s c ≤ s.gtb.now →
    (hctx s c).irqPending = true → regBit s (hifBase c + 0x44) 31 = false →
    exec (.holdoffEnd c) s = .next (sendMsg (countLate s (inJump s (u + holdoff s c))) c)))

/-- A finished command's entry is written to its completion ring, and NOP completes with operand bytes 4 to 11 as its
RESULT. -/
def Obligations.CompletionPath : Prop :=
  (∀ (s : State) (e : Cpl) (rest : List HifEntry), s.hif.cplQ = .cpl e :: rest → cqFree s e.ctx = true →
    exec .completionEntryWrite s = .next (writeCpl { s with hif := { s.hif with cplQ := rest } } e) ∧
    (hctx (writeCpl { s with hif := { s.hif with cplQ := rest } } e) e.ctx).cqProd =
      cadd (hctx s e.ctx).cqProd 1) ∧
  (∀ (s : State) (e : EvEntry) (rest : List HifEntry), s.hif.cplQ = .event e :: rest →
    exec .completionEntryWrite s = .next (writeEvent { s with hif := { s.hif with cplQ := rest } } e)) ∧
  (∀ (s : State) (m : Cmd) (rest : List Cmd), s.hif.unitQ = m :: rest → m.opcode = 0 → s.saf.safe = false →
    bitAt m.flags 1 = false →
    ∃ t e, exec .nop s = .next t ∧ t.hif.unitQ = rest ∧ t.hif.cplQ = s.hif.cplQ ++ [.cpl e] ∧ e.ctx = m.ctx ∧
      e.ring = m.ring ∧ e.seq = m.seq ∧ e.status = 0 ∧ e.detail = 0 ∧ e.result = leAt m.bytes 4 8 ∧
      e.stamp = cellarStamp s ∧ t = { s with hif := t.hif, regs := t.regs } ∧
      (s.hif.cplQ.length < 32 → t.regs = s.regs))

/-- Descriptors are fetched for the ring whose turn it is, enter the fetch queue when their read returns, are passed to
their unit, and a read error stops the ring. Writes of the context and ring configuration, the reset of a ring's
counts, and the fetch enable. -/
def Obligations.RingsAndDescriptors : Prop :=
  ((∀ (s : State) (c r : Nat), fetchChoice s = some (c, r) →
    ∃ t, exec .descriptorFetch s = .next t ∧
      (ringOf t c r).fetch = cadd (ringOf s c r).fetch (fetchCount s c r) ∧
      t.hif.outs.length = s.hif.outs.length + (if lostOf s c r = [] then fetchCount s c r else 0) ∧
      t.hif.rrCtx = c ∧
      t = { s with hif := t.hif }) ∧
  (∀ s : State, passable (arrive s) [] (arrive s).hif.fetchQ = none →
    exec .descriptorReceived s = .next (arrive s)) ∧
  (∀ (s : State) (f : Fetch) (m : Cmd), s.hif.flight = [f] → f.n = 1 → s.hif.fetchQ = [] →
    m = { ctx := f.ctx, ring := f.ring, seq := cadd f.seq 0,
          bytes := hostRead s f.ctx (f.base + cadd f.seq 0 % f.size * 64) 64
          uid := f.uids.getD 0 0 } →
    mayPass (arrive s) m = true →
    exec .descriptorReceived s =
      .next (passDescriptor { arrive s with hif := { (arrive s).hif with fetchQ := [] } } m)) ∧
  (∀ (s : State) (f : Fetch) (rest : List Fetch), s.hif.flight = f :: rest →
    ∃ t, exec .ringFetchError s = .next t ∧ (ringOf t f.ctx f.ring).stopped = true ∧
      regBit t (sqBase f.ctx f.ring + 0x14) 2 = true)) ∧
  ((∀ (s : State) (c : Fin 64) (w : Word), bitAt w.toNat 31 = true → ctxConfigOk s c = false →
    ∃ t, exec (.hifCtxEnable c w) s = .next t ∧ regBit t (hifBase c + 4) 4 = true ∧
    reg t (hifBase c) = reg s (hifBase c)) ∧
  (∀ (s : State) (c : Fin 64) (w : Word), bitAt w.toNat 31 = true → ctxConfigOk s c = true →
    ctxEnabled s c = false → ctxIdle s c = true →
    ∃ t, exec (.hifCtxEnable c w) s = .next t ∧ ctxEnabled t c = true ∧ (hctx t c).cqProd = 0 ∧
      (hctx t c).cqCons = 0 ∧ (hctx t c).eqProd = 0 ∧ (hctx t c).eqCons = 0 ∧ (hctx t c).evSince = 0 ∧
      ((hctx s c).evSince ≠ 0 → ∃ e, t.hif.cplQ = s.hif.cplQ ++ [.event e] ∧ e.ctx = c.val ∧ e.type = 0x0005 ∧
        e.payload = (hctx s c).evSince) ∧
      (setupDone s = true → ctxPriv t c = ctxPriv s c)) ∧
  (∀ (s : State) (c : Fin 64) (r : Fin 4) (w : Word), ringEn s c r = true → bitAt w.toNat 31 = false →
    ∃ t, exec (.ringEn c r w) s = .next t ∧ ringEn t c r = false) ∧
  (∀ (s : State) (c : Fin 64) (r : Fin 4) (w : Word), ringEn s c r = false → bitAt w.toNat 31 = true →
    bitAt w.toNat 30 = false → 6 ≤ fld w.toNat 4 0 → fld w.toNat 4 0 ≤ 16 → sqAddr s c r ≠ 0 →
    ctxEnabled s c = true → (ringOf s c r).resetWait = false →
    ∃ t, exec (.ringEn c r w) s = .next t ∧ ringEn t c r = true ∧ (ringOf t c r).stopped = false ∧
      sqSize t c r = 2 ^ fld w.toNat 4 0) ∧
  (∀ (s : State) (c : Fin 64) (r : Fin 4) (w : Word), ringEn s c r = false → bitAt w.toNat 31 = false →
    ∃ t, exec (.resetCounts c r w) s = .next t ∧ (ringOf t c r).resetWait = true) ∧
  (∀ (s : State) (c : Fin 64) (r : Fin 4), (ringOf s c r).resetWait = true →
    (ringOf s c r).fetch = (ringOf s c r).head →
    lostOf s c r = [] → ∃ t, exec (.resetCountsEffect c r) s = .next t ∧ (ringOf t c r).head = 0 ∧
    (ringOf t c r).fetch = 0 ∧
      (ringOf t c r).dbLast = 0 ∧ (ringOf t c r).resetWait = false ∧
      ((ringOf s c r).enWait = true → ringEn t c r = true)) ∧
  (∀ (s : State) (b : Bool), ∃ t, exec (.fetchEn b) s = .next t ∧ regBit t 0x100000 0 = b ∧
    t = { s with regs := t.regs } ∧ ∀ o, o ≠ 0x100000 → reg t o = reg s o))

/-! ### What the statements below say a command's completion is -/

/-- The state in which the units' queue holds `rest`. -/
def queueIs (s : State) (rest : List Cmd) : State := { s with hif := { s.hif with unitQ := rest } }

/-- Command `m`, with opcode `op`, is first among those that their units have accepted. -/
def isNext (s : State) (m : Cmd) (rest : List Cmd) (op : Nat) : Prop :=
  s.hif.unitQ = m :: rest ∧ m.opcode = op

/-- Command `m`, with opcode `op`, has passed the checks of the authenticator and waits for its unit, which has no
earlier command of its ring still to take (R143). -/
def isPassed (s : State) (m : Cmd) (op : Nat) : Prop :=
  (∃ rest, s.cau.inQ = m :: rest) ∧ s.cau.passed = true ∧ m.opcode = op ∧
  ∀ k ∈ s.hif.unitQ, ¬ (k.ctx = m.ctx ∧ k.ring = m.ring ∧ k.opcode / 256 = op / 256)

/-- One completion entry of `m` is added to those that wait to be written, with this status, DETAIL and RESULT. -/
def answered (s t : State) (m : Cmd) (status detail result : Nat) : Prop :=
  ∃ e : Cpl, t.hif.cplQ = s.hif.cplQ ++ [.cpl e] ∧ e.ctx = m.ctx ∧ e.ring = m.ring ∧ e.seq = m.seq ∧
    e.opcode = m.opcode ∧ e.status = status ∧ e.detail = detail ∧ e.result = result

/-- What deciding a completion does: outside the safe state, an entry unless QUIET is set and the status is OK, and
nothing outside the host interface changes but LAST_STATUS for a GRAPH_LOAD, and the marks of a full queue of entries
(R160). -/
def Obligations.CompletionDecided : Prop :=
  ∀ (s : State) (m : Cmd) (status detail result reruns : Nat), s.saf.safe = false →
    (bitAt m.flags 1 = false ∨ status ≠ 0 →
      answered s (complete s m status detail result reruns) m status detail result) ∧
    (bitAt m.flags 1 = true → status = 0 →
      (complete s m status detail result reruns).hif.cplQ = s.hif.cplQ ∧
      (complete s m status detail result reruns).hif.outs =
        s.hif.outs.filter fun o => !o.of m.ctx m.ring m.seq m.uid) ∧
    complete s m status detail result reruns =
      { s with hif := (complete s m status detail result reruns).hif
               regs := (complete s m status detail result reruns).regs } ∧
    (m.opcode = 0x0100 → regFld (complete s m status detail result reruns) 0x200000 15 8 = status % 256) ∧
    (m.opcode ≠ 0x0100 → s.hif.cplQ.length < 32 →
      (complete s m status detail result reruns).regs = s.regs)

/-! ### Critical commands -/

/-- The authenticator checks the next critical command: KAT_FAIL refuses every one with reason 7; an empty, a locked,
a foreign or an unauthorised slot is refused with its reason; a counter that does not rise is STALE; and a command
that passes waits for its unit with nothing else changed. -/
def Obligations.CriticalCheck : Prop :=
  (∀ (s : State) (m : Cmd) (q : List Cmd), s.cau.inQ = m :: q → s.cau.passed = false →
    s.saf.safe = false → regBit s 0x180004 1 = true →
    ∃ t, exec .cauCheck s = .next t ∧ answered s t m 3 (keySlot m * 256 + 7) 0 ∧ t.cau.inQ = q ∧
      t.cau.slots = s.cau.slots ∧ (ringOf t m.ctx m.ring).head = cadd (ringOf s m.ctx m.ring).head 1) ∧
  (∀ (s : State) (m : Cmd) (q : List Cmd), s.cau.inQ = m :: q → s.cau.passed = false →
    s.saf.safe = false → regBit s 0x180004 1 = false → isEnrolment s m = false →
    ((slotOf s (keySlot m)).state = 2 →
      ∃ t, exec .cauCheck s = .next t ∧ answered s t m 3 (keySlot m * 256 + 5) 0 ∧ t.cau.inQ = q) ∧
    ((slotOf s (keySlot m)).state = 0 →
      ∃ t, exec .cauCheck s = .next t ∧ answered s t m 3 (keySlot m * 256 + 1) 0 ∧ t.cau.inQ = q) ∧
    ((slotOf s (keySlot m)).state = 1 → (slotOf s (keySlot m)).owner ≠ m.ctx →
      ∃ t, exec .cauCheck s = .next t ∧ answered s t m 3 (keySlot m * 256 + 2) 0 ∧ t.cau.inQ = q) ∧
    ((slotOf s (keySlot m)).state = 1 → (slotOf s (keySlot m)).owner = m.ctx → classGranted s m = false →
      ∃ t, exec .cauCheck s = .next t ∧ answered s t m 3 (keySlot m * 256 + 3) 0 ∧ t.cau.inQ = q)) ∧
  (∀ (s : State) (m : Cmd) (q : List Cmd) (key : List Byte), s.cau.inQ = m :: q → s.cau.passed = false →
    authCheck s m = .pass key →
    ∃ t, exec .cauCheck s = .next t ∧ t.cau.inQ = m :: q ∧ t.cau.passed = true ∧ t.cau.newKey = key ∧
      t.cau.enrol = isEnrolment s m ∧ t.cau.slots = s.cau.slots ∧ t = { s with cau := t.cau }) ∧
  (∀ (s : State) (m : Cmd) (q : List Cmd) (d : Nat), s.cau.inQ = m :: q → s.cau.passed = false →
    s.saf.safe = false → authCheck s m = .stale d →
    ∃ t, exec .cauCheck s = .next t ∧ answered s t m 4 d 0 ∧ t.cau.inQ = q ∧ t.cau.slots = s.cau.slots ∧
      regBit t 0x180004 3 = true)

/-- KEY_LOAD writes its target slot LOADED with the unwrapped key, owner, classes and counter, and KEY_RETIRE leaves
its target EMPTY; the slot that authorised the command takes the command's counter first. -/
def Obligations.KeyCommands : Prop :=
  (∀ (s : State) (m : Cmd), isPassed s m 0x0700 → s.cau.enrol = false → keyLoadFault s m = none →
    exec .keyLoad s = .next (completeOk (setSlot (acceptCritical s m) (m.at 4 1)
      { key := s.cau.newKey, owner := m.at 5 1, classes := m.at 6 1, ctr := m.at 8 8, fails := 0, state := 1,
        accepts := (slotOf (acceptCritical s m) (m.at 4 1)).accepts }) m 0) ∧
    (slotOf (acceptCritical s m) (keySlot m)).ctr = m.at 48 8 ∧
    (slotOf (acceptCritical s m) (keySlot m)).fails = 0 ∧
    ∀ k, k ≠ keySlot m → slotOf (acceptCritical s m) k = slotOf s k) ∧
  (∀ (s : State) (m : Cmd) (d : Nat), isPassed s m 0x0700 → keyLoadFault s m = some d →
    s.saf.safe = false →
    ∃ t, exec .keyLoad s = .next t ∧ answered s t m 0x10 d 0 ∧ t.cau.slots = s.cau.slots ∧
      t.cau.inQ = s.cau.inQ.tail) ∧
  (∀ (s : State) (m : Cmd), isPassed s m 0x0701 → s.cau.enrol = false → keyRetireFault m = none →
    ∃ t, exec .keyRetire s = .next t ∧ (slotOf t (m.at 4 1)).state = 0 ∧ (slotOf t (m.at 4 1)).key = [] ∧
      t.cau.inQ = s.cau.inQ.tail ∧
      ∀ k, k ≠ m.at 4 1 → k ≠ keySlot m → slotOf t k = slotOf s k)

/-! ### Graphs -/

/-- An accepted GRAPH_LOAD reserves a record and the blocks for the image; with the header's read in error it is
refused with reason 9, and with an operand byte wrong with that byte. A load whose image passes every check
installs, and one whose read fails at a byte ends with that byte and leaves no record. Items of the stream that
were lost are counted and flagged, and the load ends as it would without. -/
def Obligations.GraphLoads : Prop :=
  (∀ (s : State) (m : Cmd) (b : Bool) (h : List Byte), isPassed s m 0x0100 → s.tge.loads.length < 4 →
    loadOperands m = none → findImg s m.ctx (m.at 4 1) = none →
    readSrc s m.ctx (bitAt (m.at 5 1) 0) (m.at 8 8) 256 = some h → headerFault h (m.at 16 4) = none →
    capacityFault s h = none →
    exec (.graphLoad false) s = .next (acceptCritical (reserveLoad s m h) m) ∧
    (reserveLoad s m h).tge.loads = s.tge.loads ++ [freeKey s.tge.imgs] ∧
    (∃ x, imgOf (reserveLoad s m h) (freeKey s.tge.imgs) = some x ∧ x.ctx = m.ctx ∧ x.id = m.at 4 1 ∧
      x.state = 0 ∧ x.tasks = ihTasks h ∧ x.edges = ihEdges h) ∧
    (b = true → s.saf.safe = false →
      ∃ t, exec (.graphLoad b) s = .next t ∧ answered s t m 0x13 (9 * 2 ^ 28) 0 ∧ t.tge = s.tge)) ∧
  (∀ (s : State) (m : Cmd) (b : Bool) (i : Nat), isPassed s m 0x0100 → s.tge.loads.length < 4 →
    loadOperands m = some i → s.saf.safe = false →
    ∃ t, exec (.graphLoad b) s = .next t ∧ answered s t m 0x10 i 0 ∧ t.tge = s.tge) ∧
  (∀ (s : State) (i : Nat) (l : List Nat) (img : Img) (m : Cmd) (b : List Byte),
    s.tge.loads = i :: l → imgOf s i = some img → img.cmd = some m → bodyFault s m none = none →
    readSrc s m.ctx (bitAt (m.at 5 1) 0) (m.at 8 8) (m.at 16 4) = some b →
    contentFault s b ((m.bytes.drop 24).take 24) = none →
    exec (.graphLoadInstall none 0) s = .next (installLoad s i img m b)) ∧
  (∀ (s : State) (i : Nat) (l : List Nat) (img : Img) (m : Cmd) (o : Nat), s.tge.loads = i :: l →
    imgOf s i = some img → img.cmd = some m → img.pending = none → bodyFault s m (some o) = some o →
    s.saf.safe = false →
    ∃ t, exec (.graphLoadInstall (some o) 0) s = .next t ∧ imgOf t i = none ∧ t.tge.loads = l ∧
      answered s t m 0x13 (9 * 2 ^ 28 + o % 2 ^ 28) 0) ∧
  (∀ (s : State) (err : Option Nat) (lost i : Nat) (l : List Nat) (img : Img) (m : Cmd), s.tge.loads = i :: l →
    imgOf s i = some img → img.cmd = some m →
    exec (.graphLoadInstall err lost) s = exec (.graphLoadInstall err 0) (streamLoss s 0x200010 lost 0x200000 2))

/-- An accepted launch stamps its vintage and begins, or is held behind the running step; a launch that its vintage
rules out is STALE. An abort asks for the teardown of the running step and waits for its end; with no step running
it completes at once. An unload of an idle image starts the zeroing of its blocks, and the record goes when that is
done. -/
def Obligations.GraphCommands : Prop :=
  (∀ (s : State) (m : Cmd) (rest : List Cmd) (i : Nat) (img : Img), isNext s m rest 0x0101 → m.at 4 1 < 16 →
    m.at 5 1 = 0 → firstNonzero m.bytes 6 2 = none → firstNonzero m.bytes 24 24 = none →
    findImg s m.ctx (m.at 4 1 % 16) = some (i, img) → img.state = 1 → vintageOk false (m.at 8 8) img.last = true →
    img.pending = none → servingOf s m.ctx = none → stepOf s i = none →
    ∃ t st, exec .graphLaunch s = .next t ∧ stepOf t i = some st ∧ st.phase = 0 ∧ st.launch.cmd = m ∧
      st.launch.vint = vintageOf (m.at 8 8) img.last ∧ st.launch.seed = m.at 16 8 ∧
      imgOf t i = some { img with last := vintageOf (m.at 8 8) img.last,
                                  vint := vintageOf (m.at 8 8) img.last, done := 0 } ∧
      t.hif.unitQ = rest ∧ t.hif.cplQ = s.hif.cplQ ∧ t = { s with hif := t.hif, tge := t.tge }) ∧
  (∀ (s : State) (m : Cmd) (rest : List Cmd) (i : Nat) (img : Img) (st : Step), isNext s m rest 0x0101 →
    m.at 4 1 < 16 → m.at 5 1 = 0 → firstNonzero m.bytes 6 2 = none → firstNonzero m.bytes 24 24 = none →
    findImg s m.ctx (m.at 4 1 % 16) = some (i, img) → img.state = 1 → vintageOk false (m.at 8 8) img.last = true →
    img.pending = none → servingOf s m.ctx = none → stepOf s i = some st →
    ∃ t l, exec .graphLaunch s = .next t ∧ stepOf t i = some st ∧
      imgOf t i = some { img with last := vintageOf (m.at 8 8) img.last, pending := some l } ∧ l.cmd = m) ∧
  (∀ (s : State) (m : Cmd) (rest : List Cmd) (i : Nat) (img : Img), isNext s m rest 0x0101 → m.at 4 1 < 16 →
    m.at 5 1 = 0 → firstNonzero m.bytes 6 2 = none → firstNonzero m.bytes 24 24 = none →
    findImg s m.ctx (m.at 4 1 % 16) = some (i, img) → img.state = 1 → vintageOk false (m.at 8 8) img.last = false →
    s.saf.safe = false →
    ∃ t, exec .graphLaunch s = .next t ∧ answered s t m 0x15 (img.last % 2 ^ 32) 0 ∧ t.tge = s.tge) ∧
  (∀ (s : State) (m : Cmd) (rest : List Cmd) (i : Nat) (img : Img) (st : Step), isNext s m rest 0x0102 →
    m.at 4 1 < 16 → m.at 5 1 = 0 → firstNonzero m.bytes 6 42 = none →
    findImg s m.ctx (m.at 4 1 % 16) = some (i, img) → img.state = 1 → stepOf s i = some st →
    exec .graphAbort s = .next (settle (ask
      (setStep (queueIs s rest) i { st with aborts := st.aborts ++ [m] }) (.teardown i 8 0 8)))) ∧
  (∀ (s : State) (m : Cmd) (rest : List Cmd) (i : Nat) (img : Img), isNext s m rest 0x0102 →
    m.at 4 1 < 16 → m.at 5 1 = 0 → firstNonzero m.bytes 6 42 = none →
    findImg s m.ctx (m.at 4 1 % 16) = some (i, img) → img.state = 1 → stepOf s i = none →
    exec .graphAbort s = .next (completeOk (queueIs s rest) m 0)) ∧
  (∀ (s : State) (m : Cmd) (rest : List Cmd) (i : Nat) (img : Img), isNext s m rest 0x0103 → m.at 4 1 < 16 →
    firstNonzero m.bytes 5 43 = none → findImg s m.ctx (m.at 4 1 % 16) = some (i, img) → img.state = 1 →
    stepOf s i = none → img.pending = none → servingOf s m.ctx = none →
    exec .graphUnload s = .next (releaseArm
      (setImg (queueIs s rest) i { img with
        state := 2, cmd := some m
        zeroBy := s.gtb.cclk + max (512 * img.eblk.length) (64 * img.tblk.length) }) i)) ∧
  (∀ (s : State) (i : Nat) (img : Img) (m : Cmd), s.tge.imgs = [(i, img)] → img.state = 2 → img.cmd = some m →
    s.saf.safe = false → bitAt m.flags 1 = false →
    ∃ t, exec .unloadZeroingDone s = .next t ∧ imgOf t i = none ∧ answered s t m 0 0 1 ∧ img.zeroBy ≤ t.gtb.cclk)

/-! ### Steps -/

/-- A launch that finds its model, its parcel and its task-waiter entries reserves the entries and asks for the objects
that its tasks wait on; once they are there the step starts its sweep and notes each image's active buffer; the
sweep visits its rows at their CCLKs and sets a task's counter to its count of incoming edges; and a step that has
been torn down ends once nothing of it is left. -/
def Obligations.StepSweep : Prop :=
  (∀ (s : State) (i : Nat) (st : Step) (img : Img), s.tge.steps = [(i, st)] → st.phase = 0 → imgOf s i = some img →
    modelHere s img.ctx = true → parcelFault s st img = false →
    reservedWaiters s + (waitTasks s img).length ≤ 32768 →
    ∃ t, exec .launchBegin s = .next t ∧ stepOf t i = some { st with phase := 4 } ∧
      tget 0 t.syn.reserved i = (waitTasks s img).length ∧ imgOf t i = some img) ∧
  (∀ (s : State) (i : Nat) (st : Step) (img : Img), s.tge.steps = [(i, st)] → st.phase = 4 → imgOf s i = some img →
    (∀ q ∈ s.syn.mats, ¬(q.src = 2 ∧ q.img = i)) → digArea s img.ctx = 0 →
    regBit s (rdyCtx img.ctx) 31 = false → s.blq.qs = [] →
    ∃ t st', exec .stepStart s = .next t ∧ stepOf t i = some st' ∧ st'.phase = 1 ∧ st'.row = 0 ∧
      st'.start = s.gtb.now ∧ st'.startCclk = s.gtb.cclk ∧ st'.launch = st.launch ∧ st'.noDigest = true ∧
      st'.gens = (List.range 16).map fun k => (k, (rimgOf s img.ctx k).active)) ∧
  (∀ s : State, nextSweep s = none → exec .sweepRow s = .next s) ∧
  (∀ (s : State) (n : Nat), nextSweep s = some n →
    exec .sweepRow s = .next (settle ((s.tge.steps.map fun e => e.1).foldl sweepStep (advanceCclk n s))) ∧
    n ≤ (advanceCclk n s).gtb.cclk ∧
    ∀ (i : Nat) (st : Step) (img : Img), stepOf s i = some st → imgOf s i = some img →
      (st.phase ≠ 1 ∨ s.gtb.cclk < st.startCclk + st.row) → sweepStep s i = s) ∧
  (∀ (s : State) (i : Nat) (img : Img) (r : Nat),
    (tdWaitValid (descOf s (physTask img r)) = false) → tdInCount (descOf s (physTask img r)) ≠ 0 →
    cntA (sweepTask i img s r) (physTask img r) =
      counterWord false (tdInCount (descOf s (physTask img r))) (tdInCount (descOf s (physTask img r))) ∧
    isDone (sweepTask i img s r) (physTask img r) = false) ∧
  (∀ (s : State) (i : Nat) (st : Step) (img : Img), s.tge.steps = [(i, st)] → tornDown s i st = true →
    st.cause ≠ 9 → st.gateWrites = [] → imgOf s i = some img →
    exec .teardownEnd s = .next (endStep (dropDecs s img) i st img))

/-- Nothing is asked of a unit, no PSM command is in progress, and no run of a save or restore is ready: the end of a
command's cycle then changes nothing. -/
def calm (s : State) : Prop :=
  s.asks = [] ∧ s.psm.ops = [] ∧ ∀ r ∈ s.disp.ready, r.t1 = none

/-! ### Delays and gates -/

/-- A missing edge sets REF_LOSS and restarts the acquisition, and LOCKED becomes HOLDOVER; after GTB_HOLD_LIMIT
HOLDOVER becomes UNKNOWN with HOLD_EXPIRED. Time passes until a slew is absorbed; fields whose clock is not at full
rate load the time word, which never goes back; a read of GTB_NOW_LO captures the rest of the time. Time that
passes to an instant ends at the first CCLK edge not before it. -/
def Obligations.GroupTimeLostAndPassing : Prop :=
  ((∀ s : State, regBit s 0x900000 0 = true → gtbArmed s = true →
    ∃ t, exec .refLoss s = .next t ∧ regBit t 0x900004 4 = true ∧ t.gtb.acq = true ∧ t.gtb.needRef = true ∧
      regBit t 0x900004 6 = false ∧
      (gtbState s = 0 → regFld s 0x90000C 15 0 ≠ 0 → gtbState t = 1) ∧
      (gtbState s = 0 → regFld s 0x90000C 15 0 = 0 → gtbState t = 3 ∧ regBit t 0x900004 2 = true) ∧
      (gtbState s ≠ 0 → gtbState t = gtbState s)) ∧
  (∀ s : State, gtbState s = 1 →
    ∃ t, exec .holdExpired s = .next t ∧ gtbState t = 3 ∧ regBit t 0x900004 2 = true)) ∧
  ((∀ s : State, gtbSlewing s = true → 16 ≤ gtbBase s →
    ∃ t, exec .slewEnd s = .next t ∧ gtbSlewing t = false ∧ t.gtb.slewLeft = 0) ∧
  (∀ s : State, ∃ t, exec .gtbTimeWord s = .next t ∧ t.gtb = (elapse 8 s).gtb ∧
    (∀ f, (tget {} s.clk f).word ≤ (tget {} t.clk f).word) ∧
    ∀ f k, tget? s.clk f = some k → k.clk ≠ 0 → (tget {} t.clk f).word = max k.word (t.gtb.now - crossing)) ∧
  (∀ s : State, ∃ t, exec .gtbNowLoRead s = .next t ∧ t.hif = { s.hif with rdata := nowNs s % 2 ^ 32 } ∧
    reg t 0x90001C = nowNs s / 2 ^ 32 % 2 ^ 32 ∧ reg t 0x900020 = (gtbQ s * 64 + s.gtb.now % 5120 / 80) % 2 ^ 32 ∧
    t = { s with hif := t.hif, regs := t.regs })) ∧
  (∀ (s : State) (u : Nat), gtbSlewing s = false → 0 < gtbBase s → s.gtb.now < u →
    u ≤ (advanceTo u s).gtb.now ∧ (advanceTo u s).gtb.now < u + gtbBase s)

/-- A delayed task takes a timer entry, or with its instant past is released at once marked LATE; with no entry free
it waits; and an entry that is due is released. -/
def Obligations.DelayedTasks : Prop :=
  (∀ (s : State) (r : Ready) (d : Nat), (s.disp.ready.filter fun r => r.due.isSome) = [r] → r.due = some d →
    s.disp.timers.length < 8192 → s.gtb.now < d ∨ s.saf.safe = true →
    ∃ t, exec .tmrInsert s = .next t ∧
      t.disp.timers = s.disp.timers ++ [{ ctx := r.ctx, img := r.img, task := r.task, due := d, pred := r.pred }] ∧
      t.disp.ready = s.disp.ready.filter (fun q => !sameEntry q r) ∧ t.disp.runs = s.disp.runs ∧ t.tge = s.tge ∧
      reg t 0x380004 = max (reg s 0x380004) (s.disp.timers.length + 1)) ∧
  (∀ (s : State) (r : Ready) (d : Nat), (s.disp.ready.filter fun r => r.due.isSome) = [r] → r.due = some d →
    s.disp.timers.length < 8192 → d ≤ s.gtb.now → s.saf.safe = false →
    exec .tmrInsert s = .next (releaseDelayed (traceTimer
      { s with disp := { s.disp with ready := s.disp.ready.filter fun q => !sameEntry q r } }
      r.ctx r.task r.prio r.rank r.since false 5) r.img r.ctx r.task r.pred r.since true)) ∧
  (∀ (s : State) (r : Ready), (s.disp.ready.filter fun r => r.due.isSome) = [r] → 8192 ≤ s.disp.timers.length →
    (r.parked = false → exec .tmrInsert s = .next (setRegBit { s with disp := { s.disp with
      ready := modWhere (fun q => sameEntry q r) (fun q => { q with parked := true }) s.disp.ready } }
      0x380000 31 true)) ∧
    (r.parked = true → exec .tmrInsert s = .next s)) ∧
  (∀ (s : State) (e : Timer), s.disp.timers = [e] → s.saf.safe = false → e.due ≤ (advanceTo e.due s).gtb.now →
    exec .tmrRelease s = .next (releaseDelayed
      { advanceTo e.due s with disp := { (advanceTo e.due s).disp with timers := [] } }
      e.img e.ctx e.task e.pred (advanceTo e.due s).gtb.now (inJump (advanceTo e.due s) e.due))) ∧
  (∀ s : State, s.saf.safe = true → exec .tmrRelease s = .next s) ∧
  (∀ (s : State) (c : Fin 64) (w : Word), bitAt w.toNat 31 = false →
    exec (.imbEnWrite c w) s = .next (setReg s (rdyCtx c) (w.toNat &&& 0x8000FFFF))) ∧
  (∀ (s : State) (c : Fin 64) (w : Word), bitAt w.toNat 31 = true → regBit s (rdyCtx c) 31 = false →
    8 ≤ ((List.range 64).filter fun k => k != c.val && regBit s (rdyCtx k) 31).length →
    ∃ t, exec (.imbEnWrite c w) s = .next t ∧ regBit t (rdyCtx c) 31 = false ∧
      regFld t (rdyCtx c) 15 0 = w.toNat % 65536 ∧ regBit t (rdyCtx c + 4) 29 = true ∧
      t = { s with regs := t.regs })

/-- The oldest decrement of a bank lowers its task's counter by 1, in both copies; a counter that reaches 0 makes its
task ready; a decrement of a counter at 0 starts a recovery of its context. A gate whose inputs are met passes at
once where it checks nothing; a gate record that it must read and cannot fails it with reason 5 and tears its step
down; and a gate-record write that is not held up is followed by the commit of a pass. -/
def Obligations.DecrementsAndGates : Prop :=
  ((∀ (s : State) (bank : Fin 16) (e : Dec) (q : List Dec) (i : Nat) (img : Img) (st : Step),
    s.tge.decQ = e :: q → e.task % 16 = bank.val → imgOfTask s e.task = some (i, img) → stepOf s i = some st →
    st.phase = 2 →
    exec (.decrementApply bank) s = .next (settle (applyDec
      (if q.any (fun d => d.task % 16 == bank && d.burst.isSome && d.burst == e.burst) then
        addReg { s with tge := { s.tge with decQ := q } } 0x280014 1
       else { s with tge := { s.tge with decQ := q } }) i img.ctx e))) ∧
  (∀ (s : State) (i c : Nat) (e : Dec), cntA s e.task = cntB s e.task → 2 ≤ cwCount (cntA s e.task) →
    cntA (applyDec s i c e) e.task =
      counterWord (cwLive (cntA s e.task)) (cwInit (cntA s e.task)) (cwCount (cntA s e.task) - 1) ∧
    cntB (applyDec s i c e) e.task = cntA (applyDec s i c e) e.task) ∧
  (∀ (s : State) (i c : Nat) (e : Dec), cntA s e.task = cntB s e.task → cwCount (cntA s e.task) = 0 →
    (applyDec s i c e).asks = s.asks ++ [.diverge c] ∧ cntA (applyDec s i c e) e.task = cntA s e.task) ∧
  (∀ (s : State) (i c : Nat) (e : Dec), cntA s e.task ≠ cntB s e.task →
    applyDec s i c e = divergeCounter s c e.task)) ∧
  ((∀ (s : State) (i g : Nat) (st : Step) (img : Img) (a b : Bool), s.saf.safe = false →
    nextGate s = some (i, g, st, img) → gdNf (descOf s g) = false → gdSpike (descOf s g) = false →
    gdProv (descOf s g) = false →
    exec (.gateEvaluate a b) s = .next (commitTask (addCount
      { s with disp := { s.disp with gates := s.disp.gates.filter fun k => k != (i, g) } } 0x480008 1)
      i img.ctx g none)) ∧
  (∀ (s : State) (i g : Nat) (st : Step) (img : Img) (b : Bool), s.saf.safe = false →
    nextGate s = some (i, g, st, img) → gdNf (descOf s g) = true → gdSpike (descOf s g) = false →
    exec (.gateEvaluate true b) s = .next (settle (ask (returnVintage (setStep
      { s with disp := { s.disp with gates := s.disp.gates.filter fun k => k != (i, g) } } i
      { st with gateReason := 5, gateNf := st.nfLoad + st.nfStore, gateLoss := 0 }) i st.launch)
      (.teardown i 9 g 9)))) ∧
  (∀ (s : State) (i : Nat) (l : Launch) (img : Img), imgOf s i = some img → l.replay = false → img.pending = none →
    imgOf (returnVintage s i l) i = some { img with last := l.prev }) ∧
  (∀ s : State, s.saf.safe = true → ∀ a b, exec (.gateEvaluate a b) s = .next s) ∧
  (∀ (s : State) (i : Nat) (st : Step) (img : Img) (w : GateWrite) (rest : List GateWrite),
    s.tge.steps = [(i, st)] → st.gateWrites = w :: rest → imgOf s i = some img → w.issued = false → w.pass = true →
    writeBlocked (unitWritePlain s img.ctx w.va w.bytes) img.ctx w.va = false →
    exec (.gateRecordWrite false) s = .next (settle (commitTask (addCount
      (setStep (unitWritePlain s img.ctx w.va w.bytes) i { st with gateWrites := rest }) 0x480008 1)
      i img.ctx w.task none))) ∧
  (∀ (s : State) (i : Nat) (st : Step) (img : Img) (w : GateWrite) (rest : List GateWrite) (t : State),
    s.tge.steps = [(i, st)] → st.gateWrites = w :: rest → imgOf s i = some img → w.issued = false → w.pass = true →
    t = walkError (notePageFault s img.ctx 5 (w.va / 65536) 0 true st.launch.vint) img.ctx w.va →
    writeBlocked t img.ctx w.va = false →
    exec (.gateRecordWrite true) s = .next (settle (commitTask (addCount
      (setStep t i { st with gateWrites := rest }) 0x480008 1) i img.ctx w.task none))) ∧
  (∀ (s : State) (i : Nat) (st : Step) (img : Img) (w : GateWrite) (rest : List GateWrite) (b : Bool),
    s.tge.steps = [(i, st)] → st.gateWrites = w :: rest → imgOf s i = some img → w.issued = true →
    writeBlocked s img.ctx w.va = true →
    exec (.gateRecordWrite b) s = .next s))

/-! ### Selection, placement, ends and commits -/

/-- Of the contexts of a parcel with a placeable task of a kind, RDY serves one whose use divided by its weight is
least. A selected entry leaves its list and becomes a command in its field's DISPATCH queue, or with the queue full
the record is lost and counted; a start record is placed, a WITHDRAW record that comes too late is void; and a
field whose clock is stopped takes no record. -/
def Obligations.DispatchOrder : Prop :=
  (∀ (s : State) (p kind c : Nat), (∀ b, b < 64 → 0 < ctxWeight s b) → bestCtx s p kind = some c →
    parcelOf s c = p ∧ hasPlaceable s c kind = true ∧
    ∀ b, b < 64 → parcelOf s b = p → hasPlaceable s b kind = true →
      useOf s c kind * ctxWeight s b ≤ useOf s b kind * ctxWeight s c) ∧
  ((∀ (s : State) (r : Ready) (ch : Choice), (fieldOf s ch.field).dispQ.length < 16 →
    (sendDispatch s r ch).2 = true ∧
    runOf (sendDispatch s r ch).1 s.disp.nextRun = some (newRun s r ch) ∧
    (fieldOf (sendDispatch s r ch).1 ch.field).dispQ = (fieldOf s ch.field).dispQ ++ [.start s.disp.nextRun] ∧
    (sendDispatch s r ch).1.disp.ready = s.disp.ready.filter fun q => !sameEntry q r) ∧
  (∀ (s : State) (r : Ready) (ch : Choice), 16 ≤ (fieldOf s ch.field).dispQ.length →
    (sendDispatch s r ch).2 = false ∧
    (fieldOf (sendDispatch s r ch).1 ch.field).dispQ = (fieldOf s ch.field).dispQ ∧
    regBit (sendDispatch s r ch).1 (0x300100 + ch.field * 0x10 + 4) 30 = true) ∧
  (∀ s : State, (selectAll s).2 = [] → exec .dispatchSelect s = .next (settle (selectAll s).1)) ∧
  (∀ (s : State) (f : Fin 8) (id n e : Nat) (x : Run) (rest : List DispItem),
    (fieldOf s f).dispQ = .start id :: rest → runOf s id = some x → x.staged = false → x.mapped = none →
    placeOf s x = some (n, e) → fieldStopped s f = false →
    exec (.dispatchRecord f) s =
      .next (settle (placeRun (setField s f { fieldOf s f with dispQ := rest }) id x n e))) ∧
  (∀ (s : State) (f : Fin 8) (w : Withdrawal) (rest : List DispItem), (fieldOf s f).dispQ = .withdraw w :: rest →
    fieldStopped s f = false → runOf s w.run = none →
    exec (.withdraw f) s =
      .next (traceVoid (setRegBit (setField s f { fieldOf s f with dispQ := rest }) 0x400004 0 true) w.task)) ∧
  (∀ (s t : State) (f : Fin 8) (w : Withdrawal) (x : Run) (rest : List DispItem),
    (fieldOf s f).dispQ = .withdraw w :: rest → fieldStopped s f = false → runOf s w.run = some x →
    x.state = 1 → x.killed = none →
    withdrawTo (setField s f { fieldOf s f with dispQ := rest }) w.run x w = (t, none) →
    exec (.withdraw f) s = .next t) ∧
  (∀ (s : State) (f : Fin 8) (w : Withdrawal) (x : Run) (rest : List DispItem),
    (fieldOf s f).dispQ = .withdraw w :: rest → fieldStopped s f = false → runOf s w.run = some x →
    x.state ≠ 1 ∨ x.killed.isSome = true →
    exec (.withdraw f) s =
      .next (traceVoid (setRegBit (setField s f { fieldOf s f with dispQ := rest }) 0x400004 0 true) x)) ∧
  (∀ (s : State) (f : Fin 8), fieldStopped s f = true →
    exec (.dispatchRecord f) s = .next s ∧ exec (.withdraw f) s = .next s))

/-- Nothing that has passed its commit point is killed, and nothing is killed twice; a kill order raises KILL for a
command that runs; a command whose END does not come within 4,096 cc fails its core and reruns; and a command whose
watchdog comes first is killed. -/
def Obligations.KillsAndWatchdog : Prop :=
  (∀ (s : State) (id cause : Nat) (x : Run), runOf s id = some x → x.committed = true ∨ x.killed.isSome = true →
    killRun s id cause = s) ∧
  (∀ (s : State) (f : Fin 8) (id : Nat) (x : Run) (rest : List GrantItem), (fieldOf s f).grantQ = .kill id :: rest →
    runOf s id = some x → x.state = 3 → x.kind ≠ 3 → fieldStopped s f = false → x.counted = true → calm s →
    (∀ w, rest.head? ≠ some (.resp w)) →
    ∃ t, exec (.killOrder f) s = .next t ∧ runOf t id = some { x with killAt := some s.gtb.now } ∧
      (fieldOf t f).grantQ = rest ∧ t = { s with disp := t.disp }) ∧
  (∀ (s : State) (f : Fin 8) (id : Nat) (x : Run) (rest : List GrantItem), (fieldOf s f).grantQ = .kill id :: rest →
    runOf s id = some x → x.state = 3 → x.kind ≠ 3 → fieldStopped s f = false →
    ∃ t u, exec (.killOrder f) s = .next (settle t) ∧
      t = countLimit (modRun u id fun y => { y with killAt := some s.gtb.now }) id x (x.killed.getD 0) ∧
      u = deliverDown (setField s f { fieldOf s f with grantQ := rest }) f) ∧
  (∀ (s : State) (f : Fin 8), fieldStopped s f = true → exec (.killOrder f) s = .next s) ∧
  (∀ (s : State) (id u : Nat) (x : Run), oldestKill s = some (id, x, u) → x.kind ≠ 3 →
    exec .killTimeout s = .next (settle (finishKill (failCore (record (setRegBit
      (closeRun (advanceTo (u + 4096 * 2048) s) id (x.killed.getD 0) true) 0x400004 2 true)
      1 0x07 0x40 (some x.ctx) x.core x.task) x.core) id true))) ∧
  (∀ (s : State) (id : Nat) (x : Run), nextWdog s = some (id, x) → x.kind ≠ 3 →
    exec .watchdog s = .next (settle (killRun
      (record (advanceTo x.wdog (countLate s (inJump s x.wdog))) 1 0x08 0x42 (some x.ctx) x.core x.task) id 2)))

/-- An end of a running command and an effect request of it go up the vertical link; an effect that reaches its unit
is held, and what comes after the kill is discarded; a COMPLETE record frees the place and may pass the commit point.
-/
def Obligations.RunsEnd : Prop :=
  (∀ (s : State) (core : Fin 4096) (e : Fin 8) (slot : Fin 4) (code : Fin 16) (mem : List (Nat × BitVec 8))
    (lost : Bool) (id : Nat) (x : Run), slotRun s core slot = some (id, x) → x.engine = e.val →
    exec (.endValid core e slot code mem lost) s = .next (settle (endRun
      (mem.foldl (engineWrite x) (if lost then loseCharge s id else s)) id code))) ∧
  (∀ (s : State) (id : Nat) (x : Run), (fieldOf s x.field).cplQ.length < 32 →
    (fieldOf (sendComplete s id x) x.field).cplQ = (fieldOf s x.field).cplQ ++
      [{ run := id, count := x.sent, kind := x.kind, core := x.core, engine := x.engine, slot := x.slot }]) ∧
  (∀ (s : State) (core : Fin 4096) (slot : Fin 4) (d : BitVec 128) (id : Nat) (x : Run),
    slotRun s core slot = some (id, x) → runOf s id = some x → x.reqs + 1 < 65536 → calm s →
    1 ≤ fld d.toNat 127 124 → fld d.toNat 127 124 ≤ 5 →
    ∃ t, exec (.effValid core slot d) s = .next t ∧
      (fieldOf t x.field).effQ = (fieldOf s x.field).effQ ++
        [{ run := id, eff := { unit := fld d.toNat 127 124, op := fld d.toNat 123 120, data := d.toNat } }] ∧
      runOf t id = some { x with sent := x.sent + 1, reqs := x.reqs + 1 } ∧ t = { s with disp := t.disp }) ∧
  (∀ (s : State) (f : Fin 8) (full : Bool) (i : EffItem) (rest : List EffItem) (x : Run),
    (fieldOf s f).effQ = i :: rest → runOf s i.run = some x → x.killed = none →
    fullQueue s i.eff.unit full = none →
    ∃ t, t = setRun (setField s f { fieldOf s f with effQ := rest }) i.run { x with effects := x.effects ++ [i.eff] }
    ∧
      exec (.effectRecord f full) s = .next (
        if i.eff.unit = 1 then settle (registerSync t i.run x.effects.length x i.eff)
        else if i.eff.unit = 2 then registerSend t i.run x.effects.length
        else if i.eff.unit = 3 then registerContrib t i.run x.effects.length
        else registerEff t i.run x.effects.length)) ∧
  (∀ (s : State) (f : Fin 8) (full : Bool) (i : EffItem) (rest : List EffItem) (x : Run) (unit qctl : Nat)
    (ctxs : List Nat), (fieldOf s f).effQ = i :: rest → runOf s i.run = some x → x.killed = none →
    fullQueue s i.eff.unit full = some (unit, qctl, ctxs) →
    exec (.effectRecord f full) s =
      .next (settle (fullLoss (setField s f { fieldOf s f with effQ := rest }) unit qctl ctxs))) ∧
  (∀ (s : State) (f : Fin 8) (full : Bool) (i : EffItem) (rest : List EffItem) (x : Run),
    (fieldOf s f).effQ = i :: rest → runOf s i.run = some x → x.killed.isSome = true →
    exec (.effectRecord f full) s = .next (setField s f { fieldOf s f with effQ := rest })) ∧
  (∀ (s : State) (f : Fin 8) (i : CplItem) (rest : List CplItem) (x : Run), (fieldOf s f).cplQ = i :: rest →
    runOf s i.run = some x → x.killed = none → x.state = 4 →
    exec (.completeRecord f) s = .next (commitPoint (setRun (setField s f { fieldOf s f with cplQ := rest }) i.run
      { x with stated := some i.count, state := 5 }) i.run))

/-- A command passes its commit point once every effect that its COMPLETE record counts is registered, and its
commits are carried out in the order of their commit points within each context. -/
def Obligations.CommitsInOrder : Prop :=
  (∀ (s : State) (r : Nat) (x : Run), runOf s r = some x → x.stated = some x.registered → x.killed = none →
    x.committed = false → s.saf.safe = false → groupOf s x = 0 →
    (commitPoint s r).disp.readyQ = s.disp.readyQ ++ [.runs [r]] ∧
    runOf (commitPoint s r) r = some { x with committed := true }) ∧
  (∀ (s : State) (r : Nat) (x : Run), runOf s r = some x → x.stated ≠ some x.registered → commitPoint s r = s) ∧
  (∀ (s : State) (q : CommitItem), nextCommit s [] s.disp.readyQ = some q →
    ∃ before after, s.disp.readyQ = before ++ q :: after ∧ commitHeld s q = false ∧
      ∀ p ∈ before, commitCtx s p ≠ commitCtx s q) ∧
  (∀ (s : State) (lost : Fin 8) (ids : List Nat) (t : State), nextCommit s [] s.disp.readyQ = some (.runs ids) →
    t = commitLoss s lost (.runs ids) →
    exec (.commit lost) s = .next (settle (commitRuns
      { t with disp := { t.disp with readyQ := t.disp.readyQ.erase (.runs ids) } } ids))) ∧
  (∀ (s : State) (ids : List Nat), commitLoss s 0 (.runs ids) = s) ∧
  (∀ (s : State) (lost : Fin 8) (i u : Nat), nextCommit s [] s.disp.readyQ = some (.signal i u) →
    exec (.commit lost) s = .next (settle (commitSignal
      { s with disp := { s.disp with readyQ := s.disp.readyQ.erase (.signal i u) } } i u)))

/-! ### Synchronisation -/

/-- A host operation on a counter with no waiter: SIGNAL adds units within the limit and answers the new value,
DECREMENT takes them and answers the new value, and is refused and counted with too few (reason 11) and with a TAG
or SENSE (reason 3); SIGNAL_TO holds its units for their tag; WAIT with too few enters the queue. A waiter at the
head of a counter's global queue is granted when its units are there, and they are taken; with too few nothing is
granted, so no later waiter passes it. -/
def Obligations.HostSyncAndGrants : Prop :=
  ((∀ (s : State) (m : Cmd) (rest : List Cmd) (k : Nat) (o : SynObj) (op : Nat), isNext s m rest op →
    matWaiting s m.ctx (m.at 4 2) = false → findObj s m.ctx (m.at 4 2) = some k →
    tget? s.syn.objA k = some o → tget? s.syn.objB k = some o → frozenAt s k = none → o.barrier = false →
    o.gq = [] → o.dq = [] → 1 ≤ m.at 8 4 → s.saf.safe = false → bitAt m.flags 1 = false → calm s →
    (op = 0x0200 → m.at 8 4 ≤ 0x7FFFFFFF → m.at 12 2 = 0 → bitAt (m.at 14 1) 0 = false →
      o.value + o.dunits + m.at 8 4 ≤ o.limit →
      ∃ t, exec .syncSignal s = .next t ∧ tget? t.syn.objA k = some { o with value := o.value + m.at 8 4 } ∧
        tget? t.syn.objB k = some { o with value := o.value + m.at 8 4 } ∧
        answered s t m 0 0 (o.value + m.at 8 4) ∧ t.mem = s.mem ∧
        (s.hif.cplQ.length < 32 → t.regs = s.regs)) ∧
    (op = 0x0203 → m.at 8 4 ≤ 0x7FFFFFFF → m.at 12 2 = 0 → bitAt (m.at 14 1) 0 = false → m.at 8 4 ≤ o.value →
      ∃ t, exec .syncDecrement s = .next t ∧ tget? t.syn.objA k = some { o with value := o.value - m.at 8 4 } ∧
        answered s t m 0 0 (o.value - m.at 8 4) ∧ t.mem = s.mem ∧
        (s.hif.cplQ.length < 32 → t.regs = s.regs)) ∧
    (op = 0x0203 → m.at 8 4 ≤ 0x7FFFFFFF → m.at 12 2 = 0 → bitAt (m.at 14 1) 0 = false → o.value < m.at 8 4 →
      ∃ t, exec .syncDecrement s = .next t ∧ t.syn = s.syn ∧ answered s t m 0x0A 0xB 0 ∧
        reg t 0x500010 = satAdd 32 (reg s 0x500010) 1) ∧
    (op = 0x0203 → m.at 8 4 ≤ 0x7FFFFFFF → m.at 12 2 ≠ 0 ∨ bitAt (m.at 14 1) 0 = true →
      ∃ t, exec .syncDecrement s = .next t ∧ t.syn.objA = s.syn.objA ∧ answered s t m 0x18 3 0) ∧
    (op = 0x0201 → m.at 8 4 ≤ 65535 → bitAt (m.at 14 1) 0 = false → m.at 12 2 ≠ 0 → o.dunits = 0 →
      o.value + m.at 8 4 ≤ o.limit →
      ∃ t, exec .syncSignalTo s = .next t ∧
        tget? t.syn.objA k = some { o with dtag := m.at 12 2, dunits := m.at 8 4 } ∧ answered s t m 0 0 (m.at 8 4)) ∧
    (op = 0x0202 → m.at 8 4 ≤ 65535 → m.at 12 2 = 0 → bitAt (m.at 14 1) 0 = false → o.value < m.at 8 4 →
      ∃ t, exec .syncWait s = .next t ∧
        tget? t.syn.objA k = some { o with gq := [s.syn.nextWaiter] } ∧ t.hif.cplQ = s.hif.cplQ ∧
        ∃ w, waiterOf t s.syn.nextWaiter = some w ∧ w.units = m.at 8 4 ∧ w.cmd = some m ∧ w.granted = false))) ∧
  ((∀ (s : State) (k w : Nat) (rest : List Nat) (o : SynObj) (x : Waiter), objOf s k = some o → o.gq = w :: rest →
    waiterOf s w = some x → x.units ≤ o.value →
    grantOne s k = some (grantWaiter (setObj s k { o with gq := rest, value := o.value - x.units }) w x.units)) ∧
  (∀ (s : State) (k w : Nat) (rest : List Nat) (o : SynObj) (x : Waiter), objOf s k = some o → o.gq = w :: rest →
    waiterOf s w = some x → o.value < x.units → o.dq = [] → grantOne s k = none) ∧
  (∀ (s : State) (k w : Nat) (o : SynObj) (x : Waiter), objOf s k = some o → waiterOf s w = some x →
    x.units ≤ o.value → objLive s k = true → o.barrier = false → o.gq = [w] → o.dq = [] →
    objOf (grantCounter s k) k = some { o with value := o.value - x.units, gq := [] }))

/-- Arrivals at a barrier count up; the one that makes the participants complete ends the phase: with no waiter, VALUE
0, SENSE inverted and PHASE one higher. An arrival of the wrong SENSE, and one past the participants, are refused. -/
def Obligations.BarrierPhases : Prop :=
  (∀ (s : State) (k vint : Nat) (o : SynObj), objOf s k = some o → o.xchip = false →
    o.value + 1 < fld o.limit 15 0 →
    ∃ t, opArrive s k o o.sense vint = .ok (o.value + 1) t ∧ objOf t k = some { o with value := o.value + 1 }) ∧
  (∀ (s : State) (k vint : Nat) (o : SynObj), objOf s k = some o → o.xchip = false → o.realign = false →
    o.gq = [] → o.value + 1 = fld o.limit 15 0 →
    ∃ t, opArrive s k o o.sense vint = .ok 0 t ∧
      objOf t k = some { o with value := 0, sense := !o.sense, chipArrived := false, dtag := 0,
                                phase := (o.phase + 1) % 2 ^ 32 }) ∧
  (∀ (s : State) (k vint : Nat) (o : SynObj) (sense : Bool), sense ≠ o.sense →
    opArrive s k o sense vint = .refused 4) ∧
  (∀ (s : State) (k vint : Nat) (o : SynObj), fld o.limit 15 0 ≤ o.value →
    opArrive s k o o.sense vint = .refused 5)

/-- Waits and materialisations: a WAIT effect takes effect in its turn, and a second wait of a command that has one
outstanding is refused; an operation whose object the declaration makes goes on, and one for an object past the
table is refused; a wake-up reaches its command once the field's clock runs and its instant has come; and an
acknowledged grant frees its waiter entry. -/
def Obligations.WaitsAndObjects : Prop :=
  (∀ (s : State) (r n k : Nat) (rest : List (Nat × Nat)) (x : Run) (e : Eff), s.syn.newWaits = (r, n) :: rest →
    effAt s r n = some (x, e) → waitOut s r = false → matWaiting s x.ctx (synEff e.data).vid = false →
    findObj s x.ctx (synEff e.data).vid = some k →
    exec .syncWaitEffect s = .next (settle (waitOn { s with syn := { s.syn with newWaits := rest } } r n k))) ∧
  (∀ (s : State) (r n : Nat) (rest : List (Nat × Nat)) (x : Run) (e : Eff), s.syn.newWaits = (r, n) :: rest →
    effAt s r n = some (x, e) → waitOut s r = true →
    exec .syncWaitEffect s = .next (settle (refuseWait { s with syn := { s.syn with newWaits := rest } } r n 2))) ∧
  (∀ (s t : State) (q : MatReq) (k : Nat), s.syn.mats = [q] → tryMat true s q = .made k t →
    exec (.objectMaterialise true) s =
      .next (settle (applyMat { t with syn := { t.syn with mats := t.syn.mats.erase q } } q k))) ∧
  (∀ (s : State) (q : MatReq) (m : Cmd), s.syn.mats = [q] → q.src = 0 → q.cmd = some m →
    findObj s q.ctx q.vid = none → sdtCount s q.ctx ≤ q.vid → s.saf.safe = false → calm s →
    ∃ t, exec (.objectMaterialise false) s = .next t ∧ answered s t m 0x18 1 0 ∧ t.syn.mats = [] ∧
      t.syn.objA = s.syn.objA) ∧
  (∀ (s : State) (f : Fin 8) (id w due : Nat) (rest : List GrantItem) (x : Run) (y : Waiter),
    (fieldOf s f).grantQ = .wake id w due :: rest → runOf s id = some x → waiterOf s w = some y → x.state = 3 →
    x.killAt = none → fieldStopped s f = false → due ≤ fieldTime s f → (∀ v, rest.head? ≠ some (.resp v)) →
    ∃ t, exec (.wakeBeat f) s = .next t ∧ (fieldOf t f).grantQ = rest ∧
      t.disp.beats = s.disp.beats ++ [{ core := x.core, engine := x.engine, slot := x.slot, data := wakeBeat x y }] ∧
      t = { s with disp := t.disp }) ∧
  (∀ (s : State) (f : Fin 8) (id w due : Nat) (rest : List GrantItem),
    (fieldOf s f).grantQ = .wake id w due :: rest → fieldStopped s f = true ∨ fieldTime s f < due →
    exec (.wakeBeat f) s = .next s) ∧
  (∀ (s : State) (w : Nat) (rest : List Nat), s.syn.grantQ = w :: rest → delivered s w = true →
    ∃ t, exec .grantAck s = .next t ∧ waiterOf t w = none ∧ t.syn.grantQ = rest ∧
      (∀ v, v ≠ w → waiterOf t v = waiterOf s v) ∧ t = { s with syn := t.syn })

/-- Chip arrivals at the home object of a cross-chip barrier count up, one of the wrong SENSE or past CHIPS is
discarded, one for an XB_ID that no object here has is kept; a member acts on a release at its instant, and one that
comes late is marked and counted. -/
def Obligations.CrossChipBarriers : Prop :=
  (∀ (s : State) (p : Fin 16) (chip xb : Fin 4096) (sense : Bool) (k : Nat) (o : SynObj),
    xbObj s xb = some (k, o) → isHome s o = true → frozenAt s k = none → tget? s.syn.objA k = some o →
    tget? s.syn.objB k = some o → calm s →
    (sense ≠ o.sense ∨ fld o.limit 28 16 ≤ o.dtag → s.saf.recQ.length < 32 →
      ∃ t, exec (.chipArrive p chip xb sense) s = .next t ∧ t.syn = s.syn ∧ regBit t 0x500004 29 = true ∧
        t.saf.recQ.length = s.saf.recQ.length + 1) ∧
    (sense = o.sense → o.dtag + 1 < fld o.limit 28 16 →
      ∃ t, exec (.chipArrive p chip xb sense) s = .next t ∧ objOf t k = some { o with dtag := o.dtag + 1 } ∧
        tget [] t.syn.arrivers k = tget [] s.syn.arrivers k ++ [chip.val] ∧ t.lnk = s.lnk)) ∧
  (∀ (s : State) (p : Fin 16) (chip xb : Fin 4096) (sense : Bool), xbObj s xb = none →
    tget? s.syn.early (2 * xb.val + b2n sense) = none → s.syn.early.length < 256 →
    ∃ t, exec (.chipArrive p chip xb sense) s = .next t ∧
      tget? t.syn.early (2 * xb.val + b2n sense) = some [chip.val]) ∧
  (∀ (s : State) (p : Fin 16) (chip xb : Fin 4096) (u : BitVec 64) (k : Nat) (o : SynObj),
    xbObj s xb = some (k, o) → frozenAt s k = none → tget? s.syn.objA k = some o → tget? s.syn.objB k = some o →
    calm s → o.chipArrived = true → s.gtb.now < nsUnits u.toNat →
    ∃ t, exec (.xbRelease p chip xb o.sense u) s = .next t ∧
      t.syn.releases = s.syn.releases ++ [{ obj := k, due := u.toNat }] ∧ t.syn.objA = s.syn.objA) ∧
  (∀ (s : State) (r : XbRelease), s.syn.releases = [r] →
    nsUnits r.due ≤ (advanceTo (nsUnits r.due) s).gtb.now →
    exec .barrierReleaseInstant s = .next (settle (releaseXb
      { advanceTo (nsUnits r.due) s with
        syn := { (advanceTo (nsUnits r.due) s).syn with releases := [] } }
      r (r.late || inJump (advanceTo (nsUnits r.due) s) (nsUnits r.due))))) ∧
  (∀ (s : State) (r : XbRelease) (o : SynObj) (late : Bool), objOf s r.obj = some o →
    tget? s.syn.objB r.obj = some o →
    frozenAt s r.obj = none → o.realign = false → o.gq = [] →
    (releaseXb s r late).syn.released = s.syn.released ++ [{ r with late := late, q := gtbQ s }] ∧
    objOf (releaseXb s r late) r.obj = some { o with value := 0, sense := !o.sense, chipArrived := false, dtag := 0,
                                                     phase := (o.phase + 1) % 2 ^ 32 } ∧
    (late = true → reg (releaseXb s r late) 0x90002C = satAdd 32 (reg s 0x90002C) 1 ∧
      regBit (releaseXb s r late) 0x500004 26 = true))

/-- SYNC_FORCE writes its object, a VALUE that its MASK selects to both copies, and answers the value; with no object
it is refused. SYNC_DUMP starts a dump, and its end writes it to memory; SYN_CTX_CFG with RELEASE frees what an
idle context holds; and the diagnostic port steps through an object. -/
def Obligations.SyncForceAndDump : Prop :=
  (∀ (s : State) (m : Cmd) (k : Nat) (o : SynObj), isPassed s m 0x0205 → forceFault m = none →
    findObj s (sfCtx m) (sfVid m) = some k → objOf s k = some o → forceReason m o = none →
    ∃ t u, exec .syncForce s = .next (settle (completeOk t m
        (match objOf u k with | some v => v.value | none => 0))) ∧
      u = forceObj (acceptCritical s m) m k o ∧
      t = traceDebug u m.ctx 1 (sfVid m + sfCtx m * 2 ^ 16) (if sfMask m 0 then m.at 8 4 else o.value)) ∧
  (∀ (s : State) (m : Cmd) (k : Nat) (o : SynObj), objOf s k = some o → tget? s.syn.objB k = some o →
    frozenAt s k = none → o.barrier = false → o.gq = [] → o.dq = [] → sfMask m 0 = true → sfMask m 1 = false →
    sfMask m 2 = false → sfMask m 3 = false →
    objOf (forceObj s m k o) k = some { o with value := m.at 8 4 } ∧
    tget? (forceObj s m k o).syn.objB k = some { o with value := m.at 8 4 }) ∧
  (∀ (s : State) (m : Cmd), isPassed s m 0x0205 → forceFault m = none →
    findObj s (sfCtx m) (sfVid m) = none → s.saf.safe = false →
    ∃ t, exec .syncForce s = .next t ∧ answered s t m 0x18 1 0 ∧ t.syn = s.syn) ∧
  (∀ (s : State) (m : Cmd) (rest : List Cmd), isNext s m rest 0x0204 → s.syn.dump = none → dumpFault s m = none →
    ∃ t, exec .syncDump s = .next t ∧ t.syn.dump = some m ∧ t.syn.dumpStamp = cellarStamp s ∧
      t.hif.unitQ = rest ∧ t = { s with hif := t.hif, syn := t.syn }) ∧
  (∀ (s : State) (m : Cmd), s.syn.dump = some m → m.at 16 4 = 64 → bitAt (m.at 5 1) 2 = false →
    s.syn.objA = [] → s.saf.safe = false → bitAt m.flags 1 = false →
    ∃ t, exec .syncDumpDone s = .next t ∧ t.syn.dump = none ∧ answered s t m 0 0 64 ∧
      (hostRead t m.ctx (m.at 8 8) 4) = leBytes 4 0x53594E44) ∧
  (∀ (s : State) (c : Fin 64) (w : Word), ctxEnabled s c = false → ctxIdle s c = true → fld w.toNat 16 0 ≤ 65536 →
    ∃ t, exec (.synRelease c w) s = .next t ∧ (∀ e ∈ t.syn.objA, e.2.owner ≠ c.val) ∧
      (∀ e ∈ t.syn.waiters, e.2.ctx ≠ c.val) ∧ (∀ e ∈ t.saf.frozen, e.2.ctx ≠ c.val) ∧
      sdtCount t c = fld w.toNat 16 0 ∧
      ∀ e, e.2.owner ≠ c.val → (e ∈ t.syn.objA ↔ e ∈ s.syn.objA)) ∧
  (∀ (s : State) (c : Fin 64) (w : Word), ctxEnabled s c = true →
    exec (.synRelease c w) s = .next (setRegBit s (synCtx c + 0x10) 28 true)) ∧
  (∀ (s : State) (w : Word), ∃ t, exec (.synDiagSelWrite w) s = .next t ∧ reg t 0x50001C = w.toNat &&& 0x27FFF ∧
    t.syn = { s.syn with diagPos := 0 } ∧ t = { s with syn := t.syn, regs := t.regs } ∧
    ∀ o, o ≠ 0x50001C → reg t o = reg s o) ∧
  (∀ s : State, ∃ t, exec .synDiagDataRead s = .next t ∧ t.hif = { s.hif with rdata := synDiagWord s } ∧
    t.syn = { s.syn with diagPos := (s.syn.diagPos + 1) % 8 } ∧ t = { s with hif := t.hif, syn := t.syn })

/-! ### Channels, blend queues and links -/

/-- Messages: a record is assigned to a live handler, which enters RDY; what waits for credit takes it as it comes; a
message for a key that no channel has is discarded with its units returned, and one that its channel can hold is
written; an EPOCH_NOTICE acts on every SEND record of that key and chip, and returned units on one of them; and a
decant of a channel of an idle image finishes the deliveries past their commit point, frees what is left and raises
the epoch. -/
def Obligations.Channels : Prop :=
  (∀ (s : State) (k i h : Nat) (x : RingRec) (ch : Chan), nextAssign s = some (k, x, i, h) → chanOf s k = some ch →
    ∃ t, exec .recordAssign s = .next t ∧
      t.chn.chans = tput s.chn.chans k { ch with
        recs := modWhere (fun y : RingRec => y.serial == x.serial) (fun y => { y with handler := some h }) ch.recs } ∧
      t.disp.ready.length = s.disp.ready.length + 1 ∧ t.mem = s.mem) ∧
  (∀ s t : State, grantAny s = some t → exec .sendCreditGrant s = .next (settle t)) ∧
  (∀ s t : State, grantAny s = none → sendSum s = some t → exec .sendCreditGrant s = .next t) ∧
  (∀ (s : State) (p : Fin 16) (chip : Fin 4096) (key : BitVec 16) (epoch : Word) (item : List Byte),
    keyChan s key.toNat = none →
    exec (.msg p chip key epoch item) s = .next (sendLane0
      (refuseArrival (countRx s p (flitCount item.length)) none key.toNat 1 (leAt item 0 2) chip)
      { dest := chip, lane := 0, kind := 3, key := key.toNat, body := leBytes 4 (leAt item 0 2) ++ leBytes 108 0 })) ∧
  (∀ (s t : State) (p : Fin 16) (chip : Fin 4096) (key : BitVec 16) (item : List Byte) (k : Nat) (ch : Chan),
    keyChan s key.toNat = some k → chanOf s k = some ch → ch.isOpen = true → leAt item 0 2 ≤ ch.maxUnits →
    (leAt item 0 2 : Int) ≤ ch.remoteFree → ch.epoch < 2 ^ 32 →
    writeRec (setChan (countRx s p (flitCount item.length)) k
        { ch with remoteFree := ch.remoteFree - leAt item 0 2 }) k (leAt item 0 2) 1 (leAt item 4 4)
      (leAt item 8 2) 1 chip ((item.drop 16).take (leAt item 0 2 * 64 - 16)) = (t, true) →
    exec (.msg p chip key (BitVec.ofNat 32 ch.epoch) item) s = .next t) ∧
  (∀ (s : State) (p : Fin 16) (chip : Fin 4096) (key : BitVec 16) (epoch : Word) (isOpen : Bool),
    ∃ t, exec (.epochNotice p chip key epoch isOpen) s = .next t ∧
      (∀ k x, chanOf s k = some x → x.kind = 2 → x.dest = chip.val → x.key = key.toNat →
        chanOf t k = some { x with epoch := epoch.toNat, isOpen := isOpen }) ∧
      (∀ k x, chanOf s k = some x → ¬(x.kind = 2 ∧ x.dest = chip.val ∧ x.key = key.toNat) →
        chanOf t k = some x)) ∧
  (∀ (s : State) (p : Fin 16) (chip : Fin 4096) (key : BitVec 16) (units : Word),
    ∃ t, exec (.remoteCredit p chip key units false) s = .next t ∧ t.blq = s.blq ∧
      ((s.chn.chans.filter fun e => e.2.kind == 2 && e.2.dest == chip.val && e.2.key == key.toNat) = [] →
        t.chn = s.chn) ∧
      (∀ k x, chanOf s k = some x → x.kind = 2 → x.dest = chip.val → x.key = key.toNat →
        ∃ j y, (j, y) ∈ s.chn.chans ∧ y.kind = 2 ∧ y.dest = chip.val ∧ y.key = key.toNat ∧
          t.chn = { s.chn with
            chans := tput s.chn.chans j { y with remoteFree := y.remoteFree + units.toNat } })) ∧
  (∀ (s : State) (p : Fin 16) (chip : Fin 4096) (key : BitVec 16) (units : Word),
    ∃ t, exec (.remoteCredit p chip key units true) s = .next t ∧ t.chn = s.chn ∧
      (∀ k q, bqOf s k = some q → (brOrder q.record = 3 ∨ brNext q.record = true) → brDest q.record = chip.val →
        brDestKey q.record = key.toNat →
        ∃ j y, (j, y) ∈ s.blq.qs ∧ (brOrder y.record = 3 ∨ brNext y.record = true) ∧ brDest y.record = chip.val ∧
          brDestKey y.record = key.toNat ∧
          t.blq = { s.blq with qs := tput s.blq.qs j { y with xfree := y.xfree + units.toNat } })) ∧
  (∀ (s : State) (m : Cmd) (rest : List Cmd) (i k : Nat) (img : Img) (ch : Chan), isNext s m rest 0x0300 →
    m.at 4 1 < 16 → m.at 5 1 < 2 → firstNonzero m.bytes 8 40 = none →
    findImg s m.ctx (m.at 4 1 % 16) = some (i, img) → img.state = 1 → imgChan s i (m.at 6 2) = some k →
    chanOf s k = some ch → ch.kind = 1 → stepOf s i = none → img.pending = none → ch.recs = [] →
    (s.disp.readyQ.any fun q => sendsTo s k q) = false → s.saf.safe = false → bitAt m.flags 1 = false →
    ∃ t, exec .chanDecant s = .next t ∧ answered s t m 0 0 0 ∧
      chanOf t k = some { ch with epoch := nextEpoch ch.epoch, isOpen := !bitAt (m.at 5 1) 0 }) ∧
  (∀ (s : State) (m : Cmd) (rest : List Cmd) (i k : Nat) (img : Img) (ch : Chan), isNext s m rest 0x0300 →
    m.at 4 1 < 16 → m.at 5 1 < 2 → firstNonzero m.bytes 8 40 = none →
    findImg s m.ctx (m.at 4 1 % 16) = some (i, img) → img.state = 1 → imgChan s i (m.at 6 2) = some k →
    chanOf s k = some ch → ch.kind = 1 → stepOf s i = none → img.pending = none →
    ∃ u v n, exec .chanDecant s = .next (completeOk (addReg v (chnCtx m.ctx + 0xC) n) m n) ∧
      u = finishSends k s.disp.readyQ.length (queueIs s rest) ∧ decantChan u k (bitAt (m.at 5 1) 0) = (v, n))

/-- Blend queues: a contribution for a key that no queue here has is discarded and counted, a fresh one is taken to
its queue's intake, and a second one for its slot, or one beyond its chip's grant, is refused; an intake, a node add
and an incoming sum go on as their queue's ORDER says. -/
def Obligations.BlendQueues : Prop :=
  (∀ (s : State) (p : Fin 16) (chip : Fin 4096) (key : BitVec 16) (slot : Fin 4096) (item : List Byte),
    keyBq s key.toNat = none →
    exec (.blend p chip key slot item) s = .next (sendLane0
      (dropArrival (setRegBit (addReg (countRx s p (flitCount item.length)) 0x60000C 1) 0x600000 31 true))
      { dest := chip, lane := 0, kind := 3, key := key.toNat,
        body := leBytes 4 (itemUnits item.length) ++ leBytes 108 1 })) ∧
  (∀ (s : State) (p : Fin 16) (chip : Fin 4096) (key : BitVec 16) (slot : Fin 4096) (item : List Byte) (k : Nat)
    (q : BlendQ), keyBq s key.toNat = some k → bqOf s k = some q → slot.val < brContrib q.record →
    bitAt (slotEntry q slot) 29 = true → fld (slotEntry q slot) 28 17 = chip.val →
    q.filled.contains slot.val = false → item.length = contribBytes q.record →
    ∃ t, exec (.blend p chip key slot item) s = .next t ∧
      (beyondGrant q key.toNat chip item.length = false →
        bqOf t k = some { q with filled := q.filled ++ [slot.val],
                                 inQ := q.inQ ++ [{ slot := slot, data := item, chip := some chip }] } ∧
        t.mem = s.mem ∧ t.lnk = s.lnk) ∧
      (beyondGrant q key.toNat chip item.length = true →
        t = sendLane0 (dropArrival (refuseContrib
            (setBq (countRx s p (flitCount item.length)) k { q with refused := true }) q.ctx 0x1FFFF q.rel slot 5
            q.vint))
          { dest := chip, lane := 0, kind := 3, key := key.toNat, owner := some q.ctx,
            body := leBytes 4 (itemUnits item.length) ++ leBytes 108 1 })) ∧
  (∀ (s : State) (p : Fin 16) (chip : Fin 4096) (key : BitVec 16) (slot : Fin 4096) (item : List Byte) (k : Nat)
    (q : BlendQ), keyBq s key.toNat = some k → bqOf s k = some q → slot.val < brContrib q.record →
    bitAt (slotEntry q slot) 29 = true → fld (slotEntry q slot) 28 17 = chip.val →
    q.filled.contains slot.val = true →
    exec (.blend p chip key slot item) s = .next (sendLane0
      (refuseContrib (setBq (countRx s p (flitCount item.length)) k { q with refused := true }) q.ctx 0x1FFFF q.rel
        slot 3 q.vint)
      { dest := chip, lane := 0, kind := 3, key := key.toNat, owner := some q.ctx,
        body := leBytes 4 (itemUnits item.length) ++ leBytes 108 1 })) ∧
  (∀ (s : State) (k : Nat) (q : BlendQ) (c : Contrib) (lost : Bool), nextIntake s = some (k, q, c) →
    inTree q = false → brOrder q.record ≠ 2 → q.sum = none → c.chip = none →
    q.taken.length + 1 < brContrib q.record →
    ∃ t, exec (.contributionIntake lost) s = .next t ∧
      bqOf t k = some { q with inQ := q.inQ.drop 1, taken := q.taken ++ [c.slot],
                               sum := some (convertIn q c.slot c.data) } ∧ t.mem = s.mem) ∧
  (∀ s : State, s.blq.qs = [] → exec .treeAdd s = .next s ∧ ∀ b, exec (.contributionIntake b) s = .next s) ∧
  (∀ (s : State) (k : Nat) (q : BlendQ) (a lv : Nat), s.blq.qs = [(k, q)] → inTree q = true →
    q.complete = false → nextNode q = some (a, lv) → brLeaf q.record = 0 →
    rootReady { q with nodes := q.nodes ++ [(a, lv)] } = false →
    ∃ t, exec .treeAdd s = .next t ∧
      bqOf t k = some { q with
        nodes := q.nodes ++ [(a, lv)],
        leaves := tput q.leaves a (addLists { q with nodes := q.nodes ++ [(a, lv)] } (a + 2 ^ (lv - 1))
          (tget [] q.leaves a) (tget [] q.leaves (a + 2 ^ (lv - 1)))) } ∧ t.mem = s.mem) ∧
  (∀ (s : State) (p : Fin 16) (chip : Fin 4096) (key : BitVec 16) (item : List Byte) (k : Nat) (q : BlendQ),
    keyBq s key.toNat = some k → bqOf s k = some q → brOrder q.record = 2 → brChainIn q.record = true →
    q.chainIn = none →
    ∃ v t, exec (.chain p chip key item) s = .next (chainOn (chargeBytes (setBq t k { q with chainIn := some v })
        q.ctx (brElems q.record * blendSize (brAcc q.record))) k) ∧
      t = returnBlend (countRx s p (flitCount item.length)) key.toNat chip item.length ∧
      v = elemsOf (blendSize (brAcc q.record)) (brElems q.record)
        ((item ++ List.replicate (brElems q.record * blendSize (brAcc q.record)) 0).take
          (brElems q.record * blendSize (brAcc q.record))))

/-- Links: lane 0 leaves before the others, and a link that goes down discards what it holds; a reservation of
contexts together above 1,024 flits is refused; a flit of a reserved KIND is discarded and counted. -/
def Obligations.LinkAgents : Prop :=
  (∀ (s : State) (p : Fin 16) (f : Flit) (rest : List Flit), (portOf s p).up = true → portTested s p = false →
    (portOf s p).out0 = f :: rest → f.lane = 0 →
    ∃ t, exec (.flitSend p) s = .next t ∧ t.lnk.sent = s.lnk.sent ++ [(p.val, f)] ∧
      (portOf t p).out = (portOf s p).out ∧ ((portOf s p).wait0 = [] → (portOf t p).out0 = rest) ∧
      (f.owner = none → t.psm = s.psm) ∧ t = { s with lnk := t.lnk, regs := t.regs, psm := t.psm }) ∧
  (∀ (s : State) (p : Fin 16) (f : Flit) (rest : List Flit) (c : Nat), (portOf s p).up = true →
    portTested s p = false → (portOf s p).out0 = [] → (portOf s p).out = f :: rest → f.lane ≠ 0 → f.owner = some c →
    ∃ t, exec (.flitSend p) s = .next t ∧ t.lnk.sent = s.lnk.sent ++ [(p.val, f)] ∧ (portOf t p).out = rest ∧
      (f.pool = true → (portOf t p).pool = (portOf s p).pool - 1)) ∧
  (∀ (s : State) (p : Fin 16), (portOf s p).up = true → s.saf.recQ.length < 32 →
    ∃ t, exec (.linkUpFall p) s = .next t ∧ (portOf t p).up = false ∧
      (portOf t p).out0 = (portOf s p).wait0.take 256 ∧
      (portOf t p).out = [] ∧ regBit t 0xB00000 31 = true ∧ t.lnk.sent = s.lnk.sent ∧
      t.saf.recQ.length = s.saf.recQ.length + 1) ∧
  (∀ (s : State) (p : Fin 16), exec (.linkUpRise p) s = .next (setPort s p { portOf s p with up := true })) ∧
  (∀ (s : State) (c : Fin 64) (w : Word), resSum s - ctxRes s c + fld w.toNat 10 0 ≤ 1024 →
    ∃ t, exec (.lnkCtxResWrite c w) s = .next t ∧ ctxRes t c = fld w.toNat 10 0 ∧
      (∀ d : Fin 64, d ≠ c → ctxRes t d = ctxRes s d) ∧ t = { s with regs := t.regs }) ∧
  (∀ (s : State) (c : Fin 64) (w : Word), 1024 < resSum s - ctxRes s c + fld w.toNat 10 0 →
    ∃ t, exec (.lnkCtxResWrite c w) s = .next t ∧ (∀ d : Fin 64, ctxRes t d = ctxRes s d) ∧
      regBit t 0xB00000 30 = true) ∧
  (∀ (s : State) (p : Fin 16), ∃ t, exec (.reservedKindFlit p) s = .next t ∧
    reg t (0xB0010C + p * 0x10) = satAdd 32 (reg s (0xB0010C + p * 0x10)) 1 ∧
    reg t (0xB00108 + p * 0x10) = satAdd 32 (reg s (0xB00108 + p * 0x10)) 1 ∧ t = { s with regs := t.regs })

/-- The queues: DECANT empties the register-chain queue that it names and counts an item that it cuts, and with bit 31
at 0 it changes nothing but a packet queue's limit; differing pointers empty a queue, one without a register set
too, and those of a field's DISPATCH queue set PTR_MISMATCH and send a record. -/
def Obligations.Queues : Prop :=
  (∀ (s : State) (off : Nat) (w : Word) (q : QId), queueAt off = some q → q.packet = false →
    bitAt w.toNat 31 = true → exec (.decant off w) s = .next (
      if cutsItem s q then queueAbandon (endEmptied (afterEmpty (emptyQueue s q) q)) off
      else endEmptied (afterEmpty (emptyQueue s q) q))) ∧
  (∀ (s : State) (off : Nat) (w : Word) (q : QId), queueAt off = some q → q.packet = false →
    bitAt w.toNat 31 = false → exec (.decant off w) s = .next s) ∧
  (∀ (s : State) (off : Nat) (w : Word) (q : QId), queueAt off = some q → q.packet = true → setupDone s = false →
    bitAt w.toNat 31 = false →
    ∃ t, exec (.decant off w) s = .next t ∧ regFld t off 15 0 = w.toNat % 65536 ∧ t = { s with regs := t.regs } ∧
      ∀ o, o ≠ off → reg t o = reg s o) ∧
  (∀ (s : State) (off : Nat) (q : QId), queueAt off = some q →
    exec (.queuePtrMismatch off) s = .next (endEmptied (settle (ptrMismatch s off q)))) ∧
  (∀ (s : State) (off : Nat) (q : QId), queueAt off = none → hiddenAt off = some q →
    exec (.queuePtrMismatch off) s = .next (endEmptied (settle (hiddenMismatch s q)))) ∧
  (∀ (s : State) (f : Fin 8), s.saf.recQ.length < 32 →
    ∃ e, (ptrMismatch s (0x300100 + f * 0x10) (.rdyDisp f)).saf.recQ = s.saf.recQ ++ [e] ∧ e.code = 3 ∧ e.sev = 1 ∧
      e.unit = 5 ∧ (fieldOf (ptrMismatch s (0x300100 + f * 0x10) (.rdyDisp f)) f).dispQ = [] ∧
      regBit (ptrMismatch s (0x300100 + f * 0x10) (.rdyDisp f)) (0x300100 + f * 0x10 + 4) 31 = true) ∧
  (∀ s : State, queueLen (emptyQueue s .hifFetch) .hifFetch = 0 ∧ queueLen (emptyQueue s .cauIn) .cauIn = 0 ∧
    queueLen (emptyQueue s .safRec) .safRec = 0 ∧ queueLen (emptyQueue s .trcCel) .trcCel = 0)

/-! ### Paging -/

/-- Translation requests of running commands: a table error faults with code 5, an address of no region with code 1,
a resident STREAM page and a page that the command has written first are answered with their frames, through the
queue down to the field, where they wait while its clock is stopped; a request of no running command changes nothing.
-/
def Obligations.Translations : Prop :=
  (∀ (s : State) (f : Fin 8) (bits : BitVec 128) (r : Nat) (x : Run), reqRun s f bits.toNat = some r →
    runOf s r = some x →
    exec (.translationRequest f bits true false) s = .next (settle (faultXlt s f r x bits.toNat 5))) ∧
  (∀ (s : State) (f : Fin 8) (bits : BitVec 128) (r : Nat) (x : Run), reqRun s f bits.toNat = some r →
    runOf s r = some x → regionAt s x.ctx (fld bits.toNat 53 22 * 65536) = none →
    exec (.translationRequest f bits false false) s = .next (settle (faultXlt s f r x bits.toNat 1))) ∧
  (∀ (s : State) (f : Fin 8) (bits : BitVec 128) (r : Nat) (x : Run) (g : Region) (m : PageMap),
    reqRun s f bits.toNat = some r → runOf s r = some x →
    regionAt s x.ctx (fld bits.toNat 53 22 * 65536) = some g → ctxEnabled s x.ctx = true → g.kind = 2 →
    bitAt bits.toNat 21 = false → mapOf s x.ctx (pageOf g (fld bits.toNat 53 22 * 65536)) = some m → calm s →
    ∃ t, exec (.translationRequest f bits false false) s = .next t ∧
      ((fieldOf s f).grantQ = [] → fieldStopped s f = false →
        t.pat.resps = s.pat.resps ++
          [{ field := f, word := respBits (fld bits.toNat 61 54) m.at_ m.large false false 0 0 }] ∧
        fieldOf t f = fieldOf s f) ∧
      (fieldStopped s f = true → t.pat.resps = s.pat.resps ∧
        (fieldOf t f).grantQ = (fieldOf s f).grantQ ++
          [.resp (respBits (fld bits.toNat 61 54) m.at_ m.large false false 0 0)]) ∧
      t.mem = s.mem ∧ t.pat.maps = s.pat.maps) ∧
  (∀ (s : State) (f : Fin 8) (bits : BitVec 128) (r : Nat) (x : Run) (g : Region) (w : Fresh),
    reqRun s f bits.toNat = some r → runOf s r = some x →
    regionAt s x.ctx (fld bits.toNat 53 22 * 65536) = some g → ctxEnabled s x.ctx = true → g.kind = 0 →
    freshOf x (pageOf g (fld bits.toNat 53 22 * 65536)) = some w → calm s →
    ∃ t, exec (.translationRequest f bits false false) s = .next t ∧
      ((fieldOf s f).grantQ = [] → fieldStopped s f = false →
        t.pat = { s.pat with resps := s.pat.resps ++
          [{ field := f, word := respBits (fld bits.toNat 61 54) w.frame w.large true true 0 0 }] } ∧
        fieldOf t f = fieldOf s f) ∧
      (fieldStopped s f = true → t.pat = s.pat ∧
        (fieldOf t f).grantQ = (fieldOf s f).grantQ ++
          [.resp (respBits (fld bits.toNat 61 54) w.frame w.large true true 0 0)]) ∧
      t = { s with pat := t.pat, disp := t.disp } ∧ t.disp.runs = s.disp.runs ∧
      ∀ g, g ≠ f.val → fieldOf t g = fieldOf s g) ∧
  (∀ (s : State) (f : Fin 8) (bits : BitVec 128) (b : Bool) (r : Nat) (x : Run), reqRun s f bits.toNat = some r →
    runOf s r = some x →
    exec (.translationRequest f bits b true) s =
      .next (settle (fullLoss s 0x0D (0x700100 + f * 0x10) (ctxsInField s f fun k => 1 ≤ k && k ≤ 3)))) ∧
  (∀ (s : State) (f : Fin 8) (bits : BitVec 128) (b full : Bool), reqRun s f bits.toNat = none →
    exec (.translationRequest f bits b full) s = .next s)

/-- What a contribution, an incoming sum, an intake, a tree add and a translation request come to when nothing stands
in their way. A contribution that its slot admits and its chip's grant covers waits in its queue's intake. An
incoming sum becomes its queue's, which goes on in slot order. An intake adds to an ARRIVAL sum, the first stored and
the last completing the queue, and fills a leaf in TREE and CHAIN order. A tree add sums the children of the lowest
node that has become possible. A request for a resident STREAM or KV page, for a fresh page of its command, and to
read a PLAIN page is answered with that frame; PLAIN without a mapping and with FILL ZERO is the zero frame. -/
def Obligations.IntakesAndAnswersComplete : Prop :=
  (∀ (s : State) (p : Fin 16) (chip : Fin 4096) (key : BitVec 16) (slot : Fin 4096) (item : List Byte) (k : Nat)
    (q : BlendQ), keyBq s key.toNat = some k → bqOf s k = some q →
    slotFault s q slot (fld (slotEntry q slot) 16 0) chip = none → beyondGrant q key.toNat chip item.length = false →
    item.length = contribBytes q.record →
    exec (.blend p chip key slot item) s = .next (setBq (countRx s p (flitCount item.length)) k { q with
      filled := q.filled ++ [slot.val], inQ := q.inQ ++ [{ slot := slot, data := item, chip := some chip }] })) ∧
  (∀ (s : State) (p : Fin 16) (chip : Fin 4096) (key : BitVec 16) (item : List Byte) (k : Nat) (q : BlendQ)
    (v : State),
    keyBq s key.toNat = some k → bqOf s k = some q → brOrder q.record = 2 → brChainIn q.record = true →
    q.chainIn = none → item.length = brElems q.record * blendSize (brAcc q.record) →
    v = returnBlend (countRx s p (flitCount item.length)) key.toNat chip item.length →
    (∃ t, exec (.chain p chip key item) s = .next t ∧ t = chainOn (chargeBytes (setBq v k { q with
      chainIn := some (elemsOf (blendSize (brAcc q.record)) (brElems q.record) item) }) q.ctx item.length) k) ∧
    (q.complete = false → q.chainPos < brContrib q.record → q.taken.contains q.chainPos = false →
      ∃ t, exec (.chain p chip key item) s = .next t ∧
        bqOf t k = some { q with
          chainIn := some (elemsOf (blendSize (brAcc q.record)) (brElems q.record) item) } ∧ t.mem = s.mem)) ∧
  (∀ (s : State) (k : Nat) (q : BlendQ) (c : Contrib) (v : State), nextIntake s = some (k, q, c) → c.chip = none →
    v = chargeBytes (setBq s k { q with inQ := q.inQ.drop 1, taken := q.taken ++ [c.slot] }) q.ctx c.data.length →
    (inTree q = true → exec (.contributionIntake false) s = .next (finishTree (writeLeafVal v k
      { q with inQ := q.inQ.drop 1, taken := q.taken ++ [c.slot] } c.slot (convertIn q c.slot c.data)) k)) ∧
    (inTree q = false → brOrder q.record = 2 → exec (.contributionIntake false) s = .next (chainOn (writeLeafVal v k
      { q with inQ := q.inQ.drop 1, taken := q.taken ++ [c.slot] } c.slot (convertIn q c.slot c.data)) k)) ∧
    (∀ x, inTree q = false → brOrder q.record ≠ 2 → q.sum = some x → q.taken.length + 1 ≠ brContrib q.record →
      ∃ t, exec (.contributionIntake false) s = .next t ∧
        bqOf t k = some { q with inQ := q.inQ.drop 1, taken := q.taken ++ [c.slot],
                                 sum := some (addLists q c.slot x (convertIn q c.slot c.data)) } ∧ t.mem = s.mem) ∧
    (inTree q = false → brOrder q.record ≠ 2 → q.sum = none → q.taken.length + 1 = brContrib q.record →
      exec (.contributionIntake false) s = .next (completeQueue (setBq v k { q with
        inQ := q.inQ.drop 1, taken := q.taken ++ [c.slot], sum := some (convertIn q c.slot c.data) }) k
        { q with inQ := q.inQ.drop 1, taken := q.taken ++ [c.slot], sum := some (convertIn q c.slot c.data) }
        (convertIn q c.slot c.data)))) ∧
  (∀ (s : State) (k : Nat) (q y : BlendQ) (a lv : Nat), s.blq.qs = [(k, q)] → inTree q = true →
    q.complete = false → nextNode q = some (a, lv) → brLeaf q.record = 0 →
    y = { q with nodes := q.nodes ++ [(a, lv)] } →
    exec .treeAdd s = .next (finishTree (setBq (setBq (countElems s q) k y) k { y with
      leaves := tput q.leaves a (addLists y (a + 2 ^ (lv - 1)) (tget [] q.leaves a)
        (tget [] q.leaves (a + 2 ^ (lv - 1)))) }) k)) ∧
  (∀ (s : State) (f : Fin 8) (bits : BitVec 128) (r n tag : Nat) (x : Run) (g : Region), reqRun s f bits.toNat = some
    r →
    runOf s r = some x → regionAt s x.ctx (fld bits.toNat 53 22 * 65536) = some g → ctxEnabled s x.ctx = true →
    n = pageOf g (fld bits.toNat 53 22 * 65536) → tag = fld bits.toNat 61 54 →
    (∀ m, g.kind = 2 → bitAt bits.toNat 21 = false → mapOf s x.ctx n = some m →
      exec (.translationRequest f bits false false) s = .next (settle (respond
        (markSeen (cacheIn s (pageKey x.ctx n)) r n (some m.at_)) f
        (respBits tag m.at_ m.large false false 0 (partOf s x.ctx))))) ∧
    (∀ m, g.kind = 1 → mapOf s x.ctx n = some m → m.res = 0 →
      exec (.translationRequest f bits false false) s = .next (settle (respond
        (cacheIn s (pageKey x.ctx n)) f (respBits tag m.at_ m.large true false 0 (partOf s x.ctx))))) ∧
    (∀ w, g.kind = 0 → freshOf x n = some w →
      exec (.translationRequest f bits false false) s = .next (settle (respond s f
        (respBits tag w.frame w.large true true 0 (partOf s x.ctx))))) ∧
    (∀ m, g.kind = 0 → bitAt bits.toNat 21 = false → freshOf x n = none → seenOf x n = none →
      mapOf s x.ctx n = some m → m.res = 0 →
      exec (.translationRequest f bits false false) s = .next (settle (respond
        (cacheIn (markSeen s r n (some m.at_)) (pageKey x.ctx n)) f
        (respBits tag m.at_ g.large false false 0 (partOf s x.ctx))))) ∧
    (g.kind = 0 → bitAt bits.toNat 21 = false → freshOf x n = none → seenOf x n = none → mapOf s x.ctx n = none →
      g.fill = 0 →
      exec (.translationRequest f bits false false) s = .next (settle (respond
        (addReg (markSeen s r n none) 0x700024 1) f
        (respBits tag (zeroFrameOf (markSeen s r n none) x.field) g.large false false 0 (partOf s x.ctx))))))

/-- Frames: a waiting request takes its frame, a released frame whose readers have ended is free again, a zeroed
frame enters its pool, a STREAM page that has been filled is mapped, a waiting unit write is made, and the release of
an idle context leaves it no mapping. -/
def Obligations.Frames : Prop :=
  (∀ s t : State, (waitHeads s).findSome? (fun w => tryWait s w) = some t →
    exec .frameWaitGrant s = .next (switchOn (afterWrites (settle t)))) ∧
  (∀ (s : State) (d : Deferred) (rest : List Deferred), s.pat.deferred = d :: rest → deferredDone s d = true →
    exec .deferredRelease s = .next (freeFrame { s with pat := { s.pat with deferred := rest } } d.frame) ∧
    tget? (freeFrame { s with pat := { s.pat with deferred := rest } } d.frame).pat.frames d.frame = none) ∧
  (∀ (s : State) (k : Fin 24), tget 0 s.pat.pool k < prezero s → tget 0 s.pat.pool k < stackFree s k →
    regBit s 0x700000 0 = true →
    ∃ t, exec (.frameZeroed k) s = .next t ∧ tget 0 t.pat.pool k = tget 0 s.pat.pool k + 1 ∧
      t = { s with pat := t.pat } ∧ t.pat.frames = s.pat.frames) ∧
  (∀ (s : State) (k : Fin 24), prezero s ≤ tget 0 s.pat.pool k → exec (.frameZeroed k) s = .next s) ∧
  (∀ (s u : State) (f : Fill) (rest : List Fill) (g : Region) (b : List Byte), s.pat.fills = f :: rest →
    s.pat.waits = [] → regionAt s f.ctx (f.vpn * 65536) = some g → fillSource s f.ctx f.vpn g = some b →
    ensureTables { s with pat := { s.pat with fills := rest } } f.ctx f.vpn f.field (walkLevels f.large) = some u →
    calm u →
    ∃ t, exec (.streamFillDone true) s = .next t ∧
      mapOf t f.ctx f.vpn = some { large := f.large, at_ := f.frame } ∧ t.disp = u.disp) ∧
  (∀ (s : State) (f : Fill) (rest : List Fill), s.pat.fills = f :: rest → s.pat.waits = [] → calm s →
    exec (.streamFillDone false) s =
      .next (freeFrame { s with pat := { s.pat with fills := rest } } f.frame)) ∧
  (∀ (s t : State) (c va : Nat) (bs : List Byte), s.pat.waits = [.write c va bs] →
    writePage { s with pat := { s.pat with served := c } } c va bs = .done t →
    exec .unitWrite s = .next (afterWrites { t with pat := { t.pat with
      waits := t.pat.waits.filter fun v => v != .write c va bs } })) ∧
  (∀ (s : State) (c va : Nat) (bs : List Byte), s.pat.waits = [.write c va bs] →
    writePage { s with pat := { s.pat with served := c } } c va bs = .wait →
    exec .unitWrite s = .next s) ∧
  (∀ (s : State) (c : Fin 64), ctxEnabled s c = false → ctxIdle s c = true →
    exec (.patRelease c) s = .next (releaseCtx s c) ∧
    (∀ vpn, vpn < 2 ^ 32 → mapOf (releaseCtx s c) c vpn = none) ∧
    (∀ d vpn, d < 64 → d ≠ c.val → vpn < 2 ^ 32 → mapOf (releaseCtx s c) d vpn = mapOf s d vpn)) ∧
  (∀ (s : State) (c : Fin 64), ctxEnabled s c = true →
    exec (.patRelease c) s = .next (setRegBit s (patBase c + 0xC) 28 true))

/-! ### The serving loop -/

/-- SERVE_OPEN binds a closed serving context to an idle image and asks for its first assembly; SERVE_CLOSE asks it to
close; an assembly begins when it is due and allowed, or at the next poll instant; and a KV operation that is done
lets the assembly go on. An ADVANCE in order moves its sequence on: the position by its tokens, GENERATED by one
where it generates; the prefill ends when the position reaches its target, and the sequence with its last token or
with FINISH. -/
def Obligations.ServingLoop : Prop :=
  ((∀ (s : State) (m : Cmd) (rest : List Cmd) (i : Nat) (img : Img) (b : List Byte), isNext s m rest 0x0400 →
    m.at 4 1 < 4 → m.at 5 1 < 16 → m.at 6 1 < 2 → m.at 7 1 = 0 → m.at 8 8 % 128 = 0 →
    firstNonzero m.bytes 16 32 = none → (srvOf s (m.at 4 1)).state = 0 → servingOf s m.ctx = none →
    findImg s m.ctx (m.at 5 1) = some (i, img) → img.state = 1 →
    (s.tge.imgs.any fun e => e.2.ctx == m.ctx &&
      (e.2.state == 0 || e.2.pending.isSome || (stepOf s e.1).isSome)) = false →
    readSrc s m.ctx (bitAt (m.at 6 1) 0) (m.at 8 8) 128 = some b → sdFault s m.ctx b = none →
    s.saf.safe = false → bitAt m.flags 1 = false →
    ∃ t, exec (.serveOpen false) s = .next t ∧ answered s t m 0 0 (m.at 4 1) ∧ (srvOf t (m.at 4 1)).state = 1 ∧
      (srvOf t (m.at 4 1)).ctx = m.ctx ∧ (srvOf t (m.at 4 1)).img = i ∧ (srvOf t (m.at 4 1)).desc = b ∧
      (srvOf t (m.at 4 1)).due = true ∧ (∀ v, v ≠ m.at 4 1 → srvOf t v = srvOf s v) ∧
      t = { s with hif := t.hif, sls := t.sls, regs := t.regs } ∧
      (s.hif.cplQ.length < 32 → t.regs = s.regs)) ∧
  (∀ (s : State) (m : Cmd) (rest : List Cmd) (i : Nat) (img : Img), isNext s m rest 0x0400 →
    m.at 4 1 < 4 → m.at 5 1 < 16 → m.at 6 1 < 2 → m.at 7 1 = 0 → m.at 8 8 % 128 = 0 →
    firstNonzero m.bytes 16 32 = none → (srvOf s (m.at 4 1)).state = 0 → servingOf s m.ctx = none →
    findImg s m.ctx (m.at 5 1) = some (i, img) → img.state = 1 →
    (s.tge.imgs.any fun e => e.2.ctx == m.ctx &&
      (e.2.state == 0 || e.2.pending.isSome || (stepOf s e.1).isSome)) = false → s.saf.safe = false →
    ∃ t, exec (.serveOpen true) s = .next t ∧ answered s t m 0x10 0x1FF 0 ∧ t.sls = s.sls) ∧
  (∀ (s : State) (m : Cmd) (rest : List Cmd), isNext s m rest 0x0401 → m.at 4 1 < 4 → m.at 5 1 = 0 →
    firstNonzero m.bytes 6 42 = none → (srvOf s (m.at 4 1)).state ≠ 0 → (srvOf s (m.at 4 1)).ctx = m.ctx →
    (srvOf s (m.at 4 1)).abort = false →
    exec .serveClose s = .next (setSrv (queueIs s rest) (m.at 4 1)
      { srvOf s (m.at 4 1) with closes := (srvOf s (m.at 4 1)).closes ++ [m], state := 2, due := true })) ∧
  (∀ (s : State) (v : Fin 4), (srvOf s v).due = true → asmAllowed s (srvOf s v) = true →
    exec (.assembly v) s = .next (asmStart s v)) ∧
  (∀ (s : State) (v : Fin 4), (srvOf s v).due = false → exec (.assembly v) s = .next (launchesOn s)) ∧
  (∀ s : State, (∀ v, v < 4 → ((srvOf s v).asm.any fun a => a.plan.isSome) = false) → launchesOn s = s) ∧
  (∀ (s : State) (v : Fin 4), asmAllowed s (srvOf s v) = true → (srvOf s v).due = false →
    ((srvOf s v).seqs.any fun e => e.2.live) = false →
    exec (.servePoll v) s = .next (asmStart
      (advanceTo (nsUnits (((srvOf s v).polled + sdPoll (srvOf s v).desc) * 256))
        (countLate s (inJump s (nsUnits (((srvOf s v).polled + sdPoll (srvOf s v).desc) * 256))))) v)) ∧
  (∀ (s t : State) (v : Fin 4) (a : Asm) (o : KvOp) (rest : List KvOp), (srvOf s v).asm = some a →
    a.ops = o :: rest → runOp s v o = some t → (srvOf s v).abort = false →
    exec (.kvOperationDone v) s = .next (asmRun v 1048576 (modAsm t v fun a => { a with
      ops := match a.ops with | p :: r => if p = o then r else p :: r | [] => [] })))) ∧
  ((∀ (q : Seq) (n : Nat) (gen fin : Bool) (st ns : Nat),
    (advanceSeq q n gen fin st ns).pos = q.pos + n ∧
    (advanceSeq q n gen fin st ns).generated = q.generated + b2n gen ∧
    (advanceSeq q n gen fin st ns).steps = q.steps + 1 ∧
    (advanceSeq q n gen fin st ns).age = q.age) ∧
  (∀ (q : Seq) (n : Nat) (gen fin : Bool) (st ns : Nat), (gen && fin) = true ∨ q.generated + b2n gen = q.maxNew →
    (advanceSeq q n gen fin st ns).state = 5 ∧ (advanceSeq q n gen fin st ns).finish = some (st, ns)) ∧
  (∀ (q : Seq) (n : Nat) (gen fin : Bool) (st ns : Nat), (gen && fin) = false → q.generated + b2n gen ≠ q.maxNew →
    (advanceSeq q n gen fin st ns).state =
      (if q.state = 1 ∧ q.target ≤ q.pos + n then 2 else q.state)) ∧
  (∀ (s : State) (x : Run) (data : Nat), fld data 123 120 = 1 → servingOf s x.ctx = none →
    slsAdvance s x data = refuseAdvance s x (fld data 117 104) 6))

/-! ### Parcels, shares, saves and models -/

/-- PARCEL_SET: a DEFINE of a parcel that no context uses gives it its clusters at once, a BIND that takes no cluster
from its context binds it at once, a DISSOLVE removes an unused parcel, and what a check refuses leaves every
parcel as it was; a PARCEL_SET that waits is installed once its kills have ended. SHARE_SET offers the context's
weight, which its active copy takes only at a tick boundary; a save or a restore without a task ends at once; and
an ADOPT of MODEL_SWITCH names a model without filling pages. -/
def Obligations.ParcelsSharesAndModels : Prop :=
  ((∀ (s : State) (m : Cmd), isPassed s m 0x0500 → psMode m = 0 → parcelCheck s m = none →
    boundTo s (psParcel m) = [] → calm s → s.saf.safe = false → bitAt m.flags 1 = false →
    ∃ t, exec .parcelDefine s = .next t ∧ answered s t m 0 0 0 ∧
      tget? t.psm.parcels (psParcel m) =
        some { clusters := psClusters m, chanMask := psChan m, wayMask := psWay m } ∧
      (∀ p, p ≠ psParcel m → tget? t.psm.parcels p = tget? s.psm.parcels p) ∧ t.psm.ops = []) ∧
  (∀ (s : State) (m : Cmd), isPassed s m 0x0500 → psMode m = 1 → parcelCheck s m = none → leaving s m (psCtx m) = 0 →
    thas s.saf.recov (psCtx m) = false → s.tge.steps = [] → calm s → s.saf.safe = false → bitAt m.flags 1 = false →
    ∃ t, exec .parcelBind s = .next t ∧ answered s t m 0 0 0 ∧ parcelOf t (psCtx m) = psParcel m ∧
      (∀ c, c ≠ psCtx m → parcelOf t c = parcelOf s c) ∧ t.psm.parcels = s.psm.parcels) ∧
  (∀ (s : State) (m : Cmd), isPassed s m 0x0500 → psMode m = 2 → parcelCheck s m = none → calm s →
    s.saf.safe = false → bitAt m.flags 1 = false →
    ∃ t, exec .parcelDissolve s = .next t ∧ answered s t m 0 0 0 ∧ tget? t.psm.parcels (psParcel m) = none ∧
      t.psm.bound = s.psm.bound) ∧
  (∀ (s : State) (m : Cmd) (status d : Nat), isPassed s m 0x0500 → parcelCheck s m = some (status, d) →
    s.saf.safe = false → status ≠ 0 →
    (psMode m = 0 ∨ psMode m = 3 → ∃ t, exec .parcelDefine s = .next t ∧ answered s t m status d 0 ∧ t.psm = s.psm) ∧
    (psMode m = 1 → ∃ t, exec .parcelBind s = .next t ∧ answered s t m status d 0 ∧ t.psm = s.psm) ∧
    (psMode m = 2 → ∃ t, exec .parcelDissolve s = .next t ∧ answered s t m status d 0 ∧ t.psm = s.psm)) ∧
  (∀ (s : State) (o : PsmOp), s.psm.ops = [o] → parcelDone s o = true →
    exec .parcelInstall s = .next (settle (completeOk (recheckSteps (installParcel s o) o.ctxs) o.cmd o.killed)) ∧
    (installParcel s o).psm.ops = [])) ∧
  ((∀ (s : State) (m : Cmd), isPassed s m 0x0501 → shareFault m = none → s.saf.safe = false → bitAt m.flags 1 = false →
    regBit s 0x980008 0 = false →
    ∃ t x, exec .shareSet s = .next t ∧ answered s t m 0 0 (s.gtb.now / policyTick + 1) ∧
      reg t (psmCtx (m.at 4 1) + 4) = m.at 8 2 ∧ t.mgc.offers = s.mgc.offers ++ [x] ∧ x.off = psmCtx (m.at 4 1) + 4 ∧
      x.v = m.at 8 2 ∧ ∀ c, ctxWeight t c = ctxWeight s c) ∧
  (∀ (s : State) (m : Cmd) (rest : List Cmd), isNext s m rest 0x0502 → t1Check s m 0 = none → t1Task m = 0x1FFFF →
    s.disp.runs = [] → thas s.saf.recov m.ctx = false → calm s → s.saf.safe = false → bitAt m.flags 1 = false →
    ∃ t, exec .ctxSave s = .next t ∧ answered s t m 0 0 0 ∧ t1State t m.ctx = 2 ∧ t.psm.ops = [] ∧
      regBit t (psmCtx m.ctx + 0xC) 31 = true) ∧
  (∀ (s : State) (m : Cmd) (rest : List Cmd), isNext s m rest 0x0503 → t1Check s m 2 = none → t1Task m = 0x1FFFF →
    calm s → s.saf.safe = false → bitAt m.flags 1 = false →
    ∃ t, exec .ctxRestore s = .next t ∧ answered s t m 0 0 0 ∧ t1State t m.ctx = 0 ∧ t.psm.ops = []) ∧
  (∀ (s : State) (m : Cmd) (rest : List Cmd), isNext s m rest 0x0504 → switchCheck s m = none → msAdopt m = true →
    s.saf.safe = false → bitAt m.flags 1 = false →
    ∃ t, exec .modelSwitch s = .next t ∧ answered s t m 0 0 0 ∧ tget 0 t.psm.model m.ctx = msModel m ∧
      t.psm.resident = s.psm.resident ∧ t.pat = s.pat) ∧
  (∀ (s : State) (m : Cmd) (rest : List Cmd) (g : Region), isNext s m rest 0x0504 → switchCheck s m = none →
    msAdopt m = false → msModel m ≠ 0 → msRegion s m = some g → unmappedPages s m.ctx g = [] → s.psm.ops = [] →
    s.saf.safe = false → bitAt m.flags 1 = false →
    ∃ t, exec .modelSwitch s = .next t ∧ answered s t m 0 0 0 ∧ tget 0 t.psm.model m.ctx = msModel m ∧
      t.psm.resident = msModel m ∧ t.psm.switching = false ∧ t.psm.ops = []) ∧
  (∀ (s : State) (c : Fin 64), ∃ t, exec (.psmCtxEng0LoRead c) s = .next t ∧ t.mem = s.mem ∧ t.regs = s.regs ∧
    t.psm.tally = s.psm.tally))

/-! ### Management -/

/-- FW_LOAD halts the cores and zeroes their memory; a load that ends well starts every core at the image's entry and
one that does not leaves none running. HALT stops every core at once and leaves every policy value, HOLD and the
calibration set as they were; so does the watchdog when its span is over. Items of an image's stream that were lost
are counted and flagged, and the load ends as it would without. -/
def Obligations.Firmware : Prop :=
  (∀ s : State, ∃ t, exec .halt s = .next t ∧ fwState t = 3 ∧
    (∀ k, k < Config.mgmtCores → (tget {} t.mgc.cores k).halted = true) ∧ t.mgc.active = s.mgc.active ∧
    t.mgc.offers = s.mgc.offers ∧ t.mgc.holds = s.mgc.holds ∧ t.mgc.holdNow = s.mgc.holdNow ∧
    t.mgc.ecs = s.mgc.ecs ∧ t.mgc.loads = s.mgc.loads ∧ t.mgc.sram = s.mgc.sram ∧
    (∀ o, o ≠ 0x980004 → reg t o = reg s o) ∧ t = { s with mgc := t.mgc, regs := t.regs }) ∧
  (∀ s : State, spanOver s = none → exec .wdogExpired s = .next s) ∧
  (∀ (s : State) (k : Nat), spanOver s = some k → s.saf.recQ.length < 32 →
    ∃ t e, exec .wdogExpired s = .next t ∧ fwState t = 3 ∧ regBit t 0x980004 29 = true ∧ t.mgc.span = none ∧
      (∀ k, k < Config.mgmtCores → (tget {} t.mgc.cores k).halted = true) ∧ t.mgc.active = s.mgc.active ∧
      t.saf.recQ = s.saf.recQ ++ [e] ∧ e.sev = 2 ∧ e.unit = 0x12 ∧ e.code = 0x70) ∧
  (∀ (s : State) (m : Cmd), isPassed s m 0x0600 → fwLoadFault m = none → fwBusy s = false →
    ∃ t, exec .fwLoad s = .next t ∧ fwState t = 1 ∧ t.mgc.loads = s.mgc.loads ++ [m] ∧ t.mgc.sram = [] ∧
      (∀ k, k < Config.mgmtCores → (tget {} t.mgc.cores k).halted = true) ∧ t.mgc.active = s.mgc.active ∧
      t.cau.inQ = s.cau.inQ.tail ∧ t.hif.cplQ = s.hif.cplQ) ∧
  (∀ (s : State) (m : Cmd), isPassed s m 0x0600 → fwLoadFault m = none → fwBusy s = true → s.saf.safe = false →
    ∃ t, exec .fwLoad s = .next t ∧ answered s t m 0x1F 0 0 ∧ t.mgc = s.mgc ∧ t.cau.slots = s.cau.slots) ∧
  (∀ (s : State) (m : Cmd) (d : Nat), isPassed s m 0x0600 → fwLoadFault m = some d → s.saf.safe = false →
    ∃ t, exec .fwLoad s = .next t ∧ answered s t m 0x10 d 0 ∧ t.mgc = s.mgc ∧ t.cau.slots = s.cau.slots) ∧
  (∀ (s : State) (m : Cmd) (err : Option Nat) (o : Nat), s.mgc.loads = [m] → s.saf.safe = false →
    fwReadFault { s with mgc := { s.mgc with loads := [] } } m err = some o →
    ∃ t, exec (.fwLoadDone err 0) s = .next t ∧ fwState t = 0 ∧ regBit t 0x980004 26 = true ∧
      t.mgc = { s.mgc with loads := [] } ∧ t.cau = s.cau ∧ answered s t m 0x13 (9 * 2 ^ 28 + o % 2 ^ 28) 0) ∧
  (∀ (s : State) (m : Cmd) (err : Option Nat) (b : List Byte) (code i : Nat), s.mgc.loads = [m] →
    s.saf.safe = false → fwReadFault { s with mgc := { s.mgc with loads := [] } } m err = none →
    readSrc s m.ctx (bitAt (m.at 4 1) 0) (m.at 8 8) (m.at 16 4) = some b → fwImageFault m b = some (code, i) →
    ∃ t, exec (.fwLoadDone err 0) s = .next t ∧ fwState t = 0 ∧ regBit t 0x980004 26 = true ∧
      t.mgc = { s.mgc with loads := [] } ∧ answered s t m 0x13 (code * 2 ^ 28 + i % 2 ^ 28) 0) ∧
  (∀ (s : State) (m : Cmd) (err : Option Nat) (b : List Byte), s.mgc.loads = [m] → s.saf.safe = false →
    bitAt m.flags 1 = false → fwReadFault { s with mgc := { s.mgc with loads := [] } } m err = none →
    readSrc s m.ctx (bitAt (m.at 4 1) 0) (m.at 8 8) (m.at 16 4) = some b → fwImageFault m b = none →
    ∃ t, exec (.fwLoadDone err 0) s = .next t ∧ fwState t = 2 ∧ t.mgc.loads = [] ∧
      (∀ k, k < Config.mgmtCores → tget {} t.mgc.cores k = { halted := false, pc := leAt b 20 4 }) ∧
      reg t 0x98000C = leAt b 8 4 ∧ reg t 0x980044 = 0 ∧
      (∀ k, k < 8 → reg t (0x880200 + 4 * k) = leAt b (leAt b 24 4 + 8 + 4 * k) 4) ∧
      regFld t 0x900014 15 0 = leAt b (leAt b 24 4 + 50) 2 ∧
      t.mgc.ecs = s.mgc.ecs ++ [(s.gtb.now, (List.range 5).map fun j => leAt b (leAt b 24 4 + 40 + 2 * j) 2)] ∧
      t.mgc.active = s.mgc.active ∧ answered s t m 0 0 (leAt b 8 4)) ∧
  (∀ (s : State) (m : Cmd) (rest : List Cmd) (err : Option Nat) (lost : Nat), s.mgc.loads = m :: rest → rest ≠ [] →
    ∃ t, exec (.fwLoadDone err lost) s = .next t ∧ fwState t = 1 ∧ t.mgc.loads = rest ∧ t.mgc.sram = [] ∧
      ∀ k, k < Config.mgmtCores → (tget {} t.mgc.cores k).halted = true) ∧
  (∀ (s : State) (err : Option Nat) (lost : Nat), s.mgc.loads ≠ [] →
    exec (.fwLoadDone err lost) s = exec (.fwLoadDone err 0) (streamLoss s 0x980060 lost 0x980004 25))

/-- Calibration items, kicks, tick acknowledgements, notices and the timer interrupt of the management cluster. What an
event does in a context that may receive one: with room in the ring an entry on its way there, whose write moves
EQ_PROD one on; with none the event is lost and counted; and in a context that is off and idle it is only counted. -/
def Obligations.FirmwareActsAndEvents : Prop :=
  ((∀ (s : State) (m : Cmd), isPassed s m 0x0601 → calWriteFault m = none → fwBusy s = false → m.at 4 1 = 0 →
    s.saf.safe = false → bitAt m.flags 1 = false →
    ∃ t, exec .calWrite s = .next t ∧ answered s t m 0 0 (reg t 0x980044) ∧
      (∀ k, k < 8 → reg t (0x880200 + 4 * k) =
        if bitAt (m.at 6 1) k then m.at (8 + 4 * k) 4 else reg s (0x880200 + 4 * k)) ∧
      reg t 0x980044 = (regFld s 0x980044 13 0 ||| m.at 6 1) + satAdd 16 (regFld s 0x980044 31 16) 1 * 2 ^ 16 ∧
      t.mgc = s.mgc) ∧
  (∀ (s : State) (m : Cmd), isPassed s m 0x0601 → calWriteFault m = none → fwBusy s = false → m.at 4 1 = 1 →
    s.saf.safe = false → bitAt m.flags 1 = false →
    ∃ t, exec .calWrite s = .next t ∧ answered s t m 0 0 (reg t 0x980044) ∧
      (∀ k, k < 8 → reg t (0x880200 + 4 * k) = reg s (0x880200 + 4 * k)) ∧
      t.mgc.ecs = (if m.at 6 1 % 32 = 0 then s.mgc.ecs else s.mgc.ecs ++ [(s.gtb.now, (List.range 5).map fun j =>
        if bitAt (m.at 6 1) j then m.at (8 + 2 * j) 2 else (calEnergy s).getD j 0)]) ∧
      regFld t 0x900014 15 0 = (if bitAt (m.at 6 1) 5 then m.at 18 2 else regFld s 0x900014 15 0)) ∧
  (∀ (s : State) (m : Cmd) (d : Nat), isPassed s m 0x0601 → calWriteFault m = some d → s.saf.safe = false →
    ∃ t, exec .calWrite s = .next t ∧ answered s t m 0x10 d 0 ∧ t.mgc = s.mgc ∧
      (s.hif.cplQ.length < 32 → t.regs = s.regs)) ∧
  (∀ s : State, pastBoundary s = false →
    exec .mgcWdogKick s = .next { s with mgc := { s.mgc with kicked := true } }) ∧
  (∀ s : State, pastBoundary s = true →
    exec .mgcWdogKick s = .next { s with mgc := { s.mgc with kickedNext := true } }) ∧
  (∀ (s : State) (k : Fin 8) (w : Word), ∃ t, exec (.mgcTickAck k w) s = .next t ∧ reg t 0x980038 = w.toNat ∧
    t.mgc.ackSeen = (if pastBoundary s then s.mgc.ackSeen else w.toNat) ∧
    (tget {} t.mgc.cores k.val).extPend = false ∧
    (∀ j, j ≠ k.val → tget {} t.mgc.cores j = tget {} s.mgc.cores j) ∧
    (∀ o, o ≠ 0x980038 → reg t o = reg s o) ∧ t = { s with mgc := t.mgc, regs := t.regs }) ∧
  (∀ (s : State) (k : Fin 8) (c : Fin 64), noticeBusy s = false → exec (.noticeGo k c) s = .next (raiseEvent
    (setRegFld s 0x980050 5 0 c) c 0x0170 0 k 0 (reg64 s 0x980048))) ∧
  (∀ (s : State) (k : Fin 8) (c : Fin 64), noticeBusy s = true →
    exec (.noticeGo k c) s = .next (setRegBit s 0x980004 27 true)) ∧
  (∀ (s : State) (k : Fin 8) (cmp : Nat) (reached : Bool), cmp < 2 ^ 64 →
    ∃ t, exec (.machineTimerInterrupt k cmp reached) s = .next t ∧ (tget {} t.mgc.cores k.val).mtimecmp = cmp ∧
      timerPending t k = decide (cmp ≤ nowNs t) ∧
      (∀ j, j ≠ k.val → tget {} t.mgc.cores j = tget {} s.mgc.cores j) ∧
      (reached = true → t.gtb = (advanceTo (nsUnits cmp) s).gtb) ∧ (reached = false → t = { s with mgc := t.mgc }))) ∧
  ((∀ (s : State) (c type sev src vint payload : Nat), c < 64 → ctxEnabled s c = true ∨ ctxIdle s c = false →
    eqFree s c = true → (hctx s c).evSince = 0 →
    (raiseEvent s c type sev src vint payload).hif.cplQ = s.hif.cplQ ++ [.event
      { ctx := c, type := type, sev := sev, src := src, vint := vint, payload := payload, stamp := cellarStamp s }] ∧
    (hctx (raiseEvent s c type sev src vint payload) c).eqProd = (hctx s c).eqProd ∧
    (raiseEvent s c type sev src vint payload).host = s.host) ∧
  (∀ (s : State) (e : EvEntry), (hctx (writeEvent s e) e.ctx).eqProd = cadd (hctx s e.ctx).eqProd 1 ∧
    ∀ d, d ≠ e.ctx → (hctx (writeEvent s e) d).eqProd = (hctx s d).eqProd) ∧
  (∀ (s : State) (c type sev src vint payload : Nat), c < 64 → eqFree s c = false →
    raiseEvent s c type sev src vint payload = dropEvent s c ∧
    (hctx (dropEvent s c) c).evSince = (hctx s c).evSince + 1 ∧
    regBit (dropEvent s c) (hifBase c + 4) 2 = true ∧
    reg (dropEvent s c) (hifBase c + 0x34) = satAdd 32 (reg s (hifBase c + 0x34)) 1 ∧ (dropEvent s c).host = s.host) ∧
  (∀ (s : State) (c type sev src vint payload : Nat), ctxEnabled s c = false → ctxIdle s c = true →
    raiseEvent s c type sev src vint payload = dropEvent s c))

/-- Firmware writes shadow values, which act only from a boundary on; with HOLD nothing is copied. A weight of 0 is
refused at the boundary and leaves the active value, and a RUN that becomes 0 pre-empts its context. -/
def Obligations.PolicyValues : Prop :=
  (∀ (s : State) (off k : Nat) (w : Word), policyMask off = some k →
    ∃ t x, exec (.policyShadowWrite off w) s = .next t ∧ reg t off = w.toNat &&& k ∧
      t.mgc.offers = s.mgc.offers ++ [x] ∧ x.off = off ∧ x.stamp = s.gtb.now ∧ x.v = w.toNat &&& k ∧
      (∀ o, policy t o = policy s o) ∧ (∀ o, o ≠ off → reg t o = reg s o) ∧
      t = { s with mgc := t.mgc, regs := t.regs }) ∧
  (∀ (s : State) (off : Nat) (w : Word), policyMask off = none → exec (.policyShadowWrite off w) s = .next s) ∧
  (∀ (s : State) (b : Bool), ∃ t, exec (.hold b) s = .next t ∧ regBit t 0x980008 0 = b ∧
    t.mgc.holds = s.mgc.holds ++ [(s.gtb.now, b)] ∧ t.mgc.holdNow = s.mgc.holdNow ∧ t.mgc.active = s.mgc.active ∧
    t = { s with mgc := t.mgc, regs := t.regs }) ∧
  (∀ (s : State) (b : Nat), s.mgc.holds = [] → s.mgc.holdNow = true → copyShadows s b = s) ∧
  (∀ (s : State) (b : Nat), s.mgc.holds = [] → s.mgc.holdNow = false → s.mgc.offers = [] → copyShadows s b = s) ∧
  (∀ (s : State) (b : Nat) (c : Fin 64) (x : Shadow), s.mgc.holds = [] → s.mgc.holdNow = false →
    s.mgc.offers = [x] → x.off = psmCtx c + 4 → x.stamp < b →
    (x.v % 65536 ≠ 0 → policy (copyShadows s b) (psmCtx c + 4) = x.v ∧
      ∀ o, o ≠ psmCtx c + 4 → policy (copyShadows s b) o = policy s o) ∧
    (x.v % 65536 = 0 → (∀ o, policy (copyShadows s b) o = policy s o) ∧
      regBit (copyShadows s b) 0x800000 31 = true)) ∧
  (∀ (s : State) (b : Nat) (x : Shadow), s.mgc.holds = [] → s.mgc.holdNow = false → s.mgc.offers = [x] →
    b ≤ x.stamp → copyShadows s b = s) ∧
  (∀ (s : State) (c : Fin 64) (v : Nat), bitAt v 31 = false → ctxRun s c = true →
    copyShadow s (psmCtx c + 8, v) = preempt (activate s (psmCtx c + 8) v) c) ∧
  (∀ (s : State) (n : Nat), (mgcTick s n).mgc.tick = n ∧ (mgcTick s n).mgc.active = s.mgc.active ∧
    (∀ k c, fwState s = 2 → tget? s.mgc.cores k = some c → bitAt (reg s 0x980058) k = true →
      (tget {} (mgcTick s n).mgc.cores k).extPend = true) ∧
    (fwState s ≠ 2 → (mgcTick s n).mgc.cores = s.mgc.cores) ∧
    (s.mgc.ackSeen ≠ s.mgc.tick % 2 ^ 32 →
      regBit (mgcTick s n) 0x980004 28 = true ∧ reg (mgcTick s n) 0x98003C = satAdd 32 (reg s 0x98003C) 1)) ∧
  (∀ (s : State) (lat : List Nat), exec (.policyTickBoundary lat) s = .next (settle (
    let b := nextBoundary s * policyTick
    let u := advanceTo b (countLate s (inJump s b))
    let v := copyShadows u b
    let v := fieldsReach (if isLow v then checkLow (isLow u) v else { v with pat := { v.pat with lowSent := false } })
    let v := ((v.disp.runs.filter fun e => e.2.state == 3).map fun e => e.1).foldl chargeRun v
    let v := (List.range Config.numFields).foldl (clockRecord b) (useEnergy (closeAccounts v v.mgc.tick lat) b)
    mgcTick { v with gtb := { v.gtb with tickEdge := none } } (nextBoundary s))))

/-! ### The safety supervisor -/

/-- SAF enters the safe state in the very command that accepts a record of severity fatal: the state that the
acceptance leaves is safe already, before the command ends, and SAF_FAULT_N is low in it. -/
def Obligations.FatalRecordEntersSafeState : Prop :=
  ∀ (s : State) (e : Rec) (rest : List Rec), s.saf.recQ = e :: rest → e.sev = 3 →
    ∃ u, exec .errorRecord s = .next (settle u) ∧ u = acceptRec { s with saf := { s.saf with recQ := rest } } e ∧
      u.saf.safe = true ∧ safFaultN u = false

/-- One bad copy of a duplicated word is replaced by the clean one, with an ECC_UE record of severity warning. -/
def Obligations.CleanCopyRepairs : Prop :=
  ∀ (s : State) (k : Fin 23) (index : Nat) (f : Fin 6), k.val ≤ 2 → f.val = 2 ∨ f.val = 3 → s.saf.recQ.length < 32 →
    ∃ t e, exec (.scrub k index f none) s = .next t ∧
      t.saf.recQ = s.saf.recQ ++ [e] ∧ e.sev = 1 ∧ e.code = 0x02 ∧ e.param = index % 2 ^ 64 ∧
      reg t 0xA0001C = satAdd 32 (reg s 0xA0001C) 1 ∧
      (k.val = 0 → f.val = 2 → tget? t.tge.cntA index = tget? s.tge.cntB index ∧ t.tge.cntB = s.tge.cntB) ∧
      (k.val = 0 → f.val = 3 → tget? t.tge.cntB index = tget? s.tge.cntA index ∧ t.tge.cntA = s.tge.cntA) ∧
      (k.val = 1 → f.val = 2 → tget? t.syn.objA index = tget? s.syn.objB index ∧ t.syn.objB = s.syn.objB) ∧
      (k.val = 1 → f.val = 3 → tget? t.syn.objB index = tget? s.syn.objA index ∧ t.syn.objA = s.syn.objA) ∧
      (k.val = 2 → f.val = 2 → tget? t.saf.ledA index = tget? s.saf.ledB index ∧ t.saf.ledB = s.saf.ledB) ∧
      (k.val = 2 → f.val = 3 → tget? t.saf.ledB index = tget? s.saf.ledA index ∧ t.saf.ledA = s.saf.ledA)

/-- SAF takes the oldest record into its ring under the next number and sets its sticky flag; the diagnostic reads show
a record's eight words in order. The comparators and the scrubbers: what each finding does. -/
def Obligations.ErrorsAndScrubbing : Prop :=
  ((∀ (s : State) (e : Rec) (rest : List Rec), s.saf.recQ = e :: rest → e.sev < 3 → calm s →
    e.sev < regFld s 0xA00000 1 0 →
    ∃ t, exec .errorRecord s = .next t ∧ t.saf.recQ = rest ∧
      tget? t.saf.ring (reg s 0xA00008 % 1024) = some { e with seq := reg s 0xA00008 } ∧
      (∀ k, k ≠ reg s 0xA00008 % 1024 → tget? t.saf.ring k = tget? s.saf.ring k) ∧
      reg t 0xA00008 = (reg s 0xA00008 + 1) % 2 ^ 32 ∧ (e.sev = 2 → regBit t 0xA00004 30 = true) ∧
      (e.sev = 1 → regBit t 0xA00004 29 = true) ∧ t.saf.safe = s.saf.safe ∧
      t = { s with saf := t.saf, regs := t.regs }) ∧
  (∀ s : State, s.saf.recQ = [] → calm s → exec .errorRecord s = .next s) ∧
  (∀ (s : State) (e : Rec), e.sev = 1 ∨ e.sev = 2 → regFld s 0xA00000 1 0 ≤ e.sev →
    acceptRec s e = (recTargets s { e with seq := reg s 0xA00008 }).foldl
      (fun u c => raiseEvent u c 0x0006 e.sev e.unit 0 (reg s 0xA00008))
      (setRegBit (setReg { s with saf := { s.saf with
          ring := tput s.saf.ring (reg s 0xA00008 % 1024) { e with seq := reg s 0xA00008 } } }
        0xA00008 (reg s 0xA00008 + 1)) 0xA00004 (if e.sev = 2 then 30 else 29) true)) ∧
  (∀ (s : State) (w : Word), ∃ t, exec (.safRecSelWrite w) s = .next t ∧ reg t 0xA00010 = w.toNat ∧
    t.saf.recPos = 0 ∧ (∀ o, o ≠ 0xA00010 → reg t o = reg s o) ∧ t = { s with saf := t.saf, regs := t.regs }) ∧
  (∀ (s : State) (r : Rec), tget? s.saf.ring (reg s 0xA00010 % 1024) = some r → r.seq = reg s 0xA00010 →
    ∃ t, exec .safRecDataRead s = .next t ∧ t.hif.rdata = recWord r (s.saf.recPos % 8) ∧
      t.saf.recPos = s.saf.recPos + 1 ∧ t.saf.ring = s.saf.ring ∧ t.regs = s.regs ∧ t.mem = s.mem) ∧
  (∀ s : State, tget? s.saf.ring (reg s 0xA00010 % 1024) = none →
    ∃ t, exec .safRecDataRead s = .next t ∧ t.hif.rdata = 0)) ∧
  ((∀ (s : State) (p : Fin 32), exec (.comparatorTest p true false) s = .next s) ∧
  (∀ (s : State) (p : Fin 32) (ok diff : Bool), isPath p.val = false → exec (.comparatorTest p ok diff) s = .next s) ∧
  (∀ (s : State) (p : Fin 32), isPath p.val = true → s.saf.recQ.length < 32 →
    ∃ t e, exec (.comparatorTest p false false) s = .next t ∧ t.saf.recQ = s.saf.recQ ++ [e] ∧ e.sev = 3 ∧
      e.unit = 0x13 ∧ e.code = 0x23 ∧ e.detail = p.val ∧ t.regs = s.regs) ∧
  (∀ (s : State) (p : Fin 32), isPath p.val = true → s.saf.recQ.length < 32 →
    ∃ t e, exec (.comparatorTest p true true) s = .next t ∧ t.saf.recQ = s.saf.recQ ++ [e] ∧ e.sev = 3 ∧
      e.unit = 0x13 ∧ e.code = 0x20 ∧ e.detail = p.val ∧ t.regs = s.regs) ∧
  (∀ (s : State) (k : Fin 23) (index : Nat), s.saf.recQ.length < 32 →
    ∃ t e, exec (.scrub k index 1 none) s = .next t ∧ t.saf.recQ = s.saf.recQ ++ [e] ∧ e.sev = 0 ∧ e.code = 0x01 ∧
      reg t 0xA00018 = satAdd 32 (reg s 0xA00018) 1 ∧ regBit t 0xA00004 28 = true ∧ t.tge = s.tge ∧ t.syn = s.syn) ∧
  (∀ (s : State) (k : Fin 23) (index : Nat), ∃ t, exec (.scrub k index 5 none) s = .next t ∧
    reg t 0xA00020 = satAdd 32 (reg s 0xA00020) 1 ∧ t = { s with regs := t.regs }) ∧
  (∀ (s : State) (index : Nat), cntA s index = cntB s index → calm s → exec (.scrub 0 index 0 none) s = .next s) ∧
  (∀ (s : State) (index : Nat), cntA s index ≠ cntB s index → taskStepRuns s index = false → calm s →
    s.saf.recQ.length < 32 →
    ∃ t e, exec (.scrub 0 index 0 none) s = .next t ∧ cntA t index = 0 ∧ cntB t index = 0 ∧
      t.saf.recQ = s.saf.recQ ++ [e] ∧ e.sev = 1 ∧ e.code = 0x10 ∧ t.asks = [] ∧ t.saf.recov = s.saf.recov) ∧
  (∀ (s : State) (index c : Nat), cntA s index ≠ cntB s index → taskStepRuns s index = true →
    taskOwner s index = some c →
    exec (.scrub 0 index 0 none) s = .next (settle (divergeCounter s c index))) ∧
  (∀ (s : State) (index : Nat), objOf s index = none → tget 0 s.syn.freeB index ≠ 0 → calm s →
    s.saf.recQ.length < 32 →
    ∃ t e, exec (.scrub 1 index 0 none) s = .next t ∧ tget 0 t.syn.freeB index = 0 ∧
      t.saf.recQ = s.saf.recQ ++ [e] ∧ e.sev = 1 ∧ e.code = 0x11 ∧ t.syn.objA = s.syn.objA ∧ t.asks = []))

/-- A recovery whose killed commands have ended clears what its context had waiting and rebuilds its counters from
the ledger; then its tasks re-enter, unless they are done, wait or are on their way. -/
def Obligations.Recoveries : Prop :=
  (∀ s : State, (∀ e ∈ s.saf.recov, ¬((e.2 = 3 ∨ (e.2 = 4 ∧ redoDue s e.1 = true)) ∧ rebuildDue s e.1 = true)) →
    exec .recoveryRebuild s = .next s) ∧
  (∀ (s : State) (c : Nat), s.saf.recov = [(c, 4)] → redoDue s c = true → rebuildDue s c = true →
    exec .recoveryRebuild s = .next (settle (
      let u := (recoverySteps s c).foldl (fun v e => (imgTasks e.2).foldl (rebuildTask c (doneEdges v e.2)) v) s;
      { u with saf := { u.saf with recov := tput u.saf.recov c 5 } }))) ∧
  (∀ (s : State) (c : Nat), s.saf.recov = [(c, 3)] → rebuildDue s c = true → recoverySteps s c = [] →
    calm s →
    ∃ t, exec .recoveryRebuild s = .next t ∧ t.saf.recov = [(c, 5)] ∧
      (∀ r ∈ t.disp.ready, r.ctx = c → r.t1 ≠ none) ∧ (∀ x ∈ t.disp.timers, x.ctx ≠ c) ∧ t.tge.cntA = s.tge.cntA) ∧
  (∀ (s : State) (c : Nat) (q : List (Nat × Nat)), s.saf.recov = (c, 3) :: q → rebuildDue s c = true →
    exec .recoveryRebuild s = .next (settle (
      let u := (recoverySteps (clearForRebuild s c) c).foldl (fun v e =>
        (imgTasks e.2).foldl (rebuildTask c (doneEdges v e.2)) v) (clearForRebuild s c);
      { u with saf := { u.saf with recov := tput u.saf.recov c 5 } }))) ∧
  (∀ (s : State) (c t : Nat) (dones : Table Nat), tget {} s.saf.ledA t = tget {} s.saf.ledB t → isDone s t = false →
    tdKind (descOf s t) ≠ 2 →
    b2n (tget {} s.saf.ledA t).waited + tget 0 dones t ≤ tdInCount (descOf s t) →
    (tget {} s.saf.ledA t).done = false →
    rebuildTask c dones s t = setCounter s t (counterWord false (tdInCount (descOf s t))
      (tdInCount (descOf s t) - (b2n (tget {} s.saf.ledA t).waited + tget 0 dones t)))) ∧
  (∀ (s : State) (c : Nat), s.saf.recov = [(c, 5)] → (∀ f ∈ s.saf.frozen, f.2.ctx ≠ c) → recoverySteps s c = [] →
    calm s → c < 64 →
    ∃ t, exec .recoveryReentry s = .next t ∧ t.saf.recov = [] ∧
      regFld t (0xA01000 + 4 * c) 15 0 = satAdd 16 (regFld s (0xA01000 + 4 * c) 15 0) 1 ∧
      t = { s with saf := t.saf, regs := t.regs }) ∧
  (∀ s : State, (∀ e ∈ s.saf.recov, e.2 ≠ 5) → exec .recoveryReentry s = .next s) ∧
  (∀ (s : State) (i c t : Nat), tget {} s.saf.ledA t = tget {} s.saf.ledB t →
    isDone s t = true ∨ cwCount (cntA s t) ≠ 0 ∨ underWay s i t = true → reenterTask i c s t = s) ∧
  (∀ (s : State) (i c t : Nat), tget {} s.saf.ledA t = tget {} s.saf.ledB t → isDone s t = false →
    cwCount (cntA s t) = 0 → underWay s i t = false →
    tdKind (descOf s t) ≠ 2 → tdKind (descOf s t) ≠ 4 → tdKind (descOf s t) ≠ 5 → tget? s.saf.kept t = none →
    reenterTask i c s t = pushReady s (readyEntry s i c t none none))

/-! ### Row execution units -/

/-- What a command of one unit leaves: every other unit, the images and the element program as they were, and nothing
outside the units changed. -/
def rexFrame (s t : State) (u : Nat) : Prop :=
  t = { s with rex := t.rex } ∧ t.rex.imgs = s.rex.imgs ∧ t.rex.ep = s.rex.ep ∧
  ∀ v, v ≠ u → unitOf t v = unitOf s v

/-- Instruction images: a region may be moved only while its context is off and idle; an accepted IMAGE_LOAD fills the
buffer that is not active, and ACTIVE moves only when the image has come whole and its CRC holds. Element programs
run on an idle unit taken offline: a start that the rule refuses only says so; at the end each word of the result
tile is the program's value for the words of its two sources, and every other tile is as it was. The tile window
reads and writes such a unit's words, each access moving ELEM on. -/
def Obligations.ImagesAndElementPrograms : Prop :=
  ((∀ (s : State) (c : Fin 64) (w : Word) (hi : Bool), rexCfgOpen s c = true →
    ∃ t, exec (.rexIregWrite c hi w) s = .next t ∧
      reg t (rexCtx c + if hi then 4 else 0) = (if hi then w.toNat else w.toNat / 2 ^ 21 * 2 ^ 21) ∧
      (∀ i x, i < 16 → tget? t.rex.imgs (16 * c + i) = some x → x.len0 = none ∧ x.len1 = none) ∧
      (∀ k, k / 16 ≠ c.val → tget? t.rex.imgs k = tget? s.rex.imgs k) ∧ t.rex.units = s.rex.units ∧
      t = { s with rex := t.rex, regs := t.regs }) ∧
  (∀ (s : State) (c : Fin 64) (w : Word) (hi : Bool), rexCfgOpen s c = false →
    exec (.rexIregWrite c hi w) s = .next (setRegBit s (rexCtx c + 0x1C) 31 true)) ∧
  (∀ (s : State) (m : Cmd) (rest : List Cmd), isNext s m rest 0x0104 → imageOperand m = none →
    iregOf s m.ctx ≠ 0 → genInUse s m.ctx (ilImg m) (ilTarget s m) = false →
    (rimgOf s m.ctx (ilImg m)).loading = none →
    ∃ t, exec .imageLoad s = .next t ∧ (rimgOf t m.ctx (ilImg m)).loading = some (m, ilTarget s m) ∧
      (rimgOf t m.ctx (ilImg m)).len (ilTarget s m) = none ∧
      (rimgOf t m.ctx (ilImg m)).len (1 - ilTarget s m) = (rimgOf s m.ctx (ilImg m)).len (1 - ilTarget s m) ∧
      (rimgOf t m.ctx (ilImg m)).active = (rimgOf s m.ctx (ilImg m)).active ∧ t.hif.unitQ = rest ∧
      t.hif.cplQ = s.hif.cplQ ∧ t = { s with hif := t.hif, rex := t.rex }) ∧
  (∀ (s : State) (m : Cmd) (rest : List Cmd) (d : Nat), isNext s m rest 0x0104 → imageOperand m = some d →
    s.saf.safe = false → ∃ t, exec .imageLoad s = .next t ∧ answered s t m 0x10 d 0 ∧ t.rex = s.rex) ∧
  (∀ (s : State) (m : Cmd) (rest : List Cmd), isNext s m rest 0x0104 → imageOperand m = none →
    s.saf.safe = false → iregOf s m.ctx = 0 →
    ∃ t, exec .imageLoad s = .next t ∧ answered s t m 0x10 4 0 ∧ t.rex = s.rex) ∧
  (∀ (s : State) (m : Cmd) (rest : List Cmd), isNext s m rest 0x0104 → imageOperand m = none →
    s.saf.safe = false → iregOf s m.ctx ≠ 0 →
    genInUse s m.ctx (ilImg m) (ilTarget s m) = true ∨ (rimgOf s m.ctx (ilImg m)).loading ≠ none →
    ∃ t, exec .imageLoad s = .next t ∧ answered s t m 0x0D (ilTarget s m + 16 * ilImg m) 0 ∧ t.rex = s.rex) ∧
  (∀ (s : State) (c : Fin 64) (i : Fin 16) (m : Cmd) (k d : Nat) (err : Option Nat) (lost : Nat) (v : State),
    (rimgOf s c i).loading = some (m, k) → k < 2 → v = streamLoss s 0x680010 lost 0x680004 3 →
    least (imageReadFault v m err) (imageWriteFault v c (genVa v c i k) (ilBytes m)) = some d →
    exec (.imageLoadDone c i err lost) s = .next (failImage (unitWrite v c (genVa v c i k)
      ((readSrc v c (bitAt (m.at 5 1) 0) (m.at 8 8) d).getD [])).1 m (9 * 2 ^ 28 + d))) ∧
  (∀ (s : State) (c : Fin 64) (i : Fin 16) (m : Cmd) (k : Nat) (b : List Byte) (err : Option Nat) (lost : Nat)
    (v : State),
    (rimgOf s c i).loading = some (m, k) → k < 2 → v = streamLoss s 0x680010 lost 0x680004 3 →
    least (imageReadFault v m err) (imageWriteFault v c (genVa v c i k) (ilBytes m)) = none →
    readSrc v c (bitAt (m.at 5 1) 0) (m.at 8 8) (ilBytes m) = some b →
    exec (.imageLoadDone c i err lost) s =
      .next (judgeImage (unitWrite v c (genVa v c i k) b).1 m k (crc64 b == m.at 24 8))) ∧
  (∀ (s : State) (m : Cmd) (g : Nat), g < 2 → s.saf.safe = false → bitAt m.flags 1 = false →
    (rimgOf (endImage s m g) m.ctx (ilImg m)).active = g ∧
    (rimgOf (endImage s m g) m.ctx (ilImg m)).len g = some (ilBytes m / 8) ∧
    (rimgOf (endImage s m g) m.ctx (ilImg m)).loading = none ∧
    answered s (endImage s m g) m 0 0 (g + ((rimgOf s m.ctx (ilImg m)).loads + 1) % 2 ^ 32 * 2 ^ 32)) ∧
  (∀ (s : State) (m : Cmd) (d : Nat), s.saf.safe = false →
    (rimgOf (failImage s m d) m.ctx (ilImg m)).active = (rimgOf s m.ctx (ilImg m)).active ∧
    (rimgOf (failImage s m d) m.ctx (ilImg m)).loading = none ∧ answered s (failImage s m d) m 0x13 d 0)) ∧
  ((∀ (s : State) (w : Word), bitAt w.toNat 31 = false →
    exec (.epStart w) s = .next (setReg s 0x680100 (setFld (setFld (setFld w.toNat 31 31 0) 29 29 0) 16 16 0))) ∧
  (∀ (s : State) (w : Word), bitAt w.toNat 31 = true →
    rexFree s (fld w.toNat 28 22) = false ∨ s.rex.ep ≠ none ∨
      (∃ k, k ≤ fld w.toNat 21 17 ∧ 0x14 < fld (reg s (0x680180 + 4 * k)) 31 27) →
    exec (.epStart w) s = .next (setRegBit s 0x680104 2 true)) ∧
  (∀ (s : State) (w : Word), bitAt w.toNat 31 = true → rexFree s (fld w.toNat 28 22) = true → s.rex.ep = none →
    (∀ k, k ≤ fld w.toNat 21 17 → fld (reg s (0x680180 + 4 * k)) 31 27 ≤ 0x14) →
    ∃ t ctl, exec (.epStart w) s = .next t ∧ fld ctl 28 22 = fld w.toNat 28 22 ∧ fld ctl 15 0 = fld w.toNat 15 0 ∧
      t.rex.ep = some (ctl, (List.range (fld w.toNat 21 17 + 1)).map fun k => reg s (0x680180 + 4 * k)) ∧
      t.rex.units = s.rex.units ∧ t = { s with rex := t.rex, regs := t.regs }) ∧
  (∀ s : State, s.rex.ep = none → exec .epDone s = .next s) ∧
  (∀ (s : State) (ctl : Nat) (ops : List Nat), s.rex.ep = some (ctl, ops) →
    ∃ t, exec .epDone s = .next t ∧ t.rex.ep = none ∧ regBit t 0x680104 1 = true ∧
      (∀ e, e < 4096 → tileWord (unitOf t (fld ctl 28 22)) (fld ctl 7 4) e =
        (ops.foldl epStep [tileWord (unitOf s (fld ctl 28 22)) (fld ctl 15 12) e,
          tileWord (unitOf s (fld ctl 28 22)) (fld ctl 11 8) e, e, 0, 0, 0, 0, 0]).getD 7 0) ∧
      (∀ k e, k ≠ fld ctl 7 4 → e < 4096 →
        tileWord (unitOf t (fld ctl 28 22)) k e = tileWord (unitOf s (fld ctl 28 22)) k e) ∧
      (∀ v, v ≠ fld ctl 28 22 → unitOf t v = unitOf s v) ∧ t = { s with rex := t.rex, regs := t.regs }) ∧
  (∀ (s : State) (u : Fin 128) (w : Word), s.rex.ep ≠ none →
    exec (.offline u w) s = .next (setRegBit s 0x680104 2 true)) ∧
  (∀ (s : State) (u : Fin 128) (w : Word), s.rex.ep = none →
    ∃ t, exec (.offline u w) s = .next t ∧ (tget {} t.disp.rex u).offline = bitAt w.toNat 31 ∧
      (tget {} t.disp.rex u).failed = (tget {} s.disp.rex u).failed ∧
      (∀ v, v ≠ u.val → tget {} t.disp.rex v = tget {} s.disp.rex v) ∧ t = { s with disp := t.disp }) ∧
  (∀ (s : State) (sel : Nat) (w : Word), reg s 0x680114 = sel → rexFree s (fld sel 31 25) = true →
    epUnit s ≠ some (fld sel 31 25) →
    ∃ t, exec (.rexTileData (some w)) s = .next t ∧
      tileWord (unitOf t (fld sel 31 25)) (fld sel 24 21) (fld sel 11 0) = w.toNat ∧
      regFld t 0x680114 11 0 = (fld sel 11 0 + 1) % 4096 ∧ regFld t 0x680114 31 12 = fld sel 31 12 ∧
      (∀ v, v ≠ fld sel 31 25 → unitOf t v = unitOf s v) ∧ t = { s with rex := t.rex, regs := t.regs }) ∧
  (∀ (s : State) (sel : Nat), reg s 0x680114 = sel → rexFree s (fld sel 31 25) = true →
    epUnit s ≠ some (fld sel 31 25) →
    ∃ t, exec (.rexTileData none) s = .next t ∧
      t.hif.rdata = tileWord (unitOf s (fld sel 31 25)) (fld sel 24 21) (fld sel 11 0) ∧
      regFld t 0x680114 11 0 = (fld sel 11 0 + 1) % 4096 ∧ t.rex = s.rex) ∧
  (∀ (s : State) (sel : Nat) (w : Word), reg s 0x680114 = sel → rexFree s (fld sel 31 25) = false →
    ∃ t, exec (.rexTileData (some w)) s = .next t ∧ t.rex = s.rex ∧ regBit t 0x680104 2 = true) ∧
  (∀ (s : State) (sel : Nat), reg s 0x680114 = sel → rexFree s (fld sel 31 25) = false →
    ∃ t, exec (.rexTileData none) s = .next t ∧ t.rex = s.rex ∧ t.hif.rdata = 0 ∧ regBit t 0x680104 2 = true))

/-- The unit, the stream (true: execute) and the opcode of an instruction of a unit's program; END is apart, since it
also ends a killed command. -/
def rexOp : Instr → Option (Fin 128 × Bool × Nat)
  | .rexNop u x => some (u, x, 0x00)
  | .loop u x => some (u, x, 0x02)
  | .qbar u x => some (u, x, 0x03)
  | .ld u => some (u, false, 0x08)
  | .st u => some (u, false, 0x09)
  | .ldq u => some (u, false, 0x0A)
  | .stq u => some (u, false, 0x0B)
  | .dig u => some (u, false, 0x0C)
  | .accld u => some (u, false, 0x0D)
  | .accst u => some (u, false, 0x0E)
  | .accadd u => some (u, false, 0x0F)
  | .send u => some (u, false, 0x10)
  | .blendInstr u => some (u, false, 0x11)
  | .sig u => some (u, false, 0x12)
  | .add u => some (u, true, 0x20)
  | .sub u => some (u, true, 0x21)
  | .mul u => some (u, true, 0x22)
  | .fma u => some (u, true, 0x23)
  | .min u => some (u, true, 0x24)
  | .max u => some (u, true, 0x25)
  | .abs u => some (u, true, 0x26)
  | .neg u => some (u, true, 0x27)
  | .rcp u => some (u, true, 0x28)
  | .rsq u => some (u, true, 0x29)
  | .sqrt u => some (u, true, 0x2A)
  | .mov u => some (u, true, 0x2B)
  | .cvt u => some (u, true, 0x2C)
  | .swu u => some (u, true, 0x2D)
  | .red u => some (u, true, 0x30)
  | .scan u => some (u, true, 0x31)
  | .sscan u => some (u, true, 0x32)
  | .accw u => some (u, true, 0x33)
  | .accz u => some (u, true, 0x34)
  | .accsum u => some (u, true, 0x35)
  | _ => none

/-- The instruction that a stream issues: command `r`, which is `x`, at index `pc`, the word `w` of opcode `op`. -/
def issues (s : State) (u : Nat) (exe : Bool) (op r : Nat) (x : Run) (pc w : Nat) : Prop :=
  issueAt s u exe op = .go r x pc w

/-- A stream past the instruction at its pc: the next one, or the first of the loop that ends there. -/
def movedOn (t : RexStream) : RexStream :=
  advancePc { t with pc := t.pc + 1, rows := 0, held := [], undo := [] } 5

/-- An instruction whose stream does not stand at it does nothing; a stream that meets a missing line, the end of the
image or a reserved opcode stops as the rules say; a filled line lets a miss end. NOP, LOOP, QBAR and END act as the
stream control describes them. -/
def Obligations.StreamControl : Prop :=
  (∀ (c : Instr) (s : State) (u : Fin 128) (exe : Bool) (op : Nat), rexOp c = some (u, exe, op) →
    issueAt s u exe op = .none → ∃ n, exec c s = .next { s with fresh := n }) ∧
  (∀ (c : Instr) (s t : State) (u : Fin 128) (exe : Bool) (op : Nat), rexOp c = some (u, exe, op) → op ≠ 0x33 →
    issueAt s u exe op = .stop t → exec c s = .next (settle t)) ∧
  (∀ (s : State) (u : Fin 128), (unitOf s u).miss = none → exec (.icacheFill u) s = .next s) ∧
  (∀ (s : State) (u : Fin 128) (key r : Nat) (x : Run) (b : List Byte), (unitOf s u).miss = some key →
    (unitOf s u).run = some r → runOf s r = some x → (unitOf s u).starting = false → calm s →
    (unitOf s u).lines.length < 256 →
    readVirt s x.ctx (genVa s x.ctx (key / 8192 % 16) (key / 4096 % 2) + key % 4096 * 256) 256 = some b →
    ∃ t, exec (.icacheFill u) s = .next t ∧ rexFrame s t u ∧ (unitOf t u).miss = none ∧
      (unitOf t u).lines = (unitOf s u).lines ++ [(key, b)] ∧ (unitOf t u).acc = (unitOf s u).acc ∧
      (unitOf t u).exe = (unitOf s u).exe ∧ (unitOf t u).tiles = (unitOf s u).tiles) ∧
  (∀ (s : State) (u : Fin 128) (exe : Bool) (r : Nat) (x : Run) (pc w : Nat), issues s u exe 0x00 r x pc w →
    ∃ t, exec (.rexNop u exe) s = .next t ∧ rexFrame s t u ∧
      strOf (unitOf t u) exe = movedOn (strOf (unitOf s u) exe) ∧
      strOf (unitOf t u) (!exe) = strOf (unitOf s u) (!exe) ∧ (unitOf t u).tiles = (unitOf s u).tiles ∧
      (unitOf t u).accf = (unitOf s u).accf ∧ (unitOf t u).aq = (unitOf s u).aq) ∧
  (∀ (s : State) (u : Fin 128) (exe : Bool) (r : Nat) (x : Run) (pc w n : Nat), issues s u exe 0x02 r x pc w →
    (strOf (unitOf s u) exe).loops = [] → fld w 16 0 ≠ 0 →
    (rimgOf s x.ctx (unitOf s u).img).len (unitOf s u).gen = some n → pc + 1 + fld w 16 0 ≤ n →
    ∃ t, exec (.loop u exe) s = .next t ∧ rexFrame s t u ∧ (strOf (unitOf t u) exe).pc = pc + 1 ∧
      (strOf (unitOf t u) exe).loops =
        [{ lv := fld w 51 50, first := pc + 1, stop := pc + 1 + fld w 16 0, left := fld w 47 32 }] ∧
      tget 0 (strOf (unitOf t u) exe).idx (fld w 51 50) = 0 ∧
      strOf (unitOf t u) (!exe) = strOf (unitOf s u) (!exe) ∧ (unitOf t u).tiles = (unitOf s u).tiles) ∧
  (∀ (s : State) (u : Fin 128) (exe : Bool) (r : Nat) (x : Run) (pc w : Nat), issues s u exe 0x02 r x pc w →
    fld w 16 0 = 0 ∨ (∃ l ∈ (strOf (unitOf s u) exe).loops, l.lv = fld w 51 50) →
    exec (.loop u exe) s = .next (settle (progFault s u r x 3 pc 0))) ∧
  (∀ (t : RexStream) (l : RexLoop) (ls : List RexLoop) (n : Nat), t.loops = l :: ls → t.pc = l.stop → 0 < l.left →
    (advancePc t (n + 1)).pc = l.first ∧ (advancePc t (n + 1)).loops = { l with left := l.left - 1 } :: ls ∧
    tget 0 (advancePc t (n + 1)).idx l.lv = tget 0 t.idx l.lv + 1) ∧
  (∀ (s : State) (u : Fin 128) (exe : Bool) (r : Nat) (x : Run) (pc w : Nat), issues s u exe 0x03 r x pc w →
    (strOf (unitOf s u) (!exe)).bar = none ∨
      ((unitOf s u).late ≠ [] ∧ (strOf (unitOf s u) (!exe)).bar = some (fld w 51 44)) →
    ∃ t, exec (.qbar u exe) s = .next t ∧ rexFrame s t u ∧ (strOf (unitOf t u) exe).bar = some (fld w 51 44) ∧
      (strOf (unitOf t u) exe).pc = pc ∧ strOf (unitOf t u) (!exe) = strOf (unitOf s u) (!exe)) ∧
  (∀ (s : State) (u : Fin 128) (exe : Bool) (r : Nat) (x : Run) (pc w : Nat), issues s u exe 0x03 r x pc w →
    (unitOf s u).late = [] → (strOf (unitOf s u) (!exe)).bar = some (fld w 51 44) →
    ∃ t, exec (.qbar u exe) s = .next t ∧ rexFrame s t u ∧
      strOf (unitOf t u) exe = movedOn (strOf (unitOf s u) exe) ∧
      strOf (unitOf t u) (!exe) = movedOn { strOf (unitOf s u) (!exe) with bar := none }) ∧
  (∀ (s : State) (u : Fin 128) (exe : Bool) (r : Nat) (x : Run) (pc w k : Nat), issues s u exe 0x03 r x pc w →
    (strOf (unitOf s u) (!exe)).bar = some k → k ≠ fld w 51 44 →
    exec (.qbar u exe) s = .next (settle (progFault s u r x 3 (if exe then pc else (unitOf s u).exe.pc) 0))) ∧
  (∀ (s : State) (u : Fin 128) (exe : Bool) (r : Nat) (x : Run) (pc w : Nat), issues s u exe 0x01 r x pc w →
    (unitOf s u).run = some r → runOf s r = some x → x.killAt = none →
    ((strOf (unitOf s u) exe).loops ≠ [] → exec (.rexEnd u exe) s = .next (settle (progFault s u r x 3 pc 0))) ∧
    ((strOf (unitOf s u) exe).loops = [] → (strOf (unitOf s u) (!exe)).bar ≠ none →
      exec (.rexEnd u exe) s = .next (settle (progFault s u r x 3 (strOf (unitOf s u) (!exe)).pc 0)))) ∧
  (∀ (s : State) (u : Fin 128) (exe : Bool) (r : Nat) (x : Run) (pc w : Nat), issues s u exe 0x01 r x pc w →
    (unitOf s u).run = some r → runOf s r = some x → x.killAt = none → (strOf (unitOf s u) exe).loops = [] →
    (strOf (unitOf s u) (!exe)).bar = none →
    (strOf (unitOf s u) (!exe)).done = false ∨ (unitOf s u).late ≠ [] → calm s →
    ∃ t, exec (.rexEnd u exe) s = .next t ∧ rexFrame s t u ∧ (strOf (unitOf t u) exe).done = true ∧
      strOf (unitOf t u) (!exe) = strOf (unitOf s u) (!exe) ∧ (unitOf t u).tiles = (unitOf s u).tiles) ∧
  (∀ (s : State) (u : Fin 128) (exe : Bool) (r : Nat) (x : Run) (pc w : Nat), issues s u exe 0x01 r x pc w →
    (unitOf s u).run = some r → runOf s r = some x → x.killAt = none → (strOf (unitOf s u) exe).loops = [] →
    (strOf (unitOf s u) (!exe)).bar = none → (strOf (unitOf s u) (!exe)).done = true → (unitOf s u).late = [] →
    exec (.rexEnd u exe) s = .next (settle (endRun (modUnit s u fun y =>
      setStr y exe { strOf y exe with done := true }) r 0))) ∧
  (∀ (s : State) (u : Fin 128) (exe : Bool) (r : Nat) (x : Run), (unitOf s u).run = some r → runOf s r = some x →
    x.killAt ≠ none → exec (.rexEnd u exe) s = .next (settle (endRun s r 1)))

/-- The rows of words that memory bytes `b` hold, as an LDQ pushes them. -/
def memRows (w : Nat) (b : List Byte) (n : Nat) : List (List Nat) :=
  (List.range n).map fun row => rowWords (mHalf w) ((b.drop (row * rowBytes (mHalf w))).take (rowBytes (mHalf w)))

/-- A memory instruction of opcode `op` that the access stream issues, whose operands are allowed, with room among
the eight in flight and nothing it reads still to come. -/
def memReady (s : State) (u op r : Nat) (x : Run) (pc w : Nat) : Prop :=
  issues s u false op r x pc w ∧ memCheck s u r x op pc w = none ∧ flightFull (unitOf s u) = false ∧
  readsPending (unitOf s u) op w = false

/-- The unit's state once an STQ has taken the rows `l` from the front of queue `q`. -/
def stqTaken (s : State) (u q : Nat) (l : List (List Nat)) : State :=
  modUnit (modUnit s u fun y => { y with arriving := y.arriving.filter fun k => k != q }) u fun y =>
    setAq { y with acc := { y.acc with held := y.acc.held ++ l } } q ((aqOf y q).drop l.length)

/-- The memory instructions: a load puts the words of each row where the form says; a store writes the rows at the
instruction's effective address and nowhere else; queue forms push and pop as many rows as the queue can serve, and
wait or slip where it serves none; a load behind an LDQ still in flight holds its rows back, the ninth in flight and
one that would read such rows wait; accumulator forms move and add whole entries; a misaligned address and a reserved
encoding fault; and an effect instruction sends one request. -/
def Obligations.AccessStream : Prop :=
  (∀ (c : Instr) (s v : State) (u : Fin 128) (op r : Nat) (x : Run) (pc w : Nat), rexOp c = some (u, false, op) →
    8 ≤ op → op ≤ 0x0F → issues s u false op r x pc w →
    (flightFull (unitOf s u) = false → readsPending (unitOf s u) op w = false → memCheck s u r x op pc w = some v →
      exec c s = .next (settle v)) ∧
    (flightFull (unitOf s u) = true → exec c s = .next s) ∧
    (op ≠ 0x0A → op ≠ 0x0B → readsPending (unitOf s u) op w = true → exec c s = .next s)) ∧
  (∀ (s : State) (u r : Nat) (x : Run) (op pc w : Nat), mBad op w = true →
    memCheck s u r x op pc w = some (progFault s u r x 3 pc 0)) ∧
  (∀ (s : State) (u r : Nat) (x : Run) (op pc w : Nat), mBad op w = false →
    effAddr s (unitOf s u) x w % (if op = 0x0C then 256 else 64) ≠ 0 →
    memCheck s u r x op pc w = some (progFault s u r x 5 pc (effAddr s (unitOf s u) x w))) ∧
  (∀ (s v : State) (u : Fin 128) (r : Nat) (x : Run) (pc w : Nat) (b : List Byte), memReady s u 0x08 r x pc w →
    cmdRead r 4 s (effAddr s (unitOf s u) x w) (mRows w * rowBytes (mHalf w)) = .ok b v → calm v →
    (unitOf v u).late ≠ [] →
    ∃ t l, exec (.ld u) s = .next t ∧ (unitOf t u).behind = (unitOf v u).behind ++ [l] ∧
      (unitOf t u).tiles = (unitOf v u).tiles ∧
      (unitOf t u).acc = movedOn (unitOf v u).acc) ∧
  (∀ (s v : State) (u : Fin 128) (r : Nat) (x : Run) (pc w : Nat) (b : List Byte), memReady s u 0x08 r x pc w →
    cmdRead r 4 s (effAddr s (unitOf s u) x w) (mRows w * rowBytes (mHalf w)) = .ok b v → calm v →
    (unitOf v u).late = [] →
    ∃ t, exec (.ld u) s = .next t ∧ t.mem = v.mem ∧ (∀ k, k ≠ u.val → unitOf t k = unitOf v k) ∧
      (∀ row col, row < mRows w → col < 64 → tileWord (unitOf t u) (mT w) (64 * row + col) =
        (rowWords (mHalf w) ((b.drop (row * rowBytes (mHalf w))).take (rowBytes (mHalf w)))).getD col 0) ∧
      (∀ k i, k ≠ mT w → i < 4096 → tileWord (unitOf t u) k i = tileWord (unitOf v u) k i) ∧
      (unitOf t u).accf = (unitOf v u).accf ∧ (unitOf t u).aq = (unitOf v u).aq ∧
      (unitOf t u).acc = movedOn (unitOf v u).acc) ∧
  (∀ (s v : State) (u : Fin 128) (r : Nat) (x : Run) (pc w : Nat), memReady s u 0x09 r x pc w →
    cmdWrite s r (effAddr s (unitOf s u) x w) (((List.range (mRows w)).map fun row =>
      wordsRow (mHalf w) ((List.range 64).map fun c => tileWord (unitOf s u) (mT w) (64 * row + c))).flatten) = .ok () v →
    calm v →
    ∃ t, exec (.st u) s = .next t ∧ t.mem = v.mem ∧ (∀ k, k ≠ u.val → unitOf t k = unitOf v k) ∧
      (unitOf t u).tiles = (unitOf v u).tiles ∧
      (unitOf t u).acc = movedOn (unitOf v u).acc) ∧
  (∀ (s t : State) (r va : Nat) (bs : List Byte), cmdWrite s r va bs = .ok () t →
    ∃ l v, cmdPages r (bs.length / 65536 + 2) s va bs.length = .ok l v ∧
      ∀ a, (∀ p ∈ l, ¬(p.1 ≤ a ∧ a < p.1 + p.2.2)) → mread t.mem a = mread v.mem a) ∧
  (∀ (s v : State) (u : Fin 128) (r : Nat) (x : Run) (pc w : Nat) (b : List Byte), memReady s u 0x0A r x pc w →
    x.locked = true → (unitOf s u).late = [] →
    cmdRead r 4 s (effAddr s (unitOf s u) x w) (mRows w * rowBytes (mHalf w)) = .ok b v → calm v →
    ∃ t, exec (.ldq u) s = .next t ∧ t.mem = v.mem ∧ (unitOf t u).tiles = (unitOf v u).tiles ∧
      aqOf (unitOf t u) (mT w) = aqOf (unitOf v u) (mT w) ++
        (memRows w b (mRows w)).take (64 - (aqOf (unitOf s u) (mT w)).length) ∧
      (unitOf t u).late = ((memRows w b (mRows w)).drop (64 - (aqOf (unitOf s u) (mT w)).length)).map
        (fun i => (mT w, i)) ∧
      ∀ q, q ≠ mT w → aqOf (unitOf t u) q = aqOf (unitOf v u) q) ∧
  (∀ (s v : State) (u : Fin 128) (r : Nat) (x : Run) (pc w n : Nat) (b : List Byte), memReady s u 0x0A r x pc w →
    x.locked = false → (aqOf (unitOf s u) (mT w)).length < 64 →
    (unitOf s u).acc.rows < mRows w →
    n = min (64 - (aqOf (unitOf s u) (mT w)).length) (mRows w - (unitOf s u).acc.rows) →
    cmdRead r 4 s (effAddr s (unitOf s u) x w + (unitOf s u).acc.rows * rowBytes (mHalf w)) (n * rowBytes (mHalf w)) =
      .ok b v → calm v →
    ∃ t, exec (.ldq u) s = .next t ∧ t.mem = v.mem ∧ (unitOf t u).tiles = (unitOf v u).tiles ∧
      aqOf (unitOf t u) (mT w) = aqOf (unitOf v u) (mT w) ++ memRows w b n ∧
      (n < mRows w - (unitOf s u).acc.rows →
        (unitOf t u).acc = { (unitOf v u).acc with rows := (unitOf v u).acc.rows + n }) ∧
      ∀ q, q ≠ mT w → aqOf (unitOf t u) q = aqOf (unitOf v u) q) ∧
  (∀ (s : State) (u : Fin 128) (r : Nat) (x : Run) (pc w : Nat), memReady s u 0x0A r x pc w → x.locked = true →
    (unitOf s u).late ≠ [] →
    exec (.ldq u) s = .next s) ∧
  (∀ (s v : State) (u : Fin 128) (r : Nat) (x : Run) (pc w n : Nat) (items : List (List Nat)),
    memReady s u 0x0A r x pc w → x.locked = false → 64 ≤ (aqOf (unitOf s u) (mT w)).length →
    n = min 1 (mRows w - (unitOf s u).acc.rows) →
    loadRows s r w (effAddr s (unitOf s u) x w) (unitOf s u).acc.rows n = .ok items v →
    exec (.ldq u) s = .next (settle (pushSlip v u r x pc [mT w] [mT w] false))) ∧
  (∀ (s : State) (u : Fin 128) (r : Nat) (x : Run) (pc w : Nat), memReady s u 0x0B r x pc w →
    (unitOf s u).acc.held.length < mRows w → aqOf (unitOf s u) (mT w) = [] →
    exec (.stq u) s = if x.locked then .next s else .next (settle (rexSlip s u r x pc (mT w) 0 [] false))) ∧
  (∀ (s : State) (u : Fin 128) (r : Nat) (x : Run) (pc w : Nat) (l : List (List Nat)) (v : State),
    memReady s u 0x0B r x pc w → (unitOf s u).arriving.contains (mT w) = false →
    l = (aqOf (unitOf s u) (mT w)).take (mRows w - (unitOf s u).acc.held.length) → l ≠ [] →
    v = stqTaken s u (mT w) l →
    ((unitOf s u).acc.held.length + l.length < mRows w → exec (.stq u) s = .next (settle v)) ∧
    ((unitOf s u).acc.held.length + l.length = mRows w → ∀ v', calm v' → (unitOf v' u).late = [] →
      cmdWrite v r (effAddr s (unitOf s u) x w)
        (((unitOf s u).acc.held ++ l).map fun row => wordsRow (mHalf w) row).flatten = .ok () v' →
      ∃ t, exec (.stq u) s = .next t ∧ t.mem = v'.mem ∧ (unitOf t u).tiles = (unitOf v' u).tiles ∧
        (unitOf t u).aq = (unitOf v' u).aq ∧ (unitOf t u).acc = movedOn (unitOf v' u).acc)) ∧
  (∀ (s : State) (u : Fin 128) (r : Nat) (x : Run) (pc w : Nat), memReady s u 0x0C r x pc w → digArea s x.ctx = 0 →
    (unitOf s u).late = [] → calm s →
    ∃ t, exec (.dig u) s = .next t ∧ rexFrame s t u ∧ (unitOf t u).tiles = (unitOf s u).tiles ∧
      (unitOf t u).acc = movedOn (unitOf s u).acc) ∧
  (∀ (s v : State) (u : Fin 128) (r : Nat) (x y : Run) (pc w : Nat) (b : List Byte), memReady s u 0x0C r x pc w →
    digArea s x.ctx ≠ 0 →
    cmdRead r 4 s (effAddr s (unitOf s u) x w) (mRows w * 256) = .ok b v → calm v → runOf v r = some y →
    digArea v x.ctx ≠ 0 → effAddr s (unitOf s u) x w % 256 = 0 → b.length = mRows w * 256 →
    ∃ t z, exec (.dig u) s = .next t ∧ t.mem = v.mem ∧ runOf t r = some z ∧
      z.digest = (y.digest + ((List.range (mRows w)).foldl (fun n k => n + contribution
        (effAddr s (unitOf s u) x w + 256 * k) ((b.drop (256 * k)).take 256)) 0)) % 2 ^ 64) ∧
  (∀ (s v : State) (u : Fin 128) (r : Nat) (x : Run) (pc w : Nat) (b : List Byte), memReady s u 0x0D r x pc w →
    cmdRead r 4 s (effAddr s (unitOf s u) x w) (mRows w * 8) = .ok b v → calm v →
    (unitOf v u).late = [] →
    ∃ t, exec (.accld u) s = .next t ∧ t.mem = v.mem ∧ (unitOf t u).tiles = (unitOf v u).tiles ∧
      (∀ k, k < mRows w → accOf (unitOf t u) (mAcci w + k) = leAt b (8 * k) 8) ∧
      ∀ k, k < mAcci w ∨ mAcci w + mRows w ≤ k → accOf (unitOf t u) k = accOf (unitOf v u) k) ∧
  (∀ (s v : State) (u : Fin 128) (r : Nat) (x : Run) (pc w : Nat), memReady s u 0x0E r x pc w →
    cmdWrite s r (effAddr s (unitOf s u) x w)
      (((List.range (mRows w)).map fun k => accOf (unitOf s u) (mAcci w + k)).map fun v => leBytes 8 v).flatten
      = .ok () v →
    calm v →
    ∃ t, exec (.accst u) s = .next t ∧ t.mem = v.mem ∧ (unitOf t u).tiles = (unitOf v u).tiles ∧
      (unitOf t u).accf = (unitOf v u).accf) ∧
  (∀ (s v : State) (u : Fin 128) (r : Nat) (x : Run) (pc w : Nat) (b : List Byte), memReady s u 0x0F r x pc w →
    cmdRead r 4 s (effAddr s (unitOf s u) x w) (mRows w * 8) = .ok b v → calm v →
    (unitOf v u).late = [] →
    ∃ t, exec (.accadd u) s = .next t ∧ t.mem = v.mem ∧ (unitOf t u).tiles = (unitOf v u).tiles ∧
      (∀ k, k < mRows w → accOf (unitOf t u) (mAcci w + k) =
        (if (fmtOf (mFmt w)).isSome then add64 else addI64) (accOf (unitOf v u) (mAcci w + k)) (leAt b (8 * k) 8)) ∧
      ∀ k, k < mAcci w ∨ mAcci w + mRows w ≤ k → accOf (unitOf t u) k = accOf (unitOf v u) k) ∧
  (∀ (s : State) (u : Fin 128) (r : Nat) (x : Run) (pc w va : Nat), issues s u false 0x10 r x pc w →
    flightFull (unitOf s u) = false →
    fld w 51 50 ≠ 3 → va = (argOf s x (fld w 51 50) +
      64 * (fld w 33 20 + 1) * tget 0 (unitOf s u).acc.idx (fld w 49 48)) % 2 ^ 64 → va % 64 = 0 →
    exec (.send u) s = .next (settle (stepPc (landed (sendEffect s r x (2 * 2 ^ 124 + 1 * 2 ^ 120 + fld w 47 34 * 2 ^
    106 +
      fld w 33 20 * 2 ^ 92 + fld w 19 4 * 2 ^ 76 + fld (va / 64) 41 0 * 2 ^ 34)) u []) u false))) ∧
  (∀ (s : State) (u : Fin 128) (r : Nat) (x : Run) (pc w va : Nat), issues s u false 0x11 r x pc w →
    flightFull (unitOf s u) = false →
    fld w 51 50 ≠ 3 → va = (argOf s x (fld w 51 50) + 64 * fld w 19 0) % 2 ^ 64 → va % 64 = 0 →
    exec (.blendInstr u) s = .next (settle (stepPc (landed (sendEffect s r x (3 * 2 ^ 124 + 1 * 2 ^ 120 +
      fld w 49 40 * 2 ^ 110 + fld w 39 28 * 2 ^ 98 + fld (va / 64) 41 0 * 2 ^ 56)) u []) u false))) ∧
  (∀ (s : State) (u : Fin 128) (r : Nat) (x : Run) (pc w : Nat), issues s u false 0x12 r x pc w →
    flightFull (unitOf s u) = false →
    fld w 51 48 = 1 ∨ fld w 51 48 = 2 ∨ fld w 51 48 = 3 →
    exec (.sig u) s = .next (settle (stepPc (landed (sendEffect s r x (1 * 2 ^ 124 + fld w 51 48 * 2 ^ 120 +
      fld w 47 32 * 2 ^ 104 + fld w 31 16 * 2 ^ 88 + fld w 15 0 * 2 ^ 72)) u []) u false))) ∧
  (∀ (s : State) (u : Fin 128) (r : Nat) (x : Run) (pc w : Nat), issues s u false 0x12 r x pc w →
    flightFull (unitOf s u) = false →
    fld w 51 48 = 5 → fld w 15 1 = 0 →
    exec (.sig u) s = .next (settle (stepPc (landed (sendEffect s r x (1 * 2 ^ 124 + 5 * 2 ^ 120 +
      fld w 47 32 * 2 ^ 104 + fld w 31 16 * 2 ^ 88 + fld w 0 0 * 2 ^ 71)) u []) u false))) ∧
  (∀ (s : State) (r : Nat) (x : Run) (data : Nat), runOf s r = some x → x.reqs + 1 < 65536 →
    fld data 127 124 ≠ 0 → fld data 127 124 < 6 → x.field < 8 →
    ∃ y, runOf (sendEffect s r x data) r = some y ∧ y.sent = x.sent + 1 ∧ y.reqs = x.reqs + 1 ∧
      (fieldOf (sendEffect s r x data) x.field).effQ = (fieldOf s x.field).effQ ++
        [{ run := r, eff := { unit := fld data 127 124, op := fld data 123 120, data := data } }])

/-- The operands an element-wise instruction uses, whether it takes INT32 and RND, and the function it computes. -/
def elemOp : Instr → Option (Fin 128 × Nat × Uses × Bool × Bool × (FV → FV → FV → FV))
  | .add u => some (u, 0x20, { a := true, b := true }, true, true, fun a b _ => a.add b)
  | .sub u => some (u, 0x21, { a := true, b := true }, true, true, fun a b _ => a.add b.neg)
  | .mul u => some (u, 0x22, { a := true, b := true }, true, true, fun a b _ => a.mul b)
  | .fma u => some (u, 0x23, { a := true, b := true, c := true }, true, true, fun a b c => (a.mul b).add c)
  | .min u => some (u, 0x24, { a := true, b := true }, true, false, fun a b _ => a.min b)
  | .max u => some (u, 0x25, { a := true, b := true }, true, false, fun a b _ => a.max b)
  | .abs u => some (u, 0x26, { a := true }, true, false, fun a _ _ => a.abs)
  | .neg u => some (u, 0x27, { a := true }, true, false, fun a _ _ => a.neg)
  | .rcp u => some (u, 0x28, { a := true }, false, true, fun a _ _ => a.rcp)
  | .rsq u => some (u, 0x29, { a := true }, false, true, fun a _ _ => a.rsq)
  | .sqrt u => some (u, 0x2A, { a := true }, false, true, fun a _ _ => a.sqrt)
  | _ => none

/-- All rows of an instruction. -/
def whole (w : Nat) : Rows := { lo := 0, n := xRows w }

/-- How many rows of an instruction its queues can serve now. -/
def rowsNow (y : RexUnit) (k : Uses) (w : Nat) : Nat :=
  (if k.d then dstQueues (xD w) else []).foldl (fun n q => min n (64 - (aqOf y q).length))
    (((usedCodes k w).filterMap fun c => srcRows y c y.exe.rows).foldl min (xRows w - y.exe.rows))

/-- The execute stream stands at the start of an instruction of opcode `op` whose operand codes are allowed and whose
queues can serve all its rows; no LDQ waits for places, and no item is still arriving. -/
def exeReady (s : State) (u op : Nat) (k : Uses) (r : Nat) (x : Run) (pc w : Nat) : Prop :=
  issues s u true op r x pc w ∧ codesBad k w = false ∧
  (unitOf s u).exe.rows = 0 ∧ (unitOf s u).exe.held = [] ∧ (unitOf s u).late = [] ∧ (unitOf s u).behind = [] ∧
  (unitOf s u).arriving = [] ∧
  (∀ c ∈ usedCodes k w, ∀ e, srcQueue c = some e → xRows w ≤ (aqOf (unitOf s u) e.1).length) ∧
  (k.d = true → ∀ q ∈ dstQueues (xD w), (aqOf (unitOf s u) q).length + xRows w ≤ 64)

/-- Element `j` of word `i` of an operand, as a value: a tile word, a queue's front rows, or the ACC entry. -/
def operandValue (y : RexUnit) (w code i j : Nat) : FV :=
  if code = 0x18 then accVal (xFmt w) (accOf y (xAcci w))
  else elemVal (xFmt w) ((wordElems (xFmt w) (srcAt y code (whole w) i)).getD j 0)

/-- What is common to the instructions of the execute stream: the frame, the stream's move, and the queues popped. -/
def exeLeaves (s t : State) (u : Nat) (k : Uses) (w : Nat) : Prop :=
  rexFrame s t u ∧ (unitOf t u).acc = (unitOf s u).acc ∧
  (unitOf t u).exe = movedOn (unitOf s u).exe ∧
  ∀ q, q < 2 → aqOf (unitOf t u) q =
    if (usedCodes k w).contains (0x10 + q) then (aqOf (unitOf s u) q).drop (xRows w) else aqOf (unitOf s u) q

/-- Element-wise arithmetic: every element of D is the exact function of the operands' elements rounded once; without
RND to nearest even. Nothing else changes but the popped queues and the stream's position; as many rows pass as the
queues can serve; a reserved encoding faults, and a queue that can serve no row stalls a command in interlocked mode
and slips any other. -/
def Obligations.ElementWise : Prop :=
  ∀ (c : Instr) (s : State) (u : Fin 128) (op : Nat) (k : Uses) (ints rounds : Bool) (f : FV → FV → FV → FV)
    (r : Nat) (x : Run) (pc w : Nat), elemOp c = some (u, op, k, ints, rounds, f) →
  (exeReady s u op k r x pc w → xFmt w ≤ 3 → (xFmt w = 3 → ints = true ∧ xRnd w = false) →
    (xRnd w = true → rounds = true) →
    exec c s = .next (passExe s u (unitOf s u) (putResults s x (unitOf s u) w (whole w) (xFmt w) (fmtBits (xFmt w))
      (fun _ => 0) (mapElems (unitOf s u) w k (whole w) f)) (usedCodes k w) (dstQueues (xD w)) (xD w) (whole w)
      (xRows w)) ∧
    (xRnd w = false → xD w < 16 → ∃ t, exec c s = .next t ∧ exeLeaves s t u k w ∧
      (unitOf t u).accf = (unitOf s u).accf ∧
      (∀ i j, i < 64 * xRows w → j < 32 / fmtBits (xFmt w) →
        fld (tileWord (unitOf t u) (xD w) i) (fmtBits (xFmt w) * j + fmtBits (xFmt w) - 1) (fmtBits (xFmt w) * j) =
          roundRes (xFmt w) none (.val (f (operandValue (unitOf s u) w (xA w) i j)
            (if k.b then operandValue (unitOf s u) w (xB w) i j else elemVal (xFmt w) 0)
            (if k.c then operandValue (unitOf s u) w (xC w) i j else elemVal (xFmt w) 0))) % 2 ^ fmtBits (xFmt w)) ∧
      (∀ d i, d ≠ xD w → i < 4096 → tileWord (unitOf t u) d i = tileWord (unitOf s u) d i) ∧
      (∀ i, 64 * xRows w ≤ i → i < 4096 → tileWord (unitOf t u) (xD w) i = tileWord (unitOf s u) (xD w) i)) ∧
    (16 ≤ xD w → ∃ t, exec c s = .next t ∧ exeLeaves s t u k w ∧ (unitOf t u).tiles = (unitOf s u).tiles ∧
      ∀ q ∈ dstQueues (xD w), ∃ items, aqOf (unitOf t u) q = aqOf (unitOf s u) q ++ items ∧
        items.length = xRows w)) ∧
  (issues s u true op r x pc w → codesBad k w = true ∨ 3 < xFmt w →
    exec c s = .next (settle (progFault s u r x 3 pc 0))) ∧
  (issues s u true op r x pc w → codesBad k w = false → xFmt w < 3 → xRnd w = false →
    lacking (unitOf s u) (usedCodes k w) (unitOf s u).exe.rows = none → (unitOf s u).arriving = [] →
    (∀ q ∈ dstQueues (xD w), (aqOf (unitOf s u) q).length < 64) →
    exec c s = .next (passExe s u (unitOf s u) (putResults s x (unitOf s u) w
      { lo := (unitOf s u).exe.rows, n := rowsNow (unitOf s u) k w } (xFmt w) (fmtBits (xFmt w)) (fun _ => 0)
      (mapElems (unitOf s u) w k { lo := (unitOf s u).exe.rows, n := rowsNow (unitOf s u) k w } f)) (usedCodes k w)
      (dstQueues (xD w)) (xD w) { lo := (unitOf s u).exe.rows, n := rowsNow (unitOf s u) k w } (xRows w))) ∧
  (∀ q, issues s u true op r x pc w → codesBad k w = false → xFmt w < 3 → xRnd w = false →
    lacking (unitOf s u) (usedCodes k w) (unitOf s u).exe.rows = some q →
    exec c s = if x.locked then .next s else .next (settle (rexSlip s u r x pc q 0 (dstQueues (xD w)) true))) ∧
  (∀ q l, issues s u true op r x pc w → codesBad k w = false → xFmt w < 3 → xRnd w = false →
    lacking (unitOf s u) (usedCodes k w) (unitOf s u).exe.rows = none →
    ((dstQueues (xD w)).filter fun q => decide (64 ≤ (aqOf (unitOf s u) q).length)) = q :: l →
    exec c s = if x.locked then .next s
      else .next (settle (pushSlip s u r x pc (q :: l) (dstQueues (xD w)) true)))

/-- MOV copies words bit for bit; CVT converts element by element to the place that PACK names; SWU joins the two
halves of a weight and adds the scaled update, rounded once. Reductions, scans and accumulator moves: RED leaves in
each entry the pairwise tree of its row or column; SCAN and SSCAN write the running sums; ACCW writes an entry over
its row; ACCZ clears entries; ACCSUM sums them. -/
def Obligations.MovesAndReductions : Prop :=
  ((∀ (s : State) (u : Fin 128) (r : Nat) (x : Run) (pc w : Nat), exeReady s u 0x2B { a := true } r x pc w →
    xFmt w ≤ 6 → xRnd w = false → xD w < 16 →
    ∃ t, exec (.mov u) s = .next t ∧ exeLeaves s t u { a := true } w ∧
      (∀ i, i < 64 * xRows w → fld (tileWord (unitOf t u) (xD w) i) 31 0 =
        srcAt (unitOf s u) (xA w) (whole w) i % 2 ^ 32) ∧
      (∀ d i, d ≠ xD w → i < 4096 → tileWord (unitOf t u) d i = tileWord (unitOf s u) d i)) ∧
  (∀ (s : State) (u : Fin 128) (r : Nat) (x : Run) (pc w : Nat), exeReady s u 0x2B { a := true } r x pc w →
    xFmt w ≤ 6 → xRnd w = false → 16 ≤ xD w →
    ∃ t, exec (.mov u) s = .next t ∧ exeLeaves s t u { a := true } w ∧ (unitOf t u).tiles = (unitOf s u).tiles ∧
      ∀ q ∈ dstQueues (xD w), ∃ items, aqOf (unitOf t u) q = aqOf (unitOf s u) q ++ items ∧
        items.length = xRows w ∧ ∀ row col, row < xRows w → col < 64 → (items.getD row []).getD col 0 =
          srcAt (unitOf s u) (xA w) (whole w) (64 * row + col) % 2 ^ 32) ∧
  (∀ (s : State) (u : Fin 128) (r : Nat) (x : Run) (pc w : Nat), exeReady s u 0x2C { a := true } r x pc w →
    cvtBad w = false → xRnd w = false → xD w < 16 → xPack w ≠ 4 →
    ∃ t, exec (.cvt u) s = .next t ∧ exeLeaves s t u { a := true } w ∧
      (∀ i p, i < 4096 * 32 / max (fmtBits (xFmt w)) (fmtBits (xDfmt w)) →
        p = (if fmtBits (xDfmt w) < fmtBits (xFmt w) then xPack w * (4096 * 32 / fmtBits (xFmt w)) + i else i) →
        fld (tileWord (unitOf t u) (xD w) (p / (32 / fmtBits (xDfmt w))))
          (fmtBits (xDfmt w) * (p % (32 / fmtBits (xDfmt w))) + fmtBits (xDfmt w) - 1)
          (fmtBits (xDfmt w) * (p % (32 / fmtBits (xDfmt w)))) =
        roundRes (xDfmt w) none (.val (elemVal (xFmt w) (tileElem (srcAt (unitOf s u) (xA w) (whole w)) (fmtBits
        (xFmt w))
          (if fmtBits (xFmt w) < fmtBits (xDfmt w) then xPack w * (4096 * 32 / fmtBits (xDfmt w)) + i else i))))
          % 2 ^ fmtBits (xDfmt w)) ∧
      (∀ d i, d ≠ xD w → i < 4096 → tileWord (unitOf t u) d i = tileWord (unitOf s u) d i)) ∧
  (∀ (s : State) (u : Fin 128) (r : Nat) (x : Run) (pc w : Nat),
    exeReady s u 0x2D { a := true, b := true, c := true, accB := false } r x pc w → xFmt w = 0 → xRnd w = false →
    xD w < 16 →
    ∃ t, exec (.swu u) s = .next t ∧ exeLeaves s t u { a := true, b := true, c := true, accB := false } w ∧
      (∀ i, i < 64 * xRows w → fld (tileWord (unitOf t u) (xD w) i) 31 0 = roundRes 0 none (.val ((decodeF f32
        (srcAt (unitOf s u) (xA w) (whole w) i / 65536 * 65536 +
          srcAt (unitOf s u) (xC w) (whole w) i % 65536)).add
        ((decodeF f32 (srcAt (unitOf s u) (xB w) (whole w) i)).mul
          (decodeF f64 (accOf (unitOf s u) (xAcci w)))))) % 2 ^ 32) ∧
      (∀ d i, d ≠ xD w → i < 4096 → tileWord (unitOf t u) d i = tileWord (unitOf s u) d i))) ∧
  ((∀ (s : State) (u : Fin 128) (r : Nat) (x : Run) (pc w : Nat), exeReady s u 0x30 { a := true, d := false } r x pc w
    →
    xFmt w ≤ 6 → xRnd w = false → xSpec14 w = false → (bitAt w 11 = true → xAcci w < xRows w) →
    ∃ t, exec (.red u) s = .next t ∧ exeLeaves s t u { a := true, d := false } w ∧
      (unitOf t u).tiles = (unitOf s u).tiles ∧
      (∀ row v, row < xRows w → v = treeSum (redOp (xFmt w) (fld w 13 12)) 0 ((List.range 64).flatMap fun c =>
          (wordElems (xFmt w) (srcAt (unitOf s u) (xA w) (whole w) (64 * row + c))).map fun e =>
            redIn (xFmt w) (fld w 13 12) e) →
        accOf (unitOf t u) row =
          if bitAt w 11 then redOp (xFmt w) (fld w 13 12) (accOf (unitOf s u) row) v else v) ∧
      ∀ k, xRows w ≤ k → accOf (unitOf t u) k = accOf (unitOf s u) k) ∧
  (∀ (s : State) (u : Fin 128) (r : Nat) (x : Run) (pc w : Nat), exeReady s u 0x30 { a := true, d := false } r x pc w
    →
    xFmt w ≤ 6 → xRnd w = false → xSpec14 w = true →
    ∃ t, exec (.red u) s = .next t ∧ exeLeaves s t u { a := true, d := false } w ∧
      (unitOf t u).tiles = (unitOf s u).tiles ∧
      (∀ col v, col < 64 → v = treeSum (redOp (xFmt w) (fld w 13 12)) 0 ((List.range (xRows w)).flatMap fun row =>
          (wordElems (xFmt w) (srcAt (unitOf s u) (xA w) (whole w) (64 * row + col))).map fun e =>
            redIn (xFmt w) (fld w 13 12) e) →
        accOf (unitOf t u) col =
          if bitAt w 11 then redOp (xFmt w) (fld w 13 12) (accOf (unitOf s u) col) v else v) ∧
      ∀ k, 64 ≤ k → accOf (unitOf t u) k = accOf (unitOf s u) k) ∧
  (∀ (s : State) (u : Fin 128) (r : Nat) (x : Run) (pc w : Nat), exeReady s u 0x31 { a := true } r x pc w →
    xFmt w ≤ 6 → exec (.scan u) s = .next (passExe s u (unitOf s u) (scanRows s x w (whole w) false (unitOf s u))
      (usedCodes { a := true } w) (dstQueues (xD w)) (xD w) (whole w) (xRows w))) ∧
  (∀ (s : State) (u : Fin 128) (r : Nat) (x : Run) (pc w : Nat), exeReady s u 0x32 { a := true, c := true } r x pc w →
    xFmt w ≤ 6 → exec (.sscan u) s = .next (passExe s u (unitOf s u) (scanRows s x w (whole w) true (unitOf s u))
      (usedCodes { a := true, c := true } w) (dstQueues (xD w)) (xD w) (whole w) (xRows w))) ∧
  (∀ (add : Nat → Nat → Nat) (v a : Nat) (start : Bool) (l : List (Nat × Bool)),
    (scanRow add v ((a, start) :: l)).1 = add (if start then 0 else v) a ::
      (scanRow add (add (if start then 0 else v) a) l).1 ∧
    (scanRow add v ((a, start) :: l)).2 = (scanRow add (add (if start then 0 else v) a) l).2) ∧
  (∀ (s : State) (x : Run) (w : Nat) (k : Rows) (seg : Bool) (y : RexUnit), xSpec14 w = false →
    (scanRows s x w k seg y).accf = y.accf) ∧
  (∀ (s : State) (u : Fin 128) (r : Nat) (x : Run) (pc w : Nat), exeReady s u 0x33 {} r x pc w → xFmt w ≤ 6 →
    xRnd w = false → xSpec14 w = false → xD w < 16 →
    ∃ t, exec (.accw u) s = .next t ∧ (unitOf t u).accf = (unitOf s u).accf ∧
      t = { s with rex := t.rex, fresh := t.fresh } ∧ (∀ v, v ≠ u.val → unitOf t v = unitOf s v) ∧
      (∀ i j, i < 64 * xRows w → j < 32 / fmtBits (xFmt w) →
        fld (tileWord (unitOf t u) (xD w) i) (fmtBits (xFmt w) * j + fmtBits (xFmt w) - 1) (fmtBits (xFmt w) * j) =
          roundRes (xFmt w) none (.val (accVal (xFmt w) (accOf (unitOf s u) (i / 64)))) % 2 ^ fmtBits (xFmt w)) ∧
      (∀ d i, d ≠ xD w → i < 4096 → tileWord (unitOf t u) d i = tileWord (unitOf s u) d i)) ∧
  (∀ (s : State) (u : Fin 128) (r : Nat) (x : Run) (pc w : Nat), exeReady s u 0x34 { d := false } r x pc w →
    xRnd w = false →
    ∃ t, exec (.accz u) s = .next t ∧ exeLeaves s t u { d := false } w ∧ (unitOf t u).tiles = (unitOf s u).tiles ∧
      (∀ k, xAcci w ≤ k → k < xAcci w + xRows w → k < 64 → accOf (unitOf t u) k = 0) ∧
      ∀ k, k < xAcci w ∨ xAcci w + xRows w ≤ k → accOf (unitOf t u) k = accOf (unitOf s u) k) ∧
  (∀ (s : State) (u : Fin 128) (r : Nat) (x : Run) (pc w : Nat), exeReady s u 0x35 { d := false } r x pc w →
    xFmt w ≤ 6 → xRnd w = false →
    ∃ t, exec (.accsum u) s = .next t ∧ exeLeaves s t u { d := false } w ∧ (unitOf t u).tiles = (unitOf s u).tiles ∧
      accOf (unitOf t u) (xAcci w) = treeSum (if (fmtOf (xFmt w)).isSome then add64 else addI64) 0
        ((List.range (xRows w)).map fun k => accOf (unitOf s u) k) ∧
      ∀ k, k ≠ xAcci w → accOf (unitOf t u) k = accOf (unitOf s u) k))

/-! ### Trace and counters -/

/-- TRACE_CTL: FILTER writes the masks, a command that a check refuses names the byte, START takes the region, FLUSH
and STOP end at once while tracing is off and otherwise wait for every record that is held. Records and counters:
nothing is written while tracing is off; a full HALT stream drops the record and counts it; the oldest record goes
to its segment after a FULL_STAMP where one is due; and the engine counters count, hold their values while FREEZE
is 1, and become 0 with CLEAR. -/
def Obligations.TraceAndCounters : Prop :=
  ((∀ (s : State) (m : Cmd) (rest : List Cmd) (d : Nat), isNext s m rest 0x0800 → traceCheck s m = some d →
    s.saf.safe = false →
    (tcAction m = 0 → ∃ t, exec .traceStart s = .next t ∧ answered s t m 0x10 d 0 ∧ t.trc = s.trc) ∧
    (tcAction m = 1 → ∃ t, exec .traceFilter s = .next t ∧ answered s t m 0x10 d 0 ∧
      (s.hif.cplQ.length < 32 → t.regs = s.regs)) ∧
    (tcAction m = 2 → ∃ t, exec .traceFlush s = .next t ∧ answered s t m 0x10 d 0 ∧ t.trc = s.trc) ∧
    (tcAction m = 3 → ∃ t, exec .traceStop s = .next t ∧ answered s t m 0x10 d 0 ∧ t.trc = s.trc)) ∧
  (∀ (s : State) (m : Cmd) (rest : List Cmd), isNext s m rest 0x0800 → tcAction m = 1 → traceCheck s m = none →
    s.saf.safe = false → bitAt m.flags 1 = false →
    ∃ t, exec .traceFilter s = .next t ∧ answered s t m 0 0 0 ∧ reg t 0xA80010 = m.at 8 4 ∧
      reg t 0xA80014 = m.at 12 4 ∧ reg t 0xA80018 = m.at 16 1 ∧
      (s.hif.cplQ.length < 32 → ∀ o, o ≠ 0xA80010 → o ≠ 0xA80014 → o ≠ 0xA80018 → reg t o = reg s o) ∧
      t = { s with hif := t.hif, regs := t.regs }) ∧
  (∀ (s : State) (m : Cmd) (rest : List Cmd), isNext s m rest 0x0800 → tcAction m = 0 → traceCheck s m = none →
    trcRuns s = false → exec .traceStart s = .next (startTrace (queueIs s rest) m)) ∧
  (∀ (s : State) (m : Cmd), (startTrace s m).trc.owner = m.ctx ∧ (startTrace s m).trc.base = m.at 8 8 ∧
    (startTrace s m).trc.segMiB = m.at 16 4 / 9 ∧ (startTrace s m).trc.halt = bitAt (m.at 5 1) 0) ∧
  (∀ (s : State) (m : Cmd) (rest : List Cmd), isNext s m rest 0x0800 → traceCheck s m = none → trcRuns s = false →
    s.saf.safe = false → bitAt m.flags 1 = false →
    (tcAction m = 2 → ∃ t, exec .traceFlush s = .next t ∧ answered s t m 0 0 0 ∧
      t = { s with hif := t.hif, regs := t.regs } ∧ (s.hif.cplQ.length < 32 → t.regs = s.regs)) ∧
    (tcAction m = 3 → ∃ t, exec .traceStop s = .next t ∧ answered s t m 0 0 0 ∧
      t = { s with hif := t.hif, regs := t.regs } ∧ (s.hif.cplQ.length < 32 → t.regs = s.regs))) ∧
  (∀ (s : State) (m : Cmd) (rest : List Cmd), isNext s m rest 0x0800 → traceCheck s m = none → trcRuns s = true →
    s.trc.flushes = [] → s.trc.sched = [] → queueCounts s ≠ [] →
    (tcAction m = 0 → exec .traceStart s = .next { queueIs s rest with trc := { s.trc with
      flushes := [(m, queueCounts s)], on := false } }) ∧
    (tcAction m = 2 → exec .traceFlush s = .next { queueIs s rest with trc := { s.trc with
      flushes := [(m, queueCounts s)] } }) ∧
    (tcAction m = 3 → exec .traceStop s = .next { queueIs s rest with trc := { s.trc with
      flushes := [(m, queueCounts s)], on := false } }))) ∧
  ((∀ (s : State) (m : Fin 9), trcRuns s = false → exec (.traceRecordWrite m) s = .next s) ∧
  (∀ (s : State) (m : Fin 9), s.trc.on = false → exec (.fullStamp m) s = .next s) ∧
  (∀ (s : State) (m : Fin 9), s.trc.on = true → (streamOf s m).wptr % 65536 = 0 →
    exec (.fullStamp m) s = .next (streamWrote m (putFull s m))) ∧
  (∀ (s : State) (m : Fin 9), s.trc.on = true → (streamOf s m).wptr % 65536 ≠ 0 →
    exec (.fullStamp m) s = .next (streamWrote m (putFull
      (advanceTo ((streamOf s m).lastFull + nsUnits (2 ^ 32)) s) m))) ∧
  (∀ (s : State) (r : Nat) (rest : List Nat) (v : State), trcRuns s = true → s.trc.sched = [] → s.trc.flushes = [] →
    (dueCel s).trc.celQ = r :: rest →
    v = streamWrote 8 (putRecord (dueCel { dueCel s with trc := { (dueCel s).trc with celQ := rest } }) 8 r) →
    exec (.traceRecordWrite 8) s =
      .next (if v.trc.stopping && trcEmpty v then stopTrace (setRegBit v 0xA80000 25 true) else v)) ∧
  (∀ (s : State) (m word : Nat), streamFull s m = true →
    (putSlot s m word).2 = true ∧ (streamOf (putSlot s m word).1 m).wptr = (streamOf s m).wptr ∧
    (streamOf (putSlot s m word).1 m).dropped = satAdd 32 (streamOf s m).dropped 1 ∧
    regBit (putSlot s m word).1 0xA80000 28 = true ∧ (putSlot s m word).1.mem = s.mem) ∧
  (∀ (s : State) (src : Fin 4224) (e : Fin 8) (states : List (Fin 16 × Nat)) (act : Nat), 4096 ≤ src.val →
    regBit s 0xA80020 30 = false →
    exec (.traceIncrement src e states act false) s = .next { s with trc := { s.trc with
      cnt := addCounters s.trc.cnt (engineKey src e) (stateCounts states) } }) ∧
  (∀ (s : State) (src : Fin 4224) (e : Fin 8) (states : List (Fin 16 × Nat)) (act : Nat),
    4096 ≤ src.val ∨ engineKind s e ≠ none →
    exec (.traceIncrement src e states act true) s = .next (setRegBit s 0xA80000 24 true)) ∧
  (∀ (s : State) (src : Fin 4224) (e : Fin 8) (states : List (Fin 16 × Nat)) (act : Nat) (lost : Bool),
    regBit s 0xA80020 30 = true →
    ∃ t, exec (.traceIncrement src e states act lost) s = .next t ∧ t.trc = s.trc ∧ t.mem = s.mem ∧ t.disp = s.disp) ∧
  (∀ (s : State) (src : Fin 4224) (e : Fin 8) (states : List (Fin 16 × Nat)) (act : Nat), src.val < 4096 →
    engineKind s e ≠ none → regBit s 0xA80020 30 = false →
    ∃ t, exec (.traceIncrement src e states act false) s = .next t ∧
      t.trc.cnt = addCounters s.trc.cnt (engineKey src e) (stateCounts states) ∧ t.mem = s.mem ∧ t.disp = s.disp ∧
      ((∃ p ∈ states, 2 ≤ p.1.val ∧ p.1.val ≤ 7 ∧ 0 < p.2) → regBit t 0xA80000 27 = true)) ∧
  (∀ (c : Fin 16) (n k : Nat), k < 10 → (stateCounts [(c, n)]).getD k 0 =
    if k = (if c.val ≤ 1 then 1 - c.val else if c.val ≤ 7 then 9 else c.val - 6) then n else 0) ∧
  (∀ (t : Table Nat) (k i : Nat) (l : List Nat), tget 0 (addCounters t k l) (k + i) =
    if l.getD i 0 = 0 then tget 0 t (k + i) else (tget 0 t (k + i) + l.getD i 0) % 2 ^ 64) ∧
  (∀ s : State, exec .clear s = .next { s with trc := { s.trc with cnt := [] } }) ∧
  (∀ (s : State) (b : Bool), ∃ t, exec (.freeze b) s = .next t ∧ regBit t 0xA80020 30 = b ∧ t.trc = s.trc ∧
    (∀ o, o ≠ 0xA80020 → reg t o = reg s o) ∧ t = { s with regs := t.regs }))

/-! ### Link test and test access -/

/-- A PRBS test starts on a direction that is free for it and is refused on one in use; it counts the errors of its
locked lanes and ends at STOP or at its duration with its counts kept. The wrappers and the instruments: bypass and
preload only set a partition's wrappers; the three instructions that take the block over are refused after
SETUP_DONE and otherwise enter the safe state; an instrument write is refused after SETUP_DONE, and a forced
mismatch of a decision path makes its record. -/
def Obligations.LinkTestAndTestAccess : Prop :=
  ((∀ (s : State) (w : Word), prbsKey (reg s 0xB80100) = none →
    exec (.prbsStart w) s = .next (setRegBit s 0xB80000 26 true)) ∧
  (∀ (s : State) (w : Word) (k : Nat), prbsKey (reg s 0xB80100) = some k →
    prbsStartOk s k (setFld (setFld w.toNat 31 31 1 % 2 ^ 29) 23 11 0) = false →
    exec (.prbsStart w) s = .next (setRegBit s 0xB80000 26 true)) ∧
  (∀ (s : State) (w : Word) (k : Nat), prbsKey (reg s 0xB80100) = some k →
    prbsStartOk s k (setFld (setFld w.toNat 31 31 1 % 2 ^ 29) 23 11 0) = true → bitAt w.toNat 29 = false →
    bitAt w.toNat 30 = false →
    ∃ t, exec (.prbsStart w) s = .next t ∧ (prbsOf t k).running = true ∧ (prbsOf t k).bits = 0 ∧
      (prbsOf t k).errs = [] ∧ (prbsOf t k).first = none ∧ (∀ j, j ≠ k → prbsOf t j = prbsOf s j) ∧
      t = { s with tst := t.tst }) ∧
  (∀ (s : State) (w : Word) (k : Nat), prbsKey (reg s 0xB80100) = some k → (prbsOf s k).running = true →
    bitAt w.toNat 31 = false → bitAt w.toNat 29 = false →
    ∃ t, exec (.prbsStop w []) s = .next t ∧ (prbsOf t k).running = false ∧ (prbsOf t k).done = true ∧
      (prbsOf t k).bits = (prbsOf s k).bits ∧ (prbsOf t k).errs = (prbsOf s k).errs ∧
      ∀ j, j ≠ k → prbsOf t j = prbsOf s j) ∧
  (∀ (s : State) (w : Word) (k : Nat) (l : List (Nat × Nat)), prbsKey (reg s 0xB80100) = some k →
    (prbsOf s k).running = false → bitAt w.toNat 31 = false → bitAt w.toNat 29 = false →
    exec (.prbsStop w l) s = .next (setPrbs s k { prbsOf s k with
      ctl := setFld (setFld w.toNat 30 30 1 % 2 ^ 29) 23 11 0 })) ∧
  (∀ (s : State) (w : Word) (k : Nat), prbsKey (reg s 0xB80100) = some k → (prbsOf s k).running = true → k < 128 →
    bitAt w.toNat 31 = false → bitAt w.toNat 30 = false → (prbsOf s k).locked.contains (fld w.toNat 10 0) = true →
    ∃ t, exec (.prbsInject w) s = .next t ∧ (prbsOf t k).running = true ∧
      tget 0 (prbsOf t k).errs (fld w.toNat 10 0) = tget 0 (prbsOf s k).errs (fld w.toNat 10 0) + 1 ∧
      (∀ j, j ≠ fld w.toNat 10 0 → tget 0 (prbsOf t k).errs j = tget 0 (prbsOf s k).errs j) ∧
      t = { s with tst := t.tst }) ∧
  (∀ (s : State) (sel : Fin 256) (k : Nat) (l : List (Nat × Nat)), prbsKey sel = some k →
    (prbsOf s k).running = true → (prbsOf s k).dur ≠ 0 → (prbsOf s k).dur * 2 ^ 20 ≤ (prbsOf s k).bits →
    ∃ t, exec (.prbsDurEnd sel l) s = .next t ∧ (prbsOf t k).running = false ∧ (prbsOf t k).done = true ∧
      (prbsOf t k).bits = (prbsOf s k).bits) ∧
  (∀ (s : State) (sel : Fin 256) (l : List (Nat × Nat)),
    prbsKey sel = none ∨ (∃ k, prbsKey sel = some k ∧ ((prbsOf s k).running = false ∨ (prbsOf s k).dur = 0)) →
    exec (.prbsDurEnd sel l) s = .next s) ∧
  (∀ (s : State) (sel : Fin 256) (lane : Fin 2048) (k : Nat), prbsKey sel = some k → (prbsOf s k).running = true →
    lane.val < prbsLanes k → (prbsOf s k).locked.contains lane.val = false →
    exec (.prbsLaneLock sel lane) s =
      .next (setPrbs s k { prbsOf s k with locked := (prbsOf s k).locked ++ [lane.val] })) ∧
  (∀ (s : State) (sel : Fin 256) (lane : Fin 2048) (k : Nat), prbsKey sel = some k →
    (prbsOf s k).running = false ∨ prbsLanes k ≤ lane.val →
    exec (.prbsLaneLock sel lane) s = .next s)) ∧
  ((∀ (s : State) (p : Fin 2) (i : Fin 5) (code : Nat), i.val ≤ 1 →
    exec (.wrapperInstruction p i code) s =
      .next { s with tst := { s.tst with wraps := tput s.tst.wraps p i } }) ∧
  (∀ (s : State) (p : Fin 2) (i : Fin 5) (code : Nat), 2 ≤ i.val → setupDone s = true →
    exec (.wrapperInstruction p i code) s = .next (setRegBit s 0xB80000 26 true)) ∧
  (∀ (s : State) (p : Fin 2) (i : Fin 5) (code : Nat), 2 ≤ i.val → setupDone s = false → s.saf.recQ = [] →
    ∃ u, exec (.wrapperInstruction p i code) s = .next (settle u) ∧ u.saf.safe = true ∧
      tget? u.tst.wraps p = some i.val) ∧
  (∀ (s : State) (off : Nat) (w : Word), exec (.instrumentWrite 3 off w) s = .next s) ∧
  (∀ (s : State) (i : Fin 4) (off : Nat) (w : Word), i.val = 0 ∨ i.val = 2 → setupDone s = true →
    exec (.instrumentWrite i off w) s = .next (setRegBit s 0xB80000 26 true)) ∧
  (∀ (s : State) (off : Nat) (w : Word), exec (.instrumentWrite 1 off w) s = .next (writeTst s off w.toNat)) ∧
  (∀ (s : State) (u : Nat) (w : Word), setupDone s = false → u < Config.numRex → (unitOf s u).run = none →
    ∃ t, exec (.instrumentWrite 0 (0x8000 + u) w) s = .next t ∧ (unitOf t u).tiles = [] ∧ (unitOf t u).accf = [] ∧
      (unitOf t u).spad = (unitOf s u).spad ∧ rexFrame s t u) ∧
  (∀ (s : State) (w : Word), setupDone s = false → isPath w.toNat = true → s.saf.recQ.length < 32 →
    ∃ t e, exec (.instrumentWrite 2 1 w) s = .next t ∧ t.saf.recQ = s.saf.recQ ++ [e] ∧ e.sev = 3 ∧
      e.code = 0x20 ∧ e.detail = w.toNat ∧ t = { s with saf := t.saf }))

/-! ### The configuration window -/

/-- SETUP_DONE stays 0, with BAD_ACCESS set, while CHIP_ID is not less than GROUP_CHIPS; with 4,096 chips every chip
number is accepted. -/
def Obligations.SetupDoneChecked : Prop :=
  (∀ s : State, setupDone s = false → groupChips s ≤ chipId s →
    (∃ t, exec (.setupDone true) s = .next t ∧ setupDone t = false ∧ regBit t 0x18 1 = true) ∧
    ∀ w : Word, bitAt w.toNat 0 = true →
      ∃ t, exec (.registerWrite 0x14 w false) s = .next t ∧ setupDone t = false ∧ regBit t 0x18 1 = true) ∧
  (∀ s : State, groupChips s = 4096 →
    (∃ t, exec (.setupDone true) s = .next t ∧ setupDone t = true) ∧
    ∀ w : Word, bitAt w.toNat 0 = true → ∃ t, exec (.registerWrite 0x14 w false) s = .next t ∧ setupDone t = true)

/-- What both kinds of wrong access do: the flag, and GLB_BAD_ADDR where both flags were clear; no other register. -/
def faultedAt (s t : State) (off bit : Nat) : Prop :=
  regBit t 0x18 bit = true ∧ reg t 0x20 = (if reg s 0x18 % 4 = 0 then off % 2 ^ 32 else reg s 0x20) ∧
  (∀ i, i < 32 → i ≠ bit → regBit t 0x18 i = regBit s 0x18 i) ∧ ∀ o, o ≠ 0x18 → o ≠ 0x20 → reg t o = reg s o

/-- Outside the doorbell pages an access that is not 4 B wide or not aligned to 4 B completes with zero read data, its
write data ignored, and sets BAD_ACCESS. A read of an unmapped offset returns zero, a write to one is ignored, and
either sets UNMAPPED; the first such offset since both flags were clear is held. -/
def Obligations.WindowFaults : Prop :=
  (∀ (s : State) (off : Nat), doorbellCtx off = none →
  (∀ size, size ≠ 4 ∨ off % 4 ≠ 0 → ∃ t, exec (.badAccess off size) s = .next t ∧ t.hif.rdata = 0 ∧
    faultedAt s t off 1 ∧ t = { s with hif := { s.hif with rdata := 0 }, regs := t.regs }) ∧
  (∀ (w : Word) (fw : Bool), off % 4 ≠ 0 → (fw = true → off < 2 ^ 24) →
    ∃ t, exec (.registerWrite off w fw) s = .next t ∧ faultedAt s t off 1 ∧
    t = { s with hif := { s.hif with rdata := 0 }, regs := t.regs }) ∧
  (off % 4 ≠ 0 → ∃ t, exec (.counterCaptureRead off) s = .next t ∧ t.hif.rdata = 0 ∧ faultedAt s t off 1 ∧
    t = { s with hif := { s.hif with rdata := 0 }, regs := t.regs })) ∧
  (∀ (s : State) (off : Nat), doorbellCtx off = none → off % 4 = 0 → mapped off = false →
  (∃ t, exec (.counterCaptureRead off) s = .next t ∧ t.hif.rdata = 0 ∧ faultedAt s t off 0 ∧
    t = { s with hif := { s.hif with rdata := 0 }, regs := t.regs }) ∧
  (∃ t, exec (.badAccess off 4) s = .next t ∧ t.hif.rdata = 0 ∧ faultedAt s t off 0) ∧
  (∀ w : Word, ∃ t, exec (.registerWrite off w false) s = .next t ∧ faultedAt s t off 0 ∧
    t = { s with regs := t.regs }))

/-- What a write leaves in a register, bit by bit: RW takes the value, RWL takes it while SETUP_DONE is 0, a 1 clears
an RW1C bit, and every other bit stays. -/
def Obligations.AccessCodes : Prop :=
  ∀ (s : State) (off : Nat) (w : Word) (r : RegRow), rowAt off = some r → r.rw &&& r.w1c = 0 → r.rwl &&& r.w1c = 0 →
  (∀ i, i < 32 → (reg (plainWrite s off w.toNat) off).testBit i =
    if r.w1c.testBit i then (reg s off).testBit i && !w.toNat.testBit i
    else if r.rw.testBit i || (r.rwl.testBit i && !setupDone s) then w.toNat.testBit i
    else (reg s off).testBit i) ∧
  (∀ o, o ≠ off → reg (plainWrite s off w.toNat) o = reg s o) ∧
  plainWrite s off w.toNat = { s with regs := (plainWrite s off w.toNat).regs }

/-- A write by the host acts as its slice says unless the field is written from MGC only, which it leaves unchanged;
firmware writes only what it may, FW_DENIED says the rest, and an access beyond the window is an access fault of its
core; a read brings the register's value and captures a counter's high word; and a debug write answers with the value
that the register then has. -/
def Obligations.WindowAccess : Prop :=
  (∀ (s : State) (off : Nat) (w : Word), off % 4 = 0 → doorbellCtx off = none → mapped off = true →
    mgcRw off = 0 → mgcWo off = 0 → exec (.registerWrite off w false) s = .next (writeReg s off w.toNat)) ∧
  (∀ (s : State) (off : Nat) (w : Word), off % 4 = 0 → doorbellCtx off = none → mapped off = true →
    mgcRw off ≠ 0 ∨ mgcWo off ≠ 0 → off ≠ 0x980000 →
    ∃ t, exec (.registerWrite off w false) s = .next t ∧ (∀ o, o ≠ 0x18 → o ≠ 0x20 → reg t o = reg s o) ∧
      (mgcClash s off w.toNat = true → regBit t 0x18 1 = true) ∧ t = { s with regs := t.regs }) ∧
  (∀ (s : State) (off : Nat) (w : Word), off % 4 = 0 → doorbellCtx off = none → mapped off = true → fwMay off = true →
    off < 2 ^ 24 → exec (.registerWrite off w true) s = .next (writeReg s off w.toNat)) ∧
  (∀ (s : State) (off : Nat) (w : Word), off % 4 = 0 → off < 2 ^ 24 →
    (doorbellCtx off ≠ none ∨ (mapped off = true ∧ fwMay off = false) →
      exec (.registerWrite off w true) s = .next (setRegBit s 0x980004 27 true)) ∧
    (doorbellCtx off = none → mapped off = false →
      exec (.registerWrite off w true) s = .next (setRegBit (unmappedAt s off) 0x980004 27 true))) ∧
  (∀ (s : State) (off : Nat) (w : Word), 2 ^ 24 ≤ off →
    ∃ t k, exec (.registerWrite off w true) s = .next t ∧ (tget {} t.mgc.cores k).fault = some (2 ^ 32 + off) ∧
      (∀ j, j ≠ k → tget {} t.mgc.cores j = tget {} s.mgc.cores j) ∧ t.regs = s.regs ∧ t.mem = s.mem) ∧
  (∀ (s : State) (c : Fin 64) (w : Word), exec (.registerWrite (0xC00040 + 0x1000 * c.val) w false) s =
    exec (.cqDb c w) s ∧ exec (.registerWrite (0xC00044 + 0x1000 * c.val) w false) s = exec (.eqDb c w) s) ∧
  (∀ (s : State) (off : Nat), off ∈ [0x28000C, 0x300008, 0x480008, 0x500008, 0x58000C, 0x600004, 0x800018] →
    ∃ t, exec (.counterCaptureRead off) s = .next t ∧ t.hif.rdata = readReg s off ∧
      reg t (off + 4) = tget 0 s.counts off / 2 ^ 32 % 2 ^ 32 ∧ t.counts = s.counts ∧ t.mem = s.mem) ∧
  (∀ (s : State) (m : Cmd) (d : Nat), isPassed s m 0x0F00 → dbgFault m = some d → s.saf.safe = false →
    ∃ t, exec .dbgWrite s = .next t ∧ answered s t m 0x10 d 0 ∧ t.cau.slots = s.cau.slots ∧
      (s.hif.cplQ.length < 32 → t.regs = s.regs)) ∧
  (∀ (s : State) (m : Cmd), isPassed s m 0x0F00 → dbgFault m = none → dwMask m = 0 → s.saf.safe = false →
    bitAt m.flags 1 = false →
    ∃ t, exec .dbgWrite s = .next t ∧ answered s t m 0 0 (readReg (acceptCritical s m) (dwOff m)) ∧ t.mem = s.mem) ∧
  (∀ (s : State) (m : Cmd), isPassed s m 0x0F00 → dbgFault m = none → dwMask m ≠ 0 →
    exec .dbgWrite s = .next (
      let u := debugWrite (acceptCritical s m) (dwOff m)
        (dbgValue (acceptCritical s m) (dwOff m) (m.at 12 4) (dwMask m));
      completeOk (traceDebug u m.ctx 2 (dwOff m) (readReg u (dwOff m))) m (readReg u (dwOff m))))


/-! ### Checks, gates and account reads -/

/-- What a critical command, a decrement, a gate, a gate-record write and a read of a context's account come to when
nothing stands in their way. The authenticator passes a command whose slot is loaded, unlocked and its context's,
grants its class, and whose tag and counter hold, with the key that KEY_LOAD wraps; and an enrolment. A decrement
lowers both copies of a counter that agree, and at 0 its task is ready. A gate with nothing to check passes; a gate
record that has been issued and waits for nothing leaves the list, and one that has not is written to its page. The
read answers the lowest word and keeps the eleven words of that instant. -/
def Obligations.ChecksGatesAndAccounts : Prop :=
  (∀ (s : State) (m : Cmd) (q : List Cmd), s.cau.inQ = m :: q → s.cau.passed = false → regBit s 0x180004 1 = false →
    isEnrolment s m = false → (slotOf s (keySlot m)).state ≠ 0 → (slotOf s (keySlot m)).state ≠ 2 →
    (slotOf s (keySlot m)).owner = m.ctx → classGranted s m = true →
    cmacTag (toNats (slotOf s (keySlot m)).key) (toNats (m.bytes.take 56)) = toNats ((m.bytes.drop 56).take 8) →
    (slotOf s (keySlot m)).ctr < m.at 48 8 →
    (m.opcode ≠ 0x0700 → ∃ t, exec .cauCheck s = .next t ∧ t.cau.passed = true ∧ t.cau.enrol = false ∧
      t.cau.newKey = [] ∧ t.cau.inQ = m :: q ∧ t.cau.slots = s.cau.slots ∧ t = { s with cau := t.cau }) ∧
    (∀ k, m.opcode = 0x0700 →
      keyUnwrap (toNats (slotOf s (keySlot m)).key) (toNats ((m.bytes.drop 16).take 24)) = some k →
      ∃ t, exec .cauCheck s = .next t ∧ t.cau.passed = true ∧ t.cau.newKey = toBytes k ∧ t.cau.inQ = m :: q ∧
        t.cau.slots = s.cau.slots ∧ t = { s with cau := t.cau })) ∧
  (∀ (s : State) (m : Cmd) (q : List Cmd), s.cau.inQ = m :: q → s.cau.passed = false → regBit s 0x180004 1 = false →
    isEnrolment s m = true →
    ∃ t, exec .cauCheck s = .next t ∧ t.cau.passed = true ∧ t.cau.enrol = true ∧
      t.cau.newKey = (m.bytes.drop 16).take 16 ∧ t.cau.slots = s.cau.slots ∧ t = { s with cau := t.cau }) ∧
  (∀ (s : State) (bank : Fin 16) (e : Dec) (q : List Dec) (i : Nat) (img : Img) (st : Step),
    s.tge.decQ = e :: q → e.task % 16 = bank.val → imgOfTask s e.task = some (i, img) → stepOf s i = some st →
    st.phase = 2 → cntA s e.task = cntB s e.task → calm s →
    (2 ≤ cwCount (cntA s e.task) → ∃ t, exec (.decrementApply bank) s = .next t ∧ t.tge.decQ = q ∧
      cntA t e.task = counterWord (cwLive (cntA s e.task)) (cwInit (cntA s e.task)) (cwCount (cntA s e.task) - 1) ∧
      cntB t e.task = cntA t e.task ∧ t.disp.ready = s.disp.ready ∧ t.mem = s.mem) ∧
    (cwCount (cntA s e.task) = 1 → tdKind (descOf s e.task) ≠ 2 → tdKind (descOf s e.task) ≠ 4 →
      tdKind (descOf s e.task) ≠ 5 → tdDelayed (descOf s e.task) = false →
      ∃ t, exec (.decrementApply bank) s = .next t ∧ t.tge.decQ = q ∧ cwCount (cntA t e.task) = 0 ∧
        cntB t e.task = cntA t e.task ∧
        ∃ r, t.disp.ready = s.disp.ready ++ [r] ∧ r.task = e.task ∧ r.img = i ∧ r.ctx = img.ctx)) ∧
  (∀ (s : State) (i g : Nat) (st : Step) (img : Img) (a b : Bool), s.saf.safe = false → s.disp.gates = [(i, g)] →
    stepOf s i = some st → imgOf s i = some img → st.phase ≠ 3 → commitsWait s img.ctx = false →
    gdNf (descOf s g) = false → gdSpike (descOf s g) = false → gdProv (descOf s g) = false →
    ∃ t, exec (.gateEvaluate a b) s = .next t ∧ t.disp.gates = [] ∧
      tget 0 t.counts 0x480008 = (tget 0 s.counts 0x480008 + 1) % 2 ^ 64) ∧
  (∀ (s : State) (i : Nat) (st : Step) (img : Img) (w : GateWrite) (rest : List GateWrite),
    s.tge.steps = [(i, st)] → st.gateWrites = w :: rest → imgOf s i = some img → s.pat.waits = [] →
    w.pass = false → calm s →
    (∀ e : Bool, w.issued = true →
      exec (.gateRecordWrite e) s = .next (settle (setStep s i { st with gateWrites := rest }))) ∧
    (w.issued = false → exec (.gateRecordWrite true) s = .next (settle (setStep (walkError
      (notePageFault s img.ctx 5 (w.va / 65536) 0 true st.launch.vint) img.ctx w.va) i
        { st with gateWrites := rest }))) ∧
    (∀ (g : Region) (p : PageMap), w.issued = false → regionAt s img.ctx w.va = some g → g.kind = 0 →
      ctxEnabled s img.ctx = true → mapOf s img.ctx (pageOf g w.va) = some p → w.bytes ≠ [] →
      w.va % 65536 + w.bytes.length ≤ 65536 →
      ∃ t, exec (.gateRecordWrite false) s = .next t ∧ stepOf t i = some { st with gateWrites := rest } ∧
        t.mem = mwriteBytes s.mem (p.at_ * 65536 + (w.va - pageOf g w.va * 65536)) w.bytes)) ∧
  (∀ (s : State) (i : Nat) (st : Step) (img : Img) (w : GateWrite) (rest : List GateWrite),
    s.tge.steps = [(i, st)] → st.gateWrites = w :: rest → imgOf s i = some img → s.pat.waits = [] →
    w.pass = true → w.issued = true → ∀ e : Bool,
    exec (.gateRecordWrite e) s = .next (settle
      (commitTask (addCount (setStep s i { st with gateWrites := rest }) 0x480008 1) i img.ctx w.task none))) ∧
  (∀ (s : State) (c : Fin 64), ∃ t, exec (.psmCtxEng0LoRead c) s = .next t ∧
    t.hif.rdata = reg s (0x801010 + c.val * 0x40) ∧
    tget [] t.psm.captured c = ((List.range 11).map fun k => reg s (0x801010 + c.val * 0x40 + 4 * k)) ∧
    (∀ d, d ≠ c.val → tget [] t.psm.captured d = tget [] s.psm.captured d) ∧
    t = { s with psm := t.psm, hif := t.hif })
end

