-- ==== Sys2Proof/Laws/Memory.lean ====
section
/-! SUPPORT. Byte memories: every operation keeps the canonical form, and what is read after a write. -/

namespace Sys2Proof.Machine

open Sys2Proof

/-! ### The canonical form -/

/-- The canonical form in plain terms: cells at strictly rising addresses, none of them zero. -/
theorem mwfFrom_iff (lo : Nat) (m : Mem) :
    mwfFrom lo m = true ↔ (∀ c ∈ m, lo ≤ c.1 ∧ c.2 ≠ 0) ∧ m.Pairwise fun a b => a.1 < b.1 := by
  induction m generalizing lo with
  | nil => simp [mwfFrom]
  | cons c t ih =>
    obtain ⟨j, b⟩ := c
    simp only [mwfFrom, Bool.and_eq_true, decide_eq_true_eq, ih, List.forall_mem_cons, List.pairwise_cons]
    constructor
    · rintro ⟨⟨h1, h2⟩, h3, h4⟩
      exact ⟨⟨⟨h1, h2⟩, fun c hc => ⟨by have := (h3 c hc).1; omega, (h3 c hc).2⟩⟩, fun c hc => (h3 c hc).1, h4⟩
    · rintro ⟨⟨⟨h1, h2⟩, h3⟩, h4, h5⟩
      exact ⟨⟨h1, h2⟩, fun c hc => ⟨h4 c hc, (h3 c hc).2⟩, h5⟩

theorem wf_iff (m : Mem) :
    Memory.wf m = true ↔ (∀ c ∈ m, c.2 ≠ 0) ∧ m.Pairwise fun a b => a.1 < b.1 := by
  simp [Memory.wf, mwfFrom_iff]

theorem wf_nil : Memory.wf [] = true := by decide

theorem mwfFrom_mwrite (lo : Nat) (m : Mem) (a : Nat) (v : Byte) (h : mwfFrom lo m = true) (ha : lo ≤ a) :
    mwfFrom lo (mwrite m a v) = true := by
  induction m generalizing lo with
  | nil => simp only [mwrite]; split <;> simp_all [mwfFrom]
  | cons c t ih =>
    obtain ⟨j, b⟩ := c
    simp only [mwfFrom, Bool.and_eq_true, decide_eq_true_eq] at h
    simp only [mwrite]
    split
    · simp only [mwfFrom, Bool.and_eq_true, decide_eq_true_eq]
      exact ⟨h.1, ih _ h.2 (by omega)⟩
    · split
      · split
        · exact (mwfFrom_iff _ _).2 ⟨fun c hc =>
            ⟨by have := ((mwfFrom_iff _ _).1 h.2).1 c hc; omega, (((mwfFrom_iff _ _).1 h.2).1 c hc).2⟩,
            ((mwfFrom_iff _ _).1 h.2).2⟩
        · simp_all [mwfFrom]
      · split <;> simp_all [mwfFrom]; omega

/-- A byte's write keeps the form. -/
theorem wf_mwrite {m : Mem} (h : Memory.wf m = true) (a : Nat) (v : Byte) : Memory.wf (mwrite m a v) = true :=
  mwfFrom_mwrite 0 m a v h (Nat.zero_le a)

theorem mcells_mem {a : Nat} {bs : List Byte} {c : Nat × Byte} (h : c ∈ mcells a bs) :
    a ≤ c.1 ∧ c.1 < a + bs.length ∧ c.2 ≠ 0 := by
  induction bs generalizing a with
  | nil => simp [mcells] at h
  | cons b bs ih =>
    simp only [mcells] at h
    split at h
    · have := ih h; simp only [List.length_cons]; exact ⟨by omega, by omega, this.2.2⟩
    · rcases List.mem_cons.1 h with rfl | h
      · refine ⟨Nat.le_refl _, ?_, by assumption⟩; simp
      · have := ih h; simp only [List.length_cons]; exact ⟨by omega, by omega, this.2.2⟩

theorem mcells_rise (a : Nat) (bs : List Byte) : (mcells a bs).Pairwise fun x y => x.1 < y.1 := by
  induction bs generalizing a with
  | nil => simp [mcells]
  | cons b bs ih =>
    simp only [mcells]
    split
    · exact ih _
    · exact List.pairwise_cons.2 ⟨fun c hc => by have := mcells_mem hc; simp only; omega, ih _⟩

/-- Cells of a range in place of what the range held keep the form. -/
theorem wf_msplice {m : Mem} (h : Memory.wf m = true) (a n : Nat) (cells : Mem)
    (hc : ∀ c ∈ cells, a ≤ c.1 ∧ c.1 < a + n ∧ c.2 ≠ 0) (hr : cells.Pairwise fun x y => x.1 < y.1) :
    Memory.wf (msplice m a n cells) = true := by
  rw [wf_iff] at h ⊢
  refine ⟨?_, ?_⟩
  · intro c hm
    simp only [msplice, List.mem_append, List.mem_filter] at hm
    rcases hm with hm | hm | hm
    · exact h.1 c hm.1
    · exact (hc c hm).2.2
    · exact h.1 c hm.1
  · simp only [msplice, List.pairwise_append, List.mem_append, List.mem_filter, decide_eq_true_eq]
    refine ⟨h.2.filter _, ⟨hr, h.2.filter _, ?_⟩, ?_⟩
    · intro x hx y hy; have := hc x hx; omega
    · rintro x ⟨-, hx⟩ y (hy | ⟨-, hy⟩)
      · have := hc y hy; omega
      · omega

theorem wf_mwriteBytes {m : Mem} (h : Memory.wf m = true) (a : Nat) (bs : List Byte) :
    Memory.wf (mwriteBytes m a bs) = true :=
  wf_msplice h a _ _ (fun _ => mcells_mem) (mcells_rise a bs)

theorem wf_mwriteLE {m : Mem} (h : Memory.wf m = true) (a n v : Nat) : Memory.wf (mwriteLE m a n v) = true :=
  wf_mwriteBytes h a _

theorem wf_mwriteCells {m : Mem} (h : Memory.wf m = true) (cs : List (Nat × BitVec 8)) :
    Memory.wf (mwriteCells m cs) = true := by
  induction cs generalizing m with
  | nil => exact h
  | cons c cs ih => exact ih (wf_mwrite h c.1 c.2)

theorem wf_mzero {m : Mem} (h : Memory.wf m = true) (a n : Nat) : Memory.wf (mzero m a n) = true :=
  wf_msplice h a n [] (by simp) List.Pairwise.nil

theorem wf_mcopy {m' m : Mem} (h' : Memory.wf m' = true) (h : Memory.wf m = true) (dst src n : Nat) :
    Memory.wf (mcopy m' m dst src n) = true := by
  rw [wf_iff] at h
  refine wf_msplice h' dst n _ ?_ ?_
  · intro c hc
    simp only [List.mem_map, List.mem_filter, Bool.and_eq_true, decide_eq_true_eq] at hc
    obtain ⟨x, ⟨hx, h1, h2⟩, rfl⟩ := hc
    exact ⟨by simp only; omega, by simp only; omega, h.1 x hx⟩
  · rw [List.pairwise_map, List.pairwise_filter]
    refine h.2.imp fun {x y} hxy hx hy => ?_
    simp only [Bool.and_eq_true, decide_eq_true_eq] at hx hy
    simp only; omega

theorem wf_filter {m : Mem} (h : Memory.wf m = true) (p : Nat × Byte → Bool) : Memory.wf (m.filter p) = true := by
  rw [wf_iff] at h ⊢
  exact ⟨fun c hc => h.1 c (List.mem_filter.1 hc).1, h.2.filter _⟩

/-- An image's bytes as cells from address 0, its zero bytes left out. -/
theorem wf_zipRange (bs : List Byte) :
    Memory.wf (((List.range bs.length).zip bs).filter fun c => decide (c.2 ≠ 0)) = true := by
  rw [wf_iff]
  refine ⟨fun c hc => by simpa using (List.mem_filter.1 hc).2, List.Pairwise.filter _ ?_⟩
  rw [← List.pairwise_map (f := Prod.fst) (R := fun a b : Nat => a < b), List.map_fst_zip (by simp)]
  exact List.pairwise_lt_range

/-! ### Reads -/

theorem mread_of_below {m : Mem} {a : Nat} (h : ∀ c ∈ m, a < c.1) : mread m a = 0 := by
  induction m with
  | nil => rfl
  | cons c t ih =>
    obtain ⟨j, b⟩ := c
    have h1 := h (j, b) List.mem_cons_self
    simp only [mread]
    rw [if_neg (by simp only at h1; omega)]
    exact ih fun c hc => h c (List.mem_cons_of_mem _ hc)

/-- What a byte reads as after one byte is written. -/
theorem mread_mwrite {m : Mem} (h : Memory.wf m = true) (a b : Nat) (v : Byte) :
    mread (mwrite m a v) b = if b = a then v else mread m b := by
  have key : ∀ lo (m : Mem), mwfFrom lo m = true →
      mread (mwrite m a v) b = if b = a then v else mread m b := by
    intro lo m
    induction m generalizing lo with
    | nil =>
      intro _
      simp only [mwrite]
      split
      · subst_vars; simp [mread]
      · simp only [mread]; split <;> split <;> first | rfl | omega
    | cons c t ih =>
      obtain ⟨j, w⟩ := c
      intro hw
      have hlow : ∀ c ∈ t, j < c.1 := fun c hc => (((mwfFrom_iff _ _).1 hw).2 |> List.pairwise_cons.1).1 c hc
      simp only [mwfFrom, Bool.and_eq_true] at hw
      simp only [mwrite]
      split
      · simp only [mread, ih _ hw.2]
        split <;> split <;> first | rfl | omega
      · split
        · subst_vars
          split
          · subst_vars
            by_cases hb : b = j
            · subst hb; simp [mread_of_below hlow]
            · simp [mread, hb, Ne.symm hb]
          · by_cases hb : b = j
            · subst hb; simp [mread]
            · simp [mread, hb, Ne.symm hb]
        · split
          · by_cases hb : b = a
            · subst hb; subst_vars
              simp only [mread, if_true]
              rw [if_neg (by omega)]
              exact mread_of_below fun c hc => by have := hlow c hc; omega
            · simp [hb]
          · by_cases hb : b = a
            · subst hb; simp [mread]
            · simp [mread, hb, Ne.symm hb]
  exact key 0 m h

end Sys2Proof.Machine
end

