-- ==== Sys2Proof/Laws/Kept.lean ====
section
/-! SUPPORT. What every operation keeps: the queue of commands, and the canonical form of the memories. -/

namespace Sys2Proof.Machine

open Sys2Proof

/-- `t` comes from `s` with the queue of commands as it was, and with canonical memories if it had them. -/
structure Kept (s t : State) : Prop where
  pending : t.pending = s.pending
  mem : MemOk s → MemOk t

theorem Kept.rfl {s : State} : Kept s s := ⟨by exact Eq.refl _, id⟩

theorem Kept.upd {s0 s : State} (h : Kept s0 s) {fresh regs counts gtb clk hif saf cau} {mgc : Mgc}
    {tge disp psm pat syn trc chn blq lnk sls rex tst asks} (hm : mgc.sram = s.mgc.sram) :
    Kept s0 (State.mk s.pending fresh regs counts s.mem s.host gtb clk hif saf cau mgc tge disp psm pat syn trc
      chn blq lnk sls rex tst asks) :=
  ⟨h.pending, fun a => ⟨(h.mem a).1, (h.mem a).2.1, hm ▸ (h.mem a).2.2⟩⟩

theorem Kept.updMem {s0 s : State} (h : Kept s0 s) {mem : Mem} {fresh regs counts gtb clk hif saf cau}
    {tge disp psm pat syn trc chn blq lnk sls rex tst asks}
    (hm : Memory.wf s.mem = true → Memory.wf s.host = true → Memory.wf mem = true) :
    Kept s0 (State.mk s.pending fresh regs counts mem s.host gtb clk hif saf cau s.mgc tge disp psm pat syn trc
      chn blq lnk sls rex tst asks) :=
  ⟨h.pending, fun a => ⟨hm (h.mem a).1 (h.mem a).2.1, (h.mem a).2.1, (h.mem a).2.2⟩⟩

theorem Kept.updHost {s0 s : State} (h : Kept s0 s) {host : Mem} {fresh regs counts gtb clk hif saf cau}
    {tge disp psm pat syn trc chn blq lnk sls rex tst asks}
    (hm : Memory.wf s.mem = true → Memory.wf s.host = true → Memory.wf host = true) :
    Kept s0 (State.mk s.pending fresh regs counts s.mem host gtb clk hif saf cau s.mgc tge disp psm pat syn trc
      chn blq lnk sls rex tst asks) :=
  ⟨h.pending, fun a => ⟨(h.mem a).1, hm (h.mem a).1 (h.mem a).2.1, (h.mem a).2.2⟩⟩

theorem Kept.updSram {s0 s : State} (h : Kept s0 s) {fresh regs counts gtb clk hif saf cau} {mgc : Mgc}
    {tge disp psm pat syn trc chn blq lnk sls rex tst asks} (hm : Memory.wf mgc.sram = true) :
    Kept s0 (State.mk s.pending fresh regs counts s.mem s.host gtb clk hif saf cau mgc tge disp psm pat syn trc
      chn blq lnk sls rex tst asks) :=
  ⟨h.pending, fun a => ⟨(h.mem a).1, (h.mem a).2.1, hm⟩⟩

theorem Kept.ite {s0 a b : State} {c : Prop} [Decidable c] (h1 : Kept s0 a) (h2 : Kept s0 b) :
    Kept s0 (if c then a else b) := by split <;> assumption

theorem Kept.foldl {s0 s : State} {α : Type} {f : State → α → State} (l : List α) (h : Kept s0 s)
    (hf : ∀ s a, Kept s0 s → Kept s0 (f s a)) : Kept s0 (l.foldl f s) := by
  induction l generalizing s with
  | nil => exact h
  | cons a l ih => exact ih (hf s a h)

theorem Kept.getD {s0 s : State} {o : Option State} (h : Kept s0 s) (ho : ∀ t, o = some t → Kept s0 t) :
    Kept s0 (o.getD s) := by cases o <;> simp_all

/-- The state of an answer is kept. -/
def KP {β : Type} (s0 : State) (p : State × β) : Prop := Kept s0 p.1
/-- The state of an answer is kept. -/
def PK {β : Type} (s0 : State) (p : β × State) : Prop := Kept s0 p.2
/-- The state of an answer, if there is one, is kept. -/
def KO (s0 : State) (o : Option State) : Prop := ∀ t, o = some t → Kept s0 t
/-- The state of an answer, if there is one, is kept. -/
def KOP {β : Type} (s0 : State) (o : Option (β × State)) : Prop := ∀ a t, o = some (a, t) → Kept s0 t
/-- The state of an outcome, if it has one, is kept. -/
def KOut (s0 : State) (o : Host.Outcome State Fault Refusal) : Prop := ∀ t, o = .next t → Kept s0 t
/-- The state of a write's answer, if it has one, is kept. -/
def KW (s0 : State) (o : WriteRes) : Prop := ∀ t, o = .done t → Kept s0 t
/-- The state of a translation's answer, if it has one, is kept. -/
def KX (s0 : State) (o : XRes) : Prop :=
  (∀ a b c d t, o = .frame a b c d t → Kept s0 t) ∧ ∀ t, o = .wait t → Kept s0 t
/-- The state of an access's answer, if it has one, is kept. -/
def KM {β : Type} (s0 : State) (o : MemRes β) : Prop :=
  (∀ a t, o = .ok a t → Kept s0 t) ∧ ∀ t, o = .wait t → Kept s0 t
/-- The state of an issue's answer, if it has one, is kept. -/
def KI (s0 : State) (o : Issue) : Prop := ∀ t, o = .stop t → Kept s0 t

theorem KP.mk {β : Type} {s0 t : State} {x : β} (h : Kept s0 t) : KP s0 (t, x) := h
theorem PK.mk {β : Type} {s0 t : State} {x : β} (h : Kept s0 t) : PK s0 (x, t) := h
theorem KP.fst {β : Type} {s0 : State} {p : State × β} (h : KP s0 p) : Kept s0 p.1 := h
theorem PK.snd {β : Type} {s0 : State} {p : β × State} (h : PK s0 p) : Kept s0 p.2 := h
theorem KP.get {β : Type} {s0 t : State} {x : β} {p : State × β} (h : KP s0 p) (e : p = (t, x)) : Kept s0 t := by
  subst e; exact h
theorem PK.get {β : Type} {s0 t : State} {x : β} {p : β × State} (h : PK s0 p) (e : p = (x, t)) : Kept s0 t := by
  subst e; exact h
theorem KP.ite {β : Type} {s0 : State} {a b : State × β} {c : Prop} [Decidable c] (h1 : KP s0 a) (h2 : KP s0 b) :
    KP s0 (if c then a else b) := by split <;> assumption
theorem PK.ite {β : Type} {s0 : State} {a b : β × State} {c : Prop} [Decidable c] (h1 : PK s0 a) (h2 : PK s0 b) :
    PK s0 (if c then a else b) := by split <;> assumption
theorem KP.foldl {α β : Type} {s0 : State} {p : State × β} {f : State × β → α → State × β} (l : List α)
    (h : KP s0 p) (hf : ∀ p a, KP s0 p → KP s0 (f p a)) : KP s0 (l.foldl f p) := by
  induction l generalizing p with
  | nil => exact h
  | cons a l ih => exact ih (hf p a h)

theorem KO.none {s0 : State} : KO s0 none := fun _ e => by cases e
theorem KO.some {s0 t : State} (h : Kept s0 t) : KO s0 (some t) := fun _ e => by cases e; exact h
theorem KO.map {s0 : State} {o : Option State} {f : State → State} (h : KO s0 o)
    (hf : ∀ s, Kept s0 s → Kept s0 (f s)) : KO s0 (o.map f) := fun t e => by
  cases o with
  | none => cases e
  | some s => cases e; exact hf s (h s (by exact Eq.refl _))
theorem KO.bind {s0 : State} {o : Option State} {f : State → Option State} (h : KO s0 o)
    (hf : ∀ s, Kept s0 s → KO s0 (f s)) : KO s0 (o.bind f) := fun t e => by
  cases o with
  | none => cases e
  | some s => exact hf s (h s (by exact Eq.refl _)) t e
theorem KO.ite {s0 : State} {a b : Option State} {c : Prop} [Decidable c] (h1 : KO s0 a) (h2 : KO s0 b) :
    KO s0 (if c then a else b) := by split <;> assumption
theorem KO.get {s0 t : State} {o : Option State} (h : KO s0 o) (e : o = .some t) : Kept s0 t := h t e
theorem KO.getD {s0 s : State} {o : Option State} (h : KO s0 o) (hs : Kept s0 s) : Kept s0 (o.getD s) :=
  Kept.getD hs h
theorem KO.findSome {α : Type} {s0 : State} {f : α → Option State} (l : List α) (h : ∀ a, KO s0 (f a)) :
    KO s0 (l.findSome? f) := fun t e => by
  obtain ⟨a, -, ha⟩ := List.exists_of_findSome?_eq_some e
  exact h a t ha

theorem KOP.none {β : Type} {s0 : State} : KOP (β := β) s0 none := fun _ _ e => by cases e
theorem KOP.some {β : Type} {s0 t : State} {x : β} (h : Kept s0 t) : KOP s0 (some (x, t)) :=
  fun _ _ e => by cases e; exact h
theorem KOP.map {β : Type} {s0 : State} {o : Option (β × State)} (h : KOP s0 o) :
    KO s0 (o.map fun p => p.2) := fun t e => by
  cases o with
  | none => cases e
  | some p => cases e; exact h p.1 p.2 (by exact Eq.refl _)
theorem KOP.ite {β : Type} {s0 : State} {a b : Option (β × State)} {c : Prop} [Decidable c] (h1 : KOP s0 a)
    (h2 : KOP s0 b) : KOP s0 (if c then a else b) := by split <;> assumption
theorem KOP.get {β : Type} {s0 t : State} {x : β} {o : Option (β × State)} (h : KOP s0 o) (e : o = .some (x, t)) :
    Kept s0 t := h x t e

theorem KOut.next {s0 t : State} (h : Kept s0 t) : KOut s0 (.next t) := fun _ e => by cases e; exact h
theorem KOut.ite {s0 : State} {a b : Host.Outcome State Fault Refusal} {c : Prop} [Decidable c] (h1 : KOut s0 a)
    (h2 : KOut s0 b) : KOut s0 (if c then a else b) := by split <;> assumption
theorem KOut.get {s0 t : State} {o : Host.Outcome State Fault Refusal} (h : KOut s0 o) (e : o = .next t) :
    Kept s0 t := h t e

theorem KW.done {s0 t : State} (h : Kept s0 t) : KW s0 (.done t) := fun _ e => by cases e; exact h
theorem KW.wait {s0 : State} : KW s0 .wait := fun _ e => by cases e
theorem KW.fault {s0 : State} : KW s0 .fault := fun _ e => by cases e
theorem KW.ite {s0 : State} {a b : WriteRes} {c : Prop} [Decidable c] (h1 : KW s0 a) (h2 : KW s0 b) :
    KW s0 (if c then a else b) := by split <;> assumption
theorem KW.get {s0 t : State} {o : WriteRes} (h : KW s0 o) (e : o = .done t) : Kept s0 t := h t e

theorem KX.frame {s0 t : State} {a b c d} (h : Kept s0 t) : KX s0 (.frame a b c d t) :=
  ⟨fun _ _ _ _ _ e => (by cases e; exact h), fun _ e => by cases e⟩
theorem KX.wait {s0 t : State} (h : Kept s0 t) : KX s0 (.wait t) :=
  ⟨fun _ _ _ _ _ e => (by cases e), fun _ e => by cases e; exact h⟩
theorem KX.fault {s0 : State} {a} : KX s0 (.fault a) := ⟨fun _ _ _ _ _ e => (by cases e), fun _ e => by cases e⟩
theorem KX.ite {s0 : State} {a b : XRes} {c : Prop} [Decidable c] (h1 : KX s0 a) (h2 : KX s0 b) :
    KX s0 (if c then a else b) := by split <;> assumption
theorem KX.get {s0 t : State} {o : XRes} {a b c d} (h : KX s0 o)
    (e : o = .frame a b c d t) : Kept s0 t := h.1 _ _ _ _ t e
theorem KX.getWait {s0 t : State} {o : XRes} (h : KX s0 o) (e : o = .wait t) : Kept s0 t := h.2 t e

theorem KM.ok {β : Type} {s0 t : State} {a : β} (h : Kept s0 t) : KM s0 (.ok a t) :=
  ⟨fun _ _ e => (by cases e; exact h), fun _ e => by cases e⟩
theorem KM.wait {β : Type} {s0 t : State} (h : Kept s0 t) : KM (β := β) s0 (.wait t) :=
  ⟨fun _ _ e => (by cases e), fun _ e => by cases e; exact h⟩
theorem KM.fault {β : Type} {s0 : State} {a b} : KM (β := β) s0 (.fault a b) :=
  ⟨fun _ _ e => (by cases e), fun _ e => by cases e⟩
theorem KM.ite {β : Type} {s0 : State} {a b : MemRes β} {c : Prop} [Decidable c] (h1 : KM s0 a) (h2 : KM s0 b) :
    KM s0 (if c then a else b) := by split <;> assumption
theorem KM.get {β : Type} {s0 t : State} {o : MemRes β} {a} (h : KM s0 o) (e : o = .ok a t) : Kept s0 t := h.1 _ t e
theorem KM.getWait {β : Type} {s0 t : State} {o : MemRes β} (h : KM s0 o) (e : o = .wait t) : Kept s0 t := h.2 t e

theorem KI.stop {s0 t : State} (h : Kept s0 t) : KI s0 (.stop t) := fun _ e => by cases e; exact h
theorem KI.none {s0 : State} : KI s0 .none := fun _ e => by cases e
theorem KI.go {s0 : State} {a b c d} : KI s0 (.go a b c d) := fun _ e => by cases e
theorem KI.ite {s0 : State} {a b : Issue} {c : Prop} [Decidable c] (h1 : KI s0 a) (h2 : KI s0 b) :
    KI s0 (if c then a else b) := by split <;> assumption
theorem KI.get {s0 t : State} {o : Issue} (h : KI s0 o) (e : o = .stop t) : Kept s0 t := h t e

/-- The state of a materialisation's answer, if it has one, is kept. -/
def KMt (s0 : State) (o : MatRes) : Prop := ∀ a t, o = .made a t → Kept s0 t
/-- The state of a sync operation's answer, if it has one, is kept. -/
def KSy (s0 : State) (o : SynRes) : Prop := ∀ a t, o = .ok a t → Kept s0 t

theorem KMt.made {s0 t : State} {a} (h : Kept s0 t) : KMt s0 (.made a t) := fun _ _ e => by cases e; exact h
theorem KMt.capacity {s0 : State} {a} : KMt s0 (.capacity a) := fun _ _ e => by cases e
theorem KMt.refused {s0 : State} {a} : KMt s0 (.refused a) := fun _ _ e => by cases e
theorem KMt.ite {s0 : State} {a b : MatRes} {c : Prop} [Decidable c] (h1 : KMt s0 a) (h2 : KMt s0 b) :
    KMt s0 (if c then a else b) := by split <;> assumption
theorem KMt.get {s0 t : State} {o : MatRes} {a} (h : KMt s0 o) (e : o = .made a t) : Kept s0 t := h _ t e

theorem KSy.ok {s0 t : State} {a} (h : Kept s0 t) : KSy s0 (.ok a t) := fun _ _ e => by cases e; exact h
theorem KSy.refused {s0 : State} {a} : KSy s0 (.refused a) := fun _ _ e => by cases e
theorem KSy.ite {s0 : State} {a b : SynRes} {c : Prop} [Decidable c] (h1 : KSy s0 a) (h2 : KSy s0 b) :
    KSy s0 (if c then a else b) := by split <;> assumption
theorem KSy.get {s0 t : State} {o : SynRes} {a} (h : KSy s0 o) (e : o = .ok a t) : Kept s0 t := h _ t e

end Sys2Proof.Machine
end

