-- ==== Sys2Proof/Laws/KeptOps.lean ====
section
/-! SUPPORT. The queue of commands and the canonical memories, kept by the shared operations, the host rings and the crypto unit. -/

namespace Sys2Proof.Machine

open Sys2Proof

theorem setReg_kept {s0 : State} {s : State} (h : Kept s0 s) (off v : Nat) : Kept s0 (setReg s off v) := by
  unfold setReg
  with_reducible repeat' first
    | assumption | apply Kept.ite | split | dsimp only | refine Kept.upd ?_ rfl

theorem setRegFld_kept {s0 : State} {s : State} (h : Kept s0 s) (off hi lo x : Nat) :
    Kept s0 (setRegFld s off hi lo x) := by
  unfold setRegFld
  with_reducible repeat' first
    | assumption | apply setReg_kept

theorem setRegBit_kept {s0 : State} {s : State} (h : Kept s0 s) (off i : Nat) (b : Bool) :
    Kept s0 (setRegBit s off i b) := by
  unfold setRegBit
  with_reducible repeat' first
    | assumption | apply setRegFld_kept

theorem addReg_kept {s0 : State} {s : State} (h : Kept s0 s) (off n : Nat) : Kept s0 (addReg s off n) := by
  unfold addReg
  with_reducible repeat' first
    | assumption | apply setReg_kept

theorem setReg64_kept {s0 : State} {s : State} (h : Kept s0 s) (off v : Nat) : Kept s0 (setReg64 s off v) := by
  unfold setReg64
  with_reducible repeat' first
    | assumption | apply setReg_kept

theorem queueOverrun_kept {s0 : State} {s : State} (h : Kept s0 s) (qctl n : Nat) :
    Kept s0 (queueOverrun s qctl n) := by
  unfold queueOverrun
  with_reducible repeat' first
    | assumption | apply setRegBit_kept | apply setRegFld_kept

theorem queueAbandon_kept {s0 : State} {s : State} (h : Kept s0 s) (qctl : Nat) : Kept s0
    (queueAbandon s qctl) := by
  unfold queueAbandon
  with_reducible repeat' first
    | assumption | apply setRegBit_kept | apply setRegFld_kept

theorem badAccessAt_kept {s0 : State} {s : State} (h : Kept s0 s) (off : Nat) : Kept s0 (badAccessAt s off) := by
  unfold badAccessAt
  with_reducible repeat' first
    | assumption | apply setReg_kept | apply setRegBit_kept | apply Kept.ite

theorem unmappedAt_kept {s0 : State} {s : State} (h : Kept s0 s) (off : Nat) : Kept s0 (unmappedAt s off) := by
  unfold unmappedAt
  with_reducible repeat' first
    | assumption | apply setReg_kept | apply setRegBit_kept | apply Kept.ite

theorem addLost_kept {s0 : State} (n : Nat) (a1 : List Nat) {s : State} (h : Kept s0 s) :
    Kept s0 (addLost n a1 s) := by
  induction a1 generalizing s with
  | nil => exact h
  | cons f fs ih =>
    simp only [addLost]
    split
    · exact ih h
    · exact ih (addReg_kept h _ _)

theorem prbsElapse_kept {s0 : State} (n : Nat) {s : State} (h : Kept s0 s) : Kept s0 (prbsElapse n s) := by
  unfold prbsElapse
  with_reducible repeat' first
    | assumption | apply Kept.ite | split | dsimp only | refine Kept.upd ?_ rfl

theorem crossTick_kept {s0 : State} {s : State} (h : Kept s0 s) (e : Nat) : Kept s0 (crossTick s e) := by
  unfold crossTick
  with_reducible repeat' first
    | assumption | apply Kept.ite | split | dsimp only | refine Kept.upd ?_ rfl

theorem elapse_kept {s0 : State} (n : Nat) {s : State} (h : Kept s0 s) : Kept s0 (elapse n s) := by
  unfold elapse
  with_reducible repeat' first
    | assumption | apply crossTick_kept | apply setRegBit_kept | apply setReg_kept | apply addLost_kept
    | apply prbsElapse_kept | apply Kept.ite | split | dsimp only | refine Kept.upd ?_ rfl

theorem advanceTo_kept {s0 : State} (t : Nat) {s : State} (h : Kept s0 s) : Kept s0 (advanceTo t s) := by
  unfold advanceTo
  with_reducible repeat' first
    | assumption | apply elapse_kept | apply Kept.ite

theorem advanceCclk_kept {s0 : State} (n : Nat) {s : State} (h : Kept s0 s) : Kept s0 (advanceCclk n s) := by
  unfold advanceCclk
  with_reducible repeat' first
    | assumption | apply elapse_kept | apply Kept.ite

theorem countLate_kept {s0 : State} {s : State} (h : Kept s0 s) (late : Bool) : Kept s0 (countLate s late) := by
  unfold countLate
  with_reducible repeat' first
    | assumption | apply addReg_kept | apply Kept.ite

theorem markFieldStamp_kept {s0 : State} {s : State} (h : Kept s0 s) (f : Nat) : Kept s0 (markFieldStamp s f) := by
  unfold markFieldStamp
  with_reducible repeat' first
    | assumption | apply Kept.ite | split | dsimp only | refine Kept.upd ?_ rfl

theorem ask_kept {s0 : State} {s : State} (h : Kept s0 s) (a : Ask) : Kept s0 (ask s a) := by
  unfold ask
  with_reducible repeat' first
    | assumption | apply Kept.ite | split | dsimp only | refine Kept.upd ?_ rfl

theorem draw_kept {s0 : State} {s : State} (h : Kept s0 s) : PK s0 (draw s) := by
  unfold draw
  with_reducible repeat' first
    | assumption | refine PK.ite ?_ ?_ | apply Kept.ite | split | dsimp only | refine PK.mk ?_
    | refine Kept.upd ?_ rfl

theorem hostWrite_kept {s0 : State} {s : State} (h : Kept s0 s) (c addr : Nat) (bs : List Byte) :
    Kept s0 (hostWrite s c addr bs) := by
  exact Kept.updHost h (hm := fun _ b => wf_mwriteBytes b _ _)

theorem setHctx_kept {s0 : State} {s : State} (h : Kept s0 s) (c : Nat) (h : HifCtx) : Kept s0 (setHctx s c h) := by
  unfold setHctx
  with_reducible repeat' first
    | assumption | apply Kept.ite | split | dsimp only | refine Kept.upd ?_ rfl

theorem sendMsg_kept {s0 : State} {s : State} (h : Kept s0 s) (c : Nat) : Kept s0 (sendMsg s c) := by
  unfold sendMsg
  with_reducible repeat' first
    | assumption | apply setHctx_kept | apply Kept.ite | split | dsimp only | refine Kept.upd ?_ rfl

theorem raiseIrq_kept {s0 : State} {s : State} (h : Kept s0 s) (c : Nat) : Kept s0 (raiseIrq s c) := by
  unfold raiseIrq
  with_reducible repeat' first
    | assumption | apply setHctx_kept | apply sendMsg_kept | apply Kept.ite

theorem sendEntry_kept {s0 : State} {s : State} (h : Kept s0 s) (e : HifEntry) : Kept s0 (sendEntry s e) := by
  unfold sendEntry
  with_reducible repeat' first
    | assumption | apply setRegBit_kept | apply queueOverrun_kept | apply Kept.ite | split | dsimp only
    | refine Kept.upd ?_ rfl

theorem writeEvent_kept {s0 : State} {s : State} (h : Kept s0 s) (e : EvEntry) : Kept s0 (writeEvent s e) := by
  unfold writeEvent
  with_reducible repeat' first
    | assumption | apply hostWrite_kept | apply setHctx_kept | apply raiseIrq_kept | apply Kept.ite

theorem queueEvent_kept {s0 : State} {s : State} (h : Kept s0 s) (c type sev src vint payload : Nat) :
    Kept s0 (queueEvent s c type sev src vint payload) := by
  unfold queueEvent
  with_reducible repeat' first
    | assumption | apply sendEntry_kept

theorem dropEvent_kept {s0 : State} {s : State} (h : Kept s0 s) (c : Nat) : Kept s0 (dropEvent s c) := by
  unfold dropEvent
  with_reducible repeat' first
    | assumption | apply setHctx_kept | apply setRegBit_kept | apply addReg_kept

theorem flushLost_kept {s0 : State} {s : State} (h : Kept s0 s) (c : Nat) : Kept s0 (flushLost s c) := by
  unfold flushLost
  with_reducible repeat' first
    | assumption | apply queueEvent_kept | apply setHctx_kept | apply Kept.ite

theorem raiseEvent_kept {s0 : State} {s : State} (h : Kept s0 s) (c type sev src vint payload : Nat) :
    Kept s0 (raiseEvent s c type sev src vint payload) := by
  unfold raiseEvent
  with_reducible repeat' first
    | assumption | apply dropEvent_kept | apply flushLost_kept | apply queueEvent_kept | apply Kept.ite

theorem showLoad_kept {s0 : State} {s : State} (h : Kept s0 s) (m : Cmd) (status : Nat) :
    Kept s0 (showLoad s m status) := by
  unfold showLoad
  with_reducible repeat' first
    | assumption | apply setRegFld_kept | apply Kept.ite

theorem complete_kept {s0 : State} {s : State} (h : Kept s0 s) (m : Cmd) (status detail result reruns : Nat) :
    Kept s0 (complete s m status detail result reruns) := by
  unfold complete
  with_reducible repeat' first
    | assumption | apply showLoad_kept | apply sendEntry_kept | apply Kept.ite | split | dsimp only
    | refine Kept.upd ?_ rfl

theorem completeWith_kept {s0 : State} {s : State} (h : Kept s0 s) (m : Cmd) (status detail : Nat) :
    Kept s0 (completeWith s m status detail) := by
  unfold completeWith
  with_reducible repeat' first
    | assumption | apply complete_kept

theorem completeOk_kept {s0 : State} {s : State} (h : Kept s0 s) (m : Cmd) (result : Nat) :
    Kept s0 (completeOk s m result) := by
  unfold completeOk
  with_reducible repeat' first
    | assumption | apply complete_kept

theorem badOperand_kept {s0 : State} {s : State} (h : Kept s0 s) (m : Cmd) (byte : Nat) :
    Kept s0 (badOperand s m byte) := by
  unfold badOperand
  with_reducible repeat' first
    | assumption | apply completeWith_kept

theorem popUnit_kept {s0 : State} {s : State} (h : Kept s0 s) (p : Cmd → Bool) : KOP s0 (popUnit s p) := by
  unfold popUnit
  with_reducible repeat' first
    | assumption | refine KOP.none | refine KOP.some ?_ | refine KOP.ite ?_ ?_ | apply Kept.ite | split
    | dsimp only | refine Kept.upd ?_ rfl

theorem modTally_kept {s0 : State} {s : State} (h : Kept s0 s) (late : Bool) (f : Tally → Tally) :
    Kept s0 (modTally s late f) := by
  unfold modTally
  with_reducible repeat' first
    | assumption | apply Kept.ite | split | dsimp only | refine Kept.upd ?_ rfl

theorem chargeBytes_kept {s0 : State} {s : State} (h : Kept s0 s) (c n : Nat) : Kept s0 (chargeBytes s c n) := by
  unfold chargeBytes
  with_reducible repeat' first
    | assumption | apply modTally_kept

theorem chargeWait_kept {s0 : State} {s : State} (h : Kept s0 s) (p w : Nat) : Kept s0 (chargeWait s p w) := by
  unfold chargeWait
  with_reducible repeat' first
    | assumption | apply modTally_kept

theorem cellarUp_kept {s0 : State} {s : State} (h : Kept s0 s) : Kept s0 (cellarUp s) := by
  unfold cellarUp
  with_reducible repeat' first
    | assumption | apply Kept.ite | split | dsimp only | refine Kept.upd ?_ rfl

theorem record_kept {s0 : State} {s : State} (h : Kept s0 s) (sev unit code : Nat) (ctx : Option Nat)
    (detail param : Nat) :
    Kept s0 (record s sev unit code ctx detail param) := by
  unfold record
  with_reducible repeat' first
    | assumption | apply setRegBit_kept | apply addReg_kept | apply queueOverrun_kept | apply Kept.ite | split
    | dsimp only | refine Kept.upd ?_ rfl

theorem lossKills_kept {s0 : State} {s : State} (h : Kept s0 s) (ctxs : List Nat) : Kept s0 (lossKills s ctxs) := by
  unfold lossKills
  with_reducible repeat' first
    | assumption | apply ask_kept | apply Kept.ite | refine Kept.foldl _ ?_ (fun _ _ _ => ?_)

theorem queueLoss_kept {s0 : State} {s : State} (h : Kept s0 s) (unit qctl : Nat) (ctxs : List Nat) :
    Kept s0 (queueLoss s unit qctl ctxs) := by
  unfold queueLoss
  with_reducible repeat' first
    | assumption | apply lossKills_kept | apply record_kept

theorem fullLoss_kept {s0 : State} {s : State} (h : Kept s0 s) (unit qctl : Nat) (ctxs : List Nat) :
    Kept s0 (fullLoss s unit qctl ctxs) := by
  unfold fullLoss
  with_reducible repeat' first
    | assumption | apply queueLoss_kept | apply queueOverrun_kept

theorem streamLoss_kept {s0 : State} {s : State} (h : Kept s0 s) (qctl n off i : Nat) :
    Kept s0 (streamLoss s qctl n off i) := by
  unfold streamLoss
  with_reducible repeat' first
    | assumption | apply setRegBit_kept | apply queueOverrun_kept | apply Kept.ite

theorem setRing_kept {s0 : State} {s : State} (h : Kept s0 s) (c r : Nat) (x : Ring) : Kept s0
    (setRing s c r x) := by
  unfold setRing
  with_reducible repeat' first
    | assumption | apply setHctx_kept

theorem headPass_kept {s0 : State} {s : State} (h : Kept s0 s) (c r : Nat) : Kept s0 (headPass s c r) := by
  unfold headPass
  with_reducible repeat' first
    | assumption | apply setRing_kept

theorem execSqnDb_kept {s0 : State} (c : Fin 64) (r : Fin 4) (v : Word) (mem : List (Nat × BitVec 8))
    {s : State} (h : Kept s0 s) :
    KOut s0 (execSqnDb c r v mem s) := by
  unfold execSqnDb
  dsimp only
  have h1 : Kept s0 { s with host := mwriteCells s.host (mem.map fun a : Nat × BitVec 8 => (hostKey s c a.1, a.2)) } :=
    Kept.updHost h (hm := fun _ b => wf_mwriteCells b _) ..
  generalize { s with host := mwriteCells s.host (mem.map fun a : Nat × BitVec 8 => (hostKey s c a.1, a.2)) } = t at h1 ⊢
  with_reducible repeat' first
    | assumption | refine KOut.next ?_ | refine KOut.ite ?_ ?_ | apply setRegBit_kept | apply setRing_kept
    | apply raiseEvent_kept

theorem execCqDb_kept {s0 : State} (c : Fin 64) (v : Word) {s : State} (h : Kept s0 s) :
    KOut s0 (execCqDb c v s) := by
  unfold execCqDb
  with_reducible repeat' first
    | assumption | refine KOut.next ?_ | refine KOut.ite ?_ ?_ | apply setRegBit_kept | apply setHctx_kept
    | apply raiseEvent_kept

theorem execEqDb_kept {s0 : State} (c : Fin 64) (v : Word) {s : State} (h : Kept s0 s) :
    KOut s0 (execEqDb c v s) := by
  unfold execEqDb
  with_reducible repeat' first
    | assumption | refine KOut.next ?_ | refine KOut.ite ?_ ?_ | apply setRegBit_kept | apply flushLost_kept
    | apply setHctx_kept

theorem execIrqRearmClear_kept {s0 : State} (c : Fin 64) {s : State} (h : Kept s0 s) :
    KOut s0 (execIrqRearmClear c s) := by
  unfold execIrqRearmClear
  with_reducible repeat' first
    | assumption | refine KOut.next ?_ | refine KOut.ite ?_ ?_ | apply setRegBit_kept | apply sendMsg_kept
    | apply Kept.ite

theorem execIrqRearmSet_kept {s0 : State} (c : Fin 64) {s : State} (h : Kept s0 s) :
    KOut s0 (execIrqRearmSet c s) := by
  unfold execIrqRearmSet
  with_reducible repeat' first
    | assumption | refine KOut.next ?_ | refine KOut.ite ?_ ?_ | apply setRegBit_kept

theorem execDoorbellBadAccess_kept {s0 : State} (c : Fin 64) {s : State} (h : Kept s0 s) :
    KOut s0 (execDoorbellBadAccess c s) := by
  unfold execDoorbellBadAccess
  with_reducible repeat' first
    | assumption | refine KOut.next ?_ | refine KOut.ite ?_ ?_ | apply setRegBit_kept | apply Kept.ite | split
    | dsimp only | refine Kept.upd ?_ rfl

theorem execHoldoffEnd_kept {s0 : State} (c : Fin 64) {s : State} (h : Kept s0 s) : KOut s0
    (execHoldoffEnd c s) := by
  unfold execHoldoffEnd
  with_reducible repeat' first
    | assumption | refine KOut.next ?_ | refine KOut.ite ?_ ?_ | apply advanceTo_kept | apply countLate_kept
    | apply sendMsg_kept | apply Kept.ite | split

theorem issueFetch_kept {s0 : State} {s : State} (h : Kept s0 s) (c r n : Nat) : Kept s0 (issueFetch s c r n) := by
  unfold issueFetch
  with_reducible repeat' first
    | assumption | apply setRing_kept | apply Kept.ite | split | dsimp only | refine Kept.upd ?_ rfl

theorem execDescriptorFetch_kept {s0 : State} {s : State} (h : Kept s0 s) : KOut s0 (execDescriptorFetch s) := by
  unfold execDescriptorFetch
  with_reducible repeat' first
    | assumption | refine KOut.next ?_ | refine KOut.ite ?_ ?_ | apply issueFetch_kept | apply Kept.ite | split

theorem arrive_kept {s0 : State} {s : State} (h : Kept s0 s) : Kept s0 (arrive s) := by
  unfold arrive
  with_reducible repeat' first
    | assumption | apply Kept.ite | split | dsimp only | refine Kept.upd ?_ rfl

theorem loseFrom_kept {s0 : State} {s : State} (h : Kept s0 s) (c r seq uid : Nat) :
    Kept s0 (loseFrom s c r seq uid) := by
  unfold loseFrom
  with_reducible repeat' first
    | assumption | apply setRing_kept | apply Kept.ite | split | dsimp only | refine Kept.upd ?_ rfl

theorem refetchFrom_kept {s0 : State} {s : State} (h : Kept s0 s) (c r seq uid : Nat) :
    Kept s0 (refetchFrom s c r seq uid) := by
  unfold refetchFrom
  with_reducible repeat' first
    | assumption | apply setRing_kept | apply Kept.ite | split | dsimp only | refine Kept.upd ?_ rfl

theorem execRingFetchError_kept {s0 : State} {s : State} (h : Kept s0 s) : KOut s0 (execRingFetchError s) := by
  unfold execRingFetchError
  with_reducible repeat' first
    | assumption | refine KOut.next ?_ | refine KOut.ite ?_ ?_ | apply refetchFrom_kept | apply setRing_kept
    | apply setRegBit_kept | apply raiseEvent_kept | apply Kept.ite | split

theorem refuseDescriptor_kept {s0 : State} {s : State} (h : Kept s0 s) (m : Cmd) (status detail : Nat) :
    Kept s0 (refuseDescriptor s m status detail) := by
  unfold refuseDescriptor
  with_reducible repeat' first
    | assumption | apply completeWith_kept | apply headPass_kept

theorem passCritical_kept {s0 : State} {s : State} (h : Kept s0 s) (m : Cmd) : Kept s0 (passCritical s m) := by
  unfold passCritical
  with_reducible repeat' first
    | assumption | apply loseFrom_kept | apply setRegBit_kept | apply queueOverrun_kept | apply Kept.ite | split
    | dsimp only | refine Kept.upd ?_ rfl

theorem passDescriptor_kept {s0 : State} {s : State} (h : Kept s0 s) (m : Cmd) : Kept s0 (passDescriptor s m) := by
  unfold passDescriptor
  with_reducible repeat' first
    | assumption | apply refuseDescriptor_kept | apply passCritical_kept | apply headPass_kept | apply Kept.ite
    | split | dsimp only | refine Kept.upd ?_ rfl

theorem execDescriptorReceived_kept {s0 : State} {s : State} (h : Kept s0 s) :
    KOut s0 (execDescriptorReceived s) := by
  unfold execDescriptorReceived
  with_reducible repeat' first
    | assumption | refine KOut.next ?_ | refine KOut.ite ?_ ?_ | apply arrive_kept | apply passDescriptor_kept
    | apply Kept.ite | split | dsimp only | refine Kept.upd ?_ rfl

theorem writeCpl_kept {s0 : State} {s : State} (h : Kept s0 s) (e : Cpl) : Kept s0 (writeCpl s e) := by
  unfold writeCpl
  with_reducible repeat' first
    | assumption | apply hostWrite_kept | apply setHctx_kept | apply setRegBit_kept | apply raiseEvent_kept
    | apply raiseIrq_kept | apply Kept.ite | split | dsimp only | refine Kept.upd ?_ rfl

theorem writeEntry_kept {s0 : State} {s : State} (h : Kept s0 s) (a1 : HifEntry) : Kept s0 (writeEntry s a1) := by
  unfold writeEntry
  with_reducible repeat' first
    | assumption | apply writeCpl_kept | apply writeEvent_kept | apply Kept.ite | split

theorem execCompletionEntryWrite_kept {s0 : State} {s : State} (h : Kept s0 s) :
    KOut s0 (execCompletionEntryWrite s) := by
  unfold execCompletionEntryWrite
  with_reducible repeat' first
    | assumption | refine KOut.next ?_ | refine KOut.ite ?_ ?_ | apply writeEntry_kept | apply Kept.ite | split
    | dsimp only | refine Kept.upd ?_ rfl

theorem execNop_kept {s0 : State} {s : State} (h : Kept s0 s) : KOut s0 (execNop s) := by
  unfold execNop
  with_reducible repeat' first
    | assumption | refine KOut.next ?_ | refine KOut.ite ?_ ?_ | apply popUnit_kept | apply completeOk_kept
    | refine KOP.get (popUnit_kept (h := ?_) ..) (by assumption) | apply Kept.ite | split

theorem writeCtxCfg_kept {s0 : State} {s : State} (h : Kept s0 s) (c w : Nat) : Kept s0 (writeCtxCfg s c w) := by
  unfold writeCtxCfg
  with_reducible repeat' first
    | assumption | apply setRegBit_kept | apply setReg_kept | apply flushLost_kept | apply setHctx_kept
    | apply Kept.ite

theorem execHifCtxEnable_kept {s0 : State} (c : Fin 64) (w : Word) {s : State} (h : Kept s0 s) :
    KOut s0 (execHifCtxEnable c w s) := by
  unfold execHifCtxEnable
  with_reducible repeat' first
    | assumption | refine KOut.next ?_ | refine KOut.ite ?_ ?_ | apply writeCtxCfg_kept

theorem ringStart_kept {s0 : State} {s : State} (h : Kept s0 s) (c r : Nat) : Kept s0 (ringStart s c r) := by
  unfold ringStart
  with_reducible repeat' first
    | assumption | apply setRegBit_kept | apply setRing_kept

theorem writeSqCfg_kept {s0 : State} {s : State} (h : Kept s0 s) (c r w : Nat) : Kept s0 (writeSqCfg s c r w) := by
  unfold writeSqCfg
  with_reducible repeat' first
    | assumption | apply setRegBit_kept | apply setRegFld_kept | apply setRing_kept | apply ringStart_kept
    | apply Kept.ite

theorem execRingEn_kept {s0 : State} (c : Fin 64) (r : Fin 4) (w : Word) {s : State} (h : Kept s0 s) :
    KOut s0 (execRingEn c r w s) := by
  unfold execRingEn
  with_reducible repeat' first
    | assumption | refine KOut.next ?_ | refine KOut.ite ?_ ?_ | apply writeSqCfg_kept

theorem execResetCounts_kept {s0 : State} (c : Fin 64) (r : Fin 4) (w : Word) {s : State} (h : Kept s0 s) :
    KOut s0 (execResetCounts c r w s) := by
  unfold execResetCounts
  with_reducible repeat' first
    | assumption | refine KOut.next ?_ | refine KOut.ite ?_ ?_ | apply writeSqCfg_kept

theorem execResetCountsEffect_kept {s0 : State} (c : Fin 64) (r : Fin 4) {s : State} (h : Kept s0 s) :
    KOut s0 (execResetCountsEffect c r s) := by
  unfold execResetCountsEffect
  with_reducible repeat' first
    | assumption | refine KOut.next ?_ | refine KOut.ite ?_ ?_ | apply setRing_kept | apply ringStart_kept
    | apply Kept.ite

theorem execFetchEn_kept {s0 : State} (b : Bool) {s : State} (h : Kept s0 s) : KOut s0 (execFetchEn b s) := by
  unfold execFetchEn
  with_reducible repeat' first
    | assumption | refine KOut.next ?_ | refine KOut.ite ?_ ?_ | apply setRegBit_kept

theorem setSlot_kept {s0 : State} {s : State} (h : Kept s0 s) (k : Nat) (x : KeySlot) : Kept s0
    (setSlot s k x) := by
  unfold setSlot
  with_reducible repeat' first
    | assumption | apply Kept.ite | split | dsimp only | refine Kept.upd ?_ rfl

theorem popCau_kept {s0 : State} {s : State} (h : Kept s0 s) : Kept s0 (popCau s) := by
  unfold popCau
  with_reducible repeat' first
    | assumption | apply headPass_kept | apply Kept.ite | split | dsimp only | refine Kept.upd ?_ rfl

theorem countAuthFail_kept {s0 : State} {s : State} (h : Kept s0 s) (m : Cmd) (reason detail : Nat) :
    Kept s0 (countAuthFail s m reason detail) := by
  unfold countAuthFail
  with_reducible repeat' first
    | assumption | apply setRegBit_kept | apply addReg_kept | apply record_kept | apply setSlot_kept
    | apply Kept.ite

theorem execCauCheck_kept {s0 : State} {s : State} (h : Kept s0 s) : KOut s0 (execCauCheck s) := by
  unfold execCauCheck
  with_reducible repeat' first
    | assumption | refine KOut.next ?_ | refine KOut.ite ?_ ?_ | apply completeWith_kept
    | apply countAuthFail_kept | apply popCau_kept | apply setRegBit_kept | apply addReg_kept | apply Kept.ite
    | split | dsimp only | refine Kept.upd ?_ rfl

theorem acceptCritical_kept {s0 : State} {s : State} (h : Kept s0 s) (m : Cmd) : Kept s0 (acceptCritical s m) := by
  unfold acceptCritical
  with_reducible repeat' first
    | assumption | apply setSlot_kept | apply popCau_kept | apply Kept.ite

theorem refuseCritical_kept {s0 : State} {s : State} (h : Kept s0 s) (m : Cmd) (status detail : Nat) :
    Kept s0 (refuseCritical s m status detail) := by
  unfold refuseCritical
  with_reducible repeat' first
    | assumption | apply completeWith_kept | apply popCau_kept

theorem execKeyLoad_kept {s0 : State} {s : State} (h : Kept s0 s) : KOut s0 (execKeyLoad s) := by
  unfold execKeyLoad
  with_reducible repeat' first
    | assumption | refine KOut.next ?_ | refine KOut.ite ?_ ?_ | apply refuseCritical_kept
    | apply acceptCritical_kept | apply completeOk_kept | apply setSlot_kept | apply Kept.ite | split

theorem execKeyRetire_kept {s0 : State} {s : State} (h : Kept s0 s) : KOut s0 (execKeyRetire s) := by
  unfold execKeyRetire
  with_reducible repeat' first
    | assumption | refine KOut.next ?_ | refine KOut.ite ?_ ?_ | apply refuseCritical_kept
    | apply acceptCritical_kept | apply completeOk_kept | apply setSlot_kept | apply Kept.ite | split

theorem execKatDone_kept {s0 : State} (ok : Bool) {s : State} (h : Kept s0 s) : KOut s0 (execKatDone ok s) := by
  unfold execKatDone
  with_reducible repeat' first
    | assumption | refine KOut.next ?_ | refine KOut.ite ?_ ?_ | apply cellarUp_kept | apply setRegFld_kept
    | apply record_kept

end Sys2Proof.Machine
end

