-- ==== Sys2Proof/Laws/KeptTge.lean ====
section
/-! SUPPORT. The queue of commands and the canonical memories, kept by tasks, pages, trace streams, ready lists, group time and the link. -/

namespace Sys2Proof.Machine

open Sys2Proof

theorem setCounter_kept {s0 : State} {s : State} (h : Kept s0 s) (t w : Nat) : Kept s0 (setCounter s t w) := by
  unfold setCounter
  with_reducible repeat' first
    | assumption | apply Kept.ite | split | dsimp only | refine Kept.upd ?_ rfl

theorem setImg_kept {s0 : State} {s : State} (h : Kept s0 s) (i : Nat) (x : Img) : Kept s0 (setImg s i x) := by
  unfold setImg
  with_reducible repeat' first
    | assumption | apply Kept.ite | split | dsimp only | refine Kept.upd ?_ rfl

theorem setStep_kept {s0 : State} {s : State} (h : Kept s0 s) (i : Nat) (x : Step) : Kept s0 (setStep s i x) := by
  unfold setStep
  with_reducible repeat' first
    | assumption | apply Kept.ite | split | dsimp only | refine Kept.upd ?_ rfl

theorem installTables_kept {s0 : State} {s : State} (h : Kept s0 s) (x : Img) (b : List Byte) :
    Kept s0 (installTables s x b) := by
  unfold installTables
  with_reducible repeat' first
    | assumption | apply Kept.ite | refine Kept.foldl _ ?_ (fun _ _ _ => ?_) | split | dsimp only
    | refine Kept.upd ?_ rfl

theorem streamTables_kept {s0 : State} {s : State} (h : Kept s0 s) (x : Img) (b : List Byte) (n : Nat)
    (dry : Bool) :
    Kept s0 (streamTables s x b n dry) := by
  unfold streamTables
  with_reducible repeat' first
    | assumption | apply draw_kept | refine PK.get (draw_kept (h := ?_) ..) (by assumption)
    | refine PK.snd (draw_kept (h := ?_) ..) | apply Kept.ite | refine Kept.foldl _ ?_ (fun _ _ _ => ?_) | split
    | dsimp only | refine Kept.upd ?_ rfl

theorem clearTables_kept {s0 : State} {s : State} (h : Kept s0 s) (x : Img) : Kept s0 (clearTables s x) := by
  unfold clearTables
  with_reducible repeat' first
    | assumption | apply Kept.ite | split | dsimp only | refine Kept.upd ?_ rfl

theorem pushDecs_kept {s0 : State} {s : State} (h : Kept s0 s) (l : List Dec) : Kept s0 (pushDecs s l) := by
  unfold pushDecs
  with_reducible repeat' first
    | assumption | apply Kept.ite | split | dsimp only | refine Kept.upd ?_ rfl

theorem noteStep_kept {s0 : State} {s : State} (h : Kept s0 s) (i k task cause : Nat) :
    Kept s0 (noteStep s i k task cause) := by
  unfold noteStep
  with_reducible repeat' first
    | assumption | apply setStep_kept | apply Kept.ite | split

theorem checkLow_kept {s0 : State} (low : Bool) {s : State} (h : Kept s0 s) : Kept s0 (checkLow low s) := by
  unfold checkLow
  with_reducible repeat' first
    | assumption | apply setRegBit_kept | apply raiseEvent_kept | apply Kept.ite
    | refine Kept.foldl _ ?_ (fun _ _ _ => ?_) | split | dsimp only | refine Kept.upd ?_ rfl

theorem takeFrame_kept {s0 : State} {s : State} (h : Kept s0 s) (c : Nat) (large : Bool) (use floor : Nat)
    (field : Option Nat) :
    KOP s0 (takeFrame s c large use floor field) := by
  unfold takeFrame
  with_reducible repeat' first
    | assumption | refine KOP.none | refine KOP.some ?_ | refine KOP.ite ?_ ?_ | apply checkLow_kept
    | refine PK.get (draw_kept (h := ?_) ..) (by assumption) | refine PK.snd (draw_kept (h := ?_) ..) | split
    | dsimp only | refine Kept.updMem ?_ (hm := fun a _ => wf_mzero a ..)

theorem freeFrame_kept {s0 : State} {s : State} (h : Kept s0 s) (k : Nat) : Kept s0 (freeFrame s k) := by
  unfold freeFrame
  with_reducible repeat' first
    | assumption | apply Kept.ite | split | dsimp only | refine Kept.updMem ?_ (hm := fun a _ => wf_mzero a ..)

theorem setUse_kept {s0 : State} {s : State} (h : Kept s0 s) (k use : Nat) : Kept s0 (setUse s k use) := by
  unfold setUse
  with_reducible repeat' first
    | assumption | apply Kept.ite | split | dsimp only | refine Kept.upd ?_ rfl

theorem newTable_kept {s0 : State} {s : State} (h : Kept s0 s) (c : Nat) (small : Bool) (field : Option Nat) :
    KOP s0 (newTable s c small field) := by
  unfold newTable
  with_reducible repeat' first
    | assumption | refine KOP.none | refine KOP.some ?_ | refine KOP.ite ?_ ?_ | apply takeFrame_kept
    | refine KOP.get (takeFrame_kept (h := ?_) ..) (by assumption) | apply Kept.ite | split | dsimp only
    | refine Kept.upd ?_ rfl

theorem ensureTables_kept {s0 : State} {s : State} (h : Kept s0 s) (c vpn : Nat) (field : Option Nat)
    (a1 : List Nat) :
    KO s0 (ensureTables s c vpn field a1) := by
  induction a1 generalizing s with
  | nil => exact KO.some h
  | cons l ls ih =>
    simp only [ensureTables]
    with_reducible repeat' first
      | assumption | apply ih | refine KO.none | refine KOP.get (newTable_kept (h := ?_) ..) (by assumption)
      | split | refine Kept.updMem ?_ (hm := fun a _ => wf_mwriteLE a ..) | refine Kept.upd ?_ rfl

theorem writeLeaf_kept {s0 : State} {s : State} (h : Kept s0 s) (c vpn : Nat) (m : PageMap) :
    Kept s0 (writeLeaf s c vpn m) := by
  unfold writeLeaf
  with_reducible repeat' first
    | assumption | apply Kept.ite | split | dsimp only
    | refine Kept.updMem ?_ (hm := fun a _ => wf_mwriteLE a ..) | refine Kept.upd ?_ rfl

theorem pruneTables_kept {s0 : State} {s : State} (h : Kept s0 s) (c vpn : Nat) (a1 : List Nat) :
    Kept s0 (pruneTables s c vpn a1) := by
  induction a1 generalizing s with
  | nil => exact h
  | cons l ls ih =>
    simp only [pruneTables]
    with_reducible repeat' first
      | assumption | apply ih | apply freeFrame_kept | apply Kept.ite | split
      | refine Kept.updMem ?_ (hm := fun a _ => wf_mwriteLE a ..) | refine Kept.upd ?_ rfl

theorem clearLeaf_kept {s0 : State} {s : State} (h : Kept s0 s) (c vpn : Nat) : Kept s0 (clearLeaf s c vpn) := by
  unfold clearLeaf
  with_reducible repeat' first
    | assumption | apply pruneTables_kept | apply Kept.ite | split | dsimp only
    | refine Kept.updMem ?_ (hm := fun a _ => wf_mwriteLE a ..) | refine Kept.upd ?_ rfl

theorem freeWay_kept {s0 : State} {s : State} (h : Kept s0 s) (key : Nat) : Kept s0 (freeWay s key) := by
  unfold freeWay
  with_reducible repeat' first
    | assumption | apply draw_kept | refine PK.get (draw_kept (h := ?_) ..) (by assumption)
    | refine PK.snd (draw_kept (h := ?_) ..) | apply Kept.ite | split | dsimp only | refine Kept.upd ?_ rfl

theorem enterCache_kept {s0 : State} {s : State} (h : Kept s0 s) (key : Nat) : Kept s0 (enterCache s key) := by
  unfold enterCache
  with_reducible repeat' first
    | assumption | apply freeWay_kept | apply Kept.ite | split | dsimp only | refine Kept.upd ?_ rfl

theorem cacheIn_kept {s0 : State} {s : State} (h : Kept s0 s) (key : Nat) : Kept s0 (cacheIn s key) := by
  unfold cacheIn
  with_reducible repeat' first
    | assumption | apply enterCache_kept | apply addReg_kept | apply Kept.ite

theorem fillFrame_kept {s0 : State} {s : State} (h : Kept s0 s) (k : Nat) (large : Bool) (fill : Nat)
    (src : Option Nat) :
    Kept s0 (fillFrame s k large fill src) := by
  unfold fillFrame
  split
  · split
    · exact h.updMem (hm := fun a _ => wf_mcopy a a _ _ _)
    · exact h
  · exact h

theorem mapForWrite_kept {s0 : State} {s : State} (h : Kept s0 s) (c vpn : Nat) (g : Region) (field : Option Nat) :
    KO s0 (mapForWrite s c vpn g field) := by
  unfold mapForWrite
  with_reducible repeat' first
    | assumption | refine KO.none | refine KO.some ?_ | refine KO.ite ?_ ?_ | apply takeFrame_kept
    | apply ensureTables_kept | apply writeLeaf_kept
    | refine KOP.get (takeFrame_kept (h := ?_) ..) (by assumption)
    | refine KO.get (ensureTables_kept (h := ?_) ..) (by assumption) | apply Kept.ite | split

theorem writePage_kept {s0 : State} {s : State} (h : Kept s0 s) (c va : Nat) (bs : List Byte) :
    KW s0 (writePage s c va bs) := by
  unfold writePage
  with_reducible repeat' first
    | assumption | refine KW.done ?_ | refine KW.wait | refine KW.fault | refine KW.ite ?_ ?_
    | apply mapForWrite_kept | refine KO.get (mapForWrite_kept (h := ?_) ..) (by assumption) | apply Kept.ite
    | split | dsimp only | refine Kept.updMem ?_ (hm := fun a _ => wf_mwriteBytes a ..)

theorem noteWait_kept {s0 : State} {s : State} (h : Kept s0 s) (c size : Nat) : Kept s0 (noteWait s c size) := by
  unfold noteWait
  with_reducible repeat' first
    | assumption | apply setRegBit_kept | apply Kept.ite

theorem deferFrame_kept {s0 : State} {s : State} (h : Kept s0 s) (c k : Nat) : Kept s0 (deferFrame s c k) := by
  unfold deferFrame
  with_reducible repeat' first
    | assumption | apply setUse_kept | apply Kept.ite | split | dsimp only | refine Kept.upd ?_ rfl

theorem notePageFault_kept {s0 : State} {s : State} (h : Kept s0 s) (c code vpn source : Nat) (write : Bool)
    (vint : Nat) :
    Kept s0 (notePageFault s c code vpn source write vint) := by
  unfold notePageFault
  with_reducible repeat' first
    | assumption | apply addReg_kept | apply setRegBit_kept | apply setRegFld_kept | apply setReg_kept
    | apply raiseEvent_kept | apply Kept.ite

theorem unitWritePage_kept {s0 : State} {s : State} (h : Kept s0 s) (c va : Nat) (bs : List Byte) :
    KP s0 (unitWritePage s c va bs) := by
  unfold unitWritePage
  with_reducible repeat' first
    | assumption | refine KP.ite ?_ ?_ | apply setRegBit_kept | apply writePage_kept | apply noteWait_kept
    | refine KW.get (writePage_kept (h := ?_) ..) (by assumption) | apply Kept.ite | split | dsimp only
    | refine KP.mk ?_ | refine Kept.upd ?_ rfl

theorem unitWriteGo_kept {s0 : State} (c : Nat) (a1 : Nat) {s : State} (h : Kept s0 s) (a3 : Nat) (a4 : List Byte) :
    KP s0 (unitWriteGo c a1 s a3 a4) := by
  induction a1 generalizing s a3 a4 with
  | zero => exact KP.mk h
  | succ n ih =>
    simp only [unitWriteGo]
    with_reducible repeat' first
      | assumption | apply ih | refine KP.fst (unitWritePage_kept (h := ?_) ..) | apply KP.ite | split
      | refine KP.mk ?_

theorem unitWrite_kept {s0 : State} {s : State} (h : Kept s0 s) (c va : Nat) (bs : List Byte) :
    KP s0 (unitWrite s c va bs) := by
  exact unitWriteGo_kept _ _ h _ _

theorem unitWritePlain_kept {s0 : State} {s : State} (h : Kept s0 s) (c va : Nat) (bs : List Byte) :
    Kept s0 (unitWritePlain s c va bs) := by
  unfold unitWritePlain
  with_reducible repeat' first
    | assumption | apply unitWrite_kept | apply notePageFault_kept
    | refine KP.get (unitWrite_kept (h := ?_) ..) (by assumption) | refine KP.fst (unitWrite_kept (h := ?_) ..)
    | apply Kept.ite

theorem addCount_kept {s0 : State} {s : State} (h : Kept s0 s) (off n : Nat) : Kept s0 (addCount s off n) := by
  unfold addCount
  with_reducible repeat' first
    | assumption | apply Kept.ite | split | dsimp only | refine Kept.upd ?_ rfl

theorem dueCel_kept {s0 : State} {s : State} (h : Kept s0 s) : Kept s0 (dueCel s) := by
  unfold dueCel
  with_reducible repeat' first
    | assumption | apply Kept.ite | split | dsimp only | refine Kept.upd ?_ rfl

theorem traceCel_kept {s0 : State} {s : State} (h : Kept s0 s) (rec : Nat) : Kept s0 (traceCel s rec) := by
  unfold traceCel
  with_reducible repeat' first
    | assumption | apply dueCel_kept | apply queueOverrun_kept | apply Kept.ite | split | dsimp only
    | refine Kept.upd ?_ rfl

theorem markSrcStamp_kept {s0 : State} {s : State} (h : Kept s0 s) (src : Nat) : Kept s0 (markSrcStamp s src) := by
  unfold markSrcStamp
  with_reducible repeat' first
    | assumption | apply markFieldStamp_kept | apply Kept.ite | split | dsimp only | refine Kept.upd ?_ rfl

theorem dueSrc_kept {s0 : State} {s : State} (h : Kept s0 s) (src : Nat) : Kept s0 (dueSrc s src) := by
  unfold dueSrc
  with_reducible repeat' first
    | assumption | apply markSrcStamp_kept | apply Kept.ite | split | dsimp only | refine Kept.upd ?_ rfl

theorem traceSrc_kept {s0 : State} {s : State} (h : Kept s0 s) (src body : Nat) : Kept s0
    (traceSrc s src body) := by
  unfold traceSrc
  with_reducible repeat' first
    | assumption | apply dueSrc_kept | apply markSrcStamp_kept | apply addReg_kept | apply Kept.ite | split
    | dsimp only | refine Kept.upd ?_ rfl

theorem dueFieldAt_kept {s0 : State} {s : State} (h : Kept s0 s) (f stamp : Nat) :
    Kept s0 (dueFieldAt s f stamp) := by
  unfold dueFieldAt
  with_reducible repeat' first
    | assumption | apply markFieldStamp_kept | apply Kept.ite | split | dsimp only | refine Kept.upd ?_ rfl

theorem dueField_kept {s0 : State} {s : State} (h : Kept s0 s) (f : Nat) : Kept s0 (dueField s f) := by
  unfold dueField
  with_reducible repeat' first
    | assumption | apply dueFieldAt_kept

theorem duesOf_kept {s0 : State} {s : State} (h : Kept s0 s) (f : Nat) : Kept s0 (duesOf s f) := by
  unfold duesOf
  with_reducible repeat' first
    | assumption | apply dueSrc_kept | apply dueField_kept | apply Kept.ite
    | refine Kept.foldl _ ?_ (fun _ _ _ => ?_)

theorem traceField_kept {s0 : State} {s : State} (h : Kept s0 s) (f stamp body : Nat) :
    Kept s0 (traceField s f stamp body) := by
  unfold traceField
  with_reducible repeat' first
    | assumption | apply dueFieldAt_kept | apply queueOverrun_kept | apply Kept.ite | split | dsimp only
    | refine Kept.upd ?_ rfl

theorem flushTake_kept {s0 : State} {s : State} (h : Kept s0 s) (k : Nat) : Kept s0 (flushTake s k) := by
  unfold flushTake
  with_reducible repeat' first
    | assumption | apply Kept.ite | split | dsimp only | refine Kept.upd ?_ rfl

theorem passHeld_kept {s0 : State} {s : State} (h : Kept s0 s) (rec : Nat) : Kept s0 (passHeld s rec) := by
  unfold passHeld
  with_reducible repeat' first
    | assumption | apply traceCel_kept | apply flushTake_kept | apply Kept.ite | split | dsimp only
    | refine Kept.upd ?_ rfl

theorem passSched_kept {s0 : State} {s : State} (h : Kept s0 s) (a1 : List SchedHold) : Kept s0
    (passSched s a1) := by
  induction a1 generalizing s with
  | nil => exact Kept.upd h rfl
  | cons x l ih =>
    simp only [passSched]
    split
    · exact ih (passHeld_kept h _)
    · split
      · split
        · exact Kept.upd h rfl
        · exact ih h
      · exact ih h

theorem holdSched_kept {s0 : State} {s : State} (h : Kept s0 s) (c run : Nat) : Kept s0 (holdSched s c run) := by
  unfold holdSched
  with_reducible repeat' first
    | assumption | apply Kept.ite | split | dsimp only | refine Kept.upd ?_ rfl

theorem traceSched_kept {s0 : State} {s : State} (h : Kept s0 s) (c rec : Nat) : Kept s0 (traceSched s c rec) := by
  unfold traceSched
  with_reducible repeat' first
    | assumption | apply passSched_kept | apply Kept.ite

theorem fillSched_kept {s0 : State} {s : State} (h : Kept s0 s) (run rec : Nat) : Kept s0
    (fillSched s run rec) := by
  unfold fillSched
  with_reducible repeat' first
    | assumption | apply passSched_kept

theorem traceDebug_kept {s0 : State} {s : State} (h : Kept s0 s) (c kind what value : Nat) :
    Kept s0 (traceDebug s c kind what value) := by
  unfold traceDebug
  with_reducible repeat' first
    | assumption | apply traceCel_kept | apply Kept.ite

theorem setRun_kept {s0 : State} {s : State} (h : Kept s0 s) (r : Nat) (x : Run) : Kept s0 (setRun s r x) := by
  unfold setRun
  with_reducible repeat' first
    | assumption | apply Kept.ite | split | dsimp only | refine Kept.upd ?_ rfl

theorem modRun_kept {s0 : State} {s : State} (h : Kept s0 s) (r : Nat) (f : Run → Run) : Kept s0
    (modRun s r f) := by
  unfold modRun
  with_reducible repeat' first
    | assumption | apply setRun_kept | apply Kept.ite | split

theorem dropRun_kept {s0 : State} {s : State} (h : Kept s0 s) (r : Nat) : Kept s0 (dropRun s r) := by
  unfold dropRun
  with_reducible repeat' first
    | assumption | apply Kept.ite | split | dsimp only | refine Kept.upd ?_ rfl

theorem setField_kept {s0 : State} {s : State} (h : Kept s0 s) (f : Nat) (x : Field) : Kept s0
    (setField s f x) := by
  unfold setField
  with_reducible repeat' first
    | assumption | apply Kept.ite | split | dsimp only | refine Kept.upd ?_ rfl

theorem deliverDown_kept {s0 : State} {s : State} (h : Kept s0 s) (f : Nat) : Kept s0 (deliverDown s f) := by
  unfold deliverDown
  with_reducible repeat' first
    | assumption | apply setField_kept | apply Kept.ite | split | dsimp only | refine Kept.upd ?_ rfl

theorem grantDown_kept {s0 : State} {s : State} (h : Kept s0 s) (f : Nat) (i : GrantItem) :
    Kept s0 (grantDown s f i) := by
  unfold grantDown
  with_reducible repeat' first
    | assumption | apply deliverDown_kept | apply setField_kept

theorem setCore_kept {s0 : State} {s : State} (h : Kept s0 s) (n : Nat) (x : CoreSt) : Kept s0 (setCore s n x) := by
  unfold setCore
  with_reducible repeat' first
    | assumption | apply Kept.ite | split | dsimp only | refine Kept.upd ?_ rfl

theorem pushReady_kept {s0 : State} {s : State} (h : Kept s0 s) (r : Ready) : Kept s0 (pushReady s r) := by
  unfold pushReady
  with_reducible repeat' first
    | assumption | apply Kept.ite | split | dsimp only | refine Kept.upd ?_ rfl

theorem backReady_kept {s0 : State} {s : State} (h : Kept s0 s) (r : Ready) : Kept s0 (backReady s r) := by
  unfold backReady
  with_reducible repeat' first
    | assumption | apply Kept.ite | split | dsimp only | refine Kept.upd ?_ rfl

theorem traceRun_kept {s0 : State} {s : State} (h : Kept s0 s) (id : Nat) (x : Run) : Kept s0
    (traceRun s id x) := by
  unfold traceRun
  with_reducible repeat' first
    | assumption | apply fillSched_kept

theorem traceTimer_kept {s0 : State} {s : State} (h : Kept s0 s) (ctx task prio rank since : Nat)
    (late : Bool) (reason : Nat) :
    Kept s0 (traceTimer s ctx task prio rank since late reason) := by
  unfold traceTimer
  with_reducible repeat' first
    | assumption | apply traceCel_kept | apply Kept.ite

theorem traceEntry_kept {s0 : State} {s : State} (h : Kept s0 s) (ctx task prio rank since : Nat)
    (late : Bool) (reason : Nat) :
    Kept s0 (traceEntry s ctx task prio rank since late reason) := by
  unfold traceEntry
  with_reducible repeat' first
    | assumption | apply traceSched_kept

theorem sendDispatch_kept {s0 : State} {s : State} (h : Kept s0 s) (r : Ready) (ch : Choice) :
    KP s0 (sendDispatch s r ch) := by
  unfold sendDispatch
  with_reducible repeat' first
    | assumption | refine KP.ite ?_ ?_ | apply chargeWait_kept | apply holdSched_kept | apply addCount_kept
    | apply setReg_kept | apply setField_kept | apply queueOverrun_kept | apply Kept.ite | split | dsimp only
    | refine KP.mk ?_ | refine Kept.upd ?_ rfl

theorem dispatchKind_kept {s0 : State} (p kind : Nat) (a1 : Nat) (a2 : List Nat) (a3 : List Nat) {s : State}
    (h : Kept s0 s) :
    KP s0 (dispatchKind p kind a1 a2 a3 s) := by
  induction a1 generalizing s a2 a3 with
  | zero => exact KP.mk h
  | succ n ih =>
    simp only [dispatchKind]
    with_reducible repeat' first
      | assumption | apply ih | apply setRegBit_kept | refine KP.fst (sendDispatch_kept (h := ?_) ..)
      | apply KP.ite | split | refine KP.mk ?_

theorem checkKind_kept {s0 : State} {s : State} (h : Kept s0 s) (c kind : Nat) : Kept s0 (checkKind s c kind) := by
  unfold checkKind
  with_reducible repeat' first
    | assumption | apply setRegBit_kept | apply record_kept | apply Kept.ite

theorem sendWithdraw_kept {s0 : State} {s : State} (h : Kept s0 s) : KP s0 (sendWithdraw s) := by
  unfold sendWithdraw
  with_reducible repeat' first
    | assumption | refine KP.ite ?_ ?_ | apply setField_kept | apply withdraw_kept | apply queueOverrun_kept
    | apply Kept.ite | split | dsimp only | refine KP.mk ?_

theorem selectAll_kept {s0 : State} {s : State} (h : Kept s0 s) : KP s0 (selectAll s) := by
  have h1 : Kept s0 ((List.range 64).foldl (fun s c =>
      if (s.disp.ready.any fun r => r.ctx == c) then
        (List.range 4).foldl (fun s k => checkKind s c k) s
      else s) s) :=
    Kept.foldl _ h fun t c ht => Kept.ite (Kept.foldl _ ht fun _ _ hu => checkKind_kept hu _ _) ht
  unfold selectAll
  dsimp only
  refine KP.mk (sendWithdraw_kept (KP.fst (KP.foldl _ (KP.mk h1) fun p k hp => ?_)))
  exact KP.foldl _ hp fun q n hq => dispatchKind_kept _ _ _ _ _ (KP.fst hq)

theorem gtbRestart_kept {s0 : State} {s : State} (h : Kept s0 s) : Kept s0 (gtbRestart s) := by
  unfold gtbRestart
  with_reducible repeat' first
    | assumption | apply Kept.ite | split | dsimp only | refine Kept.upd ?_ rfl

theorem gtbStopSlew_kept {s0 : State} {s : State} (h : Kept s0 s) : Kept s0 (gtbStopSlew s) := by
  unfold gtbStopSlew
  with_reducible repeat' first
    | assumption | apply setRegBit_kept | apply Kept.ite | split | dsimp only | refine Kept.upd ?_ rfl

theorem gtbExpire_kept {s0 : State} {s : State} (h : Kept s0 s) : Kept s0 (gtbExpire s) := by
  unfold gtbExpire
  with_reducible repeat' first
    | assumption | apply setRegFld_kept | apply setRegBit_kept | apply record_kept

theorem gtbLoss_kept {s0 : State} (isRef : Bool) {s : State} (h : Kept s0 s) : Kept s0 (gtbLoss isRef s) := by
  unfold gtbLoss
  with_reducible repeat' first
    | assumption | apply setRegBit_kept | apply record_kept | apply gtbStopSlew_kept | apply gtbRestart_kept
    | apply setReg_kept | apply setRegFld_kept | apply gtbExpire_kept | apply Kept.ite | split | dsimp only
    | refine Kept.upd ?_ rfl

theorem gtbBadFrame_kept {s0 : State} {s : State} (h : Kept s0 s) : Kept s0 (gtbBadFrame s) := by
  unfold gtbBadFrame
  with_reducible repeat' first
    | assumption | apply addReg_kept | apply gtbLoss_kept | apply Kept.ite | split | dsimp only
    | refine Kept.upd ?_ rfl

theorem gtbGoodFrame_kept {s0 : State} {s : State} (h : Kept s0 s) (bits : BitVec 96) :
    Kept s0 (gtbGoodFrame s bits) := by
  unfold gtbGoodFrame
  with_reducible repeat' first
    | assumption | apply setReg_kept | apply setRegFld_kept | apply Kept.ite | split | dsimp only
    | refine Kept.upd ?_ rfl

theorem execGtbFrame_kept {s0 : State} (bits : BitVec 96) (spaced : Bool) {s : State} (h : Kept s0 s) :
    KOut s0 (execGtbFrame bits spaced s) := by
  unfold execGtbFrame
  with_reducible repeat' first
    | assumption | refine KOut.next ?_ | refine KOut.ite ?_ ?_ | apply gtbGoodFrame_kept
    | apply gtbBadFrame_kept

theorem execRefLoss_kept {s0 : State} {s : State} (h : Kept s0 s) : KOut s0 (execRefLoss s) := by
  unfold execRefLoss
  with_reducible repeat' first
    | assumption | refine KOut.next ?_ | refine KOut.ite ?_ ?_ | apply gtbLoss_kept | apply Kept.ite | split
    | dsimp only | refine Kept.upd ?_ rfl

theorem gtbStep_kept {s0 : State} (t : Nat) {s : State} (h : Kept s0 s) : Kept s0 (gtbStep t s) := by
  unfold gtbStep
  with_reducible repeat' first
    | assumption | apply crossTick_kept | apply setRegBit_kept | apply Kept.ite | split | dsimp only
    | refine Kept.upd ?_ rfl

theorem gtbSlew_kept {s0 : State} (d : Nat) {s : State} (h : Kept s0 s) : Kept s0 (gtbSlew d s) := by
  unfold gtbSlew
  with_reducible repeat' first
    | assumption | apply setRegBit_kept | apply Kept.ite | split | dsimp only | refine Kept.upd ?_ rfl

theorem gtbLoad_kept {s0 : State} (t : Nat) {s : State} (h : Kept s0 s) : Kept s0 (gtbLoad t s) := by
  unfold gtbLoad
  with_reducible repeat' first
    | assumption | apply gtbStep_kept | apply gtbSlew_kept | apply Kept.ite | split | dsimp only
    | refine Kept.upd ?_ rfl

theorem gtbSetTrim_kept {s0 : State} {s : State} (h : Kept s0 s) (v : Nat) : Kept s0 (gtbSetTrim s v) := by
  unfold gtbSetTrim
  with_reducible repeat' first
    | assumption | apply setRegFld_kept | apply Kept.ite | split | dsimp only | refine Kept.upd ?_ rfl

theorem gtbApplyTrim_kept {s0 : State} {s : State} (h : Kept s0 s) : Kept s0 (gtbApplyTrim s) := by
  unfold gtbApplyTrim
  with_reducible repeat' first
    | assumption | apply gtbStep_kept | apply gtbSlew_kept | apply Kept.ite | split | dsimp only
    | refine Kept.upd ?_ rfl

theorem gtbTrimEdge_kept {s0 : State} (incr : Nat) {s : State} (h : Kept s0 s) : Kept s0 (gtbTrimEdge incr s) := by
  unfold gtbTrimEdge
  with_reducible repeat' first
    | assumption | apply Kept.ite | split | dsimp only | refine Kept.upd ?_ rfl

theorem gtbTakeTrim_kept {s0 : State} {s : State} (h : Kept s0 s) : Kept s0 (gtbTakeTrim s) := by
  unfold gtbTakeTrim
  with_reducible repeat' first
    | assumption | apply Kept.ite | split | dsimp only | refine Kept.upd ?_ rfl

theorem execGtbRefEdge_kept {s0 : State} (incr : Nat) (phaseOk : Bool) {s : State} (h : Kept s0 s) :
    KOut s0 (execGtbRefEdge incr phaseOk s) := by
  unfold execGtbRefEdge
  with_reducible repeat' first
    | assumption | refine KOut.next ?_ | refine KOut.ite ?_ ?_ | apply gtbTrimEdge_kept | apply setRegFld_kept
    | apply gtbTakeTrim_kept | apply gtbLoad_kept | apply gtbApplyTrim_kept | apply Kept.ite | split
    | dsimp only | refine Kept.upd ?_ rfl

theorem execGtbLocked_kept {s0 : State} {s : State} (h : Kept s0 s) : KOut s0 (execGtbLocked s) := by
  unfold execGtbLocked
  with_reducible repeat' first
    | assumption | refine KOut.next ?_ | refine KOut.ite ?_ ?_ | apply setRegFld_kept | apply Kept.ite | split
    | dsimp only | refine Kept.upd ?_ rfl

theorem execHoldExpired_kept {s0 : State} {s : State} (h : Kept s0 s) : KOut s0 (execHoldExpired s) := by
  unfold execHoldExpired
  with_reducible repeat' first
    | assumption | refine KOut.next ?_ | refine KOut.ite ?_ ?_ | apply gtbExpire_kept | apply advanceTo_kept

theorem execSlewEnd_kept {s0 : State} {s : State} (h : Kept s0 s) : KOut s0 (execSlewEnd s) := by
  unfold execSlewEnd
  with_reducible repeat' first
    | assumption | refine KOut.next ?_ | refine KOut.ite ?_ ?_ | apply elapse_kept

theorem gtbTimeWord_kept {s0 : State} {s : State} (h : Kept s0 s) : Kept s0 (gtbTimeWord s) := by
  unfold gtbTimeWord
  with_reducible repeat' first
    | assumption | apply elapse_kept | apply Kept.ite | split | dsimp only | refine Kept.upd ?_ rfl

theorem execGtbTimeWord_kept {s0 : State} {s : State} (h : Kept s0 s) : KOut s0 (execGtbTimeWord s) := by
  unfold execGtbTimeWord
  with_reducible repeat' first
    | assumption | refine KOut.next ?_ | refine KOut.ite ?_ ?_ | apply gtbTimeWord_kept

theorem execFldClkStateChange_kept {s0 : State} (f : Fin 8) (st : Fin 4) (edges : Fin 3) {s : State}
    (h : Kept s0 s) :
    KOut s0 (execFldClkStateChange f st edges s) := by
  unfold execFldClkStateChange
  with_reducible repeat' first
    | assumption | refine KOut.next ?_ | refine KOut.ite ?_ ?_ | apply deliverDown_kept | apply setRegBit_kept
    | apply Kept.ite | split | dsimp only | refine Kept.upd ?_ rfl

theorem execGtbCtlEnable_kept {s0 : State} (w : Word) {s : State} (h : Kept s0 s) :
    KOut s0 (execGtbCtlEnable w s) := by
  unfold execGtbCtlEnable
  with_reducible repeat' first
    | assumption | refine KOut.next ?_ | refine KOut.ite ?_ ?_ | apply setReg_kept | apply gtbRestart_kept
    | apply gtbStopSlew_kept | apply setRegFld_kept | apply Kept.ite | split | dsimp only
    | refine Kept.upd ?_ rfl

theorem execGtbNowLoRead_kept {s0 : State} {s : State} (h : Kept s0 s) : KOut s0 (execGtbNowLoRead s) := by
  unfold execGtbNowLoRead
  with_reducible repeat' first
    | assumption | refine KOut.next ?_ | refine KOut.ite ?_ ?_ | apply setReg_kept | apply Kept.ite | split
    | dsimp only | refine Kept.upd ?_ rfl

theorem execCclkFreqCheck_kept {s0 : State} (mhz : Nat) {s : State} (h : Kept s0 s) :
    KOut s0 (execCclkFreqCheck mhz s) := by
  unfold execCclkFreqCheck
  with_reducible repeat' first
    | assumption | refine KOut.next ?_ | refine KOut.ite ?_ ?_ | apply record_kept

theorem setPort_kept {s0 : State} {s : State} (h : Kept s0 s) (p : Nat) (x : Port) : Kept s0 (setPort s p x) := by
  unfold setPort
  with_reducible repeat' first
    | assumption | apply Kept.ite | split | dsimp only | refine Kept.upd ?_ rfl

theorem takeFlits_kept {s0 : State} {s : State} (h : Kept s0 s) (p c n : Nat) : KOP s0 (takeFlits s p c n) := by
  unfold takeFlits
  with_reducible repeat' first
    | assumption | refine KOP.none | refine KOP.some ?_ | refine KOP.ite ?_ ?_ | apply setPort_kept

theorem giveFlits_kept {s0 : State} {s : State} (h : Kept s0 s) (p c own pool : Nat) :
    Kept s0 (giveFlits s p c own pool) := by
  unfold giveFlits
  with_reducible repeat' first
    | assumption | apply setPort_kept

theorem sendLane0_kept {s0 : State} {s : State} (h : Kept s0 s) (f : Flit) : Kept s0 (sendLane0 s f) := by
  unfold sendLane0
  with_reducible repeat' first
    | assumption | apply setPort_kept | apply setRegBit_kept | apply Kept.ite

theorem sendItem_kept {s0 : State} {s : State} (h : Kept s0 s) (p own : Nat) (f : Flit) (bs : List Byte) :
    Kept s0 (sendItem s p own f bs) := by
  unfold sendItem
  with_reducible repeat' first
    | assumption | apply setPort_kept

theorem flitGone_kept {s0 : State} {s : State} (h : Kept s0 s) (p : Nat) (f : Flit) : Kept s0 (flitGone s p f) := by
  unfold flitGone
  with_reducible repeat' first
    | assumption | apply giveFlits_kept | apply Kept.ite | split

theorem execFlitSend_kept {s0 : State} (p : Fin 16) {s : State} (h : Kept s0 s) : KOut s0 (execFlitSend p s) := by
  unfold execFlitSend
  with_reducible repeat' first
    | assumption | refine KOut.next ?_ | refine KOut.ite ?_ ?_ | apply addReg_kept | apply chargeBytes_kept
    | apply flitGone_kept | apply setPort_kept | apply Kept.ite | split | dsimp only | refine Kept.upd ?_ rfl

theorem dropPort_kept {s0 : State} {s : State} (h : Kept s0 s) (p : Nat) : Kept s0 (dropPort s p) := by
  unfold dropPort
  with_reducible repeat' first
    | assumption | apply flitGone_kept | apply setPort_kept | apply addReg_kept | apply record_kept
    | apply setRegBit_kept | apply Kept.ite | refine Kept.foldl _ ?_ (fun _ _ _ => ?_)

theorem execLinkUpFall_kept {s0 : State} (p : Fin 16) {s : State} (h : Kept s0 s) : KOut s0
    (execLinkUpFall p s) := by
  unfold execLinkUpFall
  with_reducible repeat' first
    | assumption | refine KOut.next ?_ | refine KOut.ite ?_ ?_ | apply dropPort_kept | apply setPort_kept

theorem execLinkUpRise_kept {s0 : State} (p : Fin 16) {s : State} (h : Kept s0 s) : KOut s0
    (execLinkUpRise p s) := by
  unfold execLinkUpRise
  with_reducible repeat' first
    | assumption | refine KOut.next ?_ | refine KOut.ite ?_ ?_ | apply setPort_kept

theorem execLnkCtxResWrite_kept {s0 : State} (c : Fin 64) (w : Word) {s : State} (h : Kept s0 s) :
    KOut s0 (execLnkCtxResWrite c w s) := by
  unfold execLnkCtxResWrite
  with_reducible repeat' first
    | assumption | refine KOut.next ?_ | refine KOut.ite ?_ ?_ | apply setRegBit_kept | apply setReg_kept

theorem execReservedKindFlit_kept {s0 : State} (p : Fin 16) {s : State} (h : Kept s0 s) :
    KOut s0 (execReservedKindFlit p s) := by
  unfold execReservedKindFlit
  with_reducible repeat' first
    | assumption | refine KOut.next ?_ | refine KOut.ite ?_ ?_ | apply addReg_kept

theorem countRx_kept {s0 : State} {s : State} (h : Kept s0 s) (p n : Nat) : Kept s0 (countRx s p n) := by
  unfold countRx
  with_reducible repeat' first
    | assumption | apply addReg_kept

end Sys2Proof.Machine
end

