-- ==== Sys2Proof/Laws/KeptSyn.lean ====
section
/-! SUPPORT. The queue of commands and the canonical memories, kept by sync objects, channels, blend queues and kills. -/

namespace Sys2Proof.Machine

open Sys2Proof

theorem setObj_kept {s0 : State} {s : State} (h : Kept s0 s) (k : Nat) (o : SynObj) : Kept s0 (setObj s k o) := by
  unfold setObj
  with_reducible repeat' first
    | assumption | apply Kept.ite | split | dsimp only | refine Kept.upd ?_ rfl

theorem modObj_kept {s0 : State} {s : State} (h : Kept s0 s) (k : Nat) (f : SynObj → SynObj) :
    Kept s0 (modObj s k f) := by
  unfold modObj
  with_reducible repeat' first
    | assumption | apply Kept.ite | split | dsimp only | refine Kept.upd ?_ rfl

theorem countDrop_kept {s0 : State} {s : State} (h : Kept s0 s) (f : Nat) : Kept s0 (countDrop s f) := by
  unfold countDrop
  with_reducible repeat' first
    | assumption | apply Kept.ite | split | dsimp only | refine Kept.upd ?_ rfl

theorem divSeen_kept {s0 : State} {s : State} (h : Kept s0 s) (c : Nat) : Kept s0 (divSeen s c) := by
  unfold divSeen
  with_reducible repeat' first
    | assumption | apply setRegBit_kept

theorem freezeObj_kept {s0 : State} {s : State} (h : Kept s0 s) (k : Nat) (o : SynObj) :
    Kept s0 (freezeObj s k o) := by
  unfold freezeObj
  with_reducible repeat' first
    | assumption | apply divSeen_kept | apply setRegBit_kept | apply record_kept | apply ask_kept
    | apply Kept.ite | split | dsimp only | refine Kept.upd ?_ rfl

theorem checkObj_kept {s0 : State} {s : State} (h : Kept s0 s) (k : Nat) : KP s0 (checkObj s k) := by
  unfold checkObj
  with_reducible repeat' first
    | assumption | refine KP.ite ?_ ?_ | apply freezeObj_kept | apply Kept.ite | split | dsimp only
    | refine KP.mk ?_

theorem setWaiter_kept {s0 : State} {s : State} (h : Kept s0 s) (w : Nat) (x : Waiter) :
    Kept s0 (setWaiter s w x) := by
  unfold setWaiter
  with_reducible repeat' first
    | assumption | apply Kept.ite | split | dsimp only | refine Kept.upd ?_ rfl

theorem dropWaiter_kept {s0 : State} {s : State} (h : Kept s0 s) (w : Nat) : Kept s0 (dropWaiter s w) := by
  unfold dropWaiter
  with_reducible repeat' first
    | assumption | apply Kept.ite | split | dsimp only | refine Kept.upd ?_ rfl

theorem newWaiter_kept {s0 : State} {s : State} (h : Kept s0 s) (x : Waiter) : PK s0 (newWaiter s x) := by
  unfold newWaiter
  with_reducible repeat' first
    | assumption | refine PK.ite ?_ ?_ | apply setWaiter_kept | apply Kept.ite | split | dsimp only
    | refine PK.mk ?_ | refine Kept.upd ?_ rfl

theorem queueGrant_kept {s0 : State} {s : State} (h : Kept s0 s) (w : Nat) : Kept s0 (queueGrant s w) := by
  unfold queueGrant
  with_reducible repeat' first
    | assumption | apply setRegBit_kept | apply queueOverrun_kept | apply Kept.ite | split | dsimp only
    | refine Kept.upd ?_ rfl

theorem checkLedger_kept {s0 : State} {s : State} (h : Kept s0 s) (c t : Nat) : Kept s0 (checkLedger s c t) := by
  unfold checkLedger
  with_reducible repeat' first
    | assumption | apply record_kept | apply divSeen_kept | apply Kept.ite

theorem setWaited_kept {s0 : State} {s : State} (h : Kept s0 s) (c t : Nat) : Kept s0 (setWaited s c t) := by
  unfold setWaited
  with_reducible repeat' first
    | assumption | apply checkLedger_kept | apply Kept.ite | split | dsimp only | refine Kept.upd ?_ rfl

theorem grantWaiterAt_kept {s0 : State} {s : State} (h : Kept s0 s) (w got due : Nat) :
    Kept s0 (grantWaiterAt s w got due) := by
  unfold grantWaiterAt
  with_reducible repeat' first
    | assumption | apply dropWaiter_kept | apply setStep_kept | apply pushDecs_kept | apply setWaited_kept
    | apply setWaiter_kept | apply modRun_kept | apply queueGrant_kept | apply grantDown_kept
    | apply completeOk_kept | apply Kept.ite | split | dsimp only

theorem grantWaiter_kept {s0 : State} {s : State} (h : Kept s0 s) (w got : Nat) : Kept s0
    (grantWaiter s w got) := by
  unfold grantWaiter
  with_reducible repeat' first
    | assumption | apply grantWaiterAt_kept

theorem grantOne_kept {s0 : State} {s : State} (h : Kept s0 s) (k : Nat) : KO s0 (grantOne s k) := by
  have hd : ∀ (p : Nat → Bool) (l : List Nat) (f : Nat → SynObj) (g : Nat → Nat),
      KO s0 ((l.find? p).map fun w => grantWaiter (setObj s k (f w)) w (g w)) := by
    intro p l f g t e
    cases hf : l.find? p with
    | none => simp [hf] at e
    | some w =>
      simp only [hf, Option.map_some, Option.some.injEq] at e
      exact e ▸ grantWaiter_kept (setObj_kept h _ _) _ _
  unfold grantOne
  split
  · exact KO.none
  · dsimp only
    split
    · split
      · exact KO.some (grantWaiter_kept (setObj_kept h _ _) _ _)
      · exact hd _ _ _ _
    · exact hd _ _ _ _

theorem grantAll_kept {s0 : State} (k : Nat) (a1 : Nat) {s : State} (h : Kept s0 s) : Kept s0
    (grantAll k a1 s) := by
  induction a1 generalizing s with
  | zero => exact h
  | succ n ih =>
    simp only [grantAll]
    split
    · exact ih (KO.get (grantOne_kept h k) (by assumption))
    · exact h

theorem grantCounter_kept {s0 : State} {s : State} (h : Kept s0 s) (k : Nat) : Kept s0 (grantCounter s k) := by
  unfold grantCounter
  with_reducible repeat' first
    | assumption | apply grantAll_kept | apply Kept.ite | split

theorem homeRelease_kept {s0 : State} {s : State} (h : Kept s0 s) (k : Nat) (o : SynObj) :
    Kept s0 (homeRelease s k o) := by
  unfold homeRelease
  with_reducible repeat' first
    | assumption | apply sendLane0_kept | apply Kept.ite | refine Kept.foldl _ ?_ (fun _ _ _ => ?_) | split
    | dsimp only | refine Kept.upd ?_ rfl

theorem homeArrive_kept {s0 : State} {s : State} (h : Kept s0 s) (k : Nat) (o : SynObj) (chip : Nat) :
    Kept s0 (homeArrive s k o chip) := by
  unfold homeArrive
  with_reducible repeat' first
    | assumption | apply setObj_kept | apply homeRelease_kept | apply Kept.ite | split | dsimp only
    | refine Kept.upd ?_ rfl

theorem misuseArrival_kept {s0 : State} {s : State} (h : Kept s0 s) (c xb chip : Nat) :
    Kept s0 (misuseArrival s c xb chip) := by
  unfold misuseArrival
  with_reducible repeat' first
    | assumption | apply record_kept | apply setRegBit_kept

theorem takeArrival_kept {s0 : State} (k xb : Nat) (sense : Bool) {s : State} (h : Kept s0 s) (chip : Nat) :
    Kept s0 (takeArrival k xb sense s chip) := by
  unfold takeArrival
  with_reducible repeat' first
    | assumption | apply misuseArrival_kept | apply homeArrive_kept | apply Kept.ite | split

theorem applyEarly_kept {s0 : State} {s : State} (h : Kept s0 s) (k : Nat) (o : SynObj) :
    Kept s0 (applyEarly s k o) := by
  unfold applyEarly
  with_reducible repeat' first
    | assumption | apply takeArrival_kept | apply Kept.ite | refine Kept.foldl _ ?_ (fun _ _ _ => ?_) | split
    | dsimp only | refine Kept.upd ?_ rfl

theorem materialise_kept {s0 : State} {s : State} (h : Kept s0 s) (c vid : Nat) : KMt s0 (materialise s c vid) := by
  unfold materialise
  with_reducible repeat' first
    | assumption | refine KMt.made ?_ | refine KMt.refused | refine KMt.capacity | refine KMt.ite ?_ ?_
    | apply draw_kept | apply applyEarly_kept | apply setObj_kept
    | refine PK.get (draw_kept (h := ?_) ..) (by assumption) | refine PK.snd (draw_kept (h := ?_) ..)
    | apply Kept.ite | split | dsimp only | refine Kept.upd ?_ rfl

theorem noteCapacity_kept {s0 : State} {s : State} (h : Kept s0 s) (c : Nat) : Kept s0 (noteCapacity s c) := by
  unfold noteCapacity
  with_reducible repeat' first
    | assumption | apply setRegBit_kept

theorem countRefusal_kept {s0 : State} {s : State} (h : Kept s0 s) (c vid reason op : Nat) :
    Kept s0 (countRefusal s c vid reason op) := by
  unfold countRefusal
  with_reducible repeat' first
    | assumption | apply addReg_kept | apply setRegBit_kept | apply setReg_kept

theorem refuseHost_kept {s0 : State} {s : State} (h : Kept s0 s) (m : Cmd) (vid reason op : Nat) :
    Kept s0 (refuseHost s m vid reason op) := by
  unfold refuseHost
  with_reducible repeat' first
    | assumption | apply countRefusal_kept | apply completeWith_kept

theorem refuseEffect_kept {s0 : State} {s : State} (h : Kept s0 s) (c task vid reason op vint : Nat) :
    Kept s0 (refuseEffect s c task vid reason op vint) := by
  unfold refuseEffect
  with_reducible repeat' first
    | assumption | apply countRefusal_kept | apply raiseEvent_kept

theorem realignOne_kept {s0 : State} {s : State} (h : Kept s0 s) (c barrier vid vint : Nat) :
    Kept s0 (realignOne s c barrier vid vint) := by
  unfold realignOne
  with_reducible repeat' first
    | assumption | apply setRegBit_kept | apply setReg_kept | apply draw_kept | apply materialise_kept
    | apply noteCapacity_kept | apply checkObj_kept | apply addReg_kept | apply raiseEvent_kept
    | apply grantCounter_kept | apply setObj_kept | refine PK.get (draw_kept (h := ?_) ..) (by assumption)
    | refine KMt.get (materialise_kept (h := ?_) ..) (by assumption)
    | refine KP.get (checkObj_kept (h := ?_) ..) (by assumption) | refine PK.snd (draw_kept (h := ?_) ..)
    | refine KP.fst (checkObj_kept (h := ?_) ..) | apply Kept.ite | split

theorem completePhaseAt_kept {s0 : State} {s : State} (h : Kept s0 s) (k vint due : Nat) :
    Kept s0 (completePhaseAt s k vint due) := by
  unfold completePhaseAt
  with_reducible repeat' first
    | assumption | apply realignOne_kept | apply setObj_kept | apply grantWaiterAt_kept | apply Kept.ite
    | refine Kept.foldl _ ?_ (fun _ _ _ => ?_) | split

theorem completePhase_kept {s0 : State} {s : State} (h : Kept s0 s) (k vint : Nat) :
    Kept s0 (completePhase s k vint) := by
  unfold completePhase
  with_reducible repeat' first
    | assumption | apply completePhaseAt_kept

theorem fullBarrier_kept {s0 : State} {s : State} (h : Kept s0 s) (k : Nat) (o : SynObj) (vint : Nat) :
    Kept s0 (fullBarrier s k o vint) := by
  unfold fullBarrier
  with_reducible repeat' first
    | assumption | apply completePhase_kept | apply takeArrival_kept | apply sendLane0_kept | apply setObj_kept
    | apply Kept.ite

theorem afterGrants_kept {s0 : State} {s : State} (h : Kept s0 s) (k : Nat) (f : SynObj → Nat) :
    KSy s0 (afterGrants s k f) := by
  unfold afterGrants
  with_reducible repeat' first
    | assumption | refine KSy.ok ?_ | refine KSy.refused | refine KSy.ite ?_ ?_ | apply addCount_kept
    | apply grantCounter_kept | apply Kept.ite | split | dsimp only

theorem opSignal_kept {s0 : State} {s : State} (h : Kept s0 s) (k : Nat) (o : SynObj) (n : Nat) :
    KSy s0 (opSignal s k o n) := by
  unfold opSignal
  with_reducible repeat' first
    | assumption | refine KSy.ok ?_ | refine KSy.refused | refine KSy.ite ?_ ?_ | apply afterGrants_kept
    | apply setObj_kept

theorem opSignalTo_kept {s0 : State} {s : State} (h : Kept s0 s) (k : Nat) (o : SynObj) (tag n : Nat) :
    KSy s0 (opSignalTo s k o tag n) := by
  unfold opSignalTo
  with_reducible repeat' first
    | assumption | refine KSy.ok ?_ | refine KSy.refused | refine KSy.ite ?_ ?_ | apply afterGrants_kept
    | apply setObj_kept | apply grantWaiter_kept
    | refine KSy.get (afterGrants_kept (h := ?_) ..) (by assumption) | apply Kept.ite | split | dsimp only

theorem opDecrement_kept {s0 : State} {s : State} (h : Kept s0 s) (k : Nat) (o : SynObj) (n : Nat) :
    KSy s0 (opDecrement s k o n) := by
  unfold opDecrement
  with_reducible repeat' first
    | assumption | refine KSy.ok ?_ | refine KSy.refused | refine KSy.ite ?_ ?_ | apply afterGrants_kept
    | apply setObj_kept

theorem opArrive_kept {s0 : State} {s : State} (h : Kept s0 s) (k : Nat) (o : SynObj) (sense : Bool) (vint : Nat) :
    KSy s0 (opArrive s k o sense vint) := by
  unfold opArrive
  with_reducible repeat' first
    | assumption | refine KSy.ok ?_ | refine KSy.refused | refine KSy.ite ?_ ?_ | apply setObj_kept
    | apply fullBarrier_kept | apply addCount_kept | apply Kept.ite | split | dsimp only

theorem applyOp_kept {s0 : State} {s : State} (h : Kept s0 s) (k : Nat) (p : SynOp) : KSy s0 (applyOp s k p) := by
  unfold applyOp
  with_reducible repeat' first
    | assumption | refine KSy.ok ?_ | refine KSy.refused | refine KSy.ite ?_ ?_ | apply opSignal_kept
    | apply opSignalTo_kept | apply opDecrement_kept | apply opArrive_kept
    | refine KSy.get (opSignal_kept (h := ?_) ..) (by assumption)
    | refine KSy.get (opSignalTo_kept (h := ?_) ..) (by assumption)
    | refine KSy.get (opDecrement_kept (h := ?_) ..) (by assumption)
    | refine KSy.get (opArrive_kept (h := ?_) ..) (by assumption) | apply Kept.ite | split

theorem applyWait_kept {s0 : State} {s : State} (h : Kept s0 s) (k : Nat) (o : SynObj) (x : Waiter) :
    Kept s0 (applyWait s k o x) := by
  unfold applyWait
  with_reducible repeat' first
    | assumption | apply newWaiter_kept | apply addCount_kept | apply grantWaiter_kept | apply setObj_kept
    | apply grantCounter_kept | refine PK.get (newWaiter_kept (h := ?_) ..) (by assumption)
    | refine PK.snd (newWaiter_kept (h := ?_) ..) | apply Kept.ite

theorem applyHost_kept {s0 : State} {s : State} (h : Kept s0 s) (m : Cmd) (k : Nat) : Kept s0
    (applyHost s m k) := by
  unfold applyHost
  with_reducible repeat' first
    | assumption | apply checkObj_kept | apply refuseHost_kept | apply applyWait_kept | apply applyOp_kept
    | apply completeOk_kept | apply completeWith_kept
    | refine KP.get (checkObj_kept (h := ?_) ..) (by assumption)
    | refine KSy.get (applyOp_kept (h := ?_) ..) (by assumption) | refine KP.fst (checkObj_kept (h := ?_) ..)
    | apply Kept.ite | split

theorem pushMat_kept {s0 : State} {s : State} (h : Kept s0 s) (q : MatReq) : Kept s0 (pushMat s q) := by
  unfold pushMat
  with_reducible repeat' first
    | assumption | apply Kept.ite | split | dsimp only | refine Kept.upd ?_ rfl

theorem hostSync_kept {s0 : State} (op : Nat) {s : State} (h : Kept s0 s) : Kept s0 (hostSync op s) := by
  unfold hostSync
  with_reducible repeat' first
    | assumption | apply popUnit_kept | apply applyHost_kept | apply pushMat_kept
    | refine KOP.get (popUnit_kept (h := ?_) ..) (by assumption) | apply Kept.ite | split | dsimp only

theorem returnUnits_kept {s0 : State} {s : State} (h : Kept s0 s) (k units tag : Nat) (directed : Bool) :
    Kept s0 (returnUnits s k units tag directed) := by
  unfold returnUnits
  with_reducible repeat' first
    | assumption | apply checkObj_kept | apply grantCounter_kept | apply setObj_kept
    | refine KP.get (checkObj_kept (h := ?_) ..) (by assumption) | refine KP.fst (checkObj_kept (h := ?_) ..)
    | apply Kept.ite | split

theorem withdraw_kept {s0 : State} {s : State} (h : Kept s0 s) (w : Nat) : Kept s0 (withdraw s w) := by
  unfold withdraw
  with_reducible repeat' first
    | assumption | apply checkObj_kept | apply modObj_kept | apply dropWaiter_kept | apply grantCounter_kept
    | refine KP.get (checkObj_kept (h := ?_) ..) (by assumption) | refine KP.fst (checkObj_kept (h := ?_) ..)
    | apply Kept.ite | split | dsimp only | refine Kept.upd ?_ rfl

theorem synKill_kept {s0 : State} {s : State} (h : Kept s0 s) (id : Nat) (x : Run) : Kept s0 (synKill s id x) := by
  unfold synKill
  with_reducible repeat' first
    | assumption | apply withdraw_kept | apply modRun_kept | apply returnUnits_kept | apply Kept.ite
    | refine Kept.foldl _ ?_ (fun _ _ _ => ?_) | split | dsimp only | refine Kept.upd ?_ rfl

theorem synTeardown_kept {s0 : State} {s : State} (h : Kept s0 s) (i : Nat) : Kept s0 (synTeardown s i) := by
  unfold synTeardown
  with_reducible repeat' first
    | assumption | apply withdraw_kept | apply setStep_kept | apply returnUnits_kept | apply Kept.ite
    | refine Kept.foldl _ ?_ (fun _ _ _ => ?_) | split | dsimp only | refine Kept.upd ?_ rfl

theorem postTaskWait_kept {s0 : State} {s : State} (h : Kept s0 s) (i c t : Nat) :
    Kept s0 (postTaskWait s i c t) := by
  unfold postTaskWait
  with_reducible repeat' first
    | assumption | apply checkObj_kept | apply applyWait_kept | apply newWaiter_kept | apply modObj_kept
    | refine KP.get (checkObj_kept (h := ?_) ..) (by assumption)
    | refine PK.get (newWaiter_kept (h := ?_) ..) (by assumption) | refine KP.fst (checkObj_kept (h := ?_) ..)
    | refine PK.snd (newWaiter_kept (h := ?_) ..) | apply Kept.ite | split

theorem passPoint_kept {s0 : State} {s : State} (h : Kept s0 s) (ids : List Nat) : Kept s0 (passPoint s ids) := by
  unfold passPoint
  with_reducible repeat' first
    | assumption | apply modRun_kept | apply Kept.ite | refine Kept.foldl _ ?_ (fun _ _ _ => ?_) | split
    | dsimp only | refine Kept.upd ?_ rfl

theorem commitPoint_kept {s0 : State} {s : State} (h : Kept s0 s) (r : Nat) : Kept s0 (commitPoint s r) := by
  unfold commitPoint
  with_reducible repeat' first
    | assumption | apply passPoint_kept | apply Kept.ite | split

theorem setChan_kept {s0 : State} {s : State} (h : Kept s0 s) (k : Nat) (x : Chan) : Kept s0 (setChan s k x) := by
  unfold setChan
  with_reducible repeat' first
    | assumption | apply Kept.ite | split | dsimp only | refine Kept.upd ?_ rfl

theorem refuseSend_kept {s0 : State} {s : State} (h : Kept s0 s) (c task rel reason len chip vint : Nat) :
    Kept s0 (refuseSend s c task rel reason len chip vint) := by
  unfold refuseSend
  with_reducible repeat' first
    | assumption | apply setRegBit_kept | apply addReg_kept | apply setReg_kept | apply raiseEvent_kept
    | apply Kept.ite

theorem registerEff_kept {s0 : State} {s : State} (h : Kept s0 s) (r n : Nat) : Kept s0 (registerEff s r n) := by
  unfold registerEff
  with_reducible repeat' first
    | assumption | apply commitPoint_kept | apply modRun_kept

theorem modEff_kept {s0 : State} {s : State} (h : Kept s0 s) (r n : Nat) (f : Eff → Eff) :
    Kept s0 (modEff s r n f) := by
  unfold modEff
  with_reducible repeat' first
    | assumption | apply modRun_kept

theorem takeSend_kept {s0 : State} {s : State} (h : Kept s0 s) (r n : Nat) (e : Eff) (c : Nat) :
    KO s0 (takeSend s r n e c) := by
  unfold takeSend
  with_reducible repeat' first
    | assumption | refine KO.none | refine KO.some ?_ | refine KO.ite ?_ ?_ | apply takeFlits_kept
    | apply setChan_kept | apply registerEff_kept | apply modEff_kept
    | refine KOP.get (takeFlits_kept (h := ?_) ..) (by assumption) | apply Kept.ite | split

theorem waitSend_kept {s0 : State} {s : State} (h : Kept s0 s) (t r n c : Nat) : Kept s0 (waitSend s t r n c) := by
  unfold waitSend
  with_reducible repeat' first
    | assumption | apply setChan_kept | apply modRun_kept | apply setRegBit_kept | apply addReg_kept
    | apply Kept.ite | split

theorem registerSend_kept {s0 : State} {s : State} (h : Kept s0 s) (r n : Nat) : Kept s0 (registerSend s r n) := by
  unfold registerSend
  with_reducible repeat' first
    | assumption | apply modEff_kept | apply takeSend_kept | apply waitSend_kept | apply registerEff_kept
    | refine KO.get (takeSend_kept (h := ?_) ..) (by assumption)
    | refine KO.get (KO.ite (takeSend_kept (h := ?_) ..) KO.none) (by assumption) | apply Kept.ite | split
    | dsimp only

theorem freeSend_kept {s0 : State} {s : State} (h : Kept s0 s) (c : Nat) (e : Eff) : Kept s0 (freeSend s c e) := by
  unfold freeSend
  with_reducible repeat' first
    | assumption | apply setChan_kept | apply giveFlits_kept | apply Kept.ite | split

theorem grantSend_kept {s0 : State} {s : State} (h : Kept s0 s) (t : Nat) : KO s0 (grantSend s t) := by
  unfold grantSend
  with_reducible repeat' first
    | assumption | refine KO.none | refine KO.some ?_ | refine KO.ite ?_ ?_ | apply setChan_kept
    | apply takeSend_kept | refine KO.get (takeSend_kept (h := ?_) ..) (by assumption) | apply Kept.ite | split

theorem chnKill_kept {s0 : State} {s : State} (h : Kept s0 s) (id : Nat) (x : Run) : Kept s0 (chnKill s id x) := by
  unfold chnKill
  with_reducible repeat' first
    | assumption | apply freeSend_kept | apply Kept.ite | refine Kept.foldl _ ?_ (fun _ _ _ => ?_) | split
    | dsimp only | refine Kept.upd ?_ rfl

theorem giveUnits_kept {s0 : State} {s : State} (h : Kept s0 s) (k : Nat) (x : RingRec) :
    Kept s0 (giveUnits s k x) := by
  unfold giveUnits
  with_reducible repeat' first
    | assumption | apply setChan_kept | apply sendLane0_kept | apply Kept.ite | split

theorem advanceHead_kept {s0 : State} (k : Nat) (a1 : Nat) {s : State} (h : Kept s0 s) :
    Kept s0 (advanceHead k a1 s) := by
  induction a1 generalizing s with
  | zero => exact h
  | succ n ih =>
    simp only [advanceHead]
    split
    · exact h
    · split
      · exact h
      · split
        · exact ih (giveUnits_kept (setChan_kept h _ _) _ _)
        · exact h

theorem writeRec_kept {s0 : State} {s : State} (h : Kept s0 s) (k len kind source tag credit chip : Nat)
    (payload : List Byte) (sender : Option Sender) :
    KP s0 (writeRec s k len kind source tag credit chip payload sender) := by
  unfold writeRec
  with_reducible repeat' first
    | assumption | refine KP.ite ?_ ?_ | apply unitWrite_kept | apply setChan_kept | apply addCount_kept
    | apply chargeBytes_kept | apply advanceHead_kept
    | refine KP.get (unitWrite_kept (h := ?_) ..) (by assumption) | refine KP.fst (unitWrite_kept (h := ?_) ..)
    | apply Kept.ite | split | dsimp only | refine KP.mk ?_ | refine Kept.upd ?_ rfl

theorem deliveryFault_kept {s0 : State} {s : State} (h : Kept s0 s) (c reason va : Nat) :
    Kept s0 (deliveryFault s c reason va) := by
  unfold deliveryFault
  with_reducible repeat' first
    | assumption | apply record_kept

theorem deliverSend_kept {s0 : State} (src : Pat) {s : State} (h : Kept s0 s) (x : Run) (e : Eff) :
    KP s0 (deliverSend src s x e) := by
  unfold deliverSend
  with_reducible repeat' first
    | assumption | refine KP.ite ?_ ?_ | apply refuseSend_kept | apply freeSend_kept | apply deliveryFault_kept
    | apply sendItem_kept | apply chargeBytes_kept | apply writeRec_kept
    | refine KP.get (writeRec_kept (h := ?_) ..) (by assumption) | refine KP.fst (writeRec_kept (h := ?_) ..)
    | apply Kept.ite | split | dsimp only | refine KP.mk ?_

theorem freeRecord_kept {s0 : State} {s : State} (h : Kept s0 s) (serial : Nat) : Kept s0
    (freeRecord s serial) := by
  unfold freeRecord
  with_reducible repeat' first
    | assumption | apply advanceHead_kept | apply setChan_kept | apply Kept.ite | split

theorem unassign_kept {s0 : State} {s : State} (h : Kept s0 s) (p : Chan → Bool) (kept : List Nat) :
    Kept s0 (unassign s p kept) := by
  unfold unassign
  with_reducible repeat' first
    | assumption | apply Kept.ite | split | dsimp only | refine Kept.upd ?_ rfl

theorem execRecordAssign_kept {s0 : State} {s : State} (h : Kept s0 s) : KOut s0 (execRecordAssign s) := by
  unfold execRecordAssign
  with_reducible repeat' first
    | assumption | refine KOut.next ?_ | refine KOut.ite ?_ ?_ | apply setChan_kept | apply pushReady_kept
    | apply Kept.ite | split

theorem refuseArrival_kept {s0 : State} {s : State} (h : Kept s0 s) (k : Option Nat) (key reason len chip : Nat) :
    Kept s0 (refuseArrival s k key reason len chip) := by
  unfold refuseArrival
  with_reducible repeat' first
    | assumption | apply sendLane0_kept | apply setRegBit_kept | apply addReg_kept | apply refuseSend_kept
    | apply Kept.ite | split

theorem execMsg_kept {s0 : State} (p : Fin 16) (chip : Fin 4096) (key : BitVec 16) (epoch : Word)
    (item : List Byte) {s : State} (h : Kept s0 s) :
    KOut s0 (execMsg p chip key epoch item s) := by
  unfold execMsg
  with_reducible repeat' first
    | assumption | refine KOut.next ?_ | refine KOut.ite ?_ ?_ | apply countRx_kept | apply sendLane0_kept
    | apply refuseArrival_kept | apply setChan_kept | apply writeRec_kept | apply deliveryFault_kept
    | refine KP.get (writeRec_kept (h := ?_) ..) (by assumption) | refine KP.fst (writeRec_kept (h := ?_) ..)
    | apply Kept.ite | split | dsimp only

theorem lateRingFault_kept {s0 : State} {s : State} (h : Kept s0 s) (k : Nat) (x : RingRec) (va : Nat) :
    Kept s0 (lateRingFault s k x va) := by
  unfold lateRingFault
  with_reducible repeat' first
    | assumption | apply deliveryFault_kept | apply refuseSend_kept | apply noteStep_kept
    | apply refuseArrival_kept | apply freeRecord_kept | apply Kept.ite | split | dsimp only
    | refine Kept.upd ?_ rfl

theorem execEpochNotice_kept {s0 : State} (p : Fin 16) (chip : Fin 4096) (key : BitVec 16) (epoch : Word)
    (isOpen : Bool) {s : State} (h : Kept s0 s) :
    KOut s0 (execEpochNotice p chip key epoch isOpen s) := by
  unfold execEpochNotice
  with_reducible repeat' first
    | assumption | refine KOut.next ?_ | refine KOut.ite ?_ ?_ | apply countRx_kept | apply Kept.ite | split
    | dsimp only | refine Kept.upd ?_ rfl

theorem decantChan_kept {s0 : State} {s : State} (h : Kept s0 s) (k : Nat) (close : Bool) :
    KP s0 (decantChan s k close) := by
  unfold decantChan
  with_reducible repeat' first
    | assumption | refine KP.ite ?_ ?_ | apply giveUnits_kept | apply setChan_kept | apply Kept.ite
    | refine Kept.foldl _ ?_ (fun _ _ _ => ?_) | split | dsimp only | refine KP.mk ?_

theorem setBq_kept {s0 : State} {s : State} (h : Kept s0 s) (k : Nat) (x : BlendQ) : Kept s0 (setBq s k x) := by
  unfold setBq
  with_reducible repeat' first
    | assumption | apply Kept.ite | split | dsimp only | refine Kept.upd ?_ rfl

theorem refuseContrib_kept {s0 : State} {s : State} (h : Kept s0 s) (c task queue slot reason vint : Nat) :
    Kept s0 (refuseContrib s c task queue slot reason vint) := by
  unfold refuseContrib
  with_reducible repeat' first
    | assumption | apply setRegBit_kept | apply addReg_kept | apply setReg_kept | apply raiseEvent_kept

theorem takeContrib_kept {s0 : State} {s : State} (h : Kept s0 s) (r n k c : Nat) :
    KO s0 (takeContrib s r n k c) := by
  unfold takeContrib
  with_reducible repeat' first
    | assumption | refine KO.none | refine KO.some ?_ | refine KO.ite ?_ ?_ | apply takeFlits_kept
    | apply setBq_kept | apply registerEff_kept | apply modEff_kept
    | refine KOP.get (takeFlits_kept (h := ?_) ..) (by assumption) | apply Kept.ite | split

theorem registerContrib_kept {s0 : State} {s : State} (h : Kept s0 s) (r n : Nat) :
    Kept s0 (registerContrib s r n) := by
  unfold registerContrib
  with_reducible repeat' first
    | assumption | apply registerEff_kept | apply modEff_kept | apply takeContrib_kept | apply modRun_kept
    | apply setBq_kept | refine KO.get (takeContrib_kept (h := ?_) ..) (by assumption)
    | refine KO.get (KO.ite (takeContrib_kept (h := ?_) ..) KO.none) (by assumption) | apply Kept.ite | split
    | dsimp only

theorem grantContrib_kept {s0 : State} {s : State} (h : Kept s0 s) (k : Nat) : KO s0 (grantContrib s k) := by
  unfold grantContrib
  with_reducible repeat' first
    | assumption | refine KO.none | refine KO.some ?_ | refine KO.ite ?_ ?_ | apply setBq_kept
    | apply takeContrib_kept | refine KO.get (takeContrib_kept (h := ?_) ..) (by assumption) | apply Kept.ite
    | split

theorem freeContrib_kept {s0 : State} {s : State} (h : Kept s0 s) (c : Nat) (e : Eff) :
    Kept s0 (freeContrib s c e) := by
  unfold freeContrib
  with_reducible repeat' first
    | assumption | apply giveFlits_kept | apply setBq_kept | apply Kept.ite | split

theorem blqKill_kept {s0 : State} {s : State} (h : Kept s0 s) (id : Nat) (x : Run) : Kept s0 (blqKill s id x) := by
  unfold blqKill
  with_reducible repeat' first
    | assumption | apply freeContrib_kept | apply Kept.ite | refine Kept.foldl _ ?_ (fun _ _ _ => ?_) | split
    | dsimp only | refine Kept.upd ?_ rfl

theorem commitContrib_kept {s0 : State} (src : Pat) {s : State} (h : Kept s0 s) (x : Run) (e : Eff) :
    Kept s0 (commitContrib src s x e) := by
  unfold commitContrib
  with_reducible repeat' first
    | assumption | apply refuseContrib_kept | apply freeContrib_kept | apply setBq_kept
    | apply notePageFault_kept | apply sendItem_kept | apply Kept.ite | split | dsimp only
    | refine Kept.upd ?_ rfl

theorem dropArrival_kept {s0 : State} {s : State} (h : Kept s0 s) : Kept s0 (dropArrival s) := by
  unfold dropArrival
  with_reducible repeat' first
    | assumption | apply setRegBit_kept

theorem execBlend_kept {s0 : State} (p : Fin 16) (chip : Fin 4096) (key : BitVec 16) (slot : Fin 4096)
    (item : List Byte) {s : State} (h : Kept s0 s) :
    KOut s0 (execBlend p chip key slot item s) := by
  unfold execBlend
  with_reducible repeat' first
    | assumption | refine KOut.next ?_ | refine KOut.ite ?_ ?_ | apply countRx_kept | apply sendLane0_kept
    | apply dropArrival_kept | apply setRegBit_kept | apply addReg_kept | apply refuseContrib_kept
    | apply setBq_kept | apply Kept.ite | split | dsimp only

theorem payee_kept {α : Type} {s0 s : State} (h : Kept s0 s) (t : Table α) (leads owes : α → Bool) :
    PK s0 (payee s t leads owes) := by
  unfold payee
  with_reducible repeat' first
    | assumption | refine PK.mk ?_ | refine PK.get (draw_kept (h := ?_) ..) (by assumption)
    | refine PK.snd (draw_kept (h := ?_) ..) | split

theorem execRemoteCredit_kept {s0 : State} (p : Fin 16) (chip : Fin 4096) (key : BitVec 16) (units : Word)
    (queue : Bool) {s : State} (h : Kept s0 s) : KOut s0 (execRemoteCredit p chip key units queue s) := by
  have h1 := countRx_kept h p 1
  unfold execRemoteCredit
  generalize countRx s p 1 = t at h1
  cases queue
  · simp only [Bool.false_eq_true, if_false]
    split
    · next h2 => exact KOut.next (setChan_kept (PK.get (payee_kept h1 _ _ _) h2) _ _)
    · next h2 => exact KOut.next (PK.get (payee_kept h1 _ _ _) h2)
  · simp only [if_true]
    split
    · next h2 => exact KOut.next (setBq_kept (PK.get (payee_kept h1 _ _ _) h2) _ _)
    · next h2 => exact KOut.next (PK.get (payee_kept h1 _ _ _) h2)

theorem grantAny_kept {s0 : State} {s : State} (h : Kept s0 s) : KO s0 (grantAny s) := by
  unfold grantAny
  with_reducible repeat' first
    | assumption | refine KO.none | refine KO.some ?_ | refine KO.ite ?_ ?_ | apply grantSend_kept
    | apply grantContrib_kept | refine KO.get (grantSend_kept (h := ?_) ..) (by assumption)
    | refine KO.get (grantContrib_kept (h := ?_) ..) (by assumption)
    | refine KO.get (KO.findSome _ fun _ => grantSend_kept (h := ?_) ..) (by assumption)
    | refine KO.get (KO.findSome _ fun _ => grantContrib_kept (h := ?_) ..) (by assumption) | apply Kept.ite
    | refine KO.findSome _ (fun _ => ?_) | split

theorem countKill_kept {s0 : State} {s : State} (h : Kept s0 s) (c task cause : Nat) :
    Kept s0 (countKill s c task cause) := by
  unfold countKill
  with_reducible repeat' first
    | assumption | apply addReg_kept | apply setReg_kept | apply setRegBit_kept | apply Kept.ite

theorem traceKilled_kept {s0 : State} {s : State} (h : Kept s0 s) (x : Run) (cause : Nat) (staged : Bool) :
    Kept s0 (traceKilled s x cause staged) := by
  unfold traceKilled
  with_reducible repeat' first
    | assumption | apply traceCel_kept | apply Kept.ite

theorem freeFresh_kept {s0 : State} {s : State} (h : Kept s0 s) (x : Run) : Kept s0 (freeFresh s x) := by
  unfold freeFresh
  with_reducible repeat' first
    | assumption | apply freeFrame_kept | apply Kept.ite | refine Kept.foldl _ ?_ (fun _ _ _ => ?_)

theorem holdFresh_kept {s0 : State} {s : State} (h : Kept s0 s) (x : Run) : Kept s0 (holdFresh s x) := by
  unfold holdFresh
  with_reducible repeat' first
    | assumption | apply setUse_kept | apply Kept.ite | refine Kept.foldl _ ?_ (fun _ _ _ => ?_) | split
    | dsimp only | refine Kept.upd ?_ rfl

theorem countT1_kept {s0 : State} {s : State} (h : Kept s0 s) (x : Run) : KP s0 (countT1 s x) := by
  unfold countT1
  with_reducible repeat' first
    | assumption | refine KP.ite ?_ ?_ | apply Kept.ite | split | dsimp only | refine KP.mk ?_
    | refine Kept.upd ?_ rfl

theorem lessT1_kept {s0 : State} {s : State} (h : Kept s0 s) (c : Nat) : Kept s0 (lessT1 s c) := by
  unfold lessT1
  with_reducible repeat' first
    | assumption | apply Kept.ite | split | dsimp only | refine Kept.upd ?_ rfl

theorem countLimit_kept {s0 : State} {s : State} (h : Kept s0 s) (id : Nat) (x : Run) (cause : Nat) :
    Kept s0 (countLimit s id x cause) := by
  unfold countLimit
  with_reducible repeat' first
    | assumption | apply modRun_kept | apply countT1_kept | apply setStep_kept | apply ask_kept
    | refine KP.get (countT1_kept (h := ?_) ..) (by assumption) | refine KP.fst (countT1_kept (h := ?_) ..)
    | apply Kept.ite | split

theorem rerunRun_kept {s0 : State} {s : State} (h : Kept s0 s) (x : Run) (cause : Nat) :
    Kept s0 (rerunRun s x cause) := by
  unfold rerunRun
  with_reducible repeat' first
    | assumption | apply lessT1_kept | apply backReady_kept | apply setStep_kept | apply Kept.ite | split
    | dsimp only | refine Kept.upd ?_ rfl

theorem finishKill_kept {s0 : State} {s : State} (h : Kept s0 s) (id : Nat) (quarantine : Bool) :
    Kept s0 (finishKill s id quarantine) := by
  unfold finishKill
  with_reducible repeat' first
    | assumption | apply countLimit_kept | apply holdFresh_kept | apply freeFresh_kept | apply dropRun_kept
    | apply rerunRun_kept | apply Kept.ite | split

theorem discardRun_kept {s0 : State} {s : State} (h : Kept s0 s) (id : Nat) (x : Run) :
    Kept s0 (discardRun s id x) := by
  unfold discardRun
  with_reducible repeat' first
    | assumption | apply modRun_kept | apply synKill_kept | apply blqKill_kept | apply chnKill_kept
    | apply Kept.ite | split | dsimp only | refine Kept.upd ?_ rfl

theorem markKilled_kept {s0 : State} {s : State} (h : Kept s0 s) (id : Nat) (x : Run) (cause : Nat) :
    Kept s0 (markKilled s id x cause) := by
  unfold markKilled
  with_reducible repeat' first
    | assumption | apply countKill_kept | apply noteStep_kept | apply countLimit_kept | apply discardRun_kept
    | apply modRun_kept | apply Kept.ite

theorem dropWithdraw_kept {s0 : State} {s : State} (h : Kept s0 s) (id : Nat) : Kept s0 (dropWithdraw s id) := by
  unfold dropWithdraw
  with_reducible repeat' first
    | assumption | apply withdraw_kept | apply Kept.ite | split | dsimp only | refine Kept.upd ?_ rfl

theorem killRun_kept {s0 : State} {s : State} (h : Kept s0 s) (id cause : Nat) : Kept s0 (killRun s id cause) := by
  unfold killRun
  with_reducible repeat' first
    | assumption | apply markKilled_kept | apply setField_kept | apply finishKill_kept | apply traceKilled_kept
    | apply dropWithdraw_kept | apply grantDown_kept | apply Kept.ite | split

theorem killWhere_kept {s0 : State} {s : State} (h : Kept s0 s) (p : Run → Bool) (cause : Nat) :
    Kept s0 (killWhere s p cause) := by
  unfold killWhere
  with_reducible repeat' first
    | assumption | apply killRun_kept | apply Kept.ite | refine Kept.foldl _ ?_ (fun _ _ _ => ?_)

theorem removeEntries_kept {s0 : State} {s : State} (h : Kept s0 s) (i : Nat) : Kept s0 (removeEntries s i) := by
  unfold removeEntries
  exact Kept.upd (Kept.foldl _ (Kept.foldl _ (Kept.foldl _ h fun _ _ ht => traceEntry_kept ht ..)
    fun _ _ ht => traceTimer_kept ht ..) fun _ _ ht => traceEntry_kept ht ..) rfl

theorem dropDecs_kept {s0 : State} {s : State} (h : Kept s0 s) (img : Img) : Kept s0 (dropDecs s img) := by
  unfold dropDecs
  with_reducible repeat' first
    | assumption | apply Kept.ite | split | dsimp only | refine Kept.upd ?_ rfl

theorem tearDown_kept {s0 : State} {s : State} (h : Kept s0 s) (i cause task last : Nat) :
    Kept s0 (tearDown s i cause task last) := by
  unfold tearDown
  with_reducible repeat' first
    | assumption | apply dropDecs_kept | apply removeEntries_kept | apply setStep_kept | apply killWhere_kept
    | apply synTeardown_kept | apply unassign_kept | apply Kept.ite | split

theorem tearLimit_kept {s0 : State} {s : State} (h : Kept s0 s) : Kept s0 (tearLimit s) := by
  unfold tearLimit
  with_reducible repeat' first
    | assumption | apply tearDown_kept | apply Kept.ite | split | dsimp only | refine Kept.upd ?_ rfl

theorem killAll_kept {s0 : State} {s : State} (h : Kept s0 s) (p : Run → Bool) (cause : Nat) :
    Kept s0 (killAll s p cause) := by
  unfold killAll
  with_reducible repeat' first
    | assumption | apply tearLimit_kept | apply killRun_kept | apply killWhere_kept | apply Kept.ite
    | refine Kept.foldl _ ?_ (fun _ _ _ => ?_)

theorem startRecovery_kept {s0 : State} {s : State} (h : Kept s0 s) (c : Nat) : Kept s0 (startRecovery s c) := by
  unfold startRecovery
  with_reducible repeat' first
    | assumption | apply killAll_kept | apply Kept.ite | split | dsimp only | refine Kept.upd ?_ rfl

theorem answer_kept {s0 : State} {s : State} (h : Kept s0 s) (a1 : Ask) : Kept s0 (answer s a1) := by
  unfold answer
  with_reducible repeat' first
    | assumption | apply killAll_kept | apply killRun_kept | apply startRecovery_kept | apply divSeen_kept
    | apply tearDown_kept | apply Kept.ite | split

theorem settleGo_kept {s0 : State} (a1 : Nat) {s : State} (h : Kept s0 s) : Kept s0 (settleGo a1 s) := by
  induction a1 generalizing s with
  | zero => exact h
  | succ n ih =>
    simp only [settleGo]
    split
    · exact h
    · exact ih (answer_kept (by with_reducible exact Kept.upd h rfl) _)

theorem dropFailedT1_kept {s0 : State} {s : State} (h : Kept s0 s) : Kept s0 (dropFailedT1 s) := by
  unfold dropFailedT1
  with_reducible repeat' first
    | assumption | apply Kept.ite | refine Kept.foldl _ ?_ (fun _ _ _ => ?_) | split | dsimp only
    | refine Kept.upd ?_ rfl

theorem finishT1_kept {s0 : State} {s : State} (h : Kept s0 s) : Kept s0 (finishT1 s) := by
  unfold finishT1
  with_reducible repeat' first
    | assumption | apply dropFailedT1_kept | apply completeWith_kept | apply setRegBit_kept
    | apply completeOk_kept | apply Kept.ite | refine Kept.foldl _ ?_ (fun _ _ _ => ?_) | split | dsimp only
    | refine Kept.upd ?_ rfl

theorem settle_kept {s0 : State} {s : State} (h : Kept s0 s) : Kept s0 (settle s) := by
  unfold settle
  with_reducible repeat' first
    | assumption | apply finishT1_kept | apply settleGo_kept

theorem execDispatchSelect_kept {s0 : State} {s : State} (h : Kept s0 s) : KOut s0 (execDispatchSelect s) := by
  unfold execDispatchSelect
  with_reducible repeat' first
    | assumption | refine KOut.next ?_ | refine KOut.ite ?_ ?_ | apply selectAll_kept | apply settle_kept
    | apply queueLoss_kept | refine KP.get (selectAll_kept (h := ?_) ..) (by assumption)
    | refine KP.fst (selectAll_kept (h := ?_) ..) | apply Kept.ite | refine Kept.foldl _ ?_ (fun _ _ _ => ?_)

end Sys2Proof.Machine
end

