-- ==== Sys2Proof/Laws/KeptSls.lean ====
section
/-! SUPPORT. The queue of commands and the canonical memories, kept by the serving loop, blend sums and translation. -/

namespace Sys2Proof.Machine

open Sys2Proof

theorem setUse_mem (s : State) (k u : Nat) : (setUse s k u).mem = s.mem := by unfold setUse; split <;> rfl


theorem releaseFrame_kept {s0 : State} {s : State} (h : Kept s0 s) (c k : Nat) : Kept s0 (releaseFrame s c k) := by
  unfold releaseFrame
  with_reducible repeat' first
    | assumption | apply deferFrame_kept | apply freeFrame_kept | apply Kept.ite

theorem takeSlot_kept {s0 : State} {s : State} (h : Kept s0 s) (c k : Nat) : Kept s0 (takeSlot s c k) := by
  unfold takeSlot
  with_reducible repeat' first
    | assumption | apply Kept.ite | split | dsimp only | refine Kept.upd ?_ rfl

theorem dropSlot_kept {s0 : State} {s : State} (h : Kept s0 s) (c k : Nat) : Kept s0 (dropSlot s c k) := by
  unfold dropSlot
  with_reducible repeat' first
    | assumption | apply Kept.ite | split | dsimp only | refine Kept.upd ?_ rfl

theorem kvReserve_kept {s0 : State} {s : State} (h : Kept s0 s) (c : Nat) (large : Bool) (floor : Nat) (a1 : Nat) :
    KO s0 (kvReserve s c large floor a1) := by
  induction a1 generalizing s with
  | zero => exact KO.some h
  | succ n ih =>
    simp only [kvReserve]
    split
    · exact KO.none
    · exact KOP.map (takeFrame_kept (KO.get (ih h) (by assumption)) _ _ _ _ _)

theorem kvMap_kept {s0 : State} {s : State} (h : Kept s0 s) (c vpn : Nat) (large : Bool) :
    KO s0 (kvMap s c vpn large) := by
  unfold kvMap
  with_reducible repeat' first
    | assumption | refine KO.none | refine KO.some ?_ | refine KO.ite ?_ ?_ | apply ensureTables_kept
    | apply writeLeaf_kept | apply setUse_kept | refine KO.get (ensureTables_kept (h := ?_) ..) (by assumption)
    | refine KO.map ?_ (fun _ _ => ?_) | refine KOP.map ?_ | apply Kept.ite | split

theorem kvSpill_kept {s0 : State} {s : State} (h : Kept s0 s) (c vpn : Nat) : KO s0 (kvSpill s c vpn) := by
  unfold kvSpill
  with_reducible repeat' first
    | assumption | refine KO.none | refine KO.some ?_ | refine KO.ite ?_ ?_ | apply releaseFrame_kept
    | apply chargeBytes_kept | apply writeLeaf_kept | apply takeSlot_kept | split | dsimp only
    | refine Kept.updHost ?_ (hm := fun a b => wf_mcopy b a ..)

theorem kvRestore_kept {s0 : State} {s : State} (h : Kept s0 s) (c vpn : Nat) : KO s0 (kvRestore s c vpn) := by
  unfold kvRestore
  with_reducible repeat' first
    | assumption | refine KO.none | refine KO.some ?_ | refine KO.ite ?_ ?_ | apply dropSlot_kept
    | apply chargeBytes_kept | apply writeLeaf_kept | apply setUse_kept | split | dsimp only
    | refine Kept.updMem ?_ (hm := fun a b => wf_mcopy a b ..) ..

theorem kvDrop_kept {s0 : State} {s : State} (h : Kept s0 s) (c vpn : Nat) : Kept s0 (kvDrop s c vpn) := by
  unfold kvDrop
  with_reducible repeat' first
    | assumption | apply releaseFrame_kept | apply writeLeaf_kept | apply Kept.ite | split

theorem kvUnmap_kept {s0 : State} {s : State} (h : Kept s0 s) (c vpn : Nat) : Kept s0 (kvUnmap s c vpn) := by
  unfold kvUnmap
  with_reducible repeat' first
    | assumption | apply clearLeaf_kept | apply releaseFrame_kept | apply dropSlot_kept | apply Kept.ite | split

theorem kvReturn_kept {s0 : State} {s : State} (h : Kept s0 s) (c n : Nat) : KO s0 (kvReturn s c n) := by
  unfold kvReturn
  with_reducible repeat' first
    | assumption | refine KO.none | refine KO.some ?_ | refine KO.ite ?_ ?_ | apply freeFrame_kept
    | apply Kept.ite | refine Kept.foldl _ ?_ (fun _ _ _ => ?_)

theorem returnAll_kept {s0 : State} {s : State} (h : Kept s0 s) (c : Nat) : Kept s0 (returnAll s c) := by
  unfold returnAll
  with_reducible repeat' first
    | assumption | apply kvReturn_kept | refine KO.get (kvReturn_kept (h := ?_) ..) (by assumption)
    | refine KO.getD ?_ ?_

theorem releasePage_kept {s0 : State} {s : State} (h : Kept s0 s) (c vpn : Nat) : Kept s0
    (releasePage s c vpn) := by
  unfold releasePage
  with_reducible repeat' first
    | assumption | apply deferFrame_kept | apply clearLeaf_kept | apply Kept.ite | split

theorem releaseRange_kept {s0 : State} {s : State} (h : Kept s0 s) (c task vint vpn n : Nat) (opOk : Bool) :
    Kept s0 (releaseRange s c task vint vpn n opOk) := by
  unfold releaseRange
  with_reducible repeat' first
    | assumption | apply releasePage_kept | apply setRegBit_kept | apply raiseEvent_kept | apply Kept.ite
    | refine Kept.foldl _ ?_ (fun _ _ _ => ?_) | split

theorem commitRelease_kept {s0 : State} {s : State} (h : Kept s0 s) (x : Run) (data : Nat) :
    Kept s0 (commitRelease s x data) := by
  unfold commitRelease
  with_reducible repeat' first
    | assumption | apply releaseRange_kept

theorem remapRun_kept {s0 : State} {s : State} (h : Kept s0 s) (x : Run) : Kept s0 (remapRun s x) := by
  unfold remapRun
  with_reducible repeat' first
    | assumption | apply setUse_kept | apply enterCache_kept | apply deferFrame_kept | apply Kept.ite
    | refine Kept.foldl _ ?_ (fun _ _ _ => ?_) | split | dsimp only
    | refine Kept.updMem ?_ (hm := fun a _ => wf_mwriteLE a ..)

theorem acceptLaunch_kept {s0 : State} {s : State} (h : Kept s0 s) (i : Nat) (img : Img) (l : Launch) :
    Kept s0 (acceptLaunch s i img l) := by
  unfold acceptLaunch
  with_reducible repeat' first
    | assumption | apply setImg_kept | apply setStep_kept | apply Kept.ite

theorem releasePending_kept {s0 : State} {s : State} (h : Kept s0 s) (i : Nat) : Kept s0 (releasePending s i) := by
  unfold releasePending
  with_reducible repeat' first
    | assumption | apply setStep_kept | apply setImg_kept | apply Kept.ite | split

theorem execGraphLaunch_kept {s0 : State} {s : State} (h : Kept s0 s) : KOut s0 (execGraphLaunch s) := by
  unfold execGraphLaunch
  with_reducible repeat' first
    | assumption | refine KOut.next ?_ | refine KOut.ite ?_ ?_ | apply popUnit_kept | apply badOperand_kept
    | apply completeWith_kept | apply acceptLaunch_kept
    | refine KOP.get (popUnit_kept (h := ?_) ..) (by assumption) | apply Kept.ite | split | dsimp only

theorem setSrv_kept {s0 : State} {s : State} (h : Kept s0 s) (v : Nat) (x : Serve) : Kept s0 (setSrv s v x) := by
  unfold setSrv
  with_reducible repeat' first
    | assumption | apply Kept.ite | split | dsimp only | refine Kept.upd ?_ rfl

theorem modSrv_kept {s0 : State} {s : State} (h : Kept s0 s) (v : Nat) (f : Serve → Serve) :
    Kept s0 (modSrv s v f) := by
  unfold modSrv
  with_reducible repeat' first
    | assumption | apply setSrv_kept

theorem modAsm_kept {s0 : State} {s : State} (h : Kept s0 s) (v : Nat) (f : Asm → Asm) : Kept s0
    (modAsm s v f) := by
  unfold modAsm
  with_reducible repeat' first
    | assumption | apply modSrv_kept

theorem modSeq_kept {s0 : State} {s : State} (h : Kept s0 s) (v k : Nat) (f : Seq → Seq) :
    Kept s0 (modSeq s v k f) := by
  unfold modSeq
  with_reducible repeat' first
    | assumption | apply modSrv_kept

theorem execServeOpen_kept {s0 : State} (readErr : Bool) {s : State} (h : Kept s0 s) :
    KOut s0 (execServeOpen s readErr) := by
  unfold execServeOpen
  with_reducible repeat' first
    | assumption | refine KOut.next ?_ | refine KOut.ite ?_ ?_ | apply popUnit_kept | apply badOperand_kept
    | apply completeWith_kept | apply completeOk_kept | apply setSrv_kept
    | refine KOP.get (popUnit_kept (h := ?_) ..) (by assumption) | apply Kept.ite | split | dsimp only

theorem writeSrc_kept {s0 : State} {s : State} (h : Kept s0 s) (c : Nat) (stacked : Bool) (a : Nat)
    (bs : List Byte) :
    Kept s0 (writeSrc s c stacked a bs) := by
  unfold writeSrc
  with_reducible repeat' first
    | assumption | apply unitWritePlain_kept | apply hostWrite_kept | apply Kept.ite

theorem writeResp_kept {s0 : State} {s : State} (h : Kept s0 s)
    (v reqId status flags steps tokens detail stamp : Nat) :
    Kept s0 (writeResp s v reqId status flags steps tokens detail stamp) := by
  unfold writeResp
  with_reducible repeat' first
    | assumption | apply writeSrc_kept | apply modSrv_kept

theorem refuseAdvance_kept {s0 : State} {s : State} (h : Kept s0 s) (x : Run) (slot reason : Nat) :
    Kept s0 (refuseAdvance s x slot reason) := by
  unfold refuseAdvance
  with_reducible repeat' first
    | assumption | apply raiseEvent_kept | apply setRegBit_kept

theorem countMiss_kept {s0 : State} {s : State} (h : Kept s0 s) (v : Nat) : Kept s0 (countMiss s v) := by
  unfold countMiss
  with_reducible repeat' first
    | assumption | apply setRegBit_kept | apply addReg_kept

theorem slsAdvance_kept {s0 : State} {s : State} (h : Kept s0 s) (x : Run) (data : Nat) :
    Kept s0 (slsAdvance s x data) := by
  unfold slsAdvance
  with_reducible repeat' first
    | assumption | apply refuseAdvance_kept | apply setSrv_kept | apply modSeq_kept | apply countMiss_kept
    | apply Kept.ite | split | dsimp only

theorem unmapSlot_kept {s0 : State} {s : State} (h : Kept s0 s) (x : Serve) (k : Nat) :
    Kept s0 (unmapSlot s x k) := by
  unfold unmapSlot
  with_reducible repeat' first
    | assumption | apply kvUnmap_kept | apply Kept.ite | refine Kept.foldl _ ?_ (fun _ _ _ => ?_)

theorem retireSeq_kept {s0 : State} {s : State} (h : Kept s0 s) (v k : Nat) : Kept s0 (retireSeq s v k) := by
  unfold retireSeq
  with_reducible repeat' first
    | assumption | apply unmapSlot_kept | apply countMiss_kept | apply modSrv_kept | apply writeResp_kept
    | apply addReg_kept | apply setRegBit_kept | apply modSeq_kept | apply Kept.ite | split | dsimp only

theorem suspendSeq_kept {s0 : State} {s : State} (h : Kept s0 s) (v k : Nat) : Kept s0 (suspendSeq s v k) := by
  unfold suspendSeq
  with_reducible repeat' first
    | assumption | apply setRegBit_kept | apply addReg_kept | apply modAsm_kept | apply kvDrop_kept
    | apply modSeq_kept | apply Kept.ite | refine Kept.foldl _ ?_ (fun _ _ _ => ?_) | split | dsimp only

theorem spillFailed_kept {s0 : State} {s : State} (h : Kept s0 s) (v k j : Nat) : Kept s0
    (spillFailed s v k j) := by
  unfold spillFailed
  with_reducible repeat' first
    | assumption | apply kvUnmap_kept | apply kvDrop_kept | apply modAsm_kept | apply modSeq_kept
    | apply Kept.ite | refine Kept.foldl _ ?_ (fun _ _ _ => ?_)

theorem runOp_kept {s0 : State} {s : State} (h : Kept s0 s) (v : Nat) (o : KvOp) : KO s0 (runOp s v o) := by
  unfold runOp
  with_reducible repeat' first
    | assumption | refine KO.none | refine KO.some ?_ | refine KO.ite ?_ ?_ | apply kvMap_kept
    | apply kvRestore_kept | apply kvSpill_kept | apply spillFailed_kept
    | refine KO.get (kvMap_kept (h := ?_) ..) (by assumption)
    | refine KO.get (kvRestore_kept (h := ?_) ..) (by assumption)
    | refine KO.get (kvSpill_kept (h := ?_) ..) (by assumption) | apply Kept.ite | split | dsimp only

theorem nextTodo_kept {s0 : State} {s : State} (h : Kept s0 s) (v : Nat) : Kept s0 (nextTodo s v) := by
  unfold nextTodo
  with_reducible repeat' first
    | assumption | apply modAsm_kept

theorem toStage_kept {s0 : State} {s : State} (h : Kept s0 s) (v stage : Nat) (todo : List Nat) :
    Kept s0 (toStage s v stage todo) := by
  unfold toStage
  with_reducible repeat' first
    | assumption | apply modAsm_kept

theorem endTaking_kept {s0 : State} {s : State} (h : Kept s0 s) (v : Nat) : Kept s0 (endTaking s v) := by
  unfold endTaking
  with_reducible repeat' first
    | assumption | apply toStage_kept

theorem growStep_kept {s0 : State} {s : State} (h : Kept s0 s) (v k : Nat) : Kept s0 (growStep s v k) := by
  unfold growStep
  with_reducible repeat' first
    | assumption | apply nextTodo_kept | apply kvReserve_kept | apply modAsm_kept | apply modSeq_kept
    | apply suspendSeq_kept | refine KO.get (kvReserve_kept (h := ?_) ..) (by assumption) | apply Kept.ite
    | split | dsimp only

theorem resumeStep_kept {s0 : State} {s : State} (h : Kept s0 s) (v k : Nat) (a : Asm) :
    Kept s0 (resumeStep s v k a) := by
  unfold resumeStep
  with_reducible repeat' first
    | assumption | apply nextTodo_kept | apply kvReserve_kept | apply endTaking_kept | apply modAsm_kept
    | apply modSeq_kept | apply unmapSlot_kept | refine KO.get (kvReserve_kept (h := ?_) ..) (by assumption)
    | apply Kept.ite | split | dsimp only

theorem prefillStep_kept {s0 : State} {s : State} (h : Kept s0 s) (v k : Nat) (a : Asm) :
    Kept s0 (prefillStep s v k a) := by
  unfold prefillStep
  with_reducible repeat' first
    | assumption | apply nextTodo_kept | apply kvReserve_kept | apply endTaking_kept | apply modAsm_kept
    | apply modSeq_kept | refine KO.get (kvReserve_kept (h := ?_) ..) (by assumption) | apply Kept.ite | split
    | dsimp only

theorem deferRequest_kept {s0 : State} {s : State} (h : Kept s0 s) (v reqId why : Nat) :
    Kept s0 (deferRequest s v reqId why) := by
  unfold deferRequest
  with_reducible repeat' first
    | assumption | apply setRegBit_kept | apply addReg_kept | apply writeResp_kept | apply modSrv_kept
    | apply endTaking_kept | apply Kept.ite

theorem admitRequest_kept {s0 : State} {s : State} (h : Kept s0 s) (v k : Nat) (b : List Byte) (c n : Nat) :
    Kept s0 (admitRequest s v k b c n) := by
  unfold admitRequest
  with_reducible repeat' first
    | assumption | apply unitWritePlain_kept | apply addReg_kept | apply modSrv_kept | apply modAsm_kept

theorem admitStep_kept {s0 : State} {s : State} (h : Kept s0 s) (v : Nat) (a : Asm) (prod : Nat) :
    Kept s0 (admitStep s v a prod) := by
  unfold admitStep
  with_reducible repeat' first
    | assumption | apply endTaking_kept | apply setRegBit_kept | apply writeResp_kept | apply modSrv_kept
    | apply deferRequest_kept | apply kvReserve_kept | apply admitRequest_kept
    | refine KO.get (kvReserve_kept (h := ?_) ..) (by assumption) | apply Kept.ite | split | dsimp only

theorem readProd_kept {s0 : State} {s : State} (h : Kept s0 s) (v : Nat) : Kept s0 (readProd s v) := by
  unfold readProd
  with_reducible repeat' first
    | assumption | apply endTaking_kept | apply setRegBit_kept | apply modAsm_kept | apply Kept.ite | split
    | dsimp only

theorem judge_kept {s0 : State} {s : State} (h : Kept s0 s) (v : Nat) (x : Serve) (a : Asm) (l : List BatchE)
    (p pm dl : Nat) :
    KP s0 (judge s v x a l p pm dl) := by
  unfold judge
  with_reducible repeat' first
    | assumption | refine KP.ite ?_ ?_ | apply setRegBit_kept | apply addReg_kept | apply Kept.ite | split
    | dsimp only | refine KP.mk ?_

theorem writeCons_kept {s0 : State} {s : State} (h : Kept s0 s) (v : Nat) : Kept s0 (writeCons s v) := by
  unfold writeCons
  with_reducible repeat' first
    | assumption | apply writeSrc_kept

theorem endAsm_kept {s0 : State} {s : State} (h : Kept s0 s) (v : Nat) : Kept s0 (endAsm s v) := by
  unfold endAsm
  with_reducible repeat' first
    | assumption | apply modSrv_kept

theorem planBatch_kept {s0 : State} {s : State} (h : Kept s0 s) (v : Nat) (a : Asm) : Kept s0
    (planBatch s v a) := by
  unfold planBatch
  with_reducible repeat' first
    | assumption | apply writeCons_kept | apply endAsm_kept | apply judge_kept | apply setRegBit_kept
    | apply setReg_kept | apply unitWritePlain_kept | apply toStage_kept | apply modAsm_kept
    | refine KP.get (judge_kept (h := ?_) ..) (by assumption) | refine KP.fst (judge_kept (h := ?_) ..)
    | apply Kept.ite | refine Kept.foldl _ ?_ (fun _ _ _ => ?_) | split

theorem launchBatch_kept {s0 : State} {s : State} (h : Kept s0 s) (v : Nat) (p : BatchPlan) :
    Kept s0 (launchBatch s v p) := by
  unfold launchBatch
  with_reducible repeat' first
    | assumption | apply endAsm_kept | apply setReg_kept | apply addCount_kept | apply modSrv_kept
    | apply acceptLaunch_kept | apply Kept.ite | split | dsimp only

theorem finishClose_kept {s0 : State} {s : State} (h : Kept s0 s) (v : Nat) : Kept s0 (finishClose s v) := by
  unfold finishClose
  with_reducible repeat' first
    | assumption | apply returnAll_kept | apply completeOk_kept | apply setSrv_kept | apply setReg_kept
    | apply Kept.ite | refine Kept.foldl _ ?_ (fun _ _ _ => ?_)

theorem afterRetire_kept {s0 : State} {s : State} (h : Kept s0 s) (v : Nat) (a : Asm) :
    Kept s0 (afterRetire s v a) := by
  unfold afterRetire
  with_reducible repeat' first
    | assumption | apply finishClose_kept | apply endAsm_kept | apply toStage_kept | apply modAsm_kept
    | apply Kept.ite

theorem asmMove_kept {s0 : State} {s : State} (h : Kept s0 s) (v : Nat) : KO s0 (asmMove s v) := by
  unfold asmMove
  with_reducible repeat' first
    | assumption | refine KO.none | refine KO.some ?_ | refine KO.ite ?_ ?_ | apply kvMap_kept
    | apply modAsm_kept | apply nextTodo_kept | apply retireSeq_kept | apply afterRetire_kept
    | apply growStep_kept | apply toStage_kept | apply endTaking_kept | apply resumeStep_kept
    | apply prefillStep_kept | apply readProd_kept | apply admitStep_kept | apply planBatch_kept
    | apply launchBatch_kept | refine KO.get (kvMap_kept (h := ?_) ..) (by assumption)
    | refine KO.map ?_ (fun _ _ => ?_) | refine KOP.map ?_ | apply Kept.ite | split | dsimp only

theorem asmRun_kept {s0 : State} (v : Nat) (a1 : Nat) {s : State} (h : Kept s0 s) : Kept s0 (asmRun v a1 s) := by
  induction a1 generalizing s with
  | zero => exact h
  | succ n ih =>
    simp only [asmRun]
    split
    · exact ih (KO.get (asmMove_kept h v) (by assumption))
    · exact h

theorem asmStart_kept {s0 : State} {s : State} (h : Kept s0 s) (v : Nat) : Kept s0 (asmStart s v) := by
  unfold asmStart
  with_reducible repeat' first
    | assumption | apply returnAll_kept | apply asmRun_kept | apply setSrv_kept

theorem launchesOn_kept {s0 : State} {s : State} (h : Kept s0 s) : Kept s0 (launchesOn s) := by
  unfold launchesOn
  with_reducible repeat' first
    | assumption | apply asmRun_kept | apply Kept.ite | refine Kept.foldl _ ?_ (fun _ _ _ => ?_)

theorem execAssembly_kept {s0 : State} (v : Fin 4) {s : State} (h : Kept s0 s) : KOut s0 (execAssembly v s) := by
  unfold execAssembly
  with_reducible repeat' first
    | assumption | refine KOut.next ?_ | refine KOut.ite ?_ ?_ | apply asmStart_kept | apply launchesOn_kept
    | apply Kept.ite

theorem execServePoll_kept {s0 : State} (v : Fin 4) {s : State} (h : Kept s0 s) : KOut s0 (execServePoll v s) := by
  unfold execServePoll
  with_reducible repeat' first
    | assumption | refine KOut.next ?_ | refine KOut.ite ?_ ?_ | apply advanceTo_kept | apply countLate_kept
    | apply asmStart_kept

theorem execKvOperationDone_kept {s0 : State} (v : Fin 4) {s : State} (h : Kept s0 s) :
    KOut s0 (execKvOperationDone v s) := by
  unfold execKvOperationDone
  with_reducible repeat' first
    | assumption | refine KOut.next ?_ | refine KOut.ite ?_ ?_ | apply runOp_kept | apply modAsm_kept
    | apply modSrv_kept | apply asmRun_kept | refine KO.get (runOp_kept (h := ?_) ..) (by assumption)
    | apply Kept.ite | split | dsimp only

theorem slsStepEnd_kept {s0 : State} {s : State} (h : Kept s0 s) (v status vint : Nat) (counts : Nat) :
    Kept s0 (slsStepEnd s v status vint counts) := by
  unfold slsStepEnd
  with_reducible repeat' first
    | assumption | apply setReg_kept | apply setRegBit_kept | apply addReg_kept | apply setSrv_kept
    | apply modSrv_kept | apply raiseEvent_kept | apply Kept.ite

theorem execServeClose_kept {s0 : State} {s : State} (h : Kept s0 s) : KOut s0 (execServeClose s) := by
  unfold execServeClose
  with_reducible repeat' first
    | assumption | refine KOut.next ?_ | refine KOut.ite ?_ ?_ | apply popUnit_kept | apply badOperand_kept
    | apply setSrv_kept | apply settle_kept | apply ask_kept
    | refine KOP.get (popUnit_kept (h := ?_) ..) (by assumption) | apply Kept.ite | split | dsimp only

theorem readLeaf_kept {s0 : State} {s : State} (h : Kept s0 s) (q : BlendQ) (a : Nat) : KP s0 (readLeaf s q a) := by
  unfold readLeaf
  with_reducible repeat' first
    | assumption | refine KP.ite ?_ ?_ | apply notePageFault_kept
    | refine PK.get (draw_kept (h := ?_) ..) (by assumption) | refine PK.snd (draw_kept (h := ?_) ..) | split
    | dsimp only | refine KP.mk ?_

theorem writeLeafVal_kept {s0 : State} {s : State} (h : Kept s0 s) (k : Nat) (q : BlendQ) (a : Nat) (l : List Nat) :
    Kept s0 (writeLeafVal s k q a l) := by
  unfold writeLeafVal
  with_reducible repeat' first
    | assumption | apply setBq_kept | apply unitWritePlain_kept | apply Kept.ite

theorem countElems_kept {s0 : State} {s : State} (h : Kept s0 s) (q : BlendQ) : Kept s0 (countElems s q) := by
  unfold countElems
  with_reducible repeat' first
    | assumption | apply chargeBytes_kept | apply addCount_kept

theorem noteBlendNf_kept {s0 : State} {s : State} (h : Kept s0 s) (q : BlendQ) (n : Nat) :
    Kept s0 (noteBlendNf s q n) := by
  unfold noteBlendNf
  with_reducible repeat' first
    | assumption | apply setRegBit_kept | apply setStep_kept | apply Kept.ite | split | dsimp only

theorem doneRecord_kept {s0 : State} {s : State} (h : Kept s0 s) (q : BlendQ) (k i : Nat) (l : List Nat) :
    Kept s0 (doneRecord s q k i l) := by
  unfold doneRecord
  with_reducible repeat' first
    | assumption | apply draw_kept | apply writeRec_kept | apply deliveryFault_kept
    | refine PK.get (draw_kept (h := ?_) ..) (by assumption)
    | refine KP.get (writeRec_kept (h := ?_) ..) (by assumption) | refine PK.snd (draw_kept (h := ?_) ..)
    | refine KP.fst (writeRec_kept (h := ?_) ..) | apply Kept.ite | split | dsimp only

theorem writeDones_kept {s0 : State} {s : State} (h : Kept s0 s) (k : Nat) : Kept s0 (writeDones s k) := by
  unfold writeDones
  with_reducible repeat' first
    | assumption | apply setBq_kept | apply doneRecord_kept | apply Kept.ite
    | refine Kept.foldl _ ?_ (fun _ _ _ => ?_) | split | dsimp only

theorem writeAllDones_kept {s0 : State} {s : State} (h : Kept s0 s) : Kept s0 (writeAllDones s) := by
  unfold writeAllDones
  with_reducible repeat' first
    | assumption | apply writeDones_kept | apply Kept.ite | refine Kept.foldl _ ?_ (fun _ _ _ => ?_)

theorem completeQueue_kept {s0 : State} {s : State} (h : Kept s0 s) (k : Nat) (q : BlendQ) (l : List Nat) :
    Kept s0 (completeQueue s k q l) := by
  unfold completeQueue
  with_reducible repeat' first
    | assumption | apply setBq_kept | apply complete_kept | apply countElems_kept | apply notePageFault_kept
    | apply unitWritePlain_kept | apply noteBlendNf_kept | apply writeDones_kept | apply Kept.ite | split
    | dsimp only

theorem finishTree_kept {s0 : State} {s : State} (h : Kept s0 s) (k : Nat) : Kept s0 (finishTree s k) := by
  unfold finishTree
  with_reducible repeat' first
    | assumption | apply readLeaf_kept | apply completeQueue_kept
    | refine KP.get (readLeaf_kept (h := ?_) ..) (by assumption) | refine KP.fst (readLeaf_kept (h := ?_) ..)
    | apply Kept.ite | split

theorem execTreeAdd_kept {s0 : State} {s : State} (h : Kept s0 s) : KOut s0 (execTreeAdd s) := by
  unfold execTreeAdd
  with_reducible repeat' first
    | assumption | refine KOut.next ?_ | refine KOut.ite ?_ ?_ | apply finishTree_kept | apply readLeaf_kept
    | apply countElems_kept | apply writeLeafVal_kept | apply setBq_kept
    | refine KP.get (readLeaf_kept (h := ?_) ..) (by assumption) | refine KP.fst (readLeaf_kept (h := ?_) ..)
    | apply Kept.ite | refine Kept.foldl _ ?_ (fun _ _ _ => ?_) | split | dsimp only

theorem chainGo_kept {s0 : State} (k : Nat) (a1 : Nat) {s : State} (h : Kept s0 s) : Kept s0 (chainGo k a1 s) := by
  induction a1 generalizing s with
  | zero => exact h
  | succ n ih =>
    simp only [chainGo]
    with_reducible repeat' first
      | assumption | apply ih | apply setBq_kept | apply countElems_kept | apply completeQueue_kept
      | apply Kept.ite | refine KP.get (readLeaf_kept (h := ?_) ..) (by assumption)
      | refine KP.fst (readLeaf_kept (h := ?_) ..) | split

theorem chainOn_kept {s0 : State} {s : State} (h : Kept s0 s) (k : Nat) : Kept s0 (chainOn s k) := by
  unfold chainOn
  with_reducible repeat' first
    | assumption | apply chainGo_kept | apply Kept.ite | split

theorem returnBlend_kept {s0 : State} {s : State} (h : Kept s0 s) (key chip bytes : Nat) :
    Kept s0 (returnBlend s key chip bytes) := by
  unfold returnBlend
  with_reducible repeat' first
    | assumption | apply sendLane0_kept

theorem execContributionIntake_kept {s0 : State} (lost : Bool) {s : State} (h : Kept s0 s) :
    KOut s0 (execContributionIntake s lost) := by
  unfold execContributionIntake
  with_reducible repeat' first
    | assumption | refine KOut.next ?_ | refine KOut.ite ?_ ?_ | apply chainOn_kept | apply streamLoss_kept
    | apply chargeBytes_kept | apply setBq_kept | apply returnBlend_kept | apply finishTree_kept
    | apply writeLeafVal_kept | apply countElems_kept | apply completeQueue_kept | apply Kept.ite
    | refine Kept.foldl _ ?_ (fun _ _ _ => ?_) | split

theorem execChain_kept {s0 : State} (p : Fin 16) (chip : Fin 4096) (key : BitVec 16) (item : List Byte)
    {s : State} (h : Kept s0 s) :
    KOut s0 (execChain p chip key item s) := by
  unfold execChain
  with_reducible repeat' first
    | assumption | refine KOut.next ?_ | refine KOut.ite ?_ ?_ | apply returnBlend_kept | apply countRx_kept
    | apply setRegBit_kept | apply addReg_kept | apply chainOn_kept | apply chargeBytes_kept | apply setBq_kept
    | apply Kept.ite | split | dsimp only

theorem sendSum_kept {s0 : State} {s : State} (h : Kept s0 s) : KO s0 (sendSum s) := by
  unfold sendSum
  with_reducible repeat' first
    | assumption | refine KO.none | refine KO.some ?_ | refine KO.ite ?_ ?_ | apply takeFlits_kept
    | apply setBq_kept | apply sendItem_kept | refine KOP.get (takeFlits_kept (h := ?_) ..) (by assumption)
    | apply Kept.ite | refine KO.findSome _ (fun _ => ?_) | split | dsimp only

theorem execSendCreditGrant_kept {s0 : State} {s : State} (h : Kept s0 s) : KOut s0 (execSendCreditGrant s) := by
  unfold execSendCreditGrant
  with_reducible repeat' first
    | assumption | refine KOut.next ?_ | refine KOut.ite ?_ ?_ | apply grantAny_kept | apply settle_kept
    | apply sendSum_kept | refine KO.get (grantAny_kept (h := ?_) ..) (by assumption)
    | refine KO.get (sendSum_kept (h := ?_) ..) (by assumption) | refine KO.getD ?_ ?_ | apply Kept.ite | split

theorem resetQueues_kept {s0 : State} {s : State} (h : Kept s0 s) (i : Nat) (repro : Bool) (vint : Nat) :
    Kept s0 (resetQueues s i repro vint) := by
  unfold resetQueues
  with_reducible repeat' first
    | assumption | apply returnBlend_kept | apply setBq_kept | apply complete_kept | apply Kept.ite
    | refine Kept.foldl _ ?_ (fun _ _ _ => ?_) | split

theorem setUnit_kept {s0 : State} {s : State} (h : Kept s0 s) (u : Nat) (x : RexUnit) : Kept s0
    (setUnit s u x) := by
  unfold setUnit
  with_reducible repeat' first
    | assumption | apply Kept.ite | split | dsimp only | refine Kept.upd ?_ rfl

theorem modUnit_kept {s0 : State} {s : State} (h : Kept s0 s) (u : Nat) (f : RexUnit → RexUnit) :
    Kept s0 (modUnit s u f) := by
  unfold modUnit
  with_reducible repeat' first
    | assumption | apply setUnit_kept

theorem setRimg_kept {s0 : State} {s : State} (h : Kept s0 s) (c i : Nat) (x : RexImg) :
    Kept s0 (setRimg s c i x) := by
  unfold setRimg
  with_reducible repeat' first
    | assumption | apply Kept.ite | split | dsimp only | refine Kept.upd ?_ rfl

theorem progFault_kept {s0 : State} {s : State} (h : Kept s0 s) (u r : Nat) (x : Run) (code pc addr : Nat) :
    Kept s0 (progFault s u r x code pc addr) := by
  unfold progFault
  with_reducible repeat' first
    | assumption | apply setRegBit_kept | apply addReg_kept | apply setReg_kept | apply modUnit_kept
    | apply raiseEvent_kept | apply ask_kept

theorem dataFault_kept {s0 : State} {s : State} (h : Kept s0 s) (u r : Nat) (x : Run) (pc addr code : Nat)
    (write : Bool) :
    Kept s0 (dataFault s u r x pc addr code write) := by
  unfold dataFault
  with_reducible repeat' first
    | assumption | apply progFault_kept | apply notePageFault_kept

theorem digestFault_kept {s0 : State} {s : State} (h : Kept s0 s) (i : Nat) (img : Img) :
    Kept s0 (digestFault s i img) := by
  unfold digestFault
  with_reducible repeat' first
    | assumption | apply draw_kept | apply setRegBit_kept | apply record_kept | apply setStep_kept
    | refine PK.get (draw_kept (h := ?_) ..) (by assumption) | refine PK.snd (draw_kept (h := ?_) ..)
    | apply Kept.ite | split | dsimp only

theorem failImage_kept {s0 : State} {s : State} (h : Kept s0 s) (m : Cmd) (detail : Nat) :
    Kept s0 (failImage s m detail) := by
  unfold failImage
  with_reducible repeat' first
    | assumption | apply completeWith_kept | apply setRimg_kept

theorem setStream_kept {s0 : State} {s : State} (h : Kept s0 s) (m : Nat) (x : TrcStream) :
    Kept s0 (setStream s m x) := by
  unfold setStream
  with_reducible repeat' first
    | assumption | apply Kept.ite | split | dsimp only | refine Kept.upd ?_ rfl

theorem writeSlot_kept {s0 : State} {s : State} (h : Kept s0 s) (m off rec : Nat) :
    KP s0 (writeSlot s m off rec) := by
  unfold writeSlot
  with_reducible repeat' first
    | assumption | refine KP.ite ?_ ?_ | apply unitWrite_kept | apply setRegBit_kept
    | refine KP.get (unitWrite_kept (h := ?_) ..) (by assumption) | refine KP.fst (unitWrite_kept (h := ?_) ..)
    | apply Kept.ite | split | dsimp only | refine KP.mk ?_ | refine Kept.upd ?_ rfl

theorem putSlot_kept {s0 : State} {s : State} (h : Kept s0 s) (m rec : Nat) : KP s0 (putSlot s m rec) := by
  unfold putSlot
  with_reducible repeat' first
    | assumption | refine KP.ite ?_ ?_ | apply setRegBit_kept | apply setStream_kept | apply writeSlot_kept
    | refine KP.get (writeSlot_kept (h := ?_) ..) (by assumption) | refine KP.fst (writeSlot_kept (h := ?_) ..)
    | apply Kept.ite | split | dsimp only | refine KP.mk ?_

theorem putFull_kept {s0 : State} {s : State} (h : Kept s0 s) (m : Nat) : KP s0 (putFull s m) := by
  unfold putFull
  with_reducible repeat' first
    | assumption | refine KP.ite ?_ ?_ | apply setStream_kept | apply putSlot_kept | apply markFieldStamp_kept
    | refine KP.get (putSlot_kept (h := ?_) ..) (by assumption) | refine KP.fst (putSlot_kept (h := ?_) ..)
    | apply Kept.ite

theorem putDue_kept {s0 : State} {s : State} (h : Kept s0 s) (m : Nat) : KP s0 (putDue s m) := by
  unfold putDue
  with_reducible repeat' first
    | assumption | refine KP.ite ?_ ?_ | apply putFull_kept
    | refine KP.get (putFull_kept (h := ?_) ..) (by assumption) | refine KP.fst (putFull_kept (h := ?_) ..)
    | apply Kept.ite | split | dsimp only | refine KP.mk ?_

theorem putRecord_kept {s0 : State} {s : State} (h : Kept s0 s) (m rec : Nat) : KP s0 (putRecord s m rec) := by
  unfold putRecord
  with_reducible repeat' first
    | assumption | refine KP.ite ?_ ?_ | apply putDue_kept | apply putSlot_kept
    | refine KP.get (putDue_kept (h := ?_) ..) (by assumption)
    | refine KP.get (putSlot_kept (h := ?_) ..) (by assumption) | refine KP.fst (putDue_kept (h := ?_) ..)
    | refine KP.fst (putSlot_kept (h := ?_) ..) | apply Kept.ite | split | dsimp only | refine KP.mk ?_

theorem lossSlots_kept {s0 : State} {s : State} (h : Kept s0 s) (a1 : List Nat) : KP s0 (lossSlots s a1) := by
  induction a1 generalizing s with
  | nil => exact KP.mk h
  | cons m l ih =>
    have h1 : Kept s0 (if m < 8 then markFieldStamp s m else s) := Kept.ite (markFieldStamp_kept h m) h
    simp only [lossSlots]
    generalize (if m < 8 then markFieldStamp s m else s) = t at h1
    exact KP.ite (KP.ite (ih (KP.fst (writeSlot_kept h1 ..))) (KP.mk (KP.fst (writeSlot_kept h1 ..)))) (KP.mk h)

theorem stopTrace_kept {s0 : State} {s : State} (h : Kept s0 s) : Kept s0 (stopTrace s) := by
  unfold stopTrace
  with_reducible repeat' first
    | assumption | apply setRegBit_kept | apply Kept.ite | split | dsimp only | refine Kept.upd ?_ rfl

theorem faultStop_kept {s0 : State} {s : State} (h : Kept s0 s) (m : Nat) : Kept s0 (faultStop s m) := by
  unfold faultStop
  with_reducible repeat' first
    | assumption | apply setRegBit_kept | apply stopTrace_kept | apply raiseEvent_kept

theorem startTrace_kept {s0 : State} {s : State} (h : Kept s0 s) (m : Cmd) : Kept s0 (startTrace s m) := by
  unfold startTrace
  with_reducible repeat' first
    | assumption | apply setReg_kept | apply setRegBit_kept | apply putFull_kept | apply faultStop_kept
    | apply completeOk_kept | refine KP.get (putFull_kept (h := ?_) ..) (by assumption)
    | refine KP.fst (putFull_kept (h := ?_) ..) | apply Kept.ite | refine Kept.foldl _ ?_ (fun _ _ _ => ?_)
    | split | dsimp only | refine Kept.upd ?_ rfl

theorem finishFlush_kept {s0 : State} {s : State} (h : Kept s0 s) (m : Cmd) : Kept s0 (finishFlush s m) := by
  unfold finishFlush
  with_reducible repeat' first
    | assumption | apply completeOk_kept | apply stopTrace_kept | apply startTrace_kept | apply Kept.ite | split
    | dsimp only | refine Kept.upd ?_ rfl

theorem regionFault_kept {s0 : State} {s : State} (h : Kept s0 s) (m : Nat) : Kept s0 (regionFault s m) := by
  unfold regionFault
  with_reducible repeat' first
    | assumption | apply faultStop_kept | apply finishFlush_kept | apply Kept.ite
    | refine Kept.foldl _ ?_ (fun _ _ _ => ?_) | split | dsimp only | refine Kept.upd ?_ rfl

theorem endFlush_kept {s0 : State} {s : State} (h : Kept s0 s) (m : Cmd) : Kept s0 (endFlush s m) := by
  have h1 : KP s0 (if trcRuns s then lossSlots s (List.range 9) else (s, none)) :=
    KP.ite (lossSlots_kept h _) (KP.mk h)
  unfold endFlush
  generalize (if trcRuns s then lossSlots s (List.range 9) else (s, none)) = p at h1
  obtain ⟨t, bad⟩ := p
  have ht : Kept s0 t := h1
  cases bad with
  | none => exact finishFlush_kept ht m
  | some k => exact regionFault_kept (Kept.upd ht rfl) k

theorem endFlushes_kept {s0 : State} (a1 : Nat) {s : State} (h : Kept s0 s) : Kept s0 (endFlushes a1 s) := by
  induction a1 generalizing s with
  | zero => exact h
  | succ n ih =>
    simp only [endFlushes]
    with_reducible repeat' first
      | assumption | apply ih | apply endFlush_kept | apply Kept.ite | split | refine Kept.upd ?_ rfl

theorem nextTrace_kept {s0 : State} (a : Nat) {s : State} (h : Kept s0 s) : KOP s0 (nextTrace a s) := by
  unfold nextTrace
  with_reducible repeat' first
    | assumption | refine KOP.none | refine KOP.some ?_ | refine KOP.ite ?_ ?_ | apply popUnit_kept
    | refine KOP.get (popUnit_kept (h := ?_) ..) (by assumption) | apply Kept.ite | split

theorem traceCtl_kept {s0 : State} (a : Nat) (act : State → Cmd → State)
    (hact : ∀ t m, Kept s0 t → Kept s0 (act t m)) {s : State} (h : Kept s0 s) : KOut s0 (traceCtl a act s) := by
  unfold traceCtl
  with_reducible repeat' first
    | assumption | refine KOut.next ?_ | apply hact | apply badOperand_kept
    | refine KOP.get (nextTrace_kept (h := ?_) ..) (by assumption) | refine KOut.ite ?_ ?_ | split

theorem joinFlush_kept {s0 : State} (stop : Bool) {s : State} (h : Kept s0 s) (m : Cmd) :
    Kept s0 (joinFlush stop s m) := by
  unfold joinFlush
  with_reducible repeat' first
    | assumption | apply passSched_kept | apply endFlushes_kept | apply Kept.ite | split | dsimp only
    | refine Kept.upd ?_ rfl

theorem execTraceStart_kept {s0 : State} {s : State} (h : Kept s0 s) : KOut s0 (execTraceStart s) := by
  unfold execTraceStart
  with_reducible repeat' first
    | assumption | refine KOut.next ?_ | refine KOut.ite ?_ ?_ | refine traceCtl_kept _ _ (fun _ _ _ => ?_) ?_
    | apply joinFlush_kept | apply startTrace_kept
    | refine KOut.get (traceCtl_kept (h := ?_) ..) (by assumption) | apply Kept.ite

theorem execTraceFilter_kept {s0 : State} {s : State} (h : Kept s0 s) : KOut s0 (execTraceFilter s) := by
  unfold execTraceFilter
  with_reducible repeat' first
    | assumption | refine KOut.next ?_ | refine KOut.ite ?_ ?_ | refine traceCtl_kept _ _ (fun _ _ _ => ?_) ?_
    | apply setReg_kept | apply completeOk_kept

theorem execTraceFlush_kept {s0 : State} {s : State} (h : Kept s0 s) : KOut s0 (execTraceFlush s) := by
  unfold execTraceFlush
  with_reducible repeat' first
    | assumption | refine KOut.next ?_ | refine KOut.ite ?_ ?_ | refine traceCtl_kept _ _ (fun _ _ _ => ?_) ?_
    | apply joinFlush_kept | apply completeOk_kept
    | refine KOut.get (traceCtl_kept (h := ?_) ..) (by assumption) | apply Kept.ite

theorem execTraceStop_kept {s0 : State} {s : State} (h : Kept s0 s) : KOut s0 (execTraceStop s) := by
  unfold execTraceStop
  with_reducible repeat' first
    | assumption | refine KOut.next ?_ | refine KOut.ite ?_ ?_ | refine traceCtl_kept _ _ (fun _ _ _ => ?_) ?_
    | apply joinFlush_kept | apply completeOk_kept
    | refine KOut.get (traceCtl_kept (h := ?_) ..) (by assumption) | apply Kept.ite

theorem fullBuf_kept {s0 : State} {s : State} (h : Kept s0 s) (f : Nat) : PK s0 (fullBuf s f) := by
  unfold fullBuf
  with_reducible repeat' first
    | assumption | refine PK.ite ?_ ?_ | apply draw_kept
    | refine PK.get (draw_kept (h := ?_) ..) (by assumption) | refine PK.snd (draw_kept (h := ?_) ..)
    | apply Kept.ite | split | dsimp only | refine PK.mk ?_

theorem drainBuf_kept {s0 : State} {s : State} (h : Kept s0 s) (f : Nat) : Kept s0 (drainBuf s f) := by
  unfold drainBuf
  with_reducible repeat' first
    | assumption | apply fullBuf_kept | apply dueSrc_kept | apply flushTake_kept
    | refine PK.get (fullBuf_kept (h := ?_) ..) (by assumption) | refine PK.snd (fullBuf_kept (h := ?_) ..)
    | apply Kept.ite | split | dsimp only | refine Kept.upd ?_ rfl

theorem streamWrote_kept {s0 : State} (m : Nat) {r : State × Bool} (h : KP s0 r) : Kept s0 (streamWrote m r) := by
  unfold streamWrote
  exact Kept.ite h (regionFault_kept h _)

theorem writeOldest_kept {s0 : State} {s : State} (h : Kept s0 s) (m : Nat) : Kept s0 (writeOldest s m) := by
  unfold writeOldest
  have h1 : Kept s0 (if m < 8 then duesOf s m else dueCel s) := Kept.ite (duesOf_kept h _) (dueCel_kept h)
  generalize (if m < 8 then duesOf s m else dueCel s) = t at h1
  dsimp only
  split
  · split
    · exact h1
    · exact streamWrote_kept _ (putRecord_kept (duesOf_kept (flushTake_kept (Kept.upd h1 rfl) _) _) _ _)
  · split
    · exact h1
    · exact streamWrote_kept _ (putRecord_kept (dueCel_kept (flushTake_kept (Kept.upd h1 rfl) _)) _ _)

theorem execTraceRecordWrite_kept {s0 : State} (m : Fin 9) {s : State} (h : Kept s0 s) :
    KOut s0 (execTraceRecordWrite m s) := by
  unfold execTraceRecordWrite
  with_reducible repeat' first
    | assumption | refine KOut.next ?_ | refine KOut.ite ?_ ?_ | apply drainBuf_kept | apply passSched_kept
    | apply writeOldest_kept | apply endFlushes_kept | apply stopTrace_kept | apply setRegBit_kept
    | apply Kept.ite

theorem execFullStamp_kept {s0 : State} (m : Fin 9) {s : State} (h : Kept s0 s) : KOut s0 (execFullStamp m s) := by
  unfold execFullStamp
  with_reducible repeat' first
    | assumption | refine KOut.next ?_ | refine KOut.ite ?_ ?_ | apply streamWrote_kept | apply putFull_kept
    | apply advanceTo_kept | apply Kept.ite

theorem chargeAct_kept {s0 : State} {s : State} (h : Kept s0 s) (core e act : Nat) :
    Kept s0 (chargeAct s core e act) := by
  unfold chargeAct
  with_reducible repeat' first
    | assumption | apply modTally_kept | apply Kept.ite | split

theorem execTraceIncrement_kept {s0 : State} (src : Fin 4224) (e : Fin 8) (states : List (Fin 16 × Nat))
    (act : Nat) (lost : Bool) {s : State} (h : Kept s0 s) :
    KOut s0 (execTraceIncrement src e states act lost s) := by
  unfold execTraceIncrement
  with_reducible repeat' first
    | assumption | refine KOut.next ?_ | refine KOut.ite ?_ ?_ | apply setRegBit_kept | apply chargeAct_kept
    | apply Kept.ite | split | dsimp only | refine Kept.upd ?_ rfl

theorem writeCntCtl_kept {s0 : State} {s : State} (h : Kept s0 s) (w : Nat) : Kept s0 (writeCntCtl s w) := by
  unfold writeCntCtl
  with_reducible repeat' first
    | assumption | apply setReg_kept | apply Kept.ite | split | dsimp only | refine Kept.upd ?_ rfl

theorem execClear_kept {s0 : State} {s : State} (h : Kept s0 s) : KOut s0 (execClear s) := by
  unfold execClear
  with_reducible repeat' first
    | assumption | refine KOut.next ?_ | refine KOut.ite ?_ ?_ | apply Kept.ite | split | dsimp only
    | refine Kept.upd ?_ rfl

theorem execFreeze_kept {s0 : State} (b : Bool) {s : State} (h : Kept s0 s) : KOut s0 (execFreeze b s) := by
  unfold execFreeze
  with_reducible repeat' first
    | assumption | refine KOut.next ?_ | refine KOut.ite ?_ ?_ | apply setRegBit_kept

theorem markSeen_kept {s0 : State} {s : State} (h : Kept s0 s) (r vpn : Nat) (frame : Option Nat) :
    Kept s0 (markSeen s r vpn frame) := by
  unfold markSeen
  with_reducible repeat' first
    | assumption | apply modRun_kept

theorem grantFresh_kept {s0 : State} {s : State} (h : Kept s0 s) (r : Nat) (x : Run) (g : Region) (vpn : Nat) :
    KOP s0 (grantFresh s r x g vpn) := by
  unfold grantFresh
  with_reducible repeat' first
    | assumption | refine KOP.none | refine KOP.some ?_ | refine KOP.ite ?_ ?_ | apply takeFrame_kept
    | apply ensureTables_kept | apply addReg_kept | apply freeWay_kept | apply chargeBytes_kept
    | apply markSeen_kept | apply fillFrame_kept | apply modRun_kept | apply setField_kept
    | refine KOP.get (takeFrame_kept (h := ?_) ..) (by assumption)
    | refine KO.get (ensureTables_kept (h := ?_) ..) (by assumption) | refine KO.getD ?_ ?_ | apply Kept.ite
    | split

theorem startFill_kept {s0 : State} {s : State} (h : Kept s0 s) (c vpn : Nat) (g : Region)
    (field : Option Nat) (switch ahead : Bool) :
    KO s0 (startFill s c vpn g field switch ahead) := by
  unfold startFill
  with_reducible repeat' first
    | assumption | refine KO.none | refine KO.some ?_ | refine KO.ite ?_ ?_ | apply takeFrame_kept
    | refine KOP.get (takeFrame_kept (h := ?_) ..) (by assumption) | apply Kept.ite | split | dsimp only
    | refine Kept.upd ?_ rfl

theorem readCopy_kept {s0 : State} {s : State} (h : Kept s0 s) (c vpn : Nat) (g : Region) (field : Nat) :
    Kept s0 (readCopy s c vpn g field) := by
  unfold readCopy
  with_reducible repeat' first
    | assumption | apply mapForWrite_kept | refine KO.get (mapForWrite_kept (h := ?_) ..) (by assumption)
    | refine KO.getD ?_ ?_

theorem fillAhead_kept {s0 : State} (c : Nat) (g : Region) {s : State} (h : Kept s0 s) (vpn : Nat) :
    Kept s0 (fillAhead c g s vpn) := by
  unfold fillAhead
  with_reducible repeat' first
    | assumption | apply startFill_kept | refine KO.get (startFill_kept (h := ?_) ..) (by assumption)
    | refine KO.getD ?_ ?_ | apply Kept.ite

theorem prefetch_kept {s0 : State} {s : State} (h : Kept s0 s) (c page : Nat) : Kept s0 (prefetch s c page) := by
  unfold prefetch
  with_reducible repeat' first
    | assumption | apply enterCache_kept | apply fillAhead_kept | apply Kept.ite
    | refine Kept.foldl _ ?_ (fun _ _ _ => ?_) | split

theorem translate_kept {s0 : State} {s : State} (h : Kept s0 s) (r : Nat) (x : Run) (page : Nat) (write : Bool) :
    KX s0 (translate s r x page write) := by
  unfold translate
  with_reducible repeat' first
    | assumption | refine KX.frame ?_ | refine KX.wait ?_ | refine KX.fault | refine KX.ite ?_ ?_
    | apply markSeen_kept | apply cacheIn_kept | apply startFill_kept | apply noteWait_kept
    | apply grantFresh_kept | apply readCopy_kept | apply addReg_kept
    | refine KO.get (startFill_kept (h := ?_) ..) (by assumption)
    | refine KOP.get (grantFresh_kept (h := ?_) ..) (by assumption) | refine KO.getD ?_ ?_ | apply Kept.ite
    | split | dsimp only

theorem respond_kept {s0 : State} {s : State} (h : Kept s0 s) (field word : Nat) :
    Kept s0 (respond s field word) := by
  unfold respond
  with_reducible repeat' first
    | assumption | apply grantDown_kept

theorem walkError_kept {s0 : State} {s : State} (h : Kept s0 s) (c va : Nat) : Kept s0 (walkError s c va) := by
  unfold walkError
  with_reducible repeat' first
    | assumption | apply setRegBit_kept | apply ask_kept | apply record_kept

theorem faultXlt_kept {s0 : State} {s : State} (h : Kept s0 s) (field r : Nat) (x : Run) (req code : Nat) :
    Kept s0 (faultXlt s field r x req code) := by
  unfold faultXlt
  with_reducible repeat' first
    | assumption | apply notePageFault_kept | apply respond_kept | apply walkError_kept | apply progFault_kept
    | apply ask_kept | apply killRun_kept | apply Kept.ite

theorem answerXlt_kept {s0 : State} {s : State} (h : Kept s0 s) (field r req : Nat) :
    Kept s0 (answerXlt s field r req) := by
  unfold answerXlt
  with_reducible repeat' first
    | assumption | apply translate_kept | apply faultXlt_kept | apply respond_kept
    | refine KX.get (translate_kept (h := ?_) ..) (by assumption)
    | refine KX.getWait (translate_kept (h := ?_) ..) (by assumption) | apply Kept.ite | split | dsimp only
    | refine Kept.upd ?_ rfl

theorem execTranslationRequest_kept {s0 : State} (f : Fin 8) (bits : BitVec 128) (walkErr full : Bool)
    {s : State} (h : Kept s0 s) :
    KOut s0 (execTranslationRequest f bits walkErr s full) := by
  unfold execTranslationRequest
  with_reducible repeat' first
    | assumption | refine KOut.next ?_ | refine KOut.ite ?_ ?_ | apply settle_kept | apply fullLoss_kept
    | apply faultXlt_kept | apply setRegBit_kept | apply answerXlt_kept | apply Kept.ite | split | dsimp only
    | refine Kept.upd ?_ rfl

theorem lateWriteFault_kept {s0 : State} {s : State} (h : Kept s0 s) (c va : Nat) :
    Kept s0 (lateWriteFault s c va) := by
  unfold lateWriteFault
  with_reducible repeat' first
    | assumption | apply regionFault_kept | apply lateRingFault_kept | apply failImage_kept
    | apply digestFault_kept | apply notePageFault_kept | apply Kept.ite | split

theorem rexWaitFault_kept {s0 : State} {s : State} (h : Kept s0 s) (r : Nat) (x : Run) (va code : Nat)
    (write : Bool) :
    Kept s0 (rexWaitFault s r x va code write) := by
  unfold rexWaitFault
  with_reducible repeat' first
    | assumption | apply dataFault_kept

theorem tryWait_kept {s0 : State} {s : State} (h : Kept s0 s) (w : PatWait) : KO s0 (tryWait s w) := by
  have hf : ∀ (p t : State) (l : List PatWait), Kept s0 t → KO s0 (if p.pat.fills.length < t.pat.fills.length then
      some { t with pat := { t.pat with waits := l } } else none) :=
    fun _ _ _ ht => KO.ite (KO.some (Kept.upd ht rfl)) KO.none
  have h1 : Kept s0 { s with pat := { s.pat with served := waitCtx s w } } := Kept.upd h rfl
  unfold tryWait
  generalize { s with pat := { s.pat with served := waitCtx s w } } = p at h1
  have h2 : Kept s0 { p with pat := { p.pat with waits := p.pat.waits.filter fun v => v != w } } := Kept.upd h1 rfl
  dsimp only
  generalize { p with pat := { p.pat with waits := p.pat.waits.filter fun v => v != w } } = q at h2
  with_reducible repeat' first
    | assumption | apply hf | refine KO.none | refine KO.some ?_ | apply lateWriteFault_kept
    | apply answerXlt_kept | apply rexWaitFault_kept
    | refine KW.get (writePage_kept (h := ?_) ..) (by assumption)
    | refine KX.get (translate_kept (h := ?_) ..) (by assumption)
    | refine KX.getWait (translate_kept (h := ?_) ..) (by assumption) | refine KO.bind ?_ (fun _ _ => ?_)
    | apply startFill_kept | refine KO.ite ?_ ?_ | split | dsimp only | refine Kept.upd ?_ rfl

theorem frameGrant_kept {s0 : State} {s : State} (h : Kept s0 s) : Kept s0 (frameGrant s) := by
  unfold frameGrant
  with_reducible repeat' first
    | assumption | apply tryWait_kept | apply settle_kept
    | refine KO.get (tryWait_kept (h := ?_) ..) (by assumption)
    | refine KO.get (KO.findSome _ fun _ => tryWait_kept (h := ?_) ..) (by assumption) | apply Kept.ite | split

theorem execDeferredRelease_kept {s0 : State} {s : State} (h : Kept s0 s) : KOut s0 (execDeferredRelease s) := by
  unfold execDeferredRelease
  with_reducible repeat' first
    | assumption | refine KOut.next ?_ | refine KOut.ite ?_ ?_ | apply freeFrame_kept | apply Kept.ite | split
    | dsimp only | refine Kept.upd ?_ rfl

theorem execFrameZeroed_kept {s0 : State} (st : Fin 24) {s : State} (h : Kept s0 s) :
    KOut s0 (execFrameZeroed st s) := by
  unfold execFrameZeroed
  with_reducible repeat' first
    | assumption | refine KOut.next ?_ | refine KOut.ite ?_ ?_ | apply Kept.ite | split | dsimp only
    | refine Kept.upd ?_ rfl

theorem fillDone_kept {s0 : State} (readOk : Bool) {s : State} (h : Kept s0 s) : Kept s0 (fillDone readOk s) := by
  have key : ∀ (t : State) (k a : Nat) (b : List Byte), Kept s0 t →
      Kept s0 { setUse t k 0 with mem := mwriteBytes t.mem a b } := fun t k a b ht =>
    Kept.updMem (setUse_kept ht k 0) (hm := fun c _ => wf_mwriteBytes (m := t.mem) (setUse_mem t k 0 ▸ c) a b) ..
  unfold fillDone
  cases s.pat.fills with
  | nil => exact h
  | cons f rest =>
    dsimp only
    generalize s.pat.waits.filter _ = mine
    have h1 : Kept s0 { s with pat := { s.pat with fills := rest, waits := s.pat.waits.filter fun w => !mine.contains w } } :=
      Kept.upd h rfl
    generalize { s with pat := { s.pat with fills := rest, waits := s.pat.waits.filter fun w => !mine.contains w } } = p at h1
    with_reducible repeat' first
      | assumption | apply key | apply writeLeaf_kept | apply chargeBytes_kept | apply freeFrame_kept
      | apply settle_kept | apply answerXlt_kept | apply faultXlt_kept | apply rexWaitFault_kept
      | apply setStep_kept | refine KO.get (ensureTables_kept (h := ?_) ..) (by assumption)
      | refine Kept.foldl _ ?_ (fun _ _ _ => ?_) | split | dsimp only | refine Kept.upd ?_ rfl

theorem releaseCtx_kept {s0 : State} {s : State} (h : Kept s0 s) (c : Nat) : Kept s0 (releaseCtx s c) := by
  unfold releaseCtx
  with_reducible repeat' first
    | assumption | apply freeFrame_kept | apply Kept.ite | refine Kept.foldl _ ?_ (fun _ _ _ => ?_) | split
    | dsimp only | refine Kept.upd ?_ rfl

theorem execPatRelease_kept {s0 : State} (c : Fin 64) {s : State} (h : Kept s0 s) : KOut s0
    (execPatRelease c s) := by
  unfold execPatRelease
  with_reducible repeat' first
    | assumption | refine KOut.next ?_ | refine KOut.ite ?_ ?_ | apply releaseCtx_kept | apply setRegBit_kept

end Sys2Proof.Machine
end

