-- ==== Sys2Proof/Laws/KeptRex.lean ====
section
/-! SUPPORT. The queue of commands and the canonical memories, kept by the REX units. -/

namespace Sys2Proof.Machine

open Sys2Proof

theorem rexSlip_kept {s0 : State} {s : State} (h : Kept s0 s) (u r : Nat) (x : Run) (pc q kind : Nat)
    (qs : List Nat) (exe : Bool) :
    Kept s0 (rexSlip s u r x pc q kind qs exe) := by
  unfold rexSlip
  with_reducible repeat' first
    | assumption | apply modUnit_kept | apply raiseEvent_kept | apply ask_kept

theorem noteMiss_kept {s0 : State} {s : State} (h : Kept s0 s) (u key : Nat) : Kept s0 (noteMiss s u key) := by
  unfold noteMiss
  with_reducible repeat' first
    | assumption | apply modUnit_kept | apply addReg_kept | apply Kept.ite

theorem decodeProg_kept {s0 : State} {s : State} (h : Kept s0 s) (u r : Nat) (x : Run) :
    Kept s0 (decodeProg s u r x) := by
  unfold decodeProg
  with_reducible repeat' first
    | assumption | apply progFault_kept | apply noteMiss_kept | apply modUnit_kept | apply Kept.ite | split
    | dsimp only

theorem rexStart_kept {s0 : State} {s : State} (h : Kept s0 s) (u r : Nat) (x : Run) :
    Kept s0 (rexStart s u r x) := by
  unfold rexStart
  with_reducible repeat' first
    | assumption | apply setUnit_kept | apply progFault_kept | apply decodeProg_kept | apply Kept.ite | split
    | dsimp only

theorem execIcacheFill_kept {s0 : State} (u : Fin 128) {s : State} (h : Kept s0 s) :
    KOut s0 (execIcacheFill u s) := by
  unfold execIcacheFill
  with_reducible repeat' first
    | assumption | refine KOut.next ?_ | refine KOut.ite ?_ ?_ | apply settle_kept | apply dataFault_kept
    | apply setUnit_kept | apply decodeProg_kept | apply Kept.ite | split | dsimp only

theorem execSpadReady_kept {s0 : State} (u : Fin 128) (b : Bool) {s : State} (h : Kept s0 s) :
    KOut s0 (execSpadReady u b s) := by
  unfold execSpadReady
  with_reducible repeat' first
    | assumption | refine KOut.next ?_ | refine KOut.ite ?_ ?_ | apply modUnit_kept

theorem issueAt_kept {s0 : State} {s : State} (h : Kept s0 s) (u : Nat) (exe : Bool) (op : Nat) :
    KI s0 (issueAt s u exe op) := by
  unfold issueAt
  with_reducible repeat' first
    | assumption | apply progFault_kept | apply noteMiss_kept | refine KI.ite ?_ ?_ | refine KI.stop ?_
    | refine KI.none | refine KI.go | split | dsimp only

theorem stepPc_kept {s0 : State} {s : State} (h : Kept s0 s) (u : Nat) (exe : Bool) : Kept s0 (stepPc s u exe) := by
  unfold stepPc
  with_reducible repeat' first
    | assumption | apply modUnit_kept

theorem cmdXlt_kept {s0 : State} {s : State} (h : Kept s0 s) (r : Nat) (x : Run) (va : Nat) (write : Bool) :
    KX s0 (cmdXlt s r x va write) := by
  unfold cmdXlt
  with_reducible repeat' first
    | assumption | refine KX.frame ?_ | refine KX.wait ?_ | refine KX.fault | refine KX.ite ?_ ?_
    | apply setRegBit_kept | apply translate_kept | refine KX.get (translate_kept (h := ?_) ..) (by assumption)
    | refine KX.getWait (translate_kept (h := ?_) ..) (by assumption) | apply Kept.ite | split | dsimp only
    | refine Kept.upd ?_ rfl

theorem cmdReadPage_kept {s0 : State} {s : State} (h : Kept s0 s) (r va n : Nat) : KM s0
    (cmdReadPage s r va n) := by
  unfold cmdReadPage
  with_reducible repeat' first
    | assumption | refine KM.ok ?_ | refine KM.wait ?_ | refine KM.fault | refine KM.ite ?_ ?_
    | apply cmdXlt_kept | refine KX.get (cmdXlt_kept (h := ?_) ..) (by assumption)
    | refine KX.getWait (cmdXlt_kept (h := ?_) ..) (by assumption) | apply Kept.ite | split

theorem cmdReadGo_kept {s0 : State} (r : Nat) (a1 : Nat) {s : State} (h : Kept s0 s) (a3 : Nat) (a4 : Nat) :
    KM s0 (cmdReadGo r a1 s a3 a4) := by
  induction a1 generalizing s a3 a4 with
  | zero => exact KM.ok h
  | succ n ih =>
    simp only [cmdReadGo]
    with_reducible repeat' first
      | assumption | refine KM.ite ?_ ?_ | refine KM.fault | refine KM.ok ?_ | refine KM.wait ?_
      | refine KM.get (ih ?_ _ _) (by assumption) | refine KM.getWait (ih ?_ _ _) (by assumption)
      | refine KM.get (cmdReadPage_kept (h := ?_) ..) (by assumption)
      | refine KM.getWait (cmdReadPage_kept (h := ?_) ..) (by assumption) | split

theorem cmdRead_kept {s0 : State} (r fuel : Nat) {s : State} (h : Kept s0 s) (va n : Nat) :
    KM s0 (cmdRead r fuel s va n) := by
  unfold cmdRead
  with_reducible repeat' first
    | assumption | refine KM.ok ?_ | refine KM.wait ?_ | refine KM.fault | refine KM.ite ?_ ?_
    | apply cmdReadGo_kept | apply chargeBytes_kept
    | refine KM.get (cmdReadGo_kept (h := ?_) ..) (by assumption)
    | refine KM.getWait (cmdReadGo_kept (h := ?_) ..) (by assumption) | apply Kept.ite | split

theorem cmdPages_kept {s0 : State} (r : Nat) (a1 : Nat) {s : State} (h : Kept s0 s) (a3 : Nat) (a4 : Nat) :
    KM s0 (cmdPages r a1 s a3 a4) := by
  induction a1 generalizing s a3 a4 with
  | zero => exact KM.ok h
  | succ n ih =>
    simp only [cmdPages]
    with_reducible repeat' first
      | assumption | refine KM.ite ?_ ?_ | refine KM.fault | refine KM.ok ?_ | refine KM.wait ?_
      | refine KM.get (ih ?_ _ _) (by assumption) | refine KM.getWait (ih ?_ _ _) (by assumption)
      | refine KX.get (cmdXlt_kept (h := ?_) ..) (by assumption)
      | refine KX.getWait (cmdXlt_kept (h := ?_) ..) (by assumption) | split

theorem cmdWrite_kept {s0 : State} {s : State} (h : Kept s0 s) (r va : Nat) (bs : List Byte) :
    KM s0 (cmdWrite s r va bs) := by
  have key : ∀ {α : Type} (l : List α) (f : α → Nat) (g : α → List Byte) (m : Mem), Memory.wf m = true →
      Memory.wf (l.foldl (fun m p => mwriteBytes m (f p) (g p)) m) = true := by
    intro α l f g
    induction l with
    | nil => exact fun m hm => hm
    | cons a l ih => exact fun m hm => ih _ (wf_mwriteBytes hm _ _)
  unfold cmdWrite
  with_reducible repeat' first
    | assumption | refine KM.fault | refine KM.ok ?_ | refine KM.wait ?_ | apply chargeBytes_kept
    | refine KM.get (cmdPages_kept (h := ?_) ..) (by assumption)
    | refine KM.getWait (cmdPages_kept (h := ?_) ..) (by assumption) | split | dsimp only
    | refine Kept.updMem ?_ (hm := fun a _ => key _ _ _ _ a) ..

theorem passRows_kept {s0 : State} {s : State} (h : Kept s0 s) (u : Nat) (exe : Bool) (n all : Nat) :
    Kept s0 (passRows s u exe n all) := by
  unfold passRows
  with_reducible repeat' first
    | assumption | apply stepPc_kept | apply modUnit_kept | apply Kept.ite

theorem landed_kept {s0 : State} {s : State} (h : Kept s0 s) (u : Nat) (l : List RexWrite) :
    Kept s0 (landed s u l) := by
  unfold landed
  with_reducible repeat' first
    | assumption | apply modUnit_kept

theorem pushSlip_kept {s0 : State} {s : State} (h : Kept s0 s) (u r : Nat) (x : Run) (pc : Nat)
    (full qs : List Nat) (exe : Bool) :
    Kept s0 (pushSlip s u r x pc full qs exe) := by
  unfold pushSlip
  with_reducible repeat' first
    | assumption | apply rexSlip_kept | apply queueOverrun_kept | apply Kept.ite
    | refine Kept.foldl _ ?_ (fun _ _ _ => ?_)

theorem passBars_kept {s0 : State} {s : State} (h : Kept s0 s) (u : Nat) : Kept s0 (passBars s u) := by
  unfold passBars
  with_reducible repeat' first
    | assumption | apply modUnit_kept | apply stepPc_kept | apply Kept.ite | split | dsimp only

theorem sendEffect_kept {s0 : State} {s : State} (h : Kept s0 s) (r : Nat) (x : Run) (data : Nat) :
    Kept s0 (sendEffect s r x data) := by
  unfold sendEffect
  with_reducible repeat' first
    | assumption | apply ask_kept | apply killRun_kept | apply modRun_kept | apply record_kept
    | apply setRegBit_kept | apply setField_kept | apply Kept.ite

theorem addLoad_kept {s0 : State} {s : State} (h : Kept s0 s) (r n : Nat) : Kept s0 (addLoad s r n) := by
  unfold addLoad
  with_reducible repeat' first
    | assumption | apply modRun_kept

theorem addStore_kept {s0 : State} {s : State} (h : Kept s0 s) (r n : Nat) : Kept s0 (addStore s r n) := by
  unfold addStore
  with_reducible repeat' first
    | assumption | apply modRun_kept

theorem addDigest_kept {s0 : State} {s : State} (h : Kept s0 s) (r : Nat) (x : Run) (va : Nat) (bs : List Byte) :
    Kept s0 (addDigest s r x va bs) := by
  unfold addDigest
  with_reducible repeat' first
    | assumption | apply modRun_kept | apply Kept.ite

theorem memCheck_kept {s0 : State} {s : State} (h : Kept s0 s) (u r : Nat) (x : Run) (op pc w : Nat) :
    KO s0 (memCheck s u r x op pc w) := by
  unfold memCheck
  with_reducible repeat' first
    | assumption | refine KO.none | refine KO.some ?_ | refine KO.ite ?_ ?_ | apply progFault_kept

theorem memInstr_kept {s0 : State} {s : State} (h : Kept s0 s) (u : Nat) (op : Nat)
    (go : Nat → Run → Nat → Nat → Nat → State → MemRes (List RexWrite))
    (hgo : ∀ r x pc w ea t, Kept s0 t → KM s0 (go r x pc w ea t)) : KOut s0 (memInstr s u op go) := by
  unfold memInstr
  with_reducible repeat' first
    | assumption | refine KOut.next ?_ | apply settle_kept | apply stepPc_kept | apply landed_kept
    | apply dataFault_kept | refine KI.get (issueAt_kept (h := ?_) ..) (by assumption)
    | refine KO.get (memCheck_kept (h := ?_) ..) (by assumption)
    | refine KM.get (hgo _ _ _ _ _ _ ?_) (by assumption)
    | refine KM.getWait (hgo _ _ _ _ _ _ ?_) (by assumption) | split

theorem execLd_kept {s0 : State} (u : Fin 128) {s : State} (h : Kept s0 s) : KOut s0 (execLd u s) := by
  unfold execLd
  with_reducible repeat' first
    | assumption | refine KOut.next ?_ | refine KOut.ite ?_ ?_
    | refine memInstr_kept ?_ _ _ _ (fun _ _ _ _ _ _ _ => ?_) | refine KM.fault | refine KM.ok ?_
    | refine KM.wait ?_ | refine KM.ite ?_ ?_ | apply cmdRead_kept | apply addLoad_kept
    | refine KOut.get (memInstr_kept (h := ?_) ..) (by assumption)
    | refine KM.get (cmdRead_kept (h := ?_) ..) (by assumption)
    | refine KM.getWait (cmdRead_kept (h := ?_) ..) (by assumption) | apply Kept.ite | split | dsimp only

theorem execSt_kept {s0 : State} (u : Fin 128) {s : State} (h : Kept s0 s) : KOut s0 (execSt u s) := by
  unfold execSt
  with_reducible repeat' first
    | assumption | refine KOut.next ?_ | refine KOut.ite ?_ ?_
    | refine memInstr_kept ?_ _ _ _ (fun _ _ _ _ _ _ _ => ?_) | refine KM.fault | refine KM.ok ?_
    | refine KM.wait ?_ | refine KM.ite ?_ ?_ | apply cmdWrite_kept | apply addStore_kept | apply addDigest_kept
    | refine KOut.get (memInstr_kept (h := ?_) ..) (by assumption)
    | refine KM.get (cmdWrite_kept (h := ?_) ..) (by assumption)
    | refine KM.getWait (cmdWrite_kept (h := ?_) ..) (by assumption) | apply Kept.ite | split | dsimp only

theorem queueInstr_kept {s0 : State} {s : State} (h : Kept s0 s) (u : Nat) (op : Nat)
    (go : Nat → Run → Nat → Nat → Nat → State → MemRes Unit)
    (hgo : ∀ r x pc w ea t, Kept s0 t → KM s0 (go r x pc w ea t)) : KOut s0 (queueInstr s u op go) := by
  unfold queueInstr
  with_reducible repeat' first
    | assumption | refine KOut.next ?_ | apply settle_kept | apply dataFault_kept
    | refine KI.get (issueAt_kept (h := ?_) ..) (by assumption)
    | refine KO.get (memCheck_kept (h := ?_) ..) (by assumption)
    | refine KM.get (hgo _ _ _ _ _ _ ?_) (by assumption)
    | refine KM.getWait (hgo _ _ _ _ _ _ ?_) (by assumption) | split

theorem loadRows_kept {s0 : State} {s : State} (h : Kept s0 s) (r w ea lo n : Nat) :
    KM s0 (loadRows s r w ea lo n) := by
  unfold loadRows
  with_reducible repeat' first
    | assumption | refine KM.ok ?_ | refine KM.wait ?_ | refine KM.fault | refine KM.ite ?_ ?_
    | apply cmdRead_kept | apply addLoad_kept | refine KM.get (cmdRead_kept (h := ?_) ..) (by assumption)
    | refine KM.getWait (cmdRead_kept (h := ?_) ..) (by assumption) | apply Kept.ite | split | dsimp only

theorem pushItems_kept {s0 : State} {s : State} (h : Kept s0 s) (u q : Nat) (items : List (List Nat)) :
    Kept s0 (pushItems s u q items) := by
  unfold pushItems
  with_reducible repeat' first
    | assumption | apply modUnit_kept

theorem execLdq_kept {s0 : State} (u : Fin 128) {s : State} (h : Kept s0 s) : KOut s0 (execLdq u s) := by
  unfold execLdq
  with_reducible repeat' first
    | assumption | refine KOut.next ?_ | refine KOut.ite ?_ ?_
    | refine queueInstr_kept ?_ _ _ _ (fun _ _ _ _ _ _ _ => ?_) | refine KM.fault | refine KM.ok ?_
    | refine KM.wait ?_ | refine KM.ite ?_ ?_ | apply loadRows_kept | apply pushItems_kept | apply stepPc_kept
    | apply modUnit_kept | apply pushSlip_kept | apply passRows_kept
    | refine KOut.get (queueInstr_kept (h := ?_) ..) (by assumption)
    | refine KM.get (loadRows_kept (h := ?_) ..) (by assumption)
    | refine KM.getWait (loadRows_kept (h := ?_) ..) (by assumption) | apply Kept.ite | split | dsimp only

theorem storeRows_kept {s0 : State} {s : State} (h : Kept s0 s) (u r : Nat) (x : Run) (w ea : Nat) :
    KM s0 (storeRows s u r x w ea) := by
  unfold storeRows
  with_reducible repeat' first
    | assumption | refine KM.ok ?_ | refine KM.wait ?_ | refine KM.fault | refine KM.ite ?_ ?_
    | apply cmdWrite_kept | apply addStore_kept | apply stepPc_kept | apply landed_kept | apply addDigest_kept
    | refine KM.get (cmdWrite_kept (h := ?_) ..) (by assumption)
    | refine KM.getWait (cmdWrite_kept (h := ?_) ..) (by assumption) | apply Kept.ite | split | dsimp only

theorem execStq_kept {s0 : State} (u : Fin 128) {s : State} (h : Kept s0 s) : KOut s0 (execStq u s) := by
  unfold execStq
  with_reducible repeat' first
    | assumption | refine KOut.next ?_ | refine KOut.ite ?_ ?_
    | refine queueInstr_kept ?_ _ _ _ (fun _ _ _ _ _ _ _ => ?_) | refine KM.fault | refine KM.ok ?_
    | refine KM.wait ?_ | refine KM.ite ?_ ?_ | apply rexSlip_kept | apply storeRows_kept | apply draw_kept
    | apply modUnit_kept | refine KOut.get (queueInstr_kept (h := ?_) ..) (by assumption)
    | refine KM.get (storeRows_kept (h := ?_) ..) (by assumption)
    | refine KM.getWait (storeRows_kept (h := ?_) ..) (by assumption)
    | refine PK.get (draw_kept (h := ?_) ..) (by assumption) | refine PK.snd (draw_kept (h := ?_) ..)
    | apply Kept.ite

theorem execDig_kept {s0 : State} (u : Fin 128) {s : State} (h : Kept s0 s) : KOut s0 (execDig u s) := by
  unfold execDig
  with_reducible repeat' first
    | assumption | refine KOut.next ?_ | refine KOut.ite ?_ ?_
    | refine memInstr_kept ?_ _ _ _ (fun _ _ _ _ _ _ _ => ?_) | refine KM.fault | refine KM.ok ?_
    | refine KM.wait ?_ | refine KM.ite ?_ ?_ | apply cmdRead_kept | apply addDigest_kept
    | refine KOut.get (memInstr_kept (h := ?_) ..) (by assumption)
    | refine KM.get (cmdRead_kept (h := ?_) ..) (by assumption)
    | refine KM.getWait (cmdRead_kept (h := ?_) ..) (by assumption) | apply Kept.ite | split

theorem execAccld_kept {s0 : State} (u : Fin 128) {s : State} (h : Kept s0 s) : KOut s0 (execAccld u s) := by
  unfold execAccld
  with_reducible repeat' first
    | assumption | refine KOut.next ?_ | refine KOut.ite ?_ ?_
    | refine memInstr_kept ?_ _ _ _ (fun _ _ _ _ _ _ _ => ?_) | refine KM.fault | refine KM.ok ?_
    | refine KM.wait ?_ | refine KM.ite ?_ ?_ | apply cmdRead_kept
    | refine KOut.get (memInstr_kept (h := ?_) ..) (by assumption)
    | refine KM.get (cmdRead_kept (h := ?_) ..) (by assumption)
    | refine KM.getWait (cmdRead_kept (h := ?_) ..) (by assumption) | apply Kept.ite | split

theorem execAccst_kept {s0 : State} (u : Fin 128) {s : State} (h : Kept s0 s) : KOut s0 (execAccst u s) := by
  unfold execAccst
  with_reducible repeat' first
    | assumption | refine KOut.next ?_ | refine KOut.ite ?_ ?_
    | refine memInstr_kept ?_ _ _ _ (fun _ _ _ _ _ _ _ => ?_) | refine KM.fault | refine KM.ok ?_
    | refine KM.wait ?_ | refine KM.ite ?_ ?_ | apply cmdWrite_kept | apply addDigest_kept | apply addStore_kept
    | refine KOut.get (memInstr_kept (h := ?_) ..) (by assumption)
    | refine KM.get (cmdWrite_kept (h := ?_) ..) (by assumption)
    | refine KM.getWait (cmdWrite_kept (h := ?_) ..) (by assumption) | apply Kept.ite | split | dsimp only

theorem execAccadd_kept {s0 : State} (u : Fin 128) {s : State} (h : Kept s0 s) : KOut s0 (execAccadd u s) := by
  unfold execAccadd
  with_reducible repeat' first
    | assumption | refine KOut.next ?_ | refine KOut.ite ?_ ?_
    | refine memInstr_kept ?_ _ _ _ (fun _ _ _ _ _ _ _ => ?_) | refine KM.fault | refine KM.ok ?_
    | refine KM.wait ?_ | refine KM.ite ?_ ?_ | apply cmdRead_kept
    | refine KOut.get (memInstr_kept (h := ?_) ..) (by assumption)
    | refine KM.get (cmdRead_kept (h := ?_) ..) (by assumption)
    | refine KM.getWait (cmdRead_kept (h := ?_) ..) (by assumption) | apply Kept.ite | split

theorem effInstr_kept {s0 : State} {s : State} (h : Kept s0 s) (u op : Nat) (bad : Nat → Bool)
    (src : RexUnit → Run → Nat → Option Nat) (bits : Nat → Nat → Nat) :
    KOut s0 (effInstr s u op bad src bits) := by
  unfold effInstr
  with_reducible repeat' first
    | assumption | refine KOut.next ?_ | refine KOut.ite ?_ ?_ | apply issueAt_kept | apply settle_kept
    | apply progFault_kept | apply stepPc_kept | apply landed_kept | apply sendEffect_kept
    | refine KI.get (issueAt_kept (h := ?_) ..) (by assumption) | apply Kept.ite | split

theorem execSend_kept {s0 : State} (u : Fin 128) {s : State} (h : Kept s0 s) : KOut s0 (execSend u s) := by
  unfold execSend
  with_reducible repeat' first
    | assumption | refine KOut.next ?_ | refine KOut.ite ?_ ?_ | apply effInstr_kept

theorem execBlendInstr_kept {s0 : State} (u : Fin 128) {s : State} (h : Kept s0 s) :
    KOut s0 (execBlendInstr u s) := by
  unfold execBlendInstr
  with_reducible repeat' first
    | assumption | refine KOut.next ?_ | refine KOut.ite ?_ ?_ | apply effInstr_kept

theorem execSig_kept {s0 : State} (u : Fin 128) {s : State} (h : Kept s0 s) : KOut s0 (execSig u s) := by
  unfold execSig
  with_reducible repeat' first
    | assumption | refine KOut.next ?_ | refine KOut.ite ?_ ?_ | apply effInstr_kept

theorem execRexNop_kept {s0 : State} (u : Fin 128) (exe : Bool) {s : State} (h : Kept s0 s) :
    KOut s0 (execRexNop u exe s) := by
  unfold execRexNop
  with_reducible repeat' first
    | assumption | refine KOut.next ?_ | refine KOut.ite ?_ ?_ | apply issueAt_kept | apply settle_kept
    | apply stepPc_kept | refine KI.get (issueAt_kept (h := ?_) ..) (by assumption) | apply Kept.ite | split

theorem execLoop_kept {s0 : State} (u : Fin 128) (exe : Bool) {s : State} (h : Kept s0 s) :
    KOut s0 (execLoop u exe s) := by
  unfold execLoop
  with_reducible repeat' first
    | assumption | refine KOut.next ?_ | refine KOut.ite ?_ ?_ | apply issueAt_kept | apply settle_kept
    | apply progFault_kept | apply modUnit_kept | refine KI.get (issueAt_kept (h := ?_) ..) (by assumption)
    | apply Kept.ite | split

theorem execQbar_kept {s0 : State} (u : Fin 128) (exe : Bool) {s : State} (h : Kept s0 s) :
    KOut s0 (execQbar u exe s) := by
  unfold execQbar
  with_reducible repeat' first
    | assumption | refine KOut.next ?_ | refine KOut.ite ?_ ?_ | apply issueAt_kept | apply settle_kept
    | apply progFault_kept | apply passBars_kept | apply modUnit_kept
    | refine KI.get (issueAt_kept (h := ?_) ..) (by assumption) | apply Kept.ite | split

theorem passExe_kept {s0 : State} {s : State} (h : Kept s0 s) (u : Nat) (y z : RexUnit) (codes qs : List Nat)
    (dst : Nat) (k : Rows) (all : Nat) :
    Kept s0 (passExe s u y z codes qs dst k all) := by
  unfold passExe
  with_reducible repeat' first
    | assumption | apply passRows_kept | apply setUnit_kept

theorem exeInstr_kept {s0 : State} {s : State} (h : Kept s0 s) (u op : Nat) (k : Uses) (bad : Nat → Bool)
    (go : State → Run → RexUnit → Nat → Rows → RexUnit) :
    KOut s0 (exeInstr s u op k bad go) := by
  unfold exeInstr
  with_reducible repeat' first
    | assumption | refine KOut.next ?_ | refine KOut.ite ?_ ?_ | apply issueAt_kept | apply settle_kept
    | apply progFault_kept | apply passExe_kept | apply rexSlip_kept | apply pushSlip_kept | apply draw_kept
    | apply modUnit_kept | refine KI.get (issueAt_kept (h := ?_) ..) (by assumption)
    | refine PK.get (draw_kept (h := ?_) ..) (by assumption) | refine PK.snd (draw_kept (h := ?_) ..)
    | apply Kept.ite | refine Kept.foldl _ ?_ (fun _ _ _ => ?_) | split | dsimp only

theorem elemInstr_kept {s0 : State} {s : State} (h : Kept s0 s) (u op : Nat) (k : Uses) (ints rounds : Bool)
    (f : FV → FV → FV → FV) :
    KOut s0 (elemInstr s u op k ints rounds f) := by
  unfold elemInstr
  with_reducible repeat' first
    | assumption | refine KOut.next ?_ | refine KOut.ite ?_ ?_ | apply exeInstr_kept

theorem execAdd_kept {s0 : State} (u : Fin 128) {s : State} (h : Kept s0 s) : KOut s0 (execAdd u s) := by
  unfold execAdd
  with_reducible repeat' first
    | assumption | refine KOut.next ?_ | refine KOut.ite ?_ ?_ | apply elemInstr_kept

theorem execSub_kept {s0 : State} (u : Fin 128) {s : State} (h : Kept s0 s) : KOut s0 (execSub u s) := by
  unfold execSub
  with_reducible repeat' first
    | assumption | refine KOut.next ?_ | refine KOut.ite ?_ ?_ | apply elemInstr_kept

theorem execMul_kept {s0 : State} (u : Fin 128) {s : State} (h : Kept s0 s) : KOut s0 (execMul u s) := by
  unfold execMul
  with_reducible repeat' first
    | assumption | refine KOut.next ?_ | refine KOut.ite ?_ ?_ | apply elemInstr_kept

theorem execFma_kept {s0 : State} (u : Fin 128) {s : State} (h : Kept s0 s) : KOut s0 (execFma u s) := by
  unfold execFma
  with_reducible repeat' first
    | assumption | refine KOut.next ?_ | refine KOut.ite ?_ ?_ | apply elemInstr_kept

theorem execMin_kept {s0 : State} (u : Fin 128) {s : State} (h : Kept s0 s) : KOut s0 (execMin u s) := by
  unfold execMin
  with_reducible repeat' first
    | assumption | refine KOut.next ?_ | refine KOut.ite ?_ ?_ | apply elemInstr_kept

theorem execMax_kept {s0 : State} (u : Fin 128) {s : State} (h : Kept s0 s) : KOut s0 (execMax u s) := by
  unfold execMax
  with_reducible repeat' first
    | assumption | refine KOut.next ?_ | refine KOut.ite ?_ ?_ | apply elemInstr_kept

theorem execAbs_kept {s0 : State} (u : Fin 128) {s : State} (h : Kept s0 s) : KOut s0 (execAbs u s) := by
  unfold execAbs
  with_reducible repeat' first
    | assumption | refine KOut.next ?_ | refine KOut.ite ?_ ?_ | apply elemInstr_kept

theorem execNeg_kept {s0 : State} (u : Fin 128) {s : State} (h : Kept s0 s) : KOut s0 (execNeg u s) := by
  unfold execNeg
  with_reducible repeat' first
    | assumption | refine KOut.next ?_ | refine KOut.ite ?_ ?_ | apply elemInstr_kept

theorem execRcp_kept {s0 : State} (u : Fin 128) {s : State} (h : Kept s0 s) : KOut s0 (execRcp u s) := by
  unfold execRcp
  with_reducible repeat' first
    | assumption | refine KOut.next ?_ | refine KOut.ite ?_ ?_ | apply elemInstr_kept

theorem execRsq_kept {s0 : State} (u : Fin 128) {s : State} (h : Kept s0 s) : KOut s0 (execRsq u s) := by
  unfold execRsq
  with_reducible repeat' first
    | assumption | refine KOut.next ?_ | refine KOut.ite ?_ ?_ | apply elemInstr_kept

theorem execSqrt_kept {s0 : State} (u : Fin 128) {s : State} (h : Kept s0 s) : KOut s0 (execSqrt u s) := by
  unfold execSqrt
  with_reducible repeat' first
    | assumption | refine KOut.next ?_ | refine KOut.ite ?_ ?_ | apply elemInstr_kept

theorem execMov_kept {s0 : State} (u : Fin 128) {s : State} (h : Kept s0 s) : KOut s0 (execMov u s) := by
  unfold execMov
  with_reducible repeat' first
    | assumption | refine KOut.next ?_ | refine KOut.ite ?_ ?_ | apply exeInstr_kept

theorem execCvt_kept {s0 : State} (u : Fin 128) {s : State} (h : Kept s0 s) : KOut s0 (execCvt u s) := by
  unfold execCvt
  with_reducible repeat' first
    | assumption | refine KOut.next ?_ | refine KOut.ite ?_ ?_ | apply exeInstr_kept

theorem execSwu_kept {s0 : State} (u : Fin 128) {s : State} (h : Kept s0 s) : KOut s0 (execSwu u s) := by
  unfold execSwu
  with_reducible repeat' first
    | assumption | refine KOut.next ?_ | refine KOut.ite ?_ ?_ | apply exeInstr_kept

theorem execRed_kept {s0 : State} (u : Fin 128) {s : State} (h : Kept s0 s) : KOut s0 (execRed u s) := by
  unfold execRed
  with_reducible repeat' first
    | assumption | refine KOut.next ?_ | refine KOut.ite ?_ ?_ | apply exeInstr_kept

theorem execScan_kept {s0 : State} (u : Fin 128) {s : State} (h : Kept s0 s) : KOut s0 (execScan u s) := by
  unfold execScan
  with_reducible repeat' first
    | assumption | refine KOut.next ?_ | refine KOut.ite ?_ ?_ | apply exeInstr_kept

theorem execSscan_kept {s0 : State} (u : Fin 128) {s : State} (h : Kept s0 s) : KOut s0 (execSscan u s) := by
  unfold execSscan
  with_reducible repeat' first
    | assumption | refine KOut.next ?_ | refine KOut.ite ?_ ?_ | apply exeInstr_kept

theorem execAccw_kept {s0 : State} (u : Fin 128) {s : State} (h : Kept s0 s) : KOut s0 (execAccw u s) := by
  unfold execAccw
  with_reducible repeat' first
    | assumption | refine KOut.next ?_ | refine KOut.ite ?_ ?_ | apply exeInstr_kept
    | refine KOut.get (exeInstr_kept (h := ?_) ..) (by assumption) | apply Kept.ite | split | dsimp only
    | refine Kept.upd ?_ rfl

theorem execAccz_kept {s0 : State} (u : Fin 128) {s : State} (h : Kept s0 s) : KOut s0 (execAccz u s) := by
  unfold execAccz
  with_reducible repeat' first
    | assumption | refine KOut.next ?_ | refine KOut.ite ?_ ?_ | apply exeInstr_kept

theorem execAccsum_kept {s0 : State} (u : Fin 128) {s : State} (h : Kept s0 s) : KOut s0 (execAccsum u s) := by
  unfold execAccsum
  with_reducible repeat' first
    | assumption | refine KOut.next ?_ | refine KOut.ite ?_ ?_ | apply exeInstr_kept

end Sys2Proof.Machine
end

