-- ==== Sys2Proof/Laws/KeptRun.lean ====
section
/-! SUPPORT. The queue of commands and the canonical memories, kept by steps, runs, gates, core agents and commits. -/

namespace Sys2Proof.Machine

open Sys2Proof

theorem setDone_kept {s0 : State} {s : State} (h : Kept s0 s) (c t : Nat) : Kept s0 (setDone s c t) := by
  unfold setDone
  with_reducible repeat' first
    | assumption | apply checkLedger_kept | apply Kept.ite | split | dsimp only | refine Kept.upd ?_ rfl

theorem clearLedger_kept {s0 : State} {s : State} (h : Kept s0 s) (c t : Nat) : Kept s0 (clearLedger s c t) := by
  unfold clearLedger
  with_reducible repeat' first
    | assumption | apply checkLedger_kept | apply Kept.ite | split | dsimp only | refine Kept.upd ?_ rfl

theorem endMeasure_kept {s0 : State} {s : State} (h : Kept s0 s) (c : Nat) (st : Step) :
    Kept s0 (endMeasure s c st) := by
  unfold endMeasure
  with_reducible repeat' first
    | assumption | apply setReg_kept | apply raiseEvent_kept | apply Kept.ite | split

theorem endCounts_kept {s0 : State} {s : State} (h : Kept s0 s) (c : Nat) (st : Step) :
    Kept s0 (endCounts s c st) := by
  unfold endCounts
  with_reducible repeat' first
    | assumption | apply setReg_kept

theorem dropStep_kept {s0 : State} {s : State} (h : Kept s0 s) (i : Nat) (st : Step) (done : Nat) :
    Kept s0 (dropStep s i st done) := by
  unfold dropStep
  with_reducible repeat' first
    | assumption | apply releasePending_kept | apply completeOk_kept | apply Kept.ite
    | refine Kept.foldl _ ?_ (fun _ _ _ => ?_) | split | dsimp only | refine Kept.upd ?_ rfl

theorem answerLaunch_kept {s0 : State} {s : State} (h : Kept s0 s) (l : Launch)
    (status detail result reruns counts : Nat) :
    Kept s0 (answerLaunch s l status detail result reruns counts) := by
  unfold answerLaunch
  with_reducible repeat' first
    | assumption | apply slsStepEnd_kept | apply complete_kept | apply Kept.ite | split

theorem endStep_kept {s0 : State} {s : State} (h : Kept s0 s) (i : Nat) (st : Step) (img : Img) :
    Kept s0 (endStep s i st img) := by
  unfold endStep
  with_reducible repeat' first
    | assumption | apply endMeasure_kept | apply endCounts_kept | apply setRegBit_kept | apply answerLaunch_kept
    | apply dropStep_kept | apply Kept.ite

theorem failLaunch_kept {s0 : State} {s : State} (h : Kept s0 s) (i : Nat) (st : Step) (img : Img)
    (status detail counts : Nat) :
    Kept s0 (failLaunch s i st img status detail counts) := by
  unfold failLaunch
  with_reducible repeat' first
    | assumption | apply setImg_kept | apply dropStep_kept | apply answerLaunch_kept | apply Kept.ite | split
    | dsimp only | refine Kept.upd ?_ rfl

theorem countTask_kept {s0 : State} {s : State} (h : Kept s0 s) (i t : Nat) : Kept s0 (countTask s i t) := by
  unfold countTask
  with_reducible repeat' first
    | assumption | apply setStep_kept | apply setImg_kept | apply endStep_kept | apply Kept.ite | split

theorem fireEdges_kept {s0 : State} {s : State} (h : Kept s0 s) (i t : Nat) (field : Option Nat) :
    Kept s0 (fireEdges s i t field) := by
  unfold fireEdges
  with_reducible repeat' first
    | assumption | apply pushDecs_kept | apply Kept.ite | split

theorem commitTask_kept {s0 : State} {s : State} (h : Kept s0 s) (i c t : Nat) (field : Option Nat) :
    Kept s0 (commitTask s i c t field) := by
  unfold commitTask
  with_reducible repeat' first
    | assumption | apply countTask_kept | apply fireEdges_kept | apply setDone_kept

theorem releaseGrads_kept {s0 : State} {s : State} (h : Kept s0 s) (i : Nat) (st : Step) (img : Img) :
    Kept s0 (releaseGrads s i st img) := by
  unfold releaseGrads
  with_reducible repeat' first
    | assumption | apply setStep_kept | apply releaseRange_kept | apply Kept.ite

theorem endGate_kept {s0 : State} {s : State} (h : Kept s0 s) (st : Step) (img : Img) :
    Kept s0 (endGate s st img) := by
  unfold endGate
  with_reducible repeat' first
    | assumption | apply raiseEvent_kept

theorem execTeardownEnd_kept {s0 : State} {s : State} (h : Kept s0 s) : KOut s0 (execTeardownEnd s) := by
  unfold execTeardownEnd
  with_reducible repeat' first
    | assumption | refine KOut.next ?_ | refine KOut.ite ?_ ?_ | apply releaseGrads_kept | apply endGate_kept
    | apply dropDecs_kept | apply endStep_kept | apply Kept.ite | split | dsimp only

theorem cancelPending_kept {s0 : State} {s : State} (h : Kept s0 s) (i : Nat) (img : Img) (l : Launch) :
    Kept s0 (cancelPending s i img l) := by
  unfold cancelPending
  with_reducible repeat' first
    | assumption | apply complete_kept | apply setImg_kept

theorem execGraphAbort_kept {s0 : State} {s : State} (h : Kept s0 s) : KOut s0 (execGraphAbort s) := by
  unfold execGraphAbort
  with_reducible repeat' first
    | assumption | refine KOut.next ?_ | refine KOut.ite ?_ ?_ | apply popUnit_kept | apply badOperand_kept
    | apply cancelPending_kept | apply completeOk_kept | apply setStep_kept | apply settle_kept | apply ask_kept
    | refine KOP.get (popUnit_kept (h := ?_) ..) (by assumption) | apply Kept.ite | split | dsimp only

theorem installArm_kept {s0 : State} {s : State} (h : Kept s0 s) (i c : Nat) (b : List Byte) :
    Kept s0 (installArm s i c b) := by
  unfold installArm
  with_reducible repeat' first
    | assumption | apply record_kept | apply Kept.ite | refine Kept.foldl _ ?_ (fun _ _ _ => ?_) | split
    | dsimp only | refine Kept.upd ?_ rfl

theorem releaseArm_kept {s0 : State} {s : State} (h : Kept s0 s) (i : Nat) : Kept s0 (releaseArm s i) := by
  unfold releaseArm
  with_reducible repeat' first
    | assumption | apply registerEff_kept | apply Kept.ite | refine Kept.foldl _ ?_ (fun _ _ _ => ?_) | split
    | dsimp only | refine Kept.upd ?_ rfl

theorem noteLoad_kept {s0 : State} {s : State} (h : Kept s0 s) (status detail : Nat) :
    Kept s0 (noteLoad s status detail) := by
  unfold noteLoad
  with_reducible repeat' first
    | assumption | apply setReg_kept | apply setRegBit_kept | apply addReg_kept | apply Kept.ite

theorem reserveLoad_kept {s0 : State} {s : State} (h : Kept s0 s) (m : Cmd) (h : List Byte) :
    Kept s0 (reserveLoad s m h) := by
  unfold reserveLoad
  with_reducible repeat' first
    | assumption | apply Kept.ite | split | dsimp only | refine Kept.upd ?_ rfl

theorem execGraphLoad_kept {s0 : State} (readErr : Bool) {s : State} (h : Kept s0 s) :
    KOut s0 (execGraphLoad readErr s) := by
  unfold execGraphLoad
  with_reducible repeat' first
    | assumption | refine KOut.next ?_ | refine KOut.ite ?_ ?_ | apply refuseCritical_kept | apply noteLoad_kept
    | apply acceptCritical_kept | apply reserveLoad_kept | apply Kept.ite | split | dsimp only

theorem failLoad_kept {s0 : State} {s : State} (h : Kept s0 s) (i : Nat) (img : Img) (m : Cmd) (code index : Nat) :
    Kept s0 (failLoad s i img m code index) := by
  unfold failLoad
  with_reducible repeat' first
    | assumption | apply completeWith_kept | apply noteLoad_kept | apply badOperand_kept | apply Kept.ite
    | split | dsimp only | refine Kept.upd ?_ rfl

theorem installLoad_kept {s0 : State} {s : State} (h : Kept s0 s) (i : Nat) (img : Img) (m : Cmd) (b : List Byte) :
    Kept s0 (installLoad s i img m b) := by
  unfold installLoad
  with_reducible repeat' first
    | assumption | apply installArm_kept | apply installTables_kept | apply setImg_kept | apply completeOk_kept
    | apply addReg_kept | apply releasePending_kept | apply Kept.ite | split | dsimp only
    | refine Kept.upd ?_ rfl

theorem execGraphLoadInstall_kept {s0 : State} (err : Option Nat) (lost : Nat) {s : State} (h : Kept s0 s) :
    KOut s0 (execGraphLoadInstall err s lost) := by
  unfold execGraphLoadInstall
  with_reducible repeat' first
    | assumption | refine KOut.next ?_ | refine KOut.ite ?_ ?_ | apply streamLoss_kept | apply failLoad_kept
    | apply streamTables_kept | apply installLoad_kept | apply Kept.ite | split | dsimp only

theorem execGraphUnload_kept {s0 : State} {s : State} (h : Kept s0 s) : KOut s0 (execGraphUnload s) := by
  unfold execGraphUnload
  with_reducible repeat' first
    | assumption | refine KOut.next ?_ | refine KOut.ite ?_ ?_ | apply popUnit_kept | apply completeOk_kept
    | apply completeWith_kept | apply releaseArm_kept | apply setImg_kept
    | refine KOP.get (popUnit_kept (h := ?_) ..) (by assumption) | apply Kept.ite | split

theorem execUnloadZeroingDone_kept {s0 : State} {s : State} (h : Kept s0 s) : KOut s0
    (execUnloadZeroingDone s) := by
  unfold execUnloadZeroingDone
  with_reducible repeat' first
    | assumption | refine KOut.next ?_ | refine KOut.ite ?_ ?_ | apply clearTables_kept | apply advanceCclk_kept
    | apply completeOk_kept | apply Kept.ite | split | dsimp only | refine Kept.upd ?_ rfl

theorem execLaunchBegin_kept {s0 : State} {s : State} (h : Kept s0 s) : KOut s0 (execLaunchBegin s) := by
  unfold execLaunchBegin
  with_reducible repeat' first
    | assumption | refine KOut.next ?_ | refine KOut.ite ?_ ?_ | apply failLaunch_kept | apply setRegBit_kept
    | apply noteCapacity_kept | apply setStep_kept | apply pushMat_kept | apply Kept.ite
    | refine Kept.foldl _ ?_ (fun _ _ _ => ?_) | split | dsimp only | refine Kept.upd ?_ rfl

theorem startDigest_kept {s0 : State} {s : State} (h : Kept s0 s) (i : Nat) (st : Step) (img : Img) :
    Kept s0 (startDigest s i st img) := by
  unfold startDigest
  with_reducible repeat' first
    | assumption | apply setStep_kept | apply unitWrite_kept | apply digestFault_kept
    | refine KP.get (unitWrite_kept (h := ?_) ..) (by assumption) | refine KP.fst (unitWrite_kept (h := ?_) ..)
    | apply Kept.ite | split

theorem execStepStart_kept {s0 : State} {s : State} (h : Kept s0 s) : KOut s0 (execStepStart s) := by
  unfold execStepStart
  with_reducible repeat' first
    | assumption | refine KOut.next ?_ | refine KOut.ite ?_ ?_ | apply setRegBit_kept | apply resetQueues_kept
    | apply setStep_kept | apply startDigest_kept | apply Kept.ite | split

theorem decLoss_kept {s0 : State} {s : State} (h : Kept s0 s) (unit detail : Nat) (ctxs : List Nat) :
    Kept s0 (decLoss s unit detail ctxs) := by
  unfold decLoss
  with_reducible repeat' first
    | assumption | apply ask_kept | apply record_kept | apply Kept.ite
    | refine Kept.foldl _ ?_ (fun _ _ _ => ?_)

theorem sendDelayed_kept {s0 : State} {s : State} (h : Kept s0 s) (r : Ready) : Kept s0 (sendDelayed s r) := by
  unfold sendDelayed
  with_reducible repeat' first
    | assumption | apply decLoss_kept | apply setRegBit_kept | apply queueOverrun_kept | apply Kept.ite | split
    | dsimp only | refine Kept.upd ?_ rfl

theorem taskReady_kept {s0 : State} {s : State} (h : Kept s0 s) (i c t : Nat) (pred : Option Nat) :
    Kept s0 (taskReady s i c t pred) := by
  unfold taskReady
  with_reducible repeat' first
    | assumption | apply setCounter_kept | apply sendDelayed_kept | apply pushReady_kept | apply Kept.ite
    | split | dsimp only | refine Kept.upd ?_ rfl

theorem sweepTask_kept {s0 : State} (i : Nat) (img : Img) {s : State} (h : Kept s0 s) (r : Nat) :
    Kept s0 (sweepTask i img s r) := by
  unfold sweepTask
  with_reducible repeat' first
    | assumption | apply clearLedger_kept | apply setCounter_kept | apply postTaskWait_kept
    | apply prefetch_kept | apply taskReady_kept | apply Kept.ite

theorem sweepStep_kept {s0 : State} {s : State} (h : Kept s0 s) (i : Nat) : Kept s0 (sweepStep s i) := by
  unfold sweepStep
  with_reducible repeat' first
    | assumption | apply sweepTask_kept | apply setStep_kept | apply Kept.ite
    | refine Kept.foldl _ ?_ (fun _ _ _ => ?_) | split | dsimp only

theorem execSweepRow_kept {s0 : State} {s : State} (h : Kept s0 s) : KOut s0 (execSweepRow s) := by
  unfold execSweepRow
  with_reducible repeat' first
    | assumption | refine KOut.next ?_ | refine KOut.ite ?_ ?_ | apply settle_kept | apply sweepStep_kept
    | apply advanceCclk_kept | apply Kept.ite | refine Kept.foldl _ ?_ (fun _ _ _ => ?_) | split

theorem divergeCounter_kept {s0 : State} {s : State} (h : Kept s0 s) (c t : Nat) :
    Kept s0 (divergeCounter s c t) := by
  unfold divergeCounter
  with_reducible repeat' first
    | assumption | apply ask_kept | apply record_kept | apply divSeen_kept

theorem applyDec_kept {s0 : State} {s : State} (h : Kept s0 s) (i c : Nat) (e : Dec) :
    Kept s0 (applyDec s i c e) := by
  unfold applyDec
  with_reducible repeat' first
    | assumption | apply divergeCounter_kept | apply ask_kept | apply record_kept | apply setRegBit_kept
    | apply addCount_kept | apply setCounter_kept | apply prefetch_kept | apply taskReady_kept | apply Kept.ite

theorem execDecrementApply_kept {s0 : State} (bank : Fin 16) {s : State} (h : Kept s0 s) :
    KOut s0 (execDecrementApply bank s) := by
  unfold execDecrementApply
  with_reducible repeat' first
    | assumption | refine KOut.next ?_ | refine KOut.ite ?_ ?_ | apply addReg_kept | apply settle_kept
    | apply applyDec_kept | apply Kept.ite | split | dsimp only | refine Kept.upd ?_ rfl

theorem noteLate_kept {s0 : State} {s : State} (h : Kept s0 s) (late : Bool) : Kept s0 (noteLate s late) := by
  unfold noteLate
  with_reducible repeat' first
    | assumption | apply setRegBit_kept | apply addReg_kept | apply countLate_kept | apply Kept.ite

theorem releaseDelayed_kept {s0 : State} {s : State} (h : Kept s0 s) (i c t : Nat) (pred : Option Nat)
    (since : Nat) (late : Bool) :
    Kept s0 (releaseDelayed s i c t pred since late) := by
  unfold releaseDelayed
  with_reducible repeat' first
    | assumption | apply noteLate_kept | apply addReg_kept | apply traceTimer_kept | apply pushReady_kept
    | apply Kept.ite | split | dsimp only | refine Kept.upd ?_ rfl

theorem takeTimer_kept {s0 : State} {s : State} (h : Kept s0 s) (r : Ready) : Kept s0 (takeTimer s r) := by
  unfold takeTimer
  with_reducible repeat' first
    | assumption | apply traceTimer_kept | apply releaseDelayed_kept | apply setReg_kept | apply Kept.ite
    | split | dsimp only | refine Kept.upd ?_ rfl

theorem execTmrInsert_kept {s0 : State} {s : State} (h : Kept s0 s) : KOut s0 (execTmrInsert s) := by
  unfold execTmrInsert
  with_reducible repeat' first
    | assumption | refine KOut.next ?_ | refine KOut.ite ?_ ?_ | apply takeTimer_kept | apply setRegBit_kept
    | apply Kept.ite | split | dsimp only | refine Kept.upd ?_ rfl

theorem execTmrRelease_kept {s0 : State} {s : State} (h : Kept s0 s) : KOut s0 (execTmrRelease s) := by
  unfold execTmrRelease
  with_reducible repeat' first
    | assumption | refine KOut.next ?_ | refine KOut.ite ?_ ?_ | apply advanceTo_kept
    | apply releaseDelayed_kept | apply Kept.ite | refine Kept.foldl _ ?_ (fun _ _ _ => ?_) | split | dsimp only
    | refine Kept.upd ?_ rfl

theorem execImbEnWrite_kept {s0 : State} (c : Fin 64) (w : Word) {s : State} (h : Kept s0 s) :
    KOut s0 (execImbEnWrite c w s) := by
  unfold execImbEnWrite
  with_reducible repeat' first
    | assumption | refine KOut.next ?_ | refine KOut.ite ?_ ?_ | apply setRegBit_kept | apply setReg_kept

theorem digestWord_kept {s0 : State} {s : State} (h : Kept s0 s) (img : Img) (layer : Nat) :
    KP s0 (digestWord s img layer) := by
  unfold digestWord
  with_reducible repeat' first
    | assumption | refine KP.ite ?_ ?_ | apply draw_kept
    | refine PK.get (draw_kept (h := ?_) ..) (by assumption) | refine PK.snd (draw_kept (h := ?_) ..)
    | apply Kept.ite | split | dsimp only | refine KP.mk ?_

theorem provenance_kept {s0 : State} {s : State} (h : Kept s0 s) (d : List Byte) (img : Img) :
    KP s0 (provenance s d img) := by
  unfold provenance
  with_reducible repeat' first
    | assumption | refine KP.ite ?_ ?_ | apply digestWord_kept
    | refine KP.get (digestWord_kept (h := ?_) ..) (by assumption)
    | refine KP.fst (digestWord_kept (h := ?_) ..) | apply Kept.ite | split | dsimp only | refine KP.mk ?_

theorem passRecord_kept {s0 : State} {s : State} (h : Kept s0 s) (d b : List Byte) (st : Step) (img : Img)
    (loss : Nat) :
    KP s0 (passRecord s d b st img loss) := by
  unfold passRecord
  with_reducible repeat' first
    | assumption | refine KP.ite ?_ ?_ | apply provenance_kept
    | refine KP.get (provenance_kept (h := ?_) ..) (by assumption)
    | refine KP.fst (provenance_kept (h := ?_) ..) | apply Kept.ite | split | dsimp only | refine KP.mk ?_

theorem passGate_kept {s0 : State} {s : State} (h : Kept s0 s) (i t : Nat) (d : List Byte) (st : Step)
    (img : Img) (g : GateRead) :
    Kept s0 (passGate s i t d st img g) := by
  unfold passGate
  with_reducible repeat' first
    | assumption | apply passRecord_kept | apply setStep_kept | apply commitTask_kept | apply addCount_kept
    | refine KP.get (passRecord_kept (h := ?_) ..) (by assumption)
    | refine KP.fst (passRecord_kept (h := ?_) ..) | apply Kept.ite | split

theorem returnVintage_kept {s0 : State} {s : State} (h : Kept s0 s) (i : Nat) (l : Launch) :
    Kept s0 (returnVintage s i l) := by
  unfold returnVintage
  with_reducible repeat' first
    | assumption | apply setImg_kept | apply Kept.ite | split

theorem failGate_kept {s0 : State} {s : State} (h : Kept s0 s) (i t : Nat) (d : List Byte) (st : Step)
    (g : GateRead) (reason : Nat) :
    Kept s0 (failGate s i t d st g reason) := by
  unfold failGate
  with_reducible repeat' first
    | assumption | apply settle_kept | apply ask_kept | apply returnVintage_kept | apply setStep_kept

theorem gateFill_kept {s0 : State} {s : State} (h : Kept s0 s) (i t c va : Nat) : Kept s0
    (gateFill s i t c va) := by
  unfold gateFill
  with_reducible repeat' first
    | assumption | apply setRegBit_kept | apply startFill_kept | apply noteWait_kept
    | refine KO.get (startFill_kept (h := ?_) ..) (by assumption) | apply Kept.ite | split | dsimp only
    | refine Kept.upd ?_ rfl

theorem execGateEvaluate_kept {s0 : State} (stErr lossErr : Bool) {s : State} (h : Kept s0 s) :
    KOut s0 (execGateEvaluate stErr lossErr s) := by
  unfold execGateEvaluate
  with_reducible repeat' first
    | assumption | refine KOut.next ?_ | refine KOut.ite ?_ ?_ | apply gateFill_kept | apply passGate_kept
    | apply failGate_kept | apply Kept.ite | split | dsimp only | refine Kept.upd ?_ rfl

theorem execGateRecordWrite_kept {s0 : State} (walkErr : Bool) {s : State} (h : Kept s0 s) :
    KOut s0 (execGateRecordWrite s walkErr) := by
  unfold execGateRecordWrite
  with_reducible repeat' first
    | assumption | refine KOut.next ?_ | refine KOut.ite ?_ ?_ | apply walkError_kept | apply notePageFault_kept
    | apply unitWritePlain_kept | apply setStep_kept | apply settle_kept | apply commitTask_kept
    | apply addCount_kept | apply Kept.ite | split

theorem chargeUse_kept {s0 : State} {s : State} (h : Kept s0 s) (late : Bool) (x : Run) (cc : Nat) :
    Kept s0 (chargeUse s late x cc) := by
  unfold chargeUse
  with_reducible repeat' first
    | assumption | apply modTally_kept

theorem chargeRun_kept {s0 : State} {s : State} (h : Kept s0 s) (id : Nat) : Kept s0 (chargeRun s id) := by
  unfold chargeRun
  with_reducible repeat' first
    | assumption | apply setRun_kept | apply chargeUse_kept | apply Kept.ite | split

theorem accLoss_kept {s0 : State} {s : State} (h : Kept s0 s) : Kept s0 (accLoss s) := by
  unfold accLoss
  with_reducible repeat' first
    | assumption | apply setRegBit_kept | apply Kept.ite | refine Kept.foldl _ ?_ (fun _ _ _ => ?_)

theorem loseCharge_kept {s0 : State} {s : State} (h : Kept s0 s) (id : Nat) : Kept s0 (loseCharge s id) := by
  unfold loseCharge
  with_reducible repeat' first
    | assumption | apply accLoss_kept | apply queueOverrun_kept | apply setRun_kept | apply Kept.ite | split

theorem traceBegin_kept {s0 : State} {s : State} (h : Kept s0 s) (x : Run) : Kept s0 (traceBegin s x) := by
  unfold traceBegin
  with_reducible repeat' first
    | assumption | apply traceSrc_kept | apply markSrcStamp_kept | apply Kept.ite

theorem traceEnd_kept {s0 : State} {s : State} (h : Kept s0 s) (x : Run) (outcome : Nat) (noEnd : Bool) :
    Kept s0 (traceEnd s x outcome noEnd) := by
  unfold traceEnd
  with_reducible repeat' first
    | assumption | apply traceSrc_kept | apply markSrcStamp_kept | apply Kept.ite

theorem sendBeat_kept {s0 : State} {s : State} (h : Kept s0 s) (x : Run) (beat : Nat) :
    Kept s0 (sendBeat s x beat) := by
  unfold sendBeat
  with_reducible repeat' first
    | assumption | apply Kept.ite | split | dsimp only | refine Kept.upd ?_ rfl

theorem messageBeat_kept {s0 : State} {s : State} (h : Kept s0 s) (x : Run) : Kept s0 (messageBeat s x) := by
  unfold messageBeat
  with_reducible repeat' first
    | assumption | apply draw_kept | apply sendBeat_kept
    | refine PK.get (draw_kept (h := ?_) ..) (by assumption) | refine PK.snd (draw_kept (h := ?_) ..)
    | apply Kept.ite | split

theorem beginRun_kept {s0 : State} {s : State} (h : Kept s0 s) (id : Nat) : Kept s0 (beginRun s id) := by
  unfold beginRun
  with_reducible repeat' first
    | assumption | apply traceBegin_kept | apply setRun_kept | apply rexStart_kept | apply messageBeat_kept
    | apply sendBeat_kept | apply Kept.ite | split

theorem startRun_kept {s0 : State} {s : State} (h : Kept s0 s) (id : Nat) : Kept s0 (startRun s id) := by
  unfold startRun
  with_reducible repeat' first
    | assumption | apply beginRun_kept | apply setCore_kept | apply setRun_kept | apply Kept.ite | split

theorem startNext_kept {s0 : State} {s : State} (h : Kept s0 s) (kind core engine : Nat) :
    Kept s0 (startNext s kind core engine) := by
  unfold startNext
  with_reducible repeat' first
    | assumption | apply startRun_kept | apply Kept.ite | split

theorem giveBack_kept {s0 : State} {s : State} (h : Kept s0 s) (id : Nat) : Kept s0 (giveBack s id) := by
  unfold giveBack
  with_reducible repeat' first
    | assumption | apply backReady_kept | apply dropRun_kept | apply Kept.ite | split

theorem placeRun_kept {s0 : State} {s : State} (h : Kept s0 s) (id : Nat) (x : Run) (core engine : Nat) :
    Kept s0 (placeRun s id x core engine) := by
  unfold placeRun
  with_reducible repeat' first
    | assumption | apply traceRun_kept | apply setRun_kept | apply startNext_kept | apply Kept.ite | split
    | dsimp only | refine Kept.upd ?_ rfl

theorem execDispatchRecord_kept {s0 : State} (f : Fin 8) {s : State} (h : Kept s0 s) :
    KOut s0 (execDispatchRecord f s) := by
  unfold execDispatchRecord
  with_reducible repeat' first
    | assumption | refine KOut.next ?_ | refine KOut.ite ?_ ?_ | apply setField_kept | apply giveBack_kept
    | apply settle_kept | apply placeRun_kept | apply Kept.ite | split

theorem traceVoid_kept {s0 : State} {s : State} (h : Kept s0 s) (x : Run) : Kept s0 (traceVoid s x) := by
  unfold traceVoid
  with_reducible repeat' first
    | assumption | apply traceSched_kept

theorem withdrawTo_kept {s0 : State} {s : State} (h : Kept s0 s) (id : Nat) (x : Run) (w : Withdrawal) :
    KP s0 (withdrawTo s id x w) := by
  unfold withdrawTo
  with_reducible repeat' first
    | assumption | refine KP.ite ?_ ?_ | apply setRun_kept | apply giveBack_kept | apply traceVoid_kept
    | apply holdSched_kept | apply chargeWait_kept | apply addReg_kept | apply setField_kept
    | apply queueOverrun_kept | apply Kept.ite | split | dsimp only | refine KP.mk ?_

theorem execWithdraw_kept {s0 : State} (f : Fin 8) {s : State} (h : Kept s0 s) : KOut s0 (execWithdraw f s) := by
  unfold execWithdraw
  with_reducible repeat' first
    | assumption | refine KOut.next ?_ | refine KOut.ite ?_ ?_ | apply withdraw_kept | apply setField_kept
    | apply traceVoid_kept | apply setRegBit_kept | apply withdrawTo_kept | apply settle_kept
    | apply queueLoss_kept | refine KP.get (withdrawTo_kept (h := ?_) ..) (by assumption)
    | refine KP.fst (withdrawTo_kept (h := ?_) ..) | apply Kept.ite | split | dsimp only

theorem returnStaged_kept {s0 : State} {s : State} (h : Kept s0 s) (p : Run → Bool) : Kept s0
    (returnStaged s p) := by
  unfold returnStaged
  with_reducible repeat' first
    | assumption | apply giveBack_kept | apply Kept.ite | refine Kept.foldl _ ?_ (fun _ _ _ => ?_)

theorem failCore_kept {s0 : State} {s : State} (h : Kept s0 s) (n : Nat) : Kept s0 (failCore s n) := by
  unfold failCore
  with_reducible repeat' first
    | assumption | apply setRegBit_kept | apply setCore_kept | apply returnStaged_kept

theorem failRex_kept {s0 : State} {s : State} (h : Kept s0 s) (u : Nat) : Kept s0 (failRex s u) := by
  unfold failRex
  with_reducible repeat' first
    | assumption | apply returnStaged_kept | apply setRegBit_kept | apply Kept.ite | split | dsimp only
    | refine Kept.upd ?_ rfl

theorem measureRun_kept {s0 : State} {s : State} (h : Kept s0 s) (x : Run) (endNs : Nat) :
    Kept s0 (measureRun s x endNs) := by
  unfold measureRun
  with_reducible repeat' first
    | assumption | apply setStep_kept | apply Kept.ite | split

theorem closeRun_kept {s0 : State} {s : State} (h : Kept s0 s) (id : Nat) (outcome : Nat) (noEnd : Bool) :
    Kept s0 (closeRun s id outcome noEnd) := by
  unfold closeRun
  with_reducible repeat' first
    | assumption | apply chargeRun_kept | apply traceEnd_kept | apply measureRun_kept | apply setRun_kept
    | apply modUnit_kept | apply setCore_kept | apply Kept.ite | split | dsimp only

theorem sendComplete_kept {s0 : State} {s : State} (h : Kept s0 s) (id : Nat) (x : Run) :
    Kept s0 (sendComplete s id x) := by
  unfold sendComplete
  with_reducible repeat' first
    | assumption | apply setField_kept | apply fullLoss_kept | apply Kept.ite

theorem dropOrder_kept {s0 : State} {s : State} (h : Kept s0 s) (id : Nat) (x : Run) :
    Kept s0 (dropOrder s id x) := by
  unfold dropOrder
  with_reducible repeat' first
    | assumption | apply deliverDown_kept | apply setField_kept

theorem endRun_kept {s0 : State} {s : State} (h : Kept s0 s) (id : Nat) (code : Nat) :
    Kept s0 (endRun s id code) := by
  unfold endRun
  with_reducible repeat' first
    | assumption | apply dropOrder_kept | apply closeRun_kept | apply sendComplete_kept | apply traceKilled_kept
    | apply finishKill_kept | apply record_kept | apply setRegBit_kept | apply failCore_kept
    | apply markKilled_kept | apply startNext_kept | apply Kept.ite | split

theorem engineWrite_kept {s0 : State} (x : Run) {s : State} (h : Kept s0 s) (cell : Nat × BitVec 8) :
    Kept s0 (engineWrite x s cell) := by
  unfold engineWrite
  with_reducible repeat' first
    | assumption | apply Kept.ite | split | dsimp only | refine Kept.updMem ?_ (hm := fun a _ => wf_mwrite a ..)

theorem execEndValid_kept {s0 : State} (core : Fin 4096) (engine : Fin 8) (slot : Fin 4) (code : Fin 16)
    (mem : List (Nat × BitVec 8)) (lost : Bool) {s : State} (h : Kept s0 s) :
    KOut s0 (execEndValid core engine slot code mem s lost) := by
  unfold execEndValid
  with_reducible repeat' first
    | assumption | refine KOut.next ?_ | refine KOut.ite ?_ ?_ | apply loseCharge_kept | apply settle_kept
    | apply endRun_kept | apply engineWrite_kept | apply Kept.ite | refine Kept.foldl _ ?_ (fun _ _ _ => ?_)
    | split

theorem rexDrained_kept {s0 : State} {s : State} (h : Kept s0 s) (u : Nat) : Kept s0 (rexDrained s u) := by
  unfold rexDrained
  with_reducible repeat' first
    | assumption | apply passBars_kept | apply endRun_kept | apply Kept.ite | split | dsimp only

theorem execRexEnd_kept {s0 : State} (u : Fin 128) (exe : Bool) {s : State} (h : Kept s0 s) :
    KOut s0 (execRexEnd u exe s) := by
  unfold execRexEnd
  with_reducible repeat' first
    | assumption | refine KOut.next ?_ | refine KOut.ite ?_ ?_ | apply settle_kept | apply endRun_kept
    | apply issueAt_kept | apply progFault_kept | apply modUnit_kept | apply rexDrained_kept
    | refine KI.get (issueAt_kept (h := ?_) ..) (by assumption) | apply Kept.ite | split | dsimp only

theorem execEffValid_kept {s0 : State} (core : Fin 4096) (slot : Fin 4) (data : BitVec 128) {s : State}
    (h : Kept s0 s) :
    KOut s0 (execEffValid core slot data s) := by
  unfold execEffValid
  with_reducible repeat' first
    | assumption | refine KOut.next ?_ | refine KOut.ite ?_ ?_ | apply settle_kept | apply sendEffect_kept
    | apply Kept.ite | split

theorem execKillOrder_kept {s0 : State} (f : Fin 8) {s : State} (h : Kept s0 s) : KOut s0 (execKillOrder f s) := by
  unfold execKillOrder
  with_reducible repeat' first
    | assumption | refine KOut.next ?_ | refine KOut.ite ?_ ?_ | apply deliverDown_kept | apply setField_kept
    | apply countLimit_kept | apply modRun_kept | apply settle_kept | apply modUnit_kept | apply finishKill_kept
    | apply traceKilled_kept | apply startNext_kept | apply Kept.ite | split | dsimp only

theorem execKillTimeout_kept {s0 : State} {s : State} (h : Kept s0 s) : KOut s0 (execKillTimeout s) := by
  unfold execKillTimeout
  with_reducible repeat' first
    | assumption | refine KOut.next ?_ | refine KOut.ite ?_ ?_ | apply advanceTo_kept | apply closeRun_kept
    | apply setRegBit_kept | apply record_kept | apply failRex_kept | apply failCore_kept | apply settle_kept
    | apply finishKill_kept | apply Kept.ite | split

theorem execWakeBeat_kept {s0 : State} (f : Fin 8) {s : State} (h : Kept s0 s) : KOut s0 (execWakeBeat f s) := by
  unfold execWakeBeat
  with_reducible repeat' first
    | assumption | refine KOut.next ?_ | refine KOut.ite ?_ ?_ | apply deliverDown_kept | apply setField_kept
    | apply sendBeat_kept | apply Kept.ite | split | dsimp only

theorem execGateIdleExpiry_kept {s0 : State} (core : Fin 4096) {s : State} (h : Kept s0 s) :
    KOut s0 (execGateIdleExpiry core s) := by
  unfold execGateIdleExpiry
  with_reducible repeat' first
    | assumption | refine KOut.next ?_ | refine KOut.ite ?_ ?_ | apply advanceTo_kept | apply setCore_kept

theorem execGateAckRise_kept {s0 : State} (core : Fin 4096) {s : State} (h : Kept s0 s) :
    KOut s0 (execGateAckRise core s) := by
  unfold execGateAckRise
  with_reducible repeat' first
    | assumption | refine KOut.next ?_ | refine KOut.ite ?_ ?_ | apply setCore_kept | apply Kept.ite

theorem execGateAckFall_kept {s0 : State} (core : Fin 4096) {s : State} (h : Kept s0 s) :
    KOut s0 (execGateAckFall core s) := by
  unfold execGateAckFall
  with_reducible repeat' first
    | assumption | refine KOut.next ?_ | refine KOut.ite ?_ ?_ | apply setCore_kept | apply settle_kept
    | apply beginRun_kept | apply Kept.ite | refine Kept.foldl _ ?_ (fun _ _ _ => ?_)

theorem registerSync_kept {s0 : State} {s : State} (h : Kept s0 s) (r n : Nat) (x : Run) (e : Eff) :
    Kept s0 (registerSync s r n x e) := by
  unfold registerSync
  with_reducible repeat' first
    | assumption | apply registerEff_kept | apply modRun_kept | apply pushMat_kept | apply Kept.ite | split
    | dsimp only | refine Kept.upd ?_ rfl

theorem execEffectRecord_kept {s0 : State} (f : Fin 8) (full : Bool) {s : State} (h : Kept s0 s) :
    KOut s0 (execEffectRecord f s full) := by
  unfold execEffectRecord
  with_reducible repeat' first
    | assumption | refine KOut.next ?_ | refine KOut.ite ?_ ?_ | apply setField_kept | apply settle_kept
    | apply fullLoss_kept | apply setRun_kept | apply registerSync_kept | apply registerSend_kept
    | apply registerContrib_kept | apply registerEff_kept | apply Kept.ite | split | dsimp only

theorem execCompleteRecord_kept {s0 : State} (f : Fin 8) {s : State} (h : Kept s0 s) :
    KOut s0 (execCompleteRecord f s) := by
  unfold execCompleteRecord
  with_reducible repeat' first
    | assumption | refine KOut.next ?_ | refine KOut.ite ?_ ?_ | apply setField_kept | apply commitPoint_kept
    | apply setRun_kept | apply Kept.ite | split | dsimp only

theorem noteRun_kept {s0 : State} {s : State} (h : Kept s0 s) (x : Run) (k : Nat) : Kept s0 (noteRun s x k) := by
  unfold noteRun
  with_reducible repeat' first
    | assumption | apply noteStep_kept | apply Kept.ite

theorem commitSync_kept {s0 : State} {s : State} (h : Kept s0 s) (x : Run) (e : Eff) :
    Kept s0 (commitSync s x e) := by
  unfold commitSync
  with_reducible repeat' first
    | assumption | apply refuseEffect_kept | apply noteRun_kept | apply checkObj_kept | apply applyOp_kept
    | apply countDrop_kept | refine KP.get (checkObj_kept (h := ?_) ..) (by assumption)
    | refine KSy.get (applyOp_kept (h := ?_) ..) (by assumption) | refine KP.fst (checkObj_kept (h := ?_) ..)
    | apply Kept.ite | split

theorem commitEffect_kept {s0 : State} (src : Pat) (x : Run) {s : State} (h : Kept s0 s) (e : Eff) :
    Kept s0 (commitEffect src x s e) := by
  unfold commitEffect
  with_reducible repeat' first
    | assumption | apply commitSync_kept | apply deliverSend_kept | apply noteRun_kept
    | apply commitContrib_kept | apply commitRelease_kept | apply slsAdvance_kept
    | refine KP.get (deliverSend_kept (h := ?_) ..) (by assumption)
    | refine KP.fst (deliverSend_kept (h := ?_) ..) | apply Kept.ite | split

theorem commitDigest_kept {s0 : State} {s : State} (h : Kept s0 s) (x : Run) : Kept s0 (commitDigest s x) := by
  unfold commitDigest
  with_reducible repeat' first
    | assumption | apply digestFault_kept | apply unitWrite_kept
    | refine KP.get (unitWrite_kept (h := ?_) ..) (by assumption) | refine KP.fst (unitWrite_kept (h := ?_) ..)
    | apply Kept.ite | split

theorem commitCounts_kept {s0 : State} {s : State} (h : Kept s0 s) (x : Run) : Kept s0 (commitCounts s x) := by
  unfold commitCounts
  with_reducible repeat' first
    | assumption | apply setRegBit_kept | apply setStep_kept | apply Kept.ite | split

theorem commitHandler_kept {s0 : State} {s : State} (h : Kept s0 s) (x : Run) : Kept s0 (commitHandler s x) := by
  unfold commitHandler
  with_reducible repeat' first
    | assumption | apply freeRecord_kept | apply setDone_kept | apply divergeCounter_kept
    | apply setCounter_kept | apply countTask_kept | apply fireEdges_kept | apply Kept.ite | split | dsimp only
    | refine Kept.upd ?_ rfl

theorem commitEnd_kept {s0 : State} {s : State} (h : Kept s0 s) (id : Nat) (x : Run) :
    Kept s0 (commitEnd s id x) := by
  unfold commitEnd
  with_reducible repeat' first
    | assumption | apply dropRun_kept | apply commitHandler_kept | apply commitTask_kept | apply Kept.ite
    | split | dsimp only | refine Kept.upd ?_ rfl

theorem commitRuns_kept {s0 : State} {s : State} (h : Kept s0 s) (ids : List Nat) : Kept s0 (commitRuns s ids) := by
  unfold commitRuns
  with_reducible repeat' first
    | assumption | apply remapRun_kept | apply commitEffect_kept | apply commitCounts_kept
    | apply commitDigest_kept | apply addCount_kept | apply commitEnd_kept | apply Kept.ite
    | refine Kept.foldl _ ?_ (fun _ _ _ => ?_)

theorem commitSignal_kept {s0 : State} {s : State} (h : Kept s0 s) (i t : Nat) : Kept s0 (commitSignal s i t) := by
  unfold commitSignal
  with_reducible repeat' first
    | assumption | apply raiseEvent_kept | apply commitTask_kept | apply addCount_kept | apply Kept.ite | split

theorem commitOne_kept {s0 : State} {s : State} (h : Kept s0 s) (q : CommitItem) : Kept s0 (commitOne s q) := by
  unfold commitOne
  with_reducible repeat' first
    | assumption | apply settle_kept | apply commitRuns_kept | apply commitSignal_kept | apply Kept.ite | split
    | dsimp only | refine Kept.upd ?_ rfl

theorem commitLoss_kept {s0 : State} {s : State} (h : Kept s0 s) (lost : Nat) (a1 : CommitItem) :
    Kept s0 (commitLoss s lost a1) := by
  unfold commitLoss
  with_reducible repeat' first
    | assumption | apply streamLoss_kept | apply Kept.ite | split

theorem execCommit_kept {s0 : State} (lost : Fin 8) {s : State} (h : Kept s0 s) : KOut s0 (execCommit s lost) := by
  unfold execCommit
  with_reducible repeat' first
    | assumption | refine KOut.next ?_ | refine KOut.ite ?_ ?_ | apply commitOne_kept | apply commitLoss_kept
    | apply Kept.ite | split

theorem finishSends_kept {s0 : State} (k : Nat) (a1 : Nat) {s : State} (h : Kept s0 s) :
    Kept s0 (finishSends k a1 s) := by
  induction a1 generalizing s with
  | zero => exact h
  | succ n ih =>
    simp only [finishSends]
    with_reducible repeat' first
      | assumption | apply ih | apply commitOne_kept | apply Kept.ite | split

theorem execChanDecant_kept {s0 : State} {s : State} (h : Kept s0 s) : KOut s0 (execChanDecant s) := by
  unfold execChanDecant
  with_reducible repeat' first
    | assumption | refine KOut.next ?_ | refine KOut.ite ?_ ?_ | apply popUnit_kept | apply badOperand_kept
    | apply completeWith_kept | apply finishSends_kept | apply decantChan_kept | apply completeOk_kept
    | apply addReg_kept | refine KOP.get (popUnit_kept (h := ?_) ..) (by assumption)
    | refine KP.get (decantChan_kept (h := ?_) ..) (by assumption)
    | refine KP.fst (decantChan_kept (h := ?_) ..) | apply Kept.ite | split | dsimp only

theorem execWatchdog_kept {s0 : State} {s : State} (h : Kept s0 s) : KOut s0 (execWatchdog s) := by
  unfold execWatchdog
  with_reducible repeat' first
    | assumption | refine KOut.next ?_ | refine KOut.ite ?_ ?_ | apply advanceTo_kept | apply countLate_kept
    | apply record_kept | apply settle_kept | apply killRun_kept | apply Kept.ite | split

end Sys2Proof.Machine
end

