-- ==== Sys2Proof/Laws/KeptCmd.lean ====
section
/-! SUPPORT. The queue of commands and the canonical memories, kept by parcels, sync commands, queues, safety and trace. -/

namespace Sys2Proof.Machine

open Sys2Proof



theorem installParcel_kept {s0 : State} {s : State} (h : Kept s0 s) (o : PsmOp) : Kept s0 (installParcel s o) := by
  unfold installParcel
  with_reducible repeat' first
    | assumption | apply Kept.ite | refine Kept.foldl _ ?_ (fun _ _ _ => ?_) | split | dsimp only
    | refine Kept.upd ?_ rfl

theorem checkLedgers_kept {s0 : State} {s : State} (h : Kept s0 s) (img : Img) : Kept s0 (checkLedgers s img) := by
  unfold checkLedgers
  with_reducible repeat' first
    | assumption | apply checkLedger_kept | apply Kept.ite | refine Kept.foldl _ ?_ (fun _ _ _ => ?_)

theorem recheckSteps_kept {s0 : State} {s : State} (h : Kept s0 s) (ctxs : List Nat) :
    Kept s0 (recheckSteps s ctxs) := by
  unfold recheckSteps
  with_reducible repeat' first
    | assumption | apply ask_kept | apply checkLedgers_kept | apply Kept.ite
    | refine Kept.foldl _ ?_ (fun _ _ _ => ?_) | split

theorem finishParcel_kept {s0 : State} {s : State} (h : Kept s0 s) (o : PsmOp) : Kept s0 (finishParcel s o) := by
  unfold finishParcel
  with_reducible repeat' first
    | assumption | apply completeOk_kept | apply recheckSteps_kept | apply installParcel_kept

theorem rackCtx_kept {s0 : State} (m : Cmd) {a : State × List Nat} (h : KP s0 a) (c : Nat) :
    KP s0 (rackCtx m a c) := by
  obtain ⟨s, ids⟩ := a
  have hs : Kept s0 s := h
  unfold rackCtx
  with_reducible repeat' first
    | assumption | refine KP.ite ?_ ?_ | apply setRegBit_kept | apply addReg_kept | apply killRun_kept
    | apply Kept.ite | refine Kept.foldl _ ?_ (fun _ _ _ => ?_) | split | dsimp only | refine KP.mk ?_
    | refine Kept.upd ?_ rfl

theorem acceptParcel_kept {s0 : State} {s : State} (h : Kept s0 s) (m : Cmd) : Kept s0 (acceptParcel s m) := by
  have h1 : KP s0 ((psTouches s m).2.foldl (rackCtx m) (acceptCritical s m, [])) :=
    KP.foldl _ (KP.mk (acceptCritical_kept h _)) fun _ _ hp => rackCtx_kept m hp _
  unfold acceptParcel
  dsimp only
  generalize (psTouches s m).2.foldl (rackCtx m) (acceptCritical s m, []) = p at h1 ⊢
  obtain ⟨t, ids⟩ := p
  have ht : Kept s0 t := h1
  with_reducible repeat' first
    | assumption | apply settle_kept | apply Kept.ite | apply finishParcel_kept | dsimp only
    | refine Kept.upd ?_ rfl

theorem parcelSet_kept {s0 : State} (mode : Nat → Bool) {s : State} (h : Kept s0 s) : KOut s0
    (parcelSet mode s) := by
  unfold parcelSet
  with_reducible repeat' first
    | assumption | refine KOut.next ?_ | refine KOut.ite ?_ ?_ | apply refuseCritical_kept
    | apply acceptParcel_kept | apply Kept.ite | split

theorem execParcelDefine_kept {s0 : State} {s : State} (h : Kept s0 s) : KOut s0 (execParcelDefine s) := by
  unfold execParcelDefine
  with_reducible repeat' first
    | assumption | refine KOut.next ?_ | refine KOut.ite ?_ ?_ | apply parcelSet_kept

theorem execParcelBind_kept {s0 : State} {s : State} (h : Kept s0 s) : KOut s0 (execParcelBind s) := by
  unfold execParcelBind
  with_reducible repeat' first
    | assumption | refine KOut.next ?_ | refine KOut.ite ?_ ?_ | apply parcelSet_kept

theorem execParcelDissolve_kept {s0 : State} {s : State} (h : Kept s0 s) : KOut s0 (execParcelDissolve s) := by
  unfold execParcelDissolve
  with_reducible repeat' first
    | assumption | refine KOut.next ?_ | refine KOut.ite ?_ ?_ | apply parcelSet_kept

theorem execParcelInstall_kept {s0 : State} {s : State} (h : Kept s0 s) : KOut s0 (execParcelInstall s) := by
  unfold execParcelInstall
  with_reducible repeat' first
    | assumption | refine KOut.next ?_ | refine KOut.ite ?_ ?_ | apply settle_kept | apply finishParcel_kept
    | apply Kept.ite | split

theorem offerShadow_kept {s0 : State} {s : State} (h : Kept s0 s) (off v : Nat) : Kept s0
    (offerShadow s off v) := by
  unfold offerShadow
  with_reducible repeat' first
    | assumption | apply setReg_kept | apply Kept.ite | split | dsimp only | refine Kept.upd ?_ rfl

theorem execShareSet_kept {s0 : State} {s : State} (h : Kept s0 s) : KOut s0 (execShareSet s) := by
  unfold execShareSet
  with_reducible repeat' first
    | assumption | refine KOut.next ?_ | refine KOut.ite ?_ ?_ | apply refuseCritical_kept
    | apply offerShadow_kept | apply acceptCritical_kept | apply completeOk_kept | apply Kept.ite | split

theorem preempt_kept {s0 : State} {s : State} (h : Kept s0 s) (c : Nat) : Kept s0 (preempt s c) := by
  unfold preempt
  with_reducible repeat' first
    | assumption | apply setRegBit_kept | apply killRun_kept | apply addReg_kept | apply Kept.ite
    | refine Kept.foldl _ ?_ (fun _ _ _ => ?_)

theorem startT1_kept {s0 : State} {s : State} (h : Kept s0 s) (m : Cmd) (kind : Nat) :
    Kept s0 (startT1 s m kind) := by
  unfold startT1
  with_reducible repeat' first
    | assumption | apply pushReady_kept | apply Kept.ite | refine Kept.foldl _ ?_ (fun _ _ _ => ?_) | split
    | dsimp only | refine Kept.upd ?_ rfl

theorem setT1_kept {s0 : State} {s : State} (h : Kept s0 s) (c v : Nat) : Kept s0 (setT1 s c v) := by
  unfold setT1
  with_reducible repeat' first
    | assumption | apply Kept.ite | split | dsimp only | refine Kept.upd ?_ rfl

theorem execCtxSave_kept {s0 : State} {s : State} (h : Kept s0 s) : KOut s0 (execCtxSave s) := by
  unfold execCtxSave
  with_reducible repeat' first
    | assumption | refine KOut.next ?_ | refine KOut.ite ?_ ?_ | apply popUnit_kept | apply completeWith_kept
    | apply settle_kept | apply startT1_kept | apply preempt_kept | apply setT1_kept
    | refine KOP.get (popUnit_kept (h := ?_) ..) (by assumption) | apply Kept.ite | split

theorem execCtxRestore_kept {s0 : State} {s : State} (h : Kept s0 s) : KOut s0 (execCtxRestore s) := by
  unfold execCtxRestore
  with_reducible repeat' first
    | assumption | refine KOut.next ?_ | refine KOut.ite ?_ ?_ | apply popUnit_kept | apply completeWith_kept
    | apply settle_kept | apply startT1_kept | apply setT1_kept
    | refine KOP.get (popUnit_kept (h := ?_) ..) (by assumption) | apply Kept.ite | split

theorem topUp_kept {s0 : State} (c : Nat) (g : Region) (a1 : List Nat) {s : State} (h : Kept s0 s) :
    Kept s0 (topUp c g a1 s) := by
  induction a1 generalizing s with
  | nil => exact h
  | cons v vs ih =>
    simp only [topUp]
    with_reducible repeat' first
      | assumption | apply ih | apply noteWait_kept | apply Kept.ite
      | refine KO.get (startFill_kept (h := ?_) ..) (by assumption) | split | refine Kept.upd ?_ rfl

theorem endSwitch_kept {s0 : State} {s : State} (h : Kept s0 s) (o : PsmOp) : Kept s0 (endSwitch s o) := by
  unfold endSwitch
  with_reducible repeat' first
    | assumption | apply Kept.ite | split | dsimp only | refine Kept.upd ?_ rfl

theorem setModel_kept {s0 : State} {s : State} (h : Kept s0 s) (c v : Nat) : Kept s0 (setModel s c v) := by
  unfold setModel
  with_reducible repeat' first
    | assumption | apply Kept.ite | split | dsimp only | refine Kept.upd ?_ rfl

theorem switchOne_kept {s0 : State} {s : State} (h : Kept s0 s) (o : PsmOp) : Kept s0 (switchOne s o) := by
  unfold switchOne
  with_reducible repeat' first
    | assumption | apply completeWith_kept | apply endSwitch_kept | apply setModel_kept | apply completeOk_kept
    | apply topUp_kept | apply Kept.ite | split | dsimp only | refine Kept.upd ?_ rfl

theorem switchOn_kept {s0 : State} {s : State} (h : Kept s0 s) : Kept s0 (switchOn s) := by
  unfold switchOn
  with_reducible repeat' first
    | assumption | apply switchOne_kept | apply Kept.ite | refine Kept.foldl _ ?_ (fun _ _ _ => ?_)

theorem execModelSwitch_kept {s0 : State} {s : State} (h : Kept s0 s) : KOut s0 (execModelSwitch s) := by
  unfold execModelSwitch
  with_reducible repeat' first
    | assumption | refine KOut.next ?_ | refine KOut.ite ?_ ?_ | apply popUnit_kept | apply completeWith_kept
    | apply completeOk_kept | apply setModel_kept | apply switchOn_kept
    | refine KOP.get (popUnit_kept (h := ?_) ..) (by assumption) | apply Kept.ite | split | dsimp only
    | refine Kept.upd ?_ rfl

theorem execStreamFillDone_kept {s0 : State} (readOk : Bool) {s : State} (h : Kept s0 s) :
    KOut s0 (execStreamFillDone readOk s) := by
  unfold execStreamFillDone
  with_reducible repeat' first
    | assumption | refine KOut.next ?_ | refine KOut.ite ?_ ?_ | apply switchOn_kept | apply fillDone_kept

theorem afterWrites_kept {s0 : State} {s : State} (h : Kept s0 s) : Kept s0 (afterWrites s) := by
  unfold afterWrites
  with_reducible repeat' first
    | assumption | apply launchesOn_kept | apply writeAllDones_kept

theorem execUnitWrite_kept {s0 : State} {s : State} (h : Kept s0 s) : KOut s0 (execUnitWrite s) := by
  unfold execUnitWrite
  with_reducible repeat' first
    | assumption | refine KOut.next ?_ | refine KOut.ite ?_ ?_ | apply tryWait_kept | apply afterWrites_kept
    | refine KO.get (tryWait_kept (h := ?_) ..) (by assumption)
    | refine KO.get (KO.findSome _ fun _ => tryWait_kept (h := ?_) ..) (by assumption) | apply Kept.ite | split

theorem execFrameWaitGrant_kept {s0 : State} {s : State} (h : Kept s0 s) : KOut s0 (execFrameWaitGrant s) := by
  unfold execFrameWaitGrant
  with_reducible repeat' first
    | assumption | refine KOut.next ?_ | refine KOut.ite ?_ ?_ | apply switchOn_kept | apply afterWrites_kept
    | apply frameGrant_kept

theorem execSyncSignal_kept {s0 : State} {s : State} (h : Kept s0 s) : KOut s0 (execSyncSignal s) := by
  unfold execSyncSignal
  with_reducible repeat' first
    | assumption | refine KOut.next ?_ | refine KOut.ite ?_ ?_ | apply settle_kept | apply hostSync_kept

theorem execSyncSignalTo_kept {s0 : State} {s : State} (h : Kept s0 s) : KOut s0 (execSyncSignalTo s) := by
  unfold execSyncSignalTo
  with_reducible repeat' first
    | assumption | refine KOut.next ?_ | refine KOut.ite ?_ ?_ | apply settle_kept | apply hostSync_kept

theorem execSyncWait_kept {s0 : State} {s : State} (h : Kept s0 s) : KOut s0 (execSyncWait s) := by
  unfold execSyncWait
  with_reducible repeat' first
    | assumption | refine KOut.next ?_ | refine KOut.ite ?_ ?_ | apply settle_kept | apply hostSync_kept

theorem execSyncDecrement_kept {s0 : State} {s : State} (h : Kept s0 s) : KOut s0 (execSyncDecrement s) := by
  unfold execSyncDecrement
  with_reducible repeat' first
    | assumption | refine KOut.next ?_ | refine KOut.ite ?_ ?_ | apply settle_kept | apply hostSync_kept

theorem refuseWait_kept {s0 : State} {s : State} (h : Kept s0 s) (r n reason : Nat) :
    Kept s0 (refuseWait s r n reason) := by
  unfold refuseWait
  with_reducible repeat' first
    | assumption | apply refuseEffect_kept | apply registerEff_kept | apply newWaiter_kept
    | apply queueGrant_kept | apply grantDown_kept | refine PK.get (newWaiter_kept (h := ?_) ..) (by assumption)
    | refine PK.snd (newWaiter_kept (h := ?_) ..) | apply Kept.ite | split

theorem waitOn_kept {s0 : State} {s : State} (h : Kept s0 s) (r n k : Nat) : Kept s0 (waitOn s r n k) := by
  unfold waitOn
  with_reducible repeat' first
    | assumption | apply checkObj_kept | apply refuseWait_kept | apply registerEff_kept | apply applyWait_kept
    | apply newWaiter_kept | apply modObj_kept | refine KP.get (checkObj_kept (h := ?_) ..) (by assumption)
    | refine PK.get (newWaiter_kept (h := ?_) ..) (by assumption) | refine KP.fst (checkObj_kept (h := ?_) ..)
    | refine PK.snd (newWaiter_kept (h := ?_) ..) | apply Kept.ite | split | dsimp only

theorem execSyncWaitEffect_kept {s0 : State} {s : State} (h : Kept s0 s) : KOut s0 (execSyncWaitEffect s) := by
  unfold execSyncWaitEffect
  with_reducible repeat' first
    | assumption | refine KOut.next ?_ | refine KOut.ite ?_ ?_ | apply settle_kept | apply refuseWait_kept
    | apply waitOn_kept | apply modRun_kept | apply pushMat_kept | apply Kept.ite | split | dsimp only
    | refine Kept.upd ?_ rfl

theorem applyMat_kept {s0 : State} {s : State} (h : Kept s0 s) (q : MatReq) (k : Nat) : Kept s0
    (applyMat s q k) := by
  unfold applyMat
  with_reducible repeat' first
    | assumption | apply applyHost_kept | apply waitOn_kept | apply registerEff_kept | apply Kept.ite | split

theorem refuseMat_kept {s0 : State} {s : State} (h : Kept s0 s) (q : MatReq) (reason : Nat) :
    Kept s0 (refuseMat s q reason) := by
  unfold refuseMat
  with_reducible repeat' first
    | assumption | apply refuseHost_kept | apply refuseWait_kept | apply registerEff_kept | apply modEff_kept
    | apply failLaunch_kept | apply Kept.ite | split

theorem capacityMat_kept {s0 : State} {s : State} (h : Kept s0 s) (q : MatReq) : Kept s0 (capacityMat s q) := by
  unfold capacityMat
  with_reducible repeat' first
    | assumption | apply completeWith_kept | apply failLaunch_kept | apply Kept.ite | split

theorem tryMat_kept {s0 : State} (readOk : Bool) {s : State} (h : Kept s0 s) (q : MatReq) :
    KMt s0 (tryMat readOk s q) := by
  unfold tryMat
  with_reducible repeat' first
    | assumption | refine KMt.made ?_ | refine KMt.refused | refine KMt.capacity | refine KMt.ite ?_ ?_
    | apply materialise_kept | refine KMt.get (materialise_kept (h := ?_) ..) (by assumption) | apply Kept.ite
    | split

theorem matGo_kept {s0 : State} (readOk : Bool) (a1 : List MatReq) (a2 : List Nat) (a3 : Bool) {s : State}
    (h : Kept s0 s) :
    Kept s0 (matGo readOk a1 a2 a3 s) := by
  induction a1 generalizing s a2 a3 with
  | nil => exact h
  | cons q rest ih =>
    simp only [matGo]
    with_reducible repeat' first
      | assumption | apply ih | apply applyMat_kept | apply refuseMat_kept | apply capacityMat_kept
      | apply noteCapacity_kept | refine KMt.get (tryMat_kept (h := ?_) ..) (by assumption) | apply Kept.ite
      | split | refine Kept.upd ?_ rfl

theorem execObjectMaterialise_kept {s0 : State} (readOk : Bool) {s : State} (h : Kept s0 s) :
    KOut s0 (execObjectMaterialise readOk s) := by
  unfold execObjectMaterialise
  with_reducible repeat' first
    | assumption | refine KOut.next ?_ | refine KOut.ite ?_ ?_ | apply settle_kept | apply matGo_kept

theorem execGrantAck_kept {s0 : State} {s : State} (h : Kept s0 s) : KOut s0 (execGrantAck s) := by
  unfold execGrantAck
  with_reducible repeat' first
    | assumption | refine KOut.next ?_ | refine KOut.ite ?_ ?_ | apply dropWaiter_kept | apply Kept.ite | split
    | dsimp only | refine Kept.upd ?_ rfl

theorem keepEarly_kept {s0 : State} {s : State} (h : Kept s0 s) (xb chip : Nat) (sense : Bool) :
    Kept s0 (keepEarly s xb chip sense) := by
  unfold keepEarly
  with_reducible repeat' first
    | assumption | apply setRegFld_kept | apply record_kept | apply setRegBit_kept | apply Kept.ite | split
    | dsimp only | refine Kept.upd ?_ rfl

theorem onLiveObj_kept {s0 : State} {s : State} (h : Kept s0 s) (k : Nat) (f : State → State)
    (hf : ∀ t, Kept s0 t → Kept s0 (f t)) : Kept s0 (onLiveObj s k f) := by
  unfold onLiveObj
  with_reducible repeat' first
    | assumption | apply hf | apply countDrop_kept | apply Kept.ite
    | refine KP.get (checkObj_kept (h := ?_) ..) (by assumption) | refine KP.fst (checkObj_kept (h := ?_) ..)
    | split

theorem execChipArrive_kept {s0 : State} (p : Fin 16) (chip : Fin 4096) (xb : Fin 4096) (sense : Bool)
    {s : State} (h : Kept s0 s) :
    KOut s0 (execChipArrive p chip xb sense s) := by
  unfold execChipArrive
  with_reducible repeat' first
    | assumption | refine KOut.next ?_ | refine KOut.ite ?_ ?_ | apply countRx_kept | apply keepEarly_kept
    | apply settle_kept | refine onLiveObj_kept ?_ _ _ (fun _ _ => ?_) | apply takeArrival_kept
    | apply misuseArrival_kept | apply Kept.ite | split | dsimp only

theorem releaseXb_kept {s0 : State} {s : State} (h : Kept s0 s) (r : XbRelease) (late : Bool) :
    Kept s0 (releaseXb s r late) := by
  unfold releaseXb
  with_reducible repeat' first
    | assumption | refine onLiveObj_kept ?_ _ _ (fun _ _ => ?_) | apply setRegBit_kept | apply countLate_kept
    | apply completePhaseAt_kept | apply Kept.ite | split | dsimp only | refine Kept.upd ?_ rfl

theorem execXbRelease_kept {s0 : State} (p : Fin 16) (_chip : Fin 4096) (xb : Fin 4096) (sense : Bool)
    (t : BitVec 64) {s : State} (h : Kept s0 s) :
    KOut s0 (execXbRelease p _chip xb sense t s) := by
  have h1 := countRx_kept h p 1
  unfold execXbRelease
  generalize countRx s p 1 = q at h1
  dsimp only
  split
  · exact KOut.next h1
  · refine KOut.next (settle_kept (onLiveObj_kept h1 _ _ fun t ht => ?_))
    exact Kept.ite ht (Kept.ite (releaseXb_kept ht _ _) (Kept.upd ht rfl))

theorem execBarrierReleaseInstant_kept {s0 : State} {s : State} (h : Kept s0 s) :
    KOut s0 (execBarrierReleaseInstant s) := by
  unfold execBarrierReleaseInstant
  with_reducible repeat' first
    | assumption | refine KOut.next ?_ | refine KOut.ite ?_ ?_ | apply advanceTo_kept | apply settle_kept
    | apply releaseXb_kept | apply Kept.ite | refine Kept.foldl _ ?_ (fun _ _ _ => ?_) | split | dsimp only
    | refine Kept.upd ?_ rfl

theorem unfreeze_kept {s0 : State} {s : State} (h : Kept s0 s) (k : Nat) : Kept s0 (unfreeze s k) := by
  unfold unfreeze
  with_reducible repeat' first
    | assumption | apply Kept.ite | split | dsimp only | refine Kept.upd ?_ rfl

theorem forceObj_kept {s0 : State} {s : State} (h : Kept s0 s) (m : Cmd) (k : Nat) (old : SynObj) :
    Kept s0 (forceObj s m k old) := by
  unfold forceObj
  with_reducible repeat' first
    | assumption | apply unfreeze_kept | apply modObj_kept | apply checkObj_kept | apply grantCounter_kept
    | apply grantWaiter_kept | apply setObj_kept | refine KP.get (checkObj_kept (h := ?_) ..) (by assumption)
    | refine KP.fst (checkObj_kept (h := ?_) ..) | apply Kept.ite | refine Kept.foldl _ ?_ (fun _ _ _ => ?_)
    | split | dsimp only

theorem execSyncForce_kept {s0 : State} {s : State} (h : Kept s0 s) : KOut s0 (execSyncForce s) := by
  unfold execSyncForce
  with_reducible repeat' first
    | assumption | refine KOut.next ?_ | refine KOut.ite ?_ ?_ | apply refuseCritical_kept
    | apply countRefusal_kept | apply forceObj_kept | apply acceptCritical_kept | apply traceDebug_kept
    | apply settle_kept | apply completeOk_kept | apply Kept.ite | split

theorem execSyncDump_kept {s0 : State} {s : State} (h : Kept s0 s) : KOut s0 (execSyncDump s) := by
  unfold execSyncDump
  with_reducible repeat' first
    | assumption | refine KOut.next ?_ | refine KOut.ite ?_ ?_ | apply popUnit_kept | apply badOperand_kept
    | refine KOP.get (popUnit_kept (h := ?_) ..) (by assumption) | apply Kept.ite | split | dsimp only
    | refine Kept.upd ?_ rfl

theorem execSyncDumpDone_kept {s0 : State} {s : State} (h : Kept s0 s) : KOut s0 (execSyncDumpDone s) := by
  unfold execSyncDumpDone
  with_reducible repeat' first
    | assumption | refine KOut.next ?_ | refine KOut.ite ?_ ?_ | apply unitWritePlain_kept
    | apply hostWrite_kept | apply completeOk_kept | apply Kept.ite | split | dsimp only
    | refine Kept.upd ?_ rfl

theorem synRelease_kept {s0 : State} {s : State} (h : Kept s0 s) (c : Nat) : Kept s0 (synRelease s c) := by
  unfold synRelease
  with_reducible repeat' first
    | assumption | apply Kept.ite | split | dsimp only | refine Kept.upd ?_ rfl

theorem writeSynCfg_kept {s0 : State} {s : State} (h : Kept s0 s) (c w : Nat) : Kept s0 (writeSynCfg s c w) := by
  unfold writeSynCfg
  with_reducible repeat' first
    | assumption | apply setRegBit_kept | apply setRegFld_kept | apply synRelease_kept | apply Kept.ite

theorem execSynRelease_kept {s0 : State} (c : Fin 64) (w : Word) {s : State} (h : Kept s0 s) :
    KOut s0 (execSynRelease c w s) := by
  unfold execSynRelease
  with_reducible repeat' first
    | assumption | refine KOut.next ?_ | refine KOut.ite ?_ ?_ | apply writeSynCfg_kept

theorem execSynDiagSelWrite_kept {s0 : State} (w : Word) {s : State} (h : Kept s0 s) :
    KOut s0 (execSynDiagSelWrite w s) := by
  unfold execSynDiagSelWrite
  with_reducible repeat' first
    | assumption | refine KOut.next ?_ | refine KOut.ite ?_ ?_ | apply setReg_kept | apply Kept.ite | split
    | dsimp only | refine Kept.upd ?_ rfl

theorem execSynDiagDataRead_kept {s0 : State} {s : State} (h : Kept s0 s) : KOut s0 (execSynDiagDataRead s) := by
  unfold execSynDiagDataRead
  with_reducible repeat' first
    | assumption | refine KOut.next ?_ | refine KOut.ite ?_ ?_ | apply Kept.ite | split | dsimp only
    | refine Kept.upd ?_ rfl

theorem forgetFlush_kept {s0 : State} {s : State} (h : Kept s0 s) (k : Nat) : Kept s0 (forgetFlush s k) := by
  unfold forgetFlush
  with_reducible repeat' first
    | assumption | apply Kept.ite | split | dsimp only | refine Kept.upd ?_ rfl

theorem emptyQueue_kept {s0 : State} {s : State} (h : Kept s0 s) (q : QId) : Kept s0 (emptyQueue s q) := by
  unfold emptyQueue
  with_reducible repeat' first
    | assumption | apply setField_kept | apply flitGone_kept | apply setPort_kept | apply modUnit_kept
    | apply forgetFlush_kept | apply Kept.ite | refine Kept.foldl _ ?_ (fun _ _ _ => ?_) | split | dsimp only
    | refine Kept.upd ?_ rfl

theorem afterEmpty_kept {s0 : State} {s : State} (h : Kept s0 s) (q : QId) : Kept s0 (afterEmpty s q) := by
  unfold afterEmpty
  with_reducible repeat' first
    | assumption | apply settle_kept | apply rexDrained_kept | apply modUnit_kept | apply Kept.ite | split

theorem endEmptied_kept {s0 : State} {s : State} (h : Kept s0 s) : Kept s0 (endEmptied s) := by
  unfold endEmptied
  with_reducible repeat' first
    | assumption | apply endFlushes_kept

theorem writeQctl_kept {s0 : State} {s : State} (h : Kept s0 s) (off w : Nat) (locked : Bool) :
    Kept s0 (writeQctl s off w locked) := by
  unfold writeQctl
  with_reducible repeat' first
    | assumption | apply setRegFld_kept | apply endEmptied_kept | apply afterEmpty_kept | apply emptyQueue_kept
    | apply queueAbandon_kept | apply Kept.ite | split

theorem execDecant_kept {s0 : State} (off : Nat) (w : Word) {s : State} (h : Kept s0 s) :
    KOut s0 (execDecant off w s) := by
  unfold execDecant
  with_reducible repeat' first
    | assumption | refine KOut.next ?_ | refine KOut.ite ?_ ?_ | apply writeQctl_kept

theorem refetchLost_kept {s0 : State} {s : State} (h : Kept s0 s) (lost : List Cmd) :
    Kept s0 (refetchLost s lost) := by
  unfold refetchLost
  with_reducible repeat' first
    | assumption | apply loseFrom_kept | apply Kept.ite | refine Kept.foldl _ ?_ (fun _ _ _ => ?_) | split

theorem flagIf_kept {s0 : State} {s : State} (h : Kept s0 s) (b : Bool) (off i : Nat) :
    Kept s0 (flagIf s b off i) := by
  unfold flagIf
  with_reducible repeat' first
    | assumption | apply setRegBit_kept | apply Kept.ite

theorem afterLoss_kept {s0 : State} (old : State) {s : State} (h : Kept s0 s) (q : QId) :
    Kept s0 (afterLoss old s q) := by
  unfold afterLoss
  with_reducible repeat' first
    | assumption | apply refetchLost_kept | apply flagIf_kept | apply decLoss_kept | apply setRegBit_kept
    | apply lossKills_kept | apply setPort_kept | apply record_kept | apply addReg_kept | apply accLoss_kept
    | apply dueCel_kept | apply dueField_kept | apply dueSrc_kept | apply Kept.ite | split | dsimp only
    | refine Kept.upd ?_ rfl

theorem ptrRecord_kept {s0 : State} {s : State} (h : Kept s0 s) (q : QId) (detail : Nat) :
    Kept s0 (ptrRecord s q detail) := by
  unfold ptrRecord
  with_reducible repeat' first
    | assumption | apply record_kept

theorem ptrMismatch_kept {s0 : State} {s : State} (h : Kept s0 s) (off : Nat) (q : QId) :
    Kept s0 (ptrMismatch s off q) := by
  unfold ptrMismatch
  with_reducible repeat' first
    | assumption | apply setRegBit_kept | apply emptyQueue_kept | apply queueAbandon_kept | apply afterLoss_kept
    | apply ptrRecord_kept | apply Kept.ite

theorem hiddenMismatch_kept {s0 : State} {s : State} (h : Kept s0 s) (q : QId) : Kept s0 (hiddenMismatch s q) := by
  unfold hiddenMismatch
  with_reducible repeat' first
    | assumption | apply draw_kept | apply emptyQueue_kept | apply afterLoss_kept | apply ptrRecord_kept
    | refine PK.get (draw_kept (h := ?_) ..) (by assumption) | refine PK.snd (draw_kept (h := ?_) ..)

theorem execQueuePtrMismatch_kept {s0 : State} (off : Nat) {s : State} (h : Kept s0 s) :
    KOut s0 (execQueuePtrMismatch off s) := by
  unfold execQueuePtrMismatch
  with_reducible repeat' first
    | assumption | refine KOut.next ?_ | refine KOut.ite ?_ ?_ | apply endEmptied_kept | apply settle_kept
    | apply ptrMismatch_kept | apply hiddenMismatch_kept | apply Kept.ite | split

theorem stopRun_kept {s0 : State} {s : State} (h : Kept s0 s) (id : Nat) : Kept s0 (stopRun s id) := by
  unfold stopRun
  with_reducible repeat' first
    | assumption | apply blqKill_kept | apply chnKill_kept | apply modRun_kept | apply modUnit_kept
    | apply Kept.ite | split | dsimp only | refine Kept.upd ?_ rfl

theorem stopCores_kept {s0 : State} {s : State} (h : Kept s0 s) : Kept s0 (stopCores s) := by
  unfold stopCores
  with_reducible repeat' first
    | assumption | apply Kept.ite | split | dsimp only | refine Kept.upd ?_ rfl

theorem haltMgc_kept {s0 : State} {s : State} (h : Kept s0 s) : Kept s0 (haltMgc s) := by
  unfold haltMgc
  with_reducible repeat' first
    | assumption | apply setRegFld_kept | apply stopCores_kept | apply Kept.ite | split | dsimp only
    | refine Kept.upd ?_ rfl

theorem completeHeld_kept {s0 : State} {s : State} (h : Kept s0 s) : Kept s0 (completeHeld s) := by
  unfold completeHeld
  with_reducible repeat' first
    | assumption | apply headPass_kept | apply completeWith_kept | apply Kept.ite
    | refine Kept.foldl _ ?_ (fun _ _ _ => ?_) | split

theorem dropHeld_kept {s0 : State} {s : State} (h : Kept s0 s) : Kept s0 (dropHeld s) := by
  unfold dropHeld
  with_reducible repeat' first
    | assumption | apply modObj_kept | apply dropWaiter_kept | apply Kept.ite
    | refine Kept.foldl _ ?_ (fun _ _ _ => ?_) | split | dsimp only | refine Kept.upd ?_ rfl

theorem enterSafe_kept {s0 : State} {s : State} (h : Kept s0 s) : Kept s0 (enterSafe s) := by
  unfold enterSafe
  with_reducible repeat' first
    | assumption | apply setRegBit_kept | apply stopRun_kept | apply Kept.ite
    | refine Kept.foldl _ ?_ (fun _ _ _ => ?_) | split | dsimp only | refine Kept.upd ?_ rfl

theorem notifyRec_kept {s0 : State} {s : State} (h : Kept s0 s) (r : Rec) : Kept s0 (notifyRec s r) := by
  unfold notifyRec
  with_reducible repeat' first
    | assumption | apply raiseEvent_kept | apply Kept.ite | refine Kept.foldl _ ?_ (fun _ _ _ => ?_)

theorem acceptRec_kept {s0 : State} {s : State} (h : Kept s0 s) (e : Rec) : Kept s0 (acceptRec s e) := by
  unfold acceptRec
  with_reducible repeat' first
    | assumption | apply setReg_kept | apply setRegBit_kept | apply enterSafe_kept | apply completeHeld_kept
    | apply notifyRec_kept | apply haltMgc_kept | apply dropHeld_kept | apply Kept.ite
    | refine Kept.foldl _ ?_ (fun _ _ _ => ?_) | split | dsimp only | refine Kept.upd ?_ rfl

theorem acceptOldest_kept {s0 : State} {s : State} (h : Kept s0 s) : Kept s0 (acceptOldest s) := by
  unfold acceptOldest
  with_reducible repeat' first
    | assumption | apply acceptRec_kept | apply Kept.ite | split | dsimp only | refine Kept.upd ?_ rfl

theorem execErrorRecord_kept {s0 : State} {s : State} (h : Kept s0 s) : KOut s0 (execErrorRecord s) := by
  unfold execErrorRecord
  with_reducible repeat' first
    | assumption | refine KOut.next ?_ | refine KOut.ite ?_ ?_ | apply settle_kept | apply acceptOldest_kept

theorem execSafRecSelWrite_kept {s0 : State} (w : Word) {s : State} (h : Kept s0 s) :
    KOut s0 (execSafRecSelWrite w s) := by
  unfold execSafRecSelWrite
  with_reducible repeat' first
    | assumption | refine KOut.next ?_ | refine KOut.ite ?_ ?_ | apply setReg_kept | apply Kept.ite | split
    | dsimp only | refine Kept.upd ?_ rfl

theorem execSafRecDataRead_kept {s0 : State} {s : State} (h : Kept s0 s) : KOut s0 (execSafRecDataRead s) := by
  unfold execSafRecDataRead
  with_reducible repeat' first
    | assumption | refine KOut.next ?_ | refine KOut.ite ?_ ?_ | apply Kept.ite | split | dsimp only
    | refine Kept.upd ?_ rfl

theorem execComparatorTest_kept {s0 : State} (path : Fin 32) (ok diff : Bool) {s : State} (h : Kept s0 s) :
    KOut s0 (execComparatorTest path ok diff s) := by
  unfold execComparatorTest
  with_reducible repeat' first
    | assumption | refine KOut.next ?_ | refine KOut.ite ?_ ?_ | apply record_kept | apply Kept.ite

theorem eccRec_kept {s0 : State} {s : State} (h : Kept s0 s) (sev code k index : Nat) (ctx : Option Nat) :
    Kept s0 (eccRec s sev code k index ctx) := by
  unfold eccRec
  with_reducible repeat' first
    | assumption | apply record_kept

theorem corruptB_kept {s0 : State} {s : State} (h : Kept s0 s) (k index v : Nat) :
    Kept s0 (corruptB s k index v) := by
  unfold corruptB
  with_reducible repeat' first
    | assumption | apply Kept.ite | split | dsimp only | refine Kept.upd ?_ rfl

theorem repairCopy_kept {s0 : State} {s : State} (h : Kept s0 s) (k index : Nat) (fromA : Bool) :
    Kept s0 (repairCopy s k index fromA) := by
  unfold repairCopy
  with_reducible repeat' first
    | assumption | apply Kept.ite | split | dsimp only | refine Kept.upd ?_ rfl

theorem zeroCounter_kept {s0 : State} {s : State} (h : Kept s0 s) (t : Nat) : Kept s0 (zeroCounter s t) := by
  unfold zeroCounter
  with_reducible repeat' first
    | assumption | apply divSeen_kept | apply setCounter_kept | apply record_kept | apply Kept.ite | split

theorem zeroFree_kept {s0 : State} {s : State} (h : Kept s0 s) (k : Nat) : Kept s0 (zeroFree s k) := by
  unfold zeroFree
  with_reducible repeat' first
    | assumption | apply record_kept | apply Kept.ite | split | dsimp only | refine Kept.upd ?_ rfl

theorem compareCopies_kept {s0 : State} {s : State} (h : Kept s0 s) (k index : Nat) :
    Kept s0 (compareCopies s k index) := by
  unfold compareCopies
  with_reducible repeat' first
    | assumption | apply divergeCounter_kept | apply zeroCounter_kept | apply zeroFree_kept
    | apply checkObj_kept | apply checkLedger_kept | apply record_kept
    | refine KP.get (checkObj_kept (h := ?_) ..) (by assumption) | refine KP.fst (checkObj_kept (h := ?_) ..)
    | apply Kept.ite | split

theorem linkWordError_kept {s0 : State} {s : State} (h : Kept s0 s) (index : Nat) :
    Kept s0 (linkWordError s index) := by
  unfold linkWordError
  with_reducible repeat' first
    | assumption | apply hiddenMismatch_kept | apply ptrMismatch_kept | apply Kept.ite

theorem engineFault_kept {s0 : State} {s : State} (h : Kept s0 s) (r : Option Nat) : Kept s0 (engineFault s r) := by
  unfold engineFault
  with_reducible repeat' first
    | assumption | apply ask_kept | apply killRun_kept | apply Kept.ite | split

theorem loseWord_kept {s0 : State} {s : State} (h : Kept s0 s) (k index : Nat) : Kept s0 (loseWord s k index) := by
  unfold loseWord
  with_reducible repeat' first
    | assumption | apply ask_kept | apply record_kept | apply setRegBit_kept | apply modSrv_kept
    | apply draw_kept | apply raiseEvent_kept | apply setSlot_kept | apply haltMgc_kept | apply failCore_kept
    | apply engineFault_kept | apply failRex_kept | apply flushTake_kept | apply addReg_kept
    | apply linkWordError_kept | refine PK.get (draw_kept (h := ?_) ..) (by assumption)
    | refine PK.snd (draw_kept (h := ?_) ..) | apply Kept.ite | split | dsimp only | refine Kept.upd ?_ rfl

theorem execScrub_kept {s0 : State} (storage : Fin 23) (index : Nat) (finding : Fin 6) (found : Option Nat)
    {s : State} (h : Kept s0 s) :
    KOut s0 (execScrub storage index finding found s) := by
  unfold execScrub
  with_reducible repeat' first
    | assumption | refine KOut.next ?_ | refine KOut.ite ?_ ?_ | apply corruptB_kept | apply settle_kept
    | apply compareCopies_kept | apply setRegBit_kept | apply addReg_kept | apply eccRec_kept
    | apply repairCopy_kept | apply loseWord_kept | apply Kept.ite | split

theorem clearForRebuild_kept {s0 : State} {s : State} (h : Kept s0 s) (c : Nat) : Kept s0
    (clearForRebuild s c) := by
  unfold clearForRebuild
  with_reducible repeat' first
    | assumption | apply unassign_kept | apply Kept.ite | refine Kept.foldl _ ?_ (fun _ _ _ => ?_) | split
    | dsimp only | refine Kept.upd ?_ rfl

theorem rebuildTask_kept {s0 : State} (c : Nat) (dones : Table Nat) {s : State} (h : Kept s0 s) (t : Nat) :
    Kept s0 (rebuildTask c dones s t) := by
  unfold rebuildTask
  with_reducible repeat' first
    | assumption | apply checkLedger_kept | apply record_kept | apply setCounter_kept | apply Kept.ite

theorem execRecoveryRebuild_kept {s0 : State} {s : State} (h : Kept s0 s) : KOut s0 (execRecoveryRebuild s) := by
  unfold execRecoveryRebuild
  with_reducible repeat' first
    | assumption | refine KOut.next ?_ | refine KOut.ite ?_ ?_ | apply clearForRebuild_kept
    | apply rebuildTask_kept | apply settle_kept | apply Kept.ite | refine Kept.foldl _ ?_ (fun _ _ _ => ?_)
    | split | dsimp only | refine Kept.upd ?_ rfl

theorem reenterTask_kept {s0 : State} (i c : Nat) {s : State} (h : Kept s0 s) (t : Nat) :
    Kept s0 (reenterTask i c s t) := by
  unfold reenterTask
  with_reducible repeat' first
    | assumption | apply checkLedger_kept | apply backReady_kept | apply pushReady_kept | apply Kept.ite | split
    | dsimp only | refine Kept.upd ?_ rfl

theorem execRecoveryReentry_kept {s0 : State} {s : State} (h : Kept s0 s) : KOut s0 (execRecoveryReentry s) := by
  unfold execRecoveryReentry
  with_reducible repeat' first
    | assumption | refine KOut.next ?_ | refine KOut.ite ?_ ?_ | apply reenterTask_kept | apply setRegFld_kept
    | apply settle_kept | apply Kept.ite | refine Kept.foldl _ ?_ (fun _ _ _ => ?_) | split | dsimp only
    | refine Kept.upd ?_ rfl

theorem dropLines_kept {s0 : State} {s : State} (h : Kept s0 s) (c i g : Nat) : Kept s0 (dropLines s c i g) := by
  unfold dropLines
  with_reducible repeat' first
    | assumption | apply Kept.ite | split | dsimp only | refine Kept.upd ?_ rfl

theorem execImageLoad_kept {s0 : State} {s : State} (h : Kept s0 s) : KOut s0 (execImageLoad s) := by
  unfold execImageLoad
  with_reducible repeat' first
    | assumption | refine KOut.next ?_ | refine KOut.ite ?_ ?_ | apply popUnit_kept | apply badOperand_kept
    | apply completeWith_kept | apply setRegBit_kept | apply dropLines_kept | apply setRimg_kept
    | refine KOP.get (popUnit_kept (h := ?_) ..) (by assumption) | apply Kept.ite | split

theorem endImage_kept {s0 : State} {s : State} (h : Kept s0 s) (m : Cmd) (g : Nat) : Kept s0 (endImage s m g) := by
  unfold endImage
  with_reducible repeat' first
    | assumption | apply completeOk_kept | apply setRimg_kept

theorem judgeImage_kept {s0 : State} {s : State} (h : Kept s0 s) (m : Cmd) (g : Nat) (crcOk : Bool) :
    Kept s0 (judgeImage s m g crcOk) := by
  unfold judgeImage
  with_reducible repeat' first
    | assumption | apply setRimg_kept | apply endImage_kept | apply failImage_kept | apply Kept.ite

theorem execImageLoadDone_kept {s0 : State} (c : Fin 64) (img : Fin 16) (err : Option Nat) (lost : Nat)
    {s : State} (h : Kept s0 s) :
    KOut s0 (execImageLoadDone c img err s lost) := by
  unfold execImageLoadDone
  with_reducible repeat' first
    | assumption | refine KOut.next ?_ | refine KOut.ite ?_ ?_ | apply judgeImage_kept | apply streamLoss_kept
    | apply failImage_kept | apply unitWrite_kept | refine KP.get (unitWrite_kept (h := ?_) ..) (by assumption)
    | refine KP.fst (unitWrite_kept (h := ?_) ..) | apply Kept.ite | split | dsimp only

theorem writeRexCfg_kept {s0 : State} {s : State} (h : Kept s0 s) (c o w : Nat) : Kept s0
    (writeRexCfg s c o w) := by
  unfold writeRexCfg
  with_reducible repeat' first
    | assumption | apply setRegBit_kept | apply setReg_kept | apply Kept.ite | split | dsimp only
    | refine Kept.upd ?_ rfl

theorem execRexIregWrite_kept {s0 : State} (c : Fin 64) (hi : Bool) (w : Word) {s : State} (h : Kept s0 s) :
    KOut s0 (execRexIregWrite c hi w s) := by
  unfold execRexIregWrite
  with_reducible repeat' first
    | assumption | refine KOut.next ?_ | refine KOut.ite ?_ ?_ | apply writeRexCfg_kept

theorem epRefused_kept {s0 : State} {s : State} (h : Kept s0 s) : Kept s0 (epRefused s) := by
  unfold epRefused
  with_reducible repeat' first
    | assumption | apply setRegBit_kept

theorem writeEpCtl_kept {s0 : State} {s : State} (h : Kept s0 s) (w : Nat) : Kept s0 (writeEpCtl s w) := by
  unfold writeEpCtl
  with_reducible repeat' first
    | assumption | apply setReg_kept | apply epRefused_kept | apply Kept.ite | split | dsimp only
    | refine Kept.upd ?_ rfl

theorem execEpStart_kept {s0 : State} (w : Word) {s : State} (h : Kept s0 s) : KOut s0 (execEpStart w s) := by
  unfold execEpStart
  with_reducible repeat' first
    | assumption | refine KOut.next ?_ | refine KOut.ite ?_ ?_ | apply writeEpCtl_kept

theorem epFinish_kept {s0 : State} {s : State} (h : Kept s0 s) (ctl u : Nat) (r : RexUnit × Nat × Nat) :
    Kept s0 (epFinish s ctl u r) := by
  unfold epFinish
  with_reducible repeat' first
    | assumption | apply setUnit_kept | apply setReg64_kept | apply setReg_kept | apply setRegBit_kept
    | apply Kept.ite | split | dsimp only | refine Kept.upd ?_ rfl

theorem execEpDone_kept {s0 : State} {s : State} (h : Kept s0 s) : KOut s0 (execEpDone s) := by
  unfold execEpDone
  with_reducible repeat' first
    | assumption | refine KOut.next ?_ | refine KOut.ite ?_ ?_ | apply epFinish_kept | apply Kept.ite
    | refine Kept.foldl _ ?_ (fun _ _ _ => ?_) | split

theorem writeOffline_kept {s0 : State} {s : State} (h : Kept s0 s) (u w : Nat) : Kept s0 (writeOffline s u w) := by
  unfold writeOffline
  with_reducible repeat' first
    | assumption | apply epRefused_kept | apply Kept.ite | split | dsimp only | refine Kept.upd ?_ rfl

theorem execOffline_kept {s0 : State} (u : Fin 128) (w : Word) {s : State} (h : Kept s0 s) :
    KOut s0 (execOffline u w s) := by
  unfold execOffline
  with_reducible repeat' first
    | assumption | refine KOut.next ?_ | refine KOut.ite ?_ ?_ | apply writeOffline_kept

theorem tileAccess_kept {s0 : State} {s : State} (h : Kept s0 s) (write : Option Nat) :
    Kept s0 (tileAccess s write) := by
  unfold tileAccess
  with_reducible repeat' first
    | assumption | apply setRegFld_kept | apply modUnit_kept | apply epRefused_kept | apply Kept.ite | split
    | dsimp only | refine Kept.upd ?_ rfl

theorem execRexTileData_kept {s0 : State} (write : Option Word) {s : State} (h : Kept s0 s) :
    KOut s0 (execRexTileData write s) := by
  unfold execRexTileData
  with_reducible repeat' first
    | assumption | refine KOut.next ?_ | refine KOut.ite ?_ ?_ | apply tileAccess_kept

end Sys2Proof.Machine
end

