-- ==== Sys2Proof/Laws/KeptCfg.lean ====
section
/-! SUPPORT. The queue of commands and the canonical memories, kept by the management cluster, resets and the register window. -/

namespace Sys2Proof.Machine

open Sys2Proof

theorem setFwState_kept {s0 : State} {s : State} (h : Kept s0 s) (v : Nat) : Kept s0 (setFwState s v) := by
  unfold setFwState
  with_reducible repeat' first
    | assumption | apply setRegFld_kept

theorem fwDenied_kept {s0 : State} {s : State} (h : Kept s0 s) : Kept s0 (fwDenied s) := by
  unfold fwDenied
  with_reducible repeat' first
    | assumption | apply setRegBit_kept

theorem firmwareCore_kept {s0 : State} {s : State} (h : Kept s0 s) : PK s0 (firmwareCore s) := by
  unfold firmwareCore
  with_reducible repeat' first
    | assumption | refine PK.ite ?_ ?_ | apply draw_kept
    | refine PK.get (draw_kept (h := ?_) ..) (by assumption) | refine PK.snd (draw_kept (h := ?_) ..)
    | apply Kept.ite | split | dsimp only | refine PK.mk ?_

theorem coreFault_kept {s0 : State} {s : State} (h : Kept s0 s) (a : Nat) : Kept s0 (coreFault s a) := by
  unfold coreFault
  with_reducible repeat' first
    | assumption | apply firmwareCore_kept | refine PK.get (firmwareCore_kept (h := ?_) ..) (by assumption)
    | refine PK.snd (firmwareCore_kept (h := ?_) ..) | apply Kept.ite | split | dsimp only
    | refine Kept.upd ?_ rfl

theorem beginFw_kept {s0 : State} {s : State} (h : Kept s0 s) : Kept s0 (beginFw s) := by
  exact Kept.updSram (stopCores_kept (setFwState_kept h 1)) (hm := wf_nil) ..

theorem execFwLoad_kept {s0 : State} {s : State} (h : Kept s0 s) : KOut s0 (execFwLoad s) := by
  unfold execFwLoad
  with_reducible repeat' first
    | assumption | refine KOut.next ?_ | refine KOut.ite ?_ ?_ | apply refuseCritical_kept | apply beginFw_kept
    | apply acceptCritical_kept | apply Kept.ite | split | dsimp only | refine Kept.upd ?_ rfl

theorem setEnergy_kept {s0 : State} {s : State} (h : Kept s0 s) (l : List Nat) : Kept s0 (setEnergy s l) := by
  unfold setEnergy
  with_reducible repeat' first
    | assumption | apply Kept.ite | split | dsimp only | refine Kept.upd ?_ rfl

theorem failFw_kept {s0 : State} {s : State} (h : Kept s0 s) (m : Cmd) (code index : Nat) :
    Kept s0 (failFw s m code index) := by
  unfold failFw
  with_reducible repeat' first
    | assumption | apply setRegBit_kept | apply setFwState_kept | apply completeWith_kept

theorem startFw_kept {s0 : State} {s : State} (h : Kept s0 s) (m : Cmd) (b : List Byte) :
    Kept s0 (startFw s m b) := by
  unfold startFw
  with_reducible repeat' first
    | assumption | apply completeOk_kept | apply setFwState_kept | apply setReg_kept | apply setRegFld_kept
    | apply setEnergy_kept | apply gtbSetTrim_kept | refine Kept.foldl _ ?_ (fun _ _ _ => ?_)
    | refine Kept.updSram ?_ (hm := wf_zipRange _)

theorem endFw_kept {s0 : State} {s : State} (h : Kept s0 s) (m : Cmd) (err : Option Nat) :
    Kept s0 (endFw s m err) := by
  unfold endFw
  with_reducible repeat' first
    | assumption | apply failFw_kept | apply startFw_kept | apply Kept.ite | split | dsimp only

theorem execFwLoadDone_kept {s0 : State} (err : Option Nat) (lost : Nat) {s : State} (h : Kept s0 s) :
    KOut s0 (execFwLoadDone err s lost) := by
  unfold execFwLoadDone
  with_reducible repeat' first
    | assumption | refine KOut.next ?_ | refine KOut.ite ?_ ?_ | apply endFw_kept | apply streamLoss_kept
    | apply beginFw_kept | apply Kept.ite | split | dsimp only | refine Kept.upd ?_ rfl

theorem writeItems_kept {s0 : State} {s : State} (h : Kept s0 s) (m : Cmd) : Kept s0 (writeItems s m) := by
  unfold writeItems
  with_reducible repeat' first
    | assumption | apply setReg_kept | apply setEnergy_kept | apply gtbSetTrim_kept | apply Kept.ite
    | refine Kept.foldl _ ?_ (fun _ _ _ => ?_)

theorem execCalWrite_kept {s0 : State} {s : State} (h : Kept s0 s) : KOut s0 (execCalWrite s) := by
  unfold execCalWrite
  with_reducible repeat' first
    | assumption | refine KOut.next ?_ | refine KOut.ite ?_ ?_ | apply refuseCritical_kept
    | apply writeItems_kept | apply acceptCritical_kept | apply completeOk_kept | apply setReg_kept
    | apply Kept.ite | split

theorem writeShadow_kept {s0 : State} {s : State} (h : Kept s0 s) (off w : Nat) : Kept s0
    (writeShadow s off w) := by
  unfold writeShadow
  with_reducible repeat' first
    | assumption | apply offerShadow_kept | apply Kept.ite | split

theorem execPolicyShadowWrite_kept {s0 : State} (off : Nat) (w : Word) {s : State} (h : Kept s0 s) :
    KOut s0 (execPolicyShadowWrite off w s) := by
  unfold execPolicyShadowWrite
  with_reducible repeat' first
    | assumption | refine KOut.next ?_ | refine KOut.ite ?_ ?_ | apply writeShadow_kept

theorem writeHold_kept {s0 : State} {s : State} (h : Kept s0 s) (b : Bool) : Kept s0 (writeHold s b) := by
  unfold writeHold
  with_reducible repeat' first
    | assumption | apply setRegBit_kept | apply Kept.ite | split | dsimp only | refine Kept.upd ?_ rfl

theorem execHold_kept {s0 : State} (b : Bool) {s : State} (h : Kept s0 s) : KOut s0 (execHold b s) := by
  unfold execHold
  with_reducible repeat' first
    | assumption | refine KOut.next ?_ | refine KOut.ite ?_ ?_ | apply writeHold_kept

theorem rejectShadow_kept {s0 : State} {s : State} (h : Kept s0 s) (unit status bit off v : Nat) :
    Kept s0 (rejectShadow s unit status bit off v) := by
  unfold rejectShadow
  with_reducible repeat' first
    | assumption | apply record_kept | apply setRegBit_kept

theorem activate_kept {s0 : State} {s : State} (h : Kept s0 s) (off v : Nat) : Kept s0 (activate s off v) := by
  unfold activate
  with_reducible repeat' first
    | assumption | apply Kept.ite | split | dsimp only | refine Kept.upd ?_ rfl

theorem copyPair_kept {s0 : State} {s : State} (h : Kept s0 s) (new : Table Nat) : Kept s0 (copyPair s new) := by
  unfold copyPair
  with_reducible repeat' first
    | assumption | apply rejectShadow_kept | apply activate_kept | apply Kept.ite | split | dsimp only

theorem copyShadow_kept {s0 : State} {s : State} (h : Kept s0 s) (e : Nat × Nat) : Kept s0 (copyShadow s e) := by
  unfold copyShadow
  with_reducible repeat' first
    | assumption | apply rejectShadow_kept | apply activate_kept | apply preempt_kept | apply Kept.ite | split

theorem copyShadows_kept {s0 : State} {s : State} (h : Kept s0 s) (b : Nat) : Kept s0 (copyShadows s b) := by
  unfold copyShadows
  with_reducible repeat' first
    | assumption | apply copyShadow_kept | apply copyPair_kept | apply Kept.ite
    | refine Kept.foldl _ ?_ (fun _ _ _ => ?_) | split | dsimp only | refine Kept.upd ?_ rfl

theorem closeAccount_kept {s0 : State} {s : State} (h : Kept s0 s) (c : Nat) : Kept s0 (closeAccount s c) := by
  unfold closeAccount
  with_reducible repeat' first
    | assumption | apply setReg64_kept | apply setReg_kept | apply Kept.ite
    | refine Kept.foldl _ ?_ (fun _ _ _ => ?_) | split | dsimp only | refine Kept.upd ?_ rfl

theorem parcelFigures_kept {s0 : State} {s : State} (h : Kept s0 s) (p : Nat) : Kept s0 (parcelFigures s p) := by
  unfold parcelFigures
  with_reducible repeat' first
    | assumption | apply setReg_kept

theorem closeAccounts_kept {s0 : State} {s : State} (h : Kept s0 s) (n : Nat) (lat : List Nat) :
    Kept s0 (closeAccounts s n lat) := by
  unfold closeAccounts
  with_reducible repeat' first
    | assumption | apply setReg_kept | apply closeAccount_kept | apply parcelFigures_kept | apply Kept.ite
    | refine Kept.foldl _ ?_ (fun _ _ _ => ?_) | split | dsimp only | refine Kept.upd ?_ rfl

theorem clockRecord_kept {s0 : State} (b : Nat) {s : State} (h : Kept s0 s) (f : Nat) :
    Kept s0 (clockRecord b s f) := by
  unfold clockRecord
  with_reducible repeat' first
    | assumption | apply traceField_kept | apply markFieldStamp_kept | apply Kept.ite | split | dsimp only
    | refine Kept.upd ?_ rfl

theorem countSpan_kept {s0 : State} {s : State} (h : Kept s0 s) : Kept s0 (countSpan s) := by
  unfold countSpan
  with_reducible repeat' first
    | assumption | apply Kept.ite | split | dsimp only | refine Kept.upd ?_ rfl

theorem mgcTick_kept {s0 : State} {s : State} (h : Kept s0 s) (n : Nat) : Kept s0 (mgcTick s n) := by
  unfold mgcTick
  with_reducible repeat' first
    | assumption | apply addReg_kept | apply setRegBit_kept | apply setReg64_kept | apply countSpan_kept
    | apply Kept.ite | split | dsimp only | refine Kept.upd ?_ rfl

theorem useEnergy_kept {s0 : State} {s : State} (h : Kept s0 s) (b : Nat) : Kept s0 (useEnergy s b) := by
  unfold useEnergy
  with_reducible repeat' first
    | assumption | apply setReg_kept | apply Kept.ite | refine Kept.foldl _ ?_ (fun _ _ _ => ?_) | split
    | dsimp only | refine Kept.upd ?_ rfl

theorem fieldsReach_kept {s0 : State} {s : State} (h : Kept s0 s) : Kept s0 (fieldsReach s) := by
  unfold fieldsReach
  with_reducible repeat' first
    | assumption | apply gtbTimeWord_kept | apply Kept.ite

theorem execPolicyTickBoundary_kept {s0 : State} (lat : List Nat) {s : State} (h : Kept s0 s) :
    KOut s0 (execPolicyTickBoundary lat s) := by
  unfold execPolicyTickBoundary
  with_reducible repeat' first
    | assumption | refine KOut.next ?_ | refine KOut.ite ?_ ?_ | apply advanceTo_kept | apply countLate_kept
    | apply copyShadows_kept | apply checkLow_kept | apply fieldsReach_kept | apply chargeRun_kept
    | apply useEnergy_kept | apply closeAccounts_kept | apply clockRecord_kept | apply settle_kept
    | apply mgcTick_kept | apply Kept.ite | refine Kept.foldl _ ?_ (fun _ _ _ => ?_) | split | dsimp only
    | refine Kept.upd ?_ rfl

theorem execWdogExpired_kept {s0 : State} {s : State} (h : Kept s0 s) : KOut s0 (execWdogExpired s) := by
  unfold execWdogExpired
  with_reducible repeat' first
    | assumption | refine KOut.next ?_ | refine KOut.ite ?_ ?_ | apply setRegBit_kept | apply haltMgc_kept
    | apply record_kept | apply Kept.ite | split | dsimp only | refine Kept.upd ?_ rfl

theorem execHalt_kept {s0 : State} {s : State} (h : Kept s0 s) : KOut s0 (execHalt s) := by
  unfold execHalt
  with_reducible repeat' first
    | assumption | refine KOut.next ?_ | refine KOut.ite ?_ ?_ | apply haltMgc_kept

theorem kickWdog_kept {s0 : State} {s : State} (h : Kept s0 s) : Kept s0 (kickWdog s) := by
  unfold kickWdog
  with_reducible repeat' first
    | assumption | apply Kept.ite | split | dsimp only | refine Kept.upd ?_ rfl

theorem execMgcWdogKick_kept {s0 : State} {s : State} (h : Kept s0 s) : KOut s0 (execMgcWdogKick s) := by
  unfold execMgcWdogKick
  with_reducible repeat' first
    | assumption | refine KOut.next ?_ | refine KOut.ite ?_ ?_ | apply kickWdog_kept

theorem ackTick_kept {s0 : State} {s : State} (h : Kept s0 s) (k w : Nat) : Kept s0 (ackTick s k w) := by
  unfold ackTick
  with_reducible repeat' first
    | assumption | apply setReg_kept | apply Kept.ite | split | dsimp only | refine Kept.upd ?_ rfl

theorem execMgcTickAck_kept {s0 : State} (core : Fin 8) (w : Word) {s : State} (h : Kept s0 s) :
    KOut s0 (execMgcTickAck core w s) := by
  unfold execMgcTickAck
  with_reducible repeat' first
    | assumption | refine KOut.next ?_ | refine KOut.ite ?_ ?_ | apply ackTick_kept

theorem postNotice_kept {s0 : State} {s : State} (h : Kept s0 s) (k c : Nat) : Kept s0 (postNotice s k c) := by
  unfold postNotice
  with_reducible repeat' first
    | assumption | apply fwDenied_kept | apply setRegFld_kept | apply raiseEvent_kept | apply Kept.ite

theorem execNoticeGo_kept {s0 : State} (core : Fin 8) (c : Fin 64) {s : State} (h : Kept s0 s) :
    KOut s0 (execNoticeGo core c s) := by
  unfold execNoticeGo
  with_reducible repeat' first
    | assumption | refine KOut.next ?_ | refine KOut.ite ?_ ?_ | apply postNotice_kept

theorem execMachineTimerInterrupt_kept {s0 : State} (core : Fin 8) (cmp : Nat) (reached : Bool) {s : State}
    (h : Kept s0 s) :
    KOut s0 (execMachineTimerInterrupt core cmp s reached) := by
  unfold execMachineTimerInterrupt
  with_reducible repeat' first
    | assumption | refine KOut.next ?_ | refine KOut.ite ?_ ?_ | apply advanceTo_kept | apply Kept.ite | split
    | dsimp only | refine Kept.upd ?_ rfl

theorem setPrbs_kept {s0 : State} {s : State} (h : Kept s0 s) (k : Nat) (x : Prbs) : Kept s0 (setPrbs s k x) := by
  unfold setPrbs
  with_reducible repeat' first
    | assumption | apply Kept.ite | split | dsimp only | refine Kept.upd ?_ rfl

theorem untrain_kept {s0 : State} {s : State} (h : Kept s0 s) (f : Nat) : Kept s0 (untrain s f) := by
  unfold untrain
  with_reducible repeat' first
    | assumption | apply setField_kept | apply Kept.ite | split | dsimp only | refine Kept.upd ?_ rfl

theorem testRefused_kept {s0 : State} {s : State} (h : Kept s0 s) : Kept s0 (testRefused s) := by
  unfold testRefused
  with_reducible repeat' first
    | assumption | apply setRegBit_kept

theorem trainFail_kept {s0 : State} {s : State} (h : Kept s0 s) (detail lanes : Nat) :
    Kept s0 (trainFail s detail lanes) := by
  unfold trainFail
  with_reducible repeat' first
    | assumption | apply record_kept | apply setRegBit_kept

theorem waitReset_kept {s0 : State} {s : State} (h : Kept s0 s) (id : Nat) (x : Run) :
    Kept s0 (waitReset s id x) := by
  unfold waitReset
  with_reducible repeat' first
    | assumption | apply setUse_kept | apply modRun_kept | apply Kept.ite
    | refine Kept.foldl _ ?_ (fun _ _ _ => ?_) | split | dsimp only | refine Kept.upd ?_ rfl

theorem coreKill_kept {s0 : State} {s : State} (h : Kept s0 s) (id : Nat) : Kept s0 (coreKill s id) := by
  unfold coreKill
  with_reducible repeat' first
    | assumption | apply chargeRun_kept | apply markKilled_kept | apply traceKilled_kept | apply finishKill_kept
    | apply waitReset_kept | apply Kept.ite | split

theorem coreClear_kept {s0 : State} {s : State} (h : Kept s0 s) : Kept s0 (coreClear s) := by
  unfold coreClear
  with_reducible repeat' first
    | assumption | apply setField_kept | apply setReg_kept | apply setRegBit_kept | apply Kept.ite
    | refine Kept.foldl _ ?_ (fun _ _ _ => ?_) | split | dsimp only | refine Kept.upd ?_ rfl

theorem coreAssert_kept {s0 : State} {s : State} (h : Kept s0 s) : Kept s0 (coreAssert s) := by
  unfold coreAssert
  exact endEmptied_kept (settle_kept (coreClear_kept (Kept.foldl _ (Kept.foldl _ (Kept.upd h rfl) fun _ _ ht =>
    tearLimit_kept (coreKill_kept ht _)) fun _ _ ht => coreKill_kept ht _)))

theorem execCoreRstNAssert_kept {s0 : State} {s : State} (h : Kept s0 s) : KOut s0 (execCoreRstNAssert s) := by
  unfold execCoreRstNAssert
  with_reducible repeat' first
    | assumption | refine KOut.next ?_ | refine KOut.ite ?_ ?_ | apply coreAssert_kept | apply Kept.ite | split
    | dsimp only | refine Kept.upd ?_ rfl

theorem coreRelease_kept {s0 : State} {s : State} (h : Kept s0 s) : Kept s0 (coreRelease s) := by
  unfold coreRelease
  with_reducible repeat' first
    | assumption | apply freeFrame_kept | apply Kept.ite | refine Kept.foldl _ ?_ (fun _ _ _ => ?_) | split
    | dsimp only | refine Kept.upd ?_ rfl

theorem execCoreRstNRelease_kept {s0 : State} {s : State} (h : Kept s0 s) : KOut s0 (execCoreRstNRelease s) := by
  unfold execCoreRstNRelease
  with_reducible repeat' first
    | assumption | refine KOut.next ?_ | refine KOut.ite ?_ ?_ | apply coreRelease_kept | apply Kept.ite | split
    | dsimp only | refine Kept.upd ?_ rfl

theorem cellarClear_kept {s0 : State} {s : State} (h : Kept s0 s) (wraps : Table Nat) :
    Kept s0 (cellarClear s wraps) := by
  exact Kept.updSram h (hm := by decide) ..

theorem execCellarRstN_kept {s0 : State} {s : State} (h : Kept s0 s) : KOut s0 (execCellarRstN s) := by
  unfold execCellarRstN
  with_reducible repeat' first
    | assumption | refine KOut.next ?_ | refine KOut.ite ?_ ?_ | apply cellarClear_kept

theorem execPorstN_kept {s0 : State} {s : State} (h : Kept s0 s) : KOut s0 (execPorstN s) := by
  unfold execPorstN
  with_reducible repeat' first
    | assumption | refine KOut.next ?_ | refine KOut.ite ?_ ?_ | apply cellarClear_kept

theorem execCellarResetRelease_kept {s0 : State} {s : State} (h : Kept s0 s) :
    KOut s0 (execCellarResetRelease s) := by
  unfold execCellarResetRelease
  with_reducible repeat' first
    | assumption | refine KOut.next ?_ | refine KOut.ite ?_ ?_ | apply coreRelease_kept | apply Kept.ite | split
    | dsimp only | refine Kept.upd ?_ rfl

theorem cellarMemories_kept {s0 : State} {s : State} (h : Kept s0 s) : Kept s0 (cellarMemories s) := by
  exact Kept.updSram h (hm := wf_nil) ..

theorem execCellarBistDone_kept {s0 : State} (repairs : Nat) (bad : Option (Nat × Nat)) {s : State}
    (h : Kept s0 s) :
    KOut s0 (execCellarBistDone repairs bad s) := by
  unfold execCellarBistDone
  with_reducible repeat' first
    | assumption | refine KOut.next ?_ | refine KOut.ite ?_ ?_ | apply cellarUp_kept | apply record_kept
    | apply cellarMemories_kept | apply setReg_kept | apply setRegBit_kept | apply Kept.ite | split | dsimp only
    | refine Kept.upd ?_ rfl

theorem markUnit_kept {s0 : State} {s : State} (h : Kept s0 s) (e : Nat × Nat) : Kept s0 (markUnit s e) := by
  unfold markUnit
  with_reducible repeat' first
    | assumption | apply failCore_kept | apply failRex_kept | apply setField_kept | apply setRegBit_kept
    | apply setReg_kept | apply record_kept | apply Kept.ite

theorem execCoreBistDone_kept {s0 : State} (f : Fin 8) (bad : List (Nat × Nat)) {s : State} (h : Kept s0 s) :
    KOut s0 (execCoreBistDone f bad s) := by
  unfold execCoreBistDone
  with_reducible repeat' first
    | assumption | refine KOut.next ?_ | refine KOut.ite ?_ ?_ | apply markUnit_kept | apply setField_kept
    | apply setRegBit_kept | apply Kept.ite | refine Kept.foldl _ ?_ (fun _ _ _ => ?_) | split | dsimp only
    | refine Kept.upd ?_ rfl

theorem execFieldTrainingStart_kept {s0 : State} (f : Fin 8) {s : State} (h : Kept s0 s) :
    KOut s0 (execFieldTrainingStart f s) := by
  unfold execFieldTrainingStart
  with_reducible repeat' first
    | assumption | refine KOut.next ?_ | refine KOut.ite ?_ ?_ | apply setField_kept

theorem execFieldTrainingEnd_kept {s0 : State} (f : Fin 8) (clkOk : Bool) (down up left : Nat)
    (wordErr : Bool) {s : State} (h : Kept s0 s) :
    KOut s0 (execFieldTrainingEnd f clkOk down up left s wordErr) := by
  unfold execFieldTrainingEnd
  with_reducible repeat' first
    | assumption | refine KOut.next ?_ | refine KOut.ite ?_ ?_ | apply trainFail_kept | apply setField_kept

theorem execFieldLinkTrainingEnd_kept {s0 : State} (n : Fin 7) (lanes : Nat) {s : State} (h : Kept s0 s) :
    KOut s0 (execFieldLinkTrainingEnd n lanes s) := by
  unfold execFieldLinkTrainingEnd
  with_reducible repeat' first
    | assumption | refine KOut.next ?_ | refine KOut.ite ?_ ?_ | apply setRegBit_kept | apply trainFail_kept
    | apply Kept.ite | split | dsimp only | refine Kept.upd ?_ rfl

theorem execFldOffReqRise_kept {s0 : State} (f : Fin 8) {s : State} (h : Kept s0 s) :
    KOut s0 (execFldOffReqRise f s) := by
  unfold execFldOffReqRise
  with_reducible repeat' first
    | assumption | refine KOut.next ?_ | refine KOut.ite ?_ ?_ | apply setField_kept | apply untrain_kept
    | apply Kept.ite

theorem execFldOffAck_kept {s0 : State} (f : Fin 8) {s : State} (h : Kept s0 s) : KOut s0 (execFldOffAck f s) := by
  unfold execFldOffAck
  with_reducible repeat' first
    | assumption | refine KOut.next ?_ | refine KOut.ite ?_ ?_ | apply setField_kept

theorem fieldPowerUp_kept {s0 : State} {s : State} (h : Kept s0 s) (f : Nat) : Kept s0 (fieldPowerUp s f) := by
  unfold fieldPowerUp
  with_reducible repeat' first
    | assumption | apply untrain_kept | apply setField_kept | apply setRegBit_kept | apply Kept.ite | split
    | dsimp only | refine Kept.upd ?_ rfl

theorem execFldOffReqFall_kept {s0 : State} (f : Fin 8) {s : State} (h : Kept s0 s) :
    KOut s0 (execFldOffReqFall f s) := by
  unfold execFldOffReqFall
  exact KOut.ite (KOut.next h) (KOut.next (Kept.ite (endEmptied_kept (fieldPowerUp_kept (setField_kept h _ _) _))
    (setField_kept h _ _)))

theorem retrainLink_kept {s0 : State} {s : State} (h : Kept s0 s) (k : Nat) : Kept s0 (retrainLink s k) := by
  unfold retrainLink
  with_reducible repeat' first
    | assumption | apply untrain_kept | apply Kept.ite | split | dsimp only | refine Kept.upd ?_ rfl

theorem endPrbs_kept {s0 : State} {s : State} (h : Kept s0 s) (k : Nat) (errs : List (Nat × Nat)) :
    Kept s0 (endPrbs s k errs) := by
  unfold endPrbs
  with_reducible repeat' first
    | assumption | apply retrainLink_kept | apply setPrbs_kept | apply Kept.ite

theorem writePrbsCtl_kept {s0 : State} {s : State} (h : Kept s0 s) (w : Nat) (errs : List (Nat × Nat)) :
    Kept s0 (writePrbsCtl s w errs) := by
  unfold writePrbsCtl
  with_reducible repeat' first
    | assumption | apply testRefused_kept | apply setPrbs_kept | apply endPrbs_kept | apply Kept.ite | split

theorem execPrbsStart_kept {s0 : State} (w : Word) {s : State} (h : Kept s0 s) : KOut s0 (execPrbsStart w s) := by
  unfold execPrbsStart
  with_reducible repeat' first
    | assumption | refine KOut.next ?_ | refine KOut.ite ?_ ?_ | apply writePrbsCtl_kept

theorem execPrbsStop_kept {s0 : State} (w : Word) (errs : List (Nat × Nat)) {s : State} (h : Kept s0 s) :
    KOut s0 (execPrbsStop w errs s) := by
  unfold execPrbsStop
  with_reducible repeat' first
    | assumption | refine KOut.next ?_ | refine KOut.ite ?_ ?_ | apply writePrbsCtl_kept

theorem execPrbsInject_kept {s0 : State} (w : Word) {s : State} (h : Kept s0 s) : KOut s0 (execPrbsInject w s) := by
  unfold execPrbsInject
  with_reducible repeat' first
    | assumption | refine KOut.next ?_ | refine KOut.ite ?_ ?_ | apply writePrbsCtl_kept

theorem execPrbsDurEnd_kept {s0 : State} (sel : Fin 256) (errs : List (Nat × Nat)) {s : State} (h : Kept s0 s) :
    KOut s0 (execPrbsDurEnd sel errs s) := by
  unfold execPrbsDurEnd
  with_reducible repeat' first
    | assumption | refine KOut.next ?_ | refine KOut.ite ?_ ?_ | apply endPrbs_kept | apply elapse_kept
    | apply Kept.ite | split

theorem execPrbsLaneLock_kept {s0 : State} (sel : Fin 256) (lane : Fin 2048) {s : State} (h : Kept s0 s) :
    KOut s0 (execPrbsLaneLock sel lane s) := by
  unfold execPrbsLaneLock
  with_reducible repeat' first
    | assumption | refine KOut.next ?_ | refine KOut.ite ?_ ?_ | apply setPrbs_kept | apply Kept.ite | split

theorem writeTst_kept {s0 : State} {s : State} (h : Kept s0 s) (off w : Nat) : Kept s0 (writeTst s off w) := by
  unfold writeTst
  with_reducible repeat' first
    | assumption | apply writePrbsCtl_kept | apply setReg_kept | apply setPrbs_kept | apply Kept.ite | split

theorem acceptAll_kept {s0 : State} (a1 : Nat) {s : State} (h : Kept s0 s) : Kept s0 (acceptAll a1 s) := by
  induction a1 generalizing s with
  | zero => exact h
  | succ n ih => exact ih (acceptOldest_kept h)

theorem execTrstN_kept {s0 : State} {s : State} (h : Kept s0 s) : KOut s0 (execTrstN s) := by
  unfold execTrstN
  with_reducible repeat' first
    | assumption | refine KOut.next ?_ | refine KOut.ite ?_ ?_ | apply Kept.ite | split | dsimp only
    | refine Kept.upd ?_ rfl

theorem execWrapperInstruction_kept {s0 : State} (part : Fin 2) (ins : Fin 5) (code : Nat) {s : State}
    (h : Kept s0 s) :
    KOut s0 (execWrapperInstruction part ins code s) := by
  unfold execWrapperInstruction
  with_reducible repeat' first
    | assumption | refine KOut.next ?_ | refine KOut.ite ?_ ?_ | apply testRefused_kept | apply settle_kept
    | apply acceptOldest_kept | apply record_kept | apply acceptAll_kept | apply Kept.ite | split | dsimp only
    | refine Kept.upd ?_ rfl

theorem execInstrumentWrite_kept {s0 : State} (inst : Fin 4) (off : Nat) (w : Word) {s : State} (h : Kept s0 s) :
    KOut s0 (execInstrumentWrite inst off w s) := by
  unfold execInstrumentWrite
  with_reducible repeat' first
    | assumption | refine KOut.next ?_ | refine KOut.ite ?_ ?_ | apply writeTst_kept | apply testRefused_kept
    | apply modUnit_kept | apply record_kept

theorem captureHigh_kept {s0 : State} {s : State} (h : Kept s0 s) (off : Nat) : Kept s0 (captureHigh s off) := by
  unfold captureHigh
  with_reducible repeat' first
    | assumption | apply setReg_kept | apply setPrbs_kept | apply Kept.ite
    | refine Kept.foldl _ ?_ (fun _ _ _ => ?_) | split

theorem captureAccount_kept {s0 : State} {s : State} (h : Kept s0 s) (c : Nat) : Kept s0 (captureAccount s c) := by
  unfold captureAccount
  with_reducible repeat' first
    | assumption | apply Kept.ite | split | dsimp only | refine Kept.upd ?_ rfl

theorem setData_kept {s0 : State} {s : State} (h : Kept s0 s) (v : Nat) : Kept s0 (setData s v) := by
  unfold setData
  with_reducible repeat' first
    | assumption | apply Kept.ite | split | dsimp only | refine Kept.upd ?_ rfl

theorem stateOf_kept {s0 : State} {s : State} (h : Kept s0 s) (o : Out) (ho : KOut s0 o) :
    Kept s0 (stateOf o s) := by
  unfold stateOf
  split
  · exact ho _ rfl
  · exact h

theorem readWindow_kept {s0 : State} {s : State} (h : Kept s0 s) (off : Nat) : Kept s0 (readWindow s off) := by
  unfold readWindow
  with_reducible repeat' first
    | assumption | apply setData_kept | apply unmappedAt_kept | apply stateOf_kept | apply execGtbNowLoRead_kept
    | apply execSynDiagDataRead_kept | apply execSafRecDataRead_kept | apply tileAccess_kept | apply draw_kept
    | apply captureAccount_kept | apply captureHigh_kept
    | refine KOut.get (execGtbNowLoRead_kept (h := ?_) ..) (by assumption)
    | refine KOut.get (execSynDiagDataRead_kept (h := ?_) ..) (by assumption)
    | refine KOut.get (execSafRecDataRead_kept (h := ?_) ..) (by assumption)
    | refine PK.get (draw_kept (h := ?_) ..) (by assumption) | refine PK.snd (draw_kept (h := ?_) ..)
    | apply Kept.ite | split

theorem badWindow_kept {s0 : State} {s : State} (h : Kept s0 s) (off : Nat) : Kept s0 (badWindow s off) := by
  unfold badWindow
  with_reducible repeat' first
    | assumption | apply stateOf_kept | apply execDoorbellBadAccess_kept | apply badAccessAt_kept
    | apply setData_kept | refine KOut.get (execDoorbellBadAccess_kept (h := ?_) ..) (by assumption)
    | apply Kept.ite | split

theorem execCounterCaptureRead_kept {s0 : State} (off : Nat) {s : State} (h : Kept s0 s) :
    KOut s0 (execCounterCaptureRead off s) := by
  unfold execCounterCaptureRead
  with_reducible repeat' first
    | assumption | refine KOut.next ?_ | refine KOut.ite ?_ ?_ | apply readWindow_kept | apply badWindow_kept
    | apply Kept.ite

theorem execPsmCtxEng0LoRead_kept {s0 : State} (c : Fin 64) {s : State} (h : Kept s0 s) :
    KOut s0 (execPsmCtxEng0LoRead c s) := by
  unfold execPsmCtxEng0LoRead
  with_reducible repeat' first
    | assumption | refine KOut.next ?_ | refine KOut.ite ?_ ?_ | apply captureAccount_kept

theorem execBadAccess_kept {s0 : State} (off size : Nat) {s : State} (h : Kept s0 s) :
    KOut s0 (execBadAccess off size s) := by
  unfold execBadAccess
  with_reducible repeat' first
    | assumption | refine KOut.next ?_ | refine KOut.ite ?_ ?_ | apply badWindow_kept | apply unmappedAt_kept
    | apply setData_kept | apply Kept.ite

theorem plainWrite_kept {s0 : State} {s : State} (h : Kept s0 s) (off w : Nat) : Kept s0 (plainWrite s off w) := by
  unfold plainWrite
  with_reducible repeat' first
    | assumption | apply setReg_kept | apply Kept.ite | split

theorem writeQstat_kept {s0 : State} {s : State} (h : Kept s0 s) (off w : Nat) : Kept s0 (writeQstat s off w) := by
  unfold writeQstat
  with_reducible repeat' first
    | assumption | apply setRegFld_kept | apply plainWrite_kept | apply Kept.ite

theorem writeSetup_kept {s0 : State} {s : State} (h : Kept s0 s) (off : Nat) (b : Bool) :
    Kept s0 (writeSetup s off b) := by
  unfold writeSetup
  with_reducible repeat' first
    | assumption | apply setRegBit_kept | apply badAccessAt_kept | apply Kept.ite

theorem execSetupDone_kept {s0 : State} (b : Bool) {s : State} (h : Kept s0 s) : KOut s0 (execSetupDone b s) := by
  unfold execSetupDone
  with_reducible repeat' first
    | assumption | refine KOut.next ?_ | refine KOut.ite ?_ ?_ | apply writeSetup_kept

theorem writeGlb_kept {s0 : State} {s : State} (h : Kept s0 s) (off w : Nat) : Kept s0 (writeGlb s off w) := by
  unfold writeGlb
  with_reducible repeat' first
    | assumption | apply setReg_kept | apply badAccessAt_kept | apply writeSetup_kept | apply plainWrite_kept
    | apply Kept.ite

theorem writeIrqCfg_kept {s0 : State} {s : State} (h : Kept s0 s) (c w : Nat) : Kept s0 (writeIrqCfg s c w) := by
  unfold writeIrqCfg
  with_reducible repeat' first
    | assumption | apply plainWrite_kept | apply sendMsg_kept | apply Kept.ite

theorem writeHifCtx_kept {s0 : State} {s : State} (h : Kept s0 s) (c o off w : Nat) :
    Kept s0 (writeHifCtx s c o off w) := by
  unfold writeHifCtx
  with_reducible repeat' first
    | assumption | apply setRegBit_kept | apply writeCtxCfg_kept | apply plainWrite_kept
    | apply writeIrqCfg_kept | apply writeSqCfg_kept | apply Kept.ite

theorem writeDoorbell_kept {s0 : State} {s : State} (h : Kept s0 s) (c : Fin 64) (o : Nat) (w : Word) :
    Kept s0 (writeDoorbell s c o w) := by
  unfold writeDoorbell
  with_reducible repeat' first
    | assumption | apply stateOf_kept | apply execSqnDb_kept | apply execCqDb_kept | apply execEqDb_kept
    | apply execIrqRearmSet_kept | apply execIrqRearmClear_kept
    | refine KOut.get (execSqnDb_kept (h := ?_) ..) (by assumption)
    | refine KOut.get (execCqDb_kept (h := ?_) ..) (by assumption)
    | refine KOut.get (execEqDb_kept (h := ?_) ..) (by assumption)
    | refine KOut.get (execIrqRearmSet_kept (h := ?_) ..) (by assumption)
    | refine KOut.get (execIrqRearmClear_kept (h := ?_) ..) (by assumption) | apply Kept.ite | split

theorem writeMgc_kept {s0 : State} {s : State} (h : Kept s0 s) (off w : Nat) : Kept s0 (writeMgc s off w) := by
  unfold writeMgc
  with_reducible repeat' first
    | assumption | apply firmwareCore_kept | apply setRegFld_kept | apply haltMgc_kept | apply writeHold_kept
    | apply ackTick_kept | apply kickWdog_kept | apply postNotice_kept | apply plainWrite_kept
    | refine PK.get (firmwareCore_kept (h := ?_) ..) (by assumption)
    | refine PK.snd (firmwareCore_kept (h := ?_) ..) | apply Kept.ite

theorem writePatCtx_kept {s0 : State} {s : State} (h : Kept s0 s) (c : Fin 64) (o off w : Nat) :
    Kept s0 (writePatCtx s c o off w) := by
  unfold writePatCtx
  with_reducible repeat' first
    | assumption | apply setRegBit_kept | apply stateOf_kept | apply execPatRelease_kept | apply plainWrite_kept
    | refine KOut.get (execPatRelease_kept (h := ?_) ..) (by assumption) | apply Kept.ite

theorem writePatCtl_kept {s0 : State} {s : State} (h : Kept s0 s) (w : Nat) : Kept s0 (writePatCtl s w) := by
  unfold writePatCtl
  with_reducible repeat' first
    | assumption | apply plainWrite_kept | apply badAccessAt_kept | apply Kept.ite

theorem writeStackField_kept {s0 : State} {s : State} (h : Kept s0 s) (off w : Nat) :
    Kept s0 (writeStackField s off w) := by
  unfold writeStackField
  with_reducible repeat' first
    | assumption | apply plainWrite_kept | apply badAccessAt_kept | apply Kept.ite

theorem writeCtxWdog_kept {s0 : State} {s : State} (h : Kept s0 s) (off w : Nat) :
    Kept s0 (writeCtxWdog s off w) := by
  unfold writeCtxWdog
  with_reducible repeat' first
    | assumption | apply setRegBit_kept | apply plainWrite_kept | apply Kept.ite

theorem writeSdt_kept {s0 : State} {s : State} (h : Kept s0 s) (c off w : Nat) : Kept s0 (writeSdt s c off w) := by
  unfold writeSdt
  with_reducible repeat' first
    | assumption | apply plainWrite_kept | apply setRegBit_kept | apply Kept.ite

theorem writeRex_kept {s0 : State} {s : State} (h : Kept s0 s) (off w : Nat) : Kept s0 (writeRex s off w) := by
  unfold writeRex
  with_reducible repeat' first
    | assumption | apply writeEpCtl_kept | apply tileAccess_kept | apply writeOffline_kept
    | apply writeRexCfg_kept | apply plainWrite_kept | apply Kept.ite | split

theorem writeReg_kept {s0 : State} {s : State} (h : Kept s0 s) (off w : Nat) : Kept s0 (writeReg s off w) := by
  unfold writeReg
  with_reducible repeat' first
    | assumption | apply writeQctl_kept | apply writeQstat_kept | apply writeShadow_kept | apply writeGlb_kept
    | apply plainWrite_kept | apply writeHifCtx_kept | apply writeStackField_kept | apply stateOf_kept
    | apply execImbEnWrite_kept | apply writeCtxWdog_kept | apply execSynDiagSelWrite_kept | apply writeSdt_kept
    | apply writeSynCfg_kept | apply writeRex_kept | apply writePatCtl_kept | apply writePatCtx_kept
    | apply execGtbCtlEnable_kept | apply writeMgc_kept | apply execSafRecSelWrite_kept | apply writeCntCtl_kept
    | apply execLnkCtxResWrite_kept | apply writeTst_kept
    | refine KOut.get (execImbEnWrite_kept (h := ?_) ..) (by assumption)
    | refine KOut.get (execSynDiagSelWrite_kept (h := ?_) ..) (by assumption)
    | refine KOut.get (execGtbCtlEnable_kept (h := ?_) ..) (by assumption)
    | refine KOut.get (execSafRecSelWrite_kept (h := ?_) ..) (by assumption)
    | refine KOut.get (execLnkCtxResWrite_kept (h := ?_) ..) (by assumption) | apply Kept.ite | split

theorem hostWriteReg_kept {s0 : State} {s : State} (h : Kept s0 s) (off w : Nat) :
    Kept s0 (hostWriteReg s off w) := by
  unfold hostWriteReg
  with_reducible repeat' first
    | assumption | apply writeReg_kept | apply badAccessAt_kept | apply haltMgc_kept | apply Kept.ite

theorem execRegisterWrite_kept {s0 : State} (off : Nat) (w : Word) (fw : Bool) {s : State} (h : Kept s0 s) :
    KOut s0 (execRegisterWrite off w fw s) := by
  unfold execRegisterWrite
  with_reducible repeat' first
    | assumption | refine KOut.next ?_ | refine KOut.ite ?_ ?_ | apply coreFault_kept | apply badWindow_kept
    | apply fwDenied_kept | apply writeDoorbell_kept | apply unmappedAt_kept | apply hostWriteReg_kept
    | apply writeReg_kept | apply Kept.ite | split

theorem debugWrite_kept {s0 : State} {s : State} (h : Kept s0 s) (off w : Nat) : Kept s0 (debugWrite s off w) := by
  unfold debugWrite
  with_reducible repeat' first
    | assumption | apply setRegBit_kept | apply writeReg_kept | apply Kept.ite

theorem execDbgWrite_kept {s0 : State} {s : State} (h : Kept s0 s) : KOut s0 (execDbgWrite s) := by
  unfold execDbgWrite
  with_reducible repeat' first
    | assumption | refine KOut.next ?_ | refine KOut.ite ?_ ?_ | apply refuseCritical_kept
    | apply acceptCritical_kept | apply debugWrite_kept | apply completeOk_kept | apply traceDebug_kept
    | apply Kept.ite | split

end Sys2Proof.Machine
end

