-- ==== Sys2Proof/Laws/State.lean ====
section
/-! SUPPORT. The fields of a state after a named update: what the update does not write is as it was. -/

namespace Sys2Proof.Machine

open Sys2Proof

@[simp] theorem setReg_pending (s : State) (off v : Nat) : (setReg s off v).pending = s.pending := rfl
@[simp] theorem setReg_fresh (s : State) (off v : Nat) : (setReg s off v).fresh = s.fresh := rfl
@[simp] theorem setReg_counts (s : State) (off v : Nat) : (setReg s off v).counts = s.counts := rfl
@[simp] theorem setReg_mem (s : State) (off v : Nat) : (setReg s off v).mem = s.mem := rfl
@[simp] theorem setReg_host (s : State) (off v : Nat) : (setReg s off v).host = s.host := rfl
@[simp] theorem setReg_gtb (s : State) (off v : Nat) : (setReg s off v).gtb = s.gtb := rfl
@[simp] theorem setReg_clk (s : State) (off v : Nat) : (setReg s off v).clk = s.clk := rfl
@[simp] theorem setReg_hif (s : State) (off v : Nat) : (setReg s off v).hif = s.hif := rfl
@[simp] theorem setReg_saf (s : State) (off v : Nat) : (setReg s off v).saf = s.saf := rfl
@[simp] theorem setReg_cau (s : State) (off v : Nat) : (setReg s off v).cau = s.cau := rfl
@[simp] theorem setReg_mgc (s : State) (off v : Nat) : (setReg s off v).mgc = s.mgc := rfl
@[simp] theorem setReg_tge (s : State) (off v : Nat) : (setReg s off v).tge = s.tge := rfl
@[simp] theorem setReg_disp (s : State) (off v : Nat) : (setReg s off v).disp = s.disp := rfl
@[simp] theorem setReg_psm (s : State) (off v : Nat) : (setReg s off v).psm = s.psm := rfl
@[simp] theorem setReg_pat (s : State) (off v : Nat) : (setReg s off v).pat = s.pat := rfl
@[simp] theorem setReg_syn (s : State) (off v : Nat) : (setReg s off v).syn = s.syn := rfl
@[simp] theorem setReg_trc (s : State) (off v : Nat) : (setReg s off v).trc = s.trc := rfl
@[simp] theorem setReg_chn (s : State) (off v : Nat) : (setReg s off v).chn = s.chn := rfl
@[simp] theorem setReg_blq (s : State) (off v : Nat) : (setReg s off v).blq = s.blq := rfl
@[simp] theorem setReg_lnk (s : State) (off v : Nat) : (setReg s off v).lnk = s.lnk := rfl
@[simp] theorem setReg_sls (s : State) (off v : Nat) : (setReg s off v).sls = s.sls := rfl
@[simp] theorem setReg_rex (s : State) (off v : Nat) : (setReg s off v).rex = s.rex := rfl
@[simp] theorem setReg_tst (s : State) (off v : Nat) : (setReg s off v).tst = s.tst := rfl
@[simp] theorem setReg_asks (s : State) (off v : Nat) : (setReg s off v).asks = s.asks := rfl

@[simp] theorem setRegFld_pending (s : State) (off hi lo x : Nat) : (setRegFld s off hi lo x).pending = s.pending := rfl
@[simp] theorem setRegFld_fresh (s : State) (off hi lo x : Nat) : (setRegFld s off hi lo x).fresh = s.fresh := rfl
@[simp] theorem setRegFld_counts (s : State) (off hi lo x : Nat) : (setRegFld s off hi lo x).counts = s.counts := rfl
@[simp] theorem setRegFld_mem (s : State) (off hi lo x : Nat) : (setRegFld s off hi lo x).mem = s.mem := rfl
@[simp] theorem setRegFld_host (s : State) (off hi lo x : Nat) : (setRegFld s off hi lo x).host = s.host := rfl
@[simp] theorem setRegFld_gtb (s : State) (off hi lo x : Nat) : (setRegFld s off hi lo x).gtb = s.gtb := rfl
@[simp] theorem setRegFld_clk (s : State) (off hi lo x : Nat) : (setRegFld s off hi lo x).clk = s.clk := rfl
@[simp] theorem setRegFld_hif (s : State) (off hi lo x : Nat) : (setRegFld s off hi lo x).hif = s.hif := rfl
@[simp] theorem setRegFld_saf (s : State) (off hi lo x : Nat) : (setRegFld s off hi lo x).saf = s.saf := rfl
@[simp] theorem setRegFld_cau (s : State) (off hi lo x : Nat) : (setRegFld s off hi lo x).cau = s.cau := rfl
@[simp] theorem setRegFld_mgc (s : State) (off hi lo x : Nat) : (setRegFld s off hi lo x).mgc = s.mgc := rfl
@[simp] theorem setRegFld_tge (s : State) (off hi lo x : Nat) : (setRegFld s off hi lo x).tge = s.tge := rfl
@[simp] theorem setRegFld_disp (s : State) (off hi lo x : Nat) : (setRegFld s off hi lo x).disp = s.disp := rfl
@[simp] theorem setRegFld_psm (s : State) (off hi lo x : Nat) : (setRegFld s off hi lo x).psm = s.psm := rfl
@[simp] theorem setRegFld_pat (s : State) (off hi lo x : Nat) : (setRegFld s off hi lo x).pat = s.pat := rfl
@[simp] theorem setRegFld_syn (s : State) (off hi lo x : Nat) : (setRegFld s off hi lo x).syn = s.syn := rfl
@[simp] theorem setRegFld_trc (s : State) (off hi lo x : Nat) : (setRegFld s off hi lo x).trc = s.trc := rfl
@[simp] theorem setRegFld_chn (s : State) (off hi lo x : Nat) : (setRegFld s off hi lo x).chn = s.chn := rfl
@[simp] theorem setRegFld_blq (s : State) (off hi lo x : Nat) : (setRegFld s off hi lo x).blq = s.blq := rfl
@[simp] theorem setRegFld_lnk (s : State) (off hi lo x : Nat) : (setRegFld s off hi lo x).lnk = s.lnk := rfl
@[simp] theorem setRegFld_sls (s : State) (off hi lo x : Nat) : (setRegFld s off hi lo x).sls = s.sls := rfl
@[simp] theorem setRegFld_rex (s : State) (off hi lo x : Nat) : (setRegFld s off hi lo x).rex = s.rex := rfl
@[simp] theorem setRegFld_tst (s : State) (off hi lo x : Nat) : (setRegFld s off hi lo x).tst = s.tst := rfl
@[simp] theorem setRegFld_asks (s : State) (off hi lo x : Nat) : (setRegFld s off hi lo x).asks = s.asks := rfl

@[simp] theorem setRegBit_pending (s : State) (off i : Nat) (b : Bool) : (setRegBit s off i b).pending = s.pending := rfl
@[simp] theorem setRegBit_fresh (s : State) (off i : Nat) (b : Bool) : (setRegBit s off i b).fresh = s.fresh := rfl
@[simp] theorem setRegBit_counts (s : State) (off i : Nat) (b : Bool) : (setRegBit s off i b).counts = s.counts := rfl
@[simp] theorem setRegBit_mem (s : State) (off i : Nat) (b : Bool) : (setRegBit s off i b).mem = s.mem := rfl
@[simp] theorem setRegBit_host (s : State) (off i : Nat) (b : Bool) : (setRegBit s off i b).host = s.host := rfl
@[simp] theorem setRegBit_gtb (s : State) (off i : Nat) (b : Bool) : (setRegBit s off i b).gtb = s.gtb := rfl
@[simp] theorem setRegBit_clk (s : State) (off i : Nat) (b : Bool) : (setRegBit s off i b).clk = s.clk := rfl
@[simp] theorem setRegBit_hif (s : State) (off i : Nat) (b : Bool) : (setRegBit s off i b).hif = s.hif := rfl
@[simp] theorem setRegBit_saf (s : State) (off i : Nat) (b : Bool) : (setRegBit s off i b).saf = s.saf := rfl
@[simp] theorem setRegBit_cau (s : State) (off i : Nat) (b : Bool) : (setRegBit s off i b).cau = s.cau := rfl
@[simp] theorem setRegBit_mgc (s : State) (off i : Nat) (b : Bool) : (setRegBit s off i b).mgc = s.mgc := rfl
@[simp] theorem setRegBit_tge (s : State) (off i : Nat) (b : Bool) : (setRegBit s off i b).tge = s.tge := rfl
@[simp] theorem setRegBit_disp (s : State) (off i : Nat) (b : Bool) : (setRegBit s off i b).disp = s.disp := rfl
@[simp] theorem setRegBit_psm (s : State) (off i : Nat) (b : Bool) : (setRegBit s off i b).psm = s.psm := rfl
@[simp] theorem setRegBit_pat (s : State) (off i : Nat) (b : Bool) : (setRegBit s off i b).pat = s.pat := rfl
@[simp] theorem setRegBit_syn (s : State) (off i : Nat) (b : Bool) : (setRegBit s off i b).syn = s.syn := rfl
@[simp] theorem setRegBit_trc (s : State) (off i : Nat) (b : Bool) : (setRegBit s off i b).trc = s.trc := rfl
@[simp] theorem setRegBit_chn (s : State) (off i : Nat) (b : Bool) : (setRegBit s off i b).chn = s.chn := rfl
@[simp] theorem setRegBit_blq (s : State) (off i : Nat) (b : Bool) : (setRegBit s off i b).blq = s.blq := rfl
@[simp] theorem setRegBit_lnk (s : State) (off i : Nat) (b : Bool) : (setRegBit s off i b).lnk = s.lnk := rfl
@[simp] theorem setRegBit_sls (s : State) (off i : Nat) (b : Bool) : (setRegBit s off i b).sls = s.sls := rfl
@[simp] theorem setRegBit_rex (s : State) (off i : Nat) (b : Bool) : (setRegBit s off i b).rex = s.rex := rfl
@[simp] theorem setRegBit_tst (s : State) (off i : Nat) (b : Bool) : (setRegBit s off i b).tst = s.tst := rfl
@[simp] theorem setRegBit_asks (s : State) (off i : Nat) (b : Bool) : (setRegBit s off i b).asks = s.asks := rfl

@[simp] theorem addReg_pending (s : State) (off n : Nat) : (addReg s off n).pending = s.pending := rfl
@[simp] theorem addReg_fresh (s : State) (off n : Nat) : (addReg s off n).fresh = s.fresh := rfl
@[simp] theorem addReg_counts (s : State) (off n : Nat) : (addReg s off n).counts = s.counts := rfl
@[simp] theorem addReg_mem (s : State) (off n : Nat) : (addReg s off n).mem = s.mem := rfl
@[simp] theorem addReg_host (s : State) (off n : Nat) : (addReg s off n).host = s.host := rfl
@[simp] theorem addReg_gtb (s : State) (off n : Nat) : (addReg s off n).gtb = s.gtb := rfl
@[simp] theorem addReg_clk (s : State) (off n : Nat) : (addReg s off n).clk = s.clk := rfl
@[simp] theorem addReg_hif (s : State) (off n : Nat) : (addReg s off n).hif = s.hif := rfl
@[simp] theorem addReg_saf (s : State) (off n : Nat) : (addReg s off n).saf = s.saf := rfl
@[simp] theorem addReg_cau (s : State) (off n : Nat) : (addReg s off n).cau = s.cau := rfl
@[simp] theorem addReg_mgc (s : State) (off n : Nat) : (addReg s off n).mgc = s.mgc := rfl
@[simp] theorem addReg_tge (s : State) (off n : Nat) : (addReg s off n).tge = s.tge := rfl
@[simp] theorem addReg_disp (s : State) (off n : Nat) : (addReg s off n).disp = s.disp := rfl
@[simp] theorem addReg_psm (s : State) (off n : Nat) : (addReg s off n).psm = s.psm := rfl
@[simp] theorem addReg_pat (s : State) (off n : Nat) : (addReg s off n).pat = s.pat := rfl
@[simp] theorem addReg_syn (s : State) (off n : Nat) : (addReg s off n).syn = s.syn := rfl
@[simp] theorem addReg_trc (s : State) (off n : Nat) : (addReg s off n).trc = s.trc := rfl
@[simp] theorem addReg_chn (s : State) (off n : Nat) : (addReg s off n).chn = s.chn := rfl
@[simp] theorem addReg_blq (s : State) (off n : Nat) : (addReg s off n).blq = s.blq := rfl
@[simp] theorem addReg_lnk (s : State) (off n : Nat) : (addReg s off n).lnk = s.lnk := rfl
@[simp] theorem addReg_sls (s : State) (off n : Nat) : (addReg s off n).sls = s.sls := rfl
@[simp] theorem addReg_rex (s : State) (off n : Nat) : (addReg s off n).rex = s.rex := rfl
@[simp] theorem addReg_tst (s : State) (off n : Nat) : (addReg s off n).tst = s.tst := rfl
@[simp] theorem addReg_asks (s : State) (off n : Nat) : (addReg s off n).asks = s.asks := rfl

@[simp] theorem setReg64_pending (s : State) (off v : Nat) : (setReg64 s off v).pending = s.pending := rfl
@[simp] theorem setReg64_fresh (s : State) (off v : Nat) : (setReg64 s off v).fresh = s.fresh := rfl
@[simp] theorem setReg64_counts (s : State) (off v : Nat) : (setReg64 s off v).counts = s.counts := rfl
@[simp] theorem setReg64_mem (s : State) (off v : Nat) : (setReg64 s off v).mem = s.mem := rfl
@[simp] theorem setReg64_host (s : State) (off v : Nat) : (setReg64 s off v).host = s.host := rfl
@[simp] theorem setReg64_gtb (s : State) (off v : Nat) : (setReg64 s off v).gtb = s.gtb := rfl
@[simp] theorem setReg64_clk (s : State) (off v : Nat) : (setReg64 s off v).clk = s.clk := rfl
@[simp] theorem setReg64_hif (s : State) (off v : Nat) : (setReg64 s off v).hif = s.hif := rfl
@[simp] theorem setReg64_saf (s : State) (off v : Nat) : (setReg64 s off v).saf = s.saf := rfl
@[simp] theorem setReg64_cau (s : State) (off v : Nat) : (setReg64 s off v).cau = s.cau := rfl
@[simp] theorem setReg64_mgc (s : State) (off v : Nat) : (setReg64 s off v).mgc = s.mgc := rfl
@[simp] theorem setReg64_tge (s : State) (off v : Nat) : (setReg64 s off v).tge = s.tge := rfl
@[simp] theorem setReg64_disp (s : State) (off v : Nat) : (setReg64 s off v).disp = s.disp := rfl
@[simp] theorem setReg64_psm (s : State) (off v : Nat) : (setReg64 s off v).psm = s.psm := rfl
@[simp] theorem setReg64_pat (s : State) (off v : Nat) : (setReg64 s off v).pat = s.pat := rfl
@[simp] theorem setReg64_syn (s : State) (off v : Nat) : (setReg64 s off v).syn = s.syn := rfl
@[simp] theorem setReg64_trc (s : State) (off v : Nat) : (setReg64 s off v).trc = s.trc := rfl
@[simp] theorem setReg64_chn (s : State) (off v : Nat) : (setReg64 s off v).chn = s.chn := rfl
@[simp] theorem setReg64_blq (s : State) (off v : Nat) : (setReg64 s off v).blq = s.blq := rfl
@[simp] theorem setReg64_lnk (s : State) (off v : Nat) : (setReg64 s off v).lnk = s.lnk := rfl
@[simp] theorem setReg64_sls (s : State) (off v : Nat) : (setReg64 s off v).sls = s.sls := rfl
@[simp] theorem setReg64_rex (s : State) (off v : Nat) : (setReg64 s off v).rex = s.rex := rfl
@[simp] theorem setReg64_tst (s : State) (off v : Nat) : (setReg64 s off v).tst = s.tst := rfl
@[simp] theorem setReg64_asks (s : State) (off v : Nat) : (setReg64 s off v).asks = s.asks := rfl

@[simp] theorem setHctx_pending (s : State) (c : Nat) (h : HifCtx) : (setHctx s c h).pending = s.pending := rfl
@[simp] theorem setHctx_fresh (s : State) (c : Nat) (h : HifCtx) : (setHctx s c h).fresh = s.fresh := rfl
@[simp] theorem setHctx_regs (s : State) (c : Nat) (h : HifCtx) : (setHctx s c h).regs = s.regs := rfl
@[simp] theorem setHctx_counts (s : State) (c : Nat) (h : HifCtx) : (setHctx s c h).counts = s.counts := rfl
@[simp] theorem setHctx_mem (s : State) (c : Nat) (h : HifCtx) : (setHctx s c h).mem = s.mem := rfl
@[simp] theorem setHctx_host (s : State) (c : Nat) (h : HifCtx) : (setHctx s c h).host = s.host := rfl
@[simp] theorem setHctx_gtb (s : State) (c : Nat) (h : HifCtx) : (setHctx s c h).gtb = s.gtb := rfl
@[simp] theorem setHctx_clk (s : State) (c : Nat) (h : HifCtx) : (setHctx s c h).clk = s.clk := rfl
@[simp] theorem setHctx_saf (s : State) (c : Nat) (h : HifCtx) : (setHctx s c h).saf = s.saf := rfl
@[simp] theorem setHctx_cau (s : State) (c : Nat) (h : HifCtx) : (setHctx s c h).cau = s.cau := rfl
@[simp] theorem setHctx_mgc (s : State) (c : Nat) (h : HifCtx) : (setHctx s c h).mgc = s.mgc := rfl
@[simp] theorem setHctx_tge (s : State) (c : Nat) (h : HifCtx) : (setHctx s c h).tge = s.tge := rfl
@[simp] theorem setHctx_disp (s : State) (c : Nat) (h : HifCtx) : (setHctx s c h).disp = s.disp := rfl
@[simp] theorem setHctx_psm (s : State) (c : Nat) (h : HifCtx) : (setHctx s c h).psm = s.psm := rfl
@[simp] theorem setHctx_pat (s : State) (c : Nat) (h : HifCtx) : (setHctx s c h).pat = s.pat := rfl
@[simp] theorem setHctx_syn (s : State) (c : Nat) (h : HifCtx) : (setHctx s c h).syn = s.syn := rfl
@[simp] theorem setHctx_trc (s : State) (c : Nat) (h : HifCtx) : (setHctx s c h).trc = s.trc := rfl
@[simp] theorem setHctx_chn (s : State) (c : Nat) (h : HifCtx) : (setHctx s c h).chn = s.chn := rfl
@[simp] theorem setHctx_blq (s : State) (c : Nat) (h : HifCtx) : (setHctx s c h).blq = s.blq := rfl
@[simp] theorem setHctx_lnk (s : State) (c : Nat) (h : HifCtx) : (setHctx s c h).lnk = s.lnk := rfl
@[simp] theorem setHctx_sls (s : State) (c : Nat) (h : HifCtx) : (setHctx s c h).sls = s.sls := rfl
@[simp] theorem setHctx_rex (s : State) (c : Nat) (h : HifCtx) : (setHctx s c h).rex = s.rex := rfl
@[simp] theorem setHctx_tst (s : State) (c : Nat) (h : HifCtx) : (setHctx s c h).tst = s.tst := rfl
@[simp] theorem setHctx_asks (s : State) (c : Nat) (h : HifCtx) : (setHctx s c h).asks = s.asks := rfl
@[simp] theorem reg_setHctx (s : State) (c : Nat) (h : HifCtx) (o : Nat) : reg (setHctx s c h) o = reg s o := rfl
@[simp] theorem regFld_setHctx (s : State) (c : Nat) (h : HifCtx) (o hi lo : Nat) :
    regFld (setHctx s c h) o hi lo = regFld s o hi lo := rfl
@[simp] theorem regBit_setHctx (s : State) (c : Nat) (h : HifCtx) (o j : Nat) :
    regBit (setHctx s c h) o j = regBit s o j := rfl

@[simp] theorem setRing_pending (s : State) (c r : Nat) (x : Ring) : (setRing s c r x).pending = s.pending := rfl
@[simp] theorem setRing_fresh (s : State) (c r : Nat) (x : Ring) : (setRing s c r x).fresh = s.fresh := rfl
@[simp] theorem setRing_regs (s : State) (c r : Nat) (x : Ring) : (setRing s c r x).regs = s.regs := rfl
@[simp] theorem setRing_counts (s : State) (c r : Nat) (x : Ring) : (setRing s c r x).counts = s.counts := rfl
@[simp] theorem setRing_mem (s : State) (c r : Nat) (x : Ring) : (setRing s c r x).mem = s.mem := rfl
@[simp] theorem setRing_host (s : State) (c r : Nat) (x : Ring) : (setRing s c r x).host = s.host := rfl
@[simp] theorem setRing_gtb (s : State) (c r : Nat) (x : Ring) : (setRing s c r x).gtb = s.gtb := rfl
@[simp] theorem setRing_clk (s : State) (c r : Nat) (x : Ring) : (setRing s c r x).clk = s.clk := rfl
@[simp] theorem setRing_saf (s : State) (c r : Nat) (x : Ring) : (setRing s c r x).saf = s.saf := rfl
@[simp] theorem setRing_cau (s : State) (c r : Nat) (x : Ring) : (setRing s c r x).cau = s.cau := rfl
@[simp] theorem setRing_mgc (s : State) (c r : Nat) (x : Ring) : (setRing s c r x).mgc = s.mgc := rfl
@[simp] theorem setRing_tge (s : State) (c r : Nat) (x : Ring) : (setRing s c r x).tge = s.tge := rfl
@[simp] theorem setRing_disp (s : State) (c r : Nat) (x : Ring) : (setRing s c r x).disp = s.disp := rfl
@[simp] theorem setRing_psm (s : State) (c r : Nat) (x : Ring) : (setRing s c r x).psm = s.psm := rfl
@[simp] theorem setRing_pat (s : State) (c r : Nat) (x : Ring) : (setRing s c r x).pat = s.pat := rfl
@[simp] theorem setRing_syn (s : State) (c r : Nat) (x : Ring) : (setRing s c r x).syn = s.syn := rfl
@[simp] theorem setRing_trc (s : State) (c r : Nat) (x : Ring) : (setRing s c r x).trc = s.trc := rfl
@[simp] theorem setRing_chn (s : State) (c r : Nat) (x : Ring) : (setRing s c r x).chn = s.chn := rfl
@[simp] theorem setRing_blq (s : State) (c r : Nat) (x : Ring) : (setRing s c r x).blq = s.blq := rfl
@[simp] theorem setRing_lnk (s : State) (c r : Nat) (x : Ring) : (setRing s c r x).lnk = s.lnk := rfl
@[simp] theorem setRing_sls (s : State) (c r : Nat) (x : Ring) : (setRing s c r x).sls = s.sls := rfl
@[simp] theorem setRing_rex (s : State) (c r : Nat) (x : Ring) : (setRing s c r x).rex = s.rex := rfl
@[simp] theorem setRing_tst (s : State) (c r : Nat) (x : Ring) : (setRing s c r x).tst = s.tst := rfl
@[simp] theorem setRing_asks (s : State) (c r : Nat) (x : Ring) : (setRing s c r x).asks = s.asks := rfl
@[simp] theorem reg_setRing (s : State) (c r : Nat) (x : Ring) (o : Nat) : reg (setRing s c r x) o = reg s o := rfl
@[simp] theorem regFld_setRing (s : State) (c r : Nat) (x : Ring) (o hi lo : Nat) :
    regFld (setRing s c r x) o hi lo = regFld s o hi lo := rfl
@[simp] theorem regBit_setRing (s : State) (c r : Nat) (x : Ring) (o j : Nat) :
    regBit (setRing s c r x) o j = regBit s o j := rfl

@[simp] theorem setSlot_pending (s : State) (k : Nat) (x : KeySlot) : (setSlot s k x).pending = s.pending := rfl
@[simp] theorem setSlot_fresh (s : State) (k : Nat) (x : KeySlot) : (setSlot s k x).fresh = s.fresh := rfl
@[simp] theorem setSlot_regs (s : State) (k : Nat) (x : KeySlot) : (setSlot s k x).regs = s.regs := rfl
@[simp] theorem setSlot_counts (s : State) (k : Nat) (x : KeySlot) : (setSlot s k x).counts = s.counts := rfl
@[simp] theorem setSlot_mem (s : State) (k : Nat) (x : KeySlot) : (setSlot s k x).mem = s.mem := rfl
@[simp] theorem setSlot_host (s : State) (k : Nat) (x : KeySlot) : (setSlot s k x).host = s.host := rfl
@[simp] theorem setSlot_gtb (s : State) (k : Nat) (x : KeySlot) : (setSlot s k x).gtb = s.gtb := rfl
@[simp] theorem setSlot_clk (s : State) (k : Nat) (x : KeySlot) : (setSlot s k x).clk = s.clk := rfl
@[simp] theorem setSlot_hif (s : State) (k : Nat) (x : KeySlot) : (setSlot s k x).hif = s.hif := rfl
@[simp] theorem setSlot_saf (s : State) (k : Nat) (x : KeySlot) : (setSlot s k x).saf = s.saf := rfl
@[simp] theorem setSlot_mgc (s : State) (k : Nat) (x : KeySlot) : (setSlot s k x).mgc = s.mgc := rfl
@[simp] theorem setSlot_tge (s : State) (k : Nat) (x : KeySlot) : (setSlot s k x).tge = s.tge := rfl
@[simp] theorem setSlot_disp (s : State) (k : Nat) (x : KeySlot) : (setSlot s k x).disp = s.disp := rfl
@[simp] theorem setSlot_psm (s : State) (k : Nat) (x : KeySlot) : (setSlot s k x).psm = s.psm := rfl
@[simp] theorem setSlot_pat (s : State) (k : Nat) (x : KeySlot) : (setSlot s k x).pat = s.pat := rfl
@[simp] theorem setSlot_syn (s : State) (k : Nat) (x : KeySlot) : (setSlot s k x).syn = s.syn := rfl
@[simp] theorem setSlot_trc (s : State) (k : Nat) (x : KeySlot) : (setSlot s k x).trc = s.trc := rfl
@[simp] theorem setSlot_chn (s : State) (k : Nat) (x : KeySlot) : (setSlot s k x).chn = s.chn := rfl
@[simp] theorem setSlot_blq (s : State) (k : Nat) (x : KeySlot) : (setSlot s k x).blq = s.blq := rfl
@[simp] theorem setSlot_lnk (s : State) (k : Nat) (x : KeySlot) : (setSlot s k x).lnk = s.lnk := rfl
@[simp] theorem setSlot_sls (s : State) (k : Nat) (x : KeySlot) : (setSlot s k x).sls = s.sls := rfl
@[simp] theorem setSlot_rex (s : State) (k : Nat) (x : KeySlot) : (setSlot s k x).rex = s.rex := rfl
@[simp] theorem setSlot_tst (s : State) (k : Nat) (x : KeySlot) : (setSlot s k x).tst = s.tst := rfl
@[simp] theorem setSlot_asks (s : State) (k : Nat) (x : KeySlot) : (setSlot s k x).asks = s.asks := rfl
@[simp] theorem reg_setSlot (s : State) (k : Nat) (x : KeySlot) (o : Nat) : reg (setSlot s k x) o = reg s o := rfl
@[simp] theorem regFld_setSlot (s : State) (k : Nat) (x : KeySlot) (o hi lo : Nat) :
    regFld (setSlot s k x) o hi lo = regFld s o hi lo := rfl
@[simp] theorem regBit_setSlot (s : State) (k : Nat) (x : KeySlot) (o j : Nat) :
    regBit (setSlot s k x) o j = regBit s o j := rfl

@[simp] theorem setPort_pending (s : State) (p : Nat) (x : Port) : (setPort s p x).pending = s.pending := rfl
@[simp] theorem setPort_fresh (s : State) (p : Nat) (x : Port) : (setPort s p x).fresh = s.fresh := rfl
@[simp] theorem setPort_regs (s : State) (p : Nat) (x : Port) : (setPort s p x).regs = s.regs := rfl
@[simp] theorem setPort_counts (s : State) (p : Nat) (x : Port) : (setPort s p x).counts = s.counts := rfl
@[simp] theorem setPort_mem (s : State) (p : Nat) (x : Port) : (setPort s p x).mem = s.mem := rfl
@[simp] theorem setPort_host (s : State) (p : Nat) (x : Port) : (setPort s p x).host = s.host := rfl
@[simp] theorem setPort_gtb (s : State) (p : Nat) (x : Port) : (setPort s p x).gtb = s.gtb := rfl
@[simp] theorem setPort_clk (s : State) (p : Nat) (x : Port) : (setPort s p x).clk = s.clk := rfl
@[simp] theorem setPort_hif (s : State) (p : Nat) (x : Port) : (setPort s p x).hif = s.hif := rfl
@[simp] theorem setPort_saf (s : State) (p : Nat) (x : Port) : (setPort s p x).saf = s.saf := rfl
@[simp] theorem setPort_cau (s : State) (p : Nat) (x : Port) : (setPort s p x).cau = s.cau := rfl
@[simp] theorem setPort_mgc (s : State) (p : Nat) (x : Port) : (setPort s p x).mgc = s.mgc := rfl
@[simp] theorem setPort_tge (s : State) (p : Nat) (x : Port) : (setPort s p x).tge = s.tge := rfl
@[simp] theorem setPort_disp (s : State) (p : Nat) (x : Port) : (setPort s p x).disp = s.disp := rfl
@[simp] theorem setPort_psm (s : State) (p : Nat) (x : Port) : (setPort s p x).psm = s.psm := rfl
@[simp] theorem setPort_pat (s : State) (p : Nat) (x : Port) : (setPort s p x).pat = s.pat := rfl
@[simp] theorem setPort_syn (s : State) (p : Nat) (x : Port) : (setPort s p x).syn = s.syn := rfl
@[simp] theorem setPort_trc (s : State) (p : Nat) (x : Port) : (setPort s p x).trc = s.trc := rfl
@[simp] theorem setPort_chn (s : State) (p : Nat) (x : Port) : (setPort s p x).chn = s.chn := rfl
@[simp] theorem setPort_blq (s : State) (p : Nat) (x : Port) : (setPort s p x).blq = s.blq := rfl
@[simp] theorem setPort_sls (s : State) (p : Nat) (x : Port) : (setPort s p x).sls = s.sls := rfl
@[simp] theorem setPort_rex (s : State) (p : Nat) (x : Port) : (setPort s p x).rex = s.rex := rfl
@[simp] theorem setPort_tst (s : State) (p : Nat) (x : Port) : (setPort s p x).tst = s.tst := rfl
@[simp] theorem setPort_asks (s : State) (p : Nat) (x : Port) : (setPort s p x).asks = s.asks := rfl
@[simp] theorem reg_setPort (s : State) (p : Nat) (x : Port) (o : Nat) : reg (setPort s p x) o = reg s o := rfl
@[simp] theorem regFld_setPort (s : State) (p : Nat) (x : Port) (o hi lo : Nat) :
    regFld (setPort s p x) o hi lo = regFld s o hi lo := rfl
@[simp] theorem regBit_setPort (s : State) (p : Nat) (x : Port) (o j : Nat) :
    regBit (setPort s p x) o j = regBit s o j := rfl

@[simp] theorem setRun_pending (s : State) (r : Nat) (x : Run) : (setRun s r x).pending = s.pending := rfl
@[simp] theorem setRun_fresh (s : State) (r : Nat) (x : Run) : (setRun s r x).fresh = s.fresh := rfl
@[simp] theorem setRun_regs (s : State) (r : Nat) (x : Run) : (setRun s r x).regs = s.regs := rfl
@[simp] theorem setRun_counts (s : State) (r : Nat) (x : Run) : (setRun s r x).counts = s.counts := rfl
@[simp] theorem setRun_mem (s : State) (r : Nat) (x : Run) : (setRun s r x).mem = s.mem := rfl
@[simp] theorem setRun_host (s : State) (r : Nat) (x : Run) : (setRun s r x).host = s.host := rfl
@[simp] theorem setRun_gtb (s : State) (r : Nat) (x : Run) : (setRun s r x).gtb = s.gtb := rfl
@[simp] theorem setRun_clk (s : State) (r : Nat) (x : Run) : (setRun s r x).clk = s.clk := rfl
@[simp] theorem setRun_hif (s : State) (r : Nat) (x : Run) : (setRun s r x).hif = s.hif := rfl
@[simp] theorem setRun_saf (s : State) (r : Nat) (x : Run) : (setRun s r x).saf = s.saf := rfl
@[simp] theorem setRun_cau (s : State) (r : Nat) (x : Run) : (setRun s r x).cau = s.cau := rfl
@[simp] theorem setRun_mgc (s : State) (r : Nat) (x : Run) : (setRun s r x).mgc = s.mgc := rfl
@[simp] theorem setRun_tge (s : State) (r : Nat) (x : Run) : (setRun s r x).tge = s.tge := rfl
@[simp] theorem setRun_psm (s : State) (r : Nat) (x : Run) : (setRun s r x).psm = s.psm := rfl
@[simp] theorem setRun_pat (s : State) (r : Nat) (x : Run) : (setRun s r x).pat = s.pat := rfl
@[simp] theorem setRun_syn (s : State) (r : Nat) (x : Run) : (setRun s r x).syn = s.syn := rfl
@[simp] theorem setRun_trc (s : State) (r : Nat) (x : Run) : (setRun s r x).trc = s.trc := rfl
@[simp] theorem setRun_chn (s : State) (r : Nat) (x : Run) : (setRun s r x).chn = s.chn := rfl
@[simp] theorem setRun_blq (s : State) (r : Nat) (x : Run) : (setRun s r x).blq = s.blq := rfl
@[simp] theorem setRun_lnk (s : State) (r : Nat) (x : Run) : (setRun s r x).lnk = s.lnk := rfl
@[simp] theorem setRun_sls (s : State) (r : Nat) (x : Run) : (setRun s r x).sls = s.sls := rfl
@[simp] theorem setRun_rex (s : State) (r : Nat) (x : Run) : (setRun s r x).rex = s.rex := rfl
@[simp] theorem setRun_tst (s : State) (r : Nat) (x : Run) : (setRun s r x).tst = s.tst := rfl
@[simp] theorem setRun_asks (s : State) (r : Nat) (x : Run) : (setRun s r x).asks = s.asks := rfl
@[simp] theorem reg_setRun (s : State) (r : Nat) (x : Run) (o : Nat) : reg (setRun s r x) o = reg s o := rfl
@[simp] theorem regFld_setRun (s : State) (r : Nat) (x : Run) (o hi lo : Nat) :
    regFld (setRun s r x) o hi lo = regFld s o hi lo := rfl
@[simp] theorem regBit_setRun (s : State) (r : Nat) (x : Run) (o j : Nat) :
    regBit (setRun s r x) o j = regBit s o j := rfl

@[simp] theorem setField_pending (s : State) (f : Nat) (x : Field) : (setField s f x).pending = s.pending := rfl
@[simp] theorem setField_fresh (s : State) (f : Nat) (x : Field) : (setField s f x).fresh = s.fresh := rfl
@[simp] theorem setField_regs (s : State) (f : Nat) (x : Field) : (setField s f x).regs = s.regs := rfl
@[simp] theorem setField_counts (s : State) (f : Nat) (x : Field) : (setField s f x).counts = s.counts := rfl
@[simp] theorem setField_mem (s : State) (f : Nat) (x : Field) : (setField s f x).mem = s.mem := rfl
@[simp] theorem setField_host (s : State) (f : Nat) (x : Field) : (setField s f x).host = s.host := rfl
@[simp] theorem setField_gtb (s : State) (f : Nat) (x : Field) : (setField s f x).gtb = s.gtb := rfl
@[simp] theorem setField_clk (s : State) (f : Nat) (x : Field) : (setField s f x).clk = s.clk := rfl
@[simp] theorem setField_hif (s : State) (f : Nat) (x : Field) : (setField s f x).hif = s.hif := rfl
@[simp] theorem setField_saf (s : State) (f : Nat) (x : Field) : (setField s f x).saf = s.saf := rfl
@[simp] theorem setField_cau (s : State) (f : Nat) (x : Field) : (setField s f x).cau = s.cau := rfl
@[simp] theorem setField_mgc (s : State) (f : Nat) (x : Field) : (setField s f x).mgc = s.mgc := rfl
@[simp] theorem setField_tge (s : State) (f : Nat) (x : Field) : (setField s f x).tge = s.tge := rfl
@[simp] theorem setField_psm (s : State) (f : Nat) (x : Field) : (setField s f x).psm = s.psm := rfl
@[simp] theorem setField_pat (s : State) (f : Nat) (x : Field) : (setField s f x).pat = s.pat := rfl
@[simp] theorem setField_syn (s : State) (f : Nat) (x : Field) : (setField s f x).syn = s.syn := rfl
@[simp] theorem setField_trc (s : State) (f : Nat) (x : Field) : (setField s f x).trc = s.trc := rfl
@[simp] theorem setField_chn (s : State) (f : Nat) (x : Field) : (setField s f x).chn = s.chn := rfl
@[simp] theorem setField_blq (s : State) (f : Nat) (x : Field) : (setField s f x).blq = s.blq := rfl
@[simp] theorem setField_lnk (s : State) (f : Nat) (x : Field) : (setField s f x).lnk = s.lnk := rfl
@[simp] theorem setField_sls (s : State) (f : Nat) (x : Field) : (setField s f x).sls = s.sls := rfl
@[simp] theorem setField_rex (s : State) (f : Nat) (x : Field) : (setField s f x).rex = s.rex := rfl
@[simp] theorem setField_tst (s : State) (f : Nat) (x : Field) : (setField s f x).tst = s.tst := rfl
@[simp] theorem setField_asks (s : State) (f : Nat) (x : Field) : (setField s f x).asks = s.asks := rfl
@[simp] theorem reg_setField (s : State) (f : Nat) (x : Field) (o : Nat) : reg (setField s f x) o = reg s o := rfl
@[simp] theorem regFld_setField (s : State) (f : Nat) (x : Field) (o hi lo : Nat) :
    regFld (setField s f x) o hi lo = regFld s o hi lo := rfl
@[simp] theorem regBit_setField (s : State) (f : Nat) (x : Field) (o j : Nat) :
    regBit (setField s f x) o j = regBit s o j := rfl

@[simp] theorem setCore_pending (s : State) (n : Nat) (x : CoreSt) : (setCore s n x).pending = s.pending := rfl
@[simp] theorem setCore_fresh (s : State) (n : Nat) (x : CoreSt) : (setCore s n x).fresh = s.fresh := rfl
@[simp] theorem setCore_regs (s : State) (n : Nat) (x : CoreSt) : (setCore s n x).regs = s.regs := rfl
@[simp] theorem setCore_counts (s : State) (n : Nat) (x : CoreSt) : (setCore s n x).counts = s.counts := rfl
@[simp] theorem setCore_mem (s : State) (n : Nat) (x : CoreSt) : (setCore s n x).mem = s.mem := rfl
@[simp] theorem setCore_host (s : State) (n : Nat) (x : CoreSt) : (setCore s n x).host = s.host := rfl
@[simp] theorem setCore_gtb (s : State) (n : Nat) (x : CoreSt) : (setCore s n x).gtb = s.gtb := rfl
@[simp] theorem setCore_clk (s : State) (n : Nat) (x : CoreSt) : (setCore s n x).clk = s.clk := rfl
@[simp] theorem setCore_hif (s : State) (n : Nat) (x : CoreSt) : (setCore s n x).hif = s.hif := rfl
@[simp] theorem setCore_saf (s : State) (n : Nat) (x : CoreSt) : (setCore s n x).saf = s.saf := rfl
@[simp] theorem setCore_cau (s : State) (n : Nat) (x : CoreSt) : (setCore s n x).cau = s.cau := rfl
@[simp] theorem setCore_mgc (s : State) (n : Nat) (x : CoreSt) : (setCore s n x).mgc = s.mgc := rfl
@[simp] theorem setCore_tge (s : State) (n : Nat) (x : CoreSt) : (setCore s n x).tge = s.tge := rfl
@[simp] theorem setCore_psm (s : State) (n : Nat) (x : CoreSt) : (setCore s n x).psm = s.psm := rfl
@[simp] theorem setCore_pat (s : State) (n : Nat) (x : CoreSt) : (setCore s n x).pat = s.pat := rfl
@[simp] theorem setCore_syn (s : State) (n : Nat) (x : CoreSt) : (setCore s n x).syn = s.syn := rfl
@[simp] theorem setCore_trc (s : State) (n : Nat) (x : CoreSt) : (setCore s n x).trc = s.trc := rfl
@[simp] theorem setCore_chn (s : State) (n : Nat) (x : CoreSt) : (setCore s n x).chn = s.chn := rfl
@[simp] theorem setCore_blq (s : State) (n : Nat) (x : CoreSt) : (setCore s n x).blq = s.blq := rfl
@[simp] theorem setCore_lnk (s : State) (n : Nat) (x : CoreSt) : (setCore s n x).lnk = s.lnk := rfl
@[simp] theorem setCore_sls (s : State) (n : Nat) (x : CoreSt) : (setCore s n x).sls = s.sls := rfl
@[simp] theorem setCore_rex (s : State) (n : Nat) (x : CoreSt) : (setCore s n x).rex = s.rex := rfl
@[simp] theorem setCore_tst (s : State) (n : Nat) (x : CoreSt) : (setCore s n x).tst = s.tst := rfl
@[simp] theorem setCore_asks (s : State) (n : Nat) (x : CoreSt) : (setCore s n x).asks = s.asks := rfl
@[simp] theorem reg_setCore (s : State) (n : Nat) (x : CoreSt) (o : Nat) : reg (setCore s n x) o = reg s o := rfl
@[simp] theorem regFld_setCore (s : State) (n : Nat) (x : CoreSt) (o hi lo : Nat) :
    regFld (setCore s n x) o hi lo = regFld s o hi lo := rfl
@[simp] theorem regBit_setCore (s : State) (n : Nat) (x : CoreSt) (o j : Nat) :
    regBit (setCore s n x) o j = regBit s o j := rfl

@[simp] theorem setObj_pending (s : State) (k : Nat) (x : SynObj) : (setObj s k x).pending = s.pending := rfl
@[simp] theorem setObj_fresh (s : State) (k : Nat) (x : SynObj) : (setObj s k x).fresh = s.fresh := rfl
@[simp] theorem setObj_regs (s : State) (k : Nat) (x : SynObj) : (setObj s k x).regs = s.regs := rfl
@[simp] theorem setObj_counts (s : State) (k : Nat) (x : SynObj) : (setObj s k x).counts = s.counts := rfl
@[simp] theorem setObj_mem (s : State) (k : Nat) (x : SynObj) : (setObj s k x).mem = s.mem := rfl
@[simp] theorem setObj_host (s : State) (k : Nat) (x : SynObj) : (setObj s k x).host = s.host := rfl
@[simp] theorem setObj_gtb (s : State) (k : Nat) (x : SynObj) : (setObj s k x).gtb = s.gtb := rfl
@[simp] theorem setObj_clk (s : State) (k : Nat) (x : SynObj) : (setObj s k x).clk = s.clk := rfl
@[simp] theorem setObj_hif (s : State) (k : Nat) (x : SynObj) : (setObj s k x).hif = s.hif := rfl
@[simp] theorem setObj_saf (s : State) (k : Nat) (x : SynObj) : (setObj s k x).saf = s.saf := rfl
@[simp] theorem setObj_cau (s : State) (k : Nat) (x : SynObj) : (setObj s k x).cau = s.cau := rfl
@[simp] theorem setObj_mgc (s : State) (k : Nat) (x : SynObj) : (setObj s k x).mgc = s.mgc := rfl
@[simp] theorem setObj_tge (s : State) (k : Nat) (x : SynObj) : (setObj s k x).tge = s.tge := rfl
@[simp] theorem setObj_disp (s : State) (k : Nat) (x : SynObj) : (setObj s k x).disp = s.disp := rfl
@[simp] theorem setObj_psm (s : State) (k : Nat) (x : SynObj) : (setObj s k x).psm = s.psm := rfl
@[simp] theorem setObj_pat (s : State) (k : Nat) (x : SynObj) : (setObj s k x).pat = s.pat := rfl
@[simp] theorem setObj_trc (s : State) (k : Nat) (x : SynObj) : (setObj s k x).trc = s.trc := rfl
@[simp] theorem setObj_chn (s : State) (k : Nat) (x : SynObj) : (setObj s k x).chn = s.chn := rfl
@[simp] theorem setObj_blq (s : State) (k : Nat) (x : SynObj) : (setObj s k x).blq = s.blq := rfl
@[simp] theorem setObj_lnk (s : State) (k : Nat) (x : SynObj) : (setObj s k x).lnk = s.lnk := rfl
@[simp] theorem setObj_sls (s : State) (k : Nat) (x : SynObj) : (setObj s k x).sls = s.sls := rfl
@[simp] theorem setObj_rex (s : State) (k : Nat) (x : SynObj) : (setObj s k x).rex = s.rex := rfl
@[simp] theorem setObj_tst (s : State) (k : Nat) (x : SynObj) : (setObj s k x).tst = s.tst := rfl
@[simp] theorem setObj_asks (s : State) (k : Nat) (x : SynObj) : (setObj s k x).asks = s.asks := rfl
@[simp] theorem reg_setObj (s : State) (k : Nat) (x : SynObj) (o : Nat) : reg (setObj s k x) o = reg s o := rfl
@[simp] theorem regFld_setObj (s : State) (k : Nat) (x : SynObj) (o hi lo : Nat) :
    regFld (setObj s k x) o hi lo = regFld s o hi lo := rfl
@[simp] theorem regBit_setObj (s : State) (k : Nat) (x : SynObj) (o j : Nat) :
    regBit (setObj s k x) o j = regBit s o j := rfl

@[simp] theorem setChan_pending (s : State) (k : Nat) (x : Chan) : (setChan s k x).pending = s.pending := rfl
@[simp] theorem setChan_fresh (s : State) (k : Nat) (x : Chan) : (setChan s k x).fresh = s.fresh := rfl
@[simp] theorem setChan_regs (s : State) (k : Nat) (x : Chan) : (setChan s k x).regs = s.regs := rfl
@[simp] theorem setChan_counts (s : State) (k : Nat) (x : Chan) : (setChan s k x).counts = s.counts := rfl
@[simp] theorem setChan_mem (s : State) (k : Nat) (x : Chan) : (setChan s k x).mem = s.mem := rfl
@[simp] theorem setChan_host (s : State) (k : Nat) (x : Chan) : (setChan s k x).host = s.host := rfl
@[simp] theorem setChan_gtb (s : State) (k : Nat) (x : Chan) : (setChan s k x).gtb = s.gtb := rfl
@[simp] theorem setChan_clk (s : State) (k : Nat) (x : Chan) : (setChan s k x).clk = s.clk := rfl
@[simp] theorem setChan_hif (s : State) (k : Nat) (x : Chan) : (setChan s k x).hif = s.hif := rfl
@[simp] theorem setChan_saf (s : State) (k : Nat) (x : Chan) : (setChan s k x).saf = s.saf := rfl
@[simp] theorem setChan_cau (s : State) (k : Nat) (x : Chan) : (setChan s k x).cau = s.cau := rfl
@[simp] theorem setChan_mgc (s : State) (k : Nat) (x : Chan) : (setChan s k x).mgc = s.mgc := rfl
@[simp] theorem setChan_tge (s : State) (k : Nat) (x : Chan) : (setChan s k x).tge = s.tge := rfl
@[simp] theorem setChan_disp (s : State) (k : Nat) (x : Chan) : (setChan s k x).disp = s.disp := rfl
@[simp] theorem setChan_psm (s : State) (k : Nat) (x : Chan) : (setChan s k x).psm = s.psm := rfl
@[simp] theorem setChan_pat (s : State) (k : Nat) (x : Chan) : (setChan s k x).pat = s.pat := rfl
@[simp] theorem setChan_syn (s : State) (k : Nat) (x : Chan) : (setChan s k x).syn = s.syn := rfl
@[simp] theorem setChan_trc (s : State) (k : Nat) (x : Chan) : (setChan s k x).trc = s.trc := rfl
@[simp] theorem setChan_blq (s : State) (k : Nat) (x : Chan) : (setChan s k x).blq = s.blq := rfl
@[simp] theorem setChan_lnk (s : State) (k : Nat) (x : Chan) : (setChan s k x).lnk = s.lnk := rfl
@[simp] theorem setChan_sls (s : State) (k : Nat) (x : Chan) : (setChan s k x).sls = s.sls := rfl
@[simp] theorem setChan_rex (s : State) (k : Nat) (x : Chan) : (setChan s k x).rex = s.rex := rfl
@[simp] theorem setChan_tst (s : State) (k : Nat) (x : Chan) : (setChan s k x).tst = s.tst := rfl
@[simp] theorem setChan_asks (s : State) (k : Nat) (x : Chan) : (setChan s k x).asks = s.asks := rfl
@[simp] theorem reg_setChan (s : State) (k : Nat) (x : Chan) (o : Nat) : reg (setChan s k x) o = reg s o := rfl
@[simp] theorem regFld_setChan (s : State) (k : Nat) (x : Chan) (o hi lo : Nat) :
    regFld (setChan s k x) o hi lo = regFld s o hi lo := rfl
@[simp] theorem regBit_setChan (s : State) (k : Nat) (x : Chan) (o j : Nat) :
    regBit (setChan s k x) o j = regBit s o j := rfl

@[simp] theorem setBq_pending (s : State) (k : Nat) (x : BlendQ) : (setBq s k x).pending = s.pending := rfl
@[simp] theorem setBq_fresh (s : State) (k : Nat) (x : BlendQ) : (setBq s k x).fresh = s.fresh := rfl
@[simp] theorem setBq_regs (s : State) (k : Nat) (x : BlendQ) : (setBq s k x).regs = s.regs := rfl
@[simp] theorem setBq_counts (s : State) (k : Nat) (x : BlendQ) : (setBq s k x).counts = s.counts := rfl
@[simp] theorem setBq_mem (s : State) (k : Nat) (x : BlendQ) : (setBq s k x).mem = s.mem := rfl
@[simp] theorem setBq_host (s : State) (k : Nat) (x : BlendQ) : (setBq s k x).host = s.host := rfl
@[simp] theorem setBq_gtb (s : State) (k : Nat) (x : BlendQ) : (setBq s k x).gtb = s.gtb := rfl
@[simp] theorem setBq_clk (s : State) (k : Nat) (x : BlendQ) : (setBq s k x).clk = s.clk := rfl
@[simp] theorem setBq_hif (s : State) (k : Nat) (x : BlendQ) : (setBq s k x).hif = s.hif := rfl
@[simp] theorem setBq_saf (s : State) (k : Nat) (x : BlendQ) : (setBq s k x).saf = s.saf := rfl
@[simp] theorem setBq_cau (s : State) (k : Nat) (x : BlendQ) : (setBq s k x).cau = s.cau := rfl
@[simp] theorem setBq_mgc (s : State) (k : Nat) (x : BlendQ) : (setBq s k x).mgc = s.mgc := rfl
@[simp] theorem setBq_tge (s : State) (k : Nat) (x : BlendQ) : (setBq s k x).tge = s.tge := rfl
@[simp] theorem setBq_disp (s : State) (k : Nat) (x : BlendQ) : (setBq s k x).disp = s.disp := rfl
@[simp] theorem setBq_psm (s : State) (k : Nat) (x : BlendQ) : (setBq s k x).psm = s.psm := rfl
@[simp] theorem setBq_pat (s : State) (k : Nat) (x : BlendQ) : (setBq s k x).pat = s.pat := rfl
@[simp] theorem setBq_syn (s : State) (k : Nat) (x : BlendQ) : (setBq s k x).syn = s.syn := rfl
@[simp] theorem setBq_trc (s : State) (k : Nat) (x : BlendQ) : (setBq s k x).trc = s.trc := rfl
@[simp] theorem setBq_chn (s : State) (k : Nat) (x : BlendQ) : (setBq s k x).chn = s.chn := rfl
@[simp] theorem setBq_lnk (s : State) (k : Nat) (x : BlendQ) : (setBq s k x).lnk = s.lnk := rfl
@[simp] theorem setBq_sls (s : State) (k : Nat) (x : BlendQ) : (setBq s k x).sls = s.sls := rfl
@[simp] theorem setBq_rex (s : State) (k : Nat) (x : BlendQ) : (setBq s k x).rex = s.rex := rfl
@[simp] theorem setBq_tst (s : State) (k : Nat) (x : BlendQ) : (setBq s k x).tst = s.tst := rfl
@[simp] theorem setBq_asks (s : State) (k : Nat) (x : BlendQ) : (setBq s k x).asks = s.asks := rfl
@[simp] theorem reg_setBq (s : State) (k : Nat) (x : BlendQ) (o : Nat) : reg (setBq s k x) o = reg s o := rfl
@[simp] theorem regFld_setBq (s : State) (k : Nat) (x : BlendQ) (o hi lo : Nat) :
    regFld (setBq s k x) o hi lo = regFld s o hi lo := rfl
@[simp] theorem regBit_setBq (s : State) (k : Nat) (x : BlendQ) (o j : Nat) :
    regBit (setBq s k x) o j = regBit s o j := rfl

@[simp] theorem setSrv_pending (s : State) (v : Nat) (x : Serve) : (setSrv s v x).pending = s.pending := rfl
@[simp] theorem setSrv_fresh (s : State) (v : Nat) (x : Serve) : (setSrv s v x).fresh = s.fresh := rfl
@[simp] theorem setSrv_regs (s : State) (v : Nat) (x : Serve) : (setSrv s v x).regs = s.regs := rfl
@[simp] theorem setSrv_counts (s : State) (v : Nat) (x : Serve) : (setSrv s v x).counts = s.counts := rfl
@[simp] theorem setSrv_mem (s : State) (v : Nat) (x : Serve) : (setSrv s v x).mem = s.mem := rfl
@[simp] theorem setSrv_host (s : State) (v : Nat) (x : Serve) : (setSrv s v x).host = s.host := rfl
@[simp] theorem setSrv_gtb (s : State) (v : Nat) (x : Serve) : (setSrv s v x).gtb = s.gtb := rfl
@[simp] theorem setSrv_clk (s : State) (v : Nat) (x : Serve) : (setSrv s v x).clk = s.clk := rfl
@[simp] theorem setSrv_hif (s : State) (v : Nat) (x : Serve) : (setSrv s v x).hif = s.hif := rfl
@[simp] theorem setSrv_saf (s : State) (v : Nat) (x : Serve) : (setSrv s v x).saf = s.saf := rfl
@[simp] theorem setSrv_cau (s : State) (v : Nat) (x : Serve) : (setSrv s v x).cau = s.cau := rfl
@[simp] theorem setSrv_mgc (s : State) (v : Nat) (x : Serve) : (setSrv s v x).mgc = s.mgc := rfl
@[simp] theorem setSrv_tge (s : State) (v : Nat) (x : Serve) : (setSrv s v x).tge = s.tge := rfl
@[simp] theorem setSrv_disp (s : State) (v : Nat) (x : Serve) : (setSrv s v x).disp = s.disp := rfl
@[simp] theorem setSrv_psm (s : State) (v : Nat) (x : Serve) : (setSrv s v x).psm = s.psm := rfl
@[simp] theorem setSrv_pat (s : State) (v : Nat) (x : Serve) : (setSrv s v x).pat = s.pat := rfl
@[simp] theorem setSrv_syn (s : State) (v : Nat) (x : Serve) : (setSrv s v x).syn = s.syn := rfl
@[simp] theorem setSrv_trc (s : State) (v : Nat) (x : Serve) : (setSrv s v x).trc = s.trc := rfl
@[simp] theorem setSrv_chn (s : State) (v : Nat) (x : Serve) : (setSrv s v x).chn = s.chn := rfl
@[simp] theorem setSrv_blq (s : State) (v : Nat) (x : Serve) : (setSrv s v x).blq = s.blq := rfl
@[simp] theorem setSrv_lnk (s : State) (v : Nat) (x : Serve) : (setSrv s v x).lnk = s.lnk := rfl
@[simp] theorem setSrv_rex (s : State) (v : Nat) (x : Serve) : (setSrv s v x).rex = s.rex := rfl
@[simp] theorem setSrv_tst (s : State) (v : Nat) (x : Serve) : (setSrv s v x).tst = s.tst := rfl
@[simp] theorem setSrv_asks (s : State) (v : Nat) (x : Serve) : (setSrv s v x).asks = s.asks := rfl
@[simp] theorem reg_setSrv (s : State) (v : Nat) (x : Serve) (o : Nat) : reg (setSrv s v x) o = reg s o := rfl
@[simp] theorem regFld_setSrv (s : State) (v : Nat) (x : Serve) (o hi lo : Nat) :
    regFld (setSrv s v x) o hi lo = regFld s o hi lo := rfl
@[simp] theorem regBit_setSrv (s : State) (v : Nat) (x : Serve) (o j : Nat) :
    regBit (setSrv s v x) o j = regBit s o j := rfl

@[simp] theorem setUnit_pending (s : State) (u : Nat) (x : RexUnit) : (setUnit s u x).pending = s.pending := rfl
@[simp] theorem setUnit_fresh (s : State) (u : Nat) (x : RexUnit) : (setUnit s u x).fresh = s.fresh := rfl
@[simp] theorem setUnit_regs (s : State) (u : Nat) (x : RexUnit) : (setUnit s u x).regs = s.regs := rfl
@[simp] theorem setUnit_counts (s : State) (u : Nat) (x : RexUnit) : (setUnit s u x).counts = s.counts := rfl
@[simp] theorem setUnit_mem (s : State) (u : Nat) (x : RexUnit) : (setUnit s u x).mem = s.mem := rfl
@[simp] theorem setUnit_host (s : State) (u : Nat) (x : RexUnit) : (setUnit s u x).host = s.host := rfl
@[simp] theorem setUnit_gtb (s : State) (u : Nat) (x : RexUnit) : (setUnit s u x).gtb = s.gtb := rfl
@[simp] theorem setUnit_clk (s : State) (u : Nat) (x : RexUnit) : (setUnit s u x).clk = s.clk := rfl
@[simp] theorem setUnit_hif (s : State) (u : Nat) (x : RexUnit) : (setUnit s u x).hif = s.hif := rfl
@[simp] theorem setUnit_saf (s : State) (u : Nat) (x : RexUnit) : (setUnit s u x).saf = s.saf := rfl
@[simp] theorem setUnit_cau (s : State) (u : Nat) (x : RexUnit) : (setUnit s u x).cau = s.cau := rfl
@[simp] theorem setUnit_mgc (s : State) (u : Nat) (x : RexUnit) : (setUnit s u x).mgc = s.mgc := rfl
@[simp] theorem setUnit_tge (s : State) (u : Nat) (x : RexUnit) : (setUnit s u x).tge = s.tge := rfl
@[simp] theorem setUnit_disp (s : State) (u : Nat) (x : RexUnit) : (setUnit s u x).disp = s.disp := rfl
@[simp] theorem setUnit_psm (s : State) (u : Nat) (x : RexUnit) : (setUnit s u x).psm = s.psm := rfl
@[simp] theorem setUnit_pat (s : State) (u : Nat) (x : RexUnit) : (setUnit s u x).pat = s.pat := rfl
@[simp] theorem setUnit_syn (s : State) (u : Nat) (x : RexUnit) : (setUnit s u x).syn = s.syn := rfl
@[simp] theorem setUnit_trc (s : State) (u : Nat) (x : RexUnit) : (setUnit s u x).trc = s.trc := rfl
@[simp] theorem setUnit_chn (s : State) (u : Nat) (x : RexUnit) : (setUnit s u x).chn = s.chn := rfl
@[simp] theorem setUnit_blq (s : State) (u : Nat) (x : RexUnit) : (setUnit s u x).blq = s.blq := rfl
@[simp] theorem setUnit_lnk (s : State) (u : Nat) (x : RexUnit) : (setUnit s u x).lnk = s.lnk := rfl
@[simp] theorem setUnit_sls (s : State) (u : Nat) (x : RexUnit) : (setUnit s u x).sls = s.sls := rfl
@[simp] theorem setUnit_tst (s : State) (u : Nat) (x : RexUnit) : (setUnit s u x).tst = s.tst := rfl
@[simp] theorem setUnit_asks (s : State) (u : Nat) (x : RexUnit) : (setUnit s u x).asks = s.asks := rfl
@[simp] theorem reg_setUnit (s : State) (u : Nat) (x : RexUnit) (o : Nat) : reg (setUnit s u x) o = reg s o := rfl
@[simp] theorem regFld_setUnit (s : State) (u : Nat) (x : RexUnit) (o hi lo : Nat) :
    regFld (setUnit s u x) o hi lo = regFld s o hi lo := rfl
@[simp] theorem regBit_setUnit (s : State) (u : Nat) (x : RexUnit) (o j : Nat) :
    regBit (setUnit s u x) o j = regBit s o j := rfl

@[simp] theorem setRimg_pending (s : State) (c i : Nat) (x : RexImg) : (setRimg s c i x).pending = s.pending := rfl
@[simp] theorem setRimg_fresh (s : State) (c i : Nat) (x : RexImg) : (setRimg s c i x).fresh = s.fresh := rfl
@[simp] theorem setRimg_regs (s : State) (c i : Nat) (x : RexImg) : (setRimg s c i x).regs = s.regs := rfl
@[simp] theorem setRimg_counts (s : State) (c i : Nat) (x : RexImg) : (setRimg s c i x).counts = s.counts := rfl
@[simp] theorem setRimg_mem (s : State) (c i : Nat) (x : RexImg) : (setRimg s c i x).mem = s.mem := rfl
@[simp] theorem setRimg_host (s : State) (c i : Nat) (x : RexImg) : (setRimg s c i x).host = s.host := rfl
@[simp] theorem setRimg_gtb (s : State) (c i : Nat) (x : RexImg) : (setRimg s c i x).gtb = s.gtb := rfl
@[simp] theorem setRimg_clk (s : State) (c i : Nat) (x : RexImg) : (setRimg s c i x).clk = s.clk := rfl
@[simp] theorem setRimg_hif (s : State) (c i : Nat) (x : RexImg) : (setRimg s c i x).hif = s.hif := rfl
@[simp] theorem setRimg_saf (s : State) (c i : Nat) (x : RexImg) : (setRimg s c i x).saf = s.saf := rfl
@[simp] theorem setRimg_cau (s : State) (c i : Nat) (x : RexImg) : (setRimg s c i x).cau = s.cau := rfl
@[simp] theorem setRimg_mgc (s : State) (c i : Nat) (x : RexImg) : (setRimg s c i x).mgc = s.mgc := rfl
@[simp] theorem setRimg_tge (s : State) (c i : Nat) (x : RexImg) : (setRimg s c i x).tge = s.tge := rfl
@[simp] theorem setRimg_disp (s : State) (c i : Nat) (x : RexImg) : (setRimg s c i x).disp = s.disp := rfl
@[simp] theorem setRimg_psm (s : State) (c i : Nat) (x : RexImg) : (setRimg s c i x).psm = s.psm := rfl
@[simp] theorem setRimg_pat (s : State) (c i : Nat) (x : RexImg) : (setRimg s c i x).pat = s.pat := rfl
@[simp] theorem setRimg_syn (s : State) (c i : Nat) (x : RexImg) : (setRimg s c i x).syn = s.syn := rfl
@[simp] theorem setRimg_trc (s : State) (c i : Nat) (x : RexImg) : (setRimg s c i x).trc = s.trc := rfl
@[simp] theorem setRimg_chn (s : State) (c i : Nat) (x : RexImg) : (setRimg s c i x).chn = s.chn := rfl
@[simp] theorem setRimg_blq (s : State) (c i : Nat) (x : RexImg) : (setRimg s c i x).blq = s.blq := rfl
@[simp] theorem setRimg_lnk (s : State) (c i : Nat) (x : RexImg) : (setRimg s c i x).lnk = s.lnk := rfl
@[simp] theorem setRimg_sls (s : State) (c i : Nat) (x : RexImg) : (setRimg s c i x).sls = s.sls := rfl
@[simp] theorem setRimg_tst (s : State) (c i : Nat) (x : RexImg) : (setRimg s c i x).tst = s.tst := rfl
@[simp] theorem setRimg_asks (s : State) (c i : Nat) (x : RexImg) : (setRimg s c i x).asks = s.asks := rfl
@[simp] theorem reg_setRimg (s : State) (c i : Nat) (x : RexImg) (o : Nat) : reg (setRimg s c i x) o = reg s o := rfl
@[simp] theorem regFld_setRimg (s : State) (c i : Nat) (x : RexImg) (o hi lo : Nat) :
    regFld (setRimg s c i x) o hi lo = regFld s o hi lo := rfl
@[simp] theorem regBit_setRimg (s : State) (c i : Nat) (x : RexImg) (o j : Nat) :
    regBit (setRimg s c i x) o j = regBit s o j := rfl

@[simp] theorem setImg_pending (s : State) (i : Nat) (x : Img) : (setImg s i x).pending = s.pending := rfl
@[simp] theorem setImg_fresh (s : State) (i : Nat) (x : Img) : (setImg s i x).fresh = s.fresh := rfl
@[simp] theorem setImg_regs (s : State) (i : Nat) (x : Img) : (setImg s i x).regs = s.regs := rfl
@[simp] theorem setImg_counts (s : State) (i : Nat) (x : Img) : (setImg s i x).counts = s.counts := rfl
@[simp] theorem setImg_mem (s : State) (i : Nat) (x : Img) : (setImg s i x).mem = s.mem := rfl
@[simp] theorem setImg_host (s : State) (i : Nat) (x : Img) : (setImg s i x).host = s.host := rfl
@[simp] theorem setImg_gtb (s : State) (i : Nat) (x : Img) : (setImg s i x).gtb = s.gtb := rfl
@[simp] theorem setImg_clk (s : State) (i : Nat) (x : Img) : (setImg s i x).clk = s.clk := rfl
@[simp] theorem setImg_hif (s : State) (i : Nat) (x : Img) : (setImg s i x).hif = s.hif := rfl
@[simp] theorem setImg_saf (s : State) (i : Nat) (x : Img) : (setImg s i x).saf = s.saf := rfl
@[simp] theorem setImg_cau (s : State) (i : Nat) (x : Img) : (setImg s i x).cau = s.cau := rfl
@[simp] theorem setImg_mgc (s : State) (i : Nat) (x : Img) : (setImg s i x).mgc = s.mgc := rfl
@[simp] theorem setImg_disp (s : State) (i : Nat) (x : Img) : (setImg s i x).disp = s.disp := rfl
@[simp] theorem setImg_psm (s : State) (i : Nat) (x : Img) : (setImg s i x).psm = s.psm := rfl
@[simp] theorem setImg_pat (s : State) (i : Nat) (x : Img) : (setImg s i x).pat = s.pat := rfl
@[simp] theorem setImg_syn (s : State) (i : Nat) (x : Img) : (setImg s i x).syn = s.syn := rfl
@[simp] theorem setImg_trc (s : State) (i : Nat) (x : Img) : (setImg s i x).trc = s.trc := rfl
@[simp] theorem setImg_chn (s : State) (i : Nat) (x : Img) : (setImg s i x).chn = s.chn := rfl
@[simp] theorem setImg_blq (s : State) (i : Nat) (x : Img) : (setImg s i x).blq = s.blq := rfl
@[simp] theorem setImg_lnk (s : State) (i : Nat) (x : Img) : (setImg s i x).lnk = s.lnk := rfl
@[simp] theorem setImg_sls (s : State) (i : Nat) (x : Img) : (setImg s i x).sls = s.sls := rfl
@[simp] theorem setImg_rex (s : State) (i : Nat) (x : Img) : (setImg s i x).rex = s.rex := rfl
@[simp] theorem setImg_tst (s : State) (i : Nat) (x : Img) : (setImg s i x).tst = s.tst := rfl
@[simp] theorem setImg_asks (s : State) (i : Nat) (x : Img) : (setImg s i x).asks = s.asks := rfl
@[simp] theorem reg_setImg (s : State) (i : Nat) (x : Img) (o : Nat) : reg (setImg s i x) o = reg s o := rfl
@[simp] theorem regFld_setImg (s : State) (i : Nat) (x : Img) (o hi lo : Nat) :
    regFld (setImg s i x) o hi lo = regFld s o hi lo := rfl
@[simp] theorem regBit_setImg (s : State) (i : Nat) (x : Img) (o j : Nat) :
    regBit (setImg s i x) o j = regBit s o j := rfl

@[simp] theorem setStep_pending (s : State) (i : Nat) (x : Step) : (setStep s i x).pending = s.pending := rfl
@[simp] theorem setStep_fresh (s : State) (i : Nat) (x : Step) : (setStep s i x).fresh = s.fresh := rfl
@[simp] theorem setStep_regs (s : State) (i : Nat) (x : Step) : (setStep s i x).regs = s.regs := rfl
@[simp] theorem setStep_counts (s : State) (i : Nat) (x : Step) : (setStep s i x).counts = s.counts := rfl
@[simp] theorem setStep_mem (s : State) (i : Nat) (x : Step) : (setStep s i x).mem = s.mem := rfl
@[simp] theorem setStep_host (s : State) (i : Nat) (x : Step) : (setStep s i x).host = s.host := rfl
@[simp] theorem setStep_gtb (s : State) (i : Nat) (x : Step) : (setStep s i x).gtb = s.gtb := rfl
@[simp] theorem setStep_clk (s : State) (i : Nat) (x : Step) : (setStep s i x).clk = s.clk := rfl
@[simp] theorem setStep_hif (s : State) (i : Nat) (x : Step) : (setStep s i x).hif = s.hif := rfl
@[simp] theorem setStep_saf (s : State) (i : Nat) (x : Step) : (setStep s i x).saf = s.saf := rfl
@[simp] theorem setStep_cau (s : State) (i : Nat) (x : Step) : (setStep s i x).cau = s.cau := rfl
@[simp] theorem setStep_mgc (s : State) (i : Nat) (x : Step) : (setStep s i x).mgc = s.mgc := rfl
@[simp] theorem setStep_disp (s : State) (i : Nat) (x : Step) : (setStep s i x).disp = s.disp := rfl
@[simp] theorem setStep_psm (s : State) (i : Nat) (x : Step) : (setStep s i x).psm = s.psm := rfl
@[simp] theorem setStep_pat (s : State) (i : Nat) (x : Step) : (setStep s i x).pat = s.pat := rfl
@[simp] theorem setStep_syn (s : State) (i : Nat) (x : Step) : (setStep s i x).syn = s.syn := rfl
@[simp] theorem setStep_trc (s : State) (i : Nat) (x : Step) : (setStep s i x).trc = s.trc := rfl
@[simp] theorem setStep_chn (s : State) (i : Nat) (x : Step) : (setStep s i x).chn = s.chn := rfl
@[simp] theorem setStep_blq (s : State) (i : Nat) (x : Step) : (setStep s i x).blq = s.blq := rfl
@[simp] theorem setStep_lnk (s : State) (i : Nat) (x : Step) : (setStep s i x).lnk = s.lnk := rfl
@[simp] theorem setStep_sls (s : State) (i : Nat) (x : Step) : (setStep s i x).sls = s.sls := rfl
@[simp] theorem setStep_rex (s : State) (i : Nat) (x : Step) : (setStep s i x).rex = s.rex := rfl
@[simp] theorem setStep_tst (s : State) (i : Nat) (x : Step) : (setStep s i x).tst = s.tst := rfl
@[simp] theorem setStep_asks (s : State) (i : Nat) (x : Step) : (setStep s i x).asks = s.asks := rfl
@[simp] theorem reg_setStep (s : State) (i : Nat) (x : Step) (o : Nat) : reg (setStep s i x) o = reg s o := rfl
@[simp] theorem regFld_setStep (s : State) (i : Nat) (x : Step) (o hi lo : Nat) :
    regFld (setStep s i x) o hi lo = regFld s o hi lo := rfl
@[simp] theorem regBit_setStep (s : State) (i : Nat) (x : Step) (o j : Nat) :
    regBit (setStep s i x) o j = regBit s o j := rfl

@[simp] theorem setT1_pending (s : State) (c v : Nat) : (setT1 s c v).pending = s.pending := rfl
@[simp] theorem setT1_fresh (s : State) (c v : Nat) : (setT1 s c v).fresh = s.fresh := rfl
@[simp] theorem setT1_regs (s : State) (c v : Nat) : (setT1 s c v).regs = s.regs := rfl
@[simp] theorem setT1_counts (s : State) (c v : Nat) : (setT1 s c v).counts = s.counts := rfl
@[simp] theorem setT1_mem (s : State) (c v : Nat) : (setT1 s c v).mem = s.mem := rfl
@[simp] theorem setT1_host (s : State) (c v : Nat) : (setT1 s c v).host = s.host := rfl
@[simp] theorem setT1_gtb (s : State) (c v : Nat) : (setT1 s c v).gtb = s.gtb := rfl
@[simp] theorem setT1_clk (s : State) (c v : Nat) : (setT1 s c v).clk = s.clk := rfl
@[simp] theorem setT1_hif (s : State) (c v : Nat) : (setT1 s c v).hif = s.hif := rfl
@[simp] theorem setT1_saf (s : State) (c v : Nat) : (setT1 s c v).saf = s.saf := rfl
@[simp] theorem setT1_cau (s : State) (c v : Nat) : (setT1 s c v).cau = s.cau := rfl
@[simp] theorem setT1_mgc (s : State) (c v : Nat) : (setT1 s c v).mgc = s.mgc := rfl
@[simp] theorem setT1_tge (s : State) (c v : Nat) : (setT1 s c v).tge = s.tge := rfl
@[simp] theorem setT1_disp (s : State) (c v : Nat) : (setT1 s c v).disp = s.disp := rfl
@[simp] theorem setT1_pat (s : State) (c v : Nat) : (setT1 s c v).pat = s.pat := rfl
@[simp] theorem setT1_syn (s : State) (c v : Nat) : (setT1 s c v).syn = s.syn := rfl
@[simp] theorem setT1_trc (s : State) (c v : Nat) : (setT1 s c v).trc = s.trc := rfl
@[simp] theorem setT1_chn (s : State) (c v : Nat) : (setT1 s c v).chn = s.chn := rfl
@[simp] theorem setT1_blq (s : State) (c v : Nat) : (setT1 s c v).blq = s.blq := rfl
@[simp] theorem setT1_lnk (s : State) (c v : Nat) : (setT1 s c v).lnk = s.lnk := rfl
@[simp] theorem setT1_sls (s : State) (c v : Nat) : (setT1 s c v).sls = s.sls := rfl
@[simp] theorem setT1_rex (s : State) (c v : Nat) : (setT1 s c v).rex = s.rex := rfl
@[simp] theorem setT1_tst (s : State) (c v : Nat) : (setT1 s c v).tst = s.tst := rfl
@[simp] theorem setT1_asks (s : State) (c v : Nat) : (setT1 s c v).asks = s.asks := rfl
@[simp] theorem reg_setT1 (s : State) (c v : Nat) (o : Nat) : reg (setT1 s c v) o = reg s o := rfl
@[simp] theorem regFld_setT1 (s : State) (c v : Nat) (o hi lo : Nat) :
    regFld (setT1 s c v) o hi lo = regFld s o hi lo := rfl
@[simp] theorem regBit_setT1 (s : State) (c v : Nat) (o j : Nat) : regBit (setT1 s c v) o j = regBit s o j := rfl

@[simp] theorem ask_pending (s : State) (a : Ask) : (ask s a).pending = s.pending := rfl
@[simp] theorem ask_fresh (s : State) (a : Ask) : (ask s a).fresh = s.fresh := rfl
@[simp] theorem ask_regs (s : State) (a : Ask) : (ask s a).regs = s.regs := rfl
@[simp] theorem ask_counts (s : State) (a : Ask) : (ask s a).counts = s.counts := rfl
@[simp] theorem ask_mem (s : State) (a : Ask) : (ask s a).mem = s.mem := rfl
@[simp] theorem ask_host (s : State) (a : Ask) : (ask s a).host = s.host := rfl
@[simp] theorem ask_gtb (s : State) (a : Ask) : (ask s a).gtb = s.gtb := rfl
@[simp] theorem ask_clk (s : State) (a : Ask) : (ask s a).clk = s.clk := rfl
@[simp] theorem ask_hif (s : State) (a : Ask) : (ask s a).hif = s.hif := rfl
@[simp] theorem ask_saf (s : State) (a : Ask) : (ask s a).saf = s.saf := rfl
@[simp] theorem ask_cau (s : State) (a : Ask) : (ask s a).cau = s.cau := rfl
@[simp] theorem ask_mgc (s : State) (a : Ask) : (ask s a).mgc = s.mgc := rfl
@[simp] theorem ask_tge (s : State) (a : Ask) : (ask s a).tge = s.tge := rfl
@[simp] theorem ask_disp (s : State) (a : Ask) : (ask s a).disp = s.disp := rfl
@[simp] theorem ask_psm (s : State) (a : Ask) : (ask s a).psm = s.psm := rfl
@[simp] theorem ask_pat (s : State) (a : Ask) : (ask s a).pat = s.pat := rfl
@[simp] theorem ask_syn (s : State) (a : Ask) : (ask s a).syn = s.syn := rfl
@[simp] theorem ask_trc (s : State) (a : Ask) : (ask s a).trc = s.trc := rfl
@[simp] theorem ask_chn (s : State) (a : Ask) : (ask s a).chn = s.chn := rfl
@[simp] theorem ask_blq (s : State) (a : Ask) : (ask s a).blq = s.blq := rfl
@[simp] theorem ask_lnk (s : State) (a : Ask) : (ask s a).lnk = s.lnk := rfl
@[simp] theorem ask_sls (s : State) (a : Ask) : (ask s a).sls = s.sls := rfl
@[simp] theorem ask_rex (s : State) (a : Ask) : (ask s a).rex = s.rex := rfl
@[simp] theorem ask_tst (s : State) (a : Ask) : (ask s a).tst = s.tst := rfl
@[simp] theorem reg_ask (s : State) (a : Ask) (o : Nat) : reg (ask s a) o = reg s o := rfl
@[simp] theorem regFld_ask (s : State) (a : Ask) (o hi lo : Nat) : regFld (ask s a) o hi lo = regFld s o hi lo := rfl
@[simp] theorem regBit_ask (s : State) (a : Ask) (o j : Nat) : regBit (ask s a) o j = regBit s o j := rfl

end Sys2Proof.Machine
end

