-- ==== Sys2Proof/Laws/Regs.lean ====
section
/-! SUPPORT. Tables, bit fields and registers: what is read after a write. -/

namespace Sys2Proof.Machine

open Sys2Proof

/-! ### Tables -/

@[simp] theorem tget?_tput_same {α : Type} (t : Table α) (k : Nat) (a : α) : tget? (tput t k a) k = some a := by
  induction t with
  | nil => simp [tput, tget?]
  | cons e t ih =>
    obtain ⟨j, b⟩ := e
    simp only [tput]
    split
    · simp only [tget?]; rw [if_neg (by omega)]; exact ih
    · split <;> simp [tget?]

theorem tget?_tput_ne {α : Type} (t : Table α) {k j : Nat} (a : α) (h : j ≠ k) :
    tget? (tput t k a) j = tget? t j := by
  induction t with
  | nil => simp [tput, tget?, h.symm]
  | cons e t ih =>
    obtain ⟨i, b⟩ := e
    simp only [tput]
    split
    · simp only [tget?, ih]
    · split
      · subst_vars; simp [tget?, h.symm]
      · simp [tget?, h.symm]

theorem tget?_tput {α : Type} (t : Table α) (k j : Nat) (a : α) :
    tget? (tput t k a) j = if j = k then some a else tget? t j := by
  split
  · subst_vars; exact tget?_tput_same t _ a
  · exact tget?_tput_ne t a (by assumption)

@[simp] theorem tget_tput_same {α : Type} (d : α) (t : Table α) (k : Nat) (a : α) : tget d (tput t k a) k = a := by
  simp [tget]

theorem tget_tput_ne {α : Type} (d : α) (t : Table α) {k j : Nat} (a : α) (h : j ≠ k) :
    tget d (tput t k a) j = tget d t j := by
  simp [tget, tget?_tput_ne t a h]

@[simp] theorem tget?_tmap {α : Type} (f : Nat → α → α) (t : Table α) (k : Nat) :
    tget? (tmap f t) k = (tget? t k).map (f k) := by
  induction t with
  | nil => rfl
  | cons e t ih =>
    obtain ⟨j, b⟩ := e
    simp only [tmap, tget?]
    split
    · subst_vars; rfl
    · exact ih

theorem tget?_tdel {α : Type} (t : Table α) (k j : Nat) :
    tget? (tdel t k) j = if j = k then none else tget? t j := by
  induction t with
  | nil => simp [tdel, tget?]
  | cons e t ih =>
    obtain ⟨i, b⟩ := e
    simp only [tdel]
    split
    · rw [ih]
      split
      · rfl
      · simp only [tget?]; rw [if_neg (by omega)]
    · simp only [tget?, ih]
      split
      · rw [if_neg (by omega)]
      · rfl

/-! ### Bit fields -/

theorem bitAt_eq (v i : Nat) : bitAt v i = v.testBit i := by
  simp [bitAt, Nat.testBit, Nat.shiftRight_eq_div_pow, Nat.one_and_eq_mod_two]

theorem fld_testBit (v hi lo i : Nat) : (fld v hi lo).testBit i = (decide (i < hi + 1 - lo) && v.testBit (i + lo)) := by
  rw [fld, Nat.testBit_mod_two_pow, Nat.testBit_div_two_pow]

theorem fld_lt (v hi lo : Nat) : fld v hi lo < 2 ^ (hi + 1 - lo) := Nat.mod_lt _ (Nat.two_pow_pos _)

theorem setFld_eq (v hi lo x w : Nat) (h : hi + 1 = lo + w) :
    setFld v hi lo x = 2 ^ (lo + w) * (v / 2 ^ (lo + w)) + (2 ^ lo * (x % 2 ^ w) + v % 2 ^ lo) := by
  have hw : hi + 1 - lo = w := by omega
  have h1 : v / 2 ^ lo / 2 ^ w = v / 2 ^ (lo + w) := by rw [Nat.div_div_eq_div_mul, ← Nat.pow_add]
  have h2 := Nat.div_add_mod v (2 ^ lo)
  have h3 := Nat.div_add_mod (v / 2 ^ lo) (2 ^ w)
  rw [h1] at h3
  have h4 : v = 2 ^ (lo + w) * (v / 2 ^ (lo + w)) + (v / 2 ^ lo % 2 ^ w * 2 ^ lo + v % 2 ^ lo) := by
    calc v = 2 ^ lo * (v / 2 ^ lo) + v % 2 ^ lo := h2.symm
      _ = 2 ^ lo * (2 ^ w * (v / 2 ^ (lo + w)) + v / 2 ^ lo % 2 ^ w) + v % 2 ^ lo := by rw [h3]
      _ = _ := by ring
  have h5 : x % 2 ^ w * 2 ^ lo = 2 ^ lo * (x % 2 ^ w) := Nat.mul_comm _ _
  simp only [setFld, fld, hw]
  omega

/-- The bits of a number with a field replaced. -/
theorem testBit_setFld (v hi lo x i : Nat) (h : lo ≤ hi + 1) :
    (setFld v hi lo x).testBit i = if lo ≤ i ∧ i ≤ hi then x.testBit (i - lo) else v.testBit i := by
  have hw : hi + 1 = lo + (hi + 1 - lo) := by omega
  rw [setFld_eq v hi lo x _ hw]
  generalize hi + 1 - lo = w at hw
  have hr : v % 2 ^ lo < 2 ^ lo := Nat.mod_lt _ (Nat.two_pow_pos _)
  have hx : x % 2 ^ w < 2 ^ w := Nat.mod_lt _ (Nat.two_pow_pos _)
  have hb : 2 ^ lo * (x % 2 ^ w) + v % 2 ^ lo < 2 ^ (lo + w) := by
    rw [Nat.pow_add]
    calc 2 ^ lo * (x % 2 ^ w) + v % 2 ^ lo < 2 ^ lo * (x % 2 ^ w) + 2 ^ lo := by omega
      _ = 2 ^ lo * (x % 2 ^ w + 1) := by ring
      _ ≤ 2 ^ lo * 2 ^ w := Nat.mul_le_mul_left _ hx
  rw [Nat.testBit_two_pow_mul_add _ hb, Nat.testBit_two_pow_mul_add _ hr]
  by_cases h1 : i < lo
  · rw [if_pos (by omega), if_pos h1, if_neg (by omega), Nat.testBit_mod_two_pow]; simp [h1]
  · by_cases h2 : i < lo + w
    · rw [if_pos h2, if_neg h1, if_pos (by omega), Nat.testBit_mod_two_pow]
      simp only [show i - lo < w by omega, decide_true, Bool.true_and]
    · rw [if_neg h2, if_neg (by omega), Nat.testBit_div_two_pow]
      congr 1; omega

@[simp] theorem b2n_testBit_zero (b : Bool) : (b2n b).testBit 0 = b := by cases b <;> rfl

/-- A field read back after it is replaced, in 32 bits. -/
theorem fld_setFld_same (v hi lo x : Nat) (h : lo ≤ hi) (h31 : hi ≤ 31) :
    fld (setFld v hi lo x % 2 ^ 32) hi lo = x % 2 ^ (hi + 1 - lo) := by
  refine Nat.eq_of_testBit_eq fun i => ?_
  rw [fld_testBit, Nat.testBit_mod_two_pow, Nat.testBit_mod_two_pow, testBit_setFld _ _ _ _ _ (by omega)]
  by_cases hi' : i < hi + 1 - lo
  · rw [if_pos (by omega)]
    simp [hi', show i + lo < 32 by omega]
  · simp [hi']

/-- Another field is as it was, in 32 bits. -/
theorem fld_setFld_ne (v hi lo x hi' lo' : Nat) (h : lo ≤ hi) (h31 : hi' ≤ 31) (hd : hi < lo' ∨ hi' < lo) :
    fld (setFld v hi lo x % 2 ^ 32) hi' lo' = fld v hi' lo' := by
  refine Nat.eq_of_testBit_eq fun i => ?_
  rw [fld_testBit, fld_testBit, Nat.testBit_mod_two_pow, testBit_setFld _ _ _ _ _ (by omega)]
  by_cases hi'' : i < hi' + 1 - lo'
  · rw [if_neg (by omega)]
    simp [hi'', show i + lo' < 32 by omega]
  · simp [hi'']

theorem bitAt_fld (v i : Nat) : bitAt v i = (fld v i i == 1) := by simp [bitAt, fld]

/-! ### Registers -/

@[simp] theorem reg_setReg_same (s : State) (o v : Nat) : reg (setReg s o v) o = v % 2 ^ 32 := by
  simp [reg, setReg]

theorem reg_setReg_ne (s : State) {o p : Nat} (v : Nat) (h : p ≠ o) : reg (setReg s o v) p = reg s p := by
  simp [reg, setReg, tget?_tput_ne _ _ h]

theorem reg_setReg (s : State) (o p v : Nat) :
    reg (setReg s o v) p = if p = o then v % 2 ^ 32 else reg s p := by
  split
  · subst_vars; simp
  · exact reg_setReg_ne s v (by assumption)

theorem reg_setRegFld_ne (s : State) {o p : Nat} (hi lo x : Nat) (h : p ≠ o) :
    reg (setRegFld s o hi lo x) p = reg s p := reg_setReg_ne s _ h

theorem reg_setRegBit_ne (s : State) {o p : Nat} (i : Nat) (b : Bool) (h : p ≠ o) :
    reg (setRegBit s o i b) p = reg s p := reg_setReg_ne s _ h

theorem reg_addReg_ne (s : State) {o p : Nat} (n : Nat) (h : p ≠ o) : reg (addReg s o n) p = reg s p :=
  reg_setReg_ne s _ h

@[simp] theorem reg_addReg_same (s : State) (o n : Nat) : reg (addReg s o n) o = satAdd 32 (reg s o) n := by
  have h : satAdd 32 (reg s o) n < 2 ^ 32 := by unfold satAdd; omega
  rw [addReg, reg_setReg_same, Nat.mod_eq_of_lt h]

theorem regFld_setRegFld_same (s : State) (o hi lo x : Nat) (h : lo ≤ hi) (h31 : hi ≤ 31) :
    regFld (setRegFld s o hi lo x) o hi lo = x % 2 ^ (hi + 1 - lo) := by
  simp only [regFld, setRegFld, reg_setReg_same]
  exact fld_setFld_same _ _ _ _ h h31

theorem regFld_setRegFld_ne (s : State) (o hi lo x hi' lo' : Nat) (h : lo ≤ hi) (h31 : hi' ≤ 31)
    (hd : hi < lo' ∨ hi' < lo) : regFld (setRegFld s o hi lo x) o hi' lo' = regFld s o hi' lo' := by
  simp only [regFld, setRegFld, reg_setReg_same]
  exact fld_setFld_ne _ _ _ _ _ _ h h31 hd

theorem regBit_eq (s : State) (o i : Nat) : regBit s o i = (regFld s o i i == 1) := bitAt_fld _ _

theorem regBit_setRegBit_same (s : State) (o i : Nat) (b : Bool) (h : i ≤ 31) :
    regBit (setRegBit s o i b) o i = b := by
  rw [regBit_eq, setRegBit, regFld_setRegFld_same _ _ _ _ _ (Nat.le_refl _) h]
  cases b <;> simp [b2n]

theorem regBit_setRegBit_ne (s : State) (o i j : Nat) (b : Bool) (h : j ≤ 31) (hd : j ≠ i) :
    regBit (setRegBit s o i b) o j = regBit s o j := by
  rw [regBit_eq, regBit_eq, setRegBit, regFld_setRegFld_ne _ _ _ _ _ _ _ (Nat.le_refl _) h (by omega)]

theorem regBit_setRegBit (s : State) (o p i j : Nat) (b : Bool) (h : j ≤ 31) :
    regBit (setRegBit s o i b) p j = if p = o ∧ j = i then b else regBit s p j := by
  by_cases hp : p = o
  · subst hp
    by_cases hj : j = i
    · subst hj; simp [regBit_setRegBit_same _ _ _ _ h]
    · simp [hj, regBit_setRegBit_ne _ _ _ _ _ h hj]
  · simp [hp, regBit, reg_setRegBit_ne s i b hp]

theorem regFld_setRegBit (s : State) (o p i hi lo : Nat) (b : Bool) (h : hi ≤ 31) (hd : p ≠ o ∨ i < lo ∨ hi < i) :
    regFld (setRegBit s o i b) p hi lo = regFld s p hi lo := by
  by_cases hp : p = o
  · subst hp
    exact regFld_setRegFld_ne _ _ _ _ _ _ _ (Nat.le_refl _) h (by omega)
  · simp [regFld, reg_setRegBit_ne s i b hp]

end Sys2Proof.Machine
end

