-- ==== Sys2Proof/Tests/Slice0.lean ====
section
/-! SUPPORT. The model's own tests: ill-formed commands that the checks refuse, single steps with values worked out
outside the model, and for every statement of the obligations states and operands that meet its hypotheses, clause by
clause (`test_meets_<statement>`). -/

namespace Sys2Proof.Tests

open Sys2Proof Sys2Proof.Machine

-- Theorems one after another: each `decide +kernel` holds a thread with its stack.
set_option Elab.async false

/-- Bytes with fields (offset, length, value) written over zeros. -/
def bytesOf (n : Nat) (l : List (Nat × Nat × Nat)) : List Byte :=
  l.foldl (fun b f => b.take f.1 ++ leBytes f.2.1 f.2.2 ++ b.drop (f.1 + f.2.1)) (List.replicate n 0)

/-- A descriptor of context 0, ring 0, with an opcode and fields. -/
def cmdOf (op : Nat) (l : List (Nat × Nat × Nat)) : Cmd :=
  { ctx := 0, ring := 0, seq := 0, bytes := bytesOf 64 ((0, 2, op) :: l) }

/-- The state after reset with some registers written. -/
def regsOf (l : List (Nat × Nat)) : State := l.foldl (fun s e => setReg s e.1 e.2) State.reset

/-- A descriptor in front of the units' queue. -/
def nextIs (s : State) (m : Cmd) : State := { s with hif := { s.hif with unitQ := [m] } }

/-- A critical descriptor that has passed its checks. -/
def passedIs (s : State) (m : Cmd) : State := { s with cau := { s.cau with inQ := [m], passed := true } }

/-- A run, a step, an image record, a ready entry and an object with little in them. -/
def run0 : Run :=
  { ctx := 0, img := 0, task := 0, taskKind := 0, prio := 0, kind := 0, rank := 0, order := 0, reruns := 0
    interlock := false, msg := none, vint := 1, seed := 0, state := 3 }
def launch0 : Launch := { cmd := cmdOf 0x101 [], vint := 1, seed := 0, repro := false, replay := false, prev := 0 }
def step0 : Step := { launch := launch0, phase := 2 }
def img0 : Img := { ctx := 0, id := 0, state := 1, tasks := 1, edges := 0, tblk := [0] }
def ready0 : Ready := { ctx := 0, img := 0, task := 0, prio := 0, kind := 0, rank := 0, order := 0, home := 0 }
def obj0 : SynObj := { barrier := false, owner := 0, vid := 5, limit := 100, value := 3 }
/-- A gate's record of task 3 that waits to be written at address 256. -/
def gw (pass issued : Bool) : GateWrite := { task := 3, pass := pass, va := 256, bytes := [1, 2], issued := issued }
def imgs0 : Tge := { imgs := [(0, img0)] }
def steps0 : Tge := { imgs := [(0, img0)], steps := [(0, step0)] }

/-- The header and the one task of a graph image: 320 bytes. -/
def image0 : List Byte :=
  bytesOf 320 [(0, 4, 0x4F4C4241), (4, 2, 3), (8, 4, 1), (20, 4, 320), (24, 4, 320), (36, 2, 1)]

/-- Host memory with bytes at an address. -/
def hostAt (a : Nat) (b : List Byte) : State := { State.reset with host := mwriteBytes [] a b }

/-- A field with its queues. -/
def fieldIs (s : State) (f : Field) : State := { s with disp := { s.disp with fields := [(0, f)] } }

/-- The state in which run 0 is `x`. -/
def runIs (s : State) (x : Run) : State := { s with disp := { s.disp with runs := [(0, x)] } }

/-- A completion entry; a command with its MAC under the zero key (worked out with OpenSSL); the command that loads `image0` from address
4096, with the image's SHA-256 digest (worked out with Python's hashlib); and a good frame of the group time source: second 7, CHIPS 0. -/
def e0 : Cpl :=
  { ctx := 0, ring := 0, seq := 0, opcode := 0, status := 0, detail := 0, result := 7, stamp := 0, reruns := 0
    irq := false }
def cmdMac : Cmd := cmdOf 0x100 [(56, 8, 245292231133060840)]
/-- The same with the replay counter 1, and a KEY_LOAD into slot 15 that brings a key of ones wrapped under the zero key (the wrapping and
both MACs worked out with OpenSSL); a key slot with the zero key and every class. -/
def cmdMac1 : Cmd := cmdOf 0x100 [(48, 8, 1), (56, 8, 7126417336947452378)]
def cmdKey : Cmd :=
  cmdOf 0x700 [(4, 1, 15), (16, 24, 98399526251119728375115241873022296374534996618654249281), (48, 8, 1),
    (56, 8, 14798171666768015040)]
def slotAll : KeySlot := { state := 1, classes := 15, key := List.replicate 16 0 }
def loadCmd : Cmd :=
  cmdOf 0x100 [(8, 8, 4096), (16, 4, 320), (24, 24, 1873597042054201416312169245993068029922837566840963268768)]
def frame0 : Nat := 0xE2 * 2 ^ 88 + 7 * 2 ^ 28
def goodFrame : BitVec 96 := BitVec.ofNat 96 (frame0 + frameCrc frame0)

/-- Field 0 ready, and context 0 bound to a parcel of cluster 0. -/
def placed : State :=
  { disp := { fields := [(0, { train := 2 })], ready := [ready0] },
    psm := { parcels := [(1, { clusters := 1 })], bound := [(0, 1)] } }

/-- A blend queue record of key 77, two contributors and two binary32 elements, in arrival, tree and chain order. -/
def blendRec (order : Nat) : List Byte := bytesOf 64 [(0, 1, order), (2, 2, 77), (12, 4, 2), (16, 2, 2)]
def bq1 : BlendQ := { img := 0, rel := 0, ctx := 0, record := blendRec 0, entries := [0, 0x20120000] }
/-- One of no elements. -/
def bqNone : BlendQ := { bq1 with record := bytesOf 64 [(2, 2, 77), (16, 2, 2)] }
def blendTree : List Byte := bytesOf 64 [(0, 1, 1), (2, 2, 77), (12, 4, 2), (16, 2, 3)]
def bqTree : BlendQ :=
  { img := 0, rel := 0, ctx := 0, record := blendTree, entries := [0, 0, 0], taken := [0, 1],
    leaves := [(0, [0x3F800000, 0]), (1, [0x40000000, 0])] }
def bqChain : BlendQ := { img := 0, rel := 0, ctx := 0, record := blendRec 0x12, entries := [0, 0] }

/-- Context 0 enabled with a plain region of 2 MiB at address 0, whose first page is mapped. -/
def ringBack : State :=
  { regsOf [(0x110000, 0x80000000), (0x710108, 1), (0x71010C, 0x80000000)] with
    pat := { up := true, maps := [(pageKey 0 0, { large := false, at_ := 300 })] } }

/-- Context 0 enabled, with a plain region at 0, a KV region at 2 MiB and a STREAM region at 4 MiB (`large`: with
pages of 2 MiB), each of 2 MiB. -/
def regionsOf (large : Bool) : State :=
  regsOf [(0x110000, 0x80000000), (0x710108, 1), (0x71010C, 0x80000000), (0x710120, 0x200000), (0x710128, 1),
    (0x71012C, 0xA0000000), (0x710140, 0x400000), (0x710148, 1), (0x71014C, if large then 0xD0000000 else 0xC0000000)]

/-- A serving descriptor that passes every check over `regionsOf`. -/
def servDesc : List Byte :=
  bytesOf 128 [(8, 1, 6), (9, 1, 7), (11, 1, 1), (12, 4, 1), (40, 8, 4096), (48, 4, 2), (52, 2, 1), (54, 2, 1),
    (56, 4, 1), (60, 4, 1), (72, 1, 1)]
def served (x : Serve) : State := { sls := { srv := [(3, x)] } }
def srv0 : Serve := { state := 1, desc := servDesc }
def parcels1 : Table Parcel := [(1, { clusters := 1 })]

/-- A firmware image of one instruction: 384 bytes, with its calibration block at 320; and the command that loads it
from address 4096 (digests worked out with Python's hashlib). -/
def fwImage : List Byte :=
  bytesOf 384 [(0, 4, 0x4D474346), (4, 2, 1), (8, 4, 9), (12, 4, 256), (16, 4, 8), (20, 4, 4), (24, 4, 320), (28, 4, 1),
    (320, 4, 0x4C414331), (324, 2, 1), (328, 4, 33), (360, 2, 44), (370, 2, 55)]
def fwDigest : Nat := 1264753093421189738893831849654991983378706217191888126855
def badDigest : Nat := 280147748886761905804108305341413570724401291981020767204
def fwCmdOf (digest : Nat) : Cmd := cmdOf 0x600 [(8, 8, 4096), (16, 4, 384), (24, 24, digest)]
def fwLoading (image : List Byte) (digest : Nat) : State :=
  { hostAt 4096 image with mgc := { loads := [fwCmdOf digest] } }
def badImage : List Byte := bytesOf 384 [(0, 4, 0x4D474346), (4, 2, 2)]
def ev0 : EvEntry := { ctx := 63, type := 7, sev := 1, src := 0, vint := 0, payload := 9, stamp := 0 }
def rec0 : Rec := { sev := 1, unit := 7, code := 0x40 }

/-- REX unit 3 runs command 0, and both its streams stand at instruction 0, the word `w`. -/
def rexRun : Run := { run0 with kind := 3, core := 3, engine := 7, locked := true,
                                fresh := [{ va := 0, large := false, frame := 300 }] }
def unit0 (w : Nat) : RexUnit := { run := some 0, lines := [(lineKey 0 0 0 0, leBytes 8 w)] }
def rexIs (y : RexUnit) : State :=
  { regionsOf false with
    rex := { units := [(3, y)], imgs := [(0, { len0 := some 4 })] }, disp := { runs := [(0, rexRun)] }
    tge := { tasks := [(0, bytesOf 64 [(40, 8, 128)])] } }
def rexAt (w : Nat) : State := rexIs (unit0 w)
/-- An instruction word from its opcode and fields (low bit, value). -/
def ins (op : Nat) (l : List (Nat × Nat)) : Nat := l.foldl (fun n e => n + e.2 * 2 ^ e.1) (op * 2 ^ 58)

def traceCmd (action : Nat) : Cmd := cmdOf 0x800 [(4, 1, action), (8, 8, 0), (16, 4, 9)]
/-- Context 0 enabled with a plain region of 18 MiB at 0, as a trace region of 9 MiB takes it. -/
def traceBack : State := regsOf [(0x110000, 0x80000000), (0x710108, 9), (0x71010C, 0x80000000)]

/-- The state in which a memory access leaves the block. -/
def stateOf {α : Type} : MemRes α → State
  | .ok _ s => s
  | .wait s => s
  | .fault _ _ => {}

/-- A stream that stands at an instruction is ready for it where these finite checks hold. -/
theorem exeReady_of {s : State} {u op : Nat} {k : Uses} {r : Nat} {x : Run} {pc w : Nat}
    (h : issues s u true op r x pc w)
    (b : (!codesBad k w && (unitOf s u).exe.rows == 0 && (unitOf s u).exe.held == [] && (unitOf s u).late == [] &&
      (unitOf s u).behind == [] && (unitOf s u).arriving == [] &&
      ((usedCodes k w).all fun c => (srcQueue c).all fun e => decide (xRows w ≤ (aqOf (unitOf s u) e.1).length)) &&
      (!k.d || (dstQueues (xD w)).all fun q => decide ((aqOf (unitOf s u) q).length + xRows w ≤ 64))) = true) :
    exeReady s u op k r x pc w := by
  simp only [Bool.and_eq_true, Bool.not_eq_true', beq_iff_eq, List.all_eq_true, Option.all_eq_true, decide_eq_true_eq,
    Bool.or_eq_true] at b
  obtain ⟨⟨⟨⟨⟨⟨⟨h1, h2⟩, h3⟩, h4⟩, h4'⟩, h5⟩, h6⟩, h7⟩ := b
  exact ⟨h, h1, h2, h3, h4, h4', h5, fun c hc e he => h6 c hc e he, fun hd q hq => (h7.resolve_left (by simp [hd])) q hq⟩

/-! ### Ill-formed commands, one for each check of `Instr.wf` -/

theorem test_ill_formed :
    ([.registerWrite 0x1000000 0 false, .registerWrite (2 ^ 64 - 2 ^ 32) 0 true, .decant 0x100001 0, .sqnDb 0 0 0 [(2 ^ 64, 1)],
      .sqnDb 0 0 0 [(8, 1), (8, 2)], .graphLoadInstall (some (2 ^ 32)) 0, .imageLoadDone 0 0 (some (2 ^ 32)) 0,
      .fwLoadDone (some (2 ^ 32)) 0, .graphLoadInstall none 65536, .imageLoadDone 0 0 none 65536, .fwLoadDone none 65536,
      .prbsStop 0 [(2048, 1)], .prbsDurEnd 0 [(2048, 1)],
      .cellarBistDone 0 (some (65536, 0)), .cellarBistDone 0 (some (0, 65536)), .coreBistDone 1 [(511, 0)],
      .fieldTrainingEnd 0 true 1185 0 0 false, .fieldTrainingEnd 0 true 0 1185 0 false, .fieldLinkTrainingEnd 0 577,
      .cclkFreqCheck (2 ^ 32), .endValid 0 6 0 0 [] false, .endValid 0 0 0 0 [(5, 0), (4, 0)] false,
      .policyTickBoundary (List.replicate 25 0), .policyShadowWrite 0x801005 0, .queuePtrMismatch 0x100012,
      .scrub 0 (2 ^ 32) 0 none, .scrub 0 0 0 (some (2 ^ 256)), .traceIncrement 0 6 [] 0 false,
      .traceIncrement 4096 0 [(2, 1)] 0 false, .traceIncrement 0 0 [(0, 65536)] 0 false,
      .traceIncrement 0 0 [] 65536 false, .wrapperInstruction 0 0 (2 ^ 32), .instrumentWrite 0 (2 ^ 24) 0,
      .counterCaptureRead 0x28000E, .badAccess (2 ^ 24) 4, .badAccess 0 0, .badAccess 0 65, .gtbRefEdge 8193 true,
      .machineTimerInterrupt 0 (2 ^ 64) true] : List Instr).all (fun c => !c.wf) = true := by decide +kernel

theorem test_ill_formed_item : (Instr.chain 0 0 0 (List.replicate (2 ^ 20 + 1) 0)).wf = false := by
  simp only [Instr.wf, itemOk, List.length_replicate]; decide

/-- A command that each check lets through. -/
theorem test_well_formed :
    ([.registerWrite 0xFFFFFC 0 false, .sqnDb 0 0 0 [(8, 1), (9, 2)], .coreBistDone 1 [(512, 0), (0xF001, 0)],
      .endValid 4095 5 3 15 [] true, .registerWrite 0x102 0 true, .traceIncrement 4096 0 [(9, 1)] 0 false, .policyTickBoundary (List.replicate 24 0), .badAccess 0xFFFFFF 64] : List Instr).all
      (fun c => c.wf) = true := by decide +kernel

/-- No word spells a command. -/
theorem test_no_word : decodeTableWord 64 0xDEADBEEF = none := rfl

/-! ### Single steps; the expected values are worked out by hand from the spec, or outside the model as said -/

/-- What holds of the state that a command answers. -/
def after (o : Out) (p : State → Bool) : Bool := match o with | .next t => p t | _ => false

/-- The published check value of CRC-64/ECMA-182 for the nine digits. -/
theorem test_crc64 : crc64 ([49, 50, 51, 52, 53, 54, 55, 56, 57] : List Byte) = 0x6C40DF5F0B497347 := by decide +kernel

/-- The CRC-16 of R93, worked out with Python's binascii.crc_hqx. -/
theorem test_frame_crc : frameCrc frame0 = 0x98C9 := by decide +kernel

/-- 1.5 + 2.0 = 3.5 in FP32. -/
theorem test_add : after (exec (.add 3) (rexIs { unit0 (ins 0x20 [(47, 2), (42, 0), (37, 1)]) with
    tiles := [(0, 0x3FC00000), (4096, 0x40000000)] })) (fun t => tileWord (unitOf t 3) 2 0 == 0x40600000) = true := by
  decide +kernel

/-- 2.0 less 1.5 is 0.5: the operands are not swapped. -/
theorem test_sub : after (exec (.sub 3) (rexIs { unit0 (ins 0x21 [(47, 2), (42, 1), (37, 0)]) with
    tiles := [(0, 0x3FC00000), (4096, 0x40000000)] })) (fun t => tileWord (unitOf t 3) 2 0 == 0x3F000000) = true := by
  decide +kernel

/-- 1.5 × 2.0 + 0.5 = 3.5, and the destination is also a source. -/
theorem test_fma : after (exec (.fma 3) (rexIs { unit0 (ins 0x23 [(47, 0), (42, 0), (37, 1), (32, 2)]) with
    tiles := [(0, 0x3FC00000), (4096, 0x40000000), (8192, 0x3F000000)] }))
    (fun t => tileWord (unitOf t 3) 0 0 == 0x40600000) = true := by decide +kernel

/-- Ties go to even in BF16 (R395, R396): 1.00390625 to 0x3F80 and 1.01171875 to 0x3F82. -/
theorem test_ties_to_even : roundRes 1 none (.val (decodeF f32 0x3F808000)) = 0x3F80 ∧
    roundRes 1 none (.val (decodeF f32 0x3F818000)) = 0x3F82 := by decide +kernel

/-- Overflow in E4M3 saturates to 448, an infinity becomes 0x7F (R396), and FP16 overflows to its infinity. -/
theorem test_overflow : roundRes 4 none (.val (decodeF f32 0x47C35000)) = 0x7E ∧
    roundRes 4 none (.val (decodeF f32 0x7F800000)) = 0x7F ∧ roundRes 2 none (.val (decodeF f32 0x47C35000)) = 0x7C00 := by
  decide +kernel

/-- Every NaN becomes the canonical one (R395), and as INT32 it is 0 (R396). -/
theorem test_nan : roundRes 0 none (.val (decodeF f32 0xFFC12345)) = 0x7FC00000 ∧
    roundRes 3 none (.val (decodeF f32 0x7F800001)) = 0 := by decide +kernel

/-- Subnormals are kept (R395). -/
theorem test_subnormal : roundRes 0 none (.val (decodeF f32 1)) = 1 := by decide +kernel

/-- A signal of 2 units at value 3 answers RESULT 5. -/
theorem test_signal : after (exec .syncSignal (nextIs { syn := { objA := [(7, obj0)], objB := [(7, obj0)] } }
    (cmdOf 0x200 [(4, 2, 5), (8, 4, 2)]))) (fun t => t.hif.cplQ.any fun e => match e with
      | .cpl c => c.result == 5
      | .event _ => false) = true := by decide +kernel

/-- A release row of COMMIT: a run whose effects are all in goes to the commit queue; with one still out it stays. -/
theorem test_commit_point :
    (commitPoint (runIs {} { run0 with stated := some 1, registered := 1 }) 0).disp.readyQ = [.runs [0]] ∧
    (commitPoint (runIs {} { run0 with stated := some 2, registered := 1 }) 0).disp.readyQ = [] := by decide +kernel

/-- A DISPATCH queue holds 16 records: with 16 the next one is lost. -/
theorem test_dispatch_overrun :
    (sendDispatch (fieldIs {} { dispQ := List.replicate 15 (.start 9) }) ready0
      { field := 0, place := none, staged := false, reason := 0 }).2 = true ∧
    (sendDispatch (fieldIs {} { dispQ := List.replicate 16 (.start 9) }) ready0
      { field := 0, place := none, staged := false, reason := 0 }).2 = false := by decide +kernel

/-- A SETUP_DONE write is checked: CHIP_ID 1 in a group of 1 chip is refused (R89). -/
theorem test_setup_refused : after (exec (.setupDone true) (regsOf [(0xC, 1)])) (fun t => !setupDone t) = true := by
  decide +kernel

/-- A step takes the front command only. -/
theorem test_step : after (step { pending := [.fetchEn true, .fetchEn false] }) (fun t =>
    t.pending == [.fetchEn false] && regBit t 0x100000 0) = true := by decide +kernel

/-- The last lane of a field link locks. -/
theorem test_lane_lock : after (exec (.prbsLaneLock 0x27 1183) { tst := { prbs := [(0x27, { running := true })] } })
    (fun t => (prbsOf t 0x27).locked == [1183]) = true := by decide +kernel

/-- The states of the witnesses meet the invariant of every step. -/
theorem test_meets_StepKeepsTheInvariant : ∃ s t : State, Safe s ∧ step s = .next t :=
  ⟨{ pending := [.fetchEn true, .nop] }, { regsOf [(0x100000, 1)] with pending := [.nop] },
    ⟨by unfold MemOk; decide +kernel, by unfold QueueOk; decide +kernel⟩, rfl⟩

/-- The key slot of the authentication witnesses; its MACs, and the key it unwraps. -/
def keyed (m : Cmd) : State := { cau := { inQ := [m], slots := [(0, slotAll)] } }

theorem test_mac : cmacTag (toNats (slotOf (keyed cmdMac1) (keySlot cmdMac1)).key) (toNats (cmdMac1.bytes.take 56)) =
    toNats ((cmdMac1.bytes.drop 56).take 8) := by decide +kernel

theorem test_key_mac : cmacTag (toNats (slotOf (keyed cmdKey) (keySlot cmdKey)).key) (toNats (cmdKey.bytes.take 56)) =
    toNats ((cmdKey.bytes.drop 56).take 8) := by decide +kernel

theorem test_key_unwrap : keyUnwrap (toNats (slotOf (keyed cmdKey) (keySlot cmdKey)).key)
    (toNats ((cmdKey.bytes.drop 16).take 24)) = some (List.replicate 16 1) := by decide +kernel

theorem test_meets_IdleStepPassesOneCclk :
    (∃ (s : State), s.pending = []) :=
  ⟨{}, by decide +kernel⟩

theorem test_meets_StepKeepsQueueOrder :
    (∃ (s : State) (t : State), step s = .next t) :=
  ⟨{ pending := [.fetchEn true, .nop] }, { regsOf [(0x100000, 1)] with pending := [.nop] }, rfl⟩

theorem test_meets_ResetCommands :
    (∃ (c : Instr), (c = .porstN ∨ c = .cellarRstN)) ∧
    (∃ (c : Instr), (c = .porstN ∨ c = .cellarRstN)) ∧
    (∃ (s : State), s.disp.coreRst = false) ∧
    (∃ (s : State), s.tst.celLow = false ∧ s.tst.coreLow = true) ∧
    (∃ (s : State), s.tst.celLow = true ∧ s.tst.coreLow = true) ∧
    (∃ (s : State), s.tst.celLow = true) ∧
    (∃ (s : State), s.tst.celLow = true) :=
  ⟨⟨.porstN, by decide +kernel⟩,
    ⟨.cellarRstN, by decide +kernel⟩,
    ⟨{}, by decide +kernel⟩,
    ⟨{ tst := { coreLow := true } }, by decide +kernel⟩,
    ⟨{ tst := { coreLow := true, celLow := true } }, by decide +kernel⟩,
    ⟨{ tst := { celLow := true } }, by decide +kernel⟩,
    ⟨{ tst := { celLow := true, coreLow := true } }, by decide +kernel⟩⟩

theorem test_meets_BringUp :
    (∃ (s : State), s.tst.celMarch = true) ∧
    (∃ (s : State), s.tst.celMarch = true ∧ s.saf.recQ.length < 32) ∧
    (∃ (s : State), s.tst.celLow = false ∧ regFld s 0x180004 1 0 = 0) ∧
    (∃ (s : State), s.tst.celLow = false ∧ regFld s 0x180004 1 0 = 0) ∧
    (∃ (s : State) (f : Fin 8), s.tst.coreMarch = [f.val]) ∧
    (∃ (s : State) (f : Fin 8), (fieldOf s f).bist = true ∧ cellarReady s = true ∧ (fieldOf s f).train = 0 ∧
      s.disp.coreRst = false ∧ (fieldOf s f).offReq = false ∧ linkTested s f = false) ∧
    (∃ (s : State) (f : Fin 8) (down : Nat) (up : Nat), (fieldOf s f).train = 1 ∧ down ≤ 64 ∧ up ≤ 64) ∧
    (∃ (s : State) (f : Fin 8) (down : Nat) (up : Nat) (left : Nat) (wordErr : Bool), (fieldOf s f).train = 1 ∧ (64 <
      down ∨ 64 < up ∨ left ≠ 0 ∨ wordErr = true)) ∧
    (∃ (s : State) (f : Fin 8) (down : Nat) (up : Nat) (left : Nat) (wordErr : Bool), (fieldOf s f).train = 1 ∧ (64 <
      down ∨ 64 < up ∨ left ≠ 0 ∨ wordErr = true)) ∧
    (∃ (s : State) (f : Fin 8) (down : Nat) (up : Nat) (left : Nat) (wordErr : Bool), (fieldOf s f).train = 1 ∧ (64 <
      down ∨ 64 < up ∨ left ≠ 0 ∨ wordErr = true)) ∧
    (∃ (s : State) (n : Fin 7), fieldReady s n = true ∧ fieldReady s (n + 1) = true ∧ s.tst.flDone.contains n.val =
      false ∧ linkTested s (64 + n) = false) :=
  ⟨⟨{}, by decide +kernel⟩,
    ⟨{}, by decide +kernel⟩,
    ⟨{}, by decide +kernel⟩,
    ⟨{}, by decide +kernel⟩,
    ⟨{ tst := { coreMarch := [7] } }, 7, by decide +kernel⟩,
    ⟨fieldIs (regsOf [(0xB80000, 0x80000000), (0x180004, 1)]) { bist := true }, 0, by decide +kernel⟩,
    ⟨fieldIs {} { train := 1 }, 0, 64, 64, by decide +kernel⟩,
    ⟨fieldIs {} { train := 1 }, 0, 65, 0, 0, false, by decide +kernel⟩,
    ⟨fieldIs {} { train := 1 }, 0, 64, 0, 1, false, by decide +kernel⟩,
    ⟨fieldIs {} { train := 1 }, 0, 64, 64, 0, true, by decide +kernel⟩,
    ⟨{ disp := { fields := [(6, { train := 2 }), (7, { train := 2 })] } }, 6, by decide +kernel⟩⟩

theorem test_meets_ClocksPowerAndGating :
    (∃ (s : State) (f : Fin 8) (st : Fin 4), (tget {} s.clk f).clk = 0 ∧ st.val ≠ 0) ∧
    (∃ (s : State) (f : Fin 8), (fieldOf s f).offReq = true ∧ fieldEmpty s f = true) ∧
    (∃ (s : State) (f : Fin 8), (fieldOf s f).offReq = true ∧ (fieldOf s f).offAck = false) ∧
    (∃ (s : State) (f : Fin 8), (fieldOf s f).offReq = true ∧ (fieldOf s f).offAck = true) ∧
    (∃ (s : State) (mhz : Nat), (mhz * 100 < 1250 * 99 ∨ 1250 * 101 < mhz * 100) ∧ s.saf.recQ.length < 32) ∧
    (∃ (s : State) (mhz : Nat), (mhz * 100 < 1250 * 99 ∨ 1250 * 101 < mhz * 100) ∧ s.saf.recQ.length < 32) ∧
    (∃ (s : State) (n : Fin 4096), regFld s 0x400000 15 0 ≠ 0 ∧ (coreOf s n).gateReq = false ∧ coreIdle s n = true) ∧
    (∃ (s : State) (n : Fin 4096), (coreOf s n).gateReq = true) ∧
    (∃ (s : State) (n : Fin 4096), (coreOf s n).gateReq = false ∧ s.saf.safe = false) :=
  ⟨⟨{ gtb := { now := 9000 } }, 7, 3, by decide +kernel⟩,
    ⟨fieldIs {} { offReq := true }, 0, by decide +kernel⟩,
    ⟨fieldIs {} { offReq := true }, 0, by decide +kernel⟩,
    ⟨fieldIs {} { offReq := true, offAck := true, train := 2 }, 0, by decide +kernel⟩,
    ⟨{}, 1237, by decide +kernel⟩,
    ⟨{}, 1263, by decide +kernel⟩,
    ⟨regsOf [(0x400000, 1)], 4095, by decide +kernel⟩,
    ⟨{ disp := { cores := [(5, { gateReq := true })] } }, 5, by decide +kernel⟩,
    ⟨{ disp := { cores := [(5, { gateAck := true })], runs := [(0, { run0 with core := 5, state := 2 })] } }, 5,
      by decide +kernel⟩⟩

theorem test_meets_GroupTimeAcquired :
    (∃ (s : State) (bits : BitVec 96) (spaced : Bool), regBit s 0x900000 0 = true ∧ gtbRefOnly s = false ∧ (frameForm
      s bits.toNat spaced && frameFollows s bits.toNat) = false) ∧
    (∃ (s : State) (bits : BitVec 96) (spaced : Bool), regBit s 0x900000 0 = true ∧ gtbRefOnly s = false ∧ (frameForm
      s bits.toNat spaced && frameFollows s bits.toNat) = true) ∧
    (∃ (s : State) (u : Nat), regBit s 0x900000 0 = true ∧ gtbRefOnly s = false ∧ s.gtb.loadAt = some u ∧ gtbState s ≠
      0 ∧ s.gtb.now < ((u : Int) + signed 16 (regFld s 0x900014 15 0) * 80).toNat) ∧
    (∃ (s : State), regBit s 0x900000 0 = true ∧ gtbRefOnly s = true) ∧
    (∃ (s : State), s.gtb.acq = true ∧ s.gtb.loaded = true ∧ 16 ≤ s.gtb.okEdges) ∧
    (∃ (s : State), setupDone s = true) ∧
    (∃ (s : State) (w : Word), setupDone s = false ∧ bitAt w.toNat 0 = true ∧ regBit s 0x900000 0 = false) :=
  ⟨⟨regsOf [(0x900000, 1)], 0, true, by decide +kernel⟩,
    ⟨{ regsOf [(0x900000, 1)] with gtb := { prev := some (15, 6), bad := 3, good := 1 } }, goodFrame, true,
      by decide +kernel⟩,
    ⟨{ regsOf [(0x900000, 1)] with gtb := { loadAt := some 100000 } }, 100000, by decide +kernel⟩,
    ⟨regsOf [(0x900000, 3)], by decide +kernel⟩,
    ⟨{ gtb := { acq := true, loaded := true, okEdges := 16 } }, by decide +kernel⟩,
    ⟨regsOf [(0x14, 1)], by decide +kernel⟩,
    ⟨{}, 0xFFFFFFFF, by decide +kernel⟩⟩

theorem test_meets_Doorbells :
    (∃ (s : State) (c : Fin 64) (r : Fin 4) (v : Word), ctxEnabled s c = true ∧ ringEn s c r = true ∧ cdiff v.toNat
      (ringOf s c r).dbLast ≤ sqSize s c r ∧ cdiff v.toNat (ringOf s c r).head ≤ sqSize s c r) ∧
    (∃ (s : State), Memory.wf s.host = true) ∧
    (∃ (s : State) (c : Fin 64) (r : Fin 4), (ctxEnabled s c && ringEn s c r) = false) ∧
    (∃ (s : State) (c : Fin 64) (v : Word), (ctxEnabled s c = true ∨ ctxIdle s c = false) ∧ cdiff v.toNat (hctx s
      c).cqCons ≤ cdiff (hctx s c).cqProd (hctx s c).cqCons) ∧
    (∃ (s : State) (c : Fin 64), ctxEnabled s c = false ∧ ctxIdle s c = true) ∧
    (∃ (s : State) (c : Fin 64) (v : Word), (ctxEnabled s c = true ∨ ctxIdle s c = false) ∧ cdiff v.toNat (hctx s
      c).eqCons ≤ cdiff (hctx s c).eqProd (hctx s c).eqCons ∧ (hctx s c).evSince = 0) ∧
    (∃ (s : State) (c : Fin 64), (hctx s c).irqPending = true ∧ (hctx s c).lastMsg = none) ∧
    (∃ (s : State) (c : Fin 64), (hctx s c).irqPending = false) ∧
    (∃ (s : State) (c : Fin 64) (u : Nat), (hctx s c).lastMsg = some u ∧ u + holdoff s c ≤ s.gtb.now ∧ (hctx s
      c).irqPending = true ∧ regBit s (hifBase c + 0x44) 31 = false) :=
  ⟨⟨regsOf [(0x110000, 0x80000000), (0x110088, 0x80000006)], 0, 0, 64, by decide +kernel⟩,
    ⟨regsOf [(0x110000, 0x80000000), (0x110088, 0x80000006)], by decide +kernel⟩,
    ⟨{}, 63, 3, by decide +kernel⟩,
    ⟨{ (regsOf [(0x110000, 0x80000000)]) with hif := { ctx := [(0, { cqProd := 3 })] } }, 0, 3, by decide +kernel⟩,
    ⟨{}, 0, by decide +kernel⟩,
    ⟨{ (regsOf [(0x110000, 0x80000000)]) with hif := { ctx := [(0, { eqProd := 2 })] } }, 0, 2, by decide +kernel⟩,
    ⟨{ (regsOf [(0x110044, 0x80000000), (0x110040, 9)]) with hif := { ctx := [(0, { irqPending := true })] } }, 0,
      by decide +kernel⟩,
    ⟨{}, 0, by decide +kernel⟩,
    ⟨{ (regsOf [(0x110044, 5)]) with hif := { ctx := [(0, { irqPending := true, lastMsg := some 0 })] },
                                     gtb := { now := 6553600 } }, 0, 0, by decide +kernel⟩⟩

theorem test_meets_CompletionPath :
    (∃ (s : State) (e : Cpl) (rest : List HifEntry), s.hif.cplQ = .cpl e :: rest ∧ cqFree s e.ctx = true) ∧
    (∃ (s : State) (e : EvEntry) (rest : List HifEntry), s.hif.cplQ = .event e :: rest) ∧
    (∃ (s : State) (m : Cmd) (rest : List Cmd), s.hif.unitQ = m :: rest ∧ m.opcode = 0 ∧ s.saf.safe = false ∧ bitAt
      m.flags 1 = false) :=
  ⟨⟨{ hif := { cplQ := [.cpl e0] } }, e0, [], by decide +kernel⟩,
    ⟨{ hif := { cplQ := [.event ev0, .cpl e0] } }, ev0, [.cpl e0], by decide +kernel⟩,
    ⟨nextIs {} (cmdOf 0 [(4, 8, 77)]), cmdOf 0 [(4, 8, 77)], [], by decide +kernel⟩⟩

theorem test_meets_RingsAndDescriptors :
    (∃ (s : State) (c : Nat) (r : Nat), fetchChoice s = some (c, r)) ∧
    (∃ (s : State), passable (arrive s) [] (arrive s).hif.fetchQ = none) ∧
    (∃ (s : State) (f : Fetch) (m : Cmd), s.hif.flight = [f] ∧ f.n = 1 ∧ s.hif.fetchQ = [] ∧ m =
      { ctx := f.ctx, ring := f.ring, seq := cadd f.seq 0, bytes := hostRead s f.ctx (f.base + cadd f.seq 0 % f.size *
          64) 64, uid := f.uids.getD 0 0 } ∧ mayPass (arrive s) m = true) ∧
    (∃ (s : State) (f : Fetch) (rest : List Fetch), s.hif.flight = f :: rest) ∧
    (∃ (s : State) (c : Fin 64) (w : Word), bitAt w.toNat 31 = true ∧ ctxConfigOk s c = false) ∧
    (∃ (s : State) (c : Fin 64) (w : Word), bitAt w.toNat 31 = true ∧ ctxConfigOk s c = true ∧ ctxEnabled s c = false
      ∧ ctxIdle s c = true) ∧
    (∃ (s : State) (c : Fin 64) (r : Fin 4) (w : Word), ringEn s c r = true ∧ bitAt w.toNat 31 = false) ∧
    (∃ (s : State) (c : Fin 64) (r : Fin 4) (w : Word), ringEn s c r = false ∧ bitAt w.toNat 31 = true ∧ bitAt w.toNat
      30 = false ∧ 6 ≤ fld w.toNat 4 0 ∧ fld w.toNat 4 0 ≤ 16 ∧ sqAddr s c r ≠ 0 ∧ ctxEnabled s c = true ∧ (ringOf s c
      r).resetWait = false) ∧
    (∃ (s : State) (c : Fin 64) (r : Fin 4) (w : Word), ringEn s c r = false ∧ bitAt w.toNat 31 = true ∧ bitAt w.toNat
      30 = false ∧ 6 ≤ fld w.toNat 4 0 ∧ fld w.toNat 4 0 ≤ 16 ∧ sqAddr s c r ≠ 0 ∧ ctxEnabled s c = true ∧ (ringOf s c
      r).resetWait = false) ∧
    (∃ (s : State) (c : Fin 64) (r : Fin 4) (w : Word), ringEn s c r = false ∧ bitAt w.toNat 31 = false) ∧
    (∃ (s : State) (c : Fin 64) (r : Fin 4), (ringOf s c r).resetWait = true ∧ (ringOf s c r).fetch = (ringOf s c
      r).head ∧ lostOf s c r = []) :=
  ⟨⟨{ (regsOf [(0x100000, 1), (0x110000, 0x80000000), (0x110088, 0x80000006)]) with hif := { ctx := [(0, {
                                                                                                           rings := [(0,
                                                                                                           {
                                                                                                             dbLast := 9
                                                                                                               })] })]
                                                                                               } }, 0, 0,
    by decide +kernel⟩,
    ⟨{}, by decide +kernel⟩,
    ⟨{ hif := { flight := [{ ctx := 0, ring := 0, seq := 0, n := 1 }] } }, { ctx := 0, ring := 0, seq := 0, n := 1 },
      cmdOf 0 [], by decide +kernel⟩,
    ⟨{ hif := { flight := [{ ctx := 1, ring := 2, seq := 0, n := 1 }] } }, { ctx := 1, ring := 2, seq := 0, n := 1 },
      [], by decide +kernel⟩,
    ⟨{}, 63, 0x80000000, by decide +kernel⟩,
    ⟨regsOf [(0x110008, 0x1000), (0x110010, 7), (0x110020, 0x1000), (0x110028, 14)], 0, 0x80000000,
      by decide +kernel⟩,
    ⟨regsOf [(0x110088, 0x80000006)], 0, 0, 0, by decide +kernel⟩,
    ⟨regsOf [(0x110000, 0x80000000), (0x110080, 0x1000)], 0, 0, 0x80000006, by decide +kernel⟩,
    ⟨regsOf [(0x110000, 0x80000000), (0x110080, 0x1000)], 0, 0, 0x80000010, by decide +kernel⟩,
    ⟨{}, 0, 3, 0x40000000, by decide +kernel⟩,
    ⟨{ hif := { ctx := [(0, { rings := [(0, { resetWait := true, fetch := 5, head := 5, enWait := true })] })] } }, 0,
      0, by decide +kernel⟩⟩

theorem test_meets_CompletionDecided :
    (∃ (s : State) (m : Cmd) (status : Nat), s.saf.safe = false ∧ bitAt m.flags 1 = true ∧ status = 0) ∧
    (∃ (s : State) (m : Cmd) (status : Nat), s.saf.safe = false ∧ (bitAt m.flags 1 = false ∨ status ≠ 0)) ∧
    (∃ (s : State) (m : Cmd) (status : Nat), s.saf.safe = false ∧ (bitAt m.flags 1 = false ∨ status ≠ 0)) ∧
    (∃ (s : State) (m : Cmd) (status : Nat), s.saf.safe = false ∧ (bitAt m.flags 1 = false ∨ status ≠ 0)) :=
  ⟨⟨{}, cmdOf 0 [(2, 1, 2)], 0, by decide +kernel⟩,
    ⟨{}, cmdOf 0 [(2, 1, 2)], 3, by decide +kernel⟩,
    ⟨{ hif := { outs := [{ ctx := 0, ring := 0, seq := 0 }] } }, cmdOf 0 [], 0, by decide +kernel⟩,
    ⟨{ hif := { outs := [{ ctx := 0, ring := 0, seq := 0 }] } }, cmdOf 0x100 [], 0x13, by decide +kernel⟩⟩

theorem test_meets_CriticalCheck :
    (∃ (s : State) (m : Cmd) (q : List Cmd), s.cau.inQ = m :: q ∧ s.cau.passed = false ∧ s.saf.safe = false ∧ regBit s
      0x180004 1 = true) ∧
    (∃ (s : State) (m : Cmd) (q : List Cmd), s.cau.inQ = m :: q ∧ s.cau.passed = false ∧ s.saf.safe = false ∧ regBit s
      0x180004 1 = false ∧ isEnrolment s m = false ∧ (slotOf s (keySlot m)).state = 2) ∧
    (∃ (s : State) (m : Cmd) (q : List Cmd), s.cau.inQ = m :: q ∧ s.cau.passed = false ∧ s.saf.safe = false ∧ regBit s
      0x180004 1 = false ∧ isEnrolment s m = false ∧ (slotOf s (keySlot m)).state = 0) ∧
    (∃ (s : State) (m : Cmd) (q : List Cmd), s.cau.inQ = m :: q ∧ s.cau.passed = false ∧ s.saf.safe = false ∧ regBit s
      0x180004 1 = false ∧ isEnrolment s m = false ∧ (slotOf s (keySlot m)).state = 1 ∧ (slotOf s (keySlot m)).owner ≠
      m.ctx) ∧
    (∃ (s : State) (m : Cmd) (q : List Cmd), s.cau.inQ = m :: q ∧ s.cau.passed = false ∧ s.saf.safe = false ∧ regBit s
      0x180004 1 = false ∧ isEnrolment s m = false ∧ (slotOf s (keySlot m)).state = 1 ∧ (slotOf s (keySlot m)).owner =
      m.ctx ∧ classGranted s m = false) ∧
    (∃ (s : State) (m : Cmd) (q : List Cmd) (key : List Byte), s.cau.inQ = m :: q ∧ s.cau.passed = false ∧ authCheck s
      m = .pass key) ∧
    (∃ (s : State) (m : Cmd) (q : List Cmd) (d : Nat), s.cau.inQ = m :: q ∧ s.cau.passed = false ∧ s.saf.safe = false
      ∧ authCheck s m = .stale d) :=
  ⟨⟨{ regsOf [(0x180004, 2)] with cau := { inQ := [cmdOf 0x700 []] } }, cmdOf 0x700 [], [], by decide +kernel⟩,
    ⟨{ cau := { inQ := [cmdOf 0x100 []], slots := [(0, { state := 2 })] } }, cmdOf 0x100 [], [], by decide +kernel⟩,
    ⟨{ cau := { inQ := [cmdOf 0x100 []] } }, cmdOf 0x100 [], [], by decide +kernel⟩,
    ⟨{ cau := { inQ := [cmdOf 0x100 []], slots := [(0, { state := 1, owner := 63, classes := 15 })] } }, cmdOf 0x100
      [], [], by decide +kernel⟩,
    ⟨{ cau := { inQ := [cmdOf 0x100 []], slots := [(0, { state := 1 })] } }, cmdOf 0x100 [], [], by decide +kernel⟩,
    ⟨{ regsOf [(0x110000, 0xC0000000)] with cau := { inQ := [cmdOf 0x700 []] } }, cmdOf 0x700 [], [], List.replicate
      16 0, by decide +kernel⟩,
    ⟨{ cau := { inQ := [cmdMac], slots := [(0, { state := 1, classes := 15, key := List.replicate 16 0 })] } },
      cmdMac, [], 0, by decide +kernel⟩⟩

theorem test_meets_KeyCommands :
    (∃ (s : State) (m : Cmd), isPassed s m 0x0700 ∧ s.cau.enrol = false ∧ keyLoadFault s m = none) ∧
    (∃ (s : State) (m : Cmd) (d : Nat), isPassed s m 0x0700 ∧ keyLoadFault s m = some d ∧ s.saf.safe = false) ∧
    (∃ (s : State) (m : Cmd), isPassed s m 0x0701 ∧ s.cau.enrol = false ∧ keyRetireFault m = none) :=
  ⟨⟨passedIs { cau := { newKey := List.replicate 16 1 } } (cmdOf 0x700 [(4, 1, 15), (8, 8, 5), (48, 8, 7)]), cmdOf
    0x700 [(4, 1, 15), (8, 8, 5), (48, 8, 7)], ⟨⟨_, rfl⟩, rfl, rfl, by decide +kernel⟩, by decide +kernel⟩,
    ⟨passedIs {} (cmdOf 0x700 [(4, 1, 16)]), cmdOf 0x700 [(4, 1, 16)], 4, ⟨⟨_, rfl⟩, rfl, rfl, by decide +kernel⟩,
      by decide +kernel⟩,
    ⟨passedIs { cau := { slots := [(15, { state := 1, key := [1] })] } } (cmdOf 0x701 [(4, 1, 15)]), cmdOf 0x701 [(4,
      1, 15)], ⟨⟨_, rfl⟩, rfl, rfl, by decide +kernel⟩, by decide +kernel⟩⟩

theorem test_meets_GraphLoads :
    (∃ (s : State) (m : Cmd) (h : List Byte), isPassed s m 0x0100 ∧ s.tge.loads.length < 4 ∧ loadOperands m = none ∧
      findImg s m.ctx (m.at 4 1) = none ∧ readSrc s m.ctx (bitAt (m.at 5 1) 0) (m.at 8 8) 256 = some h ∧ headerFault h
      (m.at 16 4) = none ∧ capacityFault s h = none) ∧
    (∃ (s : State) (m : Cmd) (i : Nat), isPassed s m 0x0100 ∧ s.tge.loads.length < 4 ∧ loadOperands m = some i ∧
      s.saf.safe = false) ∧
    (∃ (s : State) (i : Nat) (l : List Nat) (img : Img) (m : Cmd) (b : List Byte), s.tge.loads = i :: l ∧ imgOf s i =
      some img ∧ img.cmd = some m ∧ bodyFault s m none = none ∧ readSrc s m.ctx (bitAt (m.at 5 1) 0) (m.at 8 8) (m.at
      16 4) = some b ∧ contentFault s b ((m.bytes.drop 24).take 24) = none) ∧
    (∃ (s : State) (i : Nat) (l : List Nat) (img : Img) (m : Cmd) (o : Nat), s.tge.loads = i :: l ∧ imgOf s i = some
      img ∧ img.cmd = some m ∧ img.pending = none ∧ bodyFault s m (some o) = some o ∧ s.saf.safe = false) ∧
    (∃ (s : State) (i : Nat) (l : List Nat) (img : Img) (m : Cmd), s.tge.loads = i :: l ∧ imgOf s i = some img ∧
      img.cmd = some m) :=
  ⟨⟨passedIs (hostAt 4096 image0) (cmdOf 0x100 [(4, 1, 15), (8, 8, 4096), (16, 4, 320)]), cmdOf 0x100 [(4, 1, 15), (8,
    8, 4096), (16, 4, 320)], image0.take 256, ⟨⟨_, rfl⟩, rfl, rfl, by decide +kernel⟩, by decide +kernel⟩,
    ⟨passedIs {} (cmdOf 0x100 [(4, 1, 16)]), cmdOf 0x100 [(4, 1, 16)], 4, ⟨⟨_, rfl⟩, rfl, rfl, by decide +kernel⟩,
      by decide +kernel⟩,
    ⟨{ (hostAt 4096 image0) with tge := { loads := [0], imgs := [(0, { img0 with state := 0, cmd := some loadCmd })] }
                                   }, 0, [], { img0 with state := 0, cmd := some loadCmd }, loadCmd, image0,
      by decide +kernel⟩,
    ⟨{ tge := { loads := [0], imgs := [(0, { img0 with state := 0, cmd := some (cmdOf 0x100 [(16, 4, 320)]) })] } },
      0, [], { img0 with state := 0, cmd := some (cmdOf 0x100 [(16, 4, 320)]) }, cmdOf 0x100 [(16, 4, 320)], 319,
      by decide +kernel⟩,
    ⟨{ tge := { loads := [0], imgs := [(0, { img0 with state := 0, cmd := some (cmdOf 0x100 [(16, 4, 320)]) })] } },
      0, [], { img0 with state := 0, cmd := some (cmdOf 0x100 [(16, 4, 320)]) }, cmdOf 0x100 [(16, 4, 320)],
      by decide +kernel⟩⟩

theorem test_meets_GraphCommands :
    (∃ (s : State) (m : Cmd) (rest : List Cmd) (i : Nat) (img : Img), isNext s m rest 0x0101 ∧ m.at 4 1 < 16 ∧ m.at 5
      1 = 0 ∧ firstNonzero m.bytes 6 2 = none ∧ firstNonzero m.bytes 24 24 = none ∧ findImg s m.ctx (m.at 4 1 % 16) =
      some (i, img) ∧ img.state = 1 ∧ vintageOk false (m.at 8 8) img.last = true ∧ img.pending = none ∧ servingOf s
      m.ctx = none ∧ stepOf s i = none) ∧
    (∃ (s : State) (m : Cmd) (rest : List Cmd) (i : Nat) (img : Img) (st : Step), isNext s m rest 0x0101 ∧ m.at 4 1 <
      16 ∧ m.at 5 1 = 0 ∧ firstNonzero m.bytes 6 2 = none ∧ firstNonzero m.bytes 24 24 = none ∧ findImg s m.ctx (m.at
      4 1 % 16) = some (i, img) ∧ img.state = 1 ∧ vintageOk false (m.at 8 8) img.last = true ∧ img.pending = none ∧
      servingOf s m.ctx = none ∧ stepOf s i = some st) ∧
    (∃ (s : State) (m : Cmd) (rest : List Cmd) (i : Nat) (img : Img), isNext s m rest 0x0101 ∧ m.at 4 1 < 16 ∧ m.at 5
      1 = 0 ∧ firstNonzero m.bytes 6 2 = none ∧ firstNonzero m.bytes 24 24 = none ∧ findImg s m.ctx (m.at 4 1 % 16) =
      some (i, img) ∧ img.state = 1 ∧ vintageOk false (m.at 8 8) img.last = false ∧ s.saf.safe = false) ∧
    (∃ (s : State) (m : Cmd) (rest : List Cmd) (i : Nat) (img : Img) (st : Step), isNext s m rest 0x0102 ∧ m.at 4 1 <
      16 ∧ m.at 5 1 = 0 ∧ firstNonzero m.bytes 6 42 = none ∧ findImg s m.ctx (m.at 4 1 % 16) = some (i, img) ∧
      img.state = 1 ∧ stepOf s i = some st) ∧
    (∃ (s : State) (m : Cmd) (rest : List Cmd) (i : Nat) (img : Img), isNext s m rest 0x0102 ∧ m.at 4 1 < 16 ∧ m.at 5
      1 = 0 ∧ firstNonzero m.bytes 6 42 = none ∧ findImg s m.ctx (m.at 4 1 % 16) = some (i, img) ∧ img.state = 1 ∧
      stepOf s i = none) ∧
    (∃ (s : State) (m : Cmd) (rest : List Cmd) (i : Nat) (img : Img), isNext s m rest 0x0103 ∧ m.at 4 1 < 16 ∧
      firstNonzero m.bytes 5 43 = none ∧ findImg s m.ctx (m.at 4 1 % 16) = some (i, img) ∧ img.state = 1 ∧ stepOf s i
      = none ∧ img.pending = none ∧ servingOf s m.ctx = none) ∧
    (∃ (s : State) (i : Nat) (img : Img) (m : Cmd), s.tge.imgs = [(i, img)] ∧ img.state = 2 ∧ img.cmd = some m ∧
      s.saf.safe = false ∧ bitAt m.flags 1 = false) :=
  ⟨⟨nextIs { tge := imgs0 } (cmdOf 0x101 [(16, 8, 9)]), cmdOf 0x101 [(16, 8, 9)], [], 0, img0, ⟨rfl, rfl⟩,
    by decide +kernel⟩,
    ⟨nextIs { tge := steps0 } (cmdOf 0x101 [(8, 8, 1)]), cmdOf 0x101 [(8, 8, 1)], [], 0, img0, step0, ⟨rfl, rfl⟩,
      by decide +kernel⟩,
    ⟨nextIs { tge := { imgs := [(0, { img0 with last := 5 })] } } (cmdOf 0x101 [(8, 8, 5)]), cmdOf 0x101 [(8, 8, 5)],
      [], 0, { img0 with last := 5 }, ⟨rfl, rfl⟩, by decide +kernel⟩,
    ⟨nextIs { tge := steps0 } (cmdOf 0x102 []), cmdOf 0x102 [], [], 0, img0, step0, ⟨rfl, rfl⟩, by decide +kernel⟩,
    ⟨nextIs { tge := imgs0 } (cmdOf 0x102 []), cmdOf 0x102 [], [], 0, img0, ⟨rfl, rfl⟩, by decide +kernel⟩,
    ⟨nextIs { tge := imgs0 } (cmdOf 0x103 []), cmdOf 0x103 [], [], 0, img0, ⟨rfl, rfl⟩, by decide +kernel⟩,
    ⟨{ tge := { imgs := [(0, { img0 with state := 2, cmd := some (cmdOf 0x103 []) })] } }, 0,
      { img0 with state := 2, cmd := some (cmdOf 0x103 []) }, cmdOf 0x103 [], by decide +kernel⟩⟩

theorem test_meets_StepSweep :
    (∃ (s : State) (i : Nat) (st : Step) (img : Img), s.tge.steps = [(i, st)] ∧ st.phase = 0 ∧ imgOf s i = some img ∧
      modelHere s img.ctx = true ∧ parcelFault s st img = false ∧ reservedWaiters s + (waitTasks s img).length ≤
      32768) ∧
    (∃ (s : State) (i : Nat) (st : Step) (img : Img), s.tge.steps = [(i, st)] ∧ st.phase = 4 ∧ imgOf s i = some img ∧
      (∀ q ∈ s.syn.mats, ¬(q.src = 2 ∧ q.img = i)) ∧ digArea s img.ctx = 0 ∧ regBit s (rdyCtx img.ctx) 31 = false ∧
      s.blq.qs = []) ∧
    (∃ (s : State), nextSweep s = none) ∧
    (∃ (s : State) (n : Nat), nextSweep s = some n) ∧
    (∃ (s : State) (img : Img) (r : Nat), (tdWaitValid (descOf s (physTask img r)) = false) ∧ tdInCount (descOf s
      (physTask img r)) ≠ 0) ∧
    (∃ (s : State) (i : Nat) (st : Step) (img : Img), s.tge.steps = [(i, st)] ∧ tornDown s i st = true ∧ st.cause ≠ 9
      ∧ st.gateWrites = [] ∧ imgOf s i = some img) :=
  ⟨⟨{ tge := { imgs := [(0, img0)], steps := [(0, { step0 with phase := 0 })] } }, 0, { step0 with phase := 0 }, img0,
    by decide +kernel⟩,
    ⟨{ tge := { imgs := [(0, img0)], steps := [(0, { step0 with phase := 4 })] } }, 0, { step0 with phase := 4 },
      img0, by decide +kernel⟩,
    ⟨{}, by decide +kernel⟩,
    ⟨{ tge := { imgs := [(0, img0)], steps := [(0, { step0 with phase := 1, startCclk := 9 })] } }, 9,
      by decide +kernel⟩,
    ⟨{ tge := { imgs := [(0, img0)], tasks := [(0, bytesOf 64 [(4, 2, 32767)])] } }, img0, 0, by decide +kernel⟩,
    ⟨{ tge := { imgs := [(0, img0)], steps := [(0, { step0 with phase := 3 })] } }, 0, { step0 with phase := 3 },
      img0, by decide +kernel⟩⟩

theorem test_meets_GroupTimeLostAndPassing :
    (∃ (s : State), regBit s 0x900000 0 = true ∧ gtbArmed s = true) ∧
    (∃ (s : State), regBit s 0x900000 0 = true ∧ gtbArmed s = true) ∧
    (∃ (s : State), regBit s 0x900000 0 = true ∧ gtbArmed s = true) ∧
    (∃ (s : State), gtbState s = 1) ∧
    (∃ (s : State), gtbSlewing s = true ∧ 16 ≤ gtbBase s) ∧
    (∃ (s : State) (u : Nat), gtbSlewing s = false ∧ 0 < gtbBase s ∧ s.gtb.now < u) ∧
    (∃ (s : State) (u : Nat), gtbSlewing s = false ∧ 0 < gtbBase s ∧ s.gtb.now < u) :=
  ⟨⟨regsOf [(0x900000, 1), (0x900004, 0x40), (0x90000C, 1)], by decide +kernel⟩,
    ⟨regsOf [(0x900000, 1), (0x900004, 0), (0x90000C, 0)], by decide +kernel⟩,
    ⟨regsOf [(0x900000, 1)], by decide +kernel⟩,
    ⟨regsOf [(0x900004, 1)], by decide +kernel⟩,
    ⟨{ regsOf [(0x900004, 0x40)] with gtb := { slewLeft := 1000 } }, by decide +kernel⟩,
    ⟨{}, 1, by decide +kernel⟩,
    ⟨{}, 4096, by decide +kernel⟩⟩

theorem test_meets_DelayedTasks :
    (∃ (s : State) (r : Ready) (d : Nat), (s.disp.ready.filter fun r => r.due.isSome) = [r] ∧ r.due = some d ∧
      s.disp.timers.length < 8192 ∧ (s.gtb.now < d ∨ s.saf.safe = true)) ∧
    (∃ (s : State) (r : Ready) (d : Nat), (s.disp.ready.filter fun r => r.due.isSome) = [r] ∧ r.due = some d ∧
      s.disp.timers.length < 8192 ∧ d ≤ s.gtb.now ∧ s.saf.safe = false) ∧
    (∃ (s : State) (r : Ready), 8192 ≤ s.disp.timers.length ∧ (s.disp.ready.filter fun r => r.due.isSome) = [r] ∧
      r.parked = false) ∧
    (∃ (s : State) (r : Ready), 8192 ≤ s.disp.timers.length ∧ (s.disp.ready.filter fun r => r.due.isSome) = [r] ∧
      r.parked = true) ∧
    (∃ (s : State) (e : Timer), s.disp.timers = [e] ∧ s.saf.safe = false ∧ e.due ≤ (advanceTo e.due s).gtb.now) ∧
    (∃ (s : State), s.saf.safe = true) ∧
    (∃ (w : Word), bitAt w.toNat 31 = false) ∧
    (∃ (s : State) (c : Fin 64) (w : Word), bitAt w.toNat 31 = true ∧ regBit s (rdyCtx c) 31 = false ∧ 8 ≤
      ((List.range 64).filter fun k => k != c.val && regBit s (rdyCtx k) 31).length) :=
  ⟨⟨{ disp := { ready := [{ ready0 with due := some 100 }] } }, { ready0 with due := some 100 }, 100,
    by decide +kernel⟩,
    ⟨{ disp := { ready := [{ ready0 with due := some 100 }] }, gtb := { now := 100 } },
      { ready0 with due := some 100 }, 100, by decide +kernel⟩,
    ⟨{ disp := { ready := [{ ready0 with due := some 100 }], timers := List.replicate 8192
                   { ctx := 0, img := 0, task := 0, due := 0 } } }, { ready0 with due := some 100 },
      Nat.le_of_eq List.length_replicate.symm, by decide +kernel⟩,
    ⟨{ disp := { ready := [{ ready0 with due := some 100, parked := true }], timers := List.replicate 8192
                   { ctx := 0, img := 0, task := 0, due := 0 } } }, { ready0 with due := some 100, parked := true },
      Nat.le_of_eq List.length_replicate.symm, by decide +kernel⟩,
    ⟨{ disp := { timers := [{ ctx := 0, img := 0, task := 0, due := 5000 }] } },
      { ctx := 0, img := 0, task := 0, due := 5000 }, by decide +kernel⟩,
    ⟨{ saf := { safe := true } }, by decide +kernel⟩,
    ⟨0x7FFFFFFF, by decide +kernel⟩,
    ⟨regsOf ((List.range 8).map fun k => (rdyCtx (k + 1), 0x80000000)), 0, 0xFFFFFFFF, by decide +kernel⟩⟩

theorem test_meets_DecrementsAndGates :
    (∃ (s : State) (bank : Fin 16) (e : Dec) (q : List Dec) (i : Nat) (img : Img) (st : Step), s.tge.decQ = e :: q ∧
      e.task % 16 = bank.val ∧ imgOfTask s e.task = some (i, img) ∧ stepOf s i = some st ∧ st.phase = 2) ∧
    (∃ (s : State) (bank : Fin 16) (e : Dec) (q : List Dec) (i : Nat) (img : Img) (st : Step), s.tge.decQ = e :: q ∧
      e.task % 16 = bank.val ∧ imgOfTask s e.task = some (i, img) ∧ stepOf s i = some st ∧ st.phase = 2) ∧
    (∃ (s : State) (e : Dec), cntA s e.task = cntB s e.task ∧ 2 ≤ cwCount (cntA s e.task)) ∧
    (∃ (s : State) (e : Dec), cntA s e.task = cntB s e.task ∧ cwCount (cntA s e.task) = 0) ∧
    (∃ (s : State) (e : Dec), cntA s e.task ≠ cntB s e.task) ∧
    (∃ (s : State) (i : Nat) (g : Nat) (st : Step) (img : Img), s.saf.safe = false ∧ nextGate s = some (i, g, st, img)
      ∧ gdNf (descOf s g) = false ∧ gdSpike (descOf s g) = false ∧ gdProv (descOf s g) = false) ∧
    (∃ (s : State) (i : Nat) (g : Nat) (st : Step) (img : Img), s.saf.safe = false ∧ nextGate s = some (i, g, st, img)
      ∧ gdNf (descOf s g) = true ∧ gdSpike (descOf s g) = false) ∧
    (∃ (s : State) (i : Nat) (l : Launch) (img : Img), imgOf s i = some img ∧ l.replay = false ∧ img.pending = none) ∧
    (∃ (s : State), s.saf.safe = true) ∧
    (∃ (s : State) (i : Nat) (st : Step) (img : Img) (w : GateWrite) (rest : List GateWrite), s.tge.steps = [(i, st)]
      ∧ st.gateWrites = w :: rest ∧ imgOf s i = some img ∧ w.issued = false ∧ w.pass = true ∧ writeBlocked
      (unitWritePlain s img.ctx w.va w.bytes) img.ctx w.va = false) ∧
    (∃ (s : State) (i : Nat) (st : Step) (img : Img) (w : GateWrite) (rest : List GateWrite) (t : State), s.tge.steps
      = [(i, st)] ∧ st.gateWrites = w :: rest ∧ imgOf s i = some img ∧ w.issued = false ∧ w.pass = true ∧ t =
      walkError (notePageFault s img.ctx 5 (w.va / 65536) 0 true st.launch.vint) img.ctx w.va ∧ writeBlocked t img.ctx
      w.va = false) ∧
    (∃ (s : State) (i : Nat) (st : Step) (img : Img) (w : GateWrite) (rest : List GateWrite), s.tge.steps = [(i, st)]
      ∧ st.gateWrites = w :: rest ∧ imgOf s i = some img ∧ w.issued = true ∧ writeBlocked s img.ctx w.va = true) :=
  ⟨⟨{ tge := { steps0 with decQ := [{ task := 15 }], cntA := [(15, 0x20002)], cntB := [(15, 0x20002)] } }, 15,
    { task := 15 }, [], 0, img0, step0, by decide +kernel⟩,
    ⟨{ tge := { steps0 with decQ := [{ task := 0, burst := some 5 }, { task := 16, burst := some 5 }] } }, 0,
      { task := 0, burst := some 5 }, [{ task := 16, burst := some 5 }], 0, img0, step0, by decide +kernel⟩,
    ⟨{ tge := { steps0 with cntA := [(15, 0x20002)], cntB := [(15, 0x20002)] } }, { task := 15 }, by decide +kernel⟩,
    ⟨{ tge := steps0 }, { task := 15 }, by decide +kernel⟩,
    ⟨{ tge := { steps0 with cntA := [(15, 1)] } }, { task := 15 }, by decide +kernel⟩,
    ⟨{ tge := steps0, disp := { gates := [(0, 3)] } }, 0, 3, step0, img0, by decide +kernel⟩,
    ⟨{ tge := { steps0 with tasks := [(3, bytesOf 64 [(32, 1, 1)])] }, disp := { gates := [(0, 3)] } }, 0, 3, step0,
      img0, by decide +kernel⟩,
    ⟨{ tge := imgs0 }, 0, launch0, img0, by decide +kernel⟩,
    ⟨{ saf := { safe := true } }, by decide +kernel⟩,
    ⟨{ tge := { imgs := [(0, img0)], steps := [(0,
                { step0 with gateWrites := [{ task := 3, pass := true, va := 0, bytes := [] }] })] } }, 0,
      { step0 with gateWrites := [{ task := 3, pass := true, va := 0, bytes := [] }] }, img0,
      { task := 3, pass := true, va := 0, bytes := [] }, [], by decide +kernel⟩,
    ⟨{ tge := { imgs := [(0, img0)], steps := [(0, { step0 with gateWrites := [gw true false] })] } }, 0,
      { step0 with gateWrites := [gw true false] }, img0, gw true false, [], walkError (notePageFault
      ({ tge := { imgs := [(0, img0)], steps := [(0, { step0 with gateWrites := [gw true false] })] } } : State)
      (img0).ctx 5 ((gw true false).va / 65536) 0 true ({ step0 with gateWrites := [gw true false] } :
      Step).launch.vint) (img0).ctx (gw true false).va, by decide +kernel⟩,
    ⟨{ tge := { imgs := [(0, img0)], steps := [(0,
                { step0 with gateWrites := [{ task := 3, pass := true, va := 0, bytes := [], issued := true }] })] },
       pat := { waits := [.write 0 0 []] } }, 0,
      { step0 with gateWrites := [{ task := 3, pass := true, va := 0, bytes := [], issued := true }] }, img0,
      { task := 3, pass := true, va := 0, bytes := [], issued := true }, [], by decide +kernel⟩⟩

theorem test_meets_DispatchOrder :
    (∃ (s : State) (p : Nat) (kind : Nat) (c : Nat), (∀ b, b < 64 → 0 < ctxWeight s b) ∧ bestCtx s p kind = some c) ∧
    (∃ (s : State) (ch : Choice), (fieldOf s ch.field).dispQ.length < 16) ∧
    (∃ (s : State) (ch : Choice), 16 ≤ (fieldOf s ch.field).dispQ.length) ∧
    (∃ (s : State), (selectAll s).2 = []) ∧
    (∃ (s : State) (f : Fin 8) (id : Nat) (n : Nat) (e : Nat) (x : Run) (rest : List DispItem), (fieldOf s f).dispQ =
      .start id :: rest ∧ runOf s id = some x ∧ x.staged = false ∧ x.mapped = none ∧ placeOf s x = some (n, e) ∧
      fieldStopped s f = false) ∧
    (∃ (s : State) (f : Fin 8) (w : Withdrawal) (rest : List DispItem), (fieldOf s f).dispQ = .withdraw w :: rest ∧
      fieldStopped s f = false ∧ runOf s w.run = none) ∧
    (∃ (s : State) (t : State) (f : Fin 8) (w : Withdrawal) (x : Run) (rest : List DispItem), (fieldOf s f).dispQ =
      .withdraw w :: rest ∧ fieldStopped s f = false ∧ runOf s w.run = some x ∧ x.state = 1 ∧ x.killed = none ∧
      withdrawTo (setField s f { fieldOf s f with dispQ := rest }) w.run x w = (t, none)) ∧
    (∃ (s : State) (f : Fin 8) (w : Withdrawal) (x : Run) (rest : List DispItem), (fieldOf s f).dispQ = .withdraw w ::
      rest ∧ fieldStopped s f = false ∧ runOf s w.run = some x ∧ (x.state ≠ 1 ∨ x.killed.isSome = true)) ∧
    (∃ (s : State) (f : Fin 8), fieldStopped s f = true) :=
  ⟨⟨placed, 1, 0, 0, by decide +kernel⟩,
    ⟨placed, { field := 0, place := some (3, 1), staged := false, reason := 0 }, by decide +kernel⟩,
    ⟨fieldIs placed { train := 2, dispQ := List.replicate 16 (.start 0) },
      { field := 0, place := some (3, 1), staged := false, reason := 0 }, by decide +kernel⟩,
    ⟨{ }, by decide +kernel⟩,
    ⟨runIs (fieldIs placed { train := 2, dispQ := [.start 0] }) { run0 with state := 0 }, 0, 0, 0, 0,
      { run0 with state := 0 }, [], by decide +kernel⟩,
    ⟨fieldIs {} { dispQ := [.withdraw { run := 4, task := run0, field := 0, core := 3, engine := 1 }] }, 0,
      { run := 4, task := run0, field := 0, core := 3, engine := 1 }, [], by decide +kernel⟩,
    ⟨runIs (fieldIs {} { dispQ := [.withdraw { run := 0, task := run0, field := 0, core := 3, engine := 1 }] })
      { run0 with state := 1 }, (withdrawTo (runIs (fieldIs {} {}) { run0 with state := 1 }) 0
      { run0 with state := 1 } { run := 0, task := run0, field := 0, core := 3, engine := 1 }).1, 0,
      { run := 0, task := run0, field := 0, core := 3, engine := 1 }, { run0 with state := 1 }, [],
      by decide +kernel⟩,
    ⟨runIs (fieldIs {} { dispQ := [.withdraw { run := 0, task := run0, field := 0, core := 3, engine := 1 }] }) run0,
      0, { run := 0, task := run0, field := 0, core := 3, engine := 1 }, run0, [], by decide +kernel⟩,
    ⟨{ clk := [(0, { clk := 2 })] }, 0, by decide +kernel⟩⟩

theorem test_meets_KillsAndWatchdog :
    (∃ (s : State) (id : Nat) (x : Run), runOf s id = some x ∧ (x.committed = true ∨ x.killed.isSome = true)) ∧
    (∃ (s : State) (f : Fin 8) (id : Nat) (x : Run) (rest : List GrantItem), calm s ∧ (∀ w, rest.head? ≠ some (.resp
      w)) ∧ (fieldOf s f).grantQ = .kill id :: rest ∧ runOf s id = some x ∧ x.state = 3 ∧ x.kind ≠ 3 ∧ fieldStopped s
      f = false ∧ x.counted = true) ∧
    (∃ (s : State) (f : Fin 8) (id : Nat) (x : Run) (rest : List GrantItem), (fieldOf s f).grantQ = .kill id :: rest ∧
      runOf s id = some x ∧ x.state = 3 ∧ x.kind ≠ 3 ∧ fieldStopped s f = false) ∧
    (∃ (s : State) (f : Fin 8), fieldStopped s f = true) ∧
    (∃ (s : State) (id : Nat) (u : Nat) (x : Run), oldestKill s = some (id, x, u) ∧ x.kind ≠ 3) ∧
    (∃ (s : State) (id : Nat) (x : Run), nextWdog s = some (id, x) ∧ x.kind ≠ 3) :=
  ⟨⟨runIs {} { run0 with committed := true }, 0, { run0 with committed := true }, by decide +kernel⟩,
    ⟨runIs (fieldIs { gtb := { now := 77 } } { grantQ := [.kill 0] }) { run0 with counted := true }, 0, 0,
      { run0 with counted := true }, [], by unfold calm; decide +kernel, by simp, by decide +kernel⟩,
    ⟨runIs (fieldIs { gtb := { now := 77 } } { grantQ := [.kill 0, .resp 5] }) { run0 with killed := some 2 }, 0, 0,
      { run0 with killed := some 2 }, [.resp 5], by decide +kernel⟩,
    ⟨fieldIs { clk := [(0, { clk := 3 })] } { grantQ := [.kill 0] }, 0, by decide +kernel⟩,
    ⟨runIs {} { run0 with killAt := some 500, killed := some 1 }, 0, 500,
      { run0 with killAt := some 500, killed := some 1 }, by decide +kernel⟩,
    ⟨runIs {} { run0 with wdog := 4096 }, 0, { run0 with wdog := 4096 }, by decide +kernel⟩⟩

theorem test_meets_RunsEnd :
    (∃ (s : State) (core : Fin 4096) (e : Fin 8) (slot : Fin 4) (id : Nat) (x : Run), slotRun s core slot = some (id,
      x) ∧ x.engine = e.val) ∧
    (∃ (s : State) (core : Fin 4096) (e : Fin 8) (slot : Fin 4) (id : Nat) (x : Run), slotRun s core slot = some (id,
      x) ∧ x.engine = e.val) ∧
    (∃ (s : State) (x : Run), (fieldOf s x.field).cplQ.length < 32) ∧
    (∃ (s : State) (core : Fin 4096) (slot : Fin 4) (d : BitVec 128) (id : Nat) (x : Run), calm s ∧ slotRun s core
      slot = some (id, x) ∧ runOf s id = some x ∧ x.reqs + 1 < 65536 ∧ 1 ≤ fld d.toNat 127 124 ∧ fld d.toNat 127 124 ≤
      5) ∧
    (∃ (s : State) (core : Fin 4096) (slot : Fin 4) (d : BitVec 128) (id : Nat) (x : Run), calm s ∧ slotRun s core
      slot = some (id, x) ∧ runOf s id = some x ∧ x.reqs + 1 < 65536 ∧ 1 ≤ fld d.toNat 127 124 ∧ fld d.toNat 127 124 ≤
      5) ∧
    (∃ (s : State) (f : Fin 8) (full : Bool) (i : EffItem) (rest : List EffItem) (x : Run), (fieldOf s f).effQ = i ::
      rest ∧ runOf s i.run = some x ∧ x.killed = none ∧ fullQueue s i.eff.unit full = none) ∧
    (∃ (s : State) (f : Fin 8) (full : Bool) (i : EffItem) (rest : List EffItem) (x : Run), (fieldOf s f).effQ = i ::
      rest ∧ runOf s i.run = some x ∧ x.killed = none ∧ fullQueue s i.eff.unit full = none) ∧
    (∃ (s : State) (f : Fin 8) (full : Bool) (i : EffItem) (rest : List EffItem) (x : Run) (unit : Nat) (qctl : Nat)
      (ctxs : List Nat), (fieldOf s f).effQ = i :: rest ∧ runOf s i.run = some x ∧ x.killed = none ∧ fullQueue s
      i.eff.unit full = some (unit, qctl, ctxs)) ∧
    (∃ (s : State) (f : Fin 8) (full : Bool) (i : EffItem) (rest : List EffItem) (x : Run) (unit : Nat) (qctl : Nat)
      (ctxs : List Nat), (fieldOf s f).effQ = i :: rest ∧ runOf s i.run = some x ∧ x.killed = none ∧ fullQueue s
      i.eff.unit full = some (unit, qctl, ctxs)) ∧
    (∃ (s : State) (f : Fin 8) (i : EffItem) (rest : List EffItem) (x : Run), (fieldOf s f).effQ = i :: rest ∧ runOf s
      i.run = some x ∧ x.killed.isSome = true) ∧
    (∃ (s : State) (f : Fin 8) (i : CplItem) (rest : List CplItem) (x : Run), (fieldOf s f).cplQ = i :: rest ∧ runOf s
      i.run = some x ∧ x.killed = none ∧ x.state = 4) :=
  ⟨⟨runIs {} { run0 with core := 5, slot := 2, engine := 3 }, 5, 3, 2, 0,
    { run0 with core := 5, slot := 2, engine := 3 }, by decide +kernel⟩,
    ⟨runIs {} { run0 with core := 5, slot := 2, engine := 3 }, 5, 3, 2, 0,
      { run0 with core := 5, slot := 2, engine := 3 }, by decide +kernel⟩,
    ⟨fieldIs {} { cplQ := List.replicate 31 { run := 9, count := 0 } }, { run0 with sent := 65535 },
      by decide +kernel⟩,
    ⟨runIs {} { run0 with reqs := 65534, sent := 65535 }, 0, 0, 0x5F0000000000000000000000000000FF, 0,
      { run0 with reqs := 65534, sent := 65535 }, by unfold calm; decide +kernel, by decide +kernel⟩,
    ⟨runIs {} { run0 with field := 7 }, 0, 0, 0x10000000000000000000000000000000, 0, { run0 with field := 7 },
      by unfold calm; decide +kernel, by decide +kernel⟩,
    ⟨runIs (fieldIs {} { effQ := [{ run := 0, eff := { unit := 2, op := 0, data := 0 } }] }) run0, 0, false,
      { run := 0, eff := { unit := 2, op := 0, data := 0 } }, [], run0, by decide +kernel⟩,
    ⟨runIs (fieldIs {} { effQ := [{ run := 0, eff := { unit := 5, op := 0, data := 0 } }] }) run0, 0, false,
      { run := 0, eff := { unit := 5, op := 0, data := 0 } }, [], run0, by decide +kernel⟩,
    ⟨runIs (fieldIs {} { effQ := [{ run := 0, eff := { unit := 2, op := 0, data := 0 } }] }) run0, 0, true,
      { run := 0, eff := { unit := 2, op := 0, data := 0 } }, [], run0, 0x0A, 0x580020, allCtxs, by decide +kernel⟩,
    ⟨{ runIs (fieldIs {} { effQ := [{ run := 0, eff := { unit := 1, op := 0, data := 0 } }] }) run0 with syn := {
                                                                                                                  newWaits := List.replicate
                                                                                                                    32
                                                                                                                    0
                                                                                                                    }
                                                                                                           }, 0,
      false, { run := 0, eff := { unit := 1, op := 0, data := 0 } }, [], run0, 9, 0x500030, allCtxs,
      by decide +kernel⟩,
    ⟨runIs (fieldIs {} { effQ := [{ run := 0, eff := { unit := 2, op := 0, data := 0 } }] })
      { run0 with killed := some 1 }, 0, { run := 0, eff := { unit := 2, op := 0, data := 0 } }, [],
      { run0 with killed := some 1 }, by decide +kernel⟩,
    ⟨runIs (fieldIs {} { cplQ := [{ run := 0, count := 0 }] }) { run0 with state := 4 }, 0, { run := 0, count := 0 },
      [], { run0 with state := 4 }, by decide +kernel⟩⟩

theorem test_meets_CommitsInOrder :
    (∃ (s : State) (r : Nat) (x : Run), runOf s r = some x ∧ x.stated = some x.registered ∧ x.killed = none ∧
      x.committed = false ∧ s.saf.safe = false ∧ groupOf s x = 0) ∧
    (∃ (s : State) (r : Nat) (x : Run), runOf s r = some x ∧ x.stated ≠ some x.registered) ∧
    (∃ (s : State) (q : CommitItem), nextCommit s [] s.disp.readyQ = some q) ∧
    (∃ (s : State) (lost : Fin 8) (ids : List Nat) (t : State), nextCommit s [] s.disp.readyQ = some (.runs ids) ∧ t =
      commitLoss s lost (.runs ids)) ∧
    (∃ (s : State) (lost : Fin 8) (ids : List Nat) (t : State), nextCommit s [] s.disp.readyQ = some (.runs ids) ∧ t =
      commitLoss s lost (.runs ids)) ∧
    (∃ (s : State) (i : Nat) (u : Nat), nextCommit s [] s.disp.readyQ = some (.signal i u)) :=
  ⟨⟨runIs {} { run0 with stated := some 0 }, 0, { run0 with stated := some 0 }, by decide +kernel⟩,
    ⟨runIs {} { run0 with stated := some 1 }, 0, { run0 with stated := some 1 }, by decide +kernel⟩,
    ⟨{ runIs {} run0 with saf := { safe := true } } |> fun s =>
      { s with disp := { s.disp with readyQ := [.signal 3 0, .runs [0]] },
               tge := { imgs := [(3, { img0 with ctx := 1 })] } }, .runs [0], by decide +kernel⟩,
    ⟨runIs {} run0 |> fun s => { s with disp := { s.disp with readyQ := [.runs [0]] } }, 0, [0], commitLoss (runIs {}
      run0 |> fun s => { s with disp := { s.disp with readyQ := [.runs [0]] } } : State) (0) (.runs ([0])),
      by decide +kernel⟩,
    ⟨runIs {} { run0 with fresh := [{ va := 0, large := false, frame := 300 }] } |> fun s =>
      { s with disp := { s.disp with readyQ := [.runs [0]] } }, 5, [0], commitLoss (runIs {}
      { run0 with fresh := [{ va := 0, large := false, frame := 300 }] } |> fun s =>
      { s with disp := { s.disp with readyQ := [.runs [0]] } } : State) (5) (.runs ([0])), by decide +kernel⟩,
    ⟨{ tge := imgs0, disp := { readyQ := [.signal 0 0] } }, 0, 0, by decide +kernel⟩⟩

theorem test_meets_HostSyncAndGrants :
    (∃ (s : State) (m : Cmd) (rest : List Cmd) (k : Nat) (o : SynObj) (op : Nat), isNext s m rest op ∧ calm s ∧
      matWaiting s m.ctx (m.at 4 2) = false ∧ findObj s m.ctx (m.at 4 2) = some k ∧ tget? s.syn.objA k = some o ∧
      tget? s.syn.objB k = some o ∧ frozenAt s k = none ∧ o.barrier = false ∧ o.gq = [] ∧ o.dq = [] ∧ 1 ≤ m.at 8 4 ∧
      s.saf.safe = false ∧ bitAt m.flags 1 = false ∧ op = 0x0200 ∧ m.at 8 4 ≤ 0x7FFFFFFF ∧ m.at 12 2 = 0 ∧ bitAt (m.at
      14 1) 0 = false ∧ o.value + o.dunits + m.at 8 4 ≤ o.limit) ∧
    (∃ (s : State) (m : Cmd) (rest : List Cmd) (k : Nat) (o : SynObj) (op : Nat), isNext s m rest op ∧ calm s ∧
      matWaiting s m.ctx (m.at 4 2) = false ∧ findObj s m.ctx (m.at 4 2) = some k ∧ tget? s.syn.objA k = some o ∧
      tget? s.syn.objB k = some o ∧ frozenAt s k = none ∧ o.barrier = false ∧ o.gq = [] ∧ o.dq = [] ∧ 1 ≤ m.at 8 4 ∧
      s.saf.safe = false ∧ bitAt m.flags 1 = false ∧ op = 0x0203 ∧ m.at 8 4 ≤ 0x7FFFFFFF ∧ m.at 12 2 = 0 ∧ bitAt (m.at
      14 1) 0 = false ∧ m.at 8 4 ≤ o.value) ∧
    (∃ (s : State) (m : Cmd) (rest : List Cmd) (k : Nat) (o : SynObj) (op : Nat), isNext s m rest op ∧ calm s ∧
      matWaiting s m.ctx (m.at 4 2) = false ∧ findObj s m.ctx (m.at 4 2) = some k ∧ tget? s.syn.objA k = some o ∧
      tget? s.syn.objB k = some o ∧ frozenAt s k = none ∧ o.barrier = false ∧ o.gq = [] ∧ o.dq = [] ∧ 1 ≤ m.at 8 4 ∧
      s.saf.safe = false ∧ bitAt m.flags 1 = false ∧ op = 0x0203 ∧ m.at 8 4 ≤ 0x7FFFFFFF ∧ m.at 12 2 = 0 ∧ bitAt (m.at
      14 1) 0 = false ∧ o.value < m.at 8 4) ∧
    (∃ (s : State) (m : Cmd) (rest : List Cmd) (k : Nat) (o : SynObj) (op : Nat), isNext s m rest op ∧ calm s ∧
      matWaiting s m.ctx (m.at 4 2) = false ∧ findObj s m.ctx (m.at 4 2) = some k ∧ tget? s.syn.objA k = some o ∧
      tget? s.syn.objB k = some o ∧ frozenAt s k = none ∧ o.barrier = false ∧ o.gq = [] ∧ o.dq = [] ∧ 1 ≤ m.at 8 4 ∧
      s.saf.safe = false ∧ bitAt m.flags 1 = false ∧ op = 0x0201 ∧ m.at 8 4 ≤ 65535 ∧ bitAt (m.at 14 1) 0 = false ∧
      m.at 12 2 ≠ 0 ∧ o.dunits = 0 ∧ o.value + m.at 8 4 ≤ o.limit) ∧
    (∃ (s : State) (m : Cmd) (rest : List Cmd) (k : Nat) (o : SynObj) (op : Nat), isNext s m rest op ∧ calm s ∧
      matWaiting s m.ctx (m.at 4 2) = false ∧ findObj s m.ctx (m.at 4 2) = some k ∧ tget? s.syn.objA k = some o ∧
      tget? s.syn.objB k = some o ∧ frozenAt s k = none ∧ o.barrier = false ∧ o.gq = [] ∧ o.dq = [] ∧ 1 ≤ m.at 8 4 ∧
      s.saf.safe = false ∧ bitAt m.flags 1 = false ∧ op = 0x0202 ∧ m.at 8 4 ≤ 65535 ∧ m.at 12 2 = 0 ∧ bitAt (m.at 14
      1) 0 = false ∧ o.value < m.at 8 4) ∧
    (∃ (s : State) (m : Cmd) (rest : List Cmd) (k : Nat) (o : SynObj) (op : Nat), isNext s m rest op ∧ calm s ∧
      matWaiting s m.ctx (m.at 4 2) = false ∧ findObj s m.ctx (m.at 4 2) = some k ∧ tget? s.syn.objA k = some o ∧
      tget? s.syn.objB k = some o ∧ frozenAt s k = none ∧ o.barrier = false ∧ o.gq = [] ∧ o.dq = [] ∧ 1 ≤ m.at 8 4 ∧
      s.saf.safe = false ∧ bitAt m.flags 1 = false ∧ op = 0x0203 ∧ m.at 8 4 ≤ 0x7FFFFFFF ∧ (m.at 12 2 ≠ 0 ∨ bitAt
      (m.at 14 1) 0 = true)) ∧
    (∃ (s : State) (k : Nat) (w : Nat) (rest : List Nat) (o : SynObj) (x : Waiter), objOf s k = some o ∧ o.gq = w ::
      rest ∧ waiterOf s w = some x ∧ x.units ≤ o.value) ∧
    (∃ (s : State) (k : Nat) (w : Nat) (rest : List Nat) (o : SynObj) (x : Waiter), objOf s k = some o ∧ o.gq = w ::
      rest ∧ waiterOf s w = some x ∧ o.value < x.units ∧ o.dq = []) ∧
    (∃ (s : State) (k : Nat) (w : Nat) (o : SynObj) (x : Waiter), objOf s k = some o ∧ waiterOf s w = some x ∧ x.units
      ≤ o.value ∧ objLive s k = true ∧ o.barrier = false ∧ o.gq = [w] ∧ o.dq = []) :=
  ⟨⟨nextIs { syn := { objA := [(7, obj0)], objB := [(7, obj0)] } } (cmdOf 0x200 [(4, 2, 5), (8, 4, 97)]), cmdOf 0x200
    [(4, 2, 5), (8, 4, 97)], [], 7, obj0, 0x200, ⟨rfl, rfl⟩, by unfold calm; decide +kernel, by decide +kernel⟩,
    ⟨nextIs { syn := { objA := [(7, obj0)], objB := [(7, obj0)] } } (cmdOf 0x203 [(4, 2, 5), (8, 4, 3)]), cmdOf 0x203
      [(4, 2, 5), (8, 4, 3)], [], 7, obj0, 0x203, ⟨rfl, rfl⟩, by unfold calm; decide +kernel, by decide +kernel⟩,
    ⟨nextIs { syn := { objA := [(7, obj0)], objB := [(7, obj0)] } } (cmdOf 0x203 [(4, 2, 5), (8, 4, 4)]), cmdOf 0x203
      [(4, 2, 5), (8, 4, 4)], [], 7, obj0, 0x203, ⟨rfl, rfl⟩, by unfold calm; decide +kernel, by decide +kernel⟩,
    ⟨nextIs { syn := { objA := [(7, obj0)], objB := [(7, obj0)] } } (cmdOf 0x201 [(4, 2, 5), (8, 4, 97), (12, 2, 9)]),
      cmdOf 0x201 [(4, 2, 5), (8, 4, 97), (12, 2, 9)], [], 7, obj0, 0x201, ⟨rfl, rfl⟩, by unfold calm; decide +kernel,
      by decide +kernel⟩,
    ⟨nextIs { syn := { objA := [(7, obj0)], objB := [(7, obj0)] } } (cmdOf 0x202 [(4, 2, 5), (8, 4, 4)]), cmdOf 0x202
      [(4, 2, 5), (8, 4, 4)], [], 7, obj0, 0x202, ⟨rfl, rfl⟩, by unfold calm; decide +kernel, by decide +kernel⟩,
    ⟨nextIs { syn := { objA := [(7, obj0)], objB := [(7, obj0)] } } (cmdOf 0x203 [(4, 2, 5), (8, 4, 3), (14, 1, 1)]),
      cmdOf 0x203 [(4, 2, 5), (8, 4, 3), (14, 1, 1)], [], 7, obj0, 0x203, ⟨rfl, rfl⟩, by unfold calm; decide +kernel,
      by decide +kernel⟩,
    ⟨{ syn := { objA := [(7, { obj0 with gq := [4, 5] })], waiters := [(4,
                { kind := 1, ctx := 0, obj := 7, units := 3 })] } }, 7, 4, [5], { obj0 with gq := [4, 5] },
      { kind := 1, ctx := 0, obj := 7, units := 3 }, by decide +kernel⟩,
    ⟨{ syn := { objA := [(7, { obj0 with gq := [4, 5] })], waiters := [(4,
                { kind := 1, ctx := 0, obj := 7, units := 4 })] } }, 7, 4, [5], { obj0 with gq := [4, 5] },
      { kind := 1, ctx := 0, obj := 7, units := 4 }, by decide +kernel⟩,
    ⟨{ syn := { objA := [(7, { obj0 with gq := [4] })], objB := [(7, { obj0 with gq := [4] })], waiters := [(4,
                { kind := 1, ctx := 0, obj := 7, units := 3 })] } }, 7, 4, { obj0 with gq := [4] },
      { kind := 1, ctx := 0, obj := 7, units := 3 }, by decide +kernel⟩⟩

theorem test_meets_BarrierPhases :
    (∃ (s : State) (k : Nat) (o : SynObj), objOf s k = some o ∧ o.xchip = false ∧ o.value + 1 < fld o.limit 15 0) ∧
    (∃ (s : State) (k : Nat) (o : SynObj), objOf s k = some o ∧ o.xchip = false ∧ o.realign = false ∧ o.gq = [] ∧
      o.value + 1 = fld o.limit 15 0) ∧
    (∃ (o : SynObj) (sense : Bool), sense ≠ o.sense) ∧
    (∃ (o : SynObj), fld o.limit 15 0 ≤ o.value) :=
  ⟨⟨{ syn := { objA := [(7, { obj0 with barrier := true, limit := 5 })] } }, 7,
    { obj0 with barrier := true, limit := 5 }, by decide +kernel⟩,
    ⟨{ syn := { objA := [(7, { obj0 with barrier := true, limit := 4, phase := 4294967295 })] } }, 7,
      { obj0 with barrier := true, limit := 4, phase := 4294967295 }, by decide +kernel⟩,
    ⟨{ obj0 with barrier := true }, true, by decide +kernel⟩,
    ⟨{ obj0 with barrier := true, limit := 3 }, by decide +kernel⟩⟩

theorem test_meets_WaitsAndObjects :
    (∃ (s : State) (r : Nat) (n : Nat) (k : Nat) (rest : List (Nat × Nat)) (x : Run) (e : Eff), s.syn.newWaits = (r,
      n) :: rest ∧ effAt s r n = some (x, e) ∧ waitOut s r = false ∧ matWaiting s x.ctx (synEff e.data).vid = false ∧
      findObj s x.ctx (synEff e.data).vid = some k) ∧
    (∃ (s : State) (r : Nat) (n : Nat) (rest : List (Nat × Nat)) (x : Run) (e : Eff), s.syn.newWaits = (r, n) :: rest
      ∧ effAt s r n = some (x, e) ∧ waitOut s r = true) ∧
    (∃ (s : State) (t : State) (q : MatReq) (k : Nat), s.syn.mats = [q] ∧ tryMat true s q = .made k t) ∧
    (∃ (s : State) (q : MatReq) (m : Cmd), calm s ∧ s.syn.mats = [q] ∧ q.src = 0 ∧ q.cmd = some m ∧ findObj s q.ctx
      q.vid = none ∧ sdtCount s q.ctx ≤ q.vid ∧ s.saf.safe = false) ∧
    (∃ (s : State) (f : Fin 8) (id : Nat) (w : Nat) (due : Nat) (rest : List GrantItem) (x : Run) (y : Waiter), (∀ v,
      rest.head? ≠ some (.resp v)) ∧ (fieldOf s f).grantQ = .wake id w due :: rest ∧ runOf s id = some x ∧ waiterOf s
      w = some y ∧ x.state = 3 ∧ x.killAt = none ∧ fieldStopped s f = false ∧ due ≤ fieldTime s f) ∧
    (∃ (s : State) (f : Fin 8) (id : Nat) (w : Nat) (due : Nat) (rest : List GrantItem), (fieldOf s f).grantQ = .wake
      id w due :: rest ∧ (fieldStopped s f = true ∨ fieldTime s f < due)) ∧
    (∃ (s : State) (w : Nat) (rest : List Nat), s.syn.grantQ = w :: rest ∧ delivered s w = true) :=
  ⟨⟨runIs { syn := { newWaits := [(0, 0), (5, 5)], objA := [(7, { obj0 with vid := 65535 })] } }
    { run0 with effects := [{ unit := 1, op := 4, data := 0x14FFFF00000004000000000000000000 }] }, 0, 0, 7, [(5, 5)],
    { run0 with effects := [{ unit := 1, op := 4, data := 0x14FFFF00000004000000000000000000 }] },
    { unit := 1, op := 4, data := 0x14FFFF00000004000000000000000000 }, by decide +kernel⟩,
    ⟨runIs { syn := { newWaits := [(0, 0)], waiters := [(3, { kind := 1, ctx := 0, obj := 7, units := 1, run := 0 })]
                        } } { run0 with effects := [{ unit := 1, op := 4, data := 0x14000500000004000000000000000000
                                                        }] }, 0, 0, [],
      { run0 with effects := [{ unit := 1, op := 4, data := 0x14000500000004000000000000000000 }] },
      { unit := 1, op := 4, data := 0x14000500000004000000000000000000 }, by decide +kernel⟩,
    ⟨{ syn := { objA := [(7, obj0)], mats := [{ src := 2, ctx := 0, vid := 5 }] } },
      { syn := { objA := [(7, obj0)], mats := [{ src := 2, ctx := 0, vid := 5 }] } }, { src := 2, ctx := 0, vid := 5
                                                                                          }, 7, by decide +kernel⟩,
    ⟨{ syn := { mats := [{ src := 0, ctx := 0, vid := 0, cmd := some (cmdOf 0x200 []) }] } },
      { src := 0, ctx := 0, vid := 0, cmd := some (cmdOf 0x200 []) }, cmdOf 0x200 [], by unfold calm; decide +kernel,
      by decide +kernel⟩,
    ⟨runIs (fieldIs { syn := { waiters := [(3, { kind := 1, ctx := 0, obj := 7, units := 1, got := 1 })] } }
      { grantQ := [.wake 0 3 0] }) { run0 with core := 511, engine := 5, slot := 3 }, 0, 0, 3, 0, [],
      { run0 with core := 511, engine := 5, slot := 3 }, { kind := 1, ctx := 0, obj := 7, units := 1, got := 1 },
      by simp, by decide +kernel⟩,
    ⟨fieldIs { gtb := { now := 76 } } { grantQ := [.wake 0 3 77] }, 0, 0, 3, 77, [], by decide +kernel⟩,
    ⟨{ syn := { grantQ := [3, 4], waiters := [(3, { kind := 1, ctx := 0, obj := 7, units := 1 }), (4,
                { kind := 1, ctx := 0, obj := 7, units := 1 })] } }, 3, [4], by decide +kernel⟩⟩

theorem test_meets_CrossChipBarriers :
    (∃ (s : State) (xb : Fin 4096) (sense : Bool) (k : Nat) (o : SynObj), calm s ∧ xbObj s xb = some (k, o) ∧ isHome s
      o = true ∧ frozenAt s k = none ∧ tget? s.syn.objA k = some o ∧ tget? s.syn.objB k = some o ∧ (sense ≠ o.sense ∨
      fld o.limit 28 16 ≤ o.dtag) ∧ s.saf.recQ.length < 32) ∧
    (∃ (s : State) (xb : Fin 4096) (sense : Bool) (k : Nat) (o : SynObj), calm s ∧ xbObj s xb = some (k, o) ∧ isHome s
      o = true ∧ frozenAt s k = none ∧ tget? s.syn.objA k = some o ∧ tget? s.syn.objB k = some o ∧ sense = o.sense ∧
      o.dtag + 1 < fld o.limit 28 16) ∧
    (∃ (s : State) (xb : Fin 4096) (sense : Bool), xbObj s xb = none ∧ tget? s.syn.early (2 * xb.val + b2n sense) =
      none ∧ s.syn.early.length < 256) ∧
    (∃ (s : State) (xb : Fin 4096) (u : BitVec 64) (k : Nat) (o : SynObj), calm s ∧ xbObj s xb = some (k, o) ∧
      frozenAt s k = none ∧ tget? s.syn.objA k = some o ∧ tget? s.syn.objB k = some o ∧ o.chipArrived = true ∧
      s.gtb.now < nsUnits u.toNat) ∧
    (∃ (s : State) (r : XbRelease), s.syn.releases = [r] ∧ nsUnits r.due ≤ (advanceTo (nsUnits r.due) s).gtb.now) ∧
    (∃ (s : State) (r : XbRelease) (o : SynObj) (late : Bool), objOf s r.obj = some o ∧ tget? s.syn.objB r.obj = some
      o ∧ frozenAt s r.obj = none ∧ o.realign = false ∧ o.gq = [] ∧ late = true) :=
  ⟨⟨{ syn := { objA := [(7, { obj0 with barrier := true, xchip := true, init := 4095 * 4096, limit := 0x30001 })],
               objB := [(7, { obj0 with barrier := true, xchip := true, init := 4095 * 4096, limit := 0x30001 })] } },
    4095, true, 7, { obj0 with barrier := true, xchip := true, init := 4095 * 4096, limit := 0x30001 },
    by unfold calm; decide +kernel, by decide +kernel⟩,
    ⟨{ syn := { objA := [(7, { obj0 with barrier := true, xchip := true, init := 4095 * 4096, limit := 0x30001,
                                         dtag := 1 })], objB := [(7,
                { obj0 with barrier := true, xchip := true, init := 4095 * 4096, limit := 0x30001, dtag := 1 })] } },
      4095, false, 7, { obj0 with barrier := true, xchip := true, init := 4095 * 4096, limit := 0x30001, dtag := 1 },
      by unfold calm; decide +kernel, by decide +kernel⟩,
    ⟨{}, 4095, true, by decide +kernel⟩,
    ⟨{ syn := { objA := [(7, { obj0 with barrier := true, xchip := true, chipArrived := true })], objB := [(7,
                { obj0 with barrier := true, xchip := true, chipArrived := true })] } }, 0, 1, 7,
      { obj0 with barrier := true, xchip := true, chipArrived := true }, by unfold calm; decide +kernel,
      by decide +kernel⟩,
    ⟨{ syn := { releases := [{ obj := 7, due := 2 }], objA := [(7,
                { obj0 with barrier := true, xchip := true, chipArrived := true })] } }, { obj := 7, due := 2 },
      by decide +kernel⟩,
    ⟨{ syn := { objA := [(7, { obj0 with barrier := true, xchip := true, chipArrived := true })], objB := [(7,
                { obj0 with barrier := true, xchip := true, chipArrived := true })] } }, { obj := 7, due := 2 },
      { obj0 with barrier := true, xchip := true, chipArrived := true }, true, by decide +kernel⟩⟩

theorem test_meets_SyncForceAndDump :
    (∃ (s : State) (m : Cmd) (k : Nat) (o : SynObj), isPassed s m 0x0205 ∧ forceFault m = none ∧ findObj s (sfCtx m)
      (sfVid m) = some k ∧ objOf s k = some o ∧ forceReason m o = none) ∧
    (∃ (s : State) (m : Cmd) (k : Nat) (o : SynObj), objOf s k = some o ∧ tget? s.syn.objB k = some o ∧ frozenAt s k =
      none ∧ o.barrier = false ∧ o.gq = [] ∧ o.dq = [] ∧ sfMask m 0 = true ∧ sfMask m 1 = false ∧ sfMask m 2 = false ∧
      sfMask m 3 = false) ∧
    (∃ (s : State) (m : Cmd), isPassed s m 0x0205 ∧ forceFault m = none ∧ findObj s (sfCtx m) (sfVid m) = none ∧
      s.saf.safe = false) ∧
    (∃ (s : State) (m : Cmd) (rest : List Cmd), isNext s m rest 0x0204 ∧ s.syn.dump = none ∧ dumpFault s m = none) ∧
    (∃ (s : State) (m : Cmd), s.syn.dump = some m ∧ m.at 16 4 = 64 ∧ bitAt (m.at 5 1) 2 = false ∧ s.syn.objA = [] ∧
      s.saf.safe = false ∧ bitAt m.flags 1 = false) ∧
    (∃ (s : State) (c : Fin 64) (w : Word), ctxEnabled s c = false ∧ ctxIdle s c = true ∧ fld w.toNat 16 0 ≤ 65536) ∧
    (∃ (s : State) (c : Fin 64), ctxEnabled s c = true) :=
  ⟨⟨passedIs { syn := { objA := [(7, obj0)], objB := [(7, obj0)] } } (cmdOf 0x205 [(5, 1, 1), (6, 2, 5), (8, 4, 60)]),
    cmdOf 0x205 [(5, 1, 1), (6, 2, 5), (8, 4, 60)], 7, obj0, ⟨⟨_, rfl⟩, rfl, rfl, by decide +kernel⟩,
    by decide +kernel⟩,
    ⟨{ syn := { objA := [(7, obj0)], objB := [(7, obj0)] } }, cmdOf 0x205 [(5, 1, 1), (6, 2, 5), (8, 4, 60)], 7, obj0,
      by decide +kernel⟩,
    ⟨passedIs {} (cmdOf 0x205 [(4, 1, 63), (5, 1, 15), (6, 2, 65535)]), cmdOf 0x205 [(4, 1, 63), (5, 1, 15), (6, 2,
      65535)], ⟨⟨_, rfl⟩, rfl, rfl, by decide +kernel⟩, by decide +kernel⟩,
    ⟨nextIs {} (cmdOf 0x204 [(16, 4, 64)]), cmdOf 0x204 [(16, 4, 64)], [], ⟨rfl, rfl⟩, by decide +kernel⟩,
    ⟨{ syn := { dump := some (cmdOf 0x204 [(16, 4, 64), (8, 8, 4096)]) } }, cmdOf 0x204 [(16, 4, 64), (8, 8, 4096)],
      by decide +kernel⟩,
    ⟨{ syn := { objA := [(7, { obj0 with owner := 63 }), (8, obj0)], objB := [(7, { obj0 with owner := 63 })],
                waiters := [(3, { kind := 2, ctx := 63, obj := 7, units := 1 })] },
       saf := { frozen := [(0, { ctx := 63, vid := 5, obj := 7 })] } }, 63, 65536, by decide +kernel⟩,
    ⟨regsOf [(0x110000, 0x80000000)], 0, by decide +kernel⟩⟩

theorem test_meets_Channels :
    (∃ (s : State) (k : Nat) (i : Nat) (h : Nat) (x : RingRec) (ch : Chan), nextAssign s = some (k, x, i, h) ∧ chanOf
      s k = some ch) ∧
    (∃ (s : State) (t : State), grantAny s = some t) ∧
    (∃ (s : State) (t : State), grantAny s = none ∧ sendSum s = some t) ∧
    (∃ (s : State) (key : BitVec 16), keyChan s key.toNat = none) ∧
    (∃ (s : State) (t : State) (p : Fin 16) (chip : Fin 4096) (key : BitVec 16) (item : List Byte) (k : Nat) (ch :
      Chan), keyChan s key.toNat = some k ∧ chanOf s k = some ch ∧ ch.isOpen = true ∧ leAt item 0 2 ≤ ch.maxUnits ∧
      (leAt item 0 2 : Int) ≤ ch.remoteFree ∧ ch.epoch < 2 ^ 32 ∧ writeRec (setChan (countRx s p (flitCount
      item.length)) k { ch with remoteFree := ch.remoteFree - leAt item 0 2 }) k (leAt item 0 2) 1 (leAt item 4 4)
      (leAt item 8 2) 1 chip ((item.drop 16).take (leAt item 0 2 * 64 - 16)) = (t, true)) ∧
    (∃ (s : State) (m : Cmd) (rest : List Cmd) (i : Nat) (k : Nat) (img : Img) (ch : Chan), isNext s m rest 0x0300 ∧
      m.at 4 1 < 16 ∧ m.at 5 1 < 2 ∧ firstNonzero m.bytes 8 40 = none ∧ findImg s m.ctx (m.at 4 1 % 16) = some (i,
      img) ∧ img.state = 1 ∧ imgChan s i (m.at 6 2) = some k ∧ chanOf s k = some ch ∧ ch.kind = 1 ∧ stepOf s i = none
      ∧ img.pending = none ∧ ch.recs = [] ∧ (s.disp.readyQ.any fun q => sendsTo s k q) = false ∧ s.saf.safe = false ∧
      bitAt m.flags 1 = false) ∧
    (∃ (s : State) (m : Cmd) (rest : List Cmd) (i : Nat) (k : Nat) (img : Img) (ch : Chan), isNext s m rest 0x0300 ∧
      m.at 4 1 < 16 ∧ m.at 5 1 < 2 ∧ firstNonzero m.bytes 8 40 = none ∧ findImg s m.ctx (m.at 4 1 % 16) = some (i,
      img) ∧ img.state = 1 ∧ imgChan s i (m.at 6 2) = some k ∧ chanOf s k = some ch ∧ ch.kind = 1 ∧ stepOf s i = none
      ∧ img.pending = none) :=
  ⟨⟨{ chn := { chans := [(0, { img := 0, rel := 1, ctx := 0, kind := 1, units := 64,
                               recs := [{ pos := 0, len := 2, kind := 1, credit := 0, serial := 9 }] })] },
      tge := { steps0 with tasks := [(0, bytesOf 64 [(0, 1, 2), (20, 2, 1)])], cntA := [(0, 0x80000001)], cntB := [(0,
                           0x80000001)] } }, 0, 0, 0, { pos := 0, len := 2, kind := 1, credit := 0, serial := 9 },
    { img := 0, rel := 1, ctx := 0, kind := 1, units := 64,
      recs := [{ pos := 0, len := 2, kind := 1, credit := 0, serial := 9 }] }, by decide +kernel⟩,
    ⟨{ chn := { chans := [(0, { img := 0, rel := 1, ctx := 0, kind := 2, waits := [(9, 0)] })] } },
      { chn := { chans := [(0, { img := 0, rel := 1, ctx := 0, kind := 2 })] } }, by decide +kernel⟩,
    ⟨{ blq := { qs := [(0, { img := 0, rel := 0, ctx := 0, record := List.replicate 64 0, entries := [],
                             outSums := [[]] })] } }, (sendSum
      { blq := { qs := [(0, { img := 0, rel := 0, ctx := 0, record := List.replicate 64 0, entries := [],
                              outSums := [[]] })] } }).getD {}, by decide +kernel⟩,
    ⟨{}, 0, by decide +kernel⟩,
    ⟨{ ringBack with chn := { chans := [(0, { img := 0, rel := 1, ctx := 0, kind := 1, key := 65535, units := 64,
                                              maxUnits := 1, remoteFree := 1 })] } }, (writeRec (setChan (countRx
      { ringBack with chn := { chans := [(0, { img := 0, rel := 1, ctx := 0, kind := 1, key := 65535, units := 64,
                                               maxUnits := 1, remoteFree := 1 })] } } 3 1) 0
      { img := 0, rel := 1, ctx := 0, kind := 1, key := 65535, units := 64, maxUnits := 1, remoteFree := 0 }) 0 1 1 0
      0 1 9 (List.replicate 48 0)).1, 3, 9, 65535, bytesOf 64 [(0, 2, 1)], 0,
      { img := 0, rel := 1, ctx := 0, kind := 1, key := 65535, units := 64, maxUnits := 1, remoteFree := 1 },
      by decide +kernel⟩,
    ⟨nextIs { tge := imgs0, chn := { chans := [(0, { img := 0, rel := 1, ctx := 0, kind := 1, units := 64,
                                                     epoch := 4294967295 })] } } (cmdOf 0x300 [(5, 1, 1), (6, 2, 1)]),
      cmdOf 0x300 [(5, 1, 1), (6, 2, 1)], [], 0, 0, img0,
      { img := 0, rel := 1, ctx := 0, kind := 1, units := 64, epoch := 4294967295 }, ⟨rfl, rfl⟩, by decide +kernel⟩,
    ⟨nextIs { tge := imgs0, chn := { chans := [(0, { img := 0, rel := 1, ctx := 0, kind := 1, units := 64,
                                                     recs := [{ pos := 0, len := 2, kind := 1, credit := 0,
                                                                serial := 9 }] })] } } (cmdOf 0x300 [(5, 1, 1), (6, 2,
      1)]), cmdOf 0x300 [(5, 1, 1), (6, 2, 1)], [], 0, 0, img0,
      { img := 0, rel := 1, ctx := 0, kind := 1, units := 64,
        recs := [{ pos := 0, len := 2, kind := 1, credit := 0, serial := 9 }] }, ⟨rfl, rfl⟩, by decide +kernel⟩⟩

theorem test_meets_BlendQueues :
    (∃ (s : State) (key : BitVec 16), keyBq s key.toNat = none) ∧
    (∃ (s : State) (chip : Fin 4096) (key : BitVec 16) (slot : Fin 4096) (item : List Byte) (k : Nat) (q : BlendQ),
      keyBq s key.toNat = some k ∧ bqOf s k = some q ∧ slot.val < brContrib q.record ∧ bitAt (slotEntry q slot) 29 =
      true ∧ fld (slotEntry q slot) 28 17 = chip.val ∧ q.filled.contains slot.val = false ∧ item.length = contribBytes
      q.record) ∧
    (∃ (s : State) (chip : Fin 4096) (key : BitVec 16) (slot : Fin 4096) (k : Nat) (q : BlendQ), keyBq s key.toNat =
      some k ∧ bqOf s k = some q ∧ slot.val < brContrib q.record ∧ bitAt (slotEntry q slot) 29 = true ∧ fld (slotEntry
      q slot) 28 17 = chip.val ∧ q.filled.contains slot.val = true) ∧
    (∃ (s : State) (k : Nat) (q : BlendQ) (c : Contrib), nextIntake s = some (k, q, c) ∧ inTree q = false ∧ brOrder
      q.record ≠ 2 ∧ q.sum = none ∧ c.chip = none ∧ q.taken.length + 1 < brContrib q.record) ∧
    (∃ (s : State), s.blq.qs = []) ∧
    (∃ (s : State) (k : Nat) (q : BlendQ) (a : Nat) (lv : Nat), s.blq.qs = [(k, q)] ∧ inTree q = true ∧ q.complete =
      false ∧ nextNode q = some (a, lv) ∧ brLeaf q.record = 0 ∧ rootReady { q with nodes := q.nodes ++ [(a, lv)] } =
      false) ∧
    (∃ (s : State) (key : BitVec 16) (k : Nat) (q : BlendQ), keyBq s key.toNat = some k ∧ bqOf s k = some q ∧ brOrder
      q.record = 2 ∧ brChainIn q.record = true ∧ q.chainIn = none) :=
  ⟨⟨{}, 77, by decide +kernel⟩,
    ⟨{ blq := { qs := [(2, bq1)] } }, 9, 77, 1, List.replicate 8 1, 2, bq1, by decide +kernel⟩,
    ⟨{ blq := { qs := [(2, { bq1 with filled := [1] })] } }, 9, 77, 1, 2, { bq1 with filled := [1] },
      by decide +kernel⟩,
    ⟨{ blq := { qs := [(2, { bq1 with inQ := [{ slot := 0, data := List.replicate 8 0x3F }] })] } }, 2,
      { bq1 with inQ := [{ slot := 0, data := List.replicate 8 0x3F }] }, { slot := 0, data := List.replicate 8 0x3F
                                                                              }, by decide +kernel⟩,
    ⟨{}, by decide +kernel⟩,
    ⟨{ blq := { qs := [(2, bqTree)] } }, 2, bqTree, 0, 1, by decide +kernel⟩,
    ⟨{ blq := { qs := [(2, bqChain)] } }, 77, 2, bqChain, by decide +kernel⟩⟩

theorem test_meets_LinkAgents :
    (∃ (s : State) (p : Fin 16) (f : Flit) (rest : List Flit), (portOf s p).up = true ∧ portTested s p = false ∧
      (portOf s p).out0 = f :: rest ∧ f.lane = 0) ∧
    (∃ (s : State) (p : Fin 16) (f : Flit) (rest : List Flit) (c : Nat), (portOf s p).up = true ∧ portTested s p =
      false ∧ (portOf s p).out0 = [] ∧ (portOf s p).out = f :: rest ∧ f.lane ≠ 0 ∧ f.owner = some c) ∧
    (∃ (s : State) (p : Fin 16), (portOf s p).up = true ∧ s.saf.recQ.length < 32) ∧
    (∃ (s : State) (c : Fin 64) (w : Word), resSum s - ctxRes s c + fld w.toNat 10 0 ≤ 1024) ∧
    (∃ (s : State) (c : Fin 64) (w : Word), resSum s - ctxRes s c + fld w.toNat 10 0 ≤ 1024) ∧
    (∃ (s : State) (c : Fin 64) (w : Word), 1024 < resSum s - ctxRes s c + fld w.toNat 10 0) ∧
    (∃ (s : State) (c : Fin 64) (w : Word), 1024 < resSum s - ctxRes s c + fld w.toNat 10 0) :=
  ⟨⟨{ lnk := { ports := [(15, { up := true, out0 := [{ dest := 1, lane := 0, kind := 3, key := 1 }] })] } }, 15,
    { dest := 1, lane := 0, kind := 3, key := 1 }, [], by decide +kernel⟩,
    ⟨{ lnk := { ports := [(15, { up := true, pool := 1, out := [{ dest := 1, lane := 1, kind := 3, key := 1,
                                                                  owner := some 0, pool := true }] })] } }, 15,
      { dest := 1, lane := 1, kind := 3, key := 1, owner := some 0, pool := true }, [], 0, by decide +kernel⟩,
    ⟨{ lnk := { ports := [(15, { up := true, out := [{ dest := 1, lane := 1, kind := 3, key := 1, owner := some 0 }]
                                   })] } }, 15, by decide +kernel⟩,
    ⟨{}, 63, 1024, by decide +kernel⟩,
    ⟨regsOf [(0xB010FC, 1024)], 63, 1024, by decide +kernel⟩,
    ⟨{}, 63, 1025, by decide +kernel⟩,
    ⟨regsOf [(0xB01000, 1)], 63, 1024, by decide +kernel⟩⟩

theorem test_meets_Queues :
    (∃ (off : Nat) (w : Word) (q : QId), queueAt off = some q ∧ q.packet = false ∧ bitAt w.toNat 31 = true) ∧
    (∃ (off : Nat) (w : Word) (q : QId), queueAt off = some q ∧ q.packet = false ∧ bitAt w.toNat 31 = false) ∧
    (∃ (s : State) (off : Nat) (w : Word) (q : QId), queueAt off = some q ∧ q.packet = true ∧ setupDone s = false ∧
      bitAt w.toNat 31 = false) ∧
    (∃ (off : Nat) (q : QId), queueAt off = some q) ∧
    (∃ (off : Nat) (q : QId), queueAt off = none ∧ hiddenAt off = some q) ∧
    (∃ (s : State), s.saf.recQ.length < 32) ∧
    (∃ (s : State), s.saf.recQ.length < 32) :=
  ⟨⟨0x400170, 0x80000000, .cagCpl 7, by decide +kernel⟩,
    ⟨0x700040, 0x7FFFFFFF, .patWb, by decide +kernel⟩,
    ⟨{}, 0x100010, 0x7FFF1234, .hifFetch, by decide +kernel⟩,
    ⟨0x480020, .cmtRel, by decide +kernel⟩,
    ⟨0xF10000, .effect 0, by decide +kernel⟩,
    ⟨fieldIs {} { dispQ := [.start 9] }, by decide +kernel⟩,
    ⟨fieldIs {} { dispQ := [.start 9] }, by decide +kernel⟩⟩

theorem test_meets_Translations :
    (∃ (s : State) (f : Fin 8) (bits : BitVec 128) (r : Nat) (x : Run), reqRun s f bits.toNat = some r ∧ runOf s r =
      some x) ∧
    (∃ (s : State) (f : Fin 8) (bits : BitVec 128) (r : Nat) (x : Run), reqRun s f bits.toNat = some r ∧ runOf s r =
      some x ∧ regionAt s x.ctx (fld bits.toNat 53 22 * 65536) = none) ∧
    (∃ (s : State) (f : Fin 8) (bits : BitVec 128) (r : Nat) (x : Run) (g : Region) (m : PageMap), calm s ∧ reqRun s f
      bits.toNat = some r ∧ runOf s r = some x ∧ regionAt s x.ctx (fld bits.toNat 53 22 * 65536) = some g ∧ ctxEnabled
      s x.ctx = true ∧ g.kind = 2 ∧ bitAt bits.toNat 21 = false ∧ mapOf s x.ctx (pageOf g (fld bits.toNat 53 22 *
      65536)) = some m) ∧
    (∃ (s : State) (f : Fin 8) (bits : BitVec 128) (r : Nat) (x : Run) (g : Region) (w : Fresh), calm s ∧ reqRun s f
      bits.toNat = some r ∧ runOf s r = some x ∧ regionAt s x.ctx (fld bits.toNat 53 22 * 65536) = some g ∧ ctxEnabled
      s x.ctx = true ∧ g.kind = 0 ∧ freshOf x (pageOf g (fld bits.toNat 53 22 * 65536)) = some w) ∧
    (∃ (s : State) (f : Fin 8) (bits : BitVec 128) (r : Nat) (x : Run), reqRun s f bits.toNat = some r ∧ runOf s r =
      some x) ∧
    (∃ (s : State) (f : Fin 8) (bits : BitVec 128), reqRun s f bits.toNat = none) :=
  ⟨⟨runIs {} run0, 0, 0, 0, run0, by decide +kernel⟩,
    ⟨runIs {} { run0 with field := 7 }, 7, 0, 0, { run0 with field := 7 }, by decide +kernel⟩,
    ⟨runIs { regionsOf false with pat := { maps := [(pageKey 0 64, { large := false, at_ := 300 })] } } run0, 0,
      BitVec.ofNat 128 (64 * 2 ^ 22), 0, run0, (regionAt (regionsOf false) 0 0x400000).getD
      { base := 0, size := 0, kind := 0, large := false, fill := 0, stacked := false, depth := 0, src := 0 },
      { large := false, at_ := 300 }, by unfold calm; decide +kernel, by decide +kernel⟩,
    ⟨runIs (regionsOf false) { run0 with fresh := [{ va := 0, large := false, frame := 300 }] }, 0, BitVec.ofNat 128
      (2 ^ 54 + 2 ^ 21), 0, { run0 with fresh := [{ va := 0, large := false, frame := 300 }] }, (regionAt (regionsOf
      false) 0 0).getD { base := 0, size := 0, kind := 0, large := false, fill := 0, stacked := false, depth := 0,
                         src := 0 }, { va := 0, large := false, frame := 300 }, by unfold calm; decide +kernel,
      by decide +kernel⟩,
    ⟨runIs {} run0, 0, 0, 0, run0, by decide +kernel⟩,
    ⟨{}, 7, 0, by decide +kernel⟩⟩

theorem test_meets_IntakesAndAnswersComplete :
    (∃ (s : State) (chip : Fin 4096) (key : BitVec 16) (slot : Fin 4096) (item : List Byte) (k : Nat) (q : BlendQ),
      keyBq s key.toNat = some k ∧ bqOf s k = some q ∧ slotFault s q slot (fld (slotEntry q slot) 16 0) chip = none ∧
      beyondGrant q key.toNat chip item.length = false ∧ item.length = contribBytes q.record) ∧
    (∃ (s : State) (p : Fin 16) (chip : Fin 4096) (key : BitVec 16) (item : List Byte) (k : Nat) (q : BlendQ) (v :
      State), v = returnBlend (countRx s p (flitCount item.length)) key.toNat chip item.length ∧ keyBq s key.toNat =
      some k ∧ bqOf s k = some q ∧ brOrder q.record = 2 ∧ brChainIn q.record = true ∧ q.chainIn = none ∧ item.length =
      brElems q.record * blendSize (brAcc q.record) ∧ q.complete = false ∧ q.chainPos < brContrib q.record ∧
      q.taken.contains q.chainPos = false) ∧
    (∃ (s : State) (k : Nat) (q : BlendQ) (c : Contrib) (v : State), nextIntake s = some (k, q, c) ∧ c.chip = none ∧ v
      = chargeBytes (setBq s k { q with inQ := q.inQ.drop 1, taken := q.taken ++ [c.slot] }) q.ctx c.data.length ∧
      inTree q = true) ∧
    (∃ (s : State) (k : Nat) (q : BlendQ) (c : Contrib) (v : State), nextIntake s = some (k, q, c) ∧ c.chip = none ∧ v
      = chargeBytes (setBq s k { q with inQ := q.inQ.drop 1, taken := q.taken ++ [c.slot] }) q.ctx c.data.length ∧
      inTree q = false ∧ brOrder q.record = 2) ∧
    (∃ (s : State) (k : Nat) (q : BlendQ) (c : Contrib) (v : State), nextIntake s = some (k, q, c) ∧ c.chip = none ∧ v
      = chargeBytes (setBq s k { q with inQ := q.inQ.drop 1, taken := q.taken ++ [c.slot] }) q.ctx c.data.length) ∧
    (∃ (s : State) (k : Nat) (q : BlendQ) (c : Contrib) (v : State), nextIntake s = some (k, q, c) ∧ c.chip = none ∧ v
      = chargeBytes (setBq s k { q with inQ := q.inQ.drop 1, taken := q.taken ++ [c.slot] }) q.ctx c.data.length) ∧
    (∃ (s : State) (k : Nat) (q : BlendQ) (y : BlendQ) (a : Nat) (lv : Nat), s.blq.qs = [(k, q)] ∧ inTree q = true ∧
      q.complete = false ∧ nextNode q = some (a, lv) ∧ brLeaf q.record = 0 ∧ y =
      { q with nodes := q.nodes ++ [(a, lv)] }) ∧
    (∃ (s : State) (f : Fin 8) (bits : BitVec 128) (r : Nat) (n : Nat) (tag : Nat) (x : Run) (g : Region), reqRun s f
      bits.toNat = some r ∧ runOf s r = some x ∧ regionAt s x.ctx (fld bits.toNat 53 22 * 65536) = some g ∧ ctxEnabled
      s x.ctx = true ∧ n = pageOf g (fld bits.toNat 53 22 * 65536) ∧ tag = fld bits.toNat 61 54 ∧ g.kind = 2 ∧ bitAt
      bits.toNat 21 = false ∧ mapOf s x.ctx n = some { large := false, at_ := 300 }) ∧
    (∃ (s : State) (f : Fin 8) (bits : BitVec 128) (r : Nat) (n : Nat) (tag : Nat) (x : Run) (g : Region), reqRun s f
      bits.toNat = some r ∧ runOf s r = some x ∧ regionAt s x.ctx (fld bits.toNat 53 22 * 65536) = some g ∧ ctxEnabled
      s x.ctx = true ∧ n = pageOf g (fld bits.toNat 53 22 * 65536) ∧ tag = fld bits.toNat 61 54 ∧ g.kind = 1 ∧ mapOf s
      x.ctx n = some { large := false, at_ := 300 } ∧ ({ large := false, at_ := 300 } : PageMap).res = 0) ∧
    (∃ (s : State) (f : Fin 8) (bits : BitVec 128) (r : Nat) (n : Nat) (tag : Nat) (x : Run) (g : Region), reqRun s f
      bits.toNat = some r ∧ runOf s r = some x ∧ regionAt s x.ctx (fld bits.toNat 53 22 * 65536) = some g ∧ ctxEnabled
      s x.ctx = true ∧ n = pageOf g (fld bits.toNat 53 22 * 65536) ∧ tag = fld bits.toNat 61 54 ∧ g.kind = 0 ∧ freshOf
      x n = some { va := 0, large := false, frame := 300 }) ∧
    (∃ (s : State) (f : Fin 8) (bits : BitVec 128) (r : Nat) (n : Nat) (tag : Nat) (x : Run) (g : Region), reqRun s f
      bits.toNat = some r ∧ runOf s r = some x ∧ regionAt s x.ctx (fld bits.toNat 53 22 * 65536) = some g ∧ ctxEnabled
      s x.ctx = true ∧ n = pageOf g (fld bits.toNat 53 22 * 65536) ∧ tag = fld bits.toNat 61 54 ∧ g.kind = 0 ∧ bitAt
      bits.toNat 21 = false ∧ freshOf x n = none ∧ seenOf x n = none ∧ mapOf s x.ctx n = some
      { large := false, at_ := 300 } ∧ ({ large := false, at_ := 300 } : PageMap).res = 0) ∧
    (∃ (s : State) (f : Fin 8) (bits : BitVec 128) (r : Nat) (n : Nat) (tag : Nat) (x : Run) (g : Region), reqRun s f
      bits.toNat = some r ∧ runOf s r = some x ∧ regionAt s x.ctx (fld bits.toNat 53 22 * 65536) = some g ∧ ctxEnabled
      s x.ctx = true ∧ n = pageOf g (fld bits.toNat 53 22 * 65536) ∧ tag = fld bits.toNat 61 54 ∧ g.kind = 0 ∧ bitAt
      bits.toNat 21 = false ∧ freshOf x n = none ∧ seenOf x n = none ∧ mapOf s x.ctx n = none ∧ g.fill = 0) :=
  ⟨⟨{ blq := { qs := [(2, bqNone)] } }, 9, 77, 1, [], 2, bqNone, by decide +kernel⟩,
    ⟨{ blq := { qs := [(2, bqChain)] } }, 0, 9, 77, List.replicate 8 0x3F, 2, bqChain, returnBlend (countRx
      ({ blq := { qs := [(2, bqChain)] } } : State) 0 1) 77 9 8, rfl, by decide +kernel⟩,
    ⟨{ blq := { qs := [(2, { bqTree with taken := [], inQ := [{ slot := 0, data := List.replicate 8 0x3F }] })] } },
      2, { bqTree with taken := [], inQ := [{ slot := 0, data := List.replicate 8 0x3F }] },
      { slot := 0, data := List.replicate 8 0x3F }, chargeBytes (setBq
      ({ blq := { qs := [(2, { bqTree with taken := [], inQ := [{ slot := 0, data := List.replicate 8 0x3F }] })] } }
      : State) (2) { ({ bqTree with taken := [], inQ := [{ slot := 0, data := List.replicate 8 0x3F }] } : BlendQ)
                       with inQ := ({ bqTree with taken := [], inQ := [{ slot := 0, data := List.replicate 8 0x3F }] }
                              : BlendQ).inQ.drop 1, taken := ({ bqTree with taken := [], inQ := [{ slot := 0,
                                                                                                   data := List.replicate
                                                                                                     8 0x3F }] } :
                              BlendQ).taken ++ [({ slot := 0, data := List.replicate 8 0x3F } : Contrib).slot] })
      ({ bqTree with taken := [], inQ := [{ slot := 0, data := List.replicate 8 0x3F }] } : BlendQ).ctx
      ({ slot := 0, data := List.replicate 8 0x3F } : Contrib).data.length, by decide +kernel⟩,
    ⟨{ blq := { qs := [(2, { bqChain with inQ := [{ slot := 0, data := List.replicate 8 0x3F }] })] } }, 2,
      { bqChain with inQ := [{ slot := 0, data := List.replicate 8 0x3F }] },
      { slot := 0, data := List.replicate 8 0x3F }, chargeBytes (setBq
      ({ blq := { qs := [(2, { bqChain with inQ := [{ slot := 0, data := List.replicate 8 0x3F }] })] } } : State) (2)
      { ({ bqChain with inQ := [{ slot := 0, data := List.replicate 8 0x3F }] } : BlendQ) with inQ := ({ bqChain with
                                                                                                                      inQ := [{
                                                                                                                                slot := 0,
                                                                                                                                data := List.replicate
                                                                                                                                  8
                                                                                                                                  0x3F
                                                                                                                                  }]
                                                                                                                        }
                                                                                                 : BlendQ).inQ.drop 1,
                                                                                               taken := ({ bqChain
                                                                                                             with
                                                                                                                  inQ := [{
                                                                                                                            slot := 0,
                                                                                                                            data := List.replicate
                                                                                                                              8
                                                                                                                              0x3F
                                                                                                                              }]
                                                                                                                    }
                                                                                                 : BlendQ).taken ++
                                                                                                 [({ slot := 0,
                                                                                                     data := List.replicate
                                                                                                       8 0x3F } :
                                                                                                 Contrib).slot] })
      ({ bqChain with inQ := [{ slot := 0, data := List.replicate 8 0x3F }] } : BlendQ).ctx
      ({ slot := 0, data := List.replicate 8 0x3F } : Contrib).data.length, by decide +kernel⟩,
    ⟨{ blq := { qs := [(2, { bq1 with sum := some [0, 0], inQ := [{ slot := 0, data := List.replicate 8 0x3F }] })] }
         }, 2, { bq1 with sum := some [0, 0], inQ := [{ slot := 0, data := List.replicate 8 0x3F }] },
      { slot := 0, data := List.replicate 8 0x3F }, chargeBytes (setBq
      ({ blq := { qs := [(2, { bq1 with sum := some [0, 0], inQ := [{ slot := 0, data := List.replicate 8 0x3F }] })]
                    } } : State) (2)
      { ({ bq1 with sum := some [0, 0], inQ := [{ slot := 0, data := List.replicate 8 0x3F }] } : BlendQ) with
                                                                                                               inQ := ({
                                                                                                                         bq1
                                                                                                                           with
                                                                                                                                sum := some
                                                                                                                                  [0,
                                                                                                                                0],
                                                                                                                                inQ := [{
                                                                                                                                          slot := 0,
                                                                                                                                          data := List.replicate
                                                                                                                                            8
                                                                                                                                            0x3F
                                                                                                                                            }]
                                                                                                                                  }
                                                                                                                 :
                                                                                                                 BlendQ).inQ.drop
                                                                                                                 1,
                                                                                                               taken := ({
                                                                                                                           bq1
                                                                                                                             with
                                                                                                                                  sum := some
                                                                                                                                    [0,
                                                                                                                                  0],
                                                                                                                                  inQ := [{
                                                                                                                                            slot := 0,
                                                                                                                                            data := List.replicate
                                                                                                                                              8
                                                                                                                                              0x3F
                                                                                                                                              }]
                                                                                                                                    }
                                                                                                                 :
                                                                                                                 BlendQ).taken
                                                                                                                 ++
                                                                                                                 [({
                                                                                                                     slot := 0,
                                                                                                                     data := List.replicate
                                                                                                                       8
                                                                                                                       0x3F
                                                                                                                       }
                                                                                                                 :
                                                                                                                 Contrib).slot]
                                                                                                                 })
      ({ bq1 with sum := some [0, 0], inQ := [{ slot := 0, data := List.replicate 8 0x3F }] } : BlendQ).ctx
      ({ slot := 0, data := List.replicate 8 0x3F } : Contrib).data.length, by decide +kernel⟩,
    ⟨{ blq := { qs := [(2, { bq1 with taken := [1], inQ := [{ slot := 0, data := List.replicate 8 0x3F }] })] } }, 2,
      { bq1 with taken := [1], inQ := [{ slot := 0, data := List.replicate 8 0x3F }] },
      { slot := 0, data := List.replicate 8 0x3F }, chargeBytes (setBq
      ({ blq := { qs := [(2, { bq1 with taken := [1], inQ := [{ slot := 0, data := List.replicate 8 0x3F }] })] } } :
      State) (2) { ({ bq1 with taken := [1], inQ := [{ slot := 0, data := List.replicate 8 0x3F }] } : BlendQ) with
                                                                                                                    inQ := ({
                                                                                                                              bq1
                                                                                                                                with
                                                                                                                                     taken := [1],
                                                                                                                                     inQ := [{
                                                                                                                                               slot := 0,
                                                                                                                                               data := List.replicate
                                                                                                                                                 8
                                                                                                                                                 0x3F
                                                                                                                                                 }]
                                                                                                                                       }
                                                                                                                      :
                                                                                                                      BlendQ).inQ.drop
                                                                                                                      1,
                                                                                                                    taken := ({
                                                                                                                                bq1
                                                                                                                                  with
                                                                                                                                       taken := [1],
                                                                                                                                       inQ := [{
                                                                                                                                                 slot := 0,
                                                                                                                                                 data := List.replicate
                                                                                                                                                   8
                                                                                                                                                   0x3F
                                                                                                                                                   }]
                                                                                                                                         }
                                                                                                                      :
                                                                                                                      BlendQ).taken
                                                                                                                      ++
                                                                                                                      [({
                                                                                                                          slot := 0,
                                                                                                                          data := List.replicate
                                                                                                                            8
                                                                                                                            0x3F
                                                                                                                            }
                                                                                                                      :
                                                                                                                      Contrib).slot]
                                                                                                                      })
      ({ bq1 with taken := [1], inQ := [{ slot := 0, data := List.replicate 8 0x3F }] } : BlendQ).ctx
      ({ slot := 0, data := List.replicate 8 0x3F } : Contrib).data.length, by decide +kernel⟩,
    ⟨{ blq := { qs := [(2, bqTree)] } }, 2, bqTree, { bqTree with nodes := [(0, 1)] }, 0, 1, by decide +kernel⟩,
    ⟨runIs { regionsOf false with pat := { maps := [(pageKey 0 64, { large := false, at_ := 300 })] } } run0, 0,
      BitVec.ofNat 128 (64 * 2 ^ 22), 0, 64, 0, run0, (regionAt (regionsOf false) 0 0x400000).getD
      { base := 0, size := 0, kind := 0, large := false, fill := 0, stacked := false, depth := 0, src := 0 },
      by decide +kernel⟩,
    ⟨runIs { regionsOf false with pat := { maps := [(pageKey 0 32, { large := false, at_ := 300 })] } } run0, 0,
      BitVec.ofNat 128 (32 * 2 ^ 22), 0, 32, 0, run0, (regionAt (regionsOf false) 0 0x200000).getD
      { base := 0, size := 0, kind := 0, large := false, fill := 0, stacked := false, depth := 0, src := 0 },
      by decide +kernel⟩,
    ⟨runIs (regionsOf false) { run0 with fresh := [{ va := 0, large := false, frame := 300 }] }, 0, BitVec.ofNat 128
      (2 ^ 54 + 2 ^ 21), 0, 0, 1, { run0 with fresh := [{ va := 0, large := false, frame := 300 }] }, (regionAt
      (regionsOf false) 0 0).getD { base := 0, size := 0, kind := 0, large := false, fill := 0, stacked := false,
                                    depth := 0, src := 0 }, by decide +kernel⟩,
    ⟨runIs { regionsOf false with pat := { maps := [(pageKey 0 0, { large := false, at_ := 300 })] } } run0, 0, 0, 0,
      0, 0, run0, (regionAt (regionsOf false) 0 0).getD
      { base := 0, size := 0, kind := 0, large := false, fill := 0, stacked := false, depth := 0, src := 0 },
      by decide +kernel⟩,
    ⟨runIs (regionsOf false) run0, 0, 0, 0, 0, 0, run0, (regionAt (regionsOf false) 0 0).getD
      { base := 0, size := 0, kind := 0, large := false, fill := 0, stacked := false, depth := 0, src := 0 },
      by decide +kernel⟩⟩

theorem test_meets_Frames :
    (∃ (s : State) (t : State), (waitHeads s).findSome? (fun w => tryWait s w) = some t) ∧
    (∃ (s : State) (d : Deferred) (rest : List Deferred), s.pat.deferred = d :: rest ∧ deferredDone s d = true) ∧
    (∃ (s : State) (k : Fin 24), tget 0 s.pat.pool k < prezero s ∧ tget 0 s.pat.pool k < stackFree s k ∧ regBit s
      0x700000 0 = true) ∧
    (∃ (s : State) (k : Fin 24), prezero s ≤ tget 0 s.pat.pool k) ∧
    (∃ (s : State) (u : State) (f : Fill) (rest : List Fill) (g : Region) (b : List Byte), fillSource s f.ctx f.vpn g
      = some b ∧ calm u ∧ s.pat.fills = f :: rest ∧ s.pat.waits = [] ∧ regionAt s f.ctx (f.vpn * 65536) = some g ∧
      ensureTables { s with pat := { s.pat with fills := rest } } f.ctx f.vpn f.field (walkLevels f.large) = some u) ∧
    (∃ (s : State) (f : Fill) (rest : List Fill), calm s ∧ s.pat.fills = f :: rest ∧ s.pat.waits = []) ∧
    (∃ (s : State) (t : State) (c : Nat) (va : Nat) (bs : List Byte), s.pat.waits = [.write c va bs] ∧ writePage
      { s with pat := { s.pat with served := c } } c va bs = .done t) ∧
    (∃ (s : State) (c : Nat) (va : Nat) (bs : List Byte), s.pat.waits = [.write c va bs] ∧ writePage
      { s with pat := { s.pat with served := c } } c va bs = .wait) ∧
    (∃ (s : State) (c : Fin 64), ctxEnabled s c = false ∧ ctxIdle s c = true) ∧
    (∃ (s : State) (c : Fin 64), ctxEnabled s c = true) :=
  ⟨⟨{ ringBack with pat := { ringBack.pat with waits := [.write 0 0 [1]] } }, (tryWait
    { ringBack with pat := { ringBack.pat with waits := [.write 0 0 [1]] } } (.write 0 0 [1])).getD {},
    by decide +kernel⟩,
    ⟨{ pat := { deferred := [{ frame := 300, ctx := 0, runs := [5] }], frames := [(300, { ctx := 0, use := 2 })] } },
      { frame := 300, ctx := 0, runs := [5] }, [], by decide +kernel⟩,
    ⟨{ regsOf [(0x700000, 0x101)] with pat := { up := true, pool := [(19, 15)] } }, 19, by decide +kernel⟩,
    ⟨{ regsOf [(0x700000, 0x101)] with pat := { up := true, pool := [(19, 16)] } }, 19, by decide +kernel⟩,
    ⟨{ regionsOf false with pat := { fills := [{ ctx := 0, vpn := 64, frame := 300, large := false }],
                                     frames := [(300, { ctx := 0, use := 5 })], tabs := [0, 1, 2, 3].map fun l =>
                                       (tabKey 0 l (tabPrefix l 64), 0x1000 * l) } },
      { regionsOf false with pat := { frames := [(300, { ctx := 0, use := 5 })], tabs := [0, 1, 2, 3].map fun l =>
                                        (tabKey 0 l (tabPrefix l 64), 0x1000 * l) } },
      { ctx := 0, vpn := 64, frame := 300, large := false }, [], (regionAt (regionsOf false) 0 0x400000).getD
      { base := 0, size := 0, kind := 0, large := false, fill := 0, stacked := false, depth := 0, src := 0 }, hostRead
      ({ regionsOf false with pat := { fills := [{ ctx := 0, vpn := 64, frame := 300, large := false }],
                                       frames := [(300, { ctx := 0, use := 5 })], tabs := [0, 1, 2, 3].map fun l =>
                                         (tabKey 0 l (tabPrefix l 64), 0x1000 * l) } } : State)
      ({ ctx := 0, vpn := 64, frame := 300, large := false } : Fill).ctx (((regionAt (regionsOf false) 0
      0x400000).getD { base := 0, size := 0, kind := 0, large := false, fill := 0, stacked := false, depth := 0,
                       src := 0 } : Region).src + (({ ctx := 0, vpn := 64, frame := 300, large := false } : Fill).vpn
      * 65536 - ((regionAt (regionsOf false) 0 0x400000).getD
      { base := 0, size := 0, kind := 0, large := false, fill := 0, stacked := false, depth := 0, src := 0 } :
      Region).base)) (pageBytes ((regionAt (regionsOf false) 0 0x400000).getD
      { base := 0, size := 0, kind := 0, large := false, fill := 0, stacked := false, depth := 0, src := 0 } :
      Region).large), by unfold fillSource readSrc; exact if_neg (by decide +kernel), by unfold calm; decide +kernel,
      by decide +kernel⟩,
    ⟨{ pat := { fills := [{ ctx := 0, vpn := 64, frame := 300, large := false }], frames := [(300,
                { ctx := 0, use := 5 })] } }, { ctx := 0, vpn := 64, frame := 300, large := false }, [],
      by unfold calm; decide +kernel, by decide +kernel⟩,
    ⟨{ ringBack with pat := { ringBack.pat with waits := [.write 0 0 [1]] } },
      { ringBack with pat := { ringBack.pat with waits := [.write 0 0 [1]] }, mem := mwriteBytes [] (300 * 65536) [1]
                        }, 0, 0, [1], by decide +kernel⟩,
    ⟨{ regionsOf false with pat := { waits := [.write 0 0 [1]] } }, 0, 0, [1], by decide +kernel⟩,
    ⟨{}, 63, by decide +kernel⟩,
    ⟨regsOf [(0x110000, 0x80000000)], 0, by decide +kernel⟩⟩

theorem test_meets_ServingLoop :
    (∃ (s : State) (m : Cmd) (rest : List Cmd) (i : Nat) (img : Img) (b : List Byte), isNext s m rest 0x0400 ∧ m.at 4
      1 < 4 ∧ m.at 5 1 < 16 ∧ m.at 6 1 < 2 ∧ m.at 7 1 = 0 ∧ m.at 8 8 % 128 = 0 ∧ firstNonzero m.bytes 16 32 = none ∧
      (srvOf s (m.at 4 1)).state = 0 ∧ servingOf s m.ctx = none ∧ findImg s m.ctx (m.at 5 1) = some (i, img) ∧
      img.state = 1 ∧ (s.tge.imgs.any fun e => e.2.ctx == m.ctx && (e.2.state == 0 || e.2.pending.isSome || (stepOf s
      e.1).isSome)) = false ∧ readSrc s m.ctx (bitAt (m.at 6 1) 0) (m.at 8 8) 128 = some b ∧ sdFault s m.ctx b = none
      ∧ s.saf.safe = false ∧ bitAt m.flags 1 = false) ∧
    (∃ (s : State) (m : Cmd) (rest : List Cmd) (i : Nat) (img : Img), isNext s m rest 0x0400 ∧ m.at 4 1 < 4 ∧ m.at 5 1
      < 16 ∧ m.at 6 1 < 2 ∧ m.at 7 1 = 0 ∧ m.at 8 8 % 128 = 0 ∧ firstNonzero m.bytes 16 32 = none ∧ (srvOf s (m.at 4
      1)).state = 0 ∧ servingOf s m.ctx = none ∧ findImg s m.ctx (m.at 5 1) = some (i, img) ∧ img.state = 1 ∧
      (s.tge.imgs.any fun e => e.2.ctx == m.ctx && (e.2.state == 0 || e.2.pending.isSome || (stepOf s e.1).isSome)) =
      false ∧ s.saf.safe = false) ∧
    (∃ (s : State) (m : Cmd) (rest : List Cmd), isNext s m rest 0x0401 ∧ m.at 4 1 < 4 ∧ m.at 5 1 = 0 ∧ firstNonzero
      m.bytes 6 42 = none ∧ (srvOf s (m.at 4 1)).state ≠ 0 ∧ (srvOf s (m.at 4 1)).ctx = m.ctx ∧ (srvOf s (m.at 4
      1)).abort = false) ∧
    (∃ (s : State) (v : Fin 4), (srvOf s v).due = true ∧ asmAllowed s (srvOf s v) = true) ∧
    (∃ (s : State) (v : Fin 4), (srvOf s v).due = false) ∧
    (∃ (s : State), (∀ v, v < 4 → ((srvOf s v).asm.any fun a => a.plan.isSome) = false)) ∧
    (∃ (s : State) (v : Fin 4), asmAllowed s (srvOf s v) = true ∧ (srvOf s v).due = false ∧ ((srvOf s v).seqs.any fun
      e => e.2.live) = false) ∧
    (∃ (s : State) (t : State) (v : Fin 4) (a : Asm) (o : KvOp) (rest : List KvOp), (srvOf s v).asm = some a ∧ a.ops =
      o :: rest ∧ runOp s v o = some t ∧ (srvOf s v).abort = false) ∧
    (∃ (q : Seq) (gen : Bool) (fin : Bool), ((gen && fin) = true ∨ q.generated + b2n gen = q.maxNew)) ∧
    (∃ (q : Seq) (gen : Bool) (fin : Bool), ((gen && fin) = true ∨ q.generated + b2n gen = q.maxNew)) ∧
    (∃ (q : Seq) (gen : Bool) (fin : Bool), (gen && fin) = false ∧ q.generated + b2n gen ≠ q.maxNew) ∧
    (∃ (s : State) (x : Run) (data : Nat), fld data 123 120 = 1 ∧ servingOf s x.ctx = none) :=
  ⟨⟨nextIs { regionsOf false with tge := imgs0, host := mwriteBytes [] 4096 servDesc } (cmdOf 0x400 [(4, 1, 3), (8, 8,
    4096)]), cmdOf 0x400 [(4, 1, 3), (8, 8, 4096)], [], 0, img0, servDesc, ⟨rfl, rfl⟩, by decide +kernel⟩,
    ⟨nextIs { regionsOf false with tge := imgs0, host := mwriteBytes [] 4096 servDesc } (cmdOf 0x400 [(4, 1, 3), (8,
      8, 4096)]), cmdOf 0x400 [(4, 1, 3), (8, 8, 4096)], [], 0, img0, ⟨rfl, rfl⟩, by decide +kernel⟩,
    ⟨nextIs (served srv0) (cmdOf 0x401 [(4, 1, 3)]), cmdOf 0x401 [(4, 1, 3)], [], ⟨rfl, rfl⟩, by decide +kernel⟩,
    ⟨served { srv0 with due := true }, 3, by decide +kernel⟩,
    ⟨{}, 3, by decide +kernel⟩,
    ⟨{ sls := { srv := [(3, srv0)] } }, by decide +kernel⟩,
    ⟨served srv0, 3, by decide +kernel⟩,
    ⟨{ served { srv0 with asm := some { ops := [.spill 0 0] } } with pat := { maps := [(pageKey 0 0,
                                                                              { large := false, at_ := 300 })] } },
      (runOp { served { srv0 with asm := some { ops := [.spill 0 0] } } with pat := { maps := [(pageKey 0 0,
                                                                                      { large := false, at_ := 300 })]
                                                                                        } } 3 (.spill 0 0)).getD {},
      3, { ops := [.spill 0 0] }, .spill 0 0, [], by decide +kernel⟩,
    ⟨{ state := 2, age := 0, promptLen := 3, maxNew := 4, generated := 3, deadline := 0, reqId := 0 }, true, false,
      by decide +kernel⟩,
    ⟨{ state := 2, age := 0, promptLen := 3, maxNew := 4, generated := 2, deadline := 0, reqId := 0 }, true, true,
      by decide +kernel⟩,
    ⟨{ state := 1, age := 0, promptLen := 3, maxNew := 4, generated := 2, deadline := 0, reqId := 0 }, true, false,
      by decide +kernel⟩,
    ⟨{}, run0, 2 ^ 120, by decide +kernel⟩⟩

theorem test_meets_ParcelsSharesAndModels :
    (∃ (s : State) (m : Cmd), isPassed s m 0x0500 ∧ calm s ∧ psMode m = 0 ∧ parcelCheck s m = none ∧ boundTo s
      (psParcel m) = [] ∧ s.saf.safe = false ∧ bitAt m.flags 1 = false) ∧
    (∃ (s : State) (m : Cmd), isPassed s m 0x0500 ∧ calm s ∧ psMode m = 1 ∧ parcelCheck s m = none ∧ leaving s m
      (psCtx m) = 0 ∧ thas s.saf.recov (psCtx m) = false ∧ s.tge.steps = [] ∧ s.saf.safe = false ∧ bitAt m.flags 1 =
      false) ∧
    (∃ (s : State) (m : Cmd), isPassed s m 0x0500 ∧ calm s ∧ psMode m = 2 ∧ parcelCheck s m = none ∧ s.saf.safe =
      false ∧ bitAt m.flags 1 = false) ∧
    (∃ (s : State) (m : Cmd) (status : Nat) (d : Nat), isPassed s m 0x0500 ∧ parcelCheck s m = some (status, d) ∧
      s.saf.safe = false ∧ status ≠ 0 ∧ (psMode m = 0 ∨ psMode m = 3)) ∧
    (∃ (s : State) (m : Cmd) (status : Nat) (d : Nat), isPassed s m 0x0500 ∧ parcelCheck s m = some (status, d) ∧
      s.saf.safe = false ∧ status ≠ 0 ∧ psMode m = 1) ∧
    (∃ (s : State) (m : Cmd) (status : Nat) (d : Nat), isPassed s m 0x0500 ∧ parcelCheck s m = some (status, d) ∧
      s.saf.safe = false ∧ status ≠ 0 ∧ psMode m = 2) ∧
    (∃ (s : State) (m : Cmd) (status : Nat) (d : Nat), isPassed s m 0x0500 ∧ parcelCheck s m = some (status, d) ∧
      s.saf.safe = false ∧ status ≠ 0 ∧ (psMode m = 0 ∨ psMode m = 3)) ∧
    (∃ (s : State) (o : PsmOp), s.psm.ops = [o] ∧ parcelDone s o = true) ∧
    (∃ (s : State) (m : Cmd), isPassed s m 0x0501 ∧ shareFault m = none ∧ s.saf.safe = false ∧ bitAt m.flags 1 = false
      ∧ regBit s 0x980008 0 = false) ∧
    (∃ (s : State) (m : Cmd) (rest : List Cmd), isNext s m rest 0x0502 ∧ calm s ∧ t1Check s m 0 = none ∧ t1Task m =
      0x1FFFF ∧ s.disp.runs = [] ∧ thas s.saf.recov m.ctx = false ∧ s.saf.safe = false ∧ bitAt m.flags 1 = false) ∧
    (∃ (s : State) (m : Cmd) (rest : List Cmd), isNext s m rest 0x0503 ∧ calm s ∧ t1Check s m 2 = none ∧ t1Task m =
      0x1FFFF ∧ s.saf.safe = false ∧ bitAt m.flags 1 = false) ∧
    (∃ (s : State) (m : Cmd) (rest : List Cmd), isNext s m rest 0x0504 ∧ switchCheck s m = none ∧ msAdopt m = true ∧
      s.saf.safe = false ∧ bitAt m.flags 1 = false) ∧
    (∃ (s : State) (m : Cmd) (rest : List Cmd) (g : Region), isNext s m rest 0x0504 ∧ switchCheck s m = none ∧ msAdopt
      m = false ∧ msModel m ≠ 0 ∧ msRegion s m = some g ∧ unmappedPages s m.ctx g = [] ∧ s.psm.ops = [] ∧ s.saf.safe =
      false ∧ bitAt m.flags 1 = false) :=
  ⟨⟨passedIs {} (cmdOf 0x500 [(5, 1, 15), (16, 1, 1)]), cmdOf 0x500 [(5, 1, 15), (16, 1, 1)],
    ⟨⟨_, rfl⟩, rfl, rfl, by decide +kernel⟩, by unfold calm; decide +kernel, by decide +kernel⟩,
    ⟨passedIs { psm := { parcels := parcels1 } } (cmdOf 0x500 [(4, 1, 1), (5, 1, 1), (6, 1, 63)]), cmdOf 0x500 [(4, 1,
      1), (5, 1, 1), (6, 1, 63)], ⟨⟨_, rfl⟩, rfl, rfl, by decide +kernel⟩, by unfold calm; decide +kernel,
      by decide +kernel⟩,
    ⟨passedIs { psm := { parcels := parcels1 } } (cmdOf 0x500 [(4, 1, 2), (5, 1, 1)]), cmdOf 0x500 [(4, 1, 2), (5, 1,
      1)], ⟨⟨_, rfl⟩, rfl, rfl, by decide +kernel⟩, by unfold calm; decide +kernel, by decide +kernel⟩,
    ⟨passedIs {} (cmdOf 0x500 [(4, 1, 3)]), cmdOf 0x500 [(4, 1, 3)], 0x10, 4, ⟨⟨_, rfl⟩, rfl, rfl, by decide +kernel⟩,
      by decide +kernel⟩,
    ⟨passedIs {} (cmdOf 0x500 [(4, 1, 1), (5, 1, 1)]), cmdOf 0x500 [(4, 1, 1), (5, 1, 1)], 0x10, 5,
      ⟨⟨_, rfl⟩, rfl, rfl, by decide +kernel⟩, by decide +kernel⟩,
    ⟨passedIs { psm := { parcels := parcels1, bound := [(0, 1)] } } (cmdOf 0x500 [(4, 1, 2), (5, 1, 1)]), cmdOf 0x500
      [(4, 1, 2), (5, 1, 1)], 0x1D, conflictDetail 2, ⟨⟨_, rfl⟩, rfl, rfl, by decide +kernel⟩, by decide +kernel⟩,
    ⟨passedIs { psm := { parcels := parcels1 } } (cmdOf 0x500 [(5, 1, 15), (16, 1, 1)]), cmdOf 0x500 [(5, 1, 15), (16,
      1, 1)], 0x1D, conflictDetail 1, ⟨⟨_, rfl⟩, rfl, rfl, by decide +kernel⟩, by decide +kernel⟩,
    ⟨{ psm := { ops := [{ cmd := cmdOf 0x500 [(5, 1, 15), (16, 1, 1)], kind := 0, parcels := [15] }] } },
      { cmd := cmdOf 0x500 [(5, 1, 15), (16, 1, 1)], kind := 0, parcels := [15] }, by decide +kernel⟩,
    ⟨passedIs {} (cmdOf 0x501 [(4, 1, 63), (8, 2, 65535)]), cmdOf 0x501 [(4, 1, 63), (8, 2, 65535)],
      ⟨⟨_, rfl⟩, rfl, rfl, by decide +kernel⟩, by decide +kernel⟩,
    ⟨nextIs {} (cmdOf 0x502 [(8, 4, 0x1FFFF)]), cmdOf 0x502 [(8, 4, 0x1FFFF)], [], ⟨rfl, rfl⟩,
      by unfold calm; decide +kernel, by decide +kernel⟩,
    ⟨nextIs { psm := { t1 := [(0, 2)] } } (cmdOf 0x503 [(8, 4, 0x1FFFF)]), cmdOf 0x503 [(8, 4, 0x1FFFF)], [],
      ⟨rfl, rfl⟩, by unfold calm; decide +kernel, by decide +kernel⟩,
    ⟨nextIs { psm := { resident := 9 } } (cmdOf 0x504 [(5, 1, 1), (6, 2, 9)]), cmdOf 0x504 [(5, 1, 1), (6, 2, 9)], [],
      ⟨rfl, rfl⟩, by decide +kernel⟩,
    ⟨nextIs { regionsOf true with pat := { maps := [(pageKey 0 64, { large := true, at_ := 320 })] } } (cmdOf 0x504
      [(4, 1, 2), (6, 2, 9)]), cmdOf 0x504 [(4, 1, 2), (6, 2, 9)], [], (regionAt (regionsOf true) 0 0x400000).getD
      { base := 0, size := 0, kind := 0, large := false, fill := 0, stacked := false, depth := 0, src := 0 },
      ⟨rfl, rfl⟩, by decide +kernel⟩⟩

theorem test_meets_Firmware :
    (∃ (s : State), spanOver s = none) ∧
    (∃ (s : State) (k : Nat), spanOver s = some k ∧ s.saf.recQ.length < 32) ∧
    (∃ (s : State) (m : Cmd), isPassed s m 0x0600 ∧ fwLoadFault m = none ∧ fwBusy s = false) ∧
    (∃ (s : State) (m : Cmd), isPassed s m 0x0600 ∧ fwLoadFault m = none ∧ fwBusy s = true ∧ s.saf.safe = false) ∧
    (∃ (s : State) (m : Cmd) (d : Nat), isPassed s m 0x0600 ∧ fwLoadFault m = some d ∧ s.saf.safe = false) ∧
    (∃ (s : State) (m : Cmd) (err : Option Nat) (o : Nat), s.mgc.loads = [m] ∧ s.saf.safe = false ∧ fwReadFault
      { s with mgc := { s.mgc with loads := [] } } m err = some o) ∧
    (∃ (s : State) (m : Cmd) (err : Option Nat) (b : List Byte) (code : Nat) (i : Nat), s.mgc.loads = [m] ∧ s.saf.safe
      = false ∧ fwReadFault { s with mgc := { s.mgc with loads := [] } } m err = none ∧ readSrc s m.ctx (bitAt (m.at 4
      1) 0) (m.at 8 8) (m.at 16 4) = some b ∧ fwImageFault m b = some (code, i)) ∧
    (∃ (s : State) (m : Cmd) (err : Option Nat) (b : List Byte) (code : Nat) (i : Nat), s.mgc.loads = [m] ∧ s.saf.safe
      = false ∧ fwReadFault { s with mgc := { s.mgc with loads := [] } } m err = none ∧ readSrc s m.ctx (bitAt (m.at 4
      1) 0) (m.at 8 8) (m.at 16 4) = some b ∧ fwImageFault m b = some (code, i)) ∧
    (∃ (s : State) (m : Cmd) (err : Option Nat) (b : List Byte), s.mgc.loads = [m] ∧ s.saf.safe = false ∧ bitAt
      m.flags 1 = false ∧ fwReadFault { s with mgc := { s.mgc with loads := [] } } m err = none ∧ readSrc s m.ctx
      (bitAt (m.at 4 1) 0) (m.at 8 8) (m.at 16 4) = some b ∧ fwImageFault m b = none) ∧
    (∃ (s : State) (m : Cmd) (rest : List Cmd), s.mgc.loads = m :: rest ∧ rest ≠ []) ∧
    (∃ (s : State), s.mgc.loads ≠ []) :=
  ⟨⟨{ regsOf [(0x980000, 5)] with mgc := { span := some 4 } }, by decide +kernel⟩,
    ⟨{ regsOf [(0x980000, 5)] with mgc := { span := some 5 } }, 5, by decide +kernel⟩,
    ⟨passedIs {} (cmdOf 0x600 [(16, 4, 384)]), cmdOf 0x600 [(16, 4, 384)], ⟨⟨_, rfl⟩, rfl, rfl, by decide +kernel⟩,
      by decide +kernel⟩,
    ⟨passedIs (regsOf [(0x980004, 0x40000000)]) (cmdOf 0x600 [(16, 4, 384)]), cmdOf 0x600 [(16, 4, 384)],
      ⟨⟨_, rfl⟩, rfl, rfl, by decide +kernel⟩, by decide +kernel⟩,
    ⟨passedIs {} (cmdOf 0x600 [(16, 4, 448 - 128)]), cmdOf 0x600 [(16, 4, 448 - 128)], 16,
      ⟨⟨_, rfl⟩, rfl, rfl, by decide +kernel⟩, by decide +kernel⟩,
    ⟨{ mgc := { loads := [cmdOf 0x600 [(16, 4, 384)]] } }, cmdOf 0x600 [(16, 4, 384)], some 383, 383,
      by decide +kernel⟩,
    ⟨fwLoading badImage badDigest, fwCmdOf badDigest, some 384, badImage, 1, 4, by decide +kernel⟩,
    ⟨{ hostAt 4096 badImage with mgc := { loads := [fwCmdOf fwDigest] } }, fwCmdOf fwDigest, none, badImage, 6, 0,
      by decide +kernel⟩,
    ⟨fwLoading fwImage fwDigest, fwCmdOf fwDigest, none, fwImage, by decide +kernel⟩,
    ⟨{ mgc := { loads := [cmdOf 0x600 [], cmdOf 0x600 []] } }, cmdOf 0x600 [], [cmdOf 0x600 []], by decide +kernel⟩,
    ⟨{ mgc := { loads := [cmdOf 0x600 []] } }, by decide +kernel⟩⟩

theorem test_meets_FirmwareActsAndEvents :
    (∃ (s : State) (m : Cmd), isPassed s m 0x0601 ∧ calWriteFault m = none ∧ fwBusy s = false ∧ m.at 4 1 = 0 ∧
      s.saf.safe = false ∧ bitAt m.flags 1 = false) ∧
    (∃ (s : State) (m : Cmd), isPassed s m 0x0601 ∧ calWriteFault m = none ∧ fwBusy s = false ∧ m.at 4 1 = 1 ∧
      s.saf.safe = false ∧ bitAt m.flags 1 = false) ∧
    (∃ (s : State) (m : Cmd), isPassed s m 0x0601 ∧ calWriteFault m = none ∧ fwBusy s = false ∧ m.at 4 1 = 1 ∧
      s.saf.safe = false ∧ bitAt m.flags 1 = false) ∧
    (∃ (s : State) (m : Cmd) (d : Nat), isPassed s m 0x0601 ∧ calWriteFault m = some d ∧ s.saf.safe = false) ∧
    (∃ (s : State), pastBoundary s = false) ∧
    (∃ (s : State), pastBoundary s = true) ∧
    (∃ (s : State), noticeBusy s = false) ∧
    (∃ (s : State), noticeBusy s = true) ∧
    (∃ (cmp : Nat), cmp < 2 ^ 64) ∧
    (∃ (cmp : Nat), cmp < 2 ^ 64) ∧
    (∃ (s : State) (c : Nat), c < 64 ∧ (ctxEnabled s c = true ∨ ctxIdle s c = false) ∧ eqFree s c = true ∧ (hctx s
      c).evSince = 0) ∧
    (∃ (s : State) (c : Nat), c < 64 ∧ eqFree s c = false) ∧
    (∃ (s : State) (c : Nat), ctxEnabled s c = false ∧ ctxIdle s c = true) :=
  ⟨⟨passedIs {} (cmdOf 0x601 [(6, 1, 0x81), (8, 4, 11), (36, 4, 12)]), cmdOf 0x601 [(6, 1, 0x81), (8, 4, 11), (36, 4,
    12)], ⟨⟨_, rfl⟩, rfl, rfl, by decide +kernel⟩, by decide +kernel⟩,
    ⟨passedIs {} (cmdOf 0x601 [(4, 1, 1), (6, 1, 0x3F), (8, 2, 11), (18, 2, 12)]), cmdOf 0x601 [(4, 1, 1), (6, 1,
      0x3F), (8, 2, 11), (18, 2, 12)], ⟨⟨_, rfl⟩, rfl, rfl, by decide +kernel⟩, by decide +kernel⟩,
    ⟨passedIs {} (cmdOf 0x601 [(4, 1, 1), (6, 1, 0x20), (8, 2, 11), (18, 2, 12)]), cmdOf 0x601 [(4, 1, 1), (6, 1,
      0x20), (8, 2, 11), (18, 2, 12)], ⟨⟨_, rfl⟩, rfl, rfl, by decide +kernel⟩, by decide +kernel⟩,
    ⟨passedIs {} (cmdOf 0x601 [(4, 1, 1), (6, 1, 0x40)]), cmdOf 0x601 [(4, 1, 1), (6, 1, 0x40)], 6,
      ⟨⟨_, rfl⟩, rfl, rfl, by decide +kernel⟩, by decide +kernel⟩,
    ⟨{ gtb := { now := policyTick - 1 } }, by decide +kernel⟩,
    ⟨{ gtb := { now := policyTick } }, by decide +kernel⟩,
    ⟨{}, by decide +kernel⟩,
    ⟨{ hif := { cplQ := [.event { ev0 with type := 0x170 }] } }, by decide +kernel⟩,
    ⟨3, by decide +kernel⟩,
    ⟨3, by decide +kernel⟩,
    ⟨regsOf [(hifBase 63, 0x80000000), (hifBase 63 + 0x28, 6)], 63, by decide +kernel⟩,
    ⟨{ regsOf [(hifBase 63 + 0x28, 6)] with hif := { ctx := [(63, { eqProd := 64 })] } }, 63, by decide +kernel⟩,
    ⟨{}, 63, by decide +kernel⟩⟩

theorem test_meets_PolicyValues :
    (∃ (off : Nat) (k : Nat), policyMask off = some k) ∧
    (∃ (off : Nat), policyMask off = none) ∧
    (∃ (s : State), s.mgc.holds = [] ∧ s.mgc.holdNow = true) ∧
    (∃ (s : State), s.mgc.holds = [] ∧ s.mgc.holdNow = false ∧ s.mgc.offers = []) ∧
    (∃ (s : State) (b : Nat) (c : Fin 64) (x : Shadow), s.mgc.holds = [] ∧ s.mgc.holdNow = false ∧ s.mgc.offers = [x]
      ∧ x.off = psmCtx c + 4 ∧ x.stamp < b ∧ x.v % 65536 ≠ 0) ∧
    (∃ (s : State) (b : Nat) (c : Fin 64) (x : Shadow), s.mgc.holds = [] ∧ s.mgc.holdNow = false ∧ s.mgc.offers = [x]
      ∧ x.off = psmCtx c + 4 ∧ x.stamp < b ∧ x.v % 65536 = 0) ∧
    (∃ (s : State) (b : Nat) (x : Shadow), s.mgc.holds = [] ∧ s.mgc.holdNow = false ∧ s.mgc.offers = [x] ∧ b ≤
      x.stamp) ∧
    (∃ (s : State) (c : Fin 64) (v : Nat), bitAt v 31 = false ∧ ctxRun s c = true) :=
  ⟨⟨0x801FC4, 0xFFFF, by decide +kernel⟩,
    ⟨0x802004, by decide +kernel⟩,
    ⟨{ mgc := { holdNow := true, offers := [{ off := 0x801004, stamp := 0, v := 5 }] } }, by decide +kernel⟩,
    ⟨{}, by decide +kernel⟩,
    ⟨{ mgc := { offers := [{ off := 0x801FC4, stamp := 98, v := 65535 }] } }, 99, 63,
      { off := 0x801FC4, stamp := 98, v := 65535 }, by decide +kernel⟩,
    ⟨{ mgc := { offers := [{ off := 0x801004, stamp := 98, v := 0 }] } }, 99, 0,
      { off := 0x801004, stamp := 98, v := 0 }, by decide +kernel⟩,
    ⟨{ mgc := { offers := [{ off := 0x801FC4, stamp := 99, v := 65535 }] } }, 99,
      { off := 0x801FC4, stamp := 99, v := 65535 }, by decide +kernel⟩,
    ⟨{}, 63, 0x7FFFFFFF, by decide +kernel⟩⟩

theorem test_meets_FatalRecordEntersSafeState :
    (∃ (s : State) (e : Rec) (rest : List Rec), s.saf.recQ = e :: rest ∧ e.sev = 3) :=
  ⟨{ saf := { recQ := [{ rec0 with sev := 3 }] } }, { rec0 with sev := 3 }, [], by decide +kernel⟩

theorem test_meets_CleanCopyRepairs :
    (∃ (s : State) (k : Fin 23) (f : Fin 6), k.val ≤ 2 ∧ (f.val = 2 ∨ f.val = 3) ∧ s.saf.recQ.length < 32) ∧
    (∃ (s : State) (k : Fin 23) (f : Fin 6), k.val ≤ 2 ∧ (f.val = 2 ∨ f.val = 3) ∧ s.saf.recQ.length < 32) ∧
    (∃ (s : State) (k : Fin 23) (f : Fin 6), k.val ≤ 2 ∧ (f.val = 2 ∨ f.val = 3) ∧ s.saf.recQ.length < 32) :=
  ⟨⟨{ tge := { cntB := [(9, 0x80000001)] }, saf := { recQ := List.replicate 31 rec0 } }, 0, 2, by decide +kernel⟩,
    ⟨{ syn := { objA := [(9, obj0)] } }, 1, 3, by decide +kernel⟩,
    ⟨{ saf := { ledA := [(131071, { done := true })] } }, 2, 3, by decide +kernel⟩⟩

theorem test_meets_ErrorsAndScrubbing :
    (∃ (s : State) (e : Rec) (rest : List Rec), calm s ∧ s.saf.recQ = e :: rest ∧ e.sev < 3 ∧ e.sev < regFld s
      0xA00000 1 0) ∧
    (∃ (s : State), calm s ∧ s.saf.recQ = []) ∧
    (∃ (s : State) (e : Rec), (e.sev = 1 ∨ e.sev = 2) ∧ regFld s 0xA00000 1 0 ≤ e.sev) ∧
    (∃ (s : State) (r : Rec), tget? s.saf.ring (reg s 0xA00010 % 1024) = some r ∧ r.seq = reg s 0xA00010) ∧
    (∃ (s : State), tget? s.saf.ring (reg s 0xA00010 % 1024) = none) ∧
    (∃ (p : Fin 32), isPath p.val = false) ∧
    (∃ (s : State) (p : Fin 32), isPath p.val = true ∧ s.saf.recQ.length < 32) ∧
    (∃ (s : State) (p : Fin 32), isPath p.val = true ∧ s.saf.recQ.length < 32) ∧
    (∃ (s : State), s.saf.recQ.length < 32) ∧
    (∃ (s : State) (index : Nat), calm s ∧ cntA s index = cntB s index) ∧
    (∃ (s : State) (index : Nat), calm s ∧ cntA s index ≠ cntB s index ∧ taskStepRuns s index = false ∧
      s.saf.recQ.length < 32) ∧
    (∃ (s : State) (index : Nat) (c : Nat), cntA s index ≠ cntB s index ∧ taskStepRuns s index = true ∧ taskOwner s
      index = some c) ∧
    (∃ (s : State) (index : Nat), calm s ∧ objOf s index = none ∧ tget 0 s.syn.freeB index ≠ 0 ∧ s.saf.recQ.length <
      32) :=
  ⟨⟨{ regsOf [(0xA00000, 3), (0xA00008, 0xFFFFFFFF)] with saf := { recQ := [{ rec0 with sev := 2 }] } },
    { rec0 with sev := 2 }, [], by unfold calm; decide +kernel, by decide +kernel⟩,
    ⟨{}, by unfold calm; decide +kernel, by decide +kernel⟩,
    ⟨regsOf [(0xA00000, 1), (0x110000, 0x80000000)], { rec0 with ctx := some 0 }, by decide +kernel⟩,
    ⟨{ regsOf [(0xA00010, 1025)] with saf := { ring := [(1, { rec0 with seq := 1025 })] } }, { rec0 with seq := 1025
                                                                                                           },
      by decide +kernel⟩,
    ⟨{}, by decide +kernel⟩,
    ⟨24, by decide +kernel⟩,
    ⟨{}, 23, by decide +kernel⟩,
    ⟨{}, 0, by decide +kernel⟩,
    ⟨{ saf := { recQ := List.replicate 31 rec0 } }, by decide +kernel⟩,
    ⟨{}, 5, by unfold calm; decide +kernel, by decide +kernel⟩,
    ⟨{ tge := { cntA := [(5, 1)] } }, 5, by unfold calm; decide +kernel, by decide +kernel⟩,
    ⟨{ tge := { steps0 with cntA := [(1023, 1)] } }, 1023, 0, by decide +kernel⟩,
    ⟨{ syn := { freeB := [(9, 5)] } }, 9, by unfold calm; decide +kernel, by decide +kernel⟩⟩

theorem test_meets_Recoveries :
    (∃ (s : State), (∀ e ∈ s.saf.recov, ¬((e.2 = 3 ∨ (e.2 = 4 ∧ redoDue s e.1 = true)) ∧ rebuildDue s e.1 = true))) ∧
    (∃ (s : State) (c : Nat), s.saf.recov = [(c, 4)] ∧ redoDue s c = true ∧ rebuildDue s c = true) ∧
    (∃ (s : State) (c : Nat), calm s ∧ s.saf.recov = [(c, 3)] ∧ rebuildDue s c = true ∧ recoverySteps s c = []) ∧
    (∃ (s : State) (c : Nat) (q : List (Nat × Nat)), s.saf.recov = (c, 3) :: q ∧ rebuildDue s c = true) ∧
    (∃ (s : State) (t : Nat) (dones : Table Nat), tget {} s.saf.ledA t = tget {} s.saf.ledB t ∧ isDone s t = false ∧
      tdKind (descOf s t) ≠ 2 ∧ b2n (tget {} s.saf.ledA t).waited + tget 0 dones t ≤ tdInCount (descOf s t) ∧ (tget {}
      s.saf.ledA t).done = false) ∧
    (∃ (s : State) (c : Nat), calm s ∧ s.saf.recov = [(c, 5)] ∧ (∀ f ∈ s.saf.frozen, f.2.ctx ≠ c) ∧ recoverySteps s c
      = [] ∧ c < 64) ∧
    (∃ (s : State), (∀ e ∈ s.saf.recov, e.2 ≠ 5)) ∧
    (∃ (s : State) (i : Nat) (t : Nat), tget {} s.saf.ledA t = tget {} s.saf.ledB t ∧ (isDone s t = true ∨ cwCount
      (cntA s t) ≠ 0 ∨ underWay s i t = true)) ∧
    (∃ (s : State) (i : Nat) (t : Nat), tget {} s.saf.ledA t = tget {} s.saf.ledB t ∧ (isDone s t = true ∨ cwCount
      (cntA s t) ≠ 0 ∨ underWay s i t = true)) ∧
    (∃ (s : State) (i : Nat) (t : Nat), tget {} s.saf.ledA t = tget {} s.saf.ledB t ∧ (isDone s t = true ∨ cwCount
      (cntA s t) ≠ 0 ∨ underWay s i t = true)) ∧
    (∃ (s : State) (i : Nat) (t : Nat), tget {} s.saf.ledA t = tget {} s.saf.ledB t ∧ isDone s t = false ∧ cwCount
      (cntA s t) = 0 ∧ underWay s i t = false ∧ tdKind (descOf s t) ≠ 2 ∧ tdKind (descOf s t) ≠ 4 ∧ tdKind (descOf s
      t) ≠ 5 ∧ tget? s.saf.kept t = none) :=
  ⟨⟨{ saf := { recov := [(3, 5)] } }, by decide +kernel⟩,
    ⟨{ saf := { recov := [(63, 4)] }, tge := { imgs := [(0, { img0 with ctx := 63 })], steps := [(0, step0)] } }, 63,
      by decide +kernel⟩,
    ⟨{ saf := { recov := [(63, 3)] },
       disp := { ready := [{ ready0 with ctx := 63 }], timers := [{ ctx := 63, img := 0, task := 0, due := 0 }] } },
      63, by unfold calm; decide +kernel, by decide +kernel⟩,
    ⟨{ saf := { recov := [(63, 3)] }, tge := { imgs := [(0, { img0 with ctx := 63 })], steps := [(0, step0)] } }, 63,
      [], by decide +kernel⟩,
    ⟨{ tge := { tasks := [(3, bytesOf 64 [(4, 2, 9)])] } }, 3, [(3, 2)], by decide +kernel⟩,
    ⟨{ saf := { recov := [(63, 5)], frozen := [(0, { ctx := 1, vid := 0, obj := 0 })] } }, 63,
      by unfold calm; decide +kernel, by decide +kernel⟩,
    ⟨{ saf := { recov := [(3, 3)] } }, by decide +kernel⟩,
    ⟨{ saf := { ledA := [(3, { done := true })], ledB := [(3, { done := true })] } }, 0, 3, by decide +kernel⟩,
    ⟨{ tge := { cntA := [(3, 0x80000001)] } }, 0, 3, by decide +kernel⟩,
    ⟨{ disp := { gates := [(0, 3)] } }, 0, 3, by decide +kernel⟩,
    ⟨{ tge := imgs0 }, 0, 3, by decide +kernel⟩⟩

theorem test_meets_ImagesAndElementPrograms :
    (∃ (s : State) (c : Fin 64), rexCfgOpen s c = true) ∧
    (∃ (s : State) (c : Fin 64), rexCfgOpen s c = true) ∧
    (∃ (s : State) (c : Fin 64), rexCfgOpen s c = false) ∧
    (∃ (s : State) (m : Cmd) (rest : List Cmd), isNext s m rest 0x0104 ∧ imageOperand m = none ∧ iregOf s m.ctx ≠ 0 ∧
      genInUse s m.ctx (ilImg m) (ilTarget s m) = false ∧ (rimgOf s m.ctx (ilImg m)).loading = none) ∧
    (∃ (s : State) (m : Cmd) (rest : List Cmd) (d : Nat), isNext s m rest 0x0104 ∧ imageOperand m = some d ∧
      s.saf.safe = false) ∧
    (∃ (s : State) (m : Cmd) (rest : List Cmd), isNext s m rest 0x0104 ∧ imageOperand m = none ∧ s.saf.safe = false ∧
      iregOf s m.ctx = 0) ∧
    (∃ (s : State) (m : Cmd) (rest : List Cmd), isNext s m rest 0x0104 ∧ imageOperand m = none ∧ s.saf.safe = false ∧
      iregOf s m.ctx ≠ 0 ∧ (genInUse s m.ctx (ilImg m) (ilTarget s m) = true ∨ (rimgOf s m.ctx (ilImg m)).loading ≠
      none)) ∧
    (∃ (s : State) (m : Cmd) (rest : List Cmd), isNext s m rest 0x0104 ∧ imageOperand m = none ∧ s.saf.safe = false ∧
      iregOf s m.ctx ≠ 0 ∧ (genInUse s m.ctx (ilImg m) (ilTarget s m) = true ∨ (rimgOf s m.ctx (ilImg m)).loading ≠
      none)) ∧
    (∃ (s : State) (c : Fin 64) (i : Fin 16) (m : Cmd) (k : Nat) (d : Nat) (err : Option Nat) (lost : Nat) (v :
      State), (rimgOf s c i).loading = some (m, k) ∧ k < 2 ∧ v = streamLoss s 0x680010 lost 0x680004 3 ∧ least
      (imageReadFault v m err) (imageWriteFault v c (genVa v c i k) (ilBytes m)) = some d) ∧
    (∃ (s : State) (c : Fin 64) (i : Fin 16) (m : Cmd) (k : Nat) (d : Nat) (err : Option Nat) (lost : Nat) (v :
      State), (rimgOf s c i).loading = some (m, k) ∧ k < 2 ∧ v = streamLoss s 0x680010 lost 0x680004 3 ∧ least
      (imageReadFault v m err) (imageWriteFault v c (genVa v c i k) (ilBytes m)) = some d) ∧
    (∃ (s : State) (c : Fin 64) (i : Fin 16) (m : Cmd) (k : Nat) (b : List Byte) (err : Option Nat) (lost : Nat) (v :
      State), (rimgOf s c i).loading = some (m, k) ∧ k < 2 ∧ v = streamLoss s 0x680010 lost 0x680004 3 ∧ least
      (imageReadFault v m err) (imageWriteFault v c (genVa v c i k) (ilBytes m)) = none ∧ readSrc v c (bitAt (m.at 5
      1) 0) (m.at 8 8) (ilBytes m) = some b) ∧
    (∃ (s : State) (m : Cmd) (g : Nat), g < 2 ∧ s.saf.safe = false ∧ bitAt m.flags 1 = false) ∧
    (∃ (s : State), s.saf.safe = false) ∧
    (∃ (w : Word), bitAt w.toNat 31 = false) :=
  ⟨⟨{ rex := { imgs := [(16 * 63 + 15, { len0 := some 4, len1 := some 9 }), (0, { len0 := some 1 })] } }, 63,
    by decide +kernel⟩,
    ⟨{ rex := { imgs := [(16 * 63 + 15, { len0 := some 4, len1 := some 9 }), (0, { len0 := some 1 })] } }, 63,
      by decide +kernel⟩,
    ⟨regsOf [(0x110000, 0x80000000)], 0, by decide +kernel⟩,
    ⟨nextIs { regsOf [(0x6C0000, 0x200000)] with rex := { imgs := [(15, { len0 := some 4, len1 := some 9 })] } }
      (cmdOf 0x104 [(4, 1, 15), (16, 4, 1048576)]), cmdOf 0x104 [(4, 1, 15), (16, 4, 1048576)], [], ⟨rfl, rfl⟩,
      by decide +kernel⟩,
    ⟨nextIs {} (cmdOf 0x104 [(16, 4, 1048584)]), cmdOf 0x104 [(16, 4, 1048584)], [], 16, ⟨rfl, rfl⟩,
      by decide +kernel⟩,
    ⟨nextIs {} (cmdOf 0x104 [(16, 4, 8)]), cmdOf 0x104 [(16, 4, 8)], [], ⟨rfl, rfl⟩, by decide +kernel⟩,
    ⟨nextIs { regsOf [(0x6C0000, 0x200000)] with tge := { imgs := [(0, img0)], steps := [(0,
                                                          { step0 with gens := [(15, 1)] })] } } (cmdOf 0x104 [(4, 1,
      15), (16, 4, 8)]), cmdOf 0x104 [(4, 1, 15), (16, 4, 8)], [], ⟨rfl, rfl⟩, by decide +kernel⟩,
    ⟨nextIs { regsOf [(0x6C0000, 0x200000)] with rex := { imgs := [(15, { loading := some (cmdOf 0x104 [], 1) })] } }
      (cmdOf 0x104 [(4, 1, 15), (16, 4, 8)]), cmdOf 0x104 [(4, 1, 15), (16, 4, 8)], [], ⟨rfl, rfl⟩,
      by decide +kernel⟩,
    ⟨{ regionsOf false with rex := { imgs := [(1, { loading := some (cmdOf 0x104 [(4, 1, 1), (16, 4, 8)], 1) })] } },
      0, 1, cmdOf 0x104 [(4, 1, 1), (16, 4, 8)], 1, 0, none, 0, streamLoss
      ({ regionsOf false with rex := { imgs := [(1, { loading := some (cmdOf 0x104 [(4, 1, 1), (16, 4, 8)], 1) })] } }
      : State) 0x680010 (0) 0x680004 3, by decide +kernel⟩,
    ⟨{ ringBack with rex := { imgs := [(0, { loading := some (cmdOf 0x104 [(16, 4, 8)], 0) })] } }, 0, 0, cmdOf 0x104
      [(16, 4, 8)], 0, 7, some 7, 0, streamLoss
      ({ ringBack with rex := { imgs := [(0, { loading := some (cmdOf 0x104 [(16, 4, 8)], 0) })] } } : State) 0x680010
      (0) 0x680004 3, by decide +kernel⟩,
    ⟨{ ringBack with rex := { imgs := [(0, { loading := some (cmdOf 0x104 [(16, 4, 8)], 0) })] } }, 0, 0, cmdOf 0x104
      [(16, 4, 8)], 0, List.replicate 8 0, some 8, 2, streamLoss
      ({ ringBack with rex := { imgs := [(0, { loading := some (cmdOf 0x104 [(16, 4, 8)], 0) })] } } : State) 0x680010
      (2) 0x680004 3, by decide +kernel⟩,
    ⟨{ rex := { imgs := [(0, { loads := 4294967295, loading := some (cmdOf 0x104 [(16, 4, 8)], 1) })] } }, cmdOf 0x104
      [(16, 4, 8)], 1, by decide +kernel⟩,
    ⟨{ rex := { imgs := [(0, { loads := 4294967295, loading := some (cmdOf 0x104 [(16, 4, 8)], 1) })] } },
      by decide +kernel⟩,
    ⟨0x7FFFFFFF, by decide +kernel⟩⟩

theorem test_meets_ImagesAndElementPrograms_more :
    (∃ (s : State) (w : Word), bitAt w.toNat 31 = true ∧ (rexFree s (fld w.toNat 28 22) = false ∨ s.rex.ep ≠ none ∨ (∃
      k, k ≤ fld w.toNat 21 17 ∧ 0x14 < fld (reg s (0x680180 + 4 * k)) 31 27))) ∧
    (∃ (s : State) (w : Word), bitAt w.toNat 31 = true ∧ (rexFree s (fld w.toNat 28 22) = false ∨ s.rex.ep ≠ none ∨ (∃
      k, k ≤ fld w.toNat 21 17 ∧ 0x14 < fld (reg s (0x680180 + 4 * k)) 31 27))) ∧
    (∃ (s : State) (w : Word), bitAt w.toNat 31 = true ∧ (rexFree s (fld w.toNat 28 22) = false ∨ s.rex.ep ≠ none ∨ (∃
      k, k ≤ fld w.toNat 21 17 ∧ 0x14 < fld (reg s (0x680180 + 4 * k)) 31 27))) ∧
    (∃ (s : State) (w : Word), bitAt w.toNat 31 = true ∧ rexFree s (fld w.toNat 28 22) = true ∧ s.rex.ep = none ∧ (∀
      k, k ≤ fld w.toNat 21 17 → fld (reg s (0x680180 + 4 * k)) 31 27 ≤ 0x14)) ∧
    (∃ (s : State), s.rex.ep = none) ∧
    (∃ (s : State) (ctl : Nat) (ops : List Nat), s.rex.ep = some (ctl, ops)) ∧
    (∃ (s : State), s.rex.ep ≠ none) ∧
    (∃ (s : State), s.rex.ep ≠ none) ∧
    (∃ (s : State), s.rex.ep = none) ∧
    (∃ (s : State) (sel : Nat), reg s 0x680114 = sel ∧ rexFree s (fld sel 31 25) = true ∧ epUnit s ≠ some (fld sel 31
      25)) ∧
    (∃ (s : State) (sel : Nat), reg s 0x680114 = sel ∧ rexFree s (fld sel 31 25) = true ∧ epUnit s ≠ some (fld sel 31
      25)) ∧
    (∃ (s : State) (sel : Nat), reg s 0x680114 = sel ∧ rexFree s (fld sel 31 25) = false) ∧
    (∃ (s : State) (sel : Nat), reg s 0x680114 = sel ∧ rexFree s (fld sel 31 25) = false) :=
  ⟨⟨{}, 0x80000000, by decide +kernel⟩,
    ⟨{ disp := { rex := [(127, { offline := true })] }, rex := { ep := some (0, []) } }, 0x9FC00000,
      by decide +kernel⟩,
    ⟨{ regsOf [(0x680184, 0xA8000000)] with disp := { rex := [(127, { offline := true })] } }, 0x9FC20000,
      by decide +kernel⟩,
    ⟨{ regsOf [(0x680184, 0xA0000000), (0x680188, 0xA8000000)] with disp := { rex := [(127, { offline := true })] } },
      0x9FC2FFFF, by decide +kernel⟩,
    ⟨{}, by decide +kernel⟩,
    ⟨{ rex := { ep := some (0x9FC00FF0, [0x1111, 0x2222]), units := [(127, { tiles := [(15 * 4096 + 65, 9)] })] } },
      0x9FC00FF0, [0x1111, 0x2222], by decide +kernel⟩,
    ⟨{ rex := { ep := some (0x9FC00FF0, []) } }, by decide +kernel⟩,
    ⟨{ rex := { ep := some (0x9FC00FF0, []) } }, by decide +kernel⟩,
    ⟨{ disp := { rex := [(126, { failed := true })] } }, by decide +kernel⟩,
    ⟨{ regsOf [(0x680114, 0xFFE00FFF)] with disp := { rex := [(127, { offline := true })] } }, 0xFFE00FFF,
      by decide +kernel⟩,
    ⟨{ regsOf [(0x680114, 0xFFE00FFF)] with disp := { rex := [(127, { offline := true })] },
                                            rex := { units := [(127, { tiles := [(65535, 9)] })] } }, 0xFFE00FFF,
      by decide +kernel⟩,
    ⟨regsOf [(0x680114, 0xFFE00FFF)], 0xFFE00FFF, by decide +kernel⟩,
    ⟨regsOf [(0x680114, 0xFFE00FFF)], 0xFFE00FFF, by decide +kernel⟩⟩

theorem test_meets_StreamControl :
    (∃ (c : Instr) (s : State) (u : Fin 128) (exe : Bool) (op : Nat), rexOp c = some (u, exe, op) ∧ issueAt s u exe op
      = .none) ∧
    (∃ (c : Instr) (s : State) (u : Fin 128) (exe : Bool) (op : Nat), rexOp c = some (u, exe, op) ∧ issueAt s u exe op
      = .none) ∧
    (∃ (c : Instr) (s : State) (t : State) (u : Fin 128) (exe : Bool) (op : Nat), rexOp c = some (u, exe, op) ∧ op ≠
      0x33 ∧ issueAt s u exe op = .stop t) ∧
    (∃ (c : Instr) (s : State) (t : State) (u : Fin 128) (exe : Bool) (op : Nat), rexOp c = some (u, exe, op) ∧ op ≠
      0x33 ∧ issueAt s u exe op = .stop t) ∧
    (∃ (s : State) (u : Fin 128), (unitOf s u).miss = none) ∧
    (∃ (s : State) (u : Fin 128) (key : Nat) (r : Nat) (x : Run) (b : List Byte), calm s ∧ (unitOf s u).miss = some
      key ∧ (unitOf s u).run = some r ∧ runOf s r = some x ∧ (unitOf s u).starting = false ∧ (unitOf s u).lines.length
      < 256 ∧ readVirt s x.ctx (genVa s x.ctx (key / 8192 % 16) (key / 4096 % 2) + key % 4096 * 256) 256 = some b) ∧
    (∃ (s : State) (u : Fin 128) (exe : Bool) (r : Nat) (x : Run) (pc : Nat) (w : Nat), issues s u exe 0x00 r x pc w)
      ∧
    (∃ (s : State) (u : Fin 128) (exe : Bool) (r : Nat) (x : Run) (pc : Nat) (w : Nat) (n : Nat), issues s u exe 0x02
      r x pc w ∧ (strOf (unitOf s u) exe).loops = [] ∧ fld w 16 0 ≠ 0 ∧ (rimgOf s x.ctx (unitOf s u).img).len (unitOf
      s u).gen = some n ∧ pc + 1 + fld w 16 0 ≤ n) ∧
    (∃ (s : State) (u : Fin 128) (exe : Bool) (r : Nat) (x : Run) (pc : Nat) (w : Nat), issues s u exe 0x02 r x pc w ∧
      (fld w 16 0 = 0 ∨ (∃ l ∈ (strOf (unitOf s u) exe).loops, l.lv = fld w 51 50))) ∧
    (∃ (s : State) (u : Fin 128) (exe : Bool) (r : Nat) (x : Run) (pc : Nat) (w : Nat), issues s u exe 0x02 r x pc w ∧
      (fld w 16 0 = 0 ∨ (∃ l ∈ (strOf (unitOf s u) exe).loops, l.lv = fld w 51 50))) ∧
    (∃ (t : RexStream) (l : RexLoop) (ls : List RexLoop), t.loops = l :: ls ∧ t.pc = l.stop ∧ 0 < l.left) :=
  ⟨⟨.ld 3, {}, 3, false, 8, by decide +kernel⟩,
    ⟨.add 3, rexAt (ins 0x21 []), 3, true, 0x20, by decide +kernel⟩,
    ⟨.ld 3, rexIs { run := some 0 }, noteMiss (rexIs { run := some 0 }) 3 0, 3, false, 8, by decide +kernel⟩,
    ⟨.ld 3, rexIs { run := some 0, acc := { pc := 4 } }, progFault (rexIs { run := some 0, acc := { pc := 4 } }) 3 0
      rexRun 2 4 0, 3, false, 8, by decide +kernel⟩,
    ⟨{}, 127, by decide +kernel⟩,
    ⟨{ ringBack with rex := { units := [(3, { run := some 0, miss := some 4095 })] },
                     disp := { runs := [(0, rexRun)] } }, 3, 4095, 0, rexRun, List.replicate 256 0,
      by unfold calm; decide +kernel, by decide +kernel⟩,
    ⟨rexAt 0, 3, true, 0, rexRun, 0, 0, by unfold issues; decide +kernel⟩,
    ⟨rexAt (ins 2 [(50, 3), (32, 65535), (0, 3)]), 3, false, 0, rexRun, 0, ins 2 [(50, 3), (32, 65535), (0, 3)], 4,
      by unfold issues; decide +kernel, by decide +kernel⟩,
    ⟨rexAt (ins 2 [(50, 3), (32, 65535)]), 3, false, 0, rexRun, 0, ins 2 [(50, 3), (32, 65535)],
      by unfold issues; decide +kernel, by decide +kernel⟩,
    ⟨rexIs { unit0 (ins 2 [(50, 3), (0, 1)]) with exe := { loops := [{ lv := 3, first := 0, stop := 3, left := 0 }] }
                                                    }, 3, true, 0, rexRun, 0, ins 2 [(50, 3), (0, 1)],
      by unfold issues; decide +kernel, by decide +kernel⟩,
    ⟨{ pc := 4, loops := [{ lv := 3, first := 1, stop := 4, left := 1 }] },
      { lv := 3, first := 1, stop := 4, left := 1 }, [], by decide +kernel⟩⟩

theorem test_meets_StreamControl_more :
    (∃ (s : State) (u : Fin 128) (exe : Bool) (r : Nat) (x : Run) (pc : Nat) (w : Nat), issues s u exe 0x03 r x pc w ∧
      ((strOf (unitOf s u) (!exe)).bar = none ∨ ((unitOf s u).late ≠ [] ∧ (strOf (unitOf s u) (!exe)).bar = some (fld
      w 51 44)))) ∧
    (∃ (s : State) (u : Fin 128) (exe : Bool) (r : Nat) (x : Run) (pc : Nat) (w : Nat), issues s u exe 0x03 r x pc w ∧
      ((strOf (unitOf s u) (!exe)).bar = none ∨ ((unitOf s u).late ≠ [] ∧ (strOf (unitOf s u) (!exe)).bar = some (fld
      w 51 44)))) ∧
    (∃ (s : State) (u : Fin 128) (exe : Bool) (r : Nat) (x : Run) (pc : Nat) (w : Nat), issues s u exe 0x03 r x pc w ∧
      (unitOf s u).late = [] ∧ (strOf (unitOf s u) (!exe)).bar = some (fld w 51 44)) ∧
    (∃ (s : State) (u : Fin 128) (exe : Bool) (r : Nat) (x : Run) (pc : Nat) (w : Nat) (k : Nat), issues s u exe 0x03
      r x pc w ∧ (strOf (unitOf s u) (!exe)).bar = some k ∧ k ≠ fld w 51 44) ∧
    (∃ (s : State) (u : Fin 128) (exe : Bool) (r : Nat) (x : Run) (pc : Nat) (w : Nat), issues s u exe 0x01 r x pc w ∧
      (unitOf s u).run = some r ∧ runOf s r = some x ∧ x.killAt = none ∧ (strOf (unitOf s u) exe).loops ≠ []) ∧
    (∃ (s : State) (u : Fin 128) (exe : Bool) (r : Nat) (x : Run) (pc : Nat) (w : Nat), issues s u exe 0x01 r x pc w ∧
      (unitOf s u).run = some r ∧ runOf s r = some x ∧ x.killAt = none ∧ (strOf (unitOf s u) exe).loops = [] ∧ (strOf
      (unitOf s u) (!exe)).bar ≠ none) ∧
    (∃ (s : State) (u : Fin 128) (exe : Bool) (r : Nat) (x : Run) (pc : Nat) (w : Nat), issues s u exe 0x01 r x pc w ∧
      calm s ∧ (unitOf s u).run = some r ∧ runOf s r = some x ∧ x.killAt = none ∧ (strOf (unitOf s u) exe).loops = []
      ∧ (strOf (unitOf s u) (!exe)).bar = none ∧ ((strOf (unitOf s u) (!exe)).done = false ∨ (unitOf s u).late ≠ []))
      ∧
    (∃ (s : State) (u : Fin 128) (exe : Bool) (r : Nat) (x : Run) (pc : Nat) (w : Nat), issues s u exe 0x01 r x pc w ∧
      calm s ∧ (unitOf s u).run = some r ∧ runOf s r = some x ∧ x.killAt = none ∧ (strOf (unitOf s u) exe).loops = []
      ∧ (strOf (unitOf s u) (!exe)).bar = none ∧ ((strOf (unitOf s u) (!exe)).done = false ∨ (unitOf s u).late ≠ []))
      ∧
    (∃ (s : State) (u : Fin 128) (exe : Bool) (r : Nat) (x : Run) (pc : Nat) (w : Nat), issues s u exe 0x01 r x pc w ∧
      (unitOf s u).run = some r ∧ runOf s r = some x ∧ x.killAt = none ∧ (strOf (unitOf s u) exe).loops = [] ∧ (strOf
      (unitOf s u) (!exe)).bar = none ∧ (strOf (unitOf s u) (!exe)).done = true ∧ (unitOf s u).late = []) ∧
    (∃ (s : State) (u : Fin 128) (r : Nat) (x : Run), (unitOf s u).run = some r ∧ runOf s r = some x ∧ x.killAt ≠
      none) :=
  ⟨⟨rexAt (ins 3 [(44, 255)]), 3, false, 0, rexRun, 0, ins 3 [(44, 255)], by unfold issues; decide +kernel,
    by decide +kernel⟩,
    ⟨rexIs { unit0 (ins 3 [(44, 255)]) with late := [(0, [5])], exe := { bar := some 255 } }, 3, false, 0, rexRun, 0,
      ins 3 [(44, 255)], by unfold issues; decide +kernel, by decide +kernel⟩,
    ⟨rexIs { unit0 (ins 3 [(44, 255)]) with acc := { bar := some 255 } }, 3, true, 0, rexRun, 0, ins 3 [(44, 255)],
      by unfold issues; decide +kernel, by decide +kernel⟩,
    ⟨rexIs { unit0 (ins 3 [(44, 255)]) with acc := { bar := some 254 } }, 3, true, 0, rexRun, 0, ins 3 [(44, 255)],
      254, by unfold issues; decide +kernel, by decide +kernel⟩,
    ⟨rexIs { unit0 (ins 1 []) with exe := { loops := [{ lv := 0, first := 0, stop := 3, left := 0 }] } }, 3, true, 0,
      rexRun, 0, ins 1 [], by unfold issues; decide +kernel, by decide +kernel⟩,
    ⟨rexIs { unit0 (ins 1 []) with acc := { bar := some 255 } }, 3, true, 0, rexRun, 0, ins 1 [],
      by unfold issues; decide +kernel, by decide +kernel⟩,
    ⟨rexAt (ins 1 []), 3, true, 0, rexRun, 0, ins 1 [], by unfold issues; decide +kernel,
      by unfold calm; decide +kernel, by decide +kernel⟩,
    ⟨rexIs { unit0 (ins 1 []) with late := [(0, [5])], exe := { done := true } }, 3, false, 0, rexRun, 0, ins 1 [],
      by unfold issues; decide +kernel, by unfold calm; decide +kernel, by decide +kernel⟩,
    ⟨rexIs { unit0 (ins 1 []) with acc := { done := true } }, 3, true, 0, rexRun, 0, ins 1 [],
      by unfold issues; decide +kernel, by decide +kernel⟩,
    ⟨{ rexAt 0 with disp := { runs := [(0, { rexRun with killAt := some 5, killed := some 1 })] } }, 3, 0,
      { rexRun with killAt := some 5, killed := some 1 }, by decide +kernel⟩⟩

theorem test_meets_AccessStream :
    (∃ (c : Instr) (s : State) (v : State) (u : Fin 128) (op : Nat) (r : Nat) (x : Run) (pc : Nat) (w : Nat), issues s
      u false op r x pc w ∧ rexOp c = some (u, false, op) ∧ 8 ≤ op ∧ op ≤ 0x0F ∧ flightFull (unitOf s u) = false ∧
      readsPending (unitOf s u) op w = false ∧ memCheck s u r x op pc w = some v) ∧
    (∃ (c : Instr) (s : State) (u : Fin 128) (op : Nat) (r : Nat) (x : Run) (pc : Nat) (w : Nat), issues s u false op
      r x pc w ∧ rexOp c = some (u, false, op) ∧ 8 ≤ op ∧ op ≤ 0x0F ∧ flightFull (unitOf s u) = true) ∧
    (∃ (c : Instr) (s : State) (u : Fin 128) (op : Nat) (r : Nat) (x : Run) (pc : Nat) (w : Nat), issues s u false op
      r x pc w ∧ rexOp c = some (u, false, op) ∧ 8 ≤ op ∧ op ≤ 0x0F ∧ op ≠ 0x0A ∧ op ≠ 0x0B ∧ readsPending (unitOf s
      u) op w = true) ∧
    (∃ (op : Nat) (w : Nat), mBad op w = true) ∧
    (∃ (s : State) (u : Nat) (x : Run) (op : Nat) (w : Nat), mBad op w = false ∧ effAddr s (unitOf s u) x w % (if op =
      0x0C then 256 else 64) ≠ 0) ∧
    (∃ (s : State) (v : State) (u : Fin 128) (r : Nat) (x : Run) (pc : Nat) (w : Nat) (b : List Byte), memReady s u
      0x08 r x pc w ∧ calm v ∧ cmdRead r 4 s (effAddr s (unitOf s u) x w) (mRows w * rowBytes (mHalf w)) = .ok b v ∧
      (unitOf v u).late ≠ []) ∧
    (∃ (s : State) (v : State) (u : Fin 128) (r : Nat) (x : Run) (pc : Nat) (w : Nat) (b : List Byte), memReady s u
      0x08 r x pc w ∧ calm v ∧ cmdRead r 4 s (effAddr s (unitOf s u) x w) (mRows w * rowBytes (mHalf w)) = .ok b v ∧
      (unitOf v u).late = []) ∧
    (∃ (s : State) (v : State) (u : Fin 128) (r : Nat) (x : Run) (pc : Nat) (w : Nat), memReady s u 0x09 r x pc w ∧
      calm v ∧ cmdWrite s r (effAddr s (unitOf s u) x w) (((List.range (mRows w)).map fun row => wordsRow (mHalf w)
      ((List.range 64).map fun c => tileWord (unitOf s u) (mT w) (64 * row + c))).flatten) = .ok () v) ∧
    (∃ (s : State) (t : State) (r : Nat) (va : Nat) (bs : List Byte), cmdWrite s r va bs = .ok () t) ∧
    (∃ (s : State) (v : State) (u : Fin 128) (r : Nat) (x : Run) (pc : Nat) (w : Nat) (b : List Byte), memReady s u
      0x0A r x pc w ∧ calm v ∧ x.locked = true ∧ (unitOf s u).late = [] ∧ cmdRead r 4 s (effAddr s (unitOf s u) x w)
      (mRows w * rowBytes (mHalf w)) = .ok b v) ∧
    (∃ (s : State) (v : State) (u : Fin 128) (r : Nat) (x : Run) (pc : Nat) (w : Nat) (n : Nat) (b : List Byte),
      memReady s u 0x0A r x pc w ∧ calm v ∧ x.locked = false ∧ (aqOf (unitOf s u) (mT w)).length < 64 ∧ (unitOf s
      u).acc.rows < mRows w ∧ n = min (64 - (aqOf (unitOf s u) (mT w)).length) (mRows w - (unitOf s u).acc.rows) ∧
      cmdRead r 4 s (effAddr s (unitOf s u) x w + (unitOf s u).acc.rows * rowBytes (mHalf w)) (n * rowBytes (mHalf w))
      = .ok b v) ∧
    (∃ (s : State) (u : Fin 128) (r : Nat) (x : Run) (pc : Nat) (w : Nat), memReady s u 0x0A r x pc w ∧ x.locked =
      true ∧ (unitOf s u).late ≠ []) ∧
    (∃ (s : State) (v : State) (u : Fin 128) (r : Nat) (x : Run) (pc : Nat) (w : Nat) (n : Nat) (items : List (List
      Nat)), memReady s u 0x0A r x pc w ∧ x.locked = false ∧ 64 ≤ (aqOf (unitOf s u) (mT w)).length ∧ n = min 1 (mRows
      w - (unitOf s u).acc.rows) ∧ loadRows s r w (effAddr s (unitOf s u) x w) (unitOf s u).acc.rows n = .ok items v)
      ∧
    (∃ (s : State) (u : Fin 128) (r : Nat) (x : Run) (pc : Nat) (w : Nat), memReady s u 0x0B r x pc w ∧ (unitOf s
      u).acc.held.length < mRows w ∧ aqOf (unitOf s u) (mT w) = []) :=
  ⟨⟨.ld 3, rexAt (ins 8 [(46, 3)]), progFault (rexAt (ins 8 [(46, 3)])) 3 0 rexRun 3 0 0, 3, 8, 0, rexRun, 0, ins 8
    [(46, 3)], by unfold issues; decide +kernel, by decide +kernel⟩,
    ⟨.ldq 3, rexIs { unit0 (ins 0x0A []) with behind := List.replicate 7 [] }, 3, 0x0A, 0, rexRun, 0, ins 0x0A [],
      by unfold issues; decide +kernel, by decide +kernel⟩,
    ⟨.st 3, rexIs { unit0 (ins 9 [(48, 15)]) with late := [(0, [5])], behind := [[.tile 15 0 5]] }, 3, 9, 0, rexRun,
      0, ins 9 [(48, 15)], by unfold issues; decide +kernel, by decide +kernel⟩,
    ⟨0x0A, ins 0x0A [(48, 2)], by decide +kernel⟩,
    ⟨rexAt 0, 3, rexRun, 0x0C, ins 0x0C [], by decide +kernel⟩,
    ⟨{ rexIs { unit0 (ins 8 [(48, 15), (32, 1)]) with late := [(0, [5])] } with mem := mwriteBytes [] (300 * 65536 +
                                                                                  128) [1, 2, 3, 4] }, stateOf
      (cmdRead 0 4 { rexIs { unit0 (ins 8 [(48, 15), (32, 1)]) with late := [(0, [5])] } with mem := mwriteBytes []
                                                                                                (300 * 65536 + 128)
                                                                                                [1, 2, 3, 4] } 128
      512), 3, 0, rexRun, 0, ins 8 [(48, 15), (32, 1)], [1, 2, 3, 4] ++ List.replicate 508 0,
      ⟨by unfold issues; decide +kernel, by decide +kernel⟩, by unfold calm; decide +kernel, by decide +kernel⟩,
    ⟨{ rexAt (ins 8 [(48, 15), (32, 1)]) with mem := mwriteBytes [] (300 * 65536 + 128) [1, 2, 3, 4] }, stateOf
      (cmdRead 0 4 { rexAt (ins 8 [(48, 15), (32, 1)]) with mem := mwriteBytes [] (300 * 65536 + 128) [1, 2, 3, 4] }
      128 512), 3, 0, rexRun, 0, ins 8 [(48, 15), (32, 1)], [1, 2, 3, 4] ++ List.replicate 508 0,
      ⟨by unfold issues; decide +kernel, by decide +kernel⟩, by unfold calm; decide +kernel, by decide +kernel⟩,
    ⟨rexIs { unit0 (ins 9 [(48, 15)]) with tiles := [(15 * 4096 + 1, 77)] }, stateOf (cmdWrite (rexIs
      { unit0 (ins 9 [(48, 15)]) with tiles := [(15 * 4096 + 1, 77)] }) 0 128 (leBytes 4 0 ++ leBytes 4 77 ++
      List.replicate 248 0)), 3, 0, rexRun, 0, ins 9 [(48, 15)],
      ⟨by unfold issues; decide +kernel, by decide +kernel⟩, by unfold calm; decide +kernel, by decide +kernel⟩,
    ⟨rexAt 0, stateOf (cmdWrite (rexAt 0) 0 128 [1, 2, 3]), 0, 128, [1, 2, 3], by decide +kernel⟩,
    ⟨rexIs { unit0 (ins 0x0A [(48, 1), (32, 1)]) with aq := [(1, List.replicate 62 [])] }, stateOf (cmdRead 0 4 (rexIs
      { unit0 (ins 0x0A [(48, 1), (32, 1)]) with aq := [(1, List.replicate 62 [])] }) 128 512), 3, 0, rexRun, 0, ins
      0x0A [(48, 1), (32, 1)], List.replicate 512 0, ⟨by unfold issues; decide +kernel, by decide +kernel⟩,
      by unfold calm; decide +kernel, by decide +kernel⟩,
    ⟨{ rexIs { unit0 (ins 0x0A [(48, 1), (32, 1)]) with aq := [(1, List.replicate 63 [])] } with disp := {
                                                                                                           runs := [(0,
                                                                                                           { rexRun
                                                                                                               with
                                                                                                                    locked := false
                                                                                                                      })]
                                                                                                             } },
      stateOf (cmdRead 0 4 { rexIs { unit0 (ins 0x0A [(48, 1), (32, 1)]) with aq := [(1, List.replicate 63 [])] } with
                                                                                                                       disp := {
                                                                                                                                 runs := [(0,
                                                                                                                                 {
                                                                                                                                   rexRun
                                                                                                                                     with
                                                                                                                                          locked := false
                                                                                                                                            })]
                                                                                                                                   }
                                                                                                                         }
      128 256), 3, 0, { rexRun with locked := false }, 0, ins 0x0A [(48, 1), (32, 1)], 1, List.replicate 256 0,
      ⟨by unfold issues; decide +kernel, by decide +kernel⟩, by unfold calm; decide +kernel, by decide +kernel⟩,
    ⟨rexIs { unit0 (ins 0x0A [(48, 1), (32, 1)]) with late := [(1, [5])] }, 3, 0, rexRun, 0, ins 0x0A [(48, 1), (32,
      1)], ⟨by unfold issues; decide +kernel, by decide +kernel⟩, by decide +kernel⟩,
    ⟨{ rexIs { unit0 (ins 0x0A [(48, 1)]) with aq := [(1, List.replicate 64 [])] } with disp := { runs := [(0, {
                                                                                                                 rexRun
                                                                                                                   with
                                                                                                                        locked := false
                                                                                                                          })]
                                                                                                    } }, stateOf
      (loadRows { rexIs { unit0 (ins 0x0A [(48, 1)]) with aq := [(1, List.replicate 64 [])] } with disp := {
                                                                                                             runs := [(0,
                                                                                                             { rexRun
                                                                                                                 with
                                                                                                                      locked := false
                                                                                                                        })]
                                                                                                               } } 0
      (ins 0x0A [(48, 1)]) 128 0 1), 3, 0, { rexRun with locked := false }, 0, ins 0x0A [(48, 1)], 1, [List.replicate
      64 0], ⟨by unfold issues; decide +kernel, by decide +kernel⟩, by decide +kernel⟩,
    ⟨rexAt (ins 0x0B [(48, 3)]), 3, 0, rexRun, 0, ins 0x0B [(48, 3)],
      ⟨by unfold issues; decide +kernel, by decide +kernel⟩, by decide +kernel⟩⟩

theorem test_meets_AccessStream_more :
    (∃ (s : State) (u : Fin 128) (r : Nat) (x : Run) (pc : Nat) (w : Nat), memReady s u 0x0B r x pc w ∧ (unitOf s
      u).acc.held.length < mRows w ∧ aqOf (unitOf s u) (mT w) = []) ∧
    (∃ (s : State) (u : Fin 128) (r : Nat) (x : Run) (pc : Nat) (w : Nat) (l : List (List Nat)) (v : State), memReady
      s u 0x0B r x pc w ∧ calm (stateOf (cmdWrite v r 128 (wordsRow 0 [5]))) ∧ (unitOf s u).arriving.contains (mT w) =
      false ∧ l = (aqOf (unitOf s u) (mT w)).take (mRows w - (unitOf s u).acc.held.length) ∧ l ≠ [] ∧ v = stqTaken s u
      (mT w) l ∧ (unitOf s u).acc.held.length + l.length = mRows w ∧ (unitOf (stateOf (cmdWrite v r 128 (wordsRow 0
      [5]))) u).late = []) ∧
    (∃ (s : State) (u : Fin 128) (r : Nat) (x : Run) (pc : Nat) (w : Nat) (l : List (List Nat)) (v : State), memReady
      s u 0x0B r x pc w ∧ (unitOf s u).arriving.contains (mT w) = false ∧ l = (aqOf (unitOf s u) (mT w)).take (mRows w
      - (unitOf s u).acc.held.length) ∧ l ≠ [] ∧ v = stqTaken s u (mT w) l ∧ (unitOf s u).acc.held.length + l.length <
      mRows w ∧ (unitOf s u).acc.held.length + l.length < mRows w) ∧
    (∃ (s : State) (u : Fin 128) (r : Nat) (x : Run) (pc : Nat) (w : Nat), memReady s u 0x0C r x pc w ∧ calm s ∧
      digArea s x.ctx = 0 ∧ (unitOf s u).late = []) ∧
    (∃ (s : State) (v : State) (u : Fin 128) (r : Nat) (x : Run) (y : Run) (pc : Nat) (w : Nat) (b : List Byte),
      memReady s u 0x0C r x pc w ∧ calm v ∧ digArea s x.ctx ≠ 0 ∧ cmdRead r 4 s (effAddr s (unitOf s u) x w) (mRows w
      * 256) = .ok b v ∧ runOf v r = some y ∧ digArea v x.ctx ≠ 0 ∧ effAddr s (unitOf s u) x w % 256 = 0 ∧ b.length =
      mRows w * 256) ∧
    (∃ (s : State) (v : State) (u : Fin 128) (r : Nat) (x : Run) (pc : Nat) (w : Nat) (b : List Byte), memReady s u
      0x0D r x pc w ∧ calm v ∧ cmdRead r 4 s (effAddr s (unitOf s u) x w) (mRows w * 8) = .ok b v ∧ (unitOf v u).late
      = []) ∧
    (∃ (s : State) (v : State) (u : Fin 128) (r : Nat) (x : Run) (pc : Nat) (w : Nat), memReady s u 0x0E r x pc w ∧
      calm v ∧ cmdWrite s r (effAddr s (unitOf s u) x w) (((List.range (mRows w)).map fun k => accOf (unitOf s u)
      (mAcci w + k)).map fun v => leBytes 8 v).flatten = .ok () v) ∧
    (∃ (s : State) (v : State) (u : Fin 128) (r : Nat) (x : Run) (pc : Nat) (w : Nat) (b : List Byte), memReady s u
      0x0F r x pc w ∧ calm v ∧ cmdRead r 4 s (effAddr s (unitOf s u) x w) (mRows w * 8) = .ok b v ∧ (unitOf v u).late
      = []) ∧
    (∃ (s : State) (u : Fin 128) (r : Nat) (x : Run) (pc : Nat) (w : Nat) (va : Nat), issues s u false 0x10 r x pc w ∧
      flightFull (unitOf s u) = false ∧ fld w 51 50 ≠ 3 ∧ va = (argOf s x (fld w 51 50) + 64 * (fld w 33 20 + 1) *
      tget 0 (unitOf s u).acc.idx (fld w 49 48)) % 2 ^ 64 ∧ va % 64 = 0) ∧
    (∃ (s : State) (u : Fin 128) (r : Nat) (x : Run) (pc : Nat) (w : Nat) (va : Nat), issues s u false 0x11 r x pc w ∧
      flightFull (unitOf s u) = false ∧ fld w 51 50 ≠ 3 ∧ va = (argOf s x (fld w 51 50) + 64 * fld w 19 0) % 2 ^ 64 ∧
      va % 64 = 0) ∧
    (∃ (s : State) (u : Fin 128) (r : Nat) (x : Run) (pc : Nat) (w : Nat), issues s u false 0x12 r x pc w ∧ flightFull
      (unitOf s u) = false ∧ (fld w 51 48 = 1 ∨ fld w 51 48 = 2 ∨ fld w 51 48 = 3)) ∧
    (∃ (s : State) (u : Fin 128) (r : Nat) (x : Run) (pc : Nat) (w : Nat), issues s u false 0x12 r x pc w ∧ flightFull
      (unitOf s u) = false ∧ (fld w 51 48 = 1 ∨ fld w 51 48 = 2 ∨ fld w 51 48 = 3)) ∧
    (∃ (s : State) (u : Fin 128) (r : Nat) (x : Run) (pc : Nat) (w : Nat), issues s u false 0x12 r x pc w ∧ flightFull
      (unitOf s u) = false ∧ fld w 51 48 = 5 ∧ fld w 15 1 = 0) ∧
    (∃ (s : State) (r : Nat) (x : Run) (data : Nat), runOf s r = some x ∧ x.reqs + 1 < 65536 ∧ fld data 127 124 ≠ 0 ∧
      fld data 127 124 < 6 ∧ x.field < 8) :=
  ⟨⟨{ rexAt (ins 0x0B [(48, 3)]) with disp := { runs := [(0, { rexRun with locked := false })] } }, 3, 0,
    { rexRun with locked := false }, 0, ins 0x0B [(48, 3)], ⟨by unfold issues; decide +kernel, by decide +kernel⟩,
    by decide +kernel⟩,
    ⟨rexIs { unit0 (ins 0x0B [(48, 3)]) with aq := [(3, [[5], [6]])] }, 3, 0, rexRun, 0, ins 0x0B [(48, 3)], [[5]],
      stqTaken (rexIs { unit0 (ins 0x0B [(48, 3)]) with aq := [(3, [[5], [6]])] } : State) (3) (mT (ins 0x0B [(48,
      3)])) ([[5]]), ⟨by unfold issues; decide +kernel, by decide +kernel⟩, by unfold calm; decide +kernel,
      by decide +kernel⟩,
    ⟨rexIs { unit0 (ins 0x0B [(48, 3), (32, 1)]) with aq := [(3, [[5]])] }, 3, 0, rexRun, 0, ins 0x0B [(48, 3), (32,
      1)], [[5]], stqTaken (rexIs { unit0 (ins 0x0B [(48, 3), (32, 1)]) with aq := [(3, [[5]])] } : State) (3) (mT
      (ins 0x0B [(48, 3), (32, 1)])) ([[5]]), ⟨by unfold issues; decide +kernel, by decide +kernel⟩,
      by decide +kernel⟩,
    ⟨rexAt (ins 0x0C [(12, 2)]), 3, 0, rexRun, 0, ins 0x0C [(12, 2)],
      ⟨by unfold issues; decide +kernel, by decide +kernel⟩, by unfold calm; decide +kernel, by decide +kernel⟩,
    ⟨{ setReg (rexAt (ins 0x0C [(12, 2)])) 0x6C0008 4096 with mem := mwriteBytes [] (300 * 65536 + 256) [1, 2, 3, 4]
                                                                }, stateOf (cmdRead 0 4
      { setReg (rexAt (ins 0x0C [(12, 2)])) 0x6C0008 4096 with mem := mwriteBytes [] (300 * 65536 + 256) [1, 2, 3, 4]
                                                                 } 256 256), 3, 0, rexRun, rexRun, 0, ins 0x0C [(12,
      2)], [1, 2, 3, 4] ++ List.replicate 252 0, ⟨by unfold issues; decide +kernel, by decide +kernel⟩,
      by unfold calm; decide +kernel, by decide +kernel⟩,
    ⟨{ rexAt (ins 0x0D [(48, 15), (42, 3)]) with mem := mwriteBytes [] (300 * 65536 + 128) [1, 2, 3, 4] }, stateOf
      (cmdRead 0 4 { rexAt (ins 0x0D [(48, 15), (42, 3)]) with mem := mwriteBytes [] (300 * 65536 + 128) [1, 2, 3, 4]
                                                                 } 128 8), 3, 0, rexRun, 0, ins 0x0D [(48, 15), (42,
      3)], [1, 2, 3, 4, 0, 0, 0, 0], ⟨by unfold issues; decide +kernel, by decide +kernel⟩,
      by unfold calm; decide +kernel, by decide +kernel⟩,
    ⟨rexIs { unit0 (ins 0x0E [(48, 15), (42, 3)]) with accf := [(63, 9)] }, stateOf (cmdWrite (rexIs
      { unit0 (ins 0x0E [(48, 15), (42, 3)]) with accf := [(63, 9)] }) 0 128 (leBytes 8 9)), 3, 0, rexRun, 0, ins 0x0E
      [(48, 15), (42, 3)], ⟨by unfold issues; decide +kernel, by decide +kernel⟩, by unfold calm; decide +kernel,
      by decide +kernel⟩,
    ⟨{ rexIs { unit0 (ins 0x0F [(38, 3)]) with accf := [(0, 0x7FFFFFFFFFFFFFFF)] } with mem := mwriteBytes [] (300 *
                                                                                          65536 + 128) [1] }, stateOf
      (cmdRead 0 4 { rexIs { unit0 (ins 0x0F [(38, 3)]) with accf := [(0, 0x7FFFFFFFFFFFFFFF)] } with
                                                                                                      mem := mwriteBytes
                                                                                                        [] (300 *
                                                                                                        65536 + 128)
                                                                                                        [1] } 128 8),
      3, 0, rexRun, 0, ins 0x0F [(38, 3)], [1, 0, 0, 0, 0, 0, 0, 0],
      ⟨by unfold issues; decide +kernel, by decide +kernel⟩, by unfold calm; decide +kernel, by decide +kernel⟩,
    ⟨rexAt (ins 0x10 [(34, 16383)]), 3, 0, rexRun, 0, ins 0x10 [(34, 16383)], 128, by unfold issues; decide +kernel,
      by decide +kernel⟩,
    ⟨rexAt (ins 0x11 [(0, 1)]), 3, 0, rexRun, 0, ins 0x11 [(0, 1)], 192, by unfold issues; decide +kernel,
      by decide +kernel⟩,
    ⟨rexAt (ins 0x12 [(48, 1), (32, 5), (0, 1)]), 3, 0, rexRun, 0, ins 0x12 [(48, 1), (32, 5), (0, 1)],
      by unfold issues; decide +kernel, by decide +kernel⟩,
    ⟨rexAt (ins 0x12 [(48, 3)]), 3, 0, rexRun, 0, ins 0x12 [(48, 3)], by unfold issues; decide +kernel,
      by decide +kernel⟩,
    ⟨rexAt (ins 0x12 [(48, 5), (0, 1)]), 3, 0, rexRun, 0, ins 0x12 [(48, 5), (0, 1)],
      by unfold issues; decide +kernel, by decide +kernel⟩,
    ⟨{ disp := { runs := [(0, { rexRun with reqs := 65534, field := 7 })] } }, 0,
      { rexRun with reqs := 65534, field := 7 }, 5 * 2 ^ 124 + 1, by decide +kernel⟩⟩

theorem test_meets_ElementWise :
    (∃ (c : Instr) (s : State) (u : Fin 128) (op : Nat) (k : Uses) (ints : Bool) (rounds : Bool) (f : FV → FV → FV →
      FV) (r : Nat) (x : Run) (pc : Nat) (w : Nat), elemOp c = some (u, op, k, ints, rounds, f) ∧ exeReady s u op k r
      x pc w ∧ xFmt w ≤ 3 ∧ (xFmt w = 3 → ints = true ∧ xRnd w = false) ∧ (xRnd w = true → rounds = true)) ∧
    (∃ (c : Instr) (s : State) (u : Fin 128) (op : Nat) (k : Uses) (ints : Bool) (rounds : Bool) (f : FV → FV → FV →
      FV) (r : Nat) (x : Run) (pc : Nat) (w : Nat), elemOp c = some (u, op, k, ints, rounds, f) ∧ exeReady s u op k r
      x pc w ∧ xFmt w ≤ 3 ∧ (xFmt w = 3 → ints = true ∧ xRnd w = false) ∧ (xRnd w = true → rounds = true)) ∧
    (∃ (c : Instr) (s : State) (u : Fin 128) (op : Nat) (k : Uses) (ints : Bool) (rounds : Bool) (f : FV → FV → FV →
      FV) (r : Nat) (x : Run) (pc : Nat) (w : Nat), elemOp c = some (u, op, k, ints, rounds, f) ∧ issues s u true op r
      x pc w ∧ (codesBad k w = true ∨ 3 < xFmt w)) ∧
    (∃ (c : Instr) (s : State) (u : Fin 128) (op : Nat) (k : Uses) (ints : Bool) (rounds : Bool) (f : FV → FV → FV →
      FV) (r : Nat) (x : Run) (pc : Nat) (w : Nat), elemOp c = some (u, op, k, ints, rounds, f) ∧ issues s u true op r
      x pc w ∧ codesBad k w = false ∧ xFmt w < 3 ∧ xRnd w = false ∧ lacking (unitOf s u) (usedCodes k w) (unitOf s
      u).exe.rows = some 0) ∧
    (∃ (c : Instr) (s : State) (u : Fin 128) (op : Nat) (k : Uses) (ints : Bool) (rounds : Bool) (f : FV → FV → FV →
      FV) (r : Nat) (x : Run) (pc : Nat) (w : Nat), elemOp c = some (u, op, k, ints, rounds, f) ∧ issues s u true op r
      x pc w ∧ codesBad k w = false ∧ xFmt w < 3 ∧ xRnd w = false ∧ lacking (unitOf s u) (usedCodes k w) (unitOf s
      u).exe.rows = none ∧ (unitOf s u).arriving = [] ∧ (∀ q ∈ dstQueues (xD w), (aqOf (unitOf s u) q).length < 64))
      :=
  ⟨⟨.fma 3, rexIs { unit0 (ins 0x23 [(47, 15), (42, 1), (37, 2), (32, 1), (15, 63)]) with tiles := [(4096,
                                                                                          0x3FC00000), (4097,
                                                                                          0x7F800001), (8192,
                                                                                          0x40000000), (8193, 1)] },
    3, 0x23, { a := true, b := true, c := true }, true, true, fun p q z => (p.mul q).add z, 0, rexRun, 0, ins 0x23
    [(47, 15), (42, 1), (37, 2), (32, 1), (15, 63)], rfl,
    exeReady_of (by unfold issues; decide +kernel) (by decide +kernel), by decide +kernel⟩,
    ⟨.neg 3, rexIs { unit0 (ins 0x27 [(47, 22), (42, 17), (28, 2)]) with aq := [(1, [[0x3C003C00, 5]])] }, 3, 0x27,
      { a := true }, true, false, fun p _ _ => p.neg, 0, rexRun, 0, ins 0x27 [(47, 22), (42, 17), (28, 2)], rfl,
      exeReady_of (by unfold issues; decide +kernel) (by decide +kernel), by decide +kernel⟩,
    ⟨.sqrt 3, rexAt (ins 0x2A [(28, 4)]), 3, 0x2A, { a := true }, false, true, fun p _ _ => p.sqrt, 0, rexRun, 0, ins
      0x2A [(28, 4)], rfl, by unfold issues; decide +kernel, by decide +kernel⟩,
    ⟨.add 3, rexAt (ins 0x20 [(37, 0x10)]), 3, 0x20, { a := true, b := true }, true, true, fun p q _ => p.add q, 0,
      rexRun, 0, ins 0x20 [(37, 0x10)], rfl, by unfold issues; decide +kernel, by decide +kernel⟩,
    ⟨.neg 3, rexIs { unit0 (ins 0x27 [(47, 22), (42, 17), (15, 63)]) with aq := [(1, [[0x3C003C00, 5], [6]])] }, 3,
      0x27, { a := true }, true, false, fun p _ _ => p.neg, 0, rexRun, 0, ins 0x27 [(47, 22), (42, 17), (15, 63)],
      rfl, by unfold issues; decide +kernel, by decide +kernel⟩⟩

theorem test_meets_MovesAndReductions :
    (∃ (s : State) (u : Fin 128) (r : Nat) (x : Run) (pc : Nat) (w : Nat), exeReady s u 0x2B { a := true } r x pc w ∧
      xFmt w ≤ 6 ∧ xRnd w = false ∧ xD w < 16) ∧
    (∃ (s : State) (u : Fin 128) (r : Nat) (x : Run) (pc : Nat) (w : Nat), exeReady s u 0x2B { a := true } r x pc w ∧
      xFmt w ≤ 6 ∧ xRnd w = false ∧ 16 ≤ xD w) ∧
    (∃ (s : State) (u : Fin 128) (r : Nat) (x : Run) (pc : Nat) (w : Nat), exeReady s u 0x2C { a := true } r x pc w ∧
      cvtBad w = false ∧ xRnd w = false ∧ xD w < 16 ∧ xPack w ≠ 4) ∧
    (∃ (s : State) (u : Fin 128) (r : Nat) (x : Run) (pc : Nat) (w : Nat), exeReady s u 0x2C { a := true } r x pc w ∧
      cvtBad w = false ∧ xRnd w = false ∧ xD w < 16 ∧ xPack w ≠ 4) ∧
    (∃ (s : State) (u : Fin 128) (r : Nat) (x : Run) (pc : Nat) (w : Nat), exeReady s u 0x2D
      { a := true, b := true, c := true, accB := false } r x pc w ∧ xFmt w = 0 ∧ xRnd w = false ∧ xD w < 16) ∧
    (∃ (s : State) (u : Fin 128) (r : Nat) (x : Run) (pc : Nat) (w : Nat), exeReady s u 0x30 { a := true, d := false }
      r x pc w ∧ xFmt w ≤ 6 ∧ xRnd w = false ∧ xSpec14 w = false ∧ (bitAt w 11 = true → xAcci w < xRows w)) ∧
    (∃ (s : State) (u : Fin 128) (r : Nat) (x : Run) (pc : Nat) (w : Nat), exeReady s u 0x30 { a := true, d := false }
      r x pc w ∧ xFmt w ≤ 6 ∧ xRnd w = false ∧ xSpec14 w = true) ∧
    (∃ (s : State) (u : Fin 128) (r : Nat) (x : Run) (pc : Nat) (w : Nat), exeReady s u 0x31 { a := true } r x pc w ∧
      xFmt w ≤ 6) ∧
    (∃ (s : State) (u : Fin 128) (r : Nat) (x : Run) (pc : Nat) (w : Nat), exeReady s u 0x32 { a := true, c := true }
      r x pc w ∧ xFmt w ≤ 6) ∧
    (∃ (w : Nat), xSpec14 w = false) ∧
    (∃ (s : State) (u : Fin 128) (r : Nat) (x : Run) (pc : Nat) (w : Nat), exeReady s u 0x33 {} r x pc w ∧ xFmt w ≤ 6
      ∧ xRnd w = false ∧ xSpec14 w = false ∧ xD w < 16) ∧
    (∃ (s : State) (u : Fin 128) (r : Nat) (x : Run) (pc : Nat) (w : Nat), exeReady s u 0x34 { d := false } r x pc w ∧
      xRnd w = false) ∧
    (∃ (s : State) (u : Fin 128) (r : Nat) (x : Run) (pc : Nat) (w : Nat), exeReady s u 0x35 { d := false } r x pc w ∧
      xFmt w ≤ 6 ∧ xRnd w = false) :=
  ⟨⟨rexIs { unit0 (ins 0x2B [(47, 15), (42, 1), (15, 63), (28, 6)]) with tiles := [(4096, 0x3FC00000), (4097,
                                                                         0x7F800001)] }, 3, 0, rexRun, 0, ins 0x2B
    [(47, 15), (42, 1), (15, 63), (28, 6)], exeReady_of (by unfold issues; decide +kernel) (by decide +kernel),
    by decide +kernel⟩,
    ⟨rexIs { unit0 (ins 0x2B [(47, 22), (42, 1)]) with tiles := [(4096, 0x3FC00000), (4097, 0x7F800001)] }, 3, 0,
      rexRun, 0, ins 0x2B [(47, 22), (42, 1)], exeReady_of (by unfold issues; decide +kernel) (by decide +kernel),
      by decide +kernel⟩,
    ⟨rexIs { unit0 (ins 0x2C [(47, 15), (42, 1), (15, 63), (28, 0), (11, 1), (8, 1)]) with tiles := [(4096,
                                                                                           0x3FC00000), (4097,
                                                                                           0x7F800001)] }, 3, 0,
      rexRun, 0, ins 0x2C [(47, 15), (42, 1), (15, 63), (28, 0), (11, 1), (8, 1)],
      exeReady_of (by unfold issues; decide +kernel) (by decide +kernel), by decide +kernel⟩,
    ⟨rexIs { unit0 (ins 0x2C [(47, 15), (42, 1), (15, 63), (28, 4), (11, 0), (8, 3)]) with tiles := [(4096,
                                                                                           0x3FC00000), (7169,
                                                                                           0x7F800001)] }, 3, 0,
      rexRun, 0, ins 0x2C [(47, 15), (42, 1), (15, 63), (28, 4), (11, 0), (8, 3)],
      exeReady_of (by unfold issues; decide +kernel) (by decide +kernel), by decide +kernel⟩,
    ⟨rexIs { unit0 (ins 0x2D [(47, 15), (42, 1), (37, 2), (32, 3)]) with tiles := [(4096, 0x3FC00000), (8192,
                                                                         0x3F800000), (12288, 0x8000)], accf := [(0,
                                                                         0x3FF0000000000000)] }, 3, 0, rexRun, 0, ins
      0x2D [(47, 15), (42, 1), (37, 2), (32, 3)], exeReady_of (by unfold issues; decide +kernel) (by decide +kernel),
      by decide +kernel⟩,
    ⟨rexIs { unit0 (ins 0x30 [(42, 1), (15, 1), (11, 1), (12, 1)]) with tiles := [(4096, 0x3FC00000), (4160,
                                                                        0x3FC00000)], accf := [(0,
                                                                        0x3FF0000000000000)] }, 3, 0, rexRun, 0, ins
      0x30 [(42, 1), (15, 1), (11, 1), (12, 1)], exeReady_of (by unfold issues; decide +kernel) (by decide +kernel),
      by decide +kernel⟩,
    ⟨rexIs { unit0 (ins 0x30 [(42, 1), (15, 1), (14, 1), (28, 3)]) with tiles := [(4096, 0x3FC00000), (4160,
                                                                        0x3FC00000)], accf := [(0,
                                                                        0x3FF0000000000000)] }, 3, 0, rexRun, 0, ins
      0x30 [(42, 1), (15, 1), (14, 1), (28, 3)], exeReady_of (by unfold issues; decide +kernel) (by decide +kernel),
      by decide +kernel⟩,
    ⟨rexAt (ins 0x31 [(28, 6)]), 3, 0, rexRun, 0, ins 0x31 [(28, 6)],
      exeReady_of (by unfold issues; decide +kernel) (by decide +kernel), by decide +kernel⟩,
    ⟨rexAt (ins 0x32 []), 3, 0, rexRun, 0, ins 0x32 [],
      exeReady_of (by unfold issues; decide +kernel) (by decide +kernel), by decide +kernel⟩,
    ⟨0, by decide +kernel⟩,
    ⟨rexIs { unit0 (ins 0x33 [(47, 15), (15, 1), (28, 1)]) with accf := [(1, 0x3FF0000000000000)] }, 3, 0, rexRun, 0,
      ins 0x33 [(47, 15), (15, 1), (28, 1)], exeReady_of (by unfold issues; decide +kernel) (by decide +kernel),
      by decide +kernel⟩,
    ⟨rexIs { unit0 (ins 0x34 [(21, 63), (15, 0)]) with accf := [(1, 5), (63, 9)] }, 3, 0, rexRun, 0, ins 0x34 [(21,
      63), (15, 0)], exeReady_of (by unfold issues; decide +kernel) (by decide +kernel), by decide +kernel⟩,
    ⟨rexIs { unit0 (ins 0x35 [(21, 63), (15, 2)]) with accf := [(0, 0x3FF0000000000000), (2, 0x4000000000000000)] },
      3, 0, rexRun, 0, ins 0x35 [(21, 63), (15, 2)],
      exeReady_of (by unfold issues; decide +kernel) (by decide +kernel), by decide +kernel⟩⟩

theorem test_meets_TraceAndCounters :
    (∃ (s : State) (m : Cmd) (rest : List Cmd) (d : Nat), isNext s m rest 0x0800 ∧ traceCheck s m = some d ∧
      s.saf.safe = false ∧ tcAction m = 0) ∧
    (∃ (s : State) (m : Cmd) (rest : List Cmd) (d : Nat), isNext s m rest 0x0800 ∧ traceCheck s m = some d ∧
      s.saf.safe = false ∧ tcAction m = 0) ∧
    (∃ (s : State) (m : Cmd) (rest : List Cmd) (d : Nat), isNext s m rest 0x0800 ∧ traceCheck s m = some d ∧
      s.saf.safe = false ∧ tcAction m = 1) ∧
    (∃ (s : State) (m : Cmd) (rest : List Cmd) (d : Nat), isNext s m rest 0x0800 ∧ traceCheck s m = some d ∧
      s.saf.safe = false ∧ tcAction m = 2) ∧
    (∃ (s : State) (m : Cmd) (rest : List Cmd) (d : Nat), isNext s m rest 0x0800 ∧ traceCheck s m = some d ∧
      s.saf.safe = false ∧ tcAction m = 3) ∧
    (∃ (s : State) (m : Cmd) (rest : List Cmd), isNext s m rest 0x0800 ∧ tcAction m = 1 ∧ traceCheck s m = none ∧
      s.saf.safe = false ∧ bitAt m.flags 1 = false) ∧
    (∃ (s : State) (m : Cmd) (rest : List Cmd), isNext s m rest 0x0800 ∧ tcAction m = 0 ∧ traceCheck s m = none ∧
      trcRuns s = false) ∧
    (∃ (s : State) (m : Cmd) (rest : List Cmd), isNext s m rest 0x0800 ∧ traceCheck s m = none ∧ trcRuns s = false ∧
      s.saf.safe = false ∧ bitAt m.flags 1 = false ∧ tcAction m = 2) ∧
    (∃ (s : State) (m : Cmd) (rest : List Cmd), isNext s m rest 0x0800 ∧ traceCheck s m = none ∧ trcRuns s = false ∧
      s.saf.safe = false ∧ bitAt m.flags 1 = false ∧ tcAction m = 3) ∧
    (∃ (s : State) (m : Cmd) (rest : List Cmd), isNext s m rest 0x0800 ∧ traceCheck s m = none ∧ trcRuns s = true ∧
      s.trc.flushes = [] ∧ s.trc.sched = [] ∧ queueCounts s ≠ [] ∧ tcAction m = 2) ∧
    (∃ (s : State) (m : Cmd) (rest : List Cmd), isNext s m rest 0x0800 ∧ traceCheck s m = none ∧ trcRuns s = true ∧
      s.trc.flushes = [] ∧ s.trc.sched = [] ∧ queueCounts s ≠ [] ∧ tcAction m = 3) ∧
    (∃ (s : State) (m : Cmd) (rest : List Cmd), isNext s m rest 0x0800 ∧ traceCheck s m = none ∧ trcRuns s = true ∧
      s.trc.flushes = [] ∧ s.trc.sched = [] ∧ queueCounts s ≠ [] ∧ tcAction m = 0) :=
  ⟨⟨nextIs {} (cmdOf 0x800 [(4, 1, 4)]), cmdOf 0x800 [(4, 1, 4)], [], 4, ⟨rfl, rfl⟩, by decide +kernel⟩,
    ⟨nextIs {} (cmdOf 0x800 [(16, 4, 9)]), cmdOf 0x800 [(16, 4, 9)], [], 8, ⟨rfl, rfl⟩, by decide +kernel⟩,
    ⟨nextIs {} (cmdOf 0x800 [(4, 1, 1), (16, 1, 16)]), cmdOf 0x800 [(4, 1, 1), (16, 1, 16)], [], 16, ⟨rfl, rfl⟩,
      by decide +kernel⟩,
    ⟨nextIs {} (cmdOf 0x800 [(4, 1, 2), (5, 1, 1)]), cmdOf 0x800 [(4, 1, 2), (5, 1, 1)], [], 5, ⟨rfl, rfl⟩,
      by decide +kernel⟩,
    ⟨nextIs {} (cmdOf 0x800 [(4, 1, 3), (47, 1, 1)]), cmdOf 0x800 [(4, 1, 3), (47, 1, 1)], [], 47, ⟨rfl, rfl⟩,
      by decide +kernel⟩,
    ⟨nextIs {} (cmdOf 0x800 [(4, 1, 1), (8, 4, 0x1FF), (12, 4, 3), (16, 1, 2)]), cmdOf 0x800 [(4, 1, 1), (8, 4,
      0x1FF), (12, 4, 3), (16, 1, 2)], [], ⟨rfl, rfl⟩, by decide +kernel⟩,
    ⟨nextIs traceBack (cmdOf 0x800 [(16, 4, 9)]), cmdOf 0x800 [(16, 4, 9)], [], ⟨rfl, rfl⟩, by decide +kernel⟩,
    ⟨nextIs {} (cmdOf 0x800 [(4, 1, 2)]), cmdOf 0x800 [(4, 1, 2)], [], ⟨rfl, rfl⟩, by decide +kernel⟩,
    ⟨nextIs {} (cmdOf 0x800 [(4, 1, 3)]), cmdOf 0x800 [(4, 1, 3)], [], ⟨rfl, rfl⟩, by decide +kernel⟩,
    ⟨nextIs { regsOf [(0xA80000, 0x80000000)] with trc := { celQ := [5] } } (cmdOf 0x800 [(4, 1, 2)]), cmdOf 0x800
      [(4, 1, 2)], [], ⟨rfl, rfl⟩, by decide +kernel⟩,
    ⟨nextIs { regsOf [(0xA80000, 0x80000000)] with trc := { celQ := [5] } } (cmdOf 0x800 [(4, 1, 3)]), cmdOf 0x800
      [(4, 1, 3)], [], ⟨rfl, rfl⟩, by decide +kernel⟩,
    ⟨nextIs { traceBack with trc := { celQ := [5] } } (cmdOf 0x800 [(16, 4, 9)]) |> fun s => setReg s 0xA80000
      0x80000000, cmdOf 0x800 [(16, 4, 9)], [], ⟨rfl, rfl⟩, by decide +kernel⟩⟩

theorem test_meets_TraceAndCounters_more :
    (∃ (s : State), trcRuns s = false) ∧
    (∃ (s : State), s.trc.on = false) ∧
    (∃ (s : State) (m : Fin 9), s.trc.on = true ∧ (streamOf s m).wptr % 65536 = 0) ∧
    (∃ (s : State) (m : Fin 9), s.trc.on = true ∧ (streamOf s m).wptr % 65536 ≠ 0) ∧
    (∃ (s : State) (r : Nat) (rest : List Nat) (v : State), trcRuns s = true ∧ s.trc.sched = [] ∧ s.trc.flushes = [] ∧
      (dueCel s).trc.celQ = r :: rest ∧ v = streamWrote 8 (putRecord (dueCel
      { dueCel s with trc := { (dueCel s).trc with celQ := rest } }) 8 r)) ∧
    (∃ (s : State) (m : Nat), streamFull s m = true) ∧
    (∃ (s : State) (src : Fin 4224), 4096 ≤ src.val ∧ regBit s 0xA80020 30 = false) ∧
    (∃ (s : State) (src : Fin 4224) (e : Fin 8), (4096 ≤ src.val ∨ engineKind s e ≠ none)) ∧
    (∃ (s : State), regBit s 0xA80020 30 = true) ∧
    (∃ (s : State) (src : Fin 4224) (e : Fin 8), src.val < 4096 ∧ engineKind s e ≠ none ∧ regBit s 0xA80020 30 =
      false) ∧
    (∃ (k : Nat), k < 10) :=
  ⟨⟨{ trc := { celQ := [5] } }, by decide +kernel⟩,
    ⟨{ trc := { celQ := [5] } }, by decide +kernel⟩,
    ⟨{ trc := { on := true, segMiB := 1, streams := [(8, { wptr := 65536 })] } }, 8, by decide +kernel⟩,
    ⟨{ trc := { on := true, segMiB := 1, streams := [(8, { wptr := 65520 })] } }, 8, by decide +kernel⟩,
    ⟨{ regsOf [(0xA80000, 0x80000000)] with trc := { celQ := [5, 6] } }, 5, [6], streamWrote 8 (putRecord (dueCel
      { dueCel ({ regsOf [(0xA80000, 0x80000000)] with trc := { celQ := [5, 6] } } : State) with trc := { (dueCel ({
                                                                                                                     regsOf
                                                                                                                       [(0xA80000,
                                                                                                                     0x80000000)]
                                                                                                                       with
                                                                                                                            trc := {
                                                                                                                                     celQ := [5,
                                                                                                                                     6]
                                                                                                                                       }
                                                                                                                              }
                                                                                                            :
                                                                                                            State)).trc
                                                                                                            with
                                                                                                                 celQ := ([6])
                                                                                                                   }
                                                                                                   }) 8 (5)),
      by decide +kernel⟩,
    ⟨{ trc := { halt := true, segMiB := 1, streams := [(8, { wptr := 1048560 })] } }, 8, by decide +kernel⟩,
    ⟨{}, 4223, by decide +kernel⟩,
    ⟨{}, 4223, 7, by decide +kernel⟩,
    ⟨regsOf [(0xA80020, 0x40000000)], by decide +kernel⟩,
    ⟨{ trc := { cnt := [(10 * (8 * 4095 + 3) + 9, 2 ^ 64 - 1)] } }, 4095, 3, by decide +kernel⟩,
    ⟨9, by decide +kernel⟩⟩

theorem test_meets_LinkTestAndTestAccess :
    (∃ (s : State), prbsKey (reg s 0xB80100) = none) ∧
    (∃ (s : State) (w : Word) (k : Nat), prbsKey (reg s 0xB80100) = some k ∧ prbsStartOk s k (setFld (setFld w.toNat
      31 31 1 % 2 ^ 29) 23 11 0) = false) ∧
    (∃ (s : State) (w : Word) (k : Nat), prbsKey (reg s 0xB80100) = some k ∧ prbsStartOk s k (setFld (setFld w.toNat
      31 31 1 % 2 ^ 29) 23 11 0) = true ∧ bitAt w.toNat 29 = false ∧ bitAt w.toNat 30 = false) ∧
    (∃ (s : State) (w : Word) (k : Nat), prbsKey (reg s 0xB80100) = some k ∧ prbsStartOk s k (setFld (setFld w.toNat
      31 31 1 % 2 ^ 29) 23 11 0) = true ∧ bitAt w.toNat 29 = false ∧ bitAt w.toNat 30 = false) ∧
    (∃ (s : State) (w : Word) (k : Nat), prbsKey (reg s 0xB80100) = some k ∧ (prbsOf s k).running = true ∧ bitAt
      w.toNat 31 = false ∧ bitAt w.toNat 29 = false) ∧
    (∃ (s : State) (w : Word) (k : Nat), prbsKey (reg s 0xB80100) = some k ∧ (prbsOf s k).running = false ∧ bitAt
      w.toNat 31 = false ∧ bitAt w.toNat 29 = false) ∧
    (∃ (s : State) (w : Word) (k : Nat), prbsKey (reg s 0xB80100) = some k ∧ (prbsOf s k).running = true ∧ k < 128 ∧
      bitAt w.toNat 31 = false ∧ bitAt w.toNat 30 = false ∧ (prbsOf s k).locked.contains (fld w.toNat 10 0) = true) ∧
    (∃ (s : State) (sel : Fin 256) (k : Nat), prbsKey sel = some k ∧ (prbsOf s k).running = true ∧ (prbsOf s k).dur ≠
      0 ∧ (prbsOf s k).dur * 2 ^ 20 ≤ (prbsOf s k).bits) ∧
    (∃ (s : State) (sel : Fin 256), (prbsKey sel = none ∨ (∃ k, prbsKey sel = some k ∧ ((prbsOf s k).running = false ∨
      (prbsOf s k).dur = 0)))) :=
  ⟨⟨regsOf [(0xB80100, 0x48)], by decide +kernel⟩,
    ⟨regsOf [(0xB80100, 0x80)], 0, 128, by decide +kernel⟩,
    ⟨regsOf [(0xB80100, 0x27)], 0x80000000, 0x27, by decide +kernel⟩,
    ⟨{ regsOf [(0xB80100, 0x8F)] with lnk := { ports := [(15, { up := true })] } }, 0x80000000, 143,
      by decide +kernel⟩,
    ⟨{ regsOf [(0xB80100, 0x8F)] with tst := { prbs := [(143, { running := true, bits := 9 })] } }, 0x40000000, 143,
      by decide +kernel⟩,
    ⟨regsOf [(0xB80100, 0x66)], 0x40000000, 0x66, by decide +kernel⟩,
    ⟨{ regsOf [(0xB80100, 0x27)] with tst := { prbs := [(0x27, { running := true, locked := [1183] })] } },
      0x2000049F, 0x27, by decide +kernel⟩,
    ⟨{ tst := { prbs := [(0x27, { running := true, dur := 1, bits := 1048576 })] } }, 0x27, 0x27, by decide +kernel⟩,
    ⟨{}, 0xC0, .inl (by decide)⟩⟩

theorem test_meets_LinkTestAndTestAccess_more :
    (∃ (s : State) (sel : Fin 256) (lane : Fin 2048) (k : Nat), prbsKey sel = some k ∧ (prbsOf s k).running = true ∧
      lane.val < prbsLanes k ∧ (prbsOf s k).locked.contains lane.val = false) ∧
    (∃ (s : State) (sel : Fin 256) (lane : Fin 2048) (k : Nat), prbsKey sel = some k ∧ ((prbsOf s k).running = false ∨
      prbsLanes k ≤ lane.val)) ∧
    (∃ (i : Fin 5), i.val ≤ 1) ∧
    (∃ (s : State) (i : Fin 5), 2 ≤ i.val ∧ setupDone s = true) ∧
    (∃ (s : State) (i : Fin 5), 2 ≤ i.val ∧ setupDone s = false ∧ s.saf.recQ = []) ∧
    (∃ (s : State) (i : Fin 4), (i.val = 0 ∨ i.val = 2) ∧ setupDone s = true) ∧
    (∃ (s : State) (u : Nat), setupDone s = false ∧ u < Config.numRex ∧ (unitOf s u).run = none) ∧
    (∃ (s : State) (w : Word), setupDone s = false ∧ isPath w.toNat = true ∧ s.saf.recQ.length < 32) :=
  ⟨⟨{ tst := { prbs := [(0x27, { running := true })] } }, 0x27, 1183, 0x27, by decide +kernel⟩,
    ⟨{ tst := { prbs := [(0x27, { running := true })] } }, 0x27, 1184, 0x27, by decide +kernel⟩,
    ⟨1, by decide +kernel⟩,
    ⟨regsOf [(0x14, 1)], 4, by decide +kernel⟩,
    ⟨{}, 4, by decide +kernel⟩,
    ⟨regsOf [(0x14, 1)], 2, by decide +kernel⟩,
    ⟨{ rex := { units := [(127, { tiles := [(5, 6)], accf := [(1, 2)] })] } }, 127, by decide +kernel⟩,
    ⟨{}, 23, by decide +kernel⟩⟩

theorem test_meets_SetupDoneChecked :
    (∃ (s : State), setupDone s = false ∧ groupChips s ≤ chipId s) ∧
    (∃ (s : State), groupChips s = 4096) :=
  ⟨⟨regsOf [(0xC, 1)], by decide +kernel⟩,
    ⟨regsOf [(0x10, 4096), (0xC, 4095)], by decide +kernel⟩⟩

theorem test_meets_WindowFaults :
    (∃ (off : Nat), doorbellCtx off = none) ∧
    (∃ (off : Nat), doorbellCtx off = none) ∧
    (∃ (off : Nat), doorbellCtx off = none ∧ off % 4 = 0 ∧ mapped off = false) :=
  ⟨⟨0x100001, by decide +kernel⟩,
    ⟨0x100002, by decide +kernel⟩,
    ⟨0x80, by decide +kernel⟩⟩

theorem test_meets_AccessCodes :
    (∃ (off : Nat) (r : RegRow), rowAt off = some r ∧ r.rw &&& r.w1c = 0 ∧ r.rwl &&& r.w1c = 0) ∧
    (∃ (off : Nat) (r : RegRow), rowAt off = some r ∧ r.rw &&& r.w1c = 0 ∧ r.rwl &&& r.w1c = 0) ∧
    (∃ (off : Nat) (r : RegRow), rowAt off = some r ∧ r.rw &&& r.w1c = 0 ∧ r.rwl &&& r.w1c = 0) :=
  ⟨⟨0x110044, (rowAt 0x110044).getD { off := 0 }, by decide +kernel⟩,
    ⟨0x18, (rowAt 0x18).getD { off := 0 }, by decide +kernel⟩,
    ⟨0x10, (rowAt 0x10).getD { off := 0 }, by decide +kernel⟩⟩

theorem test_meets_WindowAccess :
    (∃ (off : Nat), off % 4 = 0 ∧ doorbellCtx off = none ∧ mapped off = true ∧ mgcRw off = 0 ∧ mgcWo off = 0) ∧
    (∃ (off : Nat), off % 4 = 0 ∧ doorbellCtx off = none ∧ mapped off = true ∧ (mgcRw off ≠ 0 ∨ mgcWo off ≠ 0) ∧ off ≠
      0x980000) ∧
    (∃ (off : Nat), off % 4 = 0 ∧ doorbellCtx off = none ∧ mapped off = true ∧ (mgcRw off ≠ 0 ∨ mgcWo off ≠ 0) ∧ off ≠
      0x980000) ∧
    (∃ (off : Nat), off % 4 = 0 ∧ doorbellCtx off = none ∧ mapped off = true ∧ fwMay off = true ∧ off < 2 ^ 24) ∧
    (∃ (off : Nat), off % 4 = 0 ∧ off < 2 ^ 24 ∧ (doorbellCtx off ≠ none ∨ (mapped off = true ∧ fwMay off = false))) ∧
    (∃ (off : Nat), off % 4 = 0 ∧ off < 2 ^ 24) ∧
    (∃ (off : Nat), off % 4 = 0 ∧ off < 2 ^ 24 ∧ doorbellCtx off = none ∧ mapped off = false) ∧
    (∃ (off : Nat), 2 ^ 24 ≤ off) ∧
    (∃ (off : Nat), off ∈ [0x28000C, 0x300008, 0x480008, 0x500008, 0x58000C, 0x600004, 0x800018]) ∧
    (∃ (off : Nat), off ∈ [0x28000C, 0x300008, 0x480008, 0x500008, 0x58000C, 0x600004, 0x800018]) ∧
    (∃ (s : State) (m : Cmd) (d : Nat), isPassed s m 0x0F00 ∧ dbgFault m = some d ∧ s.saf.safe = false) ∧
    (∃ (s : State) (m : Cmd) (d : Nat), isPassed s m 0x0F00 ∧ dbgFault m = some d ∧ s.saf.safe = false) ∧
    (∃ (s : State) (m : Cmd), isPassed s m 0x0F00 ∧ dbgFault m = none ∧ dwMask m = 0 ∧ s.saf.safe = false ∧ bitAt
      m.flags 1 = false) ∧
    (∃ (s : State) (m : Cmd), isPassed s m 0x0F00 ∧ dbgFault m = none ∧ dwMask m ≠ 0) :=
  ⟨⟨0x110044, by decide +kernel⟩,
    ⟨0x801FC4, by decide +kernel⟩,
    ⟨0x980050, by decide +kernel⟩,
    ⟨0x980058, by decide +kernel⟩,
    ⟨0xC00040, by decide +kernel⟩,
    ⟨0x110044, by decide +kernel⟩,
    ⟨0x40, by decide +kernel⟩,
    ⟨0x1000000, by decide +kernel⟩,
    ⟨0x28000C, by decide +kernel⟩,
    ⟨0x800018, by decide +kernel⟩,
    ⟨passedIs {} (cmdOf 0xF00 [(8, 4, 0xC00000)]), cmdOf 0xF00 [(8, 4, 0xC00000)], 8,
      ⟨⟨_, rfl⟩, rfl, rfl, by decide +kernel⟩, by decide +kernel⟩,
    ⟨passedIs {} (cmdOf 0xF00 [(8, 4, 0x14), (16, 4, 1)]), cmdOf 0xF00 [(8, 4, 0x14), (16, 4, 1)], 16,
      ⟨⟨_, rfl⟩, rfl, rfl, by decide +kernel⟩, by decide +kernel⟩,
    ⟨passedIs {} (cmdOf 0xF00 [(8, 4, 0x4), (12, 4, 7)]), cmdOf 0xF00 [(8, 4, 0x4), (12, 4, 7)],
      ⟨⟨_, rfl⟩, rfl, rfl, by decide +kernel⟩, by decide +kernel⟩,
    ⟨passedIs {} (cmdOf 0xF00 [(8, 4, 0x110044), (12, 4, 7), (16, 4, 5)]), cmdOf 0xF00 [(8, 4, 0x110044), (12, 4, 7),
      (16, 4, 5)], ⟨⟨_, rfl⟩, rfl, rfl, by decide +kernel⟩, by decide +kernel⟩⟩

theorem test_meets_ChecksGatesAndAccounts :
    (∃ (s : State) (m : Cmd) (q : List Cmd), cmacTag (toNats (slotOf s (keySlot m)).key) (toNats (m.bytes.take 56)) =
      toNats ((m.bytes.drop 56).take 8) ∧ s.cau.inQ = m :: q ∧ s.cau.passed = false ∧ regBit s 0x180004 1 = false ∧
      isEnrolment s m = false ∧ (slotOf s (keySlot m)).state ≠ 0 ∧ (slotOf s (keySlot m)).state ≠ 2 ∧ (slotOf s
      (keySlot m)).owner = m.ctx ∧ classGranted s m = true ∧ (slotOf s (keySlot m)).ctr < m.at 48 8 ∧ m.opcode ≠
      0x0700) ∧
    (∃ (s : State) (m : Cmd) (q : List Cmd), cmacTag (toNats (slotOf s (keySlot m)).key) (toNats (m.bytes.take 56)) =
      toNats ((m.bytes.drop 56).take 8) ∧ keyUnwrap (toNats (slotOf s (keySlot m)).key) (toNats ((m.bytes.drop
      16).take 24)) = some (List.replicate 16 1) ∧ s.cau.inQ = m :: q ∧ s.cau.passed = false ∧ regBit s 0x180004 1 =
      false ∧ isEnrolment s m = false ∧ (slotOf s (keySlot m)).state ≠ 0 ∧ (slotOf s (keySlot m)).state ≠ 2 ∧ (slotOf
      s (keySlot m)).owner = m.ctx ∧ classGranted s m = true ∧ (slotOf s (keySlot m)).ctr < m.at 48 8 ∧ m.opcode =
      0x0700) ∧
    (∃ (s : State) (m : Cmd) (q : List Cmd), s.cau.inQ = m :: q ∧ s.cau.passed = false ∧ regBit s 0x180004 1 = false ∧
      isEnrolment s m = true) ∧
    (∃ (s : State) (bank : Fin 16) (e : Dec) (q : List Dec) (i : Nat) (img : Img) (st : Step), calm s ∧ s.tge.decQ = e
      :: q ∧ e.task % 16 = bank.val ∧ imgOfTask s e.task = some (i, img) ∧ stepOf s i = some st ∧ st.phase = 2 ∧ cntA
      s e.task = cntB s e.task ∧ 2 ≤ cwCount (cntA s e.task)) ∧
    (∃ (s : State) (bank : Fin 16) (e : Dec) (q : List Dec) (i : Nat) (img : Img) (st : Step), calm s ∧ s.tge.decQ = e
      :: q ∧ e.task % 16 = bank.val ∧ imgOfTask s e.task = some (i, img) ∧ stepOf s i = some st ∧ st.phase = 2 ∧ cntA
      s e.task = cntB s e.task ∧ cwCount (cntA s e.task) = 1 ∧ tdKind (descOf s e.task) ≠ 2 ∧ tdKind (descOf s e.task)
      ≠ 4 ∧ tdKind (descOf s e.task) ≠ 5 ∧ tdDelayed (descOf s e.task) = false) ∧
    (∃ (s : State) (i : Nat) (g : Nat) (st : Step) (img : Img), s.saf.safe = false ∧ s.disp.gates = [(i, g)] ∧ stepOf
      s i = some st ∧ imgOf s i = some img ∧ st.phase ≠ 3 ∧ commitsWait s img.ctx = false ∧ gdNf (descOf s g) = false
      ∧ gdSpike (descOf s g) = false ∧ gdProv (descOf s g) = false) ∧
    (∃ (s : State) (i : Nat) (st : Step) (img : Img) (w : GateWrite) (rest : List GateWrite), calm s ∧ s.tge.steps =
      [(i, st)] ∧ st.gateWrites = w :: rest ∧ imgOf s i = some img ∧ s.pat.waits = [] ∧ w.pass = false ∧ w.issued =
      true) ∧
    (∃ (s : State) (i : Nat) (st : Step) (img : Img) (w : GateWrite) (rest : List GateWrite), calm s ∧ s.tge.steps =
      [(i, st)] ∧ st.gateWrites = w :: rest ∧ imgOf s i = some img ∧ s.pat.waits = [] ∧ w.pass = false ∧ w.issued =
      false ∧ (regionAt s img.ctx w.va).isSome = true ∧ ctxEnabled s img.ctx = true ∧ (mapOf s img.ctx 0).isSome =
      true ∧ w.va % 65536 + w.bytes.length ≤ 65536) ∧
    (∃ (s : State) (i : Nat) (st : Step) (img : Img) (w : GateWrite) (rest : List GateWrite), s.tge.steps = [(i, st)]
      ∧ st.gateWrites = w :: rest ∧ imgOf s i = some img ∧ s.pat.waits = [] ∧ w.pass = true ∧ w.issued = true) :=
  ⟨⟨keyed cmdMac1, cmdMac1, [], test_mac, by decide +kernel⟩,
    ⟨keyed cmdKey, cmdKey, [], test_key_mac, test_key_unwrap, by decide +kernel⟩,
    ⟨{ regsOf [(0x110000, 0xC0000000)] with cau := { inQ := [cmdOf 0x700 [(16, 2, 77)]] } }, cmdOf 0x700 [(16, 2,
      77)], [], by decide +kernel⟩,
    ⟨{ tge := { steps0 with decQ := [{ task := 15 }], cntA := [(15, 0x20002)], cntB := [(15, 0x20002)] } }, 15,
      { task := 15 }, [], 0, img0, step0, by unfold calm; decide +kernel, by decide +kernel⟩,
    ⟨{ tge := { steps0 with decQ := [{ task := 15 }], cntA := [(15, 0x20001)], cntB := [(15, 0x20001)] } }, 15,
      { task := 15 }, [], 0, img0, step0, by unfold calm; decide +kernel, by decide +kernel⟩,
    ⟨{ tge := steps0, disp := { gates := [(0, 3)] } }, 0, 3, step0, img0, by decide +kernel⟩,
    ⟨{ tge := { imgs := [(0, img0)], steps := [(0, { step0 with gateWrites := [gw false true] })] } }, 0,
      { step0 with gateWrites := [gw false true] }, img0, gw false true, [], by unfold calm; decide +kernel,
      by decide +kernel⟩,
    ⟨{ ringBack with tge := { imgs := [(0, img0)], steps := [(0, { step0 with gateWrites := [gw false false] })] } },
      0, { step0 with gateWrites := [gw false false] }, img0, gw false false, [], by unfold calm; decide +kernel,
      by decide +kernel⟩,
    ⟨{ tge := { imgs := [(0, img0)], steps := [(0, { step0 with gateWrites := [gw true true] })] } }, 0,
      { step0 with gateWrites := [gw true true] }, img0, gw true true, [], by decide +kernel⟩⟩

end Sys2Proof.Tests
end

section
/-! Plain register writes (R7): the bits that a write leaves under the masks of a register's row, and what else a
plain write keeps. -/

namespace Sys2Proof.Machine

open Sys2Proof

/-- R7 bit by bit, for any masks: RW and unlocked RWL bits take the written bit, and then a 1 clears RW1C bits. -/
theorem testBit_maskWrite (r : RegRow) (locked : Bool) (old w : Nat) {i : Nat} (hi : i < 32) :
    (maskWrite r locked old w).testBit i =
      ((if r.rw.testBit i || (r.rwl.testBit i && !locked) then w.testBit i else old.testBit i) &&
        !(w.testBit i && r.w1c.testBit i)) := by
  have hmask : (BitVec.ofNat 32 r.rw ||| if locked then 0 else BitVec.ofNat 32 r.rwl).getLsbD i =
      (r.rw.testBit i || (r.rwl.testBit i && !locked)) := by
    cases locked <;> simp [BitVec.getLsbD_ofNat, hi, -BitVec.getLsbD_eq_getElem]
  simp only [maskWrite, BitVec.testBit_toNat, BitVec.getLsbD_and, BitVec.getLsbD_or, BitVec.getLsbD_not,
    BitVec.getLsbD_ofNat, hmask, hi, decide_true, Bool.true_and]
  cases r.rw.testBit i || (r.rwl.testBit i && !locked) <;> simp

theorem maskWrite_lt (r : RegRow) (locked : Bool) (old w : Nat) : maskWrite r locked old w < 2 ^ 32 :=
  BitVec.isLt _

/-- Masks that share no bit: a bit of one is not a bit of the other. -/
theorem testBit_eq_false_of_and_eq_zero {a b i : Nat} (h : a &&& b = 0) (hb : b.testBit i = true) :
    a.testBit i = false := by
  have hab := Nat.testBit_and a b i
  rw [h, hb, Nat.zero_testBit, Bool.and_true] at hab
  exact hab.symm

/-- Where RW1C shares no bit with RW and RWL, each bit follows the one access code that it has. -/
theorem testBit_maskWrite_of_disjoint (r : RegRow) (locked : Bool) (old w : Nat) {i : Nat} (hi : i < 32)
    (hrw : r.rw &&& r.w1c = 0) (hrwl : r.rwl &&& r.w1c = 0) :
    (maskWrite r locked old w).testBit i =
      if r.w1c.testBit i then old.testBit i && !w.testBit i
      else if r.rw.testBit i || (r.rwl.testBit i && !locked) then w.testBit i
      else old.testBit i := by
  rw [testBit_maskWrite r locked old w hi]
  cases hw1c : r.w1c.testBit i with
  | true =>
    simp [testBit_eq_false_of_and_eq_zero hrw hw1c, testBit_eq_false_of_and_eq_zero hrwl hw1c]
  | false => simp

/-- What a plain write of a mapped register can do: nothing where no bit is written under RW, RWL or RW1C, and else
it sets that register by its masks. -/
theorem plainWrite_cases (s : State) {off : Nat} (w : Nat) {r : RegRow} (hr : rowAt off = some r) :
    (r.rw = 0 ∧ r.rwl = 0 ∧ r.w1c = 0 ∧ plainWrite s off w = s) ∨
      plainWrite s off w = setReg s off (maskWrite r (setupDone s) (reg s off) w) := by
  simp only [plainWrite, hr]
  split
  case isTrue h =>
    simp only [Bool.and_eq_true, decide_eq_true_eq] at h
    obtain ⟨⟨hrw, hrwl⟩, hw1c⟩ := h
    exact .inl ⟨hrw, hrwl, hw1c, rfl⟩
  case isFalse => exact .inr rfl

theorem testBit_reg_plainWrite (s : State) {off : Nat} (w : Nat) {r : RegRow} (hr : rowAt off = some r)
    (hrw : r.rw &&& r.w1c = 0) (hrwl : r.rwl &&& r.w1c = 0) {i : Nat} (hi : i < 32) :
    (reg (plainWrite s off w) off).testBit i =
      if r.w1c.testBit i then (reg s off).testBit i && !w.testBit i
      else if r.rw.testBit i || (r.rwl.testBit i && !setupDone s) then w.testBit i
      else (reg s off).testBit i := by
  obtain ⟨hrw0, hrwl0, hw1c0, hsame⟩ | hset := plainWrite_cases s w hr
  · simp [hsame, hrw0, hrwl0, hw1c0]
  · rw [hset, reg_setReg_same, Nat.mod_eq_of_lt (maskWrite_lt _ _ _ _)]
    exact testBit_maskWrite_of_disjoint r _ _ _ hi hrw hrwl

theorem reg_plainWrite_ne (s : State) {off o : Nat} (w : Nat) {r : RegRow} (hr : rowAt off = some r) (ho : o ≠ off) :
    reg (plainWrite s off w) o = reg s o := by
  obtain ⟨-, -, -, hsame⟩ | hset := plainWrite_cases s w hr
  · rw [hsame]
  · rw [hset, reg_setReg_ne s _ ho]

theorem plainWrite_eq_regs (s : State) {off : Nat} (w : Nat) {r : RegRow} (hr : rowAt off = some r) :
    plainWrite s off w = { s with regs := (plainWrite s off w).regs } := by
  obtain ⟨-, -, -, hsame⟩ | hset := plainWrite_cases s w hr
  · rw [hsame]
  · rw [hset]; rfl

/-- Settles O58: the bits by the masks of the row, then the other registers and the rest of the state. -/
theorem accessCodes : Obligations.AccessCodes := by
  unfold Obligations.AccessCodes
  intro s off w r hr hrw hrwl
  exact ⟨fun i hi => testBit_reg_plainWrite s w.toNat hr hrw hrwl hi,
    fun o ho => reg_plainWrite_ne s w.toNat hr ho, plainWrite_eq_regs s w.toNat hr⟩

end Sys2Proof.Machine
end

section
/-! Vertical-link queues, runs, error records and the end of a command: what later proofs read after a write. -/

namespace Sys2Proof.Machine

open Sys2Proof

@[simp] theorem fieldOf_setField_same (s : State) (f : Nat) (x : Field) : fieldOf (setField s f x) f = x := by
  simp [fieldOf, setField]

@[simp] theorem runOf_setRun_same (s : State) (r : Nat) (x : Run) : runOf (setRun s r x) r = some x :=
  tget?_tput_same s.disp.runs r x

@[simp] theorem runOf_setField (s : State) (f : Nat) (x : Field) (r : Nat) :
    runOf (setField s f x) r = runOf s r := rfl

@[simp] theorem fieldOf_setRun (s : State) (r : Nat) (x : Run) (f : Nat) :
    fieldOf (setRun s r x) f = fieldOf s f := rfl

theorem modRun_eq_setRun {s : State} {r : Nat} {x : Run} (h : runOf s r = some x) (g : Run → Run) :
    modRun s r g = setRun s r (g x) := by
  simp only [modRun, h]

theorem settleGo_of_no_asks (fuel : Nat) {s : State} (h : s.asks = []) : settleGo fuel s = s := by
  cases fuel with
  | zero => rfl
  | succ fuel =>
    have hnone : firstAsk s.asks = none := by rw [h]; rfl
    simp only [settleGo, hnone]

theorem dropFailedT1_of_no_t1 {s : State} (h : ∀ r ∈ s.disp.ready, r.t1 = none) : dropFailedT1 s = s := by
  rw [dropFailedT1, List.filter_eq_nil_iff.mpr fun r hr => by simp [h r hr]]
  rfl

/-- Where nothing is asked for and no save or restore is under way, the end of a command's cycle changes nothing. -/
theorem settle_of_calm {s : State} (h : calm s) : settle s = s := by
  obtain ⟨hasks, hops, hready⟩ := h
  simp [settle, settleGo_of_no_asks 4096 hasks, finishT1, dropFailedT1_of_no_t1 hready, hops]

/-- Commit records and field queues are no part of what makes a state calm. -/
theorem calm_setField_setRun {s : State} (h : calm s) (r : Nat) (x : Run) (f : Nat) (q : Field) :
    calm (setField (setRun s r x) f q) := h

/-- With room in SAF's queue a record goes to its end, and nothing else changes (R624). -/
theorem record_of_room {s : State} (h : s.saf.recQ.length < 32) (sev unit code : Nat) (ctx : Option Nat)
    (detail param : Nat) :
    record s sev unit code ctx detail param = { s with saf := { s.saf with recQ := s.saf.recQ ++
      [{ sev := sev, unit := unit, code := code, ctx := ctx, stamp := cellarStamp s,
         detail := detail % 2 ^ 32, param := param % 2 ^ 64 }] } } := by
  simp only [record, h, if_true]

/-- A record that finds SAF's queue full leaves every register outside SAF's slice as it was. -/
theorem reg_record_outside_saf (s : State) (sev unit code : Nat) (ctx : Option Nat) (detail param : Nat) {o : Nat}
    (ho : o < 0xA00000) : reg (record s sev unit code ctx detail param) o = reg s o := by
  unfold record
  split
  · rfl
  · rw [reg_setRegBit_ne _ _ _ (by omega), reg_addReg_ne _ _ (by omega), queueOverrun,
      reg_setRegFld_ne _ _ _ _ (by omega), reg_setRegBit_ne _ _ _ (by omega)]

theorem record_mgc (s : State) (sev unit code : Nat) (ctx : Option Nat) (detail param : Nat) :
    (record s sev unit code ctx detail param).mgc = s.mgc := by
  unfold record
  split <;> rfl

/-- The kills that a loss calls for are asked for, and the rest of the state stays. -/
theorem lossKills_eq_asks (s : State) (ctxs : List Nat) :
    lossKills s ctxs = { s with asks := s.asks ++ ctxs.map fun c => .killCtx c 5 } := by
  induction ctxs generalizing s with
  | nil => simp [lossKills]
  | cons c ctxs ih =>
    have hcons : lossKills s (c :: ctxs) = lossKills (ask s (.killCtx c 5)) ctxs := rfl
    rw [hcons, ih]
    simp [ask]

end Sys2Proof.Machine
end

section
/-! The end of a running command, its effect requests and its COMPLETE record (R242, R257, R258, R266, R280). -/

namespace Sys2Proof.Machine

open Sys2Proof

theorem exec_endValid_of_slotRun {s : State} {core : Fin 4096} {e : Fin 8} {slot : Fin 4} (code : Fin 16)
    (mem : List (Nat × BitVec 8)) (lost : Bool) {id : Nat} {x : Run} (hrun : slotRun s core slot = some (id, x))
    (hengine : x.engine = e.val) :
    exec (.endValid core e slot code mem lost) s = .next (settle (endRun
      (mem.foldl (engineWrite x) (if lost then loseCharge s id else s)) id code)) := by
  change execEndValid core e slot code mem s lost = _
  simp only [execEndValid, hrun, hengine, ne_eq, not_true_eq_false, if_false]

theorem cplQ_sendComplete_of_room {s : State} (id : Nat) {x : Run} (hroom : (fieldOf s x.field).cplQ.length < 32) :
    (fieldOf (sendComplete s id x) x.field).cplQ = (fieldOf s x.field).cplQ ++
      [{ run := id, count := x.sent, kind := x.kind, core := x.core, engine := x.engine, slot := x.slot }] := by
  simp only [sendComplete, hroom, if_true, fieldOf_setField_same]

/-- A request of a unit that there is, within the 65,535 that a command may make, is counted with its run and goes to
the end of its field's EFFECT queue. -/
theorem sendEffect_of_unit {s : State} {id : Nat} {x : Run} {data : Nat} (hrun : runOf s id = some x)
    (hreqs : x.reqs + 1 < 65536) (hlo : 1 ≤ fld data 127 124) (hhi : fld data 127 124 ≤ 5) :
    sendEffect s id x data =
      setField (setRun s id { x with sent := x.sent + 1, reqs := x.reqs + 1 }) x.field
        { fieldOf s x.field with effQ := (fieldOf s x.field).effQ ++
          [{ run := id, eff := { unit := fld data 127 124, op := fld data 123 120, data := data } }] } := by
  have hunit : (decide (fld data 127 124 = 0) || decide (6 ≤ fld data 127 124)) = false := by
    simp only [Bool.or_eq_false_iff, decide_eq_false_iff_not]
    omega
  simp only [sendEffect, Nat.not_le.mpr hreqs, if_false, hunit, Bool.false_eq_true, modRun_eq_setRun hrun,
    fieldOf_setRun]

theorem exec_effValid_of_slotRun {s : State} {core : Fin 4096} {slot : Fin 4} (d : BitVec 128) {id : Nat} {x : Run}
    (hslot : slotRun s core slot = some (id, x)) :
    exec (.effValid core slot d) s = .next (settle (sendEffect s id x d.toNat)) := by
  change execEffValid core slot d s = _
  simp only [execEffValid, hslot]

theorem exec_effValid_queues_request {s : State} {core : Fin 4096} {slot : Fin 4} {d : BitVec 128} {id : Nat}
    {x : Run} (hslot : slotRun s core slot = some (id, x)) (hrun : runOf s id = some x) (hreqs : x.reqs + 1 < 65536)
    (hcalm : calm s) (hlo : 1 ≤ fld d.toNat 127 124) (hhi : fld d.toNat 127 124 ≤ 5) :
    ∃ t, exec (.effValid core slot d) s = .next t ∧
      (fieldOf t x.field).effQ = (fieldOf s x.field).effQ ++
        [{ run := id, eff := { unit := fld d.toNat 127 124, op := fld d.toNat 123 120, data := d.toNat } }] ∧
      runOf t id = some { x with sent := x.sent + 1, reqs := x.reqs + 1 } ∧ t = { s with disp := t.disp } := by
  refine ⟨sendEffect s id x d.toNat, ?_, ?_⟩
  · rw [exec_effValid_of_slotRun d hslot, sendEffect_of_unit hrun hreqs hlo hhi,
      settle_of_calm (calm_setField_setRun hcalm _ _ _ _)]
  · rw [sendEffect_of_unit hrun hreqs hlo hhi]
    exact ⟨by simp, by simp, rfl⟩

@[simp] theorem fullQueue_setField (s : State) (f : Nat) (q : Field) (unit : Nat) (full : Bool) :
    fullQueue (setField s f q) unit full = fullQueue s unit full := rfl

section
variable {s : State} {f : Fin 8} {i : EffItem} {rest : List EffItem} {x : Run}
  (hq : (fieldOf s f).effQ = i :: rest) (hrun : runOf s i.run = some x)
include hq hrun

theorem exec_effectRecord_of_killed (full : Bool) (hkilled : x.killed.isSome = true) :
    exec (.effectRecord f full) s = .next (setField s f { fieldOf s f with effQ := rest }) := by
  change execEffectRecord f s full = _
  simp only [execEffectRecord, hq, runOf_setField, hrun, hkilled, if_true]

theorem exec_effectRecord_of_full {full : Bool} (hkilled : x.killed = none) {unit qctl : Nat} {ctxs : List Nat}
    (hfull : fullQueue s i.eff.unit full = some (unit, qctl, ctxs)) :
    exec (.effectRecord f full) s =
      .next (settle (fullLoss (setField s f { fieldOf s f with effQ := rest }) unit qctl ctxs)) := by
  change execEffectRecord f s full = _
  simp only [execEffectRecord, hq, runOf_setField, hrun, hkilled, fullQueue_setField, hfull, Option.isSome_none,
    Bool.false_eq_true, if_false]

theorem exec_effectRecord_of_room {full : Bool} (hkilled : x.killed = none)
    (hfull : fullQueue s i.eff.unit full = none) :
    ∃ t, t = setRun (setField s f { fieldOf s f with effQ := rest }) i.run
        { x with effects := x.effects ++ [i.eff] } ∧
      exec (.effectRecord f full) s = .next (
        if i.eff.unit = 1 then settle (registerSync t i.run x.effects.length x i.eff)
        else if i.eff.unit = 2 then registerSend t i.run x.effects.length
        else if i.eff.unit = 3 then registerContrib t i.run x.effects.length
        else registerEff t i.run x.effects.length) := by
  refine ⟨_, rfl, ?_⟩
  change execEffectRecord f s full = _
  simp only [execEffectRecord, hq, runOf_setField, hrun, hkilled, fullQueue_setField, hfull, Option.isSome_none,
    Bool.false_eq_true, if_false, apply_ite Host.Outcome.next]

end

theorem exec_completeRecord_of_ended {s : State} {f : Fin 8} {i : CplItem} {rest : List CplItem} {x : Run}
    (hq : (fieldOf s f).cplQ = i :: rest) (hrun : runOf s i.run = some x) (hkilled : x.killed = none)
    (hended : x.state = 4) :
    exec (.completeRecord f) s = .next (commitPoint (setRun (setField s f { fieldOf s f with cplQ := rest }) i.run
      { x with stated := some i.count, state := 5 }) i.run) := by
  change execCompleteRecord f s = _
  simp [execCompleteRecord, hq, hrun, hkilled, hended]

/-- Settles O26: one lemma per clause. -/
theorem runsEnd : Obligations.RunsEnd := by
  unfold Obligations.RunsEnd
  exact ⟨fun s core e slot code mem lost id x hrun hengine =>
      exec_endValid_of_slotRun code mem lost hrun hengine,
    fun s id x hroom => cplQ_sendComplete_of_room id hroom,
    fun s core slot d id x hslot hrun hreqs hcalm hlo hhi =>
      exec_effValid_queues_request hslot hrun hreqs hcalm hlo hhi,
    fun s f full i rest x hq hrun hkilled hfull => exec_effectRecord_of_room hq hrun hkilled hfull,
    fun s f full i rest x unit qctl ctxs hq hrun hkilled hfull =>
      exec_effectRecord_of_full hq hrun hkilled hfull,
    fun s f full i rest x hq hrun hkilled => exec_effectRecord_of_killed hq hrun full hkilled,
    fun s f i rest x hq hrun hkilled hended => exec_completeRecord_of_ended hq hrun hkilled hended⟩

end Sys2Proof.Machine
end

section
/-! Writes of QCTL and differing pointers of a queue (R38, R39, R42, R46). -/

namespace Sys2Proof.Machine

open Sys2Proof

theorem exec_decant (off : Nat) (w : Word) (s : State) :
    exec (.decant off w) s = .next (writeQctl s off w.toNat (setupDone s)) := rfl

theorem writeQctl_register_chain {s : State} {off : Nat} {q : QId} (hq : queueAt off = some q)
    (hchain : q.packet = false) (w : Nat) (locked : Bool) :
    writeQctl s off w locked = if bitAt w 31 then
      (if cutsItem s q then queueAbandon (endEmptied (afterEmpty (emptyQueue s q) q)) off
        else endEmptied (afterEmpty (emptyQueue s q) q)) else s := by
  simp only [writeQctl, hq, hchain, Bool.false_and, Bool.false_eq_true, if_false]

theorem writeQctl_packet_limit {s : State} {off : Nat} {q : QId} (hq : queueAt off = some q)
    (hpacket : q.packet = true) {w : Nat} (hkeep : bitAt w 31 = false) :
    writeQctl s off w false = setRegFld s off 15 0 w := by
  simp [writeQctl, hq, hpacket, hkeep]

theorem exec_decant_packet_limit {s : State} {off : Nat} {w : Word} {q : QId} (hq : queueAt off = some q)
    (hpacket : q.packet = true) (hopen : setupDone s = false) (hkeep : bitAt w.toNat 31 = false) :
    ∃ t, exec (.decant off w) s = .next t ∧ regFld t off 15 0 = w.toNat % 65536 ∧ t = { s with regs := t.regs } ∧
      ∀ o, o ≠ off → reg t o = reg s o := by
  refine ⟨setRegFld s off 15 0 w.toNat, ?_, ?_, rfl, fun o ho => reg_setRegFld_ne s 15 0 w.toNat ho⟩
  · rw [exec_decant, hopen, writeQctl_packet_limit hq hpacket hkeep]
  · exact regFld_setRegFld_same s off 15 0 w.toNat (by decide) (by decide)

theorem exec_queuePtrMismatch_of_queueAt (s : State) {off : Nat} {q : QId} (hq : queueAt off = some q) :
    exec (.queuePtrMismatch off) s = .next (endEmptied (settle (ptrMismatch s off q))) := by
  change execQueuePtrMismatch off s = _
  simp only [execQueuePtrMismatch, hq]

theorem exec_queuePtrMismatch_of_hiddenAt (s : State) {off : Nat} {q : QId} (hno : queueAt off = none)
    (hq : hiddenAt off = some q) :
    exec (.queuePtrMismatch off) s = .next (endEmptied (settle (hiddenMismatch s q))) := by
  change execQueuePtrMismatch off s = _
  simp only [execQueuePtrMismatch, hno, hq]

/-- Nothing streams through a DISPATCH queue, so no item of it is cut (R33). -/
theorem cutsItem_rdyDisp (s : State) (f : Nat) : cutsItem s (.rdyDisp f) = false := by
  simp [cutsItem, mayCut, streaming]

/-- A DISPATCH queue whose pointers differ: it empties itself, PTR_MISMATCH, the record, and the kills of the field's
commands that are not past running. -/
theorem ptrMismatch_rdyDisp (s : State) (off f : Nat) :
    ptrMismatch s off (.rdyDisp f) =
      lossKills (record (setRegBit (setField s f { fieldOf s f with dispQ := [] }) (off + 4) 31 true)
        1 0x05 0x03 none (off % 0x80000) 0) (ctxsInField s f fun k => k ≤ 3) := by
  simp only [ptrMismatch, cutsItem_rdyDisp, Bool.false_eq_true, if_false]
  rfl

theorem ptrMismatch_rdyDisp_of_room (s : State) (off f : Nat) (hroom : s.saf.recQ.length < 32) :
    ∃ e, (ptrMismatch s off (.rdyDisp f)).saf.recQ = s.saf.recQ ++ [e] ∧ e.code = 3 ∧ e.sev = 1 ∧ e.unit = 5 ∧
      (fieldOf (ptrMismatch s off (.rdyDisp f)) f).dispQ = [] ∧
      regBit (ptrMismatch s off (.rdyDisp f)) (off + 4) 31 = true := by
  have hroom' : (setRegBit (setField s f { fieldOf s f with dispQ := [] }) (off + 4) 31 true).saf.recQ.length < 32 :=
    hroom
  rw [ptrMismatch_rdyDisp, record_of_room hroom', lossKills_eq_asks]
  refine ⟨_, rfl, rfl, rfl, rfl, ?_, ?_⟩
  · exact congrArg Field.dispQ (fieldOf_setField_same s f { fieldOf s f with dispQ := [] })
  · exact regBit_setRegBit_same (setField s f { fieldOf s f with dispQ := [] }) (off + 4) 31 true (by decide)

/-- Settles O36: a write of QCTL by kind of queue, then differing pointers, then what emptying leaves. -/
theorem queues : Obligations.Queues := by
  unfold Obligations.Queues
  refine ⟨fun s off w q hq hchain hempty => ?_, fun s off w q hq hchain hkeep => ?_,
    fun s off w q hq hpacket hopen hkeep => exec_decant_packet_limit hq hpacket hopen hkeep,
    fun s off q hq => exec_queuePtrMismatch_of_queueAt s hq,
    fun s off q hno hq => exec_queuePtrMismatch_of_hiddenAt s hno hq,
    fun s f hroom => ptrMismatch_rdyDisp_of_room s (0x300100 + f * 0x10) f hroom,
    fun s => ⟨rfl, rfl, rfl, rfl⟩⟩
  · rw [exec_decant, writeQctl_register_chain hq hchain, hempty, if_pos rfl]
  · rw [exec_decant, writeQctl_register_chain hq hchain, hkeep, if_neg Bool.false_ne_true]

end Sys2Proof.Machine
end

section
/-! Policy values (R22-R25, R588) and the management tick (R589, R590): shadows, HOLD, and what a boundary copies. -/

namespace Sys2Proof.Machine

open Sys2Proof

/-! ### Shadow writes and HOLD -/

/-- A policy value depends on the active copies alone. -/
theorem policy_congr {s t : State} (h : t.mgc.active = s.mgc.active) (o : Nat) : policy t o = policy s o := by
  simp only [policy, h]

theorem exec_policyShadowWrite (off : Nat) (w : Word) (s : State) :
    exec (.policyShadowWrite off w) s = .next (writeShadow s off w.toNat) := rfl

theorem exec_hold (b : Bool) (s : State) : exec (.hold b) s = .next (writeHold s b) := rfl

theorem writeShadow_of_mask (s : State) {off k : Nat} (hk : policyMask off = some k) (w : Nat) :
    writeShadow s off w = offerShadow s off (w &&& k) := by
  simp only [writeShadow, hk]

theorem writeShadow_of_no_mask (s : State) {off : Nat} (hk : policyMask off = none) (w : Nat) :
    writeShadow s off w = s := by
  simp only [writeShadow, hk]

theorem reg_offerShadow_same (s : State) (off v : Nat) : reg (offerShadow s off v) off = v % 2 ^ 32 :=
  reg_setReg_same s off v

theorem reg_offerShadow_ne (s : State) {off o : Nat} (v : Nat) (h : o ≠ off) :
    reg (offerShadow s off v) o = reg s o :=
  reg_setReg_ne s v h

theorem exec_policyShadowWrite_of_mask (s : State) {off k : Nat} (w : Word) (hk : policyMask off = some k) :
    ∃ t x, exec (.policyShadowWrite off w) s = .next t ∧ reg t off = w.toNat &&& k ∧
      t.mgc.offers = s.mgc.offers ++ [x] ∧ x.off = off ∧ x.stamp = s.gtb.now ∧ x.v = w.toNat &&& k ∧
      (∀ o, policy t o = policy s o) ∧ (∀ o, o ≠ off → reg t o = reg s o) ∧
      t = { s with mgc := t.mgc, regs := t.regs } := by
  have hlt : w.toNat &&& k < 2 ^ 32 := Nat.lt_of_le_of_lt Nat.and_le_left w.isLt
  refine ⟨offerShadow s off (w.toNat &&& k), { off := off, stamp := s.gtb.now, v := w.toNat &&& k },
    ?_, ?_, rfl, rfl, rfl, rfl, fun o => policy_congr rfl o, fun o ho => reg_offerShadow_ne s _ ho, rfl⟩
  · rw [exec_policyShadowWrite, writeShadow_of_mask s hk]
  · rw [reg_offerShadow_same, Nat.mod_eq_of_lt hlt]

theorem exec_hold_offers (s : State) (b : Bool) :
    ∃ t, exec (.hold b) s = .next t ∧ regBit t 0x980008 0 = b ∧ t.mgc.holds = s.mgc.holds ++ [(s.gtb.now, b)] ∧
      t.mgc.holdNow = s.mgc.holdNow ∧ t.mgc.active = s.mgc.active ∧ t = { s with mgc := t.mgc, regs := t.regs } :=
  ⟨writeHold s b, exec_hold b s, regBit_setRegBit_same s 0x980008 0 b (by decide), rfl, rfl, rfl, rfl⟩

/-! ### The copy at a boundary -/

/-- With no write of HOLD waiting, the boundary goes by HOLD as it stood at the last one (R24). -/
theorem copyShadows_of_no_holds {s : State} (hholds : s.mgc.holds = []) (b : Nat) :
    copyShadows s b = if s.mgc.holdNow then s else
      let new := (s.mgc.offers.filter fun o => o.stamp < b).foldl (fun t o => tput t o.off o.v) []
      new.foldl copyShadow (copyPair
        { s with mgc := { s.mgc with offers := s.mgc.offers.filter fun o => b ≤ o.stamp } } new) := by
  have hsame : { s with mgc := { s.mgc with holds := [] } } = s := by rw [← hholds]
  simp only [copyShadows, hholds, List.filter_nil, List.getLast?_nil, hsame]

theorem copyShadows_of_hold {s : State} (hholds : s.mgc.holds = []) (hhold : s.mgc.holdNow = true) (b : Nat) :
    copyShadows s b = s := by
  rw [copyShadows_of_no_holds hholds, hhold, if_pos rfl]

theorem copyPair_of_no_watermark (s : State) {new : Table Nat} (hlow : tget? new 0x700010 = none)
    (hmin : tget? new 0x700014 = none) : copyPair s new = s := by
  simp only [copyPair, hlow, hmin, Option.or_none]

/-- Nothing that was offered before the boundary waits, so nothing is copied (R22). -/
theorem copyShadows_of_none_due {s : State} (hholds : s.mgc.holds = []) (hhold : s.mgc.holdNow = false) {b : Nat}
    (hnone : ∀ o ∈ s.mgc.offers, b ≤ o.stamp) : copyShadows s b = s := by
  have hdue : (s.mgc.offers.filter fun o => o.stamp < b) = [] :=
    List.filter_eq_nil_iff.mpr fun o ho => by simpa using hnone o ho
  have hleft : (s.mgc.offers.filter fun o => b ≤ o.stamp) = s.mgc.offers :=
    List.filter_eq_self.mpr fun o ho => by simpa using hnone o ho
  rw [copyShadows_of_no_holds hholds, if_neg (by simp [hhold]), hdue, hleft]
  exact copyPair_of_no_watermark s (new := []) rfl rfl

/-- One value offered before the boundary, which is no watermark, is judged alone. -/
theorem copyShadows_of_one_due {s : State} (hholds : s.mgc.holds = []) (hhold : s.mgc.holdNow = false) {x : Shadow}
    (hoffers : s.mgc.offers = [x]) {b : Nat} (hdue : x.stamp < b) (hlow : x.off ≠ 0x700010)
    (hmin : x.off ≠ 0x700014) :
    copyShadows s b = copyShadow { s with mgc := { s.mgc with offers := [] } } (x.off, x.v) := by
  have hlow' : tget? [(x.off, x.v)] 0x700010 = none := by simp [tget?, hlow]
  have hmin' : tget? [(x.off, x.v)] 0x700014 = none := by simp [tget?, hmin]
  simp [copyShadows_of_no_holds hholds, hhold, hoffers, hdue, tput, copyPair_of_no_watermark _ hlow' hmin']

/-- The place of a register in the array of register sets that holds it. -/
theorem arrayAt_member {base step n k : Nat} (hk : k < n) (hstep : 0 < step) :
    arrayAt (base + k * step) base step n = some k := by
  have hdiv : k * step / step = k := Nat.mul_div_cancel k hstep
  simp [arrayAt, hdiv, hk]

/-- An offset that lies between the registers of an array of stride `step` is not in the array. -/
theorem arrayAt_of_mod_ne {off base step : Nat} (n : Nat) (h : (off - base) % step ≠ 0) :
    arrayAt off base step n = none := by
  simp [arrayAt, h]

/-- A weight of 0 is refused; another is copied (R25, R544). -/
theorem copyShadow_weight (s : State) (c : Fin 64) (v : Nat) :
    copyShadow s (psmCtx c + 4, v) =
      if v % 65536 = 0 then rejectShadow s 0x0F 0x800000 31 (psmCtx c + 4) v
      else activate s (psmCtx c + 4) v := by
  have hplace : (arrayAt (psmCtx c + 4) 0x801004 0x40 64).isSome = true := by
    have hoff : psmCtx c + 4 = 0x801004 + c * 0x40 := by unfold psmCtx; omega
    rw [hoff, arrayAt_member c.isLt (by decide)]
    rfl
  have hwm : ¬(psmCtx c + 4 = 0x700010 ∨ psmCtx c + 4 = 0x700014) := by unfold psmCtx; omega
  simp only [copyShadow, Bool.or_eq_true, decide_eq_true_eq, hwm, if_false, hplace, if_true]

/-- A RUN that becomes 0 is copied, and its context is pre-empted (R551, R552). -/
theorem copyShadow_run_cleared {s : State} {c : Fin 64} {v : Nat} (hclear : bitAt v 31 = false)
    (hrun : ctxRun s c = true) :
    copyShadow s (psmCtx c + 8, v) = preempt (activate s (psmCtx c + 8) v) c := by
  have hweight : arrayAt (psmCtx c + 8) 0x801004 0x40 64 = none := arrayAt_of_mod_ne 64 (by unfold psmCtx; omega)
  have hserving : arrayAt (psmCtx c + 8) 0x780104 0x40 4 = none := arrayAt_of_mod_ne 4 (by unfold psmCtx; omega)
  have hplace : arrayAt (psmCtx c + 8) 0x801008 0x40 64 = some c.val := by
    have hoff : psmCtx c + 8 = 0x801008 + c * 0x40 := by unfold psmCtx; omega
    rw [hoff, arrayAt_member c.isLt (by decide)]
  have hwm : ¬(psmCtx c + 8 = 0x700010 ∨ psmCtx c + 8 = 0x700014) := by unfold psmCtx; omega
  have hdispatch : ¬(psmCtx c + 8 < 0x302000) := by unfold psmCtx; omega
  simp only [copyShadow, Bool.or_eq_true, decide_eq_true_eq, hwm, if_false, hweight, hserving, hplace, hdispatch,
    hrun, hclear, Option.isSome_none, Bool.false_eq_true, Bool.not_false, Bool.and_self, decide_false, Bool.and_false,
    if_true]

theorem policy_activate_same (s : State) (off v : Nat) : policy (activate s off v) off = v := by
  simp [policy, activate]

theorem policy_activate_ne (s : State) {off o : Nat} (v : Nat) (h : o ≠ off) :
    policy (activate s off v) o = policy s o := by
  simp [policy, activate, tget?_tput_ne _ _ h]

theorem policy_rejectShadow (s : State) (unit status bit off v o : Nat) :
    policy (rejectShadow s unit status bit off v) o = policy s o :=
  policy_congr (congrArg Mgc.active (record_mgc _ _ _ _ _ _ _)) o

/-- POLICY_REJECT stays visible where the status register lies outside SAF's slice. -/
theorem regBit_rejectShadow (s : State) (unit : Nat) {status bit : Nat} (off v : Nat) (hstatus : status < 0xA00000)
    (hbit : bit ≤ 31) : regBit (rejectShadow s unit status bit off v) status bit = true := by
  rw [rejectShadow, regBit, reg_record_outside_saf _ _ _ _ _ _ _ hstatus]
  exact regBit_setRegBit_same s status bit true hbit

theorem copyShadows_weight {s : State} {b : Nat} {c : Fin 64} {x : Shadow} (hholds : s.mgc.holds = [])
    (hhold : s.mgc.holdNow = false) (hoffers : s.mgc.offers = [x]) (hoff : x.off = psmCtx c + 4)
    (hdue : x.stamp < b) :
    (x.v % 65536 ≠ 0 → policy (copyShadows s b) (psmCtx c + 4) = x.v ∧
      ∀ o, o ≠ psmCtx c + 4 → policy (copyShadows s b) o = policy s o) ∧
    (x.v % 65536 = 0 → (∀ o, policy (copyShadows s b) o = policy s o) ∧
      regBit (copyShadows s b) 0x800000 31 = true) := by
  rw [copyShadows_of_one_due hholds hhold hoffers hdue (by rw [hoff, psmCtx]; omega) (by rw [hoff, psmCtx]; omega),
    hoff, copyShadow_weight]
  constructor
  · intro hv
    rw [if_neg hv]
    exact ⟨policy_activate_same _ _ _, fun o ho => policy_activate_ne _ _ ho⟩
  · intro hv
    rw [if_pos hv]
    exact ⟨fun o => policy_rejectShadow _ _ _ _ _ _ o, regBit_rejectShadow _ _ _ _ (by decide) (by decide)⟩

/-! ### The management tick -/

/-- The watchdog's count touches the count and the kicks alone (R591). -/
theorem countSpan_cases (s : State) : ∃ span kicked,
    countSpan s = { s with mgc := { s.mgc with span := span, kicked := kicked, kickedNext := false } } := by
  simp only [countSpan]
  split
  case isTrue => exact ⟨_, _, rfl⟩
  case isFalse =>
    cases s.mgc.span with
    | none => exact ⟨_, _, rfl⟩
    | some k => exact ⟨_, _, rfl⟩

theorem reg_countSpan (s : State) (o : Nat) : reg (countSpan s) o = reg s o := by
  obtain ⟨span, kicked, h⟩ := countSpan_cases s
  rw [h]
  rfl

theorem reg_setReg64_ne (s : State) {off o : Nat} (v : Nat) (hlow : o ≠ off) (hhigh : o ≠ off + 4) :
    reg (setReg64 s off v) o = reg s o := by
  rw [setReg64, reg_setReg_ne _ _ hhigh, reg_setReg_ne _ _ hlow]

/-- TICK_OVERRUN and its count, where the tick that ends has not been acknowledged (R590). -/
def noteOverrun (s : State) : State :=
  if s.mgc.ackSeen ≠ s.mgc.tick % 2 ^ 32 then addReg (setRegBit s 0x980004 28 true) 0x98003C 1 else s

theorem noteOverrun_mgc (s : State) : (noteOverrun s).mgc = s.mgc := by
  unfold noteOverrun
  split <;> rfl

theorem reg_noteOverrun_ne (s : State) {o : Nat} (hflag : o ≠ 0x980004) (hcount : o ≠ 0x98003C) :
    reg (noteOverrun s) o = reg s o := by
  unfold noteOverrun
  split
  · rw [reg_addReg_ne _ _ hcount, reg_setRegBit_ne _ _ _ hflag]
  · rfl

theorem fwState_noteOverrun (s : State) : fwState (noteOverrun s) = fwState s := by
  unfold noteOverrun
  split
  · rw [fwState, regFld, reg_addReg_ne _ _ (by decide)]
    exact regFld_setRegBit s 0x980004 0x980004 28 31 30 true (by decide) (by decide)
  · rfl

theorem noteOverrun_of_late {s : State} (h : s.mgc.ackSeen ≠ s.mgc.tick % 2 ^ 32) :
    regBit (noteOverrun s) 0x980004 28 = true ∧ reg (noteOverrun s) 0x98003C = satAdd 32 (reg s 0x98003C) 1 := by
  rw [noteOverrun, if_pos h]
  constructor
  · rw [regBit, reg_addReg_ne _ _ (by decide)]
    exact regBit_setRegBit_same s 0x980004 28 true (by decide)
  · rw [reg_addReg_same, reg_setRegBit_ne _ _ _ (by decide)]

/-- What a boundary leaves before the tick is raised: the overrun, the watchdog's count and MGC_TICK. -/
def beforeTick (s : State) (n : Nat) : State := setReg64 (countSpan (noteOverrun s)) 0x980030 n

theorem reg_beforeTick (s : State) (n : Nat) {o : Nat} (hlow : o ≠ 0x980030) (hhigh : o ≠ 0x980034) :
    reg (beforeTick s n) o = reg (noteOverrun s) o := by
  rw [beforeTick, reg_setReg64_ne _ _ hlow hhigh, reg_countSpan]

theorem beforeTick_active_cores (s : State) (n : Nat) :
    (beforeTick s n).mgc.active = s.mgc.active ∧ (beforeTick s n).mgc.cores = s.mgc.cores := by
  obtain ⟨span, kicked, h⟩ := countSpan_cases (noteOverrun s)
  rw [beforeTick, setReg64_mgc, h, noteOverrun_mgc]
  exact ⟨rfl, rfl⟩

/-- The tick interrupt of a core, by the mask of interrupts (R589). -/
def raiseTick (mask k : Nat) (c : MgcCore) : MgcCore := if bitAt mask k then { c with extPend := true } else c

theorem mgcTick_eq (s : State) (n : Nat) :
    mgcTick s n = { beforeTick s n with mgc := { (beforeTick s n).mgc with
      tick := n
      ackSeen := reg (beforeTick s n) 0x980038
      cores := if fwState (beforeTick s n) = 2 then
          tmap (raiseTick (reg (beforeTick s n) 0x980058)) (beforeTick s n).mgc.cores
        else (beforeTick s n).mgc.cores } } := by
  simp only [mgcTick, beforeTick, noteOverrun, decide_eq_true_eq]
  rfl

theorem mgcTick_cores (s : State) (n : Nat) :
    (mgcTick s n).mgc.cores =
      if fwState s = 2 then tmap (raiseTick (reg s 0x980058)) s.mgc.cores else s.mgc.cores := by
  have hfw : fwState (beforeTick s n) = fwState s := by
    rw [fwState, regFld, reg_beforeTick s n (by decide) (by decide)]
    exact fwState_noteOverrun s
  have hmask : reg (beforeTick s n) 0x980058 = reg s 0x980058 := by
    rw [reg_beforeTick s n (by decide) (by decide), reg_noteOverrun_ne s (by decide) (by decide)]
  simp only [mgcTick_eq, hfw, hmask, (beforeTick_active_cores s n).2]

theorem extPend_mgcTick {s : State} (n : Nat) {k : Nat} {c : MgcCore} (hfw : fwState s = 2)
    (hcore : tget? s.mgc.cores k = some c) (hmask : bitAt (reg s 0x980058) k = true) :
    (tget {} (mgcTick s n).mgc.cores k).extPend = true := by
  simp [mgcTick_cores, hfw, tget, hcore, raiseTick, hmask]

theorem mgcTick_of_late {s : State} (n : Nat) (hlate : s.mgc.ackSeen ≠ s.mgc.tick % 2 ^ 32) :
    regBit (mgcTick s n) 0x980004 28 = true ∧ reg (mgcTick s n) 0x98003C = satAdd 32 (reg s 0x98003C) 1 := by
  obtain ⟨hflag, hcount⟩ := noteOverrun_of_late hlate
  have hreg (o : Nat) : reg (mgcTick s n) o = reg (beforeTick s n) o := by rw [mgcTick_eq]; rfl
  constructor
  · rw [regBit, hreg, reg_beforeTick s n (by decide) (by decide)]
    exact hflag
  · rw [hreg, reg_beforeTick s n (by decide) (by decide), hcount]

theorem mgcTick_raises_tick (s : State) (n : Nat) :
    (mgcTick s n).mgc.tick = n ∧ (mgcTick s n).mgc.active = s.mgc.active ∧
    (∀ k c, fwState s = 2 → tget? s.mgc.cores k = some c → bitAt (reg s 0x980058) k = true →
      (tget {} (mgcTick s n).mgc.cores k).extPend = true) ∧
    (fwState s ≠ 2 → (mgcTick s n).mgc.cores = s.mgc.cores) ∧
    (s.mgc.ackSeen ≠ s.mgc.tick % 2 ^ 32 →
      regBit (mgcTick s n) 0x980004 28 = true ∧ reg (mgcTick s n) 0x98003C = satAdd 32 (reg s 0x98003C) 1) := by
  refine ⟨?_, ?_, fun k c hfw hcore hmask => extPend_mgcTick n hfw hcore hmask, fun hfw => ?_,
    fun hlate => mgcTick_of_late n hlate⟩
  · rw [mgcTick_eq]
  · rw [mgcTick_eq]
    exact (beforeTick_active_cores s n).1
  · rw [mgcTick_cores, if_neg hfw]

/-- Settles O44: shadow writes, HOLD, the copy case by case, the tick, and the boundary as a whole. -/
theorem policyValues : Obligations.PolicyValues := by
  unfold Obligations.PolicyValues
  refine ⟨fun s off k w hk => exec_policyShadowWrite_of_mask s w hk, fun s off w hk => ?_,
    fun s b => exec_hold_offers s b, fun s b hholds hhold => copyShadows_of_hold hholds hhold b,
    fun s b hholds hhold hoffers => ?_,
    fun s b c x hholds hhold hoffers hoff hdue => copyShadows_weight hholds hhold hoffers hoff hdue,
    fun s b x hholds hhold hoffers hlater => ?_,
    fun s c v hclear hrun => copyShadow_run_cleared hclear hrun, mgcTick_raises_tick, fun s lat => rfl⟩
  · rw [exec_policyShadowWrite, writeShadow_of_no_mask s hk]
  · exact copyShadows_of_none_due hholds hhold (by simp [hoffers])
  · exact copyShadows_of_none_due hholds hhold (by simpa [hoffers] using hlater)

end Sys2Proof.Machine
end

section
/-! Every command keeps the queue that it finds and the canonical form of the memories, and so does every step. -/

namespace Sys2Proof.Machine

open Sys2Proof

/-- Whatever the command, its effect keeps the waiting commands and the canonical memories. -/
theorem exec_kept {s0 s : State} (h : Kept s0 s) (c : Instr) : KOut s0 (exec c s) := by
  cases c with
  | porstN => exact execPorstN_kept h
  | cellarRstN => exact execCellarRstN_kept h
  | coreRstNAssert => exact execCoreRstNAssert_kept h
  | coreRstNRelease => exact execCoreRstNRelease_kept h
  | cellarResetRelease => exact execCellarResetRelease_kept h
  | trstN => exact execTrstN_kept h
  | cellarBistDone repairs bad => exact execCellarBistDone_kept repairs bad h
  | katDone ok => exact execKatDone_kept ok h
  | coreBistDone f bad => exact execCoreBistDone_kept f bad h
  | fieldTrainingStart f => exact execFieldTrainingStart_kept f h
  | fieldTrainingEnd f clkOk down up left wordErr => exact execFieldTrainingEnd_kept f clkOk down up left wordErr h
  | fieldLinkTrainingEnd n lanes => exact execFieldLinkTrainingEnd_kept n lanes h
  | fldClkStateChange f st edges => exact execFldClkStateChange_kept f st edges h
  | fldOffReqRise f => exact execFldOffReqRise_kept f h
  | fldOffAck f => exact execFldOffAck_kept f h
  | fldOffReqFall f => exact execFldOffReqFall_kept f h
  | gateIdleExpiry core => exact execGateIdleExpiry_kept core h
  | gateAckFall core => exact execGateAckFall_kept core h
  | cclkFreqCheck mhz => exact execCclkFreqCheck_kept mhz h
  | gtbFrame bits spaced => exact execGtbFrame_kept bits spaced h
  | refLoss => exact execRefLoss_kept h
  | gtbLocked => exact execGtbLocked_kept h
  | holdExpired => exact execHoldExpired_kept h
  | slewEnd => exact execSlewEnd_kept h
  | gtbTimeWord => exact execGtbTimeWord_kept h
  | sqnDb c r v mem => exact execSqnDb_kept c r v mem h
  | cqDb c v => exact execCqDb_kept c v h
  | eqDb c v => exact execEqDb_kept c v h
  | irqRearmClear c => exact execIrqRearmClear_kept c h
  | irqRearmSet c => exact execIrqRearmSet_kept c h
  | doorbellBadAccess c => exact execDoorbellBadAccess_kept c h
  | descriptorFetch => exact execDescriptorFetch_kept h
  | descriptorReceived => exact execDescriptorReceived_kept h
  | ringFetchError => exact execRingFetchError_kept h
  | cauCheck => exact execCauCheck_kept h
  | completionEntryWrite => exact execCompletionEntryWrite_kept h
  | holdoffEnd c => exact execHoldoffEnd_kept c h
  | nop => exact execNop_kept h
  | graphLoad readErr => exact execGraphLoad_kept readErr h
  | graphLoadInstall err lost => exact execGraphLoadInstall_kept err lost h
  | graphLaunch => exact execGraphLaunch_kept h
  | launchBegin => exact execLaunchBegin_kept h
  | stepStart => exact execStepStart_kept h
  | sweepRow => exact execSweepRow_kept h
  | graphAbort => exact execGraphAbort_kept h
  | graphUnload => exact execGraphUnload_kept h
  | unloadZeroingDone => exact execUnloadZeroingDone_kept h
  | imageLoad => exact execImageLoad_kept h
  | imageLoadDone c img err lost => exact execImageLoadDone_kept c img err lost h
  | syncSignal => exact execSyncSignal_kept h
  | syncSignalTo => exact execSyncSignalTo_kept h
  | syncWait => exact execSyncWait_kept h
  | syncDecrement => exact execSyncDecrement_kept h
  | syncDump => exact execSyncDump_kept h
  | syncDumpDone => exact execSyncDumpDone_kept h
  | syncForce => exact execSyncForce_kept h
  | chanDecant => exact execChanDecant_kept h
  | serveOpen readErr => exact execServeOpen_kept readErr h
  | serveClose => exact execServeClose_kept h
  | parcelDefine => exact execParcelDefine_kept h
  | parcelBind => exact execParcelBind_kept h
  | parcelDissolve => exact execParcelDissolve_kept h
  | parcelInstall => exact execParcelInstall_kept h
  | shareSet => exact execShareSet_kept h
  | ctxSave => exact execCtxSave_kept h
  | ctxRestore => exact execCtxRestore_kept h
  | modelSwitch => exact execModelSwitch_kept h
  | fwLoad => exact execFwLoad_kept h
  | fwLoadDone err lost => exact execFwLoadDone_kept err lost h
  | calWrite => exact execCalWrite_kept h
  | keyLoad => exact execKeyLoad_kept h
  | keyRetire => exact execKeyRetire_kept h
  | traceStart => exact execTraceStart_kept h
  | traceFilter => exact execTraceFilter_kept h
  | traceFlush => exact execTraceFlush_kept h
  | traceStop => exact execTraceStop_kept h
  | dbgWrite => exact execDbgWrite_kept h
  | dispatchSelect =>
    have hkept : KOut s0 (execDispatchSelect s) := execDispatchSelect_kept h
    exact hkept
  | dispatchRecord f => exact execDispatchRecord_kept f h
  | withdraw f => exact execWithdraw_kept f h
  | endValid core engine slot code mem lost => exact execEndValid_kept core engine slot code mem lost h
  | effValid core slot data => exact execEffValid_kept core slot data h
  | effectRecord f full => exact execEffectRecord_kept f full h
  | completeRecord f => exact execCompleteRecord_kept f h
  | commit lost => exact execCommit_kept lost h
  | killOrder f => exact execKillOrder_kept f h
  | killTimeout => exact execKillTimeout_kept h
  | watchdog => exact execWatchdog_kept h
  | teardownEnd => exact execTeardownEnd_kept h
  | decrementApply bank => exact execDecrementApply_kept bank h
  | tmrInsert => exact execTmrInsert_kept h
  | tmrRelease => exact execTmrRelease_kept h
  | gateEvaluate stErr lossErr => exact execGateEvaluate_kept stErr lossErr h
  | gateRecordWrite walkErr => exact execGateRecordWrite_kept walkErr h
  | syncWaitEffect => exact execSyncWaitEffect_kept h
  | objectMaterialise readOk => exact execObjectMaterialise_kept readOk h
  | wakeBeat f => exact execWakeBeat_kept f h
  | grantAck => exact execGrantAck_kept h
  | chipArrive p chip xb sense => exact execChipArrive_kept p chip xb sense h
  | xbRelease p chip xb sense t => exact execXbRelease_kept p chip xb sense t h
  | barrierReleaseInstant => exact execBarrierReleaseInstant_kept h
  | sendCreditGrant => exact execSendCreditGrant_kept h
  | recordAssign => exact execRecordAssign_kept h
  | msg p chip key epoch item => exact execMsg_kept p chip key epoch item h
  | epochNotice p chip key epoch isOpen => exact execEpochNotice_kept p chip key epoch isOpen h
  | remoteCredit p chip key units queue => exact execRemoteCredit_kept p chip key units queue h
  | blend p chip key slot item => exact execBlend_kept p chip key slot item h
  | chain p chip key item => exact execChain_kept p chip key item h
  | contributionIntake lost => exact execContributionIntake_kept lost h
  | treeAdd => exact execTreeAdd_kept h
  | flitSend p => exact execFlitSend_kept p h
  | linkUpFall p => exact execLinkUpFall_kept p h
  | linkUpRise p => exact execLinkUpRise_kept p h
  | translationRequest f bits walkErr full => exact execTranslationRequest_kept f bits walkErr full h
  | frameWaitGrant => exact execFrameWaitGrant_kept h
  | deferredRelease => exact execDeferredRelease_kept h
  | frameZeroed st => exact execFrameZeroed_kept st h
  | streamFillDone readOk => exact execStreamFillDone_kept readOk h
  | unitWrite => exact execUnitWrite_kept h
  | kvOperationDone v => exact execKvOperationDone_kept v h
  | assembly v => exact execAssembly_kept v h
  | servePoll v => exact execServePoll_kept v h
  | policyTickBoundary lat => exact execPolicyTickBoundary_kept lat h
  | wdogExpired => exact execWdogExpired_kept h
  | halt => exact execHalt_kept h
  | mgcWdogKick => exact execMgcWdogKick_kept h
  | mgcTickAck core w => exact execMgcTickAck_kept core w h
  | noticeGo core c => exact execNoticeGo_kept core c h
  | hold b => exact execHold_kept b h
  | policyShadowWrite off w => exact execPolicyShadowWrite_kept off w h
  | errorRecord => exact execErrorRecord_kept h
  | comparatorTest path ok diff => exact execComparatorTest_kept path ok diff h
  | scrub storage index finding found => exact execScrub_kept storage index finding found h
  | recoveryRebuild => exact execRecoveryRebuild_kept h
  | recoveryReentry => exact execRecoveryReentry_kept h
  | queuePtrMismatch off => exact execQueuePtrMismatch_kept off h
  | decant off w => exact execDecant_kept off w h
  | icacheFill u => exact execIcacheFill_kept u h
  | rexNop u exe => exact execRexNop_kept u exe h
  | rexEnd u exe => exact execRexEnd_kept u exe h
  | loop u exe => exact execLoop_kept u exe h
  | qbar u exe => exact execQbar_kept u exe h
  | ld u => exact execLd_kept u h
  | st u => exact execSt_kept u h
  | ldq u => exact execLdq_kept u h
  | stq u => exact execStq_kept u h
  | dig u => exact execDig_kept u h
  | accld u => exact execAccld_kept u h
  | accst u => exact execAccst_kept u h
  | accadd u => exact execAccadd_kept u h
  | send u => exact execSend_kept u h
  | blendInstr u => exact execBlendInstr_kept u h
  | sig u => exact execSig_kept u h
  | add u => exact execAdd_kept u h
  | sub u => exact execSub_kept u h
  | mul u => exact execMul_kept u h
  | fma u => exact execFma_kept u h
  | min u => exact execMin_kept u h
  | max u => exact execMax_kept u h
  | abs u => exact execAbs_kept u h
  | neg u => exact execNeg_kept u h
  | rcp u => exact execRcp_kept u h
  | rsq u => exact execRsq_kept u h
  | sqrt u => exact execSqrt_kept u h
  | mov u => exact execMov_kept u h
  | cvt u => exact execCvt_kept u h
  | swu u => exact execSwu_kept u h
  | red u => exact execRed_kept u h
  | scan u => exact execScan_kept u h
  | sscan u => exact execSscan_kept u h
  | accw u => exact execAccw_kept u h
  | accz u => exact execAccz_kept u h
  | accsum u => exact execAccsum_kept u h
  | epStart w => exact execEpStart_kept w h
  | epDone => exact execEpDone_kept h
  | offline u w => exact execOffline_kept u w h
  | rexTileData write => exact execRexTileData_kept write h
  | traceIncrement src e states act lost => exact execTraceIncrement_kept src e states act lost h
  | fullStamp m => exact execFullStamp_kept m h
  | traceRecordWrite m => exact execTraceRecordWrite_kept m h
  | clear => exact execClear_kept h
  | freeze b => exact execFreeze_kept b h
  | prbsStart w => exact execPrbsStart_kept w h
  | prbsStop w errs => exact execPrbsStop_kept w errs h
  | prbsInject w => exact execPrbsInject_kept w h
  | prbsDurEnd sel errs => exact execPrbsDurEnd_kept sel errs h
  | wrapperInstruction part ins code => exact execWrapperInstruction_kept part ins code h
  | instrumentWrite inst off w => exact execInstrumentWrite_kept inst off w h
  | hifCtxEnable c w => exact execHifCtxEnable_kept c w h
  | ringEn c r w => exact execRingEn_kept c r w h
  | resetCounts c r w => exact execResetCounts_kept c r w h
  | resetCountsEffect c r => exact execResetCountsEffect_kept c r h
  | fetchEn b => exact execFetchEn_kept b h
  | setupDone b => exact execSetupDone_kept b h
  | gtbCtlEnable w => exact execGtbCtlEnable_kept w h
  | synRelease c w => exact execSynRelease_kept c w h
  | patRelease c => exact execPatRelease_kept c h
  | rexIregWrite c hi w => exact execRexIregWrite_kept c hi w h
  | imbEnWrite c w => exact execImbEnWrite_kept c w h
  | lnkCtxResWrite c w => exact execLnkCtxResWrite_kept c w h
  | synDiagSelWrite w => exact execSynDiagSelWrite_kept w h
  | synDiagDataRead => exact execSynDiagDataRead_kept h
  | safRecSelWrite w => exact execSafRecSelWrite_kept w h
  | safRecDataRead => exact execSafRecDataRead_kept h
  | gtbNowLoRead => exact execGtbNowLoRead_kept h
  | psmCtxEng0LoRead c => exact execPsmCtxEng0LoRead_kept c h
  | counterCaptureRead off => exact execCounterCaptureRead_kept off h
  | registerWrite off w fw => exact execRegisterWrite_kept off w fw h
  | badAccess off size => exact execBadAccess_kept off size h
  | gtbRefEdge incr phaseOk => exact execGtbRefEdge_kept incr phaseOk h
  | spadReady u b => exact execSpadReady_kept u b h
  | gateAckRise core => exact execGateAckRise_kept core h
  | prbsLaneLock sel lane => exact execPrbsLaneLock_kept sel lane h
  | machineTimerInterrupt core cmp reached => exact execMachineTimerInterrupt_kept core cmp reached h
  | reservedKindFlit p => exact execReservedKindFlit_kept p h

/-- A step takes the front of the queue and adds nothing to it, and it keeps the memories canonical. -/
theorem step_pending_memOk {s t : State} (h : step s = .next t) :
    t.pending = s.pending.tail ∧ (MemOk s → MemOk t) := by
  cases hqueue : s.pending with
  | nil =>
    rw [step, hqueue] at h
    have hkept : Kept s t := KOut.next (elapse_kept 1 Kept.rfl) t h
    exact ⟨hkept.pending.trans hqueue, hkept.mem⟩
  | cons c rest =>
    rw [step, hqueue] at h
    have hkept : Kept { s with pending := rest } t := exec_kept Kept.rfl c t h
    exact ⟨hkept.pending, hkept.mem⟩

/-- Settles O4: a step keeps the memories canonical, and leaves of the queue only commands that were in it. -/
theorem stepKeepsTheInvariant : Obligations.StepKeepsTheInvariant := by
  unfold Obligations.StepKeepsTheInvariant
  intro s t ⟨hmem, hqueue⟩ hstep
  obtain ⟨hpending, hkeep⟩ := step_pending_memOk hstep
  refine ⟨hkeep hmem, fun c hc => hqueue c ?_⟩
  rw [hpending] at hc
  exact List.mem_of_mem_tail hc

end Sys2Proof.Machine
end

section
/-! The resets (R80, R668, R669): what they leave of the state, and what the release of the core side begins. -/

namespace Sys2Proof.Machine

open Sys2Proof

/-- After a reset without a write every register reads its reset value. -/
theorem reg_of_regs_empty {s : State} (h : s.regs = []) (o : Nat) : reg s o = resetOf o := by
  simp only [reg, h, tget?]

theorem exec_porstN (s : State) : exec .porstN s = .next (cellarClear s []) := rfl

theorem exec_cellarRstN (s : State) : exec .cellarRstN s = .next (cellarClear s s.tst.wraps) := rfl

/-- During CELLAR_RST_N and PORST_N the fault output is low (R76). -/
theorem safFaultN_cellarClear (s : State) (wraps : Table Nat) : safFaultN (cellarClear s wraps) = false := rfl

/-- Out of reset and outside the safe state the fault output is high (R50, R76). -/
theorem safFaultN_of_up {s : State} (hsafe : s.saf.safe = false) (hcel : s.tst.celLow = false) :
    safFaultN s = true := by
  rw [safFaultN, hsafe, hcel]
  rfl

theorem exec_cellar_reset {s : State} {c : Instr} (hc : c = .porstN ∨ c = .cellarRstN) :
    exec c s = .next (cellarClear s (if c = .porstN then [] else s.tst.wraps)) := by
  obtain rfl | rfl := hc
  · exact exec_porstN s
  · exact exec_cellarRstN s

/-! ### The release of the core side -/

theorem freeFrame_eq_pat_mem (s : State) (k : Nat) :
    freeFrame s k = { s with pat := (freeFrame s k).pat, mem := (freeFrame s k).mem } := by
  unfold freeFrame
  split <;> rfl

/-- Frames that return are free and zero, and nothing else changes (R454, R457). -/
theorem foldl_freeFrame_eq_pat_mem (l : List Nat) (s : State) :
    ∃ pat mem, l.foldl freeFrame s = { s with pat := pat, mem := mem } := by
  induction l generalizing s with
  | nil => exact ⟨s.pat, s.mem, rfl⟩
  | cons k l ih =>
    obtain ⟨pat, mem, h⟩ := ih (freeFrame s k)
    refine ⟨pat, mem, ?_⟩
    rw [List.foldl_cons, h, freeFrame_eq_pat_mem]

/-- The core side leaves reset: its frames are back and every field's march begins (R48, R671). -/
theorem coreRelease_eq (s : State) : ∃ pat mem, coreRelease s =
    { s with
      pat := pat, mem := mem
      disp := { s.disp with quarantine := [], resetFrames := [], coreRst := false }
      tst := { s.tst with coreMarch := List.range Config.numFields } } := by
  obtain ⟨pat, mem, h⟩ := foldl_freeFrame_eq_pat_mem (s.disp.quarantine ++ s.disp.resetFrames) s
  refine ⟨pat, mem, ?_⟩
  rw [coreRelease, h]

theorem exec_coreRstNAssert_of_running {s : State} (hrun : s.disp.coreRst = false) :
    exec .coreRstNAssert s = .next (coreAssert { s with tst := { s.tst with coreLow := true } }) := by
  change execCoreRstNAssert s = _
  rw [execCoreRstNAssert, hrun, if_neg Bool.false_ne_true]

theorem exec_coreRstNRelease_of_cellar_up {s : State} (hcel : s.tst.celLow = false) (hcore : s.tst.coreLow = true) :
    exec .coreRstNRelease s = .next (coreRelease { s with tst := { s.tst with coreLow := false } }) := by
  change execCoreRstNRelease s = _
  simp [execCoreRstNRelease, hcel, hcore]

theorem exec_coreRstNRelease_of_cellar_low {s : State} (hcel : s.tst.celLow = true) :
    exec .coreRstNRelease s = .next { s with tst := { s.tst with coreLow := false } } := by
  change execCoreRstNRelease s = _
  simp [execCoreRstNRelease, hcel]

/-- The cellar out of reset, its march begun. -/
def cellarReleased (s : State) : State := { s with tst := { s.tst with celLow := false, celMarch := true } }

theorem exec_cellarResetRelease_of_low {s : State} (hcel : s.tst.celLow = true) :
    exec .cellarResetRelease s =
      .next (if s.tst.coreLow then cellarReleased s else coreRelease (cellarReleased s)) := by
  change execCellarResetRelease s = _
  simp [execCellarResetRelease, hcel, cellarReleased]

theorem cellarResetRelease_leaves {s : State} (hcel : s.tst.celLow = true) :
    ∃ t, exec .cellarResetRelease s = .next t ∧ t.tst.celLow = false ∧ t.tst.celMarch = true ∧
      (s.saf.safe = false → safFaultN t = true) ∧
      (s.tst.coreLow = false → t.disp.coreRst = false ∧ t.tst.coreMarch = List.range Config.numFields) ∧
      (s.tst.coreLow = true → t.disp = s.disp) := by
  have hexec := exec_cellarResetRelease_of_low hcel
  cases hcore : s.tst.coreLow with
  | true =>
    rw [hcore, if_pos rfl] at hexec
    exact ⟨_, hexec, rfl, rfl, fun hsafe => safFaultN_of_up hsafe rfl, nofun, fun _ => rfl⟩
  | false =>
    obtain ⟨pat, mem, hrelease⟩ := coreRelease_eq (cellarReleased s)
    rw [hcore, if_neg Bool.false_ne_true, hrelease] at hexec
    exact ⟨_, hexec, rfl, rfl, fun hsafe => safFaultN_of_up hsafe rfl, fun _ => ⟨rfl, rfl⟩, nofun⟩

/-- Settles O8: the cellar's resets, CORE_RST_N and its release, the cellar's release, and TRST_N. -/
theorem resetCommands : Obligations.ResetCommands := by
  unfold Obligations.ResetCommands
  refine ⟨fun s c hc => ?_, fun s hrun => exec_coreRstNAssert_of_running hrun, fun s hcel hcore => ?_,
    fun s hcel _ => ⟨_, exec_coreRstNRelease_of_cellar_low hcel, rfl⟩,
    fun s hcel => cellarResetRelease_leaves hcel, fun s => rfl⟩
  · exact ⟨_, exec_cellar_reset hc, reg_of_regs_empty rfl, rfl, rfl, rfl, rfl, rfl, rfl, rfl, rfl, rfl, rfl, rfl,
      rfl, rfl, rfl, rfl, rfl, safFaultN_cellarClear s _, rfl, rfl, rfl, rfl⟩
  · obtain ⟨pat, mem, hrelease⟩ := coreRelease_eq { s with tst := { s.tst with coreLow := false } }
    exact ⟨_, exec_coreRstNRelease_of_cellar_up hcel hcore, by rw [hrelease], by rw [hrelease], by rw [hrelease],
      by rw [hrelease]⟩

/-! ### The reset state -/

/-- HIF_IRQ_CFG of every context resets to MASK 1 alone (R157). -/
theorem resetOf_hifIrqCfg : ∀ c : Fin 64, resetOf (hifBase c + 0x44) = 0x80000000 := by decide

/-- HIF_CTX_CFG of every context resets to 0, ENABLE with it (R157). -/
theorem resetOf_hifCtxCfg : ∀ c : Fin 64, resetOf (hifBase c) = 0 := by decide

theorem hif_context_at_reset (c : Fin 64) :
    regBit State.reset (hifBase c + 0x44) 31 = true ∧ ctxEnabled State.reset c = false ∧
      ctxIdle State.reset c = true := by
  refine ⟨?_, ?_, rfl⟩
  · rw [regBit, reg_of_regs_empty rfl, resetOf_hifIrqCfg]
    rfl
  · rw [ctxEnabled, regBit, reg_of_regs_empty rfl, resetOf_hifCtxCfg]
    rfl

/-- Settles O7: the fixed words and fields of GLB and GTB, HIF context by context, then the tables, which start
empty by the definition of the reset state. -/
theorem resetState : Obligations.ResetState := by
  unfold Obligations.ResetState
  refine ⟨?_, ?_, ?_, ?_, ?_, ?_, ?_, rfl, hif_context_at_reset, rfl, rfl, rfl, rfl, rfl, rfl, rfl, rfl, rfl, rfl,
    rfl, rfl, rfl, rfl, rfl, rfl⟩
  all_goals decide

end Sys2Proof.Machine
end

section
/-! Field clocks, power and core gating (R20, R55, R60-R62, R240, R241), and what the passing of time touches. -/

namespace Sys2Proof.Machine

open Sys2Proof

/-! ### The passing of time -/

/-- `t` differs from `s` at most in registers, group time, the field clocks and the test block. -/
def TimeFrame (s t : State) : Prop := t = { s with regs := t.regs, gtb := t.gtb, clk := t.clk, tst := t.tst }

theorem TimeFrame.refl (s : State) : TimeFrame s s := rfl

theorem TimeFrame.trans {s t u : State} (hst : TimeFrame s t) (htu : TimeFrame t u) : TimeFrame s u := by
  unfold TimeFrame at *
  rw [hst] at htu
  exact htu

theorem TimeFrame.ite {s t u : State} {c : Prop} [Decidable c] (ht : TimeFrame s t) (hu : TimeFrame s u) :
    TimeFrame s (if c then t else u) := by
  split <;> assumption

theorem TimeFrame.tge {s t : State} (h : TimeFrame s t) : t.tge = s.tge := by
  rw [TimeFrame] at h
  rw [h]

theorem TimeFrame.mem {s t : State} (h : TimeFrame s t) : t.mem = s.mem := by
  rw [TimeFrame] at h
  rw [h]

theorem timeFrame_setReg (s : State) (off v : Nat) : TimeFrame s (setReg s off v) := rfl

theorem timeFrame_crossTick (s : State) (e : Nat) : TimeFrame s (crossTick s e) := rfl

theorem timeFrame_prbsElapse (n : Nat) (s : State) : TimeFrame s (prbsElapse n s) := rfl

theorem timeFrame_setGtb (s : State) (g : Gtb) : TimeFrame s { s with gtb := g } := rfl

theorem timeFrame_addLost (n : Nat) (fs : List Nat) (s : State) : TimeFrame s (addLost n fs s) := by
  induction fs generalizing s with
  | nil => exact .refl s
  | cons f fs ih => exact (TimeFrame.ite (.refl s) (timeFrame_setReg s _ _)).trans (ih _)

/-- What CCLKs that pass can touch (R92, R97, R101, R108, R677). -/
theorem timeFrame_elapse (n : Nat) (s : State) : TimeFrame s (elapse n s) := by
  unfold elapse
  extract_lets slewing gone dt b atTick _ later slewed _ _ held
  have hTick : TimeFrame s atTick := .ite (timeFrame_crossTick s _) (.refl s)
  have hLater : TimeFrame s later := hTick.trans (timeFrame_setGtb _ _)
  have hSlewed : TimeFrame s slewed := .ite (hLater.trans (timeFrame_setReg _ _ _)) hLater
  have hHeld : TimeFrame s held :=
    .ite ((hSlewed.trans (timeFrame_setGtb _ _)).trans (timeFrame_setReg _ _ _)) hSlewed
  exact (hHeld.trans (timeFrame_prbsElapse n _)).trans (timeFrame_addLost n _ _)

theorem timeFrame_advanceTo (t : Nat) (s : State) : TimeFrame s (advanceTo t s) :=
  .ite (.refl s) (timeFrame_elapse _ s)

/-! ### A field's clock -/

/-- Delivering translation responses touches the field's GRANT queue and the port alone (R17). -/
theorem deliverDown_frame (s : State) (f : Nat) :
    deliverDown s f = { s with disp := (deliverDown s f).disp, pat := (deliverDown s f).pat } := by
  unfold deliverDown
  extract_lets q words
  split <;> rfl

/-- A field's clock as it leaves full rate for state `st` at time `now`: one stretch more, and the time at the change
held until the next time word (R60, R106, R108; log entry 39). -/
def FieldClk.leaveFullRate (k : FieldClk) (now st edges : Nat) : FieldClk :=
  { k with
    clk := st, edges := edges, stretches := k.stretches + 1, word := max k.word now
    tickStr := k.tickStr || decide (st = 1), tickStop := k.tickStop || decide (2 ≤ st) }

theorem exec_fldClkStateChange_of_leaves {s : State} {f : Fin 8} {st : Fin 4} (edges : Fin 3)
    (hfull : (tget {} s.clk f).clk = 0) (hst : st.val ≠ 0) :
    exec (.fldClkStateChange f st edges) s = .next (deliverDown (setRegBit
      { s with clk := tput s.clk f ((tget {} s.clk f).leaveFullRate s.gtb.now st edges) }
      (0x900120 + 4 * f) 2 true) f) := by
  change execFldClkStateChange f st edges s = _
  simp [execFldClkStateChange, hfull, hst, FieldClk.leaveFullRate]

theorem fldClkStateChange_leaves {s : State} {f : Fin 8} {st : Fin 4} (edges : Fin 3)
    (hfull : (tget {} s.clk f).clk = 0) (hst : st.val ≠ 0) :
    ∃ t, exec (.fldClkStateChange f st edges) s = .next t ∧ (tget {} t.clk f).clk = st.val ∧
      (tget {} t.clk f).stretches = (tget {} s.clk f).stretches + 1 ∧
      (tget {} t.clk f).word = max (tget {} s.clk f).word s.gtb.now ∧ regBit t (0x900120 + 4 * f) 2 = true := by
  refine ⟨_, exec_fldClkStateChange_of_leaves edges hfull hst, ?_⟩
  rw [deliverDown_frame]
  refine ⟨?_, ?_, ?_, regBit_setRegBit_same _ _ _ _ (by decide)⟩ <;>
    simp [FieldClk.leaveFullRate]

/-! ### Power -/

theorem fieldOf_untrain (s : State) (f : Nat) : fieldOf (untrain s f) f =
    if (fieldOf s f).train = 3 then fieldOf s f else (fieldOf s f).untrained :=
  fieldOf_setField_same s f _

/-- Stopping a training leaves the pins of the power-down handshake as they are. -/
theorem fieldOf_untrain_pins (s : State) (f : Nat) :
    (fieldOf (untrain s f) f).offReq = (fieldOf s f).offReq ∧
      (fieldOf (untrain s f) f).offAck = (fieldOf s f).offAck := by
  rw [fieldOf_untrain]
  split <;> exact ⟨rfl, rfl⟩

/-- The pins of a field that is asked to power down. -/
def offAsked (s : State) (f : Nat) : State := setField s f { fieldOf s f with offReq := true, offAck := false }

theorem fieldOf_offAsked (s : State) (f : Nat) :
    fieldOf (offAsked s f) f = { fieldOf s f with offReq := true, offAck := false } :=
  fieldOf_setField_same s f _

theorem exec_fldOffReqRise (s : State) (f : Fin 8) :
    exec (.fldOffReqRise f) s =
      .next (if (fieldOf (offAsked s f) f).train = 1 then untrain (offAsked s f) f else offAsked s f) := rfl

theorem fldOffReqRise_asks (s : State) (f : Fin 8) :
    ∃ t, exec (.fldOffReqRise f) s = .next t ∧ (fieldOf t f).offReq = true ∧ (fieldOf t f).offAck = false := by
  refine ⟨_, exec_fldOffReqRise s f, ?_⟩
  split
  case isTrue =>
    obtain ⟨hreq, hack⟩ := fieldOf_untrain_pins (offAsked s f) f
    rw [hreq, hack, fieldOf_offAsked]
    exact ⟨rfl, rfl⟩
  case isFalse =>
    rw [fieldOf_offAsked]
    exact ⟨rfl, rfl⟩

theorem exec_fldOffAck_of_empty {s : State} {f : Fin 8} (hreq : (fieldOf s f).offReq = true)
    (hempty : fieldEmpty s f = true) :
    exec (.fldOffAck f) s = .next (setField s f { fieldOf s f with offAck := true }) := by
  change execFldOffAck f s = _
  rw [execFldOffAck, hreq, hempty, Bool.and_self, if_pos rfl]

theorem exec_fldOffReqFall_of_asked {s : State} {f : Fin 8} (hreq : (fieldOf s f).offReq = true) :
    exec (.fldOffReqFall f) s = .next (if (fieldOf s f).offAck
      then endEmptied (fieldPowerUp (setField s f { fieldOf s f with offReq := false }) f)
      else setField s f { fieldOf s f with offReq := false }) := by
  change execFldOffReqFall f s = _
  simp only [execFldOffReqFall, hreq, Bool.not_true, Bool.false_eq_true, if_false]

theorem exec_cclkFreqCheck_of_departure {s : State} {mhz : Nat}
    (hdepart : mhz * 100 < 1250 * 99 ∨ 1250 * 101 < mhz * 100) :
    exec (.cclkFreqCheck mhz) s = .next (record s 3 0x13 0x22 none mhz 0) := by
  have hfar : cclkMhz < (if mhz < cclkMhz then cclkMhz - mhz else mhz - cclkMhz) * 100 := by
    unfold cclkMhz
    split <;> omega
  change execCclkFreqCheck mhz s = _
  simp only [execCclkFreqCheck, hfar, if_true]

theorem cclkFreqCheck_records {s : State} {mhz : Nat}
    (hdepart : mhz * 100 < 1250 * 99 ∨ 1250 * 101 < mhz * 100) (hroom : s.saf.recQ.length < 32) :
    ∃ t e, exec (.cclkFreqCheck mhz) s = .next t ∧ t.saf.recQ = s.saf.recQ ++ [e] ∧ e.sev = 3 ∧ e.unit = 0x13 ∧
      e.code = 0x22 := by
  rw [exec_cclkFreqCheck_of_departure hdepart, record_of_room hroom]
  exact ⟨_, _, rfl, rfl, rfl, rfl, rfl⟩

theorem exec_spadReady (s : State) (u : Fin 128) (b : Bool) :
    exec (.spadReady u b) s = .next (setUnit s u { unitOf s u with spad := b }) := rfl

theorem unitOf_setUnit_same (s : State) (u : Nat) (x : RexUnit) : unitOf (setUnit s u x) u = x := by
  simp [unitOf, setUnit]

theorem unitOf_setUnit_ne (s : State) {u v : Nat} (x : RexUnit) (h : v ≠ u) :
    unitOf (setUnit s u x) v = unitOf s v :=
  tget_tput_ne _ s.rex.units x h

theorem spadReady_sets_pin (s : State) (u : Fin 128) (b : Bool) :
    ∃ t, exec (.spadReady u b) s = .next t ∧ (unitOf t u).spad = b ∧ t = { s with rex := t.rex } ∧
      (∀ v, v ≠ u.val → unitOf t v = unitOf s v) :=
  ⟨_, exec_spadReady s u b, by rw [unitOf_setUnit_same], rfl, fun _ hv => unitOf_setUnit_ne s _ hv⟩

/-! ### Core gating -/

theorem coreOf_setCore_same (s : State) (n : Nat) (x : CoreSt) : coreOf (setCore s n x) n = x := by
  simp [coreOf, setCore]

@[simp] theorem runs_setCore (s : State) (n : Nat) (x : CoreSt) : (setCore s n x).disp.runs = s.disp.runs := rfl

theorem exec_gateIdleExpiry_of_idle {s : State} {n : Fin 4096} (hidle : regFld s 0x400000 15 0 ≠ 0)
    (hreq : (coreOf s n).gateReq = false) (hcore : coreIdle s n = true) :
    ∃ u, TimeFrame s u ∧
      exec (.gateIdleExpiry n) s = .next (setCore u n { coreOf u n with gateReq := true }) := by
  refine ⟨advanceTo ((coreOf s n).idleSince + regFld s 0x400000 15 0 * 2048) s, timeFrame_advanceTo _ s, ?_⟩
  change execGateIdleExpiry n s = _
  simp [execGateIdleExpiry, hidle, hreq, hcore]

theorem gateIdleExpiry_asks {s : State} {n : Fin 4096} (hidle : regFld s 0x400000 15 0 ≠ 0)
    (hreq : (coreOf s n).gateReq = false) (hcore : coreIdle s n = true) :
    ∃ t, exec (.gateIdleExpiry n) s = .next t ∧ (coreOf t n).gateReq = true ∧ t.tge = s.tge ∧ t.mem = s.mem := by
  obtain ⟨u, hframe, hexec⟩ := exec_gateIdleExpiry_of_idle hidle hreq hcore
  exact ⟨_, hexec, by rw [coreOf_setCore_same], hframe.tge, hframe.mem⟩

theorem exec_gateAckRise_of_asked {s : State} {n : Fin 4096} (hreq : (coreOf s n).gateReq = true) :
    exec (.gateAckRise n) s = .next (setCore s n { coreOf s n with gateAck := true }) := by
  change execGateAckRise n s = _
  simp only [execGateAckRise, hreq, if_true]

theorem exec_gateAckFall_of_running {s : State} {n : Fin 4096} (hreq : (coreOf s n).gateReq = false)
    (hsafe : s.saf.safe = false) :
    exec (.gateAckFall n) s = .next (settle
      (((s.disp.runs.filter fun e => e.2.kind != 3 && e.2.core == n.val && e.2.state == 2).map fun e => e.1).foldl
        beginRun (setCore s n { coreOf s n with gateAck := false }))) := by
  change execGateAckFall n s = _
  simp only [execGateAckFall, hreq, hsafe, Bool.false_eq_true, if_false, runs_setCore]

/-- Settles O10: clocks, power and pins clause by clause, then the gating of a core. -/
theorem clocksPowerAndGating : Obligations.ClocksPowerAndGating := by
  unfold Obligations.ClocksPowerAndGating
  refine ⟨⟨fun s f st e hfull hst => fldClkStateChange_leaves e hfull hst, fldOffReqRise_asks,
      fun s f hreq hempty => exec_fldOffAck_of_empty hreq hempty, fun s f hreq hack => ?_, fun s f hreq hack => ?_,
      fun s mhz hdepart hroom => cclkFreqCheck_records hdepart hroom, spadReady_sets_pin⟩,
    fun s n hidle hreq hcore => gateIdleExpiry_asks hidle hreq hcore,
    fun s n hreq => exec_gateAckRise_of_asked hreq, fun s n hreq hsafe => exec_gateAckFall_of_running hreq hsafe⟩
  · rw [exec_fldOffReqFall_of_asked hreq, hack, if_neg Bool.false_ne_true]
  · rw [exec_fldOffReqFall_of_asked hreq, hack, if_pos rfl]

end Sys2Proof.Machine
end

section
/-! Kill orders, the kill timeout and the watchdog (R20, R54, R243, R276-R280, R282, R286). -/

namespace Sys2Proof.Machine

open Sys2Proof

/-- What is past its commit point or already killed is not killed (R277, R280). -/
theorem killRun_of_final {s : State} {id : Nat} {x : Run} (hrun : runOf s id = some x)
    (hfinal : x.committed = true ∨ x.killed.isSome = true) (cause : Nat) : killRun s id cause = s := by
  simp [killRun, hrun, hfinal]

/-- With no translation response at the head of a GRANT queue nothing is delivered. -/
theorem deliverDown_of_no_resp {s : State} {f : Nat} (h : ∀ w, (fieldOf s f).grantQ.head? ≠ some (.resp w)) :
    deliverDown s f = s := by
  have hnone : (fieldOf s f).grantQ.takeWhile GrantItem.isResp = [] := by
    cases hq : (fieldOf s f).grantQ with
    | nil => rfl
    | cons i rest =>
      rw [hq] at h
      cases i with
      | resp w => exact absurd rfl (h w)
      | kill id => rfl
      | wake id w due => rfl
  simp [deliverDown, hnone]

theorem runOf_deliverDown (s : State) (f id : Nat) : runOf (deliverDown s f) id = runOf s id := by
  unfold deliverDown
  extract_lets q words
  split <;> rfl

theorem gtb_deliverDown (s : State) (f : Nat) : (deliverDown s f).gtb = s.gtb := by
  unfold deliverDown
  extract_lets q words
  split <;> rfl

/-! ### Kill orders -/

theorem exec_killOrder_of_stopped {s : State} {f : Fin 8} (hstop : fieldStopped s f = true) :
    exec (.killOrder f) s = .next s := by
  change execKillOrder f s = _
  simp only [execKillOrder, hstop, if_true]

theorem countLimit_of_counted (s : State) (id : Nat) {x : Run} (hcounted : x.counted = true) (cause : Nat) :
    countLimit s id x cause = s := by
  simp [countLimit, hcounted]

section
variable {s : State} {f : Fin 8} {id : Nat} {x : Run} {rest : List GrantItem}
  (hq : (fieldOf s f).grantQ = .kill id :: rest) (hrun : runOf s id = some x) (hstate : x.state = 3)
  (hkind : x.kind ≠ 3) (hopen : fieldStopped s f = false)
include hq hrun hstate hkind hopen

/-- A kill order that reaches a running command raises its KILL, and its kill is counted with that (R277, R282). -/
theorem exec_killOrder_of_running :
    exec (.killOrder f) s = .next (settle (countLimit
      (modRun (deliverDown (setField s f { fieldOf s f with grantQ := rest }) f) id
        fun y => { y with killAt := some s.gtb.now }) id x (x.killed.getD 0))) := by
  change execKillOrder f s = _
  simp only [execKillOrder, hopen, hq, runOf_deliverDown, runOf_setField, hrun, hstate, hkind, gtb_deliverDown,
    setField_gtb, Bool.false_eq_true, if_false, if_true]

theorem killOrder_raises_kill (hcounted : x.counted = true) (hcalm : calm s)
    (hresp : ∀ w, rest.head? ≠ some (.resp w)) :
    ∃ t, exec (.killOrder f) s = .next t ∧ runOf t id = some { x with killAt := some s.gtb.now } ∧
      (fieldOf t f).grantQ = rest ∧ t = { s with disp := t.disp } := by
  have hdeliver : deliverDown (setField s f { fieldOf s f with grantQ := rest }) f =
      setField s f { fieldOf s f with grantQ := rest } :=
    deliverDown_of_no_resp (by simpa using hresp)
  have hrun' : runOf (setField s f { fieldOf s f with grantQ := rest }) id = some x := hrun
  refine ⟨setRun (setField s f { fieldOf s f with grantQ := rest }) id { x with killAt := some s.gtb.now },
    ?_, by simp, by simp, rfl⟩
  rw [exec_killOrder_of_running hq hrun hstate hkind hopen, hdeliver, modRun_eq_setRun hrun',
    countLimit_of_counted _ _ hcounted, settle_of_calm]
  exact hcalm

end

/-! ### The kill timeout and the watchdog -/

theorem exec_killTimeout_of_core {s : State} {id u : Nat} {x : Run} (hold : oldestKill s = some (id, x, u))
    (hkind : x.kind ≠ 3) :
    exec .killTimeout s = .next (settle (finishKill (failCore (record (setRegBit
      (closeRun (advanceTo (u + 4096 * 2048) s) id (x.killed.getD 0) true) 0x400004 2 true)
      1 0x07 0x40 (some x.ctx) x.core x.task) x.core) id true)) := by
  change execKillTimeout s = _
  simp only [execKillTimeout, hold, hkind, if_false]

theorem exec_watchdog_of_core {s : State} {id : Nat} {x : Run} (hnext : nextWdog s = some (id, x))
    (hkind : x.kind ≠ 3) :
    exec .watchdog s = .next (settle (killRun
      (record (advanceTo x.wdog (countLate s (inJump s x.wdog))) 1 0x08 0x42 (some x.ctx) x.core x.task) id 2)) := by
  change execWatchdog s = _
  simp only [execWatchdog, hnext, hkind, if_false]

/-- Settles O25: what is not killed, kill orders by the field's clock, the kill timeout and the watchdog. -/
theorem killsAndWatchdog : Obligations.KillsAndWatchdog := by
  unfold Obligations.KillsAndWatchdog
  exact ⟨fun s id cause x hrun hfinal => killRun_of_final hrun hfinal cause,
    fun s f id x rest hq hrun hstate hkind hopen hcounted hcalm hresp =>
      killOrder_raises_kill hq hrun hstate hkind hopen hcounted hcalm hresp,
    fun s f id x rest hq hrun hstate hkind hopen =>
      ⟨_, _, exec_killOrder_of_running hq hrun hstate hkind hopen, rfl, rfl⟩,
    fun s f hstop => exec_killOrder_of_stopped hstop,
    fun s id u x hold hkind => exec_killTimeout_of_core hold hkind,
    fun s id x hnext hkind => exec_watchdog_of_core hnext hkind⟩

end Sys2Proof.Machine
end

section
/-! Wrong accesses of the configuration window (R86, R87) and the write of SETUP_DONE (R89). -/

namespace Sys2Proof.Machine

open Sys2Proof

/-! ### The flags of a wrong access -/

/-- A wrong access at an offset sets a flag of GLB_STATUS, and the first since both flags were clear is held: what
`badAccessAt` does with BAD_ACCESS and `unmappedAt` with UNMAPPED. -/
def flagAccess (s : State) (off bit : Nat) : State :=
  setRegBit (if reg s 0x18 % 4 = 0 then setReg s 0x20 off else s) 0x18 bit true

theorem badAccessAt_eq_flagAccess (s : State) (off : Nat) : badAccessAt s off = flagAccess s off 1 := rfl

theorem unmappedAt_eq_flagAccess (s : State) (off : Nat) : unmappedAt s off = flagAccess s off 0 := rfl

theorem flagAccess_eq_regs (s : State) (off bit : Nat) :
    flagAccess s off bit = { s with regs := (flagAccess s off bit).regs } := by
  unfold flagAccess
  split <;> rfl

theorem regBit_flagAccess_same (s : State) (off : Nat) {bit : Nat} (hbit : bit ≤ 31) :
    regBit (flagAccess s off bit) 0x18 bit = true :=
  regBit_setRegBit_same _ 0x18 bit true hbit

theorem regBit_flagAccess_ne (s : State) (off : Nat) {bit i : Nat} (hi : i ≤ 31) (hne : i ≠ bit) :
    regBit (flagAccess s off bit) 0x18 i = regBit s 0x18 i := by
  rw [flagAccess, regBit_setRegBit_ne _ 0x18 bit i true hi hne]
  split
  · rw [regBit, reg_setReg_ne s off (by decide), regBit]
  · rfl

theorem reg_flagAccess_ne (s : State) (off bit : Nat) {o : Nat} (hflag : o ≠ 0x18) (haddr : o ≠ 0x20) :
    reg (flagAccess s off bit) o = reg s o := by
  rw [flagAccess, reg_setRegBit_ne _ bit true hflag]
  split
  · exact reg_setReg_ne s off haddr
  · rfl

theorem reg_flagAccess_addr (s : State) (off bit : Nat) :
    reg (flagAccess s off bit) 0x20 = if reg s 0x18 % 4 = 0 then off % 2 ^ 32 else reg s 0x20 := by
  rw [flagAccess, reg_setRegBit_ne _ bit true (by decide)]
  split
  · exact reg_setReg_same s 0x20 off
  · rfl

/-- Seen from a state with the same registers, a wrong access leaves what R86 and R87 say. -/
theorem faultedAt_flagAccess {s u : State} (hregs : u.regs = s.regs) (off : Nat) {bit : Nat} (hbit : bit ≤ 31) :
    faultedAt s (flagAccess u off bit) off bit := by
  have hreg (o : Nat) : reg u o = reg s o := by simp only [reg, hregs]
  refine ⟨regBit_flagAccess_same u off hbit, ?_, fun i hi hne => ?_, fun o hflag haddr => ?_⟩
  · rw [reg_flagAccess_addr, hreg, hreg]
  · rw [regBit_flagAccess_ne u off (by omega) hne, regBit, hreg, regBit]
  · rw [reg_flagAccess_ne u off bit hflag haddr, hreg]

/-! ### Accesses outside the doorbell pages -/

theorem badWindow_of_no_doorbell (s : State) {off : Nat} (hdoor : doorbellCtx off = none) :
    badWindow s off = flagAccess (setData s 0) off 1 := by
  simp only [badWindow, hdoor, badAccessAt_eq_flagAccess]

theorem readWindow_of_unmapped (s : State) {off : Nat} (hdoor : doorbellCtx off = none)
    (hmap : mapped off = false) : readWindow s off = flagAccess (setData s 0) off 0 := by
  simp only [readWindow, hdoor, hmap, Bool.not_false, if_true, unmappedAt_eq_flagAccess]

/-- What the misaligned and the wrongly sized accesses share: zero data, the flag, and nothing else. -/
theorem badWindow_faulted (s : State) {off : Nat} (hdoor : doorbellCtx off = none) :
    (badWindow s off).hif.rdata = 0 ∧ faultedAt s (badWindow s off) off 1 ∧
      badWindow s off = { s with hif := { s.hif with rdata := 0 }, regs := (badWindow s off).regs } := by
  rw [badWindow_of_no_doorbell s hdoor]
  have hframe := flagAccess_eq_regs (setData s 0) off 1
  refine ⟨?_, faultedAt_flagAccess rfl off (by decide), hframe⟩
  rw [hframe]
  rfl

theorem readWindow_unmapped_faulted (s : State) {off : Nat} (hdoor : doorbellCtx off = none)
    (hmap : mapped off = false) :
    (readWindow s off).hif.rdata = 0 ∧ faultedAt s (readWindow s off) off 0 ∧
      readWindow s off = { s with hif := { s.hif with rdata := 0 }, regs := (readWindow s off).regs } := by
  rw [readWindow_of_unmapped s hdoor hmap]
  have hframe := flagAccess_eq_regs (setData s 0) off 0
  refine ⟨?_, faultedAt_flagAccess rfl off (by decide), hframe⟩
  rw [hframe]
  rfl

theorem exec_badAccess_of_wrong (s : State) {off size : Nat} (hwrong : size ≠ 4 ∨ off % 4 ≠ 0) :
    exec (.badAccess off size) s = .next (badWindow s off) := by
  change execBadAccess off size s = _
  simp [execBadAccess, hwrong]

theorem exec_badAccess_of_unmapped (s : State) {off : Nat} (hdoor : doorbellCtx off = none) (halign : off % 4 = 0)
    (hmap : mapped off = false) : exec (.badAccess off 4) s = .next (readWindow s off) := by
  rw [readWindow_of_unmapped s hdoor hmap]
  change execBadAccess off 4 s = _
  simp [execBadAccess, halign, hdoor, hmap, unmappedAt_eq_flagAccess]

theorem exec_counterCaptureRead_of_misaligned (s : State) {off : Nat} (halign : off % 4 ≠ 0) :
    exec (.counterCaptureRead off) s = .next (badWindow s off) := by
  change execCounterCaptureRead off s = _
  rw [execCounterCaptureRead, if_neg halign]

theorem exec_counterCaptureRead_of_aligned (s : State) {off : Nat} (halign : off % 4 = 0) :
    exec (.counterCaptureRead off) s = .next (readWindow s off) := by
  change execCounterCaptureRead off s = _
  rw [execCounterCaptureRead, if_pos halign]

/-- The window lies in the cores' address map, so a write of it by firmware is no access fault (R585). -/
theorem mgcMap_mgcAddr_of_window {off : Nat} (hoff : off < 2 ^ 24) : mgcMap (mgcAddr off) = true := by
  simp only [mgcMap, mgcAddr, Bool.or_eq_true, Bool.and_eq_true]
  exact .inr ⟨decide_eq_true (by omega), decide_eq_true (by omega)⟩

theorem exec_registerWrite_of_misaligned (s : State) {off : Nat} (w : Word) {fw : Bool} (halign : off % 4 ≠ 0)
    (hfw : fw = true → off < 2 ^ 24) : exec (.registerWrite off w fw) s = .next (badWindow s off) := by
  have hcore : (fw && !mgcMap (mgcAddr off)) = false := by
    cases fw with
    | false => rfl
    | true => rw [mgcMap_mgcAddr_of_window (hfw rfl)]; rfl
  change execRegisterWrite off w fw s = _
  rw [execRegisterWrite, hcore, if_neg Bool.false_ne_true, if_pos halign]

theorem exec_registerWrite_host_of_unmapped (s : State) {off : Nat} (w : Word) (hdoor : doorbellCtx off = none)
    (halign : off % 4 = 0) (hmap : mapped off = false) :
    exec (.registerWrite off w false) s = .next (flagAccess s off 0) := by
  change execRegisterWrite off w false s = _
  simp [execRegisterWrite, halign, hdoor, hmap, unmappedAt_eq_flagAccess]

theorem exec_registerWrite_host_of_mapped (s : State) {off : Nat} (w : Word) (hdoor : doorbellCtx off = none)
    (halign : off % 4 = 0) (hmap : mapped off = true) :
    exec (.registerWrite off w false) s = .next (hostWriteReg s off w.toNat) := by
  change execRegisterWrite off w false s = _
  simp [execRegisterWrite, halign, hdoor, hmap]

/-- Settles O57: accesses of the wrong width or alignment, then accesses of unmapped offsets. -/
theorem windowFaults : Obligations.WindowFaults := by
  unfold Obligations.WindowFaults
  refine ⟨fun s off hdoor => ⟨fun size hwrong => ?_, fun w fw halign hfw => ?_, fun halign => ?_⟩,
    fun s off hdoor halign hmap => ⟨?_, ?_, fun w => ?_⟩⟩
  · exact ⟨_, exec_badAccess_of_wrong s hwrong, badWindow_faulted s hdoor⟩
  · obtain ⟨-, hflag, hframe⟩ := badWindow_faulted s hdoor
    exact ⟨_, exec_registerWrite_of_misaligned s w halign hfw, hflag, hframe⟩
  · exact ⟨_, exec_counterCaptureRead_of_misaligned s halign, badWindow_faulted s hdoor⟩
  · exact ⟨_, exec_counterCaptureRead_of_aligned s halign, readWindow_unmapped_faulted s hdoor hmap⟩
  · obtain ⟨hdata, hflag, -⟩ := readWindow_unmapped_faulted s hdoor hmap
    exact ⟨_, exec_badAccess_of_unmapped s hdoor halign hmap, hdata, hflag⟩
  · exact ⟨_, exec_registerWrite_host_of_unmapped s w hdoor halign hmap,
      faultedAt_flagAccess rfl off (by decide), flagAccess_eq_regs s off 0⟩

/-! ### SETUP_DONE -/

theorem chipId_lt (s : State) : chipId s < 4096 := fld_lt _ 11 0

/-- A write of SETUP_DONE as a write of GLB_SETUP makes it: no other effect of the window stands at its offset. -/
theorem exec_registerWrite_setup (s : State) (w : Word) :
    exec (.registerWrite 0x14 w false) s = .next (writeSetup s 0x14 (bitAt w.toNat 0)) := by
  rw [exec_registerWrite_host_of_mapped s w (by decide) (by decide) (by decide)]
  have hhost : mgcRw 0x14 = 0 ∧ mgcWo 0x14 = 0 := by decide
  have hqctl : queueAt 0x14 = none := by decide
  have hqstat : queueAt (0x14 - 4) = none := by decide
  have hpolicy : policyMask 0x14 = none := by decide
  simp [hostWriteReg, hhost, writeReg, hqctl, hqstat, hpolicy, writeGlb]

theorem exec_setupDone (s : State) (b : Bool) : exec (.setupDone b) s = .next (writeSetup s 0x14 b) := rfl

theorem writeSetup_of_done {s : State} (hdone : setupDone s = true) (off : Nat) (b : Bool) :
    writeSetup s off b = s := by
  simp [writeSetup, hdone]

theorem writeSetup_of_good_chip {s : State} (hopen : setupDone s = false) (hchip : chipId s < groupChips s)
    (off : Nat) : writeSetup s off true = setRegBit s 0x14 0 true := by
  simp [writeSetup, hopen, hchip]

theorem writeSetup_of_bad_chip {s : State} (hopen : setupDone s = false) (hchip : groupChips s ≤ chipId s)
    (off : Nat) : writeSetup s off true = badAccessAt s off := by
  simp [writeSetup, hopen, Nat.not_lt.mpr hchip]

theorem writeSetup_refused {s : State} (hopen : setupDone s = false) (hchip : groupChips s ≤ chipId s) :
    setupDone (writeSetup s 0x14 true) = false ∧ regBit (writeSetup s 0x14 true) 0x18 1 = true := by
  rw [writeSetup_of_bad_chip hopen hchip, badAccessAt_eq_flagAccess]
  refine ⟨?_, regBit_flagAccess_same s 0x14 (by decide)⟩
  rw [setupDone, regBit, reg_flagAccess_ne s 0x14 1 (by decide) (by decide)]
  exact hopen

theorem setupDone_writeSetup {s : State} (hchip : chipId s < groupChips s) :
    setupDone (writeSetup s 0x14 true) = true := by
  cases hdone : setupDone s with
  | true => rw [writeSetup_of_done hdone, hdone]
  | false =>
    rw [writeSetup_of_good_chip hdone hchip]
    exact regBit_setRegBit_same s 0x14 0 true (by decide)

/-- Settles O56: the refused write, then the group of 4,096 chips, where every CHIP_ID is below GROUP_CHIPS. -/
theorem setupDoneChecked : Obligations.SetupDoneChecked := by
  unfold Obligations.SetupDoneChecked
  refine ⟨fun s hopen hchip => ⟨⟨_, exec_setupDone s true, writeSetup_refused hopen hchip⟩, fun w hw => ?_⟩,
    fun s hgroup => ?_⟩
  · exact ⟨_, (exec_registerWrite_setup s w).trans (by rw [hw]), writeSetup_refused hopen hchip⟩
  · have hchip : chipId s < groupChips s := by rw [hgroup]; exact chipId_lt s
    refine ⟨⟨_, exec_setupDone s true, setupDone_writeSetup hchip⟩, fun w hw => ?_⟩
    exact ⟨_, (exec_registerWrite_setup s w).trans (by rw [hw]), setupDone_writeSetup hchip⟩

end Sys2Proof.Machine
end

section
/-! The group time base (R91-R121): frames, edges, loads, losses, the passing of time and the reads of group time. -/

namespace Sys2Proof.Machine

open Sys2Proof

/-! ### Fields of registers that a write leaves alone -/

theorem regBit_setReg_ne (s : State) {o p : Nat} (v i : Nat) (h : p ≠ o) :
    regBit (setReg s o v) p i = regBit s p i := by
  rw [regBit, reg_setReg_ne s v h, regBit]

theorem regBit_setRegFld_outside (s : State) (o : Nat) {hi lo : Nat} (x : Nat) {i : Nat} (h : lo ≤ hi) (hi31 : i ≤ 31)
    (hd : i < lo ∨ hi < i) : regBit (setRegFld s o hi lo x) o i = regBit s o i := by
  rw [regBit_eq, regBit_eq, regFld_setRegFld_ne _ _ _ _ _ _ _ h hi31 (by omega)]

theorem regBit_congr {s t : State} (h : t.regs = s.regs) (o i : Nat) : regBit t o i = regBit s o i := by
  simp only [regBit, reg, h]

theorem regFld_record_outside_saf (s : State) (sev unit code : Nat) (ctx : Option Nat) (detail param : Nat) {o : Nat}
    (hi lo : Nat) (ho : o < 0xA00000) :
    regFld (record s sev unit code ctx detail param) o hi lo = regFld s o hi lo := by
  rw [regFld, reg_record_outside_saf _ _ _ _ _ _ _ ho, regFld]

theorem regBit_record_outside_saf (s : State) (sev unit code : Nat) (ctx : Option Nat) (detail param : Nat) {o : Nat}
    (i : Nat) (ho : o < 0xA00000) : regBit (record s sev unit code ctx detail param) o i = regBit s o i := by
  rw [regBit, reg_record_outside_saf _ _ _ _ _ _ _ ho, regBit]

theorem record_gtb (s : State) (sev unit code : Nat) (ctx : Option Nat) (detail param : Nat) :
    (record s sev unit code ctx detail param).gtb = s.gtb := by
  unfold record
  split <;> rfl

/-! ### STATE of GTB -/

theorem gtbState_setRegFld (s : State) {x : Nat} (hx : x < 4) : gtbState (setRegFld s 0x900004 1 0 x) = x := by
  rw [gtbState, regFld_setRegFld_same _ _ _ _ _ (by decide) (by decide)]
  exact Nat.mod_eq_of_lt hx

/-- The flags of GTB_STATUS stand above STATE. -/
theorem gtbState_setRegBit (s : State) {i : Nat} (b : Bool) (hi : 1 < i) :
    gtbState (setRegBit s 0x900004 i b) = gtbState s :=
  regFld_setRegBit _ _ _ _ _ _ _ (by decide) (.inr (.inr hi))

theorem gtbState_record (s : State) (sev unit code : Nat) (ctx : Option Nat) (detail param : Nat) :
    gtbState (record s sev unit code ctx detail param) = gtbState s :=
  regFld_record_outside_saf _ _ _ _ _ _ _ _ _ (by decide)

/-! ### The end of HOLDOVER (R100) -/

theorem gtbState_gtbExpire (s : State) : gtbState (gtbExpire s) = 3 := by
  rw [gtbExpire, gtbState_record, gtbState_setRegBit _ _ (by decide), gtbState_setRegFld _ (by decide)]

theorem holdExpired_gtbExpire (s : State) : regBit (gtbExpire s) 0x900004 2 = true := by
  rw [gtbExpire, regBit_record_outside_saf _ _ _ _ _ _ _ _ (by decide), regBit_setRegBit_same _ _ _ _ (by decide)]

theorem regBit_gtbExpire (s : State) {i : Nat} (hlo : 2 < i) (hhi : i ≤ 31) :
    regBit (gtbExpire s) 0x900004 i = regBit s 0x900004 i := by
  rw [gtbExpire, regBit_record_outside_saf _ _ _ _ _ _ _ _ (by decide),
    regBit_setRegBit_ne _ _ _ _ _ hhi (by omega), regBit_setRegFld_outside _ _ _ (by decide) hhi (by omega)]

theorem reg_gtbExpire_ne (s : State) {o : Nat} (hstat : o ≠ 0x900004) (hsaf : o < 0xA00000) :
    reg (gtbExpire s) o = reg s o := by
  rw [gtbExpire, reg_record_outside_saf _ _ _ _ _ _ _ hsaf, reg_setRegBit_ne _ _ _ hstat,
    reg_setRegFld_ne _ _ _ _ hstat]

theorem gtbExpire_gtb (s : State) : (gtbExpire s).gtb = s.gtb := record_gtb _ _ _ _ _ _ _

theorem exec_holdExpired_of_holdover {s : State} (h : gtbState s = 1) : exec .holdExpired s = .next
    (gtbExpire (advanceTo (s.gtb.now + (regFld s 0x90000C 15 0 * 5120000 - s.gtb.held)) s)) := by
  change execHoldExpired s = _
  rw [execHoldExpired, if_pos h]

/-! ### Losses (R99, R100) -/

/-- The flag of GTB_STATUS that a loss sets: REF_LOSS or CODE_LOSS. -/
def lossFlag (isRef : Bool) : Nat := if isRef then 4 else 3

theorem lossFlag_bounds (isRef : Bool) : 2 < lossFlag isRef ∧ lossFlag isRef < 6 := by cases isRef <;> decide

/-- The flag and the error record with which a loss is declared. -/
def lossNoted (isRef : Bool) (s : State) : State :=
  let s := setRegBit s 0x900004 (lossFlag isRef) true
  if isRef then record s 1 0x11 0x30 none 0 (nowNs s) else record s 1 0x11 0x31 none (reg s 0x900028) (nowNs s)

theorem lossNoted_eq_record (isRef : Bool) (s : State) : ∃ code detail param,
    lossNoted isRef s = record (setRegBit s 0x900004 (lossFlag isRef) true) 1 0x11 code none detail param := by
  cases isRef <;> exact ⟨_, _, _, rfl⟩

theorem regBit_lossNoted (isRef : Bool) (s : State) {i : Nat} (hi : i ≤ 31) :
    regBit (lossNoted isRef s) 0x900004 i = if i = lossFlag isRef then true else regBit s 0x900004 i := by
  obtain ⟨code, detail, param, h⟩ := lossNoted_eq_record isRef s
  rw [h, regBit_record_outside_saf _ _ _ _ _ _ _ _ (by decide), regBit_setRegBit _ _ _ _ _ _ hi]
  simp only [true_and]

theorem gtbState_lossNoted (isRef : Bool) (s : State) : gtbState (lossNoted isRef s) = gtbState s := by
  obtain ⟨code, detail, param, h⟩ := lossNoted_eq_record isRef s
  have hflag := lossFlag_bounds isRef
  rw [h, gtbState_record, gtbState_setRegBit _ _ (by omega)]

theorem reg_lossNoted_ne (isRef : Bool) (s : State) {o : Nat} (hstat : o ≠ 0x900004) (hsaf : o < 0xA00000) :
    reg (lossNoted isRef s) o = reg s o := by
  obtain ⟨code, detail, param, h⟩ := lossNoted_eq_record isRef s
  rw [h, reg_record_outside_saf _ _ _ _ _ _ _ hsaf, reg_setRegBit_ne _ _ _ hstat]

/-- A declared loss but for STATE: the acquisition restarts and any slew is abandoned. -/
def lossTaken (isRef : Bool) (s : State) : State :=
  let t := lossNoted isRef s
  gtbStopSlew (gtbRestart { t with gtb := { t.gtb with
    needRef := true, needCode := !gtbRefOnly t, refAt := none, trimDue := 0 } })

theorem regBit_lossTaken (isRef : Bool) (s : State) {i : Nat} (hi : i ≤ 31) (hslew : i ≠ 6) :
    regBit (lossTaken isRef s) 0x900004 i = if i = lossFlag isRef then true else regBit s 0x900004 i :=
  (regBit_setRegBit_ne _ _ _ _ _ hi hslew).trans (regBit_lossNoted isRef s hi)

theorem slewing_lossTaken (isRef : Bool) (s : State) : regBit (lossTaken isRef s) 0x900004 6 = false :=
  regBit_setRegBit_same _ _ _ _ (by decide)

theorem gtbState_lossTaken (isRef : Bool) (s : State) : gtbState (lossTaken isRef s) = gtbState s :=
  (gtbState_setRegBit _ _ (by decide)).trans (gtbState_lossNoted isRef s)

theorem reg_lossTaken_ne (isRef : Bool) (s : State) {o : Nat} (hstat : o ≠ 0x900004) (hsaf : o < 0xA00000) :
    reg (lossTaken isRef s) o = reg s o :=
  (reg_setRegBit_ne _ _ _ hstat).trans (reg_lossNoted_ne isRef s hstat hsaf)

theorem lossTaken_restarts (isRef : Bool) (s : State) :
    (lossTaken isRef s).gtb.acq = true ∧ (lossTaken isRef s).gtb.needRef = true := ⟨rfl, rfl⟩

/-- STATE becomes HOLDOVER and its count starts at 0. -/
def holdoverBegun (s : State) : State :=
  setRegFld (setReg { s with gtb := { s.gtb with held := 0 } } 0x900024 0) 0x900004 1 0 1

theorem gtbState_holdoverBegun (s : State) : gtbState (holdoverBegun s) = 1 := gtbState_setRegFld _ (by decide)

theorem regBit_holdoverBegun (s : State) {i : Nat} (hlo : 1 < i) (hhi : i ≤ 31) :
    regBit (holdoverBegun s) 0x900004 i = regBit s 0x900004 i := by
  rw [holdoverBegun, regBit_setRegFld_outside _ _ _ (by decide) hhi (by omega), regBit_setReg_ne _ _ _ (by decide)]
  rfl

theorem reg_holdoverBegun_ne (s : State) {o : Nat} (hstat : o ≠ 0x900004) (hhold : o ≠ 0x900024) :
    reg (holdoverBegun s) o = reg s o := by
  rw [holdoverBegun, reg_setRegFld_ne _ _ _ _ hstat, reg_setReg_ne _ _ hhold]
  rfl

/-- LOCKED becomes HOLDOVER, which a GTB_HOLD_LIMIT of 0 ends at once. -/
def holdoverEntered (s : State) : State :=
  if regFld (holdoverBegun s) 0x90000C 15 0 = 0 then gtbExpire (holdoverBegun s) else holdoverBegun s

theorem holdLimit_lossTaken (isRef : Bool) (s : State) :
    regFld (holdoverBegun (lossTaken isRef s)) 0x90000C 15 0 = regFld s 0x90000C 15 0 := by
  rw [regFld, reg_holdoverBegun_ne _ (by decide) (by decide), reg_lossTaken_ne _ _ (by decide) (by decide), regFld]

theorem gtbLoss_eq (isRef : Bool) (s : State) :
    gtbLoss isRef s = if gtbState s = 0 then holdoverEntered (lossTaken isRef s) else lossTaken isRef s := by
  have hsplit : gtbLoss isRef s = if decide (gtbState (lossNoted isRef s) = 0) then
    holdoverEntered (lossTaken isRef s) else lossTaken isRef s := rfl
  simp only [hsplit, gtbState_lossNoted, decide_eq_true_eq]

theorem gtbLoss_cases (isRef : Bool) (s : State) : gtbLoss isRef s = lossTaken isRef s ∨
    gtbLoss isRef s = holdoverBegun (lossTaken isRef s) ∨
    gtbLoss isRef s = gtbExpire (holdoverBegun (lossTaken isRef s)) := by
  rw [gtbLoss_eq, holdoverEntered]
  split
  · split
    · exact .inr (.inr rfl)
    · exact .inr (.inl rfl)
  · exact .inl rfl

theorem reg_gtbLoss_ne (isRef : Bool) (s : State) {o : Nat} (hstat : o ≠ 0x900004) (hhold : o ≠ 0x900024)
    (hsaf : o < 0xA00000) : reg (gtbLoss isRef s) o = reg s o := by
  have htaken := reg_lossTaken_ne isRef s hstat hsaf
  have hbegun := (reg_holdoverBegun_ne (lossTaken isRef s) hstat hhold).trans htaken
  obtain h | h | h := gtbLoss_cases isRef s <;> rw [h]
  · exact htaken
  · exact hbegun
  · exact (reg_gtbExpire_ne _ hstat hsaf).trans hbegun

theorem regBit_gtbLoss (isRef : Bool) (s : State) {i : Nat} (hlo : 2 < i) (hhi : i ≤ 31) :
    regBit (gtbLoss isRef s) 0x900004 i = regBit (lossTaken isRef s) 0x900004 i := by
  have hbegun := regBit_holdoverBegun (lossTaken isRef s) (show 1 < i by omega) hhi
  obtain h | h | h := gtbLoss_cases isRef s <;> rw [h]
  · exact hbegun
  · exact (regBit_gtbExpire _ hlo hhi).trans hbegun

theorem lossFlag_gtbLoss (isRef : Bool) (s : State) : regBit (gtbLoss isRef s) 0x900004 (lossFlag isRef) = true := by
  have hflag := lossFlag_bounds isRef
  rw [regBit_gtbLoss _ _ hflag.1 (by omega), regBit_lossTaken _ _ (by omega) (by omega), if_pos rfl]

theorem gtbLoss_restarts (isRef : Bool) (s : State) :
    (gtbLoss isRef s).gtb.acq = true ∧ (gtbLoss isRef s).gtb.needRef = true := by
  have htaken := lossTaken_restarts isRef s
  obtain h | h | h := gtbLoss_cases isRef s <;> rw [h]
  · exact htaken
  · exact htaken
  · rw [gtbExpire_gtb]
    exact htaken

theorem gtbLoss_of_locked_held (isRef : Bool) {s : State} (hlock : gtbState s = 0)
    (hlim : regFld s 0x90000C 15 0 ≠ 0) : gtbLoss isRef s = holdoverBegun (lossTaken isRef s) := by
  rw [gtbLoss_eq, if_pos hlock, holdoverEntered, holdLimit_lossTaken, if_neg hlim]

theorem gtbLoss_of_locked_unheld (isRef : Bool) {s : State} (hlock : gtbState s = 0)
    (hlim : regFld s 0x90000C 15 0 = 0) : gtbLoss isRef s = gtbExpire (holdoverBegun (lossTaken isRef s)) := by
  rw [gtbLoss_eq, if_pos hlock, holdoverEntered, holdLimit_lossTaken, if_pos hlim]

theorem gtbLoss_of_not_locked (isRef : Bool) {s : State} (hlock : gtbState s ≠ 0) :
    gtbLoss isRef s = lossTaken isRef s := by
  rw [gtbLoss_eq, if_neg hlock]

theorem exec_refLoss_of_armed {s : State} (hen : regBit s 0x900000 0 = true) (harm : gtbArmed s = true) :
    exec .refLoss s = .next (gtbLoss true s) := by
  change execRefLoss s = _
  rw [execRefLoss, hen, harm]
  rfl

/-! ### Frames (R95) -/

section
variable {s : State} {bits : BitVec 96} {spaced : Bool}

theorem exec_gtbFrame_of_good (hen : regBit s 0x900000 0 = true) (hmode : gtbRefOnly s = false)
    (hgood : (frameForm s bits.toNat spaced && frameFollows s bits.toNat) = true) :
    exec (.gtbFrame bits spaced) s = .next (gtbGoodFrame s bits) := by
  change execGtbFrame bits spaced s = _
  rw [execGtbFrame, hen, hmode, hgood]
  rfl

theorem exec_gtbFrame_of_bad (hen : regBit s 0x900000 0 = true) (hmode : gtbRefOnly s = false)
    (hbad : (frameForm s bits.toNat spaced && frameFollows s bits.toNat) = false) :
    exec (.gtbFrame bits spaced) s = .next (gtbBadFrame s) := by
  change execGtbFrame bits spaced s = _
  rw [execGtbFrame, hen, hmode, hbad]
  rfl

end

/-- `t` differs from `s` at most in registers. -/
def RegsFrame (s t : State) : Prop := t = { s with regs := t.regs }

theorem RegsFrame.trans {s t u : State} (hst : RegsFrame s t) (htu : RegsFrame t u) : RegsFrame s u := by
  unfold RegsFrame at *
  rw [hst] at htu
  exact htu

theorem regsFrame_setReg (s : State) (off v : Nat) : RegsFrame s (setReg s off v) := rfl

theorem regsFrame_setRegFld (s : State) (off hi lo x : Nat) : RegsFrame s (setRegFld s off hi lo x) := rfl

/-- What GTB keeps of a good frame, by which it judges the next one and arms the load (R94, R95, R96). -/
def frameTaken (s : State) (bits : BitVec 96) : State :=
  { s with gtb := (gtbGoodFrame s bits).gtb }

/-- The registers in which a good frame is shown (R95, R120). -/
def frameShown (v : Nat) (s : State) : State :=
  let s := setReg (setReg (setReg s 0x900030 v) 0x900034 (v / 2 ^ 32)) 0x900038 (v / 2 ^ 64)
  let s := setRegFld s 0x900004 31 24 (fld v 27 20)
  let s := setRegFld s 0x900004 23 20 (fld v 83 80)
  setRegFld s 0x900004 19 18 (fld v 85 84)

theorem gtbGoodFrame_eq (s : State) (bits : BitVec 96) :
    gtbGoodFrame s bits = frameShown bits.toNat (frameTaken s bits) := rfl

theorem regsFrame_frameShown (v : Nat) (s : State) : RegsFrame s (frameShown v s) :=
  (((((regsFrame_setReg _ _ _).trans (regsFrame_setReg _ _ _)).trans (regsFrame_setReg _ _ _)).trans
    (regsFrame_setRegFld _ _ _ _ _)).trans (regsFrame_setRegFld _ _ _ _ _)).trans (regsFrame_setRegFld _ _ _ _ _)

theorem gtbGoodFrame_frame (s : State) (bits : BitVec 96) :
    gtbGoodFrame s bits = { s with gtb := (gtbGoodFrame s bits).gtb, regs := (gtbGoodFrame s bits).regs } :=
  regsFrame_frameShown bits.toNat (frameTaken s bits)

/-- A good frame is shown in GTB_STATUS and GTB_FRAME0 to GTB_FRAME2 alone. -/
theorem reg_gtbGoodFrame_ne (s : State) (bits : BitVec 96) {o : Nat} (hstat : o ≠ 0x900004) (h0 : o ≠ 0x900030)
    (h1 : o ≠ 0x900034) (h2 : o ≠ 0x900038) : reg (gtbGoodFrame s bits) o = reg s o := by
  rw [gtbGoodFrame_eq, frameShown, reg_setRegFld_ne _ _ _ _ hstat, reg_setRegFld_ne _ _ _ _ hstat,
    reg_setRegFld_ne _ _ _ _ hstat, reg_setReg_ne _ _ h2, reg_setReg_ne _ _ h1, reg_setReg_ne _ _ h0]
  rfl

/-- A bad frame is counted, also where it is the one with which a loss is declared. -/
theorem reg_gtbBadFrame (s : State) : reg (gtbBadFrame s) 0x900028 = satAdd 32 (reg s 0x900028) 1 := by
  have hcount := reg_addReg_same s 0x900028 1
  unfold gtbBadFrame
  extract_lets counted _ noted
  have hnoted : reg noted 0x900028 = satAdd 32 (reg s 0x900028) 1 := hcount
  split
  · rw [reg_gtbLoss_ne _ _ (by decide) (by decide) (by decide), hnoted]
  · exact hnoted

/-! ### Edges and the load (R96, R97, R103) -/

/-- What the last frames of the acquisition say group time is at the edge of the load, with TRIM (R96). -/
def loadSource (s : State) (u : Nat) : Nat := ((u : Int) + signed 16 (regFld s 0x900014 15 0) * 80).toNat

/-- The load is made: the acquisition has its source time. -/
def loadMade (s : State) : State :=
  { s with gtb := { s.gtb with loaded := true, loadAt := none, trimDue := 0, okEdges := 0 } }

theorem gtbLoad_of_ahead {s : State} {u : Nat} (h : s.gtb.now < loadSource s u) :
    gtbLoad u s = gtbStep (loadSource s u) (loadMade s) := by
  have hahead : (loadMade s).gtb.now < loadSource s u := h
  exact if_pos hahead

/-- `t` differs from `s` at most in registers, group time and the field clocks. -/
def ClockFrame (s t : State) : Prop := t = { s with gtb := t.gtb, regs := t.regs, clk := t.clk }

theorem ClockFrame.trans {s t u : State} (hst : ClockFrame s t) (htu : ClockFrame t u) : ClockFrame s u := by
  unfold ClockFrame at *
  rw [hst] at htu
  exact htu

/-- Group time set to `t` at one edge: the jump is held for R102 and STEPPED is set. -/
def jumpTo (t start : Nat) (s : State) : State :=
  setRegBit { s with gtb := { s.gtb with now := t, jumps := (start, t) :: s.gtb.jumps, refAt := none } } 0x900004 5 true

theorem gtbStep_cases (t : Nat) (s : State) :
    gtbStep t s = jumpTo t s.gtb.now s ∨ gtbStep t s = jumpTo t s.gtb.now (crossTick s (2 * s.gtb.cclk)) := by
  have hstep : gtbStep t s = jumpTo t s.gtb.now (if decide (s.gtb.now < nextTickAt s) && decide (nextTickAt s ≤ t)
    then crossTick s (2 * s.gtb.cclk) else s) := rfl
  rw [hstep]
  split
  · exact .inr rfl
  · exact .inl rfl

/-- A forward step sets group time and STEPPED, and leaves how far the acquisition is. -/
theorem gtbStep_effect (t : Nat) (s : State) :
    (gtbStep t s).gtb.now = t ∧ (gtbStep t s).gtb.loaded = s.gtb.loaded ∧ (gtbStep t s).gtb.loadAt = s.gtb.loadAt ∧
      regBit (gtbStep t s) 0x900004 5 = true ∧ gtbState (gtbStep t s) = gtbState s ∧
      ClockFrame s (gtbStep t s) := by
  obtain h | h := gtbStep_cases t s <;> rw [h] <;>
    exact ⟨rfl, rfl, rfl, regBit_setRegBit_same _ _ _ _ (by decide), gtbState_setRegBit _ _ (by decide), rfl⟩

/-- An edge has arrived (R99). -/
def edgeSeen (s : State) : State := { s with gtb := { s.gtb with needRef := false } }

theorem regFld_edgeSeen (s : State) (o hi lo : Nat) : regFld (edgeSeen s) o hi lo = regFld s o hi lo := rfl

theorem loadSource_edgeSeen (s : State) (u : Nat) : loadSource (edgeSeen s) u = loadSource s u := by
  rw [loadSource, regFld_edgeSeen, loadSource]

/-- An edge of a loaded acquisition counts towards step 5 of R96 or starts the count again. -/
def edgeCounted (ok : Bool) (s : State) : State :=
  if s.gtb.acq && s.gtb.loaded then { s with gtb := { s.gtb with okEdges := if ok then s.gtb.okEdges + 1 else 0 } }
  else s

theorem edgeCounted_effect (ok : Bool) (s : State) :
    (edgeCounted ok s).gtb.now = s.gtb.now ∧ (edgeCounted ok s).gtb.loaded = s.gtb.loaded ∧
      (edgeCounted ok s).gtb.loadAt = s.gtb.loadAt ∧ (edgeCounted ok s).regs = s.regs ∧
      ClockFrame s (edgeCounted ok s) := by
  unfold edgeCounted
  split <;> exact ⟨rfl, rfl, rfl, rfl, rfl⟩

theorem next_edgeCounted (ok : Bool) (s : State) : (if s.gtb.acq && s.gtb.loaded then
    .next { s with gtb := { s.gtb with okEdges := if ok then s.gtb.okEdges + 1 else 0 } } else .next s : Out) =
    .next (edgeCounted ok s) := by
  unfold edgeCounted
  split <;> rfl

/-- An edge makes the load that is due; where none is, a changed TRIM acts (R96, R601). -/
def edgeActed (s : State) : State :=
  match s.gtb.loadAt with
  | some t => gtbLoad t s
  | none => gtbApplyTrim s

theorem edgeActed_of_due {s : State} {u : Nat} (h : s.gtb.loadAt = some u) : edgeActed s = gtbLoad u s := by
  rw [edgeActed, h]

/-- While LOCKED, an edge trims the interpolator (R97). -/
def edgeTrimmed (incr : Nat) (s : State) : State := if gtbState s = 0 then gtbTrimEdge incr s else s

theorem exec_gtbRefEdge_of_refOnly {s : State} (incr : Nat) (ok : Bool) (hen : regBit s 0x900000 0 = true)
    (hmode : gtbRefOnly s = true) : exec (.gtbRefEdge incr ok) s = .next
      (gtbTrimEdge incr (setRegFld (gtbTakeTrim (edgeSeen s)) 0x900004 1 0 0)) := by
  change execGtbRefEdge incr ok s = _
  have hseen : gtbRefOnly (edgeSeen s) = true := hmode
  rw [execGtbRefEdge, hen]
  exact if_pos hseen

theorem exec_gtbRefEdge_of_code {s : State} (incr : Nat) (ok : Bool) (hen : regBit s 0x900000 0 = true)
    (hmode : gtbRefOnly s = false) : exec (.gtbRefEdge incr ok) s = .next
      (edgeCounted ok (edgeTrimmed incr (edgeActed (edgeSeen s)))) := by
  change execGtbRefEdge incr ok s = _
  have hseen : ¬ gtbRefOnly (edgeSeen s) = true := by
    rw [Bool.not_eq_true]
    exact hmode
  rw [execGtbRefEdge, hen]
  exact (if_neg hseen).trans (next_edgeCounted ok _)

theorem gtbRefEdge_loads {s : State} (incr : Nat) (ok : Bool) {u : Nat} (hen : regBit s 0x900000 0 = true)
    (hmode : gtbRefOnly s = false) (hload : s.gtb.loadAt = some u) (hstate : gtbState s ≠ 0)
    (hahead : s.gtb.now < loadSource s u) :
    ∃ t, exec (.gtbRefEdge incr ok) s = .next t ∧ t.gtb.now = loadSource s u ∧ t.gtb.loaded = true ∧
      t.gtb.loadAt = none ∧ regBit t 0x900004 5 = true ∧ t = { s with gtb := t.gtb, regs := t.regs, clk := t.clk } := by
  obtain ⟨hnow, hloaded, hdue, hflag, hkept, hstep⟩ := gtbStep_effect (loadSource s u) (loadMade (edgeSeen s))
  have hsource := loadSource_edgeSeen s u
  have hacted : edgeActed (edgeSeen s) = gtbStep (loadSource s u) (loadMade (edgeSeen s)) := by
    rw [edgeActed_of_due (s := edgeSeen s) hload, gtbLoad_of_ahead (by rw [hsource]; exact hahead), hsource]
  generalize gtbStep (loadSource s u) (loadMade (edgeSeen s)) = t at *
  have htrimmed : edgeTrimmed incr t = t := if_neg (by rw [hkept]; exact hstate)
  refine ⟨_, exec_gtbRefEdge_of_code incr ok hen hmode, ?_⟩
  rw [hacted, htrimmed]
  obtain ⟨hnow', hloaded', hdue', hregs, hcount⟩ := edgeCounted_effect ok t
  have hseen : ClockFrame s (loadMade (edgeSeen s)) := rfl
  refine ⟨hnow'.trans hnow, hloaded'.trans hloaded, hdue'.trans hdue, (regBit_congr hregs _ _).trans hflag,
    (hseen.trans hstep).trans hcount⟩

/-- The first edge has none before it to measure from: the interpolator takes the increment that it finds (R97). -/
theorem gtbTrimEdge_incr_of_first (incr : Nat) (s : State) (h : s.gtb.refAt = none) :
    (gtbTrimEdge incr s).gtb.incr = max 1 incr := by
  simp [gtbTrimEdge, h, cdivN]

/-! ### LOCKED and ENABLE (R96, R120) -/

theorem exec_gtbLocked_of_16 {s : State} (hacq : s.gtb.acq = true) (hload : s.gtb.loaded = true)
    (hedges : 16 ≤ s.gtb.okEdges) : exec .gtbLocked s = .next
      (setRegFld { s with gtb := { s.gtb with acq := false } } 0x900004 1 0 0) := by
  change execGtbLocked s = _
  simp only [execGtbLocked, hacq, hload, hedges, decide_true, Bool.and_true, if_true]

theorem exec_gtbCtlEnable_of_done {s : State} (w : Word) (hdone : setupDone s = true) :
    exec (.gtbCtlEnable w) s = .next s := by
  change execGtbCtlEnable w s = _
  rw [execGtbCtlEnable, if_pos hdone]

/-- The acquisition that starts where ENABLE rises knows of no frame and no loss. -/
def gtbEnabled (s : State) (v : Nat) : State :=
  let s := setReg s 0x900000 (v % 4)
  gtbRestart { s with gtb := { s.gtb with bad := 0, needRef := false, needCode := false } }

theorem exec_gtbCtlEnable_of_rise {s : State} {w : Word} (hopen : setupDone s = false)
    (hon : bitAt w.toNat 0 = true) (hoff : regBit s 0x900000 0 = false) :
    exec (.gtbCtlEnable w) s = .next (gtbEnabled s w.toNat) := by
  change execGtbCtlEnable w s = _
  simp only [execGtbCtlEnable, hopen, hon, hoff, Bool.false_eq_true, if_false, Bool.not_false, Bool.and_true, if_true,
    gtbEnabled]

theorem reg_gtbEnabled (s : State) (v : Nat) : reg (gtbEnabled s v) 0x900000 = v % 4 :=
  (reg_setReg_same s 0x900000 (v % 4)).trans (Nat.mod_eq_of_lt (by omega))

/-- Settles O11: frames, then the load, REF_ONLY, LOCKED and the writes of GTB_CTL. -/
theorem groupTimeAcquired : Obligations.GroupTimeAcquired := by
  unfold Obligations.GroupTimeAcquired
  refine ⟨fun s bits spaced hen hmode => ⟨fun hgood => ?_, fun hbad => ?_⟩,
    fun s incr ok u hen hmode hload hstate hahead => gtbRefEdge_loads incr ok hen hmode hload hstate hahead,
    fun s incr ok hen hmode => ?_, fun s hacq hload hedges => ?_, fun s w hdone => exec_gtbCtlEnable_of_done w hdone,
    fun s w hopen hon hoff => ?_⟩
  · exact ⟨_, exec_gtbFrame_of_good hen hmode hgood, rfl, rfl, rfl, rfl,
      reg_gtbGoodFrame_ne s bits (by decide) (by decide) (by decide) (by decide), gtbGoodFrame_frame s bits⟩
  · exact ⟨_, exec_gtbFrame_of_bad hen hmode hbad, reg_gtbBadFrame s⟩
  · exact ⟨_, exec_gtbRefEdge_of_refOnly incr ok hen hmode,
      gtbState_setRegFld (gtbTakeTrim (edgeSeen s)) (show 0 < 4 by decide), rfl,
      fun hfirst => gtbTrimEdge_incr_of_first incr (setRegFld (gtbTakeTrim (edgeSeen s)) 0x900004 1 0 0) hfirst⟩
  · exact ⟨_, exec_gtbLocked_of_16 hacq hload hedges, gtbState_setRegFld _ (by decide), rfl, rfl,
      fun o ho => reg_setRegFld_ne _ _ _ _ ho⟩
  · exact ⟨_, exec_gtbCtlEnable_of_rise hopen hon hoff, reg_gtbEnabled s w.toNat, rfl, rfl, rfl, rfl⟩

end Sys2Proof.Machine
end

section
/-! Time that passes (R92, R97, R100, R101, R107, R115, R119): what CCLKs change, the end of a slew, the time words of
the field clocks, the reads of group time, and the step on an empty queue. -/

namespace Sys2Proof.Machine

open Sys2Proof

/-! ### What passing time leaves alone -/

theorem TimeFrame.kept {s t : State} (h : TimeFrame s t) : t.pending = s.pending ∧ t.mem = s.mem ∧ t.host = s.host ∧
    t.hif = s.hif ∧ t.disp = s.disp ∧ t.tge = s.tge ∧ t.asks = s.asks := by
  rw [TimeFrame] at h
  rw [h]
  exact ⟨rfl, rfl, rfl, rfl, rfl, rfl, rfl⟩

theorem step_of_idle {s : State} (h : s.pending = []) : step s = .next (elapse 1 s) := by
  rw [step, h]

/-- Settles O2: the step is one CCLK, and `timeFrame_elapse` says what a CCLK can touch. -/
theorem idleStepPassesOneCclk : Obligations.IdleStepPassesOneCclk := by
  unfold Obligations.IdleStepPassesOneCclk
  intro s hidle
  obtain ⟨hpending, hrest⟩ := (timeFrame_elapse 1 s).kept
  exact ⟨step_of_idle hidle, hpending.trans hidle, hrest⟩

/-! ### The parts of `elapse` -/

/-- Group time that `n` CCLK add, less what a slew takes (R92, R101). -/
def timeGain (n : Nat) (s : State) : Nat := n * gtbBase s - slewLoss s n

/-- A policy-tick boundary within the next `dt` is noted at its edge (R111). -/
def boundaryNoted (dt : Nat) (s : State) : State :=
  if decide (s.gtb.now < nextTickAt s) && decide (nextTickAt s ≤ s.gtb.now + dt) then
    crossTick s (edgeAt s (nextTickAt s))
  else s

/-- Group time, the CCLK count and the slew after `n` CCLK that add `dt` and absorb `gone`. -/
def timeAdded (slewing : Bool) (n dt gone : Nat) (s : State) : State :=
  { s with gtb := { s.gtb with
      now := s.gtb.now + dt, cclk := s.gtb.cclk + n, slewLeft := s.gtb.slewLeft - gone
      slewed := if slewing then s.gtb.slewed + dt else s.gtb.slewed } }

/-- SLEWING falls once the difference is absorbed (R101). -/
def slewClosed (slewing : Bool) (s : State) : State :=
  if slewing && decide (s.gtb.slewLeft = 0) then setRegBit s 0x900004 6 false else s

/-- HOLDOVER counts the time that it lasts (R100). -/
def holdCounted (dt : Nat) (s : State) : State :=
  if gtbState s = 1 then
    setReg { s with gtb := { s.gtb with held := s.gtb.held + dt } } 0x900024
      (min ((s.gtb.held + dt) / 5120000) (2 ^ 32 - 1))
  else s

theorem elapse_eq (n : Nat) (s : State) : elapse n s = addLost n (List.range Config.numFields) (prbsElapse n
    (holdCounted (timeGain n s) (slewClosed (gtbSlewing s) (timeAdded (gtbSlewing s) n (timeGain n s) (slewLoss s n)
      (boundaryNoted (timeGain n s) s))))) := rfl

theorem regsFrame_addLost (n : Nat) (fs : List Nat) (s : State) : RegsFrame s (addLost n fs s) := by
  induction fs generalizing s with
  | nil => rfl
  | cons f fs ih =>
    refine RegsFrame.trans ?_ (ih _)
    split
    · rfl
    · exact regsFrame_setReg s _ _

theorem addLost_gtb (n : Nat) (fs : List Nat) (s : State) : (addLost n fs s).gtb = s.gtb := by
  rw [regsFrame_addLost n fs s]

theorem addLost_clk (n : Nat) (fs : List Nat) (s : State) : (addLost n fs s).clk = s.clk := by
  rw [regsFrame_addLost n fs s]

/-- The lost cycles of the fields are counted above GTB_FLD_LOST of field 0. -/
theorem reg_addLost_ne (n : Nat) (fs : List Nat) (s : State) {o : Nat} (ho : o < 0x900100) :
    reg (addLost n fs s) o = reg s o := by
  induction fs generalizing s with
  | nil => rfl
  | cons f fs ih =>
    refine (ih _).trans ?_
    split
    · rfl
    · exact reg_addReg_ne _ _ (by omega)

theorem gtbSlewing_addLost (n : Nat) (fs : List Nat) (s : State) : gtbSlewing (addLost n fs s) = gtbSlewing s := by
  rw [gtbSlewing, regBit, reg_addLost_ne _ _ _ (by decide), gtbSlewing, regBit]

theorem prbsElapse_clk (n : Nat) (s : State) : (prbsElapse n s).clk = s.clk := rfl

theorem gtbSlewing_prbsElapse (n : Nat) (s : State) : gtbSlewing (prbsElapse n s) = gtbSlewing s := rfl

theorem boundaryNoted_cases (dt : Nat) (s : State) :
    boundaryNoted dt s = s ∨ boundaryNoted dt s = crossTick s (edgeAt s (nextTickAt s)) := by
  unfold boundaryNoted
  split
  · exact .inr rfl
  · exact .inl rfl

/-- Noting a boundary moves neither group time nor the slew. -/
theorem boundaryNoted_time (dt : Nat) (s : State) :
    (boundaryNoted dt s).gtb.now = s.gtb.now ∧ (boundaryNoted dt s).gtb.slewLeft = s.gtb.slewLeft := by
  obtain h | h := boundaryNoted_cases dt s <;> rw [h] <;> exact ⟨rfl, rfl⟩

theorem timeAdded_clk (slewing : Bool) (n dt gone : Nat) (s : State) :
    (timeAdded slewing n dt gone s).clk = s.clk := rfl

theorem timeAdded_slewLeft (slewing : Bool) (n dt gone : Nat) (s : State) :
    (timeAdded slewing n dt gone s).gtb.slewLeft = s.gtb.slewLeft - gone := rfl

theorem gtbSlewing_slewClosed {s : State} (h : s.gtb.slewLeft = 0) : gtbSlewing (slewClosed true s) = false := by
  rw [slewClosed, h]
  exact regBit_setRegBit_same _ _ _ _ (by decide)

theorem slewClosed_gtb (slewing : Bool) (s : State) : (slewClosed slewing s).gtb = s.gtb := by
  unfold slewClosed
  split <;> rfl

theorem slewClosed_clk (slewing : Bool) (s : State) : (slewClosed slewing s).clk = s.clk := by
  unfold slewClosed
  split <;> rfl

theorem holdCounted_time (dt : Nat) (s : State) :
    (holdCounted dt s).gtb.now = s.gtb.now ∧ (holdCounted dt s).gtb.slewLeft = s.gtb.slewLeft := by
  unfold holdCounted
  split <;> exact ⟨rfl, rfl⟩

theorem holdCounted_clk (dt : Nat) (s : State) : (holdCounted dt s).clk = s.clk := by
  unfold holdCounted
  split <;> rfl

theorem gtbSlewing_holdCounted (dt : Nat) (s : State) : gtbSlewing (holdCounted dt s) = gtbSlewing s := by
  unfold holdCounted
  split
  · exact regBit_setReg_ne _ _ _ (by decide)
  · rfl

/-! ### What `elapse` does to group time and the field clocks -/

theorem elapse_time (n : Nat) (s : State) : (elapse n s).gtb.now = s.gtb.now + timeGain n s ∧
    (elapse n s).gtb.slewLeft = s.gtb.slewLeft - slewLoss s n := by
  obtain ⟨hnow, hleft⟩ := boundaryNoted_time (timeGain n s) s
  rw [elapse_eq, addLost_gtb]
  refine ⟨(holdCounted_time _ _).1.trans ?_, (holdCounted_time _ _).2.trans ?_⟩ <;> rw [slewClosed_gtb]
  · exact congrArg (· + timeGain n s) hnow
  · exact congrArg (· - slewLoss s n) hleft

/-- Where a slew has nothing left after `n` CCLK, it has ended. -/
theorem gtbSlewing_elapse_of_absorbed {s : State} {n : Nat} (hslew : gtbSlewing s = true)
    (hgone : s.gtb.slewLeft - slewLoss s n = 0) : gtbSlewing (elapse n s) = false := by
  obtain ⟨-, hleft⟩ := boundaryNoted_time (timeGain n s) s
  rw [elapse_eq, gtbSlewing_addLost, gtbSlewing_prbsElapse, gtbSlewing_holdCounted, hslew]
  exact gtbSlewing_slewClosed (by rw [timeAdded_slewLeft, hleft, hgone])

theorem elapse_clk (n : Nat) (s : State) : (elapse n s).clk = (boundaryNoted (timeGain n s) s).clk := by
  rw [elapse_eq, addLost_clk, prbsElapse_clk, holdCounted_clk, slewClosed_clk, timeAdded_clk]

/-- While CCLKs pass, a field's clock keeps its state and the time word that it loaded last (R107). -/
theorem tget?_elapse_clk (n : Nat) (s : State) (f : Nat) : ∃ g : FieldClk → FieldClk,
    tget? (elapse n s).clk f = (tget? s.clk f).map g ∧ ∀ k, (g k).clk = k.clk ∧ (g k).word = k.word := by
  rw [elapse_clk]
  obtain h | h := boundaryNoted_cases (timeGain n s) s <;> rw [h]
  · exact ⟨id, by rw [Option.map_id, id], fun k => ⟨rfl, rfl⟩⟩
  · exact ⟨_, tget?_tmap _ s.clk f, fun k => by split <;> exact ⟨rfl, rfl⟩⟩

/-! ### Time words (R107) -/

/-- A field clock that takes the time word of instant `t`, unless it runs at full rate. -/
def FieldClk.loadWord (s : State) (t f : Nat) (k : FieldClk) : FieldClk :=
  if k.clk = 0 then k
  else if nextTickAt s ≤ max k.word t then ({ k with word := max k.word t } : FieldClk).reach s f
  else { k with word := max k.word t }

theorem FieldClk.word_reach (k : FieldClk) (s : State) (f : Nat) : (k.reach s f).word = k.word := by
  unfold FieldClk.reach
  split <;> rfl

theorem FieldClk.word_loadWord (s : State) (t f : Nat) (k : FieldClk) :
    (k.loadWord s t f).word = if k.clk = 0 then k.word else max k.word t := by
  unfold FieldClk.loadWord
  split
  · rfl
  · split
    · rw [FieldClk.word_reach]
    · rfl

/-- Every field's clock takes the time word that GTB sends at the present edge. -/
def timeWordsLoaded (s : State) : State :=
  { s with clk := tmap (fun f k => k.loadWord s (s.gtb.now - crossing) f) s.clk }

theorem gtbTimeWord_eq (s : State) : gtbTimeWord s = timeWordsLoaded (elapse 8 s) := by
  unfold gtbTimeWord
  generalize elapse 8 s = t
  rfl

theorem timeWordsLoaded_clk (s : State) :
    (timeWordsLoaded s).clk = tmap (fun f k => k.loadWord s (s.gtb.now - crossing) f) s.clk := rfl

theorem timeWordsLoaded_gtb (s : State) : (timeWordsLoaded s).gtb = s.gtb := rfl

theorem gtbTimeWord_gtb (s : State) : (gtbTimeWord s).gtb = (elapse 8 s).gtb := by
  rw [gtbTimeWord_eq, timeWordsLoaded_gtb]

/-- A field's time word after GTB_TIME_WORD, from the clock that it had before. -/
theorem tget?_gtbTimeWord (s : State) (f : Nat) : ∃ g : FieldClk → FieldClk,
    tget? (gtbTimeWord s).clk f = (tget? s.clk f).map g ∧
      ∀ k, (g k).word = if k.clk = 0 then k.word else max k.word ((elapse 8 s).gtb.now - crossing) := by
  obtain ⟨g, hg, hkept⟩ := tget?_elapse_clk 8 s f
  refine ⟨fun k => (g k).loadWord (elapse 8 s) ((elapse 8 s).gtb.now - crossing) f, ?_, fun k => ?_⟩
  · rw [gtbTimeWord_eq, timeWordsLoaded_clk, tget?_tmap, hg, Option.map_map]
    rfl
  · obtain ⟨hclk, hword⟩ := hkept k
    rw [FieldClk.word_loadWord, hclk, hword]

theorem word_le_gtbTimeWord (s : State) (f : Nat) : (tget {} s.clk f).word ≤ (tget {} (gtbTimeWord s).clk f).word := by
  obtain ⟨g, hg, hword⟩ := tget?_gtbTimeWord s f
  rw [tget, tget, hg]
  cases tget? s.clk f with
  | none => exact Nat.le_refl _
  | some k =>
    simp only [Option.map_some, Option.getD_some, hword]
    split <;> omega

theorem word_gtbTimeWord {s : State} {f : Nat} {k : FieldClk} (hk : tget? s.clk f = some k) (hclk : k.clk ≠ 0) :
    (tget {} (gtbTimeWord s).clk f).word = max k.word ((gtbTimeWord s).gtb.now - crossing) := by
  obtain ⟨g, hg, hword⟩ := tget?_gtbTimeWord s f
  rw [tget, hg, hk, Option.map_some, Option.getD_some, hword, if_neg hclk, gtbTimeWord_gtb]

/-! ### Slews and instants (R101, R115) -/

theorem le_cdivN_mul (a : Nat) {b : Nat} (hb : 0 < b) : a ≤ cdivN a b * b := by
  have hdiv := Nat.div_add_mod (a + b - 1) b
  have hmod := Nat.mod_lt (a + b - 1) hb
  rw [cdivN, if_neg hb.ne', Nat.mul_comm]
  omega

theorem cdivN_mul_lt (a : Nat) {b : Nat} (hb : 0 < b) : cdivN a b * b < a + b := by
  have hdiv := Nat.div_mul_le_self (a + b - 1) b
  rw [cdivN, if_neg hb.ne']
  omega

theorem exec_slewEnd_of_slewing {s : State} (h : gtbSlewing s = true) :
    exec .slewEnd s = .next (elapse (cdivN s.gtb.slewLeft (max 1 (gtbBase s / 16))) s) := by
  change execSlewEnd s = _
  rw [execSlewEnd, if_pos h]

/-- The CCLKs of SLEW_END absorb the whole difference. -/
theorem slewLoss_of_slewEnd {s : State} (hslew : gtbSlewing s = true) (hbase : 16 ≤ gtbBase s) :
    slewLoss s (cdivN s.gtb.slewLeft (max 1 (gtbBase s / 16))) = s.gtb.slewLeft := by
  have hrate : 1 ≤ gtbBase s / 16 := by omega
  rw [slewLoss, if_pos hslew, Nat.max_eq_right hrate]
  exact Nat.min_eq_left (le_cdivN_mul _ hrate)

theorem timeGain_of_no_slew {s : State} (hslew : gtbSlewing s = false) (n : Nat) : timeGain n s = n * gtbBase s := by
  simp [timeGain, slewLoss, hslew]

theorem cclkTo_of_no_slew {s : State} {u : Nat} (hslew : gtbSlewing s = false) (hbase : 0 < gtbBase s)
    (hahead : s.gtb.now < u) : cclkTo u s = cdivN (u - s.gtb.now) (gtbBase s) := by
  simp [cclkTo, hslew, Nat.not_le.mpr hahead, Nat.max_eq_right hbase]

theorem now_advanceTo_of_no_slew {s : State} {u : Nat} (hslew : gtbSlewing s = false) (hbase : 0 < gtbBase s)
    (hahead : s.gtb.now < u) :
    (advanceTo u s).gtb.now = s.gtb.now + cdivN (u - s.gtb.now) (gtbBase s) * gtbBase s := by
  rw [advanceTo, if_neg (Nat.not_le.mpr hahead), (elapse_time _ s).1, timeGain_of_no_slew hslew,
    cclkTo_of_no_slew hslew hbase hahead]

/-- Time that passes to an instant ends at the first CCLK edge not before it. -/
theorem advanceTo_first_edge {s : State} {u : Nat} (hslew : gtbSlewing s = false) (hbase : 0 < gtbBase s)
    (hahead : s.gtb.now < u) : u ≤ (advanceTo u s).gtb.now ∧ (advanceTo u s).gtb.now < u + gtbBase s := by
  have hlow := le_cdivN_mul (u - s.gtb.now) hbase
  have hhigh := cdivN_mul_lt (u - s.gtb.now) hbase
  rw [now_advanceTo_of_no_slew hslew hbase hahead]
  omega

/-! ### Reads of group time (R119) -/

/-- What a read of GTB_NOW_LO leaves: the word read, and the rest of the time in the two capture registers. -/
def nowCaptured (s : State) : State :=
  let t := setReg (setReg s 0x90001C (nowNs s / 2 ^ 32)) 0x900020 (gtbQ s * 64 + s.gtb.now % 5120 / 80)
  { t with hif := { t.hif with rdata := nowNs s % 2 ^ 32 } }

theorem exec_gtbNowLoRead (s : State) : exec .gtbNowLoRead s = .next (nowCaptured s) := rfl

theorem reg_nowCaptured (s : State) : reg (nowCaptured s) 0x90001C = nowNs s / 2 ^ 32 % 2 ^ 32 ∧
    reg (nowCaptured s) 0x900020 = (gtbQ s * 64 + s.gtb.now % 5120 / 80) % 2 ^ 32 :=
  ⟨(reg_setReg_ne _ _ (by decide)).trans (reg_setReg_same _ _ _), reg_setReg_same _ _ _⟩

/-- Settles O21: losses and the end of HOLDOVER, slews, time words, reads, and the instant at which time arrives. -/
theorem groupTimeLostAndPassing : Obligations.GroupTimeLostAndPassing := by
  unfold Obligations.GroupTimeLostAndPassing
  refine ⟨⟨fun s hen harm => ?_, fun s hhold => ?_⟩, ⟨fun s hslew hbase => ?_, fun s => ?_, fun s => ?_⟩,
    fun s u => advanceTo_first_edge⟩
  · obtain ⟨hacq, href⟩ := gtbLoss_restarts true s
    have hslew := (regBit_gtbLoss true s (show 2 < 6 by decide) (by decide)).trans (slewing_lossTaken true s)
    refine ⟨_, exec_refLoss_of_armed hen harm, lossFlag_gtbLoss true s, hacq, href, hslew, fun hlock hlim => ?_,
      fun hlock hlim => ?_, fun hlock => ?_⟩
    · rw [gtbLoss_of_locked_held true hlock hlim, gtbState_holdoverBegun]
    · rw [gtbLoss_of_locked_unheld true hlock hlim]
      exact ⟨gtbState_gtbExpire _, holdExpired_gtbExpire _⟩
    · rw [gtbLoss_of_not_locked true hlock, gtbState_lossTaken]
  · exact ⟨_, exec_holdExpired_of_holdover hhold, gtbState_gtbExpire _, holdExpired_gtbExpire _⟩
  · have hleft := slewLoss_of_slewEnd hslew hbase
    have hgone := Nat.sub_eq_zero_of_le hleft.ge
    exact ⟨_, exec_slewEnd_of_slewing hslew, gtbSlewing_elapse_of_absorbed hslew hgone,
      (elapse_time _ s).2.trans hgone⟩
  · exact ⟨gtbTimeWord s, rfl, gtbTimeWord_gtb s, word_le_gtbTimeWord s, fun f k => word_gtbTimeWord⟩
  · obtain ⟨hhi, haux⟩ := reg_nowCaptured s
    exact ⟨_, exec_gtbNowLoRead s, rfl, hhi, haux, rfl⟩

end Sys2Proof.Machine
end

section
/-! Contexts and rings of the host interface, and the queue of entries: what is read after a write (R122, R139, R140,
R160). -/

namespace Sys2Proof.Machine

open Sys2Proof

/-! ### Contexts and rings -/

/-- The state of a context depends on the table of contexts alone. -/
theorem hctx_congr {s t : State} (h : t.hif.ctx = s.hif.ctx) (c : Nat) : hctx t c = hctx s c := by
  simp only [hctx, h]

theorem ringOf_congr {s t : State} {c : Nat} (h : (hctx t c).rings = (hctx s c).rings) (r : Nat) :
    ringOf t c r = ringOf s c r := by
  simp only [ringOf, h]

@[simp] theorem hctx_setHctx_same (s : State) (c : Nat) (h : HifCtx) : hctx (setHctx s c h) c = h :=
  tget_tput_same _ _ _ _

theorem hctx_setHctx_ne (s : State) {c d : Nat} (h : HifCtx) (hne : d ≠ c) : hctx (setHctx s c h) d = hctx s d :=
  tget_tput_ne _ _ _ hne

@[simp] theorem hctx_setRegBit (s : State) (o i : Nat) (b : Bool) (c : Nat) : hctx (setRegBit s o i b) c = hctx s c :=
  rfl

@[simp] theorem ringOf_setRing_same (s : State) (c r : Nat) (x : Ring) : ringOf (setRing s c r x) c r = x := by
  simp [ringOf, setRing]

/-! ### The queue of entries (R34, R160) -/

/-- The state whose queue of entries has one more at its end. -/
def entryAdded (s : State) (e : HifEntry) : State := { s with hif := { s.hif with cplQ := s.hif.cplQ ++ [e] } }

/-- The marks of an entry that found the queue full. -/
def entryOverrun (s : State) : State := setRegBit (queueOverrun s 0x100020 1) 0x100004 1 true

/-- An entry joins the queue, at a full one with the marks of an overrun. -/
theorem sendEntry_eq (s : State) (e : HifEntry) : sendEntry s e =
    if (writable s e && decide (32 ≤ cplLoad s)) = true then entryOverrun (entryAdded s e) else entryAdded s e := by
  cases h : writable s e && decide (32 ≤ cplLoad s) <;> simp only [sendEntry, h] <;> rfl

theorem sendEntry_cases (s : State) (e : HifEntry) :
    sendEntry s e = entryAdded s e ∨ sendEntry s e = entryOverrun (entryAdded s e) := by
  rw [sendEntry_eq]
  split
  case isTrue => exact .inr rfl
  case isFalse => exact .inl rfl

/-- Sending an entry changes the queue of entries and registers alone. -/
theorem sendEntry_frame (s : State) (e : HifEntry) :
    sendEntry s e = { s with hif := (entryAdded s e).hif, regs := (sendEntry s e).regs } := by
  obtain h | h := sendEntry_cases s e <;> rw [h] <;> rfl

@[simp] theorem sendEntry_hif (s : State) (e : HifEntry) :
    (sendEntry s e).hif = { s.hif with cplQ := s.hif.cplQ ++ [e] } := by
  rw [sendEntry_frame]
  rfl

theorem reg_entryOverrun (s : State) {o : Nat} (ho : 0x100028 < o) : reg (entryOverrun s) o = reg s o := by
  rw [entryOverrun, reg_setRegBit_ne _ _ _ (by omega), queueOverrun, reg_setRegFld_ne _ _ _ _ (by omega),
    reg_setRegBit_ne _ _ _ (by omega)]

/-- The marks of a full queue stand in the first registers of HIF. -/
theorem reg_sendEntry (s : State) (e : HifEntry) {o : Nat} (ho : 0x100028 < o) : reg (sendEntry s e) o = reg s o := by
  obtain h | h := sendEntry_cases s e <;> rw [h]
  · rfl
  · exact reg_entryOverrun _ ho

/-- With fewer than 32 entries there is no overrun. -/
theorem sendEntry_of_room {s : State} (hroom : s.hif.cplQ.length < 32) (e : HifEntry) :
    sendEntry s e = entryAdded s e := by
  have hload : cplLoad s < 32 := Nat.lt_of_le_of_lt (List.length_filter_le _ _) hroom
  rw [sendEntry_eq, decide_eq_false (Nat.not_le.mpr hload), Bool.and_false, if_neg Bool.false_ne_true]

/-! ### Interrupt messages (R152, R153) -/

theorem sendMsg_msgs (s : State) (c : Nat) : (sendMsg s c).hif.msgs = s.hif.msgs ++
    [{ ctx := c, addr := reg s (hifBase c + 0x38) / 4 * 4 + 2 ^ 32 * reg s (hifBase c + 0x3C),
       data := reg s (hifBase c + 0x40) }] := rfl

theorem hctx_sendMsg_same (s : State) (c : Nat) :
    hctx (sendMsg s c) c = { hctx s c with irqPending := false, lastMsg := some s.gtb.now } :=
  hctx_setHctx_same s c _

/-- A cause is kept or its message sent, and no other field of a context changes. -/
theorem hctx_raiseIrq (s : State) (c d : Nat) : ∃ p m,
    hctx (raiseIrq s c) d = { hctx s d with irqPending := p, lastMsg := m } := by
  by_cases hd : d = c
  · subst hd
    unfold raiseIrq
    split
    case isTrue => exact ⟨_, _, hctx_setHctx_same s d _⟩
    case isFalse => exact ⟨_, _, hctx_sendMsg_same s d⟩
  · refine ⟨(hctx s d).irqPending, (hctx s d).lastMsg, ?_⟩
    unfold raiseIrq
    split <;> exact hctx_setHctx_ne s _ hd

/-! ### Events (R140, R149) -/

/-- What an event of context `c` may change: the queue of entries, the count of lost events, and the marks of a loss
and of a full queue. -/
structure EventFrame (c : Nat) (s t : State) : Prop where
  state : t = { s with hif := t.hif, regs := t.regs }
  hif : t.hif = { s.hif with ctx := t.hif.ctx, cplQ := t.hif.cplQ }
  ctxs : ∀ d, ∃ k, hctx t d = { hctx s d with evSince := k }
  regs : ∀ o, 0x100028 < o → o ≠ hifBase c + 4 → o ≠ hifBase c + 0x34 → reg t o = reg s o

theorem EventFrame.refl (c : Nat) (s : State) : EventFrame c s s :=
  ⟨rfl, rfl, fun _ => ⟨_, rfl⟩, fun _ _ _ _ => rfl⟩

theorem EventFrame.trans {c : Nat} {s t u : State} (hst : EventFrame c s t) (htu : EventFrame c t u) :
    EventFrame c s u where
  state := by rw [htu.state, hst.state]
  hif := by rw [htu.hif, hst.hif]
  ctxs d := by
    obtain ⟨k, hk⟩ := htu.ctxs d
    obtain ⟨j, hj⟩ := hst.ctxs d
    exact ⟨k, by rw [hk, hj]⟩
  regs o ho hstat hlost := (htu.regs o ho hstat hlost).trans (hst.regs o ho hstat hlost)

theorem EventFrame.ite {c : Nat} {s t u : State} {p : Prop} [Decidable p] (ht : EventFrame c s t)
    (hu : EventFrame c s u) : EventFrame c s (if p then t else u) := by
  split <;> assumption

/-- Rings and the counts of CQ and EQ stay where an event is raised. -/
theorem EventFrame.rings {c : Nat} {s t : State} (h : EventFrame c s t) (d r : Nat) :
    ringOf t d r = ringOf s d r := by
  obtain ⟨k, hk⟩ := h.ctxs d
  exact ringOf_congr (by rw [hk]) r

theorem eventFrame_sendEntry (c : Nat) (s : State) (e : HifEntry) : EventFrame c s (sendEntry s e) where
  state := by rw [sendEntry_frame]
  hif := by rw [sendEntry_hif]
  ctxs d := ⟨_, hctx_congr (by rw [sendEntry_hif]) d⟩
  regs o ho _ _ := reg_sendEntry s e ho

theorem eventFrame_setSince (c : Nat) (s : State) (k : Nat) :
    EventFrame c s (setHctx s c { hctx s c with evSince := k }) where
  state := rfl
  hif := rfl
  ctxs d := by
    by_cases hd : d = c
    · subst hd
      exact ⟨k, hctx_setHctx_same s d _⟩
    · exact ⟨_, hctx_setHctx_ne s _ hd⟩
  regs _ _ _ _ := rfl

theorem reg_dropEvent_ne (s : State) (c : Nat) {o : Nat} (hstat : o ≠ hifBase c + 4) (hlost : o ≠ hifBase c + 0x34) :
    reg (dropEvent s c) o = reg s o := by
  rw [dropEvent, reg_setRegBit_ne _ _ _ hstat, reg_addReg_ne _ _ hlost, reg_setHctx]

theorem eventFrame_dropEvent (c : Nat) (s : State) : EventFrame c s (dropEvent s c) where
  state := rfl
  hif := rfl
  ctxs := (eventFrame_setSince c s _).ctxs
  regs _ _ hstat hlost := reg_dropEvent_ne s c hstat hlost

theorem flushLost_of_none {s : State} {c : Nat} (h : (hctx s c).evSince = 0) : flushLost s c = s := by
  simp [flushLost, h]

theorem flushLost_of_full {s : State} {c : Nat} (h : eqFree s c = false) : flushLost s c = s := by
  simp [flushLost, h]

/-- The entry that tells how many events were lost (R140). -/
def lostEntry (s : State) (c : Nat) : EvEntry :=
  { ctx := c, type := 0x0005, sev := 1, src := 5, vint := 0, payload := (hctx s c).evSince, stamp := cellarStamp s }

theorem flushLost_of_due {s : State} {c : Nat} (hlost : (hctx s c).evSince ≠ 0) (hfree : eqFree s c = true) :
    flushLost s c = sendEntry (setHctx s c { hctx s c with evSince := 0 }) (.event (lostEntry s c)) := by
  simp only [flushLost, Nat.pos_of_ne_zero hlost, hfree, decide_true, Bool.and_self, if_true]
  rfl

theorem eventFrame_flushLost (c : Nat) (s : State) : EventFrame c s (flushLost s c) := by
  unfold flushLost
  exact .ite ((eventFrame_setSince c s 0).trans (eventFrame_sendEntry c _ _)) (.refl c s)

theorem eventFrame_raiseEvent (s : State) (c type sev src vint payload : Nat) :
    EventFrame c s (raiseEvent s c type sev src vint payload) := by
  unfold raiseEvent
  have hflush := eventFrame_flushLost c s
  exact .ite (eventFrame_dropEvent c s) (.ite (hflush.trans (eventFrame_sendEntry c _ _))
    (hflush.trans (eventFrame_dropEvent c _)))

end Sys2Proof.Machine
end

section
/-! What deciding a completion does (R137, R145, R148, R160), and the entries written to host memory (R139, R147). -/

namespace Sys2Proof.Machine

open Sys2Proof

/-! ### The parts of `complete` -/

theorem showLoad_of_load {s : State} {m : Cmd} (h : m.opcode = 0x0100) (status : Nat) :
    showLoad s m status = setRegFld s 0x200000 15 8 status := if_pos h

theorem showLoad_of_other {s : State} {m : Cmd} (h : m.opcode ≠ 0x0100) (status : Nat) : showLoad s m status = s :=
  if_neg h

theorem regsFrame_showLoad (s : State) (m : Cmd) (status : Nat) : RegsFrame s (showLoad s m status) := by
  unfold showLoad
  split <;> rfl

theorem showLoad_hif (s : State) (m : Cmd) (status : Nat) : (showLoad s m status).hif = s.hif := by
  rw [regsFrame_showLoad]

theorem reg_showLoad_ne (s : State) (m : Cmd) (status : Nat) {o : Nat} (ho : o ≠ 0x200000) :
    reg (showLoad s m status) o = reg s o := by
  unfold showLoad
  split
  · exact reg_setRegFld_ne _ _ _ _ ho
  · rfl

/-- The completion entry of a command (R148). -/
def cplOf (s : State) (m : Cmd) (status detail result reruns : Nat) : Cpl :=
  { ctx := m.ctx, ring := m.ring, seq := m.seq, opcode := m.opcode, status := status, detail := detail,
    result := result, stamp := cellarStamp s, reruns := min reruns 7, irq := bitAt m.flags 2, uid := m.uid }

/-- The state in which a command's completion is decided and its entry has yet to be written. -/
def markedDone (s : State) (m : Cmd) : State :=
  { s with hif := { s.hif with
      outs := modWhere (fun o => o.of m.ctx m.ring m.seq m.uid) (fun o => { o with done := true }) s.hif.outs } }

/-- The state in which a command is outstanding no more. -/
def forgotten (s : State) (m : Cmd) : State :=
  { s with hif := { s.hif with outs := s.hif.outs.filter fun o => !o.of m.ctx m.ring m.seq m.uid } }

section
variable {s : State} {m : Cmd} {status : Nat} (hsafe : s.saf.safe = false)
include hsafe

/-- Under QUIET a command that ends well stops being outstanding, with no entry (R134). -/
theorem complete_of_quiet (hquiet : bitAt m.flags 1 = true) (hok : status = 0) (detail result reruns : Nat) :
    complete s m status detail result reruns = forgotten (showLoad s m status) m := by
  simp only [complete, hsafe, hquiet, hok, Bool.false_and, Bool.false_eq_true, if_false, decide_true, Bool.and_self,
    if_true]
  rfl

theorem complete_of_entry (hentry : bitAt m.flags 1 = false ∨ status ≠ 0) (detail result reruns : Nat) :
    complete s m status detail result reruns = sendEntry (markedDone (showLoad s m status) m)
      (.cpl (cplOf (showLoad s m status) m status detail result reruns)) := by
  have hshown : (bitAt m.flags 1 && decide (status = 0)) = false := by
    rcases hentry with h | h <;> simp [h]
  simp only [complete, hsafe, hshown, Bool.false_and, Bool.false_eq_true, if_false]
  rfl

/-- The two ways in which a completion is decided outside the safe state. -/
theorem complete_cases (detail result reruns : Nat) :
    complete s m status detail result reruns = forgotten (showLoad s m status) m ∨
    ∃ e, complete s m status detail result reruns = sendEntry (markedDone (showLoad s m status) m) e := by
  by_cases h : bitAt m.flags 1 = true ∧ status = 0
  · exact .inl (complete_of_quiet hsafe h.1 h.2 _ _ _)
  · refine .inr ⟨_, complete_of_entry hsafe ?_ _ _ _⟩
    simpa [or_iff_not_imp_left] using h

theorem complete_frame (detail result reruns : Nat) : complete s m status detail result reruns =
    { s with hif := (complete s m status detail result reruns).hif
             regs := (complete s m status detail result reruns).regs } := by
  have hshow := regsFrame_showLoad s m status
  obtain h | ⟨e, h⟩ := complete_cases (m := m) (status := status) hsafe detail result reruns
  · rw [h, forgotten, hshow]
  · rw [h, sendEntry_frame, entryAdded, markedDone, hshow]

theorem complete_mgc (detail result reruns : Nat) : (complete s m status detail result reruns).mgc = s.mgc := by
  rw [complete_frame hsafe]

theorem complete_unitQ (detail result reruns : Nat) :
    (complete s m status detail result reruns).hif.unitQ = s.hif.unitQ := by
  obtain h | ⟨e, h⟩ := complete_cases (m := m) (status := status) hsafe detail result reruns
  · rw [h, forgotten, showLoad_hif]
  · rw [h, sendEntry_hif, markedDone, showLoad_hif]

/-- LAST_STATUS and the marks of a full queue are the only registers that a completion touches. -/
theorem reg_complete_showLoad (detail result reruns : Nat) {o : Nat} (ho : 0x100028 < o) :
    reg (complete s m status detail result reruns) o = reg (showLoad s m status) o := by
  obtain h | ⟨e, h⟩ := complete_cases (m := m) (status := status) hsafe detail result reruns <;> rw [h]
  · rfl
  · exact reg_sendEntry _ e ho

theorem reg_complete (detail result reruns : Nat) {o : Nat} (ho : 0x100028 < o) (hload : o ≠ 0x200000) :
    reg (complete s m status detail result reruns) o = reg s o :=
  (reg_complete_showLoad hsafe _ _ _ ho).trans (reg_showLoad_ne s m status hload)

theorem lastStatus_complete (hop : m.opcode = 0x0100) (detail result reruns : Nat) :
    regFld (complete s m status detail result reruns) 0x200000 15 8 = status % 256 := by
  rw [regFld, reg_complete_showLoad hsafe _ _ _ (by decide), showLoad_of_load hop]
  exact regFld_setRegFld_same _ _ _ _ _ (by decide) (by decide)

theorem complete_regs_of_room (hop : m.opcode ≠ 0x0100) (hroom : s.hif.cplQ.length < 32)
    (detail result reruns : Nat) : (complete s m status detail result reruns).regs = s.regs := by
  obtain h | ⟨e, h⟩ := complete_cases (m := m) (status := status) hsafe detail result reruns <;>
    rw [h, showLoad_of_other hop]
  · rfl
  · rw [sendEntry_of_room (by exact hroom)]
    rfl

/-- The entry of a command joins those that wait, as they were in any state with the same ones. -/
theorem answered_complete {s₀ : State} (hq : s.hif.cplQ = s₀.hif.cplQ) (hentry : bitAt m.flags 1 = false ∨ status ≠ 0)
    (detail result reruns : Nat) :
    answered s₀ (complete s m status detail result reruns) m status detail result := by
  refine ⟨cplOf (showLoad s m status) m status detail result reruns, ?_, rfl, rfl, rfl, rfl, rfl, rfl, rfl⟩
  rw [complete_of_entry hsafe hentry, sendEntry_hif, markedDone, showLoad_hif, hq]

end

/-- Settles O15, by the two ways in which a completion is decided. -/
theorem completionDecided : Obligations.CompletionDecided := by
  unfold Obligations.CompletionDecided
  intro s m status detail result reruns hsafe
  refine ⟨fun hentry => answered_complete hsafe rfl hentry _ _ _, fun hquiet hok => ?_, complete_frame hsafe _ _ _,
    fun hop => lastStatus_complete hsafe hop _ _ _, fun hop hroom => complete_regs_of_room hsafe hop hroom _ _ _⟩
  rw [complete_of_quiet hsafe hquiet hok, forgotten, showLoad_hif]
  exact ⟨rfl, rfl⟩

/-! ### Entries written to host memory -/

theorem exec_completionEntryWrite_of_first {s : State} {e : HifEntry} {rest : List HifEntry}
    (hq : s.hif.cplQ = e :: rest) (hw : writable s e = true) :
    exec .completionEntryWrite s = .next (writeEntry { s with hif := { s.hif with cplQ := rest } } e) := by
  change execCompletionEntryWrite s = _
  simp only [execCompletionEntryWrite, hq, takeFirst, hw, if_true]

/-- An interrupt cause changes no count of a context. -/
theorem cqProd_raiseIrq (s : State) (c d : Nat) : (hctx (raiseIrq s c) d).cqProd = (hctx s d).cqProd := by
  obtain ⟨p, m, h⟩ := hctx_raiseIrq s c d
  rw [h]

theorem eqProd_raiseIrq (s : State) (c d : Nat) : (hctx (raiseIrq s c) d).eqProd = (hctx s d).eqProd := by
  obtain ⟨p, m, h⟩ := hctx_raiseIrq s c d
  rw [h]

theorem EventFrame.cqProd {c : Nat} {s t : State} (h : EventFrame c s t) (d : Nat) :
    (hctx t d).cqProd = (hctx s d).cqProd := by
  obtain ⟨k, hk⟩ := h.ctxs d
  rw [hk]

theorem EventFrame.eqProd {c : Nat} {s t : State} (h : EventFrame c s t) (d : Nat) :
    (hctx t d).eqProd = (hctx s d).eqProd := by
  obtain ⟨k, hk⟩ := h.ctxs d
  rw [hk]

/-- CQ_FULL is raised at most once until the CQ has room again (R139, R140). -/
def cqFullNoted (s : State) (c : Nat) : State :=
  if !cqFree s c && !(hctx s c).cqFullSent then
    let s := setRegBit (setHctx s c { hctx s c with cqFullSent := true }) (hifBase c + 4) 3 true
    raiseEvent s c 0x0004 0 4 0 (hctx s c).cqProd
  else s

theorem cqProd_cqFullNoted (s : State) (c : Nat) : (hctx (cqFullNoted s c) c).cqProd = (hctx s c).cqProd := by
  unfold cqFullNoted
  split
  · rw [(eventFrame_raiseEvent _ _ _ _ _ _ _).cqProd, hctx_setRegBit, hctx_setHctx_same]
  · rfl

/-- The state in which a completion entry stands in host memory, before CQ_FULL and the interrupt cause. -/
def cplStored (s : State) (e : Cpl) : State :=
  let h := hctx s e.ctx
  let n := cqSize s e.ctx
  let s := setHctx (hostWrite s e.ctx (cqBase s e.ctx + h.cqProd % n * 32)
    (cplBytes e (ringOf s e.ctx e.ring).head (phaseOf h.cqProd n))) e.ctx { h with cqProd := cadd h.cqProd 1 }
  { s with hif := { s.hif with outs := s.hif.outs.filter fun o => !o.of e.ctx e.ring e.seq e.uid } }

theorem writeCpl_eq (s : State) (e : Cpl) : writeCpl s e =
    if e.irq || (decide (e.status ≠ 0) && regBit (cqFullNoted (cplStored s e) e.ctx) (hifBase e.ctx + 0x44) 29) then
      raiseIrq (cqFullNoted (cplStored s e) e.ctx) e.ctx
    else cqFullNoted (cplStored s e) e.ctx := rfl

theorem cqProd_cplStored (s : State) (e : Cpl) :
    (hctx (cplStored s e) e.ctx).cqProd = cadd (hctx s e.ctx).cqProd 1 :=
  congrArg HifCtx.cqProd (hctx_setHctx_same _ _ _)

theorem cqProd_writeCpl (s : State) (e : Cpl) :
    (hctx (writeCpl s e) e.ctx).cqProd = cadd (hctx s e.ctx).cqProd 1 := by
  rw [writeCpl_eq]
  split
  · rw [cqProd_raiseIrq, cqProd_cqFullNoted, cqProd_cplStored]
  · rw [cqProd_cqFullNoted, cqProd_cplStored]

/-- The state in which an event entry stands in host memory, before its interrupt cause (R149). -/
def eventStored (s : State) (e : EvEntry) : State :=
  let h := hctx s e.ctx
  let n := eqSize s e.ctx
  setHctx (hostWrite s e.ctx (eqBase s e.ctx + h.eqProd % n * 32)
    (eventBytes e.type e.sev e.src e.vint e.payload e.stamp (phaseOf h.eqProd n))) e.ctx
    { h with eqProd := cadd h.eqProd 1 }

theorem eqProd_writeEvent (s : State) (e : EvEntry) (d : Nat) :
    (hctx (writeEvent s e) d).eqProd = (hctx (eventStored s e) d).eqProd := by
  change (hctx (if regFld (eventStored s e) (hifBase e.ctx + 0x28) 9 8 ≤ e.sev then raiseIrq (eventStored s e) e.ctx
    else eventStored s e) d).eqProd = _
  split
  · exact eqProd_raiseIrq _ _ _
  · rfl

theorem eqProd_writeEvent_same (s : State) (e : EvEntry) :
    (hctx (writeEvent s e) e.ctx).eqProd = cadd (hctx s e.ctx).eqProd 1 := by
  rw [eqProd_writeEvent]
  exact congrArg HifCtx.eqProd (hctx_setHctx_same _ _ _)

theorem eqProd_writeEvent_ne (s : State) (e : EvEntry) {d : Nat} (h : d ≠ e.ctx) :
    (hctx (writeEvent s e) d).eqProd = (hctx s d).eqProd := by
  rw [eqProd_writeEvent]
  exact congrArg HifCtx.eqProd (hctx_setHctx_ne _ _ h)

/-! ### NOP (R155) -/

/-- A unit takes the first of the accepted commands where that one has its opcode. -/
theorem popUnit_of_first {s : State} {p : Cmd → Bool} {m : Cmd} {rest : List Cmd} (hq : s.hif.unitQ = m :: rest)
    (hp : p m = true) : popUnit s p = some (m, queueIs s rest) := by
  simp [popUnit, hq, takeUnit, hp, queueIs]

theorem exec_nop_of_first {s : State} {m : Cmd} {rest : List Cmd} (hq : s.hif.unitQ = m :: rest)
    (hop : m.opcode = 0) : exec .nop s = .next (completeOk (queueIs s rest) m (m.at 4 8)) := by
  change execNop s = _
  rw [execNop, popUnit_of_first hq (by simp [hop])]

/-- Settles O13: the two kinds of entries that stand first, and a NOP. -/
theorem completionPath : Obligations.CompletionPath := by
  unfold Obligations.CompletionPath
  refine ⟨fun s e rest hq hfree => ⟨exec_completionEntryWrite_of_first hq hfree, cqProd_writeCpl _ e⟩,
    fun s e rest hq => exec_completionEntryWrite_of_first hq rfl, fun s m rest hq hop hsafe hflag => ?_⟩
  have hload : m.opcode ≠ 0x0100 := by rw [hop]; decide
  have hsafe' : (queueIs s rest).saf.safe = false := hsafe
  have hentry := complete_of_entry hsafe' (status := 0) (.inl hflag) 0 (m.at 4 8) 0
  rw [showLoad_of_other hload] at hentry
  refine ⟨_, cplOf (queueIs s rest) m 0 0 (m.at 4 8) 0, exec_nop_of_first hq hop, complete_unitQ hsafe' _ _ _, ?_,
    rfl, rfl, rfl, rfl, rfl, rfl, rfl, complete_frame hsafe' _ _ _,
    fun hroom => complete_regs_of_room hsafe' hload hroom _ _ _⟩
  rw [completeOk, hentry, sendEntry_hif]
  rfl

end Sys2Proof.Machine
end

section
/-! Doorbells and interrupt messages (R128-R132, R140, R152, R153). -/

namespace Sys2Proof.Machine

open Sys2Proof

/-! ### Ring doorbells (R129, R132) -/

/-- The state in which what was written to host memory before a doorbell is visible (R132). -/
def hostSeen (s : State) (c : Nat) (mem : List (Nat × BitVec 8)) : State :=
  { s with host := mwriteCells s.host (mem.map fun a => (hostKey s c a.1, a.2)) }

theorem exec_sqnDb_next (s : State) (c : Fin 64) (r : Fin 4) (v : Word) (mem : List (Nat × BitVec 8)) :
    ∃ t, exec (.sqnDb c r v mem) s = .next t := by
  change ∃ t, execSqnDb c r v mem s = .next t
  simp only [execSqnDb]
  split_ifs <;> exact ⟨_, rfl⟩

section
variable {s : State} {c : Fin 64} {r : Fin 4}

/-- A doorbell of a ring that holds so many descriptors sets its producer count. -/
theorem exec_sqnDb_of_held {v : Word} (hon : ctxEnabled s c = true) (hring : ringEn s c r = true)
    (hlast : cdiff v.toNat (ringOf s c r).dbLast ≤ sqSize s c r)
    (hhead : cdiff v.toNat (ringOf s c r).head ≤ sqSize s c r) (mem : List (Nat × BitVec 8)) :
    exec (.sqnDb c r v mem) s =
      .next (setRing (hostSeen s c mem) c r { ringOf s c r with dbLast := v.toNat }) := by
  have hoff : ¬((!ctxEnabled (hostSeen s c mem) c || !ringEn (hostSeen s c mem) c r) = true) := by
    change ¬((!ctxEnabled s c || !ringEn s c r) = true)
    simp [hon, hring]
  have hheld : (decide (cdiff v.toNat (ringOf (hostSeen s c mem) c r).dbLast ≤ sqSize (hostSeen s c mem) c r) &&
      decide (cdiff v.toNat (ringOf (hostSeen s c mem) c r).head ≤ sqSize (hostSeen s c mem) c r)) = true := by
    change (decide (cdiff v.toNat (ringOf s c r).dbLast ≤ sqSize s c r) &&
      decide (cdiff v.toNat (ringOf s c r).head ≤ sqSize s c r)) = true
    simp [hlast, hhead]
  exact (if_neg hoff).trans (if_pos hheld)

theorem exec_sqnDb_of_off (v : Word) (hoff : (ctxEnabled s c && ringEn s c r) = false) :
    exec (.sqnDb c r v []) s = .next (setRegBit s (sqBase c r + 0x14) 1 true) := by
  have hrefused : (!ctxEnabled s c || !ringEn s c r) = true := by
    rw [← Bool.not_and, hoff]
    rfl
  exact if_pos hrefused

end

/-- One byte written before a doorbell that is accepted stands in host memory, and no other byte differs. -/
theorem sqnDb_writes_host {s : State} {c : Fin 64} {r : Fin 4} {v : Word} {t : State} (a : Nat) (b : BitVec 8)
    (hwf : Memory.wf s.host = true) (ht : exec (.sqnDb c r v [(a, b)]) s = .next t) (hon : ctxEnabled s c = true)
    (hring : ringEn s c r = true) (hlast : cdiff v.toNat (ringOf s c r).dbLast ≤ sqSize s c r)
    (hhead : cdiff v.toNat (ringOf s c r).head ≤ sqSize s c r) :
    mread t.host (hostKey s c a) = b ∧ (ringOf t c r).dbLast = v.toNat ∧
      ∀ k, k ≠ hostKey s c a → mread t.host k = mread s.host k := by
  rw [exec_sqnDb_of_held hon hring hlast hhead] at ht
  injection ht with ht
  subst ht
  refine ⟨(mread_mwrite hwf _ _ _).trans (if_pos rfl), ?_, fun k hk => (mread_mwrite hwf _ _ _).trans (if_neg hk)⟩
  rw [ringOf_setRing_same]

/-! ### Consumer doorbells (R130, R131) -/

/-- Doorbells and events are taken for a context that is enabled or has work. -/
theorem not_dead_of_live {s : State} {c : Nat} (hlive : ctxEnabled s c = true ∨ ctxIdle s c = false) :
    ¬((!ctxEnabled s c && ctxIdle s c) = true) := by
  rcases hlive with h | h <;> simp [h]

section
variable {s : State} {c : Fin 64}

theorem exec_cqDb_of_held {v : Word} (hlive : ctxEnabled s c = true ∨ ctxIdle s c = false)
    (hheld : cdiff v.toNat (hctx s c).cqCons ≤ cdiff (hctx s c).cqProd (hctx s c).cqCons) :
    exec (.cqDb c v) s = .next (setHctx s c { hctx s c with
      cqCons := v.toNat
      cqFullSent := (hctx s c).cqFullSent && !decide (cdiff (hctx s c).cqProd v.toNat < cqSize s c) }) :=
  (if_neg (not_dead_of_live hlive)).trans (if_pos hheld)

theorem exec_cqDb_of_dead (v : Word) (hdead : ctxEnabled s c = false) (hidle : ctxIdle s c = true) :
    exec (.cqDb c v) s = .next (setRegBit s (hifBase c + 4) 1 true) :=
  if_pos (by simp [hdead, hidle])

theorem exec_eqDb_of_dead (v : Word) (hdead : ctxEnabled s c = false) (hidle : ctxIdle s c = true) :
    exec (.eqDb c v) s = .next (setRegBit s (hifBase c + 4) 5 true) :=
  if_pos (by simp [hdead, hidle])

theorem exec_eqDb_of_held {v : Word} (hlive : ctxEnabled s c = true ∨ ctxIdle s c = false)
    (hheld : cdiff v.toNat (hctx s c).eqCons ≤ cdiff (hctx s c).eqProd (hctx s c).eqCons) :
    exec (.eqDb c v) s = .next (flushLost (setHctx s c { hctx s c with eqCons := v.toNat }) c) :=
  (if_neg (not_dead_of_live hlive)).trans (if_pos hheld)

end

/-! ### MASK and the holdoff (R152, R153) -/

theorem exec_irqRearmSet (s : State) (c : Fin 64) :
    exec (.irqRearmSet c) s = .next (setRegBit s (hifBase c + 0x44) 31 true) := rfl

/-- The state in which MASK of a context is clear. -/
def unmasked (s : State) (c : Nat) : State := setRegBit s (hifBase c + 0x44) 31 false

theorem exec_irqRearmClear (s : State) (c : Fin 64) : exec (.irqRearmClear c) s = .next
    (if ((hctx s c).irqPending && !inHoldoff (unmasked s c) c) = true then sendMsg (unmasked s c) c
      else unmasked s c) := rfl

theorem inHoldoff_of_no_message {s : State} {c : Nat} (h : (hctx s c).lastMsg = none) : inHoldoff s c = false := by
  simp only [inHoldoff, h]

theorem regBit_unmasked (s : State) (c : Nat) : regBit (unmasked s c) (hifBase c + 0x44) 31 = false :=
  regBit_setRegBit_same _ _ _ _ (by decide)

/-- A pending cause behind MASK is sent when MASK is cleared and no message holds it off. -/
theorem irqRearmClear_sends {s : State} {c : Fin 64} (hpend : (hctx s c).irqPending = true)
    (hlast : (hctx s c).lastMsg = none) : exec (.irqRearmClear c) s = .next (sendMsg (unmasked s c) c) := by
  have hheld : inHoldoff (unmasked s c) c = false := inHoldoff_of_no_message hlast
  rw [exec_irqRearmClear, if_pos (by rw [hpend, hheld]; rfl)]

theorem irqRearmClear_of_none {s : State} {c : Fin 64} (hpend : (hctx s c).irqPending = false) :
    exec (.irqRearmClear c) s = .next (unmasked s c) := by
  rw [exec_irqRearmClear, if_neg (by simp [hpend])]

/-- A doorbell page read in a wrong way answers zero, with DB_BAD_ACCESS (R128). -/
theorem doorbellBadAccess_flags (s : State) (c : Fin 64) : ∃ t, exec (.doorbellBadAccess c) s = .next t ∧
    t.hif = { s.hif with rdata := 0 } ∧ regBit t (hifBase c + 4) 6 = true ∧
    t = { s with hif := t.hif, regs := t.regs } :=
  ⟨_, rfl, rfl, regBit_setRegBit_same s _ 6 true (by decide), rfl⟩

theorem advanceTo_of_past {s : State} {u : Nat} (h : u ≤ s.gtb.now) : advanceTo u s = s := if_pos h

theorem regsFrame_countLate (s : State) (late : Bool) : RegsFrame s (countLate s late) := by
  cases late <;> rfl

theorem reg_countLate_ne (s : State) (late : Bool) {o : Nat} (ho : o ≠ 0x90002C) :
    reg (countLate s late) o = reg s o := by
  cases late
  · rfl
  · exact reg_addReg_ne s 1 ho

/-- The end of a holdoff that group time has reached sends one message for the causes that wait. -/
theorem exec_holdoffEnd_of_pending {s : State} {c : Fin 64} {u : Nat} (hlast : (hctx s c).lastMsg = some u)
    (hpast : u + holdoff s c ≤ s.gtb.now) (hpend : (hctx s c).irqPending = true)
    (hmask : regBit s (hifBase c + 0x44) 31 = false) :
    exec (.holdoffEnd c) s = .next (sendMsg (countLate s (inJump s (u + holdoff s c))) c) := by
  generalize hlate : inJump s (u + holdoff s c) = late
  have hframe := regsFrame_countLate s late
  have hnow : u + holdoff s c ≤ (countLate s late).gtb.now := by rwa [hframe]
  have hpend' : (hctx (countLate s late) c).irqPending = true := by rwa [hctx_congr (s := s) (by rw [hframe])]
  have hmask' : regBit (countLate s late) (hifBase c + 0x44) 31 = false := by
    rwa [regBit, reg_countLate_ne s late (by unfold hifBase; omega)]
  change execHoldoffEnd c s = _
  simp only [execHoldoffEnd, hlast, hlate, advanceTo_of_past hnow, hpend', hmask', Bool.not_false, Bool.and_self,
    if_true]

/-- Settles O12: the doorbells of rings, those of CQ and EQ, then MASK, the holdoff and wrong accesses. -/
theorem doorbells : Obligations.Doorbells := by
  unfold Obligations.Doorbells
  refine ⟨⟨fun s c r v hon hring hlast hhead => exec_sqnDb_of_held hon hring hlast hhead [],
      fun s c r v a b hwf => ?_, fun s c r v hoff => ?_⟩,
    ⟨fun s c v hlive hheld => ?_, fun s c v hdead hidle => ⟨exec_cqDb_of_dead v hdead hidle,
      exec_eqDb_of_dead v hdead hidle⟩, fun s c v hlive hheld hsince => ?_⟩,
    ⟨fun s c => ?_, fun s c hpend hlast => ?_, fun s c hpend => ?_, doorbellBadAccess_flags,
      fun s c u hlast hpast hpend hmask => exec_holdoffEnd_of_pending hlast hpast hpend hmask⟩⟩
  · obtain ⟨t, ht⟩ := exec_sqnDb_next s c r v [(a, b)]
    exact ⟨t, ht, sqnDb_writes_host a b hwf ht⟩
  · exact ⟨_, exec_sqnDb_of_off v hoff, regBit_setRegBit_same _ _ _ _ (by decide), rfl,
      fun o ho => reg_setRegBit_ne _ _ _ ho⟩
  · refine ⟨_, exec_cqDb_of_held hlive hheld, ?_, ?_, rfl, fun d hd => hctx_setHctx_ne s _ hd⟩ <;>
      rw [hctx_setHctx_same]
  · refine ⟨_, (exec_eqDb_of_held hlive hheld).trans (congrArg _ (flushLost_of_none ?_)), ?_, rfl⟩
    · rw [hctx_setHctx_same, hsince]
    · rw [hctx_setHctx_same]
  · exact ⟨_, exec_irqRearmSet s c, regBit_setRegBit_same _ _ _ _ (by decide), rfl,
      fun o ho => reg_setRegBit_ne _ _ _ ho⟩
  · refine ⟨_, _, irqRearmClear_sends hpend hlast, regBit_unmasked s c, sendMsg_msgs _ _, rfl, ?_, ?_⟩
    · exact reg_setRegBit_ne s 31 false (by omega)
    · rw [hctx_sendMsg_same]
  · exact ⟨_, irqRearmClear_of_none hpend, regBit_unmasked s c, rfl⟩

end Sys2Proof.Machine
end

section
/-! Descriptor fetch (R126, R141, R142), the configuration of contexts and rings (R157, R158), and the reset of a
ring's counts (R688). -/

namespace Sys2Proof.Machine

open Sys2Proof

/-! ### Descriptor fetch (R126, R141) -/

theorem exec_descriptorFetch_of_choice {s : State} {c r : Nat} (h : fetchChoice s = some (c, r)) :
    exec .descriptorFetch s = .next (issueFetch s c r (fetchCount s c r)) := by
  change execDescriptorFetch s = _
  simp only [execDescriptorFetch, h]

theorem ringOf_issueFetch (s : State) (c r n : Nat) :
    ringOf (issueFetch s c r n) c r = { ringOf s c r with fetch := cadd (ringOf s c r).fetch n } :=
  ringOf_setRing_same s c r _

/-- A fetch makes commands outstanding only where the ring has no lost ones to fetch again. -/
theorem outs_issueFetch_length (s : State) (c r n : Nat) :
    (issueFetch s c r n).hif.outs.length = s.hif.outs.length + if lostOf s c r = [] then n else 0 := by
  by_cases h : lostOf s c r = [] <;> simp [issueFetch, h]

/-! ### Descriptors received (R126, R143) -/

theorem exec_descriptorReceived_of_none {s : State} (h : passable (arrive s) [] (arrive s).hif.fetchQ = none) :
    exec .descriptorReceived s = .next (arrive s) := by
  change execDescriptorReceived s = _
  simp only [execDescriptorReceived, h]

/-- The state in which only `q` is left of the fetch queue. -/
def fetchQIs (s : State) (q : List Cmd) : State := { s with hif := { s.hif with fetchQ := q } }

theorem exec_descriptorReceived_of_some {s : State} {m : Cmd}
    (h : passable (arrive s) [] (arrive s).hif.fetchQ = some m) :
    exec .descriptorReceived s = .next (passDescriptor (fetchQIs (arrive s) ((arrive s).hif.fetchQ.filter fun k =>
      !(k.ctx == m.ctx && k.ring == m.ring && k.seq == m.seq && k.uid == m.uid))) m) := by
  change execDescriptorReceived s = _
  simp only [execDescriptorReceived, h]
  rfl

/-- The first descriptor of a read, by the addresses for which the read was issued. -/
def firstRead (s : State) (f : Fetch) : Cmd :=
  { ctx := f.ctx, ring := f.ring, seq := cadd f.seq 0
    bytes := hostRead s f.ctx (f.base + cadd f.seq 0 % f.size * 64) 64, uid := f.uids.getD 0 0 }

/-- A read of one descriptor that returns into an empty queue. -/
theorem fetchQ_arrive_of_one {s : State} {f : Fetch} (hflight : s.hif.flight = [f]) (hn : f.n = 1)
    (hq : s.hif.fetchQ = []) : (arrive s).hif.fetchQ = [firstRead s f] := by
  simp only [arrive, hflight, hq, hn]
  rfl

/-- The one descriptor of the queue is passed if it may be. -/
theorem descriptorReceived_passes_one {s : State} {f : Fetch} (hflight : s.hif.flight = [f]) (hn : f.n = 1)
    (hq : s.hif.fetchQ = []) (hpass : mayPass (arrive s) (firstRead s f) = true) :
    exec .descriptorReceived s = .next (passDescriptor (fetchQIs (arrive s) []) (firstRead s f)) := by
  have hone := fetchQ_arrive_of_one hflight hn hq
  have hfirst : passable (arrive s) [] (arrive s).hif.fetchQ = some (firstRead s f) := by
    simp [hone, passable, hpass]
  rw [exec_descriptorReceived_of_some hfirst, hone]
  simp

/-! ### A read error (R142) -/

/-- The ring of a failed read, back at its first descriptor and stopped. -/
def ringStopped (s : State) (f : Fetch) : State :=
  let s := refetchFrom s f.ctx f.ring f.seq (f.uids.headD 0)
  setRing s f.ctx f.ring { ringOf s f.ctx f.ring with stopped := true }

theorem exec_ringFetchError_of_flight {s : State} {f : Fetch} {rest : List Fetch} (h : s.hif.flight = f :: rest) :
    exec .ringFetchError s = .next (raiseEvent (setRegBit (ringStopped s f) (sqBase f.ctx f.ring + 0x14) 2 true) f.ctx
      0x0003 2 f.ring 0 f.seq) := by
  change execRingFetchError s = _
  simp only [execRingFetchError, h]
  rfl

/-- The registers of a ring lie apart from those that an event of its context touches. -/
theorem EventFrame.ringRegs {c : Nat} {s t : State} (h : EventFrame c s t) (r k : Nat) :
    reg t (sqBase c r + k) = reg s (sqBase c r + k) :=
  h.regs _ (by unfold sqBase hifBase; omega) (by unfold sqBase; omega) (by unfold sqBase; omega)

theorem ringFetchError_stops {s : State} {f : Fetch} {rest : List Fetch} (h : s.hif.flight = f :: rest) :
    ∃ t, exec .ringFetchError s = .next t ∧ (ringOf t f.ctx f.ring).stopped = true ∧
      regBit t (sqBase f.ctx f.ring + 0x14) 2 = true := by
  have hframe := eventFrame_raiseEvent (setRegBit (ringStopped s f) (sqBase f.ctx f.ring + 0x14) 2 true) f.ctx
    0x0003 2 f.ring 0 f.seq
  refine ⟨_, exec_ringFetchError_of_flight h, ?_, ?_⟩
  · rw [hframe.rings]
    exact congrArg Ring.stopped (ringOf_setRing_same _ _ _ _)
  · rw [regBit, hframe.ringRegs]
    exact regBit_setRegBit_same _ _ _ _ (by decide)

/-! ### HIF_CTX_CFG (R158) -/

/-- What a write of HIF_CTX_CFG that sets ENABLE leaves in it, where the other fields may be written: PRIV stays after
SETUP_DONE, and what is reserved reads zero. -/
def ctxCfgTaken (s : State) (c w : Nat) : Nat :=
  let want := if setupDone s then setFld w 30 30 (fld (reg s (hifBase c)) 30 30) else w
  setFld (setFld (setFld want 31 31 0) 28 20 0) 31 31 1

/-- The context with the counts of its CQ and EQ at 0. -/
def countsCleared (s : State) (c : Nat) : State :=
  setHctx s c { hctx s c with cqProd := 0, cqCons := 0, eqProd := 0, eqCons := 0, cqFullSent := false }

section
variable {s : State} {c : Nat} {w : Nat} (hen : bitAt w 31 = true)
include hen

theorem writeCtxCfg_of_bad_config (hcfg : ctxConfigOk s c = false) :
    writeCtxCfg s c w = setRegBit s (hifBase c + 4) 4 true := by
  simp only [writeCtxCfg, hen, hcfg, Bool.not_false, Bool.and_self, if_true]

theorem writeCtxCfg_of_enable (hcfg : ctxConfigOk s c = true) (hoff : ctxEnabled s c = false)
    (hidle : ctxIdle s c = true) :
    writeCtxCfg s c w = flushLost (countsCleared (setReg s (hifBase c) (ctxCfgTaken s c w)) c) c := by
  have hold : bitAt (reg s (hifBase c)) 31 = false := hoff
  simp only [writeCtxCfg, hen, hcfg, hold, hidle, Bool.not_true, Bool.not_false, Bool.and_false, Bool.and_self,
    Bool.false_eq_true, if_false, if_true]
  rfl

end

theorem bitAt_mod_two_pow (v : Nat) {i : Nat} (h : i < 32) : bitAt (v % 2 ^ 32) i = bitAt v i := by
  rw [bitAt_eq, bitAt_eq, Nat.testBit_mod_two_pow]
  simp [h]

theorem enable_ctxCfgTaken (s : State) (c w : Nat) : bitAt (ctxCfgTaken s c w) 31 = true := by
  simp [bitAt_eq, ctxCfgTaken, testBit_setFld]

theorem priv_ctxCfgTaken {s : State} (hdone : setupDone s = true) (c w : Nat) :
    bitAt (ctxCfgTaken s c w) 30 = ctxPriv s c := by
  simp [bitAt_eq, ctxCfgTaken, testBit_setFld, hdone, fld_testBit, ctxPriv, regBit, -Nat.testBit_zero]

/-- A context that is idle has no event entry that waits. -/
theorem eqHeld_of_idle {s : State} {c : Nat} (hidle : ctxIdle s c = true) : eqHeld s c = 0 := by
  obtain ⟨-, hnone⟩ := Bool.and_eq_true_iff.mp hidle
  rw [eqHeld, List.length_eq_zero_iff, List.filter_eq_nil_iff]
  intro e he
  have hne := List.all_eq_true.mp hnone e he
  cases e with
  | cpl e => exact Bool.false_ne_true
  | event e => simpa [HifEntry.eventOf, HifEntry.ctx] using hne

theorem hctx_countsCleared (s : State) (c : Nat) : hctx (countsCleared s c) c =
    { hctx s c with cqProd := 0, cqCons := 0, eqProd := 0, eqCons := 0, cqFullSent := false } :=
  hctx_setHctx_same s c _

theorem eqFree_countsCleared {s : State} {c : Nat} (hidle : ctxIdle s c = true) :
    eqFree (countsCleared s c) c = true := by
  have hheld : eqHeld (countsCleared s c) c = 0 := eqHeld_of_idle (s := s) hidle
  have hsize : 0 < eqSize (countsCleared s c) c := Nat.two_pow_pos _
  simpa [eqFree, hheld, hctx_countsCleared, cdiff] using hsize

/-- With a free slot every lost event is told of (R140). -/
theorem hctx_flushLost_of_free {s : State} {c : Nat} (hfree : eqFree s c = true) :
    hctx (flushLost s c) c = { hctx s c with evSince := 0 } := by
  by_cases hlost : (hctx s c).evSince = 0
  · rw [flushLost_of_none hlost, ← hlost]
  · rw [flushLost_of_due hlost hfree]
    exact (hctx_congr (by rw [sendEntry_hif]) c).trans (hctx_setHctx_same s c _)

/-- The registers of a context's first word lie apart from those that an event of it touches. -/
theorem EventFrame.ctxCfg {c : Nat} {s t : State} (h : EventFrame c s t) : reg t (hifBase c) = reg s (hifBase c) :=
  h.regs _ (by unfold hifBase; omega) (by omega) (by omega)

/-- The context that starts: its counts are at 0, and an entry tells of the events lost before. -/
def ctxStarted (s : State) (c : Nat) : State := flushLost (countsCleared s c) c

theorem hctx_ctxStarted {s : State} {c : Nat} (hidle : ctxIdle s c = true) : hctx (ctxStarted s c) c =
    { hctx s c with cqProd := 0, cqCons := 0, eqProd := 0, eqCons := 0, evSince := 0, cqFullSent := false } := by
  rw [ctxStarted, hctx_flushLost_of_free (eqFree_countsCleared hidle), hctx_countsCleared]

theorem cplQ_ctxStarted {s : State} {c : Nat} (hidle : ctxIdle s c = true) (hlost : (hctx s c).evSince ≠ 0) :
    ∃ e, (ctxStarted s c).hif.cplQ = s.hif.cplQ ++ [.event e] ∧ e.ctx = c ∧ e.type = 0x0005 ∧
      e.payload = (hctx s c).evSince := by
  have hsince : (hctx (countsCleared s c) c).evSince = (hctx s c).evSince := by rw [hctx_countsCleared]
  refine ⟨lostEntry (countsCleared s c) c, ?_, rfl, rfl, hsince⟩
  rw [ctxStarted, flushLost_of_due (by rwa [hsince]) (eqFree_countsCleared hidle), sendEntry_hif]
  rfl

theorem reg_ctxStarted (s : State) (c : Nat) : reg (ctxStarted s c) (hifBase c) = reg s (hifBase c) :=
  (eventFrame_flushLost c _).ctxCfg

theorem exec_hifCtxEnable_of_enable {s : State} {c : Fin 64} {w : Word} (hen : bitAt w.toNat 31 = true)
    (hcfg : ctxConfigOk s c = true) (hoff : ctxEnabled s c = false) (hidle : ctxIdle s c = true) :
    exec (.hifCtxEnable c w) s = .next (ctxStarted (setReg s (hifBase c) (ctxCfgTaken s c w.toNat)) c) :=
  congrArg Host.Outcome.next (writeCtxCfg_of_enable hen hcfg hoff hidle)

/-- ENABLE and PRIV after the write that enables a context. -/
theorem ctxStarted_cfg (s : State) (c w : Nat) :
    ctxEnabled (ctxStarted (setReg s (hifBase c) (ctxCfgTaken s c w)) c) c = true ∧ (setupDone s = true →
      ctxPriv (ctxStarted (setReg s (hifBase c) (ctxCfgTaken s c w)) c) c = ctxPriv s c) := by
  have hreg := (reg_ctxStarted (setReg s (hifBase c) (ctxCfgTaken s c w)) c).trans (reg_setReg_same s _ _)
  refine ⟨?_, fun hdone => ?_⟩
  · rw [ctxEnabled, regBit, hreg, bitAt_mod_two_pow _ (by decide), enable_ctxCfgTaken]
  · rw [ctxPriv, regBit, hreg, bitAt_mod_two_pow _ (by decide), priv_ctxCfgTaken hdone]

/-! ### HIF_SQn_CFG (R157, R158, R688) -/

section
variable {s : State} {c r w : Nat}

/-- A write with RING_EN 0 clears it, whatever else it would change. -/
theorem writeSqCfg_of_stop (hon : ringEn s c r = true) (hw : bitAt w 31 = false) :
    ∃ u, writeSqCfg s c r w = setRegBit u (sqBase c r + 8) 31 false := by
  simp only [writeSqCfg, hon, hw, if_true, Bool.false_eq_true, if_false]
  exact ⟨_, rfl⟩

/-- A write with RING_EN 1 of a configured ring, which waits for no reset, starts the ring. -/
theorem writeSqCfg_of_start (hoff : ringEn s c r = false) (hw : bitAt w 31 = true) (hreset : bitAt w 30 = false)
    (hlo : 6 ≤ fld w 4 0) (hhi : fld w 4 0 ≤ 16) (haddr : sqAddr s c r ≠ 0) (hon : ctxEnabled s c = true)
    (hwait : (ringOf s c r).resetWait = false) :
    writeSqCfg s c r w = ringStart (setRegFld s (sqBase c r + 8) 4 0 (fld w 4 0)) c r := by
  have hgood : (decide (fld w 4 0 < 6) || decide (16 < fld w 4 0) || decide (sqAddr s c r = 0) ||
      !ctxEnabled s c) = false := by
    simp [Nat.not_lt.mpr hlo, Nat.not_lt.mpr hhi, haddr, hon]
  have hwait' : (ringOf (setRegFld s (sqBase c r + 8) 4 0 (fld w 4 0)) c r).resetWait = false := hwait
  simp only [writeSqCfg, hoff, hw, hreset, hgood, hwait', Bool.false_eq_true, if_false, Bool.and_false, Bool.not_true]

/-- A write with RING_EN 0 and RESET_COUNTS 1 of a ring that is off asks for a reset of its counts. -/
theorem writeSqCfg_of_reset (hoff : ringEn s c r = false) (hw : bitAt w 31 = false) (hreset : bitAt w 30 = true) :
    (ringOf (writeSqCfg s c r w) c r).resetWait = true := by
  simp only [writeSqCfg, hoff, hw, hreset, Bool.false_eq_true, if_false, Bool.false_and, Bool.not_false, if_true,
    ringOf_setRing_same]

end

/-- The ring that starts: RING_EN is 1, and no error of before holds it (R142). -/
theorem ringStart_runs (s : State) (c r : Nat) : ringEn (ringStart s c r) c r = true ∧
    ringOf (ringStart s c r) c r = { ringOf s c r with stopped := false, enWait := false } :=
  ⟨regBit_setRegBit_same s _ _ _ (by decide), ringOf_setRing_same _ c r _⟩

theorem sqSize_ringStart (s : State) (c r : Nat) : sqSize (ringStart s c r) c r = sqSize s c r :=
  congrArg (2 ^ ·) (regFld_setRegBit s _ _ _ _ _ _ (by decide) (.inr (.inr (by decide))))

theorem ringEn_starts {s : State} {c : Fin 64} {r : Fin 4} {w : Word} (hoff : ringEn s c r = false)
    (hw : bitAt w.toNat 31 = true) (hreset : bitAt w.toNat 30 = false) (hlo : 6 ≤ fld w.toNat 4 0)
    (hhi : fld w.toNat 4 0 ≤ 16) (haddr : sqAddr s c r ≠ 0) (hon : ctxEnabled s c = true)
    (hwait : (ringOf s c r).resetWait = false) :
    ∃ t, exec (.ringEn c r w) s = .next t ∧ ringEn t c r = true ∧ (ringOf t c r).stopped = false ∧
      sqSize t c r = 2 ^ fld w.toNat 4 0 := by
  obtain ⟨hrun, hring⟩ := ringStart_runs (setRegFld s (sqBase c r + 8) 4 0 (fld w.toNat 4 0)) c r
  refine ⟨_, congrArg Host.Outcome.next (writeSqCfg_of_start hoff hw hreset hlo hhi haddr hon hwait), hrun,
    congrArg Ring.stopped hring, ?_⟩
  rw [sqSize_ringStart, sqSize, regFld_setRegFld_same _ _ _ _ _ (by decide) (by decide),
    Nat.mod_eq_of_lt (fld_lt _ 4 0)]

/-! ### The reset of a ring's counts (R688) -/

/-- The counts of a ring at 0. -/
def ringReset (s : State) (c r : Nat) : State :=
  setRing s c r { ringOf s c r with head := 0, fetch := 0, dbLast := 0, resetWait := false }

theorem exec_resetCountsEffect_of_due {s : State} {c : Fin 64} {r : Fin 4} (hwait : (ringOf s c r).resetWait = true)
    (htaken : (ringOf s c r).fetch = (ringOf s c r).head) (hlost : lostOf s c r = []) :
    exec (.resetCountsEffect c r) s =
      .next (if (ringOf s c r).enWait then ringStart (ringReset s c r) c r else ringReset s c r) := by
  change execResetCountsEffect c r s = _
  simp only [execResetCountsEffect, hwait, htaken, hlost, decide_true, List.isEmpty_nil, Bool.and_self, if_true]
  rfl

theorem resetCountsEffect_resets {s : State} {c : Fin 64} {r : Fin 4} (hwait : (ringOf s c r).resetWait = true)
    (htaken : (ringOf s c r).fetch = (ringOf s c r).head) (hlost : lostOf s c r = []) :
    ∃ t, exec (.resetCountsEffect c r) s = .next t ∧ (ringOf t c r).head = 0 ∧ (ringOf t c r).fetch = 0 ∧
      (ringOf t c r).dbLast = 0 ∧ (ringOf t c r).resetWait = false ∧
      ((ringOf s c r).enWait = true → ringEn t c r = true) := by
  refine ⟨_, exec_resetCountsEffect_of_due hwait htaken hlost, ?_⟩
  have hring : ringOf (ringReset s c r) c r = _ := ringOf_setRing_same s c r _
  cases hen : (ringOf s c r).enWait
  case false =>
    rw [if_neg Bool.false_ne_true, hring]
    exact ⟨rfl, rfl, rfl, rfl, fun h => absurd h Bool.false_ne_true⟩
  case true =>
    obtain ⟨hrun, hstart⟩ := ringStart_runs (ringReset s c r) c r
    rw [if_pos rfl, hstart, hring]
    exact ⟨rfl, rfl, rfl, rfl, fun _ => hrun⟩

/-- Settles O14: descriptors and their reads, then the writes of the context's and the rings' configuration. -/
theorem ringsAndDescriptors : Obligations.RingsAndDescriptors := by
  unfold Obligations.RingsAndDescriptors
  refine ⟨⟨fun s c r hchoice => ?_, fun s hnone => exec_descriptorReceived_of_none hnone,
      fun s f m hflight hn hq hm hpass => ?_, fun s f rest => ringFetchError_stops⟩,
    ⟨fun s c w hen hcfg => ?_, fun s c w hen hcfg hoff hidle => ?_, fun s c r w hon hw => ?_,
      fun s c r w => ringEn_starts, fun s c r w hoff hw => ?_, fun s c r => resetCountsEffect_resets, fun s b => ?_⟩⟩
  · refine ⟨_, exec_descriptorFetch_of_choice hchoice, ?_, outs_issueFetch_length s c r _, rfl, rfl⟩
    rw [ringOf_issueFetch]
  · subst hm
    exact descriptorReceived_passes_one hflight hn hq hpass
  · exact ⟨_, congrArg Host.Outcome.next (writeCtxCfg_of_bad_config hen hcfg),
      regBit_setRegBit_same _ _ _ _ (by decide), reg_setRegBit_ne _ _ _ (by omega)⟩
  · obtain ⟨hon, hpriv⟩ := ctxStarted_cfg s c w.toNat
    have hstart := hctx_ctxStarted (s := setReg s (hifBase c) (ctxCfgTaken s c w.toNat)) hidle
    refine ⟨_, exec_hifCtxEnable_of_enable hen hcfg hoff hidle, hon, ?_, ?_, ?_, ?_, ?_,
      cplQ_ctxStarted (s := setReg s (hifBase c) (ctxCfgTaken s c w.toNat)) hidle, hpriv⟩ <;> rw [hstart]
  · obtain ⟨u, hu⟩ := writeSqCfg_of_stop hon hw
    exact ⟨_, congrArg Host.Outcome.next hu, regBit_setRegBit_same u _ _ _ (by decide)⟩
  · refine ⟨_, rfl, writeSqCfg_of_reset hoff ?_ ?_⟩
    · rwa [bitAt_eq, testBit_setFld _ _ _ _ _ (by decide), if_neg (by decide), ← bitAt_eq]
    · rw [bitAt_eq, testBit_setFld _ _ _ _ _ (by decide), if_pos (by decide)]
      rfl
  · exact ⟨_, rfl, regBit_setRegBit_same s _ _ _ (by decide), rfl, fun o ho => reg_setRegBit_ne s _ _ ho⟩

end Sys2Proof.Machine
end

section
/-! CAL_WRITE (R602, R603), what firmware does to the watchdog, the tick, notices and timers (R586, R589-R591, R605),
and the fate of an event (R140). -/

namespace Sys2Proof.Machine

open Sys2Proof

/-! ### Numbers in descriptors -/

theorem leNat_lt (bs : List Byte) : leNat bs < 256 ^ bs.length := by
  induction bs with
  | nil => exact Nat.one_pos
  | cons b bs ih =>
    have hb : b.toNat < 256 := b.isLt
    rw [leNat, List.length_cons, Nat.pow_succ]
    omega

theorem leAt_lt (bs : List Byte) (lo n : Nat) : leAt bs lo n < 256 ^ n :=
  Nat.lt_of_lt_of_le (leNat_lt _) (Nat.pow_le_pow_right (by decide) (List.length_take_le n _))

/-! ### Critical commands that have passed (R143, R168) -/

theorem waitingCritical_of_isPassed {s : State} {m : Cmd} {op : Nat} (h : isPassed s m op) :
    waitingCritical s op = some m := by
  obtain ⟨⟨rest, hq⟩, hpassed, hop, hfirst⟩ := h
  have hbehind : (s.hif.unitQ.any fun k => k.ctx == m.ctx && k.ring == m.ring && k.opcode / 256 == op / 256) =
      false := by
    rw [List.any_eq_false]
    intro k hk
    have hne := hfirst k hk
    simpa [and_assoc] using hne
  simp only [waitingCritical, hq, hpassed, hop, hbehind, beq_self_eq_true, Bool.not_false, Bool.and_self, if_true]

/-- A command that leaves CAU changes CAU and the ring's HEAD alone. -/
theorem popCau_frame (s : State) :
    popCau s = { s with cau := (popCau s).cau, hif := { s.hif with ctx := (popCau s).hif.ctx } } := by
  unfold popCau
  split <;> rfl

theorem acceptCritical_frame (s : State) (m : Cmd) : acceptCritical s m =
    { s with cau := (acceptCritical s m).cau, hif := { s.hif with ctx := (acceptCritical s m).hif.ctx } } := by
  unfold acceptCritical
  rw [popCau_frame]
  split <;> rfl

/-- A refused command is answered, and nothing but CAU and HIF changes where the queue of entries has room. -/
theorem refuseCritical_answers {s : State} (m : Cmd) {status : Nat} (detail : Nat) (hsafe : s.saf.safe = false)
    (hstatus : status ≠ 0) (hop : m.opcode ≠ 0x0100) :
    answered s (refuseCritical s m status detail) m status detail 0 ∧
      (refuseCritical s m status detail).mgc = s.mgc ∧
      (s.hif.cplQ.length < 32 → (refuseCritical s m status detail).regs = s.regs) := by
  have hsafe' : (popCau s).saf.safe = false := by rw [popCau_frame]; exact hsafe
  have hq : (popCau s).hif.cplQ = s.hif.cplQ := by rw [popCau_frame]
  refine ⟨answered_complete hsafe' hq (.inr hstatus) _ _ _, ?_, fun hroom => ?_⟩
  · rw [refuseCritical, completeWith, complete_mgc hsafe', popCau_frame]
  · rw [refuseCritical, completeWith, complete_regs_of_room hsafe' hop (by rwa [hq]), popCau_frame]

/-! ### CAL_WRITE (R602, R603) -/

/-- Registers in a row from `base`, of which those that `mask` selects take values. -/
def putItems (base mask : Nat) (v : Nat → Nat) (n : Nat) (s : State) : State :=
  (List.range n).foldl (fun s k => if bitAt mask k then setReg s (base + 4 * k) (v k) else s) s

theorem putItems_succ (base mask : Nat) (v : Nat → Nat) (n : Nat) (s : State) : putItems base mask v (n + 1) s =
    if bitAt mask n then setReg (putItems base mask v n s) (base + 4 * n) (v n) else putItems base mask v n s := by
  simp [putItems, List.range_succ]

theorem regsFrame_putItems (base mask : Nat) (v : Nat → Nat) (n : Nat) (s : State) :
    RegsFrame s (putItems base mask v n s) := by
  induction n with
  | zero => rfl
  | succ n ih =>
    rw [putItems_succ]
    split
    · exact ih.trans (regsFrame_setReg _ _ _)
    · exact ih

theorem reg_putItems_ne (base mask : Nat) (v : Nat → Nat) (n : Nat) (s : State) {o : Nat}
    (ho : ∀ k, k < n → o ≠ base + 4 * k) : reg (putItems base mask v n s) o = reg s o := by
  induction n with
  | zero => rfl
  | succ n ih =>
    have hrest := ih fun k hk => ho k (Nat.lt_succ_of_lt hk)
    rw [putItems_succ]
    split
    · rw [reg_setReg_ne _ _ (ho n n.lt_succ_self), hrest]
    · exact hrest

theorem reg_putItems (base mask : Nat) (v : Nat → Nat) (n : Nat) (s : State) {k : Nat} (hk : k < n) :
    reg (putItems base mask v n s) (base + 4 * k) =
      if bitAt mask k then v k % 2 ^ 32 else reg s (base + 4 * k) := by
  induction n with
  | zero => exact absurd hk (Nat.not_lt_zero k)
  | succ n ih =>
    rw [putItems_succ]
    by_cases hkn : k = n
    · subst hkn
      split
      · exact reg_setReg_same _ _ _
      · exact reg_putItems_ne _ _ _ _ _ fun j hj => by omega
    · have hrest := ih (by omega)
      split
      · rw [reg_setReg_ne _ _ (by omega), hrest]
      · exact hrest

theorem writeItems_timing {m : Cmd} (hgroup : m.at 4 1 = 0) (s : State) :
    writeItems s m = putItems 0x880200 (m.at 6 1) (fun k => m.at (8 + 4 * k) 4) 8 s := by
  simp only [writeItems, hgroup, if_true]
  rfl

/-- The energy coefficients of a CAL_WRITE, with those that it does not select as they were. -/
def energyItems (s : State) (m : Cmd) : List Nat :=
  (List.range 5).map fun j => if bitAt (m.at 6 1) j then m.at (8 + 2 * j) 2 else (calEnergy s).getD j 0

/-- The energy items of a CAL_WRITE written. -/
def energyWritten (s : State) (m : Cmd) : State :=
  if m.at 6 1 % 32 = 0 then s else setEnergy s (energyItems s m)

theorem writeItems_energy {m : Cmd} (hgroup : m.at 4 1 ≠ 0) (s : State) : writeItems s m =
    if bitAt (m.at 6 1) 5 then gtbSetTrim (energyWritten s m) (m.at 18 2) else energyWritten s m := by
  simp only [writeItems, hgroup, if_false]
  rfl

theorem energyWritten_frame (s : State) (m : Cmd) :
    energyWritten s m = { s with mgc := { s.mgc with ecs := (energyWritten s m).mgc.ecs } } := by
  unfold energyWritten
  split <;> rfl

theorem ecs_energyWritten (s : State) (m : Cmd) : (energyWritten s m).mgc.ecs =
    if m.at 6 1 % 32 = 0 then s.mgc.ecs else s.mgc.ecs ++ [(s.gtb.now, energyItems s m)] := by
  unfold energyWritten
  split <;> rfl

/-- A command's TRIM stands in its register, and in GTB the change that is due (R601). -/
theorem gtbSetTrim_frame (s : State) (v : Nat) :
    gtbSetTrim s v = { s with gtb := (gtbSetTrim s v).gtb, regs := (gtbSetTrim s v).regs } := by
  unfold gtbSetTrim
  dsimp only
  split <;> rfl

theorem reg_gtbSetTrim (s : State) (v o : Nat) : reg (gtbSetTrim s v) o = reg (setRegFld s 0x900014 15 0 v) o := by
  unfold gtbSetTrim
  dsimp only
  split <;> rfl

theorem writeItems_frame (s : State) (m : Cmd) : writeItems s m =
    { s with gtb := (writeItems s m).gtb, mgc := (writeItems s m).mgc, regs := (writeItems s m).regs } := by
  by_cases hgroup : m.at 4 1 = 0
  · rw [writeItems_timing hgroup, regsFrame_putItems]
  · rw [writeItems_energy hgroup]
    split
    · rw [gtbSetTrim_frame, energyWritten_frame]
    · rw [energyWritten_frame]

section
variable {m : Cmd} (hgroup : m.at 4 1 ≠ 0) (s : State)
include hgroup

theorem ecs_writeItems_energy : (writeItems s m).mgc.ecs =
    if m.at 6 1 % 32 = 0 then s.mgc.ecs else s.mgc.ecs ++ [(s.gtb.now, energyItems s m)] := by
  rw [writeItems_energy hgroup, ← ecs_energyWritten]
  split
  · rw [gtbSetTrim_frame]
  · rfl

theorem reg_writeItems_energy {o : Nat} (ho : o ≠ 0x900014) : reg (writeItems s m) o = reg s o := by
  have hsame : reg (energyWritten s m) o = reg s o := by rw [energyWritten_frame]; rfl
  rw [writeItems_energy hgroup]
  split
  · rw [reg_gtbSetTrim, reg_setRegFld_ne _ _ _ _ ho, hsame]
  · exact hsame

theorem trim_writeItems : regFld (writeItems s m) 0x900014 15 0 =
    if bitAt (m.at 6 1) 5 then m.at 18 2 else regFld s 0x900014 15 0 := by
  rw [writeItems_energy hgroup]
  split
  · rw [regFld, reg_gtbSetTrim, ← regFld, regFld_setRegFld_same _ _ _ _ _ (by decide) (by decide)]
    exact Nat.mod_eq_of_lt (leAt_lt m.bytes 18 2)
  · rw [energyWritten_frame]
    rfl

end

theorem mgc_writeItems_timing {m : Cmd} (hgroup : m.at 4 1 = 0) (s : State) : (writeItems s m).mgc = s.mgc := by
  rw [writeItems_timing hgroup, regsFrame_putItems]

theorem reg_writeItems_timing {m : Cmd} (hgroup : m.at 4 1 = 0) (s : State) {k : Nat} (hk : k < 8) :
    reg (writeItems s m) (0x880200 + 4 * k) =
      if bitAt (m.at 6 1) k then m.at (8 + 4 * k) 4 else reg s (0x880200 + 4 * k) := by
  have hitem : m.at (8 + 4 * k) 4 < 2 ^ 32 := leAt_lt m.bytes (8 + 4 * k) 4
  rw [writeItems_timing hgroup, reg_putItems _ _ _ _ _ hk, Nat.mod_eq_of_lt hitem]

theorem reg_writeItems_calStatus (s : State) (m : Cmd) : reg (writeItems s m) 0x980044 = reg s 0x980044 := by
  by_cases hgroup : m.at 4 1 = 0
  · rw [writeItems_timing hgroup]
    exact reg_putItems_ne _ _ _ _ _ fun k hk => by omega
  · exact reg_writeItems_energy hgroup s (by decide)

/-- CAL_STATUS after a CAL_WRITE: the items written since the last load, and the count of such commands (R603). -/
def calStatusAfter (s : State) (m : Cmd) : Nat :=
  (regFld s 0x980044 13 0 ||| (m.at 6 1 * if m.at 4 1 = 0 then 1 else 256)) +
    satAdd 16 (regFld s 0x980044 31 16) 1 * 2 ^ 16

theorem calStatusAfter_lt (s : State) (m : Cmd) : calStatusAfter s m < 2 ^ 32 := by
  have hmask : m.at 6 1 < 256 := leAt_lt m.bytes 6 1
  have hitems : (m.at 6 1 * if m.at 4 1 = 0 then 1 else 256) < 2 ^ 16 := by split <;> omega
  have hdirty := Nat.or_lt_two_pow (Nat.lt_trans (fld_lt (reg s 0x980044) 13 0) (by decide)) hitems
  have hcount : satAdd 16 (regFld s 0x980044 31 16) 1 ≤ 2 ^ 16 - 1 := Nat.min_le_right _ _
  unfold calStatusAfter
  rw [regFld]
  omega

/-- The state in which an accepted CAL_WRITE has written its items and CAL_STATUS. -/
def calWritten (s : State) (m : Cmd) : State :=
  setReg (writeItems (acceptCritical s m) m) 0x980044 (calStatusAfter s m)

theorem exec_calWrite_of_good {s : State} {m : Cmd} (hpassed : isPassed s m 0x0601) (hfault : calWriteFault m = none)
    (hbusy : fwBusy s = false) :
    exec .calWrite s = .next (completeOk (calWritten s m) m (calStatusAfter s m)) := by
  have hstatus : reg (writeItems (acceptCritical s m) m) 0x980044 = reg s 0x980044 := by
    rw [reg_writeItems_calStatus, acceptCritical_frame]
    rfl
  change execCalWrite s = _
  simp only [execCalWrite, waitingCritical_of_isPassed hpassed, hfault, hbusy, Bool.false_eq_true, if_false, regFld,
    hstatus]
  rfl

theorem exec_calWrite_of_fault {s : State} {m : Cmd} {d : Nat} (hpassed : isPassed s m 0x0601)
    (hfault : calWriteFault m = some d) : exec .calWrite s = .next (refuseCritical s m 0x10 d) := by
  change execCalWrite s = _
  simp only [execCalWrite, waitingCritical_of_isPassed hpassed, hfault]

/-- What every accepted CAL_WRITE does: it answers with CAL_STATUS, and leaves beside the items what it found. -/
theorem calWrite_effect {s : State} {m : Cmd} (hpassed : isPassed s m 0x0601) (hfault : calWriteFault m = none)
    (hbusy : fwBusy s = false) (hsafe : s.saf.safe = false) (hquiet : bitAt m.flags 1 = false) :
    ∃ t, exec .calWrite s = .next t ∧ answered s t m 0 0 (reg t 0x980044) ∧ reg t 0x980044 = calStatusAfter s m ∧
      t.mgc = (writeItems (acceptCritical s m) m).mgc ∧
      ∀ o, 0x200000 < o → o ≠ 0x980044 → reg t o = reg (writeItems (acceptCritical s m) m) o := by
  have hsafe' : (calWritten s m).saf.safe = false := by
    rw [calWritten, writeItems_frame, acceptCritical_frame]
    exact hsafe
  have hq : (calWritten s m).hif.cplQ = s.hif.cplQ := by
    rw [calWritten, writeItems_frame, acceptCritical_frame]
    rfl
  have hstatus : reg (completeOk (calWritten s m) m (calStatusAfter s m)) 0x980044 = calStatusAfter s m := by
    rw [completeOk, reg_complete hsafe' _ _ _ (by decide) (by decide), calWritten, reg_setReg_same,
      Nat.mod_eq_of_lt (calStatusAfter_lt s m)]
  refine ⟨_, exec_calWrite_of_good hpassed hfault hbusy, ?_, hstatus, ?_, fun o hlow hne => ?_⟩
  · rw [hstatus]
    exact answered_complete hsafe' hq (.inl hquiet) _ _ _
  · rw [completeOk, complete_mgc hsafe']
    rfl
  · rw [completeOk, reg_complete hsafe' _ _ _ (by omega) (by omega), calWritten, reg_setReg_ne _ _ hne]

/-- The items of group 0 are the timing registers (R600). -/
theorem calWrite_timing {s : State} {m : Cmd} (hpassed : isPassed s m 0x0601) (hfault : calWriteFault m = none)
    (hbusy : fwBusy s = false) (hgroup : m.at 4 1 = 0) (hsafe : s.saf.safe = false)
    (hquiet : bitAt m.flags 1 = false) :
    ∃ t, exec .calWrite s = .next t ∧ answered s t m 0 0 (reg t 0x980044) ∧
      (∀ k, k < 8 → reg t (0x880200 + 4 * k) =
        if bitAt (m.at 6 1) k then m.at (8 + 4 * k) 4 else reg s (0x880200 + 4 * k)) ∧
      reg t 0x980044 = (regFld s 0x980044 13 0 ||| m.at 6 1) + satAdd 16 (regFld s 0x980044 31 16) 1 * 2 ^ 16 ∧
      t.mgc = s.mgc := by
  obtain ⟨t, hexec, hanswer, hstatus, hmgc, hreg⟩ := calWrite_effect hpassed hfault hbusy hsafe hquiet
  refine ⟨t, hexec, hanswer, fun k hk => ?_, ?_, ?_⟩
  · rw [hreg _ (by omega) (by omega), reg_writeItems_timing hgroup _ hk, acceptCritical_frame]
    rfl
  · rw [hstatus, calStatusAfter, if_pos hgroup, Nat.mul_one]
  · rw [hmgc, mgc_writeItems_timing hgroup, acceptCritical_frame]

/-- The items of group 1 are the energy coefficients and TRIM (R600, R601). -/
theorem calWrite_energy {s : State} {m : Cmd} (hpassed : isPassed s m 0x0601) (hfault : calWriteFault m = none)
    (hbusy : fwBusy s = false) (hgroup : m.at 4 1 = 1) (hsafe : s.saf.safe = false)
    (hquiet : bitAt m.flags 1 = false) :
    ∃ t, exec .calWrite s = .next t ∧ answered s t m 0 0 (reg t 0x980044) ∧
      (∀ k, k < 8 → reg t (0x880200 + 4 * k) = reg s (0x880200 + 4 * k)) ∧
      t.mgc.ecs = (if m.at 6 1 % 32 = 0 then s.mgc.ecs else s.mgc.ecs ++ [(s.gtb.now, energyItems s m)]) ∧
      regFld t 0x900014 15 0 = (if bitAt (m.at 6 1) 5 then m.at 18 2 else regFld s 0x900014 15 0) := by
  have henergy : m.at 4 1 ≠ 0 := by omega
  obtain ⟨t, hexec, hanswer, -, hmgc, hreg⟩ := calWrite_effect hpassed hfault hbusy hsafe hquiet
  refine ⟨t, hexec, hanswer, fun k hk => ?_, ?_, ?_⟩
  · rw [hreg _ (by omega) (by omega), reg_writeItems_energy henergy _ (by omega), acceptCritical_frame]
    rfl
  · rw [hmgc, ecs_writeItems_energy henergy, acceptCritical_frame]
    rfl
  · rw [regFld, hreg _ (by decide) (by decide), ← regFld, trim_writeItems henergy, acceptCritical_frame]
    rfl

/-! ### The watchdog, the tick, notices and timers (R586, R589-R591, R605) -/

theorem exec_mgcWdogKick_in_tick {s : State} (h : pastBoundary s = false) :
    exec .mgcWdogKick s = .next { s with mgc := { s.mgc with kicked := true } } :=
  congrArg Host.Outcome.next (if_neg (by rw [h]; exact Bool.false_ne_true))

theorem exec_mgcWdogKick_past_boundary {s : State} (h : pastBoundary s = true) :
    exec .mgcWdogKick s = .next { s with mgc := { s.mgc with kickedNext := true } } :=
  congrArg Host.Outcome.next (if_pos h)

theorem exec_mgcTickAck (s : State) (k : Fin 8) (w : Word) : exec (.mgcTickAck k w) s = .next (ackTick s k w.toNat) :=
  rfl

theorem core_ackTick_same (s : State) (k w : Nat) : (tget {} (ackTick s k w).mgc.cores k).extPend = false := by
  simp only [ackTick, tget, tget?_tmap, if_true, setReg_mgc]
  cases tget? s.mgc.cores k <;> rfl

theorem core_ackTick_ne (s : State) {k j : Nat} (w : Nat) (h : j ≠ k) :
    tget {} (ackTick s k w).mgc.cores j = tget {} s.mgc.cores j := by
  simp only [ackTick, tget, tget?_tmap, h, if_false, setReg_mgc]
  cases tget? s.mgc.cores j <;> rfl

theorem exec_noticeGo_of_ready {s : State} (k : Fin 8) (c : Fin 64) (h : noticeBusy s = false) :
    exec (.noticeGo k c) s =
      .next (raiseEvent (setRegFld s 0x980050 5 0 c) c 0x0170 0 k 0 (reg64 s 0x980048)) := by
  have hpayload : reg64 (setRegFld s 0x980050 5 0 c) 0x980048 = reg64 s 0x980048 := by
    simp only [reg64, reg_setRegFld_ne s _ _ _ (show 0x980048 ≠ 0x980050 by decide),
      reg_setRegFld_ne s _ _ _ (show 0x980048 + 4 ≠ 0x980050 by decide)]
  change Host.Outcome.next (postNotice s k c) = _
  simp only [postNotice, h, Bool.false_eq_true, if_false, hpayload]

theorem exec_noticeGo_of_busy {s : State} (k : Fin 8) (c : Fin 64) (h : noticeBusy s = true) :
    exec (.noticeGo k c) s = .next (setRegBit s 0x980004 27 true) :=
  congrArg Host.Outcome.next (if_pos h)

/-- The compare value of one core written. -/
def timerSet (s : State) (k cmp : Nat) : State :=
  { s with mgc := { s.mgc with cores := tmod {} s.mgc.cores k fun c => { c with mtimecmp := cmp } } }

theorem exec_machineTimerInterrupt {cmp : Nat} (hcmp : cmp < 2 ^ 64) (s : State) (k : Fin 8) (reached : Bool) :
    exec (.machineTimerInterrupt k cmp reached) s =
      .next (timerSet (if reached then advanceTo (nsUnits cmp) s else s) k cmp) := by
  change execMachineTimerInterrupt k cmp s reached = _
  rw [execMachineTimerInterrupt, Nat.mod_eq_of_lt hcmp]
  rfl

theorem mtimecmp_timerSet (s : State) (k cmp : Nat) : (tget {} (timerSet s k cmp).mgc.cores k).mtimecmp = cmp := by
  rw [timerSet, tmod, tget_tput_same]

theorem timerPending_timerSet (s : State) (k cmp : Nat) :
    timerPending (timerSet s k cmp) k = decide (cmp ≤ nowNs (timerSet s k cmp)) := by
  rw [timerPending, mtimecmp_timerSet]

theorem core_timerSet_ne (s : State) {k j : Nat} (cmp : Nat) (h : j ≠ k) :
    tget {} (timerSet s k cmp).mgc.cores j = tget {} s.mgc.cores j :=
  tget_tput_ne _ _ _ h

/-- Time that passes to a compare value is no part of the management cluster. -/
theorem mgc_advanceIf (s : State) (reached : Bool) (u : Nat) :
    (if reached then advanceTo u s else s).mgc = s.mgc := by
  have hframe := timeFrame_advanceTo u s
  split
  · rw [hframe]
  · rfl

theorem machineTimerInterrupt_sets {cmp : Nat} (hcmp : cmp < 2 ^ 64) (s : State) (k : Fin 8) (reached : Bool) :
    ∃ t, exec (.machineTimerInterrupt k cmp reached) s = .next t ∧ (tget {} t.mgc.cores k.val).mtimecmp = cmp ∧
      timerPending t k = decide (cmp ≤ nowNs t) ∧
      (∀ j, j ≠ k.val → tget {} t.mgc.cores j = tget {} s.mgc.cores j) ∧
      (reached = true → t.gtb = (advanceTo (nsUnits cmp) s).gtb) ∧ (reached = false → t = { s with mgc := t.mgc }) := by
  refine ⟨_, exec_machineTimerInterrupt hcmp s k reached, mtimecmp_timerSet _ _ _, timerPending_timerSet _ _ _,
    fun j hj => ?_, fun h => ?_, fun h => ?_⟩
  · rw [core_timerSet_ne _ _ hj, mgc_advanceIf]
  · subst h
    rfl
  · subst h
    rfl

/-! ### The fate of an event (R140) -/

theorem raiseEvent_of_room {s : State} {c : Nat} (hlive : ctxEnabled s c = true ∨ ctxIdle s c = false)
    (hfree : eqFree s c = true) (hnone : (hctx s c).evSince = 0) (type sev src vint payload : Nat) :
    raiseEvent s c type sev src vint payload = sendEntry s (.event
      { ctx := c, type := type, sev := sev, src := src, vint := vint, payload := payload
        stamp := cellarStamp s }) := by
  rw [raiseEvent, if_neg (not_dead_of_live hlive), flushLost_of_none hnone]
  exact if_pos hfree

theorem raiseEvent_of_dead {s : State} {c : Nat} (hoff : ctxEnabled s c = false) (hidle : ctxIdle s c = true)
    (type sev src vint payload : Nat) : raiseEvent s c type sev src vint payload = dropEvent s c :=
  if_pos (by simp [hoff, hidle])

theorem raiseEvent_of_full {s : State} {c : Nat} (hfull : eqFree s c = false) (type sev src vint payload : Nat) :
    raiseEvent s c type sev src vint payload = dropEvent s c := by
  simp only [raiseEvent, flushLost_of_full hfull, hfull, Bool.false_eq_true, if_false, ite_self]

/-- A lost event is counted twice: for the next EVENTS_LOST entry, and in the context's register. -/
theorem dropEvent_counts (s : State) (c : Nat) : (hctx (dropEvent s c) c).evSince = (hctx s c).evSince + 1 ∧
    regBit (dropEvent s c) (hifBase c + 4) 2 = true ∧
    reg (dropEvent s c) (hifBase c + 0x34) = satAdd 32 (reg s (hifBase c + 0x34)) 1 := by
  have hdrop : hctx (dropEvent s c) c = { hctx s c with evSince := (hctx s c).evSince + 1 } :=
    hctx_setHctx_same s c _
  refine ⟨by rw [hdrop], regBit_setRegBit_same _ _ _ _ (by decide), ?_⟩
  rw [dropEvent, reg_setRegBit_ne _ _ _ (by omega), reg_addReg_same, reg_setHctx]

/-- Settles O43: CAL_WRITE by the group of its items, the acts of firmware, and the three fates of an event. -/
theorem firmwareActsAndEvents : Obligations.FirmwareActsAndEvents := by
  unfold Obligations.FirmwareActsAndEvents
  refine ⟨⟨fun s m => calWrite_timing, fun s m => calWrite_energy, fun s m d hpassed hfault hsafe => ?_,
      fun s => exec_mgcWdogKick_in_tick, fun s => exec_mgcWdogKick_past_boundary, fun s k w => ?_,
      fun s k c => exec_noticeGo_of_ready k c, fun s k c => exec_noticeGo_of_busy k c,
      fun s k cmp reached hcmp => machineTimerInterrupt_sets hcmp s k reached⟩,
    ⟨fun s c type sev src vint payload _ hlive hfree hnone => ?_, fun s e => ?_,
      fun s c type sev src vint payload _ hfull => ?_,
      fun s c type sev src vint payload hoff hidle => raiseEvent_of_dead hoff hidle _ _ _ _ _⟩⟩
  · have hop : m.opcode ≠ 0x0100 := by obtain ⟨-, -, hop, -⟩ := hpassed; omega
    exact ⟨_, exec_calWrite_of_fault hpassed hfault, refuseCritical_answers m d hsafe (by decide) hop⟩
  · exact ⟨_, exec_mgcTickAck s k w, (reg_setReg_same _ _ _).trans (Nat.mod_eq_of_lt w.isLt), rfl,
      core_ackTick_same s k _, fun j => core_ackTick_ne s _, fun o ho => reg_setReg_ne s _ ho, rfl⟩
  · rw [raiseEvent_of_room hlive hfree hnone]
    exact ⟨by rw [sendEntry_hif], by rw [hctx_congr (s := s) (by rw [sendEntry_hif])], by rw [sendEntry_frame]⟩
  · exact ⟨eqProd_writeEvent_same s e, fun d => eqProd_writeEvent_ne s e⟩
  · obtain ⟨hsince, hflag, hcount⟩ := dropEvent_counts s c
    exact ⟨raiseEvent_of_full hfull _ _ _ _ _, hsince, hflag, hcount, rfl⟩

end Sys2Proof.Machine
end

section
/-! Critical commands (R161-R180): what the checks of the authenticator answer, and what KEY_LOAD and KEY_RETIRE leave
in the key slots. -/

namespace Sys2Proof.Machine

open Sys2Proof

/-! ### A completion leaves the authenticator and the rings as they are -/

theorem complete_cau (s : State) (m : Cmd) (status detail result reruns : Nat) :
    (complete s m status detail result reruns).cau = s.cau := by
  have hshow := regsFrame_showLoad s m status
  simp only [complete]
  split
  case isTrue => rfl
  case isFalse =>
    split
    case isTrue => rw [hshow]
    case isFalse => rw [sendEntry_frame, entryAdded, hshow]

theorem ringOf_complete {s : State} (hsafe : s.saf.safe = false) (m : Cmd) (status detail result reruns c r : Nat) :
    ringOf (complete s m status detail result reruns) c r = ringOf s c r := by
  refine ringOf_congr (congrArg HifCtx.rings (hctx_congr ?_ c)) r
  obtain h | ⟨e, h⟩ := complete_cases (m := m) (status := status) hsafe detail result reruns
  · rw [h, forgotten, showLoad_hif]
  · rw [h, sendEntry_hif, markedDone, showLoad_hif]

/-! ### A command leaves the authenticator (R180) -/

@[simp] theorem popCau_slots (s : State) : (popCau s).cau.slots = s.cau.slots := by
  unfold popCau
  split <;> rfl

@[simp] theorem popCau_inQ (s : State) : (popCau s).cau.inQ = s.cau.inQ.tail := by
  cases h : s.cau.inQ with
  | nil => simp only [popCau, h, List.tail_nil]
  | cons m q => simp only [popCau, h]; rfl

theorem head_popCau {s : State} {m : Cmd} {q : List Cmd} (hq : s.cau.inQ = m :: q) :
    (ringOf (popCau s) m.ctx m.ring).head = cadd (ringOf s m.ctx m.ring).head 1 := by
  simp only [popCau, hq, headPass, ringOf_setRing_same]
  rfl

/-! ### The key slots -/

@[simp] theorem slotOf_setSlot_same (s : State) (k : Nat) (x : KeySlot) : slotOf (setSlot s k x) k = x :=
  tget_tput_same _ _ _ _

theorem slotOf_setSlot_ne (s : State) {k j : Nat} (x : KeySlot) (h : j ≠ k) : slotOf (setSlot s k x) j = slotOf s j :=
  tget_tput_ne _ _ _ h

theorem slotOf_congr {s t : State} (h : t.cau.slots = s.cau.slots) (k : Nat) : slotOf t k = slotOf s k := by
  rw [slotOf, h, slotOf]

/-- The slot that has authorised a command which its unit accepts (R168, R170, R172). -/
def acceptedSlot (s : State) (m : Cmd) : KeySlot :=
  let x := slotOf s (keySlot m)
  { x with ctr := m.at 48 8, fails := 0, accepts := satAdd 32 x.accepts 1,
           state := if m.at 48 8 = 2 ^ 64 - 1 then 3 else x.state }

theorem acceptCritical_of_check {s : State} (henrol : s.cau.enrol = false) (m : Cmd) :
    acceptCritical s m = popCau (setSlot s (keySlot m) (acceptedSlot s m)) := by
  simp only [acceptCritical, henrol, Bool.false_eq_true, if_false]
  rfl

section
variable {s : State} (henrol : s.cau.enrol = false) (m : Cmd)
include henrol

theorem slotOf_acceptCritical_same : slotOf (acceptCritical s m) (keySlot m) = acceptedSlot s m := by
  rw [acceptCritical_of_check henrol, slotOf_congr (popCau_slots _), slotOf_setSlot_same]

theorem slotOf_acceptCritical_ne {k : Nat} (h : k ≠ keySlot m) : slotOf (acceptCritical s m) k = slotOf s k := by
  rw [acceptCritical_of_check henrol, slotOf_congr (popCau_slots _), slotOf_setSlot_ne _ _ h]

theorem acceptCritical_inQ : (acceptCritical s m).cau.inQ = s.cau.inQ.tail := by
  rw [acceptCritical_of_check henrol, popCau_inQ]
  rfl

end

theorem refuseCritical_cau (s : State) (m : Cmd) (status detail : Nat) :
    (refuseCritical s m status detail).cau = (popCau s).cau := complete_cau _ _ _ _ _ _

/-! ### The checks that refuse (R166, R178) -/

section
variable {s : State} {m : Cmd}

theorem authCheck_of_katFail (hkat : regBit s 0x180004 1 = true) : authCheck s m = .fail 7 := if_pos hkat

variable (hkat : regBit s 0x180004 1 = false) (henrol : isEnrolment s m = false)
include hkat henrol

theorem authCheck_of_locked (hstate : (slotOf s (keySlot m)).state = 2) : authCheck s m = .fail 5 := by
  simp only [authCheck, hkat, henrol, hstate, Bool.false_eq_true, if_false, if_true]

theorem authCheck_of_empty (hstate : (slotOf s (keySlot m)).state = 0) : authCheck s m = .fail 1 := by
  simp [authCheck, hkat, henrol, hstate]

variable (hfilled : (slotOf s (keySlot m)).state ≠ 0) (hopen : (slotOf s (keySlot m)).state ≠ 2)
include hfilled hopen

theorem authCheck_of_foreign (howner : (slotOf s (keySlot m)).owner ≠ m.ctx) : authCheck s m = .fail 2 := by
  simp only [authCheck, hkat, henrol, hfilled, hopen, howner, Bool.false_eq_true, if_false, ne_eq, not_false_eq_true,
    if_true]

theorem authCheck_of_unauthorised (howner : (slotOf s (keySlot m)).owner = m.ctx)
    (hclass : classGranted s m = false) : authCheck s m = .fail 3 := by
  simp only [authCheck, hkat, henrol, hfilled, hopen, howner, hclass, Bool.false_eq_true, if_false, ne_eq,
    not_true_eq_false, Bool.not_false, if_true]

end

/-! ### CAU_CHECK (R166, R169, R170) -/

section
variable {s : State} {m : Cmd} {q : List Cmd} (hq : s.cau.inQ = m :: q) (hfree : s.cau.passed = false)
include hq hfree

theorem exec_cauCheck_of_pass {key : List Byte} (hcheck : authCheck s m = .pass key) : exec .cauCheck s =
    .next { s with cau := { s.cau with passed := true, enrol := isEnrolment s m, newKey := key } } := by
  change execCauCheck s = _
  simp only [execCauCheck, hq, hfree, hcheck, Bool.false_eq_true, if_false]

theorem exec_cauCheck_of_fail {reason : Nat} (hcheck : authCheck s m = .fail reason) : exec .cauCheck s =
    .next (completeWith (countAuthFail (popCau s) m reason (keySlot m * 256 + reason)) m 3
      (keySlot m * 256 + reason)) := by
  change execCauCheck s = _
  simp only [execCauCheck, hq, hfree, hcheck, Bool.false_eq_true, if_false]

/-- The state in which a stale command has left CAU and been counted. -/
def staleCounted (s : State) : State := setRegBit (addReg (popCau s) 0x18000C 1) 0x180004 3 true

theorem exec_cauCheck_of_stale {d : Nat} (hcheck : authCheck s m = .stale d) :
    exec .cauCheck s = .next (completeWith (staleCounted s) m 4 d) := by
  change execCauCheck s = _
  simp only [execCauCheck, hq, hfree, hcheck, Bool.false_eq_true, if_false]
  rfl

end

/-- A failure of another reason than the tag or the wrapped key is counted in CAU's registers alone (R170). -/
theorem regsFrame_countAuthFail {reason : Nat} (htag : reason ≠ 4) (hwrap : reason ≠ 6) (s : State) (m : Cmd)
    (detail : Nat) : RegsFrame s (countAuthFail s m reason detail) := by
  simp only [countAuthFail, htag, hwrap, decide_false, Bool.or_self, Bool.false_eq_true, if_false]
  rfl

/-- A command that has left CAU, and whose outcome has been marked in registers alone, is answered. -/
theorem complete_of_popped {s t : State} {m : Cmd} {q : List Cmd} (hq : s.cau.inQ = m :: q)
    (hsafe : s.saf.safe = false) (hframe : RegsFrame (popCau s) t) {status : Nat} (hstatus : status ≠ 0)
    (detail : Nat) :
    answered s (completeWith t m status detail) m status detail 0 ∧ (completeWith t m status detail).cau.inQ = q ∧
      (completeWith t m status detail).cau.slots = s.cau.slots ∧
      (ringOf (completeWith t m status detail) m.ctx m.ring).head = cadd (ringOf s m.ctx m.ring).head 1 := by
  have hhif : t.hif = (popCau s).hif := by rw [hframe]
  have hcau : t.cau = (popCau s).cau := by rw [hframe]
  have hsafe' : t.saf.safe = false := by rw [hframe, popCau_frame]; exact hsafe
  have hcpl : t.hif.cplQ = s.hif.cplQ := by rw [hhif, popCau_frame]
  refine ⟨answered_complete hsafe' hcpl (.inr hstatus) _ _ _, ?_, ?_, ?_⟩
  · rw [completeWith, complete_cau, hcau, popCau_inQ, hq, List.tail_cons]
  · rw [completeWith, complete_cau, hcau, popCau_slots]
  · have hring : ringOf t m.ctx m.ring = ringOf (popCau s) m.ctx m.ring :=
      ringOf_congr (congrArg HifCtx.rings (hctx_congr (congrArg Hif.ctx hhif) _)) _
    rw [completeWith, ringOf_complete hsafe', hring, head_popCau hq]

/-- A refusal for any reason but a wrong tag or a wrapped key that does not unwrap. -/
theorem cauCheck_refuses {s : State} {m : Cmd} {q : List Cmd} (hq : s.cau.inQ = m :: q)
    (hfree : s.cau.passed = false) (hsafe : s.saf.safe = false) {reason : Nat} (hcheck : authCheck s m = .fail reason)
    (htag : reason ≠ 4) (hwrap : reason ≠ 6) :
    ∃ t, exec .cauCheck s = .next t ∧ answered s t m 3 (keySlot m * 256 + reason) 0 ∧ t.cau.inQ = q ∧
      t.cau.slots = s.cau.slots ∧ (ringOf t m.ctx m.ring).head = cadd (ringOf s m.ctx m.ring).head 1 :=
  ⟨_, exec_cauCheck_of_fail hq hfree hcheck,
    complete_of_popped hq hsafe (regsFrame_countAuthFail htag hwrap _ _ _) (by decide) _⟩

/-- Settles O16: the refusals by the first check that fails, then the pass, then the stale counter. -/
theorem criticalCheck : Obligations.CriticalCheck := by
  unfold Obligations.CriticalCheck
  refine ⟨fun s m q hq hfree hsafe hkat => ?_, fun s m q hq hfree hsafe hkat henrol => ?_,
    fun s m q key hq hfree hcheck => ?_, fun s m q d hq hfree hsafe hcheck => ?_⟩
  · exact cauCheck_refuses hq hfree hsafe (authCheck_of_katFail hkat) (by decide) (by decide)
  · have refused {reason : Nat} (hcheck : authCheck s m = .fail reason) (htag : reason ≠ 4) (hwrap : reason ≠ 6) :
        ∃ t, exec .cauCheck s = .next t ∧ answered s t m 3 (keySlot m * 256 + reason) 0 ∧ t.cau.inQ = q := by
      obtain ⟨t, hexec, hanswer, hrest, -, -⟩ := cauCheck_refuses hq hfree hsafe hcheck htag hwrap
      exact ⟨t, hexec, hanswer, hrest⟩
    refine ⟨fun hstate => ?_, fun hstate => ?_, fun hstate howner => ?_, fun hstate howner hclass => ?_⟩
    · exact refused (authCheck_of_locked hkat henrol hstate) (by decide) (by decide)
    · exact refused (authCheck_of_empty hkat henrol hstate) (by decide) (by decide)
    · exact refused (authCheck_of_foreign hkat henrol (by omega) (by omega) howner) (by decide) (by decide)
    · exact refused (authCheck_of_unauthorised hkat henrol (by omega) (by omega) howner hclass) (by decide)
        (by decide)
  · exact ⟨_, exec_cauCheck_of_pass hq hfree hcheck, hq, rfl, rfl, rfl, rfl, rfl⟩
  · obtain ⟨hanswer, hrest, hslots, -⟩ :=
      complete_of_popped (t := staleCounted s) hq hsafe rfl (status := 4) (by decide) d
    refine ⟨_, exec_cauCheck_of_stale hq hfree hcheck, hanswer, hrest, hslots, ?_⟩
    have hsafe' : (staleCounted s).saf.safe = false := by
      rw [staleCounted, setRegBit_saf, addReg_saf, popCau_frame]
      exact hsafe
    rw [regBit, completeWith, reg_complete hsafe' _ _ _ (by decide) (by decide), ← regBit]
    exact regBit_setRegBit_same _ _ _ _ (by decide)

/-! ### KEY_LOAD and KEY_RETIRE (R173-R175) -/

theorem exec_keyLoad_of_good {s : State} {m : Cmd} (hpassed : isPassed s m 0x0700)
    (hfault : keyLoadFault s m = none) :
    exec .keyLoad s = .next (completeOk (setSlot (acceptCritical s m) (m.at 4 1)
      { key := s.cau.newKey, owner := m.at 5 1, classes := m.at 6 1, ctr := m.at 8 8, fails := 0, state := 1,
        accepts := (slotOf (acceptCritical s m) (m.at 4 1)).accepts }) m 0) := by
  change execKeyLoad s = _
  simp only [execKeyLoad, waitingCritical_of_isPassed hpassed, hfault]

theorem exec_keyLoad_of_fault {s : State} {m : Cmd} {d : Nat} (hpassed : isPassed s m 0x0700)
    (hfault : keyLoadFault s m = some d) : exec .keyLoad s = .next (refuseCritical s m 0x10 d) := by
  change execKeyLoad s = _
  simp only [execKeyLoad, waitingCritical_of_isPassed hpassed, hfault]

/-- The state in which KEY_RETIRE has emptied its target slot. -/
def retired (s : State) (m : Cmd) : State :=
  setSlot (acceptCritical s m) (m.at 4 1) { accepts := (slotOf (acceptCritical s m) (m.at 4 1)).accepts }

theorem exec_keyRetire_of_good {s : State} {m : Cmd} (hpassed : isPassed s m 0x0701)
    (hfault : keyRetireFault m = none) : exec .keyRetire s = .next (completeOk (retired s m) m 0) := by
  change execKeyRetire s = _
  simp only [execKeyRetire, waitingCritical_of_isPassed hpassed, hfault]
  rfl

/-- Settles O17: an accepted KEY_LOAD, a refused one, and an accepted KEY_RETIRE. -/
theorem keyCommands : Obligations.KeyCommands := by
  unfold Obligations.KeyCommands
  refine ⟨fun s m hpassed henrol hfault => ?_, fun s m d hpassed hfault hsafe => ?_,
    fun s m hpassed henrol hfault => ?_⟩
  · have hslot := slotOf_acceptCritical_same henrol m
    exact ⟨exec_keyLoad_of_good hpassed hfault, congrArg KeySlot.ctr hslot, congrArg KeySlot.fails hslot,
      fun k hk => slotOf_acceptCritical_ne henrol m hk⟩
  · have hcau := refuseCritical_cau s m 0x10 d
    have hop : m.opcode ≠ 0x0100 := by
      obtain ⟨-, -, hop, -⟩ := hpassed
      rw [hop]
      decide
    refine ⟨_, exec_keyLoad_of_fault hpassed hfault, (refuseCritical_answers m d hsafe (by decide) hop).1, ?_, ?_⟩
    · rw [hcau, popCau_slots]
    · rw [hcau, popCau_inQ]
  · have hcau : (completeOk (retired s m) m 0).cau = (retired s m).cau := complete_cau _ _ _ _ _ _
    have hslot (k : Nat) : slotOf (completeOk (retired s m) m 0) k = slotOf (retired s m) k :=
      slotOf_congr (congrArg Cau.slots hcau) k
    have htarget : slotOf (retired s m) (m.at 4 1) = _ := slotOf_setSlot_same _ _ _
    refine ⟨_, exec_keyRetire_of_good hpassed hfault, ?_, ?_, ?_, fun k htgt hauth => ?_⟩
    · rw [hslot, htarget]
    · rw [hslot, htarget]
    · rw [hcau]
      exact acceptCritical_inQ henrol m
    · rw [hslot, retired, slotOf_setSlot_ne _ _ htgt, slotOf_acceptCritical_ne henrol m hauth]

end Sys2Proof.Machine
end

section
/-! Why a decrement can change stacked memory: the DATA_PAGE that it passes to PAT may take a frame (R484), and a frame
is zeroed as it is taken, whatever it held while it was free (R474). -/

namespace Sys2Proof.Machine

open Sys2Proof

/-! ### Taking a frame (R474, R475, R479) -/

/-- The low watermark touches HIF, registers and PAT alone (R479). -/
def LowFrame (s t : State) : Prop := t = { s with hif := t.hif, regs := t.regs, pat := t.pat }

theorem lowFrame_raiseEvent {s t : State} (h : LowFrame s t) (c type sev src vint payload : Nat) :
    LowFrame s (raiseEvent t c type sev src vint payload) := by
  unfold LowFrame at *
  rw [(eventFrame_raiseEvent t c type sev src vint payload).state, h]

theorem lowFrame_checkLow (low : Bool) (s : State) : LowFrame s (checkLow low s) := by
  unfold checkLow
  split
  case isTrue => rfl
  case isFalse =>
    split
    case isTrue => rfl
    case isFalse =>
      refine List.foldlRecOn _ _ rfl fun t ht c _ => ?_
      split
      · exact lowFrame_raiseEvent ht _ _ _ _ _ _
      · exact ht

theorem mzero_singleton (a : Nat) (b : Byte) {n : Nat} (hn : 0 < n) : mzero [(a, b)] a n = [] := by
  simp [mzero, msplice, Nat.not_le.mpr (Nat.lt_add_of_pos_right hn)]

/-- The block that the next free draw names in the first stack. -/
def drawnBlock (s : State) : Nat := Config.freeBelow s.fresh grantBlocks % grantBlocks

theorem length_rangeFrom (a n : Nat) : (rangeFrom a n).length = n := by
  induction n generalizing a with
  | zero => rfl
  | succ n ih => rw [rangeFrom, List.length_cons, ih]

theorem freeInBlock_of_no_frames {s : State} (hframes : s.pat.frames = []) (b : Nat) :
    freeInBlock s b = rangeFrom (b * 32) 32 := by
  refine List.filter_eq_self.mpr fun k _ => ?_
  simp [frameUsed, hframes, thas, tget?]

theorem pickLarge_of_no_frames {s : State} (hframes : s.pat.frames = []) (d st : Nat) :
    pickLarge s d st = some ((st * 2 ^ 17 + Config.freeBelow d grantBlocks % grantBlocks) * 32) := by
  simp [pickLarge, findBlock, freeInBlock_of_no_frames hframes, length_rangeFrom]

/-- A frame reads zero once it is taken, and nothing but the fresh draw, HIF, registers, PAT and memory changes. -/
theorem takeFrame_effect {s t : State} {c use floor k : Nat} {large : Bool} {field : Option Nat}
    (h : takeFrame s c large use floor field = some (k, t)) :
    t.mem = mzero s.mem (k * 65536) (frameSize large * 65536) ∧
      t = { s with fresh := t.fresh, hif := t.hif, regs := t.regs, pat := t.pat, mem := t.mem } := by
  simp only [takeFrame, draw] at h
  split at h
  case isTrue => cases h
  case isFalse =>
    split at h
    case h_1 => cases h
    case h_2 =>
      cases h
      rw [lowFrame_checkLow]
      exact ⟨rfl, rfl⟩

/-- With no frame in use, a large frame for a unit without a core is the drawn block of the first stack. -/
theorem takeFrame_of_no_frames {s : State} {c use floor : Nat} (hframes : s.pat.frames = [])
    (hquota : 32 ≤ quota s c) (hfree : 32 + floor ≤ freeFrames s) :
    ∃ t, takeFrame s c true use floor none = some (drawnBlock s * 32, t) := by
  have hused : usedFrames s c = 0 := by rw [usedFrames, hframes]; rfl
  have hgrant : (decide (quota s c < usedFrames s c + 32) || decide (freeFrames s < 32 + floor)) = false := by
    simp [hused, hquota, hfree]
  have hpick : ((stackOrder { s with fresh := s.fresh + 1 } none).findSome?
      fun st => pickLarge { s with fresh := s.fresh + 1 } s.fresh st) = some (drawnBlock s * 32) := by
    simp only [pickLarge_of_no_frames (s := { s with fresh := s.fresh + 1 }) hframes]
    simp [stackOrder, Config.memStacks, List.range, List.range.loop, drawnBlock]
  simp only [takeFrame, draw, frameSize, if_true, hgrant, Bool.false_eq_true, if_false, hpick]
  exact ⟨_, rfl⟩

/-! ### Filling ahead (R484) -/

/-- An unmapped page of a STREAM region with PF_DEPTH 0 starts its fill where a frame can be taken. -/
theorem prefetch_of_unmapped {s t : State} {c page k : Nat} {g : Region} (hpage : page ≠ 0)
    (hregion : regionAt s c (page * 65536) = some g) (hen : ctxEnabled s c = true) (hkind : g.kind = 2)
    (hdepth : g.depth = 0) (hmap : mapOf s c (pageOf g (page * 65536)) = none) (hfills : s.pat.fills = [])
    (hend : pageOf g (page * 65536) * 65536 < g.base + g.size)
    (htake : takeFrame s c g.large 5 (minWm s) none = some (k, t)) :
    prefetch s c page = { t with pat := { t.pat with fills := t.pat.fills ++
      [{ ctx := c, vpn := pageOf g (page * 65536), frame := k, large := g.large, switch := false, ahead := true,
         field := none }] } } := by
  have hidle : filling s c (pageOf g (page * 65536)) = false := by simp [filling, hfills]
  have hstart : fillAhead c g s (pageOf g (page * 65536)) =
      (startFill s c (pageOf g (page * 65536)) g none false true).getD s := by
    simp [fillAhead, hmap, hidle, hfills, hend]
  simp [prefetch, hregion, hpage, hen, hmap, hkind, hdepth, hstart, startFill, hidle, htake]

/-! ### A decrement that leaves COUNT 1 -/

theorem exec_decrementApply_of_alone {s : State} {bank : Fin 16} {e : Dec} {i : Nat} {img : Img} {st : Step}
    (hq : s.tge.decQ = [e]) (hbank : e.task % 16 = bank.val) (himg : imgOfTask s e.task = some (i, img))
    (hstep : stepOf s i = some st) (hphase : st.phase = 2) :
    exec (.decrementApply bank) s =
      .next (settle (applyDec { s with tge := { s.tge with decQ := [] } } i img.ctx e)) := by
  change execDecrementApply bank s = _
  simp [execDecrementApply, hq, takeFirst, hbank, himg, hstep, hphase, visited]

/-- The state in which a decrement has been counted and written to both copies. -/
def decremented (s : State) (t : Nat) : State :=
  addCount (setCounter s t (counterWord (cwLive (cntA s t)) (cwInit (cntA s t)) (cwCount (cntA s t) - 1))) 0x28000C 1

theorem applyDec_of_two {s : State} {e : Dec} (hagree : cntA s e.task = cntB s e.task)
    (htwo : cwCount (cntA s e.task) = 2) (i c : Nat) :
    applyDec s i c e = prefetch (decremented s e.task) c (tdDataPage (descOf s e.task)) := by
  simp only [applyDec, ← hagree, htwo, ne_eq, not_true_eq_false, reduceIte, OfNat.ofNat_ne_zero, OfNat.ofNat_ne_one]
  rw [decremented, htwo]
  rfl

/-! ### A free frame that is not zeroed yet (R474) -/

namespace Unzeroed

/-- Context 0 is enabled, may hold 32 frames, and has one region: STREAM, with one large page. -/
def regs : Table Word :=
  [(0x110000, 0x80000000), (0x710004, 32), (0x710108, 1), (0x71010C, 0xD0000000)]

def image : Img := { ctx := 0, id := 0, state := 1, tasks := 1, edges := 0, tblk := [0] }

def running : Step :=
  { launch := { cmd := { ctx := 0, ring := 0, seq := 0, bytes := [] }, vint := 1, seed := 0, repro := false,
                replay := false, prev := 0 }
    phase := 2 }

/-- A task with IN_COUNT 2 whose DATA_PAGE is page 1. -/
def task : List Byte := [0, 0, 0, 0, 2] ++ List.replicate 19 0 ++ 1 :: List.replicate 39 0

/-- A running step whose task 0 has COUNT 2 and one decrement to come. No frame is in use, and memory holds one byte
that is not zero, in the frame that the next draw takes. -/
def state : State :=
  { regs := regs
    mem := [(Config.freeBelow 0 grantBlocks % grantBlocks * 32 * 65536, 1)]
    tge := { imgs := [(0, image)], steps := [(0, running)], tasks := [(0, task)], cntA := [(0, 0x20002)]
             cntB := [(0, 0x20002)], decQ := [{ task := 0 }] }
    pat := { up := true } }

/-- The state in which the decrement has been counted. -/
def counted : State := decremented { state with tge := { state.tge with decQ := [] } } 0

/-- Context 0's STREAM region. -/
def region : Region :=
  { base := 0, size := 2 ^ 21, kind := 2, large := true, fill := 0, stacked := false, depth := 0, src := 0 }

theorem regionAt_counted : regionAt counted 0 (1 * 65536) = some region := by decide +kernel

theorem calm_counted : calm counted := ⟨rfl, rfl, fun _ hr => absurd hr List.not_mem_nil⟩

/-- The decrement has the page filled ahead, and the byte is gone with the taking of its frame. -/
theorem mem_after_decrement : ∃ t, exec (.decrementApply 0) state = .next t ∧ t.mem = [] := by
  obtain ⟨t, htake⟩ := takeFrame_of_no_frames (s := counted) (c := 0) (use := 5) (floor := minWm counted) rfl
    (by decide +kernel) (by decide +kernel)
  obtain ⟨hzeroed, hframe⟩ := takeFrame_effect htake
  have hprefetch := prefetch_of_unmapped (page := 1) (by decide) regionAt_counted (by decide +kernel) rfl rfl rfl rfl
    (by decide) htake
  refine ⟨_, exec_decrementApply_of_alone rfl rfl rfl rfl rfl, ?_⟩
  rw [applyDec_of_two rfl (by decide)]
  change (settle (prefetch counted 0 1)).mem = []
  rw [hprefetch, settle_of_calm (by rw [hframe]; exact calm_counted)]
  exact hzeroed.trans (mzero_singleton _ _ (by decide))

end Unzeroed

/-- Refutes O60: its third clause has a decrement to COUNT 1 leave memory as it was, but where the task's DATA_PAGE lies
in a STREAM region and is unmapped, PAT takes a frame for it and zeroes that frame (R474, R484). `Unzeroed.state` has
the byte 1 in that frame, and none after the decrement. -/
theorem not_checksGatesAndAccounts : ¬ Obligations.ChecksGatesAndAccounts := by
  unfold Obligations.ChecksGatesAndAccounts
  rintro ⟨-, -, hdecrements, -⟩
  obtain ⟨hlowered, -⟩ := hdecrements Unzeroed.state 0 { task := 0 } [] 0 Unzeroed.image Unzeroed.running
    rfl rfl rfl rfl rfl rfl ⟨rfl, rfl, fun _ hr => absurd hr List.not_mem_nil⟩
  obtain ⟨t, hexec, -, -, -, -, hkept⟩ := hlowered (by decide)
  obtain ⟨u, hexec', hgone⟩ := Unzeroed.mem_after_decrement
  obtain rfl : t = u := Host.Outcome.next.inj (hexec.symm.trans hexec')
  exact absurd (hkept.symm.trans hgone) (List.cons_ne_nil _ _)

end Sys2Proof.Machine
end

section
/-! Image and step records, and commands that units take: what later proofs about task graphs read after a write. -/

namespace Sys2Proof.Machine

open Sys2Proof

@[simp] theorem imgOf_setImg_same (s : State) (i : Nat) (x : Img) : imgOf (setImg s i x) i = some x :=
  tget?_tput_same s.tge.imgs i x

@[simp] theorem imgOf_setStep (s : State) (i : Nat) (x : Step) (j : Nat) : imgOf (setStep s i x) j = imgOf s j := rfl

@[simp] theorem stepOf_setStep_same (s : State) (i : Nat) (x : Step) : stepOf (setStep s i x) i = some x :=
  tget?_tput_same s.tge.steps i x

@[simp] theorem stepOf_setImg (s : State) (i : Nat) (x : Img) (j : Nat) : stepOf (setImg s i x) j = stepOf s j := rfl

@[simp] theorem stepOf_queueIs (s : State) (rest : List Cmd) (i : Nat) : stepOf (queueIs s rest) i = stepOf s i := rfl

@[simp] theorem findImg_queueIs (s : State) (rest : List Cmd) (c id : Nat) :
    findImg (queueIs s rest) c id = findImg s c id := rfl

@[simp] theorem servingOf_queueIs (s : State) (rest : List Cmd) (c : Nat) :
    servingOf (queueIs s rest) c = servingOf s c := rfl

@[simp] theorem queueIs_gtb (s : State) (rest : List Cmd) : (queueIs s rest).gtb = s.gtb := rfl

@[simp] theorem bitAt_zero (i : Nat) : bitAt 0 i = false := by simp [bitAt]

theorem imgOf_congr {s t : State} (h : t.tge = s.tge) (i : Nat) : imgOf t i = imgOf s i := by
  rw [imgOf, h, imgOf]

/-- The only step is the one of its image record. -/
theorem stepOf_of_single {s : State} {i : Nat} {st : Step} (h : s.tge.steps = [(i, st)]) : stepOf s i = some st := by
  rw [stepOf, h, tget?, if_pos rfl]

theorem complete_tge {s : State} (hsafe : s.saf.safe = false) (m : Cmd) (status detail result reruns : Nat) :
    (complete s m status detail result reruns).tge = s.tge := by
  rw [complete_frame hsafe]

theorem timeFrame_advanceCclk (n : Nat) (s : State) : TimeFrame s (advanceCclk n s) :=
  .ite (.refl s) (timeFrame_elapse _ s)

theorem cclk_elapse (n : Nat) (s : State) : (elapse n s).gtb.cclk = s.gtb.cclk + n := by
  have hnoted : (boundaryNoted (timeGain n s) s).gtb.cclk = s.gtb.cclk := by
    obtain h | h := boundaryNoted_cases (timeGain n s) s <;> rw [h]
    rfl
  have hheld (dt : Nat) (t : State) : (holdCounted dt t).gtb.cclk = t.gtb.cclk := by
    unfold holdCounted
    split <;> rfl
  rw [elapse_eq, addLost_gtb]
  refine (hheld _ _).trans ?_
  rw [slewClosed_gtb]
  exact congrArg (· + n) hnoted

theorem le_cclk_advanceCclk (n : Nat) (s : State) : n ≤ (advanceCclk n s).gtb.cclk := by
  unfold advanceCclk
  split
  · assumption
  · rw [cclk_elapse]
    omega

theorem popUnit_of_isNext {s : State} {m : Cmd} {rest : List Cmd} {op : Nat} (h : isNext s m rest op) :
    (popUnit s fun k => k.opcode == op) = some (m, queueIs s rest) := by
  obtain ⟨hq, hop⟩ := h
  exact popUnit_of_first hq (by simp [hop])

end Sys2Proof.Machine
end

section
/-! GRAPH_LOAD and GRAPH_LOAD_INSTALL (R202-R209): acceptance, refusals, the install, and items of the stream that are
lost. -/

namespace Sys2Proof.Machine

open Sys2Proof

/-! ### Refusals (R204, R219) -/

theorem regsFrame_noteLoad (s : State) (status detail : Nat) : RegsFrame s (noteLoad s status detail) := by
  unfold noteLoad
  split
  · rfl
  · split <;> rfl

/-- The state in which a GRAPH_LOAD that its unit refuses has been answered. -/
def loadRefused (s : State) (m : Cmd) (status detail : Nat) : State :=
  refuseCritical (noteLoad s status detail) m status detail

theorem loadRefused_answers {s : State} (hsafe : s.saf.safe = false) (m : Cmd) {status : Nat} (hstatus : status ≠ 0)
    (detail : Nat) : answered s (loadRefused s m status detail) m status detail 0 ∧
      (loadRefused s m status detail).tge = s.tge := by
  have hframe : popCau (noteLoad s status detail) = { s with
      regs := (noteLoad s status detail).regs, cau := (popCau (noteLoad s status detail)).cau
      hif := { s.hif with ctx := (popCau (noteLoad s status detail)).hif.ctx } } := by
    rw [popCau_frame, regsFrame_noteLoad]
  have hsafe' : (popCau (noteLoad s status detail)).saf.safe = false := by rw [hframe]; exact hsafe
  have hq : (popCau (noteLoad s status detail)).hif.cplQ = s.hif.cplQ := by rw [hframe]
  refine ⟨answered_complete hsafe' hq (.inr hstatus) _ _ _, ?_⟩
  rw [loadRefused, refuseCritical, completeWith, complete_tge hsafe', hframe]

/-! ### GRAPH_LOAD (R204, R207) -/

section
variable {s : State} {m : Cmd} (hpassed : isPassed s m 0x0100) (hroom : s.tge.loads.length < 4)
include hpassed hroom

theorem exec_graphLoad_of_bad_operand {i : Nat} (hbad : loadOperands m = some i) (readErr : Bool) :
    exec (.graphLoad readErr) s = .next (loadRefused s m 0x10 i) := by
  change execGraphLoad readErr s = _
  simp only [execGraphLoad, waitingCritical_of_isPassed hpassed, Nat.not_le.mpr hroom, hbad, if_false]
  rfl

variable (hgood : loadOperands m = none) (hnew : findImg s m.ctx (m.at 4 1) = none)
include hgood hnew

theorem exec_graphLoad_of_read_error : exec (.graphLoad true) s = .next (loadRefused s m 0x13 (9 * 2 ^ 28)) := by
  change execGraphLoad true s = _
  simp only [execGraphLoad, waitingCritical_of_isPassed hpassed, Nat.not_le.mpr hroom, hgood, hnew, if_false,
    Option.isSome_none, Bool.false_eq_true, if_true]
  rfl

theorem exec_graphLoad_of_good {header : List Byte}
    (hread : readSrc s m.ctx (bitAt (m.at 5 1) 0) (m.at 8 8) 256 = some header)
    (hheader : headerFault header (m.at 16 4) = none) (hcapacity : capacityFault s header = none) :
    exec (.graphLoad false) s = .next (acceptCritical (reserveLoad s m header) m) := by
  change execGraphLoad false s = _
  simp only [execGraphLoad, waitingCritical_of_isPassed hpassed, Nat.not_le.mpr hroom, hgood, hnew, if_false,
    Option.isSome_none, Bool.false_eq_true, hread, hheader, hcapacity]

end

/-- The record that an accepted load reserves is loading, with the tasks and edges of its header (R200, R204). -/
theorem imgOf_reserveLoad (s : State) (m : Cmd) (header : List Byte) :
    ∃ x, imgOf (reserveLoad s m header) (freeKey s.tge.imgs) = some x ∧ x.ctx = m.ctx ∧ x.id = m.at 4 1 ∧
      x.state = 0 ∧ x.tasks = ihTasks header ∧ x.edges = ihEdges header :=
  ⟨_, tget?_tput_same _ _ _, rfl, rfl, rfl, rfl, rfl⟩

/-! ### GRAPH_LOAD_INSTALL (R205-R207, R209) -/

theorem streamLoss_zero (s : State) (qctl off i : Nat) : streamLoss s qctl 0 off i = s := if_pos rfl

theorem regsFrame_streamLoss (s : State) (qctl n off i : Nat) : RegsFrame s (streamLoss s qctl n off i) := by
  unfold streamLoss
  split <;> rfl

section
variable {s : State} {i : Nat} {l : List Nat} {img : Img} {m : Cmd} (hloads : s.tge.loads = i :: l)
  (himg : imgOf s i = some img) (hcmd : img.cmd = some m)
include hloads himg hcmd

theorem exec_graphLoadInstall_of_good {b : List Byte} (hbody : bodyFault s m none = none)
    (hread : readSrc s m.ctx (bitAt (m.at 5 1) 0) (m.at 8 8) (m.at 16 4) = some b)
    (hcontent : contentFault s b ((m.bytes.drop 24).take 24) = none) :
    exec (.graphLoadInstall none 0) s = .next (installLoad s i img m b) := by
  change execGraphLoadInstall none s 0 = _
  simp only [execGraphLoadInstall, hloads, himg, hcmd, streamLoss_zero, hbody, hread, Option.getD_some, hcontent]

/-- What of the body was streamed before the byte at which its read fails. -/
def streamedTo (s : State) (img : Img) (m : Cmd) (o : Nat) : State :=
  streamTables s img ((readSrc s m.ctx (bitAt (m.at 5 1) 0) (m.at 8 8) o).getD []) o false

theorem exec_graphLoadInstall_of_body_fault {err : Option Nat} {o : Nat} (hbody : bodyFault s m err = some o) :
    exec (.graphLoadInstall err 0) s = .next (failLoad (streamedTo s img m o) i img m 9 o) := by
  change execGraphLoadInstall err s 0 = _
  simp only [execGraphLoadInstall, hloads, himg, hcmd, streamLoss_zero, hbody]
  rfl

/-- The items that a full stream queue has lost are shown, and the load goes on as without (R209, log entry 38). -/
theorem exec_graphLoadInstall_of_losses (err : Option Nat) (lost : Nat) : exec (.graphLoadInstall err lost) s =
    exec (.graphLoadInstall err 0) (streamLoss s 0x200010 lost 0x200000 2) := by
  have hframe := regsFrame_streamLoss s 0x200010 lost 0x200000 2
  have hloads' : (streamLoss s 0x200010 lost 0x200000 2).tge.loads = i :: l := by rw [hframe]; exact hloads
  have himg' : imgOf (streamLoss s 0x200010 lost 0x200000 2) i = some img := by rw [hframe]; exact himg
  change execGraphLoadInstall err s lost = execGraphLoadInstall err (streamLoss s 0x200010 lost 0x200000 2) 0
  simp only [execGraphLoadInstall, hloads, himg, hcmd, hloads', himg', streamLoss_zero]

end

/-- The state in which the record of a failed load is gone and its failure shown (R206, R219). -/
def loadDropped (s : State) (i detail : Nat) : State :=
  noteLoad { s with tge := { s.tge with imgs := tdel s.tge.imgs i, loads := s.tge.loads.drop 1 } } 0x13 detail

theorem failLoad_of_no_pending (s : State) {i : Nat} {img : Img} (hnone : img.pending = none) (m : Cmd)
    (code index : Nat) : failLoad s i img m code index =
      completeWith (loadDropped s i (code * 2 ^ 28 + index % 2 ^ 28)) m 0x13 (code * 2 ^ 28 + index % 2 ^ 28) := by
  simp only [failLoad, hnone]
  rfl

/-- A failed load leaves no record, and is answered with the check that failed. -/
theorem failLoad_answers {s : State} (hsafe : s.saf.safe = false) (i : Nat) {img : Img} (hnone : img.pending = none)
    (m : Cmd) (code index : Nat) :
    imgOf (failLoad s i img m code index) i = none ∧ (failLoad s i img m code index).tge.loads = s.tge.loads.drop 1 ∧
      answered s (failLoad s i img m code index) m 0x13 (code * 2 ^ 28 + index % 2 ^ 28) 0 := by
  rw [failLoad_of_no_pending s hnone]
  generalize code * 2 ^ 28 + index % 2 ^ 28 = detail
  have hframe : loadDropped s i detail = { s with
      tge := { s.tge with imgs := tdel s.tge.imgs i, loads := s.tge.loads.drop 1 }
      regs := (loadDropped s i detail).regs } := by
    rw [loadDropped, regsFrame_noteLoad]
  have hsafe' : (loadDropped s i detail).saf.safe = false := by rw [hframe]; exact hsafe
  have htge : (completeWith (loadDropped s i detail) m 0x13 detail).tge = (loadDropped s i detail).tge :=
    complete_tge hsafe' _ _ _ _ _
  refine ⟨?_, ?_, answered_complete hsafe' (by rw [hframe]) (.inr (by decide)) _ _ _⟩
  · rw [imgOf_congr htge, hframe]
    exact (tget?_tdel s.tge.imgs i i).trans (if_pos rfl)
  · rw [htge, hframe]

/-- Settles O18: GRAPH_LOAD by what its checks find, then the fate of the oldest load. -/
theorem graphLoads : Obligations.GraphLoads := by
  unfold Obligations.GraphLoads
  refine ⟨fun s m b header hpassed hroom hgood hnew hread hheader hcapacity => ?_,
    fun s m b i hpassed hroom hbad hsafe => ?_,
    fun s i l img m b hloads himg hcmd => exec_graphLoadInstall_of_good hloads himg hcmd,
    fun s i l img m o hloads himg hcmd hnone hbody hsafe => ?_,
    fun s err lost i l img m hloads himg hcmd => exec_graphLoadInstall_of_losses hloads himg hcmd err lost⟩
  · refine ⟨exec_graphLoad_of_good hpassed hroom hgood hnew hread hheader hcapacity, rfl,
      imgOf_reserveLoad s m header, fun hb hsafe => ?_⟩
    subst hb
    exact ⟨_, exec_graphLoad_of_read_error hpassed hroom hgood hnew, loadRefused_answers hsafe m (by decide) _⟩
  · exact ⟨_, exec_graphLoad_of_bad_operand hpassed hroom hbad b, loadRefused_answers hsafe m (by decide) i⟩
  · obtain ⟨hgone, hrest, hanswer⟩ := failLoad_answers (s := streamedTo s img m o) hsafe i hnone m 9 o
    refine ⟨_, exec_graphLoadInstall_of_body_fault hloads himg hcmd hbody, hgone, hrest.trans ?_, hanswer⟩
    exact congrArg (List.drop 1) hloads

end Sys2Proof.Machine
end

section
/-! GRAPH_LAUNCH, GRAPH_ABORT and GRAPH_UNLOAD (R210-R212, R218, R287, R288, R498). -/

namespace Sys2Proof.Machine

open Sys2Proof

/-! ### GRAPH_LAUNCH (R210, R211) -/

/-- The launch of a command without REPLAY and REPRO, on an image whose last vintage is `last`. -/
def plainLaunch (m : Cmd) (last : Nat) : Launch :=
  { cmd := m, vint := vintageOf (m.at 8 8) last, seed := m.at 16 8, repro := false, replay := false, prev := last }

section
variable {s : State} {m : Cmd} {rest : List Cmd} {i : Nat} {img : Img} (hnext : isNext s m rest 0x0101)
  (hid : m.at 4 1 < 16) (hflags : m.at 5 1 = 0) (hlow : firstNonzero m.bytes 6 2 = none)
  (hhigh : firstNonzero m.bytes 24 24 = none) (himg : findImg s m.ctx (m.at 4 1 % 16) = some (i, img))
  (hstate : img.state = 1)
include hnext hid hflags hlow hhigh himg hstate

theorem exec_graphLaunch_of_stale (hstale : vintageOk false (m.at 8 8) img.last = false) :
    exec .graphLaunch s = .next (completeWith (queueIs s rest) m 0x15 (img.last % 2 ^ 32)) := by
  change execGraphLaunch s = _
  simp [execGraphLaunch, popUnit_of_isNext hnext, Nat.not_le.mpr hid, hflags, hlow, hhigh, himg, hstate, hstale]

theorem exec_graphLaunch_of_good (hfresh : vintageOk false (m.at 8 8) img.last = true) (hnone : img.pending = none)
    (hserve : servingOf s m.ctx = none) :
    exec .graphLaunch s = .next (acceptLaunch (queueIs s rest) i img (plainLaunch m img.last)) := by
  change execGraphLaunch s = _
  simp [execGraphLaunch, popUnit_of_isNext hnext, Nat.not_le.mpr hid, hflags, hlow, hhigh, himg, hstate, hfresh,
    hnone, hserve, plainLaunch]

end

/-- A launch of an installed image with no step begins at once (R211). -/
theorem acceptLaunch_of_idle {s : State} {i : Nat} {img : Img} (hidle : stepOf s i = none) (hstate : img.state = 1)
    (m : Cmd) : acceptLaunch s i img (plainLaunch m img.last) =
      setStep (setImg s i { img with
        last := vintageOf (m.at 8 8) img.last, vint := vintageOf (m.at 8 8) img.last, done := 0 }) i
        { launch := plainLaunch m img.last, start := s.gtb.now } := by
  simp [acceptLaunch, hidle, hstate, plainLaunch]

/-- A launch behind a running step is held (R212). -/
theorem acceptLaunch_of_running {s : State} {i : Nat} {st : Step} (hrun : stepOf s i = some st) (img : Img) (m : Cmd) :
    acceptLaunch s i img (plainLaunch m img.last) = setImg s i { img with
      last := vintageOf (m.at 8 8) img.last, pending := some (plainLaunch m img.last) } := by
  simp [acceptLaunch, hrun, plainLaunch]

/-! ### GRAPH_ABORT (R287, R288) -/

section
variable {s : State} {m : Cmd} {rest : List Cmd} {i : Nat} {img : Img} (hnext : isNext s m rest 0x0102)
  (hid : m.at 4 1 < 16) (hflags : m.at 5 1 = 0) (hzero : firstNonzero m.bytes 6 42 = none)
  (himg : findImg s m.ctx (m.at 4 1 % 16) = some (i, img)) (hstate : img.state = 1)
include hnext hid hflags hzero himg hstate

theorem exec_graphAbort_of_running {st : Step} (hrun : stepOf s i = some st) :
    exec .graphAbort s = .next (settle (ask
      (setStep (queueIs s rest) i { st with aborts := st.aborts ++ [m] }) (.teardown i 8 0 8))) := by
  change execGraphAbort s = _
  simp [execGraphAbort, popUnit_of_isNext hnext, Nat.not_le.mpr hid, hflags, hzero, himg, hstate, hrun]

theorem exec_graphAbort_of_idle (hidle : stepOf s i = none) :
    exec .graphAbort s = .next (completeOk (queueIs s rest) m 0) := by
  change execGraphAbort s = _
  simp [execGraphAbort, popUnit_of_isNext hnext, Nat.not_le.mpr hid, hflags, hzero, himg, hstate, hidle]

end

/-! ### GRAPH_UNLOAD (R218, R498) -/

theorem exec_graphUnload_of_idle {s : State} {m : Cmd} {rest : List Cmd} {i : Nat} {img : Img}
    (hnext : isNext s m rest 0x0103) (himg : findImg s m.ctx (m.at 4 1 % 16) = some (i, img)) (hstate : img.state = 1)
    (hidle : stepOf s i = none) (hnone : img.pending = none) (hserve : servingOf s m.ctx = none) :
    exec .graphUnload s = .next (releaseArm (setImg (queueIs s rest) i { img with
      state := 2, cmd := some m
      zeroBy := s.gtb.cclk + max (512 * img.eblk.length) (64 * img.tblk.length) }) i) := by
  change execGraphUnload s = _
  simp [execGraphUnload, popUnit_of_isNext hnext, himg, hstate, hidle, hnone, hserve]

/-- The state in which the zeroing of an image's blocks has ended and its record is gone. -/
def unloaded (s : State) (i : Nat) (img : Img) : State :=
  let s := clearTables (advanceCclk img.zeroBy s) img
  { s with tge := { s.tge with imgs := tdel s.tge.imgs i } }

theorem exec_unloadZeroingDone_of_single {s : State} {i : Nat} {img : Img} {m : Cmd} (himgs : s.tge.imgs = [(i, img)])
    (hstate : img.state = 2) (hcmd : img.cmd = some m) :
    exec .unloadZeroingDone s = .next (completeOk (unloaded s i img) m 1) := by
  have hfirst : sortBy (fun a b : Nat × Img => decide (a.2.zeroBy ≤ b.2.zeroBy))
      (s.tge.imgs.filter fun e => e.2.state == 2) = [(i, img)] := by
    simp [himgs, hstate, sortBy, insertBy]
  change execUnloadZeroingDone s = _
  simp only [execUnloadZeroingDone, hfirst, hcmd]
  rfl

/-- The end of an unload touches the tables of the images, and beside them what passing time touches. -/
theorem unloaded_frame (s : State) (i : Nat) (img : Img) : unloaded s i img = { s with
    regs := (unloaded s i img).regs, gtb := (unloaded s i img).gtb, clk := (unloaded s i img).clk
    tst := (unloaded s i img).tst, tge := (unloaded s i img).tge } := by
  have hframe := timeFrame_advanceCclk img.zeroBy s
  rw [TimeFrame] at hframe
  rw [unloaded, hframe]
  rfl

theorem imgOf_unloaded (s : State) (i : Nat) (img : Img) : imgOf (unloaded s i img) i = none :=
  (tget?_tdel _ i i).trans (if_pos rfl)

/-- The end of an unload is answered with RESULT 1, no record of the image is left, and its zeroing has had its
time. -/
theorem unloadZeroingDone_answers {s : State} (hsafe : s.saf.safe = false) {m : Cmd} (hentry : bitAt m.flags 1 = false)
    (i : Nat) (img : Img) :
    imgOf (completeOk (unloaded s i img) m 1) i = none ∧ answered s (completeOk (unloaded s i img) m 1) m 0 0 1 ∧
      img.zeroBy ≤ (completeOk (unloaded s i img) m 1).gtb.cclk := by
  have hsafe' : (unloaded s i img).saf.safe = false := by rw [unloaded_frame]; exact hsafe
  refine ⟨?_, answered_complete hsafe' (by rw [unloaded_frame]) (.inl hentry) _ _ _, ?_⟩
  · exact (imgOf_congr (complete_tge hsafe' _ _ _ _ _) i).trans (imgOf_unloaded s i img)
  · rw [completeOk, complete_frame hsafe']
    exact le_cclk_advanceCclk img.zeroBy s

/-- Settles O19: the commands of a loaded image by what they find of its step, then the end of an unload. -/
theorem graphCommands : Obligations.GraphCommands := by
  unfold Obligations.GraphCommands
  refine ⟨fun s m rest i img hnext hid hflags hlow hhigh himg hstate hfresh hnone hserve hidle => ?_,
    fun s m rest i img st hnext hid hflags hlow hhigh himg hstate hfresh hnone hserve hrun => ?_,
    fun s m rest i img hnext hid hflags hlow hhigh himg hstate hstale hsafe => ?_,
    fun s m rest i img st hnext hid hflags hzero himg hstate =>
      exec_graphAbort_of_running hnext hid hflags hzero himg hstate,
    fun s m rest i img hnext hid hflags hzero himg hstate =>
      exec_graphAbort_of_idle hnext hid hflags hzero himg hstate,
    fun s m rest i img hnext _ _ himg hstate hidle hnone hserve =>
      exec_graphUnload_of_idle hnext himg hstate hidle hnone hserve,
    fun s i img m himgs hstate hcmd hsafe hentry => ?_⟩
  · refine ⟨_, { launch := plainLaunch m img.last, start := s.gtb.now },
      exec_graphLaunch_of_good hnext hid hflags hlow hhigh himg hstate hfresh hnone hserve, ?_⟩
    rw [acceptLaunch_of_idle (s := queueIs s rest) hidle hstate]
    refine ⟨stepOf_setStep_same _ _ _, rfl, rfl, rfl, rfl, ?_, rfl, rfl, rfl⟩
    rw [imgOf_setStep, imgOf_setImg_same]
  · refine ⟨_, plainLaunch m img.last,
      exec_graphLaunch_of_good hnext hid hflags hlow hhigh himg hstate hfresh hnone hserve, ?_⟩
    rw [acceptLaunch_of_running (s := queueIs s rest) hrun]
    exact ⟨(stepOf_setImg _ _ _ _).trans hrun, imgOf_setImg_same _ _ _, rfl⟩
  · have hsafe' : (queueIs s rest).saf.safe = false := hsafe
    exact ⟨_, exec_graphLaunch_of_stale hnext hid hflags hlow hhigh himg hstate hstale,
      answered_complete hsafe' rfl (.inr (by decide)) _ _ _, complete_tge hsafe' _ _ _ _ _⟩
  · exact ⟨_, exec_unloadZeroingDone_of_single himgs hstate hcmd, unloadZeroingDone_answers hsafe hentry i img⟩

end Sys2Proof.Machine
end

section
/-! What PAT changes where TGE passes it the page of a task (R469, R474, R484), and SAF where it takes a record (R624):
tables and counters of tasks are no part of either. -/

namespace Sys2Proof.Machine

open Sys2Proof

/-- `t` differs from `s` at most where a page that is filled ahead can differ: the free draws, HIF, registers, PAT and
stacked memory. -/
def PageFrame (s t : State) : Prop :=
  t = { s with fresh := t.fresh, hif := t.hif, regs := t.regs, pat := t.pat, mem := t.mem }

theorem PageFrame.refl (s : State) : PageFrame s s := rfl

theorem PageFrame.trans {s t u : State} (hst : PageFrame s t) (htu : PageFrame t u) : PageFrame s u := by
  unfold PageFrame at *
  rw [hst] at htu
  exact htu

theorem PageFrame.tge {s t : State} (h : PageFrame s t) : t.tge = s.tge := by
  rw [PageFrame] at h
  rw [h]

theorem PageFrame.saf {s t : State} (h : PageFrame s t) : t.saf = s.saf := by
  rw [PageFrame] at h
  rw [h]

theorem pageFrame_freeWay (s : State) (key : Nat) : PageFrame s (freeWay s key) := by
  unfold freeWay
  extract_lets n
  split
  · rfl
  · dsimp only [draw]
    split <;> rfl

theorem pageFrame_enterCache (s : State) (key : Nat) : PageFrame s (enterCache s key) := by
  unfold enterCache
  split
  · rfl
  · refine (pageFrame_freeWay s key).trans ?_
    dsimp only
    split <;> rfl

theorem pageFrame_startFill {s t : State} {c vpn : Nat} {g : Region} {field : Option Nat} {switch ahead : Bool}
    (h : startFill s c vpn g field switch ahead = some t) : PageFrame s t := by
  unfold startFill at h
  split at h
  case isTrue =>
    cases h
    rfl
  case isFalse =>
    split at h
    case h_1 => cases h
    case h_2 k u htake =>
      cases h
      obtain ⟨-, hframe⟩ := takeFrame_effect htake
      exact PageFrame.trans (t := u) hframe rfl

theorem pageFrame_fillAhead (c : Nat) (g : Region) (s : State) (vpn : Nat) : PageFrame s (fillAhead c g s vpn) := by
  unfold fillAhead
  split
  · rfl
  · cases h : startFill s c vpn g none false true with
    | none => rfl
    | some t => exact pageFrame_startFill h

theorem pageFrame_prefetch (s : State) (c page : Nat) : PageFrame s (prefetch s c page) := by
  have hfills (g : Region) (l : List Nat) (t : State) : PageFrame t (l.foldl (fillAhead c g) t) :=
    List.foldlRecOn _ _ (.refl t) fun u hu vpn _ => hu.trans (pageFrame_fillAhead c g u vpn)
  unfold prefetch
  split
  case h_1 => rfl
  case h_2 g _ =>
    split
    case isTrue => rfl
    case isFalse =>
      extract_lets v cached
      have hcached : PageFrame s cached := by
        unfold cached
        split
        · split
          · exact pageFrame_enterCache s _
          · rfl
        · rfl
      split
      · exact hcached.trans (hfills g _ cached)
      · exact hcached

/-- An error record goes to SAF, or is lost with marks in registers (R624). -/
theorem record_frame (s : State) (sev unit code : Nat) (ctx : Option Nat) (detail param : Nat) :
    record s sev unit code ctx detail param = { s with
      regs := (record s sev unit code ctx detail param).regs
      saf := (record s sev unit code ctx detail param).saf } := by
  unfold record
  split <;> rfl

theorem checkLedger_frame (s : State) (c t : Nat) :
    checkLedger s c t = { s with regs := (checkLedger s c t).regs, saf := (checkLedger s c t).saf } := by
  unfold checkLedger
  split
  · rfl
  · rw [record_frame]
    rfl

@[simp] theorem cntA_setCounter_same (s : State) (t w : Nat) : cntA (setCounter s t w) t = w := tget_tput_same _ _ _ _

@[simp] theorem cntB_setCounter_same (s : State) (t w : Nat) : cntB (setCounter s t w) t = w := tget_tput_same _ _ _ _

theorem cntA_congr {s t : State} (h : t.tge = s.tge) (k : Nat) : cntA t k = cntA s k := by
  rw [cntA, h, cntA]

theorem cntB_congr {s t : State} (h : t.tge = s.tge) (k : Nat) : cntB t k = cntB s k := by
  rw [cntB, h, cntB]

end Sys2Proof.Machine
end

section
/-! How a step begins, sweeps and, once torn down, ends (R213, R214, R217, R287, R317, R405, R560). -/

namespace Sys2Proof.Machine

open Sys2Proof

/-! ### LAUNCH_BEGIN (R213, R317, R560) -/

/-- The state in which a launch has met its checks, with `n` task-waiter entries reserved. -/
def launchChecked (s : State) (i : Nat) (st : Step) (n : Nat) : State :=
  setStep { s with syn := { s.syn with reserved := tput s.syn.reserved i n } } i { st with phase := 4 }

/-- The objects that tasks of an image wait on and that are not on the chip, each once (R317). -/
def missingObjs (s : State) (img : Img) : List Nat :=
  (((waitTasks s img).map fun t => tdWaitObj (descOf s t)).filter fun v => (findObj s img.ctx v).isNone).eraseDups

/-- A launch's requests for the objects `vids`. -/
def matsAsked (s : State) (i c : Nat) (vids : List Nat) : State :=
  vids.foldl (fun s v => pushMat s { src := 2, ctx := c, vid := v, img := i }) s

/-- Asking for objects adds to the requests that wait, and changes nothing else. -/
theorem matsAsked_frame (s : State) (i c : Nat) (vids : List Nat) :
    matsAsked s i c vids = { s with syn := { s.syn with mats := (matsAsked s i c vids).syn.mats } } := by
  refine List.foldlRecOn (motive := fun t : State => t = { s with syn := { s.syn with mats := t.syn.mats } }) _ _ rfl
    fun t ht v _ => ?_
  rw [ht]
  rfl

theorem exec_launchBegin_of_good {s : State} {i : Nat} {st : Step} {img : Img} (hsteps : s.tge.steps = [(i, st)])
    (hphase : st.phase = 0) (himg : imgOf s i = some img) (hmodel : modelHere s img.ctx = true)
    (hparcel : parcelFault s st img = false) (hroom : reservedWaiters s + (waitTasks s img).length ≤ 32768) :
    exec .launchBegin s = .next
      (matsAsked (launchChecked s i st (waitTasks s img).length) i img.ctx (missingObjs s img)) := by
  have hfind : (s.tge.steps.find? fun e => e.2.phase == 0) = some (i, st) := by simp [hsteps, hphase]
  change execLaunchBegin s = _
  simp only [execLaunchBegin, hfind, himg, hmodel, hparcel, Nat.not_lt.mpr hroom, Bool.not_true, Bool.false_eq_true,
    if_false]
  rfl

/-! ### STEP_START (R214, R217, R405) -/

/-- A step that starts now, in a context whose stages are not measured. -/
def startedStep (s : State) (st : Step) (img : Img) : Step :=
  { st with
    phase := 1, row := 0, start := s.gtb.now, startCclk := s.gtb.cclk, measured := false
    gens := (List.range 16).map fun k => (k, (rimgOf s img.ctx k).active) }

theorem resetQueues_of_no_queues {s : State} (h : s.blq.qs = []) (i : Nat) (repro : Bool) (vint : Nat) :
    resetQueues s i repro vint = s := by
  simp [resetQueues, h]

theorem startDigest_of_no_area {s : State} {img : Img} (h : digArea s img.ctx = 0) (i : Nat) (st : Step) :
    startDigest s i st img = setStep s i { st with noDigest := true } := if_pos h

theorem exec_stepStart_of_ready {s : State} {i : Nat} {st : Step} {img : Img} (hsteps : s.tge.steps = [(i, st)])
    (hphase : st.phase = 4) (himg : imgOf s i = some img) (hmats : ∀ q ∈ s.syn.mats, ¬(q.src = 2 ∧ q.img = i))
    (harea : digArea s img.ctx = 0) (hunmeasured : regBit s (rdyCtx img.ctx) 31 = false) (hqueues : s.blq.qs = []) :
    exec .stepStart s = .next (setStep (setStep s i (startedStep s st img)) i
      { startedStep s st img with noDigest := true }) := by
  have hready : ∀ q ∈ s.syn.mats, q.src = 2 → q.img ≠ i := fun q hq hsrc hown => hmats q hq ⟨hsrc, hown⟩
  have hfind : (s.tge.steps.find? fun e =>
      e.2.phase == 4 && (s.syn.mats.all fun q => !(q.src == 2 && q.img == e.1))) = some (i, st) := by
    simpa [hsteps, hphase] using hready
  have hreset := resetQueues_of_no_queues (s := setStep s i (startedStep s st img)) hqueues
  have hdigest := startDigest_of_no_area (s := setStep s i (startedStep s st img)) harea
  change execStepStart s = _
  simp only [execStepStart, hfind, himg, hunmeasured, Bool.false_and, Bool.false_eq_true, if_false]
  exact congrArg Host.Outcome.next ((congrArg (startDigest · i _ img) (hreset _ _ _)).trans (hdigest _ _))

/-! ### SWEEP_ROW (R185, R214) -/

theorem exec_sweepRow_of_none {s : State} (h : nextSweep s = none) : exec .sweepRow s = .next s := by
  change execSweepRow s = _
  simp only [execSweepRow, h]

theorem exec_sweepRow_of_some {s : State} {n : Nat} (h : nextSweep s = some n) : exec .sweepRow s =
    .next (settle ((s.tge.steps.map fun e => e.1).foldl sweepStep (advanceCclk n s))) := by
  change execSweepRow s = _
  simp only [execSweepRow, h]

/-- A step whose row does not fall into this CCLK is not visited. -/
theorem sweepStep_of_not_due {s : State} {i : Nat} {st : Step} {img : Img} (hstep : stepOf s i = some st)
    (himg : imgOf s i = some img) (h : st.phase ≠ 1 ∨ s.gtb.cclk < st.startCclk + st.row) : sweepStep s i = s := by
  simp only [sweepStep, hstep, himg]
  exact if_pos (by simpa using h)

/-- The state in which the sweep has set the counter of a task to `n` and cleared its ledger (R185, R614). -/
def taskReset (s : State) (c t n : Nat) : State := clearLedger (setCounter s t (counterWord false n n)) c t

theorem cntA_taskReset (s : State) (c t n : Nat) : cntA (taskReset s c t n) t = counterWord false n n := by
  have hcount : (clearLedger (setCounter s t (counterWord false n n)) c t).tge =
      (setCounter s t (counterWord false n n)).tge := by
    rw [clearLedger, checkLedger_frame]
  rw [taskReset, cntA_congr hcount, cntA_setCounter_same]

theorem isDone_clearLedger (s : State) (c t : Nat) : isDone (clearLedger s c t) t = false := by
  have hgone : tget? (clearLedger s c t).saf.ledA t = none := (tget?_tdel _ t t).trans (if_pos rfl)
  rw [isDone, tget, hgone]
  rfl

/-- Of a task with incoming edges and no WAIT_OBJ the sweep resets counter and ledger, and passes its page on. -/
theorem pageFrame_sweepTask {s : State} {img : Img} {r : Nat}
    (hwait : tdWaitValid (descOf s (physTask img r)) = false) (hedges : tdInCount (descOf s (physTask img r)) ≠ 0)
    (i : Nat) : PageFrame (taskReset s img.ctx (physTask img r) (tdInCount (descOf s (physTask img r))))
      (sweepTask i img s r) := by
  simp only [sweepTask, hwait, hedges, Bool.false_eq_true, if_false]
  split
  · exact pageFrame_prefetch _ _ _
  · rfl

/-! ### TEARDOWN_END (R287) -/

theorem exec_teardownEnd_of_torn {s : State} {i : Nat} {st : Step} {img : Img} (hsteps : s.tge.steps = [(i, st)])
    (htorn : tornDown s i st = true) (hcause : st.cause ≠ 9) (hwrites : st.gateWrites = [])
    (himg : imgOf s i = some img) : exec .teardownEnd s = .next (endStep (dropDecs s img) i st img) := by
  have hfind : (s.tge.steps.find? fun e => tornDown s e.1 e.2 &&
      (e.2.gateWrites.isEmpty || (e.2.cause == 9 && !e.2.released))) = some (i, st) := by
    simp [hsteps, htorn, hwrites]
  have hstep : stepOf (dropDecs s img) i = some st := stepOf_of_single hsteps
  have himg' : imgOf (dropDecs s img) i = some img := himg
  change execTeardownEnd s = _
  simp [execTeardownEnd, hfind, himg, hcause, hwrites, hstep, himg']

/-- Settles O20: the launch, the start, the sweep and the end of a step, in this order. -/
theorem stepSweep : Obligations.StepSweep := by
  unfold Obligations.StepSweep
  refine ⟨fun s i st img hsteps hphase himg hmodel hparcel hroom => ?_,
    fun s i st img hsteps hphase himg hmats harea hunmeasured hqueues => ?_,
    fun s => exec_sweepRow_of_none,
    fun s n hnext => ⟨exec_sweepRow_of_some hnext, le_cclk_advanceCclk n s, fun i st img => sweepStep_of_not_due⟩,
    fun s i img r hwait hedges => ?_,
    fun s i st img => exec_teardownEnd_of_torn⟩
  · refine ⟨_, exec_launchBegin_of_good hsteps hphase himg hmodel hparcel hroom, ?_⟩
    rw [matsAsked_frame]
    exact ⟨stepOf_setStep_same _ _ _, tget_tput_same _ _ _ _, himg⟩
  · exact ⟨_, _, exec_stepStart_of_ready hsteps hphase himg hmats harea hunmeasured hqueues,
      stepOf_setStep_same _ _ _, rfl, rfl, rfl, rfl, rfl, rfl, rfl⟩
  · have hframe := pageFrame_sweepTask hwait hedges i
    refine ⟨(cntA_congr hframe.tge _).trans (cntA_taskReset s _ _ _), ?_⟩
    rw [isDone, hframe.saf]
    exact isDone_clearLedger _ _ _

end Sys2Proof.Machine
end

section
/-! Decrements of task counters (R189-R193, R215, R484) and gate tasks (R567-R571, R576, R691). -/

namespace Sys2Proof.Machine

open Sys2Proof

/-! ### DECREMENT_APPLY (R193, R215) -/

theorem exec_decrementApply_of_first {s : State} {bank : Fin 16} {e : Dec} {q : List Dec} {i : Nat} {img : Img}
    {st : Step} (hq : s.tge.decQ = e :: q) (hbank : e.task % 16 = bank.val)
    (himg : imgOfTask s e.task = some (i, img)) (hstep : stepOf s i = some st) (hphase : st.phase = 2) :
    exec (.decrementApply bank) s = .next (settle (applyDec
      (if q.any (fun d => d.task % 16 == bank && d.burst.isSome && d.burst == e.burst) then
        addReg { s with tge := { s.tge with decQ := q } } 0x280014 1
       else { s with tge := { s.tge with decQ := q } }) i img.ctx e)) := by
  have hfirst : takeFirst (fun d : Dec => d.task % 16 == bank) s.tge.decQ = some (e, q) := by
    simp [hq, takeFirst, hbank]
  have hvisited : visited st img e.task = true := by simp [visited, hphase]
  change execDecrementApply bank s = _
  simp [execDecrementApply, hfirst, himg, hstep, hphase, hvisited]

/-! ### The counters of a decrement (R189, R190, R484) -/

theorem cntA_decremented (s : State) (t : Nat) : cntA (decremented s t) t =
    counterWord (cwLive (cntA s t)) (cwInit (cntA s t)) (cwCount (cntA s t) - 1) :=
  cntA_setCounter_same s t _

theorem cntB_decremented (s : State) (t : Nat) : cntB (decremented s t) t = cntA (decremented s t) t :=
  (cntB_setCounter_same s t _).trans (cntA_decremented s t).symm

section
variable {s : State} {e : Dec}

theorem applyDec_of_differ (hdiffer : cntA s e.task ≠ cntB s e.task) (i c : Nat) :
    applyDec s i c e = divergeCounter s c e.task := if_pos hdiffer

variable (hagree : cntA s e.task = cntB s e.task)
include hagree

theorem applyDec_of_zero (hzero : cwCount (cntA s e.task) = 0) (i c : Nat) : applyDec s i c e =
    ask (record (setRegBit s 0x280000 3 true) 2 0x04 0x12 (some c) 0 e.task) (.diverge c) := by
  simp only [applyDec, ← hagree, hzero, ne_eq, not_true_eq_false, if_false, if_true]

theorem applyDec_of_many (hmany : 2 < cwCount (cntA s e.task)) (i c : Nat) :
    applyDec s i c e = decremented s e.task := by
  have hzero : cwCount (cntA s e.task) ≠ 0 := by omega
  have hone : cwCount (cntA s e.task) ≠ 1 := by omega
  have htwo : cwCount (cntA s e.task) ≠ 2 := by omega
  simp only [applyDec, ← hagree, hzero, hone, htwo, ne_eq, not_true_eq_false, if_false]
  rfl

/-- A decrement that leaves inputs to come counts, and beside that passes at most a page to PAT. -/
theorem pageFrame_applyDec (hleft : 2 ≤ cwCount (cntA s e.task)) (i c : Nat) :
    PageFrame (decremented s e.task) (applyDec s i c e) := by
  obtain htwo | hmany := hleft.eq_or_lt
  · rw [applyDec_of_two hagree htwo.symm]
    exact pageFrame_prefetch _ _ _
  · rw [applyDec_of_many hagree hmany]
    exact .refl _

/-- A decrement of a counter at 0 asks for a recovery, and the counter stays. -/
theorem applyDec_asks_recovery (hzero : cwCount (cntA s e.task) = 0) (i c : Nat) :
    (applyDec s i c e).asks = s.asks ++ [.diverge c] ∧ cntA (applyDec s i c e) e.task = cntA s e.task := by
  rw [applyDec_of_zero hagree hzero, record_frame]
  exact ⟨rfl, rfl⟩

end

/-! ### GATE_EVALUATE (R567, R568, R570, R571) -/

theorem exec_gateEvaluate_of_safe {s : State} (hsafe : s.saf.safe = true) (stErr lossErr : Bool) :
    exec (.gateEvaluate stErr lossErr) s = .next s := if_pos hsafe

/-- The state in which a gate waits for its evaluation no more. -/
def gateTaken (s : State) (i t : Nat) : State :=
  { s with disp := { s.disp with gates := s.disp.gates.filter fun k => k != (i, t) } }

section
variable {s : State} {i t : Nat} {st : Step} {img : Img} (hsafe : s.saf.safe = false)
  (hgate : nextGate s = some (i, t, st, img)) (hspike : gdSpike (descOf s t) = false)
include hsafe hgate hspike

theorem exec_gateEvaluate_of_no_checks (hnf : gdNf (descOf s t) = false) (hprov : gdProv (descOf s t) = false)
    (stErr lossErr : Bool) :
    exec (.gateEvaluate stErr lossErr) s =
      .next (commitTask (addCount (gateTaken s i t) 0x480008 1) i img.ctx t none) := by
  have hpass (u : State) (d : List Byte) (g : GateRead) (hnone : g.rec? = none) :
      passGate u i t d st img g = commitTask (addCount u 0x480008 1) i img.ctx t none := by
    simp only [passGate, hnone]
    cases st.launch.replay <;> rfl
  change execGateEvaluate stErr lossErr s = _
  simp [execGateEvaluate, hsafe, hgate, hspike, hnf, hprov, gateMissing, gateReason, hpass, gateTaken]

theorem exec_gateEvaluate_of_unread_record (hnf : gdNf (descOf s t) = true) (lossErr : Bool) :
    exec (.gateEvaluate true lossErr) s = .next (settle (ask (returnVintage (setStep (gateTaken s i t) i
      { st with gateReason := 5, gateNf := st.nfLoad + st.nfStore, gateLoss := 0 }) i st.launch)
      (.teardown i 9 t 9))) := by
  change execGateEvaluate true lossErr s = _
  simp [execGateEvaluate, hsafe, hgate, hspike, hnf, gateMissing, gateReason, failGate, gateTaken]

end

theorem imgOf_returnVintage {s : State} {i : Nat} {l : Launch} {img : Img} (himg : imgOf s i = some img)
    (hreplay : l.replay = false) (hnone : img.pending = none) :
    imgOf (returnVintage s i l) i = some { img with last := l.prev } := by
  simp [returnVintage, himg, hreplay, hnone]

/-! ### GATE_RECORD_WRITE (R569, R691) -/

/-- The state in which the write of a gate record has been tried, an uncorrectable table error taken as one. -/
def recordIssued (s : State) (c : Nat) (st : Step) (w : GateWrite) (walkErr : Bool) : State :=
  if walkErr then walkError (notePageFault s c 5 (w.va / 65536) 0 true st.launch.vint) c w.va
  else unitWritePlain s c w.va w.bytes

theorem recordIssued_written (s : State) (c : Nat) (st : Step) (w : GateWrite) :
    recordIssued s c st w false = unitWritePlain s c w.va w.bytes := if_neg Bool.false_ne_true

theorem recordIssued_walkErr (s : State) (c : Nat) (st : Step) (w : GateWrite) : recordIssued s c st w true =
    walkError (notePageFault s c 5 (w.va / 65536) 0 true st.launch.vint) c w.va := if_pos rfl

section
variable {s : State} {i : Nat} {st : Step} {img : Img} {w : GateWrite} {rest : List GateWrite}
  (hsteps : s.tge.steps = [(i, st)]) (hwrites : st.gateWrites = w :: rest) (himg : imgOf s i = some img)
include hsteps hwrites himg

theorem exec_gateRecordWrite_of_free {walkErr : Bool} {t : State} (hnew : w.issued = false) (hpass : w.pass = true)
    (hissue : recordIssued s img.ctx st w walkErr = t) (hfree : writeBlocked t img.ctx w.va = false) :
    exec (.gateRecordWrite walkErr) s = .next (settle (commitTask (addCount
      (setStep t i { st with gateWrites := rest }) 0x480008 1) i img.ctx w.task none)) := by
  have hfind : (s.tge.steps.find? fun e => recordGoes s e) = some (i, st) := by
    simp [hsteps, recordGoes, hwrites, himg, hnew]
  unfold recordIssued at hissue
  change execGateRecordWrite s walkErr = _
  simp only [execGateRecordWrite, hfind, hwrites, himg, hnew, hpass, hissue, hfree, Bool.false_eq_true, if_false,
    if_true]

theorem exec_gateRecordWrite_of_blocked (hissued : w.issued = true) (hblocked : writeBlocked s img.ctx w.va = true)
    (walkErr : Bool) : exec (.gateRecordWrite walkErr) s = .next s := by
  have hfind : (s.tge.steps.find? fun e => recordGoes s e) = none := by
    simp [hsteps, recordGoes, hwrites, himg, hissued, hblocked]
  change execGateRecordWrite s walkErr = _
  simp only [execGateRecordWrite, hfind]

end

/-- Settles O23: decrements by the count that they find, then the evaluation of a gate and the write of its record. -/
theorem decrementsAndGates : Obligations.DecrementsAndGates := by
  unfold Obligations.DecrementsAndGates
  refine ⟨⟨fun s bank e q i img st => exec_decrementApply_of_first, fun s i c e hagree hleft => ?_,
      fun s i c e hagree hzero => applyDec_asks_recovery hagree hzero i c,
      fun s i c e hdiffer => applyDec_of_differ hdiffer i c⟩,
    ⟨fun s i t st img a b hsafe hgate hnf hspike hprov =>
        exec_gateEvaluate_of_no_checks hsafe hgate hspike hnf hprov a b,
      fun s i t st img b hsafe hgate hnf hspike => exec_gateEvaluate_of_unread_record hsafe hgate hspike hnf b,
      fun s i l img => imgOf_returnVintage, fun s => exec_gateEvaluate_of_safe,
      fun s i st img w rest hsteps hwrites himg hnew hpass =>
        exec_gateRecordWrite_of_free hsteps hwrites himg hnew hpass (recordIssued_written s _ st w),
      fun s i st img w rest t hsteps hwrites himg hnew hpass ht =>
        exec_gateRecordWrite_of_free hsteps hwrites himg hnew hpass ((recordIssued_walkErr s _ st w).trans ht.symm),
      fun s i st img w rest b hsteps hwrites himg hissued hblocked =>
        exec_gateRecordWrite_of_blocked hsteps hwrites himg hissued hblocked b⟩⟩
  have htge := (pageFrame_applyDec hagree hleft i c).tge
  rw [cntB_congr htge, cntA_congr htge]
  exact ⟨cntA_decremented s e.task, cntB_decremented s e.task⟩

end Sys2Proof.Machine
end

section
/-! Timer entries and RDY_CTX_CFG: the trace records of the cellar, where a delayed task goes, releases, and the limit
of eight contexts with IMB_EN (R246 to R249, R629). -/

namespace Sys2Proof.Machine

open Sys2Proof

/-! ### Overruns and trace records of the cellar (R34, R651) -/

theorem reg_queueOverrun_ne (s : State) {qctl o : Nat} (n : Nat) (hstat : o ≠ qctl + 4) (hcount : o ≠ qctl + 8) :
    reg (queueOverrun s qctl n) o = reg s o := by
  rw [queueOverrun, reg_setRegFld_ne _ _ _ _ hcount, reg_setRegBit_ne _ _ _ hstat]

theorem regBit_queueOverrun (s : State) (qctl n : Nat) : regBit (queueOverrun s qctl n) (qctl + 4) 30 = true := by
  have hstat : regBit (setRegBit s (qctl + 4) 30 true) (qctl + 4) 30 = true :=
    regBit_setRegBit_same s _ 30 true (by decide)
  rwa [queueOverrun, regBit, reg_setRegFld_ne _ _ _ _ (by omega)]

/-- `t` differs from `s` at most in what trace holds and in the registers that show the overruns of the cellar trace
queue. -/
structure CellarTraceFrame (s t : State) : Prop where
  frame : t = { s with regs := t.regs, trc := t.trc }
  reg_ne : ∀ {o}, o ≠ 0xA80034 → o ≠ 0xA80038 → reg t o = reg s o

theorem CellarTraceFrame.refl (s : State) : CellarTraceFrame s s := ⟨rfl, fun _ _ => rfl⟩

theorem CellarTraceFrame.trans {s t u : State} (hst : CellarTraceFrame s t) (htu : CellarTraceFrame t u) :
    CellarTraceFrame s u := by
  refine ⟨?_, fun hstat hcount => (htu.reg_ne hstat hcount).trans (hst.reg_ne hstat hcount)⟩
  have hframe := htu.frame
  rw [hst.frame] at hframe
  exact hframe

theorem CellarTraceFrame.ite {s t u : State} {c : Prop} [Decidable c] (ht : CellarTraceFrame s t)
    (hu : CellarTraceFrame s u) : CellarTraceFrame s (if c then t else u) := by
  split <;> assumption

theorem cellarTraceFrame_setTrc (s : State) (x : Trc) : CellarTraceFrame s { s with trc := x } :=
  ⟨rfl, fun _ _ => rfl⟩

theorem cellarTraceFrame_traceCel (s : State) (rec : Nat) : CellarTraceFrame s (traceCel s rec) := by
  have hdue : CellarTraceFrame s (dueCel s) := .ite (cellarTraceFrame_setTrc s _) (.refl s)
  have hover (u : State) : CellarTraceFrame u (queueOverrun u 0xA80030 1) := ⟨rfl, reg_queueOverrun_ne u 1⟩
  exact hdue.trans (.ite (cellarTraceFrame_setTrc _ _) ((hover _).trans (cellarTraceFrame_setTrc _ _)))

theorem cellarTraceFrame_traceTimer (s : State) (ctx task prio rank since : Nat) (late : Bool) (reason : Nat) :
    CellarTraceFrame s (traceTimer s ctx task prio rank since late reason) :=
  .ite (cellarTraceFrame_traceCel s _) (.refl s)

/-! ### TMR_INSERT (R246, R248) -/

/-- A delayed task has left RDY for TMR, which has written the record of it (R251). -/
def timerTaken (s : State) (r : Ready) : State :=
  traceTimer { s with disp := { s.disp with ready := s.disp.ready.filter fun q => !sameEntry q r } }
    r.ctx r.task r.prio r.rank r.since false 5

theorem timerTaken_frame (s : State) (r : Ready) : timerTaken s r = { s with
    disp := { s.disp with ready := s.disp.ready.filter fun q => !sameEntry q r }
    regs := (timerTaken s r).regs
    trc := (timerTaken s r).trc } := (cellarTraceFrame_traceTimer ..).frame

theorem reg_timerTaken_peak (s : State) (r : Ready) : reg (timerTaken s r) 0x380004 = reg s 0x380004 :=
  (cellarTraceFrame_traceTimer ..).reg_ne (by decide) (by decide)

/-- The timer entry of a delayed task. -/
def timerOf (r : Ready) (d : Nat) : Timer := { ctx := r.ctx, img := r.img, task := r.task, due := d, pred := r.pred }

/-- A timer entry has been taken, and TMR_PEAK shows the most that have been in use at once (R254). -/
def timerAdded (s : State) (e : Timer) : State :=
  setReg { s with disp := { s.disp with timers := s.disp.timers ++ [e] } } 0x380004
    (max (reg s 0x380004) (s.disp.timers ++ [e]).length)

/-- A delayed task is released at once where its instant has passed, and takes a timer entry where it has not, or in
the safe state. -/
theorem takeTimer_of_due (s : State) {r : Ready} {d : Nat} (hdue : r.due = some d) : takeTimer s r =
    if d ≤ s.gtb.now ∧ s.saf.safe = false then releaseDelayed (timerTaken s r) r.img r.ctx r.task r.pred r.since true
    else timerAdded (timerTaken s r) (timerOf r d) := by
  have hgo : (decide (d ≤ (timerTaken s r).gtb.now) && !(timerTaken s r).saf.safe) =
      decide (d ≤ s.gtb.now ∧ s.saf.safe = false) := by
    rw [timerTaken_frame]
    simp
  rw [timerTaken] at hgo
  simp only [takeTimer, hdue, Option.getD_some, hgo, decide_eq_true_eq]
  rfl

theorem reg_tmrPeak_lt (s : State) : reg s 0x380004 < 2 ^ 32 := by
  have hreset : resetOf 0x380004 < 2 ^ 32 := by decide
  unfold reg
  split
  · exact BitVec.isLt _
  · exact hreset

theorem takeTimer_adds {s : State} {r : Ready} {d : Nat} (hdue : r.due = some d) (hroom : s.disp.timers.length < 8192)
    (hwait : s.gtb.now < d ∨ s.saf.safe = true) :
    (takeTimer s r).disp.timers = s.disp.timers ++ [timerOf r d] ∧
      (takeTimer s r).disp.ready = s.disp.ready.filter (fun q => !sameEntry q r) ∧
      (takeTimer s r).disp.runs = s.disp.runs ∧ (takeTimer s r).tge = s.tge ∧
      reg (takeTimer s r) 0x380004 = max (reg s 0x380004) (s.disp.timers.length + 1) := by
  have hstay : ¬(d ≤ s.gtb.now ∧ s.saf.safe = false) := fun ⟨hpast, hsafe⟩ =>
    hwait.elim (Nat.not_lt.mpr hpast) (by simp [hsafe])
  rw [takeTimer_of_due s hdue, if_neg hstay]
  have htimers : (timerTaken s r).disp.timers = s.disp.timers := by rw [timerTaken_frame]
  have hmax : max (reg s 0x380004) (s.disp.timers.length + 1) < 2 ^ 32 :=
    Nat.max_lt.mpr ⟨reg_tmrPeak_lt s, by omega⟩
  refine ⟨congrArg (· ++ _) htimers, ?_, ?_, ?_, ?_⟩
  case refine_4 =>
    rw [timerAdded, reg_setReg_same, reg_timerTaken_peak, htimers, List.length_append, List.length_singleton,
      Nat.mod_eq_of_lt hmax]
  all_goals
    rw [timerAdded, timerTaken_frame]
    rfl

/-- The delayed entries of RDY, queued for TMR or parked (R246, R248). -/
def delayedEntries (s : State) : List Ready := s.disp.ready.filter fun r => r.due.isSome

theorem insQueue_eq (s : State) : insQueue s = (delayedEntries s).filter fun r => !r.parked := by
  simp [insQueue, delayedEntries, List.filter_filter, Bool.and_comm]

theorem parkedTasks_eq (s : State) : parkedTasks s =
    sortBy (fun a b : Ready => dueBefore (a.due.getD 0, a.task) (b.due.getD 0, b.task))
      ((delayedEntries s).filter fun r => r.parked) := by
  simp [parkedTasks, delayedEntries, List.filter_filter, Bool.and_comm]

section
variable {s : State} {r : Ready} (honly : delayedEntries s = [r])
include honly

/-- The only delayed task is the first for a timer entry, parked or in the insertion queue. -/
theorem parkedTasks_append_insQueue_of_only : parkedTasks s ++ insQueue s = [r] := by
  rw [parkedTasks_eq, insQueue_eq, honly]
  cases hparked : r.parked <;> simp [hparked, sortBy, insertBy]

theorem exec_tmrInsert_of_room (hroom : s.disp.timers.length < 8192) :
    exec .tmrInsert s = .next (takeTimer s r) := by
  change execTmrInsert s = _
  simp only [execTmrInsert, hroom, if_true, parkedTasks_append_insQueue_of_only honly]

variable (hfull : 8192 ≤ s.disp.timers.length)
include hfull

theorem exec_tmrInsert_of_full (hqueued : r.parked = false) :
    exec .tmrInsert s = .next (setRegBit { s with disp := { s.disp with
      ready := modWhere (fun q => sameEntry q r) (fun q => { q with parked := true }) s.disp.ready } }
      0x380000 31 true) := by
  have hins : insQueue s = [r] := by simp [insQueue_eq, honly, hqueued]
  change execTmrInsert s = _
  simp only [execTmrInsert, Nat.not_lt.mpr hfull, if_false, hins]

theorem exec_tmrInsert_of_parked (hparked : r.parked = true) : exec .tmrInsert s = .next s := by
  have hins : insQueue s = [] := by simp [insQueue_eq, honly, hparked]
  change execTmrInsert s = _
  simp only [execTmrInsert, Nat.not_lt.mpr hfull, if_false, hins]

end

/-! ### TMR_RELEASE (R247, R629) -/

theorem TimeFrame.disp {s t : State} (h : TimeFrame s t) : t.disp = s.disp := by
  rw [TimeFrame] at h
  rw [h]

theorem exec_tmrRelease_of_single {s : State} {e : Timer} (htimers : s.disp.timers = [e]) (hsafe : s.saf.safe = false)
    (hdue : e.due ≤ (advanceTo e.due s).gtb.now) :
    exec .tmrRelease s = .next (releaseDelayed
      { advanceTo e.due s with disp := { (advanceTo e.due s).disp with timers := [] } }
      e.img e.ctx e.task e.pred (advanceTo e.due s).gtb.now (inJump (advanceTo e.due s) e.due)) := by
  have hlater : (advanceTo e.due s).disp.timers = [e] := by rw [(timeFrame_advanceTo e.due s).disp, htimers]
  change execTmrRelease s = _
  simp [execTmrRelease, htimers, hlater, hsafe, hdue, sortBy, insertBy, inJump]

theorem exec_tmrRelease_of_safe {s : State} (hsafe : s.saf.safe = true) : exec .tmrRelease s = .next s := by
  change execTmrRelease s = _
  unfold execTmrRelease
  split
  · rfl
  · exact if_pos hsafe

/-! ### IMB_EN_WRITE (R249) -/

/-- The bits of a word that RDY_CTX_CFG keeps: IMB_EN and bits 15 to 0. -/
def ctxCfgBits (w : Word) : Nat := w.toNat &&& 0x8000FFFF

theorem bitAt_ctxCfgBits (w : Word) : bitAt (ctxCfgBits w) 31 = bitAt w.toNat 31 := by
  have hmask : Nat.testBit 0x8000FFFF 31 = true := by decide
  simp [ctxCfgBits, bitAt_eq, hmask]

theorem fld_ctxCfgBits (w : Word) : fld (ctxCfgBits w) 15 0 = w.toNat % 65536 := by
  have hmask : 0x8000FFFF % 2 ^ 16 = 2 ^ 16 - 1 := by decide
  calc fld (ctxCfgBits w) 15 0 = (w.toNat &&& 0x8000FFFF) % 2 ^ 16 := by simp [fld, ctxCfgBits]
    _ = w.toNat % 2 ^ 16 &&& (2 ^ 16 - 1) := by rw [Nat.and_mod_two_pow, hmask]
    _ = w.toNat % 2 ^ 16 := by rw [Nat.and_two_pow_sub_one_eq_mod, Nat.mod_mod]

/-- The contexts other than `c` that have IMB_EN. -/
def otherImbs (s : State) (c : Nat) : List Nat :=
  (List.range 64).filter fun k => k != c && regBit s (rdyCtx k) 31

/-- A write of RDY_CTX_CFG that would have set IMB_EN, stored without it, and the refusal shown. -/
def imbRefused (s : State) (c : Nat) (w : Word) : State :=
  setRegBit (setReg s (rdyCtx c) (setFld (ctxCfgBits w) 31 31 0)) (rdyCtx c + 4) 29 true

theorem exec_imbEnWrite (c : Fin 64) (w : Word) (s : State) : exec (.imbEnWrite c w) s =
    if bitAt (ctxCfgBits w) 31 && !regBit s (rdyCtx c) 31 && decide (8 ≤ (otherImbs s c).length) then
      .next (imbRefused s c w)
    else .next (setReg s (rdyCtx c) (ctxCfgBits w)) := rfl

theorem exec_imbEnWrite_of_off (s : State) (c : Fin 64) {w : Word} (hoff : bitAt w.toNat 31 = false) :
    exec (.imbEnWrite c w) s = .next (setReg s (rdyCtx c) (ctxCfgBits w)) := by
  rw [exec_imbEnWrite, bitAt_ctxCfgBits, hoff]
  rfl

theorem exec_imbEnWrite_of_ninth {s : State} {c : Fin 64} {w : Word} (hon : bitAt w.toNat 31 = true)
    (hnew : regBit s (rdyCtx c) 31 = false) (hmany : 8 ≤ (otherImbs s c).length) :
    exec (.imbEnWrite c w) s = .next (imbRefused s c w) := by
  rw [exec_imbEnWrite, bitAt_ctxCfgBits, hon, hnew, decide_eq_true hmany]
  rfl

theorem reg_imbRefused (s : State) (c : Nat) (w : Word) :
    reg (imbRefused s c w) (rdyCtx c) = setFld (ctxCfgBits w) 31 31 0 % 2 ^ 32 := by
  rw [imbRefused, reg_setRegBit_ne _ _ _ (by omega), reg_setReg_same]

theorem imbRefused_shows (s : State) (c : Nat) (w : Word) :
    regBit (imbRefused s c w) (rdyCtx c) 31 = false ∧
      regFld (imbRefused s c w) (rdyCtx c) 15 0 = w.toNat % 65536 ∧
      regBit (imbRefused s c w) (rdyCtx c + 4) 29 = true ∧
      imbRefused s c w = { s with regs := (imbRefused s c w).regs } := by
  refine ⟨?_, ?_, regBit_setRegBit_same _ _ 29 true (by decide), rfl⟩
  · rw [regBit_eq, regFld, reg_imbRefused, fld_setFld_same _ _ _ _ (by decide) (by decide)]
    rfl
  · rw [regFld, reg_imbRefused, fld_setFld_ne _ _ _ _ _ _ (by decide) (by decide) (by decide), fld_ctxCfgBits]

/-- Settles O22: where a delayed task goes, then releases, then the writes of RDY_CTX_CFG. -/
theorem delayedTasks : Obligations.DelayedTasks := by
  unfold Obligations.DelayedTasks
  refine ⟨fun s r d honly hdue hroom hwait =>
      ⟨takeTimer s r, exec_tmrInsert_of_room honly hroom, takeTimer_adds hdue hroom hwait⟩,
    fun s r d honly hdue hroom hpast hsafe => ?_,
    fun s r honly hfull => ⟨exec_tmrInsert_of_full honly hfull, exec_tmrInsert_of_parked honly hfull⟩,
    fun s e => exec_tmrRelease_of_single, fun s => exec_tmrRelease_of_safe,
    fun s c w => exec_imbEnWrite_of_off s c,
    fun s c w hon hnew hmany => ⟨imbRefused s c w, exec_imbEnWrite_of_ninth hon hnew hmany, imbRefused_shows s c w⟩⟩
  rw [exec_tmrInsert_of_room honly hroom, takeTimer_of_due s hdue, if_pos ⟨hpast, hsafe⟩]
  rfl

end Sys2Proof.Machine
end

section
/-! RDY's choice of a context, the DISPATCH queue, placing and withdrawal (R227, R231, R236, R238, R240, R253). -/

namespace Sys2Proof.Machine

open Sys2Proof

/-! ### The context that RDY serves (R227) -/

/-- Context `c` has used no more of a kind for its weight than `b` has. -/
def NoMoreUse (s : State) (kind c b : Nat) : Prop := useOf s c kind * ctxWeight s b ≤ useOf s b kind * ctxWeight s c

theorem NoMoreUse.trans {s : State} {kind c m b : Nat} (hcm : NoMoreUse s kind c m) (hmb : NoMoreUse s kind m b)
    (hpos : 0 < ctxWeight s m) : NoMoreUse s kind c b := by
  refine Nat.le_of_mul_le_mul_right ?_ hpos
  calc useOf s c kind * ctxWeight s b * ctxWeight s m
      = useOf s c kind * ctxWeight s m * ctxWeight s b := Nat.mul_right_comm ..
    _ ≤ useOf s m kind * ctxWeight s c * ctxWeight s b := Nat.mul_le_mul_right _ hcm
    _ = useOf s m kind * ctxWeight s b * ctxWeight s c := Nat.mul_right_comm ..
    _ ≤ useOf s b kind * ctxWeight s m * ctxWeight s c := Nat.mul_le_mul_right _ hmb
    _ = useOf s b kind * ctxWeight s c * ctxWeight s m := Nat.mul_right_comm ..

/-- Of two contexts the one that has used less for its weight, else the first. -/
def lessUsed (s : State) (kind b c : Nat) : Nat :=
  if useOf s c kind * ctxWeight s b < useOf s b kind * ctxWeight s c then c else b

theorem lessUsed_spec (s : State) (kind b c : Nat) : lessUsed s kind b c ∈ [b, c] ∧
    NoMoreUse s kind (lessUsed s kind b c) b ∧ NoMoreUse s kind (lessUsed s kind b c) c := by
  unfold lessUsed
  split
  case isTrue hless => exact ⟨by simp, Nat.le_of_lt hless, Nat.le_refl _⟩
  case isFalse hmore => exact ⟨by simp, Nat.le_refl _, Nat.not_lt.mp hmore⟩

/-- The context that is left after all comparisons has used no more for its weight than any of them. -/
theorem foldl_lessUsed (s : State) (kind : Nat) (l : List Nat) (b : Nat) (hpos : ∀ a ∈ b :: l, 0 < ctxWeight s a) :
    l.foldl (lessUsed s kind) b ∈ b :: l ∧ ∀ a ∈ b :: l, NoMoreUse s kind (l.foldl (lessUsed s kind) b) a := by
  induction l generalizing b with
  | nil => simp [NoMoreUse]
  | cons c l ih =>
    obtain ⟨hone, hb, hc⟩ := lessUsed_spec s kind b c
    have hkept : lessUsed s kind b c :: l ⊆ b :: c :: l :=
      List.cons_subset.mpr ⟨List.mem_append_left l hone, List.subset_append_right [b, c] l⟩
    have hposKept : ∀ a ∈ lessUsed s kind b c :: l, 0 < ctxWeight s a := fun a ha => hpos a (hkept ha)
    obtain ⟨hmem, hleast⟩ := ih _ hposKept
    have hposOne := hposKept _ List.mem_cons_self
    rw [List.foldl_cons]
    refine ⟨hkept hmem, ?_⟩
    simp only [List.forall_mem_cons] at hleast ⊢
    obtain ⟨hleastOne, hleastRest⟩ := hleast
    exact ⟨hleastOne.trans hb hposOne, hleastOne.trans hc hposOne, hleastRest⟩

/-- The contexts of a parcel with a placeable task of a kind. -/
def candidates (s : State) (p kind : Nat) : List Nat :=
  (List.range 64).filter fun c => parcelOf s c == p && hasPlaceable s c kind

theorem mem_candidates {s : State} {p kind c : Nat} :
    c ∈ candidates s p kind ↔ c < 64 ∧ parcelOf s c = p ∧ hasPlaceable s c kind = true := by
  simp [candidates]

/-- One comparison of the search for the context to serve. -/
def bestSoFar (s : State) (kind : Nat) (best : Option Nat) (c : Nat) : Option Nat := match best with
  | none => some c
  | some b => if useOf s c kind * ctxWeight s b < useOf s b kind * ctxWeight s c then some c else some b

theorem bestCtx_eq_foldl (s : State) (p kind : Nat) :
    bestCtx s p kind = (candidates s p kind).foldl (bestSoFar s kind) none := rfl

theorem foldl_bestSoFar (s : State) (kind : Nat) (l : List Nat) (b : Nat) :
    l.foldl (bestSoFar s kind) (some b) = some (l.foldl (lessUsed s kind) b) :=
  List.foldl_hom some fun _ _ => (apply_ite some _ _ _).symm

theorem bestCtx_least {s : State} {p kind c : Nat} (hpos : ∀ b, b < 64 → 0 < ctxWeight s b)
    (hbest : bestCtx s p kind = some c) :
    c ∈ candidates s p kind ∧ ∀ b ∈ candidates s p kind, NoMoreUse s kind c b := by
  have hposCand : ∀ b ∈ candidates s p kind, 0 < ctxWeight s b := fun b hb => hpos b (mem_candidates.mp hb).1
  rw [bestCtx_eq_foldl] at hbest
  cases hcand : candidates s p kind with
  | nil => simp [hcand] at hbest
  | cons b l =>
    rw [hcand] at hbest hposCand
    have hc : l.foldl (lessUsed s kind) b = c := Option.some.inj ((foldl_bestSoFar s kind l b).symm.trans hbest)
    rw [← hc]
    exact foldl_lessUsed s kind l b hposCand

/-! ### Dispatch (R34, R253) -/

theorem modTally_frame (s : State) (late : Bool) (f : Tally → Tally) :
    modTally s late f = { s with psm := (modTally s late f).psm } := by
  cases late <;> rfl

theorem holdSched_frame (s : State) (c run : Nat) : holdSched s c run = { s with trc := (holdSched s c run).trc } := by
  unfold holdSched
  split <;> rfl

/-- An entry has left its list and has become a command, which is charged, traced and counted, and has yet to enter its
field's DISPATCH queue. -/
def dispatchTaken (s : State) (r : Ready) (ch : Choice) : State :=
  let x := newRun s r ch
  let t := { s with disp := { s.disp with
      ready := s.disp.ready.filter fun q => !sameEntry q r
      runs := tput s.disp.runs s.disp.nextRun x
      nextRun := s.disp.nextRun + 1 } }
  let t := if ch.staged then t else chargeWait t (parcelOf s r.ctx) x.wait
  let t := holdSched (addCount t 0x300008 1) r.ctx s.disp.nextRun
  setReg t 0x480004 (max (reg t 0x480004) t.disp.runs.length)

theorem dispatchTaken_disp (s : State) (r : Ready) (ch : Choice) : (dispatchTaken s r ch).disp = { s.disp with
    ready := s.disp.ready.filter fun q => !sameEntry q r
    runs := tput s.disp.runs s.disp.nextRun (newRun s r ch)
    nextRun := s.disp.nextRun + 1 } := by
  unfold dispatchTaken
  extract_lets x _ taken charged held
  have hcharged : charged.disp = taken.disp := by
    unfold charged
    split
    · rfl
    · rw [chargeWait, modTally_frame]
  have hheld : held.disp = charged.disp := by
    unfold held
    rw [holdSched_frame]
    rfl
  exact hheld.trans hcharged

theorem fieldOf_dispatchTaken (s : State) (r : Ready) (ch : Choice) (f : Nat) :
    fieldOf (dispatchTaken s r ch) f = fieldOf s f := by
  rw [fieldOf, dispatchTaken_disp]
  rfl

section
variable {s : State} {ch : Choice}

theorem sendDispatch_of_room (hroom : (fieldOf s ch.field).dispQ.length < 16) (r : Ready) : sendDispatch s r ch =
    (setField (dispatchTaken s r ch) ch.field
      { fieldOf s ch.field with dispQ := (fieldOf s ch.field).dispQ ++ [.start s.disp.nextRun] }, true) := by
  rw [← fieldOf_dispatchTaken s r ch] at hroom ⊢
  exact if_pos hroom

theorem sendDispatch_of_full (hfull : 16 ≤ (fieldOf s ch.field).dispQ.length) (r : Ready) : sendDispatch s r ch =
    (queueOverrun (dispatchTaken s r ch) (0x300100 + ch.field * 0x10) 1, false) := by
  rw [← fieldOf_dispatchTaken s r ch] at hfull
  exact if_neg (Nat.not_lt.mpr hfull)

/-- A command enters the DISPATCH queue of its field behind the records that stand there. -/
theorem sendDispatch_queues (hroom : (fieldOf s ch.field).dispQ.length < 16) (r : Ready) :
    (sendDispatch s r ch).2 = true ∧
    runOf (sendDispatch s r ch).1 s.disp.nextRun = some (newRun s r ch) ∧
    (fieldOf (sendDispatch s r ch).1 ch.field).dispQ = (fieldOf s ch.field).dispQ ++ [.start s.disp.nextRun] ∧
    (sendDispatch s r ch).1.disp.ready = s.disp.ready.filter fun q => !sameEntry q r := by
  rw [sendDispatch_of_room hroom]
  refine ⟨rfl, ?_, ?_, ?_⟩
  · rw [runOf_setField, runOf, dispatchTaken_disp]
    exact tget?_tput_same _ _ _
  · rw [fieldOf_setField_same]
  · rw [setField, dispatchTaken_disp]

/-- A full DISPATCH queue loses the record, and shows the overrun. -/
theorem sendDispatch_overruns (hfull : 16 ≤ (fieldOf s ch.field).dispQ.length) (r : Ready) :
    (sendDispatch s r ch).2 = false ∧
    (fieldOf (sendDispatch s r ch).1 ch.field).dispQ = (fieldOf s ch.field).dispQ ∧
    regBit (sendDispatch s r ch).1 (0x300100 + ch.field * 0x10 + 4) 30 = true := by
  rw [sendDispatch_of_full hfull]
  exact ⟨rfl, congrArg Field.dispQ (fieldOf_dispatchTaken s r ch ch.field), regBit_queueOverrun _ _ _⟩

end

theorem exec_dispatchSelect_of_no_loss {s : State} (hnone : (selectAll s).2 = []) :
    exec .dispatchSelect s = .next (settle (selectAll s).1) := by
  change execDispatchSelect s = _
  simp only [execDispatchSelect, hnone, List.dedup_nil, List.foldl_nil]

/-! ### DISPATCH_RECORD and WITHDRAW (R20, R231, R238, R251) -/

section
variable {s : State} {f : Fin 8}

theorem exec_dispatchRecord_of_stopped (hstop : fieldStopped s f = true) : exec (.dispatchRecord f) s = .next s :=
  if_pos hstop

theorem exec_withdraw_of_stopped (hstop : fieldStopped s f = true) : exec (.withdraw f) s = .next s :=
  if_pos hstop

variable {rest : List DispItem} (hopen : fieldStopped s f = false)
include hopen

theorem exec_dispatchRecord_of_place {id n e : Nat} {x : Run} (hq : (fieldOf s f).dispQ = .start id :: rest)
    (hrun : runOf s id = some x) (hstaged : x.staged = false) (hmapped : x.mapped = none)
    (hplace : placeOf s x = some (n, e)) :
    exec (.dispatchRecord f) s =
      .next (settle (placeRun (setField s f { fieldOf s f with dispQ := rest }) id x n e)) := by
  change execDispatchRecord f s = _
  simp [execDispatchRecord, hopen, hq, hrun, hstaged, hmapped, hplace]

variable {w : Withdrawal} (hq : (fieldOf s f).dispQ = .withdraw w :: rest)
include hq

theorem exec_withdraw_of_no_run (hnone : runOf s w.run = none) : exec (.withdraw f) s =
    .next (traceVoid (setRegBit (setField s f { fieldOf s f with dispQ := rest }) 0x400004 0 true) w.task) := by
  change execWithdraw f s = _
  simp only [execWithdraw, hopen, hq, runOf_setField, hnone, Bool.false_eq_true, if_false]

variable {x : Run} (hrun : runOf s w.run = some x)
include hrun

theorem exec_withdraw_of_staged {t : State} (hstaged : x.state = 1) (hlive : x.killed = none)
    (hto : withdrawTo (setField s f { fieldOf s f with dispQ := rest }) w.run x w = (t, none)) :
    exec (.withdraw f) s = .next t := by
  change execWithdraw f s = _
  simp [execWithdraw, hopen, hq, hrun, hstaged, hlive, hto]

theorem exec_withdraw_of_late (hlate : x.state ≠ 1 ∨ x.killed.isSome = true) : exec (.withdraw f) s =
    .next (traceVoid (setRegBit (setField s f { fieldOf s f with dispQ := rest }) 0x400004 0 true) x) := by
  have hvoid : ¬(x.state = 1 ∧ x.killed = none) := fun ⟨hstaged, hlive⟩ =>
    hlate.elim (· hstaged) (by simp [hlive])
  change execWithdraw f s = _
  simp [execWithdraw, hopen, hq, hrun, hvoid]

end

/-- Settles O24: the context that RDY serves, then dispatch, then the records that a field takes or leaves. -/
theorem dispatchOrder : Obligations.DispatchOrder := by
  unfold Obligations.DispatchOrder
  refine ⟨fun s p kind c hpos hbest => ?_,
    fun s r ch hroom => sendDispatch_queues hroom r, fun s r ch hfull => sendDispatch_overruns hfull r,
    fun s => exec_dispatchSelect_of_no_loss,
    fun s f id n e x rest hq hrun hstaged hmapped hplace hopen =>
      exec_dispatchRecord_of_place hopen hq hrun hstaged hmapped hplace,
    fun s f w rest hq hopen => exec_withdraw_of_no_run hopen hq,
    fun s t f w x rest hq hopen hrun => exec_withdraw_of_staged hopen hq hrun,
    fun s f w x rest hq hopen hrun => exec_withdraw_of_late hopen hq hrun,
    fun s f hstop => ⟨exec_dispatchRecord_of_stopped hstop, exec_withdraw_of_stopped hstop⟩⟩
  obtain ⟨hmem, hleast⟩ := bestCtx_least hpos hbest
  obtain ⟨-, hparcel, hplaceable⟩ := mem_candidates.mp hmem
  exact ⟨hparcel, hplaceable, fun b hb hsame hhas => hleast b (mem_candidates.mpr ⟨hb, hsame, hhas⟩)⟩

end Sys2Proof.Machine
end

section
/-! CMT's commit point and the order in which commits are carried out (R266, R268, R270). -/

namespace Sys2Proof.Machine

open Sys2Proof

/-! ### The commit point (R266) -/

theorem Run.ready_iff {x : Run} :
    x.ready = true ↔ x.stated = some x.registered ∧ x.killed = none ∧ x.committed = false := by
  simp [Run.ready, and_assoc]

theorem passPoint_singleton {s : State} {r : Nat} {x : Run} (hrun : runOf s r = some x) :
    (passPoint s [r]).disp.readyQ = s.disp.readyQ ++ [.runs [r]] ∧
    runOf (passPoint s [r]) r = some { x with committed := true } := by
  simp only [passPoint, List.foldl, modRun_eq_setRun hrun]
  exact ⟨rfl, runOf_setRun_same s r _⟩

theorem commitPoint_of_ready {s : State} {r : Nat} {x : Run} (hrun : runOf s r = some x)
    (hready : x.ready = true) (hsafe : s.saf.safe = false) (halone : groupOf s x = 0) :
    commitPoint s r = passPoint s [r] := by
  simp [commitPoint, hrun, hready, hsafe, halone]

theorem commitPoint_of_not_ready {s : State} {r : Nat} {x : Run} (hrun : runOf s r = some x)
    (hready : x.ready = false) : commitPoint s r = s := by
  simp [commitPoint, hrun, hready]

/-! ### The commit that goes next (R268) -/

/-- `q` stands in the queue `l`, need not wait, and no commit of its context stands before it. -/
def OldestOfCtx (s : State) (l : List CommitItem) (q : CommitItem) : Prop :=
  ∃ before after, l = before ++ q :: after ∧ commitHeld s q = false ∧ ∀ p ∈ before, commitCtx s p ≠ commitCtx s q

theorem oldestOfCtx_head {s : State} {q : CommitItem} (rest : List CommitItem) (hgo : commitHeld s q = false) :
    OldestOfCtx s (q :: rest) q :=
  ⟨[], rest, rfl, hgo, by simp⟩

theorem OldestOfCtx.cons {s : State} {p q : CommitItem} {rest : List CommitItem}
    (hold : OldestOfCtx s rest q) (hother : commitCtx s p ≠ commitCtx s q) : OldestOfCtx s (p :: rest) q := by
  obtain ⟨before, after, rfl, hgo, hbefore⟩ := hold
  exact ⟨p :: before, after, rfl, hgo, List.forall_mem_cons.mpr ⟨hother, hbefore⟩⟩

/-- The scan has reached a suffix `l` of the queue, and an older commit that waits holds back each context of `held`:
none of them is the context of the commit found, which is why every commit passed over is of another context. -/
theorem nextCommit_oldestOfCtx {s : State} {q : CommitItem} {l : List CommitItem} {held : List (Option Nat)}
    (hnext : nextCommit s held l = some q) : commitCtx s q ∉ held ∧ OldestOfCtx s l q := by
  induction l generalizing held with
  | nil => simp [nextCommit] at hnext
  | cons p rest ih =>
    simp only [nextCommit, List.contains_iff_mem] at hnext
    split at hnext
    next hp =>
      obtain ⟨hfree, hold⟩ := ih hnext
      exact ⟨hfree, hold.cons fun hsame => hfree (hsame ▸ hp)⟩
    next hp =>
      split at hnext
      next =>
        obtain ⟨hfree, hold⟩ := ih hnext
        obtain ⟨hother, hfree⟩ := List.ne_and_not_mem_of_not_mem_cons hfree
        exact ⟨hfree, hold.cons hother.symm⟩
      next hgo =>
        cases hnext
        exact ⟨hp, oldestOfCtx_head rest (Bool.eq_false_iff.mpr hgo)⟩

/-! ### COMMIT (R268, R270) -/

theorem exec_commit_of_next {s : State} {q : CommitItem} (lost : Fin 8)
    (hnext : nextCommit s [] s.disp.readyQ = some q) :
    exec (.commit lost) s = .next (commitOne (commitLoss s lost q) q) := by
  change execCommit s lost = _
  simp only [execCommit, hnext]

theorem commitLoss_zero (s : State) (ids : List Nat) : commitLoss s 0 (.runs ids) = s := by
  simp [commitLoss, b2n, streamLoss_zero]

/-- Settles O27: the commit point of a command of no group, then the commit that is carried out next. -/
theorem commitsInOrder : Obligations.CommitsInOrder := by
  unfold Obligations.CommitsInOrder
  refine ⟨fun s r x hrun hstated hlive hnew hsafe halone => ?_, fun s r x hrun hstated => ?_,
    fun s q hnext => (nextCommit_oldestOfCtx hnext).2, fun s lost ids t hnext ht => ?_, commitLoss_zero,
    fun s lost i u => exec_commit_of_next lost⟩
  · rw [commitPoint_of_ready hrun (Run.ready_iff.mpr ⟨hstated, hlive, hnew⟩) hsafe halone]
    exact passPoint_singleton hrun
  · have hnot : ¬x.ready = true := fun hready => hstated (Run.ready_iff.mp hready).1
    exact commitPoint_of_not_ready hrun (Bool.eq_false_iff.mpr hnot)
  · subst ht
    exact exec_commit_of_next lost hnext

end Sys2Proof.Machine
end

section
/-! Objects of SYN whose copies agree: what is read after a write, what the comparison of the copies finds, and the
grants of a counter (R301, R302, R308, R620). -/

namespace Sys2Proof.Machine

open Sys2Proof

/-! ### Objects, registers and completions -/

@[simp] theorem objOf_setObj_same (s : State) (k : Nat) (o : SynObj) : objOf (setObj s k o) k = some o :=
  tget?_tput_same s.syn.objA k o

/-- The objects depend on SYN alone. -/
theorem objOf_congr {s t : State} (h : t.syn.objA = s.syn.objA) (k : Nat) : objOf t k = objOf s k := by
  rw [objOf, h, objOf]

theorem reg_congr {s t : State} (h : t.regs = s.regs) (o : Nat) : reg t o = reg s o := by
  rw [reg, h, reg]

theorem TimeFrame.syn {s t : State} (h : TimeFrame s t) : t.syn = s.syn := by
  rw [TimeFrame] at h
  rw [h]

/-- The ways in which a completion is decided: in the safe state perhaps not at all (R629). -/
theorem complete_ways (s : State) (m : Cmd) (status detail result reruns : Nat) :
    complete s m status detail result reruns = s ∨
    complete s m status detail result reruns = forgotten (showLoad s m status) m ∨
    ∃ e, complete s m status detail result reruns = sendEntry (markedDone (showLoad s m status) m) e := by
  by_cases hdead : (s.saf.safe && !(s.hif.outs.any fun o => o.of m.ctx m.ring m.seq m.uid && !o.done)) = true
  · exact .inl (if_pos hdead)
  · by_cases hquiet : (bitAt m.flags 1 && decide (status = 0)) = true
    · exact .inr (.inl ((if_neg hdead).trans (if_pos hquiet)))
    · exact .inr (.inr ⟨_, (if_neg hdead).trans (if_neg hquiet)⟩)

/-- Deciding a completion touches HIF and registers alone, in the safe state too (R148, R629). -/
theorem complete_keeps (s : State) (m : Cmd) (status detail result reruns : Nat) :
    complete s m status detail result reruns =
      { s with hif := (complete s m status detail result reruns).hif
               regs := (complete s m status detail result reruns).regs } := by
  have hshow := regsFrame_showLoad s m status
  obtain h | h | ⟨e, h⟩ := complete_ways s m status detail result reruns
  · rw [h]
  · rw [h, forgotten, hshow]
  · rw [h, sendEntry_frame, entryAdded, markedDone, hshow]

theorem complete_syn (s : State) (m : Cmd) (status detail result reruns : Nat) :
    (complete s m status detail result reruns).syn = s.syn := by
  rw [complete_keeps]

theorem calm_complete {s : State} (h : calm s) (m : Cmd) (status detail result reruns : Nat) :
    calm (complete s m status detail result reruns) := by
  rw [complete_keeps]
  exact h

/-! ### Live objects (R302, R620) -/

/-- Object `k` is not frozen, and both its copies read `o`. -/
structure LiveAt (s : State) (k : Nat) (o : SynObj) : Prop where
  thawed : frozenAt s k = none
  copyA : objOf s k = some o
  copyB : tget? s.syn.objB k = some o

/-- The grants of a live counter: as many at most as it has waiters (R308). -/
theorem grantCounter_of_live {s : State} {k : Nat} {o : SynObj} (hobj : objOf s k = some o)
    (hlive : objLive s k = true) (hcounter : o.barrier = false) :
    grantCounter s k = grantAll k (o.gq.length + o.dq.length) s := by
  simp [grantCounter, hobj, hlive, hcounter]

section
variable {s : State} {k : Nat} {o : SynObj} (h : LiveAt s k o)
include h

theorem LiveAt.after_setObj (o' : SynObj) : LiveAt (setObj s k o') k o' :=
  ⟨h.thawed, tget?_tput_same _ _ _, tget?_tput_same _ _ _⟩

theorem LiveAt.checkObj_eq : checkObj s k = (s, true) := by
  have hA : tget? s.syn.objA k = some o := h.copyA
  simp [checkObj, h.thawed, hA, h.copyB]

theorem LiveAt.objLive_eq : objLive s k = true := by
  have hA : tget? s.syn.objA k = some o := h.copyA
  simp [objLive, h.thawed, hA, h.copyB]

/-- An operation on a live object is carried out, and no drop is counted. -/
theorem LiveAt.onLiveObj_eq (f : State → State) : onLiveObj s k f = f s := by
  simp [onLiveObj, h.checkObj_eq]

theorem LiveAt.grantCounter_of_no_waiter (hcounter : o.barrier = false) (hgq : o.gq = []) (hdq : o.dq = []) :
    grantCounter s k = s := by
  rw [grantCounter_of_live h.copyA h.objLive_eq hcounter, hgq, hdq]
  rfl

end

/-! ### What a grant leaves as it is (R308, R319) -/

theorem setWaited_syn (s : State) (c t : Nat) : (setWaited s c t).syn = s.syn := by
  rw [setWaited, checkLedger_frame]

theorem modRun_syn (s : State) (r : Nat) (f : Run → Run) : (modRun s r f).syn = s.syn := by
  unfold modRun
  split <;> rfl

theorem grantDown_syn (s : State) (f : Nat) (i : GrantItem) : (grantDown s f i).syn = s.syn := by
  rw [grantDown, deliverDown_frame]
  rfl

theorem objA_queueGrant (s : State) (w : Nat) : (queueGrant s w).syn.objA = s.syn.objA := by
  unfold queueGrant
  extract_lets noted
  have hnoted : noted.syn = s.syn := by
    unfold noted
    split <;> rfl
  change noted.syn.objA = _
  rw [hnoted]

/-- A grant changes no object: what it takes is taken before it. -/
theorem objA_grantWaiterAt (s : State) (w got due : Nat) : (grantWaiterAt s w got due).syn.objA = s.syn.objA := by
  unfold grantWaiterAt
  split
  · rfl
  · split
    case isTrue =>
      change (setWaited _ _ _).syn.objA = _
      rw [setWaited_syn]
      split <;> rfl
    case isFalse =>
      split
      · dsimp only
        split
        · rw [modRun_syn]; rfl
        · rw [objA_queueGrant, grantDown_syn, modRun_syn]; rfl
      · rw [objA_queueGrant, completeOk, complete_syn]; rfl
      · rfl

theorem objOf_grantWaiter (s : State) (w got k : Nat) : objOf (grantWaiter s w got) k = objOf s k :=
  objOf_congr (objA_grantWaiterAt s w got 0) k

end Sys2Proof.Machine
end

section
/-! Host operations on a counter, and grants to its waiters in order (R305-R310, R333, R334). -/

namespace Sys2Proof.Machine

open Sys2Proof

/-! ### Grants (R308) -/

section
variable {s : State} {k w : Nat} {rest : List Nat} {o : SynObj} {x : Waiter} (hobj : objOf s k = some o)
  (hgq : o.gq = w :: rest) (hwait : waiterOf s w = some x)
include hobj hgq hwait

theorem grantOne_of_enough (henough : x.units ≤ o.value) : grantOne s k =
    some (grantWaiter (setObj s k { o with gq := rest, value := o.value - x.units }) w x.units) := by
  simp only [grantOne, hobj, hgq, hwait, henough, if_true]

theorem grantOne_of_too_few (hfew : o.value < x.units) (hdq : o.dq = []) : grantOne s k = none := by
  simp only [grantOne, hobj, hgq, hwait, Nat.not_le.mpr hfew, hdq, if_false, List.find?_nil, Option.map_none]

end

/-- The only waiter of a live counter that has its units is granted, and the units are taken. -/
theorem objOf_grantCounter_of_only {s : State} {k w : Nat} {o : SynObj} {x : Waiter} (hobj : objOf s k = some o)
    (hwait : waiterOf s w = some x) (henough : x.units ≤ o.value) (hlive : objLive s k = true)
    (hcounter : o.barrier = false) (hgq : o.gq = [w]) (hdq : o.dq = []) :
    objOf (grantCounter s k) k = some { o with value := o.value - x.units, gq := [] } := by
  have hgrants : grantCounter s k = grantAll k 1 s := by
    rw [grantCounter_of_live hobj hlive hcounter, hgq, hdq]
    rfl
  rw [hgrants, grantAll, grantOne_of_enough hobj hgq hwait henough]
  exact (objOf_grantWaiter _ _ _ _).trans (objOf_setObj_same _ _ _)

/-! ### Operations on a counter with no waiter (R306, R307, R310) -/

/-- An operation that leaves a counter with no waiter as `o'` is counted, and its result is read from `o'`. -/
theorem afterGrants_of_no_waiter {s : State} {k : Nat} {o o' : SynObj} (hlive : LiveAt s k o)
    (hcounter : o'.barrier = false) (hgq : o'.gq = []) (hdq : o'.dq = []) (f : SynObj → Nat) :
    afterGrants (setObj s k o') k f = .ok (f o') (addCount (setObj s k o') 0x500008 1) := by
  have hgrants := (hlive.after_setObj o').grantCounter_of_no_waiter hcounter hgq hdq
  have hobj : objOf (addCount (setObj s k o') 0x500008 1) k = some o' := objOf_setObj_same s k o'
  simp only [afterGrants, hgrants, hobj]

section
variable {s : State} {k : Nat} {o : SynObj} (hlive : LiveAt s k o) (hcounter : o.barrier = false) (hgq : o.gq = [])
  (hdq : o.dq = [])
include hlive hcounter hgq hdq

theorem opSignal_of_room {n : Nat} (hroom : o.value + o.dunits + n ≤ o.limit) : opSignal s k o n =
    .ok (o.value + n) (addCount (setObj s k { o with value := o.value + n }) 0x500008 1) := by
  rw [opSignal, if_pos hroom]
  exact afterGrants_of_no_waiter hlive (o' := { o with value := o.value + n }) hcounter hgq hdq _

theorem opDecrement_of_enough {n : Nat} (henough : n ≤ o.value) : opDecrement s k o n =
    .ok (o.value - n) (addCount (setObj s k { o with value := o.value - n }) 0x500008 1) := by
  rw [opDecrement, if_pos henough]
  exact afterGrants_of_no_waiter hlive (o' := { o with value := o.value - n }) hcounter hgq hdq _

theorem opSignalTo_of_room {tag n : Nat} (htag : tag ≠ 0) (hnone : o.dunits = 0) (hmax : n ≤ 65535)
    (hroom : o.value + n ≤ o.limit) : opSignalTo s k o tag n =
    .ok n (addCount (setObj s k { o with dtag := tag, dunits := n }) 0x500008 1) := by
  have hwithin : ¬o.limit < o.value + 0 + n := Nat.not_lt.mpr hroom
  have hfits : ¬65535 < n := Nat.not_lt.mpr hmax
  have hhold := afterGrants_of_no_waiter hlive (o' := { o with dtag := tag, dunits := n }) hcounter hgq hdq
    fun o => o.dunits
  simp only [opSignalTo, hwithin, htag, hnone, Nat.zero_add, hfits, if_false, decide_true, Bool.true_or, if_true]
  exact hhold

end

theorem opDecrement_of_too_few (s : State) (k : Nat) {o : SynObj} {n : Nat} (hfew : o.value < n) :
    opDecrement s k o n = .refused 0xB := if_neg (Nat.not_le.mpr hfew)

/-! ### The operation that a command asks for (R333) -/

section
variable {s : State} {k : Nat} {o : SynObj} {p : SynOp} (hobj : objOf s k = some o) (hcounter : o.barrier = false)
include hobj hcounter

theorem applyOp_signal (hop : p.op = 1) (hunits : p.n ≠ 0) (htag : p.tag = 0) (hsense : p.sense = false) :
    applyOp s k p = opSignal s k o p.n := by
  simp [applyOp, hobj, hcounter, hop, hunits, htag, hsense]

theorem applyOp_signalTo (hop : p.op = 2) (hunits : p.n ≠ 0) (hsense : p.sense = false) :
    applyOp s k p = opSignalTo s k o p.tag p.n := by
  simp [applyOp, hobj, hcounter, hop, hunits, hsense]

theorem applyOp_decrement (hop : p.op = 3) (hunits : p.n ≠ 0) (htag : p.tag = 0) (hsense : p.sense = false) :
    applyOp s k p = opDecrement s k o p.n := by
  simp [applyOp, hobj, hcounter, hop, hunits, htag, hsense]

/-- A DECREMENT takes neither a TAG nor a SENSE. -/
theorem applyOp_decrement_of_operand (hop : p.op = 3) (hextra : p.tag ≠ 0 ∨ p.sense = true) :
    applyOp s k p = .refused 3 := by
  have hbad : (p.n = 0 ∨ p.tag ≠ 0) ∨ p.sense = true := hextra.elim (fun h => .inl (.inr h)) .inr
  simp [applyOp, hobj, hcounter, hop, hbad]

end

/-! ### A WAIT that queues (R309) -/

/-- The state in which a wait has joined the general queue of object `k`. -/
def waitQueued (s : State) (k : Nat) (o : SynObj) (x : Waiter) : State :=
  setObj (addCount (newWaiter s { x with obj := k, vid := o.vid }).2 0x500008 1) k
    { o with gq := o.gq ++ [s.syn.nextWaiter] }

theorem applyWait_of_too_few (s : State) (k : Nat) {o : SynObj} {x : Waiter} (hcounter : o.barrier = false)
    (htag : x.tag = 0) (hfew : o.value < x.units) : applyWait s k o x = waitQueued s k o x := by
  simp [applyWait, hcounter, htag, Nat.not_le.mpr hfew, newWaiter, waitQueued]

theorem waiterOf_waitQueued (s : State) (k : Nat) (o : SynObj) (x : Waiter) :
    waiterOf (waitQueued s k o x) s.syn.nextWaiter = some { x with obj := k, vid := o.vid } :=
  tget?_tput_same _ _ _

/-! ### Refusals (R333, R334) -/

theorem reg_countRefusal (s : State) (c vid reason op : Nat) :
    reg (countRefusal s c vid reason op) 0x500010 = satAdd 32 (reg s 0x500010) 1 := by
  rw [countRefusal, reg_setReg_ne _ _ (by unfold synCtx; omega), reg_setRegBit_ne _ _ _ (by unfold synCtx; omega),
    reg_setRegBit_ne _ _ _ (by decide), reg_addReg_same]

/-- The status of a refused host command (R334). -/
def refusalStatus (reason : Nat) : Nat := if reason = 0xA then 0x0B else if reason = 0xB then 0x0A else 0x18

theorem refusalStatus_ne_zero (reason : Nat) : refusalStatus reason ≠ 0 := by
  unfold refusalStatus
  split
  · decide
  · split <;> decide

theorem answered_refuseHost {s : State} (hsafe : s.saf.safe = false) (m : Cmd) (vid reason op : Nat) :
    answered s (refuseHost s m vid reason op) m (refusalStatus reason) reason 0 :=
  answered_complete (s := countRefusal s m.ctx vid reason op) hsafe rfl (.inr (refusalStatus_ne_zero reason)) _ _ _

theorem refuseHost_syn (s : State) (m : Cmd) (vid reason op : Nat) : (refuseHost s m vid reason op).syn = s.syn :=
  complete_syn _ _ _ _ _ _

theorem reg_refuseHost {s : State} (hsafe : s.saf.safe = false) (m : Cmd) (vid reason op : Nat) :
    reg (refuseHost s m vid reason op) 0x500010 = satAdd 32 (reg s 0x500010) 1 :=
  (reg_complete (s := countRefusal s m.ctx vid reason op) hsafe _ _ _ (by decide) (by decide)).trans
    (reg_countRefusal s m.ctx vid reason op)

theorem settle_refuseHost {s : State} (hcalm : calm s) (m : Cmd) (vid reason op : Nat) :
    settle (refuseHost s m vid reason op) = refuseHost s m vid reason op :=
  settle_of_calm (calm_complete (s := countRefusal s m.ctx vid reason op) hcalm _ _ _ _ _)

/-! ### Host commands (R305) -/

/-- The operation on a counter that a sync opcode stands for. -/
def counterOp (opcode : Nat) : Nat :=
  if opcode = 0x0200 then 1 else if opcode = 0x0201 then 2 else if opcode = 0x0203 then 3 else 4

theorem counterOp_ne_six (opcode : Nat) : counterOp opcode ≠ 6 := by
  unfold counterOp
  split
  · decide
  · split
    · decide
    · split <;> decide

/-- The operands that a host sync command gives an operation on a counter. -/
def hostOperands (m : Cmd) (op : Nat) : SynOp :=
  { op := op, vid := m.at 4 2, n := m.at 8 4, tag := m.at 12 2, sense := bitAt (m.at 14 1) 0 }

theorem hostOp_of_counter (m : Cmd) : hostOp m false = hostOperands m (counterOp m.opcode) := by
  unfold hostOp counterOp
  split
  · rfl
  · split
    · rfl
    · split <;> rfl

/-- The state in which SYN has taken the next command and left object `k` as `o'`. -/
def carriedOut (s : State) (rest : List Cmd) (k : Nat) (o' : SynObj) : State :=
  addCount (setObj (queueIs s rest) k o') 0x500008 1

/-- Command `m`, which its unit takes next, names the live counter `k`, on which nothing waits. -/
structure CounterCmd (s : State) (m : Cmd) (rest : List Cmd) (op k : Nat) (o : SynObj) : Prop where
  next : isNext s m rest op
  early : matWaiting s m.ctx (m.at 4 2) = false
  found : findObj s m.ctx (m.at 4 2) = some k
  live : LiveAt s k o
  counter : o.barrier = false
  noGeneral : o.gq = []
  noDirected : o.dq = []
  units : m.at 8 4 ≠ 0

section
variable {s : State} {m : Cmd} {rest : List Cmd} {op k : Nat} {o : SynObj} (h : CounterCmd s m rest op k o)
include h

theorem CounterCmd.hostSync_eq : hostSync op s = applyHost (queueIs s rest) m k := by
  have hearly : matWaiting (queueIs s rest) m.ctx (m.at 4 2) = false := h.early
  have hfound : findObj (queueIs s rest) m.ctx (m.at 4 2) = some k := h.found
  simp only [hostSync, popUnit_of_isNext h.next, hearly, hfound]

theorem CounterCmd.hostOp_eq : hostOp m o.barrier = hostOperands m (counterOp op) := by
  rw [h.counter, hostOp_of_counter, h.next.2]

theorem CounterCmd.taken : LiveAt (queueIs s rest) k o := ⟨h.live.thawed, h.live.copyA, h.live.copyB⟩

/-- What a command that SYN has carried out leaves: both copies written, the answer, memory as it was, and the
registers with it where the queue of entries has room. -/
theorem CounterCmd.completed (hsafe : s.saf.safe = false) (hflag : bitAt m.flags 1 = false) (hload : op ≠ 0x0100)
    {o' : SynObj} {result : Nat} {t : State} (ht : t = completeOk (carriedOut s rest k o') m result) :
    tget? t.syn.objA k = some o' ∧ tget? t.syn.objB k = some o' ∧ answered s t m 0 0 result ∧ t.mem = s.mem ∧
      (s.hif.cplQ.length < 32 → t.regs = s.regs) := by
  subst ht
  have hop : m.opcode ≠ 0x0100 := h.next.2 ▸ hload
  have hsafe' : (carriedOut s rest k o').saf.safe = false := hsafe
  have hsyn : (completeOk (carriedOut s rest k o') m result).syn = (carriedOut s rest k o').syn := complete_syn ..
  refine ⟨?_, ?_, answered_complete (s := carriedOut s rest k o') hsafe' rfl (.inl hflag) _ _ _, ?_,
    fun hroom => complete_regs_of_room (s := carriedOut s rest k o') hsafe' hop hroom _ _ _⟩
  · rw [hsyn]
    exact tget?_tput_same _ _ _
  · rw [hsyn]
    exact tget?_tput_same _ _ _
  · rw [completeOk, complete_keeps]
    rfl

variable (hmax : m.at 8 4 ≤ hostMax (counterOp op))
include hmax

/-- An operation that does not wait completes its command, or refuses it. -/
theorem CounterCmd.applyHost_of_done (hdone : counterOp op ≠ 4) : applyHost (queueIs s rest) m k =
    match applyOp (queueIs s rest) k (hostOperands m (counterOp op)) with
    | .refused reason => refuseHost (queueIs s rest) m (m.at 4 2) reason (counterOp op)
    | .ok result t => completeOk t m result := by
  have hnow : ¬(decide (counterOp op = 4) || decide (counterOp op = 6)) = true := by simp [hdone, counterOp_ne_six]
  simp only [applyHost, h.taken.checkObj_eq, h.taken.copyA, h.hostOp_eq]
  exact (if_neg (Nat.not_lt.mpr hmax)).trans (if_neg hnow)

variable (hcalm : calm s)
include hcalm

theorem CounterCmd.completes (hdone : counterOp op ≠ 4) {o' : SynObj} {result : Nat}
    (hop : applyOp (queueIs s rest) k (hostOperands m (counterOp op)) = .ok result (carriedOut s rest k o')) :
    settle (hostSync op s) = completeOk (carriedOut s rest k o') m result := by
  have hcalm' : calm (carriedOut s rest k o') := hcalm
  rw [h.hostSync_eq, h.applyHost_of_done hmax hdone, hop]
  exact settle_of_calm (calm_complete hcalm' _ _ _ _ _)

theorem CounterCmd.refuses (hdone : counterOp op ≠ 4) {reason : Nat}
    (hop : applyOp (queueIs s rest) k (hostOperands m (counterOp op)) = .refused reason) :
    settle (hostSync op s) = refuseHost (queueIs s rest) m (m.at 4 2) reason (counterOp op) := by
  have hcalm' : calm (queueIs s rest) := hcalm
  rw [h.hostSync_eq, h.applyHost_of_done hmax hdone, hop]
  exact settle_refuseHost hcalm' _ _ _ _

end

/-! ### The commands (R306, R307, R309, R310) -/

section
variable {s : State} {m : Cmd} {rest : List Cmd} {k : Nat} {o : SynObj} (hcalm : calm s)
include hcalm

theorem exec_syncSignal_of_room (h : CounterCmd s m rest 0x0200 k o) (hmax : m.at 8 4 ≤ 0x7FFFFFFF)
    (htag : m.at 12 2 = 0) (hsense : bitAt (m.at 14 1) 0 = false)
    (hroom : o.value + o.dunits + m.at 8 4 ≤ o.limit) : exec .syncSignal s = .next (completeOk
      (carriedOut s rest k { o with value := o.value + m.at 8 4 }) m (o.value + m.at 8 4)) := by
  have hop := applyOp_signal h.taken.copyA h.counter (p := hostOperands m 1) rfl h.units htag hsense
  exact congrArg _ (h.completes hmax hcalm (by decide)
    (hop.trans (opSignal_of_room h.taken h.counter h.noGeneral h.noDirected hroom)))

section
variable (h : CounterCmd s m rest 0x0203 k o) (hmax : m.at 8 4 ≤ 0x7FFFFFFF)
include h hmax

theorem exec_syncDecrement_of_operand (hextra : m.at 12 2 ≠ 0 ∨ bitAt (m.at 14 1) 0 = true) :
    exec .syncDecrement s = .next (refuseHost (queueIs s rest) m (m.at 4 2) 3 3) :=
  congrArg _ (h.refuses hmax hcalm (by decide)
    (applyOp_decrement_of_operand h.taken.copyA h.counter (p := hostOperands m 3) rfl hextra))

variable (htag : m.at 12 2 = 0) (hsense : bitAt (m.at 14 1) 0 = false)
include htag hsense

theorem exec_syncDecrement_of_enough (henough : m.at 8 4 ≤ o.value) : exec .syncDecrement s = .next (completeOk
    (carriedOut s rest k { o with value := o.value - m.at 8 4 }) m (o.value - m.at 8 4)) := by
  have hop := applyOp_decrement h.taken.copyA h.counter (p := hostOperands m 3) rfl h.units htag hsense
  exact congrArg _ (h.completes hmax hcalm (by decide)
    (hop.trans (opDecrement_of_enough h.taken h.counter h.noGeneral h.noDirected henough)))

theorem exec_syncDecrement_of_too_few (hfew : o.value < m.at 8 4) :
    exec .syncDecrement s = .next (refuseHost (queueIs s rest) m (m.at 4 2) 0xB 3) := by
  have hop := applyOp_decrement h.taken.copyA h.counter (p := hostOperands m 3) rfl h.units htag hsense
  exact congrArg _ (h.refuses hmax hcalm (by decide) (hop.trans (opDecrement_of_too_few _ _ hfew)))

end

theorem exec_syncSignalTo_of_room (h : CounterCmd s m rest 0x0201 k o) (hmax : m.at 8 4 ≤ 65535)
    (htag : m.at 12 2 ≠ 0) (hsense : bitAt (m.at 14 1) 0 = false) (hnone : o.dunits = 0)
    (hroom : o.value + m.at 8 4 ≤ o.limit) : exec .syncSignalTo s = .next (completeOk
      (carriedOut s rest k { o with dtag := m.at 12 2, dunits := m.at 8 4 }) m (m.at 8 4)) := by
  have hop := applyOp_signalTo h.taken.copyA h.counter (p := hostOperands m 2) rfl h.units hsense
  exact congrArg _ (h.completes hmax hcalm (by decide)
    (hop.trans (opSignalTo_of_room h.taken h.counter h.noGeneral h.noDirected htag hnone hmax hroom)))

/-- The waiter entry of a host command that waits for units. -/
def hostWaiter (m : Cmd) (k : Nat) : Waiter :=
  { kind := 2, ctx := m.ctx, obj := k, units := m.at 8 4, tag := m.at 12 2, sense := bitAt (m.at 14 1) 0,
    cmd := some m }

theorem exec_syncWait_of_too_few (h : CounterCmd s m rest 0x0202 k o) (hmax : m.at 8 4 ≤ 65535)
    (htag : m.at 12 2 = 0) (hsense : bitAt (m.at 14 1) 0 = false) (hfew : o.value < m.at 8 4) :
    exec .syncWait s = .next (waitQueued (queueIs s rest) k o (hostWaiter m k)) := by
  have hfault : waitFault o (hostOperands m 4) = none := by
    simp [waitFault, hostOperands, h.counter, h.units, hsense]
  have hqueue : applyHost (queueIs s rest) m k = applyWait (queueIs s rest) k o (hostWaiter m k) := by
    have hop : hostOp m o.barrier = hostOperands m 4 := h.hostOp_eq
    simp only [applyHost, h.taken.checkObj_eq, h.taken.copyA, hop, hfault]
    exact (if_neg (Nat.not_lt.mpr hmax)).trans (if_pos rfl)
  have hcalm' : calm (waitQueued (queueIs s rest) k o (hostWaiter m k)) := hcalm
  change Host.Outcome.next (settle (hostSync 0x0202 s)) = _
  rw [h.hostSync_eq, hqueue, applyWait_of_too_few _ _ h.counter htag hfew, settle_of_calm hcalm']

end

/-- Settles O28: the host operations, then the grants to waiters. -/
theorem hostSyncAndGrants : Obligations.HostSyncAndGrants := by
  unfold Obligations.HostSyncAndGrants
  refine ⟨fun s m rest k o op hnext hearly hfound hA hB hthawed hcounter hgq hdq hunits hsafe hflag hcalm => ?_,
    fun s k w rest o x => grantOne_of_enough, fun s k w rest o x => grantOne_of_too_few,
    fun s k w o x => objOf_grantCounter_of_only⟩
  have h : CounterCmd s m rest op k o :=
    ⟨hnext, hearly, hfound, ⟨hthawed, hA, hB⟩, hcounter, hgq, hdq, Nat.one_le_iff_ne_zero.mp hunits⟩
  refine ⟨fun hop hmax htag hsense hroom => ?_, fun hop hmax htag hsense henough => ?_,
    fun hop hmax htag hsense hfew => ?_, fun hop hmax hextra => ?_,
    fun hop hmax hsense htag hnone hroom => ?_, fun hop hmax htag hsense hfew => ?_⟩ <;> subst hop
  · exact ⟨_, exec_syncSignal_of_room hcalm h hmax htag hsense hroom, h.completed hsafe hflag (by decide) rfl⟩
  · obtain ⟨hA', -, hleft⟩ := h.completed hsafe hflag (by decide) rfl
    exact ⟨_, exec_syncDecrement_of_enough hcalm h hmax htag hsense henough, hA', hleft⟩
  · exact ⟨_, exec_syncDecrement_of_too_few hcalm h hmax htag hsense hfew, refuseHost_syn _ _ _ _ _,
      answered_refuseHost (s := queueIs s rest) hsafe _ _ _ _, reg_refuseHost (s := queueIs s rest) hsafe _ _ _ _⟩
  · exact ⟨_, exec_syncDecrement_of_operand hcalm h hmax hextra, congrArg Syn.objA (refuseHost_syn _ _ _ _ _),
      answered_refuseHost (s := queueIs s rest) hsafe _ _ _ _⟩
  · obtain ⟨hA', -, hanswer, -⟩ := h.completed hsafe hflag (by decide) rfl
    exact ⟨_, exec_syncSignalTo_of_room hcalm h hmax htag hsense hnone hroom, hA', hanswer⟩
  · refine ⟨_, exec_syncWait_of_too_few hcalm h hmax htag hsense hfew, ?_, rfl, _,
      waiterOf_waitQueued _ _ _ _, rfl, rfl, rfl⟩
    rw [waitQueued, hgq]
    exact tget?_tput_same _ _ _

end Sys2Proof.Machine
end

section
/-! Arrivals at a barrier, and the end of a phase (R311, R312, R333). -/

namespace Sys2Proof.Machine

open Sys2Proof

/-- A barrier as the end of a phase leaves it where nothing waits at it (R312). -/
def SynObj.nextPhase (o : SynObj) : SynObj :=
  { o with value := 0, sense := !o.sense, chipArrived := false, dtag := 0, phase := (o.phase + 1) % 2 ^ 32 }

theorem completePhaseAt_of_no_waiter {s : State} {k : Nat} {o : SynObj} (hobj : objOf s k = some o)
    (hplain : o.realign = false) (hgq : o.gq = []) (vint due : Nat) :
    completePhaseAt s k vint due = setObj s k o.nextPhase := by
  simp only [completePhaseAt, hobj, hplain, hgq, Bool.false_eq_true, if_false, List.foldl_nil, SynObj.nextPhase]

theorem fullBarrier_of_local (s : State) (k vint : Nat) {o : SynObj} (hlocal : o.xchip = false) :
    fullBarrier s k o vint = completePhase s k vint := by
  simp only [fullBarrier, hlocal, Bool.not_false, if_true]

section
variable (s : State) (k vint : Nat) {o : SynObj}

theorem opArrive_of_wrong_sense {sense : Bool} (h : sense ≠ o.sense) : opArrive s k o sense vint = .refused 4 := by
  simp [opArrive, h]

theorem opArrive_of_full (h : fld o.limit 15 0 ≤ o.value) : opArrive s k o o.sense vint = .refused 5 := by
  simp [opArrive, h]

theorem opArrive_of_partial (h : o.value + 1 < fld o.limit 15 0) : opArrive s k o o.sense vint =
    .ok (o.value + 1) (addCount (setObj s k { o with value := o.value + 1 }) 0x500008 1) := by
  have hroom : ¬fld o.limit 15 0 ≤ o.value := by omega
  have hopen : o.value + 1 ≠ fld o.limit 15 0 := by omega
  have hobj : objOf (addCount (setObj s k { o with value := o.value + 1 }) 0x500008 1) k =
      some { o with value := o.value + 1 } := objOf_setObj_same s k _
  simp only [opArrive, bne_self_eq_false, Bool.false_eq_true, hroom, hopen, if_false, hobj]

/-- The arrival that makes the participants complete is counted, and then the phase ends (R312). -/
theorem opArrive_of_last (hlocal : o.xchip = false) (hplain : o.realign = false) (hgq : o.gq = [])
    (h : o.value + 1 = fld o.limit 15 0) : opArrive s k o o.sense vint =
    .ok 0 (addCount (setObj (setObj s k { o with value := o.value + 1 }) k o.nextPhase) 0x500008 1) := by
  have hroom : ¬fld o.limit 15 0 ≤ o.value := by omega
  have hend : fullBarrier (setObj s k { o with value := o.value + 1 }) k { o with value := o.value + 1 } vint =
      setObj (setObj s k { o with value := o.value + 1 }) k o.nextPhase :=
    (fullBarrier_of_local _ _ _ (o := { o with value := o.value + 1 }) hlocal).trans
      (completePhaseAt_of_no_waiter (objOf_setObj_same s k { o with value := o.value + 1 }) hplain hgq _ _)
  have hobj : objOf (addCount (setObj (setObj s k { o with value := o.value + 1 }) k o.nextPhase) 0x500008 1) k =
      some o.nextPhase := objOf_setObj_same _ k _
  simp only [opArrive, bne_self_eq_false, Bool.false_eq_true, hroom, if_false, if_pos h, hend, hobj]
  rfl

end

/-- Settles O29: an arrival by how it finds the phase. -/
theorem barrierPhases : Obligations.BarrierPhases := by
  unfold Obligations.BarrierPhases
  exact ⟨fun s k vint o _ _ hmore => ⟨_, opArrive_of_partial s k vint hmore, objOf_setObj_same s k _⟩,
    fun s k vint o _ hlocal hplain hgq hlast =>
      ⟨_, opArrive_of_last s k vint hlocal hplain hgq hlast, objOf_setObj_same _ k _⟩,
    fun s k vint o sense => opArrive_of_wrong_sense s k vint, fun s k vint o => opArrive_of_full s k vint⟩

end Sys2Proof.Machine
end

section
/-! WAIT effects, materialisation of objects, wake-ups and acknowledged grants (R296, R297, R315, R319, R321, R322). -/

namespace Sys2Proof.Machine

open Sys2Proof

/-! ### WAIT effects (R303, R315) -/

/-- The state in which a WAIT effect request has left SYN's input queue, which is now `rest`. -/
def waitTaken (s : State) (rest : List (Nat × Nat)) : State := { s with syn := { s.syn with newWaits := rest } }

section
variable {s : State} {r n : Nat} {rest : List (Nat × Nat)} {x : Run} {e : Eff}
  (hq : s.syn.newWaits = (r, n) :: rest) (heff : effAt s r n = some (x, e))
include hq heff

theorem exec_syncWaitEffect_of_outstanding (hout : waitOut s r = true) :
    exec .syncWaitEffect s = .next (settle (refuseWait (waitTaken s rest) r n 2)) := by
  have heff' : effAt (waitTaken s rest) r n = some (x, e) := heff
  have hout' : waitOut (waitTaken s rest) r = true := hout
  rw [waitTaken] at heff' hout'
  change execSyncWaitEffect s = _
  simp only [execSyncWaitEffect, hq, heff', hout', if_true, waitTaken]

theorem exec_syncWaitEffect_of_object (hnone : waitOut s r = false) {k : Nat}
    (hearly : matWaiting s x.ctx (synEff e.data).vid = false)
    (hfound : findObj s x.ctx (synEff e.data).vid = some k) :
    exec .syncWaitEffect s = .next (settle (waitOn (waitTaken s rest) r n k)) := by
  have heff' : effAt (waitTaken s rest) r n = some (x, e) := heff
  have hnone' : waitOut (waitTaken s rest) r = false := hnone
  have hearly' : matWaiting (waitTaken s rest) x.ctx (synEff e.data).vid = false := hearly
  have hfound' : findObj (waitTaken s rest) x.ctx (synEff e.data).vid = some k := hfound
  rw [waitTaken] at heff' hnone' hearly' hfound'
  change execSyncWaitEffect s = _
  simp only [execSyncWaitEffect, hq, heff', hnone', hearly', hfound', Bool.false_eq_true, if_false, waitTaken]

end

/-! ### OBJECT_MATERIALISE (R296, R297) -/

/-- The state in which an operation no longer waits for its object. -/
def matDropped (s : State) (q : MatReq) : State := { s with syn := { s.syn with mats := s.syn.mats.erase q } }

section
variable {s : State} {q : MatReq} (honly : s.syn.mats = [q]) {readOk : Bool}
include honly

theorem exec_objectMaterialise_of_made {t : State} {k : Nat} (hmade : tryMat readOk s q = .made k t) :
    exec (.objectMaterialise readOk) s = .next (settle (applyMat (matDropped t q) q k)) := by
  change Host.Outcome.next (settle (matGo readOk s.syn.mats [] false s)) = _
  simp [honly, matGo, hmade, matDropped]

theorem exec_objectMaterialise_of_refused {reason : Nat} (hrefused : tryMat readOk s q = .refused reason) :
    exec (.objectMaterialise readOk) s = .next (settle (refuseMat (matDropped s q) q reason)) := by
  change Host.Outcome.next (settle (matGo readOk s.syn.mats [] false s)) = _
  simp only [honly, matGo, hrefused, matDropped]

end

/-- An object past its context's table has no declaration, whether or not the read met an error (R296). -/
theorem tryMat_past_table {s : State} {q : MatReq} (hnone : findObj s q.ctx q.vid = none)
    (hpast : sdtCount s q.ctx ≤ q.vid) (readOk : Bool) : tryMat readOk s q = .refused 1 := by
  cases readOk <;> simp [tryMat, materialise, hnone, hpast]

theorem refuseMat_host (s : State) {q : MatReq} {m : Cmd} (hsrc : q.src = 0) (hcmd : q.cmd = some m) (reason : Nat) :
    refuseMat s q reason = refuseHost s m q.vid reason (hostOp m false).op := by
  simp only [refuseMat, hsrc, hcmd]

/-! ### WAKE_BEAT (R20, R115, R319, R322) -/

section
variable {s : State} {f : Fin 8} {id w due : Nat} {rest : List GrantItem}
  (hq : (fieldOf s f).grantQ = .wake id w due :: rest)
include hq

theorem exec_wakeBeat_of_early (hearly : fieldStopped s f = true ∨ fieldTime s f < due) :
    exec (.wakeBeat f) s = .next s := by
  change execWakeBeat f s = _
  cases hstop : fieldStopped s f with
  | true => simp only [execWakeBeat, hstop, if_true]
  | false =>
    have hdue : fieldTime s f < due := hearly.resolve_left (by simp [hstop])
    simp only [execWakeBeat, hstop, hq, hdue, Bool.false_eq_true, if_false, if_true]

theorem exec_wakeBeat_of_due {x : Run} {y : Waiter} (hrun : runOf s id = some x) (hwait : waiterOf s w = some y)
    (hstate : x.state = 3) (hlive : x.killAt = none) (hopen : fieldStopped s f = false)
    (hdue : due ≤ fieldTime s f) (hresp : ∀ v, rest.head? ≠ some (.resp v)) : exec (.wakeBeat f) s =
    .next (sendBeat (setField s f { fieldOf s f with grantQ := rest }) x (wakeBeat x y)) := by
  have hdeliver : deliverDown (setField s f { fieldOf s f with grantQ := rest }) f =
      setField s f { fieldOf s f with grantQ := rest } := deliverDown_of_no_resp (by simpa using hresp)
  have hwait' : waiterOf (setField s f { fieldOf s f with grantQ := rest }) w = some y := hwait
  change execWakeBeat f s = _
  simp only [execWakeBeat, hopen, hq, Nat.not_lt.mpr hdue, hdeliver, runOf_setField, hrun, hwait', hstate, hlive,
    Bool.false_eq_true, if_false, Option.isNone_none, decide_true, Bool.and_self, if_true]

end

/-! ### GRANT_ACK (R321) -/

theorem exec_grantAck_of_delivered {s : State} {w : Nat} {rest : List Nat} (hq : s.syn.grantQ = w :: rest)
    (hdone : delivered s w = true) :
    exec .grantAck s = .next (dropWaiter { s with syn := { s.syn with grantQ := rest } } w) := by
  change execGrantAck s = _
  simp only [execGrantAck, hq, takeFirst, hdone, if_true]

theorem waiterOf_dropWaiter (s : State) (w v : Nat) :
    waiterOf (dropWaiter s w) v = if v = w then none else waiterOf s v := tget?_tdel _ _ _

/-- Settles O30: waits, materialisations, wake-ups, then the acknowledged grant. -/
theorem waitsAndObjects : Obligations.WaitsAndObjects := by
  unfold Obligations.WaitsAndObjects
  refine ⟨fun s r n k rest x e hq heff hnone hearly hfound =>
      exec_syncWaitEffect_of_object hq heff hnone hearly hfound,
    fun s r n rest x e hq heff hout => exec_syncWaitEffect_of_outstanding hq heff hout,
    fun s t q k honly hmade => exec_objectMaterialise_of_made honly hmade,
    fun s q m honly hsrc hcmd hnone hpast hsafe hcalm => ?_,
    fun s f id w due rest x y hq hrun hwait hstate hlive hopen hdue hresp =>
      ⟨_, exec_wakeBeat_of_due hq hrun hwait hstate hlive hopen hdue hresp, ?_, rfl, rfl⟩,
    fun s f id w due rest hq hearly => exec_wakeBeat_of_early hq hearly,
    fun s w rest hq hdone => ⟨_, exec_grantAck_of_delivered hq hdone, ?_, rfl, fun v hv => ?_, rfl⟩⟩
  · have hsafe' : (matDropped s q).saf.safe = false := hsafe
    have hcalm' : calm (matDropped s q) := hcalm
    refine ⟨_, exec_objectMaterialise_of_refused honly (tryMat_past_table hnone hpast false), ?_⟩
    rw [refuseMat_host _ hsrc hcmd, settle_refuseHost hcalm', refuseHost_syn]
    exact ⟨answered_refuseHost hsafe' m _ _ _, by simp [matDropped, honly], rfl⟩
  · exact congrArg Field.grantQ (fieldOf_setField_same s f _)
  · rw [waiterOf_dropWaiter, if_pos rfl]
  · rw [waiterOf_dropWaiter, if_neg hv]
    rfl

end Sys2Proof.Machine
end

section
/-! Cross-chip barriers: chip arrivals at the home object, early arrivals, and releases at their instant (R326-R329). -/

namespace Sys2Proof.Machine

open Sys2Proof

/-! ### Arrivals at the home object (R326) -/

@[simp] theorem isHome_countRx (s : State) (p : Fin 16) (n : Nat) (o : SynObj) :
    isHome (countRx s p n) o = isHome s o := by
  have hchip : chipId (countRx s p n) = chipId s := by rw [chipId, regFld, countRx, reg_addReg_ne _ _ (by omega)]; rfl
  rw [isHome, hchip, isHome]

theorem LiveAt.after_countRx {s : State} {k : Nat} {o : SynObj} (h : LiveAt s k o) (p n : Nat) :
    LiveAt (countRx s p n) k o := ⟨h.thawed, h.copyA, h.copyB⟩

section
variable {s : State} {xb k : Nat} {o : SynObj} {sense : Bool} {chip : Nat}

theorem takeArrival_of_misuse (hobj : objOf s k = some o) (hbad : sense ≠ o.sense ∨ fld o.limit 28 16 ≤ o.dtag) :
    takeArrival k xb sense s chip = misuseArrival s o.owner xb chip := by
  have hbad' : (sense != o.sense || decide (fld o.limit 28 16 ≤ o.dtag)) = true := by simpa using hbad
  simp only [takeArrival, hobj, hbad', if_true]

/-- An arrival that is discarded sets MISUSE and leaves an error record (R326). -/
theorem misuseArrival_of_room {s : State} (hroom : s.saf.recQ.length < 32) (c xb chip : Nat) :
    (misuseArrival s c xb chip).syn = s.syn ∧ regBit (misuseArrival s c xb chip) 0x500004 29 = true ∧
      (misuseArrival s c xb chip).saf.recQ.length = s.saf.recQ.length + 1 := by
  have hroom' : (setRegBit s 0x500004 29 true).saf.recQ.length < 32 := hroom
  rw [misuseArrival, record_of_room hroom']
  exact ⟨rfl, regBit_setRegBit_same _ _ _ _ (by decide), List.length_append⟩

theorem calm_misuseArrival {s : State} (hcalm : calm s) (c xb chip : Nat) : calm (misuseArrival s c xb chip) := by
  rw [misuseArrival, record_frame]
  exact hcalm

/-- The state in which the home object of a barrier has counted a chip that is not the last one. -/
def chipCounted (s : State) (k : Nat) (o : SynObj) (chip : Nat) : State :=
  let s := setObj s k { o with dtag := o.dtag + 1 }
  { s with syn := { s.syn with arrivers := tput s.syn.arrivers k (tget [] s.syn.arrivers k ++ [chip]) } }

theorem takeArrival_of_more (hobj : objOf s k = some o) (hmore : o.dtag + 1 < fld o.limit 28 16) :
    takeArrival k xb o.sense s chip = chipCounted s k o chip := by
  have hgood : (o.sense != o.sense || decide (fld o.limit 28 16 ≤ o.dtag)) = false := by simp; omega
  have hopen : o.dtag + 1 ≠ fld o.limit 28 16 := by omega
  simp only [takeArrival, hobj, hgood, Bool.false_eq_true, if_false, homeArrive, hopen]
  rfl

end

section
variable {s : State} {xb : Fin 4096}

theorem exec_chipArrive_of_none (hnone : xbObj s xb = none) (p : Fin 16) (chip : Fin 4096) (sense : Bool) :
    exec (.chipArrive p chip xb sense) s = .next (keepEarly (countRx s p 1) xb chip sense) := by
  have hnone' : xbObj (countRx s p 1) xb = none := hnone
  change execChipArrive p chip xb sense s = _
  simp only [execChipArrive, hnone']

theorem keepEarly_of_room {t : State} (chip : Fin 4096) {sense : Bool}
    (hfirst : tget? t.syn.early (2 * xb.val + b2n sense) = none) (hroom : t.syn.early.length < 256) :
    keepEarly t xb chip sense =
      { t with syn := { t.syn with early := tput t.syn.early (2 * xb.val + b2n sense) [chip.val] } } := by
  simp only [keepEarly, hfirst, hroom, if_true]

variable {k : Nat} {o : SynObj} (hxb : xbObj s xb = some (k, o)) (hlive : LiveAt s k o)
include hxb hlive

theorem exec_chipArrive_of_home (hhome : isHome s o = true) (p : Fin 16) (chip : Fin 4096) (sense : Bool) :
    exec (.chipArrive p chip xb sense) s =
      .next (settle (takeArrival k xb sense (countRx s p 1) chip)) := by
  have hxb' : xbObj (countRx s p 1) xb = some (k, o) := hxb
  change execChipArrive p chip xb sense s = _
  simp only [execChipArrive, hxb', isHome_countRx, hhome, if_true, (hlive.after_countRx p 1).onLiveObj_eq]

/-! ### XB_RELEASE (R328, R329) -/

/-- The state in which a release waits for its instant. -/
def releaseHeld (s : State) (r : XbRelease) : State :=
  { s with syn := { s.syn with releases := s.syn.releases ++ [r] } }

theorem exec_xbRelease_of_future {u : BitVec 64} (harrived : o.chipArrived = true)
    (hfuture : s.gtb.now < nsUnits u.toNat) (p : Fin 16) (chip : Fin 4096) : exec (.xbRelease p chip xb o.sense u) s =
      .next (settle (releaseHeld (countRx s p 1) { obj := k, due := u.toNat })) := by
  have hxb' : xbObj (countRx s p 1) xb = some (k, o) := hxb
  have hnow : ¬nsUnits u.toNat ≤ (countRx s p 1).gtb.now := Nat.not_le.mpr hfuture
  change execXbRelease p chip xb o.sense u s = _
  simp [execXbRelease, hxb', (hlive.after_countRx p 1).onLiveObj_eq, harrived, hnow, releaseHeld]

end

/-! ### Releases at their instant (R116, R117, R329) -/

theorem exec_barrierReleaseInstant_of_single {s : State} {r : XbRelease} (honly : s.syn.releases = [r])
    (hdue : nsUnits r.due ≤ (advanceTo (nsUnits r.due) s).gtb.now) :
    exec .barrierReleaseInstant s = .next (settle (releaseXb
      { advanceTo (nsUnits r.due) s with syn := { (advanceTo (nsUnits r.due) s).syn with releases := [] } }
      r (r.late || inJump (advanceTo (nsUnits r.due) s) (nsUnits r.due)))) := by
  have hlater : (advanceTo (nsUnits r.due) s).syn.releases = [r] := by
    rw [(timeFrame_advanceTo (nsUnits r.due) s).syn, honly]
  change execBarrierReleaseInstant s = _
  simp [execBarrierReleaseInstant, honly, hlater, hdue, sortBy, insertBy, inJump]

/-- A release that comes late is marked and counted (R116). -/
def lateNoted (s : State) (late : Bool) : State := if late then setRegBit (countLate s true) 0x500004 26 true else s

theorem regsFrame_lateNoted (s : State) (late : Bool) : RegsFrame s (lateNoted s late) := by
  cases late <;> rfl

theorem lateNoted_marks (s : State) : reg (lateNoted s true) 0x90002C = satAdd 32 (reg s 0x90002C) 1 ∧
    regBit (lateNoted s true) 0x500004 26 = true :=
  ⟨(reg_setRegBit_ne _ _ _ (by decide)).trans (reg_addReg_same _ _ _), regBit_setRegBit_same _ _ _ _ (by decide)⟩

theorem reg_lateNoted_ne (s : State) (late : Bool) {o : Nat} (hcount : o ≠ 0x90002C) (hstat : o ≠ 0x500004) :
    reg (lateNoted s late) o = reg s o := by
  cases late with
  | false => rfl
  | true => exact (reg_setRegBit_ne _ _ _ hstat).trans (reg_countLate_ne s true hcount)

/-- Marking a late release leaves the quality of group time as it was. -/
theorem gtbQ_lateNoted (s : State) (late : Bool) : gtbQ (lateNoted s late) = gtbQ s := by
  have hchips := reg_lateNoted_ne s late (o := 0x10) (by decide) (by decide)
  have hctl := reg_lateNoted_ne s late (o := 0x900000) (by decide) (by decide)
  have hstatus := reg_lateNoted_ne s late (o := 0x900004) (by decide) (by decide)
  unfold gtbQ gtbState gtbSlewing gtbRefOnly groupChips regFld regBit
  rw [hchips, hctl, hstatus]

/-- The state in which a release has been recorded. -/
def releaseRecorded (s : State) (r : XbRelease) (late : Bool) : State :=
  { lateNoted s late with syn := { (lateNoted s late).syn with
      released := (lateNoted s late).syn.released ++ [{ r with late := late, q := gtbQ s }] } }

theorem releaseXb_of_no_waiter {s : State} {r : XbRelease} {o : SynObj} (hlive : LiveAt s r.obj o)
    (hplain : o.realign = false) (hgq : o.gq = []) (late : Bool) :
    releaseXb s r late = setObj (releaseRecorded s r late) r.obj o.nextPhase := by
  have hobj : objOf (releaseRecorded s r late) r.obj = some o := by
    rw [objOf, releaseRecorded, regsFrame_lateNoted s late]
    exact hlive.copyA
  rw [releaseXb, hlive.onLiveObj_eq]
  change completePhaseAt { lateNoted s late with syn := { (lateNoted s late).syn with
      released := (lateNoted s late).syn.released ++
        [{ r with late := late, q := gtbQ (lateNoted s late) }] } } r.obj 0 (nsUnits r.due) = _
  rw [gtbQ_lateNoted]
  exact completePhaseAt_of_no_waiter hobj hplain hgq _ _

/-- A release that comes late is marked and counted, whatever the phase that it ends (R116). -/
theorem lateRelease_marks (s : State) (r : XbRelease) (k : Nat) (o : SynObj) :
    reg (setObj (releaseRecorded s r true) k o) 0x90002C = satAdd 32 (reg s 0x90002C) 1 ∧
      regBit (setObj (releaseRecorded s r true) k o) 0x500004 26 = true := by
  have hregs : (setObj (releaseRecorded s r true) k o).regs = (lateNoted s true).regs := rfl
  rw [reg_congr hregs, regBit_congr hregs]
  exact lateNoted_marks s

theorem released_releaseRecorded (s : State) (r : XbRelease) (late : Bool) :
    (releaseRecorded s r late).syn.released = s.syn.released ++ [{ r with late := late, q := gtbQ s }] := by
  rw [releaseRecorded, regsFrame_lateNoted s late]

/-- Settles O31: arrivals at the home object, early ones, then releases before and at their instant. -/
theorem crossChipBarriers : Obligations.CrossChipBarriers := by
  unfold Obligations.CrossChipBarriers
  refine ⟨fun s p chip xb sense k o hxb hhome hthawed hA hB hcalm => ?_,
    fun s p chip xb sense hnone hfirst hroom => ?_,
    fun s p chip xb u k o hxb hthawed hA hB hcalm harrived hfuture => ?_,
    fun s r => exec_barrierReleaseInstant_of_single,
    fun s r o late hobj hB hthawed hplain hgq => ?_⟩
  · have hlive : LiveAt s k o := ⟨hthawed, hA, hB⟩
    have hobj : objOf (countRx s p 1) k = some o := hA
    have hexec := exec_chipArrive_of_home hxb hlive hhome p chip
    refine ⟨fun hbad hroom => ?_, fun hsense hmore => ?_⟩
    · have hexec := hexec sense
      rw [takeArrival_of_misuse hobj hbad,
        settle_of_calm (calm_misuseArrival (s := countRx s p 1) hcalm _ _ _)] at hexec
      exact ⟨_, hexec, misuseArrival_of_room (s := countRx s p 1) hroom _ _ _⟩
    · subst hsense
      have hexec := hexec o.sense
      rw [takeArrival_of_more hobj hmore, settle_of_calm (s := chipCounted (countRx s p 1) k o chip) hcalm] at hexec
      exact ⟨_, hexec, objOf_setObj_same _ k _, tget_tput_same _ _ _ _, rfl⟩
  · have hexec := exec_chipArrive_of_none hnone p chip sense
    rw [keepEarly_of_room (t := countRx s p 1) chip hfirst hroom] at hexec
    exact ⟨_, hexec, tget?_tput_same _ _ _⟩
  · have hexec := exec_xbRelease_of_future hxb ⟨hthawed, hA, hB⟩ harrived hfuture p chip
    rw [settle_of_calm (s := releaseHeld (countRx s p 1) _) hcalm] at hexec
    exact ⟨_, hexec, rfl, rfl⟩
  · rw [releaseXb_of_no_waiter ⟨hthawed, hobj, hB⟩ hplain hgq late]
    refine ⟨released_releaseRecorded s r late, objOf_setObj_same _ _ _, fun hlate => ?_⟩
    subst hlate
    exact lateRelease_marks s r _ _

end Sys2Proof.Machine
end

section
/-! The end of a SYNC_DUMP (R660): where the frozen statement does not hold. -/

namespace Sys2Proof.Machine

open Sys2Proof

namespace StrayDump

/-- A GRAPH_LOAD of context 3,840. The block has 64 contexts, and where this one would have its HIF_CTX_CFG stands the
register of LAST_STATUS. -/
def cmd : Cmd := { ctx := 3840, ring := 0, seq := 0, bytes := [0, 1] ++ List.replicate 14 0 ++ [64] }

/-- The GRAPH_LOAD stands where SYN keeps the SYNC_DUMP in progress, and the bits that LAST_STATUS will take are part
of the PASID under which its context reaches host memory (R70, R219). -/
def state : State := { regs := [(0x200000, 0x2000FF00)], syn := { dump := some cmd } }

/-- The completion clears LAST_STATUS, and with it the PASID under which the header was written: where the dump was to
go the context now reads zero. -/
theorem header_lost : ∃ t, exec .syncDumpDone state = .next t ∧
    hostRead t cmd.ctx (cmd.at 8 8) 4 = [0, 0, 0, 0] :=
  ⟨_, rfl, by decide +kernel⟩

end StrayDump

/-- Refutes O32: its fifth clause takes any command for the SYNC_DUMP in progress, of any opcode and context.
`StrayDump.state` holds a GRAPH_LOAD there, whose completion writes LAST_STATUS over the PASID of the write. -/
theorem not_syncForceAndDump : ¬ Obligations.SyncForceAndDump := by
  unfold Obligations.SyncForceAndDump
  rintro ⟨-, -, -, -, hdump, -⟩
  obtain ⟨t, hexec, -, -, hread⟩ := hdump StrayDump.state StrayDump.cmd rfl (by decide) (by decide) rfl rfl
    (by decide)
  obtain ⟨u, hexec', hlost⟩ := StrayDump.header_lost
  obtain rfl : t = u := Host.Outcome.next.inj (hexec.symm.trans hexec')
  exact absurd (hread.symm.trans hlost) (by decide)

end Sys2Proof.Machine
end

section
/-! Link agents (R370-R373, R380): what a port holds after a write, flits that leave, a link that goes down,
reservations and reserved flits. -/

namespace Sys2Proof.Machine

open Sys2Proof

/-! ### Ports and flit credits (R371) -/

@[simp] theorem portOf_setPort_same (s : State) (p : Nat) (x : Port) : portOf (setPort s p x) p = x :=
  tget_tput_same _ _ _ _

theorem portOf_congr {s t : State} (h : t.lnk.ports = s.lnk.ports) (p : Nat) : portOf t p = portOf s p := by
  rw [portOf, h, portOf]

/-- `t` differs from `s` at most in PSM. -/
def PsmFrame (s t : State) : Prop := t = { s with psm := t.psm }

theorem psmFrame_chargeBytes (s : State) (c n : Nat) : PsmFrame s (chargeBytes s c n) := by
  unfold chargeBytes
  exact modTally_frame _ _ _

theorem PsmFrame.lnk {s t : State} (h : PsmFrame s t) : t.lnk = s.lnk := by
  rw [PsmFrame] at h
  rw [h]

/-- `t` differs from `s` at most in ports, and of port `p` in its credits alone. -/
structure PortCredits (p : Nat) (s t : State) : Prop where
  state : t = { s with lnk := { s.lnk with ports := t.lnk.ports } }
  port : portOf t p = { portOf s p with held := (portOf t p).held, pool := (portOf t p).pool }

theorem PortCredits.refl (p : Nat) (s : State) : PortCredits p s s := ⟨rfl, rfl⟩

theorem PortCredits.trans {p : Nat} {s t u : State} (hst : PortCredits p s t) (htu : PortCredits p t u) :
    PortCredits p s u where
  state := by
    have h := htu.state
    rw [hst.state] at h
    exact h
  port := by
    have h := htu.port
    rw [hst.port] at h
    exact h

theorem PortCredits.sent {p : Nat} {s t : State} (h : PortCredits p s t) : t.lnk.sent = s.lnk.sent := by
  rw [h.state]

theorem portOf_giveFlits (s : State) (p c own pool : Nat) : portOf (giveFlits s p c own pool) p =
    { portOf s p with
      held := tput (portOf s p).held c (tget 0 (portOf s p).held c - own)
      pool := (portOf s p).pool - pool } :=
  portOf_setPort_same _ _ _

theorem portCredits_giveFlits (s : State) (p c own pool : Nat) : PortCredits p s (giveFlits s p c own pool) where
  state := rfl
  port := by rw [portOf_giveFlits]

theorem flitGone_of_lane0 {f : Flit} (hlane : f.lane = 0) (s : State) (p : Nat) : flitGone s p f = s := by
  unfold flitGone
  split
  · exact if_pos hlane
  · rfl

theorem flitGone_of_owner {f : Flit} {c : Nat} (hlane : f.lane ≠ 0) (howner : f.owner = some c) (s : State) (p : Nat) :
    flitGone s p f = giveFlits s p c (b2n (!f.pool)) (b2n f.pool) := by
  simp [flitGone, howner, hlane]

theorem portCredits_flitGone (s : State) (p : Nat) (f : Flit) : PortCredits p s (flitGone s p f) := by
  unfold flitGone
  split
  · split
    · exact .refl p s
    · exact portCredits_giveFlits s p _ _ _
  · exact .refl p s

/-! ### FLIT_SEND (R371) -/

/-- A flit counted and placed on its licensee link. -/
def flitOnLink (s : State) (p : Fin 16) (f : Flit) : State :=
  let t := addReg s (0xB00104 + p * 0x10) 1
  { t with lnk := { t.lnk with sent := t.lnk.sent ++ [(p.val, f)] } }

/-- The bytes of a flit charged to the context for which it is sent, if there is one (R546). -/
def flitCharged (s : State) (f : Flit) : State :=
  match f.owner with
  | some c => chargeBytes s c 128
  | none => s

theorem psmFrame_flitCharged (s : State) (f : Flit) : PsmFrame s (flitCharged s f) := by
  unfold flitCharged
  split
  · exact psmFrame_chargeBytes _ _ _
  · rfl

theorem flitCharged_of_no_owner {f : Flit} (h : f.owner = none) (s : State) : flitCharged s f = s := by
  simp [flitCharged, h]

/-- A flit that has left its buffer: it stands on its link, its credit is back and its bytes are charged. -/
def flitSent (s : State) (p : Fin 16) (f : Flit) : State := flitCharged (flitGone (flitOnLink s p f) p f) f

theorem flitSent_of_lane0 {f : Flit} (hlane : f.lane = 0) (s : State) (p : Fin 16) :
    flitSent s p f = flitCharged (flitOnLink s p f) f := by
  rw [flitSent, flitGone_of_lane0 hlane]

theorem flitSent_of_no_owner {f : Flit} (h : f.owner = none) (s : State) (p : Fin 16) :
    flitSent s p f = flitOnLink s p f := by
  rw [flitSent, flitCharged_of_no_owner h, flitGone, h]

theorem flitSent_of_owner {f : Flit} {c : Nat} (h : f.owner = some c) (s : State) (p : Fin 16) :
    flitSent s p f = chargeBytes (flitGone (flitOnLink s p f) p f) c 128 := by
  rw [flitSent, flitCharged, h]

section
variable {s : State} {p : Fin 16} {f : Flit} {rest : List Flit} (hup : (portOf s p).up = true)
  (htest : portTested s p = false)
include hup htest

theorem exec_flitSend_of_out0 (hout : (portOf s p).out0 = f :: rest) :
    exec (.flitSend p) s = .next (flitSent (setPort s p (refill0 { portOf s p with out0 := rest })) p f) := by
  change execFlitSend p s = _
  rw [execFlitSend, if_neg (by simp [hup, htest]), hout]
  dsimp only
  split
  case h_1 c howner => rw [flitSent_of_owner howner]; rfl
  case h_2 howner => rw [flitSent_of_no_owner howner]; rfl

theorem exec_flitSend_of_out (hfirst : (portOf s p).out0 = []) (hout : (portOf s p).out = f :: rest) :
    exec (.flitSend p) s = .next (flitSent (setPort s p { portOf s p with out := rest }) p f) := by
  change execFlitSend p s = _
  rw [execFlitSend, if_neg (by simp [hup, htest])]
  dsimp only
  split
  case h_1 hout0 => exact absurd (hfirst.symm.trans hout0) (List.cons_ne_nil _ _).symm
  case h_2 hout' =>
    obtain ⟨rfl, rfl⟩ := List.cons.inj (hout.symm.trans hout')
    split
    case h_1 c howner => rw [flitSent_of_owner howner]; rfl
    case h_2 howner => rw [flitSent_of_no_owner howner]; rfl
  case h_3 hnone => exact absurd (hout.symm.trans hnone) (List.cons_ne_nil _ _)

end

theorem portOf_flitOnLink (s : State) (p : Fin 16) (f : Flit) (q : Nat) : portOf (flitOnLink s p f) q = portOf s q :=
  rfl

theorem sent_flitOnLink (s : State) (p : Fin 16) (f : Flit) :
    (flitOnLink s p f).lnk.sent = s.lnk.sent ++ [(p.val, f)] := rfl

section
variable {s : State} {p : Fin 16} {f : Flit} {x : Port}

theorem portOf_flitSent_of_lane0 (hlane : f.lane = 0) : portOf (flitSent (setPort s p x) p f) p = x := by
  rw [flitSent_of_lane0 hlane, portOf_congr (congrArg Lnk.ports (psmFrame_flitCharged _ _).lnk), portOf_flitOnLink,
    portOf_setPort_same]

theorem portOf_flitSent_of_owner {c : Nat} (hlane : f.lane ≠ 0) (howner : f.owner = some c) :
    portOf (flitSent (setPort s p x) p f) p =
      { x with held := tput x.held c (tget 0 x.held c - b2n (!f.pool)), pool := x.pool - b2n f.pool } := by
  rw [flitSent, portOf_congr (congrArg Lnk.ports (psmFrame_flitCharged _ _).lnk), flitGone_of_owner hlane howner,
    portOf_giveFlits, portOf_flitOnLink, portOf_setPort_same]

theorem sent_flitSent (s : State) (p : Fin 16) (f : Flit) :
    (flitSent s p f).lnk.sent = s.lnk.sent ++ [(p.val, f)] := by
  rw [flitSent, (psmFrame_flitCharged _ _).lnk, (portCredits_flitGone _ _ _).sent, sent_flitOnLink]

/-- A lane-0 flit that leaves touches LNK, registers and the charges alone. -/
theorem flitSent_frame_of_lane0 (hlane : f.lane = 0) (s : State) : flitSent s p f =
    { s with lnk := (flitSent s p f).lnk, regs := (flitSent s p f).regs, psm := (flitSent s p f).psm } := by
  rw [flitSent_of_lane0 hlane, psmFrame_flitCharged]
  rfl

end

/-! ### A link that goes down (R373) -/

/-- The outbound flits of a port whose link is down give their credits back. -/
def creditsBack (s : State) (p : Nat) : State :=
  (portOf s p).out.foldl (fun s f => flitGone s p f) (setPort s p { portOf s p with up := false })

/-- The port of a link that goes down: its buffers are empty, but for the lane-0 flits that waited for places. -/
def portDown (s : State) (p : Nat) : State :=
  setPort (creditsBack s p) p (refill0 { portOf (creditsBack s p) p with out0 := [], out := [] })

/-- What a port has lost is counted and flagged. -/
def portLossNoted (s : State) (p n : Nat) : State := setRegBit (addReg s (0xB0010C + p * 0x10) n) 0xB00000 31 true

theorem exec_linkUpFall_of_up {s : State} {p : Fin 16} (hup : (portOf s p).up = true) :
    exec (.linkUpFall p) s = .next (record
      (portLossNoted (portDown s p) p ((portOf s p).out0.length + (portOf s p).out.length)) 2 0x15 0x50 none p
      ((portOf s p).out0.length + (portOf s p).out.length)) := by
  change execLinkUpFall p s = _
  simp only [execLinkUpFall, hup, if_true, dropPort, portOf_setPort_same]
  rfl

theorem portCredits_creditsBack (s : State) (p : Nat) :
    PortCredits p (setPort s p { portOf s p with up := false }) (creditsBack s p) :=
  List.foldlRecOn _ _ (.refl p _) fun t ht f _ => ht.trans (portCredits_flitGone t p f)

theorem portOf_creditsBack (s : State) (p : Nat) : portOf (creditsBack s p) p =
    { portOf s p with up := false, held := (portOf (creditsBack s p) p).held
                      pool := (portOf (creditsBack s p) p).pool } := by
  have h := (portCredits_creditsBack s p).port
  rw [portOf_setPort_same] at h
  exact h

theorem portDown_state (s : State) (p : Nat) : portDown s p =
    { s with lnk := { s.lnk with ports := (portDown s p).lnk.ports } } := by
  have h := (portCredits_creditsBack s p).state
  rw [portDown, h]
  rfl

theorem portOf_portDown (s : State) (p : Nat) : (portOf (portDown s p) p).up = false ∧
    (portOf (portDown s p) p).out0 = (portOf s p).wait0.take 256 ∧ (portOf (portDown s p) p).out = [] := by
  rw [portDown, portOf_setPort_same, portOf_creditsBack]
  exact ⟨rfl, rfl, rfl⟩

theorem linkUpFall_drops {s : State} {p : Fin 16} (hup : (portOf s p).up = true) (hroom : s.saf.recQ.length < 32) :
    ∃ t, exec (.linkUpFall p) s = .next t ∧ (portOf t p).up = false ∧
      (portOf t p).out0 = (portOf s p).wait0.take 256 ∧ (portOf t p).out = [] ∧ regBit t 0xB00000 31 = true ∧
      t.lnk.sent = s.lnk.sent ∧ t.saf.recQ.length = s.saf.recQ.length + 1 := by
  have hstate := portDown_state s p
  have hsaf : (portDown s p).saf = s.saf := by rw [hstate]
  have hsent : (portDown s p).lnk.sent = s.lnk.sent := by rw [hstate]
  obtain ⟨hdown, hout0, hout⟩ := portOf_portDown s p
  refine ⟨_, exec_linkUpFall_of_up hup, ?_⟩
  have hroom' : (portLossNoted (portDown s p) p
      ((portOf s p).out0.length + (portOf s p).out.length)).saf.recQ.length < 32 := by
    simpa [portLossNoted, hsaf] using hroom
  rw [record_of_room hroom']
  exact ⟨hdown, hout0, hout, regBit_setRegBit_same _ _ _ _ (by decide), hsent, by simp [portLossNoted, hsaf]⟩

/-! ### Reservations (R380) -/

theorem exec_lnkCtxResWrite_of_room {s : State} {c : Fin 64} {w : Word}
    (hroom : resSum s - ctxRes s c + fld w.toNat 10 0 ≤ 1024) :
    exec (.lnkCtxResWrite c w) s = .next (setReg s (0xB01000 + 4 * c) (fld w.toNat 10 0)) :=
  if_neg (Nat.not_lt.mpr hroom)

theorem exec_lnkCtxResWrite_of_excess {s : State} {c : Fin 64} {w : Word}
    (hexcess : 1024 < resSum s - ctxRes s c + fld w.toNat 10 0) :
    exec (.lnkCtxResWrite c w) s = .next (setRegBit s 0xB00000 30 true) :=
  if_pos hexcess

theorem ctxRes_setReg_same (s : State) (c w : Nat) :
    ctxRes (setReg s (0xB01000 + 4 * c) (fld w 10 0)) c = fld w 10 0 := by
  have hlt := fld_lt w 10 0
  rw [ctxRes, regFld, reg_setReg_same, Nat.mod_eq_of_lt (by omega), fld, Nat.pow_zero, Nat.div_one,
    Nat.mod_eq_of_lt hlt]

theorem ctxRes_setReg_ne (s : State) {o d : Nat} (v : Nat) (h : 0xB01000 + 4 * d ≠ o) :
    ctxRes (setReg s o v) d = ctxRes s d := by
  rw [ctxRes, regFld, reg_setReg_ne _ _ h]
  rfl

/-! ### Reserved flits (R370) -/

theorem exec_reservedKindFlit (s : State) (p : Fin 16) : exec (.reservedKindFlit p) s =
    .next (addReg (addReg s (0xB00108 + p * 0x10) 1) (0xB0010C + p * 0x10) 1) := rfl

/-- Settles O35: the two buffers of a port, the fall and the rise of its link, a reservation that fits and one that does
not, and a reserved flit. -/
theorem linkAgents : Obligations.LinkAgents := by
  unfold Obligations.LinkAgents
  refine ⟨fun s p f rest hup htest hout hlane => ?_, fun s p f rest c hup htest hfirst hout hlane howner => ?_,
    fun s p hup hroom => linkUpFall_drops hup hroom, fun s p => rfl, fun s c w hroom => ?_,
    fun s c w hexcess => ?_, fun s p => ?_⟩
  · have hport : portOf (flitSent (setPort s p (refill0 { portOf s p with out0 := rest })) p f) p = _ :=
      portOf_flitSent_of_lane0 hlane
    refine ⟨_, exec_flitSend_of_out0 hup htest hout, sent_flitSent _ p f, (congrArg Port.out hport).trans rfl,
      fun hnone => ?_, fun hnone => ?_, flitSent_frame_of_lane0 hlane _⟩
    · refine (congrArg Port.out0 hport).trans ?_
      simp [refill0, hnone]
    · rw [flitSent_of_lane0 hlane, flitCharged_of_no_owner hnone]
      rfl
  · have hport : portOf (flitSent (setPort s p { portOf s p with out := rest }) p f) p = _ :=
      portOf_flitSent_of_owner hlane howner
    refine ⟨_, exec_flitSend_of_out hup htest hfirst hout, sent_flitSent _ p f, congrArg Port.out hport,
      fun hpool => (congrArg Port.pool hport).trans ?_⟩
    rw [hpool]
    rfl
  · exact ⟨_, exec_lnkCtxResWrite_of_room hroom, ctxRes_setReg_same s c w.toNat,
      fun d hd => ctxRes_setReg_ne s _ (by omega), rfl⟩
  · exact ⟨_, exec_lnkCtxResWrite_of_excess hexcess, fun d => ctxRes_setReg_ne s _ (by omega),
      regBit_setRegBit_same _ _ _ _ (by decide)⟩
  · refine ⟨_, exec_reservedKindFlit s p, ?_, ?_, rfl⟩
    · rw [reg_addReg_same, reg_addReg_ne _ _ (by omega)]
    · rw [reg_addReg_ne _ _ (by omega), reg_addReg_same]

end Sys2Proof.Machine
end

section
/-! Message channels (R349, R352, R355-R362): what a channel reads after a write, record assignments, arrivals, notices,
returned units and decants. -/

namespace Sys2Proof.Machine

open Sys2Proof

/-! ### Channels -/

@[simp] theorem chanOf_setChan_same (s : State) (k : Nat) (x : Chan) : chanOf (setChan s k x) k = some x :=
  tget?_tput_same s.chn.chans k x

theorem chanOf_congr {s t : State} (h : t.chn = s.chn) (k : Nat) : chanOf t k = chanOf s k := by
  rw [chanOf, h, chanOf]

theorem mem_of_tget? {α : Type} {t : Table α} {k : Nat} {a : α} (h : tget? t k = some a) : (k, a) ∈ t := by
  induction t with
  | nil => exact absurd h (by simp [tget?])
  | cons e t ih =>
    obtain ⟨j, b⟩ := e
    rw [tget?] at h
    split at h
    case isTrue hj =>
      obtain rfl := Option.some.inj h
      exact hj ▸ List.mem_cons_self
    case isFalse => exact List.mem_cons_of_mem _ (ih h)

/-! ### RECORD_ASSIGN (R359) -/

/-- Record `x` of channel `k` given to handler `h` (R359). -/
def recordGiven (s : State) (k : Nat) (ch : Chan) (x : RingRec) (h : Nat) : State :=
  setChan s k { ch with
    recs := modWhere (fun y : RingRec => y.serial == x.serial) (fun y => { y with handler := some h }) ch.recs }

theorem exec_recordAssign_of_next {s : State} {k i h : Nat} {x : RingRec} {ch : Chan}
    (hnext : nextAssign s = some (k, x, i, h)) (hchan : chanOf s k = some ch) :
    exec .recordAssign s = .next (pushReady (recordGiven s k ch x h)
      (readyEntry (recordGiven s k ch x h) i ch.ctx h none (some x.serial))) := by
  change execRecordAssign s = _
  simp only [execRecordAssign, hnext, hchan, recordGiven]

/-! ### SEND_CREDIT_GRANT (R349, R369) -/

theorem exec_sendCreditGrant_of_grant {s t : State} (hgrant : grantAny s = some t) :
    exec .sendCreditGrant s = .next (settle t) := by
  change execSendCreditGrant s = _
  rw [execSendCreditGrant, hgrant]

theorem exec_sendCreditGrant_of_sum {s t : State} (hnone : grantAny s = none) (hsum : sendSum s = some t) :
    exec .sendCreditGrant s = .next t := by
  change execSendCreditGrant s = _
  rw [execSendCreditGrant, hnone, hsum, Option.getD_some]

/-! ### MSG (R352, R356) -/

theorem exec_msg_of_no_channel {s : State} {key : BitVec 16} (hnone : keyChan s key.toNat = none) (p : Fin 16)
    (chip : Fin 4096) (epoch : Word) (item : List Byte) : exec (.msg p chip key epoch item) s = .next (sendLane0
      (refuseArrival (countRx s p (flitCount item.length)) none key.toNat 1 (leAt item 0 2) chip)
      { dest := chip, lane := 0, kind := 3, key := key.toNat
        body := leBytes 4 (leAt item 0 2) ++ leBytes 108 0 }) := by
  have hnone' : keyChan (countRx s p (flitCount item.length)) key.toNat = none := hnone
  change execMsg p chip key epoch item s = _
  simp only [execMsg, hnone', Option.bind_none, Option.map_none]

/-- A message that its channel can hold is written, with its units taken from the remote credit. -/
theorem exec_msg_of_room {s t : State} {p : Fin 16} {chip : Fin 4096} {key : BitVec 16} {item : List Byte} {k : Nat}
    {ch : Chan} (hkey : keyChan s key.toNat = some k) (hchan : chanOf s k = some ch) (hopen : ch.isOpen = true)
    (hmax : leAt item 0 2 ≤ ch.maxUnits) (hroom : (leAt item 0 2 : Int) ≤ ch.remoteFree) (hepoch : ch.epoch < 2 ^ 32)
    (hwrite : writeRec (setChan (countRx s p (flitCount item.length)) k
        { ch with remoteFree := ch.remoteFree - leAt item 0 2 }) k (leAt item 0 2) 1 (leAt item 4 4)
      (leAt item 8 2) 1 chip ((item.drop 16).take (leAt item 0 2 * 64 - 16)) = (t, true)) :
    exec (.msg p chip key (BitVec.ofNat 32 ch.epoch) item) s = .next t := by
  have hkey' : keyChan (countRx s p (flitCount item.length)) key.toNat = some k := hkey
  have hchan' : chanOf (countRx s p (flitCount item.length)) k = some ch := hchan
  have hsame : ch.epoch = (BitVec.ofNat 32 ch.epoch).toNat := by rw [BitVec.toNat_ofNat, Nat.mod_eq_of_lt hepoch]
  change execMsg p chip key _ item s = _
  simp only [execMsg, hkey', Option.bind_some, hchan']
  rw [if_neg (by simp [hopen]), if_neg (not_not_intro hsame), if_neg (Nat.not_lt.mpr hmax),
    if_neg (Int.not_lt.mpr hroom), hwrite]

/-! ### EPOCH_NOTICE (R356) -/

/-- Whether a channel record sends to a chip and a key there. -/
def Chan.leadsTo (x : Chan) (chip key : Nat) : Bool := x.kind == 2 && x.dest == chip && x.key == key

theorem Chan.leadsTo_iff {x : Chan} {chip key : Nat} :
    x.leadsTo chip key = true ↔ x.kind = 2 ∧ x.dest = chip ∧ x.key = key := by
  simp [leadsTo, and_assoc]

/-- A channel record after a notice: one that leads to its chip and key takes its epoch and state. -/
def Chan.noticed (x : Chan) (chip key epoch : Nat) (isOpen : Bool) : Chan :=
  if x.leadsTo chip key then { x with epoch := epoch, isOpen := isOpen } else x

/-- The state in which the channel records have taken a notice. -/
def epochNoticed (s : State) (chip key epoch : Nat) (isOpen : Bool) : State :=
  { s with chn := { s.chn with chans := tmap (fun _ x => x.noticed chip key epoch isOpen) s.chn.chans } }

theorem exec_epochNotice (s : State) (p : Fin 16) (chip : Fin 4096) (key : BitVec 16) (epoch : Word) (isOpen : Bool) :
    exec (.epochNotice p chip key epoch isOpen) s =
      .next (epochNoticed (countRx s p 1) chip key.toNat epoch.toNat isOpen) := rfl

theorem chanOf_epochNoticed {s : State} {k : Nat} {x : Chan} (h : chanOf s k = some x) (chip key epoch : Nat)
    (isOpen : Bool) : chanOf (epochNoticed s chip key epoch isOpen) k = some (x.noticed chip key epoch isOpen) := by
  rw [chanOf] at h
  rw [chanOf, epochNoticed, tget?_tmap, h, Option.map_some]

/-! ### REMOTE_CREDIT (R352, R369) -/

/-- Whether a queue sends its contributions or its sum to a chip and a key there. -/
def BlendQ.leadsTo (q : BlendQ) (chip key : Nat) : Bool :=
  (brOrder q.record == 3 || brNext q.record) && brDest q.record == chip && brDestKey q.record == key

theorem BlendQ.leadsTo_iff {q : BlendQ} {chip key : Nat} : q.leadsTo chip key = true ↔
    (brOrder q.record = 3 ∨ brNext q.record = true) ∧ brDest q.record = chip ∧ brDestKey q.record = key := by
  simp [leadsTo, and_assoc]

section
variable {α : Type} {t : Table α} {leads owes : α → Bool}

/-- The records among which the one that takes units back is chosen (log entry 40). -/
def payees (t : Table α) (leads owes : α → Bool) : Table α :=
  if ((t.filter fun e => leads e.2).filter fun e => owes e.2).isEmpty then t.filter fun e => leads e.2
  else (t.filter fun e => leads e.2).filter fun e => owes e.2

theorem leads_of_mem_payees {e : Nat × α} (h : e ∈ payees t leads owes) : e ∈ t ∧ leads e.2 = true := by
  unfold payees at h
  split at h
  · exact List.mem_filter.mp h
  · exact List.mem_filter.mp (List.mem_filter.mp h).1

theorem not_leads_of_payees_nil (h : payees t leads owes = []) : ∀ e ∈ t, leads e.2 = false := by
  unfold payees at h
  split at h
  case isTrue => exact fun e he => by simpa using List.filter_eq_nil_iff.mp h e he
  case isFalse hdue => exact absurd (List.isEmpty_iff.mpr h) hdue

/-- The units go to nobody where no record leads to the key and chip, and else to one that does; the choice may take a
draw. -/
theorem payee_cases (s : State) (t : Table α) (leads owes : α → Bool) :
    ((∀ e ∈ t, leads e.2 = false) ∧ payee s t leads owes = (none, s)) ∨
      ∃ e n, e ∈ t ∧ leads e.2 = true ∧ payee s t leads owes = (some e, { s with fresh := n }) := by
  have hmem : ∀ e ∈ payees t leads owes, e ∈ t ∧ leads e.2 = true := fun _ => leads_of_mem_payees
  have hnil := not_leads_of_payees_nil (t := t) (leads := leads) (owes := owes)
  rw [payee, show (if (List.filter (fun e => owes e.2) (List.filter (fun e => leads e.2) t)).isEmpty = true then
    List.filter (fun e => leads e.2) t else _) = payees t leads owes from rfl]
  generalize payees t leads owes = l at *
  match l with
  | [] => exact .inl ⟨hnil rfl, rfl⟩
  | [e] =>
    obtain ⟨hin, hleads⟩ := hmem e List.mem_cons_self
    exact .inr ⟨e, s.fresh, hin, hleads, rfl⟩
  | a :: b :: rest =>
    have hlt : Config.freeBelow s.fresh (a :: b :: rest).length < (a :: b :: rest).length := by
      rw [Config.freeBelow, if_neg (by simp)]
      exact Nat.mod_lt _ (by simp)
    obtain ⟨hin, hleads⟩ := hmem _ (List.getElem_mem hlt)
    exact .inr ⟨_, s.fresh + 1, hin, hleads, congrArg (·, _) (List.getElem?_eq_getElem hlt)⟩

end

section
variable (s : State) (p : Fin 16) (chip : Fin 4096) (key : BitVec 16) (units : Word)

/-- Units for sends find no record of their key and chip, or go to one. -/
theorem exec_remoteCredit_send_cases :
    ((∀ e ∈ s.chn.chans, e.2.leadsTo chip key.toNat = false) ∧
      exec (.remoteCredit p chip key units false) s = .next (countRx s p 1)) ∨
    ∃ j y n, (j, y) ∈ s.chn.chans ∧ y.leadsTo chip key.toNat = true ∧
      exec (.remoteCredit p chip key units false) s = .next (setChan { countRx s p 1 with fresh := n } j
        { y with remoteFree := y.remoteFree + units.toNat }) := by
  change (_ ∧ execRemoteCredit p chip key units false s = _) ∨ ∃ j y n, _ ∧ _ ∧
    execRemoteCredit p chip key units false s = _
  obtain ⟨hnone, hpayee⟩ | ⟨⟨j, y⟩, n, hmem, hleads, hpayee⟩ := payee_cases (countRx s p 1) (countRx s p 1).chn.chans
    (fun x => x.leadsTo chip key.toNat) fun x => decide (x.remoteFree + units.toNat ≤ x.remoteUnits)
  · refine .inl ⟨hnone, ?_⟩
    unfold Chan.leadsTo at hpayee
    rw [execRemoteCredit, if_neg Bool.false_ne_true]
    dsimp only
    rw [hpayee]
  · refine .inr ⟨j, y, n, hmem, hleads, ?_⟩
    unfold Chan.leadsTo at hpayee
    rw [execRemoteCredit, if_neg Bool.false_ne_true]
    dsimp only
    rw [hpayee]

/-- Units for queues find no record of their key and chip, or go to one. -/
theorem exec_remoteCredit_queue_cases :
    ((∀ e ∈ s.blq.qs, e.2.leadsTo chip key.toNat = false) ∧
      exec (.remoteCredit p chip key units true) s = .next (countRx s p 1)) ∨
    ∃ j y n, (j, y) ∈ s.blq.qs ∧ y.leadsTo chip key.toNat = true ∧
      exec (.remoteCredit p chip key units true) s = .next (setBq { countRx s p 1 with fresh := n } j
        { y with xfree := y.xfree + units.toNat }) := by
  change (_ ∧ execRemoteCredit p chip key units true s = _) ∨ ∃ j y n, _ ∧ _ ∧
    execRemoteCredit p chip key units true s = _
  obtain ⟨hnone, hpayee⟩ | ⟨⟨j, y⟩, n, hmem, hleads, hpayee⟩ := payee_cases (countRx s p 1) (countRx s p 1).blq.qs
    (fun q => q.leadsTo chip key.toNat) fun q => decide (q.xfree + units.toNat ≤ brXcredit q.record)
  · refine .inl ⟨hnone, ?_⟩
    unfold BlendQ.leadsTo at hpayee
    rw [execRemoteCredit, if_pos rfl]
    dsimp only
    rw [hpayee]
  · refine .inr ⟨j, y, n, hmem, hleads, ?_⟩
    unfold BlendQ.leadsTo at hpayee
    rw [execRemoteCredit, if_pos rfl]
    dsimp only
    rw [hpayee]

end

/-! ### CHAN_DECANT (R361, R362) -/

theorem finishSends_of_no_send {s : State} {k : Nat} (hnone : (s.disp.readyQ.any fun q => sendsTo s k q) = false)
    (fuel : Nat) : finishSends k fuel s = s := by
  cases fuel with
  | zero => rfl
  | succ fuel => rw [finishSends, hnone, if_neg Bool.false_ne_true]

/-- An empty ring gives nothing back: the channel has its next epoch, and is open or closed. -/
theorem decantChan_of_empty {s : State} {k : Nat} {ch : Chan} (hchan : chanOf s k = some ch) (hempty : ch.recs = [])
    (close : Bool) : decantChan s k close =
      (setChan s k { ch with epoch := nextEpoch ch.epoch, isOpen := !close }, 0) := by
  simp only [decantChan, hchan, hempty, List.filter_nil, List.length_nil, List.foldl_nil]

theorem complete_chn (s : State) (m : Cmd) (status detail result reruns : Nat) :
    (complete s m status detail result reruns).chn = s.chn := by
  rw [complete_keeps]

/-- Command `m` answered, with channel `k` as it stands after a decant that discarded no message. -/
def emptyDecanted (s : State) (rest : List Cmd) (m : Cmd) (k : Nat) (ch : Chan) : State :=
  completeOk (addReg (setChan (queueIs s rest) k ch) (chnCtx m.ctx + 0xC) 0) m 0

theorem chanOf_emptyDecanted (s : State) (rest : List Cmd) (m : Cmd) (k : Nat) (ch : Chan) :
    chanOf (emptyDecanted s rest m k ch) k = some ch := by
  rw [emptyDecanted, completeOk, chanOf_congr (complete_chn _ _ _ _ _ _), chanOf_congr (addReg_chn _ _ _),
    chanOf_setChan_same]

theorem answered_emptyDecanted {s : State} {m : Cmd} (hsafe : s.saf.safe = false) (hentry : bitAt m.flags 1 = false)
    (rest : List Cmd) (k : Nat) (ch : Chan) : answered s (emptyDecanted s rest m k ch) m 0 0 0 := by
  exact answered_complete (s := addReg (setChan (queueIs s rest) k ch) (chnCtx m.ctx + 0xC) 0) hsafe rfl
    (.inl hentry) 0 0 0

section
variable {s : State} {m : Cmd} {rest : List Cmd} {i k : Nat} {img : Img} {ch : Chan} (hnext : isNext s m rest 0x0300)
  (himgs : m.at 4 1 < 16) (hclose : m.at 5 1 < 2) (hzero : firstNonzero m.bytes 8 40 = none)
  (himg : findImg s m.ctx (m.at 4 1 % 16) = some (i, img)) (hstate : img.state = 1)
  (himgChan : imgChan s i (m.at 6 2) = some k) (hchan : chanOf s k = some ch) (hkind : ch.kind = 1)
  (hidle : stepOf s i = none) (hpending : img.pending = none)
include hnext himgs hclose hzero himg hstate himgChan hchan hkind hidle hpending

/-- A decant of a RECV channel of an idle image ends with how many messages it discarded. -/
theorem exec_chanDecant_of_idle : exec .chanDecant s = .next (completeOk
    (addReg (decantChan (finishSends k s.disp.readyQ.length (queueIs s rest)) k (bitAt (m.at 5 1) 0)).1
      (chnCtx m.ctx + 0xC) (decantChan (finishSends k s.disp.readyQ.length (queueIs s rest)) k (bitAt (m.at 5 1) 0)).2)
    m (decantChan (finishSends k s.disp.readyQ.length (queueIs s rest)) k (bitAt (m.at 5 1) 0)).2) := by
  have himgChan' : imgChan (queueIs s rest) i (m.at 6 2) = some k := himgChan
  have hchan' : chanOf (queueIs s rest) k = some ch := hchan
  change execChanDecant s = _
  rw [execChanDecant, popUnit_of_isNext hnext]
  simp only [if_neg (Nat.not_le.mpr himgs), if_neg (Nat.not_le.mpr hclose), hzero, findImg_queueIs, himg, hstate,
    ne_eq, not_true, if_false, himgChan', hchan', hkind, stepOf_queueIs, hidle, hpending, Option.isSome_none,
    Bool.or_self, Bool.false_eq_true]
  rfl

theorem exec_chanDecant_of_empty (hempty : ch.recs = [])
    (hnone : (s.disp.readyQ.any fun q => sendsTo s k q) = false) : exec .chanDecant s = .next
      (emptyDecanted s rest m k { ch with epoch := nextEpoch ch.epoch, isOpen := !bitAt (m.at 5 1) 0 }) := by
  have hnone' : ((queueIs s rest).disp.readyQ.any fun q => sendsTo (queueIs s rest) k q) = false := hnone
  have hchan' : chanOf (queueIs s rest) k = some ch := hchan
  rw [exec_chanDecant_of_idle hnext himgs hclose hzero himg hstate himgChan hchan hkind hidle hpending,
    finishSends_of_no_send hnone', decantChan_of_empty hchan' hempty, emptyDecanted]

end

/-- Settles O33: an assignment, the two kinds of waiting for credit, a message without a channel and one with room, a
notice, returned units, and the decants of an empty ring and of any ring. -/
theorem channels : Obligations.Channels := by
  unfold Obligations.Channels
  refine ⟨fun s k i h x ch hnext hchan => ?_, fun s t => exec_sendCreditGrant_of_grant,
    fun s t => exec_sendCreditGrant_of_sum,
    fun s p chip key epoch item hnone => exec_msg_of_no_channel hnone p chip epoch item,
    fun s t p chip key item k ch => exec_msg_of_room, fun s p chip key epoch isOpen => ?_,
    fun s p chip key units => ?_, fun s p chip key units => ?_,
    fun s m rest i k img ch hnext himgs hclose hzero himg hstate himgChan hchan hkind hidle hpending hempty hnone hsafe
      hentry => ?_,
    fun s m rest i k img ch hnext himgs hclose hzero himg hstate himgChan hchan hkind hidle hpending => ?_⟩
  · exact ⟨_, exec_recordAssign_of_next hnext hchan, rfl, List.length_append, rfl⟩
  · have hnoticed := fun k x (hchan : chanOf (countRx s p 1) k = some x) =>
      chanOf_epochNoticed hchan chip key.toNat epoch.toNat isOpen
    refine ⟨_, exec_epochNotice s p chip key epoch isOpen, fun k x hchan hkind hdest hkey => ?_,
      fun k x hchan hother => ?_⟩
    · rw [hnoticed k x hchan, Chan.noticed, if_pos (Chan.leadsTo_iff.mpr ⟨hkind, hdest, hkey⟩)]
    · rw [hnoticed k x hchan, Chan.noticed, if_neg fun h => hother (Chan.leadsTo_iff.mp h)]
  · obtain ⟨hnone, hexec⟩ | ⟨j, y, n, hmem, hleads, hexec⟩ := exec_remoteCredit_send_cases s p chip key units
    · refine ⟨_, hexec, rfl, fun _ => rfl, fun k x hchan hkind hdest hkey => ?_⟩
      have hfalse := hnone _ (mem_of_tget? hchan)
      rw [Chan.leadsTo_iff.mpr ⟨hkind, hdest, hkey⟩] at hfalse
      exact absurd hfalse.symm Bool.false_ne_true
    · obtain ⟨hkind, hdest, hkey⟩ := Chan.leadsTo_iff.mp hleads
      exact ⟨_, hexec, rfl, fun hnone => absurd hleads (List.filter_eq_nil_iff.mp hnone _ hmem),
        fun _ _ _ _ _ _ => ⟨j, y, hmem, hkind, hdest, hkey, rfl⟩⟩
  · obtain ⟨hnone, hexec⟩ | ⟨j, y, n, hmem, hleads, hexec⟩ := exec_remoteCredit_queue_cases s p chip key units
    · refine ⟨_, hexec, rfl, fun k q hq hsends hdest hkey => ?_⟩
      have hfalse := hnone _ (mem_of_tget? hq)
      rw [BlendQ.leadsTo_iff.mpr ⟨hsends, hdest, hkey⟩] at hfalse
      exact absurd hfalse.symm Bool.false_ne_true
    · obtain ⟨hsends, hdest, hkey⟩ := BlendQ.leadsTo_iff.mp hleads
      exact ⟨_, hexec, rfl, fun _ _ _ _ _ _ => ⟨j, y, hmem, hsends, hdest, hkey, rfl⟩⟩
  · exact ⟨_, exec_chanDecant_of_empty hnext himgs hclose hzero himg hstate himgChan hchan hkind hidle hpending hempty
      hnone, answered_emptyDecanted hsafe hentry rest k _, chanOf_emptyDecanted s rest m k _⟩
  · exact ⟨_, _, _, exec_chanDecant_of_idle hnext himgs hclose hzero himg hstate himgChan hchan hkind hidle hpending,
      rfl, rfl⟩

end Sys2Proof.Machine
end

section
/-! Blend queues (R364-R369): what a queue reads after a write, contributions from other chips, intakes, node adds and
incoming sums. -/

namespace Sys2Proof.Machine

open Sys2Proof

/-! ### Queues -/

@[simp] theorem bqOf_setBq_same (s : State) (k : Nat) (q : BlendQ) : bqOf (setBq s k q) k = some q :=
  tget?_tput_same s.blq.qs k q

theorem bqOf_congr {s t : State} (h : t.blq = s.blq) (k : Nat) : bqOf t k = bqOf s k := by
  rw [bqOf, h, bqOf]

theorem keyBq_congr {s t : State} (h : t.blq = s.blq) (key : Nat) : keyBq t key = keyBq s key := by
  rw [keyBq, h, keyBq]

@[simp] theorem bqOf_countRx (s : State) (p n k : Nat) : bqOf (countRx s p n) k = bqOf s k := rfl

@[simp] theorem keyBq_countRx (s : State) (p n key : Nat) : keyBq (countRx s p n) key = keyBq s key := rfl

/-- Where the first entry of which `p` holds has key `k`, it has that key too once the value of `k` is replaced by one
of which `p` says the same; no order of the keys is assumed. -/
theorem find?_tput_fst {α : Type} {p : α → Bool} {t : Table α} {k : Nat} {a b : α}
    (hfind : (t.find? fun e => p e.2).map (fun e => e.1) = some k) (hget : tget? t k = some a) (hsame : p b = p a) :
    ((tput t k b).find? fun e => p e.2).map (fun e => e.1) = some k := by
  induction t with
  | nil => exact absurd hget (by simp [tget?])
  | cons e t ih =>
    obtain ⟨j, c⟩ := e
    rw [tput]
    split
    case isTrue hlt =>
      rw [tget?, if_neg (Nat.ne_of_lt hlt)] at hget
      cases hc : p c with
      | true => simpa [hc] using hfind
      | false => simpa [hc] using ih (by simpa [hc] using hfind) hget
    case isFalse =>
      split
      case isTrue hj =>
        subst hj
        obtain rfl : c = a := by simpa [tget?] using hget
        cases hb : p b with
        | true => simp [hb]
        | false => simpa [hb, ← hsame] using hfind
      case isFalse =>
        cases hb : p b with
        | true => simp [hb]
        | false => simpa only [List.find?_cons, hb] using hfind

/-- A queue that keeps its record keeps its key. -/
theorem keyBq_setBq {s : State} {key k : Nat} {q q' : BlendQ} (hkey : keyBq s key = some k) (hq : bqOf s k = some q)
    (hrecord : q'.record = q.record) : keyBq (setBq s k q') key = some k := by
  unfold keyBq at *
  split at hkey
  case isTrue => exact absurd hkey (by simp)
  case isFalse hne =>
    rw [if_neg hne]
    exact find?_tput_fst (p := fun q => brKey q.record == key) hkey hq (by rw [hrecord])

/-! ### What passes queues by -/

theorem sendLane0_frame (s : State) (f : Flit) :
    sendLane0 s f = { s with lnk := (sendLane0 s f).lnk, regs := (sendLane0 s f).regs } := by
  unfold sendLane0
  extract_lets f p x
  split <;> rfl

theorem sendLane0_blq (s : State) (f : Flit) : (sendLane0 s f).blq = s.blq := by
  rw [sendLane0_frame]

theorem returnBlend_blq (s : State) (key chip bytes : Nat) : (returnBlend s key chip bytes).blq = s.blq :=
  sendLane0_blq _ _

theorem returnBlend_mem (s : State) (key chip bytes : Nat) : (returnBlend s key chip bytes).mem = s.mem := by
  rw [returnBlend, sendLane0_frame]

theorem refuseContrib_blq (s : State) (c task queue slot reason vint : Nat) :
    (refuseContrib s c task queue slot reason vint).blq = s.blq := by
  rw [refuseContrib, (eventFrame_raiseEvent _ _ _ _ _ _ _).state]
  rfl

theorem chargeBytes_blq (s : State) (c n : Nat) : (chargeBytes s c n).blq = s.blq := by
  rw [psmFrame_chargeBytes]

theorem chargeBytes_mem (s : State) (c n : Nat) : (chargeBytes s c n).mem = s.mem := by
  rw [psmFrame_chargeBytes]

/-- Units that go back to a chip are charged to the context of the queue that their key names (R546). -/
theorem returnBlend_of_queue {s : State} {key k : Nat} {q : BlendQ} (hkey : keyBq s key = some k)
    (hq : bqOf s k = some q) (chip bytes : Nat) : returnBlend s key chip bytes = sendLane0 s
      { dest := chip, lane := 0, kind := 3, key := key, owner := some q.ctx
        body := leBytes 4 (itemUnits bytes) ++ leBytes 108 1 } := by
  rw [returnBlend, hkey, Option.bind_some, hq, Option.map_some]

theorem returnBlend_of_no_queue {s : State} {key : Nat} (hnone : keyBq s key = none) (chip bytes : Nat) :
    returnBlend s key chip bytes = sendLane0 s
      { dest := chip, lane := 0, kind := 3, key := key, body := leBytes 4 (itemUnits bytes) ++ leBytes 108 1 } := by
  rw [returnBlend, hnone, Option.bind_none, Option.map_none]

/-! ### BLEND (R364, R366, R370) -/

@[simp] theorem slotFault_countRx (s : State) (p n : Nat) (q : BlendQ) (slot task chip : Nat) :
    slotFault (countRx s p n) q slot task chip = slotFault s q slot task chip := by
  have hchip : chipId (countRx s p n) = chipId s := by rw [chipId, regFld, countRx, reg_addReg_ne _ _ (by omega)]; rfl
  rw [slotFault, hchip, slotFault]

/-- What a slot that belongs to a task of another chip says of an item from that chip: whether it is filled (R364). -/
theorem slotFault_of_remote {s : State} {q : BlendQ} {slot chip : Nat} (hslot : slot < brContrib q.record)
    (hremote : bitAt (slotEntry q slot) 29 = true) (hchip : fld (slotEntry q slot) 28 17 = chip) :
    slotFault s q slot (fld (slotEntry q slot) 16 0) chip = if q.filled.contains slot then some 3 else none := by
  simp [slotFault, hremote, hchip, Nat.not_le.mpr hslot]

/-- A contribution of another chip waits in its queue's intake. -/
def arrived (q : BlendQ) (slot chip : Nat) (item : List Byte) : BlendQ :=
  { q with filled := q.filled ++ [slot], inQ := q.inQ ++ [{ slot := slot, data := item, chip := some chip }] }

/-- A queue that has refused a contribution of another chip (R364). -/
def arrivalRefused (s : State) (k : Nat) (q : BlendQ) (slot reason : Nat) : State :=
  refuseContrib (setBq s k { q with refused := true }) q.ctx 0x1FFFF q.rel slot reason q.vint

section
variable {s : State} {chip : Fin 4096} {key : BitVec 16} {slot : Fin 4096} {item : List Byte}

theorem exec_blend_of_no_queue (hnone : keyBq s key.toNat = none) (p : Fin 16) :
    exec (.blend p chip key slot item) s = .next (sendLane0
      (dropArrival (setRegBit (addReg (countRx s p (flitCount item.length)) 0x60000C 1) 0x600000 31 true))
      { dest := chip, lane := 0, kind := 3, key := key.toNat
        body := leBytes 4 (itemUnits item.length) ++ leBytes 108 1 }) := by
  change execBlend p chip key slot item s = _
  simp only [execBlend, keyBq_countRx, hnone]
  exact congrArg Host.Outcome.next (returnBlend_of_no_queue (s := dropArrival
    (setRegBit (addReg (countRx s p (flitCount item.length)) 0x60000C 1) 0x600000 31 true)) hnone chip item.length)

variable {k : Nat} {q : BlendQ} (hkey : keyBq s key.toNat = some k) (hq : bqOf s k = some q)
include hkey hq

theorem exec_blend_of_fault {reason : Nat}
    (hfault : slotFault s q slot (fld (slotEntry q slot) 16 0) chip = some reason) (p : Fin 16) :
    exec (.blend p chip key slot item) s = .next (returnBlend
      (arrivalRefused (countRx s p (flitCount item.length)) k q slot reason) key.toNat chip item.length) := by
  change execBlend p chip key slot item s = _
  simp only [execBlend, keyBq_countRx, hkey, bqOf_countRx, hq, slotFault_countRx, hfault]
  rfl

theorem exec_blend_of_excess (hfault : slotFault s q slot (fld (slotEntry q slot) 16 0) chip = none)
    (hexcess : beyondGrant q key.toNat chip item.length = true) (p : Fin 16) :
    exec (.blend p chip key slot item) s = .next (returnBlend (dropArrival
      (arrivalRefused (countRx s p (flitCount item.length)) k q slot 5)) key.toNat chip item.length) := by
  change execBlend p chip key slot item s = _
  simp only [execBlend, keyBq_countRx, hkey, bqOf_countRx, hq, slotFault_countRx, hfault, hexcess, if_true]
  rfl

theorem exec_blend_of_grant (hfault : slotFault s q slot (fld (slotEntry q slot) 16 0) chip = none)
    (hgrant : beyondGrant q key.toNat chip item.length = false) (hlength : item.length = contribBytes q.record)
    (p : Fin 16) : exec (.blend p chip key slot item) s =
      .next (setBq (countRx s p (flitCount item.length)) k (arrived q slot chip item)) := by
  change execBlend p chip key slot item s = _
  simp only [execBlend, keyBq_countRx, hkey, bqOf_countRx, hq, slotFault_countRx, hfault, hgrant, Bool.false_eq_true,
    if_false, List.take_left' hlength]
  rfl

/-- The units of a refused contribution go back for its queue's context. -/
theorem returnBlend_arrivalRefused {t : State} (p reason : Nat)
    (ht : t.blq = (arrivalRefused (countRx s p (flitCount item.length)) k q slot reason).blq) :
    returnBlend t key.toNat chip item.length = sendLane0 t
      { dest := chip, lane := 0, kind := 3, key := key.toNat, owner := some q.ctx
        body := leBytes 4 (itemUnits item.length) ++ leBytes 108 1 } := by
  have hblq := ht.trans (refuseContrib_blq _ _ _ _ _ _ _)
  refine returnBlend_of_queue (k := k) (q := { q with refused := true }) ?_ ?_ _ _
  · rw [keyBq_congr hblq]
    exact keyBq_setBq hkey hq rfl
  · rw [bqOf_congr hblq, bqOf_setBq_same]

end

/-! ### Intakes (R365-R368) -/

/-- A queue that has taken in a contribution. -/
def takenIn (q : BlendQ) (c : Contrib) : BlendQ := { q with inQ := q.inQ.drop 1, taken := q.taken ++ [c.slot] }

/-- The state in which queue `k` has taken in a contribution of this chip, of which the data queue may have lost
something (R378). -/
def intakeBegun (s : State) (k : Nat) (q : BlendQ) (c : Contrib) (lost : Bool) : State :=
  chargeBytes (setBq (streamLoss s 0x600030 (b2n lost) 0x600000 28) k (takenIn q c)) q.ctx c.data.length

theorem intakeBegun_of_no_loss (s : State) (k : Nat) (q : BlendQ) (c : Contrib) :
    intakeBegun s k q c false = chargeBytes (setBq s k (takenIn q c)) q.ctx c.data.length := by
  rw [intakeBegun, b2n, if_neg Bool.false_ne_true, streamLoss_zero]

theorem intakeBegun_mem (s : State) (k : Nat) (q : BlendQ) (c : Contrib) (lost : Bool) :
    (intakeBegun s k q c lost).mem = s.mem := by
  rw [intakeBegun, chargeBytes_mem, setBq_mem, regsFrame_streamLoss]

/-- A contribution of value `v` in the sum of an ARRIVAL queue that has taken it in: the queue completes with the last
(R365, R366). -/
def arrivalAdded (s : State) (k : Nat) (q : BlendQ) (slot : Nat) (v : List Nat) : State :=
  let (s, sum) := match q.sum with
    | some x => (countElems s q, addLists q slot x v)
    | none => (s, v)
  if q.taken.length = brContrib q.record then
    completeQueue (setBq s k { q with sum := some sum }) k { q with sum := some sum } sum
  else setBq s k { q with sum := some sum }

section
variable {q : BlendQ} (s : State) (k slot : Nat) (v : List Nat)

theorem arrivalAdded_of_first (hsum : q.sum = none) (hmore : q.taken.length ≠ brContrib q.record) :
    arrivalAdded s k q slot v = setBq s k { q with sum := some v } := by
  rw [arrivalAdded, hsum]
  exact if_neg hmore

theorem arrivalAdded_of_only (hsum : q.sum = none) (hlast : q.taken.length = brContrib q.record) :
    arrivalAdded s k q slot v =
      completeQueue (setBq s k { q with sum := some v }) k { q with sum := some v } v := by
  rw [arrivalAdded, hsum]
  exact if_pos hlast

theorem arrivalAdded_of_later {x : List Nat} (hsum : q.sum = some x) (hmore : q.taken.length ≠ brContrib q.record) :
    arrivalAdded s k q slot v = setBq (countElems s q) k { q with sum := some (addLists q slot x v) } := by
  rw [arrivalAdded, hsum]
  exact if_neg hmore

end

theorem length_taken_takenIn (q : BlendQ) (c : Contrib) : (takenIn q c).taken.length = q.taken.length + 1 :=
  List.length_append

section
variable {s : State} {k : Nat} {q : BlendQ} {c : Contrib} (hnext : nextIntake s = some (k, q, c))
  (hlocal : c.chip = none) (lost : Bool)
include hnext hlocal

/-- What an intake of a contribution of this chip does, by the queue's order. -/
theorem exec_contributionIntake_of_local : exec (.contributionIntake lost) s =
    if inTree q then .next (finishTree
      (writeLeafVal (intakeBegun s k q c lost) k (takenIn q c) c.slot (convertIn q c.slot c.data)) k)
    else if brOrder q.record = 2 then .next (chainOn
      (writeLeafVal (intakeBegun s k q c lost) k (takenIn q c) c.slot (convertIn q c.slot c.data)) k)
    else .next (arrivalAdded (intakeBegun s k q c lost) k (takenIn q c) c.slot (convertIn q c.slot c.data)) := by
  change execContributionIntake s lost = _
  simp only [execContributionIntake, hnext, hlocal]
  rfl

theorem exec_contributionIntake_of_tree (htree : inTree q = true) :
    exec (.contributionIntake lost) s = .next (finishTree
      (writeLeafVal (intakeBegun s k q c lost) k (takenIn q c) c.slot (convertIn q c.slot c.data)) k) := by
  rw [exec_contributionIntake_of_local hnext hlocal, if_pos htree]

variable (htree : inTree q = false)
include htree

theorem exec_contributionIntake_of_chain (hchain : brOrder q.record = 2) :
    exec (.contributionIntake lost) s = .next (chainOn
      (writeLeafVal (intakeBegun s k q c lost) k (takenIn q c) c.slot (convertIn q c.slot c.data)) k) := by
  rw [exec_contributionIntake_of_local hnext hlocal, htree, if_neg Bool.false_ne_true, if_pos hchain]

theorem exec_contributionIntake_of_arrival (harrival : brOrder q.record ≠ 2) :
    exec (.contributionIntake lost) s =
      .next (arrivalAdded (intakeBegun s k q c lost) k (takenIn q c) c.slot (convertIn q c.slot c.data)) := by
  rw [exec_contributionIntake_of_local hnext hlocal, htree, if_neg Bool.false_ne_true, if_neg harrival]

end

theorem countElems_mem (s : State) (q : BlendQ) : (countElems s q).mem = s.mem :=
  chargeBytes_mem _ _ _

/-! ### TREE_ADD (R366) -/

theorem leafBlocked_of_no_area {q : BlendQ} (h : brLeaf q.record = 0) (s : State) (a : Nat) :
    leafBlocked s q a = false := by
  simp [leafBlocked, h]

theorem readLeaf_of_no_area {q : BlendQ} (h : brLeaf q.record = 0) (s : State) (a : Nat) :
    readLeaf s q a = (s, tget [] q.leaves a) :=
  if_pos h

theorem writeLeafVal_of_no_area {q : BlendQ} (h : brLeaf q.record = 0) (s : State) (k a : Nat) (l : List Nat) :
    writeLeafVal s k q a l = setBq s k { q with leaves := tput q.leaves a l } :=
  if_pos h

/-- A queue in which a node of the tree has been added. -/
def nodeAdded (q : BlendQ) (a lv : Nat) : BlendQ := { q with nodes := q.nodes ++ [(a, lv)] }

/-- A queue with the sum of the children of a node in the leaf of its first slot. -/
def nodeSummed (q : BlendQ) (a lv : Nat) : BlendQ :=
  { nodeAdded q a lv with leaves := tput q.leaves a (addLists (nodeAdded q a lv) (a + 2 ^ (lv - 1))
      (tget [] q.leaves a) (tget [] q.leaves (a + 2 ^ (lv - 1)))) }

/-- The only queue, in tree order and without a leaf area, adds its next node. -/
theorem exec_treeAdd_of_single {s : State} {k a lv : Nat} {q : BlendQ} (hqs : s.blq.qs = [(k, q)])
    (htree : inTree q = true) (hopen : q.complete = false) (hnode : nextNode q = some (a, lv))
    (hleaf : brLeaf q.record = 0) : exec .treeAdd s = .next (finishTree
      (setBq (setBq (countElems s q) k (nodeAdded q a lv)) k (nodeSummed q a lv)) k) := by
  have hleaf' : brLeaf (nodeAdded q a lv).record = 0 := hleaf
  change execTreeAdd s = _
  unfold execTreeAdd
  extract_lets work
  have hwork : work = some (k, q, a, lv) := by
    simp [work, hqs, htree, hopen, hnode, leafBlocked_of_no_area hleaf]
  rw [hwork]
  simp only [readLeaf_of_no_area hleaf]
  exact congrArg (fun t => Host.Outcome.next (finishTree t k)) (writeLeafVal_of_no_area hleaf' _ _ _ _)

theorem exec_treeAdd_of_no_queues {s : State} (h : s.blq.qs = []) : exec .treeAdd s = .next s := by
  change execTreeAdd s = _
  simp only [execTreeAdd, h, List.findSome?_nil, List.foldl_nil]

theorem exec_contributionIntake_of_no_queues {s : State} (h : s.blq.qs = []) (lost : Bool) :
    exec (.contributionIntake lost) s = .next s := by
  change execContributionIntake s lost = _
  simp only [execContributionIntake, nextIntake, h, List.findSome?_nil, List.foldl_nil]

/-- Leaf values have no part in which nodes have their values. -/
theorem nodeReady_leaves (q : BlendQ) (l : Table (List Nat)) (a k : Nat) :
    nodeReady { q with leaves := l } a k = nodeReady q a k := by
  induction k generalizing a with
  | zero => rfl
  | succ k ih => simp only [nodeReady, ih]

theorem rootReady_nodeSummed (q : BlendQ) (a lv : Nat) :
    rootReady (nodeSummed q a lv) = rootReady (nodeAdded q a lv) := by
  simp only [rootReady, nodeSummed, nodeReady_leaves]
  rfl

theorem finishTree_of_not_ready {s : State} {k : Nat} {q : BlendQ} (hq : bqOf s k = some q)
    (hroot : rootReady q = false) : finishTree s k = s := by
  simp [finishTree, hq, hroot]

/-! ### CHAIN (R366) -/

/-- A CHAIN queue without a slot that it could add next stands still. -/
theorem chainOn_of_absent {s : State} {k : Nat} {q : BlendQ} (hq : bqOf s k = some q) (hopen : q.complete = false)
    (hin : q.chainIn.isNone = false) (hpos : q.chainPos < brContrib q.record)
    (habsent : q.taken.contains q.chainPos = false) : chainOn s k = s := by
  have hgo : chainGo k (brContrib q.record + 2) s = s := by
    rw [chainGo, hq]
    dsimp only
    rw [if_neg (by simp [hopen, hin]), if_pos hpos, if_pos (by rw [habsent]; rfl)]
  simp [chainOn, hq, hgo]

section
variable {s : State} {key : BitVec 16} {k : Nat} {q : BlendQ} (hkey : keyBq s key.toNat = some k)
  (hq : bqOf s k = some q) (hchain : brOrder q.record = 2) (htakes : brChainIn q.record = true)
  (hnone : q.chainIn = none) (p : Fin 16) (chip : Fin 4096) (item : List Byte)
include hkey hq hchain htakes hnone

/-- A CHAIN queue that waits for its incoming sum takes it, and goes on. -/
theorem exec_chain_of_awaited : exec (.chain p chip key item) s = .next (chainOn (chargeBytes
    (setBq (returnBlend (countRx s p (flitCount item.length)) key.toNat chip item.length) k
      { q with chainIn := some (elemsOf (blendSize (brAcc q.record)) (brElems q.record)
        ((item ++ List.replicate (brElems q.record * blendSize (brAcc q.record)) 0).take
          (brElems q.record * blendSize (brAcc q.record)))) })
    q.ctx (brElems q.record * blendSize (brAcc q.record))) k) := by
  have hblq := returnBlend_blq (countRx s p (flitCount item.length)) key.toNat chip item.length
  have hkey' := (keyBq_congr hblq key.toNat).trans hkey
  have hq' := (bqOf_congr hblq k).trans hq
  change execChain p chip key item s = _
  rw [execChain]
  dsimp only
  rw [hkey']
  dsimp only
  rw [hq']
  exact if_pos (by simp [hchain, htakes, hnone])

theorem exec_chain_of_exact (hlength : item.length = brElems q.record * blendSize (brAcc q.record)) :
    exec (.chain p chip key item) s = .next (chainOn (chargeBytes
      (setBq (returnBlend (countRx s p (flitCount item.length)) key.toNat chip item.length) k
        { q with chainIn := some (elemsOf (blendSize (brAcc q.record)) (brElems q.record) item) })
      q.ctx item.length) k) := by
  rw [exec_chain_of_awaited hkey hq hchain htakes hnone, List.take_left' hlength, ← hlength]

end

/-- Settles O34: a contribution without a queue, a fresh one within and beyond its grant, a second one for its slot, a
first intake, queues that are not there, a node add below the root, and an incoming sum. -/
theorem blendQueues : Obligations.BlendQueues := by
  unfold Obligations.BlendQueues
  refine ⟨fun s p chip key slot item hnone => exec_blend_of_no_queue hnone p,
    fun s p chip key slot item k q hkey hq hslot hremote hchip hfree hlength => ?_,
    fun s p chip key slot item k q hkey hq hslot hremote hchip hfilled => ?_,
    fun s k q c lost hnext htree harrival hsum hlocal hmore => ?_,
    fun s h => ⟨exec_treeAdd_of_no_queues h, exec_contributionIntake_of_no_queues h⟩,
    fun s k q a lv hqs htree hopen hnode hleaf hroot => ?_,
    fun s p chip key item k q hkey hq hchain htakes hnone =>
      ⟨_, _, exec_chain_of_awaited hkey hq hchain htakes hnone p chip item, rfl, rfl⟩⟩
  · have hfault := slotFault_of_remote (s := s) hslot hremote hchip
    rw [hfree, if_neg Bool.false_ne_true] at hfault
    cases hgrant : beyondGrant q key.toNat chip item.length with
    | false =>
      exact ⟨_, exec_blend_of_grant hkey hq hfault hgrant hlength p, fun _ => ⟨bqOf_setBq_same _ _ _, rfl, rfl⟩,
        fun h => absurd h Bool.false_ne_true⟩
    | true =>
      exact ⟨_, exec_blend_of_excess hkey hq hfault hgrant p, fun h => absurd h.symm Bool.false_ne_true,
        fun _ => returnBlend_arrivalRefused hkey hq _ _ rfl⟩
  · have hfault := slotFault_of_remote (s := s) hslot hremote hchip
    rw [hfilled, if_pos rfl] at hfault
    rw [exec_blend_of_fault hkey hq hfault, returnBlend_arrivalRefused hkey hq _ _ rfl]
    rfl
  · refine ⟨_, exec_contributionIntake_of_arrival hnext hlocal lost htree harrival, ?_⟩
    rw [arrivalAdded_of_first (q := takenIn q c) _ _ _ _ hsum (by rw [length_taken_takenIn]; exact Nat.ne_of_lt hmore)]
    exact ⟨bqOf_setBq_same _ _ _, (setBq_mem _ _ _).trans (intakeBegun_mem _ _ _ _ _)⟩
  · refine ⟨_, exec_treeAdd_of_single hqs htree hopen hnode hleaf, ?_⟩
    rw [finishTree_of_not_ready (bqOf_setBq_same _ _ _) ((rootReady_nodeSummed q a lv).trans hroot)]
    exact ⟨bqOf_setBq_same _ _ _, by rw [setBq_mem, setBq_mem, countElems_mem]⟩

end Sys2Proof.Machine
end

section
/-! Translation requests that end with a frame (R465, R466), and what contributions, sums, intakes, node adds and
requests come to when nothing stands in their way. -/

namespace Sys2Proof.Machine

open Sys2Proof

/-- This build has more than 8 stacks, and so no parcel has a PART (R485). -/
theorem partOf_eq_zero (s : State) (c : Nat) : partOf s c = 0 := by
  simp [partOf, Config.memStacks]

section
variable {s : State} {f : Fin 8} {bits : BitVec 128} {r : Nat} {x : Run}
  (hreq : reqRun s f bits.toNat = some r) (hrun : runOf s r = some x)
include hreq hrun

/-- A request whose translation is a frame, and which takes no frame for it, is answered with it. -/
theorem exec_translationRequest_of_frame {pfn : Nat} {large writable prov : Bool} {t : State}
    (hneed : needsFrame s x (fld bits.toNat 53 22) (bitAt bits.toNat 21) = false)
    (hframe : translate s r x (fld bits.toNat 53 22) (bitAt bits.toNat 21) = .frame pfn large writable prov t) :
    exec (.translationRequest f bits false false) s = .next (settle (respond t f
      (respBits (fld bits.toNat 61 54) pfn large writable prov 0 (partOf s x.ctx)))) := by
  have hanswer : answerXlt s f r bits.toNat = respond t f
      (respBits (fld bits.toNat 61 54) pfn large writable prov 0 (partOf s x.ctx)) := by
    simp only [answerXlt, hrun, hframe, partOf_eq_zero]
  change execTranslationRequest f bits false s false = _
  simp only [execTranslationRequest, hreq, hrun, hneed, hanswer, Bool.and_false, Bool.false_eq_true, if_false]

end

section
variable {s : State} {x : Run} {page : Nat} {g : Region} (hregion : regionAt s x.ctx (page * 65536) = some g)
include hregion

theorem needsFrame_of_kv (hkind : g.kind = 1) (write : Bool) : needsFrame s x page write = false := by
  simp [needsFrame, hregion, hkind]

theorem needsFrame_of_mapped_stream (hkind : g.kind = 2) (write : Bool)
    (hmap : (mapOf s x.ctx (pageOf g (page * 65536))).isNone = false) : needsFrame s x page write = false := by
  simp [needsFrame, hregion, hkind, hmap]

theorem needsFrame_of_fresh (hkind : g.kind = 0) (write : Bool)
    (hfresh : (freshOf x (pageOf g (page * 65536))).isNone = false) : needsFrame s x page write = false := by
  simp [needsFrame, hregion, hkind, hfresh]

theorem needsFrame_of_plain_read (hkind : g.kind = 0) : needsFrame s x page false = false := by
  simp [needsFrame, hregion, hkind]

variable (hen : ctxEnabled s x.ctx = true) (r : Nat)
include hen

theorem translate_stream_of_mapped (hkind : g.kind = 2) {m : PageMap}
    (hmap : mapOf s x.ctx (pageOf g (page * 65536)) = some m) : translate s r x page false =
      .frame m.at_ m.large false false (markSeen (cacheIn s (pageKey x.ctx (pageOf g (page * 65536)))) r
        (pageOf g (page * 65536)) (some m.at_)) := by
  simp [translate, hregion, hen, hkind, hmap]

theorem translate_kv_of_mapped (hkind : g.kind = 1) (write : Bool) {m : PageMap}
    (hmap : mapOf s x.ctx (pageOf g (page * 65536)) = some m) (hres : m.res = 0) : translate s r x page write =
      .frame m.at_ m.large true false (cacheIn s (pageKey x.ctx (pageOf g (page * 65536)))) := by
  simp [translate, hregion, hen, hkind, hmap, hres]

theorem translate_plain_of_fresh (hkind : g.kind = 0) (write : Bool) {w : Fresh}
    (hfresh : freshOf x (pageOf g (page * 65536)) = some w) :
    translate s r x page write = .frame w.frame w.large true true s := by
  simp [translate, hregion, hen, hkind, hfresh]

variable (hkind : g.kind = 0) (hfresh : freshOf x (pageOf g (page * 65536)) = none)
  (hseen : seenOf x (pageOf g (page * 65536)) = none)
include hkind hfresh hseen

theorem translate_plain_of_mapped {m : PageMap} (hmap : mapOf s x.ctx (pageOf g (page * 65536)) = some m)
    (hres : m.res = 0) : translate s r x page false =
      .frame m.at_ g.large false false (cacheIn (markSeen s r (pageOf g (page * 65536)) (some m.at_))
        (pageKey x.ctx (pageOf g (page * 65536)))) := by
  simp [translate, hregion, hen, hkind, hfresh, hseen, hmap, committedFrame, hres]

theorem translate_plain_of_unmapped (hmap : mapOf s x.ctx (pageOf g (page * 65536)) = none) (hfill : g.fill = 0) :
    translate s r x page false =
      .frame (zeroFrameOf (markSeen s r (pageOf g (page * 65536)) none) x.field) g.large false false
        (addReg (markSeen s r (pageOf g (page * 65536)) none) 0x700024 1) := by
  simp [translate, hregion, hen, hkind, hfresh, hseen, hmap, committedFrame, hfill]

end

/-- Settles O38: the contribution, the sum, the four intakes, the node add and the five requests. -/
theorem intakesAndAnswersComplete : Obligations.IntakesAndAnswersComplete := by
  unfold Obligations.IntakesAndAnswersComplete
  refine ⟨fun s p chip key slot item k q hkey hq hfault hgrant hlength =>
      exec_blend_of_grant hkey hq hfault hgrant hlength p,
    fun s p chip key item k q v hkey hq hchain htakes hnone hlength hv => ?_,
    fun s k q c v hnext hlocal hv => ?_,
    fun s k q y a lv hqs htree hopen hnode hleaf hy => ?_,
    fun s f bits r n tag x g hreq hrun hregion hen hn htag => ?_⟩
  · subst hv
    have hexec := exec_chain_of_exact hkey hq hchain htakes hnone p chip item hlength
    refine ⟨⟨_, hexec, rfl⟩, fun hopen hpos habsent => ⟨_, hexec, ?_⟩⟩
    have hbq := (bqOf_congr (chargeBytes_blq (setBq (returnBlend (countRx s p (flitCount item.length)) key.toNat chip
      item.length) k _) q.ctx item.length) k).trans (bqOf_setBq_same _ k
        { q with chainIn := some (elemsOf (blendSize (brAcc q.record)) (brElems q.record) item) })
    rw [chainOn_of_absent hbq hopen rfl hpos habsent, chargeBytes_mem, setBq_mem, returnBlend_mem]
    exact ⟨hbq, rfl⟩
  · subst hv
    rw [← takenIn, ← intakeBegun_of_no_loss]
    refine ⟨fun htree => ?_, fun htree hchain => ?_, fun x htree harrival hsum hmore => ?_,
      fun htree harrival hsum hlast => ?_⟩
    · exact exec_contributionIntake_of_tree hnext hlocal false htree
    · exact exec_contributionIntake_of_chain hnext hlocal false htree hchain
    · refine ⟨_, exec_contributionIntake_of_arrival hnext hlocal false htree harrival, ?_⟩
      rw [arrivalAdded_of_later (q := takenIn q c) _ _ _ _ hsum (by rwa [length_taken_takenIn]), setBq_mem,
        countElems_mem, intakeBegun_mem]
      exact ⟨bqOf_setBq_same _ _ _, rfl⟩
    · rw [exec_contributionIntake_of_arrival hnext hlocal false htree harrival,
        arrivalAdded_of_only (q := takenIn q c) _ _ _ _ hsum (by rwa [length_taken_takenIn])]
      rfl
  · subst hy
    exact exec_treeAdd_of_single hqs htree hopen hnode hleaf
  · subst hn htag
    refine ⟨fun m hkind hread hmap => ?_, fun m hkind hmap hres => ?_, fun w hkind hfresh => ?_,
      fun m hkind hread hfresh hseen hmap hres => ?_, fun hkind hread hfresh hseen hmap hfill => ?_⟩
    · exact exec_translationRequest_of_frame hreq hrun
        (needsFrame_of_mapped_stream hregion hkind _ (by rw [hmap]; rfl))
        (hread ▸ translate_stream_of_mapped hregion hen r hkind hmap)
    · exact exec_translationRequest_of_frame hreq hrun (needsFrame_of_kv hregion hkind _)
        (translate_kv_of_mapped hregion hen r hkind _ hmap hres)
    · exact exec_translationRequest_of_frame hreq hrun
        (needsFrame_of_fresh hregion hkind _ (by rw [hfresh]; rfl))
        (translate_plain_of_fresh hregion hen r hkind _ hfresh)
    · exact exec_translationRequest_of_frame hreq hrun (hread ▸ needsFrame_of_plain_read hregion hkind)
        (hread ▸ translate_plain_of_mapped hregion hen r hkind hfresh hseen hmap hres)
    · exact exec_translationRequest_of_frame hreq hrun (hread ▸ needsFrame_of_plain_read hregion hkind)
        (hread ▸ translate_plain_of_unmapped hregion hen r hkind hfresh hseen hmap hfill)

end Sys2Proof.Machine
end

section
/-! What holds of every command and of every step: each command answers a next state, a step takes the front of the
queue, and reset leaves a safe state. -/

namespace Sys2Proof.Machine

open Sys2Proof

/-- The outcome is a next state, neither a fault nor a refusal. -/
def Answers (o : Host.Outcome State Fault Refusal) : Prop := ∃ t, o = .next t

theorem answers_next (t : State) : Answers (.next t) := ⟨t, rfl⟩

/-! ### The shapes that several commands share -/

theorem traceCtl_answers (a : Nat) (act : State → Cmd → State) (s : State) : Answers (traceCtl a act s) := by
  dsimp only [traceCtl]
  repeat' split
  all_goals exact answers_next _

theorem parcelSet_answers (mode : Nat → Bool) (s : State) : Answers (parcelSet mode s) := by
  dsimp only [parcelSet]
  repeat' split
  all_goals exact answers_next _

theorem memInstr_answers (s : State) (u op : Nat) (go : Nat → Run → Nat → Nat → Nat → State → MemRes (List RexWrite)) :
    Answers (memInstr s u op go) := by
  dsimp only [memInstr]
  repeat' split
  all_goals exact answers_next _

theorem queueInstr_answers (s : State) (u op : Nat) (go : Nat → Run → Nat → Nat → Nat → State → MemRes Unit) :
    Answers (queueInstr s u op go) := by
  dsimp only [queueInstr]
  repeat' split
  all_goals exact answers_next _

theorem effInstr_answers (s : State) (u op : Nat) (bad : Nat → Bool) (src : RexUnit → Run → Nat → Option Nat)
    (bits : Nat → Nat → Nat) : Answers (effInstr s u op bad src bits) := by
  dsimp only [effInstr]
  repeat' split
  all_goals exact answers_next _

theorem exeInstr_answers (s : State) (u op : Nat) (k : Uses) (bad : Nat → Bool)
    (go : State → Run → RexUnit → Nat → Rows → RexUnit) : Answers (exeInstr s u op k bad go) := by
  dsimp only [exeInstr]
  repeat' split
  all_goals exact answers_next _

theorem elemInstr_answers (s : State) (u op : Nat) (k : Uses) (ints rounds : Bool) (f : FV → FV → FV → FV) :
    Answers (elemInstr s u op k ints rounds f) := by
  rw [elemInstr]
  exact exeInstr_answers ..

/-! ### The commands, branch by branch -/

theorem execCoreRstNAssert_answers (s : State) : Answers (execCoreRstNAssert s) := by
  dsimp only [execCoreRstNAssert]
  repeat' split
  all_goals exact answers_next _

theorem execCoreRstNRelease_answers (s : State) : Answers (execCoreRstNRelease s) := by
  dsimp only [execCoreRstNRelease]
  repeat' split
  all_goals exact answers_next _

theorem execCellarResetRelease_answers (s : State) : Answers (execCellarResetRelease s) := by
  dsimp only [execCellarResetRelease]
  repeat' split
  all_goals exact answers_next _

theorem execCellarBistDone_answers (repairs : Nat) (bad : Option (Nat × Nat)) (s : State) :
    Answers (execCellarBistDone repairs bad s) := by
  dsimp only [execCellarBistDone]
  repeat' split
  all_goals exact answers_next _

theorem execKatDone_answers (ok : Bool) (s : State) : Answers (execKatDone ok s) := by
  dsimp only [execKatDone]
  repeat' split
  all_goals exact answers_next _

theorem execCoreBistDone_answers (f : Fin 8) (bad : List (Nat × Nat)) (s : State) :
    Answers (execCoreBistDone f bad s) := by
  dsimp only [execCoreBistDone]
  repeat' split
  all_goals exact answers_next _

theorem execFieldTrainingStart_answers (f : Fin 8) (s : State) : Answers (execFieldTrainingStart f s) := by
  dsimp only [execFieldTrainingStart]
  repeat' split
  all_goals exact answers_next _

theorem execFieldTrainingEnd_answers (f : Fin 8) (clkOk : Bool) (down up left : Nat) (s : State) (wordErr : Bool) :
    Answers (execFieldTrainingEnd f clkOk down up left s wordErr) := by
  dsimp only [execFieldTrainingEnd]
  repeat' split
  all_goals exact answers_next _

theorem execFieldLinkTrainingEnd_answers (n : Fin 7) (lanes : Nat) (s : State) :
    Answers (execFieldLinkTrainingEnd n lanes s) := by
  dsimp only [execFieldLinkTrainingEnd]
  repeat' split
  all_goals exact answers_next _

theorem execFldOffAck_answers (f : Fin 8) (s : State) : Answers (execFldOffAck f s) := by
  dsimp only [execFldOffAck]
  repeat' split
  all_goals exact answers_next _

theorem execFldOffReqFall_answers (f : Fin 8) (s : State) : Answers (execFldOffReqFall f s) := by
  dsimp only [execFldOffReqFall]
  repeat' split
  all_goals exact answers_next _

theorem execGateIdleExpiry_answers (core : Fin 4096) (s : State) : Answers (execGateIdleExpiry core s) := by
  dsimp only [execGateIdleExpiry]
  repeat' split
  all_goals exact answers_next _

theorem execGateAckFall_answers (core : Fin 4096) (s : State) : Answers (execGateAckFall core s) := by
  dsimp only [execGateAckFall]
  repeat' split
  all_goals exact answers_next _

theorem execCclkFreqCheck_answers (mhz : Nat) (s : State) : Answers (execCclkFreqCheck mhz s) := by
  dsimp only [execCclkFreqCheck]
  repeat' split
  all_goals exact answers_next _

theorem execGtbFrame_answers (bits : BitVec 96) (spaced : Bool) (s : State) :
    Answers (execGtbFrame bits spaced s) := by
  dsimp only [execGtbFrame]
  repeat' split
  all_goals exact answers_next _

theorem execRefLoss_answers (s : State) : Answers (execRefLoss s) := by
  dsimp only [execRefLoss]
  repeat' split
  all_goals exact answers_next _

theorem execGtbLocked_answers (s : State) : Answers (execGtbLocked s) := by
  dsimp only [execGtbLocked]
  repeat' split
  all_goals exact answers_next _

theorem execHoldExpired_answers (s : State) : Answers (execHoldExpired s) := by
  dsimp only [execHoldExpired]
  repeat' split
  all_goals exact answers_next _

theorem execSlewEnd_answers (s : State) : Answers (execSlewEnd s) := by
  dsimp only [execSlewEnd]
  repeat' split
  all_goals exact answers_next _

theorem execSqnDb_answers (c : Fin 64) (r : Fin 4) (v : Word) (mem : List (Nat × BitVec 8)) (s : State) :
    Answers (execSqnDb c r v mem s) := by
  dsimp only [execSqnDb]
  repeat' split
  all_goals exact answers_next _

theorem execCqDb_answers (c : Fin 64) (v : Word) (s : State) : Answers (execCqDb c v s) := by
  dsimp only [execCqDb]
  repeat' split
  all_goals exact answers_next _

theorem execEqDb_answers (c : Fin 64) (v : Word) (s : State) : Answers (execEqDb c v s) := by
  dsimp only [execEqDb]
  repeat' split
  all_goals exact answers_next _

theorem execDescriptorFetch_answers (s : State) : Answers (execDescriptorFetch s) := by
  dsimp only [execDescriptorFetch]
  repeat' split
  all_goals exact answers_next _

theorem execDescriptorReceived_answers (s : State) : Answers (execDescriptorReceived s) := by
  dsimp only [execDescriptorReceived]
  repeat' split
  all_goals exact answers_next _

theorem execRingFetchError_answers (s : State) : Answers (execRingFetchError s) := by
  dsimp only [execRingFetchError]
  repeat' split
  all_goals exact answers_next _

theorem execCauCheck_answers (s : State) : Answers (execCauCheck s) := by
  dsimp only [execCauCheck]
  repeat' split
  all_goals exact answers_next _

theorem execCompletionEntryWrite_answers (s : State) : Answers (execCompletionEntryWrite s) := by
  dsimp only [execCompletionEntryWrite]
  repeat' split
  all_goals exact answers_next _

theorem execHoldoffEnd_answers (c : Fin 64) (s : State) : Answers (execHoldoffEnd c s) := by
  dsimp only [execHoldoffEnd]
  repeat' split
  all_goals exact answers_next _

theorem execNop_answers (s : State) : Answers (execNop s) := by
  dsimp only [execNop]
  repeat' split
  all_goals exact answers_next _

theorem execGraphLoad_answers (readErr : Bool) (s : State) : Answers (execGraphLoad readErr s) := by
  dsimp only [execGraphLoad]
  repeat' split
  all_goals exact answers_next _

theorem execGraphLoadInstall_answers (err : Option Nat) (s : State) (lost : Nat) :
    Answers (execGraphLoadInstall err s lost) := by
  dsimp only [execGraphLoadInstall]
  repeat' split
  all_goals exact answers_next _

theorem execGraphLaunch_answers (s : State) : Answers (execGraphLaunch s) := by
  dsimp only [execGraphLaunch]
  repeat' split
  all_goals exact answers_next _

theorem execLaunchBegin_answers (s : State) : Answers (execLaunchBegin s) := by
  dsimp only [execLaunchBegin]
  repeat' split
  all_goals exact answers_next _

theorem execStepStart_answers (s : State) : Answers (execStepStart s) := by
  dsimp only [execStepStart]
  repeat' split
  all_goals exact answers_next _

theorem execSweepRow_answers (s : State) : Answers (execSweepRow s) := by
  dsimp only [execSweepRow]
  repeat' split
  all_goals exact answers_next _

theorem execGraphAbort_answers (s : State) : Answers (execGraphAbort s) := by
  dsimp only [execGraphAbort]
  repeat' split
  all_goals exact answers_next _

theorem execGraphUnload_answers (s : State) : Answers (execGraphUnload s) := by
  dsimp only [execGraphUnload]
  repeat' split
  all_goals exact answers_next _

theorem execUnloadZeroingDone_answers (s : State) : Answers (execUnloadZeroingDone s) := by
  dsimp only [execUnloadZeroingDone]
  repeat' split
  all_goals exact answers_next _

theorem execImageLoad_answers (s : State) : Answers (execImageLoad s) := by
  dsimp only [execImageLoad]
  repeat' split
  all_goals exact answers_next _

theorem execImageLoadDone_answers (c : Fin 64) (img : Fin 16) (err : Option Nat) (s : State) (lost : Nat) :
    Answers (execImageLoadDone c img err s lost) := by
  dsimp only [execImageLoadDone]
  repeat' split
  all_goals exact answers_next _

theorem execSyncDump_answers (s : State) : Answers (execSyncDump s) := by
  dsimp only [execSyncDump]
  repeat' split
  all_goals exact answers_next _

theorem execSyncDumpDone_answers (s : State) : Answers (execSyncDumpDone s) := by
  dsimp only [execSyncDumpDone]
  repeat' split
  all_goals exact answers_next _

theorem execSyncForce_answers (s : State) : Answers (execSyncForce s) := by
  dsimp only [execSyncForce]
  repeat' split
  all_goals exact answers_next _

theorem execChanDecant_answers (s : State) : Answers (execChanDecant s) := by
  dsimp only [execChanDecant]
  repeat' split
  all_goals exact answers_next _

theorem execServeOpen_answers (s : State) (readErr : Bool) : Answers (execServeOpen s readErr) := by
  dsimp only [execServeOpen]
  repeat' split
  all_goals exact answers_next _

theorem execServeClose_answers (s : State) : Answers (execServeClose s) := by
  dsimp only [execServeClose]
  repeat' split
  all_goals exact answers_next _

theorem execParcelInstall_answers (s : State) : Answers (execParcelInstall s) := by
  dsimp only [execParcelInstall]
  repeat' split
  all_goals exact answers_next _

theorem execShareSet_answers (s : State) : Answers (execShareSet s) := by
  dsimp only [execShareSet]
  repeat' split
  all_goals exact answers_next _

theorem execCtxSave_answers (s : State) : Answers (execCtxSave s) := by
  dsimp only [execCtxSave]
  repeat' split
  all_goals exact answers_next _

theorem execCtxRestore_answers (s : State) : Answers (execCtxRestore s) := by
  dsimp only [execCtxRestore]
  repeat' split
  all_goals exact answers_next _

theorem execModelSwitch_answers (s : State) : Answers (execModelSwitch s) := by
  dsimp only [execModelSwitch]
  repeat' split
  all_goals exact answers_next _

theorem execFwLoad_answers (s : State) : Answers (execFwLoad s) := by
  dsimp only [execFwLoad]
  repeat' split
  all_goals exact answers_next _

theorem execFwLoadDone_answers (err : Option Nat) (s : State) (lost : Nat) : Answers (execFwLoadDone err s lost) := by
  dsimp only [execFwLoadDone]
  repeat' split
  all_goals exact answers_next _

theorem execCalWrite_answers (s : State) : Answers (execCalWrite s) := by
  dsimp only [execCalWrite]
  repeat' split
  all_goals exact answers_next _

theorem execKeyLoad_answers (s : State) : Answers (execKeyLoad s) := by
  dsimp only [execKeyLoad]
  repeat' split
  all_goals exact answers_next _

theorem execKeyRetire_answers (s : State) : Answers (execKeyRetire s) := by
  dsimp only [execKeyRetire]
  repeat' split
  all_goals exact answers_next _

theorem execDbgWrite_answers (s : State) : Answers (execDbgWrite s) := by
  dsimp only [execDbgWrite]
  repeat' split
  all_goals exact answers_next _

theorem execDispatchSelect_answers (s : State) : Answers (execDispatchSelect s) := by
  dsimp only [execDispatchSelect]
  exact answers_next _

theorem execDispatchRecord_answers (f : Fin 8) (s : State) : Answers (execDispatchRecord f s) := by
  dsimp only [execDispatchRecord]
  repeat' split
  all_goals exact answers_next _

theorem execWithdraw_answers (f : Fin 8) (s : State) : Answers (execWithdraw f s) := by
  dsimp only [execWithdraw]
  repeat' split
  all_goals exact answers_next _

theorem execEndValid_answers (core : Fin 4096) (engine : Fin 8) (slot : Fin 4) (code : Fin 16)
    (mem : List (Nat × BitVec 8)) (s : State) (lost : Bool) :
    Answers (execEndValid core engine slot code mem s lost) := by
  dsimp only [execEndValid]
  repeat' split
  all_goals exact answers_next _

theorem execEffValid_answers (core : Fin 4096) (slot : Fin 4) (data : BitVec 128) (s : State) :
    Answers (execEffValid core slot data s) := by
  dsimp only [execEffValid]
  repeat' split
  all_goals exact answers_next _

theorem execEffectRecord_answers (f : Fin 8) (s : State) (full : Bool) : Answers (execEffectRecord f s full) := by
  dsimp only [execEffectRecord]
  repeat' split
  all_goals exact answers_next _

theorem execCompleteRecord_answers (f : Fin 8) (s : State) : Answers (execCompleteRecord f s) := by
  dsimp only [execCompleteRecord]
  repeat' split
  all_goals exact answers_next _

theorem execCommit_answers (s : State) (lost : Fin 8) : Answers (execCommit s lost) := by
  dsimp only [execCommit]
  repeat' split
  all_goals exact answers_next _

theorem execKillOrder_answers (f : Fin 8) (s : State) : Answers (execKillOrder f s) := by
  dsimp only [execKillOrder]
  repeat' split
  all_goals exact answers_next _

theorem execKillTimeout_answers (s : State) : Answers (execKillTimeout s) := by
  dsimp only [execKillTimeout]
  repeat' split
  all_goals exact answers_next _

theorem execWatchdog_answers (s : State) : Answers (execWatchdog s) := by
  dsimp only [execWatchdog]
  repeat' split
  all_goals exact answers_next _

theorem execTeardownEnd_answers (s : State) : Answers (execTeardownEnd s) := by
  dsimp only [execTeardownEnd]
  repeat' split
  all_goals exact answers_next _

theorem execDecrementApply_answers (bank : Fin 16) (s : State) : Answers (execDecrementApply bank s) := by
  dsimp only [execDecrementApply]
  repeat' split
  all_goals exact answers_next _

theorem execTmrInsert_answers (s : State) : Answers (execTmrInsert s) := by
  dsimp only [execTmrInsert]
  repeat' split
  all_goals exact answers_next _

theorem execTmrRelease_answers (s : State) : Answers (execTmrRelease s) := by
  dsimp only [execTmrRelease]
  repeat' split
  all_goals exact answers_next _

theorem execGateEvaluate_answers (stErr lossErr : Bool) (s : State) : Answers (execGateEvaluate stErr lossErr s) := by
  dsimp only [execGateEvaluate]
  repeat' split
  all_goals exact answers_next _

theorem execGateRecordWrite_answers (s : State) (walkErr : Bool) : Answers (execGateRecordWrite s walkErr) := by
  dsimp only [execGateRecordWrite]
  repeat' split
  all_goals exact answers_next _

theorem execSyncWaitEffect_answers (s : State) : Answers (execSyncWaitEffect s) := by
  dsimp only [execSyncWaitEffect]
  repeat' split
  all_goals exact answers_next _

theorem execWakeBeat_answers (f : Fin 8) (s : State) : Answers (execWakeBeat f s) := by
  dsimp only [execWakeBeat]
  repeat' split
  all_goals exact answers_next _

theorem execGrantAck_answers (s : State) : Answers (execGrantAck s) := by
  dsimp only [execGrantAck]
  repeat' split
  all_goals exact answers_next _

theorem execChipArrive_answers (p : Fin 16) (chip : Fin 4096) (xb : Fin 4096) (sense : Bool) (s : State) :
    Answers (execChipArrive p chip xb sense s) := by
  dsimp only [execChipArrive]
  repeat' split
  all_goals exact answers_next _

theorem execXbRelease_answers (p : Fin 16) (_chip : Fin 4096) (xb : Fin 4096) (sense : Bool) (t : BitVec 64)
    (s : State) :
    Answers (execXbRelease p _chip xb sense t s) := by
  dsimp only [execXbRelease]
  repeat' split
  all_goals exact answers_next _

theorem execBarrierReleaseInstant_answers (s : State) : Answers (execBarrierReleaseInstant s) := by
  dsimp only [execBarrierReleaseInstant]
  repeat' split
  all_goals exact answers_next _

theorem execSendCreditGrant_answers (s : State) : Answers (execSendCreditGrant s) := by
  dsimp only [execSendCreditGrant]
  repeat' split
  all_goals exact answers_next _

theorem execRecordAssign_answers (s : State) : Answers (execRecordAssign s) := by
  dsimp only [execRecordAssign]
  repeat' split
  all_goals exact answers_next _

theorem execMsg_answers (p : Fin 16) (chip : Fin 4096) (key : BitVec 16) (epoch : Word) (item : List Byte)
    (s : State) :
    Answers (execMsg p chip key epoch item s) := by
  dsimp only [execMsg]
  repeat' split
  all_goals exact answers_next _

theorem execRemoteCredit_answers (p : Fin 16) (chip : Fin 4096) (key : BitVec 16) (units : Word) (queue : Bool)
    (s : State) :
    Answers (execRemoteCredit p chip key units queue s) := by
  dsimp only [execRemoteCredit]
  repeat' split
  all_goals exact answers_next _

theorem execBlend_answers (p : Fin 16) (chip : Fin 4096) (key : BitVec 16) (slot : Fin 4096) (item : List Byte)
    (s : State) :
    Answers (execBlend p chip key slot item s) := by
  dsimp only [execBlend]
  repeat' split
  all_goals exact answers_next _

theorem execChain_answers (p : Fin 16) (chip : Fin 4096) (key : BitVec 16) (item : List Byte) (s : State) :
    Answers (execChain p chip key item s) := by
  dsimp only [execChain]
  repeat' split
  all_goals exact answers_next _

theorem execContributionIntake_answers (s : State) (lost : Bool) : Answers (execContributionIntake s lost) := by
  dsimp only [execContributionIntake]
  repeat' split
  all_goals exact answers_next _

theorem execTreeAdd_answers (s : State) : Answers (execTreeAdd s) := by
  dsimp only [execTreeAdd]
  repeat' split
  all_goals exact answers_next _

theorem execFlitSend_answers (p : Fin 16) (s : State) : Answers (execFlitSend p s) := by
  dsimp only [execFlitSend]
  repeat' split
  all_goals exact answers_next _

theorem execLinkUpFall_answers (p : Fin 16) (s : State) : Answers (execLinkUpFall p s) := by
  dsimp only [execLinkUpFall]
  repeat' split
  all_goals exact answers_next _

theorem execTranslationRequest_answers (f : Fin 8) (bits : BitVec 128) (walkErr : Bool) (s : State) (full : Bool) :
    Answers (execTranslationRequest f bits walkErr s full) := by
  dsimp only [execTranslationRequest]
  repeat' split
  all_goals exact answers_next _

theorem execDeferredRelease_answers (s : State) : Answers (execDeferredRelease s) := by
  dsimp only [execDeferredRelease]
  repeat' split
  all_goals exact answers_next _

theorem execFrameZeroed_answers (st : Fin 24) (s : State) : Answers (execFrameZeroed st s) := by
  dsimp only [execFrameZeroed]
  repeat' split
  all_goals exact answers_next _

theorem execUnitWrite_answers (s : State) : Answers (execUnitWrite s) := by
  dsimp only [execUnitWrite]
  repeat' split
  all_goals exact answers_next _

theorem execKvOperationDone_answers (v : Fin 4) (s : State) : Answers (execKvOperationDone v s) := by
  dsimp only [execKvOperationDone]
  repeat' split
  all_goals exact answers_next _

theorem execServePoll_answers (v : Fin 4) (s : State) : Answers (execServePoll v s) := by
  dsimp only [execServePoll]
  repeat' split
  all_goals exact answers_next _

theorem execWdogExpired_answers (s : State) : Answers (execWdogExpired s) := by
  dsimp only [execWdogExpired]
  repeat' split
  all_goals exact answers_next _

theorem execComparatorTest_answers (path : Fin 32) (ok diff : Bool) (s : State) :
    Answers (execComparatorTest path ok diff s) := by
  dsimp only [execComparatorTest]
  repeat' split
  all_goals exact answers_next _

theorem execScrub_answers (storage : Fin 23) (index : Nat) (finding : Fin 6) (found : Option Nat) (s : State) :
    Answers (execScrub storage index finding found s) := by
  dsimp only [execScrub]
  repeat' split
  all_goals exact answers_next _

theorem execRecoveryRebuild_answers (s : State) : Answers (execRecoveryRebuild s) := by
  dsimp only [execRecoveryRebuild]
  repeat' split
  all_goals exact answers_next _

theorem execRecoveryReentry_answers (s : State) : Answers (execRecoveryReentry s) := by
  dsimp only [execRecoveryReentry]
  repeat' split
  all_goals exact answers_next _

theorem execQueuePtrMismatch_answers (off : Nat) (s : State) : Answers (execQueuePtrMismatch off s) := by
  dsimp only [execQueuePtrMismatch]
  repeat' split
  all_goals exact answers_next _

theorem execIcacheFill_answers (u : Fin 128) (s : State) : Answers (execIcacheFill u s) := by
  dsimp only [execIcacheFill]
  repeat' split
  all_goals exact answers_next _

theorem execRexNop_answers (u : Fin 128) (exe : Bool) (s : State) : Answers (execRexNop u exe s) := by
  dsimp only [execRexNop]
  repeat' split
  all_goals exact answers_next _

theorem execRexEnd_answers (u : Fin 128) (exe : Bool) (s : State) : Answers (execRexEnd u exe s) := by
  dsimp only [execRexEnd]
  repeat' split
  all_goals exact answers_next _

theorem execLoop_answers (u : Fin 128) (exe : Bool) (s : State) : Answers (execLoop u exe s) := by
  dsimp only [execLoop]
  repeat' split
  all_goals exact answers_next _

theorem execQbar_answers (u : Fin 128) (exe : Bool) (s : State) : Answers (execQbar u exe s) := by
  dsimp only [execQbar]
  repeat' split
  all_goals exact answers_next _

theorem execEpDone_answers (s : State) : Answers (execEpDone s) := by
  dsimp only [execEpDone]
  repeat' split
  all_goals exact answers_next _

theorem execTraceIncrement_answers (src : Fin 4224) (e : Fin 8) (states : List (Fin 16 × Nat)) (act : Nat)
    (lost : Bool) (s : State) :
    Answers (execTraceIncrement src e states act lost s) := by
  dsimp only [execTraceIncrement]
  repeat' split
  all_goals exact answers_next _

theorem execFullStamp_answers (m : Fin 9) (s : State) : Answers (execFullStamp m s) := by
  dsimp only [execFullStamp]
  repeat' split
  all_goals exact answers_next _

theorem execTraceRecordWrite_answers (m : Fin 9) (s : State) : Answers (execTraceRecordWrite m s) := by
  dsimp only [execTraceRecordWrite]
  repeat' split
  all_goals exact answers_next _

theorem execPrbsDurEnd_answers (sel : Fin 256) (errs : List (Nat × Nat)) (s : State) :
    Answers (execPrbsDurEnd sel errs s) := by
  dsimp only [execPrbsDurEnd]
  repeat' split
  all_goals exact answers_next _

theorem execWrapperInstruction_answers (part : Fin 2) (ins : Fin 5) (code : Nat) (s : State) :
    Answers (execWrapperInstruction part ins code s) := by
  dsimp only [execWrapperInstruction]
  repeat' split
  all_goals exact answers_next _

theorem execInstrumentWrite_answers (inst : Fin 4) (off : Nat) (w : Word) (s : State) :
    Answers (execInstrumentWrite inst off w s) := by
  dsimp only [execInstrumentWrite]
  repeat' split
  all_goals exact answers_next _

theorem execResetCountsEffect_answers (c : Fin 64) (r : Fin 4) (s : State) :
    Answers (execResetCountsEffect c r s) := by
  dsimp only [execResetCountsEffect]
  repeat' split
  all_goals exact answers_next _

theorem execGtbCtlEnable_answers (w : Word) (s : State) : Answers (execGtbCtlEnable w s) := by
  dsimp only [execGtbCtlEnable]
  repeat' split
  all_goals exact answers_next _

theorem execPatRelease_answers (c : Fin 64) (s : State) : Answers (execPatRelease c s) := by
  dsimp only [execPatRelease]
  repeat' split
  all_goals exact answers_next _

theorem execImbEnWrite_answers (c : Fin 64) (w : Word) (s : State) : Answers (execImbEnWrite c w s) := by
  dsimp only [execImbEnWrite]
  repeat' split
  all_goals exact answers_next _

theorem execLnkCtxResWrite_answers (c : Fin 64) (w : Word) (s : State) : Answers (execLnkCtxResWrite c w s) := by
  dsimp only [execLnkCtxResWrite]
  repeat' split
  all_goals exact answers_next _

theorem execRegisterWrite_answers (off : Nat) (w : Word) (fw : Bool) (s : State) :
    Answers (execRegisterWrite off w fw s) := by
  dsimp only [execRegisterWrite]
  repeat' split
  all_goals exact answers_next _

theorem execGtbRefEdge_answers (incr : Nat) (phaseOk : Bool) (s : State) :
    Answers (execGtbRefEdge incr phaseOk s) := by
  dsimp only [execGtbRefEdge]
  repeat' split
  all_goals exact answers_next _

theorem execPrbsLaneLock_answers (sel : Fin 256) (lane : Fin 2048) (s : State) :
    Answers (execPrbsLaneLock sel lane s) := by
  dsimp only [execPrbsLaneLock]
  repeat' split
  all_goals exact answers_next _

theorem execParcelDefine_answers (s : State) : Answers (execParcelDefine s) := parcelSet_answers ..
theorem execParcelBind_answers (s : State) : Answers (execParcelBind s) := parcelSet_answers ..
theorem execParcelDissolve_answers (s : State) : Answers (execParcelDissolve s) := parcelSet_answers ..
theorem execTraceStart_answers (s : State) : Answers (execTraceStart s) := traceCtl_answers ..
theorem execTraceFilter_answers (s : State) : Answers (execTraceFilter s) := traceCtl_answers ..
theorem execTraceFlush_answers (s : State) : Answers (execTraceFlush s) := traceCtl_answers ..
theorem execTraceStop_answers (s : State) : Answers (execTraceStop s) := traceCtl_answers ..
theorem execLd_answers (u : Fin 128) (s : State) : Answers (execLd u s) := memInstr_answers ..
theorem execSt_answers (u : Fin 128) (s : State) : Answers (execSt u s) := memInstr_answers ..
theorem execDig_answers (u : Fin 128) (s : State) : Answers (execDig u s) := memInstr_answers ..
theorem execAccld_answers (u : Fin 128) (s : State) : Answers (execAccld u s) := memInstr_answers ..
theorem execAccst_answers (u : Fin 128) (s : State) : Answers (execAccst u s) := memInstr_answers ..
theorem execAccadd_answers (u : Fin 128) (s : State) : Answers (execAccadd u s) := memInstr_answers ..
theorem execLdq_answers (u : Fin 128) (s : State) : Answers (execLdq u s) := queueInstr_answers ..
theorem execStq_answers (u : Fin 128) (s : State) : Answers (execStq u s) := queueInstr_answers ..
theorem execSend_answers (u : Fin 128) (s : State) : Answers (execSend u s) := effInstr_answers ..
theorem execBlendInstr_answers (u : Fin 128) (s : State) : Answers (execBlendInstr u s) := effInstr_answers ..
theorem execSig_answers (u : Fin 128) (s : State) : Answers (execSig u s) := effInstr_answers ..
theorem execAdd_answers (u : Fin 128) (s : State) : Answers (execAdd u s) := elemInstr_answers ..
theorem execSub_answers (u : Fin 128) (s : State) : Answers (execSub u s) := elemInstr_answers ..
theorem execMul_answers (u : Fin 128) (s : State) : Answers (execMul u s) := elemInstr_answers ..
theorem execFma_answers (u : Fin 128) (s : State) : Answers (execFma u s) := elemInstr_answers ..
theorem execMin_answers (u : Fin 128) (s : State) : Answers (execMin u s) := elemInstr_answers ..
theorem execMax_answers (u : Fin 128) (s : State) : Answers (execMax u s) := elemInstr_answers ..
theorem execAbs_answers (u : Fin 128) (s : State) : Answers (execAbs u s) := elemInstr_answers ..
theorem execNeg_answers (u : Fin 128) (s : State) : Answers (execNeg u s) := elemInstr_answers ..
theorem execRcp_answers (u : Fin 128) (s : State) : Answers (execRcp u s) := elemInstr_answers ..
theorem execRsq_answers (u : Fin 128) (s : State) : Answers (execRsq u s) := elemInstr_answers ..
theorem execSqrt_answers (u : Fin 128) (s : State) : Answers (execSqrt u s) := elemInstr_answers ..
theorem execMov_answers (u : Fin 128) (s : State) : Answers (execMov u s) := exeInstr_answers ..
theorem execCvt_answers (u : Fin 128) (s : State) : Answers (execCvt u s) := exeInstr_answers ..
theorem execSwu_answers (u : Fin 128) (s : State) : Answers (execSwu u s) := exeInstr_answers ..
theorem execRed_answers (u : Fin 128) (s : State) : Answers (execRed u s) := exeInstr_answers ..
theorem execScan_answers (u : Fin 128) (s : State) : Answers (execScan u s) := exeInstr_answers ..
theorem execSscan_answers (u : Fin 128) (s : State) : Answers (execSscan u s) := exeInstr_answers ..
theorem execAccw_answers (u : Fin 128) (s : State) : Answers (execAccw u s) := by
  rw [execAccw]
  exact exeInstr_answers ..
theorem execAccz_answers (u : Fin 128) (s : State) : Answers (execAccz u s) := exeInstr_answers ..
theorem execAccsum_answers (u : Fin 128) (s : State) : Answers (execAccsum u s) := exeInstr_answers ..

/-- Commands without a branch at their head answer at once; every other has a lemma of its own above. -/
theorem exec_answers (c : Instr) (s : State) : Answers (exec c s) := by
  cases c
  case porstN | cellarRstN | trstN | fldClkStateChange | fldOffReqRise | gtbTimeWord | irqRearmClear | irqRearmSet
    | doorbellBadAccess | syncSignal | syncSignalTo | syncWait | syncDecrement | objectMaterialise | epochNotice
    | linkUpRise | frameWaitGrant | streamFillDone | assembly | policyTickBoundary | halt | mgcWdogKick |
    mgcTickAck | noticeGo | hold | policyShadowWrite | errorRecord | decant | epStart | offline | rexTileData |
    clear | freeze | prbsStart | prbsStop | prbsInject | hifCtxEnable | ringEn | resetCounts | fetchEn |
    setupDone | synRelease | rexIregWrite | synDiagSelWrite | synDiagDataRead | safRecSelWrite | safRecDataRead
    | gtbNowLoRead | psmCtxEng0LoRead | counterCaptureRead | badAccess | spadReady | gateAckRise |
    machineTimerInterrupt | reservedKindFlit =>
    exact answers_next _
  case coreRstNAssert => exact execCoreRstNAssert_answers ..
  case coreRstNRelease => exact execCoreRstNRelease_answers ..
  case cellarResetRelease => exact execCellarResetRelease_answers ..
  case cellarBistDone => exact execCellarBistDone_answers ..
  case katDone => exact execKatDone_answers ..
  case coreBistDone => exact execCoreBistDone_answers ..
  case fieldTrainingStart => exact execFieldTrainingStart_answers ..
  case fieldTrainingEnd => exact execFieldTrainingEnd_answers ..
  case fieldLinkTrainingEnd => exact execFieldLinkTrainingEnd_answers ..
  case fldOffAck => exact execFldOffAck_answers ..
  case fldOffReqFall => exact execFldOffReqFall_answers ..
  case gateIdleExpiry => exact execGateIdleExpiry_answers ..
  case gateAckFall => exact execGateAckFall_answers ..
  case cclkFreqCheck => exact execCclkFreqCheck_answers ..
  case gtbFrame => exact execGtbFrame_answers ..
  case refLoss => exact execRefLoss_answers ..
  case gtbLocked => exact execGtbLocked_answers ..
  case holdExpired => exact execHoldExpired_answers ..
  case slewEnd => exact execSlewEnd_answers ..
  case sqnDb => exact execSqnDb_answers ..
  case cqDb => exact execCqDb_answers ..
  case eqDb => exact execEqDb_answers ..
  case descriptorFetch => exact execDescriptorFetch_answers ..
  case descriptorReceived => exact execDescriptorReceived_answers ..
  case ringFetchError => exact execRingFetchError_answers ..
  case cauCheck => exact execCauCheck_answers ..
  case completionEntryWrite => exact execCompletionEntryWrite_answers ..
  case holdoffEnd => exact execHoldoffEnd_answers ..
  case nop => exact execNop_answers ..
  case graphLoad => exact execGraphLoad_answers ..
  case graphLoadInstall => exact execGraphLoadInstall_answers ..
  case graphLaunch => exact execGraphLaunch_answers ..
  case launchBegin => exact execLaunchBegin_answers ..
  case stepStart => exact execStepStart_answers ..
  case sweepRow => exact execSweepRow_answers ..
  case graphAbort => exact execGraphAbort_answers ..
  case graphUnload => exact execGraphUnload_answers ..
  case unloadZeroingDone => exact execUnloadZeroingDone_answers ..
  case imageLoad => exact execImageLoad_answers ..
  case imageLoadDone => exact execImageLoadDone_answers ..
  case syncDump => exact execSyncDump_answers ..
  case syncDumpDone => exact execSyncDumpDone_answers ..
  case syncForce => exact execSyncForce_answers ..
  case chanDecant => exact execChanDecant_answers ..
  case serveOpen => exact execServeOpen_answers ..
  case serveClose => exact execServeClose_answers ..
  case parcelInstall => exact execParcelInstall_answers ..
  case shareSet =>
    rw [exec]
    exact execShareSet_answers s
  case ctxSave => exact execCtxSave_answers ..
  case ctxRestore => exact execCtxRestore_answers ..
  case modelSwitch => exact execModelSwitch_answers ..
  case fwLoad => exact execFwLoad_answers ..
  case fwLoadDone => exact execFwLoadDone_answers ..
  case calWrite => exact execCalWrite_answers ..
  case keyLoad => exact execKeyLoad_answers ..
  case keyRetire => exact execKeyRetire_answers ..
  case dbgWrite => exact execDbgWrite_answers ..
  case dispatchSelect =>
    rw [exec]
    exact execDispatchSelect_answers s
  case dispatchRecord => exact execDispatchRecord_answers ..
  case withdraw => exact execWithdraw_answers ..
  case endValid => exact execEndValid_answers ..
  case effValid => exact execEffValid_answers ..
  case effectRecord => exact execEffectRecord_answers ..
  case completeRecord => exact execCompleteRecord_answers ..
  case commit => exact execCommit_answers ..
  case killOrder => exact execKillOrder_answers ..
  case killTimeout => exact execKillTimeout_answers ..
  case watchdog => exact execWatchdog_answers ..
  case teardownEnd => exact execTeardownEnd_answers ..
  case decrementApply => exact execDecrementApply_answers ..
  case tmrInsert => exact execTmrInsert_answers ..
  case tmrRelease => exact execTmrRelease_answers ..
  case gateEvaluate => exact execGateEvaluate_answers ..
  case gateRecordWrite => exact execGateRecordWrite_answers ..
  case syncWaitEffect => exact execSyncWaitEffect_answers ..
  case wakeBeat => exact execWakeBeat_answers ..
  case grantAck => exact execGrantAck_answers ..
  case chipArrive => exact execChipArrive_answers ..
  case xbRelease p chip xb sense t => exact execXbRelease_answers p chip xb sense t s
  case barrierReleaseInstant => exact execBarrierReleaseInstant_answers ..
  case sendCreditGrant => exact execSendCreditGrant_answers ..
  case recordAssign => exact execRecordAssign_answers ..
  case msg => exact execMsg_answers ..
  case remoteCredit => exact execRemoteCredit_answers ..
  case blend => exact execBlend_answers ..
  case chain => exact execChain_answers ..
  case contributionIntake => exact execContributionIntake_answers ..
  case treeAdd => exact execTreeAdd_answers ..
  case flitSend => exact execFlitSend_answers ..
  case linkUpFall => exact execLinkUpFall_answers ..
  case translationRequest => exact execTranslationRequest_answers ..
  case deferredRelease => exact execDeferredRelease_answers ..
  case frameZeroed => exact execFrameZeroed_answers ..
  case unitWrite => exact execUnitWrite_answers ..
  case kvOperationDone => exact execKvOperationDone_answers ..
  case servePoll => exact execServePoll_answers ..
  case wdogExpired => exact execWdogExpired_answers ..
  case comparatorTest => exact execComparatorTest_answers ..
  case scrub => exact execScrub_answers ..
  case recoveryRebuild => exact execRecoveryRebuild_answers ..
  case recoveryReentry => exact execRecoveryReentry_answers ..
  case queuePtrMismatch => exact execQueuePtrMismatch_answers ..
  case icacheFill => exact execIcacheFill_answers ..
  case rexNop => exact execRexNop_answers ..
  case rexEnd => exact execRexEnd_answers ..
  case loop => exact execLoop_answers ..
  case qbar => exact execQbar_answers ..
  case epDone => exact execEpDone_answers ..
  case traceIncrement => exact execTraceIncrement_answers ..
  case fullStamp => exact execFullStamp_answers ..
  case traceRecordWrite => exact execTraceRecordWrite_answers ..
  case prbsDurEnd => exact execPrbsDurEnd_answers ..
  case wrapperInstruction => exact execWrapperInstruction_answers ..
  case instrumentWrite => exact execInstrumentWrite_answers ..
  case resetCountsEffect => exact execResetCountsEffect_answers ..
  case gtbCtlEnable => exact execGtbCtlEnable_answers ..
  case patRelease => exact execPatRelease_answers ..
  case imbEnWrite => exact execImbEnWrite_answers ..
  case lnkCtxResWrite => exact execLnkCtxResWrite_answers ..
  case registerWrite => exact execRegisterWrite_answers ..
  case gtbRefEdge => exact execGtbRefEdge_answers ..
  case prbsLaneLock => exact execPrbsLaneLock_answers ..
  case parcelDefine => exact execParcelDefine_answers ..
  case parcelBind => exact execParcelBind_answers ..
  case parcelDissolve => exact execParcelDissolve_answers ..
  case traceStart => exact execTraceStart_answers ..
  case traceFilter => exact execTraceFilter_answers ..
  case traceFlush => exact execTraceFlush_answers ..
  case traceStop => exact execTraceStop_answers ..
  case ld => exact execLd_answers ..
  case st => exact execSt_answers ..
  case dig => exact execDig_answers ..
  case accld => exact execAccld_answers ..
  case accst => exact execAccst_answers ..
  case accadd => exact execAccadd_answers ..
  case ldq => exact execLdq_answers ..
  case stq => exact execStq_answers ..
  case send => exact execSend_answers ..
  case blendInstr => exact execBlendInstr_answers ..
  case sig => exact execSig_answers ..
  case add => exact execAdd_answers ..
  case sub => exact execSub_answers ..
  case mul => exact execMul_answers ..
  case fma => exact execFma_answers ..
  case min => exact execMin_answers ..
  case max => exact execMax_answers ..
  case abs => exact execAbs_answers ..
  case neg => exact execNeg_answers ..
  case rcp => exact execRcp_answers ..
  case rsq => exact execRsq_answers ..
  case sqrt => exact execSqrt_answers ..
  case mov => exact execMov_answers ..
  case cvt => exact execCvt_answers ..
  case swu => exact execSwu_answers ..
  case red => exact execRed_answers ..
  case scan => exact execScan_answers ..
  case sscan => exact execSscan_answers ..
  case accw => exact execAccw_answers ..
  case accz => exact execAccz_answers ..
  case accsum => exact execAccsum_answers ..

/-- Settles O6: command by command. -/
theorem noCommandStops : Obligations.NoCommandStops := by
  unfold Obligations.NoCommandStops
  exact exec_answers

/-- Settles O1: `step` reads the front of the queue and leaves the rest to `exec`. -/
theorem stepTakesTheFront : Obligations.StepTakesTheFront := by
  unfold Obligations.StepTakesTheFront
  intro s c rest
  rfl

/-- Settles O3: every command keeps the queue that it finds, which for a step is the queue's rest. -/
theorem stepKeepsQueueOrder : Obligations.StepKeepsQueueOrder := by
  unfold Obligations.StepKeepsQueueOrder
  exact fun s t hstep => (step_pending_memOk hstep).1

/-- Settles O5: after reset the memories and the queue are empty. -/
theorem resetIsSafe : Obligations.ResetIsSafe := by
  unfold Obligations.ResetIsSafe
  exact ⟨⟨wf_nil, wf_nil, wf_nil⟩, fun c hc => absurd hc List.not_mem_nil⟩

end Sys2Proof.Machine
end

section
/-! The safety supervisor: the safe state is entered in the command that accepts a fatal record (R625, R628), and the
clean copy of a duplicated word repairs the bad one (R612). -/

namespace Sys2Proof.Machine

open Sys2Proof

/-- What no step of a fold changes is at the end as it was. -/
theorem foldl_fixes {α β γ : Type} (obs : β → γ) {f : β → α → β} (l : List α)
    (h : ∀ y, ∀ a ∈ l, obs (f y a) = obs y) (y : β) : obs (l.foldl f y) = obs y := by
  induction l generalizing y with
  | nil => rfl
  | cons a l ih =>
    exact (ih (fun y b hb => h y b (List.mem_cons_of_mem _ hb)) _).trans (h y a List.mem_cons_self)

/-- What every single application keeps, the whole fold keeps. -/
theorem foldl_keeps {α β : Type} (g : State → β) {f : State → α → State} (hf : ∀ s a, g (f s a) = g s)
    (l : List α) (s : State) : g (l.foldl f s) = g s := foldl_fixes g l (fun s a _ => hf s a) s

/-! ### Operations that leave SAF's own state and the test access alone -/

/-- The state of SAF and that of the test access. -/
def safTst (s : State) : Saf × Tst := (s.saf, s.tst)

theorem safTst_raiseEvent (s : State) (c type sev src vint payload : Nat) :
    safTst (raiseEvent s c type sev src vint payload) = safTst s := by
  rw [(eventFrame_raiseEvent s c type sev src vint payload).state]
  rfl

theorem safTst_notifyRec (s : State) (r : Rec) : safTst (notifyRec s r) = safTst s := by
  unfold notifyRec
  split
  · exact foldl_keeps safTst (fun s c => safTst_raiseEvent s c _ _ _ _ _) _ s
  · rfl

theorem safTst_complete (s : State) (m : Cmd) (status detail result reruns : Nat) :
    safTst (complete s m status detail result reruns) = safTst s := by
  rw [complete_keeps]
  rfl

theorem safTst_modRun (s : State) (r : Nat) (f : Run → Run) : safTst (modRun s r f) = safTst s := by
  unfold modRun
  split <;> rfl

theorem safTst_freeContrib (s : State) (c : Nat) (e : Eff) : safTst (freeContrib s c e) = safTst s := by
  unfold freeContrib
  repeat' split
  all_goals rfl

theorem safTst_freeSend (s : State) (c : Nat) (e : Eff) : safTst (freeSend s c e) = safTst s := by
  unfold freeSend
  repeat' split
  all_goals rfl

theorem safTst_blqKill (s : State) (id : Nat) (x : Run) : safTst (blqKill s id x) = safTst s :=
  foldl_keeps safTst (fun s e => safTst_freeContrib s x.ctx e) _ _

theorem safTst_chnKill (s : State) (id : Nat) (x : Run) : safTst (chnKill s id x) = safTst s :=
  foldl_keeps safTst (fun s e => safTst_freeSend s x.ctx e) _ _

theorem safTst_stopRun (s : State) (id : Nat) : safTst (stopRun s id) = safTst s := by
  unfold stopRun
  split
  case h_1 => rfl
  case h_2 x _ =>
    have hkill : safTst (blqKill (chnKill s id x) id x) = safTst s :=
      (safTst_blqKill _ id x).trans (safTst_chnKill s id x)
    dsimp only
    split
    · exact (safTst_modRun _ id _).trans hkill
    · exact (safTst_modRun _ id _).trans hkill

theorem safTst_completeHeld (s : State) : safTst (completeHeld s) = safTst s := by
  unfold completeHeld
  dsimp only
  refine (foldl_keeps safTst (fun s o => ?_) _ _).trans
    (foldl_keeps safTst (f := fun u (m : Cmd) => headPass u m.ctx m.ring) (fun _ _ => rfl) _ s)
  split
  · exact safTst_complete _ _ _ _ _ _
  · rfl

theorem safTst_dropHeld (s : State) : safTst (dropHeld s) = safTst s := by
  unfold dropHeld
  dsimp only
  refine foldl_keeps safTst (fun s w => ?_) _ s
  split <;> rfl

/-! ### The safe state -/

/-- SAF's state and the test access as the safe state is entered: a recovery ends (R623). -/
theorem safTst_enterSafe (s : State) :
    safTst (enterSafe s) = ({ s.saf with safe := true, recov := [], kept := [] }, s.tst) := by
  unfold enterSafe
  dsimp only
  split
  · exact foldl_keeps safTst safTst_stopRun _ _
  · exact foldl_keeps safTst safTst_stopRun _ _

/-- The record with the number under which SAF takes it (R625). -/
def numbered (s : State) (e : Rec) : Rec := { e with seq := reg s 0xA00008 }

/-- The record stands in the ring, and the next record has the next number. -/
def recStored (s : State) (e : Rec) : State :=
  setReg { s with saf := { s.saf with ring := tput s.saf.ring (reg s 0xA00008 % 1024) (numbered s e) } } 0xA00008
    (reg s 0xA00008 + 1)

/-- The sticky flag of the severity is set. -/
def recFlagged (s : State) (e : Rec) : State :=
  if e.sev = 2 then setRegBit (recStored s e) 0xA00004 30 true
  else if e.sev = 1 then setRegBit (recStored s e) 0xA00004 29 true else recStored s e

/-- The first fatal record stands in SAF_FATAL. -/
def recTaken (s : State) (e : Rec) : State :=
  if e.sev = 3 && (recFlagged s e).saf.fatal.isNone then
    (List.range 8).foldl (fun u k => setReg u (0xA00040 + 4 * k) (recWord (numbered s e) k))
      { recFlagged s e with saf := { (recFlagged s e).saf with fatal := some (numbered s e) } }
  else recFlagged s e

/-- The safe state is entered for a record. -/
def safeEntered (s : State) (r : Rec) : State :=
  let u := completeHeld (notifyRec (haltMgc (enterSafe s)) r)
  dropHeld { u with mgc := { u.mgc with loads := [] } }

theorem acceptRec_eq (s : State) (e : Rec) :
    acceptRec s e = if (e.sev = 3 && !(recTaken s e).saf.safe) = true then safeEntered (recTaken s e) (numbered s e)
      else notifyRec (recTaken s e) (numbered s e) := rfl

theorem safTst_safeEntered (s : State) (r : Rec) :
    safTst (safeEntered s r) = ({ s.saf with safe := true, recov := [], kept := [] }, s.tst) := by
  rw [safeEntered, safTst_dropHeld, ← safTst_enterSafe s]
  exact (safTst_completeHeld _).trans (safTst_notifyRec _ r)

theorem acceptRec_of_fatal_is_safe (s : State) {e : Rec} (hfatal : e.sev = 3) : (acceptRec s e).saf.safe = true := by
  rw [acceptRec_eq]
  split
  case isTrue => exact congrArg (fun p => p.1.safe) (safTst_safeEntered _ _)
  case isFalse hsafe =>
    have hsaf := congrArg Prod.fst (safTst_notifyRec (recTaken s e) (numbered s e))
    rw [show (notifyRec (recTaken s e) (numbered s e)).saf = (recTaken s e).saf from hsaf]
    simpa [hfatal] using hsafe

/-- Settles O45: the state that `acceptRec` leaves is safe already, and SAF_FAULT_N is low in a safe state. -/
theorem fatalRecordEntersSafeState : Obligations.FatalRecordEntersSafeState := by
  unfold Obligations.FatalRecordEntersSafeState
  intro s e rest hq hfatal
  have hsafe := acceptRec_of_fatal_is_safe { s with saf := { s.saf with recQ := rest } } hfatal
  refine ⟨_, ?_, rfl, hsafe, by simp [safFaultN, hsafe]⟩
  show execErrorRecord s = _
  simp only [execErrorRecord, acceptOldest, hq]

/-! ### Repair from the clean copy (R612) -/

theorem copyOver_fromB {α : Type} (index : Nat) (a b : Table α) :
    tget? (copyOver false index (a, b)).1 index = tget? b index ∧ (copyOver false index (a, b)).2 = b := by
  simp only [copyOver, Bool.false_eq_true, if_false, and_true]
  split
  · simp_all
  · simp_all [tget?_tdel]

theorem copyOver_fromA {α : Type} (index : Nat) (a b : Table α) :
    tget? (copyOver true index (a, b)).2 index = tget? a index ∧ (copyOver true index (a, b)).1 = a := by
  simp only [copyOver, if_true, and_true]
  split
  · simp_all
  · simp_all [tget?_tdel]

/-- An uncorrectable error in one copy of a duplicated word: the count, the record, and then the repair. -/
theorem exec_scrub_of_one_bad_copy (s : State) {k : Fin 23} (index : Nat) {f : Fin 6} (hk : k.val ≤ 2)
    (hf : f.val = 2 ∨ f.val = 3) :
    exec (.scrub k index f none) s = .next (repairCopy (eccRec (addReg s 0xA0001C 1) 1 0x02 k index
      (storageOwner (addReg s 0xA0001C 1) k index)) k index (f.val == 3)) := by
  show execScrub k index f none s = _
  have h0 : f.val ≠ 0 := by omega
  have h1 : f.val ≠ 1 := by omega
  have h4 : f.val ≠ 4 := by omega
  have h5 : f.val ≠ 5 := by omega
  simp only [execScrub, if_neg h0, if_neg h1, if_neg h5]
  rw [if_pos (by simp [hk, h4])]

theorem repairCopy_saf_recQ (s : State) (k index : Nat) (fromA : Bool) :
    (repairCopy s k index fromA).saf.recQ = s.saf.recQ := by
  unfold repairCopy
  repeat' split
  all_goals rfl

theorem reg_repairCopy (s : State) (k index : Nat) (fromA : Bool) (o : Nat) :
    reg (repairCopy s k index fromA) o = reg s o := by
  unfold repairCopy
  repeat' split
  all_goals rfl

/-- Settles O46: the storages one by one, each with its two copies. -/
theorem cleanCopyRepairs : Obligations.CleanCopyRepairs := by
  unfold Obligations.CleanCopyRepairs
  intro s k index f hk hf hroom
  have hrec := record_of_room (s := addReg s 0xA0001C 1) hroom 1 (storageUnit k).1 0x02
    (storageOwner (addReg s 0xA0001C 1) k index) (Config.storageOffset k).toNat index
  rw [exec_scrub_of_one_bad_copy s index hk hf, eccRec, hrec]
  refine ⟨_, _, rfl, repairCopy_saf_recQ _ _ _ _, rfl, rfl, rfl, ?_, ?_, ?_, ?_, ?_, ?_, ?_⟩
  · rw [reg_repairCopy]
    exact reg_addReg_same s 0xA0001C 1
  all_goals
    intro hstore hcopy
    simp only [hstore, hcopy, repairCopy]
  · exact copyOver_fromB index s.tge.cntA s.tge.cntB
  · exact copyOver_fromA index s.tge.cntA s.tge.cntB
  · exact copyOver_fromB index s.syn.objA s.syn.objB
  · exact copyOver_fromA index s.syn.objA s.syn.objB
  · exact copyOver_fromB index s.saf.ledA s.saf.ledB
  · exact copyOver_fromA index s.saf.ledA s.saf.ledB

end Sys2Proof.Machine
end

section
/-! Error records and their read port, the comparators, and what each finding of the scrubbers does (R609, R610, R613,
R624, R625, R636). -/

namespace Sys2Proof.Machine

open Sys2Proof

/-! ### Taking a record that is not fatal -/

theorem exec_errorRecord_of_first {s : State} {e : Rec} {rest : List Rec} (hq : s.saf.recQ = e :: rest) :
    exec .errorRecord s = .next (settle (acceptRec { s with saf := { s.saf with recQ := rest } } e)) := by
  show execErrorRecord s = _
  simp only [execErrorRecord, acceptOldest, hq]

theorem exec_errorRecord_of_none {s : State} (hq : s.saf.recQ = []) (hcalm : calm s) :
    exec .errorRecord s = .next s := by
  show execErrorRecord s = _
  simp only [execErrorRecord, acceptOldest, hq, settle_of_calm hcalm]

theorem recFlagged_frame (s : State) (e : Rec) :
    recFlagged s e = { s with saf := (recStored s e).saf, regs := (recFlagged s e).regs } := by
  unfold recFlagged
  split
  · rfl
  · split <;> rfl

theorem recFlagged_saf (s : State) (e : Rec) : (recFlagged s e).saf = (recStored s e).saf := by
  rw [recFlagged_frame]

theorem reg_recFlagged_ne (s : State) (e : Rec) {o : Nat} (ho : o ≠ 0xA00004) :
    reg (recFlagged s e) o = reg (recStored s e) o := by
  unfold recFlagged
  split
  · exact reg_setRegBit_ne _ _ _ ho
  · split
    · exact reg_setRegBit_ne _ _ _ ho
    · rfl

theorem reg_recFlagged_outside (s : State) (e : Rec) {o : Nat} (hflag : o ≠ 0xA00004) (hnumber : o ≠ 0xA00008) :
    reg (recFlagged s e) o = reg s o :=
  (reg_recFlagged_ne s e hflag).trans (reg_setReg_ne _ _ hnumber)

theorem recTaken_of_not_fatal (s : State) {e : Rec} (hsev : e.sev ≠ 3) : recTaken s e = recFlagged s e := by
  simp [recTaken, hsev]

/-- A record that is not fatal is stored, flagged and told to those that its severity concerns. -/
theorem acceptRec_of_not_fatal (s : State) {e : Rec} (hsev : e.sev ≠ 3) :
    acceptRec s e = notifyRec (recFlagged s e) (numbered s e) := by
  rw [acceptRec_eq, recTaken_of_not_fatal s hsev, if_neg (by simp [hsev])]

theorem level_recFlagged (s : State) (e : Rec) : regFld (recFlagged s e) 0xA00000 1 0 = regFld s 0xA00000 1 0 :=
  congrArg (fld · 1 0) (reg_recFlagged_outside s e (by decide) (by decide))

theorem acceptRec_of_below_level {s : State} {e : Rec} (hsev : e.sev < 3) (hlevel : e.sev < regFld s 0xA00000 1 0) :
    acceptRec s e = recFlagged s e := by
  rw [acceptRec_of_not_fatal s (by omega), notifyRec, level_recFlagged, if_neg]
  exact Nat.not_le.mpr hlevel

theorem recTargets_recFlagged (s : State) (e r : Rec) : recTargets (recFlagged s e) r = recTargets s r := by
  refine List.filter_congr fun c hc => ?_
  have hc64 : c < 64 := List.mem_range.mp hc
  have hcfg : reg (recFlagged s e) (hifBase c) = reg s (hifBase c) :=
    reg_recFlagged_outside s e (by simp only [hifBase]; omega) (by simp only [hifBase]; omega)
  simp only [ctxEnabled, ctxPriv, regBit, hcfg]

theorem flag_recFlagged (s : State) {e : Rec} (hsev : e.sev = 1 ∨ e.sev = 2) :
    recFlagged s e = setRegBit (recStored s e) 0xA00004 (if e.sev = 2 then 30 else 29) true := by
  obtain hsev | hsev := hsev
  · simp [recFlagged, hsev]
  · simp [recFlagged, hsev]

theorem calm_recFlagged {s : State} (hcalm : calm s) (rest : List Rec) (e : Rec) :
    calm (recFlagged { s with saf := { s.saf with recQ := rest } } e) := by
  rw [recFlagged_frame]
  exact hcalm

/-- R625: a record below the level of events goes into the ring under the next number. -/
theorem errorRecord_taken {s : State} {e : Rec} {rest : List Rec} (hq : s.saf.recQ = e :: rest) (hsev : e.sev < 3)
    (hcalm : calm s) (hlevel : e.sev < regFld s 0xA00000 1 0) :
    ∃ t, exec .errorRecord s = .next t ∧ t.saf.recQ = rest ∧
      tget? t.saf.ring (reg s 0xA00008 % 1024) = some { e with seq := reg s 0xA00008 } ∧
      (∀ k, k ≠ reg s 0xA00008 % 1024 → tget? t.saf.ring k = tget? s.saf.ring k) ∧
      reg t 0xA00008 = (reg s 0xA00008 + 1) % 2 ^ 32 ∧ (e.sev = 2 → regBit t 0xA00004 30 = true) ∧
      (e.sev = 1 → regBit t 0xA00004 29 = true) ∧ t.saf.safe = s.saf.safe ∧
      t = { s with saf := t.saf, regs := t.regs } := by
  have htaken := acceptRec_of_below_level (s := { s with saf := { s.saf with recQ := rest } }) hsev hlevel
  refine ⟨recFlagged { s with saf := { s.saf with recQ := rest } } e, ?_, ?_, ?_, ?_, ?_, ?_, ?_, ?_, ?_⟩
  · rw [exec_errorRecord_of_first hq, htaken, settle_of_calm (calm_recFlagged hcalm rest e)]
  · rw [recFlagged_saf]
    rfl
  · rw [recFlagged_saf]
    exact tget?_tput_same _ _ _
  · intro k hk
    rw [recFlagged_saf]
    exact tget?_tput_ne _ _ hk
  · rw [reg_recFlagged_ne _ e (by decide)]
    exact reg_setReg_same _ _ _
  · intro hsev2
    rw [flag_recFlagged _ (.inr hsev2), if_pos hsev2]
    exact regBit_setRegBit_same _ _ _ _ (by decide)
  · intro hsev1
    rw [flag_recFlagged _ (.inl hsev1), if_neg (by omega)]
    exact regBit_setRegBit_same _ _ _ _ (by decide)
  · rw [recFlagged_saf]
    rfl
  · rw [recFlagged_frame]

/-- R626: a record at or above the level of events is told to its context and to every privileged one. -/
theorem acceptRec_notifies (s : State) {e : Rec} (hsev : e.sev = 1 ∨ e.sev = 2)
    (hlevel : regFld s 0xA00000 1 0 ≤ e.sev) :
    acceptRec s e = (recTargets s (numbered s e)).foldl
      (fun u c => raiseEvent u c 0x0006 e.sev e.unit 0 (reg s 0xA00008))
      (setRegBit (recStored s e) 0xA00004 (if e.sev = 2 then 30 else 29) true) := by
  rw [acceptRec_of_not_fatal s (by omega), notifyRec, level_recFlagged,
    if_pos (show regFld s 0xA00000 1 0 ≤ (numbered s e).sev from hlevel), recTargets_recFlagged,
    flag_recFlagged s hsev]
  rfl

/-! ### The read port (R636) -/

theorem recDataWord_of_held {s : State} {r : Rec} (hring : tget? s.saf.ring (reg s 0xA00010 % 1024) = some r)
    (hseq : r.seq = reg s 0xA00010) : recDataWord s = recWord r (s.saf.recPos % 8) := by
  simp only [recDataWord, hring, hseq, if_true]

theorem recDataWord_of_empty {s : State} (hring : tget? s.saf.ring (reg s 0xA00010 % 1024) = none) :
    recDataWord s = 0 := by
  simp only [recDataWord, hring]

/-! ### Comparators (R609) -/

theorem exec_comparatorTest_of_no_path (s : State) {p : Fin 32} (ok diff : Bool) (hpath : isPath p.val = false) :
    exec (.comparatorTest p ok diff) s = .next s := by
  show execComparatorTest p ok diff s = _
  simp [execComparatorTest, hpath]

theorem exec_comparatorTest_of_path (s : State) {p : Fin 32} (ok diff : Bool) (hpath : isPath p.val = true) :
    exec (.comparatorTest p ok diff) s =
      .next (if diff then record (if ok then s else record s 3 0x13 0x23 none p 0) 3 0x13 0x20 none p 0
        else if ok then s else record s 3 0x13 0x23 none p 0) := by
  show execComparatorTest p ok diff s = _
  simp [execComparatorTest, hpath]

theorem path_mod (p : Fin 32) : p.val % 2 ^ 32 = p.val := Nat.mod_eq_of_lt (by omega)

/-! ### Scrubs (R610, R613, R619) -/

theorem exec_scrub_compare (s : State) (k : Fin 23) (index : Nat) :
    exec (.scrub k index 0 none) s = .next (settle (compareCopies s k index)) := rfl

theorem exec_scrub_corrected (s : State) (k : Fin 23) (index : Nat) :
    exec (.scrub k index 1 none) s = .next (eccRec (setRegBit (addReg s 0xA00018 1) 0xA00004 28 true) 0 0x01 k index
      (storageOwner (setRegBit (addReg s 0xA00018 1) 0xA00004 28 true) k index)) := rfl

theorem exec_scrub_pass (s : State) (k : Fin 23) (index : Nat) :
    exec (.scrub k index 5 none) s = .next (addReg s 0xA00020 1) := rfl

theorem scrub_corrected {s : State} (k : Fin 23) (index : Nat) (hroom : s.saf.recQ.length < 32) :
    ∃ t e, exec (.scrub k index 1 none) s = .next t ∧ t.saf.recQ = s.saf.recQ ++ [e] ∧ e.sev = 0 ∧ e.code = 0x01 ∧
      reg t 0xA00018 = satAdd 32 (reg s 0xA00018) 1 ∧ regBit t 0xA00004 28 = true ∧ t.tge = s.tge ∧ t.syn = s.syn := by
  rw [exec_scrub_corrected, eccRec, record_of_room (s := setRegBit (addReg s 0xA00018 1) 0xA00004 28 true) hroom]
  refine ⟨_, _, rfl, rfl, rfl, rfl, ?_, ?_, rfl, rfl⟩
  · exact (reg_setRegBit_ne _ _ _ (by decide)).trans (reg_addReg_same s 0xA00018 1)
  · exact regBit_setRegBit_same _ _ _ _ (by decide)

theorem compareCopies_of_equal {s : State} {index : Nat} (h : cntA s index = cntB s index) :
    compareCopies s 0 index = s := by
  simp [compareCopies, h]

theorem compareCopies_of_idle {s : State} {index : Nat} (h : cntA s index ≠ cntB s index)
    (hidle : taskStepRuns s index = false) : compareCopies s 0 index = zeroCounter s index := by
  simp [compareCopies, h, hidle]

theorem compareCopies_of_running {s : State} {index c : Nat} (h : cntA s index ≠ cntB s index)
    (hrun : taskStepRuns s index = true) (howner : taskOwner s index = some c) :
    compareCopies s 0 index = divergeCounter s c index := by
  simp [compareCopies, h, hrun, howner]

theorem compareCopies_of_free {s : State} {index : Nat} (hnone : objOf s index = none)
    (hword : tget 0 s.syn.freeB index ≠ 0) : compareCopies s 1 index = zeroFree s index := by
  simp [compareCopies, hnone, hword]

/-- The divergence is noted in the register of the task's owner, where it has one. -/
def ownerNoted (s : State) (t : Nat) : State :=
  match taskOwner s t with
  | some c => divSeen s c
  | none => s

theorem ownerNoted_regsFrame (s : State) (t : Nat) : RegsFrame s (ownerNoted s t) := by
  unfold ownerNoted
  split <;> rfl

theorem zeroCounter_eq (s : State) (t : Nat) :
    zeroCounter s t = setCounter (record (ownerNoted s t) 1 0x04 0x10 (taskOwner s t)
      (cntA (ownerNoted s t) t) (cntB (ownerNoted s t) t + t * 2 ^ 32)) t 0 := rfl

theorem zeroCounter_of_room {s : State} (t : Nat) (hroom : s.saf.recQ.length < 32) :
    ∃ e : Rec, e.sev = 1 ∧ e.code = 0x10 ∧ zeroCounter s t =
      setCounter { s with regs := (ownerNoted s t).regs, saf := { s.saf with recQ := s.saf.recQ ++ [e] } } t 0 := by
  have hframe : ownerNoted s t = { s with regs := (ownerNoted s t).regs } := ownerNoted_regsFrame s t
  generalize (ownerNoted s t).regs = regs at hframe
  rw [zeroCounter_eq, hframe, record_of_room (s := { s with regs := regs }) hroom]
  exact ⟨_, rfl, rfl, rfl⟩

theorem scrub_zeroes_counter {s : State} {index : Nat} (h : cntA s index ≠ cntB s index)
    (hidle : taskStepRuns s index = false) (hcalm : calm s) (hroom : s.saf.recQ.length < 32) :
    ∃ t e, exec (.scrub 0 index 0 none) s = .next t ∧ cntA t index = 0 ∧ cntB t index = 0 ∧
      t.saf.recQ = s.saf.recQ ++ [e] ∧ e.sev = 1 ∧ e.code = 0x10 ∧ t.asks = [] ∧ t.saf.recov = s.saf.recov := by
  obtain ⟨e, hsev, hcode, hzero⟩ := zeroCounter_of_room index hroom
  have hsettle : settle (zeroCounter s index) = zeroCounter s index := by
    rw [hzero]
    exact settle_of_calm hcalm
  refine ⟨zeroCounter s index, e, ?_, ?_, ?_, ?_, hsev, hcode, ?_, ?_⟩
  · rw [exec_scrub_compare, show ((0 : Fin 23) : Nat) = 0 from rfl, compareCopies_of_idle h hidle, hsettle]
  · rw [hzero, cntA_setCounter_same]
  · rw [hzero, cntB_setCounter_same]
  · rw [hzero]
    rfl
  · rw [hzero]
    exact hcalm.1
  · rw [hzero]
    rfl

/-- The copy of a free object's word is cleared. -/
def freeCleared (s : State) (k : Nat) : State := { s with syn := { s.syn with freeB := tdel s.syn.freeB k } }

theorem zeroFree_of_room {s : State} (k : Nat) (hroom : s.saf.recQ.length < 32) :
    ∃ e : Rec, e.sev = 1 ∧ e.code = 0x11 ∧
      zeroFree s k = { freeCleared s k with saf := { s.saf with recQ := s.saf.recQ ++ [e] } } :=
  ⟨_, rfl, rfl, record_of_room (s := freeCleared s k) hroom 1 0x09 0x11 none 0 k⟩

theorem scrub_zeroes_free {s : State} {index : Nat} (hnone : objOf s index = none)
    (hword : tget 0 s.syn.freeB index ≠ 0) (hcalm : calm s) (hroom : s.saf.recQ.length < 32) :
    ∃ t e, exec (.scrub 1 index 0 none) s = .next t ∧ tget 0 t.syn.freeB index = 0 ∧
      t.saf.recQ = s.saf.recQ ++ [e] ∧ e.sev = 1 ∧ e.code = 0x11 ∧ t.syn.objA = s.syn.objA ∧ t.asks = [] := by
  obtain ⟨e, hsev, hcode, hzero⟩ := zeroFree_of_room index hroom
  refine ⟨{ freeCleared s index with saf := { s.saf with recQ := s.saf.recQ ++ [e] } }, e, ?_, ?_, rfl, hsev, hcode,
    rfl, hcalm.1⟩
  · rw [exec_scrub_compare, show ((1 : Fin 23) : Nat) = 1 from rfl, compareCopies_of_free hnone hword, hzero]
    exact congrArg Host.Outcome.next (settle_of_calm hcalm)
  · simp [freeCleared, tget, tget?_tdel]

/-- Settles O47: the record and its reads, then the comparators, then the scrubs by their finding. -/
theorem errorsAndScrubbing : Obligations.ErrorsAndScrubbing := by
  unfold Obligations.ErrorsAndScrubbing
  refine ⟨⟨fun s e rest hq hsev hcalm hlevel => errorRecord_taken hq hsev hcalm hlevel,
    fun s hq hcalm => exec_errorRecord_of_none hq hcalm, fun s e hsev hlevel => acceptRec_notifies s hsev hlevel,
    fun s w => ⟨_, rfl, ?_, rfl, fun o ho => reg_setReg_ne s _ ho, rfl⟩,
    fun s r hring hseq => ⟨_, rfl, recDataWord_of_held hring hseq, rfl, rfl, rfl, rfl⟩,
    fun s hring => ⟨_, rfl, recDataWord_of_empty hring⟩⟩,
    fun s p => ?_, fun s p ok diff hpath => exec_comparatorTest_of_no_path s ok diff hpath,
    fun s p hpath hroom => ?_, fun s p hpath hroom => ?_, fun s k index hroom => scrub_corrected k index hroom,
    fun s k index => ⟨_, exec_scrub_pass s k index, reg_addReg_same s _ _, rfl⟩, fun s index heq hcalm => ?_,
    fun s index hne hidle hcalm hroom => scrub_zeroes_counter hne hidle hcalm hroom,
    fun s index c hne hrun howner => ?_,
    fun s index hnone hword hcalm hroom => scrub_zeroes_free hnone hword hcalm hroom⟩
  · exact (reg_setReg_same s 0xA00010 w.toNat).trans (Nat.mod_eq_of_lt w.isLt)
  · cases hpath : isPath p.val with
    | false => exact exec_comparatorTest_of_no_path s true false hpath
    | true => exact exec_comparatorTest_of_path s true false hpath
  · exact ⟨_, _, exec_comparatorTest_of_path s false false hpath, by simp [record_of_room hroom]; rfl, rfl, rfl, rfl,
      path_mod p, by simp [record_of_room hroom]⟩
  · exact ⟨_, _, exec_comparatorTest_of_path s true true hpath, by simp [record_of_room hroom]; rfl, rfl, rfl, rfl,
      path_mod p, by simp [record_of_room hroom]⟩
  · rw [exec_scrub_compare, show ((0 : Fin 23) : Nat) = 0 from rfl, compareCopies_of_equal heq, settle_of_calm hcalm]
  · rw [exec_scrub_compare, show ((0 : Fin 23) : Nat) = 0 from rfl, compareCopies_of_running hne hrun howner]

end Sys2Proof.Machine
end

section
/-! Context recovery (R614-R617, R623): the rebuild of a context's counters from the ledger, and the re-entry of its
tasks. -/

namespace Sys2Proof.Machine

open Sys2Proof

/-! ### The context whose recovery goes on -/

/-- Whether a recovery's next act is the rebuild: its killed commands have ended. -/
def rebuildsNext (s : State) (e : Nat × Nat) : Bool :=
  (e.2 == 3 || (e.2 == 4 && redoDue s e.1)) && rebuildDue s e.1

/-- The state that a rebuild of context `c` starts from in state `n` of its recovery. -/
def rebuildStart (s : State) (c n : Nat) : State := if n = 3 then clearForRebuild s c else s

/-- Every counter of the context's steps is rebuilt. -/
def countersRebuilt (s : State) (c : Nat) : State :=
  (recoverySteps s c).foldl (fun v e => (imgTasks e.2).foldl (rebuildTask c (doneEdges v e.2)) v) s

/-- The recovery of context `c` goes to state `n`. -/
def recoveryAt (s : State) (c n : Nat) : State := { s with saf := { s.saf with recov := tput s.saf.recov c n } }

theorem exec_recoveryRebuild_of_none {s : State} (h : ∀ e ∈ s.saf.recov, rebuildsNext s e = false) :
    exec .recoveryRebuild s = .next s := by
  show execRecoveryRebuild s = _
  have hfind : s.saf.recov.find? (rebuildsNext s) = none := List.find?_eq_none.mpr fun e he => by simp [h e he]
  simp only [execRecoveryRebuild]
  rw [show (s.saf.recov.find? fun e => (e.2 == 3 || (e.2 == 4 && redoDue s e.1)) && rebuildDue s e.1) = none
    from hfind]

theorem exec_recoveryRebuild_of_first {s : State} {c n : Nat} {q : List (Nat × Nat)}
    (hrecov : s.saf.recov = (c, n) :: q)
    (hnext : rebuildsNext s (c, n) = true) :
    exec .recoveryRebuild s = .next (settle (recoveryAt (countersRebuilt (rebuildStart s c n) c) c 5)) := by
  show execRecoveryRebuild s = _
  have hfind : s.saf.recov.find? (rebuildsNext s) = some (c, n) := by rw [hrecov, List.find?_cons_of_pos hnext]
  simp only [execRecoveryRebuild]
  rw [show (s.saf.recov.find? fun e => (e.2 == 3 || (e.2 == 4 && redoDue s e.1)) && rebuildDue s e.1) =
    some (c, n) from
    hfind]
  rfl

theorem rebuildsNext_of_due {s : State} {c : Nat} (hdue : rebuildDue s c = true) : rebuildsNext s (c, 3) = true := by
  simp [rebuildsNext, hdue]

theorem rebuildsNext_of_redo {s : State} {c : Nat} (hredo : redoDue s c = true) (hdue : rebuildDue s c = true) :
    rebuildsNext s (c, 4) = true := by
  simp [rebuildsNext, hredo, hdue]

theorem countersRebuilt_of_no_steps {s : State} {c : Nat} (hnone : recoverySteps s c = []) :
    countersRebuilt s c = s := by
  simp [countersRebuilt, hnone]

/-! ### Step 4 of R615 -/

/-- A rerun among the entries that go is kept in mind. -/
def rerunKept (s : State) (r : Ready) : State :=
  if r.again && r.msg.isNone && !thas s.saf.kept r.task then
    { s with saf := { s.saf with kept := tput s.saf.kept r.task { r with again := false } } }
  else s

theorem foldl_rerunKept (l : List Ready) (s : State) :
    ∃ kept, l.foldl rerunKept s = { s with saf := { s.saf with kept := kept } } := by
  induction l generalizing s with
  | nil => exact ⟨_, rfl⟩
  | cons r l ih =>
    obtain ⟨kept, hrest⟩ := ih (rerunKept s r)
    refine ⟨kept, ?_⟩
    rw [List.foldl_cons, hrest]
    unfold rerunKept
    split <;> rfl

/-- The reruns of the context that step 4 removes are kept in mind. -/
def rerunsKept (s : State) (c : Nat) : State :=
  (s.disp.ready.filter fun r => r.ctx == c && r.t1.isNone).foldl rerunKept s

/-- Whether a decrement in flight is for a task of the context. -/
def decOfCtx (s : State) (c : Nat) (e : Dec) : Bool :=
  match imgOfTask s e.task with
  | some (_, x) => x.ctx == c
  | none => false

/-- Decrements `mine`, and the ready entries, timer entries and started handler runs of the context go. -/
def waitingDropped (s : State) (c : Nat) (mine : Dec → Bool) : State :=
  let u := unassign s (fun ch => ch.ctx == c) (s.disp.runs.filterMap fun e => e.2.msg)
  { u with
    tge := { u.tge with decQ := u.tge.decQ.filter fun e => !mine e }
    disp := { u.disp with
      ready := u.disp.ready.filter fun r => !(r.ctx == c && r.t1.isNone)
      timers := u.disp.timers.filter fun t => t.ctx != c } }

/-- What the clearing leaves: entries of the context only where a save or restore made them, no timer of the context,
and nothing outside SAF, CHN, TGE's decrements and the lists of dispatch is touched. -/
theorem clearForRebuild_eq (s : State) (c : Nat) : ∃ kept chn decQ, clearForRebuild s c =
    { s with
      saf := { s.saf with kept := kept }
      chn := chn
      tge := { s.tge with decQ := decQ }
      disp := { s.disp with
        ready := s.disp.ready.filter fun r => !(r.ctx == c && r.t1.isNone)
        timers := s.disp.timers.filter fun t => t.ctx != c } } := by
  obtain ⟨kept, hkept⟩ := foldl_rerunKept (s.disp.ready.filter fun r => r.ctx == c && r.t1.isNone) s
  have hdropped : clearForRebuild s c = waitingDropped (rerunsKept s c) c (decOfCtx s c) := rfl
  rw [hdropped, rerunsKept, hkept]
  exact ⟨kept, _, _, rfl⟩

theorem recoveryRebuild_clears {s : State} {c : Nat} (hrecov : s.saf.recov = [(c, 3)]) (hdue : rebuildDue s c = true)
    (hnone : recoverySteps s c = []) (hcalm : calm s) :
    ∃ t, exec .recoveryRebuild s = .next t ∧ t.saf.recov = [(c, 5)] ∧
      (∀ r ∈ t.disp.ready, r.ctx = c → r.t1 ≠ none) ∧ (∀ x ∈ t.disp.timers, x.ctx ≠ c) ∧ t.tge.cntA = s.tge.cntA := by
  obtain ⟨kept, chn, decQ, hclear⟩ := clearForRebuild_eq s c
  have hsteps : countersRebuilt (clearForRebuild s c) c = clearForRebuild s c :=
    countersRebuilt_of_no_steps (by rw [hclear]; exact hnone)
  obtain ⟨hasks, hops, hready⟩ := hcalm
  have hcalm' : calm (recoveryAt (clearForRebuild s c) c 5) := by
    rw [hclear]
    exact ⟨hasks, hops, fun r hr => hready r (List.mem_of_mem_filter hr)⟩
  refine ⟨recoveryAt (clearForRebuild s c) c 5, ?_, ?_⟩
  · rw [exec_recoveryRebuild_of_first hrecov (rebuildsNext_of_due hdue), rebuildStart, if_pos rfl, hsteps,
      settle_of_calm hcalm']
  · rw [hclear]
    refine ⟨?_, fun r hr hctx ht1 => ?_, fun x hx hctx => ?_, rfl⟩
    · simp [recoveryAt, hrecov, tput]
    · have hkeep := List.of_mem_filter hr
      simp [hctx, ht1] at hkeep
    · have hkeep := List.of_mem_filter hx
      simp [hctx] at hkeep

/-! ### The counter of one task (R616) -/

theorem checkLedger_of_agreeing {s : State} (c : Nat) {t : Nat} (h : tget {} s.saf.ledA t = tget {} s.saf.ledB t) :
    checkLedger s c t = s := if_pos h

theorem rebuildTask_of_plain {s : State} (c : Nat) {t : Nat} {dones : Table Nat}
    (hagree : tget {} s.saf.ledA t = tget {} s.saf.ledB t) (hkind : tdKind (descOf s t) ≠ 2)
    (hfit : b2n (tget {} s.saf.ledA t).waited + tget 0 dones t ≤ tdInCount (descOf s t))
    (hdone : (tget {} s.saf.ledA t).done = false) :
    rebuildTask c dones s t = setCounter s t (counterWord false (tdInCount (descOf s t))
      (tdInCount (descOf s t) - (b2n (tget {} s.saf.ledA t).waited + tget 0 dones t))) := by
  have hgood : (decide (tdInCount (descOf s t) < b2n (tget {} s.saf.ledA t).waited + tget 0 dones t) ||
      (tdKind (descOf s t) == 2 && decide (tdExpect (descOf s t) < tget 0 s.saf.runs t))) = false := by
    simp only [Bool.or_eq_false_iff, decide_eq_false_iff_not, Bool.and_eq_false_iff, beq_eq_false_iff_ne]
    exact ⟨by omega, .inl hkind⟩
  simp only [rebuildTask, checkLedger_of_agreeing c hagree, hgood, hdone, hkind, Bool.false_eq_true, if_false,
    decide_false, Bool.false_and]

/-! ### Re-entry (R617) -/

theorem reenterTask_of_settled {s : State} (i c : Nat) {t : Nat} (hagree : tget {} s.saf.ledA t = tget {} s.saf.ledB t)
    (h : isDone s t = true ∨ cwCount (cntA s t) ≠ 0 ∨ underWay s i t = true) : reenterTask i c s t = s := by
  have hstay : (isDone s t || decide (cwCount (cntA s t) ≠ 0) || decide (tdKind (descOf s t) = 2) ||
      underWay s i t) = true := by
    obtain h | h | h := h <;> simp [h]
  simp only [reenterTask, checkLedger_of_agreeing c hagree, hstay, if_true]

theorem reenterTask_of_ready {s : State} {i c t : Nat} (hagree : tget {} s.saf.ledA t = tget {} s.saf.ledB t)
    (hdone : isDone s t = false) (hcount : cwCount (cntA s t) = 0) (hway : underWay s i t = false)
    (hcond : tdKind (descOf s t) ≠ 2) (hsignal : tdKind (descOf s t) ≠ 4) (hgate : tdKind (descOf s t) ≠ 5)
    (hkept : tget? s.saf.kept t = none) : reenterTask i c s t = pushReady s (readyEntry s i c t none none) := by
  simp [reenterTask, checkLedger_of_agreeing c hagree, hdone, hcount, hway, hcond, hsignal, hgate, hkept]

/-- Whether a recovery's next act is the re-entry: no object of its context is frozen. -/
def reentersNext (s : State) (e : Nat × Nat) : Bool := e.2 == 5 && s.saf.frozen.all fun f => f.2.ctx != e.1

/-- The recovery of context `c` is over and counted. -/
def recoveryOver (s : State) (c : Nat) : State :=
  let v := setRegFld s (0xA01000 + 4 * c) 15 0 (satAdd 16 (regFld s (0xA01000 + 4 * c) 15 0) 1)
  { v with saf := { v.saf with recov := tdel v.saf.recov c, kept := tfilter (fun _ _ => true) v.saf.kept } }

theorem exec_recoveryReentry_of_none {s : State} (h : ∀ e ∈ s.saf.recov, e.2 ≠ 5) :
    exec .recoveryReentry s = .next s := by
  show execRecoveryReentry s = _
  have hfind : s.saf.recov.find? (reentersNext s) = none :=
    List.find?_eq_none.mpr fun e he => by simp [reentersNext, h e he]
  simp only [execRecoveryReentry]
  rw [show (s.saf.recov.find? fun e => e.2 == 5 && s.saf.frozen.all fun f => f.2.ctx != e.1) = none from hfind]

theorem exec_recoveryReentry_of_no_steps {s : State} {c : Nat} (hrecov : s.saf.recov = [(c, 5)])
    (hfrozen : ∀ f ∈ s.saf.frozen, f.2.ctx ≠ c) (hnone : recoverySteps s c = []) (hcalm : calm s) :
    exec .recoveryReentry s = .next (recoveryOver s c) := by
  show execRecoveryReentry s = _
  have hnext : reentersNext s (c, 5) = true := by
    simp only [reentersNext, beq_self_eq_true, Bool.true_and, List.all_eq_true, bne_iff_ne]
    exact hfrozen
  have hfind : s.saf.recov.find? (reentersNext s) = some (c, 5) := by rw [hrecov, List.find?_cons_of_pos hnext]
  simp only [execRecoveryReentry]
  rw [show (s.saf.recov.find? fun e => e.2 == 5 && s.saf.frozen.all fun f => f.2.ctx != e.1) = some (c, 5) from hfind]
  simp only [hnone]
  exact congrArg Host.Outcome.next (settle_of_calm hcalm)

theorem satAdd_16_mod (a b : Nat) : satAdd 16 a b % 2 ^ 16 = satAdd 16 a b :=
  Nat.mod_eq_of_lt (by unfold satAdd; omega)

theorem recoveryReentry_ends {s : State} {c : Nat} (hrecov : s.saf.recov = [(c, 5)])
    (hfrozen : ∀ f ∈ s.saf.frozen, f.2.ctx ≠ c) (hnone : recoverySteps s c = []) (hcalm : calm s) :
    ∃ t, exec .recoveryReentry s = .next t ∧ t.saf.recov = [] ∧
      regFld t (0xA01000 + 4 * c) 15 0 = satAdd 16 (regFld s (0xA01000 + 4 * c) 15 0) 1 ∧
      t = { s with saf := t.saf, regs := t.regs } := by
  refine ⟨recoveryOver s c, exec_recoveryReentry_of_no_steps hrecov hfrozen hnone hcalm, ?_, ?_, rfl⟩
  · simp [recoveryOver, hrecov, tdel]
  · exact (regFld_setRegFld_same s _ 15 0 _ (by decide) (by decide)).trans (satAdd_16_mod _ _)

/-- Settles O48: the rebuild of a context, the counter of one task, then the re-entry and its tasks. -/
theorem recoveries : Obligations.Recoveries := by
  unfold Obligations.Recoveries
  refine ⟨fun s h => exec_recoveryRebuild_of_none fun e he => ?_, fun s c hrecov hredo hdue => ?_,
    fun s c hrecov hdue hnone hcalm => recoveryRebuild_clears hrecov hdue hnone hcalm,
    fun s c q hrecov hdue => ?_,
    fun s c t dones hagree _ hkind hfit hdone => rebuildTask_of_plain c hagree hkind hfit hdone,
    fun s c hrecov hfrozen hnone hcalm _ => recoveryReentry_ends hrecov hfrozen hnone hcalm,
    fun s h => exec_recoveryReentry_of_none h, fun s i c t hagree h => reenterTask_of_settled i c hagree h,
    fun s i c t hagree hdone hcount hway hcond hsignal hgate hkept =>
      reenterTask_of_ready hagree hdone hcount hway hcond hsignal hgate hkept⟩
  · have hne := h e he
    rw [Bool.eq_false_iff]
    intro hnext
    exact hne (by simpa [rebuildsNext] using hnext)
  · exact exec_recoveryRebuild_of_first hrecov (rebuildsNext_of_redo hredo hdue)
  · exact exec_recoveryRebuild_of_first hrecov (rebuildsNext_of_due hdue)

end Sys2Proof.Machine
end

section
/-! Bring-up (R178, R669-R674): the marches, the known-answer tests and the training of fields and field links. -/

namespace Sys2Proof.Machine

open Sys2Proof

theorem cellarUp_cases (s : State) : ∃ up, cellarUp s = { s with pat := { s.pat with up := up } } := by
  unfold cellarUp
  split
  · exact ⟨_, rfl⟩
  · exact ⟨s.pat.up, rfl⟩

theorem regBit_cellarUp (s : State) (o i : Nat) : regBit (cellarUp s) o i = regBit s o i := by
  obtain ⟨up, h⟩ := cellarUp_cases s
  rw [h]
  rfl

theorem reg_cellarUp (s : State) (o : Nat) : reg (cellarUp s) o = reg s o := by
  obtain ⟨up, h⟩ := cellarUp_cases s
  rw [h]
  rfl

theorem regFld_cellarUp (s : State) (o hi lo : Nat) : regFld (cellarUp s) o hi lo = regFld s o hi lo :=
  congrArg (fld · hi lo) (reg_cellarUp s o)

theorem cellarUp_tst (s : State) : (cellarUp s).tst = s.tst := by
  obtain ⟨up, h⟩ := cellarUp_cases s
  rw [h]

theorem record_disp (s : State) (sev unit code : Nat) (ctx : Option Nat) (detail param : Nat) :
    (record s sev unit code ctx detail param).disp = s.disp := by
  unfold record
  split <;> rfl

/-! ### The cellar's march and the known-answer tests -/

/-- The march of the cellar has ended with this many repairs. -/
def marchShown (s : State) (repairs : Nat) : State :=
  setReg (setRegBit (cellarMemories { s with tst := { s.tst with celMarch := false } }) 0xB80000 31 true) 0xB80004
    (repairs % 65536)

theorem exec_cellarBistDone_of_good {s : State} (n : Nat) (hmarch : s.tst.celMarch = true) :
    exec (.cellarBistDone n none) s = .next (cellarUp (marchShown s n)) := by
  show execCellarBistDone n none s = _
  simp only [execCellarBistDone, hmarch, Bool.not_true, Bool.false_eq_true, if_false]
  rfl

theorem exec_cellarBistDone_of_bad {s : State} (n m row : Nat) (hmarch : s.tst.celMarch = true) :
    exec (.cellarBistDone n (some (m, row))) s = .next (record (setReg (setRegBit (marchShown s n) 0xB80000 30 true)
      0xB80008 (m % 65536 * 65536 + row % 65536)) 3 0x16 0x90 none m row) := by
  show execCellarBistDone n (some (m, row)) s = _
  simp only [execCellarBistDone, hmarch, Bool.not_true, Bool.false_eq_true, if_false]
  rfl

theorem marchShown_shows (s : State) (n : Nat) :
    regBit (marchShown s n) 0xB80000 31 = true ∧ reg (marchShown s n) 0xB80004 = n % 65536 ∧
      (marchShown s n).tst.celMarch = false := by
  refine ⟨?_, ?_, rfl⟩
  · rw [marchShown, regBit_setReg_ne _ _ _ (by decide)]
    exact regBit_setRegBit_same _ _ _ _ (by decide)
  · exact (reg_setReg_same _ _ _).trans (Nat.mod_eq_of_lt (by omega))

theorem cellarBistDone_bad_shows {s : State} (n m row : Nat) (hmarch : s.tst.celMarch = true)
    (hroom : s.saf.recQ.length < 32) :
    ∃ t, exec (.cellarBistDone n (some (m, row))) s = .next t ∧ regBit t 0xB80000 30 = true ∧
      reg t 0xB80008 = m % 65536 * 65536 + row % 65536 ∧ t.saf.recQ.length = s.saf.recQ.length + 1 := by
  rw [exec_cellarBistDone_of_bad n m row hmarch, record_of_room (s := setReg (setRegBit (marchShown s n) 0xB80000 30
    true) 0xB80008 (m % 65536 * 65536 + row % 65536)) hroom]
  refine ⟨_, rfl, ?_, ?_, List.length_append⟩
  · exact (regBit_setReg_ne _ _ _ (by decide)).trans (regBit_setRegBit_same _ _ _ _ (by decide))
  · exact (reg_setReg_same _ _ _).trans (Nat.mod_eq_of_lt (by omega))

theorem exec_katDone_of_first {s : State} (ok : Bool) (hup : s.tst.celLow = false)
    (hfirst : regFld s 0x180004 1 0 = 0) :
    exec (.katDone ok) s = .next (cellarUp (if ok then setRegFld s 0x180004 1 0 1
      else record (setRegFld s 0x180004 1 0 2) 2 0x02 0x62 none 0 0)) := by
  show execKatDone ok s = _
  cases ok <;> simp [execKatDone, hup, hfirst]

theorem katDone_shows {s : State} (ok : Bool) (hup : s.tst.celLow = false) (hfirst : regFld s 0x180004 1 0 = 0) :
    ∃ t, exec (.katDone ok) s = .next t ∧ regFld t 0x180004 1 0 = (if ok then 1 else 2) := by
  refine ⟨_, exec_katDone_of_first ok hup hfirst, ?_⟩
  rw [regFld_cellarUp]
  cases ok with
  | true => exact regFld_setRegFld_same _ _ _ _ _ (by decide) (by decide)
  | false =>
    exact (regFld_record_outside_saf _ _ _ _ _ _ _ _ _ (by decide)).trans
      (regFld_setRegFld_same _ _ _ _ _ (by decide) (by decide))

/-! ### Fields and field links -/

/-- The last field's march has ended: the core side is marched. -/
def fieldMarched (s : State) (f : Fin 8) : State :=
  setRegBit (setField { s with tst := { s.tst with coreMarch := [] } } f { fieldOf s f with bist := true })
    0xB80000 29 true

theorem exec_coreBistDone_of_last {s : State} {f : Fin 8} (hmarch : s.tst.coreMarch = [f.val]) :
    exec (.coreBistDone f []) s = .next (fieldMarched s f) := by
  show execCoreBistDone f [] s = _
  simp [execCoreBistDone, hmarch, fieldMarched, fieldOf]

theorem exec_fieldTrainingStart_of_ready {s : State} {f : Fin 8} (hbist : (fieldOf s f).bist = true)
    (hcel : cellarReady s = true) (htrain : (fieldOf s f).train = 0) (hrst : s.disp.coreRst = false)
    (hoff : (fieldOf s f).offReq = false) (htest : linkTested s f = false) :
    exec (.fieldTrainingStart f) s = .next (setField s f { fieldOf s f with train := 1 }) := by
  show execFieldTrainingStart f s = _
  simp [execFieldTrainingStart, hbist, hcel, htrain, hrst, hoff, htest]

theorem exec_fieldTrainingEnd_of_good {s : State} {f : Fin 8} {down up : Nat} (htrain : (fieldOf s f).train = 1)
    (hdown : down ≤ 64) (hup : up ≤ 64) :
    exec (.fieldTrainingEnd f true down up 0 false) s =
      .next (setField s f { fieldOf s f with sparesDown := down, sparesUp := up, train := 2 }) := by
  show execFieldTrainingEnd f true down up 0 s false = _
  simp [execFieldTrainingEnd, htrain, Nat.not_lt.mpr hdown, Nat.not_lt.mpr hup, Nat.min_eq_left hdown,
    Nat.min_eq_left hup]

theorem fieldOf_trainFail (s : State) (detail lanes f : Nat) : fieldOf (trainFail s detail lanes) f = fieldOf s f := by
  rw [fieldOf, trainFail, record_disp]
  rfl

/-- A record that finds SAF's queue full leaves every register above those of its queue as it was. -/
theorem reg_record_above_saf (s : State) (sev unit code : Nat) (ctx : Option Nat) (detail param : Nat) {o : Nat}
    (ho : 0xA00040 ≤ o) : reg (record s sev unit code ctx detail param) o = reg s o := by
  unfold record
  split
  · rfl
  · rw [reg_setRegBit_ne _ _ _ (by omega), reg_addReg_ne _ _ (by omega), queueOverrun,
      reg_setRegFld_ne _ _ _ _ (by omega), reg_setRegBit_ne _ _ _ (by omega)]

theorem flag_trainFail (s : State) (detail lanes : Nat) : regBit (trainFail s detail lanes) 0xB80000 25 = true := by
  rw [trainFail, regBit, reg_record_above_saf _ _ _ _ _ _ _ (by decide)]
  exact regBit_setRegBit_same s 0xB80000 25 true (by decide)

/-- A field whose training has failed, with the spares that it took. -/
def fieldFailed (x : Field) (down up : Nat) : Field :=
  { x with sparesDown := min down 64, sparesUp := min up 64, train := 3 }

/-- A training that leaves a field without its lanes or its words: the field has failed. -/
theorem exec_fieldTrainingEnd_of_bad {s : State} {f : Fin 8} {down up left : Nat} {wordErr : Bool}
    (htrain : (fieldOf s f).train = 1) (hbad : 64 < down ∨ 64 < up ∨ left ≠ 0 ∨ wordErr = true) :
    ∃ lanes, exec (.fieldTrainingEnd f true down up left wordErr) s =
      .next (trainFail (setField s f (fieldFailed (fieldOf s f) down up)) f lanes) := by
  show ∃ lanes, execFieldTrainingEnd f true down up left s wordErr = _
  by_cases hlanes : 64 < down ∨ 64 < up
  · refine ⟨down + up, ?_⟩
    simp [execFieldTrainingEnd, htrain, hlanes, fieldFailed]
  · have hleft : left ≠ 0 ∨ wordErr = true := by tauto
    refine ⟨left, ?_⟩
    rw [not_or] at hlanes
    simp [execFieldTrainingEnd, htrain, hlanes, hleft, fieldFailed]

theorem exec_fieldLinkTrainingEnd_of_good {s : State} {n : Fin 7} (hleft : fieldReady s n = true)
    (hright : fieldReady s (n + 1) = true) (hnew : s.tst.flDone.contains n.val = false)
    (htest : linkTested s (64 + n) = false) :
    exec (.fieldLinkTrainingEnd n 0) s =
      .next (setRegBit { s with tst := { s.tst with flDone := n.val :: s.tst.flDone } } 0xB80010 n false) := by
  show execFieldLinkTrainingEnd n 0 s = _
  simp only [execFieldLinkTrainingEnd, hleft, hright, hnew, htest, Bool.not_false, Bool.and_self, if_true]

/-- Settles O9: the cellar's march, the known-answer tests, then fields and field links. -/
theorem bringUp : Obligations.BringUp := by
  unfold Obligations.BringUp
  refine ⟨fun s n hmarch => ?_, fun s n m row hmarch hroom => cellarBistDone_bad_shows n m row hmarch hroom,
    fun s ok hup hfirst => katDone_shows ok hup hfirst, fun s f hmarch => ?_,
    fun s f hbist hcel htrain hrst hoff htest =>
      exec_fieldTrainingStart_of_ready hbist hcel htrain hrst hoff htest,
    fun s f down up htrain hdown hup => exec_fieldTrainingEnd_of_good htrain hdown hup,
    fun s f down up left wordErr htrain hbad => ?_, fun s n hleft hright hnew htest => ?_⟩
  · obtain ⟨hdone, hrepairs, hover⟩ := marchShown_shows s n
    exact ⟨_, exec_cellarBistDone_of_good n hmarch, (regBit_cellarUp _ _ _).trans hdone,
      (reg_cellarUp _ _).trans hrepairs, (congrArg Tst.celMarch (cellarUp_tst _)).trans hover⟩
  · exact ⟨_, exec_coreBistDone_of_last hmarch, congrArg Field.bist (fieldOf_setField_same _ _ _), rfl,
      regBit_setRegBit_same _ _ _ _ (by decide)⟩
  · obtain ⟨lanes, hexec⟩ := exec_fieldTrainingEnd_of_bad htrain hbad
    exact ⟨_, hexec, by rw [fieldOf_trainFail, fieldOf_setField_same, fieldFailed], flag_trainFail _ _ _⟩
  · exact ⟨_, exec_fieldLinkTrainingEnd_of_good hleft hright hnew htest,
      regBit_setRegBit_same _ _ _ _ (by omega), rfl⟩

end Sys2Proof.Machine
end

section
/-! Link tests (R676-R680), test wrappers and instruments (R681, R682). -/

namespace Sys2Proof.Machine

open Sys2Proof

/-! ### Bits of a written word -/

theorem bitAt_setFld_same (v : Nat) {i x : Nat} (hx : x.testBit 0 = true) : bitAt (setFld v i i x) i = true := by
  rw [bitAt_eq, testBit_setFld _ _ _ _ _ (by omega), if_pos (by omega), Nat.sub_self, hx]

theorem bitAt_setFld_outside (v : Nat) {hi lo i : Nat} (x : Nat) (h : lo ≤ hi + 1) (hi' : i < lo ∨ hi < i) :
    bitAt (setFld v hi lo x) i = bitAt v i := by
  rw [bitAt_eq, bitAt_eq, testBit_setFld _ _ _ _ _ h, if_neg (by omega)]

/-- TST_PRBS_CTL as a direction holds it: without the three commands, and with the reserved bits 0. -/
def ctlTaken (w : Nat) : Nat := setFld (w % 2 ^ 29) 23 11 0

theorem lane_ctlTaken (w i x : Nat) (hi : 29 ≤ i) : fld (ctlTaken (setFld w i i x)) 10 0 = fld w 10 0 := by
  refine Nat.eq_of_testBit_eq fun j => ?_
  rw [fld_testBit, fld_testBit, ctlTaken]
  by_cases hj : j < 11
  · rw [testBit_setFld _ _ _ _ _ (by omega), if_neg (by omega), Nat.testBit_mod_two_pow,
      testBit_setFld _ _ _ _ _ (by omega), if_neg (by omega)]
    simp [show j < 29 by omega]
  · simp [hj]

/-! ### Directions -/

@[simp] theorem prbsOf_setPrbs_same (s : State) (k : Nat) (x : Prbs) : prbsOf (setPrbs s k x) k = x :=
  tget_tput_same ({} : Prbs) s.tst.prbs k x

theorem prbsOf_setPrbs_ne (s : State) {k j : Nat} (x : Prbs) (h : j ≠ k) : prbsOf (setPrbs s k x) j = prbsOf s j :=
  tget_tput_ne ({} : Prbs) s.tst.prbs x h

theorem prbsOf_retrainLink (s : State) (k j : Nat) : prbsOf (retrainLink s k) j = prbsOf s j := by
  dsimp only [retrainLink]
  repeat' split
  all_goals rfl

/-- Errors are only counted: whatever lanes they name, the rest of a direction's test stays. -/
theorem addErrs_keeps (x : Prbs) (l : List (Nat × Nat)) :
    (x.addErrs l).running = x.running ∧ (x.addErrs l).bits = x.bits := by
  induction l generalizing x with
  | nil => exact ⟨rfl, rfl⟩
  | cons e l ih =>
    simp only [Prbs.addErrs]
    split
    · exact ih x
    · exact ih _

theorem addErrs_of_locked {x : Prbs} {lane : Nat} (hlock : x.locked.contains lane = true) :
    x.addErrs [(lane, 1)] =
      { x with errs := tput x.errs lane (tget 0 x.errs lane + 1), first := x.first.or (some lane) } := by
  simp only [Prbs.addErrs, hlock]
  rfl

theorem endPrbs_of_idle {s : State} {k : Nat} (hidle : (prbsOf s k).running = false) (l : List (Nat × Nat)) :
    endPrbs s k l = s := by
  simp [endPrbs, (addErrs_keeps (prbsOf s k) l).1, hidle]

theorem endPrbs_of_running {s : State} {k : Nat} (hrun : (prbsOf s k).running = true) (l : List (Nat × Nat)) :
    endPrbs s k l =
      retrainLink (setPrbs s k { (prbsOf s k).addErrs l with running := false, done := true }) k := by
  simp [endPrbs, (addErrs_keeps (prbsOf s k) l).1, hrun]

/-- R680: the test is over, and BITS stays. -/
theorem endPrbs_ends {s : State} {k : Nat} (hrun : (prbsOf s k).running = true) (l : List (Nat × Nat)) :
    (prbsOf (endPrbs s k l) k).running = false ∧ (prbsOf (endPrbs s k l) k).done = true ∧
      (prbsOf (endPrbs s k l) k).bits = (prbsOf s k).bits ∧
      (prbsOf (endPrbs s k l) k).errs = ((prbsOf s k).addErrs l).errs ∧
      ∀ j, j ≠ k → prbsOf (endPrbs s k l) j = prbsOf s j := by
  have hone : prbsOf (endPrbs s k l) k = { (prbsOf s k).addErrs l with running := false, done := true } := by
    rw [endPrbs_of_running hrun, prbsOf_retrainLink, prbsOf_setPrbs_same]
  have hothers (j) (hj : j ≠ k) : prbsOf (endPrbs s k l) j = prbsOf s j := by
    rw [endPrbs_of_running hrun, prbsOf_retrainLink, prbsOf_setPrbs_ne _ _ hj]
  rw [hone]
  exact ⟨rfl, rfl, (addErrs_keeps _ l).2, rfl, hothers⟩

/-- A test that ends with a control word of its own and no further error keeps its counts. -/
theorem endPrbs_ctl_ends {s : State} {k : Nat} (hrun : (prbsOf s k).running = true) (c : Nat) :
    (prbsOf (endPrbs (setPrbs s k { prbsOf s k with ctl := c }) k []) k).running = false ∧
      (prbsOf (endPrbs (setPrbs s k { prbsOf s k with ctl := c }) k []) k).done = true ∧
      (prbsOf (endPrbs (setPrbs s k { prbsOf s k with ctl := c }) k []) k).bits = (prbsOf s k).bits ∧
      (prbsOf (endPrbs (setPrbs s k { prbsOf s k with ctl := c }) k []) k).errs = (prbsOf s k).errs ∧
      ∀ j, j ≠ k → prbsOf (endPrbs (setPrbs s k { prbsOf s k with ctl := c }) k []) j = prbsOf s j := by
  have hx := prbsOf_setPrbs_same s k { prbsOf s k with ctl := c }
  obtain ⟨hover, hdone, hbits, herrs, hothers⟩ := endPrbs_ends (l := []) (s := setPrbs s k
    { prbsOf s k with ctl := c }) (k := k) (by rw [hx]; exact hrun)
  rw [hx] at hbits herrs
  exact ⟨hover, hdone, hbits, herrs, fun j hj => (hothers j hj).trans (prbsOf_setPrbs_ne _ _ hj)⟩

/-! ### Writes of TST_PRBS_CTL -/

theorem writePrbsCtl_of_no_direction {s : State} (hkey : prbsKey (reg s 0xB80100) = none) {w : Nat}
    (hstart : bitAt w 31 = true) (l : List (Nat × Nat)) : writePrbsCtl s w l = testRefused s := by
  simp only [writePrbsCtl, hkey, hstart, if_true]

section
variable {s : State} {k : Nat} (hkey : prbsKey (reg s 0xB80100) = some k)
include hkey

theorem writePrbsCtl_of_refused {w : Nat} (hstart : bitAt w 31 = true) (hbad : prbsStartOk s k (ctlTaken w) = false)
    (l : List (Nat × Nat)) : writePrbsCtl s w l = testRefused s := by
  rw [ctlTaken] at hbad
  simp only [writePrbsCtl, hkey, hstart, hbad, Bool.not_false, Bool.and_self, if_true]

/-- A START alone begins the direction's test with its counts at 0. -/
theorem writePrbsCtl_of_start {w : Nat} (hstart : bitAt w 31 = true) (hinject : bitAt w 29 = false)
    (hstop : bitAt w 30 = false) (hok : prbsStartOk s k (ctlTaken w) = true) (l : List (Nat × Nat)) :
    writePrbsCtl s w l = setPrbs s k { prbsOf s k with
      ctl := ctlTaken w, running := true, bits := 0, errs := [], first := none
      locked := if (prbsOf s k).running then (prbsOf s k).locked else [] } := by
  rw [ctlTaken] at hok
  simp only [writePrbsCtl, hkey, hstart, hinject, hstop, hok, Bool.not_true, Bool.and_false, Bool.false_and,
    Bool.false_eq_true, if_false, if_true]
  rfl

/-- A STOP alone ends the direction's test. -/
theorem writePrbsCtl_of_stop {w : Nat} (hstart : bitAt w 31 = false) (hinject : bitAt w 29 = false)
    (hstop : bitAt w 30 = true) (l : List (Nat × Nat)) :
    writePrbsCtl s w l = endPrbs (setPrbs s k { prbsOf s k with ctl := ctlTaken w }) k l := by
  simp only [writePrbsCtl, hkey, hstart, hinject, hstop, Bool.false_and, Bool.false_eq_true, if_false, if_true]
  rfl

/-- An INJECT alone into a test whose bits this chip checks is one wrong bit of the lane that it names. -/
theorem writePrbsCtl_of_inject {w : Nat} (hstart : bitAt w 31 = false) (hinject : bitAt w 29 = true)
    (hstop : bitAt w 30 = false) (hrun : (prbsOf s k).running = true) (hown : k < 128) (l : List (Nat × Nat)) :
    writePrbsCtl s w l = setPrbs s k
      ({ prbsOf s k with ctl := ctlTaken w }.addErrs [(fld (ctlTaken w) 10 0, 1)]) := by
  have hbits : ownBits k (setFld (w % 2 ^ 29) 23 11 0) = true := by simp [ownBits, hown]
  simp only [writePrbsCtl, hkey, hstart, hinject, hstop, hrun, hbits, Bool.false_and, Bool.and_self,
    Bool.false_eq_true, if_false, if_true]
  rfl

theorem prbsStart_begins {w : Word} (hinject : bitAt w.toNat 29 = false) (hstop : bitAt w.toNat 30 = false)
    (hok : prbsStartOk s k (ctlTaken (setFld w.toNat 31 31 1)) = true) :
    ∃ t, exec (.prbsStart w) s = .next t ∧ (prbsOf t k).running = true ∧ (prbsOf t k).bits = 0 ∧
      (prbsOf t k).errs = [] ∧ (prbsOf t k).first = none ∧ (∀ j, j ≠ k → prbsOf t j = prbsOf s j) ∧
      t = { s with tst := t.tst } := by
  have hwrite := writePrbsCtl_of_start (w := setFld w.toNat 31 31 1) hkey (bitAt_setFld_same _ rfl)
    ((bitAt_setFld_outside _ _ (by omega) (by omega)).trans hinject)
    ((bitAt_setFld_outside _ _ (by omega) (by omega)).trans hstop) hok []
  refine ⟨_, congrArg Host.Outcome.next hwrite, ?_⟩
  rw [prbsOf_setPrbs_same]
  exact ⟨rfl, rfl, rfl, rfl, fun j hj => prbsOf_setPrbs_ne _ _ hj, rfl⟩

theorem exec_prbsStop_of_stop {w : Word} (hstart : bitAt w.toNat 31 = false) (hinject : bitAt w.toNat 29 = false)
    (l : List (Nat × Nat)) : exec (.prbsStop w l) s =
      .next (endPrbs (setPrbs s k { prbsOf s k with ctl := ctlTaken (setFld w.toNat 30 30 1) }) k l) := by
  show execPrbsStop w l s = _
  rw [execPrbsStop, writePrbsCtl_of_stop hkey ((bitAt_setFld_outside _ _ (by omega) (by omega)).trans hstart)
    ((bitAt_setFld_outside _ _ (by omega) (by omega)).trans hinject) (bitAt_setFld_same _ rfl) l]

theorem prbsStop_ends {w : Word} (hrun : (prbsOf s k).running = true) (hstart : bitAt w.toNat 31 = false)
    (hinject : bitAt w.toNat 29 = false) :
    ∃ t, exec (.prbsStop w []) s = .next t ∧ (prbsOf t k).running = false ∧ (prbsOf t k).done = true ∧
      (prbsOf t k).bits = (prbsOf s k).bits ∧ (prbsOf t k).errs = (prbsOf s k).errs ∧
      ∀ j, j ≠ k → prbsOf t j = prbsOf s j := by
  obtain ⟨hover, hdone, hbits, herrs, hothers⟩ := endPrbs_ctl_ends hrun (ctlTaken (setFld w.toNat 30 30 1))
  exact ⟨_, exec_prbsStop_of_stop hkey hstart hinject [], hover, hdone, hbits, herrs, hothers⟩

theorem prbsInject_counts {w : Word} (hrun : (prbsOf s k).running = true) (hown : k < 128)
    (hstart : bitAt w.toNat 31 = false) (hstop : bitAt w.toNat 30 = false)
    (hlock : (prbsOf s k).locked.contains (fld w.toNat 10 0) = true) :
    ∃ t, exec (.prbsInject w) s = .next t ∧ (prbsOf t k).running = true ∧
      tget 0 (prbsOf t k).errs (fld w.toNat 10 0) = tget 0 (prbsOf s k).errs (fld w.toNat 10 0) + 1 ∧
      (∀ j, j ≠ fld w.toNat 10 0 → tget 0 (prbsOf t k).errs j = tget 0 (prbsOf s k).errs j) ∧
      t = { s with tst := t.tst } := by
  have hwrite := writePrbsCtl_of_inject (w := setFld w.toNat 29 29 1) hkey
    ((bitAt_setFld_outside _ _ (by omega) (by omega)).trans hstart) (bitAt_setFld_same _ rfl)
    ((bitAt_setFld_outside _ _ (by omega) (by omega)).trans hstop) hrun hown []
  rw [lane_ctlTaken _ _ _ (by omega),
    addErrs_of_locked (x := { prbsOf s k with ctl := ctlTaken (setFld w.toNat 29 29 1) }) hlock] at hwrite
  refine ⟨_, congrArg Host.Outcome.next hwrite, ?_⟩
  rw [prbsOf_setPrbs_same]
  exact ⟨hrun, tget_tput_same _ _ _ _, fun j hj => tget_tput_ne _ _ _ hj, rfl⟩

end

/-! ### The duration and the locks of lanes -/

theorem exec_prbsDurEnd_of_due {s : State} {sel : Fin 256} {k : Nat} (hkey : prbsKey sel = some k)
    (hrun : (prbsOf s k).running = true) (hdur : (prbsOf s k).dur ≠ 0)
    (hdue : (prbsOf s k).dur * 2 ^ 20 ≤ (prbsOf s k).bits) (l : List (Nat × Nat)) :
    exec (.prbsDurEnd sel l) s = .next (endPrbs s k l) := by
  show execPrbsDurEnd sel l s = _
  simp only [execPrbsDurEnd, hkey, hrun, hdur, hdue, Bool.not_true, Bool.false_or, decide_false, Bool.false_eq_true,
    if_false, if_true]

theorem exec_prbsDurEnd_of_none {s : State} {sel : Fin 256} (l : List (Nat × Nat))
    (h : prbsKey sel = none ∨ ∃ k, prbsKey sel = some k ∧ ((prbsOf s k).running = false ∨ (prbsOf s k).dur = 0)) :
    exec (.prbsDurEnd sel l) s = .next s := by
  show execPrbsDurEnd sel l s = _
  obtain hkey | ⟨k, hkey, hidle⟩ := h
  · simp only [execPrbsDurEnd, hkey]
  · have hover : (!(prbsOf s k).running || decide ((prbsOf s k).dur = 0)) = true := by simpa using hidle
    simp only [execPrbsDurEnd, hkey, hover, if_true]

theorem exec_prbsLaneLock_of_new {s : State} {sel : Fin 256} {lane : Fin 2048} {k : Nat} (hkey : prbsKey sel = some k)
    (hrun : (prbsOf s k).running = true) (hlane : lane.val < prbsLanes k)
    (hnew : (prbsOf s k).locked.contains lane.val = false) :
    exec (.prbsLaneLock sel lane) s =
      .next (setPrbs s k { prbsOf s k with locked := (prbsOf s k).locked ++ [lane.val] }) := by
  show execPrbsLaneLock sel lane s = _
  simp only [execPrbsLaneLock, hkey, hrun, hlane, hnew, decide_true, Bool.not_false, Bool.and_self, if_true]

theorem exec_prbsLaneLock_of_idle {s : State} {sel : Fin 256} {lane : Fin 2048} {k : Nat} (hkey : prbsKey sel = some k)
    (hidle : (prbsOf s k).running = false ∨ prbsLanes k ≤ lane.val) :
    exec (.prbsLaneLock sel lane) s = .next s := by
  show execPrbsLaneLock sel lane s = _
  have hno : ((prbsOf s k).running && decide (lane.val < prbsLanes k) &&
      !(prbsOf s k).locked.contains lane.val) = false := by
    obtain h | h := hidle
    · simp [h]
    · simp [Nat.not_lt.mpr h]
  simp only [execPrbsLaneLock, hkey, hno, Bool.false_eq_true, if_false]

/-! ### Wrappers (R681) -/

/-- A partition's wrappers take an instruction. -/
def wrapped (s : State) (p : Fin 2) (i : Fin 5) : State :=
  { s with tst := { s.tst with wraps := tput s.tst.wraps p i } }

theorem acceptAll_of_none (n : Nat) {s : State} (hq : s.saf.recQ = []) : acceptAll n s = s := by
  induction n with
  | zero => rfl
  | succ n ih => simpa only [acceptAll, acceptOldest, hq] using ih

theorem acceptOldest_record_of_none {s : State} (hq : s.saf.recQ = []) (sev unit code : Nat) (ctx : Option Nat)
    (detail param : Nat) :
    ∃ (e : Rec) (v : State), e.sev = sev ∧ v.tst = s.tst ∧
      acceptOldest (record s sev unit code ctx detail param) = acceptRec v e := by
  rw [record_of_room (s := s) (by simp [hq])]
  simp only [acceptOldest, hq, List.nil_append]
  refine ⟨_, _, ?_, ?_, rfl⟩
  · rfl
  · rfl

theorem safTst_recTaken_tst (s : State) (e : Rec) : (recTaken s e).tst = s.tst := by
  have hflag : (recFlagged s e).tst = s.tst := by rw [recFlagged_frame]
  unfold recTaken
  split
  · refine (foldl_keeps State.tst (fun u k => ?_) _ _).trans hflag
    rfl
  · exact hflag

theorem acceptRec_tst (s : State) (e : Rec) : (acceptRec s e).tst = s.tst := by
  rw [acceptRec_eq]
  split
  · exact (congrArg Prod.snd (safTst_safeEntered _ _)).trans (safTst_recTaken_tst s e)
  · exact (congrArg Prod.snd (safTst_notifyRec _ _)).trans (safTst_recTaken_tst s e)

theorem exec_wrapperInstruction_of_setup {s : State} (p : Fin 2) {i : Fin 5} (code : Nat) (hi : 2 ≤ i.val)
    (hsetup : setupDone s = true) :
    exec (.wrapperInstruction p i code) s = .next (setRegBit s 0xB80000 26 true) := by
  show execWrapperInstruction p i code s = _
  simp only [execWrapperInstruction, if_neg (Nat.not_le.mpr hi), hsetup, if_true]
  rfl

theorem wrapperInstruction_enters_safe {s : State} (p : Fin 2) {i : Fin 5} (code : Nat) (hi : 2 ≤ i.val)
    (hsetup : setupDone s = false) (hq : s.saf.recQ = []) :
    ∃ u, exec (.wrapperInstruction p i code) s = .next (settle u) ∧ u.saf.safe = true ∧
      tget? u.tst.wraps p = some i.val := by
  obtain ⟨e, v, hsev, hv, haccept⟩ := acceptOldest_record_of_none (s := wrapped s p i) hq 3 0x16 0x92 none p code
  refine ⟨acceptRec v e, ?_, acceptRec_of_fatal_is_safe v hsev, ?_⟩
  · show execWrapperInstruction p i code s = _
    have hall : acceptAll 32 (wrapped s p i) = wrapped s p i := acceptAll_of_none 32 hq
    have hexec : execWrapperInstruction p i code s =
        .next (settle (acceptOldest (record (acceptAll 32 (wrapped s p i)) 3 0x16 0x92 none p code))) := by
      simp only [execWrapperInstruction, if_neg (Nat.not_le.mpr hi), hsetup, Bool.false_eq_true, if_false]
      rfl
    rw [hexec, hall, haccept]
  · rw [acceptRec_tst, hv]
    exact tget?_tput_same _ _ _

/-! ### Instruments (R682) -/

theorem exec_instrumentWrite_of_setup {s : State} {i : Fin 4} (off : Nat) (w : Word) (hi : i.val = 0 ∨ i.val = 2)
    (hsetup : setupDone s = true) : exec (.instrumentWrite i off w) s = .next (setRegBit s 0xB80000 26 true) := by
  show execInstrumentWrite i off w s = _
  simp only [execInstrumentWrite, if_neg (show i.val ≠ 1 by omega), if_neg (show i.val ≠ 3 by omega), hsetup, if_true]
  rfl

theorem exec_instrumentWrite_march {s : State} {u : Nat} (w : Word) (hsetup : setupDone s = false)
    (hu : u < Config.numRex) (hrun : (unitOf s u).run = none) :
    exec (.instrumentWrite 0 (0x8000 + u) w) s = .next (modUnit s u fun x => { spad := x.spad }) := by
  show execInstrumentWrite 0 (0x8000 + u) w s = _
  simp [execInstrumentWrite, hsetup, hu, hrun]

@[simp] theorem unitOf_modUnit_same (s : State) (u : Nat) (f : RexUnit → RexUnit) :
    unitOf (modUnit s u f) u = f (unitOf s u) := tget_tput_same _ _ _ _

theorem unitOf_modUnit_ne (s : State) {u v : Nat} (f : RexUnit → RexUnit) (h : v ≠ u) :
    unitOf (modUnit s u f) v = unitOf s v := tget_tput_ne _ _ _ h

theorem rexFrame_modUnit (s : State) (u : Nat) (f : RexUnit → RexUnit) : rexFrame s (modUnit s u f) u :=
  ⟨rfl, rfl, rfl, fun _ hv => unitOf_modUnit_ne s f hv⟩

theorem exec_instrumentWrite_mismatch {s : State} {w : Word} (hsetup : setupDone s = false)
    (hpath : isPath w.toNat = true) :
    exec (.instrumentWrite 2 1 w) s = .next (record s 3 0x13 0x20 none w.toNat 0) := by
  show execInstrumentWrite 2 1 w s = _
  simp [execInstrumentWrite, hsetup, hpath]

/-- Settles O55: the direction's tests by what the write asks, their ends and locks, then wrappers and instruments. -/
theorem linkTestAndTestAccess : Obligations.LinkTestAndTestAccess := by
  unfold Obligations.LinkTestAndTestAccess
  refine ⟨⟨fun s w hkey => ?_, fun s w k hkey hbad => ?_,
    fun s w k hkey hok hinject hstop => prbsStart_begins hkey hinject hstop hok,
    fun s w k hkey hrun hstart hinject => prbsStop_ends hkey hrun hstart hinject,
    fun s w k l hkey hidle hstart hinject => ?_,
    fun s w k hkey hrun hown hstart hstop hlock => prbsInject_counts hkey hrun hown hstart hstop hlock,
    fun s sel k l hkey hrun hdur hdue => ?_, fun s sel l h => exec_prbsDurEnd_of_none l h,
    fun s sel lane k hkey hrun hlane hnew => exec_prbsLaneLock_of_new hkey hrun hlane hnew,
    fun s sel lane k hkey hidle => exec_prbsLaneLock_of_idle hkey hidle⟩,
    fun s p i code hi => ?_, fun s p i code hi hsetup => exec_wrapperInstruction_of_setup p code hi hsetup,
    fun s p i code hi hsetup hq => wrapperInstruction_enters_safe p code hi hsetup hq, fun s off w => rfl,
    fun s i off w hi hsetup => exec_instrumentWrite_of_setup off w hi hsetup, fun s off w => rfl,
    fun s u w hsetup hu hrun => ?_, fun s w hsetup hpath hroom => ?_⟩
  · exact congrArg Host.Outcome.next (writePrbsCtl_of_no_direction hkey (bitAt_setFld_same _ rfl) [])
  · exact congrArg Host.Outcome.next (writePrbsCtl_of_refused hkey (bitAt_setFld_same _ rfl) hbad [])
  · rw [exec_prbsStop_of_stop hkey hstart hinject, endPrbs_of_idle (by rw [prbsOf_setPrbs_same]; exact hidle)]
    rfl
  · obtain ⟨hover, hdone, hbits, -, -⟩ := endPrbs_ends hrun l
    exact ⟨_, exec_prbsDurEnd_of_due hkey hrun hdur hdue l, hover, hdone, hbits⟩
  · show execWrapperInstruction p i code s = _
    simp only [execWrapperInstruction, hi, if_true]
  · refine ⟨_, exec_instrumentWrite_march w hsetup hu hrun, ?_⟩
    rw [unitOf_modUnit_same]
    exact ⟨rfl, rfl, rfl, rexFrame_modUnit _ _ _⟩
  · rw [exec_instrumentWrite_mismatch hsetup hpath, record_of_room hroom]
    exact ⟨_, _, rfl, rfl, rfl, rfl, Nat.mod_eq_of_lt w.isLt, rfl⟩

end Sys2Proof.Machine
end

section
/-! TRACE_CTL, trace records and engine counters (R638-R656). -/

namespace Sys2Proof.Machine

open Sys2Proof

/-! ### The units' own writes leave the trace unit alone (R460) -/

theorem PageFrame.trc {s t : State} (h : PageFrame s t) : t.trc = s.trc := by
  rw [PageFrame] at h
  rw [h]

theorem PageFrame.rex {s t : State} (h : PageFrame s t) : t.rex = s.rex := by
  rw [PageFrame] at h
  rw [h]

theorem pageFrame_newTable {s t : State} {c a : Nat} {small : Bool} {field : Option Nat}
    (h : newTable s c small field = some (a, t)) : PageFrame s t := by
  unfold newTable at h
  cases hplace : tabPlace s c small with
  | some p =>
    simp only [hplace, Option.some.injEq, Prod.mk.injEq] at h
    rw [← h.2]
    rfl
  | none =>
    cases hframe : takeFrame s c false 3 0 field with
    | none => simp [hplace, hframe] at h
    | some e =>
      simp only [hplace, hframe, Option.some.injEq, Prod.mk.injEq] at h
      rw [← h.2]
      exact PageFrame.trans (takeFrame_effect hframe).2 rfl

theorem pageFrame_ensureTables {c vpn : Nat} {field : Option Nat} (ls : List Nat) {s t : State}
    (h : ensureTables s c vpn field ls = some t) : PageFrame s t := by
  induction ls generalizing s with
  | nil =>
    rw [Option.some.inj h]
    rfl
  | cons l ls ih =>
    simp only [ensureTables] at h
    split at h
    · exact ih h
    · split at h
      · cases h
      · next a u hnew =>
        refine (pageFrame_newTable hnew).trans (PageFrame.trans ?_ (ih h))
        repeat' split
        all_goals rfl

theorem pageFrame_writeLeaf (s : State) (c vpn : Nat) (m : PageMap) : PageFrame s (writeLeaf s c vpn m) := by
  dsimp only [writeLeaf]
  split <;> rfl

theorem pageFrame_mapForWrite {s t : State} {c vpn : Nat} {g : Region} {field : Option Nat}
    (h : mapForWrite s c vpn g field = some t) : PageFrame s t := by
  unfold mapForWrite at h
  split at h
  · cases h
  · next k u hframe =>
    split at h
    · cases h
    · next v htabs =>
      cases h
      exact (PageFrame.trans (takeFrame_effect hframe).2 (pageFrame_ensureTables _ htabs)).trans
        (pageFrame_writeLeaf _ _ _ _)

theorem writePage_trc {s t : State} {c va : Nat} {bs : List Byte} (h : writePage s c va bs = .done t) :
    t.trc = s.trc := by
  simp only [writePage] at h
  split at h
  · cases h
  · split at h
    · cases h
    · split at h
      · split at h <;> cases h
        rfl
      · split at h
        · cases h
        · next u hmap =>
          split at h <;> cases h
          exact ((pageFrame_mapForWrite hmap).trc : u.trc = s.trc)

theorem noteWait_trc (s : State) (c size : Nat) : (noteWait s c size).trc = s.trc := by
  simp only [noteWait]
  split <;> rfl

theorem unitWritePage_trc (s : State) (c va : Nat) (bs : List Byte) : (unitWritePage s c va bs).1.trc = s.trc := by
  unfold unitWritePage
  split
  · rfl
  · split
    · next t h => exact writePage_trc h
    · exact noteWait_trc _ _ _
    · rfl

theorem unitWriteGo_trc (c fuel : Nat) (s : State) (va : Nat) (bs : List Byte) :
    (unitWriteGo c fuel s va bs).1.trc = s.trc := by
  induction fuel generalizing s va bs with
  | zero => rfl
  | succ fuel ih =>
    cases bs with
    | nil => rfl
    | cons b bs =>
      simp only [unitWriteGo]
      split
      · exact (ih _ _ _).trans (unitWritePage_trc _ _ _ _)
      · exact unitWritePage_trc _ _ _ _

theorem unitWrite_trc (s : State) (c va : Nat) (bs : List Byte) : (unitWrite s c va bs).1.trc = s.trc :=
  unitWriteGo_trc _ _ _ _ _

theorem raiseEvent_trc (s : State) (c type sev src vint payload : Nat) :
    (raiseEvent s c type sev src vint payload).trc = s.trc := by
  rw [(eventFrame_raiseEvent s c type sev src vint payload).state]

/-! ### What a record that is written leaves of the trace -/

/-- Owner, region, mode and the commands in progress: what TRACE_CTL alone changes. -/
def trcPlan (s : State) : (Nat × Nat × Nat × Bool) × List (Cmd × Table Nat) :=
  ((s.trc.owner, s.trc.base, s.trc.segMiB, s.trc.halt), s.trc.flushes)

theorem trcPlan_of_trc {s t : State} (h : t.trc = s.trc) : trcPlan t = trcPlan s := by
  rw [trcPlan, trcPlan, h]

theorem trcPlan_writeSlot (s : State) (m off rec : Nat) : trcPlan (writeSlot s m off rec).1 = trcPlan s := by
  have hwrite := trcPlan_of_trc
    (unitWrite_trc s s.trc.owner (s.trc.base + m * segBytes s + off) (leBytes 16 rec))
  simp only [writeSlot]
  split
  · split <;> exact hwrite
  · exact hwrite

theorem trcPlan_putSlot (s : State) (m rec : Nat) : trcPlan (putSlot s m rec).1 = trcPlan s := by
  simp only [putSlot]
  split
  · rfl
  · split <;> exact trcPlan_writeSlot _ _ _ _

theorem trcPlan_putFull (s : State) (m : Nat) : trcPlan (putFull s m).1 = trcPlan s := by
  simp only [putFull]
  split <;> exact trcPlan_putSlot _ _ _

theorem trcPlan_putDue (s : State) (m : Nat) : trcPlan (putDue s m).1 = trcPlan s := by
  unfold putDue
  split
  · exact trcPlan_putFull s m
  · rfl

theorem trcPlan_putRecord (s : State) (m rec : Nat) : trcPlan (putRecord s m rec).1 = trcPlan s := by
  have hdues := (trcPlan_putDue (putDue s m).1 m).trans (trcPlan_putDue s m)
  simp only [putRecord]
  by_cases hone : (putDue s m).2 = true
  · simp only [hone, if_true]
    split
    · exact (trcPlan_putSlot _ _ _).trans hdues
    · exact hdues
  · simp only [hone, Bool.false_eq_true, if_false]
    exact trcPlan_putDue s m

theorem trcPlan_faultStop (s : State) (m : Nat) : trcPlan (faultStop s m) = trcPlan s :=
  trcPlan_of_trc (raiseEvent_trc _ _ _ _ _ _ _) (s := setRegBit (stopTrace s) 0xA80000 29 true)

theorem trcPlan_regionFault {s : State} (hnone : s.trc.flushes = []) (m : Nat) :
    trcPlan (regionFault s m) = trcPlan s := by
  have hstop := trcPlan_faultStop s m
  have hflushes : (faultStop s m).trc.flushes = [] := (congrArg Prod.snd hstop).trans hnone
  rw [← hstop]
  simp only [regionFault, trcPlan, hflushes, List.map_nil, List.foldl_nil]

theorem trcPlan_streamWrote {m : Nat} {r : State × Bool} (hnone : r.1.trc.flushes = []) :
    trcPlan (streamWrote m r) = trcPlan r.1 := by
  unfold streamWrote
  split
  · rfl
  · exact trcPlan_regionFault hnone m

/-! ### TRACE_CTL (R639-R642) -/

section
variable {s : State} {m : Cmd} {rest : List Cmd} (hnext : isNext s m rest 0x0800)
include hnext

omit hnext in
@[simp] theorem trcRuns_queueIs : trcRuns (queueIs s rest) = trcRuns s := rfl

theorem traceCtl_of_good {a : Nat} (hact : tcAction m = a) (hgood : traceCheck s m = none)
    (act : State → Cmd → State) : traceCtl a act s = .next (act (queueIs s rest) m) := by
  have hgood' : traceCheck (queueIs s rest) m = none := hgood
  simp only [traceCtl, nextTrace, popUnit_of_isNext hnext, hact, if_true, hgood']

theorem traceCtl_of_refused {a d : Nat} (hact : tcAction m = a) (hbad : traceCheck s m = some d)
    (act : State → Cmd → State) : traceCtl a act s = .next (badOperand (queueIs s rest) m d) := by
  have hbad' : traceCheck (queueIs s rest) m = some d := hbad
  simp only [traceCtl, nextTrace, popUnit_of_isNext hnext, hact, if_true, hbad']

/-- The refusal answers, and changes nothing else but the marks of a full queue of entries. -/
theorem traceCtl_refuses {a d : Nat} (hact : tcAction m = a) (hbad : traceCheck s m = some d)
    (hsafe : s.saf.safe = false) (act : State → Cmd → State) :
    ∃ t, traceCtl a act s = .next t ∧ answered s t m 0x10 d 0 ∧ t.trc = s.trc ∧
      (s.hif.cplQ.length < 32 → t.regs = s.regs) := by
  have hop : m.opcode ≠ 0x0100 := by
    rw [hnext.2]
    decide
  refine ⟨_, traceCtl_of_refused hnext hact hbad act,
    answered_complete (s := queueIs s rest) hsafe rfl (.inr (by decide)) d 0 0, ?_,
    fun hroom => complete_regs_of_room (s := queueIs s rest) hsafe hop hroom d 0 0⟩
  rw [badOperand, completeWith, complete_keeps]
  rfl

/-- A FLUSH or STOP while tracing is off answers at once. -/
theorem traceCtl_completes {a : Nat} (hact : tcAction m = a) (hgood : traceCheck s m = none)
    (hsafe : s.saf.safe = false) (hentry : bitAt m.flags 1 = false) {act : State → Cmd → State}
    (hoff : act (queueIs s rest) m = completeOk (queueIs s rest) m 0) :
    ∃ t, traceCtl a act s = .next t ∧ answered s t m 0 0 0 ∧ t = { s with hif := t.hif, regs := t.regs } ∧
      (s.hif.cplQ.length < 32 → t.regs = s.regs) := by
  have hop : m.opcode ≠ 0x0100 := by
    rw [hnext.2]
    decide
  refine ⟨completeOk (queueIs s rest) m 0, ?_,
    answered_complete (s := queueIs s rest) hsafe rfl (.inl hentry) 0 0 0, ?_,
    fun hroom => complete_regs_of_room (s := queueIs s rest) hsafe hop hroom 0 0 0⟩
  · rw [traceCtl_of_good hnext hact hgood, hoff]
  · exact complete_keeps (queueIs s rest) m 0 0 0 0

end

/-- The three registers of a FILTER as written. -/
def filterWritten (s : State) (m : Cmd) : State :=
  setReg (setReg (setReg s 0xA80010 (m.at 8 4)) 0xA80014 (m.at 12 4)) 0xA80018 (m.at 16 1)

theorem at_lt (m : Cmd) (lo : Nat) {n : Nat} (hn : 256 ^ n ≤ 2 ^ 32) : m.at lo n % 2 ^ 32 = m.at lo n :=
  Nat.mod_eq_of_lt ((leAt_lt m.bytes lo n).trans_le hn)

theorem reg_filterWritten (s : State) (m : Cmd) : reg (filterWritten s m) 0xA80010 = m.at 8 4 ∧
    reg (filterWritten s m) 0xA80014 = m.at 12 4 ∧ reg (filterWritten s m) 0xA80018 = m.at 16 1 ∧
    ∀ o, o ≠ 0xA80010 → o ≠ 0xA80014 → o ≠ 0xA80018 → reg (filterWritten s m) o = reg s o := by
  refine ⟨?_, ?_, ?_, fun o h0 h1 h2 => ?_⟩
  · rw [filterWritten, reg_setReg_ne _ _ (by decide), reg_setReg_ne _ _ (by decide), reg_setReg_same,
      at_lt m _ (by decide)]
  · rw [filterWritten, reg_setReg_ne _ _ (by decide), reg_setReg_same, at_lt m _ (by decide)]
  · rw [filterWritten, reg_setReg_same, at_lt m _ (by decide)]
  · rw [filterWritten, reg_setReg_ne _ _ h2, reg_setReg_ne _ _ h1, reg_setReg_ne _ _ h0]

theorem traceFilter_writes {s : State} {m : Cmd} {rest : List Cmd} (hnext : isNext s m rest 0x0800)
    (hact : tcAction m = 1) (hgood : traceCheck s m = none) (hsafe : s.saf.safe = false)
    (hentry : bitAt m.flags 1 = false) :
    ∃ t, exec .traceFilter s = .next t ∧ answered s t m 0 0 0 ∧ reg t 0xA80010 = m.at 8 4 ∧
      reg t 0xA80014 = m.at 12 4 ∧ reg t 0xA80018 = m.at 16 1 ∧
      (s.hif.cplQ.length < 32 → ∀ o, o ≠ 0xA80010 → o ≠ 0xA80014 → o ≠ 0xA80018 → reg t o = reg s o) ∧
      t = { s with hif := t.hif, regs := t.regs } := by
  have hop : m.opcode ≠ 0x0100 := by
    rw [hnext.2]
    decide
  obtain ⟨hlow, hhigh, htypes, hothers⟩ := reg_filterWritten (queueIs s rest) m
  have hreg (o) (ho : 0x100028 < o) (hload : o ≠ 0x200000) :=
    reg_complete (s := filterWritten (queueIs s rest) m) (m := m) (status := 0) hsafe 0 0 0 ho hload
  refine ⟨completeOk (filterWritten (queueIs s rest) m) m 0, traceCtl_of_good hnext hact hgood _,
    answered_complete (s := filterWritten (queueIs s rest) m) hsafe rfl (.inl hentry) 0 0 0,
    (hreg _ (by decide) (by decide)).trans hlow, (hreg _ (by decide) (by decide)).trans hhigh,
    (hreg _ (by decide) (by decide)).trans htypes, fun hroom o h0 h1 h2 => ?_,
    complete_keeps (filterWritten (queueIs s rest) m) m 0 0 0 0⟩
  have hregs : (completeOk (filterWritten (queueIs s rest) m) m 0).regs = _ :=
    complete_regs_of_room (s := filterWritten (queueIs s rest) m) hsafe hop hroom 0 0 0
  rw [reg, hregs]
  exact hothers o h0 h1 h2

/-! ### START, and commands that join a running trace (R641) -/

/-- The trace of a START before its first records. -/
def traceBegun (s : State) (m : Cmd) : State :=
  let t := setReg (setReg (setReg { s with trc := { s.trc with
      on := true, owner := m.ctx, base := m.at 8 8, segMiB := m.at 16 4 / 9, halt := bitAt (m.at 5 1) 0,
      streams := [], bufs := [], lost := [], fldQ := [], celQ := [], sched := [], celLost := 0, written := 0 } }
    0xA80004 (m.ctx * 2 ^ 24 + m.at 16 4)) 0xA80008 (m.at 8 8)) 0xA8000C (m.at 8 8 / 2 ^ 32)
  setRegBit (setRegBit t 0xA80000 31 true) 0xA80000 30 (bitAt (m.at 5 1) 0)

/-- The first record of a stream, which a fault of the region ends. -/
def firstStamp (s : State) (k : Nat) : State :=
  if s.trc.on then (if (putFull s k).2 then (putFull s k).1 else faultStop (putFull s k).1 k) else s

theorem startTrace_eq (s : State) (m : Cmd) :
    startTrace s m = completeOk ((List.range 9).foldl firstStamp (traceBegun s m)) m (m.at 16 4 / 9) := rfl

theorem trcPlan_firstStamp (s : State) (k : Nat) : trcPlan (firstStamp s k) = trcPlan s := by
  unfold firstStamp
  repeat' split
  · exact trcPlan_putFull s k
  · exact (trcPlan_faultStop _ _).trans (trcPlan_putFull s k)
  · rfl

theorem trcPlan_startTrace (s : State) (m : Cmd) : trcPlan (startTrace s m) =
    ((m.ctx, m.at 8 8, m.at 16 4 / 9, bitAt (m.at 5 1) 0), s.trc.flushes) := by
  rw [startTrace_eq, completeOk, complete_keeps]
  exact foldl_keeps trcPlan trcPlan_firstStamp (List.range 9) (traceBegun s m)

theorem passSched_nil {s : State} (hsched : s.trc.sched = []) : passSched s s.trc.sched = s := by
  rw [hsched, passSched, ← hsched]

/-- With records in the queues, and no command before it, a command waits. -/
theorem joinFlush_waits {s : State} (hnone : s.trc.flushes = []) (hsched : s.trc.sched = [])
    (hheld : queueCounts s ≠ []) (stop : Bool) (m : Cmd) : joinFlush stop s m =
      { s with trc := { s.trc with flushes := [(m, queueCounts s)], on := s.trc.on && !stop } } := by
  have hempty : (queueCounts s).isEmpty = false := by simpa using hheld
  simp only [joinFlush, passSched_nil hsched, hnone, List.nil_append, List.length_singleton, endFlushes, flushOver,
    hempty, Bool.false_and, Bool.false_eq_true, if_false]

theorem traceCtl_waits {s : State} {m : Cmd} {rest : List Cmd} (hnext : isNext s m rest 0x0800) {a : Nat}
    (hact : tcAction m = a) (hgood : traceCheck s m = none) (hruns : trcRuns s = true) (hnone : s.trc.flushes = [])
    (hsched : s.trc.sched = []) (hheld : queueCounts s ≠ []) {stop on : Bool} (hon : (s.trc.on && !stop) = on)
    (off : State → Cmd → State) :
    traceCtl a (fun s m => if trcRuns s then joinFlush stop s m else off s m) s =
      .next { queueIs s rest with trc := { s.trc with flushes := [(m, queueCounts s)], on := on } } := by
  have hwaits := joinFlush_waits (s := queueIs s rest) hnone hsched hheld stop m
  rw [traceCtl_of_good hnext hact hgood, trcRuns_queueIs, hruns, if_pos rfl, hwaits, ← hon]
  rfl

/-! ### Records (R643, R644, R651, R652) -/

/-- R643: a HALT stream that is full drops the record, and counts it. -/
theorem putSlot_of_full {s : State} {m : Nat} (hfull : streamFull s m = true) (rec : Nat) : putSlot s m rec =
    (setRegBit (setStream s m { streamOf s m with dropped := satAdd 32 (streamOf s m).dropped 1 }) 0xA80000 28 true,
      true) := by
  simp only [putSlot, hfull, if_true]

theorem streamOf_setStream (s : State) (m : Nat) (x : TrcStream) : streamOf (setStream s m x) m = x :=
  tget_tput_same ({} : TrcStream) s.trc.streams m x

theorem exec_fullStamp_at_block {s : State} {m : Fin 9} (hon : s.trc.on = true)
    (hstart : (streamOf s m).wptr % 65536 = 0) :
    exec (.fullStamp m) s = .next (streamWrote m (putFull s m)) := by
  show execFullStamp m s = _
  simp only [execFullStamp, hon, hstart, Bool.not_true, Bool.false_eq_true, if_false, if_true]

theorem exec_fullStamp_in_block {s : State} {m : Fin 9} (hon : s.trc.on = true)
    (hinside : (streamOf s m).wptr % 65536 ≠ 0) : exec (.fullStamp m) s =
      .next (streamWrote m (putFull (advanceTo ((streamOf s m).lastFull + nsUnits (2 ^ 32)) s) m)) := by
  show execFullStamp m s = _
  simp only [execFullStamp, hon, hinside, Bool.not_true, Bool.false_eq_true, if_false]

theorem trcPlan_dueCel (s : State) : trcPlan (dueCel s) = trcPlan s := by
  unfold dueCel
  split <;> rfl

theorem flushTake_of_none {s : State} (hnone : s.trc.flushes = []) (k : Nat) : flushTake s k = s := by
  rw [flushTake, hnone, List.map_nil, ← hnone]

/-- The cellar's queue of records without its oldest. -/
def cellarTaken (s : State) (rest : List Nat) : State :=
  { dueCel s with trc := { (dueCel s).trc with celQ := rest } }

/-- The cellar's stream after its oldest record, where no command is in progress. -/
def cellarWrote (s : State) (rest : List Nat) (rec : Nat) : State :=
  streamWrote 8 (putRecord (dueCel (cellarTaken s rest)) 8 rec)

theorem writeOldest_cellar {s : State} (hnone : s.trc.flushes = []) {rec : Nat} {rest : List Nat}
    (hq : (dueCel s).trc.celQ = rec :: rest) : writeOldest s 8 = cellarWrote s rest rec := by
  have hdue : (dueCel s).trc.flushes = [] := (congrArg Prod.snd (trcPlan_dueCel s)).trans hnone
  have htake : flushTake (cellarTaken s rest) 16392 = cellarTaken s rest :=
    flushTake_of_none (s := cellarTaken s rest) hdue 16392
  rw [cellarWrote, ← htake]
  simp only [writeOldest, show ¬ 8 < 8 by decide, if_false, hq]
  rfl

theorem cellarWrote_flushes {s : State} (hnone : s.trc.flushes = []) (rec : Nat) (rest : List Nat) :
    (cellarWrote s rest rec).trc.flushes = [] := by
  have hput := (trcPlan_putRecord (dueCel (cellarTaken s rest)) 8 rec).trans
    ((trcPlan_dueCel (cellarTaken s rest)).trans (trcPlan_dueCel s))
  have hput' := (congrArg Prod.snd hput).trans hnone
  exact (congrArg Prod.snd (trcPlan_streamWrote hput')).trans hput'

theorem exec_traceRecordWrite_cellar {s : State} (hruns : trcRuns s = true) (hsched : s.trc.sched = [])
    (hnone : s.trc.flushes = []) {rec : Nat} {rest : List Nat} (hq : (dueCel s).trc.celQ = rec :: rest) :
    exec (.traceRecordWrite 8) s =
      .next (if (cellarWrote s rest rec).trc.stopping && trcEmpty (cellarWrote s rest rec)
        then stopTrace (setRegBit (cellarWrote s rest rec) 0xA80000 25 true) else cellarWrote s rest rec) := by
  show execTraceRecordWrite 8 s = _
  have hwrite : writeOldest s ((8 : Fin 9) : Nat) = cellarWrote s rest rec := writeOldest_cellar hnone hq
  simp only [execTraceRecordWrite, hruns, Bool.not_true, Bool.false_eq_true, if_false,
    show ¬ ((8 : Fin 9) : Nat) < 8 by decide, passSched_nil hsched, hwrite, cellarWrote_flushes hnone,
    List.length_nil, endFlushes]
  split <;> rfl

/-! ### Engine counters (R653-R656) -/

theorem exec_traceIncrement_of_lost {s : State} {src : Fin 4224} {e : Fin 8} (states : List (Fin 16 × Nat))
    (act : Nat) (hsrc : 4096 ≤ src.val ∨ engineKind s e ≠ none) :
    exec (.traceIncrement src e states act true) s = .next (setRegBit s 0xA80000 24 true) := by
  show execTraceIncrement src e states act true s = _
  have hpresent : (decide (src.val < 4096) && (engineKind s e).isNone) = false := by
    simpa [imp_iff_not_or, Nat.not_lt, Option.isSome_iff_ne_none] using hsrc
  simp only [execTraceIncrement, hpresent, Bool.false_eq_true, if_false, if_true]

/-- A value outside the encoding seen in a core's increments (R654). -/
def badSeen (s : State) (src : Nat) (states : List (Fin 16 × Nat)) : State :=
  if (states.any fun p => badState p.1 && decide (0 < p.2)) && decide (src < 4096) then
    setRegBit s 0xA80000 27 true else s

/-- The counters with an increment, unless FREEZE holds them (R656). -/
def counted (s : State) (src e : Nat) (states : List (Fin 16 × Nat)) : State :=
  if regBit s 0xA80020 30 then s
  else { s with trc := { s.trc with cnt := addCounters s.trc.cnt (engineKey src e) (stateCounts states) } }

/-- The ACT of a core's engine charged; a REX is charged elsewhere. -/
def charged (s : State) (src e act : Nat) : State := if src < 4096 then chargeAct s src e act else s

theorem execTraceIncrement_eq {s : State} {src : Fin 4224} {e : Fin 8} (states : List (Fin 16 × Nat)) (act : Nat)
    (hsrc : 4096 ≤ src.val ∨ engineKind s e ≠ none) : execTraceIncrement src e states act false s =
      .next (charged (counted (badSeen s src states) src e states) src e act) := by
  have hpresent : (decide (src.val < 4096) && (engineKind s e).isNone) = false := by
    simpa [imp_iff_not_or, Nat.not_lt, Option.isSome_iff_ne_none] using hsrc
  simp only [execTraceIncrement, hpresent, Bool.false_eq_true, if_false]
  rfl

theorem freeze_badSeen (s : State) (src : Nat) (states : List (Fin 16 × Nat)) :
    regBit (badSeen s src states) 0xA80020 30 = regBit s 0xA80020 30 := by
  unfold badSeen
  split
  · rw [regBit, reg_setRegBit_ne _ _ _ (by decide), regBit]
  · rfl

theorem charged_frame (s : State) (src e act : Nat) :
    charged s src e act = { s with psm := (charged s src e act).psm } := by
  unfold charged chargeAct
  split
  · split
    · simp only [modTally]
      split <;> rfl
    · rfl
  · rfl

theorem badSeen_frame (s : State) (src : Nat) (states : List (Fin 16 × Nat)) :
    badSeen s src states = { s with regs := (badSeen s src states).regs } := by
  unfold badSeen
  split <;> rfl

theorem badSeen_of_rex (s : State) {src : Nat} (hsrc : 4096 ≤ src) (states : List (Fin 16 × Nat)) :
    badSeen s src states = s := by
  simp [badSeen, Nat.not_lt.mpr hsrc]

/-- R654: a value from 2 to 7 that some edge had sets BAD_STATE_SEEN. -/
theorem badSeen_sets (s : State) {src : Nat} (hsrc : src < 4096) {states : List (Fin 16 × Nat)}
    (hbad : ∃ p ∈ states, 2 ≤ p.1.val ∧ p.1.val ≤ 7 ∧ 0 < p.2) :
    regBit (badSeen s src states) 0xA80000 27 = true := by
  have hany : (states.any fun p => badState p.1 && decide (0 < p.2)) = true := by
    obtain ⟨p, hp, hlow, hhigh, hpos⟩ := hbad
    exact List.any_eq_true.mpr ⟨p, hp, by simp [badState, hlow, hhigh, hpos]⟩
  rw [badSeen, hany, if_pos (by simpa using hsrc)]
  exact regBit_setRegBit_same _ _ _ _ (by decide)

theorem counted_of_frozen {s : State} (hfrozen : regBit s 0xA80020 30 = true) (src e : Nat)
    (states : List (Fin 16 × Nat)) : counted s src e states = s := if_pos hfrozen

theorem counted_of_free {s : State} (hfree : regBit s 0xA80020 30 = false) (src e : Nat)
    (states : List (Fin 16 × Nat)) : counted s src e states =
      { s with trc := { s.trc with cnt := addCounters s.trc.cnt (engineKey src e) (stateCounts states) } } :=
  if_neg (by rw [hfree]; decide)

theorem exec_traceIncrement_of_rex {s : State} {src : Fin 4224} (hsrc : 4096 ≤ src.val) (e : Fin 8)
    (states : List (Fin 16 × Nat)) (act : Nat) (hfree : regBit s 0xA80020 30 = false) :
    exec (.traceIncrement src e states act false) s = .next { s with trc := { s.trc with
      cnt := addCounters s.trc.cnt (engineKey src e) (stateCounts states) } } := by
  show execTraceIncrement src e states act false s = _
  rw [execTraceIncrement_eq states act (.inl hsrc), badSeen_of_rex s hsrc, counted_of_free hfree, charged,
    if_neg (Nat.not_lt.mpr hsrc)]

theorem traceIncrement_of_frozen {s : State} (src : Fin 4224) (e : Fin 8) (states : List (Fin 16 × Nat)) (act : Nat)
    (lost : Bool) (hfrozen : regBit s 0xA80020 30 = true) :
    ∃ t, exec (.traceIncrement src e states act lost) s = .next t ∧ t.trc = s.trc ∧ t.mem = s.mem ∧
      t.disp = s.disp := by
  by_cases hsrc : 4096 ≤ src.val ∨ engineKind s e ≠ none
  · cases lost with
    | true => exact ⟨_, exec_traceIncrement_of_lost states act hsrc, rfl, rfl, rfl⟩
    | false =>
      refine ⟨_, execTraceIncrement_eq states act hsrc, ?_⟩
      rw [counted_of_frozen (by rw [freeze_badSeen]; exact hfrozen), charged_frame, badSeen_frame]
      exact ⟨rfl, rfl, rfl⟩
  · refine ⟨s, ?_, rfl, rfl, rfl⟩
    show execTraceIncrement src e states act lost s = _
    have habsent : (decide (src.val < 4096) && (engineKind s e).isNone) = true := by
      simpa [not_or] using hsrc
    simp only [execTraceIncrement, habsent, if_true]

theorem traceIncrement_of_core {s : State} {src : Fin 4224} {e : Fin 8} (states : List (Fin 16 × Nat)) (act : Nat)
    (hsrc : src.val < 4096) (hkind : engineKind s e ≠ none) (hfree : regBit s 0xA80020 30 = false) :
    ∃ t, exec (.traceIncrement src e states act false) s = .next t ∧
      t.trc.cnt = addCounters s.trc.cnt (engineKey src e) (stateCounts states) ∧ t.mem = s.mem ∧ t.disp = s.disp ∧
      ((∃ p ∈ states, 2 ≤ p.1.val ∧ p.1.val ≤ 7 ∧ 0 < p.2) → regBit t 0xA80000 27 = true) := by
  have hfree' : regBit (badSeen s src states) 0xA80020 30 = false := (freeze_badSeen s src states).trans hfree
  have hframe := badSeen_frame s src states
  refine ⟨_, execTraceIncrement_eq states act (.inr hkind), ?_⟩
  rw [counted_of_free hfree', charged_frame]
  refine ⟨?_, (congrArg State.mem hframe :), (congrArg State.disp hframe :), fun hbad => badSeen_sets s hsrc hbad⟩
  rw [hframe]

theorem stateCounts_single (c : Fin 16) (n : Nat) {k : Nat} (hk : k < 10) : (stateCounts [(c, n)]).getD k 0 =
    if k = (if c.val ≤ 1 then 1 - c.val else if c.val ≤ 7 then 9 else c.val - 6) then n else 0 := by
  have hselect : stateCounter c = if c.val ≤ 1 then 1 - c.val else if c.val ≤ 7 then 9 else c.val - 6 := by
    unfold stateCounter
    split_ifs <;> omega
  have hgot : (stateCounts [(c, n)]).getD k 0 = if stateCounter c = k then n else 0 := by
    simp [stateCounts, hk]
  rw [hgot, hselect]
  simp only [eq_comm]

/-- Counters below the first that increments are added to stay. -/
theorem tget_addCounters_below (t : Table Nat) {j k : Nat} (l : List Nat) (hj : j < k) :
    tget 0 (addCounters t k l) j = tget 0 t j := by
  induction l generalizing t k with
  | nil => rfl
  | cons n l ih =>
    rw [addCounters, ih _ (by omega)]
    split
    · rfl
    · exact tget_tput_ne _ _ _ (by omega)

theorem tget_addCounters (t : Table Nat) (k i : Nat) (l : List Nat) : tget 0 (addCounters t k l) (k + i) =
    if l.getD i 0 = 0 then tget 0 t (k + i) else (tget 0 t (k + i) + l.getD i 0) % 2 ^ 64 := by
  induction l generalizing t k i with
  | nil => simp [addCounters]
  | cons n l ih =>
    rw [addCounters]
    cases i with
    | zero =>
      show tget 0 (addCounters _ (k + 1) l) k = if n = 0 then tget 0 t k else (tget 0 t k + n) % 2 ^ 64
      rw [tget_addCounters_below _ _ (Nat.lt_add_one k)]
      split
      · rfl
      · exact tget_tput_same _ _ _ _
    | succ i =>
      have hother : tget 0 (if n = 0 then t else tput t k ((tget 0 t k + n) % 2 ^ 64)) (k + 1 + i) =
          tget 0 t (k + 1 + i) := by
        split
        · rfl
        · exact tget_tput_ne _ _ _ (by omega)
      rw [show k + (i + 1) = k + 1 + i by omega, ih, List.getD_cons_succ, hother]

/-- Settles O54: TRACE_CTL by its ACTION, then records by the state of their stream, then the counters. -/
theorem traceAndCounters : Obligations.TraceAndCounters := by
  unfold Obligations.TraceAndCounters
  refine ⟨⟨fun s m rest d hnext hbad hsafe => ⟨fun hact => ?_, fun hact => ?_, fun hact => ?_, fun hact => ?_⟩,
    fun s m rest hnext hact hgood hsafe hentry => traceFilter_writes hnext hact hgood hsafe hentry,
    fun s m rest hnext hact hgood hoff => ?_, fun s m => ?_,
    fun s m rest hnext hgood hoff hsafe hentry => ⟨fun hact => ?_, fun hact => ?_⟩,
    fun s m rest hnext hgood hruns hnone hsched hheld => ⟨fun hact => ?_, fun hact => ?_, fun hact => ?_⟩⟩,
    fun s m hoff => ?_, fun s m hoff => ?_, fun s m hon hstart => exec_fullStamp_at_block hon hstart,
    fun s m hon hinside => exec_fullStamp_in_block hon hinside, fun s r rest v hruns hsched hnone hq hv => ?_,
    fun s m word hfull => ?_, fun s src e states act hsrc hfree => exec_traceIncrement_of_rex hsrc e states act hfree,
    fun s src e states act hsrc => exec_traceIncrement_of_lost states act hsrc,
    fun s src e states act lost hfrozen => traceIncrement_of_frozen src e states act lost hfrozen,
    fun s src e states act hsrc hkind hfree => traceIncrement_of_core states act hsrc hkind hfree,
    fun c n k hk => stateCounts_single c n hk, tget_addCounters, fun s => rfl, fun s b => ?_⟩
  · obtain ⟨t, ht, hanswer, htrc, -⟩ := traceCtl_refuses hnext hact hbad hsafe _
    exact ⟨t, ht, hanswer, htrc⟩
  · obtain ⟨t, ht, hanswer, -, hregs⟩ := traceCtl_refuses hnext hact hbad hsafe _
    exact ⟨t, ht, hanswer, hregs⟩
  · obtain ⟨t, ht, hanswer, htrc, -⟩ := traceCtl_refuses hnext hact hbad hsafe _
    exact ⟨t, ht, hanswer, htrc⟩
  · obtain ⟨t, ht, hanswer, htrc, -⟩ := traceCtl_refuses hnext hact hbad hsafe _
    exact ⟨t, ht, hanswer, htrc⟩
  · refine (traceCtl_of_good hnext hact hgood _).trans ?_
    simp only [trcRuns_queueIs, hoff, Bool.false_eq_true, if_false]
  · have hplan := congrArg Prod.fst (trcPlan_startTrace s m)
    simpa only [trcPlan, Prod.mk.injEq] using hplan
  · exact traceCtl_completes hnext hact hgood hsafe hentry (if_neg (by simp [hoff]))
  · exact traceCtl_completes hnext hact hgood hsafe hentry (if_neg (by simp [hoff]))
  · exact traceCtl_waits hnext hact hgood hruns hnone hsched hheld (Bool.and_false _) _
  · exact traceCtl_waits hnext hact hgood hruns hnone hsched hheld (Bool.and_true _) _
  · exact traceCtl_waits hnext hact hgood hruns hnone hsched hheld (Bool.and_false _) _
  · show execTraceRecordWrite m s = _
    simp only [execTraceRecordWrite, hoff, Bool.not_false, if_true]
  · show execFullStamp m s = _
    simp only [execFullStamp, hoff, Bool.not_false, if_true]
  · rw [hv]
    exact exec_traceRecordWrite_cellar hruns hsched hnone hq
  · rw [putSlot_of_full hfull]
    have hstream := streamOf_setStream s m { streamOf s m with dropped := satAdd 32 (streamOf s m).dropped 1 }
    exact ⟨rfl, (congrArg TrcStream.wptr hstream :), (congrArg TrcStream.dropped hstream :),
      regBit_setRegBit_same _ _ _ _ (by decide), rfl⟩
  · exact ⟨_, rfl, regBit_setRegBit_same _ _ _ _ (by decide), rfl, fun o ho => reg_setRegBit_ne _ _ _ ho, rfl⟩

end Sys2Proof.Machine
end

section
/-! Reads and writes of the register window by host, firmware and DBG_WRITE (R7, R85, R585, R587, R607, R662). -/

namespace Sys2Proof.Machine

open Sys2Proof

/-! ### Host writes (R607) -/

theorem hostWriteReg_of_plain (s : State) {off : Nat} (hrw : mgcRw off = 0) (hwo : mgcWo off = 0) (w : Nat) :
    hostWriteReg s off w = writeReg s off w := by
  simp only [hostWriteReg, hrw, hwo, decide_true, Bool.and_self, if_true]

/-- R607: a host write leaves what is written from MGC only; a write that would change it is a bad access. -/
theorem hostWriteReg_of_mgc (s : State) {off : Nat} (hmgc : mgcRw off ≠ 0 ∨ mgcWo off ≠ 0) (hctl : off ≠ 0x980000)
    (w : Nat) : hostWriteReg s off w = if mgcClash s off w then flagAccess s off 1 else s := by
  have howned : (decide (mgcRw off = 0) && decide (mgcWo off = 0)) = false := by
    rcases hmgc with h | h <;> simp [h]
  simp only [hostWriteReg, howned, hctl, decide_false, Bool.false_and, Bool.false_eq_true, if_false,
    badAccessAt_eq_flagAccess]

/-! ### Firmware writes (R585, R587) -/

section
variable (s : State) {off : Nat} (w : Word) (hoff : off < 2 ^ 24) (halign : off % 4 = 0)
include hoff halign

theorem execRegisterWrite_firmware_of_doorbell {c : Fin 64} (hdoor : doorbellCtx off = some c) :
    execRegisterWrite off w true s = .next (fwDenied s) := by
  simp only [execRegisterWrite, mgcMap_mgcAddr_of_window hoff, halign, hdoor, Bool.not_true, Bool.and_false, ne_eq,
    not_true_eq_false, Bool.false_eq_true, if_false, if_true]

theorem execRegisterWrite_firmware_of_no_doorbell (hdoor : doorbellCtx off = none) :
    execRegisterWrite off w true s =
      if !mapped off then .next (fwDenied (unmappedAt s off))
      else if fwMay off then .next (writeReg s off w.toNat) else .next (fwDenied s) := by
  simp only [execRegisterWrite, mgcMap_mgcAddr_of_window hoff, halign, hdoor, Bool.not_true, Bool.and_false, ne_eq,
    not_true_eq_false, Bool.false_eq_true, if_false, if_true]

theorem exec_registerWrite_firmware_of_denied
    (hdenied : doorbellCtx off ≠ none ∨ (mapped off = true ∧ fwMay off = false)) :
    exec (.registerWrite off w true) s = .next (setRegBit s 0x980004 27 true) := by
  cases hdoor : doorbellCtx off with
  | some c => exact execRegisterWrite_firmware_of_doorbell s w hoff halign hdoor
  | none =>
    obtain hpage | ⟨hmap, hmay⟩ := hdenied
    · exact absurd hdoor hpage
    · refine (execRegisterWrite_firmware_of_no_doorbell s w hoff halign hdoor).trans ?_
      simp only [hmap, hmay, Bool.not_true, Bool.false_eq_true, if_false]
      rfl

end

theorem exec_registerWrite_firmware_beyond (s : State) {off : Nat} (w : Word) (hoff : 2 ^ 24 ≤ off) :
    exec (.registerWrite off w true) s = .next (coreFault s (2 ^ 32 + off)) := by
  have hmap : mgcMap (mgcAddr off) = false := by
    have hlow : ¬ 2 ^ 32 + off < 2 ^ 21 := by omega
    have hhigh : ¬ 2 ^ 32 + off < 2 ^ 32 + 2 ^ 24 := by omega
    rw [mgcMap, mgcAddr, decide_eq_false hlow, decide_eq_false hhigh, Bool.and_false, Bool.or_false]
  show execRegisterWrite off w true s = _
  simp only [execRegisterWrite, hmap, Bool.not_false, Bool.and_self, if_true]
  rfl

/-- R585: one core has the fault, and only it. -/
theorem coreFault_faults (s : State) (a : Nat) :
    ∃ k, (tget {} (coreFault s a).mgc.cores k).fault = some a ∧
      (∀ j, j ≠ k → tget {} (coreFault s a).mgc.cores j = tget {} s.mgc.cores j) ∧
      (coreFault s a).regs = s.regs ∧ (coreFault s a).mem = s.mem := by
  refine ⟨(firmwareCore s).1, ?_, fun j hj => tget_tput_ne _ _ _ hj, rfl, rfl⟩
  exact congrArg MgcCore.fault (tget_tput_same _ _ _ _)

/-! ### Doorbell pages (R127) -/

theorem doorbellCtx_page (c : Fin 64) {o : Nat} (ho : o < 0x1000) :
    doorbellCtx (0xC00000 + 0x1000 * c.val + o) = some c := by
  have hpage : 0xC00000 ≤ 0xC00000 + 0x1000 * c.val + o ∧ 0xC00000 + 0x1000 * c.val + o < 0xC40000 := by omega
  rw [doorbellCtx, dif_pos hpage]
  exact congrArg some (Fin.ext (by simp only; omega))

theorem exec_registerWrite_doorbell (s : State) (c : Fin 64) {o : Nat} (w : Word) (ho : o < 0x1000)
    (halign : o % 4 = 0) : exec (.registerWrite (0xC00000 + 0x1000 * c.val + o) w false) s =
      .next (writeDoorbell s c o w) := by
  show execRegisterWrite _ w false s = _
  have hlow : (0xC00000 + 0x1000 * c.val + o) % 0x1000 = o := by omega
  have hfour : (0xC00000 + 0x1000 * c.val + o) % 4 = 0 := by omega
  simp only [execRegisterWrite, doorbellCtx_page c ho, hlow, hfour, Bool.false_and, ne_eq, not_true_eq_false,
    Bool.false_eq_true, if_false]

theorem next_stateOf {o : Out} (h : Answers o) (s : State) : .next (stateOf o s) = o := by
  obtain ⟨t, rfl⟩ := h
  rfl

/-! ### Reads of counters (R662) -/

/-- The low words of the counters that a read captures. -/
def capturedCounters : List Nat := [0x28000C, 0x300008, 0x480008, 0x500008, 0x58000C, 0x600004, 0x800018]

theorem readWindow_of_counter (s : State) {off : Nat} (h : off ∈ capturedCounters) : readWindow s off =
    setReg (setData s (readReg s off)) (off + 4) (tget 0 s.counts off / 2 ^ 32) := by
  have hplain : ∀ k ∈ capturedCounters, doorbellCtx k = none ∧ mapped k = true ∧ k ≠ 0x900018 ∧ k ≠ 0x500020 ∧
      k ≠ 0xA00014 ∧ k ≠ 0x680118 ∧ (decide (k = 0x58001C) || decide (k = 0x600014)) = false ∧
      arrayAt k 0x801010 0x40 64 = none := by decide
  have hcounter : capturedCounters.contains off = true := List.contains_iff_mem.mpr h
  obtain ⟨hdoor, hmap, htime, hdiag, hrec, htile, hdraw, hacc⟩ := hplain off h
  simp only [capturedCounters] at hcounter
  simp only [readWindow, hdoor, hmap, htime, hdiag, hrec, htile, hdraw, hacc, captureHigh, hcounter, Bool.not_true,
    Bool.false_eq_true, if_false, Bool.true_or, if_true]
  rfl

theorem counterCaptureRead_captures (s : State) {off : Nat} (h : off ∈ capturedCounters) :
    ∃ t, exec (.counterCaptureRead off) s = .next t ∧ t.hif.rdata = readReg s off ∧
      reg t (off + 4) = tget 0 s.counts off / 2 ^ 32 % 2 ^ 32 ∧ t.counts = s.counts ∧ t.mem = s.mem := by
  have halign : ∀ k ∈ capturedCounters, k % 4 = 0 := by decide
  refine ⟨_, exec_counterCaptureRead_of_aligned s (halign off h), ?_⟩
  rw [readWindow_of_counter s h]
  exact ⟨rfl, reg_setReg_same _ _ _, rfl, rfl⟩

/-! ### DBG_WRITE (R662, R663) -/

theorem exec_dbgWrite_of_refused {s : State} {m : Cmd} (hpassed : isPassed s m 0x0F00) {d : Nat}
    (hbad : dbgFault m = some d) : exec .dbgWrite s = .next (refuseCritical s m 0x10 d) := by
  show execDbgWrite s = _
  simp only [execDbgWrite, waitingCritical_of_isPassed hpassed, hbad]

theorem exec_dbgWrite_of_no_bits {s : State} {m : Cmd} (hpassed : isPassed s m 0x0F00) (hgood : dbgFault m = none)
    (hmask : dwMask m = 0) : exec .dbgWrite s = .next (completeOk (traceDebug (acceptCritical s m) m.ctx 2 (dwOff m)
      (readReg (acceptCritical s m) (dwOff m))) m (readReg (acceptCritical s m) (dwOff m))) := by
  show execDbgWrite s = _
  simp only [execDbgWrite, waitingCritical_of_isPassed hpassed, hgood, hmask, if_true]

theorem exec_dbgWrite_of_bits {s : State} {m : Cmd} (hpassed : isPassed s m 0x0F00) (hgood : dbgFault m = none)
    (hmask : dwMask m ≠ 0) : exec .dbgWrite s = .next (
      let u := debugWrite (acceptCritical s m) (dwOff m)
        (dbgValue (acceptCritical s m) (dwOff m) (m.at 12 4) (dwMask m))
      completeOk (traceDebug u m.ctx 2 (dwOff m) (readReg u (dwOff m))) m (readReg u (dwOff m))) := by
  show execDbgWrite s = _
  simp only [execDbgWrite, waitingCritical_of_isPassed hpassed, hgood, hmask, if_false]

theorem cellarTraceFrame_traceDebug (s : State) (c kind what value : Nat) :
    CellarTraceFrame s (traceDebug s c kind what value) := by
  unfold traceDebug
  split
  · exact cellarTraceFrame_traceCel s _
  · exact .refl s

theorem dbgWrite_of_no_bits_answers {s : State} {m : Cmd} (hpassed : isPassed s m 0x0F00) (hgood : dbgFault m = none)
    (hmask : dwMask m = 0) (hsafe : s.saf.safe = false) (hentry : bitAt m.flags 1 = false) :
    ∃ t, exec .dbgWrite s = .next t ∧ answered s t m 0 0 (readReg (acceptCritical s m) (dwOff m)) ∧ t.mem = s.mem := by
  have hframe := (cellarTraceFrame_traceDebug (acceptCritical s m) m.ctx 2 (dwOff m)
    (readReg (acceptCritical s m) (dwOff m))).frame
  rw [acceptCritical_frame] at hframe
  refine ⟨_, exec_dbgWrite_of_no_bits hpassed hgood hmask, answered_complete ?_ ?_ (.inl hentry) _ _ _, ?_⟩
  · rw [acceptCritical_frame, hframe]
    exact hsafe
  · rw [acceptCritical_frame, hframe]
  · rw [completeOk, complete_keeps, acceptCritical_frame, hframe]

/-- Settles O59: host writes, firmware writes, doorbell pages, counter reads, then debug writes. -/
theorem windowAccess : Obligations.WindowAccess := by
  unfold Obligations.WindowAccess
  refine ⟨fun s off w halign hdoor hmap hrw hwo => ?_, fun s off w halign hdoor hmap hmgc hctl => ?_,
    fun s off w halign hdoor hmap hmay hoff => ?_,
    fun s off w halign hoff => ⟨exec_registerWrite_firmware_of_denied s w hoff halign, fun hdoor hmap => ?_⟩,
    fun s off w hoff => ?_, fun s c w => ⟨?_, ?_⟩, fun s off h => counterCaptureRead_captures s h,
    fun s m d hpassed hbad hsafe => ?_,
    fun s m hpassed hgood hmask hsafe hentry => dbgWrite_of_no_bits_answers hpassed hgood hmask hsafe hentry,
    fun s m hpassed hgood hmask => exec_dbgWrite_of_bits hpassed hgood hmask⟩
  · rw [exec_registerWrite_host_of_mapped s w hdoor halign hmap, hostWriteReg_of_plain s hrw hwo]
  · refine ⟨_, exec_registerWrite_host_of_mapped s w hdoor halign hmap, ?_⟩
    rw [hostWriteReg_of_mgc s hmgc hctl]
    split
    · exact ⟨fun o hflag haddr => reg_flagAccess_ne s off 1 hflag haddr,
        fun _ => regBit_flagAccess_same s off (by decide), flagAccess_eq_regs s off 1⟩
    · next hno => exact ⟨fun o _ _ => rfl, fun hclash => absurd hclash hno, rfl⟩
  · refine (execRegisterWrite_firmware_of_no_doorbell s w hoff halign hdoor).trans ?_
    simp only [hmap, hmay, Bool.not_true, Bool.false_eq_true, if_false, if_true]
  · refine (execRegisterWrite_firmware_of_no_doorbell s w hoff halign hdoor).trans ?_
    simp only [hmap, Bool.not_false, if_true]
    rfl
  · obtain ⟨k, hfault⟩ := coreFault_faults s (2 ^ 32 + off)
    exact ⟨_, k, exec_registerWrite_firmware_beyond s w hoff, hfault⟩
  · rw [show 0xC00040 + 0x1000 * c.val = 0xC00000 + 0x1000 * c.val + 0x40 by omega,
      exec_registerWrite_doorbell s c w (by decide) (by decide)]
    exact next_stateOf (execCqDb_answers c w s) s
  · rw [show 0xC00044 + 0x1000 * c.val = 0xC00000 + 0x1000 * c.val + 0x44 by omega,
      exec_registerWrite_doorbell s c w (by decide) (by decide)]
    exact next_stateOf (execEqDb_answers c w s) s
  · have hop : m.opcode ≠ 0x0100 := by
      rw [hpassed.2.2.1]
      decide
    obtain ⟨hanswer, -, hregs⟩ := refuseCritical_answers m (status := 0x10) d hsafe (by decide) hop
    refine ⟨_, exec_dbgWrite_of_refused hpassed hbad, hanswer, ?_, hregs⟩
    rw [refuseCritical_cau, popCau_slots]

end Sys2Proof.Machine
end

section
/-! Page frames: waits, deferred release, pools, fills, unit writes and the release of a context (R460, R473, R474,
R478, R483, R488). -/

namespace Sys2Proof.Machine

open Sys2Proof

/-! ### Tables -/

theorem tget?_tfilter_key {α : Type} (p : Nat → Bool) (t : Table α) (j : Nat) :
    tget? (tfilter (fun k _ => p k) t) j = if p j then tget? t j else none := by
  induction t with
  | nil => simp [tfilter, tget?]
  | cons e t ih =>
    obtain ⟨k, a⟩ := e
    have hrest : tget? (t.filter fun e => p e.1) j = if p j then tget? t j else none := ih
    by_cases hk : k = j
    · subst hk
      by_cases hp : p k = true
      · simp [tfilter, tget?, hp]
      · simp [tfilter, hp, hrest]
    · by_cases hp : p k = true
      · simp [tfilter, tget?, hp, hk, hrest]
      · simp [tfilter, tget?, hp, hk, hrest]

/-! ### Frames that return (R473, R474) -/

theorem freeFrame_frames (s : State) (k : Nat) : tget? (freeFrame s k).pat.frames k = none := by
  unfold freeFrame
  split
  · assumption
  · exact (tget?_tdel _ _ _).trans (if_pos rfl)

theorem freeFrame_maps (s : State) (k : Nat) : (freeFrame s k).pat.maps = s.pat.maps := by
  unfold freeFrame
  split <;> rfl

theorem exec_deferredRelease_of_done {s : State} {d : Deferred} {rest : List Deferred}
    (hd : s.pat.deferred = d :: rest) (hdone : deferredDone s d = true) :
    exec .deferredRelease s = .next (freeFrame { s with pat := { s.pat with deferred := rest } } d.frame) := by
  show execDeferredRelease s = _
  simp only [execDeferredRelease, hd, takeFirst, hdone, if_true]

theorem exec_frameZeroed_of_room {s : State} {k : Fin 24} (hpool : tget 0 s.pat.pool k < prezero s)
    (hfree : tget 0 s.pat.pool k < stackFree s k) (hon : regBit s 0x700000 0 = true) : exec (.frameZeroed k) s =
      .next { s with pat := { s.pat with pool := tput s.pat.pool k (tget 0 s.pat.pool k + 1) } } := by
  show execFrameZeroed k s = _
  simp only [execFrameZeroed, hpool, hfree, hon, decide_true, Bool.and_self, if_true]

theorem exec_frameZeroed_of_full {s : State} {k : Fin 24} (hfull : prezero s ≤ tget 0 s.pat.pool k) :
    exec (.frameZeroed k) s = .next s := by
  show execFrameZeroed k s = _
  simp only [execFrameZeroed, decide_eq_false (Nat.not_lt.mpr hfull), Bool.false_and, Bool.false_eq_true, if_false]

/-! ### Fills (R483) -/

/-- The state in which a fill has ended and the requests that waited for it are taken out. -/
def fillTaken (s : State) (rest : List Fill) (waits : List PatWait) : State :=
  { s with pat := { s.pat with fills := rest, waits := waits } }

theorem fillTaken_self {s : State} {waits : List PatWait} (hwaits : s.pat.waits = waits) (rest : List Fill) :
    fillTaken s rest waits = { s with pat := { s.pat with fills := rest } } := by
  rw [fillTaken, ← hwaits]

theorem regionAt_fillTaken (s : State) (rest : List Fill) (waits : List PatWait) (c va : Nat) :
    regionAt (fillTaken s rest waits) c va = regionAt s c va := rfl

theorem readVirtGo_congr {s t : State} (hpage : ∀ c va n, readPage t c va n = readPage s c va n) (c fuel va n : Nat) :
    readVirtGo t c fuel va n = readVirtGo s c fuel va n := by
  induction fuel generalizing va n with
  | zero => rfl
  | succ fuel ih => simp only [readVirtGo, hpage, ih]

/-- The bytes of a fill are what memory held while the fill was under way. -/
theorem fillSource_fillTaken (s : State) (rest : List Fill) (waits : List PatWait) (c vpn : Nat) (g : Region) :
    fillSource (fillTaken s rest waits) c vpn g = fillSource s c vpn g := by
  have hgo := readVirtGo_congr (s := s) (t := fillTaken s rest waits) (fun _ _ _ => rfl)
  simp only [fillSource, readSrc, readVirt, hgo]
  rfl

/-- A page that has been filled: its frame in use, its bytes in memory, its leaf entry written, its bytes charged. -/
def pageFilled (s : State) (f : Fill) (b : List Byte) : State :=
  chargeBytes (writeLeaf { setUse s f.frame 0 with mem := mwriteBytes s.mem (f.frame * 65536) b } f.ctx f.vpn
    { large := f.large, at_ := f.frame }) f.ctx (pageBytes f.large)

theorem mapOf_writeLeaf (s : State) (c vpn : Nat) (m : PageMap) : mapOf (writeLeaf s c vpn m) c vpn = some m := by
  have hmaps : (writeLeaf s c vpn m).pat.maps = tput s.pat.maps (pageKey c vpn) m := by
    dsimp only [writeLeaf]
    split <;> rfl
  rw [mapOf, hmaps]
  exact tget?_tput_same _ _ _

/-- What the end of a command's cycle looks at: the actions asked for, the commands of PSM in progress and RDY. -/
def dueWork (s : State) : List Ask × List PsmOp × Disp := (s.asks, s.psm.ops, s.disp)

theorem calm_of_dueWork {s t : State} (h : dueWork t = dueWork s) (hcalm : calm s) : calm t := by
  obtain ⟨hasks, hrest⟩ := Prod.mk.inj h
  obtain ⟨hops, hdisp⟩ := Prod.mk.inj hrest
  rwa [calm, hasks, hops, hdisp]

theorem dueWork_setUse (s : State) (k use : Nat) : dueWork (setUse s k use) = dueWork s := by
  unfold setUse
  split <;> rfl

theorem dueWork_writeLeaf (s : State) (c vpn : Nat) (m : PageMap) : dueWork (writeLeaf s c vpn m) = dueWork s := by
  dsimp only [writeLeaf]
  split <;> rfl

theorem dueWork_chargeBytes (s : State) (c n : Nat) : dueWork (chargeBytes s c n) = dueWork s := by
  simp only [chargeBytes, modTally]
  split <;> rfl

theorem chargeBytes_pat (s : State) (c n : Nat) : (chargeBytes s c n).pat = s.pat := by
  simp only [chargeBytes, modTally]
  split <;> rfl

theorem dueWork_disp {s t : State} (h : dueWork t = dueWork s) : t.disp = s.disp :=
  congrArg (fun w => w.2.2) h

theorem dueWork_pageFilled (s : State) (f : Fill) (b : List Byte) : dueWork (pageFilled s f b) = dueWork s :=
  (dueWork_chargeBytes _ _ _).trans ((dueWork_writeLeaf _ _ _ _).trans (dueWork_setUse s f.frame 0))

theorem mapOf_pageFilled (s : State) (f : Fill) (b : List Byte) :
    mapOf (pageFilled s f b) f.ctx f.vpn = some { large := f.large, at_ := f.frame } := by
  rw [mapOf, pageFilled, chargeBytes_pat]
  exact mapOf_writeLeaf _ _ _ _

/-- Every command of PSM in progress changed. -/
def eachOp (h : PsmOp → PsmOp) (s : State) : State := { s with psm := { s.psm with ops := s.psm.ops.map h } }

theorem eachOp_of_none {s : State} (hops : s.psm.ops = []) (h : PsmOp → PsmOp) : eachOp h s = s := by
  rw [eachOp, hops, List.map_nil, ← hops]

theorem switchOn_of_calm {s : State} (hcalm : calm s) : switchOn s = s := by
  rw [switchOn, hcalm.2.1]
  rfl

section
variable {s : State} {f : Fill} {rest : List Fill} (hfills : s.pat.fills = f :: rest) (hwaits : s.pat.waits = [])
include hfills hwaits

/-- With no request waiting, a fill whose bytes and tables are there leaves the page mapped. -/
theorem fillDone_of_good {u : State} {g : Region} {b : List Byte} (hregion : regionAt s f.ctx (f.vpn * 65536) = some g)
    (hsource : fillSource s f.ctx f.vpn g = some b)
    (htabs : ensureTables { s with pat := { s.pat with fills := rest } } f.ctx f.vpn f.field (walkLevels f.large) =
      some u) (hcalm : calm u) : fillDone true s = pageFilled u f b := by
  have hregion' : regionAt (fillTaken s rest []) f.ctx (f.vpn * 65536) = some g :=
    (regionAt_fillTaken _ _ _ _ _).trans hregion
  have hsource' := (fillSource_fillTaken s rest [] f.ctx f.vpn g).trans hsource
  rw [← fillTaken_self hwaits] at htabs
  have hcalm' := calm_of_dueWork (dueWork_pageFilled u f b) hcalm
  have hops : (pageFilled u f b).psm.ops = [] := hcalm'.2.1
  have hdone : fillDone true s = settle (eachOp (fun o => if f.switch && o.kind == 3 && o.cmd.ctx == f.ctx then
      { o with pages := o.pages.filter fun v => v != f.vpn, filled := o.filled + 1 } else o) (pageFilled u f b)) := by
    simp only [fillDone, hfills, hwaits, List.filter_nil]
    simp only [fillTaken] at hregion' hsource' htabs
    simp only [hregion', hsource', htabs, if_true, List.foldl_nil]
    refine congrArg settle ?_
    rfl
  rw [hdone, eachOp_of_none hops]
  exact settle_of_calm hcalm'

/-- With no request waiting, a fill that could not be read gives its frame back. -/
theorem fillDone_of_unread (hcalm : calm s) :
    fillDone false s = freeFrame { s with pat := { s.pat with fills := rest } } f.frame := by
  have hfree : freeFrame (fillTaken s rest []) f.frame = { s with
      pat := (freeFrame (fillTaken s rest []) f.frame).pat, mem := (freeFrame (fillTaken s rest []) f.frame).mem } :=
    freeFrame_eq_pat_mem _ _
  have hcalm' : calm (freeFrame (fillTaken s rest []) f.frame) := by
    rw [hfree]
    exact hcalm
  have hdone : fillDone false s = settle (eachOp (fun o => if f.switch && o.kind == 3 && o.cmd.ctx == f.ctx then
      { o with limit := true, pages := [] } else o) (freeFrame (fillTaken s rest []) f.frame)) := by
    simp only [fillDone, hfills, hwaits, List.filter_nil, Bool.false_eq_true, if_false]
    split
    · next h => split at h <;> cases h
    · rfl
  rw [hdone, eachOp_of_none hcalm'.2.1, settle_of_calm hcalm', fillTaken_self hwaits]

end

/-! ### Waiting requests (R478) -/

theorem exec_frameWaitGrant_of_some {s t : State} (h : (waitHeads s).findSome? (fun w => tryWait s w) = some t) :
    exec .frameWaitGrant s = .next (switchOn (afterWrites (settle t))) := by
  show execFrameWaitGrant s = _
  simp only [execFrameWaitGrant, frameGrant, h]

/-- A unit's write is no request that waits for a fill. -/
theorem waitsFill_write (s : State) (c va : Nat) (bs : List Byte) : waitsFill s (.write c va bs) = false := by
  rw [waitsFill, List.any_eq_false]
  intro f _
  simp [asksPage, PatWait.ofRun]

theorem headsOf_of_write {s : State} {c va : Nat} {bs : List Byte} (hone : s.pat.waits = [.write c va bs]) :
    headsOf s true = [.write c va bs] := by
  simp [headsOf, hone, waitsFill_write, firstPerCtx, PatWait.isWrite, sortBy, insertBy]

theorem exec_unitWrite_of_done {s t : State} {c va : Nat} {bs : List Byte} (hone : s.pat.waits = [.write c va bs])
    (hdone : writePage { s with pat := { s.pat with served := c } } c va bs = .done t) :
    exec .unitWrite s = .next (afterWrites { t with pat := { t.pat with
      waits := t.pat.waits.filter fun v => v != .write c va bs } }) := by
  show execUnitWrite s = _
  simp only [execUnitWrite, headsOf_of_write hone, List.findSome?_cons, tryWait, waitCtx, hdone]

theorem exec_unitWrite_of_wait {s : State} {c va : Nat} {bs : List Byte} (hone : s.pat.waits = [.write c va bs])
    (hwait : writePage { s with pat := { s.pat with served := c } } c va bs = .wait) :
    exec .unitWrite s = .next s := by
  show execUnitWrite s = _
  simp only [execUnitWrite, headsOf_of_write hone, List.findSome?_cons, List.findSome?_nil, tryWait, waitCtx, hwait]

/-! ### Release of a context (R488) -/

/-- A released context keeps the mappings of the others, whose keys lie outside its range. -/
theorem mapOf_releaseCtx (s : State) (c d vpn : Nat) : mapOf (releaseCtx s c) d vpn =
    if decide (pageKey d vpn < c * 2 ^ 32) || decide (c * 2 ^ 32 + 2 ^ 32 ≤ pageKey d vpn)
      then mapOf s d vpn else none := by
  have hmaps : (((s.pat.frames.filter fun e => e.2.ctx == c && e.2.use != 4).map fun e => e.1).foldl
      freeFrame s).pat.maps = s.pat.maps := foldl_keeps (fun s => s.pat.maps) freeFrame_maps _ s
  have hget := tget?_tfilter_key (fun k => decide (k < c * 2 ^ 32) || decide (c * 2 ^ 32 + 2 ^ 32 ≤ k)) s.pat.maps
    (pageKey d vpn)
  rw [← hmaps] at hget
  rw [mapOf, mapOf, ← hmaps]
  exact hget

theorem exec_patRelease_of_idle {s : State} {c : Fin 64} (hen : ctxEnabled s c = false) (hidle : ctxIdle s c = true) :
    exec (.patRelease c) s = .next (releaseCtx s c) := by
  show execPatRelease c s = _
  simp only [execPatRelease, hen, hidle, Bool.not_false, Bool.and_self, if_true]

theorem exec_patRelease_of_enabled {s : State} {c : Fin 64} (hen : ctxEnabled s c = true) :
    exec (.patRelease c) s = .next (setRegBit s (patBase c + 0xC) 28 true) := by
  show execPatRelease c s = _
  simp only [execPatRelease, hen, Bool.not_true, Bool.false_and, Bool.false_eq_true, if_false]

/-- Settles O39: waits and frames, then fills, unit writes and the release of a context. -/
theorem frames : Obligations.Frames := by
  unfold Obligations.Frames
  refine ⟨fun s t h => exec_frameWaitGrant_of_some h,
    fun s d rest hd hdone => ⟨exec_deferredRelease_of_done hd hdone, freeFrame_frames _ _⟩,
    fun s k hpool hfree hon => ⟨_, exec_frameZeroed_of_room hpool hfree hon, tget_tput_same _ _ _ _, rfl, rfl⟩,
    fun s k hfull => exec_frameZeroed_of_full hfull,
    fun s u f rest g b hfills hwaits hregion hsource htabs hcalm => ?_,
    fun s f rest hfills hwaits hcalm => ?_, fun s t c va bs hone hdone => exec_unitWrite_of_done hone hdone,
    fun s c va bs hone hwait => exec_unitWrite_of_wait hone hwait,
    fun s c hen hidle => ⟨exec_patRelease_of_idle hen hidle, fun vpn hvpn => ?_, fun d vpn hd hne hvpn => ?_⟩,
    fun s c hen => exec_patRelease_of_enabled hen⟩
  · have hcalm' := calm_of_dueWork (dueWork_pageFilled u f b) hcalm
    refine ⟨pageFilled u f b, ?_, mapOf_pageFilled u f b, dueWork_disp (dueWork_pageFilled u f b)⟩
    show execStreamFillDone true s = _
    rw [execStreamFillDone, fillDone_of_good hfills hwaits hregion hsource htabs hcalm, switchOn_of_calm hcalm']
  · show execStreamFillDone false s = _
    rw [execStreamFillDone, fillDone_of_unread hfills hwaits hcalm, switchOn_of_calm]
    rw [freeFrame_eq_pat_mem]
    exact hcalm
  · rw [mapOf_releaseCtx, if_neg]
    rw [pageKey, Bool.or_eq_true, decide_eq_true_iff, decide_eq_true_iff]
    omega
  · rw [mapOf_releaseCtx, if_pos]
    rw [pageKey, Bool.or_eq_true, decide_eq_true_iff, decide_eq_true_iff]
    omega

end Sys2Proof.Machine
end

section
/-! The serving loop: SERVE_OPEN, SERVE_CLOSE, assemblies and ADVANCE (R482, R494, R497, R510-R515, R520, R527). -/

namespace Sys2Proof.Machine

open Sys2Proof

/-! ### Serving contexts -/

@[simp] theorem srvOf_setSrv_same (s : State) (v : Nat) (x : Serve) : srvOf (setSrv s v x) v = x :=
  tget_tput_same ({} : Serve) s.sls.srv v x

theorem srvOf_setSrv_ne (s : State) {v w : Nat} (x : Serve) (h : w ≠ v) : srvOf (setSrv s v x) w = srvOf s w :=
  tget_tput_ne ({} : Serve) s.sls.srv x h

theorem complete_sls (s : State) (m : Cmd) (status detail result reruns : Nat) :
    (complete s m status detail result reruns).sls = s.sls := by
  rw [complete_keeps]

/-! ### The queue that a command has left -/

section
variable (s : State) (rest : List Cmd)

@[simp] theorem srvOf_queueIs (v : Nat) : srvOf (queueIs s rest) v = srvOf s v := rfl

@[simp] theorem queueIs_tge : (queueIs s rest).tge = s.tge := rfl

@[simp] theorem readSrc_queueIs (c : Nat) (stacked : Bool) (a n : Nat) :
    readSrc (queueIs s rest) c stacked a n = readSrc s c stacked a n := by
  have hgo := readVirtGo_congr (s := s) (t := queueIs s rest) (fun _ _ _ => rfl)
  simp only [readSrc, readVirt, hgo]
  rfl

@[simp] theorem sdFault_queueIs (c : Nat) (b : List Byte) : sdFault (queueIs s rest) c b = sdFault s c b := rfl

end

/-! ### SERVE_OPEN (R494-R497) -/

/-- A serving context just opened. -/
def opened (s : State) (m : Cmd) (i : Nat) (img : Img) (b : List Byte) : Serve :=
  { state := 1, ctx := m.ctx, img := i, imgId := img.id, desc := b, due := true, polled := nowNs s / 256 }

section
variable {s : State} {m : Cmd} {rest : List Cmd} {i : Nat} {img : Img} (hnext : isNext s m rest 0x0400)
  (hv : m.at 4 1 < 4) (hid : m.at 5 1 < 16) (hsrc : m.at 6 1 < 2) (hzero : m.at 7 1 = 0) (halign : m.at 8 8 % 128 = 0)
  (hrest : firstNonzero m.bytes 16 32 = none) (hclosed : (srvOf s (m.at 4 1)).state = 0)
  (hnone : servingOf s m.ctx = none) (himg : findImg s m.ctx (m.at 5 1) = some (i, img)) (hready : img.state = 1)
  (hidle : (s.tge.imgs.any fun e => e.2.ctx == m.ctx &&
    (e.2.state == 0 || e.2.pending.isSome || (stepOf s e.1).isSome)) = false)
include hnext hv hid hsrc hzero halign hrest hclosed hnone himg hready hidle

theorem exec_serveOpen_of_read_error :
    exec (.serveOpen true) s = .next (badOperand (queueIs s rest) m 0x1FF) := by
  show execServeOpen s true = _
  simp only [execServeOpen, popUnit_of_isNext hnext, if_neg (Nat.not_le.mpr hv), if_neg (Nat.not_le.mpr hid),
    if_neg (Nat.not_le.mpr hsrc), hzero, halign, hrest, Nat.mod_eq_of_lt hv, srvOf_queueIs, hclosed,
    servingOf_queueIs, hnone, findImg_queueIs, himg, hready, queueIs_tge, stepOf_queueIs, hidle, ne_eq,
    not_true_eq_false, decide_false, Option.isSome_none, Bool.or_self, Bool.false_eq_true, if_false, if_true]

theorem exec_serveOpen_of_good {b : List Byte} (hread : readSrc s m.ctx (bitAt (m.at 6 1) 0) (m.at 8 8) 128 = some b)
    (hgood : sdFault s m.ctx b = none) : exec (.serveOpen false) s =
      .next (completeOk (setSrv (queueIs s rest) (m.at 4 1) (opened s m i img b)) m (m.at 4 1)) := by
  show execServeOpen s false = _
  simp only [execServeOpen, popUnit_of_isNext hnext, if_neg (Nat.not_le.mpr hv), if_neg (Nat.not_le.mpr hid),
    if_neg (Nat.not_le.mpr hsrc), hzero, halign, hrest, Nat.mod_eq_of_lt hv, srvOf_queueIs, hclosed,
    servingOf_queueIs, hnone, findImg_queueIs, himg, hready, queueIs_tge, stepOf_queueIs, hidle, readSrc_queueIs,
    hread, sdFault_queueIs, hgood, ne_eq, not_true_eq_false, decide_false, Option.isSome_none, Bool.or_self,
    Bool.false_eq_true, if_false]
  rfl

end

/-- The answer of SERVE_OPEN, and what it leaves unchanged. -/
theorem opened_answers {s : State} {m : Cmd} {rest : List Cmd} (hop : m.opcode = 0x0400) {v : Nat} (x : Serve)
    (hsafe : s.saf.safe = false) (hentry : bitAt m.flags 1 = false) :
    answered s (completeOk (setSrv (queueIs s rest) v x) m v) m 0 0 v ∧
      srvOf (completeOk (setSrv (queueIs s rest) v x) m v) v = x ∧
      (∀ w, w ≠ v → srvOf (completeOk (setSrv (queueIs s rest) v x) m v) w = srvOf s w) ∧
      completeOk (setSrv (queueIs s rest) v x) m v =
        { s with hif := (completeOk (setSrv (queueIs s rest) v x) m v).hif
                 sls := (completeOk (setSrv (queueIs s rest) v x) m v).sls
                 regs := (completeOk (setSrv (queueIs s rest) v x) m v).regs } ∧
      (s.hif.cplQ.length < 32 → (completeOk (setSrv (queueIs s rest) v x) m v).regs = s.regs) := by
  have hload : m.opcode ≠ 0x0100 := by
    rw [hop]
    decide
  have hsrv (w) : srvOf (completeOk (setSrv (queueIs s rest) v x) m v) w = srvOf (setSrv (queueIs s rest) v x) w := by
    rw [srvOf, completeOk, complete_sls, srvOf]
  refine ⟨answered_complete (s := setSrv (queueIs s rest) v x) hsafe rfl (.inl hentry) 0 v 0, ?_, fun w hw => ?_, ?_,
    fun hroom => complete_regs_of_room (s := setSrv (queueIs s rest) v x) hsafe hload hroom 0 v 0⟩
  · rw [hsrv, srvOf_setSrv_same]
  · rw [hsrv, srvOf_setSrv_ne _ _ hw, srvOf_queueIs]
  · conv_lhs => rw [completeOk, complete_keeps]
    rw [completeOk, complete_sls]
    rfl

/-! ### SERVE_CLOSE (R527) -/

theorem exec_serveClose_of_open {s : State} {m : Cmd} {rest : List Cmd} (hnext : isNext s m rest 0x0401)
    (hv : m.at 4 1 < 4) (hplain : m.at 5 1 = 0) (hrest : firstNonzero m.bytes 6 42 = none)
    (hopen : (srvOf s (m.at 4 1)).state ≠ 0) (hmine : (srvOf s (m.at 4 1)).ctx = m.ctx)
    (habort : (srvOf s (m.at 4 1)).abort = false) :
    exec .serveClose s = .next (setSrv (queueIs s rest) (m.at 4 1)
      { srvOf s (m.at 4 1) with closes := (srvOf s (m.at 4 1)).closes ++ [m], state := 2, due := true }) := by
  show execServeClose s = _
  simp only [execServeClose, popUnit_of_isNext hnext, if_neg (Nat.not_le.mpr hv), hplain, hrest, srvOf_queueIs,
    hopen, hmine, habort, bitAt_zero, ne_eq, not_true_eq_false, decide_false, Bool.or_self, Bool.false_and,
    Bool.false_eq_true, if_false, show ¬ 2 ≤ 0 by decide]

/-! ### Assemblies (R513, R520) -/

theorem exec_assembly_of_due {s : State} {v : Fin 4} (hdue : (srvOf s v).due = true)
    (hallowed : asmAllowed s (srvOf s v) = true) : exec (.assembly v) s = .next (asmStart s v) := by
  show execAssembly v s = _
  simp only [execAssembly, hdue, hallowed, Bool.and_self, if_true]

theorem exec_assembly_of_not_due {s : State} {v : Fin 4} (hdue : (srvOf s v).due = false) :
    exec (.assembly v) s = .next (launchesOn s) := by
  show execAssembly v s = _
  simp only [execAssembly, hdue, Bool.false_and, Bool.false_eq_true, if_false]

/-- Where no step is planned, no launch goes on. -/
theorem launchesOn_of_no_plan {s : State}
    (hnone : ∀ v, v < 4 → ((srvOf s v).asm.any fun a => a.plan.isSome) = false) : launchesOn s = s := by
  simp only [launchesOn, List.range_succ, List.range_zero, List.nil_append, List.cons_append, List.foldl_cons,
    List.foldl_nil, hnone 0 (by decide), hnone 1 (by decide), hnone 2 (by decide), hnone 3 (by decide),
    Bool.false_eq_true, if_false]

theorem exec_servePoll_of_idle {s : State} {v : Fin 4} (hallowed : asmAllowed s (srvOf s v) = true)
    (hdue : (srvOf s v).due = false) (hlive : ((srvOf s v).seqs.any fun e => e.2.live) = false) :
    exec (.servePoll v) s = .next (asmStart
      (advanceTo (nsUnits (((srvOf s v).polled + sdPoll (srvOf s v).desc) * 256))
        (countLate s (inJump s (nsUnits (((srvOf s v).polled + sdPoll (srvOf s v).desc) * 256))))) v) := by
  show execServePoll v s = _
  simp only [execServePoll, hallowed, hdue, hlive, Bool.not_false, Bool.and_self, if_true]

/-- An assembly without the operation `o` that was its first. -/
def opTaken (o : KvOp) (a : Asm) : Asm :=
  { a with ops := match a.ops with | p :: r => if p = o then r else p :: r | [] => [] }

theorem exec_kvOperationDone_of_done {s t : State} {v : Fin 4} {a : Asm} {o : KvOp} {rest : List KvOp}
    (hasm : (srvOf s v).asm = some a) (hops : a.ops = o :: rest) (hrun : runOp s v o = some t)
    (habort : (srvOf s v).abort = false) :
    exec (.kvOperationDone v) s = .next (asmRun v 1048576 (modAsm t v (opTaken o))) := by
  show execKvOperationDone v s = _
  simp only [execKvOperationDone, hasm, hops, hrun, habort, Bool.false_eq_true, if_false]
  rfl

/-! ### ADVANCE (R510-R512) -/

/-- A sequence after its tokens are counted, before its end is looked at. -/
def seqMovedOn (q : Seq) (tokens : Nat) (gen : Bool) : Seq :=
  { q with pos := q.pos + tokens, generated := q.generated + b2n gen, steps := q.steps + 1
           state := if q.state = 1 && decide (q.target ≤ q.pos + tokens) then 2 else q.state
           recomp := if q.state = 1 && decide (q.target ≤ q.pos + tokens) then false else q.recomp }

theorem advanceSeq_eq (q : Seq) (tokens : Nat) (gen finish : Bool) (stamp ns : Nat) :
    advanceSeq q tokens gen finish stamp ns = if (gen && finish) || q.generated + b2n gen = q.maxNew then
      { seqMovedOn q tokens gen with state := 5, finish := some (stamp, ns) } else seqMovedOn q tokens gen := by
  simp only [advanceSeq, seqMovedOn]
  split_ifs <;> rfl

theorem advanceSeq_of_last {q : Seq} {gen finish : Bool}
    (hlast : (gen && finish) = true ∨ q.generated + b2n gen = q.maxNew) (tokens stamp ns : Nat) :
    advanceSeq q tokens gen finish stamp ns =
      { seqMovedOn q tokens gen with state := 5, finish := some (stamp, ns) } := by
  rw [advanceSeq_eq, if_pos (by simpa using hlast)]

theorem advanceSeq_of_more {q : Seq} {gen finish : Bool} (hfinish : (gen && finish) = false)
    (hmore : q.generated + b2n gen ≠ q.maxNew) (tokens stamp ns : Nat) :
    advanceSeq q tokens gen finish stamp ns = seqMovedOn q tokens gen := by
  rw [advanceSeq_eq, if_neg (by simp [hfinish, hmore])]

theorem slsAdvance_of_no_serving {s : State} {x : Run} {data : Nat} (hkind : fld data 123 120 = 1)
    (hnone : servingOf s x.ctx = none) : slsAdvance s x data = refuseAdvance s x (fld data 117 104) 6 := by
  simp only [slsAdvance, hkind, hnone, ne_eq, not_true_eq_false, if_false]

/-- Settles O40: SERVE_OPEN, SERVE_CLOSE, assemblies, then ADVANCE. -/
theorem servingLoop : Obligations.ServingLoop := by
  unfold Obligations.ServingLoop
  refine ⟨⟨fun s m rest i img b hnext hv hid hsrc hzero halign hrest hclosed hnone himg hready hidle hread hgood hsafe
      hentry => ?_,
    fun s m rest i img hnext hv hid hsrc hzero halign hrest hclosed hnone himg hready hidle hsafe => ?_,
    fun s m rest hnext hv hplain hrest hopen hmine habort =>
      exec_serveClose_of_open hnext hv hplain hrest hopen hmine habort,
    fun s v hdue hallowed => exec_assembly_of_due hdue hallowed, fun s v hdue => exec_assembly_of_not_due hdue,
    fun s hnone => launchesOn_of_no_plan hnone,
    fun s v hallowed hdue hlive => exec_servePoll_of_idle hallowed hdue hlive,
    fun s t v a o rest hasm hops hrun habort => exec_kvOperationDone_of_done hasm hops hrun habort⟩,
    fun q n gen fin st ns => ?_, fun q n gen fin st ns hlast => ?_, fun q n gen fin st ns hfinish hmore => ?_,
    fun s x data hkind hnone => slsAdvance_of_no_serving hkind hnone⟩
  · obtain ⟨hanswer, hsrv, hothers, hframe, hregs⟩ :=
      opened_answers (rest := rest) hnext.2 (v := m.at 4 1) (opened s m i img b) hsafe hentry
    refine ⟨_, exec_serveOpen_of_good hnext hv hid hsrc hzero halign hrest hclosed hnone himg hready hidle hread hgood,
      hanswer, ?_⟩
    rw [hsrv]
    exact ⟨rfl, rfl, rfl, rfl, rfl, hothers, hframe, hregs⟩
  · exact ⟨_, exec_serveOpen_of_read_error hnext hv hid hsrc hzero halign hrest hclosed hnone himg hready hidle,
      answered_complete (s := queueIs s rest) hsafe rfl (.inr (by decide)) _ _ _, complete_sls _ _ _ _ _ _⟩
  · rw [advanceSeq_eq]
    split <;> exact ⟨rfl, rfl, rfl, rfl⟩
  · rw [advanceSeq_of_last hlast]
    exact ⟨rfl, rfl⟩
  · rw [advanceSeq_of_more hfinish hmore]
    simp only [seqMovedOn, Bool.and_eq_true, decide_eq_true_eq]

end Sys2Proof.Machine
end

section
/-! Parcels, shares, saves and models (R539, R540, R543, R556, R557, R559). -/

namespace Sys2Proof.Machine

open Sys2Proof

theorem complete_psm (s : State) (m : Cmd) (status detail result reruns : Nat) :
    (complete s m status detail result reruns).psm = s.psm := by
  rw [complete_keeps]

theorem calm_acceptCritical {s : State} (hcalm : calm s) (m : Cmd) : calm (acceptCritical s m) := by
  rw [acceptCritical_frame]
  exact hcalm

/-- A command that has passed answers as it would without its entry in CAU. -/
theorem answered_accepted {s u : State} {m : Cmd} (hsafe : s.saf.safe = false) (hentry : bitAt m.flags 1 = false)
    (hsaf : u.saf = (acceptCritical s m).saf) (hhif : u.hif = (acceptCritical s m).hif) (result : Nat) :
    answered s (completeOk u m result) m 0 0 result := by
  refine answered_complete (by rw [hsaf, acceptCritical_frame]; exact hsafe) ?_ (.inl hentry) 0 result 0
  rw [hhif, acceptCritical_frame]

/-! ### PARCEL_SET (R537-R540) -/

/-- The operation of a PARCEL_SET that kills nothing. -/
def parcelOp (s : State) (m : Cmd) : PsmOp :=
  { cmd := m, kind := 0, ctxs := (psTouches s m).2, parcels := (psTouches s m).1 }

/-- An operation joins those in progress. -/
def opQueued (s : State) (o : PsmOp) : State := { s with psm := { s.psm with ops := s.psm.ops ++ [o] } }

/-- The parcel that a DEFINE describes. -/
def parcelDefined (m : Cmd) : Parcel := { clusters := psClusters m, chanMask := psChan m, wayMask := psWay m }

/-- The parcels after the install of a PARCEL_SET, by its MODE. -/
def parcelsAfter (s : State) (m : Cmd) : Table Parcel :=
  if psMode m = 0 then tput s.psm.parcels (psParcel m) (parcelDefined m)
  else if psMode m = 1 then s.psm.parcels else tdel s.psm.parcels (psParcel m)

/-- The bindings after the install of a PARCEL_SET: only a BIND changes them. -/
def boundAfter (s : State) (m : Cmd) : Table Nat :=
  if psMode m = 1 then (if psParcel m = 0 then tdel s.psm.bound (psCtx m) else tput s.psm.bound (psCtx m) (psParcel m))
  else s.psm.bound

theorem installParcel_parcels (s : State) (o : PsmOp) : (installParcel s o).psm.parcels = parcelsAfter s o.cmd := by
  by_cases hdefine : psMode o.cmd = 0
  · simp only [installParcel, parcelsAfter, if_pos hdefine, parcelDefined]
  · by_cases hbind : psMode o.cmd = 1
    · simp only [installParcel, parcelsAfter, if_neg hdefine, if_pos hbind]
    · simp only [installParcel, parcelsAfter, if_neg hdefine, if_neg hbind]

theorem installParcel_bound (s : State) (o : PsmOp) : (installParcel s o).psm.bound = boundAfter s o.cmd := by
  by_cases hdefine : psMode o.cmd = 0
  · have hbind : psMode o.cmd ≠ 1 := by omega
    simp only [installParcel, boundAfter, if_pos hdefine, if_neg hbind]
  · by_cases hbind : psMode o.cmd = 1
    · simp only [installParcel, boundAfter, if_neg hdefine, if_pos hbind]
    · simp only [installParcel, boundAfter, if_neg hdefine, if_neg hbind]

theorem installParcel_erases (s : State) (o : PsmOp) : (installParcel s o).psm.ops = s.psm.ops.erase o := by
  by_cases hdefine : psMode o.cmd = 0
  · simp only [installParcel, if_pos hdefine]
  · by_cases hbind : psMode o.cmd = 1
    · simp only [installParcel, if_neg hdefine, if_pos hbind]
    · simp only [installParcel, if_neg hdefine, if_neg hbind]

theorem installParcel_ops {s : State} {o : PsmOp} (hone : s.psm.ops = [o]) : (installParcel s o).psm.ops = [] := by
  rw [installParcel_erases, hone, List.erase_cons_head]

theorem recheckSteps_of_no_ctx (s : State) : recheckSteps s [] = s := by
  refine List.foldlRecOn (motive := (· = s)) _ _ rfl fun t ht e _ => ?_
  subst ht
  split
  · rfl
  · simp

theorem recheckSteps_of_no_step {s : State} (hsteps : s.tge.steps = []) (ctxs : List Nat) :
    recheckSteps s ctxs = s := by
  rw [recheckSteps, hsteps]
  rfl

/-- The state after a PARCEL_SET that is installed at once. -/
def parcelInstalled (s : State) (m : Cmd) : State :=
  installParcel (opQueued (acceptCritical s m) (parcelOp s m)) (parcelOp s m)

theorem parcelInstalled_frame (s : State) (m : Cmd) :
    parcelInstalled s m = { acceptCritical s m with psm := (parcelInstalled s m).psm } := rfl

theorem parcelInstalled_outside (s : State) (m : Cmd) :
    (parcelInstalled s m).saf = (acceptCritical s m).saf ∧ (parcelInstalled s m).hif = (acceptCritical s m).hif :=
  ⟨rfl, rfl⟩

theorem parcelInstalled_tge (s : State) (m : Cmd) : (parcelInstalled s m).tge = s.tge := by
  rw [parcelInstalled_frame, acceptCritical_frame]

theorem parcelInstalled_ops {s : State} (hnone : s.psm.ops = []) (m : Cmd) : (parcelInstalled s m).psm.ops = [] := by
  refine installParcel_ops ?_
  rw [opQueued, acceptCritical_frame, hnone, List.nil_append]

theorem calm_parcelInstalled {s : State} (hcalm : calm s) (m : Cmd) : calm (parcelInstalled s m) := by
  obtain ⟨hasks, -, hready⟩ := calm_acceptCritical hcalm m
  exact ⟨hasks, parcelInstalled_ops hcalm.2.1 m, hready⟩

theorem parcelInstalled_parcels (s : State) (m : Cmd) : (parcelInstalled s m).psm.parcels = parcelsAfter s m := by
  rw [parcelInstalled, installParcel_parcels, opQueued, acceptCritical_frame]
  rfl

theorem parcelInstalled_bound (s : State) (m : Cmd) : (parcelInstalled s m).psm.bound = boundAfter s m := by
  rw [parcelInstalled, installParcel_bound, opQueued, acceptCritical_frame]
  rfl

/-- R539: a PARCEL_SET that takes no cluster from a context in use is installed and answers at once. -/
theorem acceptParcel_at_once {s : State} {m : Cmd}
    (hrack : (psTouches s m).2.foldl (rackCtx m) (acceptCritical s m, []) = (acceptCritical s m, []))
    (hrec : ((psTouches s m).2.all fun c => !thas s.saf.recov c) = true)
    (hfit : ∀ u : State, u.tge = s.tge → recheckSteps u (psTouches s m).2 = u) (hcalm : calm s) :
    acceptParcel s m = completeOk (parcelInstalled s m) m 0 := by
  have hdone : parcelDone (opQueued (acceptCritical s m) (parcelOp s m)) (parcelOp s m) = true := by
    have hrec' : ((psTouches s m).2.all fun c => !thas (acceptCritical s m).saf.recov c) = true := by
      rw [acceptCritical_frame]
      exact hrec
    simpa [parcelDone, parcelOp, opQueued] using hrec'
  have haccept : acceptParcel s m = settle (if parcelDone (opQueued (acceptCritical s m) (parcelOp s m)) (parcelOp s m)
      then completeOk (recheckSteps (parcelInstalled s m) (psTouches s m).2) m 0
      else opQueued (acceptCritical s m) (parcelOp s m)) := by
    simp only [acceptParcel, hrack]
    rfl
  rw [haccept, hdone, if_pos rfl, hfit _ (parcelInstalled_tge s m)]
  exact settle_of_calm (calm_complete (calm_parcelInstalled hcalm m) _ _ _ _ _)

section
variable {s : State} {m : Cmd} {mode : Nat → Bool} (hpassed : isPassed s m 0x0500) (hmode : mode (psMode m) = true)
include hpassed hmode

theorem parcelSet_of_good (hgood : parcelCheck s m = none) : parcelSet mode s = .next (acceptParcel s m) := by
  simp only [parcelSet, waitingCritical_of_isPassed hpassed, hmode, hgood, Bool.not_true, Bool.false_eq_true, if_false]

theorem parcelSet_of_refused {status d : Nat} (hbad : parcelCheck s m = some (status, d)) :
    parcelSet mode s = .next (refuseCritical s m status d) := by
  simp only [parcelSet, waitingCritical_of_isPassed hpassed, hmode, hbad, Bool.not_true, Bool.false_eq_true, if_false]

theorem parcelSet_refuses {status d : Nat} (hbad : parcelCheck s m = some (status, d)) (hsafe : s.saf.safe = false)
    (hstatus : status ≠ 0) : ∃ t, parcelSet mode s = .next t ∧ answered s t m status d 0 ∧ t.psm = s.psm := by
  have hop : m.opcode ≠ 0x0100 := by
    rw [hpassed.2.2.1]
    decide
  refine ⟨_, parcelSet_of_refused hpassed hmode hbad, (refuseCritical_answers m d hsafe hstatus hop).1, ?_⟩
  rw [refuseCritical, completeWith, complete_psm, popCau_frame]

/-- The answer of a PARCEL_SET that is installed at once, and its parcels and bindings. -/
theorem parcelSet_installs (hgood : parcelCheck s m = none)
    (hrack : (psTouches s m).2.foldl (rackCtx m) (acceptCritical s m, []) = (acceptCritical s m, []))
    (hrec : ((psTouches s m).2.all fun c => !thas s.saf.recov c) = true)
    (hfit : ∀ u : State, u.tge = s.tge → recheckSteps u (psTouches s m).2 = u) (hcalm : calm s)
    (hsafe : s.saf.safe = false) (hentry : bitAt m.flags 1 = false) :
    ∃ t, parcelSet mode s = .next t ∧ answered s t m 0 0 0 ∧ t.psm.parcels = parcelsAfter s m ∧
      t.psm.bound = boundAfter s m ∧ t.psm.ops = [] := by
  refine ⟨completeOk (parcelInstalled s m) m 0, ?_,
    answered_accepted hsafe hentry (parcelInstalled_outside s m).1 (parcelInstalled_outside s m).2 0, ?_, ?_, ?_⟩
  · rw [parcelSet_of_good hpassed hmode hgood, acceptParcel_at_once hrack hrec hfit hcalm]
  · rw [completeOk, complete_psm, parcelInstalled_parcels]
  · rw [completeOk, complete_psm, parcelInstalled_bound]
  · rw [completeOk, complete_psm, parcelInstalled_ops hcalm.2.1]

end

theorem psTouches_define {s : State} {m : Cmd} (hmode : psMode m = 0) (hnone : boundTo s (psParcel m) = []) :
    (psTouches s m).2 = [] := by
  simp only [psTouches, hmode, hnone, if_true]

theorem psTouches_dissolve (s : State) {m : Cmd} (hmode : psMode m = 2) : (psTouches s m).2 = [] := by
  simp [psTouches, hmode]

theorem psTouches_bind (s : State) {m : Cmd} (hmode : psMode m = 1) : (psTouches s m).2 = [psCtx m] := by
  simp [psTouches, hmode]

theorem parcelBind_binds {s : State} {m : Cmd} (hpassed : isPassed s m 0x0500) (hmode : psMode m = 1)
    (hgood : parcelCheck s m = none) (hleave : leaving s m (psCtx m) = 0) (hrec : thas s.saf.recov (psCtx m) = false)
    (hsteps : s.tge.steps = []) (hcalm : calm s) (hsafe : s.saf.safe = false) (hentry : bitAt m.flags 1 = false) :
    ∃ t, exec .parcelBind s = .next t ∧ answered s t m 0 0 0 ∧ parcelOf t (psCtx m) = psParcel m ∧
      (∀ c, c ≠ psCtx m → parcelOf t c = parcelOf s c) ∧ t.psm.parcels = s.psm.parcels := by
  have hctxs := psTouches_bind s hmode
  have hleave' : leaving (acceptCritical s m) m (psCtx m) = 0 := by
    rw [acceptCritical_frame]
    exact hleave
  have hrack : (psTouches s m).2.foldl (rackCtx m) (acceptCritical s m, []) = (acceptCritical s m, []) := by
    simp only [hctxs, List.foldl_cons, List.foldl_nil, rackCtx, hleave', if_true]
  obtain ⟨t, ht, hanswer, hparcels, hbound, -⟩ := parcelSet_installs (mode := fun k => k == 1) hpassed
    (by simp [hmode]) hgood hrack (by simp [hctxs, hrec])
    (fun u hu => recheckSteps_of_no_step (hu ▸ hsteps) _) hcalm hsafe hentry
  rw [parcelsAfter, hmode, if_neg (by decide), if_pos rfl] at hparcels
  rw [boundAfter, hmode, if_pos rfl] at hbound
  refine ⟨t, ht, hanswer, ?_, fun c hc => ?_, hparcels⟩
  · rw [parcelOf, hbound]
    split
    · next hzero => simp [tget, tget?_tdel, hzero]
    · exact tget_tput_same _ _ _ _
  · rw [parcelOf, hbound, parcelOf]
    split
    · simp [tget, tget?_tdel, hc]
    · exact tget_tput_ne _ _ _ hc

theorem exec_parcelInstall_of_done {s : State} {o : PsmOp} (hone : s.psm.ops = [o]) (hdone : parcelDone s o = true) :
    exec .parcelInstall s =
      .next (settle (completeOk (recheckSteps (installParcel s o) o.ctxs) o.cmd o.killed)) := by
  show execParcelInstall s = _
  simp only [execParcelInstall, hone, List.find?_cons, hdone, finishParcel]

/-! ### SHARE_SET (R23, R543) -/

/-- The context's new weight offered. -/
def shareOffered (s : State) (m : Cmd) : State :=
  offerShadow (acceptCritical s m) (psmCtx (m.at 4 1) + 4) (m.at 8 2)

theorem shareOffered_frame (s : State) (m : Cmd) : shareOffered s m = { acceptCritical s m with
    regs := (shareOffered s m).regs
    mgc := { s.mgc with offers := s.mgc.offers ++
      [{ off := psmCtx (m.at 4 1) + 4, stamp := s.gtb.now, v := m.at 8 2 }] } } := by
  have hmgc : (acceptCritical s m).mgc = s.mgc := by rw [acceptCritical_frame]
  have hgtb : (acceptCritical s m).gtb = s.gtb := by rw [acceptCritical_frame]
  rw [shareOffered, offerShadow, hmgc, hgtb]
  rfl

theorem shareOffered_outside (s : State) (m : Cmd) :
    (shareOffered s m).saf = (acceptCritical s m).saf ∧ (shareOffered s m).hif = (acceptCritical s m).hif := by
  rw [shareOffered_frame]
  exact ⟨rfl, rfl⟩

theorem shareFault_ctx {m : Cmd} (hgood : shareFault m = none) : m.at 4 1 < 64 := by
  by_contra h
  simp [shareFault, Nat.not_lt.mp h] at hgood

theorem exec_shareSet_of_good {s : State} {m : Cmd} (hpassed : isPassed s m 0x0501) (hgood : shareFault m = none)
    (hfree : regBit s 0x980008 0 = false) :
    exec .shareSet s = .next (completeOk (shareOffered s m) m (s.gtb.now / policyTick + 1)) := by
  have hctx := shareFault_ctx hgood
  have hhold : regBit (shareOffered s m) 0x980008 0 = false := by
    rw [regBit, shareOffered, reg_offerShadow_ne _ _ (by simp only [psmCtx]; omega), acceptCritical_frame]
    exact hfree
  have hnow : (shareOffered s m).gtb = s.gtb := by rw [shareOffered_frame, acceptCritical_frame]
  rw [shareOffered] at hhold hnow
  show execShareSet s = _
  simp only [execShareSet, waitingCritical_of_isPassed hpassed, hgood, hhold, hnow, Bool.false_eq_true, if_false]
  rfl

theorem shareSet_offers {s : State} {m : Cmd} (hpassed : isPassed s m 0x0501) (hgood : shareFault m = none)
    (hsafe : s.saf.safe = false) (hentry : bitAt m.flags 1 = false) (hfree : regBit s 0x980008 0 = false) :
    ∃ t x, exec .shareSet s = .next t ∧ answered s t m 0 0 (s.gtb.now / policyTick + 1) ∧
      reg t (psmCtx (m.at 4 1) + 4) = m.at 8 2 ∧ t.mgc.offers = s.mgc.offers ++ [x] ∧ x.off = psmCtx (m.at 4 1) + 4 ∧
      x.v = m.at 8 2 ∧ ∀ c, ctxWeight t c = ctxWeight s c := by
  obtain ⟨hsaf, hhif⟩ := shareOffered_outside s m
  have hsafe' : (shareOffered s m).saf.safe = false := by
    rw [hsaf, acceptCritical_frame]
    exact hsafe
  refine ⟨_, { off := psmCtx (m.at 4 1) + 4, stamp := s.gtb.now, v := m.at 8 2 },
    exec_shareSet_of_good hpassed hgood hfree, answered_accepted hsafe hentry hsaf hhif _, ?_, ?_, rfl, rfl,
    fun c => ?_⟩
  · rw [completeOk, reg_complete hsafe' _ _ _ (by simp only [psmCtx]; omega) (by simp only [psmCtx]; omega),
      shareOffered, reg_offerShadow_same, at_lt m _ (by decide)]
  · rw [completeOk, complete_keeps, shareOffered_frame]
  · rw [ctxWeight, ctxWeight, policy_congr]
    rw [completeOk, complete_keeps, shareOffered_frame]

/-! ### CTX_SAVE and CTX_RESTORE without a task (R555-R557) -/

/-- The operation of a save or restore that has no task to run. -/
def emptyT1 (s : State) (m : Cmd) (kind : Nat) : PsmOp :=
  { cmd := m, kind := kind, ctxs := [m.ctx], parcels := [parcelOf s m.ctx].filter fun p => p != 0, left := 0 }

theorem startT1_of_no_task {s : State} {m : Cmd} (htask : t1Task m = 0x1FFFF) (kind : Nat) :
    startT1 s m kind = opQueued s (emptyT1 s m kind) := by
  simp only [startT1, htask, if_true]
  rfl

/-- A save or restore that is over leaves PSM, and the context is saved, or active again. -/
def t1Ended (s : State) (o : PsmOp) : State :=
  { s with psm := { s.psm with
      ops := [], t1 := if o.kind = 1 then tput s.psm.t1 o.cmd.ctx 2 else tdel s.psm.t1 o.cmd.ctx } }

theorem settle_of_t1_over {s : State} {o : PsmOp} (hasks : s.asks = []) (hready : ∀ r ∈ s.disp.ready, r.t1 = none)
    (hone : s.psm.ops = [o]) (hover : t1Over s o = true) (hlimit : o.limit = false) :
    settle s = completeOk (t1Ended s o) o.cmd o.runs := by
  simp only [settle, settleGo_of_no_asks 4096 hasks, finishT1, dropFailedT1_of_no_t1 hready, hone, List.filter_cons,
    hover, List.filter_nil, if_true, List.foldl_cons, List.foldl_nil, hlimit, Bool.false_eq_true, if_false,
    List.erase_cons_head]
  rfl

/-- The flags of a context that a pre-emption sets where no command of it is left (R552). -/
theorem preempt_of_no_runs {s : State} (hruns : s.disp.runs = []) (c : Nat) :
    preempt s c = setRegBit (setRegBit s 0x800000 28 true) (psmCtx c + 0xC) 31 true := by
  have hnone : victims s (fun x => x.ctx == c && x.killed.isNone) = [] := by
    rw [victims, hruns]
    rfl
  simp only [preempt, hnone, List.foldl_nil, List.isEmpty_nil, if_true]

/-- The state in which a save without a task is over. -/
def savedState (s : State) (m : Cmd) : State :=
  t1Ended (opQueued (setRegBit (setRegBit (setT1 s m.ctx 1) 0x800000 28 true) (psmCtx m.ctx + 0xC) 31 true)
    (emptyT1 s m 1)) (emptyT1 s m 1)

theorem exec_ctxSave_of_no_task {s : State} {m : Cmd} {rest : List Cmd} (hnext : isNext s m rest 0x0502)
    (hgood : t1Check s m 0 = none) (htask : t1Task m = 0x1FFFF) (hruns : s.disp.runs = [])
    (hrec : thas s.saf.recov m.ctx = false) (hcalm : calm s) :
    exec .ctxSave s = .next (completeOk (savedState (queueIs s rest) m) m 0) := by
  obtain ⟨hasks, hops, hready⟩ := hcalm
  have hgood' : t1Check (queueIs s rest) m 0 = none := hgood
  have hpreempt : preempt (setT1 (queueIs s rest) m.ctx 1) m.ctx =
      setRegBit (setRegBit (setT1 (queueIs s rest) m.ctx 1) 0x800000 28 true) (psmCtx m.ctx + 0xC) 31 true :=
    preempt_of_no_runs (s := setT1 (queueIs s rest) m.ctx 1) hruns m.ctx
  show execCtxSave s = _
  simp only [execCtxSave, popUnit_of_isNext hnext, hgood', hpreempt, startT1_of_no_task htask]
  refine congrArg Host.Outcome.next (settle_of_t1_over (o := emptyT1 (queueIs s rest) m 1) hasks hready ?_ ?_ rfl)
  · exact congrArg (· ++ [emptyT1 (queueIs s rest) m 1]) hops
  · have hrec' : thas (queueIs s rest).saf.recov m.ctx = false := hrec
    simp [t1Over, emptyT1, opQueued, setT1, hrec']

theorem ctxSave_saves {s : State} {m : Cmd} {rest : List Cmd} (hnext : isNext s m rest 0x0502)
    (hgood : t1Check s m 0 = none) (htask : t1Task m = 0x1FFFF) (hruns : s.disp.runs = [])
    (hrec : thas s.saf.recov m.ctx = false) (hcalm : calm s) (hsafe : s.saf.safe = false)
    (hentry : bitAt m.flags 1 = false) :
    ∃ t, exec .ctxSave s = .next t ∧ answered s t m 0 0 0 ∧ t1State t m.ctx = 2 ∧ t.psm.ops = [] ∧
      regBit t (psmCtx m.ctx + 0xC) 31 = true := by
  refine ⟨_, exec_ctxSave_of_no_task hnext hgood htask hruns hrec hcalm,
    answered_complete (s := savedState (queueIs s rest) m) hsafe rfl (.inl hentry) 0 0 0, ?_, ?_, ?_⟩
  · rw [t1State, completeOk, complete_psm]
    exact tget_tput_same _ _ _ _
  · rw [completeOk, complete_psm]
    rfl
  · have hkept := reg_complete (s := savedState (queueIs s rest) m) (m := m) (status := 0) hsafe 0 0 0
      (o := psmCtx m.ctx + 0xC) (by simp only [psmCtx]; omega) (by simp only [psmCtx]; omega)
    rw [regBit, completeOk, hkept]
    exact regBit_setRegBit_same (setRegBit (setT1 (queueIs s rest) m.ctx 1) 0x800000 28 true) _ _ _ (by decide)

/-- The state in which a restore without a task is over. -/
def restoredState (s : State) (m : Cmd) : State :=
  t1Ended (opQueued (setT1 s m.ctx 3) (emptyT1 s m 2)) (emptyT1 s m 2)

theorem exec_ctxRestore_of_no_task {s : State} {m : Cmd} {rest : List Cmd} (hnext : isNext s m rest 0x0503)
    (hgood : t1Check s m 2 = none) (htask : t1Task m = 0x1FFFF) (hcalm : calm s) :
    exec .ctxRestore s = .next (completeOk (restoredState (queueIs s rest) m) m 0) := by
  obtain ⟨hasks, hops, hready⟩ := hcalm
  have hgood' : t1Check (queueIs s rest) m 2 = none := hgood
  show execCtxRestore s = _
  simp only [execCtxRestore, popUnit_of_isNext hnext, hgood', startT1_of_no_task htask]
  refine congrArg Host.Outcome.next (settle_of_t1_over (o := emptyT1 (queueIs s rest) m 2) hasks hready ?_ rfl rfl)
  exact congrArg (· ++ [emptyT1 (queueIs s rest) m 2]) hops

theorem ctxRestore_restores {s : State} {m : Cmd} {rest : List Cmd} (hnext : isNext s m rest 0x0503)
    (hgood : t1Check s m 2 = none) (htask : t1Task m = 0x1FFFF) (hcalm : calm s) (hsafe : s.saf.safe = false)
    (hentry : bitAt m.flags 1 = false) :
    ∃ t, exec .ctxRestore s = .next t ∧ answered s t m 0 0 0 ∧ t1State t m.ctx = 0 ∧ t.psm.ops = [] := by
  refine ⟨_, exec_ctxRestore_of_no_task hnext hgood htask hcalm,
    answered_complete (s := restoredState (queueIs s rest) m) hsafe rfl (.inl hentry) 0 0 0, ?_, ?_⟩
  · rw [t1State, completeOk, complete_psm, tget]
    exact congrArg (Option.getD · 0) ((tget?_tdel _ _ _).trans (if_pos rfl))
  · rw [completeOk, complete_psm]
    rfl

/-! ### MODEL_SWITCH (R558, R559) -/

theorem model_setModel (s : State) (c v : Nat) : tget 0 (setModel s c v).psm.model c = v := by
  simp only [setModel]
  split
  · next hzero => simp [tget, tget?_tdel, hzero]
  · exact tget_tput_same _ _ _ _

section
variable {s : State} {m : Cmd} {rest : List Cmd} (hnext : isNext s m rest 0x0504) (hgood : switchCheck s m = none)
include hnext hgood

theorem exec_modelSwitch_of_adopt (hadopt : msAdopt m = true) :
    exec .modelSwitch s = .next (completeOk (setModel (queueIs s rest) m.ctx (msModel m)) m 0) := by
  have hgood' : switchCheck (queueIs s rest) m = none := hgood
  show execModelSwitch s = _
  simp only [execModelSwitch, popUnit_of_isNext hnext, hgood', hadopt, Bool.true_or, if_true]

/-- The operation of a MODEL_SWITCH with no page to fill. -/
def emptySwitch (m : Cmd) : PsmOp := { cmd := m, kind := 3, ctxs := [m.ctx], pages := [] }

/-- MODEL_SWITCH under way with its operation alone. -/
def switchBegun (s : State) (m : Cmd) : State :=
  { s with psm := { s.psm with ops := [emptySwitch m], resident := 0, switching := true } }

/-- The state after a switch that has ended well: the model is resident. -/
def switched (s : State) (m : Cmd) : State :=
  let t := setModel (endSwitch (switchBegun s m) (emptySwitch m)) m.ctx (msModel m)
  { t with psm := { t.psm with resident := msModel m } }

omit hnext hgood in
theorem switched_psm : (switched s m).psm.resident = msModel m ∧ (switched s m).psm.switching = false ∧
    (switched s m).psm.ops = [] := by
  simp [switched, setModel, endSwitch, switchBegun]

theorem exec_modelSwitch_of_no_page {g : Region} (hadopt : msAdopt m = false) (hmodel : msModel m ≠ 0)
    (hregion : msRegion s m = some g) (hpages : unmappedPages s m.ctx g = []) (hops : s.psm.ops = []) :
    exec .modelSwitch s = .next (completeOk (switched (queueIs s rest) m) m 0) := by
  have hgood' : switchCheck (queueIs s rest) m = none := hgood
  have hregion' : msRegion (queueIs s rest) m = some g := hregion
  have hpages' : unmappedPages (queueIs s rest) m.ctx g = [] := hpages
  have hops' : (queueIs s rest).psm.ops = [] := hops
  have hbegun : execModelSwitch s = .next (switchOn (switchBegun (queueIs s rest) m)) := by
    simp only [execModelSwitch, popUnit_of_isNext hnext, hgood', hadopt, hmodel, hregion', hpages', hops',
      List.nil_append, Bool.false_or, decide_false, Bool.false_eq_true, if_false]
    rfl
  exact hbegun.trans (congrArg Host.Outcome.next rfl)

end

/-- Settles O41: PARCEL_SET by its MODE, then shares, saves and restores, then switches. -/
theorem parcelsSharesAndModels : Obligations.ParcelsSharesAndModels := by
  unfold Obligations.ParcelsSharesAndModels
  refine ⟨⟨fun s m hpassed hmode hgood hnone hcalm hsafe hentry => ?_,
    fun s m hpassed hmode hgood hleave hrec hsteps hcalm hsafe hentry =>
      parcelBind_binds hpassed hmode hgood hleave hrec hsteps hcalm hsafe hentry,
    fun s m hpassed hmode hgood hcalm hsafe hentry => ?_,
    fun s m status d hpassed hbad hsafe hstatus =>
      ⟨fun hmode => parcelSet_refuses (mode := fun k => k == 0 || k == 3) hpassed (by simpa using hmode) hbad hsafe
          hstatus,
        fun hmode => parcelSet_refuses (mode := fun k => k == 1) hpassed (by simp [hmode]) hbad hsafe hstatus,
        fun hmode => parcelSet_refuses (mode := fun k => k == 2) hpassed (by simp [hmode]) hbad hsafe hstatus⟩,
    fun s o hone hdone => ⟨exec_parcelInstall_of_done hone hdone, installParcel_ops hone⟩⟩,
    fun s m hpassed hgood hsafe hentry hfree => shareSet_offers hpassed hgood hsafe hentry hfree,
    fun s m rest hnext hgood htask hruns hrec hcalm hsafe hentry =>
      ctxSave_saves hnext hgood htask hruns hrec hcalm hsafe hentry,
    fun s m rest hnext hgood htask hcalm hsafe hentry =>
      ctxRestore_restores hnext hgood htask hcalm hsafe hentry,
    fun s m rest hnext hgood hadopt hsafe hentry => ?_,
    fun s m rest g hnext hgood hadopt hmodel hregion hpages hops hsafe hentry => ?_,
    fun s c => ⟨_, rfl, rfl, rfl, rfl⟩⟩
  · have hctxs := psTouches_define hmode hnone
    obtain ⟨t, ht, hanswer, hparcels, -, hops⟩ := parcelSet_installs (mode := fun k => k == 0 || k == 3) hpassed
      (by simp [hmode]) hgood (by rw [hctxs, List.foldl_nil]) (by rw [hctxs, List.all_nil])
      (fun u _ => by rw [hctxs, recheckSteps_of_no_ctx]) hcalm hsafe hentry
    rw [parcelsAfter, if_pos hmode] at hparcels
    refine ⟨t, ht, hanswer, ?_, fun p hp => ?_, hops⟩
    · rw [hparcels, tget?_tput_same, parcelDefined]
    · rw [hparcels, tget?_tput_ne _ _ hp]
  · have hctxs := psTouches_dissolve s hmode
    obtain ⟨t, ht, hanswer, hparcels, hbound, -⟩ := parcelSet_installs (mode := fun k => k == 2) hpassed
      (by simp [hmode]) hgood (by rw [hctxs, List.foldl_nil]) (by rw [hctxs, List.all_nil])
      (fun u _ => by rw [hctxs, recheckSteps_of_no_ctx]) hcalm hsafe hentry
    rw [parcelsAfter, hmode, if_neg (by decide), if_neg (by decide)] at hparcels
    rw [boundAfter, hmode, if_neg (by decide)] at hbound
    refine ⟨t, ht, hanswer, ?_, hbound⟩
    rw [hparcels, tget?_tdel, if_pos rfl]
  · refine ⟨_, exec_modelSwitch_of_adopt hnext hgood hadopt,
      answered_complete (s := setModel (queueIs s rest) m.ctx (msModel m)) hsafe rfl (.inl hentry) 0 0 0, ?_, ?_, ?_⟩
    · rw [completeOk, complete_psm, model_setModel]
    · rw [completeOk, complete_psm]
      rfl
    · rw [completeOk, complete_keeps]
      rfl
  · refine ⟨_, exec_modelSwitch_of_no_page hnext hgood hadopt hmodel hregion hpages hops,
      answered_complete (s := switched (queueIs s rest) m) hsafe rfl (.inl hentry) 0 0 0, ?_⟩
    rw [completeOk, complete_psm]
    exact ⟨model_setModel _ _ _, switched_psm⟩

end Sys2Proof.Machine
end

section
/-! Instruction images, element programs and the tile window (R405-R408, R412-R417). -/

namespace Sys2Proof.Machine

open Sys2Proof

/-! ### Image records -/

@[simp] theorem rimgOf_setRimg_same (s : State) (c i : Nat) (x : RexImg) : rimgOf (setRimg s c i x) c i = x :=
  tget_tput_same ({} : RexImg) s.rex.imgs (16 * c + i) x

theorem RexImg.len_setLen_same (x : RexImg) (g : Nat) (n : Option Nat) : (x.setLen g n).len g = n := by
  unfold RexImg.setLen RexImg.len
  split <;> rfl

/-- Of the two buffers, setting the length of one leaves that of the other. -/
theorem RexImg.len_setLen_other (x : RexImg) {g : Nat} (hg : g < 2) (n : Option Nat) :
    (x.setLen g n).len (1 - g) = x.len (1 - g) := by
  unfold RexImg.setLen RexImg.len
  by_cases hzero : g = 0
  · simp [hzero]
  · simp [hzero, show 1 - g = 0 by omega]

theorem RexImg.setLen_active (x : RexImg) (g : Nat) (n : Option Nat) : (x.setLen g n).active = x.active := by
  unfold RexImg.setLen
  split <;> rfl

theorem ilTarget_lt (s : State) (m : Cmd) : ilTarget s m < 2 := by
  unfold ilTarget
  omega

theorem complete_rex (s : State) (m : Cmd) (status detail result reruns : Nat) :
    (complete s m status detail result reruns).rex = s.rex := by
  rw [complete_keeps]

theorem rimgOf_complete (s : State) (m : Cmd) (status detail result reruns c i : Nat) :
    rimgOf (complete s m status detail result reruns) c i = rimgOf s c i := by
  rw [rimgOf, complete_rex, rimgOf]

/-! ### Instruction regions (R406) -/

/-- The lengths of a context's images go as its region moves. -/
def imagesVoid (s : State) (c : Nat) : Table RexImg :=
  tmap (fun k x => if k / 16 = c then { x with len0 := none, len1 := none } else x) s.rex.imgs

theorem exec_rexIregWrite_of_open {s : State} {c : Fin 64} (hopen : rexCfgOpen s c = true) (w : Word) (hi : Bool) :
    exec (.rexIregWrite c hi w) s = .next { setReg s (rexCtx c + if hi then 4 else 0)
      (if hi then w.toNat else w.toNat / 2 ^ 21 * 2 ^ 21) with rex := { s.rex with imgs := imagesVoid s c } } := by
  show execRexIregWrite c hi w s = _
  cases hi <;> simp [execRexIregWrite, writeRexCfg, hopen, imagesVoid]

theorem exec_rexIregWrite_of_closed {s : State} {c : Fin 64} (hclosed : rexCfgOpen s c = false) (w : Word)
    (hi : Bool) :
    exec (.rexIregWrite c hi w) s = .next (setRegBit s (rexCtx c + 0x1C) 31 true) := by
  show execRexIregWrite c hi w s = _
  simp only [execRexIregWrite, writeRexCfg, hclosed, Bool.not_false, if_true]

theorem rexIregWrite_voids {s : State} {c : Fin 64} (hopen : rexCfgOpen s c = true) (w : Word) (hi : Bool) :
    ∃ t, exec (.rexIregWrite c hi w) s = .next t ∧
      reg t (rexCtx c + if hi then 4 else 0) = (if hi then w.toNat else w.toNat / 2 ^ 21 * 2 ^ 21) ∧
      (∀ i x, i < 16 → tget? t.rex.imgs (16 * c + i) = some x → x.len0 = none ∧ x.len1 = none) ∧
      (∀ k, k / 16 ≠ c.val → tget? t.rex.imgs k = tget? s.rex.imgs k) ∧ t.rex.units = s.rex.units ∧
      t = { s with rex := t.rex, regs := t.regs } := by
  have hword : (if hi then w.toNat else w.toNat / 2 ^ 21 * 2 ^ 21) % 2 ^ 32 =
      if hi then w.toNat else w.toNat / 2 ^ 21 * 2 ^ 21 := by
    have hw := w.isLt
    refine Nat.mod_eq_of_lt ?_
    split <;> omega
  refine ⟨_, exec_rexIregWrite_of_open hopen w hi, ?_, fun i x hi' hx => ?_, fun k hk => ?_, rfl, rfl⟩
  · exact (reg_setReg_same _ _ _).trans hword
  · simp only [imagesVoid, tget?_tmap, show (16 * c.val + i) / 16 = c.val by omega, if_true,
      Option.map_eq_some_iff] at hx
    obtain ⟨y, -, rfl⟩ := hx
    exact ⟨rfl, rfl⟩
  · simp only [imagesVoid, tget?_tmap, hk, if_false, Option.map_id']

/-! ### IMAGE_LOAD (R408) -/

section
variable {s : State} {m : Cmd} {rest : List Cmd} (hnext : isNext s m rest 0x0104)
include hnext

theorem imageLoad_of_bad_operand {d : Nat} (hbad : imageOperand m = some d) (hsafe : s.saf.safe = false) :
    ∃ t, exec .imageLoad s = .next t ∧ answered s t m 0x10 d 0 ∧ t.rex = s.rex := by
  refine ⟨badOperand (queueIs s rest) m d, ?_,
    answered_complete (s := queueIs s rest) hsafe rfl (.inr (by decide)) d 0 0, complete_rex _ _ _ _ _ _⟩
  show execImageLoad s = _
  simp only [execImageLoad, popUnit_of_isNext hnext, hbad]

variable (hgood : imageOperand m = none)
include hgood

theorem imageLoad_of_no_region (hsafe : s.saf.safe = false) (hzero : iregOf s m.ctx = 0) :
    ∃ t, exec .imageLoad s = .next t ∧ answered s t m 0x10 4 0 ∧ t.rex = s.rex := by
  have hzero' : iregOf (queueIs s rest) m.ctx = 0 := hzero
  refine ⟨badOperand (queueIs s rest) m 4, ?_,
    answered_complete (s := queueIs s rest) hsafe rfl (.inr (by decide)) 4 0 0, complete_rex _ _ _ _ _ _⟩
  show execImageLoad s = _
  simp only [execImageLoad, popUnit_of_isNext hnext, hgood, hzero', if_true]

variable (hregion : iregOf s m.ctx ≠ 0)
include hregion

theorem imageLoad_of_busy (hsafe : s.saf.safe = false)
    (hbusy : genInUse s m.ctx (ilImg m) (ilTarget s m) = true ∨ (rimgOf s m.ctx (ilImg m)).loading ≠ none) :
    ∃ t, exec .imageLoad s = .next t ∧ answered s t m 0x0D (ilTarget s m + 16 * ilImg m) 0 ∧ t.rex = s.rex := by
  have hregion' : iregOf (queueIs s rest) m.ctx ≠ 0 := hregion
  have hbusy' : (genInUse (queueIs s rest) m.ctx (ilImg m) (ilTarget (queueIs s rest) m) ||
      (rimgOf (queueIs s rest) m.ctx (ilImg m)).loading.isSome) = true := by
    rw [Bool.or_eq_true, Option.isSome_iff_ne_none]
    exact hbusy
  refine ⟨completeWith (setRegBit (queueIs s rest) (rexCtx m.ctx + 0x1C) 28 true) m 0x0D
    (ilTarget s m + 16 * ilImg m), ?_, answered_complete
      (s := setRegBit (queueIs s rest) (rexCtx m.ctx + 0x1C) 28 true) hsafe rfl (.inr (by decide)) _ 0 0,
    complete_rex _ _ _ _ _ _⟩
  show execImageLoad s = _
  simp only [execImageLoad, popUnit_of_isNext hnext, hgood, hregion', hbusy', if_false, if_true]
  rfl

theorem imageLoad_accepts (hfree : genInUse s m.ctx (ilImg m) (ilTarget s m) = false)
    (hidle : (rimgOf s m.ctx (ilImg m)).loading = none) :
    ∃ t, exec .imageLoad s = .next t ∧ (rimgOf t m.ctx (ilImg m)).loading = some (m, ilTarget s m) ∧
      (rimgOf t m.ctx (ilImg m)).len (ilTarget s m) = none ∧
      (rimgOf t m.ctx (ilImg m)).len (1 - ilTarget s m) = (rimgOf s m.ctx (ilImg m)).len (1 - ilTarget s m) ∧
      (rimgOf t m.ctx (ilImg m)).active = (rimgOf s m.ctx (ilImg m)).active ∧ t.hif.unitQ = rest ∧
      t.hif.cplQ = s.hif.cplQ ∧ t = { s with hif := t.hif, rex := t.rex } := by
  have hregion' : iregOf (queueIs s rest) m.ctx ≠ 0 := hregion
  have hfree' : (genInUse (queueIs s rest) m.ctx (ilImg m) (ilTarget (queueIs s rest) m) ||
      (rimgOf (queueIs s rest) m.ctx (ilImg m)).loading.isSome) = false := by
    rw [show (rimgOf (queueIs s rest) m.ctx (ilImg m)).loading = none from hidle, Option.isSome_none, Bool.or_false]
    exact hfree
  have hexec : exec .imageLoad s = .next (dropLines (setRimg (queueIs s rest) m.ctx (ilImg m)
      { (rimgOf s m.ctx (ilImg m)).setLen (ilTarget s m) none with loading := some (m, ilTarget s m) }) m.ctx (ilImg m)
        (ilTarget s m)) := by
    show execImageLoad s = _
    simp only [execImageLoad, popUnit_of_isNext hnext, hgood, hregion', hfree', if_false, Bool.false_eq_true]
    rfl
  refine ⟨_, hexec, ?_⟩
  have himg : rimgOf (dropLines (setRimg (queueIs s rest) m.ctx (ilImg m)
      { (rimgOf s m.ctx (ilImg m)).setLen (ilTarget s m) none with loading := some (m, ilTarget s m) }) m.ctx (ilImg m)
        (ilTarget s m)) m.ctx (ilImg m) =
      { (rimgOf s m.ctx (ilImg m)).setLen (ilTarget s m) none with loading := some (m, ilTarget s m) } :=
    rimgOf_setRimg_same (queueIs s rest) _ _ _
  rw [himg]
  exact ⟨rfl, RexImg.len_setLen_same _ _ _, RexImg.len_setLen_other _ (ilTarget_lt s m) _,
    RexImg.setLen_active _ _ _, rfl, rfl, rfl⟩

end

theorem endImage_ends {s : State} {m : Cmd} {g : Nat} (hsafe : s.saf.safe = false) (hentry : bitAt m.flags 1 = false) :
    (rimgOf (endImage s m g) m.ctx (ilImg m)).active = g ∧
      (rimgOf (endImage s m g) m.ctx (ilImg m)).len g = some (ilBytes m / 8) ∧
      (rimgOf (endImage s m g) m.ctx (ilImg m)).loading = none ∧
      answered s (endImage s m g) m 0 0 (g + ((rimgOf s m.ctx (ilImg m)).loads + 1) % 2 ^ 32 * 2 ^ 32) := by
  rw [endImage, completeOk, rimgOf_complete, rimgOf_setRimg_same]
  refine ⟨rfl, RexImg.len_setLen_same _ _ _, rfl, ?_⟩
  exact answered_complete (s := setRimg s m.ctx (ilImg m) _) hsafe rfl (.inl hentry) 0 _ 0

theorem failImage_ends {s : State} (hsafe : s.saf.safe = false) (m : Cmd) (d : Nat) :
    (rimgOf (failImage s m d) m.ctx (ilImg m)).active = (rimgOf s m.ctx (ilImg m)).active ∧
      (rimgOf (failImage s m d) m.ctx (ilImg m)).loading = none ∧ answered s (failImage s m d) m 0x13 d 0 := by
  rw [failImage, completeWith, rimgOf_complete, rimgOf_setRimg_same]
  exact ⟨rfl, rfl, answered_complete (s := setRimg s m.ctx (ilImg m) _) hsafe rfl (.inr (by decide)) d 0 0⟩

section
variable {s v : State} {c : Fin 64} {i : Fin 16} {m : Cmd} {k : Nat} {err : Option Nat} {lost : Nat}
  (hload : (rimgOf s c i).loading = some (m, k)) (hk : k < 2) (hv : v = streamLoss s 0x680010 lost 0x680004 3)
include hload hk hv

theorem exec_imageLoadDone_of_fault {d : Nat}
    (hfault : least (imageReadFault v m err) (imageWriteFault v c (genVa v c i k) (ilBytes m)) = some d) :
    exec (.imageLoadDone c i err lost) s = .next (failImage (unitWrite v c (genVa v c i k)
      ((readSrc v c (bitAt (m.at 5 1) 0) (m.at 8 8) d).getD [])).1 m (9 * 2 ^ 28 + d)) := by
  subst hv
  show execImageLoadDone c i err s lost = _
  simp only [execImageLoadDone, hload, if_neg (Nat.not_le.mpr hk), hfault]

theorem exec_imageLoadDone_of_good {b : List Byte}
    (hgood : least (imageReadFault v m err) (imageWriteFault v c (genVa v c i k) (ilBytes m)) = none)
    (hread : readSrc v c (bitAt (m.at 5 1) 0) (m.at 8 8) (ilBytes m) = some b) :
    exec (.imageLoadDone c i err lost) s =
      .next (judgeImage (unitWrite v c (genVa v c i k) b).1 m k (crc64 b == m.at 24 8)) := by
  subst hv
  show execImageLoadDone c i err s lost = _
  simp only [execImageLoadDone, hload, if_neg (Nat.not_le.mpr hk), hgood, hread, Option.getD_some]

end

/-! ### Tiles -/

theorem tileWord_setTile_same (x : RexUnit) (t e v : Nat) : tileWord (setTile x t e v) t e = v := by
  simp only [tileWord, setTile]
  split
  · next hzero => simp [tget, tget?_tdel, hzero]
  · exact tget_tput_same _ _ _ _

theorem tileWord_setTile_ne (x : RexUnit) {t e k j : Nat} (v : Nat) (h : k * 4096 + j ≠ t * 4096 + e) :
    tileWord (setTile x t e v) k j = tileWord x k j := by
  simp only [tileWord, setTile]
  split
  · simp [tget, tget?_tdel, h]
  · exact tget_tput_ne _ _ _ h

/-- A field keeps its value where other bits are written. -/
theorem fld_setFld_outside (v : Nat) {hi lo a b : Nat} (x : Nat) (h : b ≤ a + 1) (hd : hi < b ∨ a < lo) :
    fld (setFld v a b x) hi lo = fld v hi lo := by
  refine Nat.eq_of_testBit_eq fun i => ?_
  rw [fld_testBit, fld_testBit, testBit_setFld _ _ _ _ _ h]
  by_cases hi' : i < hi + 1 - lo
  · rw [if_neg (by omega)]
  · simp [hi']

/-! ### Element programs (R412-R414) -/

theorem exec_epStart_of_fields {s : State} {w : Word} (hstart : bitAt w.toNat 31 = false) : exec (.epStart w) s =
    .next (setReg s 0x680100 (setFld (setFld (setFld w.toNat 31 31 0) 29 29 0) 16 16 0)) := by
  show execEpStart w s = _
  simp only [execEpStart, writeEpCtl, hstart, Bool.false_eq_true, if_false]

/-- The operations of a program as they stand at START. -/
def epOps (s : State) (w : Nat) : List Nat := (List.range (fld w 21 17 + 1)).map fun k => reg s (0x680180 + 4 * k)

/-- The control word of a program once it has started. -/
def epStarted (w : Nat) : Nat := setFld (setFld (setFld w 31 31 0) 29 29 0) 16 16 0

/-- The start clears bits 31, 29 and 16 only. -/
theorem fld_epStarted (w : Nat) {hi lo : Nat} (h31 : hi < 31) (h29 : hi < 29 ∨ 29 < lo) (h16 : hi < 16 ∨ 16 < lo) :
    fld (epStarted w) hi lo = fld w hi lo := by
  rw [epStarted, fld_setFld_outside _ _ (by omega) h16, fld_setFld_outside _ _ (by omega) h29,
    fld_setFld_outside _ _ (by omega) (.inl h31)]

/-- Whether a START is accepted (R412). -/
def epAllowed (s : State) (w : Nat) : Bool :=
  rexFree s (fld w 28 22) && s.rex.ep.isNone && (epOps s w).all fun o => decide (fld o 31 27 ≤ 0x14)

theorem epOps_known_iff (s : State) (w : Nat) : ((epOps s w).all fun o => decide (fld o 31 27 ≤ 0x14)) = true ↔
    ∀ k, k ≤ fld w 21 17 → fld (reg s (0x680180 + 4 * k)) 31 27 ≤ 0x14 := by
  simp [epOps]

theorem exec_epStart_of_refused {s : State} {w : Word} (hstart : bitAt w.toNat 31 = true)
    (hbad : epAllowed s w.toNat = false) : exec (.epStart w) s = .next (setRegBit s 0x680104 2 true) := by
  rw [epAllowed, epOps] at hbad
  show execEpStart w s = _
  simp only [execEpStart, writeEpCtl, hstart, hbad, Bool.false_eq_true, if_false, if_true]
  rfl

theorem exec_epStart_of_allowed {s : State} {w : Word} (hstart : bitAt w.toNat 31 = true)
    (hgood : epAllowed s w.toNat = true) : exec (.epStart w) s = .next
      { setReg s 0x680100 (epStarted w.toNat) with rex := { s.rex with
        ep := some (epStarted w.toNat, epOps s w.toNat) } } := by
  rw [epAllowed, epOps] at hgood
  show execEpStart w s = _
  simp only [execEpStart, writeEpCtl, hstart, hgood, if_true]
  rfl

theorem epAllowed_of_bad {s : State} {w : Nat} (hbad : rexFree s (fld w 28 22) = false ∨ s.rex.ep ≠ none ∨
    ∃ k, k ≤ fld w 21 17 ∧ 0x14 < fld (reg s (0x680180 + 4 * k)) 31 27) : epAllowed s w = false := by
  rw [epAllowed, Bool.and_eq_false_iff, Bool.and_eq_false_iff]
  obtain hbusy | hrun | ⟨k, hk, hop⟩ := hbad
  · exact .inl (.inl hbusy)
  · exact .inl (.inr (by simpa [Option.isSome_iff_ne_none] using hrun))
  · refine .inr (Bool.not_eq_true _ ▸ fun hall => ?_)
    exact absurd ((epOps_known_iff s w).mp hall k hk) (Nat.not_le.mpr hop)

theorem epAllowed_of_good {s : State} {w : Nat} (hfree : rexFree s (fld w 28 22) = true) (hnone : s.rex.ep = none)
    (hops : ∀ k, k ≤ fld w 21 17 → fld (reg s (0x680180 + 4 * k)) 31 27 ≤ 0x14) : epAllowed s w = true := by
  rw [epAllowed, hfree, hnone, (epOps_known_iff s w).mpr hops]
  rfl

/-- The program's value for element `e` of two sources. -/
def epValue (ops : List Nat) (a b e : Nat) : Nat := (ops.foldl epStep [a, b, e, 0, 0, 0, 0, 0]).getD 7 0

theorem epElem_unit (ctl : Nat) (ops : List Nat) (acc : RexUnit × Nat × Nat) (e : Nat) :
    (epElem ctl ops acc e).1 = setTile acc.1 (fld ctl 7 4) e
      (epValue ops (tileWord acc.1 (fld ctl 15 12) e) (tileWord acc.1 (fld ctl 11 8) e) e) := rfl

/-- The first `n` words of the result tile are the program's values for the sources as they were, and all else is
as it was. -/
theorem epElems_words (ctl : Nat) (ops : List Nat) (x : RexUnit) {n : Nat} (hn : n ≤ 4096) :
    ∀ k e, e < 4096 → tileWord ((List.range n).foldl (epElem ctl ops) (x, 0, 0)).1 k e =
      if k = fld ctl 7 4 ∧ e < n then epValue ops (tileWord x (fld ctl 15 12) e) (tileWord x (fld ctl 11 8) e) e
      else tileWord x k e := by
  induction n with
  | zero => simp
  | succ n ih =>
    intro k e he
    have hsource (k) : tileWord ((List.range n).foldl (epElem ctl ops) (x, 0, 0)).1 k n = tileWord x k n := by
      rw [ih (by omega) k n (by omega), if_neg (by omega)]
    rw [List.range_succ, List.foldl_append, List.foldl_cons, List.foldl_nil, epElem_unit, hsource, hsource]
    by_cases hnew : k = fld ctl 7 4 ∧ e = n
    · obtain ⟨rfl, rfl⟩ := hnew
      rw [tileWord_setTile_same, if_pos ⟨rfl, Nat.lt_add_one e⟩]
    · rw [tileWord_setTile_ne _ _ (by omega), ih (by omega) k e he]
      exact if_congr (by omega) rfl rfl

theorem exec_epDone_of_none {s : State} (hnone : s.rex.ep = none) : exec .epDone s = .next s := by
  show execEpDone s = _
  simp only [execEpDone, hnone]

theorem epFinish_frame (s : State) (ctl u : Nat) (r : RexUnit × Nat × Nat) : (epFinish s ctl u r).rex.ep = none ∧
    regBit (epFinish s ctl u r) 0x680104 1 = true ∧ unitOf (epFinish s ctl u r) u = r.1 ∧
    (∀ v, v ≠ u → unitOf (epFinish s ctl u r) v = unitOf s v) ∧
    epFinish s ctl u r = { s with rex := (epFinish s ctl u r).rex, regs := (epFinish s ctl u r).regs } := by
  have hrex : (epFinish s ctl u r).rex = { s.rex with ep := none, units := tput s.rex.units u r.1 } := by
    simp only [epFinish]
    split <;> rfl
  refine ⟨by rw [hrex], regBit_setRegBit_same _ _ _ _ (by decide), ?_, fun v hv => ?_, ?_⟩
  · rw [unitOf, hrex]
    exact tget_tput_same _ _ _ _
  · rw [unitOf, hrex]
    exact tget_tput_ne _ _ _ hv
  · simp only [epFinish]
    split <;> rfl

theorem epDone_writes {s : State} {ctl : Nat} {ops : List Nat} (hep : s.rex.ep = some (ctl, ops)) :
    ∃ t, exec .epDone s = .next t ∧ t.rex.ep = none ∧ regBit t 0x680104 1 = true ∧
      (∀ e, e < 4096 → tileWord (unitOf t (fld ctl 28 22)) (fld ctl 7 4) e =
        epValue ops (tileWord (unitOf s (fld ctl 28 22)) (fld ctl 15 12) e)
          (tileWord (unitOf s (fld ctl 28 22)) (fld ctl 11 8) e) e) ∧
      (∀ k e, k ≠ fld ctl 7 4 → e < 4096 →
        tileWord (unitOf t (fld ctl 28 22)) k e = tileWord (unitOf s (fld ctl 28 22)) k e) ∧
      (∀ v, v ≠ fld ctl 28 22 → unitOf t v = unitOf s v) ∧ t = { s with rex := t.rex, regs := t.regs } := by
  obtain ⟨hover, hflag, hunit, hothers, hframe⟩ := epFinish_frame s ctl (fld ctl 28 22)
    ((List.range 4096).foldl (epElem ctl ops) (unitOf s (fld ctl 28 22), 0, 0))
  have hwords := epElems_words ctl ops (unitOf s (fld ctl 28 22)) (Nat.le_refl 4096)
  refine ⟨_, ?_, hover, hflag, fun e he => ?_, fun k e hk he => ?_, hothers, hframe⟩
  · show execEpDone s = _
    simp only [execEpDone, hep]
  · rw [hunit, hwords _ e he, if_pos ⟨rfl, he⟩]
  · rw [hunit, hwords k e he, if_neg (fun h => hk h.1)]

/-! ### OFFLINE and the tile window (R416, R417) -/

theorem exec_offline_of_running {s : State} (hep : s.rex.ep ≠ none) (u : Fin 128) (w : Word) :
    exec (.offline u w) s = .next (setRegBit s 0x680104 2 true) := by
  show execOffline u w s = _
  simp only [execOffline, writeOffline, Option.isSome_iff_ne_none.mpr hep, if_true]
  rfl

theorem exec_offline_of_idle {s : State} (hep : s.rex.ep = none) (u : Fin 128) (w : Word) :
    exec (.offline u w) s = .next { s with disp := { s.disp with
      rex := tmod {} s.disp.rex u fun x => { x with offline := bitAt w.toNat 31 } } } := by
  show execOffline u w s = _
  simp only [execOffline, writeOffline, hep, Option.isSome_none, Bool.false_eq_true, if_false]

/-- The window's selector with ELEM moved on. -/
def elemMoved (s : State) : State := setRegFld s 0x680114 11 0 (fld (reg s 0x680114) 11 0 + 1)

theorem elemMoved_fields (s : State) : regFld (elemMoved s) 0x680114 11 0 = (fld (reg s 0x680114) 11 0 + 1) % 4096 ∧
    regFld (elemMoved s) 0x680114 31 12 = fld (reg s 0x680114) 31 12 :=
  ⟨regFld_setRegFld_same _ _ _ _ _ (by decide) (by decide),
    regFld_setRegFld_ne _ _ _ _ _ _ _ (by decide) (by decide) (by decide)⟩

section
variable {s : State} {sel : Nat} (hsel : reg s 0x680114 = sel)
include hsel

theorem tileWrite_of_refused (hbusy : rexFree s (fld sel 31 25) = false) (w : Nat) :
    tileAccess s (some w) = epRefused (elemMoved s) := by
  simp only [tileAccess, hsel, hbusy, Bool.false_and, elemMoved]

theorem tileRead_of_refused (hbusy : rexFree s (fld sel 31 25) = false) :
    tileAccess s none = epRefused { elemMoved s with hif := { s.hif with rdata := 0 } } := by
  simp only [tileAccess, hsel, hbusy, Bool.false_and, elemMoved]
  rfl

variable (hfree : rexFree s (fld sel 31 25) = true) (hep : epUnit s ≠ some (fld sel 31 25))
include hfree hep

omit hsel in
theorem tileAccess_allowed : (rexFree s (fld sel 31 25) && epUnit s != some (fld sel 31 25)) = true := by
  rw [hfree, Bool.true_and]
  exact bne_iff_ne.mpr hep

theorem tileWrite_of_free (w : Nat) : tileAccess s (some w) =
    modUnit (elemMoved s) (fld sel 31 25) fun x => setTile x (fld sel 24 21) (fld sel 11 0) w := by
  simp only [tileAccess, hsel, tileAccess_allowed hfree hep, elemMoved]

theorem tileRead_of_free : tileAccess s none = { elemMoved s with hif := { s.hif with
    rdata := tileWord (unitOf s (fld sel 31 25)) (fld sel 24 21) (fld sel 11 0) } } := by
  simp only [tileAccess, hsel, tileAccess_allowed hfree hep, elemMoved]
  rfl

end

/-- Settles O49: instruction images, then element programs, OFFLINE and the tile window. -/
theorem imagesAndElementPrograms : Obligations.ImagesAndElementPrograms := by
  unfold Obligations.ImagesAndElementPrograms
  refine ⟨⟨fun s c w hi hopen => rexIregWrite_voids hopen w hi,
    fun s c w hi hclosed => exec_rexIregWrite_of_closed hclosed w hi,
    fun s m rest hnext hgood hregion hfree hidle => imageLoad_accepts hnext hgood hregion hfree hidle,
    fun s m rest d hnext hbad hsafe => imageLoad_of_bad_operand hnext hbad hsafe,
    fun s m rest hnext hgood hsafe hzero => imageLoad_of_no_region hnext hgood hsafe hzero,
    fun s m rest hnext hgood hsafe hregion hbusy => imageLoad_of_busy hnext hgood hregion hsafe hbusy,
    fun s c i m k d err lost v hload hk hv hfault => exec_imageLoadDone_of_fault hload hk hv hfault,
    fun s c i m k b err lost v hload hk hv hgood hread => exec_imageLoadDone_of_good hload hk hv hgood hread,
    fun s m g _ hsafe hentry => endImage_ends hsafe hentry, fun s m d hsafe => failImage_ends hsafe m d⟩,
    fun s w hstart => exec_epStart_of_fields hstart,
    fun s w hstart hbad => exec_epStart_of_refused hstart (epAllowed_of_bad hbad),
    fun s w hstart hfree hnone hops => ?_, fun s hnone => exec_epDone_of_none hnone,
    fun s ctl ops hep => epDone_writes hep,
    fun s u w hep => exec_offline_of_running hep u w, fun s u w hep => ?_, fun s sel w hsel hfree hep => ?_,
    fun s sel hsel hfree hep => ?_, fun s sel w hsel hbusy => ?_, fun s sel hsel hbusy => ?_⟩
  · refine ⟨_, _, exec_epStart_of_allowed hstart (epAllowed_of_good hfree hnone hops), ?_, ?_, rfl, rfl, rfl⟩
    · exact fld_epStarted _ (by decide) (by decide) (by decide)
    · exact fld_epStarted _ (by decide) (by decide) (by decide)
  · have hone := tget_tput_same ({} : RexSt) s.disp.rex u { tget {} s.disp.rex u with offline := bitAt w.toNat 31 }
    refine ⟨_, exec_offline_of_idle hep u w, (congrArg RexSt.offline hone :), (congrArg RexSt.failed hone :),
      fun v hv => tget_tput_ne _ _ _ hv, rfl⟩
  · obtain ⟨helem, hrest⟩ := elemMoved_fields s
    rw [hsel] at helem hrest
    refine ⟨_, congrArg Host.Outcome.next (tileWrite_of_free hsel hfree hep w.toNat), ?_, helem, hrest,
      fun v hv => unitOf_modUnit_ne _ _ hv, rfl⟩
    rw [unitOf_modUnit_same, tileWord_setTile_same]
  · obtain ⟨helem, -⟩ := elemMoved_fields s
    rw [hsel] at helem
    exact ⟨_, congrArg Host.Outcome.next (tileRead_of_free hsel hfree hep), rfl, helem, rfl⟩
  · exact ⟨_, congrArg Host.Outcome.next (tileWrite_of_refused hsel hbusy w.toNat), rfl,
      regBit_setRegBit_same _ _ _ _ (by decide)⟩
  · exact ⟨_, congrArg Host.Outcome.next (tileRead_of_refused hsel hbusy), rfl, rfl,
      regBit_setRegBit_same _ _ _ _ (by decide)⟩

end Sys2Proof.Machine
end

section
/-! The streams of a REX unit: issue, fetch, NOP, LOOP, QBAR and END (R384, R409, R420, R421, R447-R449). -/

namespace Sys2Proof.Machine

open Sys2Proof

/-! ### Streams of a unit -/

@[simp] theorem strOf_setStr_same (y : RexUnit) (exe : Bool) (t : RexStream) : strOf (setStr y exe t) exe = t := by
  cases exe <;> rfl

@[simp] theorem strOf_setStr_other (y : RexUnit) (exe : Bool) (t : RexStream) :
    strOf (setStr y exe t) (!exe) = strOf y (!exe) := by
  cases exe <;> rfl

/-- A unit with the execute stream as it was written by `setStr`; nothing else of the unit changes. -/
theorem setStr_outside (y : RexUnit) (exe : Bool) (t : RexStream) :
    setStr y exe t = { y with acc := (setStr y exe t).acc, exe := (setStr y exe t).exe } := by
  cases exe <;> rfl

@[simp] theorem tiles_setStr (y : RexUnit) (exe : Bool) (t : RexStream) : (setStr y exe t).tiles = y.tiles := by
  rw [setStr_outside]

@[simp] theorem accf_setStr (y : RexUnit) (exe : Bool) (t : RexStream) : (setStr y exe t).accf = y.accf := by
  rw [setStr_outside]

@[simp] theorem aq_setStr (y : RexUnit) (exe : Bool) (t : RexStream) : (setStr y exe t).aq = y.aq := by
  rw [setStr_outside]

@[simp] theorem late_setStr (y : RexUnit) (exe : Bool) (t : RexStream) : (setStr y exe t).late = y.late := by
  rw [setStr_outside]

theorem stepPc_eq (s : State) (u : Nat) (exe : Bool) :
    stepPc s u exe = modUnit s u fun y => setStr y exe (movedOn (strOf y exe)) := rfl

@[simp] theorem unitOf_stepPc_same (s : State) (u : Nat) (exe : Bool) :
    unitOf (stepPc s u exe) u = setStr (unitOf s u) exe (movedOn (strOf (unitOf s u) exe)) :=
  unitOf_modUnit_same s u _

theorem rexFrame_trans {s t v : State} {u : Nat} (h : rexFrame s t u) (h' : rexFrame t v u) : rexFrame s v u := by
  obtain ⟨hrest, himgs, hep, hunits⟩ := h
  obtain ⟨hrest', himgs', hep', hunits'⟩ := h'
  refine ⟨?_, himgs'.trans himgs, hep'.trans hep, fun k hk => (hunits' k hk).trans (hunits k hk)⟩
  rw [hrest', hrest]

theorem rexFrame_stepPc (s : State) (u : Nat) (exe : Bool) : rexFrame s (stepPc s u exe) u := rexFrame_modUnit s u _

/-- Units and images are no part of what makes a state calm. -/
theorem calm_of_rexFrame {s t : State} {u : Nat} (h : rexFrame s t u) (hcalm : calm s) : calm t := by
  rw [h.1]
  exact hcalm

theorem settle_of_rexFrame {s t : State} {u : Nat} (h : rexFrame s t u) (hcalm : calm s) : settle t = t :=
  settle_of_calm (calm_of_rexFrame h hcalm)

/-! ### Issue -/

/-- What holds where a stream issues an instruction: the unit runs the command, nothing stalls it, and the stream
stands at the instruction. -/
structure Issuing (s : State) (u : Nat) (exe : Bool) (r : Nat) (x : Run) (pc : Nat) : Prop where
  run : (unitOf s u).run = some r
  runOf : runOf s r = some x
  starting : (unitOf s u).starting = false
  stopped : (unitOf s u).stopped = false
  miss : (unitOf s u).miss = none
  done : (strOf (unitOf s u) exe).done = false
  bar : (strOf (unitOf s u) exe).bar = none
  pc : (strOf (unitOf s u) exe).pc = pc

theorem issuing_of_issues {s : State} {u : Nat} {exe : Bool} {op r : Nat} {x : Run} {pc w : Nat}
    (h : issues s u exe op r x pc w) : Issuing s u exe r x pc := by
  simp only [issues, issueAt] at h
  split at h
  · cases h
  next r' x' hrun =>
    split at h
    · cases h
    next hfree =>
      split at h
      · cases h
      · cases h
      next w' hword =>
        obtain ⟨-, h⟩ | ⟨-, h⟩ := ite_eq_iff.mp h
        · cases h
        · obtain ⟨-, h⟩ | ⟨-, h⟩ := ite_eq_iff.mp h
          · cases h
            simp only [Bool.or_eq_true, not_or, Bool.not_eq_true, Option.isSome_eq_false_iff,
              Option.isNone_iff_eq_none, Bool.not_eq_false'] at hfree
            obtain ⟨⟨⟨⟨⟨⟨hstart, hstop⟩, hmiss⟩, -⟩, hdone⟩, hbar⟩, -⟩ := hfree
            simp only [Option.bind_eq_some_iff, Option.map_eq_some_iff, Prod.mk.injEq] at hrun
            obtain ⟨q, hq, y, hy, rfl, rfl⟩ := hrun
            exact ⟨hq, hy, hstart, hstop, hmiss, hdone, hbar, rfl⟩
          · cases h

/-- What a stream issues, without the state that a stop leaves. -/
def Issue.erase : Issue → Option (Option (Nat × Run × Nat × Nat))
  | .none => Option.none
  | .stop _ => some Option.none
  | .go r x pc w => some (some (r, x, pc, w))

theorem Issue.erase_stop (t : State) : (Issue.stop t).erase = some Option.none := rfl

theorem Issue.erase_ite (p : Prop) [Decidable p] (a b : Issue) :
    (if p then a else b).erase = if p then a.erase else b.erase := apply_ite _ _ _ _

/-- What a stream issues does not depend on the free values drawn before. -/
theorem erase_issueAt_fresh (s : State) (u : Nat) (exe : Bool) (op n : Nat) :
    (issueAt { s with fresh := n } u exe op).erase = (issueAt s u exe op).erase := by
  simp only [issueAt, show unitOf { s with fresh := n } u = unitOf s u from rfl,
    show ∀ r, runOf { s with fresh := n } r = runOf s r from fun _ => rfl,
    show ∀ y c pc, fetchAt { s with fresh := n } y c pc = fetchAt s y c pc from fun _ _ _ => rfl]
  split
  · rfl
  next r x hrun =>
    rw [Issue.erase_ite, Issue.erase_ite]
    refine if_congr Iff.rfl rfl ?_
    split
    · simp only [Issue.erase_stop]
    · simp only [Issue.erase_stop]
    · simp only [Issue.erase_ite, Issue.erase_stop]

theorem issueAt_fresh_none {s : State} {u : Nat} {exe : Bool} {op : Nat} (n : Nat)
    (h : issueAt s u exe op = .none) : issueAt { s with fresh := n } u exe op = .none := by
  have herase := erase_issueAt_fresh s u exe op n
  rw [h] at herase
  cases hi : issueAt { s with fresh := n } u exe op <;> rw [hi] at herase
  all_goals cases herase

theorem issues_fresh {s : State} {u : Nat} {exe : Bool} {op r : Nat} {x : Run} {pc w : Nat} (n : Nat)
    (h : issues s u exe op r x pc w) : issues { s with fresh := n } u exe op r x pc w := by
  have herase := erase_issueAt_fresh s u exe op n
  rw [show issueAt s u exe op = .go r x pc w from h] at herase
  unfold issues
  cases hi : issueAt { s with fresh := n } u exe op <;> rw [hi] at herase <;> cases herase
  rfl

section

variable {s : State} {u op : Nat}

theorem memInstr_of_none (h : issueAt s u false op = .none) (go) : memInstr s u op go = .next s := by
  simp only [memInstr, h]

theorem queueInstr_of_none (h : issueAt s u false op = .none) (go) : queueInstr s u op go = .next s := by
  simp only [queueInstr, h]

theorem effInstr_of_none (h : issueAt s u false op = .none) (bad src bits) :
    effInstr s u op bad src bits = .next s := by
  simp only [effInstr, h]

theorem exeInstr_of_none (h : issueAt s u true op = .none) (k bad go) : exeInstr s u op k bad go = .next s := by
  simp only [exeInstr, h]

variable {t : State}

theorem memInstr_of_stop (h : issueAt s u false op = .stop t) (go) : memInstr s u op go = .next (settle t) := by
  simp only [memInstr, h]

theorem queueInstr_of_stop (h : issueAt s u false op = .stop t) (go) :
    queueInstr s u op go = .next (settle t) := by
  simp only [queueInstr, h]

theorem effInstr_of_stop (h : issueAt s u false op = .stop t) (bad src bits) :
    effInstr s u op bad src bits = .next (settle t) := by
  simp only [effInstr, h]

theorem exeInstr_of_stop (h : issueAt s u true op = .stop t) (k bad go) :
    exeInstr s u op k bad go = .next (settle t) := by
  simp only [exeInstr, h]

end

/-- An instruction whose stream does not stand at it does nothing (log entry 2). -/
theorem exec_of_issue_none {c : Instr} {s : State} {u : Fin 128} {exe : Bool} {op : Nat}
    (hop : rexOp c = some (u, exe, op)) (h : issueAt s u exe op = .none) :
    ∃ n, exec c s = .next { s with fresh := n } := by
  unfold rexOp at hop
  split at hop <;> cases hop
  case h_1 | h_2 | h_3 => exact ⟨s.fresh, by simp only [exec, execRexNop, execLoop, execQbar, h]⟩
  case h_6 | h_7 => exact ⟨s.fresh, by simp only [exec, execLdq, execStq, queueInstr_of_none h]⟩
  case h_4 | h_5 | h_8 | h_9 | h_10 | h_11 =>
    exact ⟨s.fresh, by simp only [exec, execLd, execSt, execDig, execAccld, execAccst, execAccadd, memInstr_of_none h]⟩
  case h_12 | h_13 | h_14 =>
    exact ⟨s.fresh, by simp only [exec, execSend, execBlendInstr, execSig, effInstr_of_none h]⟩
  case h_32 =>
    exact ⟨s.fresh + 1, by simp only [exec, execAccw, exeInstr_of_none (issueAt_fresh_none (s.fresh + 1) h)]⟩
  case h_15 | h_16 | h_17 | h_18 | h_19 | h_20 | h_21 | h_22 | h_23 | h_24 | h_25 =>
    exact ⟨s.fresh, by simp only [exec, execAdd, execSub, execMul, execFma, execMin, execMax, execAbs, execNeg,
      execRcp, execRsq, execSqrt, elemInstr, exeInstr_of_none h]⟩
  case h_26 | h_27 | h_28 | h_29 | h_30 | h_31 | h_33 | h_34 =>
    exact ⟨s.fresh, by simp only [exec, execMov, execCvt, execSwu, execRed, execScan, execSscan, execAccz, execAccsum,
      exeInstr_of_none h]⟩

/-- An instruction whose stream meets a missing line, the end of the image or a reserved opcode stops. -/
theorem exec_of_issue_stop {c : Instr} {s t : State} {u : Fin 128} {exe : Bool} {op : Nat}
    (hop : rexOp c = some (u, exe, op)) (haccw : op ≠ 0x33) (h : issueAt s u exe op = .stop t) :
    exec c s = .next (settle t) := by
  unfold rexOp at hop
  split at hop <;> cases hop
  case h_1 | h_2 | h_3 => simp only [exec, execRexNop, execLoop, execQbar, h]
  case h_6 | h_7 => simp only [exec, execLdq, execStq, queueInstr_of_stop h]
  case h_4 | h_5 | h_8 | h_9 | h_10 | h_11 =>
    simp only [exec, execLd, execSt, execDig, execAccld, execAccst, execAccadd, memInstr_of_stop h]
  case h_12 | h_13 | h_14 => simp only [exec, execSend, execBlendInstr, execSig, effInstr_of_stop h]
  case h_32 => exact absurd rfl haccw
  case h_15 | h_16 | h_17 | h_18 | h_19 | h_20 | h_21 | h_22 | h_23 | h_24 | h_25 =>
    simp only [exec, execAdd, execSub, execMul, execFma, execMin, execMax, execAbs, execNeg, execRcp, execRsq,
      execSqrt, elemInstr, exeInstr_of_stop h]
  case h_26 | h_27 | h_28 | h_29 | h_30 | h_31 | h_33 | h_34 =>
    simp only [exec, execMov, execCvt, execSwu, execRed, execScan, execSscan, execAccz, execAccsum,
      exeInstr_of_stop h]

/-! ### The instruction cache (R409) -/

section

variable {s : State} {u : Fin 128}

theorem exec_icacheFill_of_no_miss (hmiss : (unitOf s u).miss = none) : exec (.icacheFill u) s = .next s := by
  show execIcacheFill u s = _
  simp only [execIcacheFill, hmiss]

variable {key r : Nat} {x : Run} {b : List Byte}

theorem exec_icacheFill_of_line (hmiss : (unitOf s u).miss = some key) (hrun : (unitOf s u).run = some r)
    (hof : runOf s r = some x) (hstart : (unitOf s u).starting = false)
    (hroom : (unitOf s u).lines.length < 256) (hread : readVirt s x.ctx
      (genVa s x.ctx (key / 8192 % 16) (key / 4096 % 2) + key % 4096 * 256) 256 = some b) :
    exec (.icacheFill u) s = .next (settle (modUnit s u fun y => { y with
      lines := y.lines ++ [(key, b)], miss := none })) := by
  show execIcacheFill u s = _
  simp only [execIcacheFill, hmiss, hrun, hof, Option.bind_some, Option.map_some, hread, hstart, if_pos hroom,
    Bool.false_eq_true, if_false, modUnit]

end

/-! ### NOP and LOOP (R421, R447, R448) -/

section

variable {s : State} {u : Fin 128} {exe : Bool} {r : Nat} {x : Run} {pc w : Nat}

theorem exec_rexNop_of_issues (h : issues s u exe 0x00 r x pc w) :
    exec (.rexNop u exe) s = .next (stepPc s u exe) := by
  show execRexNop u exe s = _
  simp only [execRexNop, show issueAt s u exe 0x00 = .go r x pc w from h]

/-- A stream in the loop that an instruction at `pc` begins. -/
def loopBegun (t : RexStream) (pc w : Nat) : RexStream :=
  { t with
    pc := pc + 1
    loops := { lv := fld w 51 50, first := pc + 1, stop := pc + 1 + fld w 16 0, left := fld w 47 32 } :: t.loops
    idx := tput t.idx (fld w 51 50) 0 }

theorem exec_loop_of_good {n : Nat} (h : issues s u exe 0x02 r x pc w) (hloops : (strOf (unitOf s u) exe).loops = [])
    (hbody : fld w 16 0 ≠ 0) (hlen : (rimgOf s x.ctx (unitOf s u).img).len (unitOf s u).gen = some n)
    (hin : pc + 1 + fld w 16 0 ≤ n) :
    exec (.loop u exe) s = .next (modUnit s u fun y =>
      setStr y exe (loopBegun (strOf (unitOf s u) exe) pc w)) := by
  show execLoop u exe s = _
  simp only [execLoop, show issueAt s u exe 0x02 = .go r x pc w from h, hloops, List.any_nil, hbody, hlen,
    Option.getD_some, Bool.or_self, decide_false, Bool.false_eq_true, if_false, if_neg (Nat.not_lt.mpr hin), loopBegun]

theorem exec_loop_of_reserved (h : issues s u exe 0x02 r x pc w)
    (hbad : fld w 16 0 = 0 ∨ ∃ l ∈ (strOf (unitOf s u) exe).loops, l.lv = fld w 51 50) :
    exec (.loop u exe) s = .next (settle (progFault s u r x 3 pc 0)) := by
  have hany : fld w 16 0 = 0 ∨ ((strOf (unitOf s u) exe).loops.any fun l => l.lv == fld w 51 50) = true :=
    hbad.imp_right fun ⟨l, hl, hlv⟩ => List.any_eq_true.mpr ⟨l, hl, beq_iff_eq.mpr hlv⟩
  show execLoop u exe s = _
  simp only [execLoop, show issueAt s u exe 0x02 = .go r x pc w from h]
  refine if_pos ?_
  rw [Bool.or_eq_true, Bool.or_eq_true, decide_eq_true_iff]
  exact hany.elim .inr fun h => .inl (.inl h)

/-- At the end of a loop's body with iterations left, the stream begins the body again with the next index (R447). -/
theorem advancePc_of_again {t : RexStream} {l : RexLoop} {ls : List RexLoop} (n : Nat) (hloops : t.loops = l :: ls)
    (hend : t.pc = l.stop) (hleft : 0 < l.left) :
    advancePc t (n + 1) = { t with
      pc := l.first
      loops := { l with left := l.left - 1 } :: ls
      idx := tput t.idx l.lv (tget 0 t.idx l.lv + 1) } := by
  simp only [advancePc, hloops, hend, ne_eq, not_true, if_false, if_pos hleft]

/-! ### QBAR (R449) -/

/-- The unit's state once a stream has come to a QBAR. -/
def atBar (s : State) (u : Nat) (exe : Bool) (id : Nat) : State :=
  modUnit s u fun y => setStr y exe { strOf y exe with bar := some id }

theorem exec_qbar_of_same (h : issues s u exe 0x03 r x pc w)
    (hsame : ∀ k, (strOf (unitOf s u) (!exe)).bar = some k → k = fld w 51 44) :
    exec (.qbar u exe) s = .next (passBars (atBar s u exe (fld w 51 44)) u) := by
  have hany : ((strOf (unitOf s u) (!exe)).bar.any fun k => k != fld w 51 44) = false := by
    rw [Option.any_eq_false]
    intro k hk
    simpa using hsame k hk
  show execQbar u exe s = _
  simp only [execQbar, show issueAt s u exe 0x03 = .go r x pc w from h, hany, Bool.false_eq_true, if_false, atBar]

theorem exec_qbar_of_other {k : Nat} (h : issues s u exe 0x03 r x pc w)
    (hbar : (strOf (unitOf s u) (!exe)).bar = some k) (hne : k ≠ fld w 51 44) :
    exec (.qbar u exe) s = .next (settle (progFault s u r x 3 (if exe then pc else (unitOf s u).exe.pc) 0)) := by
  show execQbar u exe s = _
  simp only [execQbar, show issueAt s u exe 0x03 = .go r x pc w from h, hbar, Option.any_some, bne_iff_ne, hne, ne_eq,
    not_false_eq_true, if_true]

/-- A stream passes no barrier at which the other does not stand, and none while an LDQ is still in flight. -/
theorem passBars_of_alone {s : State} {u : Nat} (exe : Bool)
    (halone : (strOf (unitOf s u) exe).bar = none ∨ (unitOf s u).late ≠ []) : passBars s u = s := by
  dsimp only [passBars]
  split
  next a b ha hb =>
    refine if_neg fun hpass => ?_
    rw [Bool.and_eq_true, List.isEmpty_iff] at hpass
    obtain hbar | hlate := halone
    · cases exe
      · exact absurd (ha.symm.trans hbar) (by simp)
      · exact absurd (hb.symm.trans hbar) (by simp)
    · exact hlate hpass.2
  · rfl

/-- Where both streams stand at a QBAR of one ID and nothing is in flight, both pass it. -/
theorem passBars_passes {s : State} {u k : Nat} (hbars : ∀ exe, (strOf (unitOf s u) exe).bar = some k)
    (hlate : (unitOf s u).late = []) : rexFrame s (passBars s u) u ∧
      ∀ exe, strOf (unitOf (passBars s u) u) exe = movedOn { strOf (unitOf s u) exe with bar := none } := by
  have hacc : (unitOf s u).acc.bar = some k := hbars false
  have hexe : (unitOf s u).exe.bar = some k := hbars true
  simp only [passBars, hacc, hexe, hlate, List.isEmpty_nil, decide_true, Bool.and_self, if_true]
  refine ⟨rexFrame_trans (rexFrame_trans (rexFrame_modUnit s u _) (rexFrame_stepPc _ u _)) (rexFrame_stepPc _ u _), ?_⟩
  intro exe
  rw [unitOf_stepPc_same, unitOf_stepPc_same, unitOf_modUnit_same]
  cases exe <;> rfl

theorem bar_none_self {t : RexStream} (h : t.bar = none) : { t with bar := none } = t := by
  obtain ⟨pc, done, loops, idx, bar, rows, held, undo⟩ := t
  cases h
  rfl

theorem forall_stream {p : Bool → Prop} (exe : Bool) (hown : p exe) (hother : p (!exe)) : ∀ e, p e := by
  intro e
  obtain rfl | hne := eq_or_ne e exe
  · exact hown
  · rwa [Bool.eq_not.mpr hne]

/-- The stream that comes to a QBAR waits there for the other (R449). -/
theorem qbar_waits (h : issues s u exe 0x03 r x pc w) (hwait : (strOf (unitOf s u) (!exe)).bar = none ∨
    ((unitOf s u).late ≠ [] ∧ (strOf (unitOf s u) (!exe)).bar = some (fld w 51 44))) :
    ∃ t, exec (.qbar u exe) s = .next t ∧ rexFrame s t u ∧ (strOf (unitOf t u) exe).bar = some (fld w 51 44) ∧
      (strOf (unitOf t u) exe).pc = pc ∧ strOf (unitOf t u) (!exe) = strOf (unitOf s u) (!exe) := by
  have hsame : ∀ k, (strOf (unitOf s u) (!exe)).bar = some k → k = fld w 51 44 := by
    intro k hk
    obtain hnone | ⟨-, hbar⟩ := hwait
    · rw [hnone] at hk
      cases hk
    · exact (Option.some.inj (hbar.symm.trans hk)).symm
  have hpass : passBars (atBar s u exe (fld w 51 44)) u = atBar s u exe (fld w 51 44) := by
    refine passBars_of_alone (!exe) ?_
    simp only [atBar, unitOf_modUnit_same, strOf_setStr_other, late_setStr]
    exact hwait.imp_right And.left
  refine ⟨_, (exec_qbar_of_same h hsame).trans (congrArg _ hpass), rexFrame_modUnit s u _, ?_⟩
  have hpc := (issuing_of_issues h).pc
  simp only [atBar, unitOf_modUnit_same, strOf_setStr_same, strOf_setStr_other, hpc, and_self]

/-- Both streams pass the QBAR of one ID (R449). -/
theorem qbar_passes (h : issues s u exe 0x03 r x pc w) (hlate : (unitOf s u).late = [])
    (hbar : (strOf (unitOf s u) (!exe)).bar = some (fld w 51 44)) :
    ∃ t, exec (.qbar u exe) s = .next t ∧ rexFrame s t u ∧
      strOf (unitOf t u) exe = movedOn (strOf (unitOf s u) exe) ∧
      strOf (unitOf t u) (!exe) = movedOn { strOf (unitOf s u) (!exe) with bar := none } := by
  have hown := (issuing_of_issues h).bar
  obtain ⟨hframe, hstreams⟩ := passBars_passes (s := atBar s u exe (fld w 51 44)) (u := u) (k := fld w 51 44)
    (forall_stream exe (by simp [atBar]) (by simpa [atBar] using hbar)) (by simpa [atBar] using hlate)
  refine ⟨_, exec_qbar_of_same h fun k hk => Option.some.inj (hk.symm.trans hbar),
    rexFrame_trans (rexFrame_modUnit s u _) hframe, ?_, ?_⟩
  · rw [hstreams exe, atBar, unitOf_modUnit_same, strOf_setStr_same, bar_none_self hown]
  · rw [hstreams (!exe), atBar, unitOf_modUnit_same, strOf_setStr_other]

/-! ### END (R384) -/

theorem exec_rexEnd_of_killed (hrun : (unitOf s u).run = some r) (hof : runOf s r = some x) (hkill : x.killAt ≠ none) :
    exec (.rexEnd u exe) s = .next (settle (endRun s r 1)) := by
  have hsome : x.killAt.isSome = true := Option.isSome_iff_ne_none.mpr hkill
  show execRexEnd u exe s = _
  simp only [execRexEnd, hrun, hof, Option.bind_some, Option.map_some, hsome, if_true]

/-- A unit whose stream has come to END. -/
def ended (s : State) (u : Nat) (exe : Bool) : State :=
  modUnit s u fun y => setStr y exe { strOf y exe with done := true }

variable (h : issues s u exe 0x01 r x pc w) (hkill : x.killAt = none)

include h hkill in
theorem exec_rexEnd_of_loops (hloops : (strOf (unitOf s u) exe).loops ≠ []) :
    exec (.rexEnd u exe) s = .next (settle (progFault s u r x 3 pc 0)) := by
  obtain ⟨hrun, hof⟩ := And.intro (issuing_of_issues h).run (issuing_of_issues h).runOf
  have hin : (strOf (unitOf s u) exe).loops.isEmpty = false := by simpa using hloops
  show execRexEnd u exe s = _
  simp only [execRexEnd, hrun, hof, Option.bind_some, Option.map_some, hkill, Option.isSome_none, Bool.false_eq_true,
    if_false, show issueAt s u exe 0x01 = .go r x pc w from h, hin, Bool.not_false, if_true]

include h hkill in
theorem exec_rexEnd_of_bar (hloops : (strOf (unitOf s u) exe).loops = [])
    (hbar : (strOf (unitOf s u) (!exe)).bar ≠ none) :
    exec (.rexEnd u exe) s = .next (settle (progFault s u r x 3 (strOf (unitOf s u) (!exe)).pc 0)) := by
  obtain ⟨hrun, hof⟩ := And.intro (issuing_of_issues h).run (issuing_of_issues h).runOf
  have hsome : (strOf (unitOf s u) (!exe)).bar.isSome = true := Option.isSome_iff_ne_none.mpr hbar
  show execRexEnd u exe s = _
  simp only [execRexEnd, hrun, hof, Option.bind_some, Option.map_some, hkill, Option.isSome_none, Bool.false_eq_true,
    if_false, show issueAt s u exe 0x01 = .go r x pc w from h, hloops, List.isEmpty_nil, Bool.not_true, hsome, if_true]

include h hkill in
theorem exec_rexEnd_of_end (hloops : (strOf (unitOf s u) exe).loops = [])
    (hbar : (strOf (unitOf s u) (!exe)).bar = none) :
    exec (.rexEnd u exe) s = .next (settle (rexDrained (ended s u exe) u)) := by
  obtain ⟨hrun, hof⟩ := And.intro (issuing_of_issues h).run (issuing_of_issues h).runOf
  show execRexEnd u exe s = _
  simp only [execRexEnd, hrun, hof, Option.bind_some, Option.map_some, hkill, Option.isSome_none, Bool.false_eq_true,
    if_false, show issueAt s u exe 0x01 = .go r x pc w from h, hloops, List.isEmpty_nil, Bool.not_true, hbar, ended]

theorem rexDrained_eq {s : State} {u : Nat} (exe : Bool) (hbar : (strOf (unitOf s u) exe).bar = none) {r : Nat}
    (hrun : (unitOf s u).run = some r) : rexDrained s u =
      if (unitOf s u).acc.done && (unitOf s u).exe.done && (unitOf s u).late.isEmpty && !(unitOf s u).stopped then
        endRun s r 0 else s := by
  simp only [rexDrained, passBars_of_alone exe (.inl hbar), hrun]


include h in
/-- The unit after END: only the stream's end is new. -/
theorem rexDrained_ended (hbar : (strOf (unitOf s u) (!exe)).bar = none) : rexDrained (ended s u exe) u =
    if (strOf (unitOf s u) (!exe)).done && (unitOf s u).late.isEmpty then endRun (ended s u exe) r 0
    else ended s u exe := by
  obtain ⟨hrun, hstopped⟩ := And.intro (issuing_of_issues h).run (issuing_of_issues h).stopped
  have hunit : unitOf (ended s u exe) u = setStr (unitOf s u) exe { strOf (unitOf s u) exe with done := true } :=
    unitOf_modUnit_same s u _
  rw [rexDrained_eq (r := r) (!exe) (by rw [hunit, strOf_setStr_other, hbar])
    (by rw [hunit, setStr_outside]; exact hrun), hunit, setStr_outside]
  cases exe <;> simp [setStr, strOf, hstopped]

include h hkill in
/-- The first stream to end, or the second with an LDQ still in flight, waits at END. -/
theorem rexEnd_waits (hloops : (strOf (unitOf s u) exe).loops = []) (hbar : (strOf (unitOf s u) (!exe)).bar = none)
    (hwait : (strOf (unitOf s u) (!exe)).done = false ∨ (unitOf s u).late ≠ []) (hcalm : calm s) :
    ∃ t, exec (.rexEnd u exe) s = .next t ∧ rexFrame s t u ∧ (strOf (unitOf t u) exe).done = true ∧
      strOf (unitOf t u) (!exe) = strOf (unitOf s u) (!exe) ∧ (unitOf t u).tiles = (unitOf s u).tiles := by
  have hframe : rexFrame s (ended s u exe) u := rexFrame_modUnit s u _
  have hdrained : rexDrained (ended s u exe) u = ended s u exe := by
    rw [rexDrained_ended h hbar]
    refine if_neg fun hboth => ?_
    rw [Bool.and_eq_true, List.isEmpty_iff] at hboth
    exact hwait.elim (fun hdone => absurd (hboth.1.symm.trans hdone) (by decide)) fun hlate => hlate hboth.2
  refine ⟨ended s u exe, ?_, hframe, ?_⟩
  · rw [exec_rexEnd_of_end h hkill hloops hbar, hdrained, settle_of_rexFrame hframe hcalm]
  · simp only [ended, unitOf_modUnit_same, strOf_setStr_same, strOf_setStr_other, tiles_setStr, and_self]

include h hkill in
/-- The second stream to end ends the command (R384). -/
theorem exec_rexEnd_of_both (hloops : (strOf (unitOf s u) exe).loops = [])
    (hbar : (strOf (unitOf s u) (!exe)).bar = none) (hdone : (strOf (unitOf s u) (!exe)).done = true)
    (hlate : (unitOf s u).late = []) :
    exec (.rexEnd u exe) s = .next (settle (endRun (ended s u exe) r 0)) := by
  rw [exec_rexEnd_of_end h hkill hloops hbar, rexDrained_ended h hbar, hdone, hlate]
  rfl

end

/-- Settles O50: each instruction acts only where its stream issues it, and NOP, LOOP, QBAR and END change the
streams as their equations say. -/
theorem streamControl : Obligations.StreamControl := by
  unfold Obligations.StreamControl
  refine ⟨fun c s u exe op hop h => exec_of_issue_none hop h,
    fun c s t u exe op hop haccw h => exec_of_issue_stop hop haccw h,
    fun s u hmiss => exec_icacheFill_of_no_miss hmiss,
    fun s u key r x b hmiss hrun hof hstart hcalm hroom hread => ?_, fun s u exe r x pc w h => ?_,
    fun s u exe r x pc w n h hloops hbody hlen hin => ?_, fun s u exe r x pc w h hbad => exec_loop_of_reserved h hbad,
    fun t l ls n hloops hend hleft => ?_, fun s u exe r x pc w h hwait => qbar_waits h hwait,
    fun s u exe r x pc w h hlate hbar => qbar_passes h hlate hbar,
    fun s u exe r x pc w k h hbar hne => exec_qbar_of_other h hbar hne,
    fun s u exe r x pc w h _ _ hkill => ⟨exec_rexEnd_of_loops h hkill, exec_rexEnd_of_bar h hkill⟩,
    fun s u exe r x pc w h _ _ hkill hloops hbar hwait hcalm => rexEnd_waits h hkill hloops hbar hwait hcalm,
    fun s u exe r x pc w h _ _ hkill hloops hbar hdone hlate => exec_rexEnd_of_both h hkill hloops hbar hdone hlate,
    fun s u exe r x hrun hof hkill => exec_rexEnd_of_killed hrun hof hkill⟩
  · have hframe := rexFrame_modUnit s u fun y => { y with lines := y.lines ++ [(key, b)], miss := none }
    refine ⟨_, exec_icacheFill_of_line hmiss hrun hof hstart hroom hread, ?_⟩
    rw [settle_of_rexFrame hframe hcalm]
    refine ⟨hframe, ?_⟩
    rw [unitOf_modUnit_same]
    exact ⟨rfl, rfl, rfl, rfl, rfl⟩
  · refine ⟨_, exec_rexNop_of_issues h, rexFrame_stepPc s u exe, ?_⟩
    simp only [unitOf_stepPc_same, strOf_setStr_same, strOf_setStr_other, tiles_setStr, accf_setStr, aq_setStr,
      and_self]
  · refine ⟨_, exec_loop_of_good h hloops hbody hlen hin, rexFrame_modUnit s u _, ?_⟩
    simp only [unitOf_modUnit_same, strOf_setStr_same, strOf_setStr_other, tiles_setStr, loopBegun, hloops,
      tget_tput_same, and_self]
  · rw [advancePc_of_again n hloops hend hleft]
    exact ⟨rfl, rfl, tget_tput_same _ _ _ _⟩

end Sys2Proof.Machine
end

section
/-! The access stream of a REX unit: loads, stores, queue forms, accumulator forms and effect requests (R388, R405,
R434-R437, R446). -/

namespace Sys2Proof.Machine

open Sys2Proof

/-! ### Folds -/

/-- What one step of a fold sets to a value that each other step sets too or leaves, has that value at the end. -/
theorem foldl_sets {α β γ : Type} (obs : β → γ) {f : β → α → β} {v : γ} {l : List α} {a : α} (ha : a ∈ l)
    (hset : ∀ y, obs (f y a) = v) (hrest : ∀ y, ∀ b ∈ l, obs (f y b) = v ∨ obs (f y b) = obs y) (y : β) :
    obs (l.foldl f y) = v := by
  obtain ⟨l₁, l₂, rfl⟩ := List.append_of_mem ha
  rw [List.foldl_append, List.foldl_cons]
  have hstay : ∀ l : List α, (∀ y, ∀ b ∈ l, obs (f y b) = v ∨ obs (f y b) = obs y) →
      ∀ z, obs z = v → obs (l.foldl f z) = v := by
    intro l
    induction l with
    | nil => exact fun _ _ hz => hz
    | cons b l ih =>
      exact fun hl z hz => ih (fun y c hc => hl y c (List.mem_cons_of_mem _ hc)) _
        ((hl z b List.mem_cons_self).elim id fun heq => heq.trans hz)
  exact hstay l₂ (fun y b hb => hrest y b (List.mem_append_right _ (List.mem_cons_of_mem _ hb))) _ (hset _)

/-! ### A change of commands' records only -/

/-- `t` differs from `s` at most in the records of running commands. -/
def RunsFrame (s t : State) : Prop := t = { s with disp := { s.disp with runs := t.disp.runs } }

theorem RunsFrame.refl (s : State) : RunsFrame s s := rfl

theorem RunsFrame.trans {s t v : State} (h : RunsFrame s t) (h' : RunsFrame t v) : RunsFrame s v := by
  unfold RunsFrame at *
  rw [h] at h'
  exact h'

theorem runsFrame_modRun (s : State) (r : Nat) (f : Run → Run) : RunsFrame s (modRun s r f) := by
  unfold modRun
  split <;> rfl

theorem RunsFrame.rex {s t : State} (h : RunsFrame s t) : t.rex = s.rex := by rw [h]

theorem RunsFrame.mem {s t : State} (h : RunsFrame s t) : t.mem = s.mem := by rw [h]

theorem unitOf_of_runsFrame {s t : State} (h : RunsFrame s t) (u : Nat) : unitOf t u = unitOf s u := by
  rw [unitOf, h.rex, unitOf]

theorem calm_of_runsFrame {s t : State} (h : RunsFrame s t) (hcalm : calm s) : calm t := by
  rw [h]
  exact hcalm

theorem runsFrame_ite {s a b : State} (p : Prop) [Decidable p] (ha : RunsFrame s a) (hb : RunsFrame s b) :
    RunsFrame s (if p then a else b) := by
  split
  · exact ha
  · exact hb

theorem runsFrame_addDigest (s : State) (r : Nat) (x : Run) (va : Nat) (bs : List Byte) :
    RunsFrame s (addDigest s r x va bs) := by
  unfold addDigest
  split
  · rfl
  · exact runsFrame_modRun s r _

/-! ### What a command's read leaves -/

theorem enterCache_rex (s : State) (key : Nat) : (enterCache s key).rex = s.rex := (pageFrame_enterCache s key).rex

theorem cacheIn_rex (s : State) (key : Nat) : (cacheIn s key).rex = s.rex := by
  unfold cacheIn
  split
  · rfl
  · exact enterCache_rex _ _

theorem markSeen_rex (s : State) (r vpn : Nat) (frame : Option Nat) : (markSeen s r vpn frame).rex = s.rex :=
  (runsFrame_modRun s r _).rex

theorem readCopy_rex (s : State) (c vpn : Nat) (g : Region) (field : Nat) :
    (readCopy s c vpn g field).rex = s.rex := by
  unfold readCopy
  cases hmap : mapForWrite s c vpn g (some field) with
  | none => rfl
  | some t => exact (pageFrame_mapForWrite hmap).rex

theorem chargeBytes_rex (s : State) (c n : Nat) : (chargeBytes s c n).rex = s.rex := by
  simp only [chargeBytes, modTally]
  split <;> rfl

/-- A translation that reads leaves the REX units as they are. -/
theorem translate_rex_of_read {s t : State} {r page pfn : Nat} {x : Run} {large writable prov : Bool}
    (h : translate s r x page false = .frame pfn large writable prov t) : t.rex = s.rex := by
  simp only [translate, Bool.false_eq_true, if_false] at h
  split at h
  · cases h
  next g hregion =>
    split at h
    · cases h
    · split at h
      · split at h
        · cases h
          rw [markSeen_rex, cacheIn_rex]
        · split at h <;> cases h
      · split at h
        · split at h
          · split at h <;> cases h
            exact cacheIn_rex _ _
          · cases h
        · split at h
          · cases h
            rfl
          · have hcopy : ∀ (p : Prop) [Decidable p] (c vpn field : Nat),
                (if p then readCopy s c vpn g field else s).rex = s.rex := by
              intro p _ c vpn field
              split
              · exact readCopy_rex _ _ _ _ _
              · rfl
            split at h
            · cases h
              exact (markSeen_rex _ _ _ _).trans (hcopy _ _ _ _)
            · cases h
              exact (cacheIn_rex _ _).trans ((markSeen_rex _ _ _ _).trans (hcopy _ _ _ _))

theorem cmdXlt_rex_of_read {s t : State} {r va pfn : Nat} {x : Run} {large writable prov : Bool}
    (h : cmdXlt s r x va false = .frame pfn large writable prov t) : t.rex = s.rex := by
  simp only [cmdXlt] at h
  split at h
  · cases h
  · split at h
    · cases h
    · split at h
      · cases h
      · exact translate_rex_of_read h

theorem cmdReadPage_rex {s t : State} {r va n : Nat} {b : List Byte} (h : cmdReadPage s r va n = .ok b t) :
    t.rex = s.rex := by
  simp only [cmdReadPage] at h
  split at h
  · cases h
  · split at h
    · cases h
    · cases h
    next hframe =>
      split at h <;> cases h
      exact cmdXlt_rex_of_read hframe

theorem cmdReadGo_rex {r : Nat} (fuel : Nat) {s t : State} {va n : Nat} {b : List Byte}
    (h : cmdReadGo r fuel s va n = .ok b t) : t.rex = s.rex := by
  induction fuel generalizing s va n b with
  | zero =>
    cases h
    rfl
  | succ fuel ih =>
    simp only [cmdReadGo] at h
    split at h
    · cases h
      rfl
    · split at h
      · cases h
      · split at h
        · cases h
        · cases h
        next hpage =>
          split at h <;> cases h
          next hrest => exact (ih hrest).trans (cmdReadPage_rex hpage)

/-- A command's read leaves the REX units as they are. -/
theorem cmdRead_rex {s t : State} {r fuel va n : Nat} {b : List Byte} (h : cmdRead r fuel s va n = .ok b t) :
    t.rex = s.rex := by
  simp only [cmdRead] at h
  split at h <;> cases h
  next v hgo =>
    refine Eq.trans ?_ (cmdReadGo_rex fuel hgo)
    split
    · exact chargeBytes_rex _ _ _
    · rfl

/-! ### What a command's write leaves -/

theorem mread_append_of_not_mem {m m' : Mem} {a : Nat} (h : ∀ c ∈ m, c.1 ≠ a) : mread (m ++ m') a = mread m' a := by
  induction m with
  | nil => rfl
  | cons c m ih =>
    rw [List.cons_append, mread, if_neg (h c List.mem_cons_self), ih fun e he => h e (List.mem_cons_of_mem _ he)]

theorem mread_of_not_mem {m : Mem} {a : Nat} (h : ∀ c ∈ m, c.1 ≠ a) : mread m a = 0 := by
  rw [← List.append_nil m, mread_append_of_not_mem h, mread]

theorem mread_append_of_not_mem_right {m m' : Mem} {a : Nat} (h : ∀ c ∈ m', c.1 ≠ a) :
    mread (m ++ m') a = mread m a := by
  induction m with
  | nil => exact mread_of_not_mem h
  | cons c m ih => rw [List.cons_append, mread, mread, ih]

theorem mread_filter_of_kept {m : Mem} {a : Nat} {p : Nat × Byte → Bool} (h : ∀ b, p (a, b) = true) :
    mread (m.filter p) a = mread m a := by
  induction m with
  | nil => rfl
  | cons c m ih =>
    obtain ⟨j, b⟩ := c
    rw [List.filter_cons]
    by_cases hj : j = a
    · rw [hj, if_pos (h b), mread, mread, if_pos rfl, if_pos rfl]
    · rw [mread, if_neg hj]
      split
      · rw [mread, if_neg hj, ih]
      · exact ih

/-- Bytes are written at their addresses and nowhere else. -/
theorem mread_mwriteBytes_outside (m : Mem) {a k : Nat} (bs : List Byte) (h : ¬(a ≤ k ∧ k < a + bs.length)) :
    mread (mwriteBytes m a bs) k = mread m k := by
  have hcells : ∀ c ∈ mcells a bs, c.1 ≠ k := by
    intro c hc heq
    obtain ⟨hlo, hhi, -⟩ := mcells_mem hc
    omega
  rw [mwriteBytes, msplice]
  obtain hlow | hhigh := Nat.lt_or_ge k a
  · rw [mread_append_of_not_mem_right, mread_filter_of_kept fun _ => decide_eq_true hlow]
    intro c hc
    obtain hc | hc := List.mem_append.mp hc
    · exact hcells c hc
    · have := of_decide_eq_true (List.mem_filter.mp hc).2
      omega
  · rw [mread_append_of_not_mem, mread_append_of_not_mem hcells, mread_filter_of_kept]
    · exact fun _ => decide_eq_true (by omega)
    · intro c hc
      have := of_decide_eq_true (List.mem_filter.mp hc).2
      omega

theorem mread_foldl_mwriteBytes_outside {va k : Nat} (bs : List Byte) (l : List (Nat × Nat × Nat)) (m : Mem)
    (h : ∀ p ∈ l, ¬(p.1 ≤ k ∧ k < p.1 + p.2.2)) :
    mread (l.foldl (fun m p => mwriteBytes m p.1 ((bs.drop (p.2.1 - va)).take p.2.2)) m) k = mread m k :=
  foldl_fixes (fun m => mread m k) l (fun m p hp => by
    refine mread_mwriteBytes_outside m _ fun hin => h p hp ?_
    have := List.length_take_le p.2.2 (bs.drop (p.2.1 - va))
    omega) m

theorem cmdWrite_outside {s t : State} {r va : Nat} {bs : List Byte} (h : cmdWrite s r va bs = .ok () t) :
    ∃ l v, cmdPages r (bs.length / 65536 + 2) s va bs.length = .ok l v ∧
      ∀ a, (∀ p ∈ l, ¬(p.1 ≤ a ∧ a < p.1 + p.2.2)) → mread t.mem a = mread v.mem a := by
  simp only [cmdWrite] at h
  split at h <;> cases h
  next l v hpages =>
    refine ⟨l, v, hpages, fun a ha => (mread_foldl_mwriteBytes_outside bs l _ ha).trans ?_⟩
    split
    · simp only [chargeBytes, modTally]
      split <;> rfl
    · rfl

/-! ### Writes of tile words and ACC entries -/

theorem accOf_setAcc_same (y : RexUnit) (k v : Nat) : accOf (setAcc y k v) k = v := by
  simp only [accOf, setAcc]
  split
  · next hzero => simp [tget, tget?_tdel, hzero]
  · exact tget_tput_same _ _ _ _

theorem accOf_setAcc_ne (y : RexUnit) {k j : Nat} (v : Nat) (h : j ≠ k) : accOf (setAcc y k v) j = accOf y j := by
  simp only [accOf, setAcc]
  split
  · simp [tget, tget?_tdel, h]
  · exact tget_tput_ne _ _ _ h

/-- A unit without its tiles and ACC entries. -/
def offFiles (y : RexUnit) : RexUnit := { y with tiles := [], accf := [] }

theorem offFiles_landWrites (l : List RexWrite) (y : RexUnit) : offFiles (l.foldl landWrite y) = offFiles y :=
  foldl_fixes offFiles l (fun y e _ => by cases e <;> rfl) y

theorem accf_landWrites_tiles {l : List RexWrite} (h : ∀ e ∈ l, ∃ t i v, e = .tile t i v) (y : RexUnit) :
    (l.foldl landWrite y).accf = y.accf :=
  foldl_fixes (fun y => y.accf) l (fun y e he => by
    obtain ⟨t, i, v, rfl⟩ := h e he
    rfl) y

theorem tiles_landWrites_accs {l : List RexWrite} (h : ∀ e ∈ l, ∀ t i v, e ≠ .tile t i v) (y : RexUnit) :
    (l.foldl landWrite y).tiles = y.tiles :=
  foldl_fixes (fun y => y.tiles) l (fun y e he => by
    cases e
    case tile t i v => exact absurd rfl (h _ he t i v)
    all_goals rfl) y

/-- The unit once an instruction of the access stream has issued with the writes `l`. -/
def accDone (s : State) (u : Nat) (l : List RexWrite) : State := stepPc (landed s u l) u false

theorem rexFrame_accDone (s : State) (u : Nat) (l : List RexWrite) : rexFrame s (accDone s u l) u :=
  rexFrame_trans (rexFrame_modUnit s u _) (rexFrame_stepPc _ u _)

theorem mem_accDone (s : State) (u : Nat) (l : List RexWrite) : (accDone s u l).mem = s.mem := rfl

theorem unitOf_accDone_of_free {s : State} {u : Nat} (hlate : (unitOf s u).late = []) (l : List RexWrite) :
    unitOf (accDone s u l) u =
      { l.foldl landWrite (unitOf s u) with acc := movedOn (unitOf s u).acc } := by
  have hacc : (offFiles (l.foldl landWrite (unitOf s u))).acc = (offFiles (unitOf s u)).acc :=
    congrArg RexUnit.acc (offFiles_landWrites l (unitOf s u))
  rw [accDone, unitOf_stepPc_same, landed, unitOf_modUnit_same, hlate, List.isEmpty_nil, if_pos rfl,
    show strOf (l.foldl landWrite (unitOf s u)) false = (unitOf s u).acc from hacc]
  rfl

theorem unitOf_accDone_of_behind {s : State} {u : Nat} (hlate : (unitOf s u).late ≠ []) (l : List RexWrite) :
    unitOf (accDone s u l) u =
      { unitOf s u with behind := (unitOf s u).behind ++ [l], acc := movedOn (unitOf s u).acc } := by
  have hbusy : (unitOf s u).late.isEmpty = false := by simpa using hlate
  rw [accDone, unitOf_stepPc_same, landed, unitOf_modUnit_same, hbusy, if_neg Bool.false_ne_true]
  rfl

/-- An instruction with nothing to write leaves tiles and ACC entries, at once or in its turn. -/
theorem unitOf_accDone_nil (s : State) (u : Nat) : (unitOf (accDone s u []) u).tiles = (unitOf s u).tiles ∧
    (unitOf (accDone s u []) u).accf = (unitOf s u).accf ∧
    (unitOf (accDone s u []) u).acc = movedOn (unitOf s u).acc := by
  by_cases hlate : (unitOf s u).late = []
  · rw [unitOf_accDone_of_free hlate]
    exact ⟨rfl, rfl, rfl⟩
  · rw [unitOf_accDone_of_behind hlate]
    exact ⟨rfl, rfl, rfl⟩

/-! ### Checks of the access stream -/

section

variable {s v t : State} {u op r : Nat} {x : Run} {pc w : Nat}

theorem memInstr_of_check (h : issues s u false op r x pc w) (hroom : flightFull (unitOf s u) = false)
    (hread : readsPending (unitOf s u) op w = false) (hcheck : memCheck s u r x op pc w = some v) (go) :
    memInstr s u op go = .next (settle v) := by
  simp only [memInstr, show issueAt s u false op = .go r x pc w from h, hroom, hread, Bool.or_self,
    Bool.false_eq_true, if_false, hcheck]

theorem memInstr_of_wait (h : issues s u false op r x pc w)
    (hwait : flightFull (unitOf s u) = true ∨ readsPending (unitOf s u) op w = true) (go) :
    memInstr s u op go = .next s := by
  simp only [memInstr, show issueAt s u false op = .go r x pc w from h, Bool.or_eq_true, if_pos hwait]

theorem queueInstr_of_check (h : issues s u false op r x pc w) (hroom : flightFull (unitOf s u) = false)
    (hcheck : memCheck s u r x op pc w = some v) (go) : queueInstr s u op go = .next (settle v) := by
  simp only [queueInstr, show issueAt s u false op = .go r x pc w from h, hroom, Bool.false_eq_true, if_false, hcheck]

theorem queueInstr_of_full (h : issues s u false op r x pc w) (hfull : flightFull (unitOf s u) = true) (go) :
    queueInstr s u op go = .next s := by
  simp only [queueInstr, show issueAt s u false op = .go r x pc w from h, hfull, if_true]

/-- A memory instruction that its checks let pass and that comes to the writes `l`. -/
theorem memInstr_of_ok (hready : memReady s u op r x pc w) {l : List RexWrite}
    {go : Nat → Run → Nat → Nat → Nat → State → MemRes (List RexWrite)}
    (hgo : go r x pc w (effAddr s (unitOf s u) x w) s = .ok l t) (hframe : RunsFrame v t) (hcalm : calm v) :
    memInstr s u op go = .next (accDone t u l) := by
  obtain ⟨h, hcheck, hroom, hread⟩ := hready
  simp only [memInstr, show issueAt s u false op = .go r x pc w from h, hroom, hread, Bool.or_self,
    Bool.false_eq_true, if_false, hcheck, hgo]
  exact congrArg _ (settle_of_rexFrame (rexFrame_accDone t u l) (calm_of_runsFrame hframe hcalm))

theorem queueInstr_of_ok (hready : memReady s u op r x pc w)
    {go : Nat → Run → Nat → Nat → Nat → State → MemRes Unit}
    (hgo : go r x pc w (effAddr s (unitOf s u) x w) s = .ok () t) : queueInstr s u op go = .next (settle t) := by
  obtain ⟨h, hcheck, hroom, -⟩ := hready
  simp only [queueInstr, show issueAt s u false op = .go r x pc w from h, hroom, Bool.false_eq_true, if_false, hcheck,
    hgo]

theorem queueInstr_of_wait (hready : memReady s u op r x pc w)
    {go : Nat → Run → Nat → Nat → Nat → State → MemRes Unit}
    (hgo : go r x pc w (effAddr s (unitOf s u) x w) s = .wait t) : queueInstr s u op go = .next t := by
  obtain ⟨h, hcheck, hroom, -⟩ := hready
  simp only [queueInstr, show issueAt s u false op = .go r x pc w from h, hroom, Bool.false_eq_true, if_false, hcheck,
    hgo]

end

/-- The memory instructions are of two shapes: those that write tile words and ACC entries, and the two queue forms. -/
theorem exec_memory_shape {c : Instr} {u : Fin 128} {op : Nat} (hop : rexOp c = some (u, false, op)) (hlo : 8 ≤ op)
    (hhi : op ≤ 0x0F) (s : State) : (∃ go, exec c s = memInstr s u op go) ∨
      ((op = 0x0A ∨ op = 0x0B) ∧ ∃ go, exec c s = queueInstr s u op go) := by
  unfold rexOp at hop
  split at hop <;> cases hop
  case h_4 => exact .inl ⟨_, show execLd u s = _ from rfl⟩
  case h_5 => exact .inl ⟨_, show execSt u s = _ from rfl⟩
  case h_6 => exact .inr ⟨.inl rfl, _, show execLdq u s = _ from rfl⟩
  case h_7 => exact .inr ⟨.inr rfl, _, show execStq u s = _ from rfl⟩
  case h_8 => exact .inl ⟨_, show execDig u s = _ from rfl⟩
  case h_9 => exact .inl ⟨_, show execAccld u s = _ from rfl⟩
  case h_10 => exact .inl ⟨_, show execAccst u s = _ from rfl⟩
  case h_11 => exact .inl ⟨_, show execAccadd u s = _ from rfl⟩
  all_goals omega

/-- A memory instruction that its stream issues faults where a check says so, and waits where it would be the ninth in
flight or would read what is still to be written. -/
theorem exec_memory_of_issues {c : Instr} {s : State} {u : Fin 128} {op r : Nat} {x : Run} {pc w : Nat}
    (hop : rexOp c = some (u, false, op)) (hlo : 8 ≤ op) (hhi : op ≤ 0x0F) (h : issues s u false op r x pc w) :
    (∀ v, flightFull (unitOf s u) = false → readsPending (unitOf s u) op w = false →
      memCheck s u r x op pc w = some v → exec c s = .next (settle v)) ∧
    (flightFull (unitOf s u) = true → exec c s = .next s) ∧
    (op ≠ 0x0A → op ≠ 0x0B → readsPending (unitOf s u) op w = true → exec c s = .next s) := by
  obtain ⟨go, hexec⟩ | ⟨hqueue, go, hexec⟩ := exec_memory_shape hop hlo hhi s
  · rw [hexec]
    exact ⟨fun v hroom hread hcheck => memInstr_of_check h hroom hread hcheck go,
      fun hfull => memInstr_of_wait h (.inl hfull) go, fun _ _ hread => memInstr_of_wait h (.inr hread) go⟩
  · rw [hexec]
    exact ⟨fun v hroom _ hcheck => queueInstr_of_check h hroom hcheck go,
      fun hfull => queueInstr_of_full h hfull go, fun hldq hstq _ => absurd hqueue (by omega)⟩

/-! ### LD and ST (R434-R436) -/

/-- The words of row `row` of a load of bytes `b`. -/
def loadRow (w : Nat) (b : List Byte) (row : Nat) : List Nat :=
  rowWords (mHalf w) ((b.drop (row * rowBytes (mHalf w))).take (rowBytes (mHalf w)))

theorem length_loadRow (w : Nat) (b : List Byte) (row : Nat) : (loadRow w b row).length = 64 := by
  simp [loadRow, rowWords]

/-- The tile writes that a load of bytes `b` comes to. -/
def loadWrites (w : Nat) (b : List Byte) : List RexWrite :=
  (List.range (mRows w)).flatMap fun row =>
    (loadRow w b row).zipIdx.map fun e => .tile (mT w) (64 * row + e.2) e.1

theorem mem_loadWrites {w : Nat} {b : List Byte} {e : RexWrite} : e ∈ loadWrites w b ↔
    ∃ row col, row < mRows w ∧ col < 64 ∧ e = .tile (mT w) (64 * row + col) ((loadRow w b row).getD col 0) := by
  simp only [loadWrites, List.mem_flatMap, List.mem_range, List.mem_map, List.mem_zipIdx_iff_getElem?, Prod.exists]
  constructor
  · rintro ⟨row, hrow, v, col, hcol, rfl⟩
    have hlen := (List.getElem?_eq_some_iff.mp hcol).1
    rw [length_loadRow] at hlen
    exact ⟨row, col, hrow, hlen, by rw [List.getD_eq_getElem?_getD, hcol, Option.getD_some]⟩
  · rintro ⟨row, col, hrow, hcol, rfl⟩
    refine ⟨row, hrow, _, col, ?_, rfl⟩
    rw [List.getD_eq_getElem _ _ (by rw [length_loadRow]; exact hcol)]
    exact List.getElem?_eq_getElem _

theorem mRows_le (w : Nat) : mRows w ≤ 64 := by
  have := fld_lt w 37 32
  simp only [mRows]
  omega

theorem tileWord_loadWrites {w row col : Nat} (b : List Byte) (hrow : row < mRows w) (hcol : col < 64) (y : RexUnit) :
    tileWord ((loadWrites w b).foldl landWrite y) (mT w) (64 * row + col) = (loadRow w b row).getD col 0 := by
  refine foldl_sets (fun y => tileWord y (mT w) (64 * row + col))
    (mem_loadWrites.mpr ⟨row, col, hrow, hcol, rfl⟩) (fun y => tileWord_setTile_same y _ _ _) ?_ y
  intro y e he
  obtain ⟨row', col', -, hcol', rfl⟩ := mem_loadWrites.mp he
  by_cases heq : 64 * row' + col' = 64 * row + col
  · obtain ⟨rfl, rfl⟩ : row' = row ∧ col' = col := by omega
    exact .inl (tileWord_setTile_same y _ _ _)
  · exact .inr (tileWord_setTile_ne y _ (by omega))

theorem tileWord_loadWrites_other {w k i : Nat} (b : List Byte) (hk : k ≠ mT w) (hi : i < 4096) (y : RexUnit) :
    tileWord ((loadWrites w b).foldl landWrite y) k i = tileWord y k i := by
  refine foldl_fixes (fun y => tileWord y k i) _ (fun y e he => ?_) y
  obtain ⟨row, col, hrow, hcol, rfl⟩ := mem_loadWrites.mp he
  have := mRows_le w
  exact tileWord_setTile_ne y _ (by omega)

/-- A load's non-finite elements counted. -/
def loadCounted (s : State) (r w : Nat) (b : List Byte) : State :=
  if mHalf w = 1 then s else addLoad s r (countNf (mFmt w) b)

theorem runsFrame_loadCounted (s : State) (r w : Nat) (b : List Byte) : RunsFrame s (loadCounted s r w b) :=
  runsFrame_ite _ (RunsFrame.refl s) (runsFrame_modRun s r _)

section

variable {s v : State} {u : Fin 128} {r : Nat} {x : Run} {pc w : Nat} {b : List Byte}

theorem exec_ld_of_read (hready : memReady s u 0x08 r x pc w)
    (hread : cmdRead r 4 s (effAddr s (unitOf s u) x w) (mRows w * rowBytes (mHalf w)) = .ok b v) (hcalm : calm v) :
    exec (.ld u) s = .next (accDone (loadCounted v r w b) u (loadWrites w b)) := by
  show execLd u s = _
  refine memInstr_of_ok hready ?_ (runsFrame_loadCounted v r w b) hcalm
  simp only [hread]
  rfl

/-- A store's non-finite elements counted, and its blocks added to the digest. -/
def storeCounted (s : State) (r w : Nat) (x : Run) (va : Nat) (bs : List Byte) : State :=
  addDigest (if mHalf w = 1 then s else addStore s r (countNf (mFmt w) bs)) r x va bs

theorem runsFrame_storeCounted (s : State) (r w : Nat) (x : Run) (va : Nat) (bs : List Byte) :
    RunsFrame s (storeCounted s r w x va bs) :=
  (runsFrame_ite _ (RunsFrame.refl s) (runsFrame_modRun s r _)).trans (runsFrame_addDigest _ r x va bs)

/-- The bytes of the rows of a tile that an ST stores. -/
def tileRows (y : RexUnit) (w : Nat) : List Byte :=
  ((List.range (mRows w)).map fun row =>
    wordsRow (mHalf w) ((List.range 64).map fun c => tileWord y (mT w) (64 * row + c))).flatten

theorem exec_st_of_write (hready : memReady s u 0x09 r x pc w)
    (hwrite : cmdWrite s r (effAddr s (unitOf s u) x w) (tileRows (unitOf s u) w) = .ok () v) (hcalm : calm v) :
    exec (.st u) s = .next (accDone (storeCounted v r w x (effAddr s (unitOf s u) x w)
      (tileRows (unitOf s u) w)) u []) := by
  rw [tileRows] at hwrite
  show execSt u s = _
  refine memInstr_of_ok hready ?_ (runsFrame_storeCounted v r w x _ _) hcalm
  simp only [hwrite]
  rfl

/-! ### DIG, ACCLD, ACCST and ACCADD (R405, R436, R437) -/

theorem exec_dig_of_no_area (hready : memReady s u 0x0C r x pc w) (harea : digArea s x.ctx = 0) (hcalm : calm s) :
    exec (.dig u) s = .next (accDone s u []) := by
  show execDig u s = _
  exact memInstr_of_ok hready (if_pos harea) (RunsFrame.refl s) hcalm

theorem exec_dig_of_read (hready : memReady s u 0x0C r x pc w) (harea : digArea s x.ctx ≠ 0)
    (hread : cmdRead r 4 s (effAddr s (unitOf s u) x w) (mRows w * 256) = .ok b v) (hcalm : calm v) :
    exec (.dig u) s = .next (accDone (addDigest v r x (effAddr s (unitOf s u) x w) b) u []) := by
  show execDig u s = _
  refine memInstr_of_ok hready ?_ (runsFrame_addDigest v r x _ b) hcalm
  simp only [if_neg harea, hread]

theorem exec_accld_of_read (hready : memReady s u 0x0D r x pc w)
    (hread : cmdRead r 4 s (effAddr s (unitOf s u) x w) (mRows w * 8) = .ok b v) (hcalm : calm v) :
    exec (.accld u) s = .next (accDone v u
      ((List.range (mRows w)).map fun k => .acc (mAcci w + k) (leAt b (8 * k) 8))) := by
  show execAccld u s = _
  refine memInstr_of_ok hready ?_ (RunsFrame.refl v) hcalm
  simp only [hread]

theorem exec_accadd_of_read (hready : memReady s u 0x0F r x pc w)
    (hread : cmdRead r 4 s (effAddr s (unitOf s u) x w) (mRows w * 8) = .ok b v) (hcalm : calm v) :
    exec (.accadd u) s = .next (accDone v u ((List.range (mRows w)).map fun k =>
      .add (mAcci w + k) (leAt b (8 * k) 8) (fmtOf (mFmt w)).isSome)) := by
  show execAccadd u s = _
  refine memInstr_of_ok hready ?_ (RunsFrame.refl v) hcalm
  simp only [hread]

/-- The ACC entries that an ACCST stores. -/
def accRows (y : RexUnit) (w : Nat) : List Nat := (List.range (mRows w)).map fun k => accOf y (mAcci w + k)

/-- The bytes of those entries, at full width. -/
def accBytes (y : RexUnit) (w : Nat) : List Byte := ((accRows y w).map fun v => leBytes 8 v).flatten

/-- An ACCST's non-finite elements counted, and its blocks added to the digest. -/
def accCounted (s : State) (r w : Nat) (x : Run) (va : Nat) (y : RexUnit) : State :=
  addDigest (addStore s r (if (fmtOf (mFmt w)).isSome then
    ((accRows y w).filter fun v => !(decodeF f64 v).finite).length else 0)) r x va (accBytes y w)

theorem runsFrame_accCounted (s : State) (r w : Nat) (x : Run) (va : Nat) (y : RexUnit) :
    RunsFrame s (accCounted s r w x va y) := (runsFrame_modRun s r _).trans (runsFrame_addDigest _ r x va _)

theorem exec_accst_of_write (hready : memReady s u 0x0E r x pc w)
    (hwrite : cmdWrite s r (effAddr s (unitOf s u) x w) (accBytes (unitOf s u) w) = .ok () v) (hcalm : calm v) :
    exec (.accst u) s =
      .next (accDone (accCounted v r w x (effAddr s (unitOf s u) x w) (unitOf s u)) u []) := by
  rw [accBytes, accRows] at hwrite
  show execAccst u s = _
  refine memInstr_of_ok hready ?_ (runsFrame_accCounted v r w x _ _) hcalm
  simp only [hwrite]
  rfl

end

/-- The last `n` of a list of digest blocks, in the order of their addresses. -/
theorem rangeFrom_eq_map (a n : Nat) : rangeFrom a n = (List.range n).map fun k => a + k := by
  induction n generalizing a with
  | zero => rfl
  | succ n ih =>
    rw [rangeFrom, ih, List.range_succ_eq_map, List.map_cons, List.map_map]
    exact congrArg _ (List.map_congr_left fun k _ => by simp only [Function.comp]; omega)

/-- The digest of whole blocks from an aligned address (R403, R405). -/
theorem digest_addDigest_of_blocks {s : State} {r : Nat} {x y : Run} {va n : Nat} {b : List Byte}
    (hrun : runOf s r = some y) (harea : digArea s x.ctx ≠ 0) (halign : va % 256 = 0) (hlen : b.length = n * 256) :
    ∃ z, runOf (addDigest s r x va b) r = some z ∧ z.digest = (y.digest + (List.range n).foldl (fun d k =>
      d + contribution (va + 256 * k) ((b.drop (256 * k)).take 256)) 0) % 2 ^ 64 := by
  have hfirst : (va + 255) / 256 = va / 256 := by omega
  have hcount : (va + n * 256) / 256 - va / 256 = n := by omega
  have hblock : ∀ k, (va / 256 + k) * 256 = va + 256 * k := fun k => by omega
  simp only [addDigest, if_neg harea, hlen, hfirst, hcount, rangeFrom_eq_map, List.foldl_map, hblock,
    Nat.add_sub_cancel_left, modRun_eq_setRun hrun]
  exact ⟨_, runOf_setRun_same s r _, rfl⟩

/-! ### ACC entries written and added into -/

theorem accOf_accldWrites (a n : Nat) (f : Nat → Nat) (y : RexUnit) (k : Nat) :
    accOf (((List.range n).map fun j => RexWrite.acc (a + j) (f j)).foldl landWrite y) k =
      if a ≤ k ∧ k < a + n then f (k - a) else accOf y k := by
  induction n with
  | zero => rw [if_neg (by omega)]; rfl
  | succ n ih =>
    rw [List.range_succ, List.map_append, List.foldl_append, List.map_singleton, List.foldl_cons, List.foldl_nil]
    by_cases hk : k = a + n
    · rw [if_pos (by omega), show k - a = n by omega, hk]
      exact accOf_setAcc_same _ _ _
    · refine (accOf_setAcc_ne _ _ hk).trans (ih.trans (if_congr (by omega) rfl rfl))

theorem accOf_accaddWrites (a n : Nat) (f : Nat → Nat) (float : Bool) (y : RexUnit) (k : Nat) :
    accOf (((List.range n).map fun j => RexWrite.add (a + j) (f j) float).foldl landWrite y) k =
      if a ≤ k ∧ k < a + n then (if float then add64 else addI64) (accOf y k) (f (k - a)) else accOf y k := by
  induction n with
  | zero => rw [if_neg (by omega)]; rfl
  | succ n ih =>
    rw [List.range_succ, List.map_append, List.foldl_append, List.map_singleton, List.foldl_cons, List.foldl_nil]
    by_cases hk : k = a + n
    · subst hk
      rw [if_neg (by omega)] at ih
      rw [if_pos (by omega), Nat.add_sub_cancel_left]
      refine (accOf_setAcc_same _ _ _).trans ?_
      rw [ih]
    · refine (accOf_setAcc_ne _ _ hk).trans (ih.trans (if_congr (by omega) rfl rfl))

/-! ### LDQ and STQ (R434, R435, R450, R452) -/

@[simp] theorem aqOf_setAq_same (y : RexUnit) (q : Nat) (l : List (List Nat)) : aqOf (setAq y q l) q = l :=
  tget_tput_same _ _ _ _

theorem aqOf_setAq_ne (y : RexUnit) {q k : Nat} (l : List (List Nat)) (h : k ≠ q) :
    aqOf (setAq y q l) k = aqOf y k := tget_tput_ne _ _ _ h

/-- A unit whose queue `q` has taken items. -/
theorem unitOf_pushItems (s : State) (u q : Nat) (items : List (List Nat)) :
    unitOf (pushItems s u q items) u =
      setAq { unitOf s u with arriving := (unitOf (pushItems s u q items) u).arriving } q
      (aqOf (unitOf s u) q ++ items) := by
  dsimp only [pushItems]
  rw [unitOf_modUnit_same]
  rfl

theorem rexFrame_pushItems (s : State) (u q : Nat) (items : List (List Nat)) :
    rexFrame s (pushItems s u q items) u := by
  dsimp only [pushItems]
  exact rexFrame_modUnit s u _

/-- Rows that pass change their own stream only. -/
theorem passRows_shape (s : State) (u : Nat) (exe : Bool) (n all : Nat) :
    ∃ f : RexUnit → RexStream, passRows s u exe n all = modUnit s u fun y => setStr y exe (f y) := by
  unfold passRows
  extract_lets t
  split
  · exact ⟨_, stepPc_eq s u exe⟩
  · exact ⟨_, rfl⟩

theorem passRows_of_all {s : State} {u n all : Nat} {exe : Bool} (h : all ≤ (strOf (unitOf s u) exe).rows + n) :
    passRows s u exe n all = stepPc s u exe := if_pos h

theorem passRows_of_more {s : State} {u n all : Nat} {exe : Bool} (h : (strOf (unitOf s u) exe).rows + n < all) :
    passRows s u exe n all = modUnit s u fun y =>
      setStr y exe { strOf y exe with rows := (strOf (unitOf s u) exe).rows + n } := if_neg (Nat.not_le.mpr h)

section

variable {s v : State} {u : Fin 128} {r : Nat} {x : Run} {pc w : Nat} {b : List Byte}

theorem loadRows_of_read {lo n ea : Nat} (hread : cmdRead r 4 s (ea + lo * rowBytes (mHalf w))
      (n * rowBytes (mHalf w)) = .ok b v) :
    loadRows s r w ea lo n = .ok (memRows w b n) (loadCounted v r w b) := by
  simp only [loadRows, hread]
  rfl

/-- The rows of an interlocked LDQ: those that find a place, and those that wait in the REX. -/
def ldqTaken (s : State) (u q room : Nat) (items : List (List Nat)) : State :=
  stepPc (modUnit (pushItems s u q (items.take room)) u fun y =>
    { y with late := (items.drop room).map fun i => (q, i) }) u false

theorem rexFrame_ldqTaken (s : State) (u q room : Nat) (items : List (List Nat)) :
    rexFrame s (ldqTaken s u q room items) u :=
  rexFrame_trans (rexFrame_trans (rexFrame_pushItems s u q _) (rexFrame_modUnit _ u _)) (rexFrame_stepPc _ u _)

/-- The unit then: what found a place stands in the queue, the rest waits, and all else of it is as it was. -/
theorem unitOf_ldqTaken (s : State) (u q room : Nat) (items : List (List Nat)) :
    (unitOf (ldqTaken s u q room items) u).tiles = (unitOf s u).tiles ∧
    aqOf (unitOf (ldqTaken s u q room items) u) q = aqOf (unitOf s u) q ++ items.take room ∧
    (unitOf (ldqTaken s u q room items) u).late = (items.drop room).map (fun i => (q, i)) ∧
    ∀ k, k ≠ q → aqOf (unitOf (ldqTaken s u q room items) u) k = aqOf (unitOf s u) k := by
  rw [ldqTaken, unitOf_stepPc_same, unitOf_modUnit_same, unitOf_pushItems]
  exact ⟨rfl, aqOf_setAq_same _ _ _, rfl, fun k hk => aqOf_setAq_ne _ _ hk⟩

theorem exec_ldq_of_locked (hready : memReady s u 0x0A r x pc w) (hlocked : x.locked = true)
    (hlate : (unitOf s u).late = []) (hread : cmdRead r 4 s (effAddr s (unitOf s u) x w)
      (mRows w * rowBytes (mHalf w)) = .ok b v) (hcalm : calm v) :
    exec (.ldq u) s = .next (ldqTaken (loadCounted v r w b) u (mT w) (64 - (aqOf (unitOf s u) (mT w)).length)
      (memRows w b (mRows w))) := by
  have hload : loadRows s r w (effAddr s (unitOf s u) x w) 0 (mRows w) =
      .ok (memRows w b (mRows w)) (loadCounted v r w b) := loadRows_of_read (by simpa using hread)
  show execLdq u s = _
  refine (queueInstr_of_ok hready ?_).trans (congrArg _ (settle_of_rexFrame (rexFrame_ldqTaken _ u _ _ _)
    (calm_of_runsFrame (runsFrame_loadCounted v r w b) hcalm)))
  simp only [hlocked, hlate, List.isEmpty_nil, Bool.not_true, if_true, Bool.false_eq_true, if_false, hload]
  rfl

theorem exec_ldq_of_in_flight (hready : memReady s u 0x0A r x pc w) (hlocked : x.locked = true)
    (hlate : (unitOf s u).late ≠ []) : exec (.ldq u) s = .next s := by
  have hbusy : (unitOf s u).late.isEmpty = false := by simpa using hlate
  show execLdq u s = _
  refine queueInstr_of_wait hready ?_
  simp only [hlocked, hbusy, Bool.not_false, if_true]

theorem exec_ldq_of_room {n : Nat} (hready : memReady s u 0x0A r x pc w) (hstatic : x.locked = false)
    (hroom : (aqOf (unitOf s u) (mT w)).length < 64)
    (hn : n = min (64 - (aqOf (unitOf s u) (mT w)).length) (mRows w - (unitOf s u).acc.rows))
    (hread : cmdRead r 4 s (effAddr s (unitOf s u) x w + (unitOf s u).acc.rows * rowBytes (mHalf w))
      (n * rowBytes (mHalf w)) = .ok b v) :
    exec (.ldq u) s = .next (settle (passRows (pushItems (loadCounted v r w b) u (mT w) (memRows w b n)) u false n
      (mRows w))) := by
  have hload := loadRows_of_read hread
  have hcount : min (max 1 (64 - (aqOf (unitOf s u) (mT w)).length)) (mRows w - (unitOf s u).acc.rows) = n := by
    rw [hn, Nat.max_eq_right (by omega)]
  show execLdq u s = _
  refine queueInstr_of_ok hready ?_
  simp only [hstatic, Bool.false_eq_true, if_false, hcount, hload]
  exact if_neg (by omega)

theorem exec_ldq_of_full {n : Nat} {items : List (List Nat)} (hready : memReady s u 0x0A r x pc w)
    (hstatic : x.locked = false) (hfull : 64 ≤ (aqOf (unitOf s u) (mT w)).length)
    (hn : n = min 1 (mRows w - (unitOf s u).acc.rows))
    (hload : loadRows s r w (effAddr s (unitOf s u) x w) (unitOf s u).acc.rows n = .ok items v) :
    exec (.ldq u) s = .next (settle (pushSlip v u r x pc [mT w] [mT w] false)) := by
  have hcount : min (max 1 (64 - (aqOf (unitOf s u) (mT w)).length)) (mRows w - (unitOf s u).acc.rows) = n := by
    rw [hn, Nat.max_eq_left (by omega)]
  show execLdq u s = _
  refine queueInstr_of_ok hready ?_
  simp only [hstatic, Bool.false_eq_true, if_false, hcount, hload]
  exact if_pos (by omega)

/-- Rows that an LDQ on a static schedule has pushed. -/
theorem ldq_passes {n : Nat} (hready : memReady s u 0x0A r x pc w) (hstatic : x.locked = false)
    (hroom : (aqOf (unitOf s u) (mT w)).length < 64)
    (hn : n = min (64 - (aqOf (unitOf s u) (mT w)).length) (mRows w - (unitOf s u).acc.rows))
    (hread : cmdRead r 4 s (effAddr s (unitOf s u) x w + (unitOf s u).acc.rows * rowBytes (mHalf w))
      (n * rowBytes (mHalf w)) = .ok b v) (hcalm : calm v) :
    ∃ t, exec (.ldq u) s = .next t ∧ t.mem = v.mem ∧ (unitOf t u).tiles = (unitOf v u).tiles ∧
      aqOf (unitOf t u) (mT w) = aqOf (unitOf v u) (mT w) ++ memRows w b n ∧
      (n < mRows w - (unitOf s u).acc.rows →
        (unitOf t u).acc = { (unitOf v u).acc with rows := (unitOf v u).acc.rows + n }) ∧
      ∀ q, q ≠ mT w → aqOf (unitOf t u) q = aqOf (unitOf v u) q := by
  have hframe := runsFrame_loadCounted v r w b
  have hpush := rexFrame_pushItems (loadCounted v r w b) u (mT w) (memRows w b n)
  have hunit := unitOf_pushItems (loadCounted v r w b) u (mT w) (memRows w b n)
  rw [unitOf_of_runsFrame hframe] at hunit
  obtain ⟨f, hpass⟩ := passRows_shape (pushItems (loadCounted v r w b) u (mT w) (memRows w b n)) u false n (mRows w)
  have hall := rexFrame_trans hpush (hpass ▸ rexFrame_modUnit _ u _)
  refine ⟨_, (exec_ldq_of_room hready hstatic hroom hn hread).trans (congrArg _ (settle_of_rexFrame hall
    (calm_of_runsFrame hframe hcalm))), ?_, ?_, ?_, ?_, ?_⟩
  · rw [hall.1]
    exact hframe.mem
  · rw [hpass, unitOf_modUnit_same, tiles_setStr, hunit]
    rfl
  · rw [hpass, unitOf_modUnit_same, aqOf, aq_setStr, hunit]
    exact aqOf_setAq_same _ _ _
  · intro hmore
    have hrows : (unitOf s u).acc.rows = (unitOf v u).acc.rows := by
      rw [unitOf, unitOf, cmdRead_rex hread]
    have hacc : strOf (unitOf (pushItems (loadCounted v r w b) u (mT w) (memRows w b n)) u) false =
        (unitOf v u).acc := by rw [hunit]; rfl
    rw [passRows_of_more (by rw [hacc]; omega), unitOf_modUnit_same, hacc]
    rfl
  · intro q hq
    rw [hpass, unitOf_modUnit_same, aqOf, aq_setStr, hunit]
    exact aqOf_setAq_ne _ _ hq

theorem exec_stq_of_empty (hready : memReady s u 0x0B r x pc w) (hneed : (unitOf s u).acc.held.length < mRows w)
    (hempty : aqOf (unitOf s u) (mT w) = []) : exec (.stq u) s =
      if x.locked then .next s else .next (settle (rexSlip s u r x pc (mT w) 0 [] false)) := by
  have hsome : ¬ mRows w - (unitOf s u).acc.held.length = 0 := by omega
  show execStq u s = _
  split
  next hlocked =>
    refine queueInstr_of_wait hready ?_
    simp only [hempty, List.take_nil, if_neg hsome, List.isEmpty_nil, if_true, hlocked]
  next hstatic =>
    refine queueInstr_of_ok hready ?_
    simp only [hempty, List.take_nil, if_neg hsome, List.isEmpty_nil, if_true, hstatic, Bool.false_eq_true, if_false]

/-- An STQ that takes items from its queue: it waits for the rest, or stores its rows. -/
theorem exec_stq_of_items (hready : memReady s u 0x0B r x pc w)
    (harrived : (unitOf s u).arriving.contains (mT w) = false)
    {l : List (List Nat)} (hl : l = (aqOf (unitOf s u) (mT w)).take (mRows w - (unitOf s u).acc.held.length))
    (hsome : l ≠ []) :
    ((unitOf s u).acc.held.length + l.length < mRows w → exec (.stq u) s = .next (settle (stqTaken s u (mT w) l))) ∧
    ((unitOf s u).acc.held.length + l.length = mRows w → ∀ t,
      storeRows (stqTaken s u (mT w) l) u r x w (effAddr s (unitOf s u) x w) = .ok () t →
      exec (.stq u) s = .next (settle t)) := by
  have hneed : ¬ mRows w - (unitOf s u).acc.held.length = 0 := by
    intro hzero
    rw [hzero, List.take_zero] at hl
    exact hsome hl
  have hitems : l.isEmpty = false := by simpa using hsome
  constructor
  · intro hless
    show execStq u s = _
    refine queueInstr_of_ok hready ?_
    simp only [← hl, if_neg hneed, hitems, harrived, Bool.false_and, Bool.false_eq_true, if_false,
      if_pos (show l.length < mRows w - (unitOf s u).acc.held.length by omega)]
    rfl
  · intro hall t hstore
    show execStq u s = _
    refine queueInstr_of_ok hready ?_
    simp only [← hl, if_neg hneed, hitems, harrived, Bool.false_and, Bool.false_eq_true, if_false,
      if_neg (show ¬ l.length < mRows w - (unitOf s u).acc.held.length by omega)]
    exact hstore

theorem storeRows_of_write {u ea : Nat} (hwrite : cmdWrite s r ea
      ((unitOf s u).acc.held.map fun i => wordsRow (mHalf w) i).flatten = .ok () v) :
    storeRows s u r x w ea = .ok () (accDone (storeCounted v r w x ea
      ((unitOf s u).acc.held.map fun i => wordsRow (mHalf w) i).flatten) u []) := by
  simp only [storeRows, hwrite]
  rfl

theorem held_stqTaken (s : State) (u q : Nat) (l : List (List Nat)) :
    (unitOf (stqTaken s u q l) u).acc.held = (unitOf s u).acc.held ++ l := by
  rw [stqTaken, unitOf_modUnit_same, unitOf_modUnit_same]
  rfl

end

/-! ### Effect instructions (R446) -/

/-- The unit's state once an effect instruction has sent the request `data`. -/
def effectSent (s : State) (u r : Nat) (x : Run) (data : Nat) : State :=
  stepPc (landed (sendEffect s r x data) u []) u false

theorem effInstr_of_good {s : State} {u op r : Nat} {x : Run} {pc w : Nat} (h : issues s u false op r x pc w)
    (hroom : flightFull (unitOf s u) = false) {bad : Nat → Bool} {src : RexUnit → Run → Nat → Option Nat}
    {bits : Nat → Nat → Nat} (hbad : bad w = false) {va : Nat} (hva : (src (unitOf s u) x w).getD 0 = va)
    (halign : va % 64 = 0) {data : Nat} (hdata : bits w va = data) :
    effInstr s u op bad src bits = .next (settle (effectSent s u r x data)) := by
  simp only [effInstr, show issueAt s u false op = .go r x pc w from h, hroom, hbad, hva, halign, hdata, ne_eq,
    not_true, Bool.false_eq_true, if_false]
  rfl

section

variable {s : State} {u : Fin 128} {r : Nat} {x : Run} {pc w : Nat}

theorem exec_send_of_good {va : Nat} (h : issues s u false 0x10 r x pc w) (hroom : flightFull (unitOf s u) = false)
    (hreg : fld w 51 50 ≠ 3) (hva : va = (argOf s x (fld w 51 50) +
      64 * (fld w 33 20 + 1) * tget 0 (unitOf s u).acc.idx (fld w 49 48)) % 2 ^ 64) (halign : va % 64 = 0) :
    exec (.send u) s = .next (settle (effectSent s u r x (2 * 2 ^ 124 + 1 * 2 ^ 120 + fld w 47 34 * 2 ^ 106 +
      fld w 33 20 * 2 ^ 92 + fld w 19 4 * 2 ^ 76 + fld (va / 64) 41 0 * 2 ^ 34))) := by
  show execSend u s = _
  refine effInstr_of_good (va := va) h hroom ?_ ?_ halign ?_
  · exact beq_eq_false_iff_ne.mpr hreg
  · exact hva.symm
  · rfl

theorem exec_blendInstr_of_good {va : Nat} (h : issues s u false 0x11 r x pc w)
    (hroom : flightFull (unitOf s u) = false) (hreg : fld w 51 50 ≠ 3)
    (hva : va = (argOf s x (fld w 51 50) + 64 * fld w 19 0) % 2 ^ 64) (halign : va % 64 = 0) :
    exec (.blendInstr u) s = .next (settle (effectSent s u r x (3 * 2 ^ 124 + 1 * 2 ^ 120 +
      fld w 49 40 * 2 ^ 110 + fld w 39 28 * 2 ^ 98 + fld (va / 64) 41 0 * 2 ^ 56))) := by
  show execBlendInstr u s = _
  refine effInstr_of_good (va := va) h hroom ?_ ?_ halign ?_
  · exact beq_eq_false_iff_ne.mpr hreg
  · exact hva.symm
  · rfl

theorem exec_sig_of_operation (h : issues s u false 0x12 r x pc w) (hroom : flightFull (unitOf s u) = false)
    (hop : fld w 51 48 = 1 ∨ fld w 51 48 = 2 ∨ fld w 51 48 = 3) :
    exec (.sig u) s = .next (settle (effectSent s u r x (1 * 2 ^ 124 + fld w 51 48 * 2 ^ 120 +
      fld w 47 32 * 2 ^ 104 + fld w 31 16 * 2 ^ 88 + fld w 15 0 * 2 ^ 72))) := by
  show execSig u s = _
  refine effInstr_of_good h hroom (va := 0) ?_ rfl rfl ?_
  · obtain hop | hop | hop := hop <;> simp [hop]
  · rw [if_neg (by omega)]

theorem exec_sig_of_arrive (h : issues s u false 0x12 r x pc w) (hroom : flightFull (unitOf s u) = false)
    (hop : fld w 51 48 = 5) (hzero : fld w 15 1 = 0) :
    exec (.sig u) s = .next (settle (effectSent s u r x (1 * 2 ^ 124 + 5 * 2 ^ 120 +
      fld w 47 32 * 2 ^ 104 + fld w 31 16 * 2 ^ 88 + fld w 0 0 * 2 ^ 71))) := by
  show execSig u s = _
  refine effInstr_of_good h hroom (va := 0) ?_ rfl rfl ?_
  · simp [hop, hzero]
  · rw [hop, if_pos rfl]

end

/-- A request is counted with its command and goes to its field. -/
theorem sendEffect_queues {s : State} {r : Nat} {x : Run} {data : Nat} (hrun : runOf s r = some x)
    (hreqs : x.reqs + 1 < 65536) (hlo : fld data 127 124 ≠ 0) (hhi : fld data 127 124 < 6) :
    ∃ y, runOf (sendEffect s r x data) r = some y ∧ y.sent = x.sent + 1 ∧ y.reqs = x.reqs + 1 ∧
      (fieldOf (sendEffect s r x data) x.field).effQ = (fieldOf s x.field).effQ ++
        [{ run := r, eff := { unit := fld data 127 124, op := fld data 123 120, data := data } }] := by
  rw [sendEffect_of_unit hrun hreqs (by omega) (by omega)]
  exact ⟨_, (runOf_setField _ _ _ _).trans (runOf_setRun_same s r _), rfl, rfl, by rw [fieldOf_setField_same]⟩

/-! ### Statement -/

/-- Settles O51: each memory instruction that its checks let pass comes to its writes, rows or bytes, which its stream
makes as it moves on. -/
theorem accessStream : Obligations.AccessStream := by
  unfold Obligations.AccessStream
  refine ⟨fun c s v u op r x pc w hop hlo hhi h => ?_, fun s u r x op pc w hbad => if_pos hbad,
    fun s u r x op pc w hgood halign => ?_, fun s v u r x pc w b hready hread hcalm hlate => ?_,
    fun s v u r x pc w b hready hread hcalm hlate => ?_, fun s v u r x pc w hready hwrite hcalm => ?_,
    fun s t r va bs h => cmdWrite_outside h, fun s v u r x pc w b hready hlocked hlate hread hcalm => ?_,
    fun s v u r x pc w n b hready hstatic hroom _ hn hread hcalm =>
      ldq_passes hready hstatic hroom hn hread hcalm,
    fun s u r x pc w hready hlocked hlate => exec_ldq_of_in_flight hready hlocked hlate,
    fun s v u r x pc w n items hready hstatic hfull hn hload => exec_ldq_of_full hready hstatic hfull hn hload,
    fun s u r x pc w hready hneed hempty => exec_stq_of_empty hready hneed hempty,
    fun s u r x pc w l v hready harrived hl hsome hv => ?_, fun s u r x pc w hready harea hlate hcalm => ?_,
    fun s v u r x y pc w b hready harea hread hcalm hrun hdig halign hlen => ?_,
    fun s v u r x pc w b hready hread hcalm hlate => ?_, fun s v u r x pc w hready hwrite hcalm => ?_,
    fun s v u r x pc w b hready hread hcalm hlate => ?_,
    fun s u r x pc w va h hroom hreg hva halign => exec_send_of_good h hroom hreg hva halign,
    fun s u r x pc w va h hroom hreg hva halign => exec_blendInstr_of_good h hroom hreg hva halign,
    fun s u r x pc w h hroom hop => exec_sig_of_operation h hroom hop,
    fun s u r x pc w h hroom hop hzero => exec_sig_of_arrive h hroom hop hzero,
    fun s r x data hrun hreqs hlo hhi _ => sendEffect_queues hrun hreqs hlo hhi⟩
  · obtain ⟨hcheck, hfull, hpending⟩ := exec_memory_of_issues hop hlo hhi h
    exact ⟨hcheck v, hfull, hpending⟩
  · simp only [memCheck, hgood, Bool.false_eq_true, if_false, if_pos halign]
  · have hframe := runsFrame_loadCounted v r w b
    rw [← unitOf_of_runsFrame hframe] at hlate ⊢
    refine ⟨_, loadWrites w b, exec_ld_of_read hready hread hcalm, ?_⟩
    rw [unitOf_accDone_of_behind hlate]
    exact ⟨rfl, rfl, rfl⟩
  · have hframe := runsFrame_loadCounted v r w b
    have hlate' : (unitOf (loadCounted v r w b) u).late = [] := by rw [unitOf_of_runsFrame hframe, hlate]
    have hfiles := offFiles_landWrites (loadWrites w b) (unitOf v u)
    refine ⟨_, exec_ld_of_read hready hread hcalm, (mem_accDone _ u _).trans hframe.mem,
      fun k hk => ((rexFrame_accDone _ u _).2.2.2 k hk).trans (unitOf_of_runsFrame hframe k), ?_⟩
    rw [unitOf_accDone_of_free hlate', unitOf_of_runsFrame hframe]
    refine ⟨fun row col hrow hcol => tileWord_loadWrites b hrow hcol (unitOf v u),
      fun k i hk hi => tileWord_loadWrites_other b hk hi (unitOf v u), ?_, congrArg (fun y => y.aq) hfiles, rfl⟩
    refine accf_landWrites_tiles (fun e he => ?_) (unitOf v u)
    obtain ⟨row, col, -, -, rfl⟩ := mem_loadWrites.mp he
    exact ⟨_, _, _, rfl⟩
  · have hframe := runsFrame_storeCounted v r w x (effAddr s (unitOf s u) x w) (tileRows (unitOf s u) w)
    obtain ⟨htiles, -, hacc⟩ :=
      unitOf_accDone_nil (storeCounted v r w x (effAddr s (unitOf s u) x w) (tileRows (unitOf s u) w)) u
    rw [unitOf_of_runsFrame hframe] at htiles hacc
    rw [← tileRows] at hwrite
    exact ⟨_, exec_st_of_write hready hwrite hcalm, (mem_accDone _ u _).trans hframe.mem,
      fun k hk => ((rexFrame_accDone _ u _).2.2.2 k hk).trans (unitOf_of_runsFrame hframe k), htiles, hacc⟩
  · have hframe := runsFrame_loadCounted v r w b
    obtain ⟨htiles, hqueue, hrest, hother⟩ := unitOf_ldqTaken (loadCounted v r w b) u (mT w)
      (64 - (aqOf (unitOf s u) (mT w)).length) (memRows w b (mRows w))
    rw [unitOf_of_runsFrame hframe] at htiles hqueue hother
    have hmem : (ldqTaken (loadCounted v r w b) u (mT w) (64 - (aqOf (unitOf s u) (mT w)).length)
        (memRows w b (mRows w))).mem = (loadCounted v r w b).mem := by rw [(rexFrame_ldqTaken _ u _ _ _).1]
    exact ⟨_, exec_ldq_of_locked hready hlocked hlate hread hcalm, hmem.trans hframe.mem, htiles, hqueue,
      hrest, hother⟩
  · subst hv
    obtain ⟨hpart, hall⟩ := exec_stq_of_items hready harrived hl hsome
    refine ⟨hpart, fun hwhole v' hcalm hlate hwrite => ?_⟩
    rw [← held_stqTaken] at hwrite
    have hframe := runsFrame_storeCounted v' r w x (effAddr s (unitOf s u) x w)
      ((unitOf (stqTaken s u (mT w) l) u).acc.held.map fun i => wordsRow (mHalf w) i).flatten
    have hlate' := (congrArg RexUnit.late (unitOf_of_runsFrame hframe u)).trans hlate
    refine ⟨_, (hall hwhole _ (storeRows_of_write hwrite)).trans (congrArg _ (settle_of_rexFrame
      (rexFrame_accDone _ u []) (calm_of_runsFrame hframe hcalm))), (mem_accDone _ u _).trans hframe.mem, ?_⟩
    rw [unitOf_accDone_of_free hlate', unitOf_of_runsFrame hframe]
    exact ⟨rfl, rfl, rfl⟩
  · obtain ⟨htiles, -, hacc⟩ := unitOf_accDone_nil s u
    exact ⟨_, exec_dig_of_no_area hready harea hcalm, rexFrame_accDone s u [], htiles, hacc⟩
  · have hmem := (runsFrame_addDigest v r x (effAddr s (unitOf s u) x w) b).mem
    obtain ⟨z, hz, hdigest⟩ := digest_addDigest_of_blocks hrun hdig halign hlen
    exact ⟨_, z, exec_dig_of_read hready harea hread hcalm, (mem_accDone _ u _).trans hmem, hz, hdigest⟩
  · have hnone : ∀ e ∈ (List.range (mRows w)).map fun k => RexWrite.acc (mAcci w + k) (leAt b (8 * k) 8),
        ∀ t i v, e ≠ .tile t i v := by simp
    refine ⟨_, exec_accld_of_read hready hread hcalm, rfl, ?_⟩
    rw [unitOf_accDone_of_free hlate]
    have hacc := accOf_accldWrites (mAcci w) (mRows w) (fun k => leAt b (8 * k) 8) (unitOf v u)
    refine ⟨tiles_landWrites_accs hnone _, fun k hk => (hacc _).trans ?_,
      fun k hk => (hacc k).trans (if_neg (by omega))⟩
    rw [if_pos (by omega), Nat.add_sub_cancel_left]
  · have hframe := runsFrame_accCounted v r w x (effAddr s (unitOf s u) x w) (unitOf s u)
    obtain ⟨htiles, haccf, -⟩ :=
      unitOf_accDone_nil (accCounted v r w x (effAddr s (unitOf s u) x w) (unitOf s u)) u
    rw [unitOf_of_runsFrame hframe] at htiles haccf
    rw [← accRows, ← accBytes] at hwrite
    exact ⟨_, exec_accst_of_write hready hwrite hcalm, (mem_accDone _ u _).trans hframe.mem, htiles, haccf⟩
  · have hnone : ∀ e ∈ (List.range (mRows w)).map fun k =>
        RexWrite.add (mAcci w + k) (leAt b (8 * k) 8) (fmtOf (mFmt w)).isSome, ∀ t i v, e ≠ .tile t i v := by simp
    refine ⟨_, exec_accadd_of_read hready hread hcalm, rfl, ?_⟩
    rw [unitOf_accDone_of_free hlate]
    have hacc := accOf_accaddWrites (mAcci w) (mRows w) (fun k => leAt b (8 * k) 8) (fmtOf (mFmt w)).isSome
      (unitOf v u)
    refine ⟨tiles_landWrites_accs hnone _, fun k hk => (hacc _).trans ?_,
      fun k hk => (hacc k).trans (if_neg (by omega))⟩
    rw [if_pos (by omega), Nat.add_sub_cancel_left]

end Sys2Proof.Machine
end

section
/-! The execute stream of a REX unit: which rows pass, what is popped, and what results write (R428, R429, R438,
R450). -/

namespace Sys2Proof.Machine

open Sys2Proof

/-! ### Rows that the queues can serve -/

theorem foldl_min_of_le {α : Type} (g : α → Nat) (l : List α) (n : Nat) (h : ∀ a ∈ l, n ≤ g a) :
    l.foldl (fun n a => min n (g a)) n = n := by
  induction l with
  | nil => rfl
  | cons a l ih =>
    rw [List.foldl_cons, Nat.min_eq_left (h a List.mem_cons_self)]
    exact ih fun b hb => h b (List.mem_cons_of_mem _ hb)

theorem xRows_pos (w : Nat) : 0 < xRows w := Nat.succ_pos _

theorem xRows_le (w : Nat) : xRows w ≤ 64 := by
  have := fld_lt w 20 15
  simp only [xRows]
  omega

theorem readsArriving_of_none {y : RexUnit} (h : y.arriving = []) (codes : List Nat) (lo n : Nat) :
    readsArriving y codes lo n = none := by
  unfold readsArriving
  rw [List.find?_eq_none.mpr]
  · rfl
  · intro c _
    split
    · simp [h]
    · simp

/-- The queues to which an instruction pushes. -/
def pushQueues (k : Uses) (w : Nat) : List Nat := if k.d then dstQueues (xD w) else []

/-- The rows of an execute instruction that pass now. -/
def rowsPassing (y : RexUnit) (k : Uses) (w : Nat) : Rows := { lo := y.exe.rows, n := rowsNow y k w }

section

variable {s : State} {u op r : Nat} {x : Run} {pc w : Nat} {k : Uses} {bad : Nat → Bool}
  {go : State → Run → RexUnit → Nat → Rows → RexUnit}

theorem exeInstr_of_reserved (h : issues s u true op r x pc w) (hbad : codesBad k w = true ∨ bad w = true) :
    exeInstr s u op k bad go = .next (settle (progFault s u r x 3 pc 0)) := by
  simp only [exeInstr, show issueAt s u true op = .go r x pc w from h, Bool.or_eq_true, if_pos hbad]

variable (h : issues s u true op r x pc w) (hcodes : codesBad k w = false) (hgood : bad w = false)
include h hcodes hgood

theorem exeInstr_of_lacking {q : Nat} (hlack : lacking (unitOf s u) (usedCodes k w) (unitOf s u).exe.rows = some q) :
    exeInstr s u op k bad go = if x.locked then .next s
      else .next (settle (rexSlip s u r x pc q 0 (pushQueues k w) true)) := by
  simp only [exeInstr, show issueAt s u true op = .go r x pc w from h, hcodes, hgood, Bool.or_self, Bool.false_eq_true,
    if_false, hlack, pushQueues]

theorem exeInstr_of_full {q : Nat} {l : List Nat}
    (hlack : lacking (unitOf s u) (usedCodes k w) (unitOf s u).exe.rows = none)
    (hfull : ((pushQueues k w).filter fun q => decide (64 ≤ (aqOf (unitOf s u) q).length)) = q :: l) :
    exeInstr s u op k bad go = if x.locked then .next s
      else .next (settle (pushSlip s u r x pc (q :: l) (pushQueues k w) true)) := by
  rw [pushQueues] at hfull
  simp only [exeInstr, show issueAt s u true op = .go r x pc w from h, hcodes, hgood, Bool.or_self, Bool.false_eq_true,
    if_false, hlack, hfull, pushQueues]

/-- As many rows pass as the queues can serve. -/
theorem exeInstr_of_rows (hlack : lacking (unitOf s u) (usedCodes k w) (unitOf s u).exe.rows = none)
    (harrived : (unitOf s u).arriving = []) (hroom : ∀ q ∈ pushQueues k w, (aqOf (unitOf s u) q).length < 64) :
    exeInstr s u op k bad go = .next (passExe s u (unitOf s u)
      (go s x (unitOf s u) w (rowsPassing (unitOf s u) k w)) (usedCodes k w) (pushQueues k w) (xD w)
      (rowsPassing (unitOf s u) k w) (xRows w)) := by
  have hfull : ((pushQueues k w).filter fun q => decide (64 ≤ (aqOf (unitOf s u) q).length)) = [] :=
    List.filter_eq_nil_iff.mpr fun q hq => by
      have := hroom q hq
      simpa using this
  rw [pushQueues] at hfull
  simp only [exeInstr, show issueAt s u true op = .go r x pc w from h, hcodes, hgood, Bool.or_self, Bool.false_eq_true,
    if_false, hlack, hfull, readsArriving_of_none harrived, pushQueues]
  rfl

end

/-! ### An instruction whose rows all pass -/

theorem lacking_eq_none {y : RexUnit} {codes : List Nat} {lo : Nat} (h : ∀ c ∈ codes, srcRows y c lo ≠ some 0) :
    lacking y codes lo = none := by
  have hfind : (codes.find? fun c => srcRows y c lo == some 0) = none :=
    List.find?_eq_none.mpr fun c hc => by simpa using h c hc
  rw [lacking, hfind]
  rfl

section

variable {s : State} {u op r : Nat} {x : Run} {pc w : Nat} {k : Uses}

theorem srcRows_of_ready (h : exeReady s u op k r x pc w) {c n : Nat} (hc : c ∈ usedCodes k w)
    (hn : srcRows (unitOf s u) c 0 = some n) : xRows w ≤ n := by
  obtain ⟨-, -, -, -, -, -, -, hsrc, -⟩ := h
  rw [srcRows, Option.map_eq_some_iff] at hn
  obtain ⟨e, he, rfl⟩ := hn
  have := hsrc c hc e he
  simpa using this

theorem rowsPassing_of_ready (h : exeReady s u op k r x pc w) : rowsPassing (unitOf s u) k w = whole w := by
  obtain ⟨-, -, hrows, -, -, -, -, -, hdst⟩ := id h
  have hsources : ((usedCodes k w).filterMap fun c => srcRows (unitOf s u) c 0).foldl min (xRows w) = xRows w := by
    refine foldl_min_of_le id _ _ fun n hn => ?_
    obtain ⟨c, hc, hn⟩ := List.mem_filterMap.mp hn
    exact srcRows_of_ready h hc hn
  rw [rowsPassing, whole, rowsNow, hrows, Nat.sub_zero, hsources, foldl_min_of_le]
  intro q hq
  split at hq
  next hd =>
    have := hdst hd q hq
    omega
  next => cases hq

theorem exeInstr_of_ready (h : exeReady s u op k r x pc w) {bad : Nat → Bool} (hgood : bad w = false)
    (go : State → Run → RexUnit → Nat → Rows → RexUnit) :
    exeInstr s u op k bad go = .next (passExe s u (unitOf s u) (go s x (unitOf s u) w (whole w)) (usedCodes k w)
      (pushQueues k w) (xD w) (whole w) (xRows w)) := by
  obtain ⟨hissue, hcodes, hrows, -, -, -, harrived, -, hdst⟩ := id h
  rw [← rowsPassing_of_ready h]
  refine exeInstr_of_rows hissue hcodes hgood (lacking_eq_none fun c hc hzero => ?_) harrived fun q hq => ?_
  · rw [hrows] at hzero
    have := srcRows_of_ready h hc hzero
    have := xRows_pos w
    omega
  · rw [pushQueues] at hq
    split at hq
    next hd =>
      have := hdst hd q hq
      have := xRows_pos w
      omega
    next => cases hq

end

/-! ### Queues popped and pushed -/

/-- Each queue of a list without repetitions is changed once. -/
theorem aqOf_foldl_setAq {qs : List Nat} (hnodup : qs.Nodup) (g : List (List Nat) → List (List Nat)) (y : RexUnit)
    (q : Nat) : aqOf (qs.foldl (fun y q => setAq y q (g (aqOf y q))) y) q =
      if q ∈ qs then g (aqOf y q) else aqOf y q := by
  induction qs generalizing y with
  | nil => rfl
  | cons p qs ih =>
    obtain ⟨hp, hrest⟩ := List.nodup_cons.mp hnodup
    rw [List.foldl_cons, ih hrest]
    by_cases hq : q = p
    · subst hq
      rw [if_neg hp, if_pos List.mem_cons_self, aqOf_setAq_same]
    · rw [aqOf_setAq_ne _ _ hq]
      exact if_congr (by simp [hq]) rfl rfl

/-- Queues changed leave the rest of the unit. -/
theorem foldl_setAq_outside (qs : List Nat) (g : List (List Nat) → List (List Nat)) (y : RexUnit) :
    { qs.foldl (fun y q => setAq y q (g (aqOf y q))) y with aq := [] } = { y with aq := [] } :=
  foldl_fixes (fun y : RexUnit => { y with aq := [] }) (f := fun y q => setAq y q (g (aqOf y q))) qs
    (fun _ _ _ => rfl) y

theorem srcQueue_pops_iff {c q : Nat} : srcQueue c = some (q, true) ↔ c = 0x10 + q ∧ q < 2 := by
  simp only [srcQueue]
  split
  · simp; omega
  · split
    · simp; omega
    · split
      · simp; omega
      · split <;> simp <;> omega

/-- What a pop of `n` rows leaves in each queue. -/
theorem aqOf_popAll (y : RexUnit) (codes : List Nat) (n q : Nat) : aqOf (popAll y codes n) q =
    if 0x10 + q ∈ codes ∧ q < 2 then (aqOf y q).drop n else aqOf y q := by
  unfold popAll
  rw [aqOf_foldl_setAq (List.nodup_dedup _) (fun l => l.drop n)]
  refine if_congr ?_ rfl rfl
  rw [List.mem_dedup, List.mem_filterMap]
  constructor
  · rintro ⟨c, hc, hpop⟩
    split at hpop
    next q' hq' =>
      cases hpop
      obtain ⟨rfl, hlt⟩ := srcQueue_pops_iff.mp hq'
      exact ⟨hc, hlt⟩
    next => cases hpop
  · rintro ⟨hc, hlt⟩
    exact ⟨_, hc, by rw [srcQueue_pops_iff.mpr ⟨rfl, hlt⟩]⟩

theorem popAll_outside (y : RexUnit) (codes : List Nat) (n : Nat) :
    popAll y codes n = { y with aq := (popAll y codes n).aq } := by
  have h : { popAll y codes n with aq := [] } = { y with aq := [] } :=
    foldl_setAq_outside _ (fun l => l.drop n) y
  exact congrArg (fun z : RexUnit => { z with aq := (popAll y codes n).aq }) h

/-! ### What the passing rows leave -/

/-- `z` differs from `y` at most in tiles, ACC entries, the queues that the execute stream pushes to, and the counts of
random bits. -/
structure OnlyResults (y z : RexUnit) : Prop where
  rest : z = { y with tiles := z.tiles, accf := z.accf, aq := z.aq, lanes := z.lanes }
  queues : ∀ q, q < 2 → aqOf z q = aqOf y q

theorem OnlyResults.refl (y : RexUnit) : OnlyResults y y := ⟨rfl, fun _ _ => rfl⟩

theorem OnlyResults.trans {y z v : RexUnit} (h : OnlyResults y z) (h' : OnlyResults z v) : OnlyResults y v := by
  obtain ⟨hrest, hqueues⟩ := h
  obtain ⟨hrest', hqueues'⟩ := h'
  refine ⟨?_, fun q hq => (hqueues' q hq).trans (hqueues q hq)⟩
  rw [hrest', hrest]

theorem onlyResults_setTile (y : RexUnit) (t w v : Nat) : OnlyResults y (setTile y t w v) := ⟨rfl, fun _ _ => rfl⟩

theorem onlyResults_setAcc (y : RexUnit) (k v : Nat) : OnlyResults y (setAcc y k v) := ⟨rfl, fun _ _ => rfl⟩

theorem onlyResults_foldl {α : Type} {f : RexUnit → α → RexUnit} (l : List α)
    (h : ∀ y, ∀ a ∈ l, OnlyResults y (f y a)) (y : RexUnit) : OnlyResults y (l.foldl f y) := by
  induction l generalizing y with
  | nil => exact OnlyResults.refl y
  | cons a l ih =>
    exact (h y a List.mem_cons_self).trans (ih (fun z b hb => h z b (List.mem_cons_of_mem _ hb)) _)

/-- The queues of which a reader may meet words that have not arrived, after rows have passed. -/
def arrivingAfter (s : State) (u : Nat) (z : RexUnit) (qs : List Nat) : List Nat :=
  (z.arriving.filter fun q => decide (2 ≤ q) && !qs.contains q) ++ qs.filter fun q => cutsThrough s u q

theorem passExe_whole {s : State} {u : Nat} {z : RexUnit} (hlate : z.late = []) (hbehind : z.behind = [])
    (y : RexUnit) (codes qs : List Nat) (dst w : Nat) : passExe s u y z codes qs dst (whole w) (xRows w) =
      stepPc (setUnit s u { popAll z codes (xRows w) with
        late := [], behind := [], arriving := arrivingAfter s u (popAll z codes (xRows w)) qs }) u true := by
  have hall : ¬ (whole w).lo + (whole w).n < xRows w := by simp [whole]
  have hpop := popAll_outside z codes (xRows w)
  have hbehind' : (popAll z codes (xRows w)).behind = [] := by rw [hpop, hbehind]
  simp only [passExe, if_neg hall, hlate, takeLate]
  rw [show (whole w).n = xRows w from rfl, hbehind']
  exact passRows_of_all (by omega)

/-- The unit once all rows of an instruction have passed. -/
theorem unitOf_passExe_whole {s : State} {u : Nat} {z : RexUnit} (hlate : z.late = []) (hbehind : z.behind = [])
    (y : RexUnit) (codes qs : List Nat) (dst w : Nat) :
    unitOf (passExe s u y z codes qs dst (whole w) (xRows w)) u = { popAll z codes (xRows w) with
      late := [], behind := [], arriving := arrivingAfter s u (popAll z codes (xRows w)) qs
      exe := movedOn z.exe } := by
  rw [passExe_whole hlate hbehind, unitOf_stepPc_same, unitOf_setUnit_same, popAll_outside]
  rfl

theorem rexFrame_passExe_whole {s : State} {u : Nat} {z : RexUnit} (hlate : z.late = []) (hbehind : z.behind = [])
    (y : RexUnit) (codes qs : List Nat) (dst w : Nat) :
    rexFrame s (passExe s u y z codes qs dst (whole w) (xRows w)) u := by
  rw [passExe_whole hlate hbehind]
  exact rexFrame_trans (rexFrame_modUnit s u fun _ => _) (rexFrame_stepPc _ u true)

/-- What all rows of an instruction leave: its results, the stream's move, and the queues popped. -/
theorem leaves_passExe_whole {s : State} {u op r : Nat} {x : Run} {pc w : Nat} {k : Uses}
    (h : exeReady s u op k r x pc w)
    {z : RexUnit} (hz : OnlyResults (unitOf s u) z) (qs : List Nat) {t : State}
    (ht : passExe s u (unitOf s u) z (usedCodes k w) qs (xD w) (whole w) (xRows w) = t) :
    exeLeaves s t u k w ∧ (unitOf t u).tiles = z.tiles ∧ (unitOf t u).accf = z.accf ∧
      ∀ q, 2 ≤ q → aqOf (unitOf t u) q = aqOf z q := by
  obtain ⟨-, -, -, -, hlate, hbehind, -, -, -⟩ := h
  obtain ⟨hrest, hqueues⟩ := hz
  have hlate' : z.late = [] := by rw [hrest, hlate]
  have hbehind' : z.behind = [] := by rw [hrest, hbehind]
  have hunit := unitOf_passExe_whole (s := s) (u := u) hlate' hbehind' (unitOf s u) (usedCodes k w) qs (xD w) w
  rw [ht] at hunit
  have hpop := popAll_outside z (usedCodes k w) (xRows w)
  have hacc : (popAll z (usedCodes k w) (xRows w)).acc = z.acc := by rw [hpop]
  have htiles : (popAll z (usedCodes k w) (xRows w)).tiles = z.tiles := by rw [hpop]
  have haccf : (popAll z (usedCodes k w) (xRows w)).accf = z.accf := by rw [hpop]
  have hexe : (unitOf t u).exe = movedOn z.exe := by rw [hunit]
  have haq : ∀ q, aqOf (unitOf t u) q = aqOf (popAll z (usedCodes k w) (xRows w)) q := fun q => by rw [hunit]; rfl
  refine ⟨⟨ht ▸ rexFrame_passExe_whole hlate' hbehind' _ _ _ _ _, ?_, ?_, fun q hq => ?_⟩, ?_, ?_, fun q hq => ?_⟩
  · rw [hunit]
    exact hacc.trans (by rw [hrest])
  · rw [hexe, hrest]
  · rw [haq, aqOf_popAll, hqueues q hq]
    exact if_congr (by simp [hq]) rfl rfl
  · rw [hunit]
    exact htiles
  · rw [hunit]
    exact haccf
  · rw [haq, aqOf_popAll, if_neg (by omega)]

theorem accOf_of_accf {y z : RexUnit} (h : y.accf = z.accf) (k : Nat) : accOf y k = accOf z k := by
  rw [accOf, h, accOf]

theorem tileWord_of_tiles {y z : RexUnit} (h : y.tiles = z.tiles) (t i : Nat) : tileWord y t i = tileWord z t i := by
  rw [tileWord, h, tileWord]

/-! ### Elements written to a tile -/

theorem fld_setFld_self (v hi lo x : Nat) (h : lo ≤ hi + 1) :
    fld (setFld v hi lo x) hi lo = x % 2 ^ (hi + 1 - lo) := by
  refine Nat.eq_of_testBit_eq fun i => ?_
  rw [fld_testBit, testBit_setFld _ _ _ _ _ h, Nat.testBit_mod_two_pow]
  by_cases hi' : i < hi + 1 - lo
  · rw [if_pos (by omega), Nat.add_sub_cancel]
  · simp [hi']

theorem dstQueues_of_tile {c : Nat} (h : c < 16) : dstQueues c = [] := by
  rw [dstQueues, if_neg (by omega), if_neg (by omega), if_neg (by omega)]

theorem dstQueues_nodup (c : Nat) : (dstQueues c).Nodup := by
  unfold dstQueues
  split
  · decide
  · split
    · decide
    · split <;> decide

theorem two_le_of_mem_dstQueues {c q : Nat} (h : q ∈ dstQueues c) : 2 ≤ q := by
  unfold dstQueues at h
  split at h
  · simp at h; omega
  · split at h
    · simp at h; omega
    · split at h
      · simp at h; omega
      · cases h

/-- An element, as word, place and value, written to a tile. -/
def putElem (dst width : Nat) (y : RexUnit) (e : Nat × Nat × Nat) : RexUnit :=
  setTile y dst e.1 (setFld (tileWord y dst e.1) (width * e.2.1 + width - 1) (width * e.2.1) e.2.2)

theorem writeElems_of_no_queue {dst : Nat} (h : dstQueues dst = []) (y : RexUnit) (k : Rows) (width : Nat)
    (fill : Nat → Nat)
    (l : List (Nat × Nat × Nat)) : writeElems y dst k width fill l = l.foldl (putElem dst width) y := by
  rw [writeElems, h]
  rfl

theorem onlyResults_putElems (dst width : Nat) (l : List (Nat × Nat × Nat)) (y : RexUnit) :
    OnlyResults y (l.foldl (putElem dst width) y) := onlyResults_foldl l (fun y _ _ => onlyResults_setTile y _ _ _) y

theorem accf_putElems (dst width : Nat) (l : List (Nat × Nat × Nat)) (y : RexUnit) :
    (l.foldl (putElem dst width) y).accf = y.accf :=
  foldl_fixes (fun y => y.accf) (f := putElem dst width) l (fun _ _ _ => rfl) y

/-- Each element stands at its place, where no other is written to it. -/
theorem fld_putElems {dst width : Nat} (hwidth : 0 < width) {l : List (Nat × Nat × Nat)} {e : Nat × Nat × Nat}
    (he : e ∈ l) (hone : ∀ b ∈ l, b.1 = e.1 → b.2.1 = e.2.1 → b.2.2 = e.2.2) (y : RexUnit) :
    fld (tileWord (l.foldl (putElem dst width) y) dst e.1) (width * e.2.1 + width - 1) (width * e.2.1) =
      e.2.2 % 2 ^ width := by
  have hsize : width * e.2.1 + width - 1 + 1 - width * e.2.1 = width := by omega
  have hset : ∀ y, fld (tileWord (putElem dst width y e) dst e.1) (width * e.2.1 + width - 1) (width * e.2.1) =
      e.2.2 % 2 ^ width := by
    intro y
    rw [putElem, tileWord_setTile_same, fld_setFld_self _ _ _ _ (by omega), hsize]
  refine foldl_sets (fun y => fld (tileWord y dst e.1) (width * e.2.1 + width - 1) (width * e.2.1)) he hset ?_ y
  intro y b hb
  obtain ⟨i, j, v⟩ := e
  obtain ⟨i', j', v'⟩ := b
  by_cases hi : i' = i
  · by_cases hj : j' = j
    · have hv : v' = v := hone _ hb hi hj
      subst hi hj hv
      exact .inl (hset y)
    · refine .inr ?_
      have hapart : width * j' + width ≤ width * j ∨ width * j + width ≤ width * j' := by
        obtain hlt | hlt := Nat.lt_or_gt_of_ne hj
        · exact .inl (Nat.mul_le_mul_left width hlt)
        · exact .inr (Nat.mul_le_mul_left width hlt)
      simp only [putElem, hi, tileWord_setTile_same]
      exact fld_setFld_outside _ _ (by omega) (by omega)
  · refine .inr ?_
    simp only [putElem]
    rw [tileWord_setTile_ne y _ (by omega)]

theorem tileWord_putElems_other {dst width k i : Nat} {l : List (Nat × Nat × Nat)}
    (h : ∀ e ∈ l, k * 4096 + i ≠ dst * 4096 + e.1) (y : RexUnit) :
    tileWord (l.foldl (putElem dst width) y) k i = tileWord y k i :=
  foldl_fixes (fun y => tileWord y k i) l (fun y e he => tileWord_setTile_ne y _ (h e he)) y

/-! ### Rows pushed -/

/-- The words of elements, over what they are filled with. -/
def elemWords (k : Rows) (width : Nat) (fill : Nat → Nat) (l : List (Nat × Nat × Nat)) : Table Nat :=
  l.foldl (fun t e => tput t e.1 (setFld (tget 0 t e.1) (width * e.2.1 + width - 1) (width * e.2.1) e.2.2))
    (k.words.foldl (fun t i => if fill i = 0 then t else tput t i (fill i)) [])

/-- The rows that elements come to. -/
def elemRows (k : Rows) (t : Table Nat) : List (List Nat) :=
  (rangeFrom k.lo k.n).map fun r => (List.range 64).map fun c => tget 0 t (64 * r + c)

theorem length_elemRows (k : Rows) (t : Table Nat) : (elemRows k t).length = k.n := by
  rw [elemRows, List.length_map, length_rangeFrom]

theorem writeElems_of_queues {dst : Nat} (h : dstQueues dst ≠ []) (y : RexUnit) (k : Rows) (width : Nat)
    (fill : Nat → Nat) (l : List (Nat × Nat × Nat)) : writeElems y dst k width fill l =
      (dstQueues dst).foldl (fun y q => setAq y q (aqOf y q ++ elemRows k (elemWords k width fill l))) y := by
  have hsome : (dstQueues dst).isEmpty = false := by simpa using h
  rw [writeElems, hsome, if_neg Bool.false_ne_true]
  rfl

theorem onlyResults_push (dst : Nat) (items : List (List Nat)) (y : RexUnit) :
    OnlyResults y ((dstQueues dst).foldl (fun y q => setAq y q (aqOf y q ++ items)) y) := by
  refine ⟨?_, fun q hq => ?_⟩
  · have hout := foldl_setAq_outside (dstQueues dst) (fun l => l ++ items) y
    generalize (dstQueues dst).foldl (fun y q => setAq y q (aqOf y q ++ items)) y = z at hout
    obtain ⟨⟩ := z
    simp only [RexUnit.mk.injEq] at hout ⊢
    simp only [hout, and_self]
  · rw [aqOf_foldl_setAq (dstQueues_nodup dst) (fun l => l ++ items), if_neg]
    intro hmem
    have := two_le_of_mem_dstQueues hmem
    omega

/-- Rows pushed stand at the end of their queues, and the tiles and ACC entries are as they were. -/
theorem pushed_writeElems {dst : Nat} (h : dstQueues dst ≠ []) (y : RexUnit) (k : Rows) (width : Nat)
    (fill : Nat → Nat) (l : List (Nat × Nat × Nat)) : OnlyResults y (writeElems y dst k width fill l) ∧
      (writeElems y dst k width fill l).tiles = y.tiles ∧ (writeElems y dst k width fill l).accf = y.accf ∧
      ∀ q ∈ dstQueues dst,
        aqOf (writeElems y dst k width fill l) q = aqOf y q ++ elemRows k (elemWords k width fill l) := by
  rw [writeElems_of_queues h]
  refine ⟨onlyResults_push dst _ y, ?_, ?_, fun q hq => ?_⟩
  · exact foldl_fixes (fun y => y.tiles)
      (f := fun y q => setAq y q (aqOf y q ++ elemRows k (elemWords k width fill l))) _ (fun _ _ _ => rfl) y
  · exact foldl_fixes (fun y => y.accf)
      (f := fun y q => setAq y q (aqOf y q ++ elemRows k (elemWords k width fill l))) _ (fun _ _ _ => rfl) y
  · rw [aqOf_foldl_setAq (dstQueues_nodup dst) fun l' => l' ++ elemRows k (elemWords k width fill l), if_pos hq]

/-! ### Rounding -/

/-- An element rounded to nearest even. -/
def Elem.plain (code : Nat) (e : Elem) : Nat × Nat × Nat := (e.word, e.place, roundRes code none e.res)

theorem roundAll_of_plain (vint task code : Nat) (l : List Elem) (lanes : Table Nat) :
    roundAll vint task code false l lanes = (l.map (Elem.plain code), lanes) := by
  induction l with
  | nil => rfl
  | cons e l ih =>
    rw [roundAll, if_neg Bool.false_ne_true, ih]
    rfl

theorem putResults_of_plain {w : Nat} (hrnd : xRnd w = false) (s : State) (x : Run) (y : RexUnit) (k : Rows)
    (code width : Nat) (fill : Nat → Nat) (l : List Elem) : putResults s x y w k code width fill l =
      writeElems y (xD w) k width fill (l.map (Elem.plain code)) := by
  simp only [putResults, hrnd, roundAll_of_plain]

theorem putResults_of_tile {w : Nat} (hrnd : xRnd w = false) (hdst : xD w < 16) (s : State) (x : Run) (y : RexUnit)
    (k : Rows) (code width : Nat) (fill : Nat → Nat) (l : List Elem) : putResults s x y w k code width fill l =
      (l.map (Elem.plain code)).foldl (putElem (xD w) width) y :=
  (putResults_of_plain hrnd s x y k code width fill l).trans
    (writeElems_of_no_queue (dstQueues_of_tile hdst) y k width fill _)

section

variable {s : State} {x : Run} {y : RexUnit} {w : Nat} {k : Rows} {code width : Nat} {fill : Nat → Nat} {l : List Elem}
  (hrnd : xRnd w = false) (hdst : xD w < 16)
include hrnd hdst

theorem onlyResults_putResults : OnlyResults y (putResults s x y w k code width fill l) := by
  rw [putResults_of_tile hrnd hdst]
  exact onlyResults_putElems _ _ _ y

/-- Results written to a tile stand rounded at their places. -/
theorem fld_putResults (hwidth : 0 < width) {e : Elem} (he : e ∈ l)
    (hone : ∀ b ∈ l, b.word = e.word → b.place = e.place → b.res = e.res) :
    fld (tileWord (putResults s x y w k code width fill l) (xD w) e.word) (width * e.place + width - 1)
      (width * e.place) = roundRes code none e.res % 2 ^ width := by
  rw [putResults_of_tile hrnd hdst]
  refine fld_putElems hwidth (List.mem_map_of_mem he) (fun b hb hi hj => ?_) y
  obtain ⟨b', hb', rfl⟩ := List.mem_map.mp hb
  exact congrArg (roundRes code none) (hone b' hb' hi hj)

theorem tileWord_putResults_other {d i : Nat} (h : ∀ e ∈ l, d * 4096 + i ≠ xD w * 4096 + e.word) :
    tileWord (putResults s x y w k code width fill l) d i = tileWord y d i := by
  rw [putResults_of_tile hrnd hdst]
  refine tileWord_putElems_other (fun e he => ?_) y
  obtain ⟨e', he', rfl⟩ := List.mem_map.mp he
  exact h e' he'

end

/-- Results leave the ACC entries. -/
theorem accf_putResults (s : State) (x : Run) (y : RexUnit) (w : Nat) (k : Rows) (code width : Nat) (fill : Nat → Nat)
    (l : List Elem) : (putResults s x y w k code width fill l).accf = y.accf := by
  let rounded := roundAll x.vint (rndTask s x) code (xRnd w) l y.lanes
  have h : (writeElems { y with lanes := rounded.2 } (xD w) k width fill rounded.1).accf = y.accf := by
    by_cases hqueue : dstQueues (xD w) = []
    · rw [writeElems_of_no_queue hqueue]
      exact accf_putElems _ _ _ _
    · exact (pushed_writeElems hqueue _ _ _ _ _).2.2.1
  exact h

end Sys2Proof.Machine
end

section
/-! Element-wise arithmetic of a REX unit (R393-R396, R438-R440). -/

namespace Sys2Proof.Machine

open Sys2Proof

/-! ### Operand codes -/

theorem xA_ne_acc {k : Uses} {w : Nat} (ha : k.a = true) (h : codesBad k w = false) : xA w ≠ 0x18 := by
  intro hacc
  have hmem : xA w ∈ usedCodes k w := by simp [usedCodes, ha]
  simp only [codesBad, Bool.or_eq_false_iff, List.any_eq_false] at h
  have := h.1.1.1 _ hmem
  rw [hacc] at this
  exact this (by decide)

theorem xC_ne_acc {k : Uses} {w : Nat} (hc : k.c = true) (h : codesBad k w = false) : xC w ≠ 0x18 := by
  intro hacc
  have hmem : xC w ∈ usedCodes k w := by simp [usedCodes, hc]
  simp only [codesBad, Bool.or_eq_false_iff, List.any_eq_false] at h
  have := h.1.1.1 _ hmem
  rw [hacc] at this
  exact this (by decide)

theorem dstQueues_ne_nil {k : Uses} {w : Nat} (hd : k.d = true) (h : codesBad k w = false) (hqueue : 16 ≤ xD w) :
    dstQueues (xD w) ≠ [] := by
  simp only [codesBad, Bool.or_eq_false_iff, hd, Bool.true_and, Bool.not_eq_false', dstOkCode, Bool.or_eq_true,
    Bool.and_eq_true, decide_eq_true_eq] at h
  have hcode : xD w = 0x14 ∨ xD w = 0x15 ∨ xD w = 0x16 := by omega
  obtain hcode | hcode | hcode := hcode <;> rw [hcode] <;> decide

/-! ### Elements -/

theorem fmtBits_cases (code : Nat) : fmtBits code = 8 ∨ fmtBits code = 16 ∨ fmtBits code = 32 := by
  unfold fmtBits
  split
  · exact .inr (.inr rfl)
  · split
    · exact .inr (.inl rfl)
    · exact .inl rfl

theorem fmtBits_pos (code : Nat) : 0 < fmtBits code := by
  have := fmtBits_cases code
  omega

theorem wordElems_zero (code j : Nat) : (wordElems code 0).getD j 0 = 0 := by
  rw [wordElems, List.getD_eq_getElem?_getD, List.getElem?_map]
  cases (List.range (32 / fmtBits code))[j]? with
  | none => rfl
  | some j => simp [fld]

theorem mem_words_whole {w i : Nat} : i ∈ (whole w).words ↔ i < 64 * xRows w := by
  simp [Rows.words, whole, rangeFrom_eq_map]

/-- The result of an element-wise function at element `j` of word `i`. -/
def elemAt (y : RexUnit) (w : Nat) (k : Uses) (rows : Rows) (f : FV → FV → FV → FV) (i j : Nat) : Elem where
  word := i
  place := j
  res := .val (f (elemVal (xFmt w) ((wordElems (xFmt w) (if k.a then srcAt y (xA w) rows i else 0)).getD j 0))
    (if k.b && xB w == 0x18 then accVal (xFmt w) (accOf y (xAcci w)) else elemVal (xFmt w)
      ((wordElems (xFmt w) (if k.b && !(k.b && xB w == 0x18) then srcAt y (xB w) rows i else 0)).getD j 0))
    (elemVal (xFmt w) ((wordElems (xFmt w) (if k.c then srcAt y (xC w) rows i else 0)).getD j 0)))

theorem mem_mapElems {y : RexUnit} {w : Nat} {k : Uses} {rows : Rows} {f : FV → FV → FV → FV} {e : Elem} :
    e ∈ mapElems y w k rows f ↔ ∃ i ∈ rows.words, ∃ j, j < 32 / fmtBits (xFmt w) ∧ e = elemAt y w k rows f i j := by
  show e ∈ rows.words.flatMap (fun i => (List.range (32 / fmtBits (xFmt w))).map (elemAt y w k rows f i)) ↔ _
  simp only [List.mem_flatMap, List.mem_map, List.mem_range, eq_comm]

/-- The operands of an element: a tile word, a queue's front rows, or the ACC entry. -/
theorem res_elemAt {k : Uses} {w : Nat} (ha : k.a = true) (h : codesBad k w = false) (y : RexUnit)
    (f : FV → FV → FV → FV) (i j : Nat) : (elemAt y w k (whole w) f i j).res = .val (f (operandValue y w (xA w) i j)
      (if k.b then operandValue y w (xB w) i j else elemVal (xFmt w) 0)
      (if k.c then operandValue y w (xC w) i j else elemVal (xFmt w) 0)) := by
  have hb : (if k.b && xB w == 0x18 then accVal (xFmt w) (accOf y (xAcci w)) else elemVal (xFmt w) ((wordElems (xFmt w)
      (if k.b && !(k.b && xB w == 0x18) then srcAt y (xB w) (whole w) i else 0)).getD j 0)) =
      if k.b then operandValue y w (xB w) i j else elemVal (xFmt w) 0 := by
    cases hkb : k.b
    · simp only [Bool.false_and, Bool.false_eq_true, if_false, wordElems_zero]
    · by_cases hacc : xB w = 0x18 <;> simp [operandValue, hacc]
  have hc : elemVal (xFmt w) ((wordElems (xFmt w) (if k.c then srcAt y (xC w) (whole w) i else 0)).getD j 0) =
      if k.c then operandValue y w (xC w) i j else elemVal (xFmt w) 0 := by
    cases hkc : k.c
    · simp only [Bool.false_eq_true, if_false, wordElems_zero]
    · simp only [if_true, operandValue, if_neg (xC_ne_acc hkc h)]
  simp only [elemAt, hb, hc, ha, if_true, operandValue, if_neg (xA_ne_acc ha h)]

/-! ### The element-wise instructions -/

/-- Reserved encodings of an element-wise instruction besides those of its operand codes. -/
def elemBad (ints rounds : Bool) (w : Nat) : Bool :=
  decide (3 < xFmt w) || (xFmt w == 3 && !ints) || (xRnd w && (!rounds || xFmt w == 3))

theorem elemBad_of_good {ints rounds : Bool} {w : Nat} (hfmt : xFmt w ≤ 3)
    (hint : xFmt w = 3 → ints = true ∧ xRnd w = false) (hrnd : xRnd w = true → rounds = true) :
    elemBad ints rounds w = false := by
  have hlow : decide (3 < xFmt w) = false := decide_eq_false (Nat.not_lt.mpr hfmt)
  by_cases h3 : xFmt w = 3
  · obtain ⟨hi, hr⟩ := hint h3
    simp [elemBad, hlow, hi, hr]
  · cases hr : xRnd w
    · simp [elemBad, hlow, h3, hr]
    · simp [elemBad, hlow, h3, hr, hrnd hr]

theorem elemBad_of_float {w : Nat} (ints rounds : Bool) (hfmt : xFmt w < 3) (hrnd : xRnd w = false) :
    elemBad ints rounds w = false :=
  elemBad_of_good (Nat.le_of_lt hfmt) (fun h3 => absurd h3 (Nat.ne_of_lt hfmt))
    fun hr => absurd (hrnd.symm.trans hr) Bool.false_ne_true

/-- The unit with an element-wise instruction's results for the rows that pass. -/
def elemResults (s : State) (x : Run) (y : RexUnit) (w : Nat) (k : Uses) (f : FV → FV → FV → FV) (rows : Rows) :
    RexUnit :=
  putResults s x y w rows (xFmt w) (fmtBits (xFmt w)) (fun _ => 0) (mapElems y w k rows f)

theorem elemInstr_eq (s : State) (u op : Nat) (k : Uses) (ints rounds : Bool) (f : FV → FV → FV → FV) :
    elemInstr s u op k ints rounds f =
      exeInstr s u op k (elemBad ints rounds) fun s x y w rows => elemResults s x y w k f rows := rfl

theorem exec_elemOp {c : Instr} {u : Fin 128} {op : Nat} {k : Uses} {ints rounds : Bool} {f : FV → FV → FV → FV}
    (h : elemOp c = some (u, op, k, ints, rounds, f)) :
    (∀ s, exec c s = elemInstr s u op k ints rounds f) ∧ k.a = true ∧ k.d = true := by
  unfold elemOp at h
  split at h <;> cases h
  all_goals exact ⟨fun s => by simp only [exec, execAdd, execSub, execMul, execFma, execMin, execMax, execAbs, execNeg,
    execRcp, execRsq, execSqrt], rfl, rfl⟩

section

variable {s : State} {u op r : Nat} {x : Run} {pc w : Nat} {k : Uses} {f : FV → FV → FV → FV}

/-- The element-wise results in a tile: each element is the rounded function of its operands, and the rest of the tiles
is as it was. -/
theorem elemResults_tile (ha : k.a = true) (hcodes : codesBad k w = false) (hrnd : xRnd w = false) (hdst : xD w < 16)
    (y : RexUnit) : OnlyResults y (elemResults s x y w k f (whole w)) ∧
      (elemResults s x y w k f (whole w)).accf = y.accf ∧
      (∀ i j, i < 64 * xRows w → j < 32 / fmtBits (xFmt w) →
        fld (tileWord (elemResults s x y w k f (whole w)) (xD w) i)
          (fmtBits (xFmt w) * j + fmtBits (xFmt w) - 1) (fmtBits (xFmt w) * j) =
        roundRes (xFmt w) none (.val (f (operandValue y w (xA w) i j)
          (if k.b then operandValue y w (xB w) i j else elemVal (xFmt w) 0)
          (if k.c then operandValue y w (xC w) i j else elemVal (xFmt w) 0))) % 2 ^ fmtBits (xFmt w)) ∧
      (∀ d i, d ≠ xD w → i < 4096 → tileWord (elemResults s x y w k f (whole w)) d i = tileWord y d i) ∧
      (∀ i, 64 * xRows w ≤ i → i < 4096 →
        tileWord (elemResults s x y w k f (whole w)) (xD w) i = tileWord y (xD w) i) := by
  have hword : ∀ e ∈ mapElems y w k (whole w) f, e.word < 64 * xRows w := by
    intro e he
    obtain ⟨i, hi, j, -, rfl⟩ := mem_mapElems.mp he
    exact mem_words_whole.mp hi
  have hrows := xRows_le w
  refine ⟨onlyResults_putResults hrnd hdst, accf_putResults _ _ _ _ _ _ _ _ _, fun i j hi hj => ?_,
    fun d i hd hi => ?_, fun i hlo hi => ?_⟩
  · rw [← res_elemAt ha hcodes]
    refine fld_putResults (e := elemAt y w k (whole w) f i j) hrnd hdst (fmtBits_pos _)
      (mem_mapElems.mpr ⟨i, mem_words_whole.mpr hi, j, hj, rfl⟩) fun b hb hi' hj' => ?_
    obtain ⟨i', -, j', -, rfl⟩ := mem_mapElems.mp hb
    have hi' : i' = i := hi'
    have hj' : j' = j := hj'
    rw [hi', hj']
  · exact tileWord_putResults_other hrnd hdst fun e he => by have := hword e he; omega
  · exact tileWord_putResults_other hrnd hdst fun e he => by have := hword e he; omega

/-- The element-wise results in queues: whole rows are pushed. -/
theorem elemResults_queues (hd : k.d = true) (hcodes : codesBad k w = false) (hdst : 16 ≤ xD w) (y : RexUnit) :
    OnlyResults y (elemResults s x y w k f (whole w)) ∧ (elemResults s x y w k f (whole w)).tiles = y.tiles ∧
      ∀ q ∈ dstQueues (xD w), ∃ items, aqOf (elemResults s x y w k f (whole w)) q = aqOf y q ++ items ∧
        items.length = xRows w := by
  let rounded := roundAll x.vint (rndTask s x) (xFmt w) (xRnd w) (mapElems y w k (whole w) f) y.lanes
  have hlanes : OnlyResults y { y with lanes := rounded.2 } := ⟨rfl, fun _ _ => rfl⟩
  obtain ⟨honly, htiles, -, hpush⟩ := pushed_writeElems (dstQueues_ne_nil hd hcodes hdst)
    { y with lanes := rounded.2 } (whole w) (fmtBits (xFmt w)) (fun _ => 0) rounded.1
  exact ⟨hlanes.trans honly, htiles, fun q hq => ⟨_, hpush q hq, length_elemRows _ _⟩⟩

end

/-- Settles O52: the rows that the queues can serve pass with their elements' rounded results, and nothing else of the
unit changes. -/
theorem elementWise : Obligations.ElementWise := by
  unfold Obligations.ElementWise
  intro c s u op k ints rounds f r x pc w hop
  obtain ⟨hexec, ha, hd⟩ := exec_elemOp hop
  have hqs : pushQueues k w = dstQueues (xD w) := if_pos hd
  refine ⟨fun hready hfmt hint hrounds => ?_, fun h hbad => ?_, fun h hcodes hfmt hrnd hlack harrived hroom => ?_,
    fun q h hcodes hfmt hrnd hlack => ?_, fun q l h hcodes hfmt hrnd hlack hfull => ?_⟩
  · have hcodes := hready.2.1
    have hpass := exeInstr_of_ready hready (elemBad_of_good hfmt hint hrounds)
      fun s x y w rows => elemResults s x y w k f rows
    rw [hqs, ← elemInstr_eq, ← hexec] at hpass
    refine ⟨hpass, fun hrnd hdst => ?_, fun hdst => ?_⟩
    · obtain ⟨honly, haccf, helems, hother, hrest⟩ :=
        elemResults_tile (s := s) (x := x) (f := f) ha hcodes hrnd hdst (unitOf s u)
      obtain ⟨hleaves, htiles, haccf', -⟩ := leaves_passExe_whole hready honly (dstQueues (xD w)) rfl
      simp only [← tileWord_of_tiles htiles] at helems hother hrest
      exact ⟨_, hpass, hleaves, haccf'.trans haccf, helems, hother, hrest⟩
    · obtain ⟨honly, htiles, hpush⟩ := elemResults_queues (s := s) (x := x) (f := f) hd hcodes hdst (unitOf s u)
      obtain ⟨hleaves, htiles', -, hqueues⟩ := leaves_passExe_whole hready honly (dstQueues (xD w)) rfl
      refine ⟨_, hpass, hleaves, htiles'.trans htiles, fun q hq => ?_⟩
      obtain ⟨items, hitems, hlen⟩ := hpush q hq
      exact ⟨items, (hqueues q (two_le_of_mem_dstQueues hq)).trans hitems, hlen⟩
  · rw [hexec, elemInstr_eq]
    exact exeInstr_of_reserved h (hbad.imp_right fun hfmt => by simp [elemBad, hfmt])
  · rw [hexec, elemInstr_eq, ← hqs]
    exact exeInstr_of_rows h hcodes (elemBad_of_float ints rounds hfmt hrnd) hlack harrived (hqs ▸ hroom)
  · rw [hexec, elemInstr_eq, ← hqs]
    exact exeInstr_of_lacking h hcodes (elemBad_of_float ints rounds hfmt hrnd) hlack
  · rw [hexec, elemInstr_eq, ← hqs]
    exact exeInstr_of_full h hcodes (elemBad_of_float ints rounds hfmt hrnd) hlack (hqs ▸ hfull)

end Sys2Proof.Machine
end

section
/-! Moves, conversions, reductions, scans and accumulator moves of a REX unit (R438, R441-R445). -/

namespace Sys2Proof.Machine

open Sys2Proof

theorem rangeFrom_zero (n : Nat) : rangeFrom 0 n = List.range n := by
  rw [rangeFrom_eq_map]
  exact (List.map_congr_left fun k _ => Nat.zero_add k).trans (List.map_id' _)

theorem words_whole (w : Nat) : (whole w).words = List.range (64 * xRows w) := rangeFrom_zero _

/-! ### MOV (R438) -/

/-- The words that MOV copies. -/
def movWords (y : RexUnit) (w : Nat) : List (Nat × Nat × Nat) :=
  (whole w).words.map fun i => (i, 0, srcAt y (xA w) (whole w) i)

theorem mem_movWords {y : RexUnit} {w : Nat} {e : Nat × Nat × Nat} :
    e ∈ movWords y w ↔ ∃ i, i < 64 * xRows w ∧ e = (i, 0, srcAt y (xA w) (whole w) i) := by
  simp only [movWords, List.mem_map, mem_words_whole, eq_comm]

/-- The table of whole words written once each. -/
theorem tget_wholeWords (f : Nat → Nat) (n i : Nat) : tget 0 (((List.range n).map fun i => (i, 0, f i)).foldl
    (fun t e => tput t e.1 (setFld (tget 0 t e.1) (32 * e.2.1 + 32 - 1) (32 * e.2.1) e.2.2)) []) i =
      if i < n then f i % 2 ^ 32 else 0 := by
  induction n with
  | zero => rfl
  | succ n ih =>
    rw [List.range_succ, List.map_append, List.foldl_append, List.map_singleton, List.foldl_cons, List.foldl_nil]
    by_cases hi : i = n
    · subst hi
      rw [if_neg (Nat.lt_irrefl i)] at ih
      rw [tget_tput_same, ih, if_pos (Nat.lt_succ_self i)]
      simp [setFld, fld]
    · rw [tget_tput_ne _ _ _ hi, ih]
      exact if_congr (by omega) rfl rfl

theorem getD_elemRows {w row col : Nat} (t : Table Nat) (hrow : row < xRows w) (hcol : col < 64) :
    ((elemRows (whole w) t).getD row []).getD col 0 = tget 0 t (64 * row + col) := by
  rw [elemRows, whole, rangeFrom_zero]
  simp [List.getD_eq_getElem?_getD, hrow, hcol]

theorem getD_movRows {w row col : Nat} (y : RexUnit) (hrow : row < xRows w) (hcol : col < 64) :
    ((elemRows (whole w) (elemWords (whole w) 32 (fun _ => 0) (movWords y w))).getD row []).getD col 0 =
      srcAt y (xA w) (whole w) (64 * row + col) % 2 ^ 32 := by
  have hblank : (whole w).words.foldl (fun t i => if (fun _ : Nat => 0) i = 0 then t else tput t i 0) [] = [] :=
    foldl_fixes (fun t : Table Nat => t) _ (fun _ _ _ => if_pos rfl) []
  rw [getD_elemRows _ hrow hcol, elemWords, hblank, movWords, words_whole, tget_wholeWords, if_pos (by omega)]

section

variable {s : State} {u : Fin 128} {r : Nat} {x : Run} {pc w : Nat}

theorem exec_mov_of_ready (h : exeReady s u 0x2B { a := true } r x pc w) (hfmt : xFmt w ≤ 6) (hrnd : xRnd w = false) :
    exec (.mov u) s = .next (passExe s u (unitOf s u)
      (writeElems (unitOf s u) (xD w) (whole w) 32 (fun _ => 0) (movWords (unitOf s u) w)) (usedCodes { a := true } w)
      (dstQueues (xD w)) (xD w) (whole w) (xRows w)) := by
  show execMov u s = _
  exact exeInstr_of_ready h (by simp [hrnd, Nat.not_lt.mpr hfmt]) _

theorem mov_to_tile (h : exeReady s u 0x2B { a := true } r x pc w) (hfmt : xFmt w ≤ 6) (hrnd : xRnd w = false)
    (hdst : xD w < 16) : ∃ t, exec (.mov u) s = .next t ∧ exeLeaves s t u { a := true } w ∧
      (∀ i, i < 64 * xRows w → fld (tileWord (unitOf t u) (xD w) i) 31 0 =
        srcAt (unitOf s u) (xA w) (whole w) i % 2 ^ 32) ∧
      (∀ d i, d ≠ xD w → i < 4096 → tileWord (unitOf t u) d i = tileWord (unitOf s u) d i) := by
  have hexec := exec_mov_of_ready h hfmt hrnd
  rw [writeElems_of_no_queue (dstQueues_of_tile hdst)] at hexec
  obtain ⟨hleaves, htiles, -, -⟩ := leaves_passExe_whole h
    (onlyResults_putElems (xD w) 32 (movWords (unitOf s u) w) _) (dstQueues (xD w)) rfl
  have hrows := xRows_le w
  refine ⟨_, hexec, hleaves, fun i hi => ?_, fun d i hd hi => ?_⟩
  · rw [tileWord_of_tiles htiles]
    refine fld_putElems (by decide) (mem_movWords.mpr ⟨i, hi, rfl⟩) (fun b hb hword _ => ?_) (unitOf s u)
    obtain ⟨j, -, rfl⟩ := mem_movWords.mp hb
    have hword : j = i := hword
    rw [hword]
  · rw [tileWord_of_tiles htiles]
    refine tileWord_putElems_other (fun e he => ?_) (unitOf s u)
    obtain ⟨j, hj, rfl⟩ := mem_movWords.mp he
    have : j < 4096 := by omega
    omega

theorem mov_to_queues (h : exeReady s u 0x2B { a := true } r x pc w) (hfmt : xFmt w ≤ 6) (hrnd : xRnd w = false)
    (hdst : 16 ≤ xD w) : ∃ t, exec (.mov u) s = .next t ∧ exeLeaves s t u { a := true } w ∧
      (unitOf t u).tiles = (unitOf s u).tiles ∧
      ∀ q ∈ dstQueues (xD w), ∃ items, aqOf (unitOf t u) q = aqOf (unitOf s u) q ++ items ∧
        items.length = xRows w ∧ ∀ row col, row < xRows w → col < 64 → (items.getD row []).getD col 0 =
          srcAt (unitOf s u) (xA w) (whole w) (64 * row + col) % 2 ^ 32 := by
  obtain ⟨honly, htiles, -, hpush⟩ := pushed_writeElems (dstQueues_ne_nil rfl h.2.1 hdst) (unitOf s u) (whole w) 32
    (fun _ => 0) (movWords (unitOf s u) w)
  obtain ⟨hleaves, htiles', -, hqueues⟩ := leaves_passExe_whole h honly (dstQueues (xD w)) rfl
  refine ⟨_, exec_mov_of_ready h hfmt hrnd, hleaves, htiles'.trans htiles, fun q hq => ⟨_,
    (hqueues q (two_le_of_mem_dstQueues hq)).trans (hpush q hq), length_elemRows _ _, fun row col hrow hcol =>
    getD_movRows _ hrow hcol⟩⟩

end

/-! ### CVT (R441) -/

/-- Where the `i`th converted element stands in D. -/
def cvtPos (w i : Nat) : Nat :=
  if fmtBits (xDfmt w) < fmtBits (xFmt w) then xPack w * (4096 * 32 / fmtBits (xFmt w)) + i else i

/-- Which element of A it converts. -/
def cvtSrc (w i : Nat) : Nat :=
  if fmtBits (xFmt w) < fmtBits (xDfmt w) then xPack w * (4096 * 32 / fmtBits (xDfmt w)) + i else i

/-- How many elements are converted. -/
def cvtCount (w : Nat) : Nat := 4096 * 32 / max (fmtBits (xFmt w)) (fmtBits (xDfmt w))

def cvtElem (y : RexUnit) (w i : Nat) : Elem where
  word := cvtPos w i / (32 / fmtBits (xDfmt w))
  place := cvtPos w i % (32 / fmtBits (xDfmt w))
  res := .val (elemVal (xFmt w) (tileElem (srcAt y (xA w) (whole w)) (fmtBits (xFmt w)) (cvtSrc w i)))

theorem cvtElems_eq {w : Nat} (hpack : xPack w ≠ 4) (y : RexUnit) :
    cvtElems y w (whole w) = (List.range (cvtCount w)).map (cvtElem y w) := by
  simp only [cvtElems, if_neg hpack]
  split
  next hlt =>
    refine List.map_congr_left fun i _ => ?_
    simp only [cvtElem, cvtPos, cvtSrc, if_pos hlt, if_neg (Nat.lt_asymm hlt)]
  next hge => exact List.map_congr_left fun i _ => by simp only [cvtElem, cvtPos, cvtSrc, if_neg hge]

theorem rows_of_cvt {w : Nat} (h : cvtBad w = false) : xRows w = 64 := by
  simp only [cvtBad, Bool.or_eq_false_iff, decide_eq_false_iff_not, not_not] at h
  exact h.1.1.2

theorem pack_of_cvt {w : Nat} (h : cvtBad w = false) (hpack : xPack w ≠ 4)
    (hlt : fmtBits (xDfmt w) < fmtBits (xFmt w)) : xPack w < fmtBits (xFmt w) / fmtBits (xDfmt w) := by
  simp only [cvtBad, Bool.or_eq_false_iff, if_neg hpack, if_pos hlt, decide_eq_false_iff_not] at h
  exact Nat.lt_of_not_le h.2.1

theorem cvtPos_lt {w i : Nat} (h : cvtBad w = false) (hpack : xPack w ≠ 4) (hi : i < cvtCount w) :
    cvtPos w i < 4096 * (32 / fmtBits (xDfmt w)) := by
  have hp := pack_of_cvt h hpack
  simp only [cvtPos, cvtCount] at hi ⊢
  obtain hs | hs | hs := fmtBits_cases (xFmt w) <;> obtain hd | hd | hd := fmtBits_cases (xDfmt w) <;>
    simp only [hs, hd] at hp hi ⊢ <;> norm_num at hp hi ⊢ <;> omega

theorem cvtPos_injective {w i j : Nat} (h : cvtPos w i = cvtPos w j) : i = j := by
  unfold cvtPos at h
  split at h
  · exact Nat.add_left_cancel h
  · exact h

theorem exec_cvt_of_ready {s : State} {u : Fin 128} {r : Nat} {x : Run} {pc w : Nat}
    (h : exeReady s u 0x2C { a := true } r x pc w) (hgood : cvtBad w = false) (hpack : xPack w ≠ 4) :
    exec (.cvt u) s = .next (passExe s u (unitOf s u) (putResults s x (unitOf s u) w (whole w) (xDfmt w)
      (fmtBits (xDfmt w)) (fun _ => 0) ((List.range (cvtCount w)).map (cvtElem (unitOf s u) w)))
      (usedCodes { a := true } w) (dstQueues (xD w)) (xD w) (whole w) (xRows w)) := by
  have hall : ((List.range (cvtCount w)).map (cvtElem (unitOf s u) w)).filter (fun e =>
      decide ((whole w).lo ≤ e.word / 64) && decide (e.word / 64 < (whole w).lo + (whole w).n)) =
      (List.range (cvtCount w)).map (cvtElem (unitOf s u) w) := by
    refine List.filter_eq_self.mpr fun e he => ?_
    obtain ⟨i, hi, rfl⟩ := List.mem_map.mp he
    have hword : cvtPos w i / (32 / fmtBits (xDfmt w)) < 4096 :=
      Nat.div_lt_of_lt_mul (Nat.mul_comm 4096 _ ▸ cvtPos_lt hgood hpack (List.mem_range.mp hi))
    simp only [cvtElem, whole, rows_of_cvt hgood, Bool.and_eq_true, decide_eq_true_eq]
    generalize cvtPos w i / (32 / fmtBits (xDfmt w)) = n at hword
    omega
  show execCvt u s = _
  refine (exeInstr_of_ready h hgood _).trans ?_
  simp only [cvtElems_eq hpack, hall, hpack, decide_false, Bool.false_and, Bool.false_eq_true, if_false]
  rfl

theorem cvt_to_tile {s : State} {u : Fin 128} {r : Nat} {x : Run} {pc w : Nat}
    (h : exeReady s u 0x2C { a := true } r x pc w) (hgood : cvtBad w = false) (hrnd : xRnd w = false)
    (hdst : xD w < 16) (hpack : xPack w ≠ 4) : ∃ t, exec (.cvt u) s = .next t ∧ exeLeaves s t u { a := true } w ∧
      (∀ i, i < cvtCount w → fld (tileWord (unitOf t u) (xD w) (cvtPos w i / (32 / fmtBits (xDfmt w))))
          (fmtBits (xDfmt w) * (cvtPos w i % (32 / fmtBits (xDfmt w))) + fmtBits (xDfmt w) - 1)
          (fmtBits (xDfmt w) * (cvtPos w i % (32 / fmtBits (xDfmt w)))) =
        roundRes (xDfmt w) none (cvtElem (unitOf s u) w i).res % 2 ^ fmtBits (xDfmt w)) ∧
      (∀ d i, d ≠ xD w → i < 4096 → tileWord (unitOf t u) d i = tileWord (unitOf s u) d i) := by
  obtain ⟨hleaves, htiles, -, -⟩ := leaves_passExe_whole h (onlyResults_putResults hrnd hdst) (dstQueues (xD w)) rfl
  refine ⟨_, exec_cvt_of_ready h hgood hpack, hleaves, fun i hi => ?_, fun d i hd hi => ?_⟩
  · rw [tileWord_of_tiles htiles]
    refine fld_putResults (e := cvtElem (unitOf s u) w i) hrnd hdst (fmtBits_pos _)
      (List.mem_map_of_mem (List.mem_range.mpr hi)) fun b hb hword hplace => ?_
    obtain ⟨j, -, rfl⟩ := List.mem_map.mp hb
    have hpos : cvtPos w j = cvtPos w i := by
      rw [← Nat.div_add_mod (cvtPos w j) (32 / fmtBits (xDfmt w)), ← Nat.div_add_mod (cvtPos w i)
        (32 / fmtBits (xDfmt w))]
      exact congrArg₂ (fun a b => 32 / fmtBits (xDfmt w) * a + b) hword hplace
    rw [cvtPos_injective hpos]
  · rw [tileWord_of_tiles htiles]
    refine tileWord_putResults_other hrnd hdst fun e he => ?_
    obtain ⟨j, hj, rfl⟩ := List.mem_map.mp he
    have hword : (cvtElem (unitOf s u) w j).word < 4096 :=
      Nat.div_lt_of_lt_mul (Nat.mul_comm 4096 _ ▸ cvtPos_lt hgood hpack (List.mem_range.mp hj))
    omega

/-! ### SWU (R442) -/

/-- The updated weight at word `i`. -/
def swuElem (y : RexUnit) (w i : Nat) : Elem where
  word := i
  place := 0
  res := .val ((decodeF f32 (srcAt y (xA w) (whole w) i / 65536 * 65536 + srcAt y (xC w) (whole w) i % 65536)).add
    ((decodeF f32 (srcAt y (xB w) (whole w) i)).mul (decodeF f64 (accOf y (xAcci w)))))

theorem swu_to_tile {s : State} {u : Fin 128} {r : Nat} {x : Run} {pc w : Nat}
    (h : exeReady s u 0x2D { a := true, b := true, c := true, accB := false } r x pc w) (hfmt : xFmt w = 0)
    (hrnd : xRnd w = false) (hdst : xD w < 16) :
    ∃ t, exec (.swu u) s = .next t ∧ exeLeaves s t u { a := true, b := true, c := true, accB := false } w ∧
      (∀ i, i < 64 * xRows w → fld (tileWord (unitOf t u) (xD w) i) 31 0 =
        roundRes 0 none (swuElem (unitOf s u) w i).res % 2 ^ 32) ∧
      (∀ d i, d ≠ xD w → i < 4096 → tileWord (unitOf t u) d i = tileWord (unitOf s u) d i) := by
  have hexec : exec (.swu u) s = .next (passExe s u (unitOf s u) (putResults s x (unitOf s u) w (whole w) 0 32
      (fun _ => 0) ((whole w).words.map (swuElem (unitOf s u) w)))
      (usedCodes { a := true, b := true, c := true, accB := false } w) (dstQueues (xD w)) (xD w) (whole w)
      (xRows w)) := by
    show execSwu u s = _
    exact exeInstr_of_ready h (by simp [hfmt]) _
  obtain ⟨hleaves, htiles, -, -⟩ := leaves_passExe_whole h (onlyResults_putResults hrnd hdst) (dstQueues (xD w)) rfl
  have hrows := xRows_le w
  refine ⟨_, hexec, hleaves, fun i hi => ?_, fun d i hd hi => ?_⟩
  · rw [tileWord_of_tiles htiles]
    refine fld_putResults (e := swuElem (unitOf s u) w i) hrnd hdst (by decide)
      (List.mem_map_of_mem (mem_words_whole.mpr hi)) fun b hb hword _ => ?_
    obtain ⟨j, -, rfl⟩ := List.mem_map.mp hb
    have hword : j = i := hword
    rw [hword]
  · rw [tileWord_of_tiles htiles]
    refine tileWord_putResults_other hrnd hdst fun e he => ?_
    obtain ⟨j, hj, rfl⟩ := List.mem_map.mp he
    have hword : (swuElem (unitOf s u) w j).word < 4096 := by
      have := mem_words_whole.mp hj
      simp only [swuElem]
      omega
    omega

end Sys2Proof.Machine
end

section
/-! Reductions, scans and accumulator moves of a REX unit (R443-R445), and the moves' statement. -/

namespace Sys2Proof.Machine

open Sys2Proof

/-! ### ACC entries written in order -/

/-- Each of the first `n` ACC entries is changed once. -/
theorem accOf_foldl_setAcc (n : Nat) (g : Nat → Nat → Nat) (y : RexUnit) (k : Nat) :
    accOf ((List.range n).foldl (fun y c => setAcc y c (g c (accOf y c))) y) k =
      if k < n then g k (accOf y k) else accOf y k := by
  induction n with
  | zero => rfl
  | succ n ih =>
    rw [List.range_succ, List.foldl_append, List.foldl_cons, List.foldl_nil]
    by_cases hk : k = n
    · subst hk
      rw [if_neg (Nat.lt_irrefl k)] at ih
      rw [accOf_setAcc_same, ih, if_pos (Nat.lt_succ_self k)]
    · rw [accOf_setAcc_ne _ _ hk, ih]
      exact if_congr (by omega) rfl rfl

theorem tiles_foldl_setAcc (n : Nat) (g : Nat → Nat → Nat) (y : RexUnit) :
    ((List.range n).foldl (fun y c => setAcc y c (g c (accOf y c))) y).tiles = y.tiles :=
  foldl_fixes (fun y => y.tiles) (f := fun y c => setAcc y c (g c (accOf y c))) _ (fun _ _ _ => rfl) y

theorem onlyResults_foldl_setAcc (n : Nat) (g : Nat → Nat → Nat) (y : RexUnit) :
    OnlyResults y ((List.range n).foldl (fun y c => setAcc y c (g c (accOf y c))) y) :=
  onlyResults_foldl _ (fun y _ _ => onlyResults_setAcc y _ _) y

/-! ### RED (R443) -/

/-- The elements that RED takes from word `i` of its source. -/
def redElems (y : RexUnit) (w i : Nat) : List Nat :=
  (wordElems (xFmt w) (srcAt y (xA w) (whole w) i)).map fun e => redIn (xFmt w) (fld w 13 12) e

/-- An ACC entry after RED: the tree of the elements, combined with the entry where the instruction says so. -/
def redEntry (w : Nat) (l : List Nat) (old : Nat) : Nat :=
  if bitAt w 11 then redOp (xFmt w) (fld w 13 12) old (treeSum (redOp (xFmt w) (fld w 13 12)) 0 l)
  else treeSum (redOp (xFmt w) (fld w 13 12)) 0 l

/-- The unit after RED along rows. -/
def redRows (y : RexUnit) (w : Nat) : RexUnit :=
  (List.range (xRows w)).foldl (fun y' row => setAcc y' row (redEntry w
    ((List.range 64).flatMap fun c => redElems y w (64 * row + c)) (accOf y' row))) y

/-- The unit after RED along columns. -/
def redCols (y : RexUnit) (w : Nat) : RexUnit :=
  (List.range 64).foldl (fun y' col => setAcc y' col (redEntry w
    ((List.range (xRows w)).flatMap fun row => redElems y w (64 * row + col)) (accOf y' col))) y

theorem zipIdx_map_range {α : Type} (f : Nat → α) (n : Nat) :
    ((List.range n).map f).zipIdx = (List.range n).map fun i => (f i, i) := by
  refine List.ext_getElem (by simp) fun i h₁ h₂ => ?_
  simp

section

variable {s : State} {u : Fin 128} {r : Nat} {x : Run} {pc w : Nat}

theorem exec_red_of_rows (h : exeReady s u 0x30 { a := true, d := false } r x pc w) (hfmt : xFmt w ≤ 6)
    (hrnd : xRnd w = false) (hrow : xSpec14 w = false) (hacc : bitAt w 11 = true → xAcci w < xRows w) :
    exec (.red u) s = .next (passExe s u (unitOf s u) (redRows (unitOf s u) w) (usedCodes { a := true, d := false } w)
      [] (xD w) (whole w) (xRows w)) := by
  show execRed u s = _
  refine (exeInstr_of_ready h ?_ _).trans ?_
  · have hlow : decide (6 < xFmt w) = false := decide_eq_false (Nat.not_lt.mpr hfmt)
    cases hbit : bitAt w 11
    · simp [hlow, hrnd]
    · have := hacc hbit
      simp only [hlow, hrnd, hrow, Bool.not_false, Bool.true_and, Bool.false_or, decide_eq_false_iff_not]
      omega
  · simp only [hrow, Bool.not_false, if_true, whole, rangeFrom_zero, zipIdx_map_range, List.foldl_map,
      List.flatMap_map]
    rfl

theorem exec_red_of_cols (h : exeReady s u 0x30 { a := true, d := false } r x pc w) (hfmt : xFmt w ≤ 6)
    (hrnd : xRnd w = false) (hcol : xSpec14 w = true) :
    exec (.red u) s = .next (passExe s u (unitOf s u) (redCols (unitOf s u) w) (usedCodes { a := true, d := false } w)
      [] (xD w) (whole w) (xRows w)) := by
  have hheld := h.2.2.2.1
  show execRed u s = _
  refine (exeInstr_of_ready h (by simp [Nat.not_lt.mpr hfmt, hrnd, hcol]) _).trans ?_
  simp only [hcol, Bool.not_true, Bool.false_eq_true, if_false, whole, Nat.zero_add, if_neg (Nat.lt_irrefl _), hheld,
    List.nil_append, rangeFrom_zero, List.flatMap_map]
  refine congrArg (fun z => Host.Outcome.next (passExe s u (unitOf s u) z _ _ (xD w) (whole w) (xRows w))) ?_
  refine List.foldl_ext _ _ _ fun y col hcol => ?_
  have hlt := List.mem_range.mp hcol
  have hword : ∀ row, ((List.range 64).map fun c => srcAt (unitOf s u) (xA w) (whole w) (64 * row + c)).getD col 0 =
      srcAt (unitOf s u) (xA w) (whole w) (64 * row + col) := fun row => by
    simp [List.getD_eq_getElem?_getD, hlt]
  rw [whole] at hword
  simp only [hword]
  rfl

theorem red_along_rows (h : exeReady s u 0x30 { a := true, d := false } r x pc w) (hfmt : xFmt w ≤ 6)
    (hrnd : xRnd w = false) (hrow : xSpec14 w = false) (hacc : bitAt w 11 = true → xAcci w < xRows w) :
    ∃ t, exec (.red u) s = .next t ∧ exeLeaves s t u { a := true, d := false } w ∧
      (unitOf t u).tiles = (unitOf s u).tiles ∧
      (∀ row, row < xRows w → accOf (unitOf t u) row = redEntry w
        ((List.range 64).flatMap fun c => redElems (unitOf s u) w (64 * row + c)) (accOf (unitOf s u) row)) ∧
      ∀ k, xRows w ≤ k → accOf (unitOf t u) k = accOf (unitOf s u) k := by
  let g := fun row => redEntry w ((List.range 64).flatMap fun c => redElems (unitOf s u) w (64 * row + c))
  obtain ⟨hleaves, htiles, haccf, -⟩ :=
    leaves_passExe_whole h (onlyResults_foldl_setAcc (xRows w) g (unitOf s u)) [] rfl
  have hentry := accOf_foldl_setAcc (xRows w) g (unitOf s u)
  simp only [← accOf_of_accf haccf] at hentry
  exact ⟨_, exec_red_of_rows h hfmt hrnd hrow hacc, hleaves, htiles.trans (tiles_foldl_setAcc _ g _),
    fun row hlt => (hentry row).trans (if_pos hlt), fun k hk => (hentry k).trans (if_neg (Nat.not_lt.mpr hk))⟩

theorem red_along_columns (h : exeReady s u 0x30 { a := true, d := false } r x pc w) (hfmt : xFmt w ≤ 6)
    (hrnd : xRnd w = false) (hcol : xSpec14 w = true) :
    ∃ t, exec (.red u) s = .next t ∧ exeLeaves s t u { a := true, d := false } w ∧
      (unitOf t u).tiles = (unitOf s u).tiles ∧
      (∀ col, col < 64 → accOf (unitOf t u) col = redEntry w
        ((List.range (xRows w)).flatMap fun row => redElems (unitOf s u) w (64 * row + col))
        (accOf (unitOf s u) col)) ∧
      ∀ k, 64 ≤ k → accOf (unitOf t u) k = accOf (unitOf s u) k := by
  let g := fun col => redEntry w ((List.range (xRows w)).flatMap fun row => redElems (unitOf s u) w (64 * row + col))
  obtain ⟨hleaves, htiles, haccf, -⟩ :=
    leaves_passExe_whole h (onlyResults_foldl_setAcc 64 g (unitOf s u)) [] rfl
  have hentry := accOf_foldl_setAcc 64 g (unitOf s u)
  simp only [← accOf_of_accf haccf] at hentry
  exact ⟨_, exec_red_of_cols h hfmt hrnd hcol, hleaves, htiles.trans (tiles_foldl_setAcc _ g _),
    fun col hlt => (hentry col).trans (if_pos hlt), fun k hk => (hentry k).trans (if_neg (Nat.not_lt.mpr hk))⟩

end

/-! ### SCAN and SSCAN (R444) -/

theorem accf_scanRows {w : Nat} (hplain : xSpec14 w = false) (s : State) (x : Run) (k : Rows) (seg : Bool)
    (y : RexUnit) : (scanRows s x w k seg y).accf = y.accf := by
  dsimp only [scanRows]
  rw [accf_putResults]
  refine foldl_fixes (fun p : RexUnit × List Elem => p.1.accf) _ (fun p row _ => ?_) (y, [])
  simp only [hplain, Bool.false_eq_true, if_false]

/-! ### ACCW, ACCZ and ACCSUM (R445) -/

/-- How many elements a word holds. -/
def perWord (w : Nat) : Nat := 32 / fmtBits (xFmt w)

theorem perWord_pos (w : Nat) : 0 < perWord w := by
  unfold perWord
  obtain hbits | hbits | hbits := fmtBits_cases (xFmt w) <;> rw [hbits] <;> decide

theorem div_perWord_lt {w n : Nat} (h : n < 64 * perWord w) : n / perWord w < 64 :=
  Nat.div_lt_of_lt_mul (Nat.mul_comm 64 _ ▸ h)

/-- Element `i` of row `row` of what ACCW writes. -/
def accwElem (y : RexUnit) (w row i : Nat) : Elem where
  word := 64 * row + i / perWord w
  place := i % perWord w
  res := .val (accVal (xFmt w) (accOf y row))

/-- The results of ACCW over whole rows. -/
def accwElems (y : RexUnit) (w : Nat) : List Elem :=
  (List.range (xRows w)).flatMap fun row =>
    (List.range (64 * perWord w)).map fun i => accwElem y w row i

theorem mem_accwElems {y : RexUnit} {w : Nat} {e : Elem} : e ∈ accwElems y w ↔
    ∃ row, row < xRows w ∧ ∃ i, i < 64 * perWord w ∧ e = accwElem y w row i := by
  simp only [accwElems, List.mem_flatMap, List.mem_map, List.mem_range, eq_comm]

/-- The element of ACCW at place `j` of word `i`. -/
theorem accwElem_at {y : RexUnit} {w i j : Nat} (hi : i < 64 * xRows w) (hj : j < perWord w) :
    ∃ e ∈ accwElems y w, e.word = i ∧ e.place = j ∧ e.res = .val (accVal (xFmt w) (accOf y (i / 64))) := by
  have hin : i % 64 * perWord w + j < 64 * perWord w := by
    have := Nat.mul_le_mul_right (perWord w) (Nat.mod_lt i (by decide : 0 < 64))
    rw [Nat.succ_mul] at this
    omega
  refine ⟨accwElem y w (i / 64) (i % 64 * perWord w + j), mem_accwElems.mpr ⟨i / 64, by omega, _, hin, rfl⟩, ?_, ?_,
    rfl⟩
  · simp only [accwElem, Nat.mul_comm (i % 64), Nat.mul_add_div (perWord_pos w), Nat.div_eq_of_lt hj]
    omega
  · simp only [accwElem, Nat.mul_comm (i % 64), Nat.mul_add_mod, Nat.mod_eq_of_lt hj]

/-- An element of ACCW is the entry of its word's row. -/
theorem accwElem_of_mem {y : RexUnit} {w : Nat} {e : Elem} (he : e ∈ accwElems y w) :
    e.word < 64 * xRows w ∧ e.res = .val (accVal (xFmt w) (accOf y (e.word / 64))) := by
  obtain ⟨row, hrow, n, hn, rfl⟩ := mem_accwElems.mp he
  have hdigit := div_perWord_lt hn
  have hword : (accwElem y w row n).word = 64 * row + n / perWord w := rfl
  generalize n / perWord w = m at hdigit hword
  rw [hword, show (64 * row + m) / 64 = row by omega]
  exact ⟨by omega, rfl⟩

theorem exeReady_fresh {s : State} {u op r : Nat} {x : Run} {pc w : Nat} {k : Uses} (n : Nat)
    (h : exeReady s u op k r x pc w) : exeReady { s with fresh := n } u op k r x pc w :=
  ⟨issues_fresh n h.1, h.2⟩

theorem exec_accw_of_rows {s : State} {u : Fin 128} {r : Nat} {x : Run} {pc w : Nat}
    (h : exeReady s u 0x33 {} r x pc w) (hfmt : xFmt w ≤ 6) (hrow : xSpec14 w = false) :
    exec (.accw u) s = .next (passExe { s with fresh := s.fresh + 1 } u
      (unitOf s u) (putResults { s with fresh := s.fresh + 1 } x (unitOf s u) w (whole w) (xFmt w)
      (fmtBits (xFmt w)) (fun _ => 0) (accwElems (unitOf s u) w)) (usedCodes {} w) (dstQueues (xD w)) (xD w) (whole w)
      (xRows w)) := by
  show execAccw u s = _
  rw [execAccw, exeInstr_of_ready (exeReady_fresh (s.fresh + 1) h) (by simp [Nat.not_lt.mpr hfmt, hrow])]
  simp only [hrow, Bool.false_eq_true, if_false, whole, rangeFrom_zero,
    show unitOf { s with fresh := s.fresh + 1 } u = unitOf s u from rfl,
    show pushQueues {} w = dstQueues (xD w) from rfl]
  rfl

section

variable {s : State} {u : Fin 128} {r : Nat} {x : Run} {pc w : Nat}

theorem accw_to_tile (h : exeReady s u 0x33 {} r x pc w) (hfmt : xFmt w ≤ 6) (hrnd : xRnd w = false)
    (hrow : xSpec14 w = false) (hdst : xD w < 16) :
    ∃ t, exec (.accw u) s = .next t ∧ (unitOf t u).accf = (unitOf s u).accf ∧
      t = { s with rex := t.rex, fresh := t.fresh } ∧ (∀ v, v ≠ u.val → unitOf t v = unitOf s v) ∧
      (∀ i j, i < 64 * xRows w → j < 32 / fmtBits (xFmt w) →
        fld (tileWord (unitOf t u) (xD w) i) (fmtBits (xFmt w) * j + fmtBits (xFmt w) - 1) (fmtBits (xFmt w) * j) =
          roundRes (xFmt w) none (.val (accVal (xFmt w) (accOf (unitOf s u) (i / 64)))) % 2 ^ fmtBits (xFmt w)) ∧
      (∀ d i, d ≠ xD w → i < 4096 → tileWord (unitOf t u) d i = tileWord (unitOf s u) d i) := by
  have hexec := exec_accw_of_rows h hfmt hrow
  generalize ht : passExe { s with fresh := s.fresh + 1 } u _ _ _ _ _ _ _ = t at hexec
  obtain ⟨hleaves, htiles, haccf, -⟩ := leaves_passExe_whole (exeReady_fresh (s.fresh + 1) h)
    (onlyResults_putResults hrnd hdst) (dstQueues (xD w)) ht
  obtain ⟨⟨hrest, -, -, hunits⟩, -, -, -⟩ := hleaves
  have hrows := xRows_le w
  refine ⟨t, hexec, haccf.trans (accf_putResults _ _ _ _ _ _ _ _ _), ?_, hunits, fun i j hi hj => ?_,
    fun d i hd hi => ?_⟩
  · rw [hrest]
  · obtain ⟨e, he, rfl, rfl, hres⟩ := accwElem_at (y := unitOf s u) hi hj
    rw [tileWord_of_tiles htiles, ← hres]
    exact fld_putResults hrnd hdst (fmtBits_pos _) he fun b hb hword _ => by
      rw [(accwElem_of_mem hb).2, hword, (accwElem_of_mem he).2]
  · rw [tileWord_of_tiles htiles]
    refine tileWord_putResults_other hrnd hdst fun e he => ?_
    have := (accwElem_of_mem he).1
    omega

/-- The unit after ACCZ. -/
def accCleared (y : RexUnit) (w : Nat) : RexUnit :=
  (List.range (xRows w)).foldl (fun y k => if xAcci w + k < 64 then setAcc y (xAcci w + k) 0 else y) y

theorem exec_accz_of_ready (h : exeReady s u 0x34 { d := false } r x pc w) (hrnd : xRnd w = false) :
    exec (.accz u) s = .next (passExe s u (unitOf s u) (accCleared (unitOf s u) w) (usedCodes { d := false } w) []
      (xD w) (whole w) (xRows w)) := by
  show execAccz u s = _
  exact exeInstr_of_ready h hrnd _

theorem onlyResults_accCleared (y : RexUnit) (w : Nat) : OnlyResults y (accCleared y w) :=
  onlyResults_foldl _ (fun y k _ => by
    split
    · exact onlyResults_setAcc y _ _
    · exact OnlyResults.refl y) y

theorem tiles_accCleared (y : RexUnit) (w : Nat) : (accCleared y w).tiles = y.tiles :=
  foldl_fixes (fun y => y.tiles) (f := fun y k => if xAcci w + k < 64 then setAcc y (xAcci w + k) 0 else y) _
    (fun y k _ => by
      split <;> rfl) y

theorem accOf_accCleared_in {k : Nat} (hlo : xAcci w ≤ k) (hhi : k < xAcci w + xRows w) (h64 : k < 64) (y : RexUnit) :
    accOf (accCleared y w) k = 0 := by
  refine foldl_sets (fun y => accOf y k) (a := k - xAcci w) (List.mem_range.mpr (by omega)) (fun y => ?_)
    (fun y j _ => ?_) y
  · rw [Nat.add_sub_cancel' hlo, if_pos h64, accOf_setAcc_same]
  · by_cases hj : xAcci w + j = k
    · rw [hj, if_pos h64, accOf_setAcc_same]
      exact .inl rfl
    · refine .inr ?_
      split
      · exact accOf_setAcc_ne _ _ (Ne.symm hj)
      · rfl

theorem accOf_accCleared_out {k : Nat} (hk : k < xAcci w ∨ xAcci w + xRows w ≤ k) (y : RexUnit) :
    accOf (accCleared y w) k = accOf y k :=
  foldl_fixes (fun y => accOf y k) (f := fun y k => if xAcci w + k < 64 then setAcc y (xAcci w + k) 0 else y) _
    (fun y j hj => by
      have := List.mem_range.mp hj
      split
      · exact accOf_setAcc_ne _ _ (by omega)
      · rfl) y

/-- The sum that ACCSUM leaves. -/
def accSum (y : RexUnit) (w : Nat) : Nat :=
  treeSum (if (fmtOf (xFmt w)).isSome then add64 else addI64) 0 ((List.range (xRows w)).map fun k => accOf y k)

theorem exec_accsum_of_ready (h : exeReady s u 0x35 { d := false } r x pc w) (hfmt : xFmt w ≤ 6)
    (hrnd : xRnd w = false) : exec (.accsum u) s = .next (passExe s u (unitOf s u)
      (setAcc (unitOf s u) (xAcci w) (accSum (unitOf s u) w)) (usedCodes { d := false } w) [] (xD w) (whole w)
      (xRows w)) := by
  show execAccsum u s = _
  exact exeInstr_of_ready h (by simp [Nat.not_lt.mpr hfmt, hrnd]) _

end

/-- Settles O53: each instruction's rows pass with its results, which the fold over the rows leaves one by one. -/
theorem movesAndReductions : Obligations.MovesAndReductions := by
  unfold Obligations.MovesAndReductions
  refine ⟨⟨fun s u r x pc w h hfmt hrnd hdst => mov_to_tile h hfmt hrnd hdst,
    fun s u r x pc w h hfmt hrnd hdst => mov_to_queues h hfmt hrnd hdst,
    fun s u r x pc w h hgood hrnd hdst hpack => ?_, fun s u r x pc w h hfmt hrnd hdst => swu_to_tile h hfmt hrnd hdst⟩,
    fun s u r x pc w h hfmt hrnd hrow hacc => ?_, fun s u r x pc w h hfmt hrnd hcol => ?_,
    fun s u r x pc w h hfmt => ?_, fun s u r x pc w h hfmt => ?_, fun add v a start l => ⟨rfl, rfl⟩,
    fun s x w k seg y hplain => accf_scanRows hplain s x k seg y,
    fun s u r x pc w h hfmt hrnd hrow hdst => accw_to_tile h hfmt hrnd hrow hdst,
    fun s u r x pc w h hrnd => ?_, fun s u r x pc w h hfmt hrnd => ?_⟩
  · obtain ⟨t, hexec, hleaves, helems, hother⟩ := cvt_to_tile h hgood hrnd hdst hpack
    refine ⟨t, hexec, hleaves, fun i p hi hp => ?_, hother⟩
    subst hp
    exact helems i hi
  · obtain ⟨t, hexec, hleaves, htiles, hin, hout⟩ := red_along_rows h hfmt hrnd hrow hacc
    refine ⟨t, hexec, hleaves, htiles, fun row v hlt hv => ?_, hout⟩
    subst hv
    exact hin row hlt
  · obtain ⟨t, hexec, hleaves, htiles, hin, hout⟩ := red_along_columns h hfmt hrnd hcol
    refine ⟨t, hexec, hleaves, htiles, fun col v hlt hv => ?_, hout⟩
    subst hv
    exact hin col hlt
  · show execScan u s = _
    exact exeInstr_of_ready h (decide_eq_false (Nat.not_lt.mpr hfmt)) _
  · show execSscan u s = _
    exact exeInstr_of_ready h (decide_eq_false (Nat.not_lt.mpr hfmt)) _
  · obtain ⟨hleaves, htiles, haccf, -⟩ := leaves_passExe_whole h (onlyResults_accCleared (unitOf s u) w) [] rfl
    refine ⟨_, exec_accz_of_ready h hrnd, hleaves, htiles.trans (tiles_accCleared _ _), fun k hlo hhi h64 => ?_,
      fun k hk => ?_⟩
    · rw [accOf_of_accf haccf]
      exact accOf_accCleared_in hlo hhi h64 _
    · rw [accOf_of_accf haccf]
      exact accOf_accCleared_out hk _
  · obtain ⟨hleaves, htiles, haccf, -⟩ := leaves_passExe_whole h
      (onlyResults_setAcc (unitOf s u) (xAcci w) (accSum (unitOf s u) w)) [] rfl
    refine ⟨_, exec_accsum_of_ready h hfmt hrnd, hleaves, htiles, ?_, fun k hk => ?_⟩
    · rw [accOf_of_accf haccf]
      exact accOf_setAcc_same _ _ _
    · rw [accOf_of_accf haccf]
      exact accOf_setAcc_ne _ _ hk

end Sys2Proof.Machine
end
